-- ==== Sys2Proof/Word.lean ====
section
/-! DEFINITION. The word types of the ISG-6410 and their plainest readings: bytes, x registers (R4), instruction
words (R58), and the field of a bit vector. -/
namespace Sys2Proof

/-- A byte. -/
abbrev Byte := BitVec 8
/-- The width of a scalar register (R4). -/
abbrev Word := BitVec 64
/-- An instruction word (R58). -/
abbrev IWord := BitVec 32
/-- A register field of five bits (R60). -/
abbrev Reg := BitVec 5

/-- `n` bits of `w` from bit `lo` up. -/
abbrev fld {m : Nat} (w : BitVec m) (lo n : Nat) : BitVec n := w.extractLsb' lo n

/-- A Bool as one bit. -/
abbrev bit1 (b : Bool) : BitVec 1 := BitVec.ofBool b

/-- Bit 0 of a one-bit field. -/
abbrev isOne (b : BitVec 1) : Bool := b == 1#1

end Sys2Proof
end

