-- ==== Sys2Proof/Syntax.lean ====
section
/-! DEFINITION. The instructions of the ISG-6410: one constructor for each row of the opcode table. The first 299 are
words (R58 to R81) with the fields of R60; the other 96 are the device steps of 95_what_each_step_holds, which have no
bits: their arguments name the agent that takes the step, or carry what comes from outside the device.
The words that may put themselves into TVAL or into the vector queue stand first: Lean's compiler can build only the first
244 constructors that have fields, so the decoder, which builds the others too, is not compiled; the kernel evaluates it. -/
namespace Sys2Proof

/-- A scope code (R67); codes 110 and 111 are reserved and have no constructor. -/
inductive Scope where
  | hart | core | clu | die | dev | sys
  deriving DecidableEq, Repr

/-- The three bits of a scope (R67). -/
def Scope.code : Scope → BitVec 3
  | .hart => 0 | .core => 1 | .clu => 2 | .die => 3 | .dev => 4 | .sys => 5

/-- The scope of three bits, none for a reserved code (R67, R80). -/
def Scope.ofCode (c : BitVec 3) : Option Scope :=
  match c.toNat with
  | 0 => some .hart | 1 => some .core | 2 => some .clu | 3 => some .die | 4 => some .dev | 5 => some .sys
  | _ => none

/-- The RM field of a scalar floating-point word (R68): a rounding mode of R38, or VTYPE.RM. -/
inductive Rm where
  | rne | rtz | rdn | rup | rna | dyn
  deriving DecidableEq, Repr

/-- The three bits of an RM field (R68). -/
def Rm.code : Rm → BitVec 3
  | .rne => 0 | .rtz => 1 | .rdn => 2 | .rup => 3 | .rna => 4 | .dyn => 7

/-- The RM field of three bits; 101 and 110 are reserved (R68). -/
def Rm.ofCode (c : BitVec 3) : Option Rm :=
  match c.toNat with
  | 0 => some .rne | 1 => some .rtz | 2 => some .rdn | 3 => some .rup | 4 => some .rna | 7 => some .dyn
  | _ => none

/-- The operation of an atomic (R68, R117): the OP and N fields. -/
inductive AmoOp where
  | add | and | or | xor | min | minn | max | maxn | swap | cas
  deriving DecidableEq, Repr

/-- The structure that a targeted self-test covers (R388): an SRAM row, an SRAM column, a quad of the core, the core, its cluster, a
DRAM channel. -/
inductive Tested where
  | row | column | quad (q : Nat) | core | cluster | channel
  deriving DecidableEq, Repr

/-- What a frame from another module asks of this module's home (R361): a load of 1 to 8 bytes, a store within a line, or an
atomic. -/
inductive RemoteOp where
  | load (bytes : Nat)
  | store (bytes : Nat) (data : BitVec 512)
  | atomic (op : AmoOp) (wide : Bool) (operand compare : BitVec 64)
  deriving DecidableEq, Repr

/-- The instructions: one constructor for each row of the opcode table. -/
inductive Instr where
  /-- MUL (R114). Writes the low 64 bits of x[A] times x[B] to x[D]. -/
  | mul (d : BitVec 5) (a : BitVec 5) (b : BitVec 5)
  /-- MULH (R114). Writes the high 64 bits of the signed product to x[D]. -/
  | mulh (d : BitVec 5) (a : BitVec 5) (b : BitVec 5)
  /-- MULHN (R114). Writes the high 64 bits of the unsigned product to x[D]. -/
  | mulhn (d : BitVec 5) (a : BitVec 5) (b : BitVec 5)
  /-- DIV (R114). Writes the signed quotient to x[D], with divide-by-zero and overflow handling. -/
  | div (d : BitVec 5) (a : BitVec 5) (b : BitVec 5)
  /-- DIVN (R114). Writes the unsigned quotient to x[D]. -/
  | divn (d : BitVec 5) (a : BitVec 5) (b : BitVec 5)
  /-- REM (R114). Writes the signed remainder to x[D]. -/
  | rem (d : BitVec 5) (a : BitVec 5) (b : BitVec 5)
  /-- REMN (R114). Writes the unsigned remainder to x[D]. -/
  | remn (d : BitVec 5) (a : BitVec 5) (b : BitVec 5)
  /-- FADD (R120). Scalar floating add with one rounding. -/
  | fadd (d : BitVec 5) (a : BitVec 5) (b : BitVec 5) (p : Bool) (m : Rm)
  /-- FSUB (R120). Scalar floating subtract. -/
  | fsub (d : BitVec 5) (a : BitVec 5) (b : BitVec 5) (p : Bool) (m : Rm)
  /-- FMUL (R120). Scalar floating multiply. -/
  | fmul (d : BitVec 5) (a : BitVec 5) (b : BitVec 5) (p : Bool) (m : Rm)
  /-- FMA (R120). Scalar fused multiply-add into x[D] with a single rounding. -/
  | fma (d : BitVec 5) (a : BitVec 5) (b : BitVec 5) (p : Bool) (m : Rm)
  /-- FDIV (R120). Scalar floating divide. -/
  | fdiv (d : BitVec 5) (a : BitVec 5) (b : BitVec 5) (p : Bool) (m : Rm)
  /-- FSQRT (R120). Scalar floating square root. -/
  | fsqrt (d : BitVec 5) (a : BitVec 5) (p : Bool) (m : Rm)
  /-- FMIN (R120). Scalar floating minimum with NaN and signed-zero rules. -/
  | fmin (d : BitVec 5) (a : BitVec 5) (b : BitVec 5) (p : Bool)
  /-- FMAX (R120). Scalar floating maximum with NaN and signed-zero rules. -/
  | fmax (d : BitVec 5) (a : BitVec 5) (b : BitVec 5) (p : Bool)
  /-- FCMP_EQ (R121). Writes 1 if the operands are equal. -/
  | fcmpEq (d : BitVec 5) (a : BitVec 5) (b : BitVec 5) (p : Bool)
  /-- FCMP_LT (R121). Writes 1 if x[A] < x[B], raising NV on any NaN. -/
  | fcmpLt (d : BitVec 5) (a : BitVec 5) (b : BitVec 5) (p : Bool)
  /-- FCMP_LE (R121). Writes 1 if x[A] <= x[B], raising NV on any NaN. -/
  | fcmpLe (d : BitVec 5) (a : BitVec 5) (b : BitVec 5) (p : Bool)
  /-- FCMP_UN (R121). Writes 1 if either operand is NaN. -/
  | fcmpUn (d : BitVec 5) (a : BitVec 5) (b : BitVec 5) (p : Bool)
  /-- FCVT_TOS64 (R121). Converts a float to s64. -/
  | fcvtTos64 (d : BitVec 5) (a : BitVec 5) (p : Bool) (m : Rm)
  /-- FCVT_TON64 (R121). Converts a float to n64. -/
  | fcvtTon64 (d : BitVec 5) (a : BitVec 5) (p : Bool) (m : Rm)
  /-- FCVT_FROMS64 (R121). Converts s64 to a float. -/
  | fcvtFroms64 (d : BitVec 5) (a : BitVec 5) (p : Bool) (m : Rm)
  /-- FCVT_FROMN64 (R121). Converts n64 to a float. -/
  | fcvtFromn64 (d : BitVec 5) (a : BitVec 5) (p : Bool) (m : Rm)
  /-- FCVT_TOFP (R121). Converts a float to the other precision. -/
  | fcvtTofp (d : BitVec 5) (a : BitVec 5) (p : Bool) (m : Rm)
  /-- FCVT_TOS32 (R121). Converts a float to s32, sign-extended. -/
  | fcvtTos32 (d : BitVec 5) (a : BitVec 5) (p : Bool) (m : Rm)
  /-- FCVT_TON32 (R121). Converts a float to n32, zero-extended. -/
  | fcvtTon32 (d : BitVec 5) (a : BitVec 5) (p : Bool) (m : Rm)
  /-- TRAP (R124). Traps with SYSCALL and the code in TVAL. -/
  | trap (c : BitVec 7)
  /-- ERET (R23). Returns from a trap handler, resuming at TPC or the parked words. -/
  | eret
  /-- BRK (R124). Traps with BREAK, or stops for fettle under debug. -/
  | brk
  /-- HALT (R125). Ends the hart after a vector wait and release, freeing its resources. -/
  | halt
  /-- WFE (R126). Loads a word and waits while it equals x[B]. -/
  | wfe (d : BitVec 5) (a : BitVec 5) (b : BitVec 5)
  /-- SYSGET (R127). Reads a system register into x[D] after the vector wait. -/
  | sysget (d : BitVec 5) (h : BitVec 5) (n : BitVec 7)
  /-- SYSPUT (R127). Writes x[A] to a system register after the vector wait. -/
  | sysput (a : BitVec 5) (h : BitVec 5) (n : BitVec 7)
  /-- FENCE_ACQ (R128). Self-invalidates unregistered L1 lines at wide scope and orders later loads. -/
  | fenceAcq (s : Scope) (r : Bool)
  /-- FENCE_REL (R128). Drains store buffers and registrations and waits for engines with .eng. -/
  | fenceRel (s : Scope) (e : Bool)
  /-- FENCE_SV (R128). Orders the scalar and vector paths of the hart. -/
  | fenceSv
  /-- FENCE_FULL (R128). Performs a release then an acquire of the given scope. -/
  | fenceFull (s : Scope) (r : Bool) (e : Bool)
  /-- LSYNC (R129). Waits until every present plane store FIFO entry has reached its home. -/
  | lsync
  /-- INV_R (R129). Self-invalidates unregistered L1 lines in an address range. -/
  | invR (a : BitVec 5) (b : BitVec 5)
  /-- INV_RO (R129). Invalidates the L1 read-only ways. -/
  | invRo
  /-- FORK (R132). Creates a child hart in a free slot, splitting the quad block. -/
  | fork (d : BitVec 5) (a : BitVec 5) (b : BitVec 5)
  /-- JOIN (R133). Child hands over its exit value and ends, or parent waits for and collects a child. -/
  | join (d : BitVec 5) (a : BitVec 5) (b : BitVec 5)
  /-- VRELEASE (R134). Returns the hart's quads and detaches it from the crucible. -/
  | vrelease
  /-- VACQUIRE (R135). Requests an aligned block of quads, waiting until granted. -/
  | vacquire (d : BitVec 5) (a : BitVec 5)
  /-- GBAR (R136). Arrives at a group barrier and waits for every member. -/
  | gbar (d : BitVec 5) (a : BitVec 5)
  /-- LAUNCH (R137). Reads a launch record and queues it, returning a status. -/
  | launch (d : BitVec 5) (a : BitVec 5)
  /-- YIELD (R138). Lets every other ready hart issue once before this hart issues again. -/
  | yield
  /-- CP_ND (R187). Issues a runner copy from a descriptor and returns a token. -/
  | cpNd (d : BitVec 5) (a : BitVec 5) (g : Bool) (f : Bool)
  /-- CP_MC (R187). Issues a multicast copy to the scratchpads named by MASK. -/
  | cpMc (d : BitVec 5) (a : BitVec 5) (g : Bool) (f : Bool)
  /-- CP_WAIT (R188). Waits for a copy token to end and returns its status word. -/
  | cpWait (d : BitVec 5) (a : BitVec 5)
  /-- CP_BIND (R187). Issues a copy bound to a barrier object that it credits. -/
  | cpBind (d : BitVec 5) (a : BitVec 5) (b : BitVec 5)
  /-- BAR_INIT (R192). Initialises a barrier object for x[B] arrivals. -/
  | barInit (a : BitVec 5) (b : BitVec 5)
  /-- BAR_ARRIVE (R192). Arrives at a barrier adding an expected byte count. -/
  | barArrive (d : BitVec 5) (a : BitVec 5) (b : BitVec 5)
  /-- BAR_WAIT (R192). Waits until the barrier phase changes or breaks. -/
  | barWait (d : BitVec 5) (a : BitVec 5) (b : BitVec 5)
  /-- ZBIND (R195). Binds a stream register to a parameter block. -/
  | zbind (d : BitVec 5) (a : BitVec 5)
  /-- ZRD (R196). Delivers the next VL stream positions and advances progress. -/
  | zrd (d : BitVec 5) (a : BitVec 5)
  /-- ZPEEK (R195). Delivers the next VL stream positions without advancing. -/
  | zpeek (d : BitVec 5) (a : BitVec 5)
  /-- ZSAVE (R195). Writes a stream binding and progress to memory. -/
  | zsave (d : BitVec 5) (a : BitVec 5)
  /-- ZREST (R195). Rebinds a stream register from a saved image. -/
  | zrest (d : BitVec 5) (a : BitVec 5)
  /-- ZLOOP (R197). Replays a body of vector words from the loop buffer. -/
  | zloop (a : BitVec 5) (b : BitVec 5)
  /-- PL_OPEN (R230). Opens a riddle session on a plan, or frees a session. -/
  | plOpen (d : BitVec 5) (a : BitVec 5) (b : BitVec 5)
  /-- PL_TERM (R230). Loads a term record into a session slot. -/
  | plTerm (d : BitVec 5) (a : BitVec 5) (b : BitVec 5)
  /-- PL_RUN (R231). Starts a run of the session's plan. -/
  | plRun (d : BitVec 5) (a : BitVec 5)
  /-- PL_PROBE (R232). Starts a probe of the list's NONE entries. -/
  | plProbe (d : BitVec 5) (a : BitVec 5)
  /-- PL_STAT (R233). Reads session status, optionally waiting for idle. -/
  | plStat (d : BitVec 5) (a : BitVec 5) (b : BitVec 5)
  /-- TK_INIT (R236). Creates a skimmer list. -/
  | tkInit (d : BitVec 5) (a : BitVec 5) (b : BitVec 5)
  /-- TK_INS (R239). Inserts vector-scored candidates into a skimmer list. -/
  | tkIns (d : BitVec 5) (a : BitVec 5) (b : BitVec 5)
  /-- TK_FUSE (R240). Sets a list's fusion rule. -/
  | tkFuse (d : BitVec 5) (a : BitVec 5) (b : BitVec 5)
  /-- TK_DRAIN (R241). Fuses, orders and writes the top entries of a list. -/
  | tkDrain (d : BitVec 5) (a : BitVec 5) (b : BitVec 5)
  /-- TK_THR (R238). Reads counts or the threshold of a list and optionally raises it. -/
  | tkThr (d : BitVec 5) (a : BitVec 5) (b : BitVec 5)
  /-- PY_LD (R246). Snapshots the span covering time t into a record. -/
  | pyLd (d : BitVec 5) (a : BitVec 5) (b : BitVec 5)
  /-- PY_LDV (R247). Snapshots a span value into a vector and pushes its descriptor to q4. -/
  | pyLdv (d : BitVec 5) (a : BitVec 5) (b : BitVec 5)
  /-- PY_APP (R248). Appends an item to a stream's level 0. -/
  | pyApp (d : BitVec 5) (a : BitVec 5) (b : BitVec 5)
  /-- PY_DEF (R249). Defines or undefines a stream. -/
  | pyDef (d : BitVec 5) (a : BitVec 5)
  /-- PY_COMB (R250). Registers a combiner record under an id after admission. -/
  | pyComb (d : BitVec 5) (a : BitVec 5) (b : BitVec 5)
  /-- PY_STAT (R251). Reads a stream's state word or pops a fault record. -/
  | pyStat (d : BitVec 5) (a : BitVec 5) (b : BitVec 5)
  /-- PY_RESUME (R252). Clears HELD and retries the abandoned merge. -/
  | pyResume (d : BitVec 5) (a : BitVec 5)
  /-- VSETL (R145). Sets VL to min(x[A], VLMAX). -/
  | vsetl (d : BitVec 5) (a : BitVec 5)
  /-- VSETT (R145). Checks and sets VTYPE and VL. -/
  | vsett (d : BitVec 5) (a : BitVec 5) (b : BitVec 5)
  /-- VADD_VV (R146). Vector integer add, vector operand. -/
  | vaddVv (d : BitVec 5) (a : BitVec 5) (b : BitVec 5) (k : BitVec 3) (t : Bool) (c : Bool)
  /-- VSUB_VV (R146). Vector integer subtract, vector operand. -/
  | vsubVv (d : BitVec 5) (a : BitVec 5) (b : BitVec 5) (k : BitVec 3) (t : Bool) (c : Bool)
  /-- VRSUB_VV (R146). Vector reverse subtract, vector operand. -/
  | vrsubVv (d : BitVec 5) (a : BitVec 5) (b : BitVec 5) (k : BitVec 3) (t : Bool) (c : Bool)
  /-- VMUL_VV (R146). Vector multiply low, vector operand. -/
  | vmulVv (d : BitVec 5) (a : BitVec 5) (b : BitVec 5) (k : BitVec 3) (t : Bool) (c : Bool)
  /-- VMULH_VV (R146). Vector multiply high, vector operand. -/
  | vmulhVv (d : BitVec 5) (a : BitVec 5) (b : BitVec 5) (k : BitVec 3) (t : Bool) (c : Bool)
  /-- VMACC_VV (R146). Vector multiply-accumulate, vector operand. -/
  | vmaccVv (d : BitVec 5) (a : BitVec 5) (b : BitVec 5) (k : BitVec 3) (t : Bool) (c : Bool)
  /-- VMIN_VV (R146). Vector minimum, vector operand. -/
  | vminVv (d : BitVec 5) (a : BitVec 5) (b : BitVec 5) (k : BitVec 3) (t : Bool) (c : Bool)
  /-- VMAX_VV (R146). Vector maximum, vector operand. -/
  | vmaxVv (d : BitVec 5) (a : BitVec 5) (b : BitVec 5) (k : BitVec 3) (t : Bool) (c : Bool)
  /-- VAND_VV (R146). Vector bitwise AND, vector operand. -/
  | vandVv (d : BitVec 5) (a : BitVec 5) (b : BitVec 5) (k : BitVec 3) (t : Bool) (c : Bool)
  /-- VOR_VV (R146). Vector bitwise OR, vector operand. -/
  | vorVv (d : BitVec 5) (a : BitVec 5) (b : BitVec 5) (k : BitVec 3) (t : Bool) (c : Bool)
  /-- VXOR_VV (R146). Vector bitwise XOR, vector operand. -/
  | vxorVv (d : BitVec 5) (a : BitVec 5) (b : BitVec 5) (k : BitVec 3) (t : Bool) (c : Bool)
  /-- VSLL_VV (R146). Vector shift left, vector operand. -/
  | vsllVv (d : BitVec 5) (a : BitVec 5) (b : BitVec 5) (k : BitVec 3) (t : Bool) (c : Bool)
  /-- VSRL_VV (R146). Vector logical shift right, vector operand. -/
  | vsrlVv (d : BitVec 5) (a : BitVec 5) (b : BitVec 5) (k : BitVec 3) (t : Bool) (c : Bool)
  /-- VSRA_VV (R146). Vector arithmetic shift right, vector operand. -/
  | vsraVv (d : BitVec 5) (a : BitVec 5) (b : BitVec 5) (k : BitVec 3) (t : Bool) (c : Bool)
  /-- VADC_VV (R147). Vector add with carry in and out through kK, vector operand. -/
  | vadcVv (d : BitVec 5) (a : BitVec 5) (b : BitVec 5) (k : BitVec 3) (c : Bool)
  /-- VSBC_VV (R147). Vector subtract with borrow through kK, vector operand. -/
  | vsbcVv (d : BitVec 5) (a : BitVec 5) (b : BitVec 5) (k : BitVec 3) (c : Bool)
  /-- VSADD_VV (R146). Vector saturating add, vector operand. -/
  | vsaddVv (d : BitVec 5) (a : BitVec 5) (b : BitVec 5) (k : BitVec 3) (t : Bool) (c : Bool)
  /-- VSSUB_VV (R146). Vector saturating subtract, vector operand. -/
  | vssubVv (d : BitVec 5) (a : BitVec 5) (b : BitVec 5) (k : BitVec 3) (t : Bool) (c : Bool)
  /-- VADD_VX (R146). Vector integer add, scalar operand. -/
  | vaddVx (d : BitVec 5) (a : BitVec 5) (b : BitVec 5) (k : BitVec 3) (t : Bool) (c : Bool)
  /-- VSUB_VX (R146). Vector integer subtract, scalar operand. -/
  | vsubVx (d : BitVec 5) (a : BitVec 5) (b : BitVec 5) (k : BitVec 3) (t : Bool) (c : Bool)
  /-- VRSUB_VX (R146). Vector reverse subtract, scalar operand. -/
  | vrsubVx (d : BitVec 5) (a : BitVec 5) (b : BitVec 5) (k : BitVec 3) (t : Bool) (c : Bool)
  /-- VMUL_VX (R146). Vector multiply low, scalar operand. -/
  | vmulVx (d : BitVec 5) (a : BitVec 5) (b : BitVec 5) (k : BitVec 3) (t : Bool) (c : Bool)
  /-- VMULH_VX (R146). Vector multiply high, scalar operand. -/
  | vmulhVx (d : BitVec 5) (a : BitVec 5) (b : BitVec 5) (k : BitVec 3) (t : Bool) (c : Bool)
  /-- VMACC_VX (R146). Vector multiply-accumulate, scalar operand. -/
  | vmaccVx (d : BitVec 5) (a : BitVec 5) (b : BitVec 5) (k : BitVec 3) (t : Bool) (c : Bool)
  /-- VMIN_VX (R146). Vector minimum, scalar operand. -/
  | vminVx (d : BitVec 5) (a : BitVec 5) (b : BitVec 5) (k : BitVec 3) (t : Bool) (c : Bool)
  /-- VMAX_VX (R146). Vector maximum, scalar operand. -/
  | vmaxVx (d : BitVec 5) (a : BitVec 5) (b : BitVec 5) (k : BitVec 3) (t : Bool) (c : Bool)
  /-- VAND_VX (R146). Vector bitwise AND, scalar operand. -/
  | vandVx (d : BitVec 5) (a : BitVec 5) (b : BitVec 5) (k : BitVec 3) (t : Bool) (c : Bool)
  /-- VOR_VX (R146). Vector bitwise OR, scalar operand. -/
  | vorVx (d : BitVec 5) (a : BitVec 5) (b : BitVec 5) (k : BitVec 3) (t : Bool) (c : Bool)
  /-- VXOR_VX (R146). Vector bitwise XOR, scalar operand. -/
  | vxorVx (d : BitVec 5) (a : BitVec 5) (b : BitVec 5) (k : BitVec 3) (t : Bool) (c : Bool)
  /-- VSLL_VX (R146). Vector shift left, scalar operand. -/
  | vsllVx (d : BitVec 5) (a : BitVec 5) (b : BitVec 5) (k : BitVec 3) (t : Bool) (c : Bool)
  /-- VSRL_VX (R146). Vector logical shift right, scalar operand. -/
  | vsrlVx (d : BitVec 5) (a : BitVec 5) (b : BitVec 5) (k : BitVec 3) (t : Bool) (c : Bool)
  /-- VSRA_VX (R146). Vector arithmetic shift right, scalar operand. -/
  | vsraVx (d : BitVec 5) (a : BitVec 5) (b : BitVec 5) (k : BitVec 3) (t : Bool) (c : Bool)
  /-- VADC_VX (R147). Vector add with carry, scalar operand. -/
  | vadcVx (d : BitVec 5) (a : BitVec 5) (b : BitVec 5) (k : BitVec 3) (c : Bool)
  /-- VSBC_VX (R147). Vector subtract with borrow, scalar operand. -/
  | vsbcVx (d : BitVec 5) (a : BitVec 5) (b : BitVec 5) (k : BitVec 3) (c : Bool)
  /-- VSADD_VX (R146). Vector saturating add, scalar operand. -/
  | vsaddVx (d : BitVec 5) (a : BitVec 5) (b : BitVec 5) (k : BitVec 3) (t : Bool) (c : Bool)
  /-- VSSUB_VX (R146). Vector saturating subtract, scalar operand. -/
  | vssubVx (d : BitVec 5) (a : BitVec 5) (b : BitVec 5) (k : BitVec 3) (t : Bool) (c : Bool)
  /-- VADD_VI (R146). Vector integer add, immediate operand. -/
  | vaddVi (d : BitVec 5) (a : BitVec 5) (i : BitVec 5) (k : BitVec 3) (t : Bool) (c : Bool)
  /-- VSUB_VI (R146). Vector integer subtract, immediate operand. -/
  | vsubVi (d : BitVec 5) (a : BitVec 5) (i : BitVec 5) (k : BitVec 3) (t : Bool) (c : Bool)
  /-- VRSUB_VI (R146). Vector reverse subtract, immediate operand. -/
  | vrsubVi (d : BitVec 5) (a : BitVec 5) (i : BitVec 5) (k : BitVec 3) (t : Bool) (c : Bool)
  /-- VMUL_VI (R146). Vector multiply low, immediate operand. -/
  | vmulVi (d : BitVec 5) (a : BitVec 5) (i : BitVec 5) (k : BitVec 3) (t : Bool) (c : Bool)
  /-- VMULH_VI (R146). Vector multiply high, immediate operand. -/
  | vmulhVi (d : BitVec 5) (a : BitVec 5) (i : BitVec 5) (k : BitVec 3) (t : Bool) (c : Bool)
  /-- VMACC_VI (R146). Vector multiply-accumulate, immediate operand. -/
  | vmaccVi (d : BitVec 5) (a : BitVec 5) (i : BitVec 5) (k : BitVec 3) (t : Bool) (c : Bool)
  /-- VMIN_VI (R146). Vector minimum, immediate operand. -/
  | vminVi (d : BitVec 5) (a : BitVec 5) (i : BitVec 5) (k : BitVec 3) (t : Bool) (c : Bool)
  /-- VMAX_VI (R146). Vector maximum, immediate operand. -/
  | vmaxVi (d : BitVec 5) (a : BitVec 5) (i : BitVec 5) (k : BitVec 3) (t : Bool) (c : Bool)
  /-- VAND_VI (R146). Vector bitwise AND, immediate operand. -/
  | vandVi (d : BitVec 5) (a : BitVec 5) (i : BitVec 5) (k : BitVec 3) (t : Bool) (c : Bool)
  /-- VOR_VI (R146). Vector bitwise OR, immediate operand. -/
  | vorVi (d : BitVec 5) (a : BitVec 5) (i : BitVec 5) (k : BitVec 3) (t : Bool) (c : Bool)
  /-- VXOR_VI (R146). Vector bitwise XOR, immediate operand. -/
  | vxorVi (d : BitVec 5) (a : BitVec 5) (i : BitVec 5) (k : BitVec 3) (t : Bool) (c : Bool)
  /-- VSLL_VI (R146). Vector shift left, immediate amount. -/
  | vsllVi (d : BitVec 5) (a : BitVec 5) (i : BitVec 5) (k : BitVec 3) (t : Bool) (c : Bool)
  /-- VSRL_VI (R146). Vector logical shift right, immediate amount. -/
  | vsrlVi (d : BitVec 5) (a : BitVec 5) (i : BitVec 5) (k : BitVec 3) (t : Bool) (c : Bool)
  /-- VSRA_VI (R146). Vector arithmetic shift right, immediate amount. -/
  | vsraVi (d : BitVec 5) (a : BitVec 5) (i : BitVec 5) (k : BitVec 3) (t : Bool) (c : Bool)
  /-- VADC_VI (R147). Vector add with carry, immediate operand. -/
  | vadcVi (d : BitVec 5) (a : BitVec 5) (i : BitVec 5) (k : BitVec 3) (c : Bool)
  /-- VSBC_VI (R147). Vector subtract with borrow, immediate operand. -/
  | vsbcVi (d : BitVec 5) (a : BitVec 5) (i : BitVec 5) (k : BitVec 3) (c : Bool)
  /-- VSADD_VI (R146). Vector saturating add, immediate operand. -/
  | vsaddVi (d : BitVec 5) (a : BitVec 5) (i : BitVec 5) (k : BitVec 3) (t : Bool) (c : Bool)
  /-- VSSUB_VI (R146). Vector saturating subtract, immediate operand. -/
  | vssubVi (d : BitVec 5) (a : BitVec 5) (i : BitVec 5) (k : BitVec 3) (t : Bool) (c : Bool)
  /-- VFADD_VV (R148). Vector floating add, vector operand. -/
  | vfaddVv (d : BitVec 5) (a : BitVec 5) (b : BitVec 5) (k : BitVec 3) (t : Bool) (c : Bool)
  /-- VFSUB_VV (R148). Vector floating subtract, vector operand. -/
  | vfsubVv (d : BitVec 5) (a : BitVec 5) (b : BitVec 5) (k : BitVec 3) (t : Bool) (c : Bool)
  /-- VFMUL_VV (R148). Vector floating multiply, vector operand. -/
  | vfmulVv (d : BitVec 5) (a : BitVec 5) (b : BitVec 5) (k : BitVec 3) (t : Bool) (c : Bool)
  /-- VFMA_VV (R148). Vector fused multiply-add, vector operand. -/
  | vfmaVv (d : BitVec 5) (a : BitVec 5) (b : BitVec 5) (k : BitVec 3) (t : Bool) (c : Bool)
  /-- VFMS_VV (R148). Vector fused multiply-subtract, vector operand. -/
  | vfmsVv (d : BitVec 5) (a : BitVec 5) (b : BitVec 5) (k : BitVec 3) (t : Bool) (c : Bool)
  /-- VFDIV_VV (R148). Vector floating divide, vector operand. -/
  | vfdivVv (d : BitVec 5) (a : BitVec 5) (b : BitVec 5) (k : BitVec 3) (t : Bool) (c : Bool)
  /-- VFSQRT (R148). Vector floating square root. -/
  | vfsqrt (d : BitVec 5) (a : BitVec 5) (k : BitVec 3) (t : Bool) (c : Bool)
  /-- VFMIN_VV (R148). Vector floating minimum, vector operand. -/
  | vfminVv (d : BitVec 5) (a : BitVec 5) (b : BitVec 5) (k : BitVec 3) (t : Bool) (c : Bool)
  /-- VFMAX_VV (R148). Vector floating maximum, vector operand. -/
  | vfmaxVv (d : BitVec 5) (a : BitVec 5) (b : BitVec 5) (k : BitVec 3) (t : Bool) (c : Bool)
  /-- VFCLASS (R149). Classifies each floating element into one of ten bits. -/
  | vfclass (d : BitVec 5) (a : BitVec 5) (k : BitVec 3) (t : Bool) (c : Bool)
  /-- VFRCPE (R150). Vector 7-bit reciprocal estimate rounded toward zero. -/
  | vfrcpe (d : BitVec 5) (a : BitVec 5) (k : BitVec 3) (t : Bool) (c : Bool)
  /-- VFADD_VX (R148). Vector floating add, scalar operand. -/
  | vfaddVx (d : BitVec 5) (a : BitVec 5) (b : BitVec 5) (k : BitVec 3) (t : Bool) (c : Bool)
  /-- VFSUB_VX (R148). Vector floating subtract, scalar operand. -/
  | vfsubVx (d : BitVec 5) (a : BitVec 5) (b : BitVec 5) (k : BitVec 3) (t : Bool) (c : Bool)
  /-- VFMUL_VX (R148). Vector floating multiply, scalar operand. -/
  | vfmulVx (d : BitVec 5) (a : BitVec 5) (b : BitVec 5) (k : BitVec 3) (t : Bool) (c : Bool)
  /-- VFMA_VX (R148). Vector fused multiply-add, scalar operand. -/
  | vfmaVx (d : BitVec 5) (a : BitVec 5) (b : BitVec 5) (k : BitVec 3) (t : Bool) (c : Bool)
  /-- VFMS_VX (R148). Vector fused multiply-subtract, scalar operand. -/
  | vfmsVx (d : BitVec 5) (a : BitVec 5) (b : BitVec 5) (k : BitVec 3) (t : Bool) (c : Bool)
  /-- VFDIV_VX (R148). Vector floating divide, scalar operand. -/
  | vfdivVx (d : BitVec 5) (a : BitVec 5) (b : BitVec 5) (k : BitVec 3) (t : Bool) (c : Bool)
  /-- VFMIN_VX (R148). Vector floating minimum, scalar operand. -/
  | vfminVx (d : BitVec 5) (a : BitVec 5) (b : BitVec 5) (k : BitVec 3) (t : Bool) (c : Bool)
  /-- VFMAX_VX (R148). Vector floating maximum, scalar operand. -/
  | vfmaxVx (d : BitVec 5) (a : BitVec 5) (b : BitVec 5) (k : BitVec 3) (t : Bool) (c : Bool)
  /-- VCMP_EQ_VV (R151). Integer compare equal into a mask, vector operand. -/
  | vcmpEqVv (d : BitVec 5) (a : BitVec 5) (b : BitVec 5) (k : BitVec 3) (t : Bool) (c : Bool)
  /-- VCMP_NE_VV (R151). Integer compare not equal into a mask, vector operand. -/
  | vcmpNeVv (d : BitVec 5) (a : BitVec 5) (b : BitVec 5) (k : BitVec 3) (t : Bool) (c : Bool)
  /-- VCMP_LT_VV (R151). Integer compare less than, vector operand. -/
  | vcmpLtVv (d : BitVec 5) (a : BitVec 5) (b : BitVec 5) (k : BitVec 3) (t : Bool) (c : Bool)
  /-- VCMP_LE_VV (R151). Integer compare less or equal, vector operand. -/
  | vcmpLeVv (d : BitVec 5) (a : BitVec 5) (b : BitVec 5) (k : BitVec 3) (t : Bool) (c : Bool)
  /-- VCMP_GT_VV (R151). Integer compare greater than, vector operand. -/
  | vcmpGtVv (d : BitVec 5) (a : BitVec 5) (b : BitVec 5) (k : BitVec 3) (t : Bool) (c : Bool)
  /-- VCMP_GE_VV (R151). Integer compare greater or equal, vector operand. -/
  | vcmpGeVv (d : BitVec 5) (a : BitVec 5) (b : BitVec 5) (k : BitVec 3) (t : Bool) (c : Bool)
  /-- VFCMP_EQ_VV (R151). Floating compare equal, vector operand. -/
  | vfcmpEqVv (d : BitVec 5) (a : BitVec 5) (b : BitVec 5) (k : BitVec 3) (t : Bool) (c : Bool)
  /-- VFCMP_NE_VV (R151). Floating compare not equal, vector operand. -/
  | vfcmpNeVv (d : BitVec 5) (a : BitVec 5) (b : BitVec 5) (k : BitVec 3) (t : Bool) (c : Bool)
  /-- VFCMP_LT_VV (R151). Floating compare less than, vector operand. -/
  | vfcmpLtVv (d : BitVec 5) (a : BitVec 5) (b : BitVec 5) (k : BitVec 3) (t : Bool) (c : Bool)
  /-- VFCMP_LE_VV (R151). Floating compare less or equal, vector operand. -/
  | vfcmpLeVv (d : BitVec 5) (a : BitVec 5) (b : BitVec 5) (k : BitVec 3) (t : Bool) (c : Bool)
  /-- VCMP_EQ_VX (R151). Integer compare equal, scalar operand. -/
  | vcmpEqVx (d : BitVec 5) (a : BitVec 5) (b : BitVec 5) (k : BitVec 3) (t : Bool) (c : Bool)
  /-- VCMP_NE_VX (R151). Integer compare not equal, scalar operand. -/
  | vcmpNeVx (d : BitVec 5) (a : BitVec 5) (b : BitVec 5) (k : BitVec 3) (t : Bool) (c : Bool)
  /-- VCMP_LT_VX (R151). Integer compare less than, scalar operand. -/
  | vcmpLtVx (d : BitVec 5) (a : BitVec 5) (b : BitVec 5) (k : BitVec 3) (t : Bool) (c : Bool)
  /-- VCMP_LE_VX (R151). Integer compare less or equal, scalar operand. -/
  | vcmpLeVx (d : BitVec 5) (a : BitVec 5) (b : BitVec 5) (k : BitVec 3) (t : Bool) (c : Bool)
  /-- VCMP_GT_VX (R151). Integer compare greater than, scalar operand. -/
  | vcmpGtVx (d : BitVec 5) (a : BitVec 5) (b : BitVec 5) (k : BitVec 3) (t : Bool) (c : Bool)
  /-- VCMP_GE_VX (R151). Integer compare greater or equal, scalar operand. -/
  | vcmpGeVx (d : BitVec 5) (a : BitVec 5) (b : BitVec 5) (k : BitVec 3) (t : Bool) (c : Bool)
  /-- VFCMP_EQ_VX (R151). Floating compare equal, scalar operand. -/
  | vfcmpEqVx (d : BitVec 5) (a : BitVec 5) (b : BitVec 5) (k : BitVec 3) (t : Bool) (c : Bool)
  /-- VFCMP_NE_VX (R151). Floating compare not equal, scalar operand. -/
  | vfcmpNeVx (d : BitVec 5) (a : BitVec 5) (b : BitVec 5) (k : BitVec 3) (t : Bool) (c : Bool)
  /-- VFCMP_LT_VX (R151). Floating compare less than, scalar operand. -/
  | vfcmpLtVx (d : BitVec 5) (a : BitVec 5) (b : BitVec 5) (k : BitVec 3) (t : Bool) (c : Bool)
  /-- VFCMP_LE_VX (R151). Floating compare less or equal, scalar operand. -/
  | vfcmpLeVx (d : BitVec 5) (a : BitVec 5) (b : BitVec 5) (k : BitVec 3) (t : Bool) (c : Bool)
  /-- KAND (R152). Bitwise AND of two mask registers. -/
  | kand (d : BitVec 5) (a : BitVec 5) (b : BitVec 5)
  /-- KOR (R152). Bitwise OR of two mask registers. -/
  | kor (d : BitVec 5) (a : BitVec 5) (b : BitVec 5)
  /-- KXOR (R152). Bitwise XOR of two mask registers. -/
  | kxor (d : BitVec 5) (a : BitVec 5) (b : BitVec 5)
  /-- KNOT (R152). Bitwise NOT of a mask register. -/
  | knot (d : BitVec 5) (a : BitVec 5)
  /-- KSHL1 (R152). Shifts mask bits up by one. -/
  | kshl1 (d : BitVec 5) (a : BitVec 5)
  /-- KSHR1 (R152). Shifts mask bits down by one. -/
  | kshr1 (d : BitVec 5) (a : BitVec 5)
  /-- KPOPC (R152). Pushes the count of set mask bits below VL to a queue. -/
  | kpopc (d : BitVec 5) (a : BitVec 5)
  /-- KFIRST (R152). Pushes the index of the lowest set mask bit to a queue. -/
  | kfirst (d : BitVec 5) (a : BitVec 5)
  /-- KMV (R152). Copies a mask register. -/
  | kmv (d : BitVec 5) (a : BitVec 5)
  /-- VMERGE (R154). Selects elements of two groups by a mask. -/
  | vmerge (d : BitVec 5) (a : BitVec 5) (b : BitVec 5) (k : BitVec 3) (t : Bool) (c : Bool)
  /-- VBCAST (R154). Broadcasts a scalar to every active element. -/
  | vbcast (d : BitVec 5) (b : BitVec 5) (k : BitVec 3) (t : Bool) (c : Bool)
  /-- VSLIDEUP (R154). Slides elements up by a scalar amount. -/
  | vslideup (d : BitVec 5) (a : BitVec 5) (b : BitVec 5) (k : BitVec 3) (t : Bool) (c : Bool)
  /-- VSLIDEDN (R154). Slides elements down by a scalar amount. -/
  | vslidedn (d : BitVec 5) (a : BitVec 5) (b : BitVec 5) (k : BitVec 3) (t : Bool) (c : Bool)
  /-- VRGATHER (R154). Gathers elements by index bounded by VL. -/
  | vrgather (d : BitVec 5) (a : BitVec 5) (b : BitVec 5) (k : BitVec 3) (t : Bool) (c : Bool)
  /-- VCOMPRESS (R155). Packs active elements to the low end. -/
  | vcompress (d : BitVec 5) (a : BitVec 5) (k : BitVec 3) (t : Bool) (c : Bool)
  /-- VEXPAND (R155). Spreads low elements to active positions. -/
  | vexpand (d : BitVec 5) (a : BitVec 5) (k : BitVec 3) (t : Bool) (c : Bool)
  /-- VPERMBLK (R156). Permutes whole 32-element blocks with their headers. -/
  | vpermblk (d : BitVec 5) (a : BitVec 5) (b : BitVec 5) (t : Bool) (c : Bool)
  /-- VRED_SUM (R157). Tree sum reduction pushed to q4-q7. -/
  | vredSum (d : BitVec 5) (a : BitVec 5) (b : BitVec 5) (k : BitVec 3) (t : Bool) (c : Bool)
  /-- VRED_OSUM (R157). Ordered sum reduction pushed to q4-q7. -/
  | vredOsum (d : BitVec 5) (a : BitVec 5) (b : BitVec 5) (k : BitVec 3) (t : Bool) (c : Bool)
  /-- VRED_MAX (R157). Maximum reduction. -/
  | vredMax (d : BitVec 5) (a : BitVec 5) (b : BitVec 5) (k : BitVec 3) (t : Bool) (c : Bool)
  /-- VRED_MIN (R157). Minimum reduction. -/
  | vredMin (d : BitVec 5) (a : BitVec 5) (b : BitVec 5) (k : BitVec 3) (t : Bool) (c : Bool)
  /-- VRED_AND (R157). Bitwise AND reduction. -/
  | vredAnd (d : BitVec 5) (a : BitVec 5) (b : BitVec 5) (k : BitVec 3) (t : Bool) (c : Bool)
  /-- VRED_OR (R157). Bitwise OR reduction. -/
  | vredOr (d : BitVec 5) (a : BitVec 5) (b : BitVec 5) (k : BitVec 3) (t : Bool) (c : Bool)
  /-- VSTRIP (R162). Exponentiates one strip of scores and updates the row state block. -/
  | vstrip (d : BitVec 5) (a : BitVec 5) (b : BitVec 5) (k : BitVec 3)
  /-- VCVT (R159). Converts elements to a same-size target type. -/
  | vcvt (d : BitVec 5) (a : BitVec 5) (b : BitVec 5) (k : BitVec 3) (t : Bool) (s : Bool) (c : Bool)
  /-- VWIDEN (R159). Converts elements to a two or four times wider type. -/
  | vwiden (d : BitVec 5) (a : BitVec 5) (b : BitVec 5) (k : BitVec 3) (t : Bool) (c : Bool)
  /-- VNARROW (R159). Converts elements to a narrower type, including blocked slots. -/
  | vnarrow (d : BitVec 5) (a : BitVec 5) (b : BitVec 5) (k : BitVec 3) (t : Bool) (s : Bool) (c : Bool)
  /-- VLD (R170). Fault-first unit-stride vector load. -/
  | vld (d : BitVec 5) (a : BitVec 5) (k : BitVec 3) (t : Bool) (c : Bool)
  /-- VLDS (R170). Fault-first strided vector load. -/
  | vlds (d : BitVec 5) (a : BitVec 5) (b : BitVec 5) (k : BitVec 3) (t : Bool) (c : Bool)
  /-- VLDZ (R175). Expands compressed blocks and pushes the bytes consumed. -/
  | vldz (d : BitVec 5) (a : BitVec 5) (b : BitVec 5) (q : BitVec 2) (c : Bool)
  /-- VLDB (R176). Loads whole blocked-narrow blocks with headers. -/
  | vldb (d : BitVec 5) (a : BitVec 5) (b : BitVec 5) (t : Bool) (c : Bool)
  /-- VST (R170). Unit-stride vector store into plane store FIFOs. -/
  | vst (d : BitVec 5) (a : BitVec 5) (k : BitVec 3) (t : Bool) (c : Bool)
  /-- VSTS (R170). Strided vector store. -/
  | vsts (d : BitVec 5) (a : BitVec 5) (b : BitVec 5) (k : BitVec 3) (t : Bool) (c : Bool)
  /-- VSTB (R176). Stores whole blocked-narrow blocks with headers. -/
  | vstb (d : BitVec 5) (a : BitVec 5) (b : BitVec 5) (t : Bool) (c : Bool)
  /-- VLDX (R170). Indexed vector gather. -/
  | vldx (d : BitVec 5) (a : BitVec 5) (b : BitVec 5) (k : BitVec 3) (t : Bool) (w : BitVec 2) (c : Bool)
  /-- VLDC (R173). Indexed gather within the cluster window. -/
  | vldc (d : BitVec 5) (a : BitVec 5) (b : BitVec 5) (k : BitVec 3) (t : Bool) (w : BitVec 2) (c : Bool)
  /-- VSTX_O (R172). Ordered indexed scatter. -/
  | vstxO (d : BitVec 5) (a : BitVec 5) (b : BitVec 5) (k : BitVec 3) (t : Bool) (w : BitVec 2) (c : Bool)
  /-- VSTX_U (R172). Unordered indexed scatter. -/
  | vstxU (d : BitVec 5) (a : BitVec 5) (b : BitVec 5) (k : BitVec 3) (t : Bool) (w : BitVec 2) (c : Bool)
  /-- VSTC (R173). Indexed scatter within the cluster window as per-core packets. -/
  | vstc (d : BitVec 5) (a : BitVec 5) (b : BitVec 5) (k : BitVec 3) (t : Bool) (w : BitVec 2) (c : Bool)
  /-- VGLL (R177). Indexed load that records a link per line. -/
  | vgll (d : BitVec 5) (a : BitVec 5) (b : BitVec 5) (k : BitVec 3) (t : Bool)
  /-- VSCC (R178). Conditional scatter per line on intact links, writing a success mask. -/
  | vscc (d : BitVec 5) (a : BitVec 5) (b : BitVec 5) (k : BitVec 3) (t : Bool)
  /-- VLOCK (R179). Takes lock words line by line without waiting. -/
  | vlock (d : BitVec 5) (a : BitVec 5) (b : BitVec 5) (k : BitVec 3)
  /-- VUNLOCK (R179). Frees lock words held by the hart. -/
  | vunlock (a : BitVec 5) (b : BitVec 5) (k : BitVec 3)
  /-- WIN_DECL (R180). Declares the hart's accumulation window and zeroes its copies. -/
  | winDecl (a : BitVec 5) (b : BitVec 5)
  /-- VSCADD_WIN (R181). Scatter-adds into per-lane window copies. -/
  | vscaddWin (d : BitVec 5) (b : BitVec 5) (k : BitVec 3)
  /-- WIN_MERGE (R182). Folds window copies and adds them to memory atomically. -/
  | winMerge (s : Scope)
  /-- VSCADD (R183). Atomic scatter-add at the scope's place. -/
  | vscadd (d : BitVec 5) (a : BitVec 5) (b : BitVec 5) (k : BitVec 3) (t : Bool) (s : BitVec 2)
  /-- CR_DECL (R184). Declares a commutative range, writing back undeclared buffer copies. -/
  | crDecl (o : BitVec 2) (r : BitVec 3) (a : BitVec 5) (b : BitVec 5)
  /-- CR_DROP (R185). Collects a range's partials and removes the declaration. -/
  | crDrop (r : BitVec 3)
  /-- VMV (R153). Copies a vector group. -/
  | vmv (d : BitVec 5) (a : BitVec 5) (k : BitVec 3) (c : Bool)
  /-- VMV_S (R153). Writes a scalar to element 0. -/
  | vmvS (d : BitVec 5) (b : BitVec 5) (c : Bool)
  /-- VEXT (R153). Pushes one element to a queue register. -/
  | vext (d : BitVec 5) (a : BitVec 5) (b : BitVec 5) (c : Bool)
  /-- QPUT (R153). Pushes x[A] to q0-q3 from the scalar pipe. -/
  | qput (d : BitVec 5) (a : BitVec 5)
  /-- QGET (R153). Pops q4-q7 into x[D]. -/
  | qget (d : BitVec 5) (a : BitVec 5)
  /-- MATTACH (R203). Grants the hart an aligned block of tile rows. -/
  | mattach (r : BitVec 5)
  /-- MDETACH (R203). Returns the hart's tile rows. -/
  | mdetach
  /-- O_CLAIM (R204). Claims a range of operand slots. -/
  | oClaim (f : BitVec 6) (n : BitVec 6)
  /-- O_RELEASE (R204). Releases operand slots the hart holds. -/
  | oRelease (f : BitVec 6) (n : BitVec 6)
  /-- MZERO (R206). Zeroes the hart's granted rows and side entries of a tile. -/
  | mzero (t : BitVec 2)
  /-- MFMT (R205). Sets a tile's class pair and snapshots format registers. -/
  | mfmt (t : BitVec 2) (a : BitVec 5) (b : BitVec 5) (x : BitVec 3) (y : BitVec 3)
  /-- MSKIP (R217). Reads a skip record and sets SKB. -/
  | mskip (t : BitVec 2) (r : BitVec 5)
  /-- MOP (R210). Outer-product accumulation into a tile. -/
  | mop (t : BitVec 2) (a : BitVec 6) (b : BitVec 6) (k : Bool) (z : Bool) (c : Bool)
  /-- MSLICE_RD (R212). Reads tile rows or side entries into a vector group. -/
  | msliceRd (t : BitVec 2) (r : BitVec 5) (v : BitVec 5) (c : Bool)
  /-- MSLICE_WR (R212). Writes a vector group into tile rows or side entries. -/
  | msliceWr (t : BitVec 2) (r : BitVec 5) (v : BitVec 5) (c : Bool)
  /-- MSLICE_RD_EXP (R213). Exponentiates tile scores, rescaling the partner tile row. -/
  | msliceRdExp (t : BitVec 2) (r : BitVec 5) (v : BitVec 5) (c : Bool)
  /-- MLD (R208). Loads B columns into one operand slot. -/
  | mld (s : BitVec 6) (r : BitVec 5) (b : BitVec 5)
  /-- MLD_P (R208). Loads A rows into an operand slot pair. -/
  | mldP (s : BitVec 6) (r : BitVec 5) (b : BitVec 5)
  /-- MST (R209). Stores the hart's live tile rows to memory. -/
  | mst (t : BitVec 2) (r : BitVec 5) (b : BitVec 5)
  /-- ADD (R112). Writes x[A] + x[B] modulo 2^64 to x[D]. -/
  | add (d : BitVec 5) (a : BitVec 5) (b : BitVec 5)
  /-- SUB (R112). Writes x[A] - x[B] modulo 2^64 to x[D]. -/
  | sub (d : BitVec 5) (a : BitVec 5) (b : BitVec 5)
  /-- AND (R112). Writes the bitwise AND of x[A] and x[B] to x[D]. -/
  | and (d : BitVec 5) (a : BitVec 5) (b : BitVec 5)
  /-- OR (R112). Writes the bitwise OR of x[A] and x[B] to x[D]. -/
  | or (d : BitVec 5) (a : BitVec 5) (b : BitVec 5)
  /-- XOR (R112). Writes the bitwise XOR of x[A] and x[B] to x[D]. -/
  | xor (d : BitVec 5) (a : BitVec 5) (b : BitVec 5)
  /-- SLL (R112). Shifts x[A] left by x[B] mod 64 into x[D]. -/
  | sll (d : BitVec 5) (a : BitVec 5) (b : BitVec 5)
  /-- SRL (R112). Shifts x[A] right logically by x[B] mod 64 into x[D]. -/
  | srl (d : BitVec 5) (a : BitVec 5) (b : BitVec 5)
  /-- SRA (R112). Shifts x[A] right arithmetically by x[B] mod 64 into x[D]. -/
  | sra (d : BitVec 5) (a : BitVec 5) (b : BitVec 5)
  /-- SLT (R112). Writes 1 to x[D] if x[A] < x[B] as signed values, else 0. -/
  | slt (d : BitVec 5) (a : BitVec 5) (b : BitVec 5)
  /-- SLTN (R112). Writes 1 to x[D] if x[A] < x[B] as unsigned values, else 0. -/
  | sltn (d : BitVec 5) (a : BitVec 5) (b : BitVec 5)
  /-- MIN (R112). Writes the signed smaller of x[A] and x[B] to x[D]. -/
  | min (d : BitVec 5) (a : BitVec 5) (b : BitVec 5)
  /-- MAX (R112). Writes the signed larger of x[A] and x[B] to x[D]. -/
  | max (d : BitVec 5) (a : BitVec 5) (b : BitVec 5)
  /-- MINN (R112). Writes the unsigned smaller of x[A] and x[B] to x[D]. -/
  | minn (d : BitVec 5) (a : BitVec 5) (b : BitVec 5)
  /-- MAXN (R112). Writes the unsigned larger of x[A] and x[B] to x[D]. -/
  | maxn (d : BitVec 5) (a : BitVec 5) (b : BitVec 5)
  /-- CLZ (R112). Writes the count of leading zero bits of x[A] to x[D]. -/
  | clz (d : BitVec 5) (a : BitVec 5)
  /-- CTZ (R112). Writes the count of trailing zero bits of x[A] to x[D]. -/
  | ctz (d : BitVec 5) (a : BitVec 5)
  /-- POPC (R112). Writes the count of one bits of x[A] to x[D]. -/
  | popc (d : BitVec 5) (a : BitVec 5)
  /-- ADDI (R113). Writes x[A] plus the sign-extended immediate to x[D]. -/
  | addi (d : BitVec 5) (a : BitVec 5) (i : BitVec 16)
  /-- ANDI (R113). Writes x[A] AND the zero-extended immediate to x[D]. -/
  | andi (d : BitVec 5) (a : BitVec 5) (i : BitVec 16)
  /-- ORI (R113). Writes x[A] OR the zero-extended immediate to x[D]. -/
  | ori (d : BitVec 5) (a : BitVec 5) (i : BitVec 16)
  /-- XORI (R113). Writes x[A] XOR the zero-extended immediate to x[D]. -/
  | xori (d : BitVec 5) (a : BitVec 5) (i : BitVec 16)
  /-- SLLI (R113). Shifts x[A] left by the immediate amount into x[D]. -/
  | slli (d : BitVec 5) (a : BitVec 5) (s : BitVec 6)
  /-- SRLI (R113). Shifts x[A] right logically by the immediate amount into x[D]. -/
  | srli (d : BitVec 5) (a : BitVec 5) (s : BitVec 6)
  /-- SRAI (R113). Shifts x[A] right arithmetically by the immediate amount into x[D]. -/
  | srai (d : BitVec 5) (a : BitVec 5) (s : BitVec 6)
  /-- SLTI (R113). Writes 1 to x[D] if x[A] is below the signed immediate, else 0. -/
  | slti (d : BitVec 5) (a : BitVec 5) (i : BitVec 16)
  /-- LUI (R113). Writes the sign-extended immediate times 2^16 to x[D]. -/
  | lui (d : BitVec 5) (i : BitVec 16)
  /-- AUIPC (R113). Writes PC plus the immediate times 2^16 to x[D]. -/
  | auipc (d : BitVec 5) (i : BitVec 16)
  /-- LD_S8 (R115). Loads a sign-extended byte into x[D]. -/
  | ldS8 (d : BitVec 5) (a : BitVec 5) (i : BitVec 13)
  /-- LD_N8 (R115). Loads a zero-extended byte into x[D]. -/
  | ldN8 (d : BitVec 5) (a : BitVec 5) (i : BitVec 13)
  /-- LD_S16 (R115). Loads a sign-extended halfword into x[D]. -/
  | ldS16 (d : BitVec 5) (a : BitVec 5) (i : BitVec 13)
  /-- LD_N16 (R115). Loads a zero-extended halfword into x[D]. -/
  | ldN16 (d : BitVec 5) (a : BitVec 5) (i : BitVec 13)
  /-- LD_S32 (R115). Loads a sign-extended word into x[D]. -/
  | ldS32 (d : BitVec 5) (a : BitVec 5) (i : BitVec 13)
  /-- LD_N32 (R115). Loads a zero-extended word into x[D]. -/
  | ldN32 (d : BitVec 5) (a : BitVec 5) (i : BitVec 13)
  /-- LD_64 (R115). Loads 8 bytes into x[D]. -/
  | ld64 (d : BitVec 5) (a : BitVec 5) (i : BitVec 13)
  /-- ST_8 (R115). Stores the low byte of x[D] into the scalar store buffer. -/
  | st8 (d : BitVec 5) (a : BitVec 5) (i : BitVec 13)
  /-- ST_16 (R115). Stores the low 2 bytes of x[D]. -/
  | st16 (d : BitVec 5) (a : BitVec 5) (i : BitVec 13)
  /-- ST_32 (R115). Stores the low 4 bytes of x[D]. -/
  | st32 (d : BitVec 5) (a : BitVec 5) (i : BitVec 13)
  /-- ST_64 (R115). Stores all 8 bytes of x[D]. -/
  | st64 (d : BitVec 5) (a : BitVec 5) (i : BitVec 13)
  /-- AMO_ADD (R117). Atomically adds x[B] to the memory word and returns the old value. -/
  | amoAdd (d : BitVec 5) (a : BitVec 5) (b : BitVec 5) (w : Bool) (s : Scope) (q : Bool) (l : Bool)
  /-- AMO_AND (R117). Atomically ANDs x[B] into the memory word and returns the old value. -/
  | amoAnd (d : BitVec 5) (a : BitVec 5) (b : BitVec 5) (w : Bool) (s : Scope) (q : Bool) (l : Bool)
  /-- AMO_OR (R117). Atomically ORs x[B] into the memory word and returns the old value. -/
  | amoOr (d : BitVec 5) (a : BitVec 5) (b : BitVec 5) (w : Bool) (s : Scope) (q : Bool) (l : Bool)
  /-- AMO_XOR (R117). Atomically XORs x[B] into the memory word and returns the old value. -/
  | amoXor (d : BitVec 5) (a : BitVec 5) (b : BitVec 5) (w : Bool) (s : Scope) (q : Bool) (l : Bool)
  /-- AMO_MIN (R117). Atomically stores the signed minimum and returns the old value. -/
  | amoMin (d : BitVec 5) (a : BitVec 5) (b : BitVec 5) (w : Bool) (s : Scope) (q : Bool) (l : Bool)
  /-- AMO_MINN (R117). Atomically stores the unsigned minimum and returns the old value. -/
  | amoMinn (d : BitVec 5) (a : BitVec 5) (b : BitVec 5) (w : Bool) (s : Scope) (q : Bool) (l : Bool)
  /-- AMO_MAX (R117). Atomically stores the signed maximum and returns the old value. -/
  | amoMax (d : BitVec 5) (a : BitVec 5) (b : BitVec 5) (w : Bool) (s : Scope) (q : Bool) (l : Bool)
  /-- AMO_MAXN (R117). Atomically stores the unsigned maximum and returns the old value. -/
  | amoMaxn (d : BitVec 5) (a : BitVec 5) (b : BitVec 5) (w : Bool) (s : Scope) (q : Bool) (l : Bool)
  /-- AMO_SWAP (R117). Atomically swaps x[B] with the memory word. -/
  | amoSwap (d : BitVec 5) (a : BitVec 5) (b : BitVec 5) (w : Bool) (s : Scope) (q : Bool) (l : Bool)
  /-- CAS (R117). Atomically compares the word with x[D] and stores x[B] on a match, returning the old value. -/
  | cas (d : BitVec 5) (a : BitVec 5) (b : BitVec 5) (w : Bool) (s : Scope) (q : Bool) (l : Bool)
  /-- B_EQ (R123). Branches when x[A] = x[B]. -/
  | bEq (a : BitVec 5) (b : BitVec 5) (i : BitVec 13)
  /-- B_NE (R123). Branches when x[A] != x[B]. -/
  | bNe (a : BitVec 5) (b : BitVec 5) (i : BitVec 13)
  /-- B_LT (R123). Branches when x[A] < x[B] signed. -/
  | bLt (a : BitVec 5) (b : BitVec 5) (i : BitVec 13)
  /-- B_GE (R123). Branches when x[A] >= x[B] signed. -/
  | bGe (a : BitVec 5) (b : BitVec 5) (i : BitVec 13)
  /-- B_LTN (R123). Branches when x[A] < x[B] unsigned. -/
  | bLtn (a : BitVec 5) (b : BitVec 5) (i : BitVec 13)
  /-- B_GEN (R123). Branches when x[A] >= x[B] unsigned. -/
  | bGen (a : BitVec 5) (b : BitVec 5) (i : BitVec 13)
  /-- B_BS (R123). Branches when bit x[B] mod 64 of x[A] is 1. -/
  | bBs (a : BitVec 5) (b : BitVec 5) (i : BitVec 13)
  /-- B_BC (R123). Branches when bit x[B] mod 64 of x[A] is 0. -/
  | bBc (a : BitVec 5) (b : BitVec 5) (i : BitVec 13)
  /-- J (R123). Jumps by a word displacement. -/
  | j (i : BitVec 26)
  /-- JAL (R123). Jumps and writes the return address to x1. -/
  | jal (i : BitVec 26)
  /-- JALR (R123). Jumps to x[A] plus an offset and links into x[D]. -/
  | jalr (d : BitVec 5) (a : BitVec 5) (i : BitVec 16)
  /-- MOP_STEP_END (R211). A 64-cycle mop step completes and its progress is recorded. -/
  | mopStepEnd (h : Nat)
  /-- ISSUE_ARBITRATION (R270). Each cycle the core arbiter gives up to two issue opportunities to ready harts. -/
  | issueArbitration (core : Nat)
  /-- YIELD_EXPIRY (R138). Sixteen cycles pass and a yielding hart may issue again. -/
  | yieldExpiry (h : Nat)
  /-- WFE_WAKE (R126). A write to the watched line at its ordering point wakes the hart. -/
  | wfeWake (h : Nat)
  /-- WFE_TIMEOUT (R126). After 65,536 cycles without a write the hart resumes with x[D] = 1. -/
  | wfeTimeout (h : Nat)
  /-- VACQUIRE_GRANT (R135). A free aligned quad block is granted to the first waiter in virtual-time order. -/
  | vacquireGrant (h : Nat)
  /-- QUAD_RESERVATION_TIMEOUT (R135). The first waiter has waited 4,096 cycles and freed quads are held for it. -/
  | quadReservationTimeout (core : Nat)
  /-- SSB_DRAIN (R282). The head scalar store registers and is written to its ordering point. -/
  | ssbDrain (h : Nat)
  /-- PSF_DRAIN (R282). The head plane store FIFO entry is applied at its home or bank. -/
  | psfDrain (h : Nat) (q : Nat)
  /-- CPF_DRAIN (R173). The head cluster packet is applied whole to its core's scratchpad. -/
  | cpfDrain (h : Nat) (c : Nat)
  /-- OWNER_LOST_TRAP (R308). A store whose word was lost makes the hart trap OWNER_LOST at its next boundary. -/
  | ownerLostTrap (h : Nat)
  /-- L1_EVICTION (R298). An L1 evicts a line, sending WB for its registered words. -/
  | l1Eviction (core : Nat) (line : Nat)
  /-- SLICE_EVICTION (R299). A slice recalls core-registered words, clears links and writes the line back. -/
  | sliceEviction (line : Nat)
  /-- CONTROLLER_WRITE_ISSUE (R280). A memory controller issues a queued write to DRAM. -/
  | controllerWriteIssue (chan : Nat)
  /-- LINK_DELIVERY (R282). The head remote write is applied at the remote home and acknowledged. -/
  | linkDelivery (module : Nat)
  /-- RD (R296). A scalar fill request is served at the home. -/
  | rd (n : Nat)
  /-- RDV (R296). A vector or engine read is served at the home. -/
  | rdv (n : Nat)
  /-- REG (R296). A registration request for a store or near atomic is served at the home. -/
  | reg (n : Nat)
  /-- WRV (R296). A vector store line is applied at the home. -/
  | wrv (n : Nat)
  /-- ATOM (R296). A die- or device-scope atomic is performed at the home. -/
  | atom (n : Nat)
  /-- EREG (R296). An engine registers its destination words at the home. -/
  | ereg (n : Nat)
  /-- EWR (R296). An engine writes words at the home and drops their registration. -/
  | ewr (h : Nat) (token : Nat)
  /-- GNT (R297). An L1 receives granted words with their values. -/
  | gnt (n : Nat)
  /-- XFER (R297). An owner returns and invalidates registered words. -/
  | xfer (n : Nat)
  /-- FWD (R297). An owner supplies values and keeps ownership. -/
  | fwd (n : Nat)
  /-- NAKL (R308). An agent learns the words it accessed are lost. -/
  | nakl (n : Nat)
  /-- COLLECT (R303). A combine buffer answers with its partials and resets them. -/
  | collect (n : Nat)
  /-- CLAIM (R309). An agent reports and releases registered words of a swept line. -/
  | claim (n : Nat)
  /-- WB (R296). The home applies an owner's eviction writeback. -/
  | wb (n : Nat)
  /-- XACK (R296). The home takes returned data and completes a transfer. -/
  | xack (n : Nat)
  /-- FACK (R296). The home receives forwarded values and answers the reader. -/
  | fack (n : Nat)
  /-- PART (R304). The home folds a combine buffer's partials into the home value. -/
  | part (n : Nat)
  /-- CLAIMR (R309). The home writes claimed values and unlocks the swept line. -/
  | claimr (n : Nat)
  /-- COMBINE_BUFFER_EVICTION (R305). A combine buffer evicts its oldest line, folding a partial or writing back a copy. -/
  | combineBufferEviction (cluster : Nat)
  /-- COPY_END (R188). A runner copy finishes or faults and credits or breaks its barriers. -/
  | copyEnd (h : Nat) (token : Nat)
  /-- GLOBAL_PAUSE_END (R386). The global pause ends and runners resume with clock 1. -/
  | globalPauseEnd
  /-- RIDDLE_OFFER (R238). A riddle offers a matched document with its score to the skimmer list. -/
  | riddleOffer (cluster : Nat) (session : Nat)
  /-- RIDDLE_RUN_END (R233). A riddle run finishes or stops on a fault or malformed block. -/
  | riddleRunEnd (cluster : Nat) (session : Nat)
  /-- PROBE_END (R232). A riddle probe finishes its NONE entries or stops. -/
  | probeEnd (cluster : Nat) (session : Nat)
  /-- ANNEAL_OPERATION_START (R368). An anneal unit chooses the next eligible merge or discard of a stream. -/
  | annealOperationStart (au : Nat)
  /-- MERGE_PUBLICATION (R369). A finished merge publishes its span and raises the generation. -/
  | mergePublication (hdr : Nat)
  /-- HORIZON_DISCARD (R369). The oldest top-level span is discarded and the generation rises. -/
  | horizonDiscard (hdr : Nat)
  /-- MERGE_ABANDON (R371). A faulting merge holds the stream and queues a fault record. -/
  | mergeAbandon (hdr : Nat)
  /-- CRUCIBLE_SLOT_TICK (R219). A 512-cycle crucible slot begins in the core's slot-table frame. -/
  | crucibleSlotTick (core : Nat)
  /-- SKIP_CUR_ADJUST (R218). The power manager moves CUR under droop or temperature. -/
  | skipCurAdjust (h : Nat) (cur : BitVec 8)
  /-- START_COUNTER_REREAD (R326). A write to the start-condition counter's line makes the arbiter reread it. -/
  | startCounterReread (part : Nat) (queue : Nat)
  /-- START_COUNTER_POLL_TIMEOUT (R326). 65,536 cycles pass and the arbiter rereads the counter. -/
  | startCounterPollTimeout (part : Nat) (queue : Nat)
  /-- TASK_PLACEMENT (R327). The arbiter chooses and places or restores a task as a gang. -/
  | taskPlacement (part : Nat)
  /-- HART_START (R331). A placed hart performs its acquire and begins its first instruction. -/
  | hartStart (h : Nat)
  /-- HART_STOP (R333). A hart of a pre-empted task stops at an instruction boundary. -/
  | hartStop (h : Nat)
  /-- CORE_SAVE_BEGIN (R333). A core begins saving once its harts stopped and its copies ended or froze. -/
  | coreSaveBegin (task : Nat) (core : Nat)
  /-- CORE_SAVE_COMPLETE (R335). A core's save ends and its resources are free. -/
  | coreSaveComplete (task : Nat) (core : Nat)
  /-- RESTORE_COMPLETE (R336). A restored task's parts are read back and its harts resume. -/
  | restoreComplete (task : Nat)
  /-- TASK_END (R328). All harts halted and engines done, the task frees resources and increments its counter. -/
  | taskEnd (task : Nat)
  /-- PAGE_FAULT_RESOLVED (R338). A served page fault restarts the stopped hart or ends the task. -/
  | pageFaultResolved (h : Nat) (ok : Bool)
  /-- SUBMIT (R354). A host write has a control core launch the record in a slot. -/
  | submit (part : Nat) (slot : Nat)
  /-- FAULTPOP (R354). A host read pops one fault record. -/
  | faultpop (part : Nat)
  /-- RESOLVE (R354). A host write retries or ends a faulting hart's task. -/
  | resolve (part : Nat) (w : BitVec 64)
  /-- POSTPOP (R359). A host read pops the oldest posted request. -/
  | postpop
  /-- ANSWER (R359). A host write answers a posted request. -/
  | answer (w : BitVec 128)
  /-- ERRPOP (R387). A host read pops the oldest error record. -/
  | errpop
  /-- VERDICT (R393). A host classification verdict settles pending error records. -/
  | verdict (w : BitVec 128)
  /-- EVENTPOP (R357). A host read pops the oldest event record. -/
  | eventpop
  /-- REGISTER_WRITE (R357). A host write to a slot or buffer register with no behaviour of its own. -/
  | registerWrite (win : Nat) (off : Nat) (w : BitVec 64)
  /-- HOST_WRITE (R355). A host write through BAR 4 is applied at its home or controller. -/
  | hostWrite (off : Nat) (len : Nat) (w : BitVec 512)
  /-- HOST_READ (R355). A host read through BAR 4 is served at its home or controller; BAR 0 holds the windows' registers (R353): an `off` of
  2^40 or more, past every offset of BAR 4, is BAR 0's offset plus 2^40 (log entry 149). -/
  | hostRead (off : Nat) (len : Nat)
  /-- SAVE_AREA_ACCESS (R353). A host access to a partition's save area through BAR 2. -/
  | saveAreaAccess (off : Nat) (wr : Option (BitVec 64))
  /-- PARTDEF (R358). Creates or dismantles a partition, or sets the shared ranges. -/
  | partdef (slot : Nat)
  /-- PTROOT (R358). Sets or deletes a context's page-table root. -/
  | ptroot (slot : Nat)
  /-- VMAP (R345). Writes a vector-map entry on every die. -/
  | vmap (slot : Nat)
  /-- SHOOT (R358). Drops a context's translations from every TLB of the partition. -/
  | shoot (slot : Nat)
  /-- SLOTTAB (R358). Loads a core's crucible slot table. -/
  | slottab (slot : Nat)
  /-- MODE (R393). Switches a function between hardware and host-assisted mode. -/
  | mode (slot : Nat)
  /-- SAVEAREA (R358). Sets a partition's save area. -/
  | savearea (slot : Nat)
  /-- SAVEOPEN (R358). Opens or closes a partition's BAR 2 window. -/
  | saveopen (slot : Nat)
  /-- GUARDTAB (R358). Places a partition's guard table. -/
  | guardtab (slot : Nat)
  /-- KEX (R358). Decapsulates an ML-KEM ciphertext into the host wrapping key. -/
  | kex (slot : Nat)
  /-- KEY (R358). Unwraps and loads an XTS key for a key id. -/
  | key (slot : Nat)
  /-- WINBIND (R358). Binds a command window to a context and memory window base. -/
  | winbind (slot : Nat)
  /-- TASK (R358). Pre-empts or ends a task. -/
  | task (slot : Nat)
  /-- CLEARLOST (R358). Returns lost words of a line to unregistered with value 0. -/
  | clearlost (slot : Nat)
  /-- RACE (R390). Arms or disarms the race detector for a partition. -/
  | race (slot : Nat)
  /-- PEER (R358). Edits the partition's remote peer table. -/
  | peer (slot : Nat)
  /-- ERROR_DETECTED (R387). A check detects an error and logs a record, starting classification. Where the unit's records hold no address
  (the log has 0 there), the ADDR of `er` is the place in the unit (log entry 95). -/
  | errorDetected (er : BitVec 256) (what : Tested)
  /-- SELF_TEST_COMPLETE (R388). A targeted self-test ends and classifies the error. -/
  | selfTestComplete (er : BitVec 256) (failed : Bool) (spare : Option Nat)
  /-- FLIT_REPLAY (R383). A flit that fails its CRC is replayed. -/
  | flitReplay (link : Nat)
  /-- REMOTE_ACCESS_TIMEOUT (R361). An access undelivered within 65,536 cycles faults with ECC. -/
  | remoteAccessTimeout (module : Nat)
  /-- RESET (R391). The boot ROM tests, fetches, verifies and jumps to a firmware image. -/
  | reset (image : Nat)
  /-- BOOT_WATCHDOG_EXPIRY (R392). A boot step exceeds 10 s and the device resets to take the alternative. -/
  | bootWatchdogExpiry (n : Nat)
  /-- ILLEGAL_WORD (R80). A hart executes a word that is not an instruction and traps with ILLEGAL, with the word in TVAL. -/
  | illegalWord (w : BitVec 32)
  /-- FETCH_FAULT (R58). Fetch of the next word faults with PAGE or PERM, with the PC in TVAL. -/
  | fetchFault
  /-- ENGINE_WRITE (R282). An engine such as the runner writes a produced word into a scratchpad bank. -/
  | engineWrite (h : Nat) (token : Nat)
  /-- REMOTE_REQUEST (R361). A frame from another module arrives with a load or atomic for this module's home, which serves it or refuses it by the peer table. -/
  | remoteRequest (module : Nat) (pa : Nat) (op : RemoteOp)
  /-- LINK_DOWN (R361). A fabric link goes down, so remote accesses over it cannot be delivered. -/
  | linkDown (module : Nat)
  /-- LINK_RETRAIN_COMPLETE (R383). A retraining link comes back up and carries its waiting traffic again. -/
  | linkRetrainComplete (link : Nat)
  /-- MALFORMED_COMMAND (R358). A CMDSUBMIT names a slot whose OP is no command, and status 2 is written with nothing changed. -/
  | malformedCommand (slot : Nat)
  deriving DecidableEq, Repr

end Sys2Proof
end

