-- ==== Sys2Proof/WellFormed.lean ====
section
/-! DEFINITION. The operand checks of the encoding (check 2 of R81): the register and code ranges of R71 to R78 that the
types of the fields do not already give. A word that fails one traps with ILLEGAL (R80). -/
namespace Sys2Proof

/-- VB names x0 to x23 or q0 to q3 (R72); 28 to 31 would name q4 to q7, which a vector word may not read (R13). -/
def xq (b : Reg) : Bool := decide (b.toNat ≤ 27)
/-- The field names q4 to q7 by 28 to 31 (R73). -/
def q47 (d : Reg) : Bool := decide (28 ≤ d.toNat)
/-- The field names one of eight registers, k0 to k7 or z0 to z7 (R73, R195). -/
def kreg (d : Reg) : Bool := decide (d.toNat ≤ 7)
/-- A target code of R71 that is not reserved. -/
def ccode (b : Reg) : Bool := decide (b.toNat ≤ 12) || (decide (16 ≤ b.toNat) && decide (b.toNat ≤ 19))

/-- The instruction's operands are in the ranges its encoding allows (R71 to R78). -/
def Instr.wf : Instr → Bool
  | .cpNd _ _ g f => g || !f
  | .cpMc _ _ g f => g || !f
  | .zbind d _ => kreg d
  | .zrd _ a => kreg a
  | .zpeek _ a => kreg a
  | .zsave d _ => kreg d
  | .zrest d _ => kreg d
  | .pyLdv _ _ b => b.getLsbD 0 == false
  | .vaddVx _ _ b _ _ _ => xq b
  | .vsubVx _ _ b _ _ _ => xq b
  | .vrsubVx _ _ b _ _ _ => xq b
  | .vmulVx _ _ b _ _ _ => xq b
  | .vmulhVx _ _ b _ _ _ => xq b
  | .vmaccVx _ _ b _ _ _ => xq b
  | .vminVx _ _ b _ _ _ => xq b
  | .vmaxVx _ _ b _ _ _ => xq b
  | .vandVx _ _ b _ _ _ => xq b
  | .vorVx _ _ b _ _ _ => xq b
  | .vxorVx _ _ b _ _ _ => xq b
  | .vsllVx _ _ b _ _ _ => xq b
  | .vsrlVx _ _ b _ _ _ => xq b
  | .vsraVx _ _ b _ _ _ => xq b
  | .vadcVx _ _ b _ _ => xq b
  | .vsbcVx _ _ b _ _ => xq b
  | .vsaddVx _ _ b _ _ _ => xq b
  | .vssubVx _ _ b _ _ _ => xq b
  | .vfaddVx _ _ b _ _ _ => xq b
  | .vfsubVx _ _ b _ _ _ => xq b
  | .vfmulVx _ _ b _ _ _ => xq b
  | .vfmaVx _ _ b _ _ _ => xq b
  | .vfmsVx _ _ b _ _ _ => xq b
  | .vfdivVx _ _ b _ _ _ => xq b
  | .vfminVx _ _ b _ _ _ => xq b
  | .vfmaxVx _ _ b _ _ _ => xq b
  | .vcmpEqVv d _ _ _ _ _ => kreg d
  | .vcmpNeVv d _ _ _ _ _ => kreg d
  | .vcmpLtVv d _ _ _ _ _ => kreg d
  | .vcmpLeVv d _ _ _ _ _ => kreg d
  | .vcmpGtVv d _ _ _ _ _ => kreg d
  | .vcmpGeVv d _ _ _ _ _ => kreg d
  | .vfcmpEqVv d _ _ _ _ _ => kreg d
  | .vfcmpNeVv d _ _ _ _ _ => kreg d
  | .vfcmpLtVv d _ _ _ _ _ => kreg d
  | .vfcmpLeVv d _ _ _ _ _ => kreg d
  | .vcmpEqVx d _ b _ _ _ => kreg d && xq b
  | .vcmpNeVx d _ b _ _ _ => kreg d && xq b
  | .vcmpLtVx d _ b _ _ _ => kreg d && xq b
  | .vcmpLeVx d _ b _ _ _ => kreg d && xq b
  | .vcmpGtVx d _ b _ _ _ => kreg d && xq b
  | .vcmpGeVx d _ b _ _ _ => kreg d && xq b
  | .vfcmpEqVx d _ b _ _ _ => kreg d && xq b
  | .vfcmpNeVx d _ b _ _ _ => kreg d && xq b
  | .vfcmpLtVx d _ b _ _ _ => kreg d && xq b
  | .vfcmpLeVx d _ b _ _ _ => kreg d && xq b
  | .kand d a b => kreg d && kreg a && kreg b
  | .kor d a b => kreg d && kreg a && kreg b
  | .kxor d a b => kreg d && kreg a && kreg b
  | .knot d a => kreg d && kreg a
  | .kshl1 d a => kreg d && kreg a
  | .kshr1 d a => kreg d && kreg a
  | .kpopc d a => q47 d && kreg a
  | .kfirst d a => q47 d && kreg a
  | .kmv d a => kreg d && kreg a
  | .vbcast _ b _ _ _ => xq b
  | .vslideup _ _ b _ _ _ => xq b
  | .vslidedn _ _ b _ _ _ => xq b
  | .vredSum d _ b _ _ _ => q47 d && xq b
  | .vredOsum d _ b _ _ _ => q47 d && xq b
  | .vredMax d _ b _ _ _ => q47 d && xq b
  | .vredMin d _ b _ _ _ => q47 d && xq b
  | .vredAnd d _ b _ _ _ => q47 d && xq b
  | .vredOr d _ b _ _ _ => q47 d && xq b
  | .vstrip _ _ b _ => b == 8#5 || b == 16#5 || b == 24#5
  | .vcvt _ _ b _ _ _ _ => ccode b
  | .vwiden _ _ b _ _ _ => ccode b
  | .vnarrow _ _ b _ _ _ _ => ccode b
  | .vldx _ _ _ _ _ w _ => w != 3#2
  | .vldc _ _ _ _ _ w _ => w != 3#2
  | .vstxO _ _ _ _ _ w _ => w != 3#2
  | .vstxU _ _ _ _ _ w _ => w != 3#2
  | .vstc _ _ _ _ _ w _ => w != 3#2
  | .vscc _ _ _ k _ => k != 0#3
  | .vlock d _ _ _ => kreg d
  | .vscadd _ _ _ _ _ s => s != 3#2
  | .vmvS _ b _ => xq b
  | .vext d _ b _ => q47 d && xq b
  | .qput d _ => decide (24 ≤ d.toNat) && decide (d.toNat ≤ 27)
  | .qget _ a => q47 a
  | .oClaim f n => decide (f.toNat + n.toNat + 1 ≤ 64)
  | .oRelease f n => decide (f.toNat + n.toNat + 1 ≤ 64)
  | .mfmt _ a b _ _ => decide (a.toNat < 20) && decide (b.toNat < 20)
  | .mop _ a _ _ _ _ => a.getLsbD 0 == false
  | .mldP s _ _ => s.getLsbD 0 == false
  | .add .. | .sub .. | .and .. | .or .. | .xor .. | .sll .. | .srl .. | .sra .. | .slt .. | .sltn .. | .min .. 
  | .max .. | .minn .. | .maxn .. | .clz .. | .ctz .. | .popc .. | .addi .. | .andi .. | .ori .. | .xori .. 
  | .slli .. | .srli .. | .srai .. | .slti .. | .lui .. | .auipc .. | .mul .. | .mulh .. | .mulhn .. | .div .. 
  | .divn .. | .rem .. | .remn .. | .ldS8 .. | .ldN8 .. | .ldS16 .. | .ldN16 .. | .ldS32 .. | .ldN32 .. 
  | .ld64 .. | .st8 .. | .st16 .. | .st32 .. | .st64 .. | .amoAdd .. | .amoAnd .. | .amoOr .. | .amoXor .. 
  | .amoMin .. | .amoMinn .. | .amoMax .. | .amoMaxn .. | .amoSwap .. | .cas .. | .fadd .. | .fsub .. | .fmul .. 
  | .fma .. | .fdiv .. | .fsqrt .. | .fmin .. | .fmax .. | .fcmpEq .. | .fcmpLt .. | .fcmpLe .. | .fcmpUn .. 
  | .fcvtTos64 .. | .fcvtTon64 .. | .fcvtFroms64 .. | .fcvtFromn64 .. | .fcvtTofp .. | .fcvtTos32 .. 
  | .fcvtTon32 .. | .bEq .. | .bNe .. | .bLt .. | .bGe .. | .bLtn .. | .bGen .. | .bBs .. | .bBc .. | .j .. 
  | .jal .. | .jalr .. | .trap .. | .eret | .brk | .halt | .wfe .. | .sysget .. | .sysput .. | .fenceAcq .. 
  | .fenceRel .. | .fenceSv | .fenceFull .. | .lsync | .invR .. | .invRo | .fork .. | .join .. | .vrelease 
  | .vacquire .. | .gbar .. | .launch .. | .yield | .cpWait .. | .cpBind .. | .barInit .. | .barArrive .. 
  | .barWait .. | .zloop .. | .plOpen .. | .plTerm .. | .plRun .. | .plProbe .. | .plStat .. | .tkInit .. 
  | .tkIns .. | .tkFuse .. | .tkDrain .. | .tkThr .. | .pyLd .. | .pyApp .. | .pyDef .. | .pyComb .. 
  | .pyStat .. | .pyResume .. | .vsetl .. | .vsett .. | .vaddVv .. | .vsubVv .. | .vrsubVv .. | .vmulVv .. 
  | .vmulhVv .. | .vmaccVv .. | .vminVv .. | .vmaxVv .. | .vandVv .. | .vorVv .. | .vxorVv .. | .vsllVv .. 
  | .vsrlVv .. | .vsraVv .. | .vadcVv .. | .vsbcVv .. | .vsaddVv .. | .vssubVv .. | .vaddVi .. | .vsubVi .. 
  | .vrsubVi .. | .vmulVi .. | .vmulhVi .. | .vmaccVi .. | .vminVi .. | .vmaxVi .. | .vandVi .. | .vorVi .. 
  | .vxorVi .. | .vsllVi .. | .vsrlVi .. | .vsraVi .. | .vadcVi .. | .vsbcVi .. | .vsaddVi .. | .vssubVi .. 
  | .vfaddVv .. | .vfsubVv .. | .vfmulVv .. | .vfmaVv .. | .vfmsVv .. | .vfdivVv .. | .vfsqrt .. | .vfminVv .. 
  | .vfmaxVv .. | .vfclass .. | .vfrcpe .. | .vmerge .. | .vrgather .. | .vcompress .. | .vexpand .. 
  | .vpermblk .. | .vld .. | .vlds .. | .vldz .. | .vldb .. | .vst .. | .vsts .. | .vstb .. | .vgll .. 
  | .vunlock .. | .winDecl .. | .vscaddWin .. | .winMerge .. | .crDecl .. | .crDrop .. | .vmv .. | .mattach .. 
  | .mdetach | .mzero .. | .mskip .. | .mopStepEnd .. | .msliceRd .. | .msliceWr .. | .msliceRdExp .. | .mld .. 
  | .mst .. | .issueArbitration .. | .yieldExpiry .. | .wfeWake .. | .wfeTimeout .. | .vacquireGrant .. 
  | .quadReservationTimeout .. | .ssbDrain .. | .psfDrain .. | .cpfDrain .. | .ownerLostTrap .. | .l1Eviction .. 
  | .sliceEviction .. | .controllerWriteIssue .. | .linkDelivery .. | .rd .. | .rdv .. | .reg .. | .wrv .. 
  | .atom .. | .ereg .. | .ewr .. | .gnt .. | .xfer .. | .fwd .. | .nakl .. | .collect .. | .claim .. | .wb .. 
  | .xack .. | .fack .. | .part .. | .claimr .. | .combineBufferEviction .. | .copyEnd .. | .globalPauseEnd 
  | .riddleOffer .. | .riddleRunEnd .. | .probeEnd .. | .annealOperationStart .. | .mergePublication .. 
  | .horizonDiscard .. | .mergeAbandon .. | .crucibleSlotTick .. | .skipCurAdjust .. | .startCounterReread .. 
  | .startCounterPollTimeout .. | .taskPlacement .. | .hartStart .. | .hartStop .. | .coreSaveBegin .. 
  | .coreSaveComplete .. | .restoreComplete .. | .taskEnd .. | .pageFaultResolved .. | .submit .. | .faultpop .. 
  | .resolve .. | .postpop | .answer .. | .errpop | .verdict .. | .eventpop | .registerWrite .. | .hostWrite .. 
  | .hostRead .. | .saveAreaAccess .. | .partdef .. | .ptroot .. | .vmap .. | .shoot .. | .slottab .. | .mode .. 
  | .savearea .. | .saveopen .. | .guardtab .. | .kex .. | .key .. | .winbind .. | .task .. | .clearlost .. 
  | .race .. | .peer .. | .errorDetected .. | .selfTestComplete .. | .flitReplay .. | .remoteAccessTimeout .. 
  | .reset .. | .bootWatchdogExpiry .. | .illegalWord .. | .fetchFault | .engineWrite .. | .remoteRequest .. 
  | .linkDown .. | .linkRetrainComplete .. | .malformedCommand .. => true

/-- The instruction is a word of the instruction set, and not a device step of the table. -/
def Instr.isWord : Instr → Bool
  | .add .. | .sub .. | .and .. | .or .. | .xor .. | .sll .. | .srl .. | .sra .. | .slt .. | .sltn .. | .min .. 
  | .max .. | .minn .. | .maxn .. | .clz .. | .ctz .. | .popc .. | .addi .. | .andi .. | .ori .. | .xori .. 
  | .slli .. | .srli .. | .srai .. | .slti .. | .lui .. | .auipc .. | .mul .. | .mulh .. | .mulhn .. | .div .. 
  | .divn .. | .rem .. | .remn .. | .ldS8 .. | .ldN8 .. | .ldS16 .. | .ldN16 .. | .ldS32 .. | .ldN32 .. 
  | .ld64 .. | .st8 .. | .st16 .. | .st32 .. | .st64 .. | .amoAdd .. | .amoAnd .. | .amoOr .. | .amoXor .. 
  | .amoMin .. | .amoMinn .. | .amoMax .. | .amoMaxn .. | .amoSwap .. | .cas .. | .fadd .. | .fsub .. | .fmul .. 
  | .fma .. | .fdiv .. | .fsqrt .. | .fmin .. | .fmax .. | .fcmpEq .. | .fcmpLt .. | .fcmpLe .. | .fcmpUn .. 
  | .fcvtTos64 .. | .fcvtTon64 .. | .fcvtFroms64 .. | .fcvtFromn64 .. | .fcvtTofp .. | .fcvtTos32 .. 
  | .fcvtTon32 .. | .bEq .. | .bNe .. | .bLt .. | .bGe .. | .bLtn .. | .bGen .. | .bBs .. | .bBc .. | .j .. 
  | .jal .. | .jalr .. | .trap .. | .eret | .brk | .halt | .wfe .. | .sysget .. | .sysput .. | .fenceAcq .. 
  | .fenceRel .. | .fenceSv | .fenceFull .. | .lsync | .invR .. | .invRo | .fork .. | .join .. | .vrelease 
  | .vacquire .. | .gbar .. | .launch .. | .yield | .cpNd .. | .cpMc .. | .cpWait .. | .cpBind .. | .barInit .. 
  | .barArrive .. | .barWait .. | .zbind .. | .zrd .. | .zpeek .. | .zsave .. | .zrest .. | .zloop .. 
  | .plOpen .. | .plTerm .. | .plRun .. | .plProbe .. | .plStat .. | .tkInit .. | .tkIns .. | .tkFuse .. 
  | .tkDrain .. | .tkThr .. | .pyLd .. | .pyLdv .. | .pyApp .. | .pyDef .. | .pyComb .. | .pyStat .. 
  | .pyResume .. | .vsetl .. | .vsett .. | .vaddVv .. | .vsubVv .. | .vrsubVv .. | .vmulVv .. | .vmulhVv .. 
  | .vmaccVv .. | .vminVv .. | .vmaxVv .. | .vandVv .. | .vorVv .. | .vxorVv .. | .vsllVv .. | .vsrlVv .. 
  | .vsraVv .. | .vadcVv .. | .vsbcVv .. | .vsaddVv .. | .vssubVv .. | .vaddVx .. | .vsubVx .. | .vrsubVx .. 
  | .vmulVx .. | .vmulhVx .. | .vmaccVx .. | .vminVx .. | .vmaxVx .. | .vandVx .. | .vorVx .. | .vxorVx .. 
  | .vsllVx .. | .vsrlVx .. | .vsraVx .. | .vadcVx .. | .vsbcVx .. | .vsaddVx .. | .vssubVx .. | .vaddVi .. 
  | .vsubVi .. | .vrsubVi .. | .vmulVi .. | .vmulhVi .. | .vmaccVi .. | .vminVi .. | .vmaxVi .. | .vandVi .. 
  | .vorVi .. | .vxorVi .. | .vsllVi .. | .vsrlVi .. | .vsraVi .. | .vadcVi .. | .vsbcVi .. | .vsaddVi .. 
  | .vssubVi .. | .vfaddVv .. | .vfsubVv .. | .vfmulVv .. | .vfmaVv .. | .vfmsVv .. | .vfdivVv .. | .vfsqrt .. 
  | .vfminVv .. | .vfmaxVv .. | .vfclass .. | .vfrcpe .. | .vfaddVx .. | .vfsubVx .. | .vfmulVx .. | .vfmaVx .. 
  | .vfmsVx .. | .vfdivVx .. | .vfminVx .. | .vfmaxVx .. | .vcmpEqVv .. | .vcmpNeVv .. | .vcmpLtVv .. 
  | .vcmpLeVv .. | .vcmpGtVv .. | .vcmpGeVv .. | .vfcmpEqVv .. | .vfcmpNeVv .. | .vfcmpLtVv .. | .vfcmpLeVv .. 
  | .vcmpEqVx .. | .vcmpNeVx .. | .vcmpLtVx .. | .vcmpLeVx .. | .vcmpGtVx .. | .vcmpGeVx .. | .vfcmpEqVx .. 
  | .vfcmpNeVx .. | .vfcmpLtVx .. | .vfcmpLeVx .. | .kand .. | .kor .. | .kxor .. | .knot .. | .kshl1 .. 
  | .kshr1 .. | .kpopc .. | .kfirst .. | .kmv .. | .vmerge .. | .vbcast .. | .vslideup .. | .vslidedn .. 
  | .vrgather .. | .vcompress .. | .vexpand .. | .vpermblk .. | .vredSum .. | .vredOsum .. | .vredMax .. 
  | .vredMin .. | .vredAnd .. | .vredOr .. | .vstrip .. | .vcvt .. | .vwiden .. | .vnarrow .. | .vld .. 
  | .vlds .. | .vldz .. | .vldb .. | .vst .. | .vsts .. | .vstb .. | .vldx .. | .vldc .. | .vstxO .. | .vstxU .. 
  | .vstc .. | .vgll .. | .vscc .. | .vlock .. | .vunlock .. | .winDecl .. | .vscaddWin .. | .winMerge .. 
  | .vscadd .. | .crDecl .. | .crDrop .. | .vmv .. | .vmvS .. | .vext .. | .qput .. | .qget .. | .mattach .. 
  | .mdetach | .oClaim .. | .oRelease .. | .mzero .. | .mfmt .. | .mskip .. | .mop .. | .msliceRd .. 
  | .msliceWr .. | .msliceRdExp .. | .mld .. | .mldP .. | .mst .. => true
  | .mopStepEnd .. | .issueArbitration .. | .yieldExpiry .. | .wfeWake .. | .wfeTimeout .. | .vacquireGrant .. 
  | .quadReservationTimeout .. | .ssbDrain .. | .psfDrain .. | .cpfDrain .. | .ownerLostTrap .. | .l1Eviction .. 
  | .sliceEviction .. | .controllerWriteIssue .. | .linkDelivery .. | .rd .. | .rdv .. | .reg .. | .wrv .. 
  | .atom .. | .ereg .. | .ewr .. | .gnt .. | .xfer .. | .fwd .. | .nakl .. | .collect .. | .claim .. | .wb .. 
  | .xack .. | .fack .. | .part .. | .claimr .. | .combineBufferEviction .. | .copyEnd .. | .globalPauseEnd 
  | .riddleOffer .. | .riddleRunEnd .. | .probeEnd .. | .annealOperationStart .. | .mergePublication .. 
  | .horizonDiscard .. | .mergeAbandon .. | .crucibleSlotTick .. | .skipCurAdjust .. | .startCounterReread .. 
  | .startCounterPollTimeout .. | .taskPlacement .. | .hartStart .. | .hartStop .. | .coreSaveBegin .. 
  | .coreSaveComplete .. | .restoreComplete .. | .taskEnd .. | .pageFaultResolved .. | .submit .. | .faultpop .. 
  | .resolve .. | .postpop | .answer .. | .errpop | .verdict .. | .eventpop | .registerWrite .. | .hostWrite .. 
  | .hostRead .. | .saveAreaAccess .. | .partdef .. | .ptroot .. | .vmap .. | .shoot .. | .slottab .. | .mode .. 
  | .savearea .. | .saveopen .. | .guardtab .. | .kex .. | .key .. | .winbind .. | .task .. | .clearlost .. 
  | .race .. | .peer .. | .errorDetected .. | .selfTestComplete .. | .flitReplay .. | .remoteAccessTimeout .. 
  | .reset .. | .bootWatchdogExpiry .. | .illegalWord .. | .fetchFault | .engineWrite .. | .remoteRequest .. 
  | .linkDown .. | .linkRetrainComplete .. | .malformedCommand .. => false

end Sys2Proof
end

