-- ==== Sys2Proof/Decode.lean ====
section
/-! DEFINITION. The decoder, total on every 32-bit word: one instruction, or none for a word that traps with ILLEGAL (R80);
and the encoder, from the same tables. -/
namespace Sys2Proof

/-- The word of an instruction, from the formats of R60 and the codes of R63 to R76. A device step has no bits; its
word is the ILLEGAL guard 0 (R63). -/
def encode : Instr → IWord
  | .add d a b => 6#6 ++ d ++ a ++ b ++ 0#11
  | .sub d a b => 6#6 ++ d ++ a ++ b ++ 1#11
  | .and d a b => 6#6 ++ d ++ a ++ b ++ 2#11
  | .or d a b => 6#6 ++ d ++ a ++ b ++ 3#11
  | .xor d a b => 6#6 ++ d ++ a ++ b ++ 4#11
  | .sll d a b => 6#6 ++ d ++ a ++ b ++ 5#11
  | .srl d a b => 6#6 ++ d ++ a ++ b ++ 6#11
  | .sra d a b => 6#6 ++ d ++ a ++ b ++ 7#11
  | .slt d a b => 6#6 ++ d ++ a ++ b ++ 8#11
  | .sltn d a b => 6#6 ++ d ++ a ++ b ++ 9#11
  | .min d a b => 6#6 ++ d ++ a ++ b ++ 10#11
  | .max d a b => 6#6 ++ d ++ a ++ b ++ 11#11
  | .minn d a b => 6#6 ++ d ++ a ++ b ++ 12#11
  | .maxn d a b => 6#6 ++ d ++ a ++ b ++ 13#11
  | .clz d a => 6#6 ++ d ++ a ++ 14#16
  | .ctz d a => 6#6 ++ d ++ a ++ 15#16
  | .popc d a => 6#6 ++ d ++ a ++ 16#16
  | .addi d a i => 7#6 ++ d ++ a ++ i
  | .andi d a i => 8#6 ++ d ++ a ++ i
  | .ori d a i => 9#6 ++ d ++ a ++ i
  | .xori d a i => 10#6 ++ d ++ a ++ i
  | .slli d a s => 11#6 ++ d ++ a ++ 0#10 ++ s
  | .srli d a s => 11#6 ++ d ++ a ++ 1#10 ++ s
  | .srai d a s => 11#6 ++ d ++ a ++ 2#10 ++ s
  | .slti d a i => 12#6 ++ d ++ a ++ i
  | .lui d i => 13#6 ++ d ++ 0#5 ++ i
  | .auipc d i => 14#6 ++ d ++ 0#5 ++ i
  | .mul d a b => 15#6 ++ d ++ a ++ b ++ 0#11
  | .mulh d a b => 15#6 ++ d ++ a ++ b ++ 1#11
  | .mulhn d a b => 15#6 ++ d ++ a ++ b ++ 2#11
  | .div d a b => 15#6 ++ d ++ a ++ b ++ 3#11
  | .divn d a b => 15#6 ++ d ++ a ++ b ++ 4#11
  | .rem d a b => 15#6 ++ d ++ a ++ b ++ 5#11
  | .remn d a b => 15#6 ++ d ++ a ++ b ++ 6#11
  | .ldS8 d a i => 16#6 ++ d ++ a ++ 0#3 ++ i
  | .ldN8 d a i => 16#6 ++ d ++ a ++ 1#3 ++ i
  | .ldS16 d a i => 16#6 ++ d ++ a ++ 2#3 ++ i
  | .ldN16 d a i => 16#6 ++ d ++ a ++ 3#3 ++ i
  | .ldS32 d a i => 16#6 ++ d ++ a ++ 4#3 ++ i
  | .ldN32 d a i => 16#6 ++ d ++ a ++ 5#3 ++ i
  | .ld64 d a i => 16#6 ++ d ++ a ++ 6#3 ++ i
  | .st8 d a i => 17#6 ++ d ++ a ++ 0#3 ++ i
  | .st16 d a i => 17#6 ++ d ++ a ++ 2#3 ++ i
  | .st32 d a i => 17#6 ++ d ++ a ++ 4#3 ++ i
  | .st64 d a i => 17#6 ++ d ++ a ++ 6#3 ++ i
  | .amoAdd d a b w s q l => 18#6 ++ d ++ a ++ b ++ 0#4 ++ bit1 w ++ 0#1 ++ s.code ++ bit1 q ++ bit1 l
  | .amoAnd d a b w s q l => 18#6 ++ d ++ a ++ b ++ 2#4 ++ bit1 w ++ 0#1 ++ s.code ++ bit1 q ++ bit1 l
  | .amoOr d a b w s q l => 18#6 ++ d ++ a ++ b ++ 4#4 ++ bit1 w ++ 0#1 ++ s.code ++ bit1 q ++ bit1 l
  | .amoXor d a b w s q l => 18#6 ++ d ++ a ++ b ++ 6#4 ++ bit1 w ++ 0#1 ++ s.code ++ bit1 q ++ bit1 l
  | .amoMin d a b w s q l => 18#6 ++ d ++ a ++ b ++ 8#4 ++ bit1 w ++ 0#1 ++ s.code ++ bit1 q ++ bit1 l
  | .amoMinn d a b w s q l => 18#6 ++ d ++ a ++ b ++ 9#4 ++ bit1 w ++ 0#1 ++ s.code ++ bit1 q ++ bit1 l
  | .amoMax d a b w s q l => 18#6 ++ d ++ a ++ b ++ 10#4 ++ bit1 w ++ 0#1 ++ s.code ++ bit1 q ++ bit1 l
  | .amoMaxn d a b w s q l => 18#6 ++ d ++ a ++ b ++ 11#4 ++ bit1 w ++ 0#1 ++ s.code ++ bit1 q ++ bit1 l
  | .amoSwap d a b w s q l => 18#6 ++ d ++ a ++ b ++ 12#4 ++ bit1 w ++ 0#1 ++ s.code ++ bit1 q ++ bit1 l
  | .cas d a b w s q l => 18#6 ++ d ++ a ++ b ++ 14#4 ++ bit1 w ++ 0#1 ++ s.code ++ bit1 q ++ bit1 l
  | .fadd d a b p m => 19#6 ++ d ++ a ++ b ++ 0#4 ++ bit1 p ++ m.code ++ 0#3
  | .fsub d a b p m => 19#6 ++ d ++ a ++ b ++ 1#4 ++ bit1 p ++ m.code ++ 0#3
  | .fmul d a b p m => 19#6 ++ d ++ a ++ b ++ 2#4 ++ bit1 p ++ m.code ++ 0#3
  | .fma d a b p m => 19#6 ++ d ++ a ++ b ++ 3#4 ++ bit1 p ++ m.code ++ 0#3
  | .fdiv d a b p m => 19#6 ++ d ++ a ++ b ++ 4#4 ++ bit1 p ++ m.code ++ 0#3
  | .fsqrt d a p m => 19#6 ++ d ++ a ++ 5#9 ++ bit1 p ++ m.code ++ 0#3
  | .fmin d a b p => 19#6 ++ d ++ a ++ b ++ 6#4 ++ bit1 p ++ 0#6
  | .fmax d a b p => 19#6 ++ d ++ a ++ b ++ 7#4 ++ bit1 p ++ 0#6
  | .fcmpEq d a b p => 19#6 ++ d ++ a ++ b ++ 8#4 ++ bit1 p ++ 0#6
  | .fcmpLt d a b p => 19#6 ++ d ++ a ++ b ++ 8#4 ++ bit1 p ++ 1#6
  | .fcmpLe d a b p => 19#6 ++ d ++ a ++ b ++ 8#4 ++ bit1 p ++ 2#6
  | .fcmpUn d a b p => 19#6 ++ d ++ a ++ b ++ 8#4 ++ bit1 p ++ 3#6
  | .fcvtTos64 d a p m => 19#6 ++ d ++ a ++ 9#9 ++ bit1 p ++ m.code ++ 0#3
  | .fcvtTon64 d a p m => 19#6 ++ d ++ a ++ 9#9 ++ bit1 p ++ m.code ++ 1#3
  | .fcvtFroms64 d a p m => 19#6 ++ d ++ a ++ 9#9 ++ bit1 p ++ m.code ++ 2#3
  | .fcvtFromn64 d a p m => 19#6 ++ d ++ a ++ 9#9 ++ bit1 p ++ m.code ++ 3#3
  | .fcvtTofp d a p m => 19#6 ++ d ++ a ++ 9#9 ++ bit1 p ++ m.code ++ 4#3
  | .fcvtTos32 d a p m => 19#6 ++ d ++ a ++ 9#9 ++ bit1 p ++ m.code ++ 5#3
  | .fcvtTon32 d a p m => 19#6 ++ d ++ a ++ 9#9 ++ bit1 p ++ m.code ++ 6#3
  | .bEq a b i => 2#6 ++ a ++ b ++ 0#3 ++ i
  | .bNe a b i => 2#6 ++ a ++ b ++ 1#3 ++ i
  | .bLt a b i => 2#6 ++ a ++ b ++ 2#3 ++ i
  | .bGe a b i => 2#6 ++ a ++ b ++ 3#3 ++ i
  | .bLtn a b i => 2#6 ++ a ++ b ++ 4#3 ++ i
  | .bGen a b i => 2#6 ++ a ++ b ++ 5#3 ++ i
  | .bBs a b i => 2#6 ++ a ++ b ++ 6#3 ++ i
  | .bBc a b i => 2#6 ++ a ++ b ++ 7#3 ++ i
  | .j i => 3#6 ++ i
  | .jal i => 4#6 ++ i
  | .jalr d a i => 5#6 ++ d ++ a ++ i
  | .trap c => 1#6 ++ 0#19 ++ c
  | .eret => 1#6 ++ 128#26
  | .brk => 1#6 ++ 256#26
  | .halt => 1#6 ++ 384#26
  | .wfe d a b => 1#6 ++ d ++ a ++ b ++ 512#11
  | .sysget d h n => 1#6 ++ d ++ 0#5 ++ h ++ 5#4 ++ n
  | .sysput a h n => 1#6 ++ 0#5 ++ a ++ h ++ 6#4 ++ n
  | .fenceAcq s r => 1#6 ++ 7#19 ++ s.code ++ bit1 r ++ 0#3
  | .fenceRel s e => 1#6 ++ 8#19 ++ s.code ++ 0#1 ++ bit1 e ++ 0#2
  | .fenceSv => 1#6 ++ 1152#26
  | .fenceFull s r e => 1#6 ++ 10#19 ++ s.code ++ bit1 r ++ bit1 e ++ 0#2
  | .lsync => 1#6 ++ 1408#26
  | .invR a b => 1#6 ++ 0#5 ++ a ++ b ++ 1536#11
  | .invRo => 1#6 ++ 1664#26
  | .fork d a b => 20#6 ++ d ++ a ++ b ++ 0#11
  | .join d a b => 20#6 ++ d ++ a ++ b ++ 1#11
  | .vrelease => 20#6 ++ 2#26
  | .vacquire d a => 20#6 ++ d ++ a ++ 3#16
  | .gbar d a => 20#6 ++ d ++ a ++ 4#16
  | .launch d a => 20#6 ++ d ++ a ++ 5#16
  | .yield => 20#6 ++ 6#26
  | .cpNd d a g f => 21#6 ++ d ++ a ++ 0#8 ++ bit1 g ++ bit1 f ++ 0#6
  | .cpMc d a g f => 21#6 ++ d ++ a ++ 1#8 ++ bit1 g ++ bit1 f ++ 0#6
  | .cpWait d a => 21#6 ++ d ++ a ++ 512#16
  | .cpBind d a b => 21#6 ++ d ++ a ++ b ++ 768#11
  | .barInit a b => 22#6 ++ 0#5 ++ a ++ b ++ 0#11
  | .barArrive d a b => 22#6 ++ d ++ a ++ b ++ 1#11
  | .barWait d a b => 22#6 ++ d ++ a ++ b ++ 2#11
  | .zbind d a => 23#6 ++ d ++ a ++ 0#16
  | .zrd d a => 23#6 ++ d ++ a ++ 1#16
  | .zpeek d a => 23#6 ++ d ++ a ++ 2#16
  | .zsave d a => 23#6 ++ d ++ a ++ 3#16
  | .zrest d a => 23#6 ++ d ++ a ++ 4#16
  | .zloop a b => 23#6 ++ 0#5 ++ a ++ b ++ 5#11
  | .plOpen d a b => 24#6 ++ d ++ a ++ b ++ 0#11
  | .plTerm d a b => 24#6 ++ d ++ a ++ b ++ 1#11
  | .plRun d a => 24#6 ++ d ++ a ++ 2#16
  | .plProbe d a => 24#6 ++ d ++ a ++ 3#16
  | .plStat d a b => 24#6 ++ d ++ a ++ b ++ 4#11
  | .tkInit d a b => 25#6 ++ d ++ a ++ b ++ 0#11
  | .tkIns d a b => 25#6 ++ d ++ a ++ b ++ 1#11
  | .tkFuse d a b => 25#6 ++ d ++ a ++ b ++ 2#11
  | .tkDrain d a b => 25#6 ++ d ++ a ++ b ++ 3#11
  | .tkThr d a b => 25#6 ++ d ++ a ++ b ++ 4#11
  | .pyLd d a b => 26#6 ++ d ++ a ++ b ++ 0#11
  | .pyLdv d a b => 26#6 ++ d ++ a ++ b ++ 1#11
  | .pyApp d a b => 26#6 ++ d ++ a ++ b ++ 2#11
  | .pyDef d a => 26#6 ++ d ++ a ++ 3#16
  | .pyComb d a b => 26#6 ++ d ++ a ++ b ++ 4#11
  | .pyStat d a b => 26#6 ++ d ++ a ++ b ++ 5#11
  | .pyResume d a => 26#6 ++ d ++ a ++ 6#16
  | .vsetl d a => 32#6 ++ d ++ a ++ 0#16
  | .vsett d a b => 32#6 ++ d ++ a ++ b ++ 2#11
  | .vaddVv d a b k t c => 33#6 ++ d ++ a ++ b ++ k ++ bit1 t ++ 0#6 ++ bit1 c
  | .vsubVv d a b k t c => 33#6 ++ d ++ a ++ b ++ k ++ bit1 t ++ 1#6 ++ bit1 c
  | .vrsubVv d a b k t c => 33#6 ++ d ++ a ++ b ++ k ++ bit1 t ++ 2#6 ++ bit1 c
  | .vmulVv d a b k t c => 33#6 ++ d ++ a ++ b ++ k ++ bit1 t ++ 3#6 ++ bit1 c
  | .vmulhVv d a b k t c => 33#6 ++ d ++ a ++ b ++ k ++ bit1 t ++ 4#6 ++ bit1 c
  | .vmaccVv d a b k t c => 33#6 ++ d ++ a ++ b ++ k ++ bit1 t ++ 5#6 ++ bit1 c
  | .vminVv d a b k t c => 33#6 ++ d ++ a ++ b ++ k ++ bit1 t ++ 6#6 ++ bit1 c
  | .vmaxVv d a b k t c => 33#6 ++ d ++ a ++ b ++ k ++ bit1 t ++ 7#6 ++ bit1 c
  | .vandVv d a b k t c => 33#6 ++ d ++ a ++ b ++ k ++ bit1 t ++ 8#6 ++ bit1 c
  | .vorVv d a b k t c => 33#6 ++ d ++ a ++ b ++ k ++ bit1 t ++ 9#6 ++ bit1 c
  | .vxorVv d a b k t c => 33#6 ++ d ++ a ++ b ++ k ++ bit1 t ++ 10#6 ++ bit1 c
  | .vsllVv d a b k t c => 33#6 ++ d ++ a ++ b ++ k ++ bit1 t ++ 11#6 ++ bit1 c
  | .vsrlVv d a b k t c => 33#6 ++ d ++ a ++ b ++ k ++ bit1 t ++ 12#6 ++ bit1 c
  | .vsraVv d a b k t c => 33#6 ++ d ++ a ++ b ++ k ++ bit1 t ++ 13#6 ++ bit1 c
  | .vadcVv d a b k c => 33#6 ++ d ++ a ++ b ++ k ++ 14#7 ++ bit1 c
  | .vsbcVv d a b k c => 33#6 ++ d ++ a ++ b ++ k ++ 15#7 ++ bit1 c
  | .vsaddVv d a b k t c => 33#6 ++ d ++ a ++ b ++ k ++ bit1 t ++ 16#6 ++ bit1 c
  | .vssubVv d a b k t c => 33#6 ++ d ++ a ++ b ++ k ++ bit1 t ++ 17#6 ++ bit1 c
  | .vaddVx d a b k t c => 34#6 ++ d ++ a ++ b ++ k ++ bit1 t ++ 0#6 ++ bit1 c
  | .vsubVx d a b k t c => 34#6 ++ d ++ a ++ b ++ k ++ bit1 t ++ 1#6 ++ bit1 c
  | .vrsubVx d a b k t c => 34#6 ++ d ++ a ++ b ++ k ++ bit1 t ++ 2#6 ++ bit1 c
  | .vmulVx d a b k t c => 34#6 ++ d ++ a ++ b ++ k ++ bit1 t ++ 3#6 ++ bit1 c
  | .vmulhVx d a b k t c => 34#6 ++ d ++ a ++ b ++ k ++ bit1 t ++ 4#6 ++ bit1 c
  | .vmaccVx d a b k t c => 34#6 ++ d ++ a ++ b ++ k ++ bit1 t ++ 5#6 ++ bit1 c
  | .vminVx d a b k t c => 34#6 ++ d ++ a ++ b ++ k ++ bit1 t ++ 6#6 ++ bit1 c
  | .vmaxVx d a b k t c => 34#6 ++ d ++ a ++ b ++ k ++ bit1 t ++ 7#6 ++ bit1 c
  | .vandVx d a b k t c => 34#6 ++ d ++ a ++ b ++ k ++ bit1 t ++ 8#6 ++ bit1 c
  | .vorVx d a b k t c => 34#6 ++ d ++ a ++ b ++ k ++ bit1 t ++ 9#6 ++ bit1 c
  | .vxorVx d a b k t c => 34#6 ++ d ++ a ++ b ++ k ++ bit1 t ++ 10#6 ++ bit1 c
  | .vsllVx d a b k t c => 34#6 ++ d ++ a ++ b ++ k ++ bit1 t ++ 11#6 ++ bit1 c
  | .vsrlVx d a b k t c => 34#6 ++ d ++ a ++ b ++ k ++ bit1 t ++ 12#6 ++ bit1 c
  | .vsraVx d a b k t c => 34#6 ++ d ++ a ++ b ++ k ++ bit1 t ++ 13#6 ++ bit1 c
  | .vadcVx d a b k c => 34#6 ++ d ++ a ++ b ++ k ++ 14#7 ++ bit1 c
  | .vsbcVx d a b k c => 34#6 ++ d ++ a ++ b ++ k ++ 15#7 ++ bit1 c
  | .vsaddVx d a b k t c => 34#6 ++ d ++ a ++ b ++ k ++ bit1 t ++ 16#6 ++ bit1 c
  | .vssubVx d a b k t c => 34#6 ++ d ++ a ++ b ++ k ++ bit1 t ++ 17#6 ++ bit1 c
  | .vaddVi d a i k t c => 35#6 ++ d ++ a ++ i ++ k ++ bit1 t ++ 0#6 ++ bit1 c
  | .vsubVi d a i k t c => 35#6 ++ d ++ a ++ i ++ k ++ bit1 t ++ 1#6 ++ bit1 c
  | .vrsubVi d a i k t c => 35#6 ++ d ++ a ++ i ++ k ++ bit1 t ++ 2#6 ++ bit1 c
  | .vmulVi d a i k t c => 35#6 ++ d ++ a ++ i ++ k ++ bit1 t ++ 3#6 ++ bit1 c
  | .vmulhVi d a i k t c => 35#6 ++ d ++ a ++ i ++ k ++ bit1 t ++ 4#6 ++ bit1 c
  | .vmaccVi d a i k t c => 35#6 ++ d ++ a ++ i ++ k ++ bit1 t ++ 5#6 ++ bit1 c
  | .vminVi d a i k t c => 35#6 ++ d ++ a ++ i ++ k ++ bit1 t ++ 6#6 ++ bit1 c
  | .vmaxVi d a i k t c => 35#6 ++ d ++ a ++ i ++ k ++ bit1 t ++ 7#6 ++ bit1 c
  | .vandVi d a i k t c => 35#6 ++ d ++ a ++ i ++ k ++ bit1 t ++ 8#6 ++ bit1 c
  | .vorVi d a i k t c => 35#6 ++ d ++ a ++ i ++ k ++ bit1 t ++ 9#6 ++ bit1 c
  | .vxorVi d a i k t c => 35#6 ++ d ++ a ++ i ++ k ++ bit1 t ++ 10#6 ++ bit1 c
  | .vsllVi d a i k t c => 35#6 ++ d ++ a ++ i ++ k ++ bit1 t ++ 11#6 ++ bit1 c
  | .vsrlVi d a i k t c => 35#6 ++ d ++ a ++ i ++ k ++ bit1 t ++ 12#6 ++ bit1 c
  | .vsraVi d a i k t c => 35#6 ++ d ++ a ++ i ++ k ++ bit1 t ++ 13#6 ++ bit1 c
  | .vadcVi d a i k c => 35#6 ++ d ++ a ++ i ++ k ++ 14#7 ++ bit1 c
  | .vsbcVi d a i k c => 35#6 ++ d ++ a ++ i ++ k ++ 15#7 ++ bit1 c
  | .vsaddVi d a i k t c => 35#6 ++ d ++ a ++ i ++ k ++ bit1 t ++ 16#6 ++ bit1 c
  | .vssubVi d a i k t c => 35#6 ++ d ++ a ++ i ++ k ++ bit1 t ++ 17#6 ++ bit1 c
  | .vfaddVv d a b k t c => 36#6 ++ d ++ a ++ b ++ k ++ bit1 t ++ 0#6 ++ bit1 c
  | .vfsubVv d a b k t c => 36#6 ++ d ++ a ++ b ++ k ++ bit1 t ++ 1#6 ++ bit1 c
  | .vfmulVv d a b k t c => 36#6 ++ d ++ a ++ b ++ k ++ bit1 t ++ 2#6 ++ bit1 c
  | .vfmaVv d a b k t c => 36#6 ++ d ++ a ++ b ++ k ++ bit1 t ++ 3#6 ++ bit1 c
  | .vfmsVv d a b k t c => 36#6 ++ d ++ a ++ b ++ k ++ bit1 t ++ 4#6 ++ bit1 c
  | .vfdivVv d a b k t c => 36#6 ++ d ++ a ++ b ++ k ++ bit1 t ++ 5#6 ++ bit1 c
  | .vfsqrt d a k t c => 36#6 ++ d ++ a ++ 0#5 ++ k ++ bit1 t ++ 6#6 ++ bit1 c
  | .vfminVv d a b k t c => 36#6 ++ d ++ a ++ b ++ k ++ bit1 t ++ 7#6 ++ bit1 c
  | .vfmaxVv d a b k t c => 36#6 ++ d ++ a ++ b ++ k ++ bit1 t ++ 8#6 ++ bit1 c
  | .vfclass d a k t c => 36#6 ++ d ++ a ++ 0#5 ++ k ++ bit1 t ++ 9#6 ++ bit1 c
  | .vfrcpe d a k t c => 36#6 ++ d ++ a ++ 0#5 ++ k ++ bit1 t ++ 10#6 ++ bit1 c
  | .vfaddVx d a b k t c => 37#6 ++ d ++ a ++ b ++ k ++ bit1 t ++ 0#6 ++ bit1 c
  | .vfsubVx d a b k t c => 37#6 ++ d ++ a ++ b ++ k ++ bit1 t ++ 1#6 ++ bit1 c
  | .vfmulVx d a b k t c => 37#6 ++ d ++ a ++ b ++ k ++ bit1 t ++ 2#6 ++ bit1 c
  | .vfmaVx d a b k t c => 37#6 ++ d ++ a ++ b ++ k ++ bit1 t ++ 3#6 ++ bit1 c
  | .vfmsVx d a b k t c => 37#6 ++ d ++ a ++ b ++ k ++ bit1 t ++ 4#6 ++ bit1 c
  | .vfdivVx d a b k t c => 37#6 ++ d ++ a ++ b ++ k ++ bit1 t ++ 5#6 ++ bit1 c
  | .vfminVx d a b k t c => 37#6 ++ d ++ a ++ b ++ k ++ bit1 t ++ 7#6 ++ bit1 c
  | .vfmaxVx d a b k t c => 37#6 ++ d ++ a ++ b ++ k ++ bit1 t ++ 8#6 ++ bit1 c
  | .vcmpEqVv d a b k t c => 38#6 ++ d ++ a ++ b ++ k ++ bit1 t ++ 0#6 ++ bit1 c
  | .vcmpNeVv d a b k t c => 38#6 ++ d ++ a ++ b ++ k ++ bit1 t ++ 1#6 ++ bit1 c
  | .vcmpLtVv d a b k t c => 38#6 ++ d ++ a ++ b ++ k ++ bit1 t ++ 2#6 ++ bit1 c
  | .vcmpLeVv d a b k t c => 38#6 ++ d ++ a ++ b ++ k ++ bit1 t ++ 3#6 ++ bit1 c
  | .vcmpGtVv d a b k t c => 38#6 ++ d ++ a ++ b ++ k ++ bit1 t ++ 4#6 ++ bit1 c
  | .vcmpGeVv d a b k t c => 38#6 ++ d ++ a ++ b ++ k ++ bit1 t ++ 5#6 ++ bit1 c
  | .vfcmpEqVv d a b k t c => 38#6 ++ d ++ a ++ b ++ k ++ bit1 t ++ 8#6 ++ bit1 c
  | .vfcmpNeVv d a b k t c => 38#6 ++ d ++ a ++ b ++ k ++ bit1 t ++ 9#6 ++ bit1 c
  | .vfcmpLtVv d a b k t c => 38#6 ++ d ++ a ++ b ++ k ++ bit1 t ++ 10#6 ++ bit1 c
  | .vfcmpLeVv d a b k t c => 38#6 ++ d ++ a ++ b ++ k ++ bit1 t ++ 11#6 ++ bit1 c
  | .vcmpEqVx d a b k t c => 38#6 ++ d ++ a ++ b ++ k ++ bit1 t ++ 32#6 ++ bit1 c
  | .vcmpNeVx d a b k t c => 38#6 ++ d ++ a ++ b ++ k ++ bit1 t ++ 33#6 ++ bit1 c
  | .vcmpLtVx d a b k t c => 38#6 ++ d ++ a ++ b ++ k ++ bit1 t ++ 34#6 ++ bit1 c
  | .vcmpLeVx d a b k t c => 38#6 ++ d ++ a ++ b ++ k ++ bit1 t ++ 35#6 ++ bit1 c
  | .vcmpGtVx d a b k t c => 38#6 ++ d ++ a ++ b ++ k ++ bit1 t ++ 36#6 ++ bit1 c
  | .vcmpGeVx d a b k t c => 38#6 ++ d ++ a ++ b ++ k ++ bit1 t ++ 37#6 ++ bit1 c
  | .vfcmpEqVx d a b k t c => 38#6 ++ d ++ a ++ b ++ k ++ bit1 t ++ 40#6 ++ bit1 c
  | .vfcmpNeVx d a b k t c => 38#6 ++ d ++ a ++ b ++ k ++ bit1 t ++ 41#6 ++ bit1 c
  | .vfcmpLtVx d a b k t c => 38#6 ++ d ++ a ++ b ++ k ++ bit1 t ++ 42#6 ++ bit1 c
  | .vfcmpLeVx d a b k t c => 38#6 ++ d ++ a ++ b ++ k ++ bit1 t ++ 43#6 ++ bit1 c
  | .kand d a b => 39#6 ++ d ++ a ++ b ++ 0#11
  | .kor d a b => 39#6 ++ d ++ a ++ b ++ 2#11
  | .kxor d a b => 39#6 ++ d ++ a ++ b ++ 4#11
  | .knot d a => 39#6 ++ d ++ a ++ 6#16
  | .kshl1 d a => 39#6 ++ d ++ a ++ 8#16
  | .kshr1 d a => 39#6 ++ d ++ a ++ 10#16
  | .kpopc d a => 39#6 ++ d ++ a ++ 12#16
  | .kfirst d a => 39#6 ++ d ++ a ++ 14#16
  | .kmv d a => 39#6 ++ d ++ a ++ 16#16
  | .vmerge d a b k t c => 40#6 ++ d ++ a ++ b ++ k ++ bit1 t ++ 0#6 ++ bit1 c
  | .vbcast d b k t c => 40#6 ++ d ++ 0#5 ++ b ++ k ++ bit1 t ++ 1#6 ++ bit1 c
  | .vslideup d a b k t c => 40#6 ++ d ++ a ++ b ++ k ++ bit1 t ++ 2#6 ++ bit1 c
  | .vslidedn d a b k t c => 40#6 ++ d ++ a ++ b ++ k ++ bit1 t ++ 3#6 ++ bit1 c
  | .vrgather d a b k t c => 40#6 ++ d ++ a ++ b ++ k ++ bit1 t ++ 4#6 ++ bit1 c
  | .vcompress d a k t c => 40#6 ++ d ++ a ++ 0#5 ++ k ++ bit1 t ++ 5#6 ++ bit1 c
  | .vexpand d a k t c => 40#6 ++ d ++ a ++ 0#5 ++ k ++ bit1 t ++ 6#6 ++ bit1 c
  | .vpermblk d a b t c => 40#6 ++ d ++ a ++ b ++ 0#3 ++ bit1 t ++ 7#6 ++ bit1 c
  | .vredSum d a b k t c => 41#6 ++ d ++ a ++ b ++ k ++ bit1 t ++ 0#6 ++ bit1 c
  | .vredOsum d a b k t c => 41#6 ++ d ++ a ++ b ++ k ++ bit1 t ++ 1#6 ++ bit1 c
  | .vredMax d a b k t c => 41#6 ++ d ++ a ++ b ++ k ++ bit1 t ++ 2#6 ++ bit1 c
  | .vredMin d a b k t c => 41#6 ++ d ++ a ++ b ++ k ++ bit1 t ++ 3#6 ++ bit1 c
  | .vredAnd d a b k t c => 41#6 ++ d ++ a ++ b ++ k ++ bit1 t ++ 4#6 ++ bit1 c
  | .vredOr d a b k t c => 41#6 ++ d ++ a ++ b ++ k ++ bit1 t ++ 5#6 ++ bit1 c
  | .vstrip d a b k => 41#6 ++ d ++ a ++ b ++ k ++ 12#8
  | .vcvt d a b k t s c => 42#6 ++ d ++ a ++ b ++ k ++ bit1 t ++ 0#5 ++ bit1 s ++ bit1 c
  | .vwiden d a b k t c => 42#6 ++ d ++ a ++ b ++ k ++ bit1 t ++ 16#6 ++ bit1 c
  | .vnarrow d a b k t s c => 42#6 ++ d ++ a ++ b ++ k ++ bit1 t ++ 16#5 ++ bit1 s ++ bit1 c
  | .vld d a k t c => 43#6 ++ d ++ a ++ 0#5 ++ k ++ bit1 t ++ 0#6 ++ bit1 c
  | .vlds d a b k t c => 43#6 ++ d ++ a ++ b ++ k ++ bit1 t ++ 1#6 ++ bit1 c
  | .vldz d a b q c => 43#6 ++ d ++ a ++ b ++ 0#1 ++ q ++ 2#7 ++ bit1 c
  | .vldb d a b t c => 43#6 ++ d ++ a ++ b ++ 0#3 ++ bit1 t ++ 3#6 ++ bit1 c
  | .vst d a k t c => 44#6 ++ d ++ a ++ 0#5 ++ k ++ bit1 t ++ 0#6 ++ bit1 c
  | .vsts d a b k t c => 44#6 ++ d ++ a ++ b ++ k ++ bit1 t ++ 1#6 ++ bit1 c
  | .vstb d a b t c => 44#6 ++ d ++ a ++ b ++ 0#3 ++ bit1 t ++ 3#6 ++ bit1 c
  | .vldx d a b k t w c => 45#6 ++ d ++ a ++ b ++ k ++ bit1 t ++ w ++ 0#4 ++ bit1 c
  | .vldc d a b k t w c => 45#6 ++ d ++ a ++ b ++ k ++ bit1 t ++ w ++ 1#4 ++ bit1 c
  | .vstxO d a b k t w c => 45#6 ++ d ++ a ++ b ++ k ++ bit1 t ++ w ++ 2#4 ++ bit1 c
  | .vstxU d a b k t w c => 45#6 ++ d ++ a ++ b ++ k ++ bit1 t ++ w ++ 3#4 ++ bit1 c
  | .vstc d a b k t w c => 45#6 ++ d ++ a ++ b ++ k ++ bit1 t ++ w ++ 4#4 ++ bit1 c
  | .vgll d a b k t => 46#6 ++ d ++ a ++ b ++ k ++ bit1 t ++ 0#7
  | .vscc d a b k t => 46#6 ++ d ++ a ++ b ++ k ++ bit1 t ++ 2#7
  | .vlock d a b k => 46#6 ++ d ++ a ++ b ++ k ++ 4#8
  | .vunlock a b k => 46#6 ++ 0#5 ++ a ++ b ++ k ++ 6#8
  | .winDecl a b => 46#6 ++ 0#5 ++ a ++ b ++ 8#11
  | .vscaddWin d b k => 46#6 ++ d ++ 0#5 ++ b ++ k ++ 10#8
  | .winMerge s => 46#6 ++ 0#15 ++ s.code ++ 12#8
  | .vscadd d a b k t s => 46#6 ++ d ++ a ++ b ++ k ++ bit1 t ++ s ++ 14#5
  | .crDecl o r a b => 46#6 ++ o ++ r ++ a ++ b ++ 528#11
  | .crDrop r => 46#6 ++ 0#2 ++ r ++ 18#21
  | .vmv d a k c => 47#6 ++ d ++ a ++ 0#5 ++ k ++ 0#7 ++ bit1 c
  | .vmvS d b c => 47#6 ++ d ++ 0#5 ++ b ++ 1#10 ++ bit1 c
  | .vext d a b c => 47#6 ++ d ++ a ++ b ++ 2#10 ++ bit1 c
  | .qput d a => 47#6 ++ d ++ a ++ 6#16
  | .qget d a => 47#6 ++ d ++ a ++ 8#16
  | .mattach r => 48#6 ++ 0#18 ++ r ++ 0#3
  | .mdetach => 48#6 ++ 256#26
  | .oClaim f n => 48#6 ++ 0#2 ++ f ++ n ++ 512#12
  | .oRelease f n => 48#6 ++ 0#2 ++ f ++ n ++ 768#12
  | .mzero t => 48#6 ++ t ++ 1024#24
  | .mfmt t a b x y => 48#6 ++ t ++ 0#1 ++ a ++ 0#1 ++ b ++ 10#5 ++ x ++ y ++ 0#1
  | .mskip t r => 48#6 ++ t ++ 6#16 ++ r ++ 0#3
  | .mop t a b k z c => 49#6 ++ t ++ a ++ b ++ 0#9 ++ bit1 k ++ bit1 z ++ bit1 c
  | .msliceRd t r v c => 50#6 ++ t ++ 0#1 ++ r ++ 0#8 ++ v ++ 0#4 ++ bit1 c
  | .msliceWr t r v c => 50#6 ++ t ++ 0#1 ++ r ++ 1#8 ++ v ++ 0#4 ++ bit1 c
  | .msliceRdExp t r v c => 50#6 ++ t ++ 0#1 ++ r ++ 2#8 ++ v ++ 0#4 ++ bit1 c
  | .mld s r b => 51#6 ++ 0#2 ++ s ++ 0#1 ++ r ++ 0#2 ++ b ++ 0#5
  | .mldP s r b => 51#6 ++ 0#2 ++ s ++ 0#1 ++ r ++ 0#2 ++ b ++ 2#5
  | .mst t r b => 51#6 ++ t ++ 0#7 ++ r ++ 1#2 ++ b ++ 0#5
  | .mopStepEnd .. => 0#32
  | .issueArbitration .. => 0#32
  | .yieldExpiry .. => 0#32
  | .wfeWake .. => 0#32
  | .wfeTimeout .. => 0#32
  | .vacquireGrant .. => 0#32
  | .quadReservationTimeout .. => 0#32
  | .ssbDrain .. => 0#32
  | .psfDrain .. => 0#32
  | .cpfDrain .. => 0#32
  | .ownerLostTrap .. => 0#32
  | .l1Eviction .. => 0#32
  | .sliceEviction .. => 0#32
  | .controllerWriteIssue .. => 0#32
  | .linkDelivery .. => 0#32
  | .rd .. => 0#32
  | .rdv .. => 0#32
  | .reg .. => 0#32
  | .wrv .. => 0#32
  | .atom .. => 0#32
  | .ereg .. => 0#32
  | .ewr .. => 0#32
  | .gnt .. => 0#32
  | .xfer .. => 0#32
  | .fwd .. => 0#32
  | .nakl .. => 0#32
  | .collect .. => 0#32
  | .claim .. => 0#32
  | .wb .. => 0#32
  | .xack .. => 0#32
  | .fack .. => 0#32
  | .part .. => 0#32
  | .claimr .. => 0#32
  | .combineBufferEviction .. => 0#32
  | .copyEnd .. => 0#32
  | .globalPauseEnd => 0#32
  | .riddleOffer .. => 0#32
  | .riddleRunEnd .. => 0#32
  | .probeEnd .. => 0#32
  | .annealOperationStart .. => 0#32
  | .mergePublication .. => 0#32
  | .horizonDiscard .. => 0#32
  | .mergeAbandon .. => 0#32
  | .crucibleSlotTick .. => 0#32
  | .skipCurAdjust .. => 0#32
  | .startCounterReread .. => 0#32
  | .startCounterPollTimeout .. => 0#32
  | .taskPlacement .. => 0#32
  | .hartStart .. => 0#32
  | .hartStop .. => 0#32
  | .coreSaveBegin .. => 0#32
  | .coreSaveComplete .. => 0#32
  | .restoreComplete .. => 0#32
  | .taskEnd .. => 0#32
  | .pageFaultResolved .. => 0#32
  | .submit .. => 0#32
  | .faultpop .. => 0#32
  | .resolve .. => 0#32
  | .postpop => 0#32
  | .answer .. => 0#32
  | .errpop => 0#32
  | .verdict .. => 0#32
  | .eventpop => 0#32
  | .registerWrite .. => 0#32
  | .hostWrite .. => 0#32
  | .hostRead .. => 0#32
  | .saveAreaAccess .. => 0#32
  | .partdef .. => 0#32
  | .ptroot .. => 0#32
  | .vmap .. => 0#32
  | .shoot .. => 0#32
  | .slottab .. => 0#32
  | .mode .. => 0#32
  | .savearea .. => 0#32
  | .saveopen .. => 0#32
  | .guardtab .. => 0#32
  | .kex .. => 0#32
  | .key .. => 0#32
  | .winbind .. => 0#32
  | .task .. => 0#32
  | .clearlost .. => 0#32
  | .race .. => 0#32
  | .peer .. => 0#32
  | .errorDetected .. => 0#32
  | .selfTestComplete .. => 0#32
  | .flitReplay .. => 0#32
  | .remoteAccessTimeout .. => 0#32
  | .reset .. => 0#32
  | .bootWatchdogExpiry .. => 0#32
  | .illegalWord .. => 0#32
  | .fetchFault => 0#32
  | .engineWrite .. => 0#32
  | .remoteRequest .. => 0#32
  | .linkDown .. => 0#32
  | .linkRetrainComplete .. => 0#32
  | .malformedCommand .. => 0#32

/-- Major 0x01 (Sys): the instruction its function code selects (R65 to R76). -/
def decSys (w : IWord) : Option Instr :=
  match (fld w 7 4).toNat with
  | 0 => some (.trap (fld w 0 7))
  | 1 => some .eret
  | 2 => some .brk
  | 3 => some .halt
  | 4 => some (.wfe (fld w 21 5) (fld w 16 5) (fld w 11 5))
  | 5 => some (.sysget (fld w 21 5) (fld w 11 5) (fld w 0 7))
  | 6 => some (.sysput (fld w 16 5) (fld w 11 5) (fld w 0 7))
  | 7 => (Scope.ofCode (fld w 4 3)).map fun c => .fenceAcq c (isOne (fld w 3 1))
  | 8 => (Scope.ofCode (fld w 4 3)).map fun c => .fenceRel c (isOne (fld w 2 1))
  | 9 => some .fenceSv
  | 10 => (Scope.ofCode (fld w 4 3)).map fun c => .fenceFull c (isOne (fld w 3 1)) (isOne (fld w 2 1))
  | 11 => some .lsync
  | 12 => some (.invR (fld w 16 5) (fld w 11 5))
  | 13 => some .invRo
  | _ => none

/-- Major 0x02 (Br): the instruction its function code selects (R65 to R76). -/
noncomputable def decBr (w : IWord) : Option Instr :=
  match (fld w 13 3).toNat with
  | 0 => some (.bEq (fld w 21 5) (fld w 16 5) (fld w 0 13))
  | 1 => some (.bNe (fld w 21 5) (fld w 16 5) (fld w 0 13))
  | 2 => some (.bLt (fld w 21 5) (fld w 16 5) (fld w 0 13))
  | 3 => some (.bGe (fld w 21 5) (fld w 16 5) (fld w 0 13))
  | 4 => some (.bLtn (fld w 21 5) (fld w 16 5) (fld w 0 13))
  | 5 => some (.bGen (fld w 21 5) (fld w 16 5) (fld w 0 13))
  | 6 => some (.bBs (fld w 21 5) (fld w 16 5) (fld w 0 13))
  | 7 => some (.bBc (fld w 21 5) (fld w 16 5) (fld w 0 13))
  | _ => none

/-- Major 0x06 (Alu): the instruction its function code selects (R65 to R76). -/
noncomputable def decAlu (w : IWord) : Option Instr :=
  match (fld w 0 11).toNat with
  | 0 => some (.add (fld w 21 5) (fld w 16 5) (fld w 11 5))
  | 1 => some (.sub (fld w 21 5) (fld w 16 5) (fld w 11 5))
  | 2 => some (.and (fld w 21 5) (fld w 16 5) (fld w 11 5))
  | 3 => some (.or (fld w 21 5) (fld w 16 5) (fld w 11 5))
  | 4 => some (.xor (fld w 21 5) (fld w 16 5) (fld w 11 5))
  | 5 => some (.sll (fld w 21 5) (fld w 16 5) (fld w 11 5))
  | 6 => some (.srl (fld w 21 5) (fld w 16 5) (fld w 11 5))
  | 7 => some (.sra (fld w 21 5) (fld w 16 5) (fld w 11 5))
  | 8 => some (.slt (fld w 21 5) (fld w 16 5) (fld w 11 5))
  | 9 => some (.sltn (fld w 21 5) (fld w 16 5) (fld w 11 5))
  | 10 => some (.min (fld w 21 5) (fld w 16 5) (fld w 11 5))
  | 11 => some (.max (fld w 21 5) (fld w 16 5) (fld w 11 5))
  | 12 => some (.minn (fld w 21 5) (fld w 16 5) (fld w 11 5))
  | 13 => some (.maxn (fld w 21 5) (fld w 16 5) (fld w 11 5))
  | 14 => some (.clz (fld w 21 5) (fld w 16 5))
  | 15 => some (.ctz (fld w 21 5) (fld w 16 5))
  | 16 => some (.popc (fld w 21 5) (fld w 16 5))
  | _ => none

/-- Major 0x0B (Shift): the instruction its function code selects (R65 to R76). -/
noncomputable def decShift (w : IWord) : Option Instr :=
  match (fld w 6 2).toNat with
  | 0 => some (.slli (fld w 21 5) (fld w 16 5) (fld w 0 6))
  | 1 => some (.srli (fld w 21 5) (fld w 16 5) (fld w 0 6))
  | 2 => some (.srai (fld w 21 5) (fld w 16 5) (fld w 0 6))
  | _ => none

/-- Major 0x0F (MulDiv): the instruction its function code selects (R65 to R76). -/
def decMulDiv (w : IWord) : Option Instr :=
  match (fld w 0 11).toNat with
  | 0 => some (.mul (fld w 21 5) (fld w 16 5) (fld w 11 5))
  | 1 => some (.mulh (fld w 21 5) (fld w 16 5) (fld w 11 5))
  | 2 => some (.mulhn (fld w 21 5) (fld w 16 5) (fld w 11 5))
  | 3 => some (.div (fld w 21 5) (fld w 16 5) (fld w 11 5))
  | 4 => some (.divn (fld w 21 5) (fld w 16 5) (fld w 11 5))
  | 5 => some (.rem (fld w 21 5) (fld w 16 5) (fld w 11 5))
  | 6 => some (.remn (fld w 21 5) (fld w 16 5) (fld w 11 5))
  | _ => none

/-- Major 0x10 (Ld): the instruction its function code selects (R65 to R76). -/
noncomputable def decLd (w : IWord) : Option Instr :=
  match (fld w 13 3).toNat with
  | 0 => some (.ldS8 (fld w 21 5) (fld w 16 5) (fld w 0 13))
  | 1 => some (.ldN8 (fld w 21 5) (fld w 16 5) (fld w 0 13))
  | 2 => some (.ldS16 (fld w 21 5) (fld w 16 5) (fld w 0 13))
  | 3 => some (.ldN16 (fld w 21 5) (fld w 16 5) (fld w 0 13))
  | 4 => some (.ldS32 (fld w 21 5) (fld w 16 5) (fld w 0 13))
  | 5 => some (.ldN32 (fld w 21 5) (fld w 16 5) (fld w 0 13))
  | 6 => some (.ld64 (fld w 21 5) (fld w 16 5) (fld w 0 13))
  | _ => none

/-- Major 0x11 (St): the instruction its function code selects (R65 to R76). -/
noncomputable def decSt (w : IWord) : Option Instr :=
  match (fld w 13 3).toNat with
  | 0 => some (.st8 (fld w 21 5) (fld w 16 5) (fld w 0 13))
  | 2 => some (.st16 (fld w 21 5) (fld w 16 5) (fld w 0 13))
  | 4 => some (.st32 (fld w 21 5) (fld w 16 5) (fld w 0 13))
  | 6 => some (.st64 (fld w 21 5) (fld w 16 5) (fld w 0 13))
  | _ => none

/-- Major 0x12 (Amo): the instruction its function code selects (R65 to R76). -/
noncomputable def decAmo (w : IWord) : Option Instr :=
  match (fld w 7 4).toNat with
  | 0 => (Scope.ofCode (fld w 2 3)).map fun c => .amoAdd (fld w 21 5) (fld w 16 5) (fld w 11 5) (isOne (fld w 6 1)) c (isOne (fld w 1 1)) (isOne (fld w 0 1))
  | 2 => (Scope.ofCode (fld w 2 3)).map fun c => .amoAnd (fld w 21 5) (fld w 16 5) (fld w 11 5) (isOne (fld w 6 1)) c (isOne (fld w 1 1)) (isOne (fld w 0 1))
  | 4 => (Scope.ofCode (fld w 2 3)).map fun c => .amoOr (fld w 21 5) (fld w 16 5) (fld w 11 5) (isOne (fld w 6 1)) c (isOne (fld w 1 1)) (isOne (fld w 0 1))
  | 6 => (Scope.ofCode (fld w 2 3)).map fun c => .amoXor (fld w 21 5) (fld w 16 5) (fld w 11 5) (isOne (fld w 6 1)) c (isOne (fld w 1 1)) (isOne (fld w 0 1))
  | 8 => (Scope.ofCode (fld w 2 3)).map fun c => .amoMin (fld w 21 5) (fld w 16 5) (fld w 11 5) (isOne (fld w 6 1)) c (isOne (fld w 1 1)) (isOne (fld w 0 1))
  | 9 => (Scope.ofCode (fld w 2 3)).map fun c => .amoMinn (fld w 21 5) (fld w 16 5) (fld w 11 5) (isOne (fld w 6 1)) c (isOne (fld w 1 1)) (isOne (fld w 0 1))
  | 10 => (Scope.ofCode (fld w 2 3)).map fun c => .amoMax (fld w 21 5) (fld w 16 5) (fld w 11 5) (isOne (fld w 6 1)) c (isOne (fld w 1 1)) (isOne (fld w 0 1))
  | 11 => (Scope.ofCode (fld w 2 3)).map fun c => .amoMaxn (fld w 21 5) (fld w 16 5) (fld w 11 5) (isOne (fld w 6 1)) c (isOne (fld w 1 1)) (isOne (fld w 0 1))
  | 12 => (Scope.ofCode (fld w 2 3)).map fun c => .amoSwap (fld w 21 5) (fld w 16 5) (fld w 11 5) (isOne (fld w 6 1)) c (isOne (fld w 1 1)) (isOne (fld w 0 1))
  | 14 => (Scope.ofCode (fld w 2 3)).map fun c => .cas (fld w 21 5) (fld w 16 5) (fld w 11 5) (isOne (fld w 6 1)) c (isOne (fld w 1 1)) (isOne (fld w 0 1))
  | _ => none

/-- Major 0x13 (Fpu): the instruction its function code selects (R65 to R76). -/
def decFpu (w : IWord) : Option Instr :=
  match (fld w 7 4).toNat with
  | 0 => (Rm.ofCode (fld w 3 3)).map fun c => .fadd (fld w 21 5) (fld w 16 5) (fld w 11 5) (isOne (fld w 6 1)) c
  | 1 => (Rm.ofCode (fld w 3 3)).map fun c => .fsub (fld w 21 5) (fld w 16 5) (fld w 11 5) (isOne (fld w 6 1)) c
  | 2 => (Rm.ofCode (fld w 3 3)).map fun c => .fmul (fld w 21 5) (fld w 16 5) (fld w 11 5) (isOne (fld w 6 1)) c
  | 3 => (Rm.ofCode (fld w 3 3)).map fun c => .fma (fld w 21 5) (fld w 16 5) (fld w 11 5) (isOne (fld w 6 1)) c
  | 4 => (Rm.ofCode (fld w 3 3)).map fun c => .fdiv (fld w 21 5) (fld w 16 5) (fld w 11 5) (isOne (fld w 6 1)) c
  | 5 => (Rm.ofCode (fld w 3 3)).map fun c => .fsqrt (fld w 21 5) (fld w 16 5) (isOne (fld w 6 1)) c
  | 6 => some (.fmin (fld w 21 5) (fld w 16 5) (fld w 11 5) (isOne (fld w 6 1)))
  | 7 => some (.fmax (fld w 21 5) (fld w 16 5) (fld w 11 5) (isOne (fld w 6 1)))
  | 8 => (match (fld w 0 3).toNat with
      | 0 => some (.fcmpEq (fld w 21 5) (fld w 16 5) (fld w 11 5) (isOne (fld w 6 1)))
      | 1 => some (.fcmpLt (fld w 21 5) (fld w 16 5) (fld w 11 5) (isOne (fld w 6 1)))
      | 2 => some (.fcmpLe (fld w 21 5) (fld w 16 5) (fld w 11 5) (isOne (fld w 6 1)))
      | 3 => some (.fcmpUn (fld w 21 5) (fld w 16 5) (fld w 11 5) (isOne (fld w 6 1)))
      | _ => none)
  | 9 => (match (fld w 0 3).toNat with
      | 0 => (Rm.ofCode (fld w 3 3)).map fun c => .fcvtTos64 (fld w 21 5) (fld w 16 5) (isOne (fld w 6 1)) c
      | 1 => (Rm.ofCode (fld w 3 3)).map fun c => .fcvtTon64 (fld w 21 5) (fld w 16 5) (isOne (fld w 6 1)) c
      | 2 => (Rm.ofCode (fld w 3 3)).map fun c => .fcvtFroms64 (fld w 21 5) (fld w 16 5) (isOne (fld w 6 1)) c
      | 3 => (Rm.ofCode (fld w 3 3)).map fun c => .fcvtFromn64 (fld w 21 5) (fld w 16 5) (isOne (fld w 6 1)) c
      | 4 => (Rm.ofCode (fld w 3 3)).map fun c => .fcvtTofp (fld w 21 5) (fld w 16 5) (isOne (fld w 6 1)) c
      | 5 => (Rm.ofCode (fld w 3 3)).map fun c => .fcvtTos32 (fld w 21 5) (fld w 16 5) (isOne (fld w 6 1)) c
      | 6 => (Rm.ofCode (fld w 3 3)).map fun c => .fcvtTon32 (fld w 21 5) (fld w 16 5) (isOne (fld w 6 1)) c
      | _ => none)
  | _ => none

/-- Major 0x14 (Hart): the instruction its function code selects (R65 to R76). -/
def decHart (w : IWord) : Option Instr :=
  match (fld w 0 11).toNat with
  | 0 => some (.fork (fld w 21 5) (fld w 16 5) (fld w 11 5))
  | 1 => some (.join (fld w 21 5) (fld w 16 5) (fld w 11 5))
  | 2 => some .vrelease
  | 3 => some (.vacquire (fld w 21 5) (fld w 16 5))
  | 4 => some (.gbar (fld w 21 5) (fld w 16 5))
  | 5 => some (.launch (fld w 21 5) (fld w 16 5))
  | 6 => some .yield
  | _ => none

/-- Major 0x15 (Cp): the instruction its function code selects (R65 to R76). -/
def decCp (w : IWord) : Option Instr :=
  match (fld w 8 3).toNat with
  | 0 => some (.cpNd (fld w 21 5) (fld w 16 5) (isOne (fld w 7 1)) (isOne (fld w 6 1)))
  | 1 => some (.cpMc (fld w 21 5) (fld w 16 5) (isOne (fld w 7 1)) (isOne (fld w 6 1)))
  | 2 => some (.cpWait (fld w 21 5) (fld w 16 5))
  | 3 => some (.cpBind (fld w 21 5) (fld w 16 5) (fld w 11 5))
  | _ => none

/-- Major 0x16 (Bar): the instruction its function code selects (R65 to R76). -/
def decBar (w : IWord) : Option Instr :=
  match (fld w 0 11).toNat with
  | 0 => some (.barInit (fld w 16 5) (fld w 11 5))
  | 1 => some (.barArrive (fld w 21 5) (fld w 16 5) (fld w 11 5))
  | 2 => some (.barWait (fld w 21 5) (fld w 16 5) (fld w 11 5))
  | _ => none

/-- Major 0x17 (Strm): the instruction its function code selects (R65 to R76). -/
def decStrm (w : IWord) : Option Instr :=
  match (fld w 0 11).toNat with
  | 0 => some (.zbind (fld w 21 5) (fld w 16 5))
  | 1 => some (.zrd (fld w 21 5) (fld w 16 5))
  | 2 => some (.zpeek (fld w 21 5) (fld w 16 5))
  | 3 => some (.zsave (fld w 21 5) (fld w 16 5))
  | 4 => some (.zrest (fld w 21 5) (fld w 16 5))
  | 5 => some (.zloop (fld w 16 5) (fld w 11 5))
  | _ => none

/-- Major 0x18 (Ple): the instruction its function code selects (R65 to R76). -/
def decPle (w : IWord) : Option Instr :=
  match (fld w 0 11).toNat with
  | 0 => some (.plOpen (fld w 21 5) (fld w 16 5) (fld w 11 5))
  | 1 => some (.plTerm (fld w 21 5) (fld w 16 5) (fld w 11 5))
  | 2 => some (.plRun (fld w 21 5) (fld w 16 5))
  | 3 => some (.plProbe (fld w 21 5) (fld w 16 5))
  | 4 => some (.plStat (fld w 21 5) (fld w 16 5) (fld w 11 5))
  | _ => none

/-- Major 0x19 (Topk): the instruction its function code selects (R65 to R76). -/
def decTopk (w : IWord) : Option Instr :=
  match (fld w 0 11).toNat with
  | 0 => some (.tkInit (fld w 21 5) (fld w 16 5) (fld w 11 5))
  | 1 => some (.tkIns (fld w 21 5) (fld w 16 5) (fld w 11 5))
  | 2 => some (.tkFuse (fld w 21 5) (fld w 16 5) (fld w 11 5))
  | 3 => some (.tkDrain (fld w 21 5) (fld w 16 5) (fld w 11 5))
  | 4 => some (.tkThr (fld w 21 5) (fld w 16 5) (fld w 11 5))
  | _ => none

/-- Major 0x1A (Pyr): the instruction its function code selects (R65 to R76). -/
def decPyr (w : IWord) : Option Instr :=
  match (fld w 0 11).toNat with
  | 0 => some (.pyLd (fld w 21 5) (fld w 16 5) (fld w 11 5))
  | 1 => some (.pyLdv (fld w 21 5) (fld w 16 5) (fld w 11 5))
  | 2 => some (.pyApp (fld w 21 5) (fld w 16 5) (fld w 11 5))
  | 3 => some (.pyDef (fld w 21 5) (fld w 16 5))
  | 4 => some (.pyComb (fld w 21 5) (fld w 16 5) (fld w 11 5))
  | 5 => some (.pyStat (fld w 21 5) (fld w 16 5) (fld w 11 5))
  | 6 => some (.pyResume (fld w 21 5) (fld w 16 5))
  | _ => none

/-- Major 0x20 (VSet): the instruction its function code selects (R65 to R76). -/
def decVSet (w : IWord) : Option Instr :=
  match (fld w 1 6).toNat with
  | 0 => some (.vsetl (fld w 21 5) (fld w 16 5))
  | 1 => some (.vsett (fld w 21 5) (fld w 16 5) (fld w 11 5))
  | _ => none

/-- Major 0x21 (VIntVV): the instruction its function code selects (R65 to R76). -/
def decVIntVV (w : IWord) : Option Instr :=
  match (fld w 1 6).toNat with
  | 0 => some (.vaddVv (fld w 21 5) (fld w 16 5) (fld w 11 5) (fld w 8 3) (isOne (fld w 7 1)) (isOne (fld w 0 1)))
  | 1 => some (.vsubVv (fld w 21 5) (fld w 16 5) (fld w 11 5) (fld w 8 3) (isOne (fld w 7 1)) (isOne (fld w 0 1)))
  | 2 => some (.vrsubVv (fld w 21 5) (fld w 16 5) (fld w 11 5) (fld w 8 3) (isOne (fld w 7 1)) (isOne (fld w 0 1)))
  | 3 => some (.vmulVv (fld w 21 5) (fld w 16 5) (fld w 11 5) (fld w 8 3) (isOne (fld w 7 1)) (isOne (fld w 0 1)))
  | 4 => some (.vmulhVv (fld w 21 5) (fld w 16 5) (fld w 11 5) (fld w 8 3) (isOne (fld w 7 1)) (isOne (fld w 0 1)))
  | 5 => some (.vmaccVv (fld w 21 5) (fld w 16 5) (fld w 11 5) (fld w 8 3) (isOne (fld w 7 1)) (isOne (fld w 0 1)))
  | 6 => some (.vminVv (fld w 21 5) (fld w 16 5) (fld w 11 5) (fld w 8 3) (isOne (fld w 7 1)) (isOne (fld w 0 1)))
  | 7 => some (.vmaxVv (fld w 21 5) (fld w 16 5) (fld w 11 5) (fld w 8 3) (isOne (fld w 7 1)) (isOne (fld w 0 1)))
  | 8 => some (.vandVv (fld w 21 5) (fld w 16 5) (fld w 11 5) (fld w 8 3) (isOne (fld w 7 1)) (isOne (fld w 0 1)))
  | 9 => some (.vorVv (fld w 21 5) (fld w 16 5) (fld w 11 5) (fld w 8 3) (isOne (fld w 7 1)) (isOne (fld w 0 1)))
  | 10 => some (.vxorVv (fld w 21 5) (fld w 16 5) (fld w 11 5) (fld w 8 3) (isOne (fld w 7 1)) (isOne (fld w 0 1)))
  | 11 => some (.vsllVv (fld w 21 5) (fld w 16 5) (fld w 11 5) (fld w 8 3) (isOne (fld w 7 1)) (isOne (fld w 0 1)))
  | 12 => some (.vsrlVv (fld w 21 5) (fld w 16 5) (fld w 11 5) (fld w 8 3) (isOne (fld w 7 1)) (isOne (fld w 0 1)))
  | 13 => some (.vsraVv (fld w 21 5) (fld w 16 5) (fld w 11 5) (fld w 8 3) (isOne (fld w 7 1)) (isOne (fld w 0 1)))
  | 14 => some (.vadcVv (fld w 21 5) (fld w 16 5) (fld w 11 5) (fld w 8 3) (isOne (fld w 0 1)))
  | 15 => some (.vsbcVv (fld w 21 5) (fld w 16 5) (fld w 11 5) (fld w 8 3) (isOne (fld w 0 1)))
  | 16 => some (.vsaddVv (fld w 21 5) (fld w 16 5) (fld w 11 5) (fld w 8 3) (isOne (fld w 7 1)) (isOne (fld w 0 1)))
  | 17 => some (.vssubVv (fld w 21 5) (fld w 16 5) (fld w 11 5) (fld w 8 3) (isOne (fld w 7 1)) (isOne (fld w 0 1)))
  | _ => none

/-- Major 0x22 (VIntVX): the instruction its function code selects (R65 to R76). -/
def decVIntVX (w : IWord) : Option Instr :=
  match (fld w 1 6).toNat with
  | 0 => some (.vaddVx (fld w 21 5) (fld w 16 5) (fld w 11 5) (fld w 8 3) (isOne (fld w 7 1)) (isOne (fld w 0 1)))
  | 1 => some (.vsubVx (fld w 21 5) (fld w 16 5) (fld w 11 5) (fld w 8 3) (isOne (fld w 7 1)) (isOne (fld w 0 1)))
  | 2 => some (.vrsubVx (fld w 21 5) (fld w 16 5) (fld w 11 5) (fld w 8 3) (isOne (fld w 7 1)) (isOne (fld w 0 1)))
  | 3 => some (.vmulVx (fld w 21 5) (fld w 16 5) (fld w 11 5) (fld w 8 3) (isOne (fld w 7 1)) (isOne (fld w 0 1)))
  | 4 => some (.vmulhVx (fld w 21 5) (fld w 16 5) (fld w 11 5) (fld w 8 3) (isOne (fld w 7 1)) (isOne (fld w 0 1)))
  | 5 => some (.vmaccVx (fld w 21 5) (fld w 16 5) (fld w 11 5) (fld w 8 3) (isOne (fld w 7 1)) (isOne (fld w 0 1)))
  | 6 => some (.vminVx (fld w 21 5) (fld w 16 5) (fld w 11 5) (fld w 8 3) (isOne (fld w 7 1)) (isOne (fld w 0 1)))
  | 7 => some (.vmaxVx (fld w 21 5) (fld w 16 5) (fld w 11 5) (fld w 8 3) (isOne (fld w 7 1)) (isOne (fld w 0 1)))
  | 8 => some (.vandVx (fld w 21 5) (fld w 16 5) (fld w 11 5) (fld w 8 3) (isOne (fld w 7 1)) (isOne (fld w 0 1)))
  | 9 => some (.vorVx (fld w 21 5) (fld w 16 5) (fld w 11 5) (fld w 8 3) (isOne (fld w 7 1)) (isOne (fld w 0 1)))
  | 10 => some (.vxorVx (fld w 21 5) (fld w 16 5) (fld w 11 5) (fld w 8 3) (isOne (fld w 7 1)) (isOne (fld w 0 1)))
  | 11 => some (.vsllVx (fld w 21 5) (fld w 16 5) (fld w 11 5) (fld w 8 3) (isOne (fld w 7 1)) (isOne (fld w 0 1)))
  | 12 => some (.vsrlVx (fld w 21 5) (fld w 16 5) (fld w 11 5) (fld w 8 3) (isOne (fld w 7 1)) (isOne (fld w 0 1)))
  | 13 => some (.vsraVx (fld w 21 5) (fld w 16 5) (fld w 11 5) (fld w 8 3) (isOne (fld w 7 1)) (isOne (fld w 0 1)))
  | 14 => some (.vadcVx (fld w 21 5) (fld w 16 5) (fld w 11 5) (fld w 8 3) (isOne (fld w 0 1)))
  | 15 => some (.vsbcVx (fld w 21 5) (fld w 16 5) (fld w 11 5) (fld w 8 3) (isOne (fld w 0 1)))
  | 16 => some (.vsaddVx (fld w 21 5) (fld w 16 5) (fld w 11 5) (fld w 8 3) (isOne (fld w 7 1)) (isOne (fld w 0 1)))
  | 17 => some (.vssubVx (fld w 21 5) (fld w 16 5) (fld w 11 5) (fld w 8 3) (isOne (fld w 7 1)) (isOne (fld w 0 1)))
  | _ => none

/-- Major 0x23 (VIntVI): the instruction its function code selects (R65 to R76). -/
def decVIntVI (w : IWord) : Option Instr :=
  match (fld w 1 6).toNat with
  | 0 => some (.vaddVi (fld w 21 5) (fld w 16 5) (fld w 11 5) (fld w 8 3) (isOne (fld w 7 1)) (isOne (fld w 0 1)))
  | 1 => some (.vsubVi (fld w 21 5) (fld w 16 5) (fld w 11 5) (fld w 8 3) (isOne (fld w 7 1)) (isOne (fld w 0 1)))
  | 2 => some (.vrsubVi (fld w 21 5) (fld w 16 5) (fld w 11 5) (fld w 8 3) (isOne (fld w 7 1)) (isOne (fld w 0 1)))
  | 3 => some (.vmulVi (fld w 21 5) (fld w 16 5) (fld w 11 5) (fld w 8 3) (isOne (fld w 7 1)) (isOne (fld w 0 1)))
  | 4 => some (.vmulhVi (fld w 21 5) (fld w 16 5) (fld w 11 5) (fld w 8 3) (isOne (fld w 7 1)) (isOne (fld w 0 1)))
  | 5 => some (.vmaccVi (fld w 21 5) (fld w 16 5) (fld w 11 5) (fld w 8 3) (isOne (fld w 7 1)) (isOne (fld w 0 1)))
  | 6 => some (.vminVi (fld w 21 5) (fld w 16 5) (fld w 11 5) (fld w 8 3) (isOne (fld w 7 1)) (isOne (fld w 0 1)))
  | 7 => some (.vmaxVi (fld w 21 5) (fld w 16 5) (fld w 11 5) (fld w 8 3) (isOne (fld w 7 1)) (isOne (fld w 0 1)))
  | 8 => some (.vandVi (fld w 21 5) (fld w 16 5) (fld w 11 5) (fld w 8 3) (isOne (fld w 7 1)) (isOne (fld w 0 1)))
  | 9 => some (.vorVi (fld w 21 5) (fld w 16 5) (fld w 11 5) (fld w 8 3) (isOne (fld w 7 1)) (isOne (fld w 0 1)))
  | 10 => some (.vxorVi (fld w 21 5) (fld w 16 5) (fld w 11 5) (fld w 8 3) (isOne (fld w 7 1)) (isOne (fld w 0 1)))
  | 11 => some (.vsllVi (fld w 21 5) (fld w 16 5) (fld w 11 5) (fld w 8 3) (isOne (fld w 7 1)) (isOne (fld w 0 1)))
  | 12 => some (.vsrlVi (fld w 21 5) (fld w 16 5) (fld w 11 5) (fld w 8 3) (isOne (fld w 7 1)) (isOne (fld w 0 1)))
  | 13 => some (.vsraVi (fld w 21 5) (fld w 16 5) (fld w 11 5) (fld w 8 3) (isOne (fld w 7 1)) (isOne (fld w 0 1)))
  | 14 => some (.vadcVi (fld w 21 5) (fld w 16 5) (fld w 11 5) (fld w 8 3) (isOne (fld w 0 1)))
  | 15 => some (.vsbcVi (fld w 21 5) (fld w 16 5) (fld w 11 5) (fld w 8 3) (isOne (fld w 0 1)))
  | 16 => some (.vsaddVi (fld w 21 5) (fld w 16 5) (fld w 11 5) (fld w 8 3) (isOne (fld w 7 1)) (isOne (fld w 0 1)))
  | 17 => some (.vssubVi (fld w 21 5) (fld w 16 5) (fld w 11 5) (fld w 8 3) (isOne (fld w 7 1)) (isOne (fld w 0 1)))
  | _ => none

/-- Major 0x24 (VFpVV): the instruction its function code selects (R65 to R76). -/
def decVFpVV (w : IWord) : Option Instr :=
  match (fld w 1 6).toNat with
  | 0 => some (.vfaddVv (fld w 21 5) (fld w 16 5) (fld w 11 5) (fld w 8 3) (isOne (fld w 7 1)) (isOne (fld w 0 1)))
  | 1 => some (.vfsubVv (fld w 21 5) (fld w 16 5) (fld w 11 5) (fld w 8 3) (isOne (fld w 7 1)) (isOne (fld w 0 1)))
  | 2 => some (.vfmulVv (fld w 21 5) (fld w 16 5) (fld w 11 5) (fld w 8 3) (isOne (fld w 7 1)) (isOne (fld w 0 1)))
  | 3 => some (.vfmaVv (fld w 21 5) (fld w 16 5) (fld w 11 5) (fld w 8 3) (isOne (fld w 7 1)) (isOne (fld w 0 1)))
  | 4 => some (.vfmsVv (fld w 21 5) (fld w 16 5) (fld w 11 5) (fld w 8 3) (isOne (fld w 7 1)) (isOne (fld w 0 1)))
  | 5 => some (.vfdivVv (fld w 21 5) (fld w 16 5) (fld w 11 5) (fld w 8 3) (isOne (fld w 7 1)) (isOne (fld w 0 1)))
  | 6 => some (.vfsqrt (fld w 21 5) (fld w 16 5) (fld w 8 3) (isOne (fld w 7 1)) (isOne (fld w 0 1)))
  | 7 => some (.vfminVv (fld w 21 5) (fld w 16 5) (fld w 11 5) (fld w 8 3) (isOne (fld w 7 1)) (isOne (fld w 0 1)))
  | 8 => some (.vfmaxVv (fld w 21 5) (fld w 16 5) (fld w 11 5) (fld w 8 3) (isOne (fld w 7 1)) (isOne (fld w 0 1)))
  | 9 => some (.vfclass (fld w 21 5) (fld w 16 5) (fld w 8 3) (isOne (fld w 7 1)) (isOne (fld w 0 1)))
  | 10 => some (.vfrcpe (fld w 21 5) (fld w 16 5) (fld w 8 3) (isOne (fld w 7 1)) (isOne (fld w 0 1)))
  | _ => none

/-- Major 0x25 (VFpVX): the instruction its function code selects (R65 to R76). -/
def decVFpVX (w : IWord) : Option Instr :=
  match (fld w 1 6).toNat with
  | 0 => some (.vfaddVx (fld w 21 5) (fld w 16 5) (fld w 11 5) (fld w 8 3) (isOne (fld w 7 1)) (isOne (fld w 0 1)))
  | 1 => some (.vfsubVx (fld w 21 5) (fld w 16 5) (fld w 11 5) (fld w 8 3) (isOne (fld w 7 1)) (isOne (fld w 0 1)))
  | 2 => some (.vfmulVx (fld w 21 5) (fld w 16 5) (fld w 11 5) (fld w 8 3) (isOne (fld w 7 1)) (isOne (fld w 0 1)))
  | 3 => some (.vfmaVx (fld w 21 5) (fld w 16 5) (fld w 11 5) (fld w 8 3) (isOne (fld w 7 1)) (isOne (fld w 0 1)))
  | 4 => some (.vfmsVx (fld w 21 5) (fld w 16 5) (fld w 11 5) (fld w 8 3) (isOne (fld w 7 1)) (isOne (fld w 0 1)))
  | 5 => some (.vfdivVx (fld w 21 5) (fld w 16 5) (fld w 11 5) (fld w 8 3) (isOne (fld w 7 1)) (isOne (fld w 0 1)))
  | 7 => some (.vfminVx (fld w 21 5) (fld w 16 5) (fld w 11 5) (fld w 8 3) (isOne (fld w 7 1)) (isOne (fld w 0 1)))
  | 8 => some (.vfmaxVx (fld w 21 5) (fld w 16 5) (fld w 11 5) (fld w 8 3) (isOne (fld w 7 1)) (isOne (fld w 0 1)))
  | _ => none

/-- Major 0x26 (VCmp): the instruction its function code selects (R65 to R76). -/
def decVCmp (w : IWord) : Option Instr :=
  match (fld w 1 6).toNat with
  | 0 => some (.vcmpEqVv (fld w 21 5) (fld w 16 5) (fld w 11 5) (fld w 8 3) (isOne (fld w 7 1)) (isOne (fld w 0 1)))
  | 1 => some (.vcmpNeVv (fld w 21 5) (fld w 16 5) (fld w 11 5) (fld w 8 3) (isOne (fld w 7 1)) (isOne (fld w 0 1)))
  | 2 => some (.vcmpLtVv (fld w 21 5) (fld w 16 5) (fld w 11 5) (fld w 8 3) (isOne (fld w 7 1)) (isOne (fld w 0 1)))
  | 3 => some (.vcmpLeVv (fld w 21 5) (fld w 16 5) (fld w 11 5) (fld w 8 3) (isOne (fld w 7 1)) (isOne (fld w 0 1)))
  | 4 => some (.vcmpGtVv (fld w 21 5) (fld w 16 5) (fld w 11 5) (fld w 8 3) (isOne (fld w 7 1)) (isOne (fld w 0 1)))
  | 5 => some (.vcmpGeVv (fld w 21 5) (fld w 16 5) (fld w 11 5) (fld w 8 3) (isOne (fld w 7 1)) (isOne (fld w 0 1)))
  | 8 => some (.vfcmpEqVv (fld w 21 5) (fld w 16 5) (fld w 11 5) (fld w 8 3) (isOne (fld w 7 1)) (isOne (fld w 0 1)))
  | 9 => some (.vfcmpNeVv (fld w 21 5) (fld w 16 5) (fld w 11 5) (fld w 8 3) (isOne (fld w 7 1)) (isOne (fld w 0 1)))
  | 10 => some (.vfcmpLtVv (fld w 21 5) (fld w 16 5) (fld w 11 5) (fld w 8 3) (isOne (fld w 7 1)) (isOne (fld w 0 1)))
  | 11 => some (.vfcmpLeVv (fld w 21 5) (fld w 16 5) (fld w 11 5) (fld w 8 3) (isOne (fld w 7 1)) (isOne (fld w 0 1)))
  | 32 => some (.vcmpEqVx (fld w 21 5) (fld w 16 5) (fld w 11 5) (fld w 8 3) (isOne (fld w 7 1)) (isOne (fld w 0 1)))
  | 33 => some (.vcmpNeVx (fld w 21 5) (fld w 16 5) (fld w 11 5) (fld w 8 3) (isOne (fld w 7 1)) (isOne (fld w 0 1)))
  | 34 => some (.vcmpLtVx (fld w 21 5) (fld w 16 5) (fld w 11 5) (fld w 8 3) (isOne (fld w 7 1)) (isOne (fld w 0 1)))
  | 35 => some (.vcmpLeVx (fld w 21 5) (fld w 16 5) (fld w 11 5) (fld w 8 3) (isOne (fld w 7 1)) (isOne (fld w 0 1)))
  | 36 => some (.vcmpGtVx (fld w 21 5) (fld w 16 5) (fld w 11 5) (fld w 8 3) (isOne (fld w 7 1)) (isOne (fld w 0 1)))
  | 37 => some (.vcmpGeVx (fld w 21 5) (fld w 16 5) (fld w 11 5) (fld w 8 3) (isOne (fld w 7 1)) (isOne (fld w 0 1)))
  | 40 => some (.vfcmpEqVx (fld w 21 5) (fld w 16 5) (fld w 11 5) (fld w 8 3) (isOne (fld w 7 1)) (isOne (fld w 0 1)))
  | 41 => some (.vfcmpNeVx (fld w 21 5) (fld w 16 5) (fld w 11 5) (fld w 8 3) (isOne (fld w 7 1)) (isOne (fld w 0 1)))
  | 42 => some (.vfcmpLtVx (fld w 21 5) (fld w 16 5) (fld w 11 5) (fld w 8 3) (isOne (fld w 7 1)) (isOne (fld w 0 1)))
  | 43 => some (.vfcmpLeVx (fld w 21 5) (fld w 16 5) (fld w 11 5) (fld w 8 3) (isOne (fld w 7 1)) (isOne (fld w 0 1)))
  | _ => none

/-- Major 0x27 (KOps): the instruction its function code selects (R65 to R76). -/
def decKOps (w : IWord) : Option Instr :=
  match (fld w 1 6).toNat with
  | 0 => some (.kand (fld w 21 5) (fld w 16 5) (fld w 11 5))
  | 1 => some (.kor (fld w 21 5) (fld w 16 5) (fld w 11 5))
  | 2 => some (.kxor (fld w 21 5) (fld w 16 5) (fld w 11 5))
  | 3 => some (.knot (fld w 21 5) (fld w 16 5))
  | 4 => some (.kshl1 (fld w 21 5) (fld w 16 5))
  | 5 => some (.kshr1 (fld w 21 5) (fld w 16 5))
  | 6 => some (.kpopc (fld w 21 5) (fld w 16 5))
  | 7 => some (.kfirst (fld w 21 5) (fld w 16 5))
  | 8 => some (.kmv (fld w 21 5) (fld w 16 5))
  | _ => none

/-- Major 0x28 (VPerm): the instruction its function code selects (R65 to R76). -/
def decVPerm (w : IWord) : Option Instr :=
  match (fld w 1 6).toNat with
  | 0 => some (.vmerge (fld w 21 5) (fld w 16 5) (fld w 11 5) (fld w 8 3) (isOne (fld w 7 1)) (isOne (fld w 0 1)))
  | 1 => some (.vbcast (fld w 21 5) (fld w 11 5) (fld w 8 3) (isOne (fld w 7 1)) (isOne (fld w 0 1)))
  | 2 => some (.vslideup (fld w 21 5) (fld w 16 5) (fld w 11 5) (fld w 8 3) (isOne (fld w 7 1)) (isOne (fld w 0 1)))
  | 3 => some (.vslidedn (fld w 21 5) (fld w 16 5) (fld w 11 5) (fld w 8 3) (isOne (fld w 7 1)) (isOne (fld w 0 1)))
  | 4 => some (.vrgather (fld w 21 5) (fld w 16 5) (fld w 11 5) (fld w 8 3) (isOne (fld w 7 1)) (isOne (fld w 0 1)))
  | 5 => some (.vcompress (fld w 21 5) (fld w 16 5) (fld w 8 3) (isOne (fld w 7 1)) (isOne (fld w 0 1)))
  | 6 => some (.vexpand (fld w 21 5) (fld w 16 5) (fld w 8 3) (isOne (fld w 7 1)) (isOne (fld w 0 1)))
  | 7 => some (.vpermblk (fld w 21 5) (fld w 16 5) (fld w 11 5) (isOne (fld w 7 1)) (isOne (fld w 0 1)))
  | _ => none

/-- Major 0x29 (VRed): the instruction its function code selects (R65 to R76). -/
def decVRed (w : IWord) : Option Instr :=
  match (fld w 1 6).toNat with
  | 0 => some (.vredSum (fld w 21 5) (fld w 16 5) (fld w 11 5) (fld w 8 3) (isOne (fld w 7 1)) (isOne (fld w 0 1)))
  | 1 => some (.vredOsum (fld w 21 5) (fld w 16 5) (fld w 11 5) (fld w 8 3) (isOne (fld w 7 1)) (isOne (fld w 0 1)))
  | 2 => some (.vredMax (fld w 21 5) (fld w 16 5) (fld w 11 5) (fld w 8 3) (isOne (fld w 7 1)) (isOne (fld w 0 1)))
  | 3 => some (.vredMin (fld w 21 5) (fld w 16 5) (fld w 11 5) (fld w 8 3) (isOne (fld w 7 1)) (isOne (fld w 0 1)))
  | 4 => some (.vredAnd (fld w 21 5) (fld w 16 5) (fld w 11 5) (fld w 8 3) (isOne (fld w 7 1)) (isOne (fld w 0 1)))
  | 5 => some (.vredOr (fld w 21 5) (fld w 16 5) (fld w 11 5) (fld w 8 3) (isOne (fld w 7 1)) (isOne (fld w 0 1)))
  | 6 => some (.vstrip (fld w 21 5) (fld w 16 5) (fld w 11 5) (fld w 8 3))
  | _ => none

/-- Major 0x2A (VCvt): the instruction its function code selects (R65 to R76). -/
def decVCvt (w : IWord) : Option Instr :=
  match (fld w 5 2).toNat with
  | 0 => some (.vcvt (fld w 21 5) (fld w 16 5) (fld w 11 5) (fld w 8 3) (isOne (fld w 7 1)) (isOne (fld w 1 1)) (isOne (fld w 0 1)))
  | 1 => some (.vwiden (fld w 21 5) (fld w 16 5) (fld w 11 5) (fld w 8 3) (isOne (fld w 7 1)) (isOne (fld w 0 1)))
  | 2 => some (.vnarrow (fld w 21 5) (fld w 16 5) (fld w 11 5) (fld w 8 3) (isOne (fld w 7 1)) (isOne (fld w 1 1)) (isOne (fld w 0 1)))
  | _ => none

/-- Major 0x2B (VLd): the instruction its function code selects (R65 to R76). -/
def decVLd (w : IWord) : Option Instr :=
  match (fld w 1 4).toNat with
  | 0 => some (.vld (fld w 21 5) (fld w 16 5) (fld w 8 3) (isOne (fld w 7 1)) (isOne (fld w 0 1)))
  | 1 => some (.vlds (fld w 21 5) (fld w 16 5) (fld w 11 5) (fld w 8 3) (isOne (fld w 7 1)) (isOne (fld w 0 1)))
  | 2 => some (.vldz (fld w 21 5) (fld w 16 5) (fld w 11 5) (fld w 8 2) (isOne (fld w 0 1)))
  | 3 => some (.vldb (fld w 21 5) (fld w 16 5) (fld w 11 5) (isOne (fld w 7 1)) (isOne (fld w 0 1)))
  | _ => none

/-- Major 0x2C (VSt): the instruction its function code selects (R65 to R76). -/
def decVSt (w : IWord) : Option Instr :=
  match (fld w 1 4).toNat with
  | 0 => some (.vst (fld w 21 5) (fld w 16 5) (fld w 8 3) (isOne (fld w 7 1)) (isOne (fld w 0 1)))
  | 1 => some (.vsts (fld w 21 5) (fld w 16 5) (fld w 11 5) (fld w 8 3) (isOne (fld w 7 1)) (isOne (fld w 0 1)))
  | 3 => some (.vstb (fld w 21 5) (fld w 16 5) (fld w 11 5) (isOne (fld w 7 1)) (isOne (fld w 0 1)))
  | _ => none

/-- Major 0x2D (VGs): the instruction its function code selects (R65 to R76). -/
def decVGs (w : IWord) : Option Instr :=
  match (fld w 1 4).toNat with
  | 0 => some (.vldx (fld w 21 5) (fld w 16 5) (fld w 11 5) (fld w 8 3) (isOne (fld w 7 1)) (fld w 5 2) (isOne (fld w 0 1)))
  | 1 => some (.vldc (fld w 21 5) (fld w 16 5) (fld w 11 5) (fld w 8 3) (isOne (fld w 7 1)) (fld w 5 2) (isOne (fld w 0 1)))
  | 2 => some (.vstxO (fld w 21 5) (fld w 16 5) (fld w 11 5) (fld w 8 3) (isOne (fld w 7 1)) (fld w 5 2) (isOne (fld w 0 1)))
  | 3 => some (.vstxU (fld w 21 5) (fld w 16 5) (fld w 11 5) (fld w 8 3) (isOne (fld w 7 1)) (fld w 5 2) (isOne (fld w 0 1)))
  | 4 => some (.vstc (fld w 21 5) (fld w 16 5) (fld w 11 5) (fld w 8 3) (isOne (fld w 7 1)) (fld w 5 2) (isOne (fld w 0 1)))
  | _ => none

/-- Major 0x2E (VSync): the instruction its function code selects (R65 to R76). -/
def decVSync (w : IWord) : Option Instr :=
  match (fld w 1 4).toNat with
  | 0 => some (.vgll (fld w 21 5) (fld w 16 5) (fld w 11 5) (fld w 8 3) (isOne (fld w 7 1)))
  | 1 => some (.vscc (fld w 21 5) (fld w 16 5) (fld w 11 5) (fld w 8 3) (isOne (fld w 7 1)))
  | 2 => some (.vlock (fld w 21 5) (fld w 16 5) (fld w 11 5) (fld w 8 3))
  | 3 => some (.vunlock (fld w 16 5) (fld w 11 5) (fld w 8 3))
  | 4 => some (.winDecl (fld w 16 5) (fld w 11 5))
  | 5 => some (.vscaddWin (fld w 21 5) (fld w 11 5) (fld w 8 3))
  | 6 => (Scope.ofCode (fld w 8 3)).map fun c => .winMerge c
  | 7 => some (.vscadd (fld w 21 5) (fld w 16 5) (fld w 11 5) (fld w 8 3) (isOne (fld w 7 1)) (fld w 5 2))
  | 8 => some (.crDecl (fld w 24 2) (fld w 21 3) (fld w 16 5) (fld w 11 5))
  | 9 => some (.crDrop (fld w 21 3))
  | _ => none

/-- Major 0x2F (VMov): the instruction its function code selects (R65 to R76). -/
def decVMov (w : IWord) : Option Instr :=
  match (fld w 1 6).toNat with
  | 0 => some (.vmv (fld w 21 5) (fld w 16 5) (fld w 8 3) (isOne (fld w 0 1)))
  | 1 => some (.vmvS (fld w 21 5) (fld w 11 5) (isOne (fld w 0 1)))
  | 2 => some (.vext (fld w 21 5) (fld w 16 5) (fld w 11 5) (isOne (fld w 0 1)))
  | 3 => some (.qput (fld w 21 5) (fld w 16 5))
  | 4 => some (.qget (fld w 21 5) (fld w 16 5))
  | _ => none

/-- Major 0x30 (Mat): the instruction its function code selects (R65 to R76). -/
def decMat (w : IWord) : Option Instr :=
  match (fld w 8 4).toNat with
  | 0 => some (.mattach (fld w 3 5))
  | 1 => some .mdetach
  | 2 => some (.oClaim (fld w 18 6) (fld w 12 6))
  | 3 => some (.oRelease (fld w 18 6) (fld w 12 6))
  | 4 => some (.mzero (fld w 24 2))
  | 5 => some (.mfmt (fld w 24 2) (fld w 18 5) (fld w 12 5) (fld w 4 3) (fld w 1 3))
  | 6 => some (.mskip (fld w 24 2) (fld w 3 5))
  | _ => none

/-- Major 0x32 (MSlice): the instruction its function code selects (R65 to R76). -/
def decMSlice (w : IWord) : Option Instr :=
  match (fld w 10 2).toNat with
  | 0 => some (.msliceRd (fld w 24 2) (fld w 18 5) (fld w 5 5) (isOne (fld w 0 1)))
  | 1 => some (.msliceWr (fld w 24 2) (fld w 18 5) (fld w 5 5) (isOne (fld w 0 1)))
  | 2 => some (.msliceRdExp (fld w 24 2) (fld w 18 5) (fld w 5 5) (isOne (fld w 0 1)))
  | _ => none

/-- Major 0x33 (MLoad): the instruction its function code selects (R65 to R76). -/
def decMLoad (w : IWord) : Option Instr :=
  match (fld w 10 2).toNat with
  | 0 => if isOne (fld w 1 1) then some (.mldP (fld w 18 6) (fld w 12 5) (fld w 5 5)) else some (.mld (fld w 18 6) (fld w 12 5) (fld w 5 5))
  | 1 => some (.mst (fld w 24 2) (fld w 12 5) (fld w 5 5))
  | _ => none

/-- The instruction that the function codes of a word select, before the zero fields and ranges are checked (R63). -/
noncomputable def rawDecode (w : IWord) : Option Instr :=
  match (fld w 26 6).toNat with
  | 1 => decSys w
  | 2 => decBr w
  | 3 => some (.j (fld w 0 26))
  | 4 => some (.jal (fld w 0 26))
  | 5 => some (.jalr (fld w 21 5) (fld w 16 5) (fld w 0 16))
  | 6 => decAlu w
  | 7 => some (.addi (fld w 21 5) (fld w 16 5) (fld w 0 16))
  | 8 => some (.andi (fld w 21 5) (fld w 16 5) (fld w 0 16))
  | 9 => some (.ori (fld w 21 5) (fld w 16 5) (fld w 0 16))
  | 10 => some (.xori (fld w 21 5) (fld w 16 5) (fld w 0 16))
  | 11 => decShift w
  | 12 => some (.slti (fld w 21 5) (fld w 16 5) (fld w 0 16))
  | 13 => some (.lui (fld w 21 5) (fld w 0 16))
  | 14 => some (.auipc (fld w 21 5) (fld w 0 16))
  | 15 => decMulDiv w
  | 16 => decLd w
  | 17 => decSt w
  | 18 => decAmo w
  | 19 => decFpu w
  | 20 => decHart w
  | 21 => decCp w
  | 22 => decBar w
  | 23 => decStrm w
  | 24 => decPle w
  | 25 => decTopk w
  | 26 => decPyr w
  | 32 => decVSet w
  | 33 => decVIntVV w
  | 34 => decVIntVX w
  | 35 => decVIntVI w
  | 36 => decVFpVV w
  | 37 => decVFpVX w
  | 38 => decVCmp w
  | 39 => decKOps w
  | 40 => decVPerm w
  | 41 => decVRed w
  | 42 => decVCvt w
  | 43 => decVLd w
  | 44 => decVSt w
  | 45 => decVGs w
  | 46 => decVSync w
  | 47 => decVMov w
  | 48 => decMat w
  | 49 => some (.mop (fld w 24 2) (fld w 18 6) (fld w 12 6) (isOne (fld w 2 1)) (isOne (fld w 1 1)) (isOne (fld w 0 1)))
  | 50 => decMSlice w
  | 51 => decMLoad w
  | _ => none

/-- The instruction a word is (R80): its function codes select it, its operands are in range (R72 to R78), and every bit
its description does not use is zero, that is, the word is that instruction's own word (R61). -/
noncomputable def decodeWord (w : IWord) : Option Instr :=
  match rawDecode w with
  | some i => if i.wf && encode i == w then some i else none
  | none => none

/-- What the decoder reads from the bits of an opcode-table row: words are 32 bits, bits above `nbits` are zero (R58). -/
noncomputable def decodeTableWord (nbits w : Nat) : Option Instr := decodeWord (BitVec.ofNat 32 (w % 2 ^ nbits))

end Sys2Proof
end

