-- ==== Sys2Proof/Config.lean ====
section
/-! DEFINITION. What an implementation fixes, and the free values of the spec: constants without a body, of which nothing can be
proved but what every value has. NOTES.md lists the log entry of each. -/
namespace Sys2Proof.Config

/-- Whether an access whose page-table entry has changed takes the old entry, which its TLB still holds (R343). -/
opaque tlbOld : Nat → Bool
/-- Whether a fetch takes the word the instruction cache still holds (R59). -/
opaque icacheOld : Nat → Bool
/-- Which of the sixteen entries of a 64 KiB page with different entries an access takes (R342). -/
opaque s64Entry : Nat → Nat
/-- Which of the active elements that write the same bytes survives in `vstx.u` (R172). -/
opaque survivor : Nat → Nat
/-- Whether a run with PRUNE set skips a document it may skip (R229). -/
opaque pruneSkip : Nat → Bool
/-- Whether a probe visits an entry that was inserted while it runs (R232). -/
opaque probeLate : Nat → Bool
/-- What `pl.stat` gives as the address at fault when no run or probe has stopped on one (R233). -/
opaque faultAddress : Nat → BitVec 64
/-- The header byte of a block that `py.ldv` delivers under a blocked view (R45, R247). -/
opaque spanHeader : Nat → BitVec 8
/-- The header byte of a register block whose elements come from memory blocks with different headers, given those headers (R45). -/
opaque mixedHeader : List Nat → BitVec 8
/-- The fresh key that a key id takes (R350). -/
opaque freshKey : Nat → BitVec 512
/-- What a byte left behind in memory reads as under a new key (R350). -/
opaque staleByte : Nat → Byte
/-- ML-KEM-1024 decapsulation under the security engine's key (R358, FIPS 203). -/
opaque decapsulate : List Byte → BitVec 256
/-- AES key unwrapping (R358, NIST SP 800-38F): none when it fails. -/
opaque unwrapKey : BitVec 256 → List Byte → Option (BitVec 512)
/-- SHA3-512 (R111, R391). -/
opaque sha3 : List Byte → BitVec 512
/-- ML-DSA-87 verification of a digest (R111, R391): key hash, digest, signature. -/
opaque verifySig : BitVec 512 → BitVec 512 → List Byte → Bool
/-- The bytes of an image, by number, as a boot source presents it (R391, R392). -/
opaque bootImage : Nat → List Byte
/-- The four key hashes in the device fuses, none for one revoked, and the fused minimum version (R391). -/
opaque fuseKey : Nat → Option (BitVec 512)
opaque fuseMinVersion : Nat
/-- The fabric port of the route to a module, recorded at bring-up (R360). -/
opaque port : Nat → Nat
/-- The route to a module, recorded at bring-up, is a direct link, not one through switches (R360, R362). -/
opaque direct : Nat → Bool
/-- The peer table of a module lists this one for the partition with a key id there (R361): module, key id. -/
opaque peerAllows : Nat → Nat → Bool
/-- The die-to-die link between two dies, counted from 0 (R383): compute dies are 0 to 3, I/O dies 4 and 5. -/
opaque dieLink : Nat → Nat → Nat
/-- What a host read of BAR 0 gives where the spec gives a register no such read (R354, R357). -/
opaque windowByte : Nat → Byte
/-- What a save writes into its slot, whose layout the spec does not give (R334, R353). -/
opaque saveByte : Nat → Byte
/-- What a restore reads where the bytes of a save slot are no longer those that the save wrote (R334). -/
opaque savedValue : Nat → Nat
/-- Where the bring-up of the firmware stood when the device was reset (R392), modulo 13: 2j - 1 for the j-th of steps 2 to 7 begun and not
done, 2j for the j-th done and none begun since, 0 for none. -/
opaque bootStep : Nat → Nat

end Sys2Proof.Config
end

