-- ==== Sys2Proof/Machine/State.lean ====
section
/-! DEFINITION. The state of the machine: everything the spec gives it, as plain data, and the state after reset. Each
field's docstring names the rule that gives it. INVENTORY.md lists them with their reset values. -/
namespace Sys2Proof.Machine

/-- Why a step can stop. -/
inductive Fault where
  /-- The device stopped and reports through the management controller (R392): raised by the step itself once a boot
  step's alternative has failed too. Safe: the spec gives the stopped device no further step. -/
  | deviceStopped
  deriving DecidableEq, Repr

/-- Why a step can be refused. -/
inductive Refusal where
  /-- Raised only by an arm of `exec` that has no meaning yet. Safe. -/
  | notModelled (mnemonic : String)
  /-- Raised by `step` when the input list names a word instead of a device step. Safe: a word runs only by being
  fetched. -/
  | notAnEvent
  deriving DecidableEq, Repr

/-- The trap causes of R25. -/
inductive Cause where
  | illegal | illegalType | convoy | misalign | page | vmap | perm | fp | int | tileOff | slot | ownerLost | guard
  | watch | atomicPath | partition | stream | race | ecc | brk | syscall
  deriving DecidableEq, Repr

/-- A list of (index, value) pairs, indices strictly rising, none holding the default: `Sparse.wf` (Ops). -/
abbrev Sparse (α : Type) := List (Nat × α)

/-- Where an access goes (R273): a scratchpad bank, a cached page, the read-only path, a shared uncached page, a remote
page. -/
inductive PKind where
  | bank | cached | roPath | uncached | remote
  deriving DecidableEq, Repr

/-- A translated address: its kind, the memory key of its byte (Ops `dramKey`, `spadKey`, `remoteKey`), the 52-bit
physical address, the remote module, whether the route to it carries atomics (R341, R362), and whether its home serves this module (R361). -/
structure Loc where
  kind : PKind
  key : Nat
  pa : Nat := 0
  module : Nat := 0
  ar : Bool := false
  peer : Bool := true
  deriving DecidableEq, Repr

/-- A scalar store in the SSB (R281): where, how many bytes, which, and the virtual address for R308's trap. -/
structure SsbEntry where
  loc : Loc
  va : Nat
  len : Nat
  data : Word
  deriving DecidableEq, Repr

/-- A line of a plane store FIFO with its byte mask (R281). `loc.key` is the key of the line's first byte. -/
structure PsfEntry where
  loc : Loc
  va : Nat
  mask : BitVec 64
  data : BitVec 512
  deriving DecidableEq, Repr

/-- A `vstc` packet bound for one core (R173, R281): its bytes in element order. -/
structure Packet where
  va : Nat
  bytes : List (Nat × Byte)
  deriving DecidableEq, Repr

/-- A word in the vector queue with the x operands it captured at push (R263, R24): x[VA], x[VB] and x[VB + 1], or the x
registers its X-format subfields name; the element at which it starts, with the queue value kept for it (R141); and whether it belongs to the body of `zloop`
(R197), and ends it. -/
structure VEntry where
  word : IWord
  pc : Word
  xa : Word
  xb : Word
  xc : Word
  start : Nat := 0
  kept : Option Word := none
  loop : Bool := false
  last : Bool := false
  deriving DecidableEq, Repr

/-- The loop buffer (R197): where the body begins and how many words it has, the words the scalar pipe has pushed so far, and the
replays left after the first. -/
structure LoopBuf where
  first : Word
  words : Nat
  body : List VEntry
  left : Nat
  deriving DecidableEq, Repr

/-- What the word at PC - 4 was, for the convoy bit (R77): none (a jump, a trap or `eret` led here), a word that cannot be
joined, or the last of a convoy's members. -/
inductive Convoy where
  | fresh | other | member (ms : List IWord)
  deriving DecidableEq, Repr

/-- The vector stream of a hart: the queue (R263), the words parked by a trap (R24) and the word that trapped,
the loop buffer, and the one that a trap has set aside (R197), the convoy state (R77), whether the head of the queue waits, the
completed steps of a `mop` (R211), and words of lines read for a vector load that was cut into messages (R296). -/
structure VStream where
  vq : List VEntry
  parked : List VEntry
  trapped : Option VEntry
  loop : Option LoopBuf
  parkedLoop : Option LoopBuf
  conv : Convoy
  blocked : Bool
  mopStep : Nat
  lines : List (Nat × BitVec 16 × BitVec 512)
  deriving DecidableEq, Repr

/-- FLAGS (R20), and EIX and EPC in the order NV, DZ, OF, UF, NX, SAT (R21). -/
structure FlagRegs where
  flags : BitVec 16
  eix : Vector (BitVec 16) 6
  epc : Vector Word 6
  deriving DecidableEq, Repr

/-- TVEC, TCAUSE, TVAL, TPC, ERI and TNPC (R23, R24). -/
structure TrapRegs where
  tvec : Word
  tcause : Word
  tval : Word
  tpc : Word
  eri : Word
  tnpc : Word
  deriving DecidableEq, Repr

/-- VTYPE and VL (R17, R11), the container bits the last `vsett` recorded (R19), the quads held at the last `vsetl` or
`vsett` (R8), and whether a change of holding still awaits one (R8). -/
structure VRegs where
  vtype : Word
  vl : Nat
  cbits : Nat
  quads : Nat
  pending : Bool
  deriving DecidableEq, Repr

/-- A child created by `fork`, as its parent keeps it (R132, R133): the slot, the block it received, and whether it is
live, has joined with a value, or has halted. -/
structure Child where
  slot : Nat
  qFirst : Nat
  qCount : Nat
  joined : Option Word
  halted : Bool
  deriving DecidableEq, Repr

/-- What a hart waits for, holding no issue slot (R269); `d` is the register that the wake writes. A hart at a barrier is told when
the bank releases it, and whether the barrier is broken (R191, R192); one in `py.app` for level 0 keeps the stream's header and the record
it read at issue (R381). -/
inductive Wait where
  | vector | queueFull | queueReg | memory | drain
  | wfe (d : Reg) | vacquire (d : Reg) (wanted since : Nat) | gbar (group : Nat) | join (slot : Nat)
  | copy | barrier (key : Nat) (broken : Option Bool) | engine | append (d : Reg) (base v : Nat) | admission (seq : Nat)
  | delivery (count : Nat) (todo : List (Nat × Loc × Nat))
  deriving DecidableEq, Repr

/-- What stands in a hart slot: nothing; a placed hart that has not begun (R329); a running hart; one that stopped for
the partition supervisor or for page-fault service (R23, R338); one stopped by `brk` or reported to `fettle` (R124); one stopped at a
pre-emption boundary (R333); a child that has joined and waits to be collected (R133). -/
inductive HStatus where
  | empty | placed | running | stopped | debugStop | preempted | joined
  deriving DecidableEq, Repr

/-- A stream register (R14): the 128-byte parameter block (R193) and the progress counter. -/
structure ZReg where
  block : BitVec 1024
  progress : Nat
  deriving DecidableEq, Repr

/-- An accumulation window (R180): base, entries, whether the type is FP32 and whether it is signed, and the copies, lane
after lane. -/
structure Window where
  base : Nat
  n : Nat
  float : Bool
  signed : Bool
  copies : List (BitVec 32)
  deriving DecidableEq, Repr

/-- A watchpoint of `fettle` (R25): a byte range and its conditions. -/
structure Watchpoint where
  lo : Nat
  len : Nat
  onRead : Bool
  onWrite : Bool
  deriving DecidableEq, Repr

/-- The task side of a hart (R26, R132, R133, R259): task, context and partition, INDEX, COUNT, CHILD, GMEM, SHARE, parent,
children, and the group and phase at which it has arrived while it waits (R139). -/
structure TaskRegs where
  task : Nat
  part : Nat
  ctx : Nat
  index : Nat
  count : Nat
  isChild : Bool
  gmem : Word
  share : BitVec 4
  parent : Option Nat
  children : List Child
  arrived : Option (Nat × Nat)
  deriving DecidableEq, Repr

/-- The quads a hart holds (R6, R26): count and first quad. -/
structure Quads where
  count : Nat
  first : Nat
  deriving DecidableEq, Repr

/-- The hart's place in the arbiters: V of R270, the arbiter cycles since its last opportunity, whether it was ready, whether the step
found it ready now (R269), the virtual time of R135, and what is left of the 16 cycles and of the other harts of a `yield` (R138). -/
structure Sched where
  vtime : Nat
  age : Nat
  wasReady : Bool
  ready : Bool
  qtime : Nat
  yieldLeft : Nat
  yielded : List Nat
  deriving DecidableEq, Repr

/-- A hart (R4). -/
structure Hart where
  /-- 8 x core + slot (R3, R26). -/
  id : Nat
  status : HStatus
  wait : Option Wait
  x : Vector Word 32
  pc : Word
  /-- v0-v31 (R7); quad m of the block holds bytes 64m to 64m + 63. -/
  v : Vector (BitVec 4096) 32
  /-- The header sideband (R45), 64 bytes for each register. -/
  hdr : Vector (BitVec 512) 32
  k : Vector (BitVec 4096) 8
  q : Vector (List Word) 8
  z : Vector (Option ZReg) 8
  f : Vector Word 8
  vr : VRegs
  fl : FlagRegs
  tr : TrapRegs
  /-- MGRANT (R26, R199). -/
  mgrant : BitVec 17
  quads : Quads
  skipd : Word
  mhb : Word
  mhctl : Word
  vs : VStream
  /-- The element at which a word fetched at this PC restarts, with the queue value kept for it (R23, R141). -/
  restart : Option (Word × Nat × Option Word)
  win : Option Window
  ssb : List SsbEntry
  psf : Vector (List PsfEntry) 8
  cpf : Vector (List Packet) 4
  tk : TaskRegs
  sc : Sched
  /-- The addresses of stores that could not perform, oldest first, with the causes that the hart has yet to take: OWNER_LOST for a lost
  word (R308), ECC past the time of a link that is down (R361, R383). -/
  lostStores : List (Nat × Cause)
  /-- The number the hart had when its fault record was posted, which the record names (R337, R339). -/
  faultHart : Nat
  /-- The reply to an atomic that was cut into messages (R296). -/
  atomReply : Option Word
  /-- What a `py.ld` that has taken its snapshot has still to store, and its status (R246). -/
  snap : Option (Word × List (Nat × Nat × Word))
  /-- The synchronisation-interval number of the race detector (R390). -/
  interval : Nat
  watch : List Watchpoint
  debug : Bool
  deriving DecidableEq, Repr

/-- A tile's class pair with its two format snapshots (R205). -/
structure Pair where
  a : BitVec 5
  b : BitVec 5
  fa : Word
  fb : Word
  deriving DecidableEq, Repr

/-- What a task holds on a core (R198): its tiles, side arrays, class pairs, slots and their sidebands, the claims, the
rows whose parity failed (R383), its scratchpad allocations, and its quad reserve (R260), one bit a quad. -/
structure Place where
  task : Nat
  core : Nat
  tiles : Nat
  slots : Nat
  /-- Key 8192 x tile + 64 x row + column; default 0. -/
  tile : Sparse (BitVec 32)
  /-- Key 128 x tile + row; words m, r, s_hi, s_lo from bit 0 up; default `sideInit`. -/
  side : Sparse (BitVec 128)
  /-- Key tile; default BF16 and BF16. -/
  pair : Sparse Pair
  /-- Key 8192 x slot + 128 x row + byte; default 0. -/
  slot : Sparse Byte
  /-- Key 1024 x slot + 16 x row + byte; default 0. -/
  shdr : Sparse Byte
  /-- The hart that claims each slot. -/
  claims : List (Nat × Nat)
  badRows : List Nat
  /-- Key 64 x slot + row: operand rows whose data have an uncorrectable error. -/
  badSlots : List Nat
  spad : List (Nat × Nat)
  reserve : BitVec 8
  /-- The core's physical tiles and operand slots that the task sees as t0, t1, … and o0, o1, … (R198); an empty list numbers them as they are. -/
  tileMap : List Nat := []
  slotMap : List Nat := []
  deriving DecidableEq, Repr

/-- A line of the L1's general ways (R277): per word valid, registered, dirty and poisoned (R308). -/
structure L1Line where
  line : Nat
  data : BitVec 512
  valid : BitVec 16
  reg : BitVec 16
  dirty : BitVec 16
  poison : BitVec 16
  deriving DecidableEq, Repr

/-- A translation in a TLB (R343), tagged by partition and context: the page's first address, the entry and the log of the
page size. -/
structure TlbEntry where
  part : Nat
  ctx : Nat
  vpage : Nat
  logSize : Nat
  entry : Word
  deriving DecidableEq, Repr

/-- A core (R4, R277, R278, R59, R343, R219, R388, R389). -/
structure Core where
  id : Nat
  l1 : List L1Line
  /-- The read-only ways (R278): lines, their data, and the words with an uncorrectable error (R383). -/
  ro : List (Nat × BitVec 512 × BitVec 16)
  /-- Words in the instruction cache, by physical address (R59). -/
  icache : List (Nat × IWord)
  tlb : List TlbEntry
  slotTab : BitVec 32
  slot : Nat
  /-- The contexts that hold tiles or slots here, longest first (R219). -/
  ctxs : List (Nat × Nat)
  /-- The hart for which freed quads are held (R135). -/
  reserved : Option Nat
  /-- Quads under test or retired, and those that are retired (R388, R389). -/
  outQuads : BitVec 8
  deadQuads : BitVec 8
  /-- Under test, or retired and fenced off (R388, R389). -/
  out : Bool
  fenced : Bool
  deriving DecidableEq, Repr

/-- The state of a word at its home (R292). -/
inductive WState where
  | unreg | core (n : Nat) | engine (e : Nat) | lost
  deriving DecidableEq, Repr

/-- The messages of R293. -/
inductive MsgKind where
  | rd | rdv | reg | wrv | atom | ereg | ewr | gnt | xfer | fwd | nakl | collect | claim | wb | xack | fack | part | claimr
  deriving DecidableEq, Repr

/-- A message in flight (R293). Agents: cores and engine ids of R291, harts as 4096 + hart, homes as 65536 + slice, the
host port as 8191. `words` is the word mask, `bytes` the byte mask of a WRV, `dirty` the words whose data the message carries as dirty,
`poison` those it reports poisoned, `aux` what the kind needs besides (an atomic's address and codes, a hart; the reason of an XFER: 0
transfer, 1 deregistration, 2 recall, 3 collection; in an answer, the words asked for). -/
structure Msg where
  kind : MsgKind
  sender : Nat
  target : Nat
  part : Nat
  line : Nat
  words : BitVec 16
  bytes : BitVec 64
  data : BitVec 512
  dirty : BitVec 16
  poison : BitVec 16
  aux : Nat
  aux2 : Nat
  deriving DecidableEq, Repr

/-- A request that a home serves (R295, R296, R303), or a recall, which is of kind XFER (R299, R300): the words it keeps busy, whether it collects partials, the
agents whose answers are awaited, and what they gave. -/
structure Serve where
  req : Msg
  words : BitVec 16
  collects : Bool
  awaiting : List Nat
  gathered : List (Nat × BitVec 16 × BitVec 512)
  deriving DecidableEq, Repr

/-- A line of the registration table whose words are not all unregistered, or that is busy, locked or waited on (R290,
R292): the word states, the busy words, the lock of R309, the requests served (R295), and the claims of a sweep (R309). -/
structure HomeLine where
  line : Nat
  words : Vector WState 16
  busy : BitVec 16
  locked : Bool
  serving : List Serve
  awaiting : List Nat
  gathered : List (Nat × BitVec 16 × BitVec 512)
  deriving DecidableEq, Repr

/-- A commutative range (R184): its task, number, address, length, operation, element width and class, and the physical
segments (first address, length) it maps. -/
structure CRange where
  part : Nat
  task : Nat
  rng : Nat
  va : Nat
  len : Nat
  op : BitVec 2
  ew : Nat
  cls : Nat
  segs : List (Nat × Nat)
  deriving DecidableEq, Repr

/-- A line of a combine buffer (R305, R306): a partial of a declared range, or an undeclared copy with the harts that
modified it. -/
structure CombLine where
  cluster : Nat
  part : Nat
  line : Nat
  partialLine : Bool
  data : BitVec 512
  words : BitVec 16
  mods : List Nat
  deriving DecidableEq, Repr

/-- An entry of a controller's write queue (R280). -/
structure WqEntry where
  chan : Nat
  line : Nat
  mask : BitVec 64
  data : BitVec 512
  deriving DecidableEq, Repr

/-- Who made a remote write: a hart's own store, its `tk.drain`, a runner copy with its token, or the host. -/
inductive EgressSrc where
  | store | drain | copy (token : Nat) | host
  deriving DecidableEq, Repr

/-- A remote write in a link egress queue (R281), with the task, the hart and the activity that made it. -/
structure EgressEntry where
  module : Nat
  task : Nat
  hart : Nat
  src : EgressSrc
  va : Nat
  bytes : List (Nat × Byte)
  deriving DecidableEq, Repr

/-- The last writer of a 32-byte granule (R390): hart, partition, interval number, and the place of the write in the log of releases
and acquires. -/
structure Shadow where
  granule : Nat
  writer : Nat
  part : Nat
  interval : Nat
  at_ : Nat
  atomic : Bool
  deriving DecidableEq, Repr

/-- A release or acquire while the race detector is armed (R390). -/
structure SyncEvent where
  hart : Nat
  part : Nat
  release : Bool
  scope : Scope
  deriving DecidableEq, Repr

/-- A monitor on a line: a hart in `wfe` (R126), or 65536 + 16 x partition + queue for a start counter (R326). -/
structure Monitor where
  who : Nat
  line : Nat
  hit : Bool
  deriving DecidableEq, Repr

/-- A record whose class is pending, the structure under test, and the place of the error within its unit where the record has no
physical address (R387, R388). -/
structure PendingTest where
  er : BitVec 256
  what : Tested
  place : Nat
  deriving DecidableEq, Repr

/-- The homes, messages, links, ranges, combine buffers, controllers and links to other modules (R280 to R310, R361). -/
structure Coh where
  homes : List HomeLine
  /-- Lines with a split entry, oldest first (R290, R300). -/
  split : List Nat
  net : List Msg
  /-- Links of `vgll`: (hart, line), oldest first (R177). -/
  links : List (Nat × Nat)
  ranges : List CRange
  comb : List CombLine
  wq : List WqEntry
  /-- Channels in drain mode (R280). -/
  draining : List Nat
  egress : List EgressEntry
  /-- Modules whose link is down (R361), those to which an access has waited its 65,536 cycles (R361), and links that are
  retraining, with 32 x the flit that a link replays + the replays of it (R383). -/
  down : List Nat
  expired : List Nat
  retrain : List Nat
  replays : Sparse Nat
  /-- Keys of words with an uncorrectable error (R383), and of blocks poisoned by a failed guard check (R189). -/
  poison : List Nat
  guardBad : List Nat
  /-- DRAM channels retired until the next boot, and those removed from their tier since; SRAM rows fenced off without a spare, as unit,
  WHERE and place, and columns, as unit + 16 (R389). -/
  dead : List Nat
  gone : List Nat
  deadRows : List (Nat × Nat × Nat)
  shadow : List Shadow
  syncs : List SyncEvent
  monitors : List Monitor
  deriving DecidableEq, Repr

/-- How far a copy has come (R186 to R190, R301, R386): registering its words, waiting for the global pause, running, frozen, or ended with the status
of R188. -/
inductive CopyState where
  | registering | waiting | running | frozen | ended (status : Word)
  deriving DecidableEq, Repr

/-- A runner copy (R186): its hart, token, the core whose runner it is, task and translation context, the descriptor, whether it is guarded and final, the
barrier, the elements delivered, the version (R384), a fault met, and the words that it holds registered, by line (R301). -/
structure Copy where
  hart : Nat
  token : Nat
  core : Nat
  task : Nat
  part : Nat
  ctx : Nat
  desc : BitVec 1024
  guarded : Bool
  final : Bool
  barrier : Option Nat
  done : Nat
  version : Nat
  fault : Option Nat
  state : CopyState
  regs : List (Nat × BitVec 16) := []
  deriving DecidableEq, Repr

/-- A term of a query plan (R225) with the descriptor of its list (R221). -/
structure Term where
  slot : Nat
  list : BitVec 256
  w : BitVec 32
  grp : BitVec 4
  deriving DecidableEq, Repr

/-- Where a run stands in the list of a term (R231): the next block, and of the block last decoded its address, BMAX, FIRST and
LAST, and the postings (id, tf) not yet visited. -/
structure Cursor where
  slot : Nat
  next : Nat
  addr : Nat
  bmax : Nat
  first : Nat
  last : Nat
  ids : List (Nat × Nat)
  deriving DecidableEq, Repr

/-- The blocks a probe has decoded, by slot and number: their postings. -/
abbrev Decoded := List ((Nat × Nat) × List (Nat × Nat))

/-- A run or probe in progress (R231, R232): the hart that started it, the id below which every document is passed (R229), the cursors, the
blocks that a probe has decoded, and the documents whose entries stood when it began. -/
structure Run where
  probe : Bool
  hart : Nat
  floor : Nat
  curs : List Cursor
  decoded : Decoded
  stood : List (BitVec 32)
  deriving DecidableEq, Repr

/-- A riddle session (R224, R230, R233). -/
structure Session where
  cluster : Nat
  id : Nat
  task : Nat
  part : Nat
  ctx : Nat
  list : Option Nat
  plan : BitVec 512
  terms : List Term
  run : Option Run
  failed : Bool
  malformed : Bool
  cause : Nat
  blocks : Nat
  faultAddr : Nat
  inserted : Nat
  pruned : Nat
  deriving DecidableEq, Repr

/-- The lexical state of an entry (R234). -/
inductive Lex where
  | none | matched | unmatched
  deriving DecidableEq, Repr

/-- An entry of a skimmer list (R234). -/
structure SkEntry where
  doc : BitVec 32
  lex : Lex
  score : BitVec 32
  vec : Option (BitVec 32)
  deriving DecidableEq, Repr

/-- A skimmer list (R234 to R241): capacity, results kept, a raised threshold, the fusion rule (R240) and the entries. -/
structure SkList where
  cluster : Nat
  id : Nat
  task : Nat
  cap : Nat
  keep : Nat
  raised : Option (BitVec 32)
  rank : Bool
  kr : BitVec 16
  alpha : BitVec 32
  beta : BitVec 32
  entries : List SkEntry
  refused : Nat
  deriving DecidableEq, Repr

/-- A registered combiner (R250). -/
structure Combiner where
  part : Nat
  id : Nat
  words : List IWord
  deriving DecidableEq, Repr

/-- What an anneal unit does on a stream (R368, R369): a merge at a level with the body it began with (R250) and the place and length of
the entry it writes, whose words it holds registered (R301), or a discard. -/
inductive AnnealOp where
  | merge (level : Nat) (body : List IWord) (off len : Nat)
  | discard
  deriving DecidableEq, Repr

/-- A defined stream (R366): the partition, the physical address of its header, the bytes of its region and their physical pages by
4 KiB block, the operation in progress, and the level of an abandoned merge to retry (R373). Header and rings are memory. -/
structure Stream where
  part : Nat
  base : Nat
  size : Nat
  pages : List Nat
  op : Option AnnealOp
  retry : Option Nat
  deriving DecidableEq, Repr

/-- The engines (07, 09, 19, 21): copies, the version clock and the global pause (R386), sessions, lists, combiners,
streams, and the header each anneal unit served last (R377). -/
structure Engines where
  copies : List Copy
  clock : Nat
  paused : Bool
  sessions : List Session
  lists : List SkList
  combiners : List Combiner
  streams : List Stream
  served : Sparse Nat
  deriving DecidableEq, Repr

/-- An entry of a launch queue (R322, R323): the record and the descriptor as read, the context, and the physical
addresses found. -/
structure QEntry where
  record : BitVec 512
  desc : BitVec 512
  ctx : Nat
  kpa : Nat
  wloc : Loc
  dloc : Loc
  eligible : Bool
  deriving DecidableEq, Repr

/-- A group of a task (R261): members, phase, and the members that have arrived at it. -/
structure Group where
  num : Nat
  members : List Nat
  phase : Nat
  arrived : List Nat
  deriving DecidableEq, Repr

/-- Where a task is in its life (17): running, being pre-empted, saved, placed again but not yet restored. -/
inductive Phase where
  | running | preempting | saved | restoring
  deriving DecidableEq, Repr

/-- A task (R321, R328, R261). `halted` holds the indices of its harts that have halted. -/
structure Task where
  id : Nat
  part : Nat
  entry : QEntry
  phase : Phase
  groups : List Group
  halted : List Nat
  started : Nat
  ending : Bool
  deriving DecidableEq, Repr

/-- The parts of a task that a save has written (R334): harts, places, and the sessions and lists moved (R394). The bytes
of a save lie in the partition's save area; `base` and `size` give its slot there, `parts` each core's offset and length in the slot, and
`marks` the number of the free values that each core's save wrote (log entry 34). -/
structure SaveSlot where
  task : Nat
  base : Nat
  size : Nat
  harts : List Hart
  places : List Place
  spad : List (Nat × List (Nat × Byte))
  sessions : List Session
  lists : List SkList
  saving : List Nat
  parts : List (Nat × Nat × Nat)
  marks : List (Nat × Nat)
  deriving DecidableEq, Repr

/-- A partition (R347) and what the supervisor set for it (R358): clusters, ranges in GiB, context roots, the vector map,
the save area, the guard table, the window binding, the race detector, the peer
table; its fault queue (R356) with the harts that wait for room; its launch queues, resume lists and round-robin places
(R325, R327); the launches submitted through its window (R354); and the fatal error of R309. -/
structure Partition where
  id : Nat
  clusters : BitVec 160
  stacked : Nat × Nat
  lpddr : Nat × Nat
  roots : Sparse Nat
  /-- Key 65,536 x context + index; default 0, an invalid entry (R344). -/
  vmap : Sparse Word
  saveArea : Nat × Nat
  saveOpen : Bool
  guardTab : Option Nat
  winCtx : Nat
  winBase : Nat
  race : Nat
  peers : List Nat
  faults : List (BitVec 256)
  faultWait : List (BitVec 256)
  queues : Vector (List QEntry) 16
  resume : Vector (List Nat) 4
  lastQueue : Vector (Option Nat) 4
  keyWait : Bool
  fatal : Bool
  deriving DecidableEq, Repr

/-- A posted request (R359), outstanding until it is answered. -/
structure Post where
  seq : Nat
  kind : Nat
  part : Nat
  id : Nat
  words : List IWord
  popped : Bool
  verdict : Option (Nat × Nat)
  deriving DecidableEq, Repr

/-- The device's boot and identity (R391, R392, R393): the firmware identity, where the firmware began, whether it runs, and whether it has
created a partition, so that its steps are done; the step begun and not done, and those whose alternative was taken; the image last accepted,
kept in flash; whether the device stopped, and whether the boot source is the host port. -/
structure Boot where
  identity : Option (BitVec 512)
  entry : Word
  running : Bool
  complete : Bool
  begun : Option Nat
  alternatives : List Nat
  accepted : Option Nat
  stopped : Bool
  bootHost : Bool
  deriving DecidableEq, Repr

/-- A host access, a command or a launch of a window, or a request of another module that waits for those before it (R354, R355, R357,
R359). -/
inductive HostAccess where
  | write (off len : Nat) (w : BitVec 512)
  | read (off len : Nat)
  | save (off : Nat) (wr : Option (BitVec 64))
  | submit (part slot : Nat)
  | command (slot : Nat)
  | remote (module pa : Nat) (op : RemoteOp)
  deriving DecidableEq, Repr

/-- The launch, supervisor and host side (17, 18, 21). -/
structure Sys where
  parts : List Partition
  shared : (Nat × Nat) × (Nat × Nat)
  tasks : List Task
  saves : List SaveSlot
  nextTask : Nat
  /-- Window slots: key 512 x window + slot; default 0 (R354, R357). -/
  slots : Sparse (BitVec 512)
  /-- The status of SUBMIT and CMDSUBMIT by window (R354, R357). -/
  status : Sparse Nat
  /-- BUF (R357). -/
  buf : Sparse Byte
  posts : List Post
  nextSeq : Nat
  events : List (BitVec 256)
  errors : List (BitVec 256)
  errorsLost : Nat
  /-- Corrected errors by location, with their times (R388). -/
  corrected : List (Nat × Nat)
  repair : List (BitVec 128)
  keys : List (Nat × BitVec 512)
  /-- Ranges of GiB given a fresh key, the latest first, each with its number (R350). -/
  pads : List ((Nat × Nat) × Nat)
  hostKey : Option (BitVec 256)
  hostErrors : Bool
  /-- The modes of R393 that belong to a partition, key 3 x partition + function (0 page faults, 1 combiner admission, 2 key
  loading); default 0, hardware (R358). -/
  modes : Sparse Nat
  /-- Records whose class is pending, with the structure under test (R388, R393). -/
  pending : List PendingTest
  /-- Every record reported for a structure that is tested, so that a retirement finds those of the structure (R388). -/
  tested : List PendingTest
  boot : Boot
  /-- What waits, in the order it came, each with its order: 0 memory through BAR 4 and BAR 2 (R355), 1 CMDSUBMIT (R357), 2 + p SUBMIT
  of partition p (R354), 16 + m requests of module m (R361). -/
  waiting : List (Nat × HostAccess)
  /-- The bytes the last host read returned, and whether it was refused (R355). -/
  hostOut : List Byte
  hostRefused : Bool
  deriving DecidableEq, Repr

/-- The model's own fields, not the spec's (log entry 1): the device steps that the next steps take; the harts that hold an
issue opportunity; for each coming opportunity, whether the vector stream lags behind; the queue entry that the vector
stream issues in this step; whether memory transactions are cut into their messages; the counter of the free values; the cycle count; the
count of steps in which the machine chose what comes next by itself; whether a host access that waited is tried again. -/
structure Env where
  inputs : List Instr
  opps : List Nat
  lag : List Bool
  issue : Option VEntry
  cut : Bool
  free : Nat
  cycle : Nat
  turn : Nat
  again : Bool
  deriving DecidableEq, Repr

/-- The state: the hart whose turn it is, the other harts, what tasks hold on cores, the cores, memory, coherence, the
engines, the system, and the model's own fields. -/
structure State where
  hart : Hart
  others : List Hart
  places : List Place
  cores : List Core
  /-- One canonical list of (key, byte): no entry is 0, what an unlisted byte reads as (log entry 2). -/
  mem : List Host.Cell
  coh : Coh
  eng : Engines
  sys : Sys
  env : Env
  deriving DecidableEq, Repr

/-- An empty slot's hart: the task-start values of R4 (log entry 5). -/
def Hart.empty (id : Nat) : Hart :=
  { id := id, status := .empty, wait := none, x := Vector.replicate 32 0, pc := 0
    v := Vector.replicate 32 0, hdr := Vector.replicate 32 0, k := Vector.replicate 8 0
    q := Vector.replicate 8 [], z := Vector.replicate 8 none, f := Vector.replicate 8 0
    vr := { vtype := 0, vl := 0, cbits := 8, quads := 0, pending := false }
    fl := { flags := 0, eix := Vector.replicate 6 0xFFFF, epc := Vector.replicate 6 0 }
    tr := { tvec := 0, tcause := 0, tval := 0, tpc := 0, eri := 0, tnpc := 0 }
    mgrant := 0, quads := { count := 0, first := 0 }, skipd := 0, mhb := 0, mhctl := 0
    vs := { vq := [], parked := [], trapped := none, loop := none, parkedLoop := none, conv := .fresh, blocked := false
            mopStep := 0, lines := [] }
    restart := none, win := none, ssb := [], psf := Vector.replicate 8 [], cpf := Vector.replicate 4 []
    tk := { task := 0, part := 0, ctx := 0, index := 0, count := 0, isChild := false, gmem := 0, share := 1
            parent := none, children := [], arrived := none }
    sc := { vtime := 0, age := 0, wasReady := false, ready := false, qtime := 0, yieldLeft := 0, yielded := [] }
    lostStores := [], faultHart := 0, atomReply := none, snap := none, interval := 0, watch := [], debug := false }

/-- The state after reset: no hart is placed, no partition is defined, and the boot ROM has not run (R391). -/
def State.reset : State :=
  { hart := Hart.empty 0, others := [], places := [], cores := [], mem := []
    coh := { homes := [], split := [], net := [], links := [], ranges := [], comb := [], wq := [], draining := []
             egress := [], down := [], expired := [], retrain := [], replays := [], poison := [], guardBad := [], dead := [], gone := [], deadRows := [], shadow := []
             syncs := [], monitors := [] }
    eng := { copies := [], clock := 0, paused := false, sessions := [], lists := [], combiners := [], streams := []
             served := [] }
    sys := { parts := [], shared := ((0, 0), (0, 0)), tasks := [], saves := [], nextTask := 1, slots := [], status := []
             buf := [], posts := [], nextSeq := 0, events := [], errors := [], errorsLost := 0, corrected := []
             repair := [], keys := [], pads := [], hostKey := none, hostErrors := false, modes := [], pending := [], tested := []
             boot := { identity := none, entry := 0, running := false, complete := false, begun := none, alternatives := [], accepted := none, stopped := false
                       bootHost := false }
             waiting := [], hostOut := [], hostRefused := false }
    env := { inputs := [], opps := [], lag := [], issue := none, cut := false, free := 0, cycle := 0, turn := 0, again := false } }

end Sys2Proof.Machine
end

