-- ==== Sys2Proof/Machine/Ops.lean ====
section
/-! DEFINITION. The named operations over registers and memory that the meanings share: bit fields and extensions (R57),
the canonical sparse lists and memory, the registers of a hart, taking a trap and returning from one (R23, R24). -/
namespace Sys2Proof.Machine

/-- The outcome of a step. -/
abbrev Out := Host.Outcome State Fault Refusal

/-! ### Bits and bytes -/

/-- `n` bytes of a record from byte `off` up, little-endian (R57). -/
def bytesAt {m : Nat} (w : BitVec m) (off n : Nat) : Nat := w.toNat / 2 ^ (8 * off) % 2 ^ (8 * n)

/-- Bits `hi` down to `lo` of a number. -/
def bitsOf (w hi lo : Nat) : Nat := w / 2 ^ lo % 2 ^ (hi + 1 - lo)

/-- `sext(x, w)` of R57 as a 64-bit word. -/
def sextW (x w : Nat) : Word :=
  let y := x % 2 ^ w
  if w = 0 then 0 else if y < 2 ^ (w - 1) then BitVec.ofNat 64 y else BitVec.ofInt 64 ((y : Int) - 2 ^ w)

/-- `sext(x, w)` as an integer (R57). -/
def sextI (x w : Nat) : Int :=
  let y := x % 2 ^ w
  if w = 0 then 0 else if y < 2 ^ (w - 1) then y else (y : Int) - 2 ^ w

/-- The XOR of the lowest fields of `w` bits each. -/
def foldFields (v w : Nat) : Nat → Nat
  | 0 => 0
  | n + 1 => (v % 2 ^ w) ^^^ foldFields (v / 2 ^ w) w n

/-- `fold(v, w)` of R274: the XOR of the consecutive w-bit fields of v. -/
def fold (v w : Nat) : Nat := foldFields v w 48

/-- Rounded up to a multiple of `k`. -/
def ceilDiv (n k : Nat) : Nat := (n + k - 1) / k

/-- `f 0`, …, `f (n - 1)` joined, `w` bits each, the first lowest. -/
def joinNat (w : Nat) (f : Nat → Nat) : Nat → Nat
  | 0 => 0
  | n + 1 => joinNat w f n + (f n % 2 ^ w) * 2 ^ (w * n)

/-- The bytes of a number, the lowest first (R57). -/
def natBytes : Nat → Nat → List Byte
  | 0, _ => []
  | n + 1, v => BitVec.ofNat 8 v :: natBytes n (v / 256)

/-- The number of little-endian bytes (R57). -/
def bytesNat : List Byte → Nat
  | [] => 0
  | b :: r => b.toNat + 256 * bytesNat r

/-! ### Sparse lists -/

/-- The value at a key. -/
def Sparse.get {α : Type} (d : α) : Sparse α → Nat → α
  | [], _ => d
  | (k, v) :: r, i => if i = k then v else if i < k then d else Sparse.get d r i

/-- Put a value at the front of the tail of a list, unless it is the default. -/
def Sparse.cons {α : Type} [DecidableEq α] (d : α) (i : Nat) (v : α) (r : Sparse α) : Sparse α :=
  if v = d then r else (i, v) :: r

/-- Write a value at a key, keeping the canonical form. -/
def Sparse.put {α : Type} [DecidableEq α] (d : α) : Sparse α → Nat → α → Sparse α
  | [], i, v => Sparse.cons d i v []
  | (k, w) :: r, i, v =>
    if i < k then Sparse.cons d i v ((k, w) :: r)
    else if i = k then Sparse.cons d i v r
    else (k, w) :: Sparse.put d r i v

/-- Keys strictly rise, from `lo` on. -/
def Sparse.above {α : Type} (lo : Nat) : Sparse α → Bool
  | [] => true
  | (k, _) :: r => decide (lo ≤ k) && Sparse.above (k + 1) r

/-- The canonical form: keys strictly rise, and no entry holds the default. -/
def Sparse.wf {α : Type} [DecidableEq α] (d : α) (m : Sparse α) : Bool :=
  Sparse.above 0 m && m.all (fun e => decide (e.2 ≠ d))

/-- Change the values at `n` keys from `k` up of a list whose keys are at least `k`. -/
def Sparse.walk {α : Type} [DecidableEq α] (d : α) (f : Nat → α → α) (k : Nat) : Nat → Sparse α → Sparse α
  | 0, m => m
  | n + 1, [] => Sparse.cons d k (f k d) (Sparse.walk d f (k + 1) n [])
  | n + 1, (j, v) :: r =>
    if j = k then Sparse.cons d k (f k v) (Sparse.walk d f (k + 1) n r)
    else Sparse.cons d k (f k d) (Sparse.walk d f (k + 1) n ((j, v) :: r))

/-- Change the values at `n` keys from `lo` up, keeping the canonical form. -/
def Sparse.mapRange {α : Type} [DecidableEq α] (d : α) (f : Nat → α → α) (lo n : Nat) : Sparse α → Sparse α
  | [] => Sparse.walk d f lo n []
  | (j, v) :: r => if j < lo then (j, v) :: Sparse.mapRange d f lo n r else Sparse.walk d f lo n ((j, v) :: r)

/-- The values at `n` keys from `k` up. -/
def Sparse.readRange {α : Type} (d : α) (k : Nat) : Nat → Sparse α → List α
  | 0, _ => []
  | n + 1, m =>
    match m.dropWhile (fun e => decide (e.1 < k)) with
    | [] => List.replicate (n + 1) d
    | (j, v) :: r => if j = k then v :: Sparse.readRange d (k + 1) n r else d :: Sparse.readRange d (k + 1) n ((j, v) :: r)

/-! ### Memory -/

/-- What an unlisted byte reads as (log entry 2). -/
def memDefault : Byte := 0

/-- The canonical form of memory. -/
abbrev Memory.wf (m : List Host.Cell) : Bool := Sparse.wf memDefault m

/-- The key of a byte of stacked DRAM or LPDDR6: PA[47:0] (R31, R348). -/
def dramKey (pa : Nat) : Nat := pa % 2 ^ 48
/-- The key of a scratchpad byte (R276). -/
def spadKey (core off : Nat) : Nat := 2 ^ 48 + core * 2 ^ 21 + off % 2 ^ 21
/-- The key of a byte of another module (R361). -/
def remoteKey (module pa : Nat) : Nat := 2 ^ 52 * (1 + module) + pa % 2 ^ 52

/-- A range of GiB holds an address (R348). -/
def inGib (r : Nat × Nat) (pa : Nat) : Bool := decide (r.1 ≤ pa / 2 ^ 30) && decide (pa / 2 ^ 30 < r.1 + r.2)

/-- By what a byte of DRAM differs from what is stored for it: nothing, until its range is given a fresh key, then a free value, for it is
another plaintext (R350; log entry 130). -/
def padOf (pads : List ((Nat × Nat) × Nat)) (key : Nat) : Byte :=
  if 2 ^ 48 ≤ key then 0
  else match pads.find? fun x => inGib x.1 key with
    | none => 0
    | some x => Config.staleByte (2 ^ 48 * x.2 + key)

/-- One byte of memory. -/
def State.byte (s : State) (key : Nat) : Byte := Sparse.get memDefault s.mem key ^^^ padOf s.sys.pads key

/-- Write one byte. -/
def memPut (m : List Host.Cell) (key : Nat) (b : Byte) : List Host.Cell := Sparse.put memDefault m key b

/-- Consecutive bytes as they are stored (R350). -/
def storedBytes (pads : List ((Nat × Nat) × Nat)) : Nat → List Byte → List Byte
  | _, [] => []
  | k, b :: r => (b ^^^ padOf pads k) :: storedBytes pads (k + 1) r

/-- Write consecutive bytes. -/
def memPutBytes : List Host.Cell → Nat → List Byte → List Host.Cell
  | m, _, [] => m
  | m, k, b :: r => memPutBytes (memPut m k b) (k + 1) r

/-- `n` bytes from `key` up, as a number (R57). -/
def State.memNat (s : State) (key : Nat) : Nat → Nat
  | 0 => 0
  | n + 1 => (s.byte key).toNat + 256 * s.memNat (key + 1) n

/-- Write the low `n` bytes of a number. -/
def State.putNat (s : State) (key n v : Nat) : State := { s with mem := memPutBytes s.mem key (storedBytes s.sys.pads key (natBytes n v)) }

/-! ### Lists of records -/

/-- Replace every element that satisfies `p`. -/
def updIf {α : Type} (p : α → Bool) (f : α → α) (l : List α) : List α := l.map fun a => if p a then f a else a

/-- Drop the first element that satisfies `p`. -/
def dropFirst {α : Type} (p : α → Bool) : List α → List α
  | [] => []
  | a :: r => if p a then r else a :: dropFirst p r

/-- Replace the first element that satisfies `p`, or add `new` at the end. -/
def putFirst {α : Type} (p : α → Bool) (new : α) : List α → List α
  | [] => [new]
  | a :: r => if p a then new :: r else a :: putFirst p new r

/-- Insert before the first element that is not before it. -/
def insertBy {α : Type} (before : α → α → Bool) (a : α) : List α → List α
  | [] => [a]
  | b :: r => if before b a then b :: insertBy before a r else a :: b :: r

/-- A list in the order of `before`; equal elements keep their places. -/
def sortBy {α : Type} (before : α → α → Bool) : List α → List α
  | [] => []
  | a :: r => insertBy before a (sortBy before r)

/-- `0, …, n - 1`. -/
abbrev upTo (n : Nat) : List Nat := List.range n

/-! ### Registers of a hart -/

/-- The core of a hart (R26). -/
def Hart.core (h : Hart) : Nat := h.id / 8
/-- Its slot. -/
def Hart.slot (h : Hart) : Nat := h.id % 8
/-- The cluster of a core: four cores (R3). -/
def clusterOf (core : Nat) : Nat := core / 4
/-- The cluster of a hart. -/
def Hart.cluster (h : Hart) : Nat := clusterOf h.core
/-- HARTID of a hart number (R26). -/
def hartIdOf (id : Nat) : Nat := id % 2 ^ 13 + clusterOf (id / 8) * 2 ^ 13

/-- x[r] (R5). -/
def Hart.get (h : Hart) (r : Reg) : Word := if r = 0#5 then 0 else h.x.get r.toFin
/-- x[r] := w; x0 ignores writes (R5). -/
def Hart.set (h : Hart) (r : Reg) (w : Word) : Hart :=
  if r = 0#5 then h else { h with x := Vector.set h.x r.toNat w r.isLt }

/-- The hart returns its tile rows: g := 0; SKB stays (R203, R217). -/
def Hart.detach (h : Hart) : Hart := { h with mgrant := h.mgrant &&& 0x10000#17 }

/-- x[r] of the hart whose turn it is. -/
def State.get (s : State) (r : Reg) : Word := s.hart.get r
/-- Change the hart whose turn it is. -/
def State.onHart (s : State) (f : Hart → Hart) : State := { s with hart := f s.hart }
/-- x[r] := w of the hart whose turn it is. -/
def State.set (s : State) (r : Reg) (w : Word) : State := s.onHart (·.set r w)

/-- The next instruction is at `npc`; `c` tells the convoy bit how it is reached (R77, R123). -/
def Hart.goto (h : Hart) (npc : Word) (c : Convoy) : Hart :=
  { h with pc := npc, wait := none, restart := none, vs := { h.vs with conv := c } }

/-- A scalar instruction retires: PC + 4 (chapter 05). -/
def State.advance (s : State) : State := s.onHart fun h => h.goto (h.pc + 4) .other
/-- The hart goes to a target, whose CV bit reads 0 (R77, R123). -/
def State.jump (s : State) (npc : Word) : State := s.onHart fun h => h.goto npc .fresh

/-- The hart waits at this instruction, which runs again later (R139, R269). -/
def State.waitFor (s : State) (w : Wait) : State := s.onHart fun h => { h with wait := some w }

/-- Write x[d] and retire. -/
def State.result (s : State) (d : Reg) (w : Word) : Out := .next (s.set d w).advance

/-! ### Harts, places, cores, tasks, partitions -/

/-- The hart with a number. -/
def State.hartAt (s : State) (id : Nat) : Option Hart :=
  if s.hart.id = id then some s.hart else s.others.find? (·.id == id)

/-- Change the hart with a number. -/
def State.onHartAt (s : State) (id : Nat) (f : Hart → Hart) : State :=
  if s.hart.id = id then { s with hart := f s.hart }
  else { s with others := updIf (·.id == id) f s.others }

/-- Every hart. -/
def State.harts (s : State) : List Hart := s.hart :: s.others

/-- Change every hart that satisfies `p`. -/
def State.onHarts (s : State) (p : Hart → Bool) (f : Hart → Hart) : State :=
  { s with hart := if p s.hart then f s.hart else s.hart, others := updIf p f s.others }

/-- Make the hart with a number the one whose turn it is; no change if there is none. -/
def State.turnTo (s : State) (id : Nat) : State :=
  if s.hart.id = id then s
  else match s.others.find? (·.id == id) with
    | none => s
    | some h => { s with hart := h, others := s.hart :: s.others.filter (fun g => g.id != id) }

/-- A core that nothing has touched (log entry 5). -/
def Core.empty (id : Nat) : Core :=
  { id := id, l1 := [], ro := [], icache := [], tlb := [], slotTab := 0, slot := 0, ctxs := [], reserved := none
    outQuads := 0, deadQuads := 0, out := false, fenced := false }

/-- The core with a number. -/
def State.coreAt (s : State) (id : Nat) : Core := (s.cores.find? (·.id == id)).getD (Core.empty id)
/-- Change a core. -/
def State.onCore (s : State) (id : Nat) (f : Core → Core) : State :=
  { s with cores := putFirst (·.id == id) (f (s.coreAt id)) s.cores }

/-- What a task holds on a core. -/
def State.placeAt (s : State) (task core : Nat) : Option Place :=
  s.places.find? fun p => p.task == task && p.core == core
/-- Change it. -/
def State.onPlace (s : State) (task core : Nat) (f : Place → Place) : State :=
  { s with places := updIf (fun p => p.task == task && p.core == core) f s.places }
/-- The place of a hart. -/
def State.placeOf (s : State) (h : Hart) : Option Place := s.placeAt h.tk.task h.core

/-- The core's tile and slot behind a task's (R198). -/
def Place.physTile (p : Place) (t : Nat) : Nat := p.tileMap.getD t t
def Place.physSlot (p : Place) (o : Nat) : Nat := p.slotMap.getD o o
/-- The core's row, 128 x tile + row of an accumulator or 64 x slot + row of the operand memory, behind a task's. -/
def Place.physRow (p : Place) (n : Nat) : Nat := 128 * p.physTile (n / 128) + n % 128
def Place.physSlotRow (p : Place) (n : Nat) : Nat := 64 * p.physSlot (n / 64) + n % 64

/-- The task with a number. -/
def State.taskAt (s : State) (id : Nat) : Option Task := s.sys.tasks.find? (·.id == id)
/-- Change a task. -/
def State.onTask (s : State) (id : Nat) (f : Task → Task) : State :=
  { s with sys := { s.sys with tasks := updIf (·.id == id) f s.sys.tasks } }
/-- The partition with a number. -/
def State.partAt (s : State) (id : Nat) : Option Partition := s.sys.parts.find? (·.id == id)
/-- Change a partition. -/
def State.onPart (s : State) (id : Nat) (f : Partition → Partition) : State :=
  { s with sys := { s.sys with parts := updIf (·.id == id) f s.sys.parts } }
/-- A function of a partition is in its host-assisted mode (R393). -/
def State.hostMode (s : State) (part fn : Nat) : Bool := Sparse.get 0 s.sys.modes (3 * part + fn) == 1
/-- The kernel descriptor of a hart's task (R108); zero when it has none. -/
def State.descOf (s : State) (h : Hart) : BitVec 512 := ((s.taskAt h.tk.task).map (·.entry.desc)).getD 0

/-! ### Traps (R23 to R25) -/

/-- The code of a cause (R25). -/
def Cause.code : Cause → Nat
  | .illegal => 0 | .illegalType => 1 | .convoy => 2 | .misalign => 3 | .page => 4 | .vmap => 5 | .perm => 6
  | .fp => 7 | .int => 8 | .tileOff => 9 | .slot => 10 | .ownerLost => 11 | .guard => 12 | .watch => 13
  | .atomicPath => 14 | .partition => 15 | .stream => 16 | .race => 17 | .ecc => 18 | .brk => 19 | .syscall => 20

/-- IH, TCAUSE[63] (R23). -/
def Hart.inHandler (h : Hart) : Bool := h.tr.tcause.getLsbD 63
/-- PK, TCAUSE[62] (R24). -/
def Hart.parkedBit (h : Hart) : Bool := h.tr.tcause.getLsbD 62

/-- The cause passes to the partition supervisor: the kernel has no trap vector, or marks the cause (R23, R99, R108). -/
def unhandled (desc : BitVec 512) (c : Cause) : Bool :=
  bytesAt desc 16 8 == 0 || (BitVec.ofNat 32 (bytesAt desc 40 4)).getLsbD c.code

/-- A fault record (R339). -/
def faultRecord (h : Hart) : BitVec 256 :=
  BitVec.ofNat 256 (h.tr.tcause.toNat + h.tr.tval.toNat * 2 ^ 64 + h.tr.tpc.toNat * 2 ^ 128 +
    hartIdOf h.id * 2 ^ 192 + (h.tr.eri.toNat % 2 ^ 16) * 2 ^ 224)

/-- Post the fault record of a hart that stopped for page-fault service; past 256 records it waits (R338, R356). -/
def postFault (h : Hart) (s : State) : State :=
  s.onPart h.tk.part fun p =>
    if p.faults.length < 256 then { p with faults := p.faults ++ [faultRecord h] }
    else { p with faultWait := p.faultWait ++ [faultRecord h] }

/-- PAGE, VMAP and PERM are served in the page-fault mode (R338). -/
def Cause.isPageFault : Cause → Bool
  | .page | .vmap | .perm => true
  | _ => false

/-- The trap registers as a trap writes them (R23, R24): `tnpc` is given for a trap that R24 governs. -/
def trapRegs (t : TrapRegs) (c : Cause) (tval pc : Word) (eri : Nat) (tnpc : Option Word) : TrapRegs :=
  { t with
    tcause := BitVec.ofNat 64 (c.code + 2 ^ 63 + (if tnpc.isSome then 2 ^ 62 else 0))
    tval := tval, tpc := pc, eri := BitVec.ofNat 64 eri, tnpc := tnpc.getD 0 }

/-- The scalar pipe is still pushing the body of a `zloop` (R197). -/
def LoopBuf.filling (l : LoopBuf) : Bool := decide (l.body.length < l.words)
/-- The address of the body's next word. -/
def LoopBuf.next (l : LoopBuf) : Word := l.first + BitVec.ofNat 64 (4 * l.body.length)

/-- A trap sets the loop buffer aside when the loop is parked with its words, or when its body is not yet whole (R24, R197). -/
def VStream.parkLoop (v : VStream) (parks : Bool) : VStream :=
  match v.loop with
  | some l => if parks || l.filling then { v with loop := none, parkedLoop := some l } else v
  | none => v

/-- `eret` takes up the loop set aside (R197): with PK = 1 as it stands, if its words are still there; else from the body word at
TPC on, if TPC is one that the scalar pipe had reached. -/
def VStream.resumeLoop (v : VStream) (pk : Bool) (q : List VEntry) (tpc : Word) : VStream :=
  match v.parkedLoop with
  | none => v
  | some l =>
    let i := (tpc - l.first).toNat / 4
    if pk then { v with loop := if l.filling || q.any (·.last) then some l else none, parkedLoop := none }
    else if (tpc - l.first).toNat % 4 = 0 ∧ i ≤ l.body.length ∧ i < l.words then
      { v with loop := some { l with body := l.body.take i }, parkedLoop := none }
    else { v with parkedLoop := none }

/-- The hart part of taking a trap: the registers are written, the hart continues at TVEC or stops (R23). -/
def Hart.trapped (h : Hart) (stops : Bool) (c : Cause) (tval pc : Word) (eri : Nat) (tnpc : Option Word) : Hart :=
  let g := { h with tr := trapRegs h.tr c tval pc eri tnpc, wait := none, restart := none
                    vs := { h.vs.parkLoop tnpc.isSome with conv := .fresh } }
  if stops then { g with status := .stopped } else { g with pc := h.tr.tvec }

/-- TAKING A TRAP (R23): the hart records cause, TVAL, TPC and ERI and continues at TVEC; or, when a trap arises in a
handler or the task does not handle the cause, it stops and the trap passes to the partition supervisor. Its links are
cleared (R177). -/
def takeTrap (c : Cause) (tval pc : Word) (eri : Nat) (tnpc : Option Word) (s : State) : State :=
  let stops := s.hart.inHandler || unhandled (s.descOf s.hart) c
  let serve := c.isPageFault && stops
  let g := s.hart.trapped stops c tval pc eri tnpc
  let t := { s with
    hart := if serve then { g with faultHart := g.id } else g
    coh := { s.coh with
      links := s.coh.links.filter fun l => l.1 != s.hart.id
      monitors := s.coh.monitors.filter fun m => m.who != s.hart.id } }
  if serve then postFault t.hart t else t

/-- A trap of the scalar pipe, or at a check before push: PK = 0, TNPC = 0 (R23, R24). -/
def State.trap (s : State) (c : Cause) (tval : Word) (eri : Nat := 0) : State :=
  takeTrap c tval s.hart.pc eri none s

/-- A check-6 trap of a vector-stream word (R24): the words behind it are parked, the queue value it popped is kept
(R141), and TNPC holds the first instruction the scalar pipe has not executed. -/
def parkTrap (e : VEntry) (kept : Option Word) (c : Cause) (tval : Word) (eri : Nat) (s : State) : State :=
  let tnpc := s.hart.pc
  takeTrap c tval e.pc eri (some tnpc) (s.onHart fun h =>
    { h with vs := { h.vs with vq := [], parked := h.vs.vq ++ h.vs.parked, trapped := some { e with kept := kept }
                               blocked := false } })

/-- RETURNING FROM A TRAP (R23, R24): with PK = 1 the trapped word restarts at ERI ahead of the parked words, and the
scalar pipe resumes at TNPC; with PK = 0 the parked words are discarded and the hart continues at TPC, whose vector word
restarts at ERI. -/
def returnFromTrap (h : Hart) : Hart :=
  let eri := h.tr.eri.toNat
  let g := { h with wait := none }
  if h.parkedBit then
    let head := (h.vs.trapped.map fun e => [{ e with start := eri }]).getD []
    { g with
      pc := h.tr.tnpc, restart := none
      tr := { h.tr with tcause := h.tr.tcause &&& 0x3FFFFFFFFFFFFFFF#64 }
      vs := { h.vs.resumeLoop true (head ++ h.vs.parked) h.tr.tpc with
        vq := h.vs.vq ++ head ++ h.vs.parked, parked := [], trapped := none, conv := .fresh } }
  else
    let keep := match h.vs.trapped with
      | some e => if e.pc = h.tr.tpc then e.kept else none
      | none => none
    { g with
      pc := h.tr.tpc, restart := some (h.tr.tpc, eri, keep)
      tr := { h.tr with tcause := h.tr.tcause &&& 0x7FFFFFFFFFFFFFFF#64 }
      vs := { h.vs.resumeLoop false [] h.tr.tpc with parked := [], trapped := none, conv := .fresh } }

end Sys2Proof.Machine
end

