-- ==== Sys2Proof/Machine/Float.lean ====
section
/-! DEFINITION. Numbers (chapter 02): exact values, one rounding at the end (R36, R38), the binary formats of R35, the
arithmetic of the floating-point instructions, the minifloats and blocks (R39 to R47), the conversions (R51) and the
exponential table (R56). -/
namespace Sys2Proof.Machine

/-- A binary format (R35): exponent and fraction widths, and the zero bits below the fraction (E8M10, R37). -/
structure Fmt where
  eb : Nat
  fb : Nat
  low : Nat := 0
  deriving DecidableEq, Repr

/-- FP64, FP32, FP16, BF16 and E8M10 (R35). -/
def fp64 : Fmt := { eb := 11, fb := 52 }
def fp32 : Fmt := { eb := 8, fb := 23 }
def fp16 : Fmt := { eb := 5, fb := 10 }
def bf16 : Fmt := { eb := 8, fb := 7 }
def e8m10 : Fmt := { eb := 8, fb := 10, low := 13 }

/-- The bias (R35). -/
def Fmt.bias (f : Fmt) : Nat := 2 ^ (f.eb - 1) - 1
/-- The smallest normal exponent. -/
def Fmt.emin (f : Fmt) : Int := 1 - (f.bias : Int)
/-- The container's width. -/
def Fmt.width (f : Fmt) : Nat := 1 + f.eb + f.fb + f.low

/-- A value: NaN (signalling or not), an infinity, or (-1)^neg x m x 2^e exactly. -/
inductive FVal where
  | nan (sig : Bool)
  | inf (neg : Bool)
  | fin (neg : Bool) (m : Nat) (e : Int)
  deriving DecidableEq, Repr

/-- The events of R20 and R21 that an operation raises; `io` is the signed overflow of R33 and `id` the integer divide by zero of R34. -/
structure Ev where
  nv : Bool := false
  dz : Bool := false
  of : Bool := false
  uf : Bool := false
  nx : Bool := false
  sat : Bool := false
  io : Bool := false
  id : Bool := false
  deriving DecidableEq, Repr

/-- No event. -/
def Ev.quiet : Ev := {}
/-- Either's events. -/
def Ev.or (a b : Ev) : Ev :=
  { nv := a.nv || b.nv, dz := a.dz || b.dz, of := a.of || b.of, uf := a.uf || b.uf, nx := a.nx || b.nx
    sat := a.sat || b.sat, io := a.io || b.io, id := a.id || b.id }
/-- An invalid operation. -/
def Ev.invalid : Ev := { nv := true }

/-- A rounding mode (R38). -/
inductive RMode where
  | rne | rtz | rdn | rup | rna
  deriving DecidableEq, Repr

/-- The mode of VTYPE.RM (R38). -/
def RMode.ofCode : Nat → RMode
  | 1 => .rtz | 2 => .rdn | 3 => .rup | 4 => .rna | _ => .rne

/-- The canonical NaN (R35). -/
def Fmt.nan (f : Fmt) : Nat := ((2 ^ f.eb - 1) * 2 ^ f.fb + 2 ^ (f.fb - 1)) * 2 ^ f.low
/-- An infinity. -/
def Fmt.inf (f : Fmt) (neg : Bool) : Nat :=
  ((if neg then 2 ^ (f.eb + f.fb) else 0) + (2 ^ f.eb - 1) * 2 ^ f.fb) * 2 ^ f.low
/-- A zero. -/
def Fmt.zero (f : Fmt) (neg : Bool) : Nat := if neg then 2 ^ (f.eb + f.fb + f.low) else 0
/-- The largest finite magnitude. -/
def Fmt.maxFin (f : Fmt) (neg : Bool) : Nat :=
  ((if neg then 2 ^ (f.eb + f.fb) else 0) + (2 ^ f.eb - 1) * 2 ^ f.fb - 1) * 2 ^ f.low

/-- The value of a bit pattern (R35, R37). -/
def Fmt.decode (f : Fmt) (bits : Nat) : FVal :=
  let w := bits / 2 ^ f.low % 2 ^ (1 + f.eb + f.fb)
  let neg := decide (w / 2 ^ (f.eb + f.fb) = 1)
  let ex := w / 2 ^ f.fb % 2 ^ f.eb
  let fr := w % 2 ^ f.fb
  if ex = 2 ^ f.eb - 1 then
    if fr = 0 then .inf neg else .nan (decide (fr < 2 ^ (f.fb - 1)))
  else if ex = 0 then .fin neg fr (f.emin - f.fb)
  else .fin neg (2 ^ f.fb + fr) ((ex : Int) - f.bias - f.fb)

/-- Whether a nonzero remainder rounds the magnitude up: `odd` is the last kept bit, `cmp` compares the remainder with
half (R38). -/
def roundsUp (rm : RMode) (neg odd : Bool) (cmp : Ordering) : Bool :=
  match rm with
  | .rne => match cmp with | .gt => true | .eq => odd | .lt => false
  | .rna => match cmp with | .lt => false | _ => true
  | .rtz => false
  | .rdn => neg
  | .rup => !neg

/-- A magnitude m x 2^e, a little more when `sticky`, rounded to a multiple of 2^qe: the multiple, and whether it is
inexact. -/
def roundAt (rm : RMode) (neg : Bool) (m : Nat) (e : Int) (sticky : Bool) (qe : Int) : Nat × Bool :=
  let m2 := 2 * m + (if sticky then 1 else 0)
  let sh := qe - (e - 1)
  if sh ≤ 0 then (m2 * 2 ^ (-sh).toNat, false)
  else
    let s := sh.toNat
    if Nat.log2 m2 + 2 < s then (if m2 ≠ 0 && roundsUp rm neg false .lt then 1 else 0, decide (m2 ≠ 0))
    else
      let q := m2 / 2 ^ s
      let r := m2 % 2 ^ s
      let up := decide (r ≠ 0) && roundsUp rm neg (decide (q % 2 = 1)) (compare (2 * r) (2 ^ s))
      (if up then q + 1 else q, decide (r ≠ 0))

/-- Overflow delivers an infinity, or the largest finite magnitude under a mode that points toward zero (R38). -/
def overflowTo (f : Fmt) (rm : RMode) (neg : Bool) : Nat :=
  match rm with
  | .rne | .rna => f.inf neg
  | .rtz => f.maxFin neg
  | .rdn => if neg then f.inf neg else f.maxFin neg
  | .rup => if neg then f.maxFin neg else f.inf neg

/-- `round(x, rm)` of R57 for x = ±m x 2^e (a little more in magnitude when `sticky`): tininess is detected after
rounding, and UF is raised only with NX (R36). -/
def roundTo (f : Fmt) (rm : RMode) (neg : Bool) (m : Nat) (e : Int) (sticky : Bool := false) : Nat × Ev :=
  if m = 0 && !sticky then (f.zero neg, {})
  else
    let top := (Nat.log2 m : Int) + e
    let qe := (if top < f.emin then f.emin else top) - f.fb
    let (q, inexact) := roundAt rm neg m e sticky qe
    let tiny := decide (top < f.emin) &&
      (let u := (roundAt rm neg m e sticky (top - f.fb)).1
       !(decide (top + 1 = f.emin) && decide (u = 2 ^ (f.fb + 1))))
    let sgn := if neg then 2 ^ (f.eb + f.fb) else 0
    if q = 0 then (f.zero neg, { nx := inexact, uf := tiny && inexact })
    else
      -- the exponent field of q x 2^qe; a carry out of the fraction raises it by itself
      let ex := qe + f.fb + f.bias
      let core := if q < 2 ^ f.fb then q else (ex.toNat - 1) * 2 ^ f.fb + q
      if core / 2 ^ f.fb ≥ 2 ^ f.eb - 1 then (overflowTo f rm neg, { of := true, nx := true })
      else ((sgn + core) * 2 ^ f.low, { nx := inexact, uf := tiny && inexact })

/-- A value rounded to a format. A NaN gives the canonical NaN; a signalling one raises NV (R36). -/
def FVal.roundTo (f : Fmt) (rm : RMode) : FVal → Nat × Ev
  | .nan sig => (f.nan, { nv := sig })
  | .inf neg => (f.inf neg, {})
  | .fin neg m e => Machine.roundTo f rm neg m e

/-- A NaN of either kind. -/
def FVal.isNan : FVal → Bool
  | .nan _ => true
  | _ => false
/-- A signalling NaN. -/
def FVal.isSig : FVal → Bool
  | .nan sig => sig
  | _ => false
/-- A zero. -/
def FVal.isZero : FVal → Bool
  | .fin _ m _ => decide (m = 0)
  | _ => false
/-- The sign. -/
def FVal.neg : FVal → Bool
  | .nan _ => false
  | .inf n => n
  | .fin n _ _ => n
/-- The negated value. -/
def FVal.negate : FVal → FVal
  | .nan s => .nan s
  | .inf n => .inf (!n)
  | .fin n m e => .fin (!n) m e

/-- A signed magnitude as an integer of unit 2^e. -/
def signedAt (neg : Bool) (m : Nat) (e base : Int) : Int :=
  let k := (m * 2 ^ (e - base).toNat : Nat)
  if neg then -(k : Int) else k

/-- The exact sum of two values (R122, IEEE 754): an invalid operation gives a NaN and true. -/
def FVal.add (rm : RMode) : FVal → FVal → FVal × Bool
  | .nan s, b => (.nan false, s || b.isSig)
  | a, .nan s => (.nan false, s || a.isSig)
  | .inf n, .inf n' => if n = n' then (.inf n, false) else (.nan false, true)
  | .inf n, _ => (.inf n, false)
  | _, .inf n => (.inf n, false)
  | .fin n m e, .fin n' m' e' =>
    let base := min e e'
    let t := signedAt n m e base + signedAt n' m' e' base
    if t = 0 then
      (.fin (if m = 0 && m' = 0 && n = n' then n else decide (rm = .rdn)) 0 base, false)
    else (.fin (decide (t < 0)) t.natAbs base, false)

/-- The exact product (R122). -/
def FVal.mul : FVal → FVal → FVal × Bool
  | .nan s, b => (.nan false, s || b.isSig)
  | a, .nan s => (.nan false, s || a.isSig)
  | .inf n, b => if b.isZero then (.nan false, true) else (.inf (n != b.neg), false)
  | a, .inf n => if a.isZero then (.nan false, true) else (.inf (n != a.neg), false)
  | .fin n m e, .fin n' m' e' => (.fin (n != n') (m * m') (e + e'), false)

/-- Round a value that an operation formed, with its NV. -/
def finish (f : Fmt) (rm : RMode) (r : FVal × Bool) : Nat × Ev :=
  let (bits, ev) := r.1.roundTo f rm
  (bits, ev.or { nv := r.2 })

/-- `fadd`, `fsub`, `fmul` on bit patterns (R120, R148). -/
def fAdd (f : Fmt) (rm : RMode) (a b : Nat) : Nat × Ev := finish f rm ((f.decode a).add rm (f.decode b))
def fSub (f : Fmt) (rm : RMode) (a b : Nat) : Nat × Ev := finish f rm ((f.decode a).add rm (f.decode b).negate)
def fMul (f : Fmt) (rm : RMode) (a b : Nat) : Nat × Ev := finish f rm ((f.decode a).mul (f.decode b))

/-- a x b + c with one rounding; 0 x ∞ raises NV whatever the addend (R122). -/
def fFma (f : Fmt) (rm : RMode) (a b : Nat) (c : FVal) : Nat × Ev :=
  let p := (f.decode a).mul (f.decode b)
  let r := p.1.add rm c
  finish f rm (r.1, p.2 || r.2)

/-- a ÷ b (R122): 0 ÷ 0 and ∞ ÷ ∞ are invalid, a finite nonzero value by zero raises DZ. -/
def fDivV (f : Fmt) (rm : RMode) (a b : FVal) : Nat × Ev :=
  match a, b with
  | .nan s, b => (f.nan, { nv := s || b.isSig })
  | a, .nan s => (f.nan, { nv := s || a.isSig })
  | .inf n, .inf _ => let _ := n; (f.nan, Ev.invalid)
  | .inf n, b => (f.inf (n != b.neg), {})
  | a, .inf n => (f.zero (n != a.neg), {})
  | .fin n m e, .fin n' m' e' =>
    let sg := n != n'
    if m' = 0 then (if m = 0 then (f.nan, Ev.invalid) else (f.inf sg, { dz := true }))
    else if m = 0 then (f.zero sg, {})
    else
      let k := Nat.log2 m' + f.fb + 4
      let num := m * 2 ^ k
      roundTo f rm sg (num / m') (e - e' - k) (decide (num % m' ≠ 0))
def fDiv (f : Fmt) (rm : RMode) (a b : Nat) : Nat × Ev := fDivV f rm (f.decode a) (f.decode b)

/-- The integer square root of `n` by bits `i - 1` down, from `r`. -/
def isqrtGo (n : Nat) : Nat → Nat → Nat
  | 0, r => r
  | i + 1, r => isqrtGo n i (if (r + 2 ^ i) * (r + 2 ^ i) ≤ n then r + 2 ^ i else r)

/-- √a (R122): a negative number other than -0 is invalid. -/
def fSqrt (f : Fmt) (rm : RMode) (a : Nat) : Nat × Ev :=
  match f.decode a with
  | .nan s => (f.nan, { nv := s })
  | .inf n => if n then (f.nan, Ev.invalid) else (f.inf false, {})
  | .fin n m e =>
    if m = 0 then (f.zero n, {})
    else if n then (f.nan, Ev.invalid)
    else
      let k := 2 * (f.fb + 4) + (if (e % 2 : Int) = 0 then 0 else 1)
      let x := m * 2 ^ k
      let r := isqrtGo x (Nat.log2 x / 2 + 1) 0
      roundTo f rm false r ((e - k) / 2) (decide (r * r ≠ x))

/-- The order of two numbers that are not NaN; zeros are equal. -/
def FVal.cmp : FVal → FVal → Ordering
  | .fin n m e, .fin n' m' e' => let b := min e e'; compare (signedAt n m e b) (signedAt n' m' e' b)
  | .inf n, .inf n' => if n = n' then .eq else if n then .lt else .gt
  | .inf n, _ => if n then .lt else .gt
  | _, .inf n => if n then .gt else .lt
  | _, _ => .eq

/-- a < b with -0 below +0, for values that are not NaN (R120, R157). -/
def FVal.below (a b : FVal) : Bool :=
  match a.cmp b with
  | .lt => true
  | .eq => a.isZero && b.isZero && a.neg && !b.neg
  | .gt => false

/-- `fmin` and `fmax` (R120): one NaN operand gives the other operand, two the canonical NaN; a signalling one raises
NV (R36). An E8M10 operand's low bits are ignored (R37). -/
def fMinMax (f : Fmt) (mx : Bool) (a b : Nat) : Nat × Ev :=
  let va := f.decode a
  let vb := f.decode b
  let ev : Ev := { nv := va.isSig || vb.isSig }
  let cut := fun x : Nat => x / 2 ^ f.low * 2 ^ f.low
  if va.isNan then (if vb.isNan then f.nan else cut b, ev)
  else if vb.isNan then (cut a, ev)
  else (if mx then (if va.below vb then cut b else cut a) else (if vb.below va then cut b else cut a), ev)

/-- The extreme of a reduction or of a range: any NaN gives the canonical NaN, NV for a signalling one (R157, R304). -/
def fExtreme (f : Fmt) (mx : Bool) (a b : Nat) : Nat × Ev :=
  if (f.decode a).isNan || (f.decode b).isNan then (f.nan, { nv := (f.decode a).isSig || (f.decode b).isSig })
  else fMinMax f mx a b

/-- Equality, less than, less or equal, unordered (R121, R151): the relation, and the events. -/
def fEq (f : Fmt) (a b : Nat) : Bool × Ev :=
  let va := f.decode a
  let vb := f.decode b
  (!va.isNan && !vb.isNan && va.cmp vb == .eq, { nv := va.isSig || vb.isSig })
def fLt (f : Fmt) (a b : Nat) : Bool × Ev :=
  let va := f.decode a
  let vb := f.decode b
  (!va.isNan && !vb.isNan && va.cmp vb == .lt, { nv := va.isNan || vb.isNan })
def fLe (f : Fmt) (a b : Nat) : Bool × Ev :=
  let va := f.decode a
  let vb := f.decode b
  (!va.isNan && !vb.isNan && va.cmp vb != .gt, { nv := va.isNan || vb.isNan })
def fUn (f : Fmt) (a b : Nat) : Bool × Ev :=
  let va := f.decode a
  let vb := f.decode b
  (va.isNan || vb.isNan, { nv := va.isSig || vb.isSig })

/-- The class bit of R149. -/
def fClass (f : Fmt) (a : Nat) : Nat :=
  match f.decode a with
  | .nan sig => if sig then 8 else 9
  | .inf n => if n then 0 else 7
  | .fin n m _ =>
    if m = 0 then (if n then 3 else 4)
    else if m < 2 ^ f.fb then (if n then 2 else 5)
    else (if n then 1 else 6)

/-- `vfrcpe` (R150): 1 ÷ a toward zero to 7 fraction bits in the format's exponent range, widened exactly. -/
def fRcpe (f : Fmt) (a : Nat) : Nat × Ev :=
  let g : Fmt := { eb := f.eb, fb := 7, low := f.fb - 7 + f.low }
  match f.decode a with
  | .nan s => (f.nan, { nv := s })
  | v =>
    let r := fDivV g .rtz (.fin false 1 0) v
    (r.1, { r.2 with nx := false })

/-! ### Conversions (R51) -/

/-- Float to integer: clamps with NV, NaN gives 0 with NV, NX for an inexact result in range (R51). -/
def fToInt (rm : RMode) (signed : Bool) (w : Nat) (v : FVal) : Nat × Ev :=
  let lo : Int := if signed then -(2 ^ (w - 1) : Int) else 0
  let hi : Int := if signed then 2 ^ (w - 1) - 1 else 2 ^ w - 1
  let enc := fun i : Int => (i % (2 ^ w : Int)).toNat
  match v with
  | .nan _ => (0, Ev.invalid)
  | .inf n => (enc (if n then lo else hi), Ev.invalid)
  | .fin n m e =>
    if w + 1 < Nat.log2 m + e.toNat && 0 < e && m ≠ 0 then (enc (if n then lo else hi), Ev.invalid)
    else
      let (q, inexact) := roundAt rm n m e false 0
      let i : Int := if n then -(q : Int) else q
      if i < lo then (enc lo, Ev.invalid)
      else if hi < i then (enc hi, Ev.invalid)
      else (enc i, { nx := inexact })

/-- Integer to float (R51). -/
def fOfInt (f : Fmt) (rm : RMode) (i : Int) : Nat × Ev := roundTo f rm (decide (i < 0)) i.natAbs 0

/-! ### Minifloats and blocks (R39 to R47) -/

/-- A slot of a format register (R15). -/
structure MSlot where
  v : Bool
  wm1 : Nat
  e : Nat
  s : Bool
  bias : Nat
  nan : Bool
  zero : Bool
  deriving DecidableEq, Repr

/-- Slot `n` of a format register (R15). -/
def slotOf (f : Word) (n : Nat) : MSlot :=
  let w := f.toNat / 2 ^ (16 * n) % 2 ^ 16
  { v := w.testBit 15, wm1 := bitsOf w 14 12, e := bitsOf w 11 9, s := w.testBit 8, bias := bitsOf w 7 2
    nan := w.testBit 1, zero := !w.testBit 0 }

/-- The four slots. -/
def slotsOf (f : Word) : List MSlot := [slotOf f 0, slotOf f 1, slotOf f 2, slotOf f 3]

/-- At least one slot is defined and all defined slots share one width of 2 to 8 bits (R16, R19). -/
def fmtWidthOk (f : Word) : Bool :=
  match (slotsOf f).filter (·.v) with
  | [] => false
  | a :: r => decide (1 ≤ a.wm1) && r.all (fun b => b.wm1 == a.wm1)

/-- WM1 of the first defined slot. -/
def fmtWm1 (f : Word) : Nat := (((slotsOf f).find? (·.v)).map (·.wm1)).getD 0

/-- A format register is consistent (R16). -/
def fmtOk (f : Word) : Bool :=
  fmtWidthOk f && (slotsOf f).all (fun a => a.zero && (!a.v || decide (a.e + a.s.toNat ≤ a.wm1 + 1)))

/-- The container of a width: 8, 4 or 2 bits (R43). -/
def containerOf (width : Nat) : Nat := if width ≤ 2 then 2 else if width ≤ 4 then 4 else 8

/-- The mantissa width M (R39). -/
def MSlot.mant (a : MSlot) : Nat := a.wm1 + 1 - a.s.toNat - a.e
/-- The non-sign bits of a code. -/
def MSlot.magBits (a : MSlot) : Nat := a.wm1 + 1 - a.s.toNat

/-- `decode(slot, code)` (R39). -/
def MSlot.decode (a : MSlot) (code : Nat) : FVal :=
  let c := code % 2 ^ (a.wm1 + 1)
  let neg := a.s && c.testBit a.wm1
  let mag := c % 2 ^ a.magBits
  let x := mag / 2 ^ a.mant
  let m := mag % 2 ^ a.mant
  if a.nan && mag = 2 ^ a.magBits - 1 then .nan false
  else if a.e = 0 then .fin neg m (-(a.bias : Int))
  else if x = 0 then .fin neg m (1 - (a.bias : Int) - a.mant)
  else .fin neg (2 ^ a.mant + m) ((x : Int) - a.bias - a.mant)

/-- The magnitude code of maxfin (R40). -/
def MSlot.maxCode (a : MSlot) : Nat := 2 ^ a.magBits - 1 - a.nan.toNat
/-- maxfin(slot) (R40). -/
def MSlot.maxFin (a : MSlot) : FVal := a.decode a.maxCode

/-- `encode(slot, y, rm)` (R41). A signalling NaN raises NV (R36). A negative value or -∞ in an unsigned slot gives 0 with SAT and,
being inexact, NX (log entry 132). UF is of a delivered magnitude below the smallest normal one (R41; log entry 133). A tie
between two magnitudes of a slot without mantissa bits takes the larger one (log entry 134). -/
def MSlot.encode (a : MSlot) (rm : RMode) (y : FVal) : Nat × Ev :=
  let sgn := fun n : Bool => if n && a.s then 2 ^ a.wm1 else 0
  match y with
  | .nan sig => if a.nan then (2 ^ a.magBits - 1, { nv := sig }) else (0, Ev.invalid)
  | .inf n => (if n && !a.s then 0 else sgn n + a.maxCode, { sat := true, nx := true })
  | .fin n m e =>
    if m = 0 then (sgn n, {})
    else if n && !a.s then (0, { sat := true, nx := true })
    else
      let emin : Int := 1 - (a.bias : Int)
      let top := (Nat.log2 m : Int) + e
      let qe := if a.e = 0 then -(a.bias : Int) else (if top < emin then emin else top) - a.mant
      let (q, inexact) := roundAt rm n m e false qe
      let ex := qe + a.mant + a.bias
      let code := if a.e = 0 then q else if q < 2 ^ a.mant then q else (ex.toNat - 1) * 2 ^ a.mant + q
      if a.maxCode < code then (sgn n + a.maxCode, { sat := true, nx := true })
      else (sgn n + code, { nx := inexact, uf := inexact && decide (a.e ≠ 0) && decide (code < 2 ^ a.mant) })

/-- A value times a power of two. -/
def FVal.scale (k : Int) : FVal → FVal
  | .fin n m e => .fin n m (e + k)
  | v => v

/-- The value of a blocked element under its header byte: TAG selects the slot, SE the scale (R42). An undefined slot
decodes as zero (R16). -/
def blockValue (f : Word) (header : Nat) (code : Nat) : FVal :=
  let a := slotOf f (header / 64 % 4)
  if a.v then (a.decode code).scale ((header % 64 : Nat) - 32 : Int) else .fin false 0 0

/-- The block's tag names a slot that is not defined: NV (R16). -/
def blockUndefined (f : Word) (header : Nat) : Bool := !(slotOf f (header / 64 % 4)).v

/-- The larger of two magnitudes. -/
def FVal.maxMag (a b : FVal) : FVal :=
  match a, b with
  | .fin _ m e, .fin _ m' e' => if (FVal.fin false m e).cmp (.fin false m' e') == .lt then .fin false m' e' else .fin false m e
  | .fin _ m e, _ => .fin false m e
  | _, .fin _ m e => .fin false m e
  | _, _ => .fin false 0 0

/-- The smallest SE from `se` up, in `n` trials, for which `amax` is at most maxfin x 2^(SE - 32) (R47). -/
def chooseSEFrom (a : MSlot) (amax : FVal) : Nat → Nat → Nat
  | 0, _ => 63
  | n + 1, se => if amax.cmp (a.maxFin.scale ((se : Int) - 32)) != .gt then se else chooseSEFrom a amax n (se + 1)

/-- SE of a block whose source values are given (R47). -/
def chooseSE (a : MSlot) (vals : List FVal) : Nat :=
  let amax := vals.foldl FVal.maxMag (.fin false 0 0)
  if amax.isZero then 0 else chooseSEFrom a amax 64 0

/-! ### The exponential table (R56) -/

/-- ⌊2^(i/64 + k)⌋ by bits: the largest y below 2^b with y^64 ≤ 2^(i + 64k). -/
def rootGo (n : Nat) : Nat → Nat → Nat
  | 0, r => r
  | b + 1, r => rootGo n b (if (r + 2 ^ b) ^ 64 ≤ n then r + 2 ^ b else r)

/-- ⌊2^(i/64) x 2^64⌋. -/
def root64 (i : Nat) : Nat := rootGo (2 ^ (i + 64 * 64)) 66 0

/-- The intercept I[i] and the slope S[i] (R56). -/
def expI (i : Nat) : Nat := (roundTo fp32 .rne false (root64 i) (-64) (decide (i % 64 ≠ 0))).1
def expS (i : Nat) : Nat := (roundTo fp32 .rne false (root64 (i + 1) - root64 i) (-58) true).1

/-- exp2t(y) on FP32 bit patterns (R56): only the last rounding raises flags. -/
def exp2t (y : Nat) : Nat × Ev :=
  match fp32.decode y with
  | .nan _ => (fp32.nan, {})
  | .inf n => (if n then 0 else fp32.inf false, {})
  | .fin neg m e =>
    if !neg && (FVal.fin neg m e).cmp (.fin false 128 0) != .lt then (fp32.inf false, { of := true, nx := true })
    else
      -- y = k x 2^-149; n = floor(y)
      let k := signedAt neg m e (-149)
      let n := k / (2 ^ 149 : Int)
      let f := (k - n * 2 ^ 149).toNat
      let i := f / 2 ^ 143
      let u := f % 2 ^ 143
      let p := ((fp32.decode (expS i)).mul (.fin false u (-149))).1.roundTo fp32 .rne
      let t := fAdd fp32 .rne (expI i) p.1
      ((fp32.decode t.1).scale n).roundTo fp32 .rne

end Sys2Proof.Machine
end

