-- ==== Sys2Proof/Machine/Flags.lean ====
section
/-! DEFINITION. FLAGS and the event registers (R20 to R22): recording events, the traps they enable, and writing FLAGS. -/
namespace Sys2Proof.Machine

/-- Whether the events hold class `c`, in the order NV, DZ, OF, UF, NX, SAT (R21). A division by zero, floating or
integer, is of class DZ (R20). -/
def Ev.has (e : Ev) : Nat → Bool
  | 0 => e.nv | 1 => e.dz || e.id | 2 => e.of | 3 => e.uf | 4 => e.nx | 5 => e.sat | _ => false

/-- The events with their elements that hold class `c`: the lowest element, if any. -/
def lowestOf (evs : List (Nat × Ev)) (c : Nat) : Option Nat :=
  (evs.filter fun p => p.2.has c).foldl (fun a p => some (match a with | none => p.1 | some m => min m p.1)) none

/-- Record class `c`: OR its sticky bit (bit 7 - c) into FLAGS; if EIX holds 0xFFFF, write the lowest raising element and the
PC (R21). -/
def recordClass (evs : List (Nat × Ev)) (pc : Word) (fl : FlagRegs) (c : Fin 6) : FlagRegs :=
  match lowestOf evs c.val with
  | none => fl
  | some e =>
    let f := fl.flags ||| (1#16 <<< (7 - c.val))
    if fl.eix.get c = 0xFFFF#16 then
      { flags := f, eix := Vector.set fl.eix c.val (BitVec.ofNat 16 e) c.isLt, epc := Vector.set fl.epc c.val pc c.isLt }
    else { fl with flags := f }

/-- Record the events of an instruction at `pc` (R21, R22). -/
def recordEvs (evs : List (Nat × Ev)) (pc : Word) (fl : FlagRegs) : FlagRegs :=
  [0, 1, 2, 3, 4, 5].foldl (recordClass evs pc) fl

/-- An enabled class traps with FP (R20): NVE, DZE, OFE, UFE, NXE. An integer divide by zero consults IDE only (R34). -/
def Ev.fpEnabled (e : Ev) (flags : BitVec 16) : Bool :=
  (e.nv && flags.getLsbD 15) || (e.dz && flags.getLsbD 14) || (e.of && flags.getLsbD 13) ||
  (e.uf && flags.getLsbD 12) || (e.nx && flags.getLsbD 11)

/-- An enabled class traps with INT (R20): SAE, IOE, IDE. -/
def Ev.intEnabled (e : Ev) (flags : BitVec 16) : Bool :=
  (e.sat && flags.getLsbD 10) || (e.io && flags.getLsbD 9) || (e.id && flags.getLsbD 8)

/-- The trap an instruction's events cause under the enables of FLAGS, if any (R20). When classes of both kinds are enabled
and raised at one element, FP is taken (log entry 7). -/
def Ev.trap (e : Ev) (flags : BitVec 16) : Option Cause :=
  if e.fpEnabled flags then some .fp else if e.intEnabled flags then some .int else none

/-- Clear EIX and EPC of class `c` when its sticky bit is 0 (R21). -/
def clearClass (fl : FlagRegs) (c : Fin 6) : FlagRegs :=
  if fl.flags.getLsbD (7 - c.val) then fl
  else { fl with eix := Vector.set fl.eix c.val 0xFFFF#16 c.isLt, epc := Vector.set fl.epc c.val 0 c.isLt }

/-- A write to FLAGS (R20, R21): all sixteen bits, and the event registers of every class left 0. -/
def writeFlags (fl : FlagRegs) (w : BitVec 16) : FlagRegs :=
  [0, 1, 2, 3, 4, 5].foldl clearClass { fl with flags := w }

/-- OR a sticky bit without event registers: TRIM is bit 1, BRK bit 0 (R20, R21). -/
def Hart.setSticky (h : Hart) (b : BitVec 16) : Hart := { h with fl := { h.fl with flags := h.fl.flags ||| b } }
def stickyTrim : BitVec 16 := 2
def stickyBrk : BitVec 16 := 1

/-- A scalar instruction with a result and events (R122): the events are recorded at element 0; if an enabled class is
raised the instruction traps with the word in TVAL and x[d] is unchanged; otherwise x[d] is written. -/
def scalarResult (word : IWord) (d : Reg) (w : Word) (e : Ev) (s : State) : Out :=
  let t := s.onHart fun h => { h with fl := recordEvs [(0, e)] h.pc h.fl }
  match e.trap t.hart.fl.flags with
  | some c => .next (t.trap c (word.setWidth 64))
  | none => t.result d w

end Sys2Proof.Machine
end

