-- ==== Sys2Proof/Machine/Operands.lean ====
section
/-! DEFINITION. Operand forms of the vector and matrix words: VTYPE (R17 to R19), VLMAX (R10), register groups and elements
(R7), masks (R12), header sidebands (R45), scalar operands (R141), and the checks on the type state (check 3 of R81). -/
namespace Sys2Proof.Machine

/-! ### VTYPE -/

/-- CLASS of a VTYPE value (R17): 0 signed, 1 unsigned, 2 IEEE float, 3 BF16, 4 E8M10, 5 blocked-narrow. -/
def vtClass (v : Word) : Nat := bitsOf v.toNat 10 8
/-- The EW code (R17): 0 to 3 for 8 to 64 bits, 4 blocked-narrow. -/
def vtEw (v : Word) : Nat := bitsOf v.toNat 5 3
/-- G: 1, 2, 4 or 8 registers (R17). -/
def vtG (v : Word) : Nat := 2 ^ bitsOf v.toNat 7 6
/-- The rounding mode (R17, R38). -/
def vtRm (v : Word) : RMode := RMode.ofCode (bitsOf v.toNat 18 16)
/-- MP and TP (R17). -/
def vtMp (v : Word) : Bool := v.getLsbD 15
def vtTp (v : Word) : Bool := v.getLsbD 14
/-- FMT (R17). -/
def vtFmt (v : Word) : Nat := bitsOf v.toNat 13 11
/-- Live tile rows and columns (R17). -/
def vtRows (v : Word) : Nat := bitsOf v.toNat 31 25 + 1
def vtCols (v : Word) : Nat := bitsOf v.toNat 24 19 + 1

/-- A legal CLASS and EW pair (R18). -/
def legalPair (cls ew : Nat) : Bool :=
  match cls with
  | 0 | 1 => decide (ew ≤ 3)
  | 2 => decide (1 ≤ ew) && decide (ew ≤ 3)
  | 3 => decide (ew = 1)
  | 4 => decide (ew = 2)
  | 5 => decide (ew = 4)
  | _ => false

/-- The fields of a VTYPE value are legal (R17, R18). -/
def vtLegal (v : Word) : Bool :=
  decide (v.toNat < 2 ^ 32) && decide (v.toNat % 8 = 0) && decide (bitsOf v.toNat 18 16 ≤ 4) &&
  legalPair (vtClass v) (vtEw v)

/-- VLMAX (R10): n quads, G registers, elements of `bits` bits. -/
def vlmaxOf (n g bits : Nat) : Nat := min 4096 (512 * n * g / bits)

/-- What a vector word needs of the hart's type state: class, element bits, group, VLMAX, mode, policies, VL, quads. -/
structure VT where
  cls : Nat
  ew : Nat
  g : Nat
  vlmax : Nat
  rm : RMode
  mp : Bool
  tp : Bool
  vl : Nat
  n : Nat
  deriving DecidableEq, Repr

/-- The element bits under a VTYPE with the recorded container (R10, R19). -/
def ewBits (v : Word) (cbits : Nat) : Nat := if vtClass v = 5 then cbits else 8 * 2 ^ vtEw v

/-- The type state of a hart. -/
def Hart.vt (h : Hart) : VT :=
  let v := h.vr.vtype
  { cls := vtClass v, ew := ewBits v h.vr.cbits, g := vtG v
    vlmax := vlmaxOf h.vr.quads (vtG v) (ewBits v h.vr.cbits)
    rm := vtRm v, mp := vtMp v, tp := vtTp v, vl := h.vr.vl, n := h.vr.quads }

/-- The class holds floating-point values. -/
def VT.isFloat (t : VT) : Bool := decide (2 ≤ t.cls) && decide (t.cls ≤ 4)
/-- The class holds integers. -/
def VT.isInt (t : VT) : Bool := decide (t.cls ≤ 1)
/-- The class is signed integers. -/
def VT.isSigned (t : VT) : Bool := decide (t.cls = 0)
/-- The element format of a float class (R17, R35). -/
def VT.fmt (t : VT) : Fmt :=
  match t.cls with
  | 3 => bf16
  | 4 => e8m10
  | _ => if t.ew = 16 then fp16 else if t.ew = 64 then fp64 else fp32

/-- The format register that FMT names. -/
def Hart.fmtReg (h : Hart) : Word := h.f.get ⟨vtFmt h.vr.vtype % 8, by omega⟩

/-! ### Register groups (R7) -/

/-- vN, N taken modulo 32. -/
def Hart.vreg (h : Hart) (n : Nat) : BitVec 4096 := h.v.get ⟨n % 32, by omega⟩

/-- The concatenation of `cnt` registers of 64n bytes from `base` (R7). -/
def Hart.group (h : Hart) (base cnt : Nat) : Nat :=
  joinNat (512 * h.vr.quads) (fun j => (h.vreg (base + j)).toNat) cnt

/-- Write a concatenation back. -/
def Hart.putGroup (h : Hart) (base cnt val : Nat) : Hart :=
  let w := 512 * h.vr.quads
  { h with v := Vector.ofFn fun i : Fin 32 =>
      if base ≤ i.val ∧ i.val < base + cnt then BitVec.ofNat 4096 (val / 2 ^ (w * (i.val - base)) % 2 ^ w)
      else h.v.get i }

/-- Element `e` of `w` bits (R3). -/
def elemOf (g w e : Nat) : Nat := g / 2 ^ (w * e) % 2 ^ w

/-- Header bytes that one register of a group contributes: VLMAX ÷ G ÷ 32 (R10, R45; log entry 8). -/
def hdrBytes (n cbits : Nat) : Nat := 512 * n / cbits / 32

/-- The header sideband of a group: block b's header is byte b (R45). -/
def Hart.headers (h : Hart) (base cnt per : Nat) : Nat :=
  joinNat (8 * per) (fun j => (h.hdr.get ⟨(base + j) % 32, by omega⟩).toNat) cnt

/-- Write a header sideband back; bytes of a register beyond the group's blocks stay (R45). -/
def Hart.putHeaders (h : Hart) (base cnt per val : Nat) : Hart :=
  { h with hdr := Vector.ofFn fun i : Fin 32 =>
      if base ≤ i.val ∧ i.val < base + cnt then
        BitVec.ofNat 512 ((h.hdr.get i).toNat / 2 ^ (8 * per) * 2 ^ (8 * per) + val / 2 ^ (8 * per * (i.val - base)) % 2 ^ (8 * per))
      else h.hdr.get i }

/-- The stored bits of kN. -/
def Hart.kreg (h : Hart) (k : Nat) : BitVec 4096 := h.k.get ⟨k % 8, by omega⟩
/-- Write kN. -/
def Hart.putK (h : Hart) (k : Nat) (v : BitVec 4096) : Hart :=
  { h with k := Vector.set h.k (k % 8) v (by omega) }

/-- Bit e of the mask that K names; K = 0 reads as all active (R12). -/
def Hart.maskBit (h : Hart) (k : BitVec 3) (e : Nat) : Bool := k == 0#3 || (h.kreg k.toNat).getLsbD e

/-- `active(e)` (R57). -/
def Hart.active (h : Hart) (k : BitVec 3) (e : Nat) : Bool := decide (e < h.vr.vl) && h.maskBit k e

/-- A destination's elements from `start` on: the value for an active element, else the mask or tail policy (R140);
elements below `start` are not written again (R143). `old` is the destination as it stood. -/
def policy (t : VT) (start old : Nat) (act : Nat → Bool) (val : Nat → Nat) (e : Nat) : Nat :=
  if e < start then elemOf old t.ew e
  else if act e then val e
  else if e < t.vl then (if t.mp then 0 else elemOf old t.ew e)
  else if t.tp then 0 else elemOf old t.ew e

/-! ### Queues -/

/-- qN. -/
def Hart.queue (h : Hart) (n : Nat) : List Word := h.q.get ⟨n % 8, by omega⟩
/-- Replace qN. -/
def Hart.putQueue (h : Hart) (n : Nat) (l : List Word) : Hart :=
  { h with q := Vector.set h.q (n % 8) l (by omega) }
/-- Room for `n` more entries in a queue register of 16 (R13). -/
def Hart.queueRoom (h : Hart) (q n : Nat) : Bool := decide ((h.queue q).length + n ≤ 16)
/-- Push. -/
def Hart.push (h : Hart) (q : Nat) (w : Word) : Hart := h.putQueue q (h.queue q ++ [w])

/-! ### Fields of a vector word (R60) -/

/-- The major opcode. -/
def wMaj (w : IWord) : Nat := bitsOf w.toNat 31 26
/-- VD, VA, VB, K, FN6 (R60). -/
def wD (w : IWord) : Nat := bitsOf w.toNat 25 21
def wA (w : IWord) : Nat := bitsOf w.toNat 20 16
def wB (w : IWord) : Nat := bitsOf w.toNat 15 11
def wK (w : IWord) : Nat := bitsOf w.toNat 10 8
def wFn (w : IWord) : Nat := bitsOf w.toNat 6 1
def wCv (w : IWord) : Bool := w.getLsbD 0
/-- FN11 (R60). -/
def wFn11 (w : IWord) : Nat := bitsOf w.toNat 11 1

/-- The word runs in the vector stream alone (R63): it is pushed into the vector queue. -/
def vectorWord (w : IWord) : Bool :=
  let m := wMaj w
  let fn := bitsOf w.toNat 10 0
  (decide (0x21 ≤ m) && decide (m ≤ 0x2E) && !(decide (m = 0x29) && decide (wFn w = 6))) ||
  (decide (m = 0x2F) && decide (wFn w ≤ 2)) || (decide (0x30 ≤ m) && decide (m ≤ 0x33)) ||
  (decide (m = 0x17) && (decide (fn = 1) || decide (fn = 2))) || (decide (m = 0x19) && decide (fn = 1)) ||
  (decide (m = 0x1A) && decide (fn = 1))

/-- A target type of VCVT (R71): integer (signed, bits), float, or blocked slot. -/
inductive Target where
  | int (signed : Bool) (w : Nat)
  | flt (f : Fmt)
  | slot (n : Nat)
  deriving DecidableEq, Repr

/-- The target of a code (R71). -/
def targetOf (c : Nat) : Target :=
  match c with
  | 8 => .flt fp16 | 9 => .flt bf16 | 10 => .flt fp32 | 11 => .flt e8m10 | 12 => .flt fp64
  | 16 => .slot 0 | 17 => .slot 1 | 18 => .slot 2 | 19 => .slot 3
  | c => .int (c % 2 == 0) (8 * 2 ^ (c / 2 % 4))

/-- The bits of a target's elements; a blocked slot's container comes from the format register (R43, R71). -/
def Target.bits (f : Word) : Target → Nat
  | .int _ w => w
  | .flt g => g.width
  | .slot _ => containerOf (fmtWm1 f + 1)

/-- The type code of a VTYPE's element type (R71, R193); none for blocked-narrow. -/
def typeCode (t : VT) : Nat :=
  match t.cls with
  | 0 => 2 * (Nat.log2 t.ew - 3)
  | 1 => 2 * (Nat.log2 t.ew - 3) + 1
  | 2 => if t.ew = 16 then 8 else if t.ew = 32 then 10 else 12
  | 3 => 9
  | 4 => 11
  | _ => 16

/-- Registers of a conversion's destination (R159). -/
def cvtRegs (t : VT) (w : IWord) (tb : Nat) : Nat :=
  match wFn w / 16 with
  | 0 => t.g
  | 1 => t.g * (tb / t.ew)
  | _ => Nat.max 1 (t.g / (t.ew / tb))

/-- Registers of an index group (R171). -/
def idxRegs (t : VT) (iw : Nat) : Nat := Nat.max 1 (t.g * iw / t.ew)
/-- The index width of VGS (R70). -/
def idxBits (w : IWord) : Nat :=
  match wFn w / 16 with
  | 0 => 32
  | 1 => 64
  | _ => 16

/-- Two register ranges share a register. -/
def overlaps (a m b n : Nat) : Bool := decide (a < b + n) && decide (b < a + m)
/-- The overlap rule of R142: sharing a register without being the same set. -/
def badOverlap (a m b n : Nat) : Bool := overlaps a m b n && !(decide (a = b) && decide (m = n))

end Sys2Proof.Machine
end

