-- ==== Sys2Proof/Machine/Homes.lean ====
section
/-! DEFINITION. The homes of lines (R273, R274, R290 to R296): which words are owned and by whom, what waits, what is lost, writes at
the ordering point, taking and asking owners, commutative ranges (R184, R185, R303, R304), and poisoned data (R383). -/
namespace Sys2Proof.Machine

/-! ### Lines and their homes -/

/-- The line of a memory key. -/
def lineOf (key : Nat) : Nat := key / 64
/-- The word of the line (R290). -/
def wordOf (key : Nat) : Nat := key % 64 / 4

/-- The home slice of a line of DRAM (R274). -/
def homeSlice (line : Nat) : Nat :=
  let pa := line * 64
  64 * fold (pa / 2 ^ 9) 2 + 8 * (pa / 64 % 8) + fold (pa / 2 ^ 11) 3

/-- LPDDR6 begins here (R348). -/
def lpddrBase : Nat := 0x010000000000

/-- The channel of a line: stacked-DRAM pseudo-channels as 256 x die + 128 x stack + pseudo-channel, LPDDR6 sub-channels
from 1,024 up as 1024 + 2 x channel + sub-channel (R348, R280). -/
def channelOf (line : Nat) : Nat :=
  let pa := line * 64
  if pa < lpddrBase then 256 * fold (pa / 2 ^ 9) 2 + 128 * (pa / 64 % 2) + fold (pa / 2 ^ 7) 7
  else 1024 + 2 * fold (pa / 2 ^ 8) 5 + pa / 64 % 2

/-- The home's entry of a line; a line not listed is all unregistered (R292). -/
def HomeLine.fresh (line : Nat) : HomeLine :=
  { line := line, words := Vector.replicate 16 .unreg, busy := 0, locked := false, serving := [], awaiting := []
    gathered := [] }
def State.homeAt (s : State) (line : Nat) : HomeLine :=
  (s.coh.homes.find? (·.line == line)).getD (HomeLine.fresh line)
/-- The state of a word at its home. -/
def HomeLine.word (hl : HomeLine) (w : Nat) : WState := hl.words.get ⟨w % 16, by omega⟩
/-- A core's general line. -/
def Core.lineAt (c : Core) (line : Nat) : Option L1Line := c.l1.find? (·.line == line)

/-- The writebacks of evicted lines that are still on their way from a core (R298), the oldest first: a word is in one of them at most, for a
registration waits for its writeback. -/
def State.wbsOf (s : State) (n line : Nat) : List Msg :=
  s.coh.net.filter fun m => m.kind == .wb && m.sender == n && m.line == line

/-- A byte as the coherence order has it now: the owner's L1 value while a core owns the word, or the value in its writeback,
otherwise the home's (R284, R296). -/
def State.cohByte (s : State) (key : Nat) : Byte :=
  match (s.homeAt (lineOf key)).word (wordOf key) with
  | .core n =>
    let held := ((s.coreAt n).lineAt (lineOf key)).bind fun l => if l.reg.getLsbD (wordOf key) then some l.data else none
    let sent := ((s.wbsOf n (lineOf key)).find? fun m => m.dirty.getLsbD (wordOf key)).map (·.data)
    match held.or sent with
    | some d => fld d (8 * (key % 64)) 8
    | none => s.byte key
  | _ => s.byte key

/-- Consecutive such bytes (R57). -/
def State.cohNat (s : State) (key : Nat) : Nat → Nat
  | 0 => 0
  | n + 1 => (s.cohByte key).toNat + 256 * s.cohNat (key + 1) n

/-! ### Words of a line -/

/-- The words of a line that `len` bytes at a key touch. -/
def wordMask (key len : Nat) : BitVec 16 :=
  BitVec.ofNat 16 ((2 ^ ((key % 64 + len + 3) / 4 - key % 64 / 4) - 1) * 2 ^ (key % 64 / 4))

/-- The byte mask of `len` bytes at a key. -/
def byteMask (key len : Nat) : BitVec 64 := BitVec.ofNat 64 ((2 ^ len - 1) * 2 ^ (key % 64))

/-- The words that hold a byte of a byte mask. -/
def wordsOfBytes (m : BitVec 64) : BitVec 16 :=
  BitVec.ofNat 16 (joinNat 1 (fun w => if m.extractLsb' (4 * w) 4 = 0#4 then 0 else 1) 16)

/-- Spread a word mask over the bytes. -/
def bytesOfWords (m : BitVec 16) : BitVec 64 := BitVec.ofNat 64 (joinNat 4 (fun w => if m.getLsbD w then 15 else 0) 16)

/-- Spread a byte mask over the bits of a line. -/
def bitsOfBytes (m : BitVec 64) : BitVec 512 := BitVec.ofNat 512 (joinNat 8 (fun b => if m.getLsbD b then 255 else 0) 64)

/-- Bytes of `new` where the mask is set, else of `old`. -/
def mergeBytes (old new : BitVec 512) (m : BitVec 64) : BitVec 512 :=
  (old &&& ~~~(bitsOfBytes m)) ||| (new &&& bitsOfBytes m)

/-- A line needs a split entry while its registered words have more than one owner, or one is lost (R290). -/
def HomeLine.needsSplit (hl : HomeLine) : Bool :=
  let owners := hl.words.toList.filter (· != .unreg)
  owners.any (· == .lost) || owners.any fun w => some w != owners.head?

/-- Change a home's entry; an entry with nothing to hold is dropped. -/
def State.onHome (s : State) (line : Nat) (f : HomeLine → HomeLine) : State :=
  let hl := f (s.homeAt line)
  let rest := s.coh.homes.filter fun g => g.line != line
  let idle := hl == HomeLine.fresh line
  let sp := s.coh.split.filter (fun l => l != line)
  { s with coh := { s.coh with
      homes := if idle then rest else hl :: rest
      split := if hl.needsSplit then (if s.coh.split.any (· == line) then s.coh.split else s.coh.split ++ [line]) else sp } }

/-- Set the state of the words of a mask. -/
def HomeLine.setWords (hl : HomeLine) (m : BitVec 16) (w : WState) : HomeLine :=
  { hl with words := Vector.ofFn fun i : Fin 16 => if m.getLsbD i.val then w else hl.words.get i }

/-- The words of a mask in a state that satisfies `p`. -/
def HomeLine.select (hl : HomeLine) (m : BitVec 16) (p : WState → Bool) : BitVec 16 :=
  BitVec.ofNat 16 (joinNat 1 (fun w => if m.getLsbD w && p (hl.word w) then 1 else 0) 16)

/-- Registered to an engine. -/
def WState.isEngine : WState → Bool
  | .engine _ => true
  | _ => false
/-- Registered to a core. -/
def WState.isCore : WState → Bool
  | .core _ => true
  | _ => false

/-- An access to the words of a mask waits at the home: the line is locked, or a word is busy or registered to an engine (R295, R296,
R309). -/
def HomeLine.waits (hl : HomeLine) (m : BitVec 16) : Bool :=
  hl.locked || !(hl.busy &&& m == 0#16) || !(hl.select m WState.isEngine == 0#16)

/-- A word of the mask is lost (R307). -/
def HomeLine.anyLost (hl : HomeLine) (m : BitVec 16) : Bool := !(hl.select m (· == .lost) == 0#16)

/-- The fields of an error record (R387). -/
def recAddr (r : BitVec 256) : Nat := bytesAt r 8 8
def recUnit (r : BitVec 256) : Nat := bytesAt r 16 2
def recWhere (r : BitVec 256) : Nat := bytesAt r 18 2
def recKind (r : BitVec 256) : Nat := bytesAt r 20 1
def recClass (r : BitVec 256) : Nat := bytesAt r 21 1

/-- The line lies in an L2 row, in a row of the registration table, or on a DRAM channel that is under test, or in a slice with a column
under test: accesses to it wait (R388). -/
def State.underTest (s : State) (line : Nat) : Bool :=
  s.sys.pending.any fun p =>
    let at_ := lineOf (dramKey (recAddr p.er))
    let table := recUnit p.er == 1 || recUnit p.er == 11
    (p.what == .row && table && at_ == line) || (p.what == .column && table && homeSlice at_ == homeSlice line) ||
    (p.what == .channel && channelOf at_ == channelOf line)

/-- A row of a core's L1, scratchpad, operand memory or accumulators, or of a cluster's combine buffer, is under test, or a column of the
array that it lies in, which for a scratchpad is a bank: accesses to it wait (R388). `place` is a line, a line of the scratchpad, 64 x slot +
row of the operand memory, or 128 x tile + row of an accumulator, by the core's physical slots and tiles. -/
def State.rowTest (s : State) (unit core place : Nat) : Bool :=
  s.sys.pending.any fun p => recUnit p.er == unit && recWhere p.er == core &&
    (p.what == .row && p.place == place || p.what == .column && (unit != 2 || p.place % 8 == place % 8))

/-- The die of a line's memory controller: compute dies 0 to 3, I/O dies 4 and 5 (R348). -/
def ctlDie (line : Nat) : Nat := let c := channelOf line; if c < 1024 then c / 256 else 4 + (c - 1024) / 32

/-- What an access between two dies meets (R383): nothing, a link that retrains and carries nothing (`some none`), or ECC once it has waited
its time. -/
def State.dieDown (s : State) (a b : Nat) : Option (Option Cause) :=
  if a == b || s.coh.retrain.isEmpty then none
  else
    let link := 8 + Config.dieLink a b
    if !s.coh.retrain.any (· == link) then none
    else if s.coh.expired.any (· == 256 + link) then some (some .ecc) else some none

/-- The scratchpad row of a key is under test. -/
def State.bankTest (s : State) (key : Nat) : Bool :=
  decide (2 ^ 48 ≤ key) && s.rowTest 2 ((key - 2 ^ 48) / 2 ^ 21) (key % 2 ^ 21 / 64)

/-- A message that changes who owns words of the mask is on its way: an owner's writeback, or a grant (R294, R297). -/
def State.inFlight (s : State) (line : Nat) (m : BitVec 16) : Bool :=
  s.coh.net.any fun w => (w.kind == .wb || w.kind == .gnt) && w.line == line && !(w.words &&& m == 0#16)

/-- The declared range that holds a line. -/
def State.rangeOf (s : State) (line : Nat) : Option CRange :=
  s.coh.ranges.find? fun r => r.segs.any fun (b, n) => decide (b ≤ 64 * line) && decide (64 * line < b + n)

/-- The cores that own a word of the mask. -/
def HomeLine.coreOwners (hl : HomeLine) (m : BitVec 16) : List Nat :=
  ((upTo 16).filterMap fun w => if m.getLsbD w then (match hl.word w with | .core n => some n | _ => none) else none).eraseDups

/-- What keeps an access to words of a line waiting at the home: the line's lock, busy words or words of engines, a writeback or a grant on
its way, a test of the row or channel, or of an owner's L1 row or a partial's row in a combine buffer (R388). In a declared range the access touches every word (R303). -/
def State.lineHeld (s : State) (line : Nat) (m : BitVec 16) : Bool :=
  let hl := s.homeAt line
  let w := if (s.rangeOf line).isSome then 0xFFFF#16 else m
  hl.waits m || !(hl.busy &&& w == 0#16) || s.underTest line || s.inFlight line w || ((hl.coreOwners w).any fun n => s.rowTest 0 n line) ||
  ((s.rangeOf line).isSome && s.coh.comb.any fun b => b.partialLine && b.line == line && s.rowTest 6 b.cluster line)

def State.lineLost (s : State) (line : Nat) (m : BitVec 16) : Bool := (s.homeAt line).anyLost m

/-! ### Data that cannot be read (R383, R389) -/

/-- Bytes of a retired channel, or of a scratchpad row fenced off, or of a bank with a column fenced off: every access faults with ECC
(R389). -/
def State.deadAt (s : State) (key len : Nat) : Bool :=
  (decide (key < 2 ^ 48) && s.coh.dead.any fun c => c == channelOf (lineOf key)) ||
  s.coh.deadRows.any fun r =>
    (r.1 == 2 && decide (2 ^ 48 + r.2.1 * 2 ^ 21 + 64 * r.2.2 < key + len) && decide (key < 2 ^ 48 + r.2.1 * 2 ^ 21 + 64 * r.2.2 + 64)) ||
    (r.1 == 18 && (List.range' (key / 64) ((key + len - 1) / 64 + 1 - key / 64)).any fun l =>
      decide ((2 ^ 48 + r.2.1 * 2 ^ 21) / 64 ≤ l) && decide (l < (2 ^ 48 + (r.2.1 + 1) * 2 ^ 21) / 64) && l % 8 == r.2.2 % 8)

/-- A row of a core's operand memory or accumulators is fenced off, or a column of that array (R389). -/
def State.deadRow (s : State) (unit core place : Nat) : Bool :=
  s.coh.deadRows.any fun r => r == (unit, core, place) || (r.1 == unit + 16 && r.2.1 == core)

/-- The rows that an array has lost to structures fenced off (R389): each row of `unit` that `p` names one, each column `per` (log entry
164). -/
def State.lostRows (s : State) (unit per : Nat) (p : Nat × Nat → Bool) : Nat :=
  (s.coh.deadRows.filter fun r => r.1 == unit && p r.2).length + per * (s.coh.deadRows.filter fun r => r.1 == unit + 16 && p r.2).length

/-- A byte of the range has an uncorrectable error (R383), or cannot be reached any more (R389). -/
def State.poisoned (s : State) (key len : Nat) : Bool :=
  (s.coh.poison.any fun p => decide (p < key + len) && decide (key < p + 4)) || s.deadAt key len

/-- The words of a line whose data at the home are poisoned (R383). -/
def State.poisonWords (s : State) (line : Nat) : BitVec 16 :=
  BitVec.ofNat 16 (joinNat 1 (fun w => if s.poisoned (64 * line + 4 * w) 4 then 1 else 0) 16)

/-! ### Writes at the ordering point -/

/-- A write to a line performs at its ordering point: links on the line are cleared (R177), and monitors on it are hit (R126,
R326). `keep` is the link a `vscc` checks. -/
def State.noteWrite (s : State) (line : Nat) (keep : Option Nat := none) : State :=
  { s with coh := { s.coh with
      links := s.coh.links.filter fun l => l.2 != line || some l.1 == keep
      monitors := updIf (fun m => m.line == line) (fun m => { m with hit := true }) s.coh.monitors } }

/-- An atomic that stores nothing, or a write to a word registered to the writer's own L1, which the home does not see: it
clears the links on the line (R177) and hits no monitor (R126: for a cached address the point is the home). -/
def State.clearLinks (s : State) (line : Nat) : State :=
  { s with coh := { s.coh with links := s.coh.links.filter fun l => l.2 != line } }

/-- Write (key, byte) pairs of one line at a bank, a home or a controller. -/
def State.applyBytes (s : State) (bytes : List (Nat × Byte)) : State :=
  { s with mem := bytes.foldl (fun m b => memPut m b.1 (b.2 ^^^ padOf s.sys.pads b.1)) s.mem }

/-- A line's 64 bytes as memory holds them. -/
def State.memLine (s : State) (line : Nat) : BitVec 512 := BitVec.ofNat 512 (s.memNat (64 * line) 64)
/-- A line as the coherence order has it now. -/
def State.cohLine (s : State) (line : Nat) : BitVec 512 := BitVec.ofNat 512 (s.cohNat (64 * line) 64)

/-- The (key, byte) pairs of a masked line. -/
def maskedBytes (line : Nat) (m : BitVec 64) (d : BitVec 512) : List (Nat × Byte) :=
  (upTo 64).filterMap fun b => if m.getLsbD b then some (64 * line + b, fld d (8 * b) 8) else none

/-- Write a masked line at its ordering point. -/
def State.applyLine (s : State) (line : Nat) (m : BitVec 64) (d : BitVec 512) : State :=
  s.applyBytes (maskedBytes line m d)

/-! ### Owners (R296, R297, R307) -/

/-- Change a core's general line. -/
def Core.onLine (c : Core) (line : Nat) (f : L1Line → L1Line) : Core :=
  { c with l1 := (updIf (·.line == line) f c.l1).filter fun l => !(l.valid ||| l.reg ||| l.poison == 0#16) }

/-- Words of a mask become invalid in a core's L1. -/
def dropWords (m : BitVec 16) (l : L1Line) : L1Line :=
  { l with valid := l.valid &&& ~~~m, reg := l.reg &&& ~~~m, dirty := l.dirty &&& ~~~m, poison := l.poison &&& ~~~m }

/-- The home applies a writeback (R296 WB): dirty data of words that are still the sender's; a poisoned dirty word becomes lost
(R307), the others unregistered. -/
def applyWb (w : Msg) (s : State) : State :=
  let mine := (s.homeAt w.line).select w.words (· == .core w.sender)
  let t := s.applyLine w.line (bytesOfWords (mine &&& w.dirty &&& ~~~w.poison)) w.data
  t.onHome w.line fun g => (g.setWords mine .unreg).setWords (mine &&& w.dirty &&& w.poison) .lost

/-- A message leaves the network. -/
def State.dropMsg (s : State) (m : Msg) : State := { s with coh := { s.coh with net := dropFirst (· == m) s.coh.net } }

/-- The writebacks of the core that are still on their way arrive first (R294). -/
def landWb (line n : Nat) (s : State) : State := (s.wbsOf n line).foldl (fun t w => applyWb w (t.dropMsg w)) s

/-- The home takes one core's words of a mask: dirty data are written into the home value, a poisoned dirty word becomes
lost, the others become unregistered, and the L1's words invalid (R296, R297, R307). A core that is fenced off answers nothing, and its words
become lost (R307). -/
def takeFrom (line : Nat) (m : BitVec 16) (n : Nat) (s0 : State) : State :=
  let s := landWb line n s0
  let hl := s.homeAt line
  let mine := hl.select m (· == .core n)
  if (s.coreAt n).fenced then s.onHome line (·.setWords mine .lost)
  else match (s.coreAt n).lineAt line with
  | none => s.onHome line (·.setWords mine .unreg)
  | some l =>
    let bad := mine &&& l.reg &&& l.dirty &&& l.poison
    let good := mine &&& l.reg &&& l.dirty &&& ~~~l.poison
    let t := (s.applyLine line (bytesOfWords good) l.data).onCore n (·.onLine line (dropWords mine))
    t.onHome line fun g => (g.setWords mine .unreg).setWords bad .lost

/-- The home takes the words of a mask from every core that owns one, whatever split entry that needs. -/
def takeWords (line : Nat) (m : BitVec 16) (s : State) : State :=
  ((s.homeAt line).coreOwners m).foldl (fun t n => takeFrom line m n t) s

/-- One owner is asked for its values (R296 FWD, R297): a poisoned dirty word is found out and becomes lost, as do the words of a core that
is fenced off (R307). -/
def askOne (line : Nat) (m : BitVec 16) (s0 : State) (n : Nat) : State :=
  let s := landWb line n s0
  let mine := (s.homeAt line).select m (· == .core n)
  if (s.coreAt n).fenced then s.onHome line (·.setWords mine .lost)
  else match (s.coreAt n).lineAt line with
  | none => s
  | some l =>
    let bad := mine &&& l.reg &&& l.dirty &&& l.poison
    if bad = 0#16 then s
    else (s.onHome line (·.setWords bad .lost)).onCore n (·.onLine line (dropWords bad))

/-- Owners of words of a mask are asked for their values, whatever split entry that needs. -/
def askWords (line : Nat) (m : BitVec 16) (s : State) : State := ((s.homeAt line).coreOwners m).foldl (askOne line m) s

/-! ### Split entries (R290, R300) -/

/-- The split entries of a line's slice, oldest first. -/
def State.splitPool (s : State) (line : Nat) : List Nat := s.coh.split.filter fun l => homeSlice l == homeSlice line

/-- A line holds nothing that keeps its words from being recalled: no engine's or lost word, and nothing served or on its way (R299, R300). -/
def State.recallFree (s : State) (line : Nat) : Bool :=
  !s.lineHeld line 0xFFFF#16 && !s.lineLost line 0xFFFF#16 && (s.homeAt line).serving.isEmpty

/-- The oldest split entries that can be freed are, by recalling their words, until the slice has one of its 4,096 free (R300); none when
none can. -/
def State.freeSplit (s : State) (line : Nat) : Option State :=
  let t := (s.splitPool line).foldl (fun t l =>
    if (t.splitPool line).length < 4096 || !t.recallFree l then t else takeWords l 0xFFFF#16 t) s
  if (t.splitPool line).length < 4096 then some t else none

/-- What becomes of a line in `t` needs a split entry, which the line has not, and none is free (R300). -/
def State.splitFull (s t : State) (line : Nat) : Bool :=
  decide (4096 ≤ (s.splitPool line).length) && !s.coh.split.any (· == line) && (t.homeAt line).needsSplit

/-- A change of a line's words that may need a split entry, which is freed first; none while the change waits for one (R300). -/
def State.withSplit (s : State) (line : Nat) (f : State → State) : Option State :=
  if s.splitFull (f s) line then (s.freeSplit line).map f else some (f s)

/-- Words that would become lost find no split entry (R300, R307). -/
def State.lossWaits (s : State) (line : Nat) (m : BitVec 16) : Bool :=
  (s.withSplit line (takeWords line (if (s.rangeOf line).isSome then 0xFFFF#16 else m))).isNone

/-- Whether an access to words of a line waits; scratchpad, uncached and remote lines have no home entry. -/
def State.lineWaits (s : State) (line : Nat) (m : BitVec 16) : Bool := s.lineHeld line m || s.lossWaits line m

/-- The home takes the words of a mask from every core that owns one (R296, R297). -/
def State.takeOwners (s : State) (line : Nat) (m : BitVec 16) : State := (s.withSplit line (takeWords line m)).getD s

/-- Owners of words of a mask are asked for their values (R296 FWD, R297, R307). -/
def State.askOwners (s : State) (line : Nat) (m : BitVec 16) : State := (s.withSplit line (askWords line m)).getD s

/-! ### Commutative ranges (R184, R185, R303, R304) -/

/-- The element format of a range (R184): integers, FP32 or FP64. -/
def CRange.fmt (r : CRange) : Option Fmt := if r.cls = 2 then some (if r.ew = 64 then fp64 else fp32) else none

/-- The identity of a range's operation in its element format (R304). -/
def CRange.ident (r : CRange) : Nat :=
  match r.op.toNat with
  | 1 => match r.fmt with
    | some f => f.inf false
    | none => if r.cls = 0 then 2 ^ (r.ew - 1) - 1 else 2 ^ r.ew - 1
  | 2 => match r.fmt with
    | some f => f.inf true
    | none => if r.cls = 0 then 2 ^ (r.ew - 1) else 0
  | _ => 0

/-- The operation of a range on two elements (R304). -/
def CRange.apply (r : CRange) (a b : Nat) : Nat :=
  match r.op.toNat with
  | 0 => match r.fmt with
    | some f => (fAdd f .rne a b).1
    | none => (a + b) % 2 ^ r.ew
  | 1 => match r.fmt with
    | some f => (fExtreme f false a b).1
    | none => if r.cls = 0 then (if sextI a r.ew ≤ sextI b r.ew then a else b) else min a b
  | 2 => match r.fmt with
    | some f => (fExtreme f true a b).1
    | none => if r.cls = 0 then (if sextI a r.ew ≤ sextI b r.ew then b else a) else max a b
  | _ => a ||| b

/-- The elements of a line, one function of each index, as a line again. -/
def mapElems (ew : Nat) (f : Nat → Nat) : BitVec 512 := BitVec.ofNat 512 (joinNat ew f (512 / ew))

/-- Element `i` of a line. -/
def lineElem (d : BitVec 512) (ew i : Nat) : Nat := elemOf d.toNat ew i

/-- Whether element `i` of width `ew` of a line has its words in a mask. -/
def elemIn (m : BitVec 16) (ew i : Nat) : Bool := m.getLsbD (i * ew / 32)

/-- Fold the partials `ps`, in the order given, into a line: s := identity, s := op(s, p) for each that holds the element, home :=
op(home, s) (R304). -/
def foldPartials (r : CRange) (home : BitVec 512) (ps : List (BitVec 16 × BitVec 512)) : BitVec 512 :=
  mapElems r.ew fun i =>
    let mine := ps.filter fun p => elemIn p.1 r.ew i
    r.apply (lineElem home r.ew i) (mine.foldl (fun a p => r.apply a (lineElem p.2 r.ew i)) r.ident)

/-- The partials of a line in ascending cluster order (R304). -/
def State.partials (s : State) (line : Nat) : List (BitVec 16 × BitVec 512) :=
  (upTo 160).flatMap fun c =>
    (s.coh.comb.filter fun b => b.partialLine && b.line == line && b.cluster == c).map fun b => (b.words, b.data)

/-- The home folds partials into a line (R304); where there is one, the fold is a write there (R126, R177). -/
def State.foldLine (s : State) (r : CRange) (line : Nat) (ps : List (BitVec 16 × BitVec 512)) : State :=
  let t := s.applyLine line (-1#64) (foldPartials r (s.memLine line) ps)
  if ps.isEmpty then t else t.noteWrite line

/-- COLLECTION (R303): the home recalls every core-registered word of the line, every combine buffer answers with its
partials and resets them, and the home folds them; nothing for a line outside every declared range. -/
def State.collect (s : State) (line : Nat) : State :=
  match s.rangeOf line with
  | none => s
  | some r =>
    let t := s.takeOwners line 0xFFFF#16
    let u := t.foldLine r line (t.partials line)
    { u with coh := { u.coh with comb := u.coh.comb.filter fun b => !(b.partialLine && b.line == line) } }

/-! ### Reads at a home (R296, R303, R307, R308) -/

/-- Words of a line are made ready to be read at their home: partials are collected and owners asked. -/
def State.readyHome (s : State) (line : Nat) (m : BitVec 16) : State := (s.collect line).askOwners line m

/-- A read at a home, once nothing makes it wait: a lost word, an error, or the value. -/
inductive HomeRead where
  | wait
  | fault (c : Cause)
  | val (v : Nat)
  deriving DecidableEq, Repr

/-- A read of bytes of one line at their home (R296, R383), and the state after. -/
def State.homeRead (s : State) (key len : Nat) : HomeRead × State :=
  let line := lineOf key
  let m := wordMask key len
  if s.lineWaits line m then (.wait, s)
  else
    let t := s.readyHome line m
    if t.lineLost line m then (.fault .ownerLost, t)
    else if t.poisoned key len then (.fault .ecc, t)
    else (.val (t.cohNat key len), t)

/-! ### Evictions and recalls at a slice (R290, R299, R300) -/

/-- A line can be evicted, or its split entry freed: no word is an engine's or lost, and nothing is served or on its way (R299, R300). -/
def State.recallable (s : State) (line : Nat) : Bool := s.recallFree line && !s.lossWaits line 0xFFFF#16

/-- A slice evicts a line whose words are recalled (R299): links are cleared and the line is written back under R280; none while its
channel's queue is full. The home value stays in memory, so the queued entry carries no byte. -/
def State.evictHome (s : State) (line : Nat) : Option State :=
  let ch := channelOf line
  let n := (s.coh.wq.filter (·.chan == ch)).length
  if 64 ≤ n then none
  else
    let t := (s.takeOwners line 0xFFFF#16).clearLinks line
    some { t with coh := { t.coh with
      wq := t.coh.wq ++ [{ chan := ch, line := line, mask := 0, data := 0 }]
      draining := if 48 ≤ n + 1 && !t.coh.draining.any (· == ch) then ch :: t.coh.draining else t.coh.draining } }

/-- The line entries of the slice of a line: 49,152, but for rows and entries fenced off (R290, R389). -/
def State.lineCount (s : State) (line : Nat) : Nat :=
  let here := fun r : Nat × Nat => homeSlice r.2 == homeSlice line
  49152 - s.lostRows 1 3072 here - s.lostRows 11 3072 here

/-- The slice of a line has an entry for it, or one of its entries is free (R290). -/
def State.lineFree (s : State) (line : Nat) : Bool :=
  s.coh.homes.any (·.line == line) ||
  decide ((s.coh.homes.filter fun h => homeSlice h.line == homeSlice line).length < s.lineCount line)

/-- The line that gives way in a full slice: of those that can, the one changed longest ago (log entry 152). -/
def State.lineVictim (s : State) (line : Nat) : Option Nat :=
  ((s.coh.homes.filter fun h => homeSlice h.line == homeSlice line && s.recallable h.line).getLast?).map (·.line)

/-- Registering words of a line would need a split entry of its slice, and none is free (R300). -/
def State.regFull (s : State) (line : Nat) (m : BitVec 16) (w : WState) : Bool := s.splitFull (s.onHome line (·.setWords m w)) line

/-- The oldest split entry of a line's slice that can be freed (R300). -/
def State.splitVictim (s : State) (line : Nat) : Option Nat := (s.splitPool line).find? s.recallFree

/-- Room for a registration: a line of a full slice is evicted (R299), and with no split entry free the oldest that can be is freed by
recalling its words (R300); none while the request waits. -/
def State.homeRoom (s : State) (line : Nat) (m : BitVec 16) (w : WState) : Option State :=
  (if s.lineFree line then some s else (s.lineVictim line).bind s.evictHome).bind fun t =>
    if t.regFull line m w then t.freeSplit line else some t

end Sys2Proof.Machine
end

