-- ==== Sys2Proof/Machine/Xlat.lean ====
section
/-! DEFINITION. Where an address leads: local addresses (R28), the page tables (R340 to R343), the vector map (R344), the
key-id and range checks (R346, R348), the route of an access (R273), and homes and channels (R274, R348). -/
namespace Sys2Proof.Machine

/-- A kind of access. -/
inductive Acc where
  | read | write | exec
  deriving DecidableEq, Repr

/-! ### Partitions (R346, R348) -/

/-- The key id and the range of a translation with RM = 0 are those of the partition, or of the shared pages (R346); a channel removed from
its tier holds no memory (R389). -/
def State.owns (s : State) (part pa : Nat) (uc : Bool) : Bool :=
  let kid := pa / 2 ^ 48
  let a := pa % 2 ^ 48
  if s.coh.gone.any (· == channelOf (lineOf (dramKey pa))) then false
  else if uc then decide (kid = 15) && (inGib s.sys.shared.1 a || inGib s.sys.shared.2 a)
  else match s.partAt part with
    | none => false
    | some p => decide (kid = part + 1) && (inGib p.stacked a || inGib p.lpddr a)

/-! ### Page tables -/

/-- A walk of page tables: its result, none for a wait at a home, or a fault, with the state after the reads it made. -/
abbrev Walk (α : Type) := ExceptT (Option Cause) (StateM State) α

/-- Run it. -/
def Walk.go {α : Type} (w : Walk α) (s : State) : Except (Option Cause) α × State := (ExceptT.run w).run s

/-- An 8-byte table entry, read from a die at its home as a `.dev` load (R340, R343): the home refuses memory that is not the partition's
(R310, R347), and the read waits or faults there, or at a link on its way (R383), as any other. -/
def pte (die part table idx : Nat) : Walk Word := do
  let s ← get
  let pa := table + 8 * idx
  if !s.owns part pa false then throw (some .partition)
  if let some c := s.dieDown die (homeSlice (lineOf (dramKey pa)) / 64) then throw c
  let (r, t) := s.homeRead (dramKey pa) 8
  set t
  match r with
  | .wait => throw none
  | .fault c => throw (some c)
  | .val v => pure (BitVec.ofNat 64 v)

/-- PA[51:12] of an entry. -/
def ptePa (e : Word) : Nat := bitsOf e.toNat 51 12 * 4096

/-- The conditions of R341 that hold for a leaf and for the vector map: zero fields, W without R, UC with RM, MODULE without
RM. -/
def pteFieldsBad (e : Word) : Bool :=
  let n := e.toNat
  decide (bitsOf n 55 52 ≠ 0) || decide (bitsOf n 11 10 ≠ 0) || (e.getLsbD 3 && !e.getLsbD 2) ||
  (e.getLsbD 7 && e.getLsbD 8) || (decide (bitsOf n 63 56 ≠ 0) && !e.getLsbD 8)

/-- A table entry points to the next table: valid, not a leaf, bits 9:2 and the other zero fields zero (R341). -/
def tableNext (e : Word) : Option Nat :=
  let n := e.toNat
  if e.getLsbD 0 && !e.getLsbD 1 && decide (bitsOf n 11 2 = 0) && decide (bitsOf n 63 52 = 0) then some (ptePa e)
  else none

/-- A leaf of log size 21 (level 1) or 12 (level 0): its fields are legal and its PA bits below the page size are zero
(R341, R342). -/
def leafOk (e : Word) (level : Nat) : Bool :=
  e.getLsbD 0 && e.getLsbD 1 && !pteFieldsBad e &&
  (if level = 1 then !e.getLsbD 5 && decide (bitsOf e.toNat 20 12 = 0)
   else !e.getLsbD 5 || decide (bitsOf e.toNat 15 12 = 0))

/-- A value that must be there, or PAGE. -/
def orPage {α : Type} : Option α → Walk α
  | some x => pure x
  | none => throw (some .page)

/-- A leaf that must be legal, or PAGE. -/
def leafOr (e : Word) (level logSize : Nat) : Walk (Word × Nat) := orPage (if leafOk e level then some (e, logSize) else none)

/-- The walk of the page tables: the leaf and the log of its page size (R340, R341). -/
def walkTables (die part root va : Nat) : Walk (Word × Nat) := do
  let t2 ← orPage (tableNext (← pte die part root (bitsOf va 51 39)))
  let t1 ← orPage (tableNext (← pte die part t2 (bitsOf va 38 30)))
  let e1 ← pte die part t1 (bitsOf va 29 21)
  if e1.getLsbD 1 then leafOr e1 1 21
  else
    let t0 ← orPage (tableNext e1)
    let i := bitsOf va 20 12
    let e0 ← pte die part t0 i
    if !leafOk e0 0 then throw (some .page)
    if e0.getLsbD 5 then
      -- a 64 KiB page: any one of its sixteen entries (R342)
      let e ← pte die part t0 (i / 16 * 16 + Config.s64Entry (← get).env.free % 16)
      if e.getLsbD 5 then leafOr e 0 16 else throw (some .page)
    else pure (e0, 12)

/-- A walk from a root, and the state after its reads. -/
def State.walk (s : State) (die part root va : Nat) : Except (Option Cause) (Word × Nat) × State :=
  (walkTables die part root va).go s

/-- A leaf or vector-map entry at page `logSize` applied to an access: PERM, then PARTITION, then the route (R116, R165,
R273, R278, R346, R361). -/
def State.route (s : State) (part : Nat) (e : Word) (logSize va : Nat) (acc : Acc) (scalar : Bool) : Except Cause Loc :=
  let pa := ptePa e / 2 ^ logSize * 2 ^ logSize + va % 2 ^ logSize
  let perm := match acc with
    | .read => e.getLsbD 2
    | .write => e.getLsbD 3
    | .exec => e.getLsbD 4
  if !perm then .error .perm
  else if e.getLsbD 8 then
    let m := bitsOf e.toNat 63 56
    .ok { kind := .remote, key := remoteKey m pa, pa := pa, module := m, ar := e.getLsbD 9 && Config.direct m
          peer := Config.peerAllows m (pa / 2 ^ 48) }
  else if !s.owns part pa (e.getLsbD 7) then .error .partition
  else if e.getLsbD 7 then .ok { kind := .uncached, key := dramKey pa, pa := pa }
  else if scalar && acc == .read && e.getLsbD 6 && !e.getLsbD 3 then .ok { kind := .roPath, key := dramKey pa, pa := pa }
  else .ok { kind := .cached, key := dramKey pa, pa := pa }

/-- The entry that a TLB still holds for an address (R343). -/
def Core.tlbFor (c : Core) (part ctx va : Nat) : Option TlbEntry :=
  c.tlb.find? fun t => t.part == part && t.ctx == ctx && t.vpage == va / 2 ^ t.logSize

/-- The walk of a context's tables from a die; without a root, PAGE. -/
def State.walkFrom (s : State) (die part ctx va : Nat) : Except (Option Cause) (Word × Nat) × State :=
  match s.partAt part with
  | none => (.error (some .page), s)
  | some p => let r := Sparse.get 0 p.roots ctx; if r = 0 then (.error (some .page), s) else s.walk die part r va

/-- The leaf that translates an address for a core: the walk's, or, while the TLB holds an older one, either (R343). -/
def State.leafFor (s : State) (core part ctx va : Nat) : Except (Option Cause) (Word × Nat) :=
  let fresh := (s.walkFrom (core / 160) part ctx va).1
  match (s.coreAt core).tlbFor part ctx va with
  | some t =>
    let same := match fresh with | .ok p => p == (t.entry, t.logSize) | .error _ => false
    if !same && Config.tlbOld s.env.free then .ok (t.entry, t.logSize) else fresh
  | none => fresh

/-- The TLB takes the translation of an access (R343): 1,024 entries, the oldest leaving (log entry 9). -/
def State.tlbFill (s : State) (core part ctx va : Nat) : State :=
  match s.leafFor core part ctx va with
  | .error _ => s
  | .ok (e, k) =>
    (s.walkFrom (core / 160) part ctx va).2.onCore core fun c =>
      let t : TlbEntry := { part := part, ctx := ctx, vpage := va / 2 ^ k, logSize := k, entry := e }
      { c with tlb := (t :: c.tlb.filter fun u => !(u.part == part && u.ctx == ctx && u.vpage == va / 2 ^ u.logSize)).take 1024 }

/-! ### Local addresses (R28) -/

/-- The core and offset of a local address of a hart on `core`, none if malformed. -/
def localTarget (core : Nat) (a : Nat) : Option (Nat × Nat) :=
  let win := bitsOf a 62 61
  let c := bitsOf a 22 21
  if bitsOf a 60 23 ≠ 0 then none
  else if win = 0 then (if c = 0 then some (core, a % 2 ^ 21) else none)
  else if win = 1 then some (clusterOf core * 4 + c, a % 2 ^ 21)
  else none

/-- The bytes lie in scratchpad that the task holds on that core (R28, R258). -/
def State.spadOwned (s : State) (task core off len : Nat) : Bool :=
  match s.placeAt task core with
  | none => false
  | some p => p.spad.any fun (b, l) => decide (b ≤ off) && decide (off + len ≤ b + l)

/-- A local access of `len` bytes (R28): PAGE when malformed, PERM outside the task's allocation. -/
def State.localLoc (s : State) (h : Hart) (a len : Nat) : Except Cause Loc :=
  match localTarget h.core a with
  | none => .error .page
  | some (c, off) =>
    if s.spadOwned h.tk.task c off len then .ok { kind := .bank, key := spadKey c off } else .error .perm

/-- Bit 63 of an address (R28). -/
def isLocal (a : Nat) : Bool := decide (2 ^ 63 ≤ a)

/-! ### The three translations -/

/-- The place of a scalar access, a fault, or none while the walk waits at a home. -/
abbrev Placed := Except (Option Cause) Loc

/-- A fault that needs no walk. -/
def Placed.of (r : Except Cause Loc) : Placed := r.mapError some

/-- A scalar access through the page tables (R29, R116): PAGE, PERM, PARTITION. -/
def State.scalarLoc (s : State) (h : Hart) (a len : Nat) (acc : Acc) : Placed :=
  if isLocal a then (if acc == .exec then .error (some .page) else .of (s.localLoc h a len))
  else if bitsOf a 62 52 ≠ 0 then .error (some .page)
  else match s.leafFor h.core h.tk.part h.tk.ctx a with
    | .error x => .error x
    | .ok (e, k) => .of (s.route h.tk.part e k a acc true)

/-- The vector-map entry is usable (R344). -/
def vmapOk (e : Word) : Bool :=
  e.getLsbD 0 && !pteFieldsBad e && decide (bitsOf e.toNat 29 10 = 0) && decide (bitsOf e.toNat 6 4 = 0) && !e.getLsbD 1

/-- A global access through a context's vector map (R29, R165): PAGE, VMAP, PERM, PARTITION. -/
def State.vmapLoc (s : State) (part ctx a : Nat) (acc : Acc) : Except Cause Loc :=
  if bitsOf a 62 52 ≠ 0 then .error .page
  else if 2 ^ 46 ≤ a then .error .vmap
  else
    let e := match s.partAt part with
      | none => 0
      | some p => Sparse.get 0 p.vmap (65536 * ctx + a / 2 ^ 30)
    if vmapOk e then s.route part e 30 a acc false else .error .vmap

/-- A VMAP command for the page of an address is the next to run: it completes once every element that translated through the old entry has
performed, and new elements of stores wait for it (R345; log entry 161). -/
def State.mapChanging (s : State) (part ctx a : Nat) : Bool :=
  match s.sys.waiting.find? (·.1 == 1) with
  | some (_, .command slot) =>
    let r := Sparse.get 0 s.sys.slots (slot % 512)
    decide (bytesAt r 0 2 = 3) && bytesAt r 2 1 == part && bytesAt r 4 4 == ctx && bytesAt r 8 8 == a / 2 ^ 30
  | _ => false

/-- A vector access of `len` bytes (R165). -/
def State.vectorLoc (s : State) (h : Hart) (a len : Nat) (acc : Acc) : Except Cause Loc :=
  if isLocal a then s.localLoc h a len else s.vmapLoc h.tk.part h.tk.ctx a acc

/-- An access of an engine on a core for a task (R186, R231): local or through the vector map. -/
def State.engineLoc (s : State) (core task part ctx a len : Nat) (acc : Acc) : Except Cause Loc :=
  if isLocal a then
    match localTarget core a with
    | none => .error .page
    | some (c, off) => if s.spadOwned task c off len then .ok { kind := .bank, key := spadKey c off } else .error .perm
  else s.vmapLoc part ctx a acc

end Sys2Proof.Machine
end

