-- ==== Sys2Proof/Machine/Paths.lean ====
section
/-! DEFINITION. The moves of memory accesses at their ordering points (R273, R282): owners and homes, self-invalidation,
collection of commutative ranges (R303, R304), combine buffers (R305, R306), controller write queues (R280), the race
detector (R390), scalar loads and stores, and atomics (R117 to R119). The messages that carry these moves one by one are in
Coherence.lean. -/
namespace Sys2Proof.Machine

/-- What a read gives: a wait, a fault, or a value. -/
inductive Rd where
  | wait (w : Wait)
  | fault (c : Cause)
  | val (v : Nat)
  deriving DecidableEq, Repr

/-! ### Controllers (R280) -/

/-- Write the queued lines of a controller that satisfy `p` to DRAM, in arrival order. -/
def State.flushQueue (s : State) (p : WqEntry → Bool) : State :=
  let out := s.coh.wq.filter p
  let t := out.foldl (fun u e => u.applyLine e.line e.mask e.data) s
  { t with coh := { t.coh with wq := t.coh.wq.filter fun e => !p e } }

/-- A read at a controller (R280): the youngest queued write to the line answers it when it covers the line; otherwise every
queued write to the line goes out first. -/
def State.ctlRead (s : State) (line : Nat) : BitVec 512 × State :=
  match (s.coh.wq.filter (·.line == line)).getLast? with
  | none => (s.memLine line, s)
  | some e =>
    if e.mask = -1#64 then (e.data, s)
    else
      let t := s.flushQueue (·.line == line)
      (t.memLine line, t)

/-- Queue a write at its controller, entering drain mode at 48 entries; none when 64 wait (R280). -/
def State.ctlWrite (s : State) (line : Nat) (m : BitVec 64) (d : BitVec 512) : Option State :=
  let ch := channelOf line
  let n := (s.coh.wq.filter (·.chan == ch)).length
  if 64 ≤ n then none
  else
    let t := s.noteWrite line
    some { t with coh := { t.coh with
      wq := t.coh.wq ++ [{ chan := ch, line := line, mask := m, data := d }]
      draining := if 48 ≤ n + 1 && !t.coh.draining.any (· == ch) then ch :: t.coh.draining else t.coh.draining } }

/-! ### Errors and the race detector -/

/-- The scope of a hart of partition `pa` covers a hart of `pb` (R285); harts of two partitions only at `.sys` (R349). -/
def scopeCovers (sc : Scope) (a pa b pb : Nat) : Bool :=
  sc == .sys || (pa == pb &&
    match sc with
    | .hart => a == b
    | .core => a / 8 == b / 8
    | .clu => a / 32 == b / 32
    | .die => a / 1280 == b / 1280
    | .dev | .sys => true)

/-- Hart `h` of partition `hp` has acquired, since a release of `w` after its write at place `at_` of the log (R390). -/
def syncedAfter (log : List SyncEvent) (at_ w wp h hp : Nat) : Bool :=
  let rec go : List SyncEvent → Bool → Bool
    | [], _ => false
    | e :: r, rel =>
      if rel && e.hart == h && e.part == hp && !e.release && scopeCovers e.scope h hp w wp then true
      else go r (rel || (e.hart == w && e.part == wp && e.release && scopeCovers e.scope w wp h hp))
  go (log.drop at_) false

/-- The race detector of the hart's partition: 0 off, 1 TRAP, 2 LOG (R390). -/
def State.raceMode (s : State) (part : Nat) : Nat := ((s.partAt part).map (·.race)).getD 0

/-- The granules of an access. -/
def granules (key len : Nat) : List Nat := (upTo ((key + len - 1) / 32 - key / 32 + 1)).map (key / 32 + ·)

/-- The first granule of an access that conflicts, as its shadow (R390). Atomics never conflict with one another. -/
def State.conflict (s : State) (h part key len : Nat) (atomic : Bool) : Option Shadow :=
  (granules key len).findSome? fun g =>
    (s.coh.shadow.find? (·.granule == g)).filter fun sh =>
      !(sh.writer == h && sh.part == part) && !(atomic && sh.atomic) && !syncedAfter s.coh.syncs sh.at_ sh.writer sh.part h part

/-- A log record of the race detector (R390, R387): UNIT 12, KIND 0, the hart and the last writer of the granule in INFO. -/
def raceRecord (s : State) (h writer key part : Nat) : BitVec 256 :=
  BitVec.ofNat 256 (s.env.cycle % 2 ^ 64 + key * 2 ^ 64 + 12 * 2 ^ 128 + part * 2 ^ 176 +
    (hartIdOf h + hartIdOf writer * 2 ^ 32) * 2 ^ 192)

/-- An error record goes to the device log of 1,024, the oldest leaving (R387). -/
def State.logError (s : State) (r : BitVec 256) : State :=
  let l := s.sys.errors ++ [r]
  if l.length ≤ 1024 then { s with sys := { s.sys with errors := l } }
  else { s with sys := { s.sys with errors := l.drop 1, errorsLost := s.sys.errorsLost + 1 } }

/-- An error record (R387). -/
def errorRecord (time addr unit where_ kind cls part info : Nat) : BitVec 256 :=
  BitVec.ofNat 256 (time % 2 ^ 64 + addr % 2 ^ 64 * 2 ^ 64 + unit % 2 ^ 16 * 2 ^ 128 + where_ % 2 ^ 16 * 2 ^ 144 + kind % 256 * 2 ^ 160 +
    cls % 256 * 2 ^ 168 + part % 256 * 2 ^ 176 + info % 2 ^ 64 * 2 ^ 192)

/-- The cores of a tested structure: its core, or its cluster's. -/
def testedCores (w : Nat) : Tested → List Nat
  | .core => [w]
  | .cluster => [4 * w, 4 * w + 1, 4 * w + 2, 4 * w + 3]
  | _ => []

/-- A structure goes out of service, or comes back (R388); one retired stays out (R389). -/
def State.setService (s : State) (w : Nat) (what : Tested) (out : Bool) : State :=
  match what with
  | .quad q =>
    s.onCore w fun c =>
      let bit := BitVec.ofNat 8 (2 ^ (q % 8))
      { c with outQuads := if out then c.outQuads ||| bit else c.outQuads &&& ~~~bit ||| c.deadQuads }
  | _ => (testedCores w what).foldl (fun t n => t.onCore n fun c => { c with out := out || c.fenced }) s

/-- The location of an error as one number: UNIT, WHERE, ADDR, and the place within the unit where no address applies (R388). -/
def locationOf (r : BitVec 256) (place : Nat) : Nat := bytesAt r 8 12 + place * 2 ^ 96

/-- A record of a detected error is logged, and, but for links and guards, a test of the structure becomes due, which is out of service
until its class is known (R387, R388). -/
def State.report (s : State) (r : BitVec 256) (what : Tested) (place : Nat) : State :=
  let t := s.logError r
  let u := if recKind r = 0 then
      { t with sys := { t.sys with corrected := t.sys.corrected ++ [(locationOf r place, s.env.cycle)] } } else t
  if 1 < recKind r ∨ recUnit r = 9 ∨ recUnit r = 10 then u
  else
    let p : PendingTest := { er := r, what := what, place := place }
    State.setService { u with sys := { u.sys with pending := u.sys.pending ++ [p], tested := u.sys.tested ++ [p] } } (recWhere r) what true

/-- A write is recorded for the race detector (R390). -/
def State.recordWrite (s : State) (hart part interval key len : Nat) (atomic : Bool) : State :=
  { s with coh := { s.coh with shadow := (granules key len).foldl (fun l g =>
      putFirst (·.granule == g)
        { granule := g, writer := hart, part := part, interval := interval, at_ := s.coh.syncs.length, atomic := atomic } l) s.coh.shadow } }

/-- The race detector of a partition watches an address: it is armed, and the address lies in the partition's memory, which scratchpads,
shared pages and other modules do not (R347, R390). -/
def State.racy (s : State) (part key : Nat) : Bool :=
  s.raceMode part != 0 && decide (key < 2 ^ 48) &&
  (match s.partAt part with | some p => inGib p.stacked key || inGib p.lpddr key | none => false)

/-- A write that the hart has made, an atomic or a plain one, is recorded where the detector watches (R390). -/
def State.shadowStore (s : State) (h : Hart) (key len : Nat) (atomic : Bool) : State :=
  if s.racy h.tk.part key then s.recordWrite h.id h.tk.part h.interval key len atomic else s

/-- The write of an engine is recorded with the hart that issued it as the writer (R390). -/
def State.shadowWrite (s : State) (hart part key len : Nat) : State :=
  if s.racy part key then s.recordWrite hart part (((s.hartAt hart).map (·.interval)).getD 0) key len false else s

/-- What the race detector does with an access of hart `h`: RACE in TRAP mode; otherwise the access performs, logged in LOG
mode, and a write is recorded (R390). -/
def State.race (s : State) (h : Hart) (key len : Nat) (write atomic : Bool) : Option State :=
  let mode := s.raceMode h.tk.part
  if !s.racy h.tk.part key then some s
  else
    let c := s.conflict h.id h.tk.part key len atomic
    if c.isSome && mode = 1 then none
    else
      let t := match c with
        | some sh => s.logError (raceRecord s h.id sh.writer (max key (32 * sh.granule)) h.tk.part)
        | none => s
      some (if write then t.recordWrite h.id h.tk.part h.interval key len atomic else t)

/-- A release or an acquire of the hart, for the race detector; a release raises its interval number (R390). -/
def State.noteSync (s : State) (release : Bool) (sc : Scope) : State :=
  let t := if release then s.onHart fun h => { h with interval := h.interval + 1 } else s
  if s.raceMode s.hart.tk.part = 0 then t
  else { t with coh := { t.coh with syncs := t.coh.syncs ++ [{ hart := s.hart.id, part := s.hart.tk.part, release := release, scope := sc }] } }

/-- The access touches a watched range (R25). -/
def Hart.watched (h : Hart) (a len : Nat) (write : Bool) : Bool :=
  h.debug && h.watch.any fun w =>
    (if write then w.onWrite else w.onRead) && decide (a < w.lo + w.len) && decide (w.lo < a + len)

/-! ### The L1 (R277, R278, R302) -/

/-- A core's L1 fills a line with the values `d`: every word that is not held registered here, nor waited on, takes its value and
becomes valid-unregistered; lost words and poisoned data become poisoned (R277, R296, R308, R383). -/
def State.fillData (s : State) (core line : Nat) (d : BitVec 512) : State :=
  let hl := s.homeAt line
  let lost := hl.select 0xFFFF#16 (· == .lost)
  let blocked := hl.busy ||| hl.select 0xFFFF#16 WState.isEngine ||| (if hl.locked then 0xFFFF#16 else 0#16)
  s.onCore core fun c =>
    let old := (c.lineAt line).getD { line := line, data := 0, valid := 0, reg := 0, dirty := 0, poison := 0 }
    let take := ~~~(old.reg ||| lost ||| blocked)
    let l : L1Line := { old with
      data := mergeBytes old.data d (bytesOfWords take)
      valid := (old.valid &&& old.reg) ||| take
      poison := (old.poison &&& old.reg) ||| (lost &&& ~~~old.reg) ||| (take &&& s.poisonWords line) }
    { c with l1 := putFirst (·.line == line) l c.l1 }

/-- A core's L1 fills a line from the home, with the words of other cores forwarded (R277, R296). -/
def State.fillLine (s : State) (core line : Nat) : State := s.fillData core line (s.cohLine line)

/-- The general ways of the set of a line: 12 of 64 sets (R277), but for those with a row or column fenced off, one at the least (R389, log
entry 164). -/
def State.wayCount (s : State) (core line : Nat) : Nat :=
  let rows := (s.coh.deadRows.filter fun r => r.2.1 == core && (r.1 == 0 && r.2.2 % 64 == line % 64 || r.1 == 16)).length
  max 1 (12 - rows)

/-- The lines of a set of an L1 that give way so that `n` more find room, the oldest first (R277). -/
def State.crowded (s : State) (core line n : Nat) : List Nat :=
  let same := (s.coreAt core).l1.filter fun l => l.line % 64 == line % 64
  (same.take (same.length + n - s.wayCount core line)).map (·.line)

/-- Eviction of a line from an L1 (R298): one WB covers its registered words, dirty ones with data; the others are dropped. -/
def State.evictLine (s : State) (core line : Nat) : State :=
  match (s.coreAt core).lineAt line with
  | none => s
  | some l =>
    let t := s.onCore core fun c => { c with l1 := c.l1.filter fun m => m.line != line }
    if l.reg = 0#16 then t
    else { t with coh := { t.coh with net := t.coh.net ++
      [{ kind := .wb, sender := core, target := 65536 + homeSlice line, part := 0, line := line, words := l.reg, bytes := 0
         data := l.data, dirty := l.dirty, poison := l.poison &&& l.dirty, aux := 0, aux2 := 0 }] } }

/-- Evict from a full set before a new line enters (R277). -/
def State.makeRoom (s : State) (core line : Nat) : State :=
  if ((s.coreAt core).lineAt line).isSome then s else (s.crowded core line 1).foldl (fun t v => t.evictLine core v) s

/-- A fill that a home serves while the core self-invalidates may bring a value that an owner forwarded before: it fills nothing, which
`aux` says, and the load asks again (R285). -/
def State.dropFills (s : State) (core : Nat) (p : Nat → Bool) : State :=
  let void := updIf (fun v : Serve => v.req.kind == .rd && v.req.sender == core) fun v => { v with req := { v.req with aux := 1 } }
  let homes := updIf (fun hl : HomeLine => p hl.line) (fun hl => { hl with serving := void hl.serving }) s.coh.homes
  { s with coh := { s.coh with homes := homes } }

/-- Self-invalidation (R302): every valid-unregistered word of the lines that satisfy `p` becomes invalid. -/
def State.selfInvalidate (s : State) (core : Nat) (p : Nat → Bool) : State :=
  (s.onCore core fun c =>
    { c with l1 := (updIf (fun l => p l.line) (fun l => { l with valid := l.valid &&& l.reg, poison := l.poison &&& l.reg })
        c.l1).filter fun l => !(l.valid ||| l.reg ||| l.poison == 0#16) }).dropFills core p

/-- A line enters the read-only ways: 4 of 64 sets, the oldest of a full set leaving (R277, log entry 153). -/
def Core.roFill (c : Core) (line : Nat) (d : BitVec 512) : Core :=
  let same := c.ro.filter fun l => l.1 % 64 == line % 64
  { c with ro := (line, d, 0) :: (if same.length < 4 then c.ro else c.ro.filter fun l => some l.1 != same.getLast?.map (·.1)) }

/-- Invalidate the read-only ways (R278). -/
def State.dropRo (s : State) (core : Nat) : State := (s.onCore core fun c => { c with ro := [] }).dropFills core fun _ => true

/-- A message joins the network (R294). -/
def State.send (s : State) (m : Msg) : State := { s with coh := { s.coh with net := s.coh.net ++ [m] } }

/-- The sender of a hart's own messages (R293). -/
def Hart.port (h : Hart) : Nat := 4096 + h.id

/-- A request of an agent for words of a line. -/
def request (k : MsgKind) (sender part line : Nat) (words : BitVec 16) (aux : Nat := 0) (aux2 : Nat := 0) : Msg :=
  { kind := k, sender := sender, target := 65536 + homeSlice line, part := part, line := line, words := words, bytes := 0
    data := 0, dirty := 0, poison := 0, aux := aux, aux2 := aux2 }

/-- A request of that kind and sender for the line is already on its way, or being served, or its grant is on its way: words that a core
waits for are pending in its L1, which asks for them once (R292). -/
def State.requested (s : State) (k : MsgKind) (sender line : Nat) : Bool :=
  s.coh.net.any (fun m => m.line == line && (m.kind == k && m.sender == sender || k == .reg && m.kind == .gnt && m.target == sender)) ||
  s.coh.homes.any fun hl => hl.line == line && hl.serving.any fun v => v.req.kind == k && v.req.sender == sender

/-- A message that satisfies `p` is on its way, or is a request that a home serves. -/
def State.underway (s : State) (p : Msg → Bool) : Bool :=
  s.coh.net.any p || s.coh.homes.any fun hl => hl.serving.any fun v => p v.req

/-! ### Scalar loads and stores (R116, R282 moves 1 and 3) -/

/-- The SSB's answer to a load (R282 move 3): the youngest overlapping entry covers it, an overlapping entry exists, or none. -/
def ssbLookup (ssb : List SsbEntry) (loc : Loc) (len : Nat) : Option Rd :=
  match (ssb.filter fun e => decide (e.loc.key < loc.key + len) && decide (loc.key < e.loc.key + e.len)).getLast? with
  | none => none
  | some e =>
    if e.loc.key ≤ loc.key && loc.key + len ≤ e.loc.key + e.len then
      some (.val (e.data.toNat / 2 ^ (8 * (loc.key - e.loc.key)) % 2 ^ (8 * len)))
    else some (.wait .drain)

/-- A load that misses the L1's general ways: it waits at the home, or fills the line (R277, R296). When transactions are cut
into messages it sends RD and waits. -/
def State.missFill (s : State) (h : Hart) (loc : Loc) (len : Nat) : Option State :=
  let line := lineOf loc.key
  if s.env.cut then
    if s.requested .rd h.core line then none
    else some ((s.send (request .rd h.core h.tk.part line (wordMask loc.key len))).waitFor .memory)
  else if s.lineWaits line (wordMask loc.key len) then none
  else
    some (((s.makeRoom h.core line).readyHome line 0xFFFF#16).fillLine h.core line)

/-- A value from the L1's general ways, if the words are valid there; a poisoned word is OWNER_LOST when it was filled from a
lost word, else ECC (R308, R383). -/
def Core.l1Read (c : Core) (key len : Nat) : Option Rd :=
  match c.lineAt (lineOf key) with
  | none => none
  | some l =>
    let m := wordMask key len
    if (l.poison &&& m &&& ~~~l.reg &&& ~~~l.valid) ≠ 0#16 then some (.fault .ownerLost)
    else if (l.poison &&& m) ≠ 0#16 then some (.fault .ecc)
    else if (l.valid ||| l.reg) &&& m = m then some (.val (l.data.toNat / 2 ^ (8 * (key % 64)) % 2 ^ (8 * len)))
    else none

/-- An own module's egress queue still holds a write to some of the bytes of a remote address (R273, R281). -/
def State.egressHolds (s : State) (module key len : Nat) : Bool :=
  s.coh.egress.any fun e => e.module == module && e.bytes.any fun b => decide (key ≤ b.1) && decide (b.1 < key + len)

/-- The route to a module is down: its link is, or its port retrains (R361, R383). -/
def State.routeDown (s : State) (module : Nat) : Bool :=
  s.coh.down.any (· == module) || s.coh.retrain.any (· == Config.port module)

/-- Whether an access to a remote address goes ahead: it waits while its link is down, ending with ECC once it has waited its
time, and behind the writes to its bytes in the egress queue (R273, R361); a home that does not list this module refuses it. -/
def State.remoteReady (s : State) (loc : Loc) (len : Nat) : Rd :=
  if s.routeDown loc.module then
    if s.coh.expired.any (· == loc.module) then .fault .ecc else .wait .memory
  else if !loc.peer then .fault .partition
  else if s.egressHolds loc.module loc.key len then .wait .drain
  else .val (s.memNat loc.key len)

/-- An access that crosses a die-to-die link which retrains waits, and ends with ECC once it has waited its time (R383). -/
def State.fabricDown (s : State) (core line : Nat) : Option Rd :=
  (s.dieDown (core / 160) (homeSlice line / 64)).map fun | none => .wait .memory | some c => .fault c

/-- The same for an access at a place: homes and controllers lie across the fabric. -/
def State.farDown (s : State) (core : Nat) (loc : Loc) : Option Rd :=
  match loc.kind with
  | .cached | .roPath => s.fabricDown core (lineOf loc.key)
  | .uncached => (s.dieDown (core / 160) (ctlDie (lineOf loc.key))).map fun | none => .wait .memory | some c => .fault c
  | _ => none

/-- A home's answer as a read (R296). -/
def State.homeVal (s : State) (key len : Nat) : Rd × State :=
  match s.homeRead key len with
  | (.wait, t) => (.wait .memory, t)
  | (.fault c, t) => (.fault c, t)
  | (.val v, t) => (.val v, t)

/-- The same for a core, over the fabric (R383). -/
def State.homeRd (s : State) (core key len : Nat) : Rd × State :=
  match s.fabricDown core (lineOf key) with
  | some r => (r, s)
  | none => s.homeVal key len

/-- A read of a scratchpad bank (R276, R383, R388). -/
def State.bankRead (s : State) (key len : Nat) : Rd :=
  if s.bankTest key then .wait .memory else if s.poisoned key len then .fault .ecc else .val (s.memNat key len)

/-- A read of a shared uncached page at its controller (R280, R349). -/
def State.uncachedRead (s : State) (key len : Nat) : Rd × State :=
  let line := lineOf key
  if s.underTest line then (.wait .memory, s)
  else
    let (d, t) := s.ctlRead line
    (if s.poisoned key len then .fault .ecc else .val (d.toNat / 2 ^ (8 * (key % 64)) % 2 ^ (8 * len)), t)

/-- The same for a core, over the fabric (R383). -/
def State.uncachedRd (s : State) (core : Nat) (loc : Loc) (len : Nat) : Rd × State :=
  match s.farDown core loc with
  | some r => (r, s)
  | none => s.uncachedRead loc.key len

/-- The data of a scalar load at a translated address, and the state after its fills (R273, R277, R278, R282). -/
def State.scalarData (s : State) (h : Hart) (loc : Loc) (len : Nat) : Rd × State :=
  let line := lineOf loc.key
  match loc.kind with
  | .bank => (s.bankRead loc.key len, s)
  | .remote => (s.remoteReady loc len, s)
  | .uncached => s.uncachedRd h.core loc len
  | .roPath =>
    if s.rowTest 0 h.core line then (.wait .memory, s)
    else match (s.coreAt h.core).ro.find? (·.1 == line) with
    | some (_, d, bad) =>
      (if bad &&& wordMask loc.key len ≠ 0#16 then .fault .ecc else .val (d.toNat / 2 ^ (8 * (loc.key % 64)) % 2 ^ (8 * len)), s)
    | none =>
      if s.env.cut && !s.lineLost line 0xFFFF#16 && !s.poisoned (64 * line) 64 then
        match s.fabricDown h.core line with
        | some r => (r, s)
        | none =>
          (.wait .memory, if s.requested .rd h.core line then s else s.send (request .rd h.core h.tk.part line (wordMask loc.key len) 0 1))
      else match s.homeRd h.core loc.key len with
      | (.val v, t) =>
        (.val v, if t.lineWaits line 0xFFFF#16 then t
          else
            let u := t.readyHome line 0xFFFF#16
            if u.lineLost line 0xFFFF#16 || u.poisoned (64 * line) 64 then u else u.onCore h.core (·.roFill line (u.cohLine line)))
      | r => r
  | .cached =>
    if s.rowTest 0 h.core line then (.wait .memory, s)
    else match (s.coreAt h.core).l1Read loc.key len with
    | some r => (r, s)
    | none =>
      match s.fabricDown h.core line with
      | some r => (r, s)
      | none =>
        match s.missFill h loc len with
        | none => (.wait .memory, s)
        | some t =>
          match (t.coreAt h.core).l1Read loc.key len with
          | some r => (r, t)
          | none => (.wait .memory, t)

/-- A scalar load of `len` bytes at `a` by the hart whose turn it is, with the checks of R116 in their order. -/
def State.scalarLoad (s : State) (a len : Nat) : Rd × State :=
  let h := s.hart
  if a % len ≠ 0 then (.fault .misalign, s)
  else match s.scalarLoc h a len .read with
    | .error none => (.wait .memory, s)
    | .error (some c) => (.fault c, s)
    | .ok loc =>
      let (r, t) := match ssbLookup h.ssb loc len with
        | some r => (r, s)
        | none => s.scalarData h loc len
      match r with
      | .val v =>
        match t.race h loc.key len false false with
        | none => (.fault .race, t)
        | some u => if h.watched a len false then (.fault .watch, t)
                    else (.val v, if isLocal a then u else u.tlbFill h.core h.tk.part h.tk.ctx a)
      | r => (r, t)

/-- A record of `n` 8-byte units read by scalar loads, in ascending order: the first fault or wait ends it, with its address. -/
def State.loadRecord (s : State) (a : Nat) : Nat → (Rd × Nat) × State
  | 0 => ((.val 0, a), s)
  | n + 1 =>
    let ((r, f), t) := s.loadRecord a n
    match r with
    | .val v =>
      let (q, u) := t.scalarLoad (a + 8 * n) 8
      match q with
      | .val w => ((.val (v + w * 2 ^ (64 * n)), a), u)
      | q => ((q, a + 8 * n), u)
    | r => ((r, f), t)

/-- Append a store to the SSB (R282 move 1). -/
def Hart.pushStore (h : Hart) (e : SsbEntry) : Hart := { h with ssb := h.ssb ++ [e] }

/-- A store cannot reach its place (R361, R389): the remote home refuses it, or the place is retired. -/
def State.storeRefused (s : State) (loc : Loc) (len : Nat) : Option Cause :=
  if loc.kind == .remote && !loc.peer then some .partition else if s.deadAt loc.key len then some .ecc else none

/-- A scalar store of `len` bytes at `a`: the checks of R116, then the SSB, or a wait while it is full (R281). -/
def State.scalarStore (s : State) (a len : Nat) (w : Word) : Rd × State :=
  let h := s.hart
  if a % len ≠ 0 then (.fault .misalign, s)
  else match s.scalarLoc h a len .write with
    | .error none => (.wait .memory, s)
    | .error (some c) => (.fault c, s)
    | .ok loc =>
      match s.storeRefused loc len with
      | some c => (.fault c, s)
      | none =>
        match s.race h loc.key len true false with
        | none => (.fault .race, s)
        | some u =>
          if h.watched a len true then (.fault .watch, s)
          else if 32 ≤ h.ssb.length then (.wait .drain, s)
          else
            let v := if isLocal a then u else u.tlbFill h.core h.tk.part h.tk.ctx a
            (.val 0, v.onHart (·.pushStore { loc := loc, va := a, len := len, data := w }))

/-! ### Registration (R282 move 2, R296 REG) -/

/-- The words of the 8-byte units that a mask touches. -/
def pairsOf (m : BitVec 16) : BitVec 16 := m ||| (m &&& 0x5555#16) <<< 1 ||| (m &&& 0xAAAA#16) >>> 1

/-- An L1 takes granted words with their values (R297 GNT): words it holds registered keep theirs; poisoned data stay poisoned. The other
word of an 8-byte unit that is only valid is dropped, for its value can be older than the granted word's (R289). -/
def State.grantWords (s : State) (core line : Nat) (m : BitVec 16) (d : BitVec 512) : State :=
  s.onCore core fun c =>
    let old := (c.lineAt line).getD { line := line, data := 0, valid := 0, reg := 0, dirty := 0, poison := 0 }
    let fresh := m &&& ~~~old.reg
    let stale := pairsOf fresh &&& ~~~old.reg
    let l : L1Line := { old with
      data := mergeBytes old.data d (bytesOfWords fresh)
      valid := (old.valid &&& ~~~stale) ||| m, reg := old.reg ||| m, dirty := old.dirty &&& ~~~fresh
      poison := (old.poison &&& ~~~stale) ||| (fresh &&& s.poisonWords line) }
    { c with l1 := putFirst (·.line == line) l c.l1 }

/-- Words of a line become registered to a core's L1, with the current values (R296 REG, R297 GNT); none while the request waits for an
entry (R299, R300). The home takes them from their owners first; with a lost word nothing is registered (R296 NAKL). -/
def State.registerWords (s : State) (core line : Nat) (m : BitVec 16) : Option State :=
  (s.homeRoom line m (.core core)).map fun r =>
    let others := (r.homeAt line).select m (fun w => w.isCore && w != .core core)
    let t := (r.collect line).takeOwners line others
    if t.lineLost line m then t
    else (((t.makeRoom core line).grantWords core line m (t.memLine line)).onHome line (·.setWords m (.core core))).noteWrite line

/-- Write bytes into registered words of a core's L1 as dirty. -/
def State.l1Write (s : State) (core key len : Nat) (w : Word) : State :=
  let m := byteMask key len
  let d := BitVec.ofNat 512 (w.toNat % 2 ^ (8 * len) * 2 ^ (8 * (key % 64)))
  (s.onCore core (·.onLine (lineOf key) fun l =>
    { l with data := mergeBytes l.data d m, dirty := l.dirty ||| wordsOfBytes m })).clearLinks (lineOf key)

/-! ### Atomics (R117 to R119, R185, R286, R304 to R306) -/

/-- f of R117 on `w` bits: the new value, none when a `cas` does not compare equal. -/
def amoApply (op : AmoOp) (w : Nat) (old operand cmp : Nat) : Option Nat :=
  let b := operand % 2 ^ w
  match op with
  | .add => some ((old + b) % 2 ^ w)
  | .and => some (old &&& b)
  | .or => some (old ||| b)
  | .xor => some (old ^^^ b)
  | .min => some (if sextI old w ≤ sextI b w then old else b)
  | .max => some (if sextI old w ≤ sextI b w then b else old)
  | .minn => some (min old b)
  | .maxn => some (max old b)
  | .swap => some b
  | .cas => if old = cmp % 2 ^ w then some b else none

/-- An atomic matches a declared range: operation and width (R185). An FP range takes no integer atomic (log entry 10). -/
def CRange.matches (r : CRange) (op : AmoOp) (w : Nat) : Bool :=
  decide (r.ew = w) && decide (r.cls ≤ 1) &&
  (match op with
   | .add => r.op == 0#2
   | .min => r.op == 1#2 && r.cls == 0
   | .minn => r.op == 1#2 && r.cls == 1
   | .max => r.op == 2#2 && r.cls == 0
   | .maxn => r.op == 2#2 && r.cls == 1
   | .or => r.op == 3#2
   | _ => false)

/-- A combine buffer's line. -/
def State.combAt (s : State) (cluster line : Nat) (part : Bool) : Option CombLine :=
  s.coh.comb.find? fun b => b.cluster == cluster && b.line == line && b.partialLine == part

/-- A combine buffer puts a line back, new lines last (R305). -/
def State.putComb (s : State) (b : CombLine) : State :=
  { s with coh := { s.coh with
      comb := putFirst (fun c => c.cluster == b.cluster && c.line == b.line && c.partialLine == b.partialLine) b s.coh.comb } }

/-- A 64-byte write-back or fold of a combine buffer's line at its home (R305, R306): it waits while the home makes it wait. -/
def State.combFlush (s : State) (b : CombLine) : Option State :=
  if s.rowTest 6 b.cluster b.line || s.lineWaits b.line 0xFFFF#16 then none
  else
    let gone := { s with coh := { s.coh with comb := s.coh.comb.filter fun c => !(c == b) } }
    if b.partialLine then
      match s.rangeOf b.line with
      | none => some gone
      | some r =>
        some ((gone.takeOwners b.line 0xFFFF#16).foldLine r b.line [(b.words, b.data)])
    else
      let t := (gone.collect b.line).takeOwners b.line 0xFFFF#16
      let lost := (t.homeAt b.line).select 0xFFFF#16 (· == .lost)
      some ((t.applyLine b.line (bytesOfWords (~~~lost)) b.data).noteWrite b.line)

/-- The lines of a combine buffer: 4,096, but for rows fenced off (R305, R389). -/
def State.combCount (s : State) (cluster : Nat) : Nat := max 1 (4096 - s.lostRows 6 256 fun r => r.1 == cluster)

/-- Room in a combine buffer: it evicts its oldest line when it has none free (R305). -/
def State.combRoom (s : State) (cluster : Nat) : Option State :=
  let mine := s.coh.comb.filter (·.cluster == cluster)
  if mine.length < s.combCount cluster then some s
  else match mine.head? with
    | none => some s
    | some b => s.combFlush b

/-- A `.clu` atomic that matches a declared range: it updates the cluster's partial and answers with the partial's value
before (R185, R304). -/
def State.cluPartial (s : State) (cluster part : Nat) (r : CRange) (key ew operand : Nat) : Option (Nat × State) :=
  let line := lineOf key
  let i := key % 64 * 8 / ew
  let m := wordMask key (ew / 8)
  if s.rowTest 6 cluster line then none
  else match (if (s.combAt cluster line true).isSome then some s else s.combRoom cluster) with
  | none => none
  | some t =>
    let b := (t.combAt cluster line true).getD
      { cluster := cluster, part := part, line := line, partialLine := true, data := mapElems ew (fun _ => r.ident), words := 0, mods := [] }
    let old := lineElem b.data ew i
    let nw := r.apply old (operand % 2 ^ ew)
    some (old, (t.putComb { b with
      data := mapElems ew fun j => if j = i then nw else lineElem b.data ew j
      words := b.words ||| m }).clearLinks line)

/-- A `.clu` atomic outside every declared range: it works on the cluster's copy of the line, taken from the home at the
first such atomic (R306). `f` gives the new value of `w` bits, none for no store, which modifies no copy (R117). -/
def State.cluCopy (s : State) (h cluster part key w : Nat) (f : Nat → Option Nat) : Rd × State :=
  let line := lineOf key
  let i := key % 64 * 8 / w
  let with_ := fun (b : CombLine) (t : State) =>
    let old := lineElem b.data w i
    let nw := (f old).getD old
    (Rd.val old, (t.putComb { b with
      data := mapElems w fun j => if j = i then nw else lineElem b.data w j
      mods := if (f old).isNone || b.mods.any (· == h) then b.mods else h :: b.mods }).clearLinks line)
  if s.rowTest 6 cluster line then (.wait .memory, s)
  else match s.combAt cluster line false with
  | some b => with_ b s
  | none =>
    if s.lineWaits line 0xFFFF#16 then (.wait .memory, s)
    else if s.lineLost line (wordMask key (w / 8)) then (.fault .ownerLost, s)
    else if s.poisoned key (w / 8) then (.fault .ecc, s)
    else match s.combRoom cluster with
      | none => (.wait .memory, s)
      | some t =>
        let u := t.readyHome line 0xFFFF#16
        if u.lineLost line (wordMask key (w / 8)) then (.fault .ownerLost, u) else
        with_ { cluster := cluster, part := part, line := line, partialLine := false, data := u.cohLine line, words := 0
                mods := [] } u

/-- An atomic at the home slice, or at the controller of a cached line: owners are taken, partials collected, the word
changed, and it ends unregistered (R119, R296 ATOM). -/
def State.homeAtomic (s : State) (key w : Nat) (f : Nat → Option Nat) : Rd × State :=
  let line := lineOf key
  let m := wordMask key (w / 8)
  if s.lineWaits line m then (.wait .memory, s)
  else if s.lineLost line m then (.fault .ownerLost, s)
  else if s.poisoned key (w / 8) then (.fault .ecc, s)
  else
    let t := (s.collect line).takeOwners line m
    if t.lineLost line m then (.fault .ownerLost, t)
    else
      let old := t.memNat key (w / 8)
      (.val old, match f old with
        | none => t.clearLinks line
        | some nw => (t.putNat key (w / 8) nw).noteWrite line)

/-- The words of a line that a core's L1 holds registered. -/
def State.heldWords (s : State) (core line : Nat) : BitVec 16 := ((s.coreAt core).lineAt line).elim 0#16 (·.reg)

/-- An atomic in the core's L1, after the word is registered to the core (R119): the REG is a message when transactions are cut. -/
def State.l1Atomic (s : State) (h : Hart) (key w : Nat) (f : Nat → Option Nat) : Rd × State :=
  let core := h.core
  let line := lineOf key
  let m := wordMask key (w / 8)
  let held := s.heldWords core line &&& m == m
  let run := fun t : State =>
    match (t.coreAt core).l1Read key (w / 8) with
    | some (.val old) =>
      (Rd.val old, match f old with
        | none => t.clearLinks line
        | some nw => t.l1Write core key (w / 8) (BitVec.ofNat 64 nw))
    | some r => (r, t)
    | none => (.wait .memory, t)
  if s.rowTest 0 core line then (.wait .memory, s)
  else if held then run s
  else if s.lineWaits line m then (.wait .memory, s)
  else if s.lineLost line m then (.fault .ownerLost, s)
  else if s.env.cut then
    (.wait .memory, if s.requested .reg core line then s
      else s.send (request .reg core h.tk.part line (m &&& ~~~s.heldWords core line) h.id 1))
  else match s.registerWords core line m with
    | none => (.wait .memory, s)
    | some t => if t.lineLost line m then (.fault .ownerLost, t) else run t

/-- An atomic of `w` bits at a translated address, at the place the first matching row of R119 gives. `rangeOp` is the
update of a matching range's partial. -/
def State.atomicAt (s : State) (h : Hart) (sc : Scope) (loc : Loc) (w : Nat) (matchesRange : CRange → Bool) (operand : Nat)
    (f : Nat → Option Nat) : Rd × State :=
  let line := lineOf loc.key
  match loc.kind with
  | .bank =>
    match s.bankRead loc.key (w / 8) with
    | .val old =>
      (.val old, match f old with
        | none => s.clearLinks line
        | some nw => (s.putNat loc.key (w / 8) nw).noteWrite line)
    | r => (r, s)
  | .remote =>
    if !loc.ar then (.fault .atomicPath, s)
    else match s.remoteReady loc (w / 8) with
      | .val old =>
        (.val old, match f old with
          | none => s.clearLinks line
          | some nw => (s.putNat loc.key (w / 8) nw).noteWrite line)
      | r => (r, s)
  | .uncached =>
    match s.farDown h.core loc with
    | some r => (r, s)
    | none =>
    if s.underTest line then (.wait .memory, s) else
    let t := s.flushQueue (·.line == line)
    if s.poisoned loc.key (w / 8) then (.fault .ecc, s)
    else
      let old := t.memNat loc.key (w / 8)
      (.val old, match f old with
        | none => t.clearLinks line
        | some nw => (t.putNat loc.key (w / 8) nw).noteWrite line)
  | _ =>
    match s.fabricDown h.core line with
    | some r => (r, s)
    | none =>
    match s.rangeOf line with
    | some r =>
      if sc == .clu && matchesRange r then
        match s.cluPartial h.cluster h.tk.part r loc.key w operand with
        | none => (.wait .memory, s)
        | some (old, t) => (.val old, t)
      else s.homeAtomic loc.key w f
    | none =>
      match sc with
      | .hart | .core => s.l1Atomic h loc.key w f
      | .clu => s.cluCopy h.id h.cluster h.tk.part loc.key w f
      | _ => s.homeAtomic loc.key w f

end Sys2Proof.Machine
end

