-- ==== Sys2Proof/Machine/Fences.lean ====
section
/-! DEFINITION. Fences and invalidation (R128 to R130) as moves of the ordering machine, and the releases and acquires that
other instructions make. A fence that must wait for a drain waits: the drains are steps of their own. -/
namespace Sys2Proof.Machine

/-- The scope covers the cores of a cluster, or more (R128). -/
def wideScope : Scope → Bool
  | .hart | .core => false
  | _ => true

/-- The vector wait: every earlier vector word has issued and completed (chapter 05). -/
def Hart.vectorDone (h : Hart) : Bool := h.vs.vq.isEmpty

/-- Nothing in the plane store FIFOs; for `lsync` the CPFs count among them (R129, R281). -/
def Hart.fifosEmpty (h : Hart) : Bool := h.psf.toList.all (·.isEmpty) && h.cpf.toList.all (·.isEmpty)

/-- An engine operation of the hart has yet to write its destination (R128). -/
def Copy.open (c : Copy) : Bool :=
  match c.state with
  | .ended _ => false
  | _ => true

/-- An engine operation that the hart started has not ended: a copy, or a run or probe of a session (R128, R281). -/
def State.engineBusy (s : State) (h : Hart) : Bool :=
  (s.eng.copies.any fun c => c.hart == h.id && c.task == h.tk.task && c.open) ||
  s.eng.sessions.any fun e => e.task == h.tk.task && (match e.run with | some r => r.hart == h.id | none => false)

/-- The undeclared copies that the hart's `.clu` atomics modified go home (R306); none while one waits there. -/
def State.flushCopies (s : State) : Option State :=
  let h := s.hart
  (s.coh.comb.filter fun b => !b.partialLine && b.mods.any (· == h.id)).foldl
    (fun o b => o.bind fun t => t.combFlush b) (some s)

/-- THE MOVES OF A RELEASE (R128, R306): vector wait, the SSB, the FIFOs, with `eng` the hart's engine operations, the
combine-buffer copies at `.clu` and wider, and at `.sys` the remote writes. What it still waits for, or the state after. -/
def State.release (s : State) (sc : Scope) (eng : Bool) : Except Wait State :=
  let h := s.hart
  if !h.vectorDone then .error .vector
  else if !h.ssb.isEmpty || !h.fifosEmpty then .error .drain
  else if eng && s.engineBusy h then .error .engine
  else if sc == .sys && s.coh.egress.any (fun e => e.task == h.tk.task && e.hart == h.id) then .error .drain
  else if wideScope sc then
    match s.flushCopies with
    | none => .error .memory
    | some t => .ok (t.noteSync true sc)
  else .ok (s.noteSync true sc)

/-- THE MOVES OF AN ACQUIRE (R128): at `.clu` and wider, self-invalidation of the core's L1; with `ro`, at every scope, the read-only ways
(the model's reading, log entry 171).
Every earlier load has performed, for a load performs when it executes. -/
def State.acquire (s : State) (sc : Scope) (ro : Bool) : State :=
  let t := if wideScope sc then s.selfInvalidate s.hart.core fun _ => true else s
  let u := if ro then t.dropRo t.hart.core else t
  u.noteSync false sc

/-- FENCE_ACQ (R128). -/
def execFenceAcq (sc : Scope) (r : Bool) (s : State) : Out :=
  if !s.hart.vectorDone then .next (s.waitFor .vector) else .next (s.acquire sc r).advance

/-- FENCE_REL (R128). -/
def execFenceRel (sc : Scope) (e : Bool) (s : State) : Out :=
  match s.release sc e with
  | .error w => .next (s.waitFor w)
  | .ok t => .next t.advance

/-- FENCE_FULL: the release, then the acquire (R128). -/
def execFenceFull (sc : Scope) (r e : Bool) (s : State) : Out :=
  match s.release sc e with
  | .error w => .next (s.waitFor w)
  | .ok t => .next (t.acquire sc r).advance

/-- FENCE_SV: the SSB, the FIFOs, and self-invalidation (R128). -/
def execFenceSv (s : State) : Out :=
  let h := s.hart
  if !h.vectorDone then .next (s.waitFor .vector)
  else if !h.ssb.isEmpty || !h.fifosEmpty then .next (s.waitFor .drain)
  else .next (s.selfInvalidate h.core fun _ => true).advance

/-- LSYNC (R129). -/
def execLsync (s : State) : Out :=
  let h := s.hart
  if !h.vectorDone then .next (s.waitFor .vector)
  else if !h.fifosEmpty then .next (s.waitFor .drain)
  else .next s.advance

/-- What an address of a range of lines leads to: a walk that waits, no line of this module's DRAM, or one. -/
inductive LineAt where
  | wait
  | none
  | line (l : Nat)
  deriving DecidableEq, Repr

/-- The line of memory that a scalar address reaches, if it has a translation to this module's DRAM. -/
def State.lineAtVa (s : State) (va : Nat) : LineAt :=
  let h := s.hart
  if isLocal va || bitsOf va 62 52 ≠ 0 then .none
  else match s.leafFor h.core h.tk.part h.tk.ctx va with
    | .error .none => .wait
    | .error (.some _) => .none
    | .ok (e, k) =>
      if e.getLsbD 8 then .none else .line (lineOf (dramKey (ptePa e / 2 ^ k * 2 ^ k + va % 2 ^ k)))

/-- What the lines that hold a byte of `len` bytes at `a` lead to (R129). -/
def State.linesOf (s : State) (a len : Nat) : List LineAt :=
  (upTo ((a % 64 + len + 63) / 64)).map fun i => s.lineAtVa ((a / 64 + i) * 64 % 2 ^ 64)

/-- INV_R: self-invalidates the lines of a range; a length above 65,536 takes every line (R129). -/
def execInvR (a b : Reg) (s : State) : Out :=
  let h := s.hart
  if !h.vectorDone then .next (s.waitFor .vector)
  else
    let len := (s.get b).toNat
    if 65536 < len then .next (s.selfInvalidate h.core fun _ => true).advance
    else
      let lines := if len = 0 then [] else s.linesOf (s.get a).toNat len
      if lines.any (· == .wait) then .next (s.waitFor .memory)
      else .next (s.selfInvalidate h.core fun l => lines.any (· == .line l)).advance

/-- INV_RO (R129). -/
def execInvRo (s : State) : Out :=
  if !s.hart.vectorDone then .next (s.waitFor .vector) else .next (s.dropRo s.hart.core).advance

end Sys2Proof.Machine
end

