-- ==== Sys2Proof/Machine/Atomics.lean ====
section
/-! DEFINITION. The scalar atomics (R117 to R119, R286). -/
namespace Sys2Proof.Machine

/-- The value an atomic returns (R117): 64 bits, or 32 widened by sign, or by zero when N = 1. -/
def amoValue (wide zeroExt : Bool) (old : Nat) : Word :=
  if wide || zeroExt then BitVec.ofNat 64 old else sextW old 32

/-- The N bit of an operation (R68). -/
def amoUnsigned : AmoOp → Bool
  | .minn | .maxn => true
  | _ => false

/-- Codes of an operation for a message (R293). -/
def amoCode : AmoOp → Nat
  | .add => 0 | .and => 1 | .or => 2 | .xor => 3 | .min => 4 | .minn => 5 | .max => 6 | .maxn => 7 | .swap => 8 | .cas => 9
def amoOfCode : Nat → AmoOp
  | 0 => .add | 1 => .and | 2 => .or | 3 => .xor | 4 => .min | 5 => .minn | 6 => .max | 7 => .maxn | 8 => .swap | _ => .cas

/-- The atomic goes to the home as an ATOM message (R293): a cached page, and the home its place (R119, R185). -/
def State.sendsAtom (s : State) (sc : Scope) (loc : Loc) (op : AmoOp) (w : Nat) : Bool :=
  loc.kind == .cached && s.env.cut &&
  (match s.rangeOf (lineOf loc.key), sc with
   | some r, .clu => !r.matches op w
   | some _, _ => true
   | none, .hart | none, .core | none, .clu => false
   | none, _ => true)

/-- The atomic as an ATOM message of its hart: the key and codes in `aux`, the operands in `data` (R293). -/
def atomMsg (h : Hart) (loc : Loc) (op : AmoOp) (w operand cmp : Nat) : Msg :=
  { kind := .atom, sender := h.port, target := 65536 + homeSlice (lineOf loc.key), part := h.tk.part
    line := lineOf loc.key, words := wordMask loc.key (w / 8), bytes := 0, data := BitVec.ofNat 512 (operand + cmp * 2 ^ 64)
    dirty := 0, poison := 0, aux := loc.key, aux2 := amoCode op + 16 * w }

/-- The checks that close R118's list, RACE and WATCH, before an atomic that nothing makes wait goes on; the detector records a write once
one is made. -/
def State.amoChecked (s : State) (addr : Nat) (loc : Loc) (w : Nat) (go : State → Rd × State) : Rd × State :=
  match s.race s.hart loc.key (w / 8) false true with
  | none => (.fault .race, s)
  | some t => if s.hart.watched addr (w / 8) false || s.hart.watched addr (w / 8) true then (.fault .watch, s) else go t

/-- The end of an atomic: the acquire of `.acq`, and x[D] (R117). -/
def amoFinish (op : AmoOp) (d : Reg) (wide : Bool) (sc : Scope) (acq : Bool) (old : Nat) (s : State) : Out :=
  let t := if acq then s.acquire sc false else s
  t.result d (amoValue wide (amoUnsigned op) old)

/-- The checks of R118 that come before the access, in their order: the place, or the cause; none while the walk waits. -/
def State.amoLoc (s : State) (addr w : Nat) : Placed :=
  if addr % (w / 8) ≠ 0 then .error (some .misalign)
  else match s.scalarLoc s.hart addr (w / 8) .write with
    | .error c => .error c
    | .ok loc => if loc.kind == .remote && !loc.ar then .error (some .atomicPath) else .ok loc

/-- The access of an atomic whose checks have passed: OWNER_LOST and ECC, then RACE and WATCH, then the operation (R116, R117,
R118, R119). Cut into messages it is sent to the home and waits for the reply. -/
def State.amoAccess (s : State) (sc : Scope) (op : AmoOp) (addr : Nat) (loc : Loc) (w operand cmp : Nat) : Rd × State :=
  let h := s.hart
  let line := lineOf loc.key
  let run := fun t : State => t.atomicAt h sc loc w (·.matches op w) operand (fun old => amoApply op w old operand cmp)
  if s.sendsAtom sc loc op w then
    match s.fabricDown h.core line with
    | some r => (r, s)
    | none =>
      if s.requested .atom h.port line then (.wait .memory, s)
      else if s.lineLost line (wordMask loc.key (w / 8)) then (.fault .ownerLost, s)
      else if s.poisoned loc.key (w / 8) then (.fault .ecc, s)
      else s.amoChecked addr loc w fun t => (.wait .memory, t.send (atomMsg h loc op w operand cmp))
  else match run s with
    | (.val _, _) => s.amoChecked addr loc w fun t =>
        let (r, u) := run t
        let stored := match r with | .val old => (amoApply op w old operand cmp).isSome | _ => false
        let v := if stored then u.shadowStore h loc.key (w / 8) true else u
        (r, if isLocal addr then v else v.tlbFill h.core h.tk.part h.tk.ctx addr)
    | r => r

/-- An atomic at `a` (R117): the release of `.rel`, the wait for the SSB (R286), the checks of R118, the operation, the acquire
of `.acq`. A reply that has come finishes it. -/
def amo (op : AmoOp) (d a b : Reg) (wide : Bool) (sc : Scope) (acq rel : Bool) (s : State) : Out :=
  let addr := s.get a
  let w := if wide then 64 else 32
  match s.hart.atomReply with
  | some v => amoFinish op d wide sc acq v.toNat (s.onHart fun h => { h with atomReply := none })
  | none =>
    if acq && !s.hart.vectorDone then .next (s.waitFor .vector)
    else match (if rel then s.release sc false else .ok s) with
      | .error x => .next (s.waitFor x)
      | .ok t =>
        if !t.hart.ssb.isEmpty then .next (t.waitFor .drain)
        else match t.amoLoc addr.toNat w with
          | .error none => .next (t.waitFor .memory)
          | .error (some c) => .next (t.trap c addr)
          | .ok loc =>
            match t.amoAccess sc op addr.toNat loc w (s.get b).toNat (s.get d).toNat with
            | (.wait x, u) => .next (u.waitFor x)
            | (.fault c, u) => .next (u.trap c addr)
            | (.val old, u) => amoFinish op d wide sc acq old u

/-- AMO_ADD (R117). -/
def execAmoAdd (d a b : Reg) (w : Bool) (sc : Scope) (q l : Bool) (s : State) : Out := amo .add d a b w sc q l s
/-- AMO_AND (R117). -/
def execAmoAnd (d a b : Reg) (w : Bool) (sc : Scope) (q l : Bool) (s : State) : Out := amo .and d a b w sc q l s
/-- AMO_OR (R117). -/
def execAmoOr (d a b : Reg) (w : Bool) (sc : Scope) (q l : Bool) (s : State) : Out := amo .or d a b w sc q l s
/-- AMO_XOR (R117). -/
def execAmoXor (d a b : Reg) (w : Bool) (sc : Scope) (q l : Bool) (s : State) : Out := amo .xor d a b w sc q l s
/-- AMO_MIN (R117). -/
def execAmoMin (d a b : Reg) (w : Bool) (sc : Scope) (q l : Bool) (s : State) : Out := amo .min d a b w sc q l s
/-- AMO_MINN (R117). -/
def execAmoMinn (d a b : Reg) (w : Bool) (sc : Scope) (q l : Bool) (s : State) : Out := amo .minn d a b w sc q l s
/-- AMO_MAX (R117). -/
def execAmoMax (d a b : Reg) (w : Bool) (sc : Scope) (q l : Bool) (s : State) : Out := amo .max d a b w sc q l s
/-- AMO_MAXN (R117). -/
def execAmoMaxn (d a b : Reg) (w : Bool) (sc : Scope) (q l : Bool) (s : State) : Out := amo .maxn d a b w sc q l s
/-- AMO_SWAP (R117). -/
def execAmoSwap (d a b : Reg) (w : Bool) (sc : Scope) (q l : Bool) (s : State) : Out := amo .swap d a b w sc q l s
/-- CAS (R117). -/
def execCas (d a b : Reg) (w : Bool) (sc : Scope) (q l : Bool) (s : State) : Out := amo .cas d a b w sc q l s

end Sys2Proof.Machine
end

