-- ==== Sys2Proof/Machine/Fetch.lean ====
section
/-! DEFINITION. Fetching an instruction (R58, R59), the traps of a word that is none (R80) and of a faulting fetch (R58), and
laying a word where the next fetch finds it. -/
namespace Sys2Proof.Machine

/-- What a fetch gives. -/
inductive Fetched where
  | wait
  | fault (c : Cause)
  | word (w : IWord)
  deriving DecidableEq, Repr

/-- The bytes of a fetch at its ordering point (R59, R273). -/
def State.fetchData (s : State) (h : Hart) (loc : Loc) : Rd × State :=
  match loc.kind with
  | .bank => (s.bankRead loc.key 4, s)
  | .remote => (s.remoteReady loc 4, s)
  | .uncached => s.uncachedRd h.core loc 4
  | _ => s.homeRd h.core loc.key 4

/-- The word that the core's instruction cache holds for a key (R59). -/
def Core.cachedWord (c : Core) (key : Nat) : Option IWord := (c.icache.find? (·.1 == key)).map (·.2)

/-- The word at an address of the context's page tables (R58): MISALIGN, PAGE, PERM and PARTITION; the word of the
instruction cache, or the home's, when both are held (R59). Words of another module are in no cache (R361). -/
def State.fetchAt (s : State) (a : Nat) : Fetched × State :=
  let h := s.hart
  if a % 4 ≠ 0 then (.fault .misalign, s)
  else match s.scalarLoc h a 4 .exec with
    | .error none => (.wait, s)
    | .error (some c) => (.fault c, s)
    | .ok loc =>
      let kept := if loc.kind = .remote then none else (s.coreAt h.core).cachedWord loc.key
      match kept, s.fetchData h loc with
      | some w, (.val v, t) =>
        let fresh := BitVec.ofNat 32 v
        (.word (if w = fresh || Config.icacheOld s.env.free then w else fresh), t.tlbFill h.core h.tk.part h.tk.ctx a)
      | some w, _ => (.word w, s.tlbFill h.core h.tk.part h.tk.ctx a)
      | none, (.val v, t) =>
        let u := if loc.kind = .remote then t else t.onCore h.core fun c => { c with icache := (loc.key, BitVec.ofNat 32 v) :: c.icache }
        (.word (BitVec.ofNat 32 v), u.tlbFill h.core h.tk.part h.tk.ctx a)
      | none, (.fault c, t) => (.fault c, t)
      | none, (.wait _, t) => (.wait, t)

/-- The hart's next word. -/
def State.fetch (s : State) : Fetched × State := s.fetchAt s.hart.pc.toNat

/-- The instruction of a word of the majors that the vector stream executes, checked as `decodeWord` checks it. -/
def decodeJoin (w : IWord) : Option Instr :=
  let raw := match (fld w 26 6).toNat with
    | 0x21 => decVIntVV w | 0x22 => decVIntVX w | 0x23 => decVIntVI w | 0x24 => decVFpVV w | 0x25 => decVFpVX w
    | 0x26 => decVCmp w | 0x28 => decVPerm w | 0x29 => decVRed w | 0x2A => decVCvt w | 0x2B => decVLd w
    | 0x2C => decVSt w | 0x2D => decVGs w | 0x2F => decVMov w
    | 0x31 => some (.mop (fld w 24 2) (fld w 18 6) (fld w 12 6) (isOne (fld w 2 1)) (isOne (fld w 1 1)) (isOne (fld w 0 1)))
    | 0x32 => decMSlice w
    | 0x27 => decKOps w | 0x2E => decVSync w | 0x30 => decMat w | 0x33 => decMLoad w
    | 0x17 => decStrm w | 0x19 => decTopk w | 0x1A => decPyr w
    | _ => none
  match raw with
  | some i => if i.wf && encode i == w then some i else none
  | none => none

/-- A word that the opcode table does not list, whose one fault is of check 3 (ILLEGAL_TYPE): a `vldb` or `vstb` whose K is not 0
(R176), or a `vwiden` with S = 1 (R71). -/
def typeIllegalWord (w : IWord) : Bool :=
  if w &&& 0xFC00007E#32 == 0xAC000006#32 || w &&& 0xFC00007E#32 == 0xB0000006#32 then
    w &&& 0x700#32 != 0#32 && (decodeJoin (w &&& 0xFFFFF8FF#32)).isSome
  else w &&& 0xFC00007E#32 == 0xA8000022#32 && (decodeJoin (w &&& 0xFFFFFFFD#32)).isSome

/-- ILLEGAL_WORD (R80): a word that is not an instruction traps with ILLEGAL, the word in TVAL; one whose fault is of check 3
with ILLEGAL_TYPE (R71, R176; R9 on a hart without quads). -/
def execIllegalWord (w : IWord) (s : State) : Out :=
  if typeIllegalWord w then .next (s.trap .illegalType (if s.hart.quads.count = 0 then 0 else w.setWidth 64))
  else .next (s.trap .illegal (w.setWidth 64))

/-- FETCH_FAULT (R58): a faulting fetch traps with TVAL and TPC the PC; nothing when the fetch does not fault. -/
def execFetchFault (s : State) : Out :=
  match s.fetch with
  | (.fault c, _) => .next (s.trap c s.hart.pc)
  | _ => .next s

/-! ### A word where the next fetch finds it -/

/-- Physical addresses of the page tables and the page that `withFetchWord` lays, in partition 0's first GiB. -/
def loadRoot : Nat := 0x10000
def loadL2 : Nat := 0x20000
def loadL1 : Nat := 0x21000
def loadL0 : Nat := 0x22000
def loadPage : Nat := 0x23000

/-- Partition 0 with one GiB of stacked DRAM and cluster 0, and a root for context 0 (R347, R358). -/
def loadPart : Partition :=
  { id := 0, clusters := 1, stacked := (0, 1), lpddr := (0, 0), roots := [(0, 2 ^ 48 + loadRoot)], vmap := []
    saveArea := (0, 0), saveOpen := false, guardTab := none
    winCtx := 0, winBase := 0, race := 0, peers := [], faults := [], faultWait := [], queues := Vector.replicate 16 []
    resume := Vector.replicate 4 [], lastQueue := Vector.replicate 4 none, keyWait := false, fatal := false }

/-- A task of one hart in it, and what it holds on core 0. -/
def loadTask : Task :=
  { id := 1, part := 0
    entry := { record := 0, desc := 0, ctx := 0, kpa := 0, wloc := { kind := .cached, key := 0 }
               dloc := { kind := .cached, key := 0 }, eligible := true }
    phase := .running, groups := [], halted := [], started := 0, ending := false }

/-- The page tables that map the page of `pc` to `loadPage` with every permission (R340, R341). -/
def loadTables (s : State) (pc : Nat) : State :=
  let tab := fun (t i e : Nat) (u : State) => u.putNat (dramKey (t + 8 * i)) 8 e
  tab loadL0 (bitsOf pc 20 12) (2 ^ 48 + loadPage + 0x1F) <|
  tab loadL1 (bitsOf pc 29 21) (2 ^ 48 + loadL0 + 1) <|
  tab loadL2 (bitsOf pc 38 30) (2 ^ 48 + loadL1 + 1) <|
  tab loadRoot (bitsOf pc 51 39) (2 ^ 48 + loadL2 + 1) s

/-- The hart runs, with nothing pending that would come before its next fetch. -/
def readyToFetch (s : State) : State :=
  { s with
    hart := { s.hart with
      status := .running, wait := none, lostStores := []
      vs := { s.hart.vs with vq := [], blocked := false } }
    env := { s.env with inputs := [], opps := [s.hart.id], lag := [], issue := none }
    sys := { s.sys with boot := { s.sys.boot with stopped := false } } }

/-- A hart placed on core 0 by a launch, as `withFetchWord` stands for one (log entry 11): partition 0, task 1, eight quads,
page tables that map the page of its PC. -/
def placedForFetch (s : State) : State :=
  let h := s.hart
  let t := { s with
    hart := { h with
      pc := BitVec.ofNat 64 (h.pc.toNat % 2 ^ 52 / 4 * 4)
      quads := { count := 8, first := 0 }, vr := { h.vr with quads := 8, pending := false }
      tk := { h.tk with task := 1, part := 0, ctx := 0, index := 0, count := 1 } }
    sys := { s.sys with parts := [loadPart], tasks := [loadTask], nextTask := 2 }
    cores := [], coh := { s.coh with homes := [], poison := [], wq := [] } }
  loadTables t t.hart.pc.toNat

/-- Store a word at the hart's PC, if the PC translates for a fetch; its instruction cache forgets that word. -/
def storeAtPc (s : State) (w : IWord) : Option State :=
  match s.scalarLoc s.hart s.hart.pc.toNat 4 .exec with
  | .error _ => none
  | .ok loc =>
    if s.hart.pc.toNat % 4 = 0 && (loc.kind == .cached || loc.kind == .roPath) && !s.poisoned loc.key 4 then
      some ((s.onHome (lineOf loc.key) fun hl => HomeLine.fresh hl.line).putNat loc.key 4 w.toNat
        |>.onCore s.hart.core fun c => { c with icache := c.icache.filter (fun e => e.1 != loc.key) })
    else none

end Sys2Proof.Machine
end

