-- ==== Sys2Proof/Machine/VecCheck.lean ====
section
/-! DEFINITION. The checks that the scalar pipe makes before it pushes a vector-stream word (R81, R255): the type state
(check 3), the convoy (check 4), the tiles and slots (check 5). -/
namespace Sys2Proof.Machine

/-! ### Fields of the X format (R60, R76) -/

/-- The tile, OA and OB. -/
def wT (w : IWord) : Nat := bitsOf w.toNat 25 24
def wOa (w : IWord) : Nat := bitsOf w.toNat 23 18
def wOb (w : IWord) : Nat := bitsOf w.toNat 17 12
/-- OP of MAT, of MSLICE and of MLOAD; VR of MSLICE. -/
def wMatOp (w : IWord) : Nat := wFn11 w / 128
def wSliceOp (w : IWord) : Nat := wFn11 w / 512
def wVr (w : IWord) : Nat := wFn11 w / 16 % 32

/-- The x operands that travel with a word (R72, R263). -/
def captureOps (h : Hart) (w : IWord) : Word × Word × Word :=
  let x := fun n : Nat => h.get (BitVec.ofNat 5 n)
  match wMaj w with
  | 0x30 => (x (wFn11 w / 4 % 32), 0, 0)
  | 0x31 => (0, 0, 0)
  | 0x32 => (x (wOa w % 32), 0, 0)
  | 0x33 => (x (wFn11 w / 16 % 32), x (wOb w % 32), 0)
  | _ => (x (wA w), x (wB w), x (wB w + 1))

/-! ### Check 3: the type state -/

/-- A register number is a multiple of a group size (R7). -/
def isBase (r g : Nat) : Bool := r % g == 0

/-- Under blocked-narrow, the register FMT names has the container that `vsett` recorded (R19). -/
def Hart.fmtHeld (h : Hart) : Bool := fmtWidthOk h.fmtReg && containerOf (fmtWm1 h.fmtReg + 1) == h.vr.cbits

/-- The word reads VB as a vector group in VINT, VFP and VCMP (R70, R72). -/
def bIsGroup (w : IWord) : Bool :=
  match wMaj w with
  | 0x21 => true
  | 0x24 => !(wFn w == 6 || wFn w == 9 || wFn w == 10)
  | 0x26 => decide (wFn w < 32)
  | _ => false

/-- VCVT (R71, R159, R160): sizes, `.sat`, destination group and overlap. -/
def cvtOk (h : Hart) (t : VT) (w : IWord) : Bool :=
  let tgt := targetOf (wB w)
  let tb := tgt.bits h.fmtReg
  let op := wFn w / 16
  let n := cvtRegs t w tb
  let sizes := match op with
    | 0 => tb == t.ew
    | 1 => tb == 2 * t.ew || tb == 4 * t.ew
    | _ => t.ew == 2 * tb || t.ew == 4 * tb
  let narrowInt := match tgt with | .int _ _ => t.isInt && decide (tb < t.ew) | _ => false
  sizes && (wFn w % 2 == 0 || narrowInt) && decide (n ≤ 8) && isBase (wD w) n && isBase (wA w) t.g &&
  (if op = 0 then !badOverlap (wD w) n (wA w) t.g else !overlaps (wD w) n (wA w) t.g)

/-- The element format of a declared range is legal (R184). -/
def rangeTypeOk (t : VT) (op : Nat) : Bool :=
  (t.isInt && (t.ew == 32 || t.ew == 64)) || (decide (t.cls = 2) && (t.ew == 32 || t.ew == 64) && op != 3)

/-- The element type is that of the window (R181). -/
def Window.fits (wn : Window) (t : VT) : Bool :=
  decide (t.ew = 32) && (if wn.float then decide (t.cls = 2) else t.isInt && (wn.signed == t.isSigned))

/-- The lines of [a, a + len) meet a range of the task that is declared, or whose declaration another hart has pushed, or the number is
taken (R184, R255). -/
def State.rangeClash (s : State) (h : Hart) (rng a len : Nat) : Bool :=
  let hits := fun (n va l : Nat) => n == rng || (decide (va < a + len) && decide (a < va + l))
  (s.coh.ranges.any fun r => r.part == h.tk.part && r.task == h.tk.task && hits r.rng r.va r.len) ||
  s.harts.any fun g => g.tk.part == h.tk.part && g.tk.task == h.tk.task &&
    ((if g.id = h.id then [] else g.vs.vq) ++ g.vs.parked).any fun e =>
      wMaj e.word == 0x2E && wFn e.word % 16 == 8 && hits (wD e.word % 8) e.xa.toNat e.xb.toNat

/-- A format register serves a crucible class (R49). -/
def classFmtOk (c : Nat) (f : Word) : Bool :=
  if c < 8 then true
  else
    let width := if c < 15 then c - 6 else c - 11
    fmtOk f && (slotsOf f).all fun a => !a.v || (a.wm1 + 1 == width && a.s == decide (c < 15))

/-- The element type of a stream in memory, whether it converts, and its output type (R193, R196). -/
def ZReg.inType (z : ZReg) : Nat := bytesAt z.block 2 1
def ZReg.converts (z : ZReg) : Bool := (bytesAt z.block 3 1).testBit 1
def ZReg.outType (z : ZReg) : Nat := if z.converts then bytesAt z.block 4 1 else z.inType

/-- The bits of an element of a code of R71; a blocked slot's come from the format register (R43). -/
def codeBits (f : Word) (c : Nat) : Nat := (targetOf c).bits f

/-- A conversion changes the size by at most four times (R51). -/
def sizesOk (f : Word) (a b : Nat) : Bool := decide (codeBits f a ≤ 4 * codeBits f b) && decide (codeBits f b ≤ 4 * codeBits f a)

/-- The stream register that `zrd` and `zpeek` name. -/
def Hart.streamOf (h : Hart) (w : IWord) : Option ZReg := h.z.get ⟨wA w % 8, by omega⟩

/-- The word uses the register that FMT names (R16, R19; log entry 135): a word with operands of the blocked-narrow class, a
conversion to a slot, and a stream with a blocked type in memory or at its output. -/
def usesFmt (h : Hart) (w : IWord) : Bool :=
  let blk := decide (h.vt.cls = 5)
  match wMaj w with
  | 0x17 => match h.streamOf w with
    | some z => decide (16 ≤ z.inType) || decide (16 ≤ z.outType)
    | none => false
  | 0x1A => blk
  | 0x2A => blk || (match targetOf (wB w) with | .slot _ => true | _ => false)
  | 0x2E => blk && !(wFn w % 16 == 6 || wFn w % 16 == 9)
  | m => blk && decide (0x21 ≤ m) && decide (m ≤ 0x2F)

/-- VTYPE's element type is a stream's output type; any slot code is blocked-narrow (R71, R196). -/
def typeFits (t : VT) (code : Nat) : Bool := if 16 ≤ code then decide (t.cls = 5) else decide (t.cls ≠ 5) && typeCode t == code

/-- What the type state requires of a word of a vector or matrix family, the holding and the layout aside (R79 and the rules
of each family). -/
def familyOk (s : State) (h : Hart) (t : VT) (w : IWord) (xa xb : Word) : Bool :=
  let fn := wFn w
  let blk := decide (t.cls = 5)
  let g := t.g
  let d := isBase (wD w) g
  let a := isBase (wA w) g
  let b := isBase (wB w) g
  let plain := t.isInt || t.isFloat
  match wMaj w with
  | 0x17 => d && (match h.streamOf w with
      | some z => typeFits t z.outType && (!z.converts || sizesOk h.fmtReg z.inType z.outType)
      | none => true)
  | 0x19 => decide (t.ew = 32) && !blk && d && a
  | 0x1A => d
  | 0x21 => t.isInt && d && a && b
  | 0x22 | 0x23 => t.isInt && d && a
  | 0x24 => t.isFloat && d && a && (!bIsGroup w || b)
  | 0x25 => t.isFloat && d && a
  | 0x26 => (if fn % 32 < 8 then t.isInt else t.isFloat) && a && (!bIsGroup w || b)
  | 0x27 => plain
  | 0x28 =>
    match fn with
    | 0 => plain && d && a && b
    | 1 => plain && d
    | 2 | 3 => d && a && !overlaps (wD w) g (wA w) g &&
        (plain || (blk && (decide (24 ≤ wB w) || decide (xb.toNat % 32 = 0))))
    | 4 => plain && d && a && b && !overlaps (wD w) g (wA w) g && !overlaps (wD w) g (wB w) g
    | 5 | 6 => plain && d && a && !overlaps (wD w) g (wA w) g
    | _ => d && a && b && !overlaps (wD w) g (wA w) g && !overlaps (wD w) g (wB w) 1
  | 0x29 =>
    if fn = 6 then decide (t.cls = 2) && decide (t.ew = 32) && d && a
    else (if fn ≤ 3 then plain else t.isInt) && a
  | 0x2A => cvtOk h t w
  | 0x2B => if fn % 16 = 3 then blk && d && wK w == 0 else plain && d
  | 0x2C => if fn % 16 = 3 then blk && d && wK w == 0 else plain && d
  | 0x2D =>
    let gi := idxRegs t (idxBits w)
    plain && d && decide (gi ≤ 8) && isBase (wB w) gi && (decide (2 ≤ fn % 16) || !overlaps (wD w) g (wB w) gi)
  | 0x2E =>
    match fn % 16 with
    | 0 => plain && d && b && !overlaps (wD w) g (wB w) g
    | 1 => plain && d && b
    | 2 | 3 => t.isInt && decide (t.ew = 64) && b
    | 4 =>
      (decide (t.ew = 32) && (t.isInt || decide (t.cls = 2))) &&
      decide (1 ≤ xb.toNat) && decide (xb.toNat ≤ bytesAt (s.descOf h) 32 2)
    | 5 => d && b && (match h.win with | some wn => wn.fits t | none => false)
    | 6 => h.win.isSome
    | 7 => ((t.isInt || decide (t.cls = 2)) && (t.ew == 32 || t.ew == 64)) && d && b
    | 8 =>
      rangeTypeOk t (wD w / 8) && decide (xb.toNat % 64 = 0) && decide (64 ≤ xb.toNat) && decide (xb.toNat ≤ 2 ^ 32) &&
      !s.rangeClash h (wD w % 8) xa.toNat xb.toNat
    | _ => true
  | 0x2F =>
    match fn with
    | 0 => d && a && (plain || wK w == 0)
    | 1 => plain && d
    | 2 => plain && a
    | _ => true
  | 0x30 =>
    if wMatOp w = 5 then
      classFmtOk (wOa w % 32) (h.f.get ⟨wFn11 w / 8 % 8, by omega⟩) && classFmtOk (wOb w % 32) (h.f.get ⟨wFn11 w % 8, by omega⟩)
    else true
  | 0x32 =>
    decide (t.ew = 32) && decide (t.cls ≤ 2) && isBase (wVr w) g && !xa.getLsbD 7 &&
    (if wSliceOp w = 2 then decide (t.cls = 2) && !xa.getLsbD 8 && decide (t.vl % 64 = 0) && decide (64 ≤ t.vl) else true)
  | _ => true

/-- Check 3 (R81): the TVAL of an ILLEGAL_TYPE trap, none when the word passes. A hart without quads is told by TVAL 0 (R9). -/
def typeBad (s : State) (h : Hart) (w : IWord) (xa xb : Word) : Option Word :=
  if h.quads.count = 0 then some 0
  else if h.vr.pending then some (w.setWidth 64)
  else if usesFmt h w && !(fmtOk h.fmtReg && (h.vt.cls != 5 || h.fmtHeld)) then some (w.setWidth 64)
  else if familyOk s h h.vt w xa xb then none
  else some (w.setWidth 64)

/-- The words that come before the next one in program order and have not been issued for the last time: the queued ones, and the
body of a loop with replays left (R197, R263). -/
def Hart.ahead (h : Hart) : List IWord :=
  h.vs.vq.map (·.word) ++ (match h.vs.loop with
    | some l => if l.filling || l.left == 0 then [] else l.body.map (·.word)
    | none => [])

/-- The word may trim VL: a fault-first load, or a read of a stream (R166, R176, R196). -/
def trimsVl (w : IWord) : Bool :=
  match wMaj w with
  | 0x17 | 0x2B => true
  | 0x2D => decide (wFn w % 16 ≤ 1)
  | _ => false

/-- A word of a convoy family still queued changes what a check at push reads: the window, the ranges, VL for
`mslice.rd.exp` (R181, R184, R213). -/
def queuedBefore (h : Hart) (w : IWord) : Bool :=
  let has := fun p : IWord → Bool => h.ahead.any p
  match wMaj w with
  | 0x2E =>
    match wFn w % 16 with
    | 5 | 6 => has fun v => wMaj v == 0x2E && wFn v % 16 == 4
    | 8 => has fun v => wMaj v == 0x2E && (wFn v % 16 == 8 || wFn v % 16 == 9)
    | _ => false
  | 0x32 => wSliceOp w == 2 && has trimsVl
  | _ => false

/-! ### Check 4: convoys (R77, R266, R267) -/

/-- The functional-unit classes of R266. -/
inductive FUnit where
  | ia | im | fa | fd | px | xc | ld | st | mx
  deriving DecidableEq, Repr

/-- The unit of a word that may carry CV = 1; none for every other word (R77, R266). -/
def unitOf (w : IWord) : Option FUnit :=
  let fn := wFn w
  match wMaj w with
  | 0x21 | 0x22 | 0x23 => if 3 ≤ fn ∧ fn ≤ 5 then some .im else some .ia
  | 0x24 | 0x25 => if fn = 5 ∨ fn = 6 ∨ fn = 10 then some .fd else some .fa
  | 0x26 => if fn % 32 < 8 then some .ia else some .fa
  | 0x28 => if fn ≤ 1 then some .ia else some .px
  | 0x29 => if fn ≤ 5 then some .px else none
  | 0x2A => some .xc
  | 0x2B => some .ld
  | 0x2C => some .st
  | 0x2D => if fn % 16 ≤ 1 then some .ld else some .st
  | 0x2F => if fn ≤ 1 then some .ia else if fn = 2 then some .px else none
  | 0x31 | 0x32 => some .mx
  | _ => none

/-- The vector registers a member writes: base and count (R267). -/
def writesOf (h : Hart) (t : VT) (w : IWord) : Option (Nat × Nat) :=
  match wMaj w with
  | 0x21 | 0x22 | 0x23 | 0x24 | 0x25 | 0x28 | 0x2B => some (wD w, t.g)
  | 0x2A => some (wD w, cvtRegs t w ((targetOf (wB w)).bits h.fmtReg))
  | 0x2D => if wFn w % 16 ≤ 1 then some (wD w, t.g) else none
  | 0x2F => if wFn w ≤ 1 then some (wD w, t.g) else none
  | 0x32 => if wSliceOp w = 1 then none else some (wVr w, t.g)
  | _ => none

/-- The mask register it writes. -/
def maskWriteOf (w : IWord) : Option Nat :=
  match wMaj w with
  | 0x26 => some (wD w % 8)
  | 0x21 | 0x22 | 0x23 => if wFn w = 14 ∨ wFn w = 15 then some (wK w) else none
  | _ => none

/-- The vector registers it reads other than element by element (R267). -/
def farReadsOf (t : VT) (w : IWord) : List (Nat × Nat) :=
  match wMaj w with
  | 0x28 =>
    match wFn w with
    | 0 | 1 => []
    | 4 => [(wA w, t.g), (wB w, t.g)]
    | 7 => [(wA w, t.g), (wB w, 1)]
    | _ => [(wA w, t.g)]
  | 0x29 => [(wA w, t.g)]
  | 0x2D => [(wB w, idxRegs t (idxBits w))]
  | 0x2F => if wFn w = 2 then [(wA w, t.g)] else []
  | 0x32 => if wSliceOp w = 1 then [(wVr w, t.g)] else []
  | _ => []

/-- The selector of `vmerge`, which is no element-wise read (R267). -/
def farMaskOf (w : IWord) : Option Nat := if wMaj w = 0x28 ∧ wFn w = 0 ∧ wK w ≠ 0 then some (wK w) else none

/-- Chaining from an earlier member is impossible (R267). -/
def unchainable (h : Hart) (t : VT) (early late : IWord) : Bool :=
  (match writesOf h t early with
   | some (r, n) => (farReadsOf t late).any fun p => overlaps r n p.1 p.2
   | none => false) ||
  (match maskWriteOf early, farMaskOf late with
   | some k, some j => k == j
   | _, _ => false)

/-- `late` cannot stand behind the members before it: a fifth member, no unit left, or no chaining (R77, R266, R267). -/
def cannotJoin (h : Hart) (t : VT) (members : List IWord) (late : IWord) : Bool :=
  let u := unitOf late
  let limit := if u == some FUnit.ia then 2 else 1
  decide (4 ≤ members.length) || decide (limit ≤ (members.filter fun m => unitOf m == u).length) ||
  members.any fun m => unchainable h t m late

/-- The words at PC + 4 and on that would join a convoy begun at PC: legal, with CV = 1, and passing check 3 (R77, R81); or what
must come first, while one of them cannot be fetched or checked yet. -/
def followers (s : State) (h : Hart) (pc : Word) : Nat → Except Wait (List IWord)
  | 0 => .ok []
  | n + 1 =>
    match (s.fetchAt (pc + 4).toNat).1 with
    | .word w =>
      let (xa, xb, _) := captureOps h w
      if !(wCv w && (unitOf w).isSome && (decodeJoin w).isSome) then .ok []
      else if queuedBefore h w then .error .vector
      else if (typeBad s h w xa xb).isNone then (followers s h (pc + 4) n).map (w :: ·)
      else .ok []
    | .fault _ => .ok []
    | .wait => .error .memory

/-- The first word that cannot stand in the convoy, if any. -/
def convoyBreak (h : Hart) (t : VT) : List IWord → List IWord → Option IWord
  | _, [] => none
  | members, w :: r => if cannotJoin h t members w then some w else convoyBreak h t (members ++ [w]) r

/-- What check 4 says of a word: it passes, the convoy it begins is not known yet, or the word of a CONVOY trap. -/
inductive ConvoyCheck where
  | ok | unknown (x : Wait) | bad (w : IWord)
  deriving DecidableEq, Repr

/-- The convoy that a word begins (R77, R266, R267). -/
def convoyFrom (s : State) (h : Hart) (w : IWord) : ConvoyCheck :=
  match followers s h h.pc 4 with
  | .error x => .unknown x
  | .ok l => match convoyBreak h h.vt [w] l with
    | some v => .bad v
    | none => .ok

/-- Check 4 for a word at the hart's PC (R77). A convoy is checked whole before its first member executes; a word that joins one is
checked once more against the members that went before, for what stood here then, or what a load among them trimmed, may have changed
(log entry 158). -/
def convoyBad (s : State) (h : Hart) (w : IWord) : ConvoyCheck :=
  if (unitOf w).isNone then .ok
  else match h.vs.conv with
    | .other => if wCv w then .bad w else convoyFrom s h w
    | .member ms => if !wCv w then convoyFrom s h w else if cannotJoin h h.vt ms w then .bad w else .ok
    | .fresh => convoyFrom s h w

/-! ### Check 5: tiles and slots (R200) -/

/-- g, the granted rows, and b, the first (R199). -/
def Hart.rows (h : Hart) : Nat := (fld h.mgrant 0 8).toNat
def Hart.row0 (h : Hart) : Nat := (fld h.mgrant 8 8).toNat
/-- SKB (R217). -/
def Hart.skb (h : Hart) : Bool := h.mgrant.getLsbD 16

/-- The tile is on (R200). -/
def tileOn (h : Hart) (p : Option Place) (t : Nat) : Bool :=
  decide (0 < h.rows) && (match p with | some q => decide (t < q.tiles) | none => false)

/-- The slot is the hart's (R200). -/
def slotMine (h : Hart) (p : Option Place) (o : Nat) : Bool :=
  match p with
  | some q => decide (o < q.slots) && q.claims.any fun c => c.1 == o && c.2 == h.id
  | none => false

/-- The slots of a claim are within SLOTS and free of other harts (R204). -/
def claimable (h : Hart) (p : Option Place) (first n : Nat) : Bool :=
  match p with
  | some q => decide (first + n ≤ q.slots) && !q.claims.any fun c => decide (first ≤ c.1) && decide (c.1 < first + n) && c.2 != h.id
  | none => false

/-- The word touches a tile or a slot (R200, R255). -/
def touchesMatrix (w : IWord) : Bool :=
  match wMaj w with
  | 0x30 => decide (wMatOp w = 2) || decide (4 ≤ wMatOp w)
  | 0x31 | 0x32 | 0x33 => true
  | _ => false

/-- Check 5 (R200, R203 to R213): TILE_OFF, then SLOT. -/
def matrixBad (h : Hart) (p : Option Place) (w : IWord) : Option Cause :=
  let tile := if tileOn h p (wT w) then none else some Cause.tileOff
  match wMaj w with
  | 0x30 =>
    if wMatOp w = 2 then (if claimable h p (wOa w) (wOb w + 1) then none else some .slot)
    else if 4 ≤ wMatOp w then tile else none
  | 0x31 =>
    if tile.isSome then tile
    else if slotMine h p (wOa w) && slotMine h p (wOa w + 1) && slotMine h p (wOb w) then none else some .slot
  | 0x32 => if wSliceOp w = 2 && !tileOn h p (wT w ^^^ 1) then some .tileOff else tile
  | 0x33 =>
    if wSliceOp w = 1 then tile
    else if slotMine h p (wOa w) && (wFn11 w % 2 == 0 || slotMine h p (wOa w + 1)) then none else some .slot
  | _ => none

/-- An earlier `mattach`, `mdetach`, `o.claim` or `o.release` is still queued (R255). -/
def matrixPending (h : Hart) : Bool := h.ahead.any fun v => wMaj v == 0x30 && decide (wMatOp v ≤ 3)

/-! ### The checks in their order -/

/-- What the checks before a push say. -/
inductive Push where
  | ok
  | wait (w : Wait)
  | trap (c : Cause) (tval : Word)
  deriving DecidableEq, Repr

/-- Words in the vector queue outside a `zloop` body, and parked ones, which keep their entries (R24, R263). -/
def Hart.queued (h : Hart) : Nat :=
  (h.vs.vq.filter fun e => !e.loop).length + (h.vs.parked.filter fun e => !e.loop).length

/-- The checks of R81 and R255 on a word at the hart's PC, and room in the queue. -/
def pushCheck (s : State) (w : IWord) : Push :=
  let h := s.hart
  let (xa, xb, _) := captureOps h w
  if queuedBefore h w then .wait .vector
  else match typeBad s h w xa xb with
    | some v => .trap .illegalType v
    | none =>
      match convoyBad s h w with
      | .bad v => .trap .convoy (v.setWidth 64)
      | .unknown x => .wait x
      | .ok =>
        if touchesMatrix w && matrixPending h then .wait .vector
        else match matrixBad h (s.placeOf h) w with
          | some c => .trap c (w.setWidth 64)
          | none => if 32 ≤ h.queued then .wait .queueFull else .ok

end Sys2Proof.Machine
end

