-- ==== Sys2Proof/Machine/VecIssue.lean ====
section
/-! DEFINITION. How a vector-stream word runs (R63, R81, R140 to R143, R263): pushed after its checks, issued by the vector stream,
waiting at the head of its queue, or trapping there (R24); and the loops over elements that the families share. -/
namespace Sys2Proof.Machine

/-- What executing a word in the vector stream gives: done; the head waits, with the entry to issue again; or a trap at check
6, at an element. -/
inductive VOut where
  | done (s : State)
  | block (w : Wait) (e : VEntry) (s : State)
  | trap (e : VEntry) (c : Cause) (tval : Word) (eri : Nat) (s : State)

/-- A word's work in the vector stream. -/
abbrev Body := VEntry → State → VOut

/-- The entry that repeats the body of a `zloop`, if replays are left (R197). -/
def Hart.replay (h : Hart) (e : VEntry) : Hart :=
  if !e.last then h
  else match h.vs.loop with
    | none => h
    | some l =>
      if l.left = 0 then { h with vs := { h.vs with loop := none } }
      else { h with vs := { h.vs with vq := l.body ++ h.vs.vq, loop := some { l with left := l.left - 1 } } }

/-- The head waits in front of the queue. -/
def Hart.requeue (h : Hart) (e : VEntry) : Hart := { h with vs := { h.vs with vq := e :: h.vs.vq, blocked := true } }

/-- The vector stream issues an entry. -/
def runBody (body : Body) (e : VEntry) (s : State) : Out :=
  match body e s with
  | .done t => .next (t.onHart (·.replay e))
  | .block _ e' t => .next (t.onHart (·.requeue e'))
  | .trap e' c tval eri t => .next (parkTrap e' e'.kept c tval eri t)

/-- The loop whose body the word at the hart's PC continues (R197). -/
def Hart.inBody (h : Hart) : Option LoopBuf :=
  match h.vs.loop with
  | some l => if l.filling && l.next == h.pc then some l else none
  | none => none

/-- The entry of a word at the hart's PC: its x operands, where a return from a trap makes it start (R23, R141), and its place in
the body of a loop (R197). -/
def entryOf (h : Hart) (w : IWord) : VEntry :=
  let (xa, xb, xc) := captureOps h w
  let (st, kept) := match h.restart with
    | some (p, eri, k) => if p = h.pc then (eri, k) else (0, none)
    | none => (0, none)
  { word := w, pc := h.pc, xa := xa, xb := xb, xc := xc, start := st, kept := kept, loop := h.inBody.isSome
    last := match h.inBody with | some l => l.body.length + 1 == l.words | none => false }

/-- The loop buffer takes a word of its body, to be replayed whole (R197). -/
def Hart.keepBody (h : Hart) (e : VEntry) : Hart :=
  match h.inBody with
  | some l => { h with vs := { h.vs with loop := some { l with body := l.body ++ [{ e with start := 0, kept := none }] } } }
  | none => h

/-- The convoy state once a word is pushed: it joins the members before it, begins a convoy, or cannot stand in one (R77). -/
def Hart.convoyAfter (h : Hart) (w : IWord) : Convoy :=
  if (unitOf w).isNone then .other
  else match h.vs.conv with
    | .member ms => .member (if wCv w then ms ++ [w] else [w])
    | _ => .member [w]

/-- The scalar pipe is past the word. -/
def State.pushed (s : State) (e : VEntry) : State := s.onHart fun h => (h.keepBody e).goto (h.pc + 4) (h.convoyAfter e.word)

/-- Push an entry into the vector queue. -/
def Hart.enqueue (h : Hart) (e : VEntry) : Hart := { h with vs := { h.vs with vq := h.vs.vq ++ [e] } }

/-- A VECTOR-STREAM WORD (R63, R255, R263). Issued by the vector stream it runs its body. Fetched by the scalar pipe it is
checked and pushed; with nothing ahead of it the vector stream takes it at once, unless the vector stream lags. -/
def vissue (w : IWord) (body : Body) (s : State) : Out :=
  match s.env.issue with
  | some e => runBody body e { s with env := { s.env with issue := none } }
  | none =>
    match pushCheck s w with
    | .wait x => .next (s.waitFor x)
    | .trap c tval => .next (s.trap c tval)
    | .ok =>
      let e := entryOf s.hart w
      let t := s.pushed e
      if !s.hart.vs.vq.isEmpty then .next (t.onHart (·.enqueue e))
      else if s.env.lag.headD false then .next ({ t with env := { t.env with lag := t.env.lag.tail } }.onHart (·.enqueue e))
      else runBody body e { t with env := { t.env with lag := t.env.lag.tail } }

/-! ### Scalar operands (R72, R141) -/

/-- The scalar operand S: the x register captured at push, or the queue register popped at the first issue and kept. -/
def withS (e : VEntry) (s : State) (k : Word → VEntry → State → VOut) : VOut :=
  let b := wB e.word
  if b < 24 then k e.xb e s
  else match e.kept with
    | some v => k v e s
    | none =>
      match s.hart.queue (b - 24) with
      | [] => .block .queueReg e s
      | v :: r => k v { e with kept := some v } (s.onHart (·.putQueue (b - 24) r))

/-- Push a result to a queue register that VD names (q4 to q7), or wait while it is full (R13, R73). -/
def pushResult (e : VEntry) (s : State) (v : Word) : VOut :=
  let q := wD e.word - 24
  if s.hart.queueRoom q 1 then .done (s.onHart (·.push q v)) else .block .queueReg e s

/-! ### Loops over elements -/

/-- The lowest active element from `start` on whose events include an enabled class, with the cause (R143). -/
def firstTrap (flags : BitVec 16) (act : Nat → Bool) (ev : Nat → Ev) (start n : Nat) : Option (Nat × Cause) :=
  (List.range' start (n - start)).findSome? fun i => if act i then ((ev i).trap flags).map fun c => (i, c) else none

/-- The events of the active elements from `start` to `stop - 1`. -/
def evsOf (act : Nat → Bool) (ev : Nat → Ev) (start stop : Nat) : List (Nat × Ev) :=
  (List.range' start (stop - start)).filterMap fun i => if act i then some (i, ev i) else none

/-- Record events at the word's PC (R21, R22). -/
def State.recordAt (s : State) (pc : Word) (evs : List (Nat × Ev)) : State :=
  s.onHart fun h => { h with fl := recordEvs evs pc h.fl }

/-- A word that writes a destination element by element (R140, R143): `val` gives an active element's bits and events, and
`put` writes what elements below `stop` become. At a trap the elements from the trapping one on are left as they were. -/
def elementwise (e : VEntry) (act : Nat → Bool) (ev : Nat → Ev) (n : Nat) (put : Nat → Hart → Hart) (total : Nat) (s : State) :
    VOut :=
  match firstTrap s.hart.fl.flags act ev e.start n with
  | some (j, c) =>
    .trap e c (e.word.setWidth 64) j ((s.onHart (put j)).recordAt e.pc (evsOf act ev e.start (j + 1)))
  | none => .done ((s.onHart (put total)).recordAt e.pc (evsOf act ev e.start n))

/-- Write a destination group of G registers: elements below `stop` as the policy gives, the others as they were. -/
def putElems (t : VT) (start d : Nat) (act : Nat → Bool) (val : Nat → Nat) (stop : Nat) (h : Hart) : Hart :=
  let old := h.group d t.g
  h.putGroup d t.g (joinNat t.ew (fun i => if i < stop then policy t start old act val i else elemOf old t.ew i) t.vlmax)

/-- The element loop of R140 for a destination of G registers. -/
def vecElems (e : VEntry) (s : State) (act : Nat → Bool) (val : Nat → Nat) (ev : Nat → Ev) : VOut :=
  let t := s.hart.vt
  elementwise e act ev t.vl (putElems t e.start (wD e.word) act val) t.vlmax s

/-- The active elements of a word (R12, R57). -/
def activeOf (s : State) (e : VEntry) (i : Nat) : Bool := s.hart.active (BitVec.ofNat 3 (wK e.word)) i

/-- The second operand Y of VINT, VFP and VCMP: B[e], S or the immediate (R62, R72, R146). -/
def withY (e : VEntry) (s : State) (group : Bool) (imm : Option Nat) (k : (Nat → Nat) → VEntry → State → VOut) : VOut :=
  let t := s.hart.vt
  match imm with
  | some v => k (fun _ => v) e s
  | none =>
    if group then
      let b := s.hart.group (wB e.word) t.g
      k (fun i => elemOf b t.ew i) e s
    else withS e s fun v e' s' => k (fun _ => v.toNat % 2 ^ t.ew) e' s'

/-- Write mask register k: bits from `start` to `stop - 1` as given, those below `start` and, after a trap, those from `stop` on
as they were; bits at VL and above follow TP (R12). -/
def putMaskTo (t : VT) (k start stop : Nat) (bit : Nat → Bool) (h : Hart) : Hart :=
  let old := h.kreg k
  let n := Nat.min stop t.vl
  let low := joinNat 1 (fun i => if i < start then (old.getLsbD i).toNat else (bit i).toNat) n
  let high := if t.vl ≤ stop && t.tp then 0 else old.toNat / 2 ^ n * 2 ^ n
  h.putK k (BitVec.ofNat 4096 (low + high))

end Sys2Proof.Machine
end

