-- ==== Sys2Proof/Machine/VecMove.lean ====
section
/-! DEFINITION. VSET (R145), moves between the streams (R153), permutes (R154 to R156) and conversions (R159, R160). -/
namespace Sys2Proof.Machine

/-! ### VSET (R145): coupled words -/

/-- G fits the recorded container under blocked-narrow (R10). -/
def groupFits (cls g cbits : Nat) : Bool := cls != 5 || decide (g ≤ cbits)

/-- `vsett` accepts a VTYPE value (R10, R17 to R19); the container it records. -/
def vsettAccepts (h : Hart) (v : Word) : Option Nat :=
  if !vtLegal v then none
  else if vtClass v ≠ 5 then some h.vr.cbits
  else
    let f := h.f.get ⟨vtFmt v % 8, by omega⟩
    let c := containerOf (fmtWm1 f + 1)
    if fmtWidthOk f && groupFits 5 (vtG v) c then some c else none

/-- The layout follows the holding: when it differs from the holding at the previous `vsetl` or `vsett`, every v and k register
reads zero (R8). -/
def Hart.layout (h : Hart) : Hart :=
  if h.vr.quads = h.quads.count then { h with vr := { h.vr with pending := false } }
  else { h with
    vr := { h.vr with quads := h.quads.count, pending := false }
    v := Vector.replicate 32 0, hdr := Vector.replicate 32 0, k := Vector.replicate 8 0 }

/-- VL := min(want, VLMAX) under a VTYPE (R10, R145); 0 on a hart without quads (R9). -/
def Hart.setLength (h : Hart) (vtype want : Word) (cbits : Nat) : Hart :=
  let vl := Nat.min want.toNat (vlmaxOf h.quads.count (vtG vtype) (ewBits vtype cbits))
  { h with vr := { h.vr with vtype := vtype, cbits := cbits, vl := vl } }.layout

/-- VSETL (R145). -/
def execVsetl (d a : Reg) (s : State) : Out :=
  if !s.hart.vectorDone then .next (s.waitFor .vector)
  else
    let g := s.hart.setLength s.hart.vr.vtype (s.get a) s.hart.vr.cbits
    ({ s with hart := g }).result d (BitVec.ofNat 64 g.vr.vl)

/-- VSETT (R145): a value that fails its checks traps with ILLEGAL_TYPE and changes nothing. -/
def execVsett (d a b : Reg) (s : State) : Out :=
  if !s.hart.vectorDone then .next (s.waitFor .vector)
  else match vsettAccepts s.hart (s.get a) with
    | none => .next (s.trap .illegalType ((encode (.vsett d a b)).setWidth 64))
    | some c =>
      let g := s.hart.setLength (s.get a) (s.get b) c
      ({ s with hart := g }).result d (BitVec.ofNat 64 g.vr.vl)

/-! ### Headers (R45) -/

/-- Blocks that a register of a group holds, one header byte each. -/
def VT.per (t : VT) : Nat := hdrBytes t.n t.ew

/-- The headers a word that writes blocks leaves: `src b` for a block that it writes an element of, the old one otherwise; a
block wholly in the tail follows TP (R45). -/
def putBlockHeaders (t : VT) (d cnt per : Nat) (written : Nat → Bool) (src : Nat → Nat) (h : Hart) : Hart :=
  let old := h.headers d cnt per
  h.putHeaders d cnt per (joinNat 8 (fun b =>
    if 32 * b < t.vl then (if written b then src b else elemOf old 8 b) else if t.tp then 0 else elemOf old 8 b) (cnt * per))

/-- Some element of block b below VL is written: active, or zeroed by MP. -/
def blockWritten (t : VT) (act : Nat → Bool) (b : Nat) : Bool :=
  (List.range' (32 * b) 32).any fun i => decide (i < t.vl) && (act i || t.mp)

/-! ### VMOV (R153) -/

/-- VMV: headers go with their blocks under blocked-narrow. -/
def vmvBody : Body := fun e s =>
  let t := s.hart.vt
  let act := activeOf s e
  let a := s.hart.group (wA e.word) t.g
  let ah := s.hart.headers (wA e.word) t.g t.per
  let hs := fun h : Hart => if t.cls = 5 then putBlockHeaders t (wD e.word) t.g t.per (blockWritten t act) (elemOf ah 8) h else h
  .done (s.onHart fun h => hs (putElems t e.start (wD e.word) act (elemOf a t.ew) t.vlmax h))
def execVmv (d a : Reg) (k : BitVec 3) (c : Bool) (s : State) : Out := vissue (encode (.vmv d a k c)) vmvBody s

/-- VMV_S: D[0] := S when VL is not 0; no other element changes. -/
def vmvSBody : Body := fun e s => withS e s fun v e' s' =>
  let t := s'.hart.vt
  let old := s'.hart.group (wD e'.word) t.g
  if t.vl = 0 then .done s'
  else .done (s'.onHart (·.putGroup (wD e'.word) t.g (old - old % 2 ^ t.ew + v.toNat % 2 ^ t.ew)))
def execVmvS (d b : Reg) (c : Bool) (s : State) : Out := vissue (encode (.vmvS d b c)) vmvSBody s

/-- An element as the 64-bit value of a queue: sign-extended under CLASS signed (R153, R157). -/
def elemWord (t : VT) (v : Nat) : Word := if t.isSigned then sextW v t.ew else BitVec.ofNat 64 (v % 2 ^ t.ew)

/-- VEXT: pushes A[S], or 0 when S is at least VL. -/
def vextBody : Body := fun e s =>
  if !s.hart.queueRoom (wD e.word - 24) 1 then .block .queueReg e s
  else withS e s fun v e' s' =>
    let t := s'.hart.vt
    let i := v.toNat % 2 ^ t.ew
    pushResult e' s' (if i < t.vl then elemWord t (elemOf (s'.hart.group (wA e'.word) t.g) t.ew i) else 0)
def execVext (d a b : Reg) (c : Bool) (s : State) : Out := vissue (encode (.vext d a b c)) vextBody s

/-- QPUT: pushes x[A] to q0-q3 from the scalar pipe, or waits while it is full; ILLEGAL_TYPE without quads (R9, R13). -/
def execQput (d a : Reg) (s : State) : Out :=
  let q := d.toNat - 24
  if s.hart.quads.count = 0 then .next (s.trap .illegalType 0)
  else if s.hart.queueRoom q 1 then .next (s.onHart (·.push q (s.get a))).advance
  else .next (s.waitFor .queueReg)

/-- QGET: pops q4-q7 into x[D], or waits while it is empty (R13). -/
def execQget (d a : Reg) (s : State) : Out :=
  let q := a.toNat - 24
  match s.hart.queue q with
  | [] => .next (s.waitFor .queueReg)
  | v :: r => (s.onHart (·.putQueue q r)).result d v

/-! ### VPERM (R154 to R156) -/

/-- A[i] for an index below VLMAX, else 0 (R154). -/
def pick (t : VT) (a i : Nat) : Nat := if i < t.vlmax then elemOf a t.ew i else 0

/-- VMERGE: the mask selects. -/
def vmergeBody : Body := fun e s =>
  let t := s.hart.vt
  let a := s.hart.group (wA e.word) t.g
  let b := s.hart.group (wB e.word) t.g
  let k := BitVec.ofNat 3 (wK e.word)
  .done (s.onHart fun h => putElems t e.start (wD e.word) (fun i => decide (i < t.vl))
    (fun i => if h.maskBit k i then elemOf b t.ew i else elemOf a t.ew i) t.vlmax h)
def execVmerge (d a b : Reg) (k : BitVec 3) (t c : Bool) (s : State) : Out := vissue (encode (.vmerge d a b k t c)) vmergeBody s

/-- VBCAST. -/
def vbcastBody : Body := fun e s => withS e s fun v e' s' =>
  let t := s'.hart.vt
  .done (s'.onHart (putElems t e'.start (wD e'.word) (activeOf s' e') (fun _ => v.toNat % 2 ^ t.ew) t.vlmax))
def execVbcast (d b : Reg) (k : BitVec 3) (t c : Bool) (s : State) : Out := vissue (encode (.vbcast d b k t c)) vbcastBody s

/-- The amount of a slide: S, unsigned; under blocked-narrow the whole operand (log entry 14). -/
def slideBy (t : VT) (v : Word) : Nat := if t.cls = 5 then v.toNat else v.toNat % 2 ^ t.ew

/-- A slide (R45, R154): `at_ e` is the source index of destination element e, none where D[e] stays. An amount from a queue
register that is not a multiple of 32 under blocked-narrow traps when the word issues (R79). -/
def slideBody (at_ : Nat → Nat → Option Nat) : Body := fun e s => withS e s fun v e' s' =>
  let t := s'.hart.vt
  let n := slideBy t v
  if t.cls = 5 ∧ n % 32 ≠ 0 then .trap e' .illegalType (e'.word.setWidth 64) 0 s'
  else
    let a := s'.hart.group (wA e'.word) t.g
    let old := s'.hart.group (wD e'.word) t.g
    let ah := s'.hart.headers (wA e'.word) t.g t.per
    let oh := s'.hart.headers (wD e'.word) t.g t.per
    let act := activeOf s' e'
    let moved := fun i => (at_ n i).isSome
    let val := fun i => match at_ n i with | some j => pick t a j | none => elemOf old t.ew i
    let hdr := fun b => match at_ n (32 * b) with
      | some j => if j < t.vlmax then elemOf ah 8 (j / 32) else 0
      | none => elemOf oh 8 b
    let hs := fun h : Hart => if t.cls = 5 then putBlockHeaders t (wD e'.word) t.g t.per (blockWritten t act) hdr h else h
    .done (s'.onHart fun h => hs (putElems t e'.start (wD e'.word) (fun i => if moved i then act i else decide (i < t.vl)) val t.vlmax h))
/-- VSLIDEUP: below the amount D[e] is unchanged whatever its mask bit. -/
def execVslideup (d a b : Reg) (k : BitVec 3) (t c : Bool) (s : State) : Out :=
  vissue (encode (.vslideup d a b k t c)) (slideBody fun n i => if i < n then none else some (i - n)) s
/-- VSLIDEDN. -/
def execVslidedn (d a b : Reg) (k : BitVec 3) (t c : Bool) (s : State) : Out :=
  vissue (encode (.vslidedn d a b k t c)) (slideBody fun n i => some (i + n)) s

/-- VRGATHER: an index at or above VL delivers 0. -/
def vrgatherBody : Body := fun e s =>
  let t := s.hart.vt
  let a := s.hart.group (wA e.word) t.g
  let b := s.hart.group (wB e.word) t.g
  .done (s.onHart (putElems t e.start (wD e.word) (activeOf s e)
    (fun i => let j := elemOf b t.ew i; if j < t.vl then elemOf a t.ew j else 0) t.vlmax))
def execVrgather (d a b : Reg) (k : BitVec 3) (t c : Bool) (s : State) : Out :=
  vissue (encode (.vrgather d a b k t c)) vrgatherBody s

/-- The active element indices below VL. -/
def activeList (t : VT) (act : Nat → Bool) : List Nat := (upTo t.vl).filter act

/-- VCOMPRESS: the active elements packed to the low end; the rest below VL follow MP (R155). -/
def vcompressBody : Body := fun e s =>
  let t := s.hart.vt
  let a := s.hart.group (wA e.word) t.g
  let l := activeList t (activeOf s e)
  .done (s.onHart (putElems t e.start (wD e.word) (fun i => decide (i < l.length))
    (fun i => elemOf a t.ew (l.getD i 0)) t.vlmax))
def execVcompress (d a : Reg) (k : BitVec 3) (t c : Bool) (s : State) : Out := vissue (encode (.vcompress d a k t c)) vcompressBody s

/-- VEXPAND: each active element takes the next low element (R155). -/
def vexpandBody : Body := fun e s =>
  let t := s.hart.vt
  let a := s.hart.group (wA e.word) t.g
  let act := activeOf s e
  .done (s.onHart (putElems t e.start (wD e.word) act
    (fun i => elemOf a t.ew (activeList { t with vl := i } act).length) t.vlmax))
def execVexpand (d a : Reg) (k : BitVec 3) (t c : Bool) (s : State) : Out := vissue (encode (.vexpand d a k t c)) vexpandBody s

/-- VPERMBLK: whole 32-element blocks by the bytes of vB, with their headers under blocked-narrow (R156). -/
def vpermblkBody : Body := fun e s =>
  let t := s.hart.vt
  let a := s.hart.group (wA e.word) t.g
  let ah := s.hart.headers (wA e.word) t.g t.per
  let sel := (s.hart.vreg (wB e.word)).toNat
  let src := fun b => let j := elemOf sel 8 b; if 32 * j < t.vlmax then some j else none
  let val := fun i => match src (i / 32) with | some j => elemOf a t.ew (32 * j + i % 32) | none => 0
  let hdr := fun b => match src b with | some j => elemOf ah 8 j | none => 0
  let hs := fun h : Hart => if t.cls = 5 then putBlockHeaders t (wD e.word) t.g t.per (fun _ => true) hdr h else h
  .done (s.onHart fun h => hs (putElems t e.start (wD e.word) (fun i => decide (i < t.vl)) val t.vlmax h))
def execVpermblk (d a b : Reg) (t c : Bool) (s : State) : Out := vissue (encode (.vpermblk d a b t c)) vpermblkBody s

/-! ### VCVT (R51, R71, R159, R160) -/

/-- The value of a source element, with the event of a block whose tag names an undefined slot (R16, R39, R42). -/
def sourceValue (h : Hart) (t : VT) (a ah i : Nat) : FVal × Ev :=
  let x := elemOf a t.ew i
  if t.cls = 5 then
    let hd := elemOf ah 8 (i / 32)
    (blockValue h.fmtReg hd x, { nv := blockUndefined h.fmtReg hd })
  else if t.isFloat then (t.fmt.decode x, {})
  else
    let v := readInt t.isSigned x t.ew
    (.fin (decide (v < 0)) v.natAbs 0, {})
where
  readInt (signed : Bool) (x w : Nat) : Int := if signed then sextI x w else ((x % 2 ^ w : Nat) : Int)

/-- One element converted to an integer or floating-point target (R51, R159); a blocked one from its exact value (log entry 173). -/
def convertElem (t : VT) (sat : Bool) (tgt : Target) (x : Nat) (v : FVal × Ev) : Nat × Ev :=
  match tgt with
  | .int sg w =>
    if t.isInt then
      let i : Int := match v.1 with | .fin n m _ => if n then -(m : Int) else m | _ => 0
      let lo : Int := if sg then -(2 ^ (w - 1) : Int) else 0
      let hi : Int := if sg then 2 ^ (w - 1) - 1 else 2 ^ w - 1
      if w = t.ew then (x, {})
      else if sat then
        ((((if i < lo then lo else if hi < i then hi else i) % (2 ^ w : Int)).toNat), { sat := decide (i < lo) || decide (hi < i) })
      else ((i % (2 ^ w : Int)).toNat, {})
    else let r := fToInt t.rm sg w v.1; (r.1, r.2.or v.2)
  | .flt f => let r := v.1.roundTo f t.rm; (r.1, r.2.or v.2)
  | .slot _ => (0, {})

/-- Write converted elements of `w` bits into `n` registers; elements below `stop` as the policy gives. Of a destination that holds more
than VLMAX of them, those from VLMAX on are tail elements too (the model's reading, log entry 172). -/
def putConverted (t : VT) (w n start d : Nat) (act : Nat → Bool) (val : Nat → Nat) (stop : Nat) (h : Hart) : Hart :=
  let old := h.group d n
  let u : VT := { t with ew := w }
  h.putGroup d n (joinNat w (fun i => if i < stop then policy u start old act val i else elemOf old w i) (n * (512 * t.n / w)))

/-- The active elements of block b below VL. -/
def blockActive (t : VT) (act : Nat → Bool) (b : Nat) : List Nat :=
  (List.range' (32 * b) 32).filter fun i => decide (i < t.vl) && act i

/-- SE of block b from its active elements' values (R47, R160). -/
def blockSE (sl : MSlot) (val : Nat → FVal) (els : List Nat) : Nat := chooseSE sl (els.map val)

/-- The events of a block's conversion: each active element's. -/
def blockEvs (sl : MSlot) (rm : RMode) (val : Nat → FVal × Ev) (els : List Nat) : List (Nat × Ev) :=
  let se := blockSE sl (fun i => (val i).1) els
  els.map fun i => (i, ((sl.encode rm ((val i).1.scale (32 - (se : Int)))).2).or (val i).2)

/-- The lowest block from `b0` on, of `n`, in which an enabled class is raised (R143, R160). -/
def blockTrap (flags : BitVec 16) (evs : Nat → List (Nat × Ev)) (b0 n : Nat) : Option (Nat × Cause) :=
  (List.range' b0 (n - b0)).findSome? fun b => ((evs b).findSome? fun p => p.2.trap flags).map fun c => (b, c)

/-- Conversion to slot N (R160), block by block. -/
def slotBody (slot : Nat) : Body := fun e s =>
  let h := s.hart
  let t := h.vt
  let sl := slotOf h.fmtReg slot
  let tb := (Target.slot slot).bits h.fmtReg
  let n := cvtRegs t e.word tb
  let a := h.group (wA e.word) t.g
  let ah := h.headers (wA e.word) t.g t.per
  let act := activeOf s e
  let val := fun i => sourceValue h t a ah i
  let els := blockActive t act
  let evs := fun b => blockEvs sl t.rm val (els b)
  let code := fun i =>
    let se := blockSE sl (fun j => (val j).1) (els (i / 32))
    (sl.encode t.rm ((val i).1.scale (32 - (se : Int)))).1
  let hdr := fun b => 64 * slot + blockSE sl (fun j => (val j).1) (els b)
  let blocks := (t.vl + 31) / 32
  let b0 := e.start / 32
  let per := hdrBytes t.n tb
  let put := fun (stop : Nat) (g : Hart) =>
    let old := g.headers (wD e.word) n per
    let g' := putConverted t tb n e.start (wD e.word) act code (32 * stop) g
    g'.putHeaders (wD e.word) n per (joinNat 8 (fun b =>
      if b < b0 ∨ stop ≤ b then elemOf old 8 b
      else if b < blocks then hdr b
      else if t.tp then 0 else elemOf old 8 b) (n * per))
  match blockTrap h.fl.flags evs b0 blocks with
  | some (b, c) =>
    .trap e c (e.word.setWidth 64) (32 * b)
      ((s.onHart (put b)).recordAt e.pc ((List.range' b0 (b + 1 - b0)).flatMap evs))
  | none => .done ((s.onHart (put (n * per + blocks))).recordAt e.pc ((List.range' b0 (blocks - b0)).flatMap evs))

/-- The work of a VCVT word (R159). -/
def vcvtBody : Body := fun e s =>
  let h := s.hart
  let t := h.vt
  let tgt := targetOf (wB e.word)
  match tgt with
  | .slot n => slotBody n e s
  | _ =>
    let tb := tgt.bits h.fmtReg
    let n := cvtRegs t e.word tb
    let a := h.group (wA e.word) t.g
    let ah := h.headers (wA e.word) t.g t.per
    let act := activeOf s e
    let r := fun i => convertElem t (wFn e.word % 2 == 1) tgt (elemOf a t.ew i) (sourceValue h t a ah i)
    elementwise e act (fun i => (r i).2) t.vl
      (fun stop => putConverted t tb n e.start (wD e.word) act (fun i => (r i).1) stop) (n * (512 * t.n / tb)) s

/-- VCVT (R159). -/
def execVcvt (d a b : Reg) (k : BitVec 3) (t sat c : Bool) (s : State) : Out :=
  vissue (encode (.vcvt d a b k t sat c)) vcvtBody s
/-- VWIDEN (R159). -/
def execVwiden (d a b : Reg) (k : BitVec 3) (t c : Bool) (s : State) : Out := vissue (encode (.vwiden d a b k t c)) vcvtBody s
/-- VNARROW (R159). -/
def execVnarrow (d a b : Reg) (k : BitVec 3) (t sat c : Bool) (s : State) : Out :=
  vissue (encode (.vnarrow d a b k t sat c)) vcvtBody s

end Sys2Proof.Machine
end

