-- ==== Sys2Proof/Machine/VecMem.lean ====
section
/-! DEFINITION. Vector memory: element access and its checks (R165 to R173), compressed and blocked forms (R174 to R176). -/
namespace Sys2Proof.Machine

/-! ### Element access (R165, R282 moves 4 and 6) -/

/-- Where an element of `b` bytes at `a` leads: MISALIGN, for the cluster window PAGE (R173), then the translation. -/
def State.elemLoc (s : State) (h : Hart) (a b : Nat) (acc : Acc) (window : Bool) : Except Cause Loc :=
  if a % b ≠ 0 then .error .misalign
  else if window && a / 2 ^ 61 != 5 then .error .page
  else s.vectorLoc h a b acc

/-- PSF[q] of an address: q is its bits [8:6] (R281). -/
def planeOf (a : Nat) : Nat := a / 64 % 8

/-- The answer of PSF[q] to a load element: the youngest entry covering any of its bytes covers them all, or the element
waits (R282 move 6). -/
def psfLookup (h : Hart) (loc : Loc) (a len : Nat) : Option Rd :=
  let m := byteMask loc.key len
  match ((h.psf.get ⟨planeOf a % 8, by omega⟩).filter fun e =>
      lineOf e.loc.key == lineOf loc.key && !(e.mask &&& m == 0#64)).getLast? with
  | none => none
  | some e =>
    if e.mask &&& m = m then some (.val (e.data.toNat / 2 ^ (8 * (loc.key % 64)) % 2 ^ (8 * len))) else some (.wait .drain)

/-- The data of a vector read at its ordering point (R273, R282 move 6, R296 RDV). When transactions are cut into messages, a
cached line comes by RDV. -/
def State.vecData (s : State) (h : Hart) (loc : Loc) (len : Nat) : Rd × State :=
  let line := lineOf loc.key
  let m := wordMask loc.key len
  match loc.kind with
  | .bank => (s.bankRead loc.key len, s)
  | .remote => (s.remoteReady loc len, s)
  | .uncached => s.uncachedRd h.core loc len
  | _ =>
    if !s.env.cut then s.homeRd h.core loc.key len
    else match h.vs.lines.find? fun l => l.1 == line && l.2.1 &&& m == m with
      | none =>
        match s.fabricDown h.core line with
        | some r => (r, s)
        | none => (.wait .memory, if s.requested .rdv h.port line then s else s.send (request .rdv h.port h.tk.part line m))
      | some (_, _, d) =>
        if s.lineLost line m then (.fault .ownerLost, s)
        else if s.poisoned loc.key len then (.fault .ecc, s)
        else (.val (d.toNat / 2 ^ (8 * (loc.key % 64)) % 2 ^ (8 * len)), s)

/-- The block of a key is poisoned by a failed guard check (R165, R189). -/
def State.guardPoisoned (s : State) (key : Nat) : Bool := s.coh.guardBad.any (· == key / 4096)

/-- The checks that close R165's list: RACE and WATCH. -/
def State.raceWatch (s : State) (h : Hart) (key a len : Nat) (write atomic : Bool) : Except Cause State :=
  match s.race h key len write atomic with
  | none => .error .race
  | some t => if h.watched a len write || (atomic && h.watched a len false) then .error .watch else .ok t

/-- One element of a vector load, with the checks of R165 in their order. -/
def State.vecElem (s : State) (h : Hart) (a b : Nat) (window : Bool) : Rd × State :=
  match s.elemLoc h a b .read window with
  | .error c => (.fault c, s)
  | .ok loc =>
    let (r, t) := match psfLookup h loc a b with
      | some r => (r, s)
      | none => s.vecData h loc b
    match r with
    | .val v =>
      if t.guardPoisoned loc.key then (.fault .guard, t)
      else match t.raceWatch h loc.key a b false false with
        | .error c => (.fault c, t)
        | .ok u => (.val v, u)
    | r => (r, t)

/-- How a walk over elements ended: at the end, at a wait, or at a fault of an element with its address. -/
inductive Ended where
  | all
  | wait (w : Wait)
  | fault (i : Nat) (c : Cause) (a : Nat)
  deriving DecidableEq, Repr

/-- The elements of a load from index `i` on, `n` of them; an inactive element is not accessed and gives 0 (R165, R166). -/
def loadElems (h : Hart) (b : Nat) (window : Bool) (act : Nat → Bool) (addr : Nat → Nat) (i : Nat) :
    Nat → State → List Nat × Ended × State
  | 0, s => ([], .all, s)
  | n + 1, s =>
    if !act i then
      let (l, r, t) := loadElems h b window act addr (i + 1) n s
      (0 :: l, r, t)
    else match s.vecElem h (addr i) b window with
      | (.val v, u) =>
        let (l, r, t) := loadElems h b window act addr (i + 1) n u
        (v :: l, r, t)
      | (.wait w, u) => ([], .wait w, u)
      | (.fault c, u) => ([], .fault i c (addr i), u)

/-- Lines read by messages for this word are done with. -/
def Hart.dropLines (h : Hart) : Hart := { h with vs := { h.vs with lines := [] } }

/-- A trim: VL := f and TRIM is set (R11, R166). -/
def Hart.trim (h : Hart) (f : Nat) : Hart := { h with vr := { h.vr with vl := f } }.setSticky stickyTrim

/-- A fault-first load (R166): `post` sees the elements delivered, from `start` up to the index given. A load that waits has delivered the
elements before, and goes on at the one it waits for (R169). -/
def loadBody (window : Bool) (addr : VEntry → State → Nat → Nat) (post : (Nat → Nat) → Nat → Nat → State → State) : Body :=
  fun e s =>
    let h := s.hart
    let t := h.vt
    let act := activeOf s e
    let ad := addr e s
    let (vals, r, u) := loadElems h (t.ew / 8) window act ad e.start (t.vl - e.start) s
    let arr := vals.toArray
    let val := fun i => arr.getD (i - e.start) 0
    match r with
    | .wait w =>
      let i := e.start + vals.length
      if vals.isEmpty then .block w e u
      else .block w { e with start := i } (post ad e.start i (u.onHart (putElems t e.start (wD e.word) act val i)))
    | .all =>
      .done (post ad e.start t.vl (u.onHart fun g => putElems t e.start (wD e.word) act val t.vlmax g.dropLines))
    | .fault f c a =>
      if f = 0 then .trap e c (BitVec.ofNat 64 a) 0 (u.onHart (·.dropLines))
      else
        .done (post ad e.start f (u.onHart fun g =>
          (putElems { t with vl := f } e.start (wD e.word) (fun i => decide (i < f) && act i) val t.vlmax g.dropLines).trim f))

/-- Nothing more to do for a load. -/
def noPost (_ : Nat → Nat) (_ _ : Nat) (s : State) : State := s

/-! ### Addresses (R170) -/

/-- x[A] + e x b. -/
def unitAddr (e : VEntry) (s : State) (i : Nat) : Nat := (e.xa.toNat + i * (s.hart.vt.ew / 8)) % 2 ^ 64
/-- x[A] + e x x[B]; modulo 2^64 the sign of the stride makes no difference. -/
def strideAddr (e : VEntry) (_ : State) (i : Nat) : Nat := (e.xa.toNat + i * e.xb.toNat) % 2 ^ 64
/-- x[A] + I[e] with index elements of `iw` bits (R171). -/
def indexAddr (iw : VT → IWord → Nat) (e : VEntry) (s : State) : Nat → Nat :=
  let t := s.hart.vt
  let w := iw t e.word
  let g := s.hart.group (wB e.word) (idxRegs t w)
  fun i => (e.xa.toNat + elemOf g w i) % 2 ^ 64
/-- The index width of VGS, and of the words whose index elements have the width EW. -/
def vgsIw (_ : VT) (w : IWord) : Nat := idxBits w
def ewIw (t : VT) (_ : IWord) : Nat := t.ew

/-- VLD (R170). -/
def execVld (d a : Reg) (k : BitVec 3) (t c : Bool) (s : State) : Out :=
  vissue (encode (.vld d a k t c)) (loadBody false unitAddr noPost) s
/-- VLDS (R170). -/
def execVlds (d a b : Reg) (k : BitVec 3) (t c : Bool) (s : State) : Out :=
  vissue (encode (.vlds d a b k t c)) (loadBody false strideAddr noPost) s
/-- VLDX (R170). -/
def execVldx (d a b : Reg) (k : BitVec 3) (t : Bool) (w : BitVec 2) (c : Bool) (s : State) : Out :=
  vissue (encode (.vldx d a b k t w c)) (loadBody false (indexAddr vgsIw) noPost) s
/-- VLDC (R173). -/
def execVldc (d a b : Reg) (k : BitVec 3) (t : Bool) (w : BitVec 2) (c : Bool) (s : State) : Out :=
  vissue (encode (.vldc d a b k t w c)) (loadBody true (indexAddr vgsIw) noPost) s

/-! ### Stores (R167, R172, R282 move 4) -/

/-- Append bytes of a line to PSF[q], sharing the youngest entry when it belongs to this instruction and line; none when the
FIFO of 16 is full (R281, R282). -/
def Hart.psfPush (h : Hart) (a : Nat) (loc : Loc) (len val : Nat) (share : Bool) : Option Hart :=
  let q := planeOf a % 8
  let l := h.psf.get ⟨q, by omega⟩
  let m := byteMask loc.key len
  let d := BitVec.ofNat 512 (val % 2 ^ (8 * len) * 2 ^ (8 * (loc.key % 64)))
  let put := fun l' => some { h with psf := Vector.set h.psf q l' (by omega) }
  let fresh : PsfEntry :=
    { loc := { loc with key := 64 * lineOf loc.key, pa := loc.pa / 64 * 64 }, va := a, mask := m, data := d }
  match l.getLast? with
  | some e =>
    if share && lineOf e.loc.key == lineOf loc.key then
      put (l.dropLast ++ [{ e with mask := e.mask ||| m, data := mergeBytes e.data d m }])
    else if l.length < 16 then put (l ++ [fresh]) else none
  | none => put [fresh]

/-- A store element waits while the vector map's entry of its page is being changed (R345). -/
def State.pushHeld (s : State) (a : Nat) : Bool := !isLocal a && s.mapChanging s.hart.tk.part s.hart.tk.ctx a

/-- The checks of R165 on a store of `b` bytes; a store learns of a lost word only when it drains (R308). -/
def State.storeLoc (s : State) (h : Hart) (a b : Nat) (window : Bool) : Except Cause (Loc × State) :=
  match s.elemLoc h a b .write window with
  | .error c => .error c
  | .ok loc =>
    match s.storeRefused loc b with
    | some c => .error c
    | none =>
      if s.guardPoisoned loc.key then .error .guard
      else match s.raceWatch h loc.key a b true false with
        | .error c => .error c
        | .ok t => .ok (loc, t)

/-- Element `i` of `vstx.u` gives way to an earlier active element at its address (R172): the choice is free. -/
def givesWay (s : State) (act : Nat → Bool) (addr : Nat → Nat) (i : Nat) : Bool :=
  (upTo i).any (fun j => act j && addr j == addr i) && Config.survivor (4096 * s.env.free + i) % 2 == 1

/-- How a store ended: at the end, or at an element, full or faulting. -/
inductive StEnded where
  | all
  | full (i : Nat)
  | fault (i : Nat) (c : Cause) (a : Nat)
  deriving DecidableEq, Repr

/-- The elements of a store from index `i` on, in ascending order (R167, R172). `tails` lists the FIFOs whose youngest entry
this instruction made. -/
def storeElems (h : Hart) (b : Nat) (free : Bool) (act : Nat → Bool) (addr data : Nat → Nat) (i : Nat) :
    Nat → List Nat → State → StEnded × State
  | 0, _, s => (.all, s)
  | n + 1, tails, s =>
    if !act i then storeElems h b free act addr data (i + 1) n tails s
    else match s.storeLoc h (addr i) b false with
      | .error c => (.fault i c (addr i), s)
      | .ok (loc, t) =>
        if free && givesWay s act addr i then storeElems h b free act addr data (i + 1) n tails t
        else
          let q := planeOf (addr i)
          if t.pushHeld (addr i) then (.full i, s)
          else match t.hart.psfPush (addr i) loc b (data i) (tails.any (· == q)) with
          | none => (.full i, s)
          | some g => storeElems h b free act addr data (i + 1) n (q :: tails) { t with hart := g }

/-- A store, precise at the element; a full FIFO makes it wait at that element (R167, R282 move 4). -/
def storeBody (free : Bool) (addr : VEntry → State → Nat → Nat) : Body := fun e s =>
  let t := s.hart.vt
  let g := s.hart.group (wD e.word) t.g
  match storeElems s.hart (t.ew / 8) free (activeOf s e) (addr e s) (fun i => elemOf g t.ew i) e.start (t.vl - e.start) [] s with
  | (.all, u) => .done u
  | (.full i, u) => .block .drain { e with start := i } u
  | (.fault i c a, u) => .trap e c (BitVec.ofNat 64 a) i u

/-- VST (R170). -/
def execVst (d a : Reg) (k : BitVec 3) (t c : Bool) (s : State) : Out :=
  vissue (encode (.vst d a k t c)) (storeBody false unitAddr) s
/-- VSTS (R170). -/
def execVsts (d a b : Reg) (k : BitVec 3) (t c : Bool) (s : State) : Out :=
  vissue (encode (.vsts d a b k t c)) (storeBody false strideAddr) s
/-- VSTX_O (R172). -/
def execVstxO (d a b : Reg) (k : BitVec 3) (t : Bool) (w : BitVec 2) (c : Bool) (s : State) : Out :=
  vissue (encode (.vstxO d a b k t w c)) (storeBody false (indexAddr vgsIw)) s
/-- VSTX_U (R172). -/
def execVstxU (d a b : Reg) (k : BitVec 3) (t : Bool) (w : BitVec 2) (c : Bool) (s : State) : Out :=
  vissue (encode (.vstxU d a b k t w c)) (storeBody true (indexAddr vgsIw)) s

/-! ### Cluster packets (R173) -/

/-- The checked elements of `vstc` from index `i` on: (index, key) in ascending order, up to the first fault. -/
def packetElems (h : Hart) (b : Nat) (act : Nat → Bool) (addr : Nat → Nat) (i : Nat) : Nat → State → List (Nat × Nat) × StEnded × State
  | 0, s => ([], .all, s)
  | n + 1, s =>
    if !act i then packetElems h b act addr (i + 1) n s
    else match s.storeLoc h (addr i) b true with
      | .error c => ([], .fault i c (addr i), s)
      | .ok (loc, t) =>
        let (l, r, u) := packetElems h b act addr (i + 1) n t
        ((i, loc.key) :: l, r, u)

/-- The cluster position of a scratchpad key. -/
def spadPos (key : Nat) : Nat := (key - 2 ^ 48) / 2 ^ 21 % 4

/-- Append the packet for the core at position `c`; none when its FIFO of 16 is full (R281). -/
def Hart.cpfPush (h : Hart) (c : Nat) (p : Packet) : Option Hart :=
  if p.bytes.isEmpty then some h
  else
    let l := h.cpf.get ⟨c % 4, by omega⟩
    if l.length < 16 then some { h with cpf := Vector.set h.cpf (c % 4) (l ++ [p]) (by omega) } else none

/-- The packets of `vstc`, one for each core, all or none. -/
def pushPackets (b : Nat) (addr data : Nat → Nat) (els : List (Nat × Nat)) (h : Hart) : Option Hart :=
  [0, 1, 2, 3].foldl (fun g c => g.bind fun g =>
    let mine := els.filter fun p => spadPos p.2 == c
    g.cpfPush c
      { va := (mine.head?.map fun p => addr p.1).getD 0
        bytes := mine.flatMap fun p => (natBytes b (data p.1)).zipIdx.map fun x => (p.2 + x.2, x.1) }) (some h)

/-- VSTC (R173): precise at the element; it waits while a FIFO it needs is full. -/
def vstcBody : Body := fun e s =>
  let t := s.hart.vt
  let g := s.hart.group (wD e.word) t.g
  let ad := indexAddr vgsIw e s
  let (els, r, u) := packetElems s.hart (t.ew / 8) (activeOf s e) ad e.start (t.vl - e.start) s
  match pushPackets (t.ew / 8) ad (fun i => elemOf g t.ew i) els u.hart with
  | none => .block .drain e s
  | some h =>
    match r with
    | .fault i c a => .trap e c (BitVec.ofNat 64 a) i { u with hart := h }
    | _ => .done { u with hart := h }
def execVstc (d a b : Reg) (k : BitVec 3) (t : Bool) (w : BitVec 2) (c : Bool) (s : State) : Out :=
  vissue (encode (.vstc d a b k t w c)) vstcBody s

/-! ### Compressed loads (R174, R175) -/

/-- The header of a block (R174): mode, code width, elements, length in bytes; none when malformed for elements of `ew` bits. -/
structure ZBlock where
  mode : Nat
  bits : Nat
  count : Nat
  size : Nat
  deriving DecidableEq, Repr

/-- A length padded to a multiple of 8 bytes. -/
def pad8 (bits : Nat) : Nat := ceilDiv bits 64 * 8

/-- The header read from its 8 bytes; malformed in the three cases that R174 names (log entry 129). -/
def zHeader (ew hdr : Nat) : Option ZBlock :=
  let b : ZBlock := { mode := bitsOf hdr 31 30, bits := bitsOf hdr 29 23, count := bitsOf hdr 22 15 + 1, size := bitsOf hdr 14 0 * 8 }
  let want := match b.mode with
    | 0 => 8 + pad8 (b.count * ew)
    | 1 => 16 + pad8 (b.count * b.bits)
    | _ => 16
  if b.mode = 3 ∨ ew < b.bits ∨ b.size ≠ want then none else some b

/-- Element `i` of a block from the bytes after its header (R174). -/
def zElem (ew : Nat) (b : ZBlock) (body i : Nat) : Nat :=
  match b.mode with
  | 0 => elemOf body ew i
  | 1 => (body % 2 ^ ew + elemOf (body / 2 ^ 64) b.bits i) % 2 ^ ew
  | _ => body % 2 ^ ew

/-- `n` units of 8 bytes from `a` up, as vector reads; the first wait or fault ends it, with its address. -/
def State.vecUnits (s : State) (h : Hart) (a : Nat) : Nat → (Rd × Nat) × State
  | 0 => ((.val 0, a), s)
  | n + 1 =>
    match s.vecElem h (a % 2 ^ 64) 8 false with
    | (.val v, t) =>
      match t.vecUnits h (a + 8) n with
      | ((.val w, f), u) => ((.val (v + 2 ^ 64 * w), f), u)
      | r => r
    | (r, t) => ((r, a % 2 ^ 64), t)

/-- What a block at an address is. -/
inductive ZRead where
  | block (b : ZBlock) (body : Nat)
  | stop
  | wait (w : Wait)
  | fault (c : Cause) (a : Nat)
  deriving DecidableEq, Repr

/-- Read the block at `a` if at most `room` elements and `left` bytes remain for it: no block fits in less than its header
(R175). -/
def State.zBlock (s : State) (h : Hart) (ew a room left : Nat) : ZRead × State :=
  if room = 0 || left < 8 then (.stop, s)
  else match s.vecUnits h a 1 with
    | ((.wait w, _), t) => (.wait w, t)
    | ((.fault c, f), t) => (.fault c f, t)
    | ((.val hdr, _), t) =>
      match zHeader ew hdr with
      | none => (.fault .stream a, t)
      | some b =>
        if room < b.count || left < b.size then (.stop, t)
        else match t.vecUnits h (a + 8) ((b.size - 8) / 8) with
          | ((.wait w, _), u) => (.wait w, u)
          | ((.fault c, f), u) => (.fault c f, u)
          | ((.val body, _), u) => (.block b body, u)

/-- Whole blocks from `a` on: the elements, the bytes consumed, and how it ended; each block holds an element, so `fuel` need
not exceed the elements wanted (R175). -/
def State.zExpand (s : State) (h : Hart) (ew a room left : Nat) : Nat → (List Nat × Nat × ZRead) × State
  | 0 => (([], 0, .stop), s)
  | n + 1 =>
    match s.zBlock h ew a room left with
    | (.block b body, t) =>
      let ((l, used, r), u) := t.zExpand h ew (a + b.size) (room - b.count) (left - b.size) n
      (((upTo b.count).map (zElem ew b body) ++ l, b.size + used, r), u)
    | (r, t) => (([], 0, r), t)

/-- VLDZ (R175): it waits for room in its queue. -/
def vldzBody : Body := fun e s =>
  let h := s.hart
  let t := h.vt
  let q := 4 + wK e.word % 4
  if !h.queueRoom q 1 then .block .queueReg e s
  else
    let ((els, used, r), u) := s.zExpand h t.ew e.xa.toNat t.vl e.xb.toNat t.vl
    let finish :=
      let n := els.length
      let arr := els.toArray
      let t' := { t with vl := n }
      let v := u.onHart fun g => (putElems t' 0 (wD e.word) (fun i => decide (i < n)) (fun i => arr.getD i 0) t.vlmax g.dropLines).push q
        (BitVec.ofNat 64 used)
      VOut.done (if n < t.vl then v.onHart (·.trim n) else v)
    match r with
    | .wait w => .block w e u
    | .fault c a => if els.isEmpty then .trap e c (BitVec.ofNat 64 (a % 2 ^ 64)) 0 (u.onHart (·.dropLines)) else finish
    | _ => finish
def execVldz (d a b : Reg) (q : BitVec 2) (c : Bool) (s : State) : Out := vissue (encode (.vldz d a b q c)) vldzBody s

/-! ### Blocked loads and stores (R46, R176) -/

/-- The header address of the block whose data are at `a` (R46). -/
def hdrAddr (hb a bytes : Nat) : Nat := (hb + a / bytes) % 2 ^ 64

/-- The blocks of a load from block `j` on: (data, header) of each. -/
def loadBlocks (h : Hart) (base hb bytes j : Nat) : Nat → State → List (Nat × Nat) × Ended × State
  | 0, s => ([], .all, s)
  | n + 1, s =>
    let a := (base + j * bytes) % 2 ^ 64
    match s.vecElem h a bytes false with
    | (.wait w, t) => ([], .wait w, t)
    | (.fault c, t) => ([], .fault j c a, t)
    | (.val v, t) =>
      match t.vecElem h (hdrAddr hb a bytes) 1 false with
      | (.wait w, u) => ([], .wait w, u)
      | (.fault c, u) => ([], .fault j c (hdrAddr hb a bytes), u)
      | (.val x, u) =>
        let (l, r, z) := loadBlocks h base hb bytes (j + 1) n u
        ((v, x) :: l, r, z)

/-- Write loaded blocks from block `j0` up to `stop`, whole, with their headers; blocks wholly in the tail follow TP (R45,
R176). -/
def putBlocks (t : VT) (d j0 stop : Nat) (blk : Nat → Nat × Nat) (h : Hart) : Hart :=
  let cnt := t.vlmax / 32
  let old := h.group d t.g
  let oldH := h.headers d t.g t.per
  let pick := fun (w : Nat) (o : Nat) (f : Nat × Nat → Nat) (j : Nat) =>
    if j < j0 then elemOf o w j else if j < stop then f (blk j) else if t.tp then 0 else elemOf o w j
  (h.putGroup d t.g (joinNat (32 * t.ew) (pick (32 * t.ew) old (·.1)) cnt)).putHeaders d t.g t.per
    (joinNat 8 (pick 8 oldH (·.2)) (t.g * t.per))

/-- VLDB (R176): fault-first by blocks; one that waits has delivered the blocks before (R169). -/
def vldbBody : Body := fun e s =>
  let h := s.hart
  let t := h.vt
  let bytes := 4 * t.ew
  let n := ceilDiv t.vl 32
  let j0 := e.start / 32
  let (l, r, u) := loadBlocks h e.xa.toNat e.xb.toNat bytes j0 (n - j0) s
  let arr := l.toArray
  let blk := fun j => arr.getD (j - j0) (0, 0)
  match r with
  | .wait w =>
    let j := j0 + l.length
    if l.isEmpty then .block w e u
    else .block w { e with start := 32 * j } (u.onHart (putBlocks { t with tp := false } (wD e.word) j0 j blk))
  | .all => .done (u.onHart fun g => putBlocks t (wD e.word) j0 n blk g.dropLines)
  | .fault j c a =>
    if j = 0 then .trap e c (BitVec.ofNat 64 a) 0 (u.onHart (·.dropLines))
    else .done (u.onHart fun g => (putBlocks t (wD e.word) j0 j blk g.dropLines).trim (32 * j))
def execVldb (d a b : Reg) (t c : Bool) (s : State) : Out := vissue (encode (.vldb d a b t c)) vldbBody s

/-- The blocks of a store from block `j` on: the data, then the header, both or neither. -/
def storeBlocks (h : Hart) (base hb bytes : Nat) (blk : Nat → Nat × Nat) (j : Nat) : Nat → List Nat → State → StEnded × State
  | 0, _, s => (.all, s)
  | n + 1, tails, s =>
    let a := (base + j * bytes) % 2 ^ 64
    let b := hdrAddr hb a bytes
    match s.storeLoc h a bytes false with
    | .error c => (.fault j c a, s)
    | .ok (loc, t) =>
      match t.storeLoc h b 1 false with
      | .error c => (.fault j c b, s)
      | .ok (loc', u) =>
        if u.pushHeld a || u.pushHeld b then (.full j, s)
        else match (u.hart.psfPush a loc bytes (blk j).1 (tails.any (· == planeOf a))).bind fun g =>
            g.psfPush b loc' 1 (blk j).2 ((planeOf a :: tails).any (· == planeOf b)) with
        | none => (.full j, s)
        | some g => storeBlocks h base hb bytes blk (j + 1) n (planeOf a :: planeOf b :: tails) { u with hart := g }

/-- VSTB (R176): precise by blocks. -/
def vstbBody : Body := fun e s =>
  let h := s.hart
  let t := h.vt
  let g := h.group (wD e.word) t.g
  let hd := h.headers (wD e.word) t.g t.per
  let j0 := e.start / 32
  match storeBlocks h e.xa.toNat e.xb.toNat (4 * t.ew) (fun j => (elemOf g (32 * t.ew) j, elemOf hd 8 j)) j0
      (ceilDiv t.vl 32 - j0) [] s with
  | (.all, u) => .done u
  | (.full j, u) => .block .drain { e with start := 32 * j } u
  | (.fault j c a, u) => .trap e c (BitVec.ofNat 64 a) (32 * j) u
def execVstb (d a b : Reg) (t c : Bool) (s : State) : Out := vissue (encode (.vstb d a b t c)) vstbBody s

end Sys2Proof.Machine
end

