-- ==== Sys2Proof/Machine/VecArith.lean ====
section
/-! DEFINITION. Vector integer arithmetic (R146, R147), floating-point arithmetic (R148 to R150), compares (R151) and mask
operations (R152). -/
namespace Sys2Proof.Machine

/-! ### VINT (R146) -/

/-- An integer in the class's reading (R17, R57). -/
def readInt (signed : Bool) (x w : Nat) : Int := if signed then sextI x w else ((x % 2 ^ w : Nat) : Int)
/-- The low bits of an exact result. -/
def wrapInt (i : Int) (w : Nat) : Nat := (i % (2 ^ w : Int)).toNat
/-- The exact result is outside the class's range. -/
def outside (signed : Bool) (i : Int) (w : Nat) : Bool :=
  if signed then decide (i < -(2 ^ (w - 1) : Int)) || decide ((2 ^ (w - 1) : Int) ≤ i)
  else decide (i < 0) || decide ((2 ^ w : Int) ≤ i)
/-- `sat` into the class's range (R32). -/
def satInt (signed : Bool) (i : Int) (w : Nat) : Nat :=
  let lo : Int := if signed then -(2 ^ (w - 1) : Int) else 0
  let hi : Int := if signed then 2 ^ (w - 1) - 1 else 2 ^ w - 1
  wrapInt (if i < lo then lo else if hi < i then hi else i) w

/-- The operations of R146 but `vadc` and `vsbc`. -/
inductive IOp where
  | add | sub | rsub | mul | mulh | macc | min | max | and | or | xor | sll | srl | sra | sadd | ssub
  deriving DecidableEq, Repr

/-- A wrapping result with its signed-overflow event (R33). -/
def wrapping (signed : Bool) (i : Int) (w : Nat) : Nat × Ev := (wrapInt i w, { io := signed && outside true i w })

/-- D[e] from A[e], Y and the old D[e] (R146). -/
def iop (op : IOp) (signed : Bool) (w a y d : Nat) : Nat × Ev :=
  let x := readInt signed a w
  let v := readInt signed y w
  match op with
  | .add => wrapping signed (x + v) w
  | .sub => wrapping signed (x - v) w
  | .rsub => wrapping signed (v - x) w
  | .mul => wrapping signed (x * v) w
  | .macc => wrapping signed (readInt signed d w + x * v) w
  | .mulh => (wrapInt (x * v / 2 ^ w) w, {})
  | .min => (if x ≤ v then a else y, {})
  | .max => (if x ≤ v then y else a, {})
  | .and => (a &&& y, {})
  | .or => (a ||| y, {})
  | .xor => (a ^^^ y, {})
  | .sll => (a * 2 ^ (y % w) % 2 ^ w, {})
  | .srl => (a / 2 ^ (y % w), {})
  | .sra => (wrapInt (sextI a w / 2 ^ (y % w)) w, {})
  | .sadd => (satInt signed (x + v) w, { sat := outside signed (x + v) w })
  | .ssub => (satInt signed (x - v) w, { sat := outside signed (x - v) w })

/-- The work of a VINT word. -/
def vintBody (op : IOp) (group : Bool) (imm : Option (VT → Nat)) : Body := fun e s =>
  let t := s.hart.vt
  withY e s group (imm.map fun f => f t) fun y e' s' =>
    let a := s'.hart.group (wA e'.word) t.g
    let d := s'.hart.group (wD e'.word) t.g
    let r := fun i => iop op t.isSigned t.ew (elemOf a t.ew i) (y i) (elemOf d t.ew i)
    vecElems e' s' (activeOf s' e') (fun i => (r i).1) (fun i => (r i).2)

/-- An immediate: sign-extended under CLASS signed, zero-extended under unsigned and for shifts (R62, R141). -/
def immY (i : BitVec 5) (shift : Bool) (t : VT) : Nat :=
  if t.isSigned && !shift then wrapInt i.toInt t.ew else i.toNat % 2 ^ t.ew

/-- The carry and result of `vadc` and `vsbc` at an element (R147). -/
def carryOp (sub : Bool) (w a y c : Nat) : Nat × Bool :=
  if sub then (wrapInt ((a : Int) - y - c) w, decide (a < y + c)) else ((a + y + c) % 2 ^ w, decide (2 ^ w ≤ a + y + c))

/-- The work of `vadc` and `vsbc`: every element below VL, carry through the stored bits of kK (R75, R147). -/
def vcarryBody (sub group : Bool) (imm : Option (VT → Nat)) : Body := fun e s =>
  let t := s.hart.vt
  withY e s group (imm.map fun f => f t) fun y e' s' =>
    let h := s'.hart
    let a := h.group (wA e'.word) t.g
    let k := h.kreg (wK e'.word)
    let r := fun i => carryOp sub t.ew (elemOf a t.ew i) (y i) (k.getLsbD i).toNat
    let all := fun i => decide (i < t.vl)
    .done (s'.onHart fun g =>
      putMaskTo t (wK e'.word) e'.start 4096 (fun i => (r i).2) (putElems t e'.start (wD e'.word) all (fun i => (r i).1) t.vlmax g))

/-- VADDVV (R146). -/
def execVaddVv (d a b : Reg) (k : BitVec 3) (t c : Bool) (s : State) : Out :=
  vissue (encode (.vaddVv d a b k t c)) (vintBody .add true none) s
/-- VSUBVV (R146). -/
def execVsubVv (d a b : Reg) (k : BitVec 3) (t c : Bool) (s : State) : Out :=
  vissue (encode (.vsubVv d a b k t c)) (vintBody .sub true none) s
/-- VRSUBVV (R146). -/
def execVrsubVv (d a b : Reg) (k : BitVec 3) (t c : Bool) (s : State) : Out :=
  vissue (encode (.vrsubVv d a b k t c)) (vintBody .rsub true none) s
/-- VMULVV (R146). -/
def execVmulVv (d a b : Reg) (k : BitVec 3) (t c : Bool) (s : State) : Out :=
  vissue (encode (.vmulVv d a b k t c)) (vintBody .mul true none) s
/-- VMULHVV (R146). -/
def execVmulhVv (d a b : Reg) (k : BitVec 3) (t c : Bool) (s : State) : Out :=
  vissue (encode (.vmulhVv d a b k t c)) (vintBody .mulh true none) s
/-- VMACCVV (R146). -/
def execVmaccVv (d a b : Reg) (k : BitVec 3) (t c : Bool) (s : State) : Out :=
  vissue (encode (.vmaccVv d a b k t c)) (vintBody .macc true none) s
/-- VMINVV (R146). -/
def execVminVv (d a b : Reg) (k : BitVec 3) (t c : Bool) (s : State) : Out :=
  vissue (encode (.vminVv d a b k t c)) (vintBody .min true none) s
/-- VMAXVV (R146). -/
def execVmaxVv (d a b : Reg) (k : BitVec 3) (t c : Bool) (s : State) : Out :=
  vissue (encode (.vmaxVv d a b k t c)) (vintBody .max true none) s
/-- VANDVV (R146). -/
def execVandVv (d a b : Reg) (k : BitVec 3) (t c : Bool) (s : State) : Out :=
  vissue (encode (.vandVv d a b k t c)) (vintBody .and true none) s
/-- VORVV (R146). -/
def execVorVv (d a b : Reg) (k : BitVec 3) (t c : Bool) (s : State) : Out :=
  vissue (encode (.vorVv d a b k t c)) (vintBody .or true none) s
/-- VXORVV (R146). -/
def execVxorVv (d a b : Reg) (k : BitVec 3) (t c : Bool) (s : State) : Out :=
  vissue (encode (.vxorVv d a b k t c)) (vintBody .xor true none) s
/-- VSLLVV (R146). -/
def execVsllVv (d a b : Reg) (k : BitVec 3) (t c : Bool) (s : State) : Out :=
  vissue (encode (.vsllVv d a b k t c)) (vintBody .sll true none) s
/-- VSRLVV (R146). -/
def execVsrlVv (d a b : Reg) (k : BitVec 3) (t c : Bool) (s : State) : Out :=
  vissue (encode (.vsrlVv d a b k t c)) (vintBody .srl true none) s
/-- VSRAVV (R146). -/
def execVsraVv (d a b : Reg) (k : BitVec 3) (t c : Bool) (s : State) : Out :=
  vissue (encode (.vsraVv d a b k t c)) (vintBody .sra true none) s
/-- VADCVV (R147). -/
def execVadcVv (d a b : Reg) (k : BitVec 3) (c : Bool) (s : State) : Out :=
  vissue (encode (.vadcVv d a b k c)) (vcarryBody false true none) s
/-- VSBCVV (R147). -/
def execVsbcVv (d a b : Reg) (k : BitVec 3) (c : Bool) (s : State) : Out :=
  vissue (encode (.vsbcVv d a b k c)) (vcarryBody true true none) s
/-- VSADDVV (R146). -/
def execVsaddVv (d a b : Reg) (k : BitVec 3) (t c : Bool) (s : State) : Out :=
  vissue (encode (.vsaddVv d a b k t c)) (vintBody .sadd true none) s
/-- VSSUBVV (R146). -/
def execVssubVv (d a b : Reg) (k : BitVec 3) (t c : Bool) (s : State) : Out :=
  vissue (encode (.vssubVv d a b k t c)) (vintBody .ssub true none) s
/-- VADDVX (R146). -/
def execVaddVx (d a b : Reg) (k : BitVec 3) (t c : Bool) (s : State) : Out :=
  vissue (encode (.vaddVx d a b k t c)) (vintBody .add false none) s
/-- VSUBVX (R146). -/
def execVsubVx (d a b : Reg) (k : BitVec 3) (t c : Bool) (s : State) : Out :=
  vissue (encode (.vsubVx d a b k t c)) (vintBody .sub false none) s
/-- VRSUBVX (R146). -/
def execVrsubVx (d a b : Reg) (k : BitVec 3) (t c : Bool) (s : State) : Out :=
  vissue (encode (.vrsubVx d a b k t c)) (vintBody .rsub false none) s
/-- VMULVX (R146). -/
def execVmulVx (d a b : Reg) (k : BitVec 3) (t c : Bool) (s : State) : Out :=
  vissue (encode (.vmulVx d a b k t c)) (vintBody .mul false none) s
/-- VMULHVX (R146). -/
def execVmulhVx (d a b : Reg) (k : BitVec 3) (t c : Bool) (s : State) : Out :=
  vissue (encode (.vmulhVx d a b k t c)) (vintBody .mulh false none) s
/-- VMACCVX (R146). -/
def execVmaccVx (d a b : Reg) (k : BitVec 3) (t c : Bool) (s : State) : Out :=
  vissue (encode (.vmaccVx d a b k t c)) (vintBody .macc false none) s
/-- VMINVX (R146). -/
def execVminVx (d a b : Reg) (k : BitVec 3) (t c : Bool) (s : State) : Out :=
  vissue (encode (.vminVx d a b k t c)) (vintBody .min false none) s
/-- VMAXVX (R146). -/
def execVmaxVx (d a b : Reg) (k : BitVec 3) (t c : Bool) (s : State) : Out :=
  vissue (encode (.vmaxVx d a b k t c)) (vintBody .max false none) s
/-- VANDVX (R146). -/
def execVandVx (d a b : Reg) (k : BitVec 3) (t c : Bool) (s : State) : Out :=
  vissue (encode (.vandVx d a b k t c)) (vintBody .and false none) s
/-- VORVX (R146). -/
def execVorVx (d a b : Reg) (k : BitVec 3) (t c : Bool) (s : State) : Out :=
  vissue (encode (.vorVx d a b k t c)) (vintBody .or false none) s
/-- VXORVX (R146). -/
def execVxorVx (d a b : Reg) (k : BitVec 3) (t c : Bool) (s : State) : Out :=
  vissue (encode (.vxorVx d a b k t c)) (vintBody .xor false none) s
/-- VSLLVX (R146). -/
def execVsllVx (d a b : Reg) (k : BitVec 3) (t c : Bool) (s : State) : Out :=
  vissue (encode (.vsllVx d a b k t c)) (vintBody .sll false none) s
/-- VSRLVX (R146). -/
def execVsrlVx (d a b : Reg) (k : BitVec 3) (t c : Bool) (s : State) : Out :=
  vissue (encode (.vsrlVx d a b k t c)) (vintBody .srl false none) s
/-- VSRAVX (R146). -/
def execVsraVx (d a b : Reg) (k : BitVec 3) (t c : Bool) (s : State) : Out :=
  vissue (encode (.vsraVx d a b k t c)) (vintBody .sra false none) s
/-- VADCVX (R147). -/
def execVadcVx (d a b : Reg) (k : BitVec 3) (c : Bool) (s : State) : Out :=
  vissue (encode (.vadcVx d a b k c)) (vcarryBody false false none) s
/-- VSBCVX (R147). -/
def execVsbcVx (d a b : Reg) (k : BitVec 3) (c : Bool) (s : State) : Out :=
  vissue (encode (.vsbcVx d a b k c)) (vcarryBody true false none) s
/-- VSADDVX (R146). -/
def execVsaddVx (d a b : Reg) (k : BitVec 3) (t c : Bool) (s : State) : Out :=
  vissue (encode (.vsaddVx d a b k t c)) (vintBody .sadd false none) s
/-- VSSUBVX (R146). -/
def execVssubVx (d a b : Reg) (k : BitVec 3) (t c : Bool) (s : State) : Out :=
  vissue (encode (.vssubVx d a b k t c)) (vintBody .ssub false none) s
/-- VADDVI (R146). -/
def execVaddVi (d a : Reg) (i : BitVec 5) (k : BitVec 3) (t c : Bool) (s : State) : Out :=
  vissue (encode (.vaddVi d a i k t c)) (vintBody .add false (some (immY i false))) s
/-- VSUBVI (R146). -/
def execVsubVi (d a : Reg) (i : BitVec 5) (k : BitVec 3) (t c : Bool) (s : State) : Out :=
  vissue (encode (.vsubVi d a i k t c)) (vintBody .sub false (some (immY i false))) s
/-- VRSUBVI (R146). -/
def execVrsubVi (d a : Reg) (i : BitVec 5) (k : BitVec 3) (t c : Bool) (s : State) : Out :=
  vissue (encode (.vrsubVi d a i k t c)) (vintBody .rsub false (some (immY i false))) s
/-- VMULVI (R146). -/
def execVmulVi (d a : Reg) (i : BitVec 5) (k : BitVec 3) (t c : Bool) (s : State) : Out :=
  vissue (encode (.vmulVi d a i k t c)) (vintBody .mul false (some (immY i false))) s
/-- VMULHVI (R146). -/
def execVmulhVi (d a : Reg) (i : BitVec 5) (k : BitVec 3) (t c : Bool) (s : State) : Out :=
  vissue (encode (.vmulhVi d a i k t c)) (vintBody .mulh false (some (immY i false))) s
/-- VMACCVI (R146). -/
def execVmaccVi (d a : Reg) (i : BitVec 5) (k : BitVec 3) (t c : Bool) (s : State) : Out :=
  vissue (encode (.vmaccVi d a i k t c)) (vintBody .macc false (some (immY i false))) s
/-- VMINVI (R146). -/
def execVminVi (d a : Reg) (i : BitVec 5) (k : BitVec 3) (t c : Bool) (s : State) : Out :=
  vissue (encode (.vminVi d a i k t c)) (vintBody .min false (some (immY i false))) s
/-- VMAXVI (R146). -/
def execVmaxVi (d a : Reg) (i : BitVec 5) (k : BitVec 3) (t c : Bool) (s : State) : Out :=
  vissue (encode (.vmaxVi d a i k t c)) (vintBody .max false (some (immY i false))) s
/-- VANDVI (R146). -/
def execVandVi (d a : Reg) (i : BitVec 5) (k : BitVec 3) (t c : Bool) (s : State) : Out :=
  vissue (encode (.vandVi d a i k t c)) (vintBody .and false (some (immY i false))) s
/-- VORVI (R146). -/
def execVorVi (d a : Reg) (i : BitVec 5) (k : BitVec 3) (t c : Bool) (s : State) : Out :=
  vissue (encode (.vorVi d a i k t c)) (vintBody .or false (some (immY i false))) s
/-- VXORVI (R146). -/
def execVxorVi (d a : Reg) (i : BitVec 5) (k : BitVec 3) (t c : Bool) (s : State) : Out :=
  vissue (encode (.vxorVi d a i k t c)) (vintBody .xor false (some (immY i false))) s
/-- VSLLVI (R146). -/
def execVsllVi (d a : Reg) (i : BitVec 5) (k : BitVec 3) (t c : Bool) (s : State) : Out :=
  vissue (encode (.vsllVi d a i k t c)) (vintBody .sll false (some (immY i true))) s
/-- VSRLVI (R146). -/
def execVsrlVi (d a : Reg) (i : BitVec 5) (k : BitVec 3) (t c : Bool) (s : State) : Out :=
  vissue (encode (.vsrlVi d a i k t c)) (vintBody .srl false (some (immY i true))) s
/-- VSRAVI (R146). -/
def execVsraVi (d a : Reg) (i : BitVec 5) (k : BitVec 3) (t c : Bool) (s : State) : Out :=
  vissue (encode (.vsraVi d a i k t c)) (vintBody .sra false (some (immY i true))) s
/-- VADCVI (R147). -/
def execVadcVi (d a : Reg) (i : BitVec 5) (k : BitVec 3) (c : Bool) (s : State) : Out :=
  vissue (encode (.vadcVi d a i k c)) (vcarryBody false false (some (immY i false))) s
/-- VSBCVI (R147). -/
def execVsbcVi (d a : Reg) (i : BitVec 5) (k : BitVec 3) (c : Bool) (s : State) : Out :=
  vissue (encode (.vsbcVi d a i k c)) (vcarryBody true false (some (immY i false))) s
/-- VSADDVI (R146). -/
def execVsaddVi (d a : Reg) (i : BitVec 5) (k : BitVec 3) (t c : Bool) (s : State) : Out :=
  vissue (encode (.vsaddVi d a i k t c)) (vintBody .sadd false (some (immY i false))) s
/-- VSSUBVI (R146). -/
def execVssubVi (d a : Reg) (i : BitVec 5) (k : BitVec 3) (t c : Bool) (s : State) : Out :=
  vissue (encode (.vssubVi d a i k t c)) (vintBody .ssub false (some (immY i false))) s

/-! ### VFP (R148 to R150) -/

/-- The work of a VFP word: an operation on A[e], Y and the old D[e] in the element format and VTYPE.RM. -/
def vfpBody (op : Fmt → RMode → Nat → Nat → Nat → Nat × Ev) (group : Bool) : Body := fun e s =>
  let t := s.hart.vt
  withY e s group (if bIsGroup e.word || wMaj e.word == 0x25 then none else some 0) fun y e' s' =>
    let a := s'.hart.group (wA e'.word) t.g
    let d := s'.hart.group (wD e'.word) t.g
    let r := fun i => op t.fmt t.rm (elemOf a t.ew i) (y i) (elemOf d t.ew i)
    vecElems e' s' (activeOf s' e') (fun i => (r i).1) (fun i => (r i).2)

/-- VFADDVV (R148). -/
def execVfaddVv (d a b : Reg) (k : BitVec 3) (t c : Bool) (s : State) : Out :=
  vissue (encode (.vfaddVv d a b k t c)) (vfpBody (fun f m a y _ => fAdd f m a y) true) s
/-- VFSUBVV (R148). -/
def execVfsubVv (d a b : Reg) (k : BitVec 3) (t c : Bool) (s : State) : Out :=
  vissue (encode (.vfsubVv d a b k t c)) (vfpBody (fun f m a y _ => fSub f m a y) true) s
/-- VFMULVV (R148). -/
def execVfmulVv (d a b : Reg) (k : BitVec 3) (t c : Bool) (s : State) : Out :=
  vissue (encode (.vfmulVv d a b k t c)) (vfpBody (fun f m a y _ => fMul f m a y) true) s
/-- VFMAVV (R148). -/
def execVfmaVv (d a b : Reg) (k : BitVec 3) (t c : Bool) (s : State) : Out :=
  vissue (encode (.vfmaVv d a b k t c)) (vfpBody (fun f m a y d => fFma f m a y (f.decode d)) true) s
/-- VFMSVV (R148). -/
def execVfmsVv (d a b : Reg) (k : BitVec 3) (t c : Bool) (s : State) : Out :=
  vissue (encode (.vfmsVv d a b k t c)) (vfpBody (fun f m a y d => fFma f m a y (f.decode d).negate) true) s
/-- VFDIVVV (R148). -/
def execVfdivVv (d a b : Reg) (k : BitVec 3) (t c : Bool) (s : State) : Out :=
  vissue (encode (.vfdivVv d a b k t c)) (vfpBody (fun f m a y _ => fDiv f m a y) true) s
/-- VFMINVV (R148). -/
def execVfminVv (d a b : Reg) (k : BitVec 3) (t c : Bool) (s : State) : Out :=
  vissue (encode (.vfminVv d a b k t c)) (vfpBody (fun f _ a y _ => fMinMax f false a y) true) s
/-- VFMAXVV (R148). -/
def execVfmaxVv (d a b : Reg) (k : BitVec 3) (t c : Bool) (s : State) : Out :=
  vissue (encode (.vfmaxVv d a b k t c)) (vfpBody (fun f _ a y _ => fMinMax f true a y) true) s
/-- VFADDVX (R148). -/
def execVfaddVx (d a b : Reg) (k : BitVec 3) (t c : Bool) (s : State) : Out :=
  vissue (encode (.vfaddVx d a b k t c)) (vfpBody (fun f m a y _ => fAdd f m a y) false) s
/-- VFSUBVX (R148). -/
def execVfsubVx (d a b : Reg) (k : BitVec 3) (t c : Bool) (s : State) : Out :=
  vissue (encode (.vfsubVx d a b k t c)) (vfpBody (fun f m a y _ => fSub f m a y) false) s
/-- VFMULVX (R148). -/
def execVfmulVx (d a b : Reg) (k : BitVec 3) (t c : Bool) (s : State) : Out :=
  vissue (encode (.vfmulVx d a b k t c)) (vfpBody (fun f m a y _ => fMul f m a y) false) s
/-- VFMAVX (R148). -/
def execVfmaVx (d a b : Reg) (k : BitVec 3) (t c : Bool) (s : State) : Out :=
  vissue (encode (.vfmaVx d a b k t c)) (vfpBody (fun f m a y d => fFma f m a y (f.decode d)) false) s
/-- VFMSVX (R148). -/
def execVfmsVx (d a b : Reg) (k : BitVec 3) (t c : Bool) (s : State) : Out :=
  vissue (encode (.vfmsVx d a b k t c)) (vfpBody (fun f m a y d => fFma f m a y (f.decode d).negate) false) s
/-- VFDIVVX (R148). -/
def execVfdivVx (d a b : Reg) (k : BitVec 3) (t c : Bool) (s : State) : Out :=
  vissue (encode (.vfdivVx d a b k t c)) (vfpBody (fun f m a y _ => fDiv f m a y) false) s
/-- VFMINVX (R148). -/
def execVfminVx (d a b : Reg) (k : BitVec 3) (t c : Bool) (s : State) : Out :=
  vissue (encode (.vfminVx d a b k t c)) (vfpBody (fun f _ a y _ => fMinMax f false a y) false) s
/-- VFMAXVX (R148). -/
def execVfmaxVx (d a b : Reg) (k : BitVec 3) (t c : Bool) (s : State) : Out :=
  vissue (encode (.vfmaxVx d a b k t c)) (vfpBody (fun f _ a y _ => fMinMax f true a y) false) s
/-- VFSQRT (R148). -/
def execVfsqrt (d a : Reg) (k : BitVec 3) (t c : Bool) (s : State) : Out :=
  vissue (encode (.vfsqrt d a k t c)) (vfpBody (fun f m a _ _ => fSqrt f m a) false) s
/-- VFCLASS (R149). -/
def execVfclass (d a : Reg) (k : BitVec 3) (t c : Bool) (s : State) : Out :=
  vissue (encode (.vfclass d a k t c)) (vfpBody (fun f _ a _ _ => (2 ^ fClass f a, {})) false) s
/-- VFRCPE (R150). -/
def execVfrcpe (d a : Reg) (k : BitVec 3) (t c : Bool) (s : State) : Out :=
  vissue (encode (.vfrcpe d a k t c)) (vfpBody (fun f _ a _ _ => fRcpe f a) false) s

/-! ### VCMP (R151) -/

/-- The work of a compare: bit e of kVD for each active element; inactive bits follow MP. -/
def vcmpBody (rel : VT → Nat → Nat → Bool × Ev) (group : Bool) : Body := fun e s =>
  let t := s.hart.vt
  withY e s group none fun y e' s' =>
    let h := s'.hart
    let a := h.group (wA e'.word) t.g
    let kd := wD e'.word
    let old := h.kreg kd
    let act := activeOf s' e'
    let r := fun i => rel t (elemOf a t.ew i) (y i)
    let bit := fun i => if act i then (r i).1 else !t.mp && old.getLsbD i
    elementwise e' act (fun i => (r i).2) t.vl (fun stop => putMaskTo t kd e'.start stop bit) 4096 s'

/-- An integer compare by CLASS. -/
def icmp (f : Int → Int → Bool) (t : VT) (a y : Nat) : Bool × Ev :=
  (f (readInt t.isSigned a t.ew) (readInt t.isSigned y t.ew), {})

/-- VCMP_EQ_VV (R151). -/
def execVcmpEqVv (d a b : Reg) (k : BitVec 3) (t c : Bool) (s : State) : Out :=
  vissue (encode (.vcmpEqVv d a b k t c)) (vcmpBody (icmp (fun x y => decide (x = y))) true) s
/-- VCMP_NE_VV (R151). -/
def execVcmpNeVv (d a b : Reg) (k : BitVec 3) (t c : Bool) (s : State) : Out :=
  vissue (encode (.vcmpNeVv d a b k t c)) (vcmpBody (icmp (fun x y => decide (x ≠ y))) true) s
/-- VCMP_LT_VV (R151). -/
def execVcmpLtVv (d a b : Reg) (k : BitVec 3) (t c : Bool) (s : State) : Out :=
  vissue (encode (.vcmpLtVv d a b k t c)) (vcmpBody (icmp (fun x y => decide (x < y))) true) s
/-- VCMP_LE_VV (R151). -/
def execVcmpLeVv (d a b : Reg) (k : BitVec 3) (t c : Bool) (s : State) : Out :=
  vissue (encode (.vcmpLeVv d a b k t c)) (vcmpBody (icmp (fun x y => decide (x ≤ y))) true) s
/-- VCMP_GT_VV (R151). -/
def execVcmpGtVv (d a b : Reg) (k : BitVec 3) (t c : Bool) (s : State) : Out :=
  vissue (encode (.vcmpGtVv d a b k t c)) (vcmpBody (icmp (fun x y => decide (y < x))) true) s
/-- VCMP_GE_VV (R151). -/
def execVcmpGeVv (d a b : Reg) (k : BitVec 3) (t c : Bool) (s : State) : Out :=
  vissue (encode (.vcmpGeVv d a b k t c)) (vcmpBody (icmp (fun x y => decide (y ≤ x))) true) s
/-- VFCMP_EQ_VV (R151). -/
def execVfcmpEqVv (d a b : Reg) (k : BitVec 3) (t c : Bool) (s : State) : Out :=
  vissue (encode (.vfcmpEqVv d a b k t c)) (vcmpBody (fun t a y => fEq t.fmt a y) true) s
/-- VFCMP_NE_VV (R151). -/
def execVfcmpNeVv (d a b : Reg) (k : BitVec 3) (t c : Bool) (s : State) : Out :=
  vissue (encode (.vfcmpNeVv d a b k t c)) (vcmpBody (fun t a y => (!(fEq t.fmt a y).1, (fEq t.fmt a y).2)) true) s
/-- VFCMP_LT_VV (R151). -/
def execVfcmpLtVv (d a b : Reg) (k : BitVec 3) (t c : Bool) (s : State) : Out :=
  vissue (encode (.vfcmpLtVv d a b k t c)) (vcmpBody (fun t a y => fLt t.fmt a y) true) s
/-- VFCMP_LE_VV (R151). -/
def execVfcmpLeVv (d a b : Reg) (k : BitVec 3) (t c : Bool) (s : State) : Out :=
  vissue (encode (.vfcmpLeVv d a b k t c)) (vcmpBody (fun t a y => fLe t.fmt a y) true) s
/-- VCMP_EQ_VX (R151). -/
def execVcmpEqVx (d a b : Reg) (k : BitVec 3) (t c : Bool) (s : State) : Out :=
  vissue (encode (.vcmpEqVx d a b k t c)) (vcmpBody (icmp (fun x y => decide (x = y))) false) s
/-- VCMP_NE_VX (R151). -/
def execVcmpNeVx (d a b : Reg) (k : BitVec 3) (t c : Bool) (s : State) : Out :=
  vissue (encode (.vcmpNeVx d a b k t c)) (vcmpBody (icmp (fun x y => decide (x ≠ y))) false) s
/-- VCMP_LT_VX (R151). -/
def execVcmpLtVx (d a b : Reg) (k : BitVec 3) (t c : Bool) (s : State) : Out :=
  vissue (encode (.vcmpLtVx d a b k t c)) (vcmpBody (icmp (fun x y => decide (x < y))) false) s
/-- VCMP_LE_VX (R151). -/
def execVcmpLeVx (d a b : Reg) (k : BitVec 3) (t c : Bool) (s : State) : Out :=
  vissue (encode (.vcmpLeVx d a b k t c)) (vcmpBody (icmp (fun x y => decide (x ≤ y))) false) s
/-- VCMP_GT_VX (R151). -/
def execVcmpGtVx (d a b : Reg) (k : BitVec 3) (t c : Bool) (s : State) : Out :=
  vissue (encode (.vcmpGtVx d a b k t c)) (vcmpBody (icmp (fun x y => decide (y < x))) false) s
/-- VCMP_GE_VX (R151). -/
def execVcmpGeVx (d a b : Reg) (k : BitVec 3) (t c : Bool) (s : State) : Out :=
  vissue (encode (.vcmpGeVx d a b k t c)) (vcmpBody (icmp (fun x y => decide (y ≤ x))) false) s
/-- VFCMP_EQ_VX (R151). -/
def execVfcmpEqVx (d a b : Reg) (k : BitVec 3) (t c : Bool) (s : State) : Out :=
  vissue (encode (.vfcmpEqVx d a b k t c)) (vcmpBody (fun t a y => fEq t.fmt a y) false) s
/-- VFCMP_NE_VX (R151). -/
def execVfcmpNeVx (d a b : Reg) (k : BitVec 3) (t c : Bool) (s : State) : Out :=
  vissue (encode (.vfcmpNeVx d a b k t c)) (vcmpBody (fun t a y => (!(fEq t.fmt a y).1, (fEq t.fmt a y).2)) false) s
/-- VFCMP_LT_VX (R151). -/
def execVfcmpLtVx (d a b : Reg) (k : BitVec 3) (t c : Bool) (s : State) : Out :=
  vissue (encode (.vfcmpLtVx d a b k t c)) (vcmpBody (fun t a y => fLt t.fmt a y) false) s
/-- VFCMP_LE_VX (R151). -/
def execVfcmpLeVx (d a b : Reg) (k : BitVec 3) (t c : Bool) (s : State) : Out :=
  vissue (encode (.vfcmpLeVx d a b k t c)) (vcmpBody (fun t a y => fLe t.fmt a y) false) s

/-! ### KOPS (R152) -/

/-- The work of a mask operation that writes kD: bit e from the stored bits of kA and kB. -/
def kBody (f : Nat → BitVec 4096 → BitVec 4096 → Nat → Bool) : Body := fun e s =>
  let h := s.hart
  let t := h.vt
  let a := h.kreg (wA e.word)
  let b := h.kreg (wB e.word)
  .done (s.onHart (putMaskTo t (wD e.word) 0 4096 (f t.vl a b)))

/-- The lowest set bit below VL, if any. -/
def lowestBit (a : BitVec 4096) (vl : Nat) : Option Nat := (upTo vl).find? fun i => a.getLsbD i

/-- KAND (R152). -/
def execKand (d a b : Reg) (s : State) : Out := vissue (encode (.kand d a b)) (kBody (fun _ a b i => a.getLsbD i && b.getLsbD i)) s
/-- KOR (R152). -/
def execKor (d a b : Reg) (s : State) : Out := vissue (encode (.kor d a b)) (kBody (fun _ a b i => a.getLsbD i || b.getLsbD i)) s
/-- KXOR (R152). -/
def execKxor (d a b : Reg) (s : State) : Out := vissue (encode (.kxor d a b)) (kBody (fun _ a b i => a.getLsbD i != b.getLsbD i)) s
/-- KNOT (R152). -/
def execKnot (d a : Reg) (s : State) : Out := vissue (encode (.knot d a)) (kBody (fun _ a _ i => !a.getLsbD i)) s
/-- KSHL1 (R152). -/
def execKshl1 (d a : Reg) (s : State) : Out := vissue (encode (.kshl1 d a)) (kBody (fun _ a _ i => decide (0 < i) && a.getLsbD (i - 1))) s
/-- KSHR1 (R152). -/
def execKshr1 (d a : Reg) (s : State) : Out := vissue (encode (.kshr1 d a)) (kBody (fun vl a _ i => decide (i + 1 < vl) && a.getLsbD (i + 1))) s
/-- KMV (R152). -/
def execKmv (d a : Reg) (s : State) : Out := vissue (encode (.kmv d a)) (kBody (fun _ a _ i => a.getLsbD i)) s
/-- KPOPC (R152). -/
def execKpopc (d a : Reg) (s : State) : Out :=
  vissue (encode (.kpopc d a)) (fun e t =>
    let k := t.hart.kreg (wA e.word)
    pushResult e t (BitVec.ofNat 64 ((upTo t.hart.vr.vl).filter fun i => k.getLsbD i).length)) s
/-- KFIRST (R152). -/
def execKfirst (d a : Reg) (s : State) : Out :=
  vissue (encode (.kfirst d a)) (fun e t =>
    pushResult e t (match lowestBit (t.hart.kreg (wA e.word)) t.hart.vr.vl with | some i => BitVec.ofNat 64 i | none => -1)) s

end Sys2Proof.Machine
end

