-- ==== Sys2Proof/Machine/VecReduce.lean ====
section
/-! DEFINITION. Reductions (R53, R54, R157, R158) and the strip soft-maximum (R161 to R163). -/
namespace Sys2Proof.Machine

/-! ### Sums (R53, R54) -/

/-- An addition of two element patterns, with its events. -/
abbrev Adder := Nat → Nat → Nat × Ev

/-- The addition of the element type: floats round, integers wrap (R53, R157). -/
def VT.adder (t : VT) (a b : Nat) : Nat × Ev :=
  if t.isFloat then fAdd t.fmt t.rm a b else ((a + b) % 2 ^ t.ew, {})

/-- A node of the tree: its lowest present leaf and its value; none for an empty one. -/
abbrev Leaf := Option (Nat × Nat)

/-- One level of the tree: positions 2i and 2i + 1 are combined; the rounding belongs to the lowest leaf (R53, R158). -/
def pairUp (add : Adder) : List Leaf → List Leaf × List (Nat × Ev)
  | some (i, a) :: some (_, b) :: r =>
    let (l, evs) := pairUp add r
    let s := add a b
    (some (i, s.1) :: l, (i, s.2) :: evs)
  | some x :: none :: r => let (l, evs) := pairUp add r; (some x :: l, evs)
  | none :: y :: r => let (l, evs) := pairUp add r; (y :: l, evs)
  | [x] => ([x], [])
  | [] => ([], [])

/-- The tree over at most 2^n leaves: its root and the events of its nodes (R53). -/
def treeSum (add : Adder) : Nat → List Leaf → Leaf × List (Nat × Ev)
  | 0, l => (l.headD none, [])
  | n + 1, l =>
    let (m, e1) := pairUp add l
    let (r, e2) := treeSum add n m
    (r, e1 ++ e2)

/-- `vred.sum`: round(init + root), the final addition at element 0 (R53, R158). -/
def redTree (add : Adder) (init : Nat) (els : List Leaf) : Nat × List (Nat × Ev) :=
  match treeSum add 12 els with
  | (none, evs) => (init, evs)
  | (some (_, r), evs) => let s := add init r; (s.1, evs ++ [(0, s.2)])

/-- A reduction in index order; each step's events belong to its element (R54, R158). -/
def redSeq (op : Adder) : Nat → List Leaf → Nat × List (Nat × Ev)
  | acc, [] => (acc, [])
  | acc, none :: r => redSeq op acc r
  | acc, some (i, a) :: r =>
    let s := op acc a
    let (v, evs) := redSeq op s.1 r
    (v, (i, s.2) :: evs)

/-! ### VRED (R157, R158) -/

/-- The extreme of two elements; the events of a NaN are given apart. -/
def VT.extreme (t : VT) (mx : Bool) (a b : Nat) : Nat :=
  if t.isFloat then (fExtreme t.fmt mx a b).1
  else if mx then (if readInt t.isSigned a t.ew ≤ readInt t.isSigned b t.ew then b else a)
  else if readInt t.isSigned a t.ew ≤ readInt t.isSigned b t.ew then a else b

/-- NV of an operand that is a signalling NaN. -/
def VT.sigEv (t : VT) (a : Nat) : Ev := { nv := t.isFloat && (t.fmt.decode a).isSig }

/-- `vred.max` and `vred.min` (R157): with no active element the result is init; an event of init belongs to element 0 (log entry 174). -/
def redExtreme (t : VT) (mx : Bool) (init : Nat) (els : List Leaf) : Nat × List (Nat × Ev) :=
  match els.filterMap id with
  | [] => (init, [])
  | present => (present.foldl (fun acc p => t.extreme mx acc p.2) init, (0, t.sigEv init) :: present.map fun p => (p.1, t.sigEv p.2))

/-- The leaves of a reduction: the active elements below VL. -/
def leavesOf (t : VT) (act : Nat → Bool) (a : Nat) : List Leaf :=
  (upTo t.vl).map fun i => if act i then some (i, elemOf a t.ew i) else none

/-- Any enabled class among the events. -/
def anyTrap (evs : List (Nat × Ev)) (flags : BitVec 16) : Option Cause :=
  (evs.foldl (fun a p => a.or p.2) ({} : Ev)).trap flags

/-- The work of a reduction: it waits for room in its queue, takes init only then (log entry 175), and pushes the result, or records its
flags and traps with ERI 0 (R157, R158). -/
def redBody (f : VT → Nat → List Leaf → Nat × List (Nat × Ev)) : Body := fun e s =>
  if !s.hart.queueRoom (wD e.word - 24) 1 then .block .queueReg e s
  else withS e s fun v e' s' =>
    let t := s'.hart.vt
    let (r, evs) := f t (v.toNat % 2 ^ t.ew) (leavesOf t (activeOf s' e') (s'.hart.group (wA e'.word) t.g))
    let u := s'.recordAt e'.pc evs
    match anyTrap evs u.hart.fl.flags with
    | some c => .trap e' c (e'.word.setWidth 64) 0 u
    | none => pushResult e' u (elemWord t r)

def execVredSum (d a b : Reg) (k : BitVec 3) (t c : Bool) (s : State) : Out :=
  vissue (encode (.vredSum d a b k t c)) (redBody fun v => redTree v.adder) s
def execVredOsum (d a b : Reg) (k : BitVec 3) (t c : Bool) (s : State) : Out :=
  vissue (encode (.vredOsum d a b k t c)) (redBody fun v => redSeq v.adder) s
def execVredMax (d a b : Reg) (k : BitVec 3) (t c : Bool) (s : State) : Out :=
  vissue (encode (.vredMax d a b k t c)) (redBody fun v => redExtreme v true) s
def execVredMin (d a b : Reg) (k : BitVec 3) (t c : Bool) (s : State) : Out :=
  vissue (encode (.vredMin d a b k t c)) (redBody fun v => redExtreme v false) s
def execVredAnd (d a b : Reg) (k : BitVec 3) (t c : Bool) (s : State) : Out :=
  vissue (encode (.vredAnd d a b k t c)) (redBody fun _ => redSeq fun x y => (x &&& y, {})) s
def execVredOr (d a b : Reg) (k : BitVec 3) (t c : Bool) (s : State) : Out :=
  vissue (encode (.vredOr d a b k t c)) (redBody fun _ => redSeq fun x y => (x ||| y, {})) s

/-! ### The strip soft-maximum (R161 to R163) -/

/-- The row state of a strip (R161): m, r (none for "none yet"), s_hi, s_lo. -/
structure Strip where
  m : Nat
  r : Option Int
  hi : Nat
  lo : Nat
  deriving DecidableEq, Repr

/-- An FP32 value is finite. -/
def finite32 (x : Nat) : Bool := match fp32.decode x with | .fin _ _ _ => true | _ => false

/-- The ceiling of a finite FP32 value, and whether the value is above an integer (R162). -/
def ceil32 (x : Nat) : Int :=
  match fp32.decode x with
  | .fin n m e => if 0 ≤ e then signedAt n m e 0 else -((-(signedAt n m e e)) / (2 ^ (-e).toNat : Int))
  | _ => 0
def above32 (x : Nat) (i : Int) : Bool := (FVal.fin (decide (i < 0)) i.natAbs 0).cmp (fp32.decode x) == .lt

/-- An integer as an exact value. -/
def intVal (i : Int) : FVal := .fin (decide (i < 0)) i.natAbs 0

/-- What a strip gives: the new row state, f, the probability of each element, and the events (R162, R163). -/
structure StripOut where
  st : Strip
  f : Nat
  p : List Leaf
  evs : List (Nat × Ev)
  deriving DecidableEq, Repr

/-- FP32 1.0. -/
def one32 : Nat := 0x3F800000

/-- The factor f for a reference that goes from r to r' (R162). -/
def stripFactor (r r' : Option Int) : Nat × Ev :=
  if r' = r then (one32, {})
  else match r, r' with
    | some a, some b => roundTo fp32 .rne false 1 (a - b)
    | _, _ => (0, {})

/-- The reference exponent after the strip (R162), clamped to -lim … lim. -/
def stripRef (lim : Int) (r : Option Int) (m : Nat) : Option Int :=
  let rises := match r with
    | none => true
    | some v => above32 m (v + 8)
  if finite32 m && rises then
    let c := ceil32 m
    some (if c < -lim then -lim else if lim < c then lim else c)
  else r

/-- ONE STRIP (R162): `els` are the scores of the active elements, `c` the scale. With no active element nothing changes and
f = 1. -/
def stripRow (lim : Int) (st : Strip) (c : Nat) (els : List Leaf) : StripOut :=
  if els.all (·.isNone) then { st := st, f := one32, p := els, evs := [] }
  else
    let mul := fMul fp32 .rne
    let add := fAdd fp32 .rne
    let sub := fSub fp32 .rne
    let ys := els.map fun l => l.map fun (i, a) => (i, mul a c)
    let m := ys.foldl (fun acc l => match l with | some (_, y) => (fMinMax fp32 true acc y.1).1 | none => acc) st.m
    let r := stripRef lim st.r m
    let f := stripFactor st.r r
    let hi := mul st.hi f.1
    let lo := mul st.lo f.1
    let ref := intVal (-(r.getD 0))
    let ps := ys.map fun l => l.map fun (i, y) =>
      let d := finish fp32 .rne ((fp32.decode y.1).add .rne ref)
      let q := exp2t d.1
      (i, q.1, (y.2.or { nv := (fp32.decode y.1).isNan }).or (d.2.or q.2))
    let p := ps.map fun l => l.map fun (i, q, _) => (i, q)
    let (t, tevs) := redTree add 0 p
    let sh := add hi.1 t
    let bv := sub sh.1 hi.1
    let av := sub sh.1 bv.1
    let x := sub hi.1 av.1
    let y := sub t bv.1
    let e1 := add x.1 y.1
    let l2 := add lo.1 e1.1
    let h2 := add sh.1 l2.1
    let z := sub h2.1 sh.1
    let l3 := sub l2.1 z.1
    let zero := [f.2, hi.2, lo.2, sh.2, bv.2, av.2, x.2, y.2, e1.2, l2.2, h2.2, z.2, l3.2].foldl Ev.or {}
    { st := { m := m, r := r, hi := h2.1, lo := l3.1 }, f := f.1, p := p
      evs := ps.filterMap (fun l => l.map fun (i, _, ev) => (i, ev)) ++ tevs ++ [(0, zero)] }

/-- r of R161: 0x8000_0000_0000_0000 is "none yet". -/
def refOf (w : Word) : Option Int := if w = 0x8000000000000000#64 then none else some w.toInt
def refWord : Option Int → Word
  | none => 0x8000000000000000#64
  | some i => BitVec.ofInt 64 i

/-- VSTRIP (R161 to R163): coupled; it waits for the vector stream, then acts whole or traps with FP and ERI 0. -/
def execVstrip (d a b : Reg) (k : BitVec 3) (s : State) : Out :=
  let word := encode (.vstrip d a b k)
  if !s.hart.vectorDone then .next (s.waitFor .vector)
  else
    let h := s.hart
    match typeBad s h word 0 0 with
    | some v => .next (s.trap .illegalType v)
    | none =>
      let t := h.vt
      let f32 := fun w : Word => w.toNat % 2 ^ 32
      let out := stripRow (2 ^ 62)
        { m := f32 (h.get b), r := refOf (h.get (b + 1)), hi := f32 (h.get (b + 2)), lo := f32 (h.get (b + 3)) }
        (f32 (h.get (b + 4))) (leavesOf t (h.active k) (h.group a.toNat t.g))
      let u := s.recordAt h.pc out.evs
      match anyTrap out.evs u.hart.fl.flags with
      | some c => .next (u.trap c (word.setWidth 64))
      | none =>
        let val := fun i => match (out.p[i]?).join with | some (_, q) => q | none => 0
        let x := fun n : Nat => BitVec.ofNat 64 n
        .next ((u.onHart fun g => (((((putElems t 0 d.toNat (h.active k) val t.vlmax g).set b (x out.st.m)).set (b + 1)
          (refWord out.st.r)).set (b + 2) (x out.st.hi)).set (b + 3) (x out.st.lo)).set (b + 5) (x out.f)).advance)

end Sys2Proof.Machine
end

