-- ==== Sys2Proof/Machine/Crucible.lean ====
section
/-! DEFINITION. The crucible (R48 to R52, R198 to R220): grants and slots, formats, the outer product, tile slices, operand loads
and tile stores, and the skip predictor. -/
namespace Sys2Proof.Machine

/-! ### What a task holds on its core (R198) -/

/-- A side entry as R206 leaves it: m = -∞, r = "none yet", s_hi = s_lo = 0. -/
def sideInit : BitVec 128 := 0x80000000FF800000#128
/-- The class pair at task start: BF16 and BF16 (R198). -/
def pairInit : Pair := { a := 2, b := 2, fa := 0, fb := 0 }
/-- The keys of an accumulator, a side entry, a slot byte and a header byte. -/
def tileKey (t row col : Nat) : Nat := 8192 * t + 64 * row + col
def sideKey (t row : Nat) : Nat := 128 * t + row
def slotKey (o row byte : Nat) : Nat := 8192 * o + 128 * row + byte
def shdrKey (o row n : Nat) : Nat := 1024 * o + 16 * row + n

/-- The place of the hart whose turn it is. -/
def State.myPlace (s : State) : Option Place := s.placeOf s.hart
/-- Change it. -/
def State.onMyPlace (s : State) (f : Place → Place) : State := s.onPlace s.hart.tk.task s.hart.core f

/-- An accumulator, a side entry, a class pair. -/
def Place.acc (p : Place) (t row col : Nat) : BitVec 32 := Sparse.get 0 p.tile (tileKey t row col)
def Place.sideAt (p : Place) (t row : Nat) : BitVec 128 := Sparse.get sideInit p.side (sideKey t row)
def Place.pairAt (p : Place) (t : Nat) : Pair := Sparse.get pairInit p.pair t
/-- A row of a tile as a list of 64 elements. -/
def Place.tileRow (p : Place) (t row : Nat) : List (BitVec 32) := Sparse.readRange 0 (tileKey t row 0) 64 p.tile

/-- Replace a row of a tile. -/
def Place.putRow (p : Place) (t row : Nat) (f : Nat → BitVec 32 → BitVec 32) : Place :=
  { p with tile := Sparse.mapRange 0 (fun k v => f (k % 64) v) (tileKey t row 0) 64 p.tile }
def Place.putSide (p : Place) (t row : Nat) (w : BitVec 128) : Place :=
  { p with side := Sparse.put sideInit p.side (sideKey t row) w }

/-- A granted row of a tile is under test: accesses to it wait (R388). -/
def State.tileTest (s : State) (h : Hart) (t : Nat) : Bool :=
  match s.placeOf h with
  | none => false
  | some p => (upTo h.rows).any fun i => s.rowTest 4 h.core (p.physRow (sideKey t (h.row0 + i)))
/-- A row of the hart's operand slots is under test. -/
def State.slotTest (s : State) (h : Hart) (row : Nat) : Bool :=
  match s.placeOf h with
  | none => false
  | some p => s.rowTest 3 h.core (p.physSlotRow row)

/-- The live rows of the hart (R199). -/
def Hart.liveRows (h : Hart) : Nat := min (vtRows h.vr.vtype) h.rows

/-! ### Attach, claim, format (R203 to R206) -/

/-- The wanted rows of `mattach` (R203). -/
def wantedRows (x : Nat) : Nat :=
  if x = 0 ∨ 64 < x then 128 else if 32 < x then 64 else if 16 < x then 32 else 16

/-- The rows that other harts of the task hold on the core. -/
def State.rowTaken (s : State) (h : Hart) (row : Nat) : Bool :=
  s.harts.any fun g => g.id != h.id && g.core == h.core && g.tk.task == h.tk.task && g.status != .empty &&
    decide (0 < g.rows) && decide (g.row0 ≤ row) && decide (row < g.row0 + g.rows)

/-- The lowest free aligned block of `w` rows. -/
def State.freeRows (s : State) (h : Hart) (w : Nat) : Option Nat :=
  ((upTo (128 / w)).map (· * w)).find? fun b => (upTo w).all fun i => !s.rowTaken h (b + i)

/-- MATTACH (R203): it never waits; without rows g stays 0. -/
def mattachBody : Body := fun e s =>
  let h := s.hart
  let has := match s.myPlace with | some p => decide (0 < p.tiles) | none => false
  if 0 < h.rows || !has then .done s
  else
    let w := wantedRows e.xa.toNat
    match ([128, 64, 32, 16].filter (· ≤ w)).findSome? fun n => (s.freeRows h n).map fun b => (n, b) with
    | none => .done s
    | some (n, b) => .done (s.onHart fun g => { g with mgrant := (g.mgrant &&& 0x10000#17) ||| BitVec.ofNat 17 (n + 256 * b) })
def execMattach (r : Reg) (s : State) : Out := vissue (encode (.mattach r)) mattachBody s

/-- MDETACH (R203). -/
def execMdetach (s : State) : Out := vissue (encode .mdetach) (fun _ t => .done (t.onHart (·.detach))) s

/-- O_CLAIM (R204): the check is made again when it executes. -/
def oClaimBody : Body := fun e s =>
  let h := s.hart
  let f := wOa e.word
  let n := wOb e.word + 1
  if !claimable h s.myPlace f n then .trap e .slot (e.word.setWidth 64) 0 s
  else .done (s.onMyPlace fun p =>
    { p with claims := (p.claims.filter fun c => !(decide (f ≤ c.1) && decide (c.1 < f + n))) ++ (upTo n).map fun i => (f + i, h.id) })
def execOClaim (f n : BitVec 6) (s : State) : Out := vissue (encode (.oClaim f n)) oClaimBody s

/-- O_RELEASE (R204): the slots of the range that the hart holds. -/
def oReleaseBody : Body := fun e s =>
  let f := wOa e.word
  let n := wOb e.word + 1
  .done (s.onMyPlace fun p =>
    { p with claims := p.claims.filter fun c => !(c.2 == s.hart.id && decide (f ≤ c.1) && decide (c.1 < f + n)) })
def execORelease (f n : BitVec 6) (s : State) : Out := vissue (encode (.oRelease f n)) oReleaseBody s

/-- MZERO (R206): the granted rows of the tile and their side entries; their parity is good again. -/
def mzeroBody : Body := fun e s =>
  let h := s.hart
  let t := wT e.word
  if s.tileTest h t then .block .engine e s
  else .done (s.onMyPlace fun p =>
    { p with
      tile := Sparse.mapRange 0 (fun _ _ => 0) (tileKey t h.row0 0) (64 * h.rows) p.tile
      side := Sparse.mapRange sideInit (fun _ _ => sideInit) (sideKey t h.row0) h.rows p.side
      badRows := p.badRows.filter fun r => !(decide (sideKey t h.row0 ≤ r) && decide (r < sideKey t h.row0 + h.rows)) })
def execMzero (t : BitVec 2) (s : State) : Out := vissue (encode (.mzero t)) mzeroBody s

/-- MFMT (R205): the class pair, with the snapshots that must serve it now. -/
def mfmtBody : Body := fun e s =>
  let h := s.hart
  let a := wOa e.word % 32
  let b := wOb e.word % 32
  let fa := h.f.get ⟨wFn11 e.word / 8 % 8, by omega⟩
  let fb := h.f.get ⟨wFn11 e.word % 8, by omega⟩
  if !classFmtOk a fa || !classFmtOk b fb then .trap e .illegalType (e.word.setWidth 64) 0 s
  else
    let pr : Pair := { a := BitVec.ofNat 5 a, b := BitVec.ofNat 5 b, fa := if a < 8 then 0 else fa, fb := if b < 8 then 0 else fb }
    .done (s.onMyPlace fun p => { p with pair := Sparse.put pairInit p.pair (wT e.word) pr })
def execMfmt (t : BitVec 2) (a b : BitVec 5) (x y : BitVec 3) (s : State) : Out := vissue (encode (.mfmt t a b x y)) mfmtBody s

/-! ### Operand classes (R48, R201) -/

/-- The container bits of a class. -/
def classBits (c : Nat) : Nat :=
  match c with
  | 0 | 1 => 32
  | 2 | 3 => 16
  | 4 | 5 => 8
  | 6 | 7 => 4
  | c => containerOf (if c < 15 then c - 6 else c - 11)
/-- krow and steps (R201). -/
def krow (c : Nat) : Nat := 1024 / classBits c
def classSteps (c : Nat) : Nat := if c = 0 then 4 else if c = 8 then 2 else 1
/-- An integer class (R50). -/
def intClass (c : Nat) : Bool := decide (4 ≤ c) && decide (c ≤ 7)

/-- The value of container `k` of an operand row with its header bytes (R42, R43, R48). -/
def opValue (c : Nat) (f : Word) (row hdr k : Nat) : FVal :=
  let x := elemOf row (classBits c) k
  match c with
  | 0 => fp32.decode x
  | 1 => e8m10.decode x
  | 2 => bf16.decode x
  | 3 => fp16.decode x
  | 4 => intVal (sextI x 8)
  | 5 => intVal x
  | 6 => intVal (sextI x 4)
  | 7 => intVal x
  | c => blockValue f (elemOf hdr 8 (k / 32)) (x % 2 ^ (if c < 15 then c - 6 else c - 11))

/-- The bytes of a row of a slot, and its header bytes. -/
def Place.slotRow (p : Place) (o row : Nat) : Nat := bytesNat (Sparse.readRange 0 (slotKey o row 0) 128 p.slot)
def Place.slotHdr (p : Place) (o row : Nat) : Nat := bytesNat (Sparse.readRange 0 (shdrKey o row 0) 16 p.shdr)

/-! ### The outer product (R52, R210, R211) -/

/-- The exact sum of products (R52): a NaN product, ∞ x 0 or infinities of both signs give NaN. -/
def exactSum : List FVal → FVal
  | [] => .fin false 0 0
  | a :: r => r.foldl (fun x y => (x.add .rne y).1) a

/-- One group of eight products added to an accumulator (R52). -/
def addGroup (int : Bool) (acc : Nat) (ps : List FVal) : Nat :=
  let g := exactSum ps
  if int then
    match g with
    | .fin n m e => wrapInt ((acc : Int) + signedAt n m e 0) 32
    | _ => acc
  else (((fp32.decode acc).add .rne g).1.roundTo fp32 .rne).1

/-- The groups of the steps from `done` to `stop - 1`, of `steps`, added to an accumulator. -/
def dot (int : Bool) (acc k steps done stop : Nat) (a b : Nat → FVal) : Nat :=
  let per := k / 8 / steps
  (List.range' (per * done) (per * (stop - done))).foldl
    (fun x g => addGroup int x ((upTo 8).map fun i => ((a (8 * g + i)).mul (b (8 * g + i))).1)) acc

/-- Operand rows decoded, by row and container. -/
def opRows (c : Nat) (f : Word) (k n : Nat) (row hdr : Nat → Nat) : Array (Array FVal) :=
  ((upTo n).map fun i => ((upTo k).map fun j => opValue c f (row i) (hdr i) j).toArray).toArray

/-- The steps `done` to `stop - 1` of a product on the live rows and columns (R210): the accumulators start from zero with Z
when the first step is among them. -/
def mopSteps (h : Hart) (w : IWord) (done stop : Nat) (p : Place) : Place :=
  let t := wT w
  let pr := p.pairAt t
  let ca := pr.a.toNat
  let cb := pr.b.toNat
  let k := min (krow ca) (krow cb)
  let steps := max (classSteps ca) (classSteps cb)
  let rows := h.liveRows
  let cols := vtCols h.vr.vtype
  let oa := wOa w
  let as := opRows ca pr.fa k rows (fun i => p.slotRow (oa + i / 64) (i % 64)) (fun i => p.slotHdr (oa + i / 64) (i % 64))
  let bs := opRows cb pr.fb k cols (fun j => p.slotRow (wOb w) j) (fun j => p.slotHdr (wOb w) j)
  let val := fun (m : Array (Array FVal)) (i j : Nat) => (m.getD i #[]).getD j (.fin false 0 0)
  let int := intClass ca && intClass cb
  let z := wFn11 w % 2 == 1 && done == 0
  { p with tile := Sparse.mapRange 0 (fun key old =>
      let i := key % 8192 / 64 - h.row0
      let j := key % 64
      if i < rows ∧ j < cols then
        BitVec.ofNat 32 (dot int (if z then 0 else old.toNat) k steps done stop (val as i) (val bs j))
      else old) (tileKey t h.row0 0) (64 * rows) p.tile }

/-- The steps of the product of a tile (R201). -/
def Place.mopLen (p : Place) (t : Nat) : Nat := max (classSteps (p.pairAt t).a.toNat) (classSteps (p.pairAt t).b.toNat)

/-- The contexts attached on a core (R219). -/
def State.attached (s : State) (core : Nat) : List Nat :=
  ((s.harts.filter fun g => g.core == core && g.status != .empty && decide (0 < g.rows)).map (·.tk.ctx)).eraseDups

/-- The crucible's current slot serves the hart's context (R219): the table is ignored while one context is attached. -/
def State.slotServes (s : State) (h : Hart) : Bool :=
  let c := s.coreAt h.core
  if (s.attached h.core).length < 2 then true
  else
    let code := (c.slotTab.toNat / 4 ^ (c.slot % 16)) % 4
    let first := match c.ctxs with | (_, x) :: _ => decide (x = h.tk.ctx) | [] => true
    code == 2 || (code == 0 && first) || (code == 1 && !first)

/-- The product is skipped (R217). -/
def mopSkipped (h : Hart) (w : IWord) : Bool := wFn11 w / 2 % 2 == 1 && h.skb

/-- The operand rows that a product reads (R210), as 64 x slot + row. -/
def mopRows (h : Hart) (w : IWord) : List Nat :=
  (upTo h.liveRows).map (64 * wOa w + ·) ++ (upTo (vtCols h.vr.vtype)).map (64 * wOb w + ·)

/-- Data of an operand row with an uncorrectable error, or of a row fenced off (R383, R389). -/
def State.slotBad (s : State) (core : Nat) (p : Place) (row : Nat) : Bool := p.badSlots.any (· == row) || s.deadRow 3 core (p.physSlotRow row)

/-- MOP (R210, R211): the steps that are left, in one go; a step of another context's slot waits (R219), and so does one whose rows are
under test (R388); operands in error trap (R383). -/
def mopBody : Body := fun e s =>
  let h := s.hart
  let finish := fun t : State => VOut.done (t.onHart fun g => { g with vs := { g.vs with mopStep := 0 } })
  if mopSkipped h e.word then finish s
  else if !s.slotServes h then .block .engine e s
  else match s.myPlace with
    | none => .trap e .tileOff (e.word.setWidth 64) 0 s
    | some p =>
      let rows := mopRows h e.word
      if s.tileTest h (wT e.word) || rows.any (s.slotTest h) then .block .engine e s
      else if rows.any (s.slotBad h.core p) then .trap e .ecc (e.word.setWidth 64) 0 s
      else finish (s.onMyPlace (mopSteps h e.word h.vs.mopStep (p.mopLen (wT e.word))))
def execMop (t : BitVec 2) (a b : BitVec 6) (k z c : Bool) (s : State) : Out := vissue (encode (.mop t a b k z c)) mopBody s

/-! ### Tile slices (R212 to R214) -/

/-- ROW0, SIDE and c of x[XR]. -/
def sliceRow (x : Word) : Nat := x.toNat % 128
def sliceSide (x : Word) : Bool := x.getLsbD 8

/-- Element `e` of a slice: the row of the hart, and the place in the row (R212). -/
def sliceAt (side : Bool) (row0 e : Nat) : Nat × Nat := if side then (row0 + e / 4, e % 4) else (row0 + e / 64, e % 64)

/-- An accumulator row of the hart has a parity error (R383), or is fenced off (R389). -/
def State.rowBad (s : State) (p : Place) (h : Hart) (t i : Nat) : Bool :=
  p.badRows.any (· == sideKey t (h.row0 + i)) || s.deadRow 4 h.core (p.physRow (sideKey t (h.row0 + i)))

/-- A granted row that a slice touches is bad. -/
def State.sliceBad (s : State) (h : Hart) (p : Place) (t row0 n : Nat) : Bool :=
  (upTo n).any fun q => decide (row0 + q < h.rows) && s.rowBad p h t (row0 + q)

/-- MSLICE_RD (R212): bits unchanged; a row at or above g reads as zero. -/
def sliceRdBody : Body := fun e s =>
  let h := s.hart
  let t := h.vt
  let tl := wT e.word
  let side := sliceSide e.xa
  let row0 := sliceRow e.xa
  match s.myPlace with
  | none => .trap e .tileOff (e.word.setWidth 64) 0 s
  | some p =>
    if s.tileTest h tl then .block .engine e s
    else if !side && s.sliceBad h p tl row0 (ceilDiv t.vl 64) then .trap e .ecc (e.word.setWidth 64) 0 s
    else
      let val := fun i =>
        let (r, j) := sliceAt side row0 i
        if h.rows ≤ r then 0
        else if side then elemOf (p.sideAt tl (h.row0 + r)).toNat 32 j else (p.acc tl (h.row0 + r) j).toNat
      .done (s.onHart (putElems t 0 (wVr e.word) (fun i => decide (i < t.vl)) val t.vlmax))
def execMsliceRd (t : BitVec 2) (r v : Reg) (c : Bool) (s : State) : Out := vissue (encode (.msliceRd t r v c)) sliceRdBody s

/-- Word `j` of a side entry replaced. -/
def putSideWord (w : BitVec 128) (j v : Nat) : BitVec 128 :=
  BitVec.ofNat 128 (joinNat 32 (fun i => if i = j then v else elemOf w.toNat 32 i) 4)

/-- MSLICE_WR (R212): a row at or above g ignores writes. -/
def sliceWrBody : Body := fun e s =>
  let h := s.hart
  let t := h.vt
  let tl := wT e.word
  let side := sliceSide e.xa
  let row0 := sliceRow e.xa
  let g := h.group (wVr e.word) t.g
  match s.myPlace with
  | none => .trap e .tileOff (e.word.setWidth 64) 0 s
  | some p =>
    if s.tileTest h tl then .block .engine e s
    else if !side && s.sliceBad h p tl row0 (ceilDiv t.vl 64) then .trap e .ecc (e.word.setWidth 64) 0 s
    else
      .done (s.onMyPlace fun p => (upTo t.vl).foldl (fun p i =>
        let (r, j) := sliceAt side row0 i
        if h.rows ≤ r then p
        else if side then p.putSide tl (h.row0 + r) (putSideWord (p.sideAt tl (h.row0 + r)) j (elemOf g 32 i))
        else { p with tile := Sparse.put 0 p.tile (tileKey tl (h.row0 + r) j) (BitVec.ofNat 32 (elemOf g 32 i)) }) p)
def execMsliceWr (t : BitVec 2) (r v : Reg) (c : Bool) (s : State) : Out := vissue (encode (.msliceWr t r v c)) sliceWrBody s

/-- A side entry as the row state of a strip (R161, R198), and back. -/
def stripOf (w : BitVec 128) : Strip :=
  let x := elemOf w.toNat 32
  { m := x 0, r := if x 1 = 0x80000000 then none else some (sextI (x 1) 32), hi := x 2, lo := x 3 }
def sideOf (st : Strip) : BitVec 128 :=
  let r := match st.r with | none => 0x80000000 | some i => wrapInt i 32
  BitVec.ofNat 128 (st.m + 2 ^ 32 * r + 2 ^ 64 * st.hi + 2 ^ 96 * st.lo)

/-- One row of MSLICE_RD_EXP (R213): the place after it, the probabilities, and the events, with those of no single element at
element 64q (R214). -/
def expRow (h : Hart) (tl c cols q i : Nat) (p : Place) : Place × List Leaf × List (Nat × Ev) :=
  let phys := h.row0 + i
  let o := stripRow (2 ^ 30) (stripOf (p.sideAt (tl ^^^ 1) phys)) c
    (((p.tileRow tl phys).take cols).zipIdx.map fun x => some (x.2, x.1.toNat))
  let old := p.tileRow (tl ^^^ 1) phys
  let scaled := old.map fun x => fMul fp32 .rne x.toNat o.f
  let arr := (scaled.map (·.1)).toArray
  let p' := if o.f = 0 then p.putRow (tl ^^^ 1) phys fun _ _ => 0
    else if o.f = one32 then p else p.putRow (tl ^^^ 1) phys fun j _ => BitVec.ofNat 32 (arr.getD j 0)
  let evs := if o.f = 0 || o.f = one32 then [] else scaled.map fun x => (64 * q, x.2)
  (p'.putSide (tl ^^^ 1) phys (sideOf o.st), o.p, o.evs.map (fun x => (64 * q + x.1, x.2)) ++ evs)

/-- The rows of MSLICE_RD_EXP from `q` on: rows that are not live give no probabilities. -/
def expRows (h : Hart) (tl c cols row0 q : Nat) : Nat → Place → Place × List (List Leaf) × List (Nat × Ev)
  | 0, p => (p, [], [])
  | n + 1, p =>
    if h.liveRows ≤ row0 + q then
      let (p', l, evs) := expRows h tl c cols row0 (q + 1) n p
      (p', [] :: l, evs)
    else
      let (p1, l, e1) := expRow h tl c cols q (row0 + q) p
      let (p2, ls, e2) := expRows h tl c cols row0 (q + 1) n p1
      (p2, l :: ls, e1 ++ e2)

/-- MSLICE_RD_EXP (R213, R214): the accumulation of the tile is checked now; all or nothing. -/
def sliceExpBody : Body := fun e s =>
  let h := s.hart
  let t := h.vt
  let tl := wT e.word
  let row0 := sliceRow e.xa
  match s.myPlace with
  | none => .trap e .tileOff (e.word.setWidth 64) 0 s
  | some p =>
    if intClass (p.pairAt tl).a.toNat && intClass (p.pairAt tl).b.toNat then .trap e .illegalType (e.word.setWidth 64) 0 s
    else if s.tileTest h tl || s.tileTest h (tl ^^^ 1) then .block .engine e s
    else if s.sliceBad h p tl row0 (t.vl / 64) || s.sliceBad h p (tl ^^^ 1) row0 (t.vl / 64) then
      .trap e .ecc (e.word.setWidth 64) 0 s
    else
      let (p', rows, evs) := expRows h tl (e.xa.toNat / 2 ^ 32) (vtCols h.vr.vtype) row0 0 (t.vl / 64) p
      let u := s.recordAt e.pc evs
      match anyTrap evs u.hart.fl.flags with
      | some k => .trap e k (e.word.setWidth 64) 0 u
      | none =>
        let val := fun i => match (((rows[i / 64]?).getD [])[i % 64]?).join with | some (_, x) => x | none => 0
        .done ((u.onMyPlace fun _ => p').onHart (putElems t 0 (wVr e.word) (fun i => decide (i < t.vl)) val t.vlmax))
def execMsliceRdExp (t : BitVec 2) (r v : Reg) (c : Bool) (s : State) : Out := vissue (encode (.msliceRdExp t r v c)) sliceExpBody s

/-! ### Operand loads and tile stores (R207 to R209) -/

/-- MHCTL.C: the bytes of a block's data, none for no headers. -/
def Hart.mhBytes (h : Hart) : Option Nat :=
  match h.mhctl.toNat % 4 with
  | 1 => some 32
  | 2 => some 16
  | 3 => some 8
  | _ => none

/-- The header bytes of a row whose data are at `a`, from block `n` on. -/
def rowHeaders (h : Hart) (a b : Nat) (n : Nat) : Nat → State → (Rd × Nat) × List Byte × State
  | 0, s => ((.val 0, a), [], s)
  | m + 1, s =>
    let x := hdrAddr h.mhb.toNat ((a + n * b) % 2 ^ 64) b
    match s.vecElem h x 1 false with
    | (.val v, t) =>
      let (r, l, u) := rowHeaders h a b (n + 1) m t
      (r, BitVec.ofNat 8 v :: l, u)
    | (r, t) => ((r, x), [], t)

/-- A row of an operand (R208): 128 bytes in two lines, then its headers; the first wait or fault with its address. -/
def loadRow (h : Hart) (a : Nat) (s : State) : (Rd × Nat) × List Byte × State :=
  match s.vecElem h a 64 false with
  | (.val lo, t) =>
    match t.vecElem h ((a + 64) % 2 ^ 64) 64 false with
    | (.val hi, u) =>
      match h.mhBytes with
      | none => ((.val (lo + 2 ^ 512 * hi), a), [], u)
      | some b =>
        match rowHeaders h a b 0 (128 / b) u with
        | ((.val _, _), l, v) => ((.val (lo + 2 ^ 512 * hi), a), l, v)
        | r => r
    | (r, u) => ((r, (a + 64) % 2 ^ 64), [], u)
  | (r, t) => ((r, a), [], t)

/-- Write bytes of a row of a slot, and its headers; its data are good again. -/
def Place.putSlotRow (p : Place) (o row : Nat) (v : Nat) (hdrs : List Byte) : Place :=
  let arr := (natBytes 128 v).toArray
  { p with
    slot := Sparse.mapRange 0 (fun k _ => arr.getD (k % 128) 0) (slotKey o row 0) 128 p.slot
    shdr := Sparse.mapRange 0 (fun k _ => hdrs.getD (k % 16) 0) (shdrKey o row 0) hdrs.length p.shdr
    badSlots := p.badSlots.filter (· != 64 * o + row) }

/-- The rows of `mld` from ρ on: precise at the row (R208). -/
def mldRows (e : VEntry) (base stride slot i : Nat) : Nat → State → VOut
  | 0, s => .done (s.onHart (·.dropLines))
  | n + 1, s =>
    let a := (base + i * stride) % 2 ^ 64
    if s.slotTest s.hart (64 * slot + i) then .block .engine { e with start := i } s
    else match loadRow s.hart a s with
    | ((.val v, _), hd, t) =>
      mldRows e base stride slot (i + 1) n (t.onMyPlace fun p => p.putSlotRow (slot + i / 64) (i % 64) v hd)
    | ((.wait w, _), _, t) => .block w { e with start := i } t
    | ((.fault c, f), _, t) => .trap e c (BitVec.ofNat 64 f) i (t.onHart (·.dropLines))

/-- MLD and MLD_P (R208). The captured operands are x[XB] and x[S]. -/
def mldBody : Body := fun e s =>
  let v := s.hart.vr.vtype
  let n := if wFn11 e.word % 2 = 1 then min (vtRows v) 128 else min (vtCols v) 64
  mldRows e e.xa.toNat e.xb.toNat (wOa e.word) e.start (n - e.start) s
def execMld (o : BitVec 6) (r b : Reg) (s : State) : Out := vissue (encode (.mld o r b)) mldBody s
def execMldP (o : BitVec 6) (r b : Reg) (s : State) : Out := vissue (encode (.mldP o r b)) mldBody s

/-- The elements of a row of `mst` checked whole: their places, or the first fault with its address. -/
def mstChecks (h : Hart) (row j : Nat) : Nat → State → Except (Cause × Nat) (List (Nat × Loc) × State)
  | 0, s => .ok ([], s)
  | n + 1, s =>
    let a := (row + 4 * j) % 2 ^ 64
    match s.storeLoc h a 4 false with
    | .error c => .error (c, a)
    | .ok (loc, t) =>
      match mstChecks h row (j + 1) n t with
      | .error x => .error x
      | .ok (l, u) => .ok ((a, loc) :: l, u)

/-- The stores of a row into the PSFs; none when one is full. -/
def mstPush : List (Nat × Loc) → List (BitVec 32) → List Nat → Hart → Option Hart
  | (a, loc) :: r, x :: xs, tails, h =>
    match h.psfPush a loc 4 x.toNat (tails.any (· == planeOf a)) with
    | none => none
    | some g => mstPush r xs (planeOf a :: tails) g
  | _, _, _, h => some h

/-- The rows of `mst` from row `i` on: each checked whole before it is stored (R209). -/
def mstRows (e : VEntry) (p : Place) (tl base stride cols i : Nat) : Nat → State → VOut
  | 0, s => .done s
  | n + 1, s =>
    let h := s.hart
    let row := (base + i * stride) % 2 ^ 64
    match mstChecks h row 0 cols s with
    | .error (c, a) => .trap e c (BitVec.ofNat 64 a) i s
    | .ok (l, t) =>
      if s.rowBad p h tl i then .trap e .ecc (BitVec.ofNat 64 row) i s
      else if l.any fun x => t.pushHeld x.1 then .block .drain { e with start := i } s
      else match mstPush l (p.tileRow tl (h.row0 + i)) [] t.hart with
        | none => .block .drain { e with start := i } s
        | some g => mstRows e p tl base stride cols (i + 1) n { t with hart := g }

/-- MST (R209). -/
def mstBody : Body := fun e s =>
  match s.myPlace with
  | none => .trap e .tileOff (e.word.setWidth 64) 0 s
  | some p => if s.tileTest s.hart (wT e.word) then .block .engine e s else mstRows e p (wT e.word) e.xa.toNat e.xb.toNat (vtCols s.hart.vr.vtype) e.start (s.hart.liveRows - e.start) s
def execMst (t : BitVec 2) (r b : Reg) (s : State) : Out := vissue (encode (.mst t r b)) mstBody s

/-! ### The skip predictor (R216, R217) -/

/-- CUR and MODE of SKIPD. -/
def skipCur (w : Word) : Nat := bitsOf w.toNat 31 24
def skipMode (w : Word) : Nat := w.toNat % 4

/-- SKB for a record and the r of the live rows (R217). Its two products raise no flag: the model's choice (log entry 170). -/
def skips (skipd : Word) (kn qn c : Nat) (rs : List (Option Int)) : Bool :=
  let b := fMul fp32 .rup (fMul fp32 .rup c qn).1 kn
  skipMode skipd != 0 && rs.all fun r => match r with
    | none => false
    | some i => (fp32.decode b.1).cmp (intVal (i - 1 - skipCur skipd)) == .lt && !(fp32.decode b.1).isNan

/-- MSKIP (R217): the record is read through the vector port. -/
def mskipBody : Body := fun e s =>
  let h := s.hart
  match s.vecElem h e.xa.toNat 16 false with
  | (.wait w, t) => .block w e t
  | (.fault c, t) => .trap e c e.xa 0 (t.onHart (·.dropLines))
  | (.val v, t) =>
    match s.myPlace with
    | none => .trap e .tileOff (e.word.setWidth 64) 0 s
    | some p =>
      let rs := (upTo h.liveRows).map fun i => (stripOf (p.sideAt (wT e.word) (h.row0 + i))).r
      let sk := skips h.skipd (elemOf v 32 0) (elemOf v 32 1) (elemOf v 32 2) rs
      .done (t.onHart fun g => { g.dropLines with mgrant := (g.mgrant &&& 0xFFFF#17) ||| (if sk then 0x10000#17 else 0) })
def execMskip (t : BitVec 2) (r : Reg) (s : State) : Out := vissue (encode (.mskip t r)) mskipBody s

end Sys2Proof.Machine
end

