-- ==== Sys2Proof/Machine/Copies.lean ====
section
/-! DEFINITION. Runner copies (R186 to R190, R287, R301), guarded copies (R384 to R386) and barrier objects (R191, R192). -/
namespace Sys2Proof.Machine

/-! ### Barrier objects (R191) -/

/-- The fields of a barrier object. -/
structure Bar where
  exp : Nat
  left : Nat
  tx : Int
  p : Bool
  broken : Bool
  deriving DecidableEq, Repr

/-- The object at a scratchpad key, and back. -/
def State.barAt (s : State) (key : Nat) : Bar :=
  let v := s.memNat key 16
  { exp := bitsOf v 31 0, left := bitsOf v 63 32, tx := sextI (bitsOf v 95 64) 32, p := v / 2 ^ 96 % 2 == 1, broken := v / 2 ^ 97 % 2 == 1 }
def Bar.bits (b : Bar) : Nat :=
  b.exp + 2 ^ 32 * b.left + 2 ^ 64 * (wrapInt b.tx 32) + 2 ^ 96 * b.p.toNat + 2 ^ 97 * b.broken.toNat
where
  wrapInt (i : Int) (w : Nat) : Nat := (i % (2 ^ w : Int)).toNat

/-- Release the harts that wait at a barrier (R191, R192). -/
def State.releaseWaiters (s : State) (key : Nat) (broken : Bool) : State :=
  s.onHarts (fun h => h.wait == some (.barrier key none)) fun h => { h with wait := some (.barrier key (some broken)) }

/-- Store an object, then test the phase: completion flips P, re-arms, and releases the waiters (R191). -/
def State.putBar (s : State) (key : Nat) (b : Bar) : State :=
  let whole := b.left == 0 && b.tx == 0 && !b.broken
  let c : Bar := if whole then { b with p := !b.p, left := b.exp, tx := 0 } else b
  let t := (s.putNat key 16 c.bits).noteWrite (lineOf key)
  if whole then t.releaseWaiters key false else t

/-- Break a barrier and release its waiters (R192). -/
def State.breakBar (s : State) (key : Nat) : State :=
  ((s.putNat key 16 ({ s.barAt key with broken := true } : Bar).bits).noteWrite (lineOf key)).releaseWaiters key true

/-- TX_LEFT stays in the s32 range. -/
def inS32 (i : Int) : Bool := decide (-(2 ^ 31 : Int) ≤ i) && decide (i < 2 ^ 31)

/-- A copy's credit; false when it would carry TX_LEFT out of range, which breaks the barrier (R192). -/
def State.credit (s : State) (key n : Nat) : Bool × State :=
  let b := s.barAt key
  if inS32 (b.tx - n) then (true, s.putBar key { b with tx := b.tx - n }) else (false, s.breakBar key)

/-- The address of a barrier object (R192): a multiple of 16, local, allocated. -/
def State.barLoc (s : State) (h : Hart) (a : Word) : Except Cause Nat :=
  if a.toNat % 16 ≠ 0 then .error .misalign
  else if !isLocal a.toNat then .error .page
  else (s.localLoc h a.toNat 16).map (·.key)

/-- The same for an access that reads the object, whose bits must be good (R383). -/
def State.barOpen (s : State) (h : Hart) (a : Word) : Except Cause Nat :=
  match s.barLoc h a with
  | .error c => .error c
  | .ok key => if s.poisoned key 16 then .error .ecc else .ok key

/-- BAR_INIT (R192): it overwrites what stood there, and waits while the row is under test (R388). -/
def execBarInit (a b : Reg) (s : State) : Out :=
  let n := (s.get b).toNat
  if n = 0 ∨ 2 ^ 31 < n then .next (s.trap .illegal ((encode (.barInit a b)).setWidth 64))
  else match s.barLoc s.hart (s.get a) with
    | .error c => .next (s.trap c (s.get a))
    | .ok key =>
      if s.deadAt key 16 then .next (s.trap .ecc (s.get a))
      else if s.bankTest key then .next (s.waitFor .memory)
      else .next ((s.putNat key 16 ({ exp := n, left := n, tx := 0, p := false, broken := false } : Bar).bits).noteWrite
        (lineOf key)).advance

/-- An arrival at a barrier (R192): x[D] and the state after. -/
def State.arrive (s : State) (key n : Nat) : Word × State :=
  let b := s.barAt key
  if b.broken then (2, s)
  else if b.left = 0 || !inS32 (b.tx + n) then (2, s.breakBar key)
  else (BitVec.ofNat 64 b.p.toNat, s.putBar key { b with tx := b.tx + n, left := b.left - 1 })

/-- BAR_ARRIVE (R192): `fence.rel.clu`, then the arrival. -/
def execBarArrive (d a b : Reg) (s : State) : Out :=
  let n := (s.get b).toNat
  if 2 ^ 31 ≤ n then .next (s.trap .illegal ((encode (.barArrive d a b)).setWidth 64))
  else match s.barOpen s.hart (s.get a) with
    | .error c => .next (s.trap c (s.get a))
    | .ok key =>
      if s.bankTest key then .next (s.waitFor .memory)
      else match s.release .clu false with
      | .error w => .next (s.waitFor w)
      | .ok t => let (v, u) := t.arrive key n; u.result d v

/-- A barrier wait that has ended: `fence.acq.clu`, x[D], and BRK when the barrier broke (R192). -/
def State.barDone (s : State) (d : Reg) (key : Nat) (broken : Bool) : Out :=
  if !s.hart.vectorDone then .next (s.waitFor (.barrier key (some broken)))
  else
    let t := s.acquire .clu false
    (if broken then t.onHart (·.setSticky stickyBrk) else t).result d (BitVec.ofNat 64 broken.toNat)

/-- BAR_WAIT (R192). -/
def execBarWait (d a b : Reg) (s : State) : Out :=
  match s.hart.wait with
  | some (.barrier key (some r)) => s.barDone d key r
  | w =>
    match s.barOpen s.hart (s.get a) with
    | .error c => .next (s.trap c (s.get a))
    | .ok key =>
      if s.bankTest key then .next (s.waitFor (match w with | some x => x | none => .memory)) else
      let begun := match w with | some (.barrier _ _) => true | _ => false
      let o := s.barAt key
      let t := if !begun && o.left == 0 && o.tx == 0 && !o.broken then s.putBar key o else s
      let u := t.barAt key
      if u.p != (s.get b).getLsbD 0 then t.barDone d key false
      else if u.broken then t.barDone d key true
      else .next (t.waitFor (.barrier key none))

/-! ### Copy descriptors (R186, R187, R189) -/

/-- The fields of a descriptor. -/
def dSrc (d : BitVec 1024) : Nat := bytesAt d 0 8
def dDst (d : BitVec 1024) : Nat := bytesAt d 8 8
def dDim (d : BitVec 1024) : Nat := bytesAt d 16 1
def dElog (d : BitVec 1024) : Nat := bytesAt d 17 1
def dMask (d : BitVec 1024) : Nat := bytesAt d 18 1
def dCount (d : BitVec 1024) (j : Nat) : Nat := bytesAt d (24 + 4 * j) 4
def dSstr (d : BitVec 1024) (j : Nat) : Int := sextI (bytesAt d (48 + 4 * j) 4) 32
def dDstr (d : BitVec 1024) (j : Nat) : Int := sextI (bytesAt d (72 + 4 * j) 4) 32
def dStart (d : BitVec 1024) : Nat := bytesAt d 96 8
/-- The element size in bytes and the number of elements. -/
def dSize (d : BitVec 1024) : Nat := 2 ^ dElog d
def dTotal (d : BitVec 1024) : Nat := (upTo (dDim d)).foldl (fun n j => n * dCount d j) 1
/-- Elements from START on, and their bytes. -/
def dLen (d : BitVec 1024) : Nat := dTotal d - dStart d

/-- A multicast destination: a local address with WIN = 00 (R186). -/
def plainLocal (a : Nat) : Bool := decide (a / 2 ^ 61 = 4) && decide (bitsOf a 60 21 = 0)

/-- The fields keep R186. -/
def descOk (d : BitVec 1024) : Bool :=
  let n := dDim d
  let sz : Int := dSize d
  decide (1 ≤ n) && decide (n ≤ 6) && decide (dElog d ≤ 6) && decide (dMask d < 16) &&
  decide (bytesAt d 19 5 = 0) && decide (bytesAt d 104 24 = 0) &&
  (upTo 6).all (fun j =>
    (if j < n then decide (1 ≤ dCount d j) else decide (dCount d j = 0) && decide (dSstr d j = 0) && decide (dDstr d j = 0)) &&
    decide (dSstr d j % sz = 0) && decide (dDstr d j % sz = 0)) &&
  decide (dSrc d % dSize d = 0) && decide (dDst d % dSize d = 0) && (dMask d == 0 || plainLocal (dDst d))

/-- A guarded copy keeps R189; its START is a block boundary. -/
def guardOk (d : BitVec 1024) : Bool :=
  decide (dDim d = 1) && decide (dSstr d 0 = dSize d) && decide (dDstr d 0 = dSize d) &&
  decide (dSrc d % 4096 = 0) && decide (dDst d % 4096 = 0) && decide (dTotal d * dSize d % 4096 = 0) &&
  decide (dStart d * dSize d % 4096 = 0)

/-- The sum of index times stride, dimension by dimension (R186). -/
def strided (d : BitVec 1024) (str : Nat → Int) (i : Nat) : Int :=
  ((upTo (dDim d)).foldl (fun (p : Int × Nat) j => (p.1 + (p.2 % dCount d j : Nat) * str j, p.2 / dCount d j)) (0, i)).1

/-- An address and an offset, modulo 2^64. -/
def addrAt (base : Nat) (off : Int) : Nat := (((base : Int) + off) % (2 ^ 64 : Int)).toNat

/-- The address of the core at position `p` of the cluster (R28). -/
def windowAddr (p off : Nat) : Nat := 2 ^ 63 + 2 ^ 61 + p * 2 ^ 21 + off % 2 ^ 21

/-- The source and the destinations of element `i` (R186, R187). -/
def copySrc (d : BitVec 1024) (i : Nat) : Nat := addrAt (dSrc d) (strided d (dSstr d) i)
def copyDsts (d : BitVec 1024) (i : Nat) : List Nat :=
  let a := addrAt (dDst d) (strided d (dDstr d) i)
  if dMask d = 0 then [a] else ([0, 1, 2, 3].filter fun p => (dMask d).testBit p).map fun p => windowAddr p a

/-! ### Registration of the destination (R187, R301) -/

/-- The engine id of a core's runner (R291). -/
def runnerId (core : Nat) : Nat := 0x280 + clusterOf core

/-- The home words of element `i` of a copy's destination; none for a scratchpad, an uncached or remote page, or an address
without translation. -/
def State.copyWords (s : State) (c : Copy) (i : Nat) : Option (Nat × BitVec 16) :=
  if dMask c.desc ≠ 0 then none
  else match copyDsts c.desc i with
    | a :: _ =>
      match s.engineLoc c.core c.task c.part c.ctx a (dSize c.desc) .write with
      | .ok loc => if loc.kind == .cached then some (lineOf loc.key, wordMask loc.key (dSize c.desc)) else none
      | .error _ => none
    | [] => none

/-- The elements of a copy that are not delivered. -/
def Copy.rest (c : Copy) : List Nat := List.range' (dStart c.desc + c.done) (dLen c.desc - c.done)

/-- The words of a line that elements of a list cover. -/
def State.coverOf (s : State) (c : Copy) (els : List Nat) (line : Nat) : BitVec 16 :=
  els.foldl (fun m i => match s.copyWords c i with | some (l, w) => if l = line then m ||| w else m | none => m) 0

/-- The lines of a copy's destination, each once. -/
def State.copyLines (s : State) (c : Copy) : List Nat :=
  ((c.rest.filterMap (s.copyWords c)).map (·.1)).eraseDups

/-- Words of a line become registered to an engine (R296 EREG): a lost word stays lost; none while a word makes it wait, or there is
no room for the line's entry (R299, R300). -/
def State.eregLine (s : State) (e line : Nat) (m : BitVec 16) : Option State :=
  if s.lineWaits line m then none
  else (s.homeRoom line m (.engine e)).map fun r =>
    let t := (r.collect line).takeOwners line m
    let free := (t.homeAt line).select m (· == .unreg)
    (t.onHome line (·.setWords free (.engine e))).clearLinks line

/-- Every destination word of a copy is registered, or the copy waits (R187, R301). -/
def State.registerCopy (s : State) (c : Copy) : Option State :=
  (s.copyLines c).foldl (fun o line => o.bind fun t => t.eregLine (runnerId c.core) line (s.coverOf c c.rest line)) (some s)

/-- The copy with the words that it registers, as they translate now. -/
def State.withRegs (s : State) (c : Copy) : Copy := { c with regs := (s.copyLines c).map fun line => (line, s.coverOf c c.rest line) }

/-- The words of a line that the copy holds registered, or has asked for. -/
def Copy.held (c : Copy) (line : Nat) : BitVec 16 := ((c.regs.find? (·.1 == line)).map (·.2)).getD 0

/-- The copy has given up words of a line. -/
def Copy.without (c : Copy) (line : Nat) (m : BitVec 16) : Copy :=
  { c with regs := (updIf (·.1 == line) (fun r => (r.1, r.2 &&& ~~~m)) c.regs).filter fun r => r.2 != 0#16 }

/-- The registrations of the words that a copy still holds are dropped; the home values stand (R301). -/
def State.unregisterCopy (s : State) (c : Copy) : State :=
  c.regs.foldl (fun t r => t.onHome r.1 fun hl => hl.setWords (hl.select r.2 (· == .engine (runnerId c.core))) .unreg) s

/-! ### Issue (R187) -/

/-- The tokens of a hart in use. -/
def State.tokens (s : State) (h : Hart) : List Nat :=
  (s.eng.copies.filter fun c => c.hart == h.id && c.task == h.tk.task).map (·.token)

/-- The same copy: hart, task and token. -/
def Copy.same (c d : Copy) : Bool := c.hart == d.hart && c.task == d.task && c.token == d.token

/-- Replace a copy. -/
def State.putCopy (s : State) (c : Copy) : State :=
  { s with eng := { s.eng with copies := putFirst (·.same c) c s.eng.copies } }
/-- The copy of a hart's token. -/
def State.copyOf (s : State) (h : Hart) (token : Nat) : Option Copy :=
  s.eng.copies.find? fun c => c.hart == h.id && c.task == h.tk.task && c.token == token
/-- The copy that a device step names: its hart and 64 x task + token. -/
def State.copyAt (s : State) (h n : Nat) : Option Copy :=
  s.eng.copies.find? fun c => c.hart == h && c.task == n / 64 && c.token == n % 64

/-- A copy's part of its partition's guard table: the key of the stored state of a 4 KiB block (R358, R384). -/
def State.guardKey (s : State) (part key : Nat) : Option Nat :=
  match s.partAt part with
  | none => none
  | some p =>
    match p.guardTab with
    | none => none
    | some base =>
      let pa := key
      let blk := pa / 4096
      if inGib p.stacked pa then some (dramKey (base + 16 * (blk - p.stacked.1 * 2 ^ 18)))
      else if inGib p.lpddr pa then some (dramKey (base + 16 * (p.stacked.2 * 2 ^ 18 + blk - p.lpddr.1 * 2 ^ 18)))
      else none

/-- The bytes of a guard table that hold a V bit: the top byte of each stored state. -/
def vByte (parts : List Partition) (key : Nat) : Bool :=
  parts.any fun p => match p.guardTab with
    | none => false
    | some base => decide (dramKey base ≤ key) && decide (key < dramKey base + 16 * ((p.stacked.2 + p.lpddr.2) * 2 ^ 18)) && key % 16 == 15

/-- Clear V in every stored state of the guard tables of some partitions. -/
def State.clearV (s : State) (parts : List Partition) : State :=
  if s.sys.pads.isEmpty then
    { s with mem := s.mem.filterMap fun c =>
        if vByte parts c.1 then (if c.2 &&& 0x7F#8 = 0 then none else some (c.1, c.2 &&& 0x7F#8)) else some c }
  else parts.foldl (fun t p => match p.guardTab with
    | none => t
    | some base =>
      let clear := fun k b => if k % 16 = 15 then ((b ^^^ padOf t.sys.pads k) &&& 0x7F#8) ^^^ padOf t.sys.pads k else b
      { t with mem := Sparse.mapRange memDefault clear (dramKey base) (16 * ((p.stacked.2 + p.lpddr.2) * 2 ^ 18)) t.mem }) s

/-- Step 2 of the global pause: every stored state is marked V = 0 (R386). -/
def State.invalidateGuards (s : State) : State := s.clearV s.sys.parts

/-- A copy at a pre-emption request: it goes on when its remaining bytes fit in the budget of 1,575 cycles, else it is frozen (R190,
R333). -/
def freezeCopy (c : Copy) : Copy :=
  match c.state with
  | .running | .waiting => if (dLen c.desc - c.done) * dSize c.desc ≤ 64 * 1575 then c else { c with state := .frozen }
  | _ => c

/-- A copy whose words are registered begins, or is frozen when its task has been asked to stop meanwhile (R333). -/
def State.beginCopy (s : State) (c : Copy) : State :=
  s.putCopy (match s.taskAt c.task with | some t => if t.phase == .preempting then freezeCopy c else c | none => c)

/-- A copy begins once its words are registered: the version clock advances at a guarded issue, or the global pause begins (R386). A
guarded copy that has its version goes on with it. -/
def State.startCopy (s : State) (c : Copy) : State :=
  if s.eng.paused then s.beginCopy { c with state := .waiting }
  else if !c.guarded || c.version != 0 then s.beginCopy { c with state := .running }
  else if s.eng.clock = 2 ^ 48 - 1 then
    let t := s.beginCopy { c with state := .waiting }
    { t with eng := { t.eng with paused := true } }.invalidateGuards
  else
    let t := s.beginCopy { c with state := .running, version := s.eng.clock + 1 }
    { t with eng := { t.eng with clock := s.eng.clock + 1 } }

/-- The messages that register a copy's words, when transactions are cut (R293 EREG): `aux` names the copy. -/
def State.sendEregs (s : State) (c : Copy) : State :=
  (s.copyLines c).foldl (fun t line =>
    t.send (request .ereg (runnerId c.core) c.part line (s.coverOf c c.rest line) (64 * c.hart + c.token))) s

/-- The message asks for words of the copy. -/
def Copy.asks (c : Copy) (m : Msg) : Bool := m.kind == .ereg && m.aux == 64 * c.hart + c.token

/-- A registration message of the copy is on its way or waits at its home. -/
def State.eregPending (s : State) (c : Copy) : Bool :=
  s.underway c.asks

/-- Issue a copy whose descriptor is well-formed. -/
def State.issueCopy (s : State) (c : Copy) (d : Reg) : Out :=
  let tok := BitVec.ofNat 64 c.token
  let r := s.withRegs c
  if s.env.cut then .next ((s.putCopy { r with state := .registering }).sendEregs c |>.waitFor .memory)
  else match s.registerCopy c with
    | none => .next (s.waitFor .memory)
    | some t => (t.startCopy r).result d tok

/-- The work of the CP words that issue a copy (R187): the alignment of the descriptor, the barrier, the record, then the answers
-1 and -2. -/
def copyIssue (d a : Reg) (bar : Option Word) (ok : BitVec 1024 → Bool) (g f : Bool) (s : State) : Out :=
  let h := s.hart
  let da := s.get a
  match s.eng.copies.find? fun c => c.hart == h.id && c.task == h.tk.task && c.state == .registering with
  | some c =>
    if s.eregPending c then .next (s.waitFor .memory) else (s.startCopy c).result d (BitVec.ofNat 64 c.token)
  | none =>
    if da.toNat % 64 ≠ 0 then .next (s.trap .misalign da)
    else match (match bar with | some b => (s.barLoc h b).map (fun _ => ()) | none => .ok ()) with
      | .error c => .next (s.trap c (bar.getD 0))
      | .ok _ =>
        match s.loadRecord da.toNat 16 with
        | ((.wait w, _), t) => .next (t.waitFor w)
        | ((.fault c, x), t) => .next (t.trap c (BitVec.ofNat 64 x))
        | ((.val v, _), t) =>
          let desc := BitVec.ofNat 1024 v
          match (upTo 64).find? fun k => !(t.tokens h).any (· == k) with
          | none => t.result d (-1)
          | some k =>
            if !descOk desc || !ok desc || (g && !guardOk desc) then t.result d (-2)
            else if bar.isSome && decide (2 ^ 31 ≤ dLen desc * dSize desc) then t.result d (-2)
            else
              t.issueCopy { hart := h.id, token := k, core := h.core, task := h.tk.task, part := h.tk.part, ctx := h.tk.ctx, desc := desc
                            guarded := g, final := g && f, barrier := bar.map (·.toNat), done := 0, version := 0, fault := none
                            state := .running } d

/-- CP_ND (R187). -/
def execCpNd (d a : Reg) (g f : Bool) (s : State) : Out := copyIssue d a none (fun x => dMask x == 0) g f s
/-- CP_MC (R187). -/
def execCpMc (d a : Reg) (g f : Bool) (s : State) : Out := copyIssue d a none (fun x => dMask x != 0) g f s
/-- CP_BIND (R187, R192). -/
def execCpBind (d a b : Reg) (s : State) : Out := copyIssue d a (some (s.get b)) (fun _ => true) false false s

/-- CP_WAIT (R188, R287). -/
def execCpWait (d a : Reg) (s : State) : Out :=
  let h := s.hart
  match s.copyOf h (s.get a).toNat with
  | none => s.result d (-1)
  | some c =>
    match c.state with
    | .ended st =>
      let t := { s with eng := { s.eng with copies := s.eng.copies.filter fun x => !x.same c } }
      (if isLocal (dDst c.desc) then t else t.selfInvalidate h.core fun _ => true).result d st
    | _ => .next (s.waitFor .copy)

/-! ### Delivery (R188, R289, R296 EWR) -/

/-- The data of an engine's read for a copy (R296 RDV): a word registered to the copy itself gives its home value (R188). -/
def State.copyData (s : State) (c : Copy) (loc : Loc) (len : Nat) : Rd × State :=
  let line := lineOf loc.key
  let m := wordMask loc.key len
  match loc.kind with
  | .bank => (s.bankRead loc.key len, s)
  | .remote => (s.remoteReady loc len, s)
  | .uncached => s.uncachedRd c.core loc len
  | _ =>
    match s.fabricDown c.core line with
    | some r => (r, s)
    | none =>
      let hl := s.homeAt line
      let own := c.held line
      let others := hl.select (m &&& ~~~own) WState.isEngine
      if (hl.locked && own &&& m == 0#16) || !(hl.busy &&& m == 0#16) || !(others == 0#16) || s.underTest line || s.inFlight line m then
        (.wait .memory, s)
      else
        let t := s.readyHome line m
        (if t.lineLost line m then .fault .ownerLost else if t.poisoned loc.key len then .fault .ecc
          else .val (t.cohNat loc.key len), t)

/-- A read by an engine for a copy, GUARD last (R165). -/
def State.copyRead (s : State) (c : Copy) (loc : Loc) (len : Nat) : Rd × State :=
  match s.copyData c loc len with
  | (.val v, t) => (if t.guardPoisoned loc.key then .fault .guard else .val v, t)
  | r => r

/-- A write by engine `e` (R282 move 10, R296 EWR): its words of `drop` pass back to unregistered; a remote write enters its link
egress queue as `out` says. -/
def State.engineWrite (s : State) (e : Nat) (out : List (Nat × Byte) → EgressEntry) (loc : Loc) (len v : Nat) (drop : BitVec 16) :
    Option State :=
  let line := lineOf loc.key
  let m := wordMask loc.key len
  match loc.kind with
  | .bank => if s.bankTest loc.key then none else some ((s.putNat loc.key len v).noteWrite line)
  | .uncached => s.ctlWrite line (byteMask loc.key len) (BitVec.ofNat 512 (v * 2 ^ (8 * (loc.key % 64))))
  | .remote => some { s with coh := { s.coh with
      egress := s.coh.egress ++ [out ((natBytes len v).zipIdx.map fun x => (loc.key + x.2, x.1))] } }
  | _ =>
    let hl := s.homeAt line
    let mine := hl.select m (· == .engine e)
    if s.underTest line || !(hl.busy &&& m &&& ~~~mine == 0#16) || s.lineWaits line (m &&& ~~~mine) && m &&& ~~~mine ≠ 0#16 then none
    else
      let t := (s.collect line).takeOwners line (m &&& ~~~mine)
      some (((t.putNat loc.key len v).onHome line (·.setWords (mine &&& drop) .unreg)).noteWrite line)

/-- A write of a copy. -/
def State.copyWrite (s : State) (c : Copy) (a : Nat) (loc : Loc) (len v : Nat) (drop : BitVec 16) : Option State :=
  if (s.farDown c.core loc).isSome then none
  else s.engineWrite (runnerId c.core)
    (fun b => { module := loc.module, task := c.task, hart := c.hart, src := .copy c.token, va := a, bytes := b }) loc len v drop

/-- Writes of a copy are on their way to another module (R281, R287). -/
def State.copyFlying (s : State) (c : Copy) : Bool :=
  s.coh.egress.any fun e => e.task == c.task && e.hart == c.hart && e.src == .copy c.token

/-- What a copy does next. -/
inductive CopyNext where
  | idle
  | over
  | fault (code : Nat) (s : State)
  | deliver (atBank : Bool) (s : State)

/-- The lost words of an element's destination fault (R296 NAKL, R308). -/
def State.destLost (s : State) (loc : Loc) (len : Nat) : Bool :=
  loc.kind == .cached && s.lineLost (lineOf loc.key) (wordMask loc.key len)

/-- The places of an element's destinations, or the first fault. -/
def State.copyPlaces (s : State) (c : Copy) (len : Nat) : List Nat → Except Cause (List (Nat × Loc))
  | [] => .ok []
  | a :: r =>
    match s.engineLoc c.core c.task c.part c.ctx a len .write with
    | .error x => .error x
    | .ok loc =>
      if s.destLost loc len then .error .ownerLost
      else match s.storeRefused loc len, s.farDown c.core loc with
        | some x, _ => .error x
        | none, some (.fault x) => .error x
        | none, _ => (s.copyPlaces c len r).map ((a, loc) :: ·)

/-- Deliver `len` bytes at an element's address to every destination, dropping words that no later element covers. -/
def State.copyPut (s : State) (c : Copy) (later : List Nat) (len v : Nat) (places : List (Nat × Loc)) : Option State :=
  places.foldl (fun o p => o.bind fun t =>
    let line := lineOf p.2.key
    let keep := if p.2.kind == .cached then s.coverOf c later line else 0
    (t.copyWrite c p.1 p.2 len v (~~~keep)).map fun u => u.shadowWrite c.hart c.part p.2.key len) (some s)

/-- The copy once `len` bytes stand at their places: words that no later element covers are no longer registered (R296 EWR). -/
def State.written (s : State) (c : Copy) (later : List Nat) (len : Nat) (places : List (Nat × Loc)) : Copy :=
  places.foldl (fun d p => if p.2.kind == .cached then
    d.without (lineOf p.2.key) (wordMask p.2.key len &&& ~~~s.coverOf c later (lineOf p.2.key)) else d) c

/-- The copy has delivered so many more elements. -/
def Copy.wrote (c : Copy) (n : Nat) : Copy := { c with done := c.done + n }

/-- The next element of an unguarded copy (R188). -/
def State.nextElement (s : State) (c : Copy) : CopyNext :=
  let sz := dSize c.desc
  let i := dStart c.desc + c.done
  match s.engineLoc c.core c.task c.part c.ctx (copySrc c.desc i) sz .read with
  | .error x => .fault x.code s
  | .ok loc =>
    match s.copyPlaces c sz (copyDsts c.desc i) with
    | .error x => .fault x.code s
    | .ok places =>
      match s.copyRead c loc sz with
      | (.wait _, _) => .idle
      | (.fault x, t) => .fault x.code t
      | (.val v, t) =>
        match t.copyPut c (c.rest.drop 1) sz v places with
        | none => .idle
        | some u => .deliver (places.all (·.2.kind == .bank)) (u.putCopy ((s.written c (c.rest.drop 1) sz places).wrote 1))

/-! ### Guarded blocks (R189, R384, R385) -/

/-- CRC-32C: one bit, one byte, a list of bytes (R384). -/
def crcBit (x : Nat) : Nat := if x % 2 = 1 then (x / 2) ^^^ 0x82F63B78 else x / 2
def crcByte (c : Nat) (b : Byte) : Nat :=
  crcBit (crcBit (crcBit (crcBit (crcBit (crcBit (crcBit (crcBit (c ^^^ b.toNat))))))))
def crc32c (l : List Byte) : Nat := l.foldl crcByte 0xFFFFFFFF ^^^ 0xFFFFFFFF

/-- The lines of a 4 KiB block, read for a copy: its value. -/
def State.blockRead (s : State) (c : Copy) (a : Nat) : Nat → Nat → Rd × State
  | _, 0 => (.val 0, s)
  | i, n + 1 =>
    match s.engineLoc c.core c.task c.part c.ctx (a + 64 * i) 64 .read with
    | .error x => (.fault x, s)
    | .ok loc =>
      match s.copyRead c loc 64 with
      | (.val v, t) =>
        match t.blockRead c a (i + 1) n with
        | (.val w, u) => (.val (v + 2 ^ 512 * w), u)
        | r => r
      | r => r

/-- The stored state of a block of cached memory, 0 (V = 0) for any other block (R384). -/
def State.storedState (s : State) (part : Nat) (loc : Loc) : Nat :=
  if loc.kind == .cached then match s.guardKey part loc.key with | some k => s.memNat k 16 | none => 0 else 0

/-- The tag a block travels with (R385): its stored state when valid, or a fresh one. -/
def blockTag (stored a version crc : Nat) : Nat :=
  if stored / 2 ^ 127 = 1 then stored else 2 ^ 127 + bitsOf a 51 12 * 2 ^ 80 + version * 2 ^ 32 + crc

/-- A `.gfin` copy's check of a block fails (R385): V = 1, and the CRC or the version is wrong. -/
def tagBad (stored clock crc : Nat) : Bool :=
  decide (stored / 2 ^ 127 = 1) && (decide (stored % 2 ^ 32 ≠ crc) || decide (clock < bitsOf stored 79 32))

/-- The error record of a guard mismatch (R387): UNIT 12, KIND 2, the failing tag's ADDR and the low bits of its VERSION. -/
def guardRecord (s : State) (part pa stored : Nat) : BitVec 256 :=
  BitVec.ofNat 256 (s.env.cycle % 2 ^ 64 + pa % 2 ^ 64 * 2 ^ 64 + 12 * 2 ^ 128 + 2 * 2 ^ 160 + part * 2 ^ 176 +
    (bitsOf stored 119 80 + bitsOf stored 55 32 * 2 ^ 40) * 2 ^ 192)

/-- Poison a block, or clear its poison (R189). -/
def State.setGuardBad (s : State) (key : Nat) (bad : Bool) : State :=
  let l := s.coh.guardBad.filter (· != key / 4096)
  { s with coh := { s.coh with guardBad := if bad then (key / 4096) :: l else l } }

/-- Write the stored state of a destination block. -/
def State.putState (s : State) (part : Nat) (loc : Loc) (tag : Nat) : State :=
  if loc.kind == .cached then match s.guardKey part loc.key with | some k => s.putNat k 16 tag | none => s else s

/-- The 64 lines of a block delivered to its destinations. -/
def State.blockPut (s : State) (c : Copy) (later : List Nat) (v : Nat) (places : Nat → Except Cause (List (Nat × Loc))) :
    Nat → Nat → Option State
  | _, 0 => some s
  | i, n + 1 =>
    match places i with
    | .error _ => none
    | .ok l => (s.copyPut c later 64 (elemOf v 512 i) l).bind fun t => t.blockPut c later v places (i + 1) n

/-- The next block of a guarded copy (R189). Of one that fails its check no byte is written or counted, and its destination is poisoned (the
model's reading, log entry 177). -/
def State.nextBlock (s : State) (c : Copy) : CopyNext :=
  let per := 4096 / dSize c.desc
  let off := (dStart c.desc + c.done) * dSize c.desc
  let a := dSrc c.desc + off
  let dsts := fun i => (if dMask c.desc = 0 then [dDst c.desc + off + 64 * i]
    else ([0, 1, 2, 3].filter fun p => (dMask c.desc).testBit p).map fun p => windowAddr p (dDst c.desc + off + 64 * i))
  let places := fun i => s.copyPlaces c 64 (dsts i)
  match (upTo 64).findSome? fun i => match places i with | .error x => some x | .ok _ => none with
  | some x => .fault x.code s
  | none =>
    match s.blockRead c a 0 64 with
    | (.wait _, _) => .idle
    | (.fault x, t) => .fault x.code t
    | (.val v, t) =>
      let crc := crc32c (natBytes 4096 v)
      let stored := match s.engineLoc c.core c.task c.part c.ctx a 64 .read with | .ok loc => s.storedState c.part loc | .error _ => 0
      let firsts : List Loc := match places 0 with | .ok l => l.map (fun p => p.2) | .error _ => []
      if c.final && tagBad stored s.eng.clock crc then
        let src := match s.engineLoc c.core c.task c.part c.ctx a 64 .read with | .ok loc => loc.pa | .error _ => 0
        .fault Cause.guard.code (firsts.foldl (fun u l => u.setGuardBad l.key true) (t.logError (guardRecord s c.part src stored)))
      else match t.blockPut c (c.rest.drop per) v places 0 64 with
        | none => .idle
        | some u =>
          let tag := blockTag stored a c.version crc
          let w := firsts.foldl (fun z l => (z.putState c.part l tag).setGuardBad l.key false) u
          let d := (upTo 64).foldl (fun d i => match places i with | .ok l => s.written d (c.rest.drop per) 64 l | .error _ => d) c
          .deliver (firsts.all (·.kind == .bank)) (w.putCopy (d.wrote per))

/-- What a copy does next (R188, R386): nothing while it is not running or the runners are paused. -/
def State.copyNext (s : State) (c : Copy) : CopyNext :=
  match c.state with
  | .running =>
    if let some k := c.fault then .fault k s
    else if s.eng.paused then .idle
    else if dLen c.desc ≤ c.done then .over
    else if c.guarded then s.nextBlock c
    else s.nextElement c
  | _ => .idle

/-- A delivery to homes (EWR) or to banks (ENGINE_WRITE), if that is what the copy does next. -/
def State.deliver (s : State) (h token : Nat) (bank : Bool) : State :=
  match s.copyAt h token with
  | none => s
  | some c =>
    match s.copyNext c with
    | .deliver b t => if b == bank then t else s
    | _ => s

/-- EWR (R296): a copy writes its next element at the homes and drops the registration of its words. -/
def execEwr (h token : Nat) (s : State) : Out := .next (s.deliver h token false)
/-- ENGINE_WRITE (R282 move 10): a copy writes its next element into scratchpad banks. -/
def execEngineWrite (h token : Nat) (s : State) : Out := .next (s.deliver h token true)

/-- The status word of R188. -/
def copyStatus (c : Copy) (cause : Option Nat) : Word :=
  BitVec.ofNat 64 ((match cause with | some k => 2 ^ 63 + k * 2 ^ 48 | none => 0) + dSize c.desc * c.done % 2 ^ 48)

/-- The addresses of the barriers a copy is bound to: its own, or the offset in every destination scratchpad (R187). -/
def Copy.barAddrs (c : Copy) : List Nat :=
  match c.barrier with
  | none => []
  | some b => if dMask c.desc = 0 then [b] else ([0, 1, 2, 3].filter fun p => (dMask c.desc).testBit p).map fun p => windowAddr p b

/-- The keys of those barriers that the task holds; on a destination core where the offset is not allocated to the task there is none, and
nothing is credited or broken there (log entry 160). -/
def State.copyBars (s : State) (c : Copy) : List Nat :=
  c.barAddrs.filterMap fun a => match s.engineLoc c.core c.task c.part c.ctx a 16 .write with | .ok loc => some loc.key | .error _ => none

/-- A copy ends (R188, R192): with a fault it drops its words and breaks its barriers; otherwise it credits each, and a credit out
of range ends it with CAUSE 0xFF. -/
def State.endCopy (s : State) (c : Copy) (fault : Option Nat) : State :=
  let bars := s.copyBars c
  let bytes := dLen c.desc * dSize c.desc
  match fault with
  | some k =>
    (bars.foldl (fun u b => u.breakBar b) (s.unregisterCopy c)).putCopy
      { c with fault := some k, state := .ended (copyStatus c (some k)), regs := [] }
  | none =>
    let (ok, t) := bars.foldl (fun (p : Bool × State) b => let (o, u) := p.2.credit b bytes; (p.1 && o, u)) (true, s.unregisterCopy c)
    let cause := if ok then none else some 0xFF
    t.putCopy { c with fault := cause, state := .ended (copyStatus c cause), regs := [] }

/-- COPY_END (R188, R287): enabled once every element is delivered or the next one faults, and the writes to other modules have
performed. -/
def execCopyEnd (h token : Nat) (s : State) : Out :=
  match s.copyAt h token with
  | none => .next s
  | some c =>
    if s.copyFlying c then .next s
    else match s.copyNext c with
    | .over => .next (s.endCopy c none)
    | .fault k t => .next (t.endCopy c (some k))
    | _ => .next s

/-- The clock and the waiting copies after a global pause: the waiting guarded issues take versions 1, 2, … in turn (R386). -/
def afterPause (clock : Nat) : List Copy → Nat × List Copy
  | [] => (clock, [])
  | c :: r =>
    match c.state with
    | .waiting =>
      let new := c.guarded && c.version == 0
      let v := if new then clock + 1 else clock
      let (n, l) := afterPause v r
      (n, { c with state := .running, version := if new then v else c.version } :: l)
    | _ => let (n, l) := afterPause clock r; (n, c :: l)

/-- GLOBAL_PAUSE_END (R386). -/
def execGlobalPauseEnd (s : State) : Out :=
  if !s.eng.paused then .next s
  else
    let (n, l) := afterPause 0 s.eng.copies
    .next { s with eng := { s.eng with paused := false, clock := n, copies := l } }

end Sys2Proof.Machine
end

