-- ==== Sys2Proof/Machine/System.lean ====
section
/-! DEFINITION. Traps and returns (R124), `wfe` (R126) and the system registers (R27, R127, R207, R259). `halt` stands with the
hart instructions. -/
namespace Sys2Proof.Machine

/-- TRAP: SYSCALL with the code in TVAL (R124). -/
def execTrap (c : BitVec 7) (s : State) : Out := .next (s.trap .syscall (c.setWidth 64))

/-- A loop of the handler still runs while another is set aside: there is one loop buffer (R197; log entry 136). -/
def VStream.loopsClash (v : VStream) : Bool :=
  v.parkedLoop.isSome && (match v.loop with | some l => !l.filling | none => false)

/-- ERET (R23, R24, R124): ILLEGAL outside a handler; MISALIGN when the target is not a multiple of 4 (R58). -/
def execEret (s : State) : Out :=
  let h := s.hart
  let t := if h.parkedBit then h.tr.tnpc else h.tr.tpc
  if !h.inHandler then .next (s.trap .illegal ((encode .eret).setWidth 64))
  else if t.toNat % 4 ≠ 0 then .next (s.trap .misalign t)
  else if h.vs.loopsClash then .next (s.waitFor .vector)
  else .next { s with hart := returnFromTrap h }

/-- BRK: BREAK, or a stop for `fettle` under debug (R124). -/
def execBrk (s : State) : Out :=
  if s.hart.debug then .next (s.onHart fun h => { h with status := .debugStop })
  else .next (s.trap .brk 0)

/-! ### wfe -/

/-- The monitor of a hart. -/
def State.monitorOf (s : State) (who : Nat) : Option Monitor := s.coh.monitors.find? (·.who == who)
/-- Drop it. -/
def State.unmonitor (s : State) (who : Nat) : State :=
  { s with coh := { s.coh with monitors := s.coh.monitors.filter fun m => m.who != who } }
/-- Set it on a line. -/
def State.monitor (s : State) (who line : Nat) : State :=
  let t := s.unmonitor who
  { t with coh := { t.coh with monitors := { who := who, line := line, hit := false } :: t.coh.monitors } }

/-- A hart's `wfe` ends with a value in x[d] (R126). -/
def endWfe (d : Reg) (v : Word) (h : Hart) : Hart := (h.set d v).goto (h.pc + 4) .other

/-- The line a scalar address lies in, at its ordering point. -/
def State.lineOfVa (s : State) (h : Hart) (a : Nat) : Nat :=
  match s.scalarLoc h a 8 .read with
  | .ok loc => lineOf loc.key
  | .error _ => 0

/-- WFE (R126): an 8-byte load; while it equals x[B] the hart waits for a write to the line. -/
def execWfe (d a b : Reg) (s : State) : Out :=
  let h := s.hart
  match h.wait with
  | some (.wfe _) =>
    if ((s.monitorOf h.id).map (·.hit)).getD false then .next ((s.unmonitor h.id).onHart (endWfe d 0)) else .next s
  | _ =>
    let addr := s.get a
    match s.scalarLoad addr.toNat 8 with
    | (.wait w, t) => .next (t.waitFor w)
    | (.fault c, t) => .next (t.trap c addr)
    | (.val v, t) =>
      if BitVec.ofNat 64 v = s.get b then
        .next ((t.monitor h.id (t.lineOfVa h addr.toNat)).waitFor (.wfe d))
      else t.result d 0

/-- WFE_WAKE: a write to the line has been applied (R126). -/
def execWfeWake (h : Nat) (s : State) : Out :=
  match s.hartAt h with
  | some g =>
    match g.wait with
    | some (.wfe d) =>
      if ((s.monitorOf h).map (·.hit)).getD false then .next ((s.unmonitor h).onHartAt h (endWfe d 0)) else .next s
    | _ => .next s
  | none => .next s

/-- WFE_TIMEOUT: 65,536 cycles without a write (R126). -/
def execWfeTimeout (h : Nat) (s : State) : Out :=
  match s.hartAt h with
  | some g =>
    match g.wait with
    | some (.wfe d) =>
      if ((s.monitorOf h).map (·.hit)).getD false then .next s else .next ((s.unmonitor h).onHartAt h (endWfe d 1))
    | _ => .next s
  | none => .next s

/-! ### System registers -/

/-- TASKH (R259). -/
def TaskRegs.taskh (t : TaskRegs) : Word :=
  BitVec.ofNat 64 (t.index % 2 ^ 13 + t.isChild.toNat * 2 ^ 15 + t.count % 2 ^ 13 * 2 ^ 16)

/-- QHELD (R26). -/
def Quads.word (q : Quads) : Word := BitVec.ofNat 64 (q.count % 16 + q.first % 8 * 16)

/-- The register a number names, as read (R27, R207, R259); none for a number absent from the tables. -/
def Hart.sysreg (h : Hart) (n : Nat) : Option Word :=
  match n with
  | 0x000 => some h.vr.vtype
  | 0x001 => some (BitVec.ofNat 64 h.vr.vl)
  | 0x002 => some h.quads.word
  | 0x010 => some (h.fl.flags.setWidth 64)
  | 0x040 => some h.tr.tvec
  | 0x041 => some h.tr.tcause
  | 0x042 => some h.tr.tval
  | 0x043 => some h.tr.tpc
  | 0x044 => some h.tr.eri
  | 0x045 => some h.tr.tnpc
  | 0x050 => some (h.tk.share.setWidth 64)
  | 0x051 => some h.tk.gmem
  | 0x052 => some (h.mgrant.setWidth 64)
  | 0x053 => some (BitVec.ofNat 64 (hartIdOf h.id))
  | 0x054 => some h.tk.taskh
  | 0x070 => some h.skipd
  | 0x071 => some h.mhb
  | 0x072 => some h.mhctl
  | n =>
    if 0x020 ≤ n ∧ n < 0x026 then some ((h.fl.eix.toList.getD (n - 0x020) 0).setWidth 64)
    else if 0x028 ≤ n ∧ n < 0x02E then some (h.fl.epc.toList.getD (n - 0x028) 0)
    else if 0x060 ≤ n ∧ n < 0x068 then some (h.f.toList.getD (n - 0x060) 0)
    else none

/-- The registers marked read only (R27, R259). -/
def sysregReadOnly (n : Nat) : Bool := [0x000, 0x001, 0x002, 0x051, 0x052, 0x053, 0x054].any (· == n)

/-- A write to SKIPD, none when it traps (R216). -/
def skipdWrite (old w : Word) : Option Word :=
  let n := w.toNat
  let mode := n % 4
  let delta := bitsOf n 15 8
  let dmin := Nat.min (bitsOf n 23 16) delta
  if n / 2 ^ 32 ≠ 0 ∨ bitsOf n 7 2 ≠ 0 ∨ mode = 3 then none
  else
    let cur := match mode with
      | 0 => 0
      | 1 => delta
      | _ => if old.toNat % 4 = 2 then Nat.max dmin (Nat.min delta (bitsOf old.toNat 31 24)) else delta
    some (BitVec.ofNat 64 (mode + delta * 2 ^ 8 + dmin * 2 ^ 16 + cur * 2 ^ 24))

/-- SHARE stores 1 for a write of 0 (R26). -/
def shareOf (w : Word) : BitVec 4 := if fld w 0 4 = 0 then 1 else fld w 0 4

/-- The write of a register that may be written; TCAUSE with PK = 0 discards the parked words (R24); none when the value makes it trap with ILLEGAL (R207, R216). -/
def Hart.putSysreg (h : Hart) (n : Nat) (w : Word) : Option Hart :=
  match n with
  | 0x010 => some { h with fl := writeFlags h.fl (w.setWidth 16) }
  | 0x040 => some { h with tr := { h.tr with tvec := w } }
  | 0x041 => some { h with
      tr := { h.tr with tcause := w }
      vs := { h.vs with parked := if w.getLsbD 62 then h.vs.parked else [] } }
  | 0x042 => some { h with tr := { h.tr with tval := w } }
  | 0x043 => some { h with tr := { h.tr with tpc := w } }
  | 0x044 => some { h with tr := { h.tr with eri := w } }
  | 0x045 => some { h with tr := { h.tr with tnpc := w } }
  | 0x050 => some { h with tk := { h.tk with share := shareOf w } }
  | 0x070 => (skipdWrite h.skipd w).map fun v => { h with skipd := v }
  | 0x071 => some { h with mhb := w }
  | 0x072 => if w.toNat < 4 then some { h with mhctl := w } else none
  | n =>
    if hx : 0x020 ≤ n ∧ n < 0x026 then
      some { h with fl := { h.fl with eix := Vector.set h.fl.eix (n - 0x020) (w.setWidth 16) (by omega) } }
    else if hx : 0x028 ≤ n ∧ n < 0x02E then
      some { h with fl := { h.fl with epc := Vector.set h.fl.epc (n - 0x028) w (by omega) } }
    else if hx : 0x060 ≤ n ∧ n < 0x068 then some { h with f := Vector.set h.f (n - 0x060) w (by omega) }
    else none

/-- The number of a system register: bits 11:7 in B or the H field, bits 6:0 in FN (R127). -/
def sysNumber (hi : BitVec 5) (lo : BitVec 7) : Nat := (hi ++ lo).toNat

/-- SYSGET (R127): a number absent from the tables traps with ILLEGAL (R27). -/
def execSysget (d h : Reg) (n : BitVec 7) (s : State) : Out :=
  match s.hart.sysreg (sysNumber h n) with
  | none => .next (s.trap .illegal ((encode (.sysget d h n)).setWidth 64))
  | some w => if !s.hart.vectorDone then .next (s.waitFor .vector) else s.result d w

/-- SYSPUT (R127): an absent or read-only register traps with ILLEGAL (R27). -/
def execSysput (a h : Reg) (n : BitVec 7) (s : State) : Out :=
  let num := sysNumber h n
  let bad := s.trap .illegal ((encode (.sysput a h n)).setWidth 64)
  if (s.hart.sysreg num).isNone || sysregReadOnly num then .next bad
  else if !s.hart.vectorDone then .next (s.waitFor .vector)
  else match s.hart.putSysreg num (s.get a) with
    | none => .next bad
    | some g => .next { s with hart := g }.advance

end Sys2Proof.Machine
end

