-- ==== Sys2Proof/Machine/Harts.lean ====
section
/-! DEFINITION. The hart instructions `fork`, `join`, `vrelease`, `vacquire`, `gbar` and `yield` (R131 to R136, R138), `halt`
(R125), the quad pools (R260), the groups (R261, R262), and the device steps that grant quads and end a `yield`. -/
namespace Sys2Proof.Machine

/-! ### Quads -/

/-- The quads of a block, one bit each. -/
def Quads.mask (q : Quads) : BitVec 8 := BitVec.ofNat 8 ((2 ^ q.count - 1) * 2 ^ q.first)

/-- A hart stands in the slot. -/
def Hart.present (h : Hart) : Bool := h.status != .empty

/-- The harts of a core. -/
def State.hartsOn (s : State) (core : Nat) : List Hart := s.harts.filter fun h => h.present && h.core == core

/-- Quads of a core that no hart holds, no other task's reserve holds, and that are in service: the free pool of a task's
harts (R260). -/
def State.pool (s : State) (task core : Nat) : BitVec 8 :=
  let held := (s.hartsOn core).foldl (fun m h => m ||| h.quads.mask) 0
  let kept := s.places.foldl (fun m p => if p.core == core && p.task != task then m ||| p.reserve else m) 0
  ~~~(held ||| kept ||| (s.coreAt core).outQuads)

/-- The lowest free aligned block of `n` quads (log entry 12). -/
def blockIn (pool : BitVec 8) (n : Nat) : Option Quads :=
  if n = 0 then none
  else ((upTo (8 / n)).find? fun j => let m := (Quads.mask ⟨n, n * j⟩); pool &&& m == m).map fun j => ⟨n, n * j⟩

/-- Quads enter the task's reserve on the core (R260). -/
def State.toReserve (s : State) (task core : Nat) (q : Quads) : State :=
  s.onPlace task core fun p => { p with reserve := p.reserve ||| q.mask }

/-- The hart's holding changes: a `vsetl` or `vsett` is awaited (R8), and its window is discarded (R180). -/
def Hart.hold (h : Hart) (q : Quads) : Hart :=
  { h with quads := q, vr := { h.vr with pending := true }, win := none }

/-! ### Groups (R261, R262) -/

/-- Complete every phase at which every member has arrived or halted (R262). -/
def completeGroups (t : Task) : Task :=
  { t with groups := t.groups.map fun g =>
      if !g.arrived.isEmpty && g.members.all (fun m => g.arrived.any (· == m) || t.halted.any (· == m)) then
        { g with phase := g.phase + 1, arrived := [] }
      else g }

/-- A hart arrives at a group (R136). -/
def arriveAt (g index : Nat) (t : Task) : Task :=
  completeGroups { t with groups := updIf (·.num == g) (fun r => { r with arrived := index :: r.arrived }) t.groups }

/-- The phase of a group. -/
def Task.phaseOf (t : Task) (g : Nat) : Nat := ((t.groups.find? (·.num == g)).map (·.phase)).getD 0

/-- GMEM names the group (R26). -/
def inGroup (gmem : Word) (g : Nat) : Bool :=
  (upTo 4).any fun i => let e := bitsOf gmem.toNat (16 * i + 15) (16 * i); e / 2 ^ 15 == 1 && e % 256 == g

/-! ### Ending a hart -/

/-- The hart's slot is empty. -/
def State.clearSlot (s : State) (id : Nat) : State :=
  if s.hart.id = id then { s with hart := Hart.empty id } else { s with others := s.others.filter fun h => h.id != id }

/-- The last hart of the task on the core is gone: its reserve returns to the core (R260). -/
def State.dropReserve (s : State) (task core : Nat) : State :=
  if (s.hartsOn core).any (·.tk.task == task) then s
  else s.onPlace task core fun p => { p with reserve := 0 }

/-- The slots a hart claimed are released (R125, R204). -/
def State.dropClaims (s : State) (h : Hart) : State :=
  s.onPlace h.tk.task h.core fun p => { p with claims := p.claims.filter fun c => c.2 != h.id }

/-- A hart that joined for a parent that has gone: its quads return and its slot is freed (R125, R133). -/
def State.freeJoined (s : State) (h : Hart) (c : Child) : State :=
  let id := 8 * h.core + c.slot
  match s.hartAt id with
  | some g => if c.joined.isSome then (s.toReserve h.tk.task h.core g.quads).clearSlot id
              else s.onHartAt id fun k => { k with tk := { k.tk with parent := none } }
  | none => s

/-- The number under which a combine buffer's copy keeps a hart of a saved task as one that modified it (R306). -/
def savedId (task id : Nat) : Nat := 2 ^ 20 * (task + 1) + id

/-- The number under which it keeps a hart that has ended (R306, R328). -/
def goneId (task id : Nat) : Nat := savedId task (2 ^ 15 + id)

/-- The harts that modified combine buffers' copies take other numbers. -/
def State.renameMods (s : State) (f : Nat → Nat) : State :=
  { s with coh := { s.coh with comb := s.coh.comb.map fun b => { b with mods := b.mods.map f } } }

/-- A hart's slot is given up: what it modified in combine buffers stays its task's. -/
def State.leaveMods (s : State) (h : Hart) : State := s.renameMods fun m => if m = h.id then goneId h.tk.task m else m

/-- A hart ends (R125): attachment, claims, quads, queue entries and slot; its joined children are freed and its live ones go
on; it counts as arrived at its groups' later phases (R136). -/
def State.endHart (s : State) (h : Hart) : State :=
  let core := h.core
  let t1 := h.tk.children.foldl (fun t c => t.freeJoined h c) (((s.leaveMods h).dropClaims h).toReserve h.tk.task core h.quads)
  let t2 := match h.tk.parent with
    | some p => t1.onHartAt p fun g => { g with tk := { g.tk with children := g.tk.children.filter fun c => c.slot != h.slot } }
    | none => t1
  let t3 := t2.onTask h.tk.task fun t =>
    if h.tk.isChild then t else completeGroups { t with halted := h.tk.index :: t.halted }
  let t4 := (t3.clearSlot h.id).onCore core fun c => { c with reserved := if c.reserved = some h.id then none else c.reserved }
  { t4 with
    coh := { t4.coh with links := t4.coh.links.filter fun l => l.1 != h.id }
    eng := { t4.eng with copies := t4.eng.copies.filter fun c => !(c.hart == h.id && c.task == h.tk.task) || c.open } }.dropReserve h.tk.task core

/-- HALT (R125): the vector wait and a `fence.rel.dev.eng`, then the hart ends. -/
def execHalt (s : State) : Out :=
  match s.release .dev true with
  | .error w => .next (s.waitFor w)
  | .ok t => .next (t.endHart t.hart)

/-! ### fork and join -/

/-- The child that `fork` creates (R132). -/
def forkChild (h : Hart) (slot : Nat) (q : Quads) (entry copy : Word) (d : Reg) : Hart :=
  let e := Hart.empty (8 * h.core + slot)
  let c : Hart := { e with
    status := .running, pc := entry
    x := Vector.ofFn fun i : Fin 32 => if i.val ≠ 0 ∧ copy.getLsbD i.val then h.x.get i else 0
    f := h.f
    vr := { e.vr with vtype := h.vr.vtype, cbits := h.vr.cbits, pending := true }
    tr := { e.tr with tvec := h.tr.tvec }
    quads := q, debug := h.debug
    tk := { e.tk with task := h.tk.task, part := h.tk.part, ctx := h.tk.ctx, index := h.tk.index, count := h.tk.count
                      isChild := true, share := h.tk.share, parent := some h.id } }
  c.set d (BitVec.ofNat 64 (256 + h.slot))

/-- The lowest slot of a core that holds no hart (R132). -/
def State.freeSlot (s : State) (core : Nat) : Option Nat :=
  (upTo 8).find? fun i => (s.hartsOn core).all fun h => h.slot != i

/-- FORK (R132): the parent keeps the lower half of its block, the child takes the upper. -/
def execFork (d a b : Reg) (s : State) : Out :=
  let h := s.hart
  if !h.vectorDone then .next (s.waitFor .vector)
  else match s.freeSlot h.core with
    | none => s.result d (-1)
    | some k =>
      let n := h.quads.count
      let q : Quads := if 2 ≤ n then ⟨n / 2, h.quads.first + n / 2⟩ else ⟨0, 0⟩
      let child := forkChild h k q (s.get a) (s.get b) d
      let t : State := { s with
        hart := { (if 2 ≤ n then h.hold ⟨n / 2, h.quads.first⟩ else h) with
          tk := { h.tk with children := h.tk.children ++ [{ slot := k, qFirst := q.first, qCount := q.count, joined := none, halted := false }] } }
        others := child :: s.others.filter fun g => g.id != child.id }
      t.result d (BitVec.ofNat 64 k)

/-- The child hands over its value and keeps its quads and slot for its parent (R133). -/
def State.joinChild (s : State) (v : Word) : State :=
  let h := s.hart
  match h.tk.parent with
  | none => s.endHart h
  | some p =>
    let t := (s.leaveMods h).dropClaims h
    let e := Hart.empty h.id
    { t with
      hart := { e with status := .joined, quads := h.quads, tk := h.tk }
      coh := { t.coh with links := t.coh.links.filter fun l => l.1 != h.id }
      eng := { t.eng with copies := t.eng.copies.filter fun c => !(c.hart == h.id && c.task == h.tk.task) || c.open } }.onHartAt p fun g =>
        { g with tk := { g.tk with children := updIf (·.slot == h.slot) (fun c => { c with joined := some v }) g.tk.children } }

/-- The parent collects a joined child (R133): the blocks merge, or the held quads return to the pool. -/
def State.collectChild (s : State) (c : Child) : State :=
  let h := s.hart
  let id := 8 * h.core + c.slot
  let held := ((s.hartAt id).map (·.quads)).getD ⟨0, 0⟩
  let t := (s.clearSlot id).onHart fun g => { g with tk := { g.tk with children := g.tk.children.filter fun k => k.slot != c.slot } }
  if 0 < c.qCount ∧ held = ⟨c.qCount, c.qFirst⟩ ∧ h.quads = ⟨c.qCount, c.qFirst - c.qCount⟩ then
    t.onHart fun g => g.hold ⟨2 * c.qCount, h.quads.first⟩
  else t.toReserve h.tk.task h.core held

/-- JOIN (R133): the child role for x[A] = -1, the parent role for a live child's slot, else -1. -/
def execJoin (d a b : Reg) (s : State) : Out :=
  let h := s.hart
  let v := s.get a
  if v = -1 then
    if !h.tk.isChild then s.result d (-1)
    else if !h.tk.children.isEmpty then .next (s.trap .illegal ((encode (.join d a b)).setWidth 64))
    else match s.release .core true with
      | .error w => .next (s.waitFor w)
      | .ok t => .next (t.joinChild (s.get b))
  else match h.tk.children.find? (fun c => c.slot == v.toNat) with
    | none => s.result d (-1)
    | some c =>
      match c.joined with
      | none => .next (s.waitFor (.join c.slot))
      | some w => if !h.vectorDone then .next (s.waitFor .vector) else ((s.acquire .core false).collectChild c).result d w

/-! ### vrelease, vacquire -/

/-- VRELEASE (R134). -/
def execVrelease (s : State) : Out :=
  let h := s.hart
  if !h.vectorDone then .next (s.waitFor .vector)
  else if h.quads.count = 0 then .next s.advance
  else
    let t := s.toReserve h.tk.task h.core h.quads
    .next (t.onHart fun g =>
      let k := g.hold ⟨0, 0⟩
      { k with
        mgrant := 0
        vr := { k.vr with vl := 0 }
        q := Vector.ofFn fun i : Fin 8 => if i.val < 4 then [] else g.q.get i }).advance

/-- The `vacquire` waiters of a core: quads wanted, virtual time, hart, in the order of service (R135). -/
def State.waiters (s : State) (core : Nat) : List (Nat × Hart) :=
  sortBy (fun p q => decide (p.2.sc.qtime < q.2.sc.qtime) || (p.2.sc.qtime == q.2.sc.qtime && decide (p.2.slot < q.2.slot)))
    ((s.hartsOn core).filterMap fun h => match h.wait with | some (.vacquire _ n _) => some (n, h) | _ => none)

/-- The block a waiter is granted now (R135, R260): freed quads are held for the hart that has waited 4,096 cycles, and no
waiter ahead of it can be served. -/
def State.grantFor (s : State) (h : Hart) (n : Nat) : Option Quads :=
  let r := (s.coreAt h.core).reserved
  let ahead := (s.waiters h.core).takeWhile fun p => p.2.id != h.id
  if r.isSome && r != some h.id then none
  else if ahead.any (fun p => (blockIn (s.pool p.2.tk.task h.core) p.1).isSome) then none
  else blockIn (s.pool h.tk.task h.core) n

/-- A grant (R135). -/
def State.grant (s : State) (h : Hart) (d : Reg) (q : Quads) : State :=
  let t := (s.onPlace h.tk.task h.core fun p => { p with reserve := p.reserve &&& ~~~q.mask }).onCore h.core fun c =>
    { c with reserved := if c.reserved = some h.id then none else c.reserved }
  t.onHartAt h.id fun g =>
    let k := (g.hold q).set d (BitVec.ofNat 64 q.count)
    { k with sc := { k.sc with qtime := k.sc.qtime + 1024 * q.count / k.tk.share.toNat } }.goto (k.pc + 4) .other

/-- Grant a waiting hart its block, if it can be served now. -/
def State.tryGrant (s : State) (id : Nat) : State :=
  match s.hartAt id with
  | some h =>
    match h.wait with
    | some (.vacquire d n _) => (match s.grantFor h n with | some q => s.grant h d q | none => s)
    | _ => s
  | none => s

/-- VACQUIRE (R135). -/
def execVacquire (d a : Reg) (s : State) : Out :=
  let h := s.hart
  let n := (s.get a).toNat
  if h.quads.count ≠ 0 then s.result d (BitVec.ofNat 64 h.quads.count)
  else if !(n == 1 || n == 2 || n == 4 || n == 8) then s.result d 0
  else
    let t := match h.wait with
      | some (.vacquire _ _ _) => s
      | _ => s.waitFor (.vacquire d n s.env.cycle)
    .next (t.tryGrant h.id)

/-- VACQUIRE_GRANT (R135). -/
def execVacquireGrant (h : Nat) (s : State) : Out := .next (s.tryGrant h)

/-- QUAD_RESERVATION_TIMEOUT: the first waiter has waited 4,096 cycles; freed quads are held for it (R135). -/
def execQuadReservationTimeout (core : Nat) (s : State) : Out :=
  match s.waiters core with
  | [] => .next s
  | (_, h) :: _ => .next (s.onCore core fun c => { c with reserved := if c.reserved.isSome then c.reserved else some h.id })

/-! ### gbar, yield -/

/-- GBAR (R136, R139): 1 for a group not in GMEM; else release, arrive once, wait for the phase, acquire, 0. -/
def execGbar (d a : Reg) (s : State) : Out :=
  let h := s.hart
  let g := (s.get a).toNat % 256
  let phase := ((s.taskAt h.tk.task).map (·.phaseOf g)).getD 0
  if !inGroup h.tk.gmem g then s.result d 1
  else match h.tk.arrived with
    | some (g', p) =>
      if g' = g ∧ p ≠ phase then
        ((s.acquire .dev false).onHart fun k => { k with tk := { k.tk with arrived := none } }).result d 0
      else .next (s.waitFor (.gbar g))
    | none =>
      match s.release .dev false with
      | .error w => .next (s.waitFor w)
      | .ok t =>
        let u := (t.onHart fun k => { k with tk := { k.tk with arrived := some (g, phase) } }).onTask h.tk.task (arriveAt g h.tk.index)
        if ((u.taskAt h.tk.task).map (·.phaseOf g)).getD 0 ≠ phase then
          ((u.acquire .dev false).onHart fun k => { k with tk := { k.tk with arrived := none } }).result d 0
        else .next (u.waitFor (.gbar g))

/-- A hart that is ready (R269), as the last cycle of its core's arbiter found it. -/
def Hart.ready (h : Hart) : Bool := h.status == .running && h.sc.ready

/-- YIELD (R138): every other ready hart of the core has one opportunity first; those that the hart still holds are given up. -/
def execYield (s : State) : Out :=
  let h := s.hart
  let rest := ((s.hartsOn h.core).filter fun g => g.ready && g.id != h.id).map (·.id)
  let t := s.advance.onHart fun g => { g with sc := { g.sc with yielded := rest, yieldLeft := 16 } }
  .next { t with env := { t.env with opps := t.env.opps.filter (· != h.id) } }

/-- YIELD_EXPIRY: sixteen cycles have passed (R138). -/
def execYieldExpiry (h : Nat) (s : State) : Out :=
  .next (s.onHartAt h fun g => { g with sc := { g.sc with yielded := [], yieldLeft := 0 } })

end Sys2Proof.Machine
end

