-- ==== Sys2Proof/Machine/Streams.lean ====
section
/-! DEFINITION. Stream registers (R193 to R196) and the loop buffer (R197). -/
namespace Sys2Proof.Machine

/-! ### The parameter block (R193) -/

def zMode (b : BitVec 1024) : Nat := bytesAt b 0 1
def zDim (b : BitVec 1024) : Nat := bytesAt b 1 1
def zEtype (b : BitVec 1024) : Nat := bytesAt b 2 1
def zOp (b : BitVec 1024) (i : Nat) : Bool := (bytesAt b 3 1).testBit i
/-- DEC, CVT, HDR, GATHER, GUARD. -/
abbrev zDec (b : BitVec 1024) : Bool := zOp b 0
abbrev zCvt (b : BitVec 1024) : Bool := zOp b 1
abbrev zHdr (b : BitVec 1024) : Bool := zOp b 2
abbrev zGather (b : BitVec 1024) : Bool := zOp b 3
abbrev zGuard (b : BitVec 1024) : Bool := zOp b 4
def zCtype (b : BitVec 1024) : Nat := bytesAt b 4 1
def zBase (b : BitVec 1024) : Nat := bytesAt b 8 8
def zHb (b : BitVec 1024) : Nat := bytesAt b 16 8
def zIdx (b : BitVec 1024) : Nat := bytesAt b 24 8
def zCount (b : BitVec 1024) (j : Nat) : Nat := bytesAt b (32 + 4 * j) 4
def zStride (b : BitVec 1024) (j : Nat) : Int := sextI (bytesAt b (56 + 8 * j) 8) 64

/-- A target code of R71. -/
def codeOk (c : Nat) : Bool := decide (c ≤ 12) || (decide (16 ≤ c) && decide (c ≤ 19))
/-- The conversion of a stream changes the size by at most four times (R51); a slot's size is known only at the read, which checks
it there (check 3). -/
def ratioOk (e c : Nat) : Bool := decide (16 ≤ e) || decide (16 ≤ c) || sizesOk 0 e c

/-- A block is well-formed (R193). Header scaling needs a blocked element type (R42), and a paged stream takes neither DEC nor
GATHER (R194). -/
def zBlockOk (b : BitVec 1024) : Bool :=
  let affine := zMode b == 0
  codeOk (zEtype b) && (!zCvt b || (codeOk (zCtype b) && ratioOk (zEtype b) (zCtype b))) &&
  decide (bytesAt b 3 1 < 32) && decide (bytesAt b 5 3 = 0) && decide (bytesAt b 104 24 = 0) &&
  (!zHdr b || decide (16 ≤ zEtype b)) &&
  (if affine then decide (1 ≤ zDim b) && decide (zDim b ≤ 6)
   else
    zMode b == 1 && decide (zDim b = 0) && !zDec b && !zGather b && decide (1 ≤ zCount b 0) && decide (1 ≤ zCount b 3) &&
    decide (zCount b 3 ≤ 65536) && decide (zCount b 4 = 0) && decide (zCount b 5 = 0) && decide (bytesAt b 56 48 = 0))

/-- The positions of a stream; none for a paged one, which has no end (R194). -/
def zLength (b : BitVec 1024) : Option Nat :=
  if zMode b = 1 then none
  else if zDec b then some (zCount b 0)
  else some ((upTo (zDim b)).foldl (fun n j => n * zCount b j) 1)

/-- The offset of position `p` of an affine stream (R194). -/
def zOffset (b : BitVec 1024) (p : Nat) : Int :=
  ((upTo (zDim b)).foldl (fun (x : Int × Nat) j => (x.1 + (x.2 % zCount b j : Nat) * zStride b j, x.2 / zCount b j)) (0, p)).1

/-! ### Binding, saving (R195) -/

/-- A word of the family on a hart without quads (R9). -/
def noQuads (s : State) : Bool := s.hart.quads.count == 0

/-- Bind a stream register. -/
def Hart.bindZ (h : Hart) (r : Reg) (z : ZReg) : Hart := { h with z := Vector.set h.z (r.toNat % 8) (some z) (by omega) }
def Hart.zreg (h : Hart) (n : Nat) : Option ZReg := h.z.get ⟨n % 8, by omega⟩

/-- The records of `zbind` (16 units, aligned to 64) and `zrest` (17, aligned to 8). -/
def bindFrom (d a : Reg) (align units : Nat) (s : State) : Out :=
  let ad := s.get a
  if noQuads s then .next (s.trap .illegalType 0)
  else if ad.toNat % align ≠ 0 then .next (s.trap .misalign ad)
  else match s.loadRecord ad.toNat units with
    | ((.wait w, _), t) => .next (t.waitFor w)
    | ((.fault c, x), t) => .next (t.trap c (BitVec.ofNat 64 x))
    | ((.val v, _), t) =>
      let b := BitVec.ofNat 1024 v
      if !zBlockOk b then .next (t.trap .stream ad)
      else .next (t.onHart (·.bindZ d { block := b, progress := v / 2 ^ 1024 })).advance

/-- ZBIND (R195). -/
def execZbind (d a : Reg) (s : State) : Out := bindFrom d a 64 16 s
/-- ZREST (R195). -/
def execZrest (d a : Reg) (s : State) : Out := bindFrom d a 8 17 s

/-- A record of `n` 8-byte units stored by scalar stores, all or none. -/
def State.storeRecord (s : State) (a v : Nat) : Nat → (Rd × Nat) × State
  | 0 => ((.val 0, a), s)
  | n + 1 =>
    match s.storeRecord a v n with
    | ((.val _, _), t) =>
      match t.scalarStore (a + 8 * n) 8 (BitVec.ofNat 64 (v / 2 ^ (64 * n))) with
      | (r, u) => ((r, a + 8 * n), u)
    | r => r

/-- ZSAVE (R195): an unbound register traps with STREAM (R14). -/
def execZsave (d a : Reg) (s : State) : Out :=
  let ad := s.get a
  if noQuads s then .next (s.trap .illegalType 0)
  else match s.hart.zreg d.toNat with
    | none => .next (s.trap .stream ((encode (.zsave d a)).setWidth 64))
    | some z =>
      if ad.toNat % 8 ≠ 0 then .next (s.trap .misalign ad)
      else match s.storeRecord ad.toNat (z.block.toNat + 2 ^ 1024 * z.progress) 17 with
        | ((.wait w, _), _) => .next (s.waitFor w)
        | ((.fault c, x), _) => .next (s.trap c (BitVec.ofNat 64 x))
        | ((.val _, _), t) => .next t.advance

/-! ### Reading positions (R194, R196) -/

/-- An element of a stream: a wait, a fault with its address, or its bits with its header byte. -/
inductive ZElem where
  | wait (w : Wait)
  | fault (c : Cause) (tval : Word)
  | val (bits hdr : Nat)
  deriving DecidableEq, Repr

/-- The GUARD operator (R194): the 4 KiB block of a byte the stream reads is checked as a `.gfin` copy checks it; a bad block is
poisoned, and the check gives an error record (R385, R387). -/
def State.guardCheck (s : State) (h : Hart) (a : Nat) : Rd × State :=
  match s.vectorLoc h a 1 .read with
  | .error _ => (.val 0, s)
  | .ok loc =>
    let stored := s.storedState h.tk.part loc
    let lines := (upTo 64).map (loc.key / 4096 * 64 + ·)
    if stored / 2 ^ 127 ≠ 1 then (.val 0, s)
    else if lines.any fun l => s.lineWaits l 0xFFFF#16 then (.wait .memory, s)
    else
      let t := lines.foldl (fun t l => t.readyHome l 0xFFFF#16) s
      if tagBad stored t.eng.clock (crc32c (natBytes 4096 (t.cohNat (loc.key / 4096 * 4096) 4096))) then
        (.fault .guard, (t.setGuardBad loc.key true).logError (guardRecord t h.tk.part loc.pa stored))
      else (.val 0, t)

/-- A read of a stream: its block is checked with GUARD set (R194). -/
def State.zRead (s : State) (h : Hart) (b : BitVec 1024) (a len : Nat) : Rd × State :=
  match s.vecElem h a len false with
  | (.val v, t) =>
    match (if zGuard b then t.guardCheck h a else (.val 0, t)) with
    | (.val _, u) => (.val v, u)
    | r => r
  | r => r

/-- The 4 KiB blocks that `n` bytes at `a` touch are checked in turn, with GUARD set (R194): what stops the read, if anything. -/
def State.zGuarded (s : State) (h : Hart) (b : BitVec 1024) (a n : Nat) : Option ZRead × State :=
  if zGuard b then
    (upTo ((a + n - 1) / 4096 - a / 4096 + 1)).foldl (fun (r : Option ZRead × State) i =>
      let x := if i = 0 then a else (a / 4096 + i) * 4096
      if r.1.isSome then r
      else match r.2.guardCheck h x with
        | (.val _, u) => (none, u)
        | (.wait w, u) => (some (.wait w), u)
        | (.fault c, u) => (some (.fault c x), u)) (none, s)
  else (none, s)

/-- Expand blocks from `a` until `need` elements are there: the elements, and what stopped it (R174, R194). -/
def State.zUpTo (s : State) (h : Hart) (b : BitVec 1024) (ew a need : Nat) : Nat → (List Nat × ZRead) × State
  | 0 => (([], .stop), s)
  | n + 1 =>
    if need = 0 then (([], .stop), s)
    else match s.zBlock h ew a (2 ^ 16) (2 ^ 64) with
      | (.block k body, t) =>
        match t.zGuarded h b a k.size with
        | (some x, u) => (([], x), u)
        | (none, t) =>
          let ((l, r), u) := t.zUpTo h b ew (a + k.size) (need - k.count) n
          (((upTo k.count).map (zElem ew k body) ++ l, r), u)
      | (r, t) => (([], r), t)

/-- The byte and the bit in it at which container `i` of `bits` bits lies in an array at `base` (R43). -/
def containerAt (base i bits : Nat) : Nat × Nat := ((base + i * bits / 8) % 2 ^ 64, i * bits % 8)

/-- A data element of `bits` bits: the bytes at an address, from a bit on (R43). -/
def State.zData (s : State) (h : Hart) (b : BitVec 1024) (bits : Nat) (at_ : Nat × Nat) : ZElem × State :=
  match s.zRead h b at_.1 (max 1 (bits / 8)) with
  | (.wait w, t) => (.wait w, t)
  | (.fault c, t) => (.fault c (BitVec.ofNat 64 at_.1), t)
  | (.val v, t) => (.val (v / 2 ^ at_.2 % 2 ^ bits) 32, t)

/-- With HDR, the header byte of the block whose data contain `a` (R46, R194). -/
def State.zHeaderAt (s : State) (h : Hart) (b : BitVec 1024) (bits a v : Nat) : ZElem × State :=
  if !zHdr b then (.val v (64 * (zEtype b % 4) + 32), s)
  else
    let x := hdrAddr (zHb b) a (4 * bits)
    match s.zRead h b x 1 with
    | (.wait w, t) => (.wait w, t)
    | (.fault c, t) => (.fault c (BitVec.ofNat 64 x), t)
    | (.val y, t) => (.val v y, t)

/-- The index of position `p` under GATHER (R194). -/
def State.zIndex (s : State) (h : Hart) (b : BitVec 1024) (off : Int) : Rd × Nat × State :=
  let a := addrAt (zIdx b) off
  let (r, t) := s.zRead h b a 4
  (r, a, t)

/-- Where the element of position `p` lies (R194): its byte, and the bit in it (R43). A blocked element of an affine stream without
GATHER begins at bit 0 of its byte, since strides are bytes (log entry 137). -/
def State.zAddr (s : State) (h : Hart) (b : BitVec 1024) (bits p : Nat) : Except (Rd × Nat) (Nat × Nat) × State :=
  if zMode b = 1 then
    let row := zCount b 3
    let t := zCount b 2 + p / row
    let pa := addrAt (zBase b) (8 * (t / zCount b 0) : Nat)
    match s.zRead h b pa 8 with
    | (.val v, u) => (.ok (containerAt (v + t % zCount b 0 * zCount b 1) (p % row) bits), u)
    | (r, u) => (.error (r, pa), u)
  else if zGather b then
    match s.zIndex h b (zOffset b p) with
    | (.val i, _, t) => (.ok (containerAt (zBase b) i bits), t)
    | (r, a, t) => (.error (r, a), t)
  else (.ok (addrAt (zBase b) (zOffset b p), 0), s)

/-- The element at position `p`. With DEC the expanded elements are given; GATHER then selects among them, four index bytes a
position. -/
def State.zElement (s : State) (h : Hart) (b : BitVec 1024) (bits : Nat) (dec : List Nat × ZRead) (p : Nat) : ZElem × State :=
  let missing := fun (s : State) => (match dec.2 with
    | .fault c a => ZElem.fault c (BitVec.ofNat 64 a)
    | .wait w => .wait w
    | _ => .fault .stream (BitVec.ofNat 64 (zBase b)), s)
  if zDec b then
    let at_ := fun (i : Nat) (t : State) => match dec.1[i]? with
      | some v => t.zHeaderAt h b bits (containerAt (zBase b) i bits).1 v
      | none => missing t
    if zGather b then
      match s.zIndex h b (4 * p : Nat) with
      | (.val i, _, t) => at_ i t
      | (.wait w, _, t) => (.wait w, t)
      | (.fault c, a, t) => (.fault c (BitVec.ofNat 64 a), t)
    else at_ p s
  else match s.zAddr h b bits p with
    | (.error (.wait w, _), t) => (.wait w, t)
    | (.error (.fault c, a), t) => (.fault c (BitVec.ofNat 64 a), t)
    | (.error (.val _, _), t) => (missing t)
    | (.ok a, t) =>
      match t.zData h b bits a with
      | (.val v _, u) => u.zHeaderAt h b bits a.1 v
      | r => r

/-- The elements of positions `p` on, `n` of them, and what ended them: nothing, a wait, or a fault. -/
def State.zElements (s : State) (h : Hart) (b : BitVec 1024) (bits : Nat) (dec : List Nat × ZRead) (p : Nat) :
    Nat → List (Nat × Nat) × Option ZElem × State
  | 0 => ([], none, s)
  | n + 1 =>
    if (match zLength b with | some m => decide (m ≤ p) | none => false) then
      ([], some (.fault .stream 0), s)
    else match s.zElement h b bits dec p with
      | (.val v x, t) =>
        let (l, r, u) := t.zElements h b bits dec (p + 1) n
        ((v, x) :: l, r, u)
      | (r, t) => ([], some r, t)

/-- The type state of a stream's elements, in the rounding mode of the hart. -/
def codeVT (t : VT) (f : Word) (c : Nat) : VT :=
  let cls := if 16 ≤ c then 5 else if c ≤ 7 then c % 2 else if c = 9 then 3 else if c = 11 then 4 else 2
  { t with cls := cls, ew := codeBits f c }

/-- An element's value before conversion, with the events of an undefined slot (R16, R42). -/
def zValue (t : VT) (f : Word) (x : Nat × Nat) : FVal × Ev :=
  if t.cls = 5 then (blockValue f x.2 x.1, { nv := blockUndefined f x.2 })
  else if t.isFloat then (t.fmt.decode x.1, {})
  else let v := readInt t.isSigned x.1 t.ew; (intVal v, {})

/-- The header that a register block takes from the memory blocks its elements come from: theirs when they agree, else a free value
(R45; log entry 138). -/
def commonHeader (l : List Nat) : Nat := if l.all (· == l.headD 0) then l.headD 0 else (Config.mixedHeader l).toNat

/-- What `zrd` writes: the elements it has, with what conversion to the output type makes of them (R194). -/
structure ZOut where
  /-- The code and the events of an element. -/
  code : Nat → Nat × Ev
  /-- The header of a block. -/
  hdr : Nat → Nat
  /-- The first step that raises an enabled class: the element at which it begins, and the cause; a block is one step when the
  output is a slot (R160; log entry 139). -/
  stop : Option (Nat × Cause)
  /-- The elements whose events a trap records. -/
  upTo : Nat

/-- The conversion of elements `n0` to `n - 1`, given as bits and header byte, of which those from `start` on are written. -/
def zConvert (t : VT) (f : Word) (flags : BitVec 16) (b : BitVec 1024) (raw : Nat → Nat × Nat) (n0 start n : Nat) : ZOut :=
  let src := codeVT t f (zEtype b)
  let val := fun i => zValue src f (raw i)
  let els := fun k => (List.range' (32 * k) 32).filter fun i => decide (n0 ≤ i) && decide (i < n)
  if !zCvt b then
    { code := fun i => ((raw i).1, {}), hdr := fun k => commonHeader ((els k).map fun i => (raw i).2), stop := none, upTo := n }
  else match targetOf (zCtype b) with
    | .slot m =>
      let sl := slotOf f m
      let se := fun k => blockSE sl (fun j => (val j).1) (els k)
      let evs := fun k => blockEvs sl t.rm val (els k)
      let stop := blockTrap flags evs (start / 32) ((n + 31) / 32)
      { code := fun i =>
          let q := sl.encode t.rm ((val i).1.scale (32 - (se (i / 32) : Int)))
          (q.1, q.2.or (val i).2)
        hdr := fun k => 64 * m + se k
        stop := stop.map fun x => (32 * x.1, x.2)
        upTo := match stop with | some x => min n (32 * x.1 + 32) | none => n }
    | tgt =>
      let code := fun i => convertElem src false tgt (raw i).1 (val i)
      let stop := firstTrap flags (fun i => decide (i < n)) (fun i => (code i).2) start n
      { code := code, hdr := fun _ => 0, stop := stop, upTo := match stop with | some x => x.1 + 1 | none => n }

/-- Headers of the blocks from that of `start` on that end at or below element `stop`, the others as they were (R45). -/
def putHeadersBelow (t : VT) (d start stop : Nat) (src : Nat → Nat) (h : Hart) : Hart :=
  let old := h.headers d t.g t.per
  h.putHeaders d t.g t.per (joinNat 8 (fun k => if start / 32 ≤ k ∧ 32 * k < stop then src k else elemOf old 8 k) (t.g * t.per))

/-- The work of `zrd` and `zpeek` (R196): fault-first; progress advances by what is delivered. A read that restarts inside a block
reads the block's positions from its first on, so that the block's header covers all of it (R45, R47). -/
def zreadBody (advance : Bool) : Body := fun e s =>
  let h := s.hart
  let t := h.vt
  let f := h.fmtReg
  let word := e.word.setWidth 64
  match h.streamOf e.word with
  | none => .trap e .stream word 0 s
  | some z =>
    let b := z.block
    let bits := codeBits f (zEtype b)
    let n0 := if t.cls = 5 then 32 * (e.start / 32) else e.start
    let p := z.progress + n0
    let n := t.vl - n0
    let (dec, s1) : (List Nat × ZRead) × State :=
      if zDec b && !zGather b then s.zUpTo h b bits (zBase b) (p + n) (p + n)
      else if zDec b then s.zUpTo h b bits (zBase b) (zCount b 0) (zCount b 0)
      else (([], .stop), s)
    let (els, r, s2) := s1.zElements h b bits dec p n
    let arr := els.toArray
    let raw := fun i => arr.getD (i - n0) (0, 32)
    let deliver := fun (n : Nat) (trim : Bool) =>
      let o := zConvert t f h.fl.flags b raw n0 e.start n
      let act := fun i => decide (i < n)
      let vt := { t with vl := n }
      let seen := evsOf act (fun i => (o.code i).2) e.start o.upTo
      let put := fun (stop : Nat) (k : Hart) => (putElems vt e.start (wD e.word) act (fun i => (o.code i).1) stop k).dropLines
      match o.stop with
      | some (j, c) =>
        VOut.trap e c word j ((s2.onHart fun k =>
          if t.cls = 5 then putHeadersBelow t (wD e.word) e.start j o.hdr (put j k) else put j k).recordAt e.pc seen)
      | none =>
        .done ((s2.onHart fun k =>
          let k0 := put t.vlmax k
          let k1 := if t.cls = 5 then
              putBlockHeaders vt (wD e.word) t.g t.per (fun i => decide (e.start / 32 ≤ i) && decide (32 * i < n)) o.hdr k0
            else k0
          let k2 := if advance then k1.bindZ (BitVec.ofNat 5 (wA e.word % 8)) { z with progress := z.progress + n } else k1
          if trim then k2.trim n else k2).recordAt e.pc seen)
    match r with
    | some (.wait w) => .block w e s2
    | some (.fault c a) =>
      let stop := n0 + els.length
      if stop = 0 then .trap e c (if c = .stream && a = 0 then word else a) 0 (s2.onHart (·.dropLines)) else deliver stop true
    | _ => deliver t.vl false

/-- ZRD (R196). -/
def execZrd (d a : Reg) (s : State) : Out := vissue (encode (.zrd d a)) (zreadBody true) s
/-- ZPEEK (R196). -/
def execZpeek (d a : Reg) (s : State) : Out := vissue (encode (.zpeek d a)) (zreadBody false) s

/-! ### zloop (R197) -/

/-- The words of a body, fetched from `pc` on: a wait, a fault with its address, or the words. -/
inductive ZBody where
  | wait
  | fault (c : Cause) (a : Nat)
  | words (l : List IWord)
  deriving DecidableEq, Repr
def State.bodyWords (s : State) (pc : Nat) : Nat → ZBody × State
  | 0 => (.words [], s)
  | n + 1 =>
    match s.fetchAt pc with
    | (.wait, t) => (.wait, t)
    | (.fault c, t) => (.fault c pc, t)
    | (.word w, t) =>
      match t.bodyWords (pc + 4) n with
      | (.words l, u) => (.words (w :: l), u)
      | r => r

/-- The trip counts at x[B] (R197): up to six, ending at the first zero. -/
def State.tripCounts (s : State) (a : Nat) : Nat → (Rd × Nat) × List Nat × State
  | 0 => ((.val 0, a), [], s)
  | n + 1 =>
    match s.scalarLoad a 4 with
    | (.val 0, t) => ((.val 0, a), [], t)
    | (.val v, t) => let (r, l, u) := t.tripCounts (a + 4) n; (r, v :: l, u)
    | (r, t) => ((r, a), [], t)

/-- ZLOOP (R197): the loop buffer takes the next words as its body and the product of the counts. The scalar pipe then pushes the
body word by word, each under its own checks in program order (R255), and goes on behind it; the vector stream replays the whole body
from the buffer. Without a count, or with a length outside 1 to 32, the word is ILLEGAL. -/
def execZloop (a b : Reg) (s : State) : Out :=
  let h := s.hart
  let n := (s.get a).toNat
  let word := (encode (.zloop a b)).setWidth 64
  if noQuads s then .next (s.trap .illegalType 0)
  else if n = 0 ∨ 32 < n then .next (s.trap .illegal word)
  else if h.vs.loop.any (!·.filling) then .next (s.waitFor .vector)
  else match s.bodyWords (h.pc.toNat + 4) n with
    | (.wait, t) => .next (t.waitFor .memory)
    | (.fault c a, t) => .next (t.trap c (BitVec.ofNat 64 a))
    | (.words l, t) =>
      match l.find? fun w => !(vectorWord w && ((decodeJoin w).isSome || typeIllegalWord w)) with
      | some w => .next (t.trap .illegal (w.setWidth 64))
      | none =>
        match t.tripCounts (s.get b).toNat 6 with
        | ((.wait w, _), _, u) => .next (u.waitFor w)
        | ((.fault c, x), _, u) => .next (u.trap c (BitVec.ofNat 64 x))
        | ((.val _, _), [], u) => .next (u.trap .illegal word)
        | ((.val _, _), counts, u) =>
          .next (u.onHart fun g =>
            { g with vs := { g.vs with
                loop := some { first := g.pc + 4, words := n, body := [], left := counts.foldl (· * ·) 1 - 1 } } }).advance

end Sys2Proof.Machine
end

