-- ==== Sys2Proof/Machine/Retrieval.lean ====
section
/-! DEFINITION. The riddle and the skimmer (R221 to R241, R394): PLE, TOPK, and the device steps of runs and probes. -/
namespace Sys2Proof.Machine

/-! ### Reads of an engine at the homes (R231, R293 RDV) -/

/-- Why an engine's work stops: it waits, a fault with its address, or a malformed block with its address. -/
inductive Stop where
  | wait
  | fault (c : Cause) (a : Nat)
  | bad (a : Nat)
  deriving DecidableEq, Repr

/-- The work of an engine: what it gives, or why it stops, and the state after. -/
abbrev Work (α : Type) := ExceptT Stop (StateM State) α

/-- Run a piece of work. -/
def Work.go {α : Type} (w : Work α) (s : State) : Except Stop α × State := (ExceptT.run w).run s

/-- A read inside one line at its ordering point, by a unit that stands beside no core's L1. -/
def State.lineRead (s : State) (loc : Loc) (len : Nat) : Rd × State :=
  match loc.kind with
  | .bank => (s.bankRead loc.key len, s)
  | .remote => (s.remoteReady loc len, s)
  | .uncached => s.uncachedRead loc.key len
  | _ => s.homeVal loc.key len

/-- The same by an engine of a core's cluster (R165): over the fabric, and GUARD last. -/
def State.engineRead (s : State) (core : Nat) (loc : Loc) (len : Nat) : Rd × State :=
  match s.farDown core loc with
  | some r => (r, s)
  | none =>
    match s.lineRead loc len with
    | (.val v, t) => (if t.guardPoisoned loc.key then .fault .guard else .val v, t)
    | r => r

/-- `n` bytes at `a` through the vector map, line by line, for an engine of a core's cluster; a fault names `blame`. -/
def spanRead (core part ctx blame : Nat) : Nat → Nat → Nat → Work Nat
  | 0, _, _ => pure 0
  | f + 1, a, n =>
    if n = 0 then pure 0
    else do
      let k := min n (64 - a % 64)
      let s ← get
      match s.vmapLoc part ctx a .read with
      | .error c => throw (.fault c blame)
      | .ok loc =>
        let (r, t) := s.engineRead core loc k
        set t
        match r with
        | .wait _ => throw .wait
        | .fault c => throw (.fault c blame)
        | .val v =>
          let w ← spanRead core part ctx blame f ((a + k) % 2 ^ 64) (n - k)
          pure (v + 2 ^ (8 * k) * w)

/-- A session reads `n` bytes for the block or record at `blame`. -/
def Session.read (ss : Session) (a n blame : Nat) : Work Nat := spanRead (4 * ss.cluster) ss.part ss.ctx blame (n / 64 + 2) (a % 2 ^ 64) n

/-! ### Sessions and lists (R230, R234, R394) -/

def State.sessionAt (s : State) (cluster id task : Nat) : Option Session :=
  s.eng.sessions.find? fun x => x.cluster == cluster && x.id == id && x.task == task
def State.putSession (s : State) (ss : Session) : State :=
  { s with eng := { s.eng with sessions := putFirst (fun x => x.cluster == ss.cluster && x.id == ss.id) ss s.eng.sessions } }
def State.listAt (s : State) (cluster id task : Nat) : Option SkList :=
  s.eng.lists.find? fun x => x.cluster == cluster && x.id == id && x.task == task
def State.putList (s : State) (l : SkList) : State :=
  { s with eng := { s.eng with lists := putFirst (fun x => x.cluster == l.cluster && x.id == l.id) l s.eng.lists } }

/-- Free a list: its capacity and every binding to it lapse (R241). -/
def State.freeList (s : State) (l : SkList) : State :=
  { s with eng := { s.eng with
      lists := s.eng.lists.filter fun x => !(x.cluster == l.cluster && x.id == l.id)
      sessions := updIf (fun x => x.cluster == l.cluster && x.list == some l.id) (fun x => { x with list := none }) s.eng.sessions } }

/-- The lowest number below 8 that no session, or no list, of the cluster has (R394). -/
def State.freeSession (s : State) (cluster : Nat) : Option Nat :=
  (upTo 8).find? fun i => !s.eng.sessions.any fun x => x.cluster == cluster && x.id == i
def State.freeHandle (s : State) (cluster : Nat) : Option Nat :=
  (upTo 8).find? fun i => !s.eng.lists.any fun x => x.cluster == cluster && x.id == i

/-! ### FP32 arithmetic (R227) -/

def add32 (a b : Nat) : Nat := (fAdd fp32 .rne a b).1
def mul32 (a b : Nat) : Nat := (fMul fp32 .rne a b).1
def div32 (a b : Nat) : Nat := (fDiv fp32 .rne a b).1
def ofNat32 (n : Nat) : Nat := (fOfInt fp32 .rne n).1

/-- FP32, finite and not negative (R224, R225). -/
def nonNeg32 (a : Nat) : Bool :=
  match fp32.decode a with
  | .fin n m _ => !n || m == 0
  | _ => false

/-- The order of scores: NaN below every number, zeros equal (R238, R240). -/
def scoreBelow (a b : Nat) : Bool :=
  if (fp32.decode a).isNan then !(fp32.decode b).isNan
  else !(fp32.decode b).isNan && (fLt fp32 a b).1

/-! ### The skimmer (R235 to R241) -/

/-- The lexical and the vector score; NONE and UNMATCHED count as 0.0 (R237). -/
def SkEntry.lexScore (e : SkEntry) : Nat := if e.lex = .matched then e.score.toNat else 0
def SkEntry.vecScore (e : SkEntry) : Nat := (e.vec.map (·.toNat)).getD 0

/-- θ (R238). -/
def SkList.theta (l : SkList) : Nat :=
  let ms := sortBy (fun a b => scoreBelow b a) ((l.entries.filter fun e => e.lex == .matched).map (·.score.toNat))
  let t := if ms.length < l.keep then fp32.inf true else ms.getD (l.keep - 1) 0
  match l.raised with
  | some r => if scoreBelow t r.toNat then r.toNat else t
  | none => t

/-- The entry that a full list gives up: vector state NONE, the lowest lexical score, the higher id on a tie (R238). -/
def SkList.victim (l : SkList) : Option SkEntry :=
  (l.entries.filter fun e => e.vec.isNone).foldl (fun o e =>
    match o with
    | none => some e
    | some v =>
      if scoreBelow e.score.toNat v.score.toNat || (!scoreBelow v.score.toNat e.score.toNat && decide (v.doc.toNat < e.doc.toNat))
      then some e else some v) none

/-- A riddle offer (R238): the list after, and whether the document was inserted. -/
def SkList.offer (l : SkList) (doc s : Nat) : SkList × Bool :=
  let d := BitVec.ofNat 32 doc
  let new : SkEntry := { doc := d, lex := .matched, score := BitVec.ofNat 32 s, vec := none }
  if l.entries.any (·.doc == d) then
    ({ l with entries := updIf (·.doc == d) (fun e => { e with lex := .matched, score := BitVec.ofNat 32 s }) l.entries }, true)
  else if (fp32.decode s).isNan || (fLt fp32 s l.theta).1 then (l, false)
  else if l.entries.length < l.cap then ({ l with entries := l.entries ++ [new] }, true)
  else
    let c := { l with refused := l.refused + 1 }
    match l.victim with
    | some v =>
      if scoreBelow v.score.toNat s then
        ({ c with entries := (l.entries.filter fun e => e.doc != v.doc) ++ [new] }, true)
      else (c, false)
    | none => (c, false)

/-- A vector-scored candidate (R239). -/
def SkList.insert (l : SkList) (doc score : Nat) : SkList :=
  let d := BitVec.ofNat 32 doc
  let v := some (BitVec.ofNat 32 score)
  if l.entries.any (·.doc == d) then
    { l with entries := updIf (·.doc == d) (fun e => { e with vec := v }) l.entries }
  else if l.entries.length < l.cap then
    { l with entries := l.entries ++ [{ doc := d, lex := .none, score := 0, vec := v }] }
  else { l with refused := l.refused + 1 }

/-- Rank orders (R240, R241): score descending, then the lower id. -/
def ranksBefore (a b : Nat × Nat) : Bool := scoreBelow b.2 a.2 || (!scoreBelow a.2 b.2 && decide (a.1 < b.1))

/-- The position of a document in a list of (document, score), counted from 1, after ordering. -/
def rankIn (l : List (Nat × Nat)) (d : Nat) : Nat := ((sortBy ranksBefore l).findIdx fun x => x.1 == d) + 1

/-- F for every entry under the list's rule (R240). -/
def SkList.fused (l : SkList) : List (Nat × Nat) :=
  let alpha := l.alpha.toNat
  let beta := l.beta.toNat
  let ms := (l.entries.filter fun e => e.lex == .matched).map fun e => (e.doc.toNat, e.score.toNat)
  let vs := (l.entries.filter fun e => e.vec.isSome).map fun e => (e.doc.toNat, e.vecScore)
  l.entries.map fun e =>
    let (u, v) := if l.rank then
        (if e.lex = .matched then div32 alpha (add32 (ofNat32 l.kr.toNat) (ofNat32 (rankIn ms e.doc.toNat))) else 0,
         if e.vec.isSome then div32 beta (add32 (ofNat32 l.kr.toNat) (ofNat32 (rankIn vs e.doc.toNat))) else 0)
      else (mul32 alpha e.lexScore, mul32 beta e.vecScore)
    (e.doc.toNat, add32 u v)

/-- The records of a drain (R241). -/
def SkList.drained (l : SkList) : List (Nat × Nat) := (sortBy ranksBefore l.fused).take l.keep

/-- TK_INIT (R236): a bad operand first. -/
def execTkInit (d a b : Reg) (s : State) : Out :=
  let h := s.hart
  let cap := (s.get a).toNat
  let keep := (s.get b).toNat
  if cap = 0 ∨ 4096 < cap ∨ keep = 0 ∨ 1024 < keep ∨ cap < keep then s.result d (-2)
  else
    let used := (s.eng.lists.filter (·.cluster == h.cluster)).foldl (fun n l => n + l.cap) 0
    match s.freeHandle h.cluster with
    | some i =>
      if 4096 < used + cap then s.result d (-1)
      else
        (s.putList { cluster := h.cluster, id := i, task := h.tk.task, cap := cap, keep := keep, raised := none, rank := false, kr := 0
                     alpha := BitVec.ofNat 32 one32, beta := BitVec.ofNat 32 one32, entries := [], refused := 0 }).result d
          (BitVec.ofNat 64 i)
    | none => s.result d (-1)

/-- The work of `tk.ins` (R239): one element a step, for another newcomer may come between two (R235). -/
def tkInsBody : Body := fun e s =>
  let h := s.hart
  let t := h.vt
  let i := e.start
  match s.listAt h.cluster (e.xb.toNat % 8) h.tk.task with
  | none => .done s
  | some l =>
    if t.vl ≤ i then .done s
    else
      let u := s.putList (l.insert (elemOf (h.group (wD e.word) t.g) 32 i) (elemOf (h.group (wA e.word) t.g) 32 i))
      if i + 1 < t.vl then .block .vector { e with start := i + 1 } u else .done u
/-- TK_INS (R239). -/
def execTkIns (d a b : Reg) (s : State) : Out := vissue (encode (.tkIns d a b)) tkInsBody s

/-- TK_FUSE (R240). -/
def execTkFuse (d a b : Reg) (s : State) : Out :=
  let h := s.hart
  let x := (s.get a).toNat
  let y := (s.get b).toNat
  match s.listAt h.cluster (x % 8) h.tk.task with
  | none => s.result d (-1)
  | some l =>
    if bitsOf x 7 3 ≠ 0 ∨ bitsOf x 15 9 ≠ 0 ∨ x / 2 ^ 32 ≠ 0 then s.result d (-1)
    else
      (s.putList { l with rank := x.testBit 8, kr := BitVec.ofNat 16 (bitsOf x 31 16), alpha := BitVec.ofNat 32 y
                          beta := BitVec.ofNat 32 (y / 2 ^ 32) }).result d 0

/-- TK_THR (R238). -/
def execTkThr (d a b : Reg) (s : State) : Out :=
  let h := s.hart
  let x := (s.get a).toNat
  let v := (s.get b).toNat % 2 ^ 32
  match s.listAt h.cluster (x % 8) h.tk.task with
  | none => s.result d (-1)
  | some l =>
    if bitsOf x 7 3 ≠ 0 ∨ x / 2 ^ 10 ≠ 0 then s.result d (-1)
    else if x.testBit 9 then s.result d (BitVec.ofNat 64 (l.entries.length * 2 ^ 32 + l.refused % 2 ^ 32))
    else
      let th := l.theta
      let t := if x.testBit 8 && !(fp32.decode v).isNan && scoreBelow th v then s.putList { l with raised := some (BitVec.ofNat 32 v) } else s
      t.result d (BitVec.ofNat 64 th)

/-- The engine id that a cluster's riddle and skimmer share (R291). -/
def clusterEngine (cluster : Nat) : Nat := 0x280 + cluster

/-- The checks of R165 on a store of 8 bytes whose words an engine registers, so that a lost word shows at once (R296 EREG). -/
def State.engineStoreLoc (s : State) (h : Hart) (a : Nat) : Except Cause (Loc × State) :=
  match s.elemLoc h a 8 .write false with
  | .error c => .error c
  | .ok loc =>
    if s.destLost loc 8 then .error .ownerLost
    else match s.farDown h.core loc with
      | some (.fault c) => .error c
      | _ => s.storeLoc h a 8 false

/-- The places of a drain's records, or the first fault with its address (R165, R241). -/
def drainLocs (h : Hart) (a : Nat) : List (Nat × Nat) → State → Except (Cause × Nat) (List (Nat × Loc × Nat)) × State
  | [], s => (.ok [], s)
  | (d, f) :: r, s =>
    match s.engineStoreLoc h a with
    | .error c => (.error (c, a), s)
    | .ok (loc, t) =>
      match drainLocs h ((a + 8) % 2 ^ 64) r t with
      | (.ok l, u) => (.ok ((a, loc, d + 2 ^ 32 * f) :: l), u)
      | e => e

/-- The words of a drain's records become registered to the cluster's engines (R301), or one of them makes the drain wait. -/
def State.registerDrain (s : State) (e : Nat) (l : List (Nat × Loc × Nat)) : Option State :=
  l.foldl (fun o p => o.bind fun t =>
    if p.2.1.kind == .cached then t.eregLine e (lineOf p.2.1.key) (wordMask p.2.1.key 8) else some t) (some s)

/-- The next record of a drain is written (R296 EWR). -/
def State.drainWrite (s : State) (h : Hart) (p : Nat × Loc × Nat) : Option State :=
  if (s.farDown h.core p.2.1).isSome then none
  else s.engineWrite (clusterEngine h.cluster)
    (fun b => { module := p.2.1.module, task := h.tk.task, hart := h.id, src := .drain, va := p.1, bytes := b }) p.2.1 8 p.2.2 (-1)

/-- The registrations of records not written are dropped (R301). -/
def State.dropRecords (s : State) (e : Nat) (l : List (Nat × Loc × Nat)) : State :=
  l.foldl (fun t p =>
    if p.2.1.kind == .cached then
      t.onHome (lineOf p.2.1.key) fun hl => hl.setWords (hl.select (wordMask p.2.1.key 8) (· == .engine e)) .unreg
    else t) s

/-- A record's place can no longer be reached (R383, R389). -/
def State.drainDead (s : State) (h : Hart) (p : Nat × Loc × Nat) : Option Cause :=
  match s.storeRefused p.2.1 8, s.farDown h.core p.2.1 with
  | some c, _ => some c
  | none, some (.fault c) => some c
  | _, _ => none

/-- A drain goes on: the records still to write, one a step, then the wait for those bound for other modules (R287), then the end. A record
whose place is lost to an error meanwhile ends it with that cause (log entry 165). -/
def State.drainOn (s : State) (d : Reg) (x n : Nat) : List (Nat × Loc × Nat) → Out
  | p :: r =>
    match s.drainDead s.hart p with
    | some c => .next ((s.dropRecords (clusterEngine s.hart.cluster) (p :: r)).trap c (BitVec.ofNat 64 p.1))
    | none => .next (match s.drainWrite s.hart p with | none => s | some t => t.waitFor (.delivery n r))
  | [] =>
    if s.coh.egress.any fun e => e.hart == s.hart.id && e.task == s.hart.tk.task && e.src == .drain then .next s
    else
      let w := s.selfInvalidate s.hart.core fun _ => true
      (match w.listAt s.hart.cluster (x % 8) s.hart.tk.task with
        | some l => if x.testBit 8 then w.freeList l else w
        | none => w).result d (BitVec.ofNat 64 n)

/-- TK_DRAIN (R241, R287, R301): the destination is checked and registered whole; the hart waits until every record has performed. -/
def execTkDrain (d a b : Reg) (s : State) : Out :=
  let h := s.hart
  let x := (s.get a).toNat
  let dst := s.get b
  match h.wait with
  | some (.delivery n l) => s.drainOn d x n l
  | _ =>
    if dst.toNat % 8 ≠ 0 then .next (s.trap .misalign dst)
    else match s.listAt h.cluster (x % 8) h.tk.task with
      | none => s.result d (-1)
      | some l =>
        if bitsOf x 7 3 ≠ 0 ∨ x / 2 ^ 9 ≠ 0 then s.result d (-1)
        else
          let recs := l.drained
          match drainLocs h dst.toNat recs s with
          | (.error (c, at_), _) => .next (s.trap c (BitVec.ofNat 64 at_))
          | (.ok places, _) =>
            match s.registerDrain (clusterEngine h.cluster) places with
            | none => .next (s.waitFor .engine)
            | some u =>
              -- a word that its owner gave up poisoned is lost now, and refuses its registration (R296, R307)
              match places.find? fun p => u.destLost p.2.1 8 with
              | some p => .next ((u.dropRecords (clusterEngine h.cluster) places).trap .ownerLost (BitVec.ofNat 64 p.1))
              | none => .next ((drainLocs h dst.toNat recs u).2.waitFor (.delivery recs.length places))

/-- A drain that stops drops the registrations of the records it has not written (R253, R301). -/
def State.dropDrain (s : State) (h : Hart) : State :=
  match h.wait with
  | some (.delivery _ l) => s.dropRecords (clusterEngine h.cluster) l
  | _ => s

/-! ### Lists and blocks (R221, R222) -/

def lBlocks (l : BitVec 256) : Nat := bytesAt l 0 8
def lSkip (l : BitVec 256) : Nat := bytesAt l 8 8
def lCount (l : BitVec 256) : Nat := bytesAt l 16 4

/-- A list descriptor is well-formed (R221). -/
def listOk (l : BitVec 256) : Bool :=
  decide (lBlocks l % 32 = 0) && decide (lSkip l % 8 = 0) && decide (1 ≤ lCount l) && decide (lCount l ≤ 2 ^ 24) &&
  decide (bytesAt l 24 8 = 0)

/-- The plan's fields (R224). -/
def planK1 (p : BitVec 512) : Nat := bytesAt p 0 4
def planPrune (p : BitVec 512) : Bool := p.getLsbD 32
def planDlen (p : BitVec 512) : Nat := bytesAt p 8 8
def planKtab (p : BitVec 512) : Nat := bytesAt p 16 8
def planNdoc (p : BitVec 512) : Nat := bytesAt p 24 4
def planOk (p : BitVec 512) : Bool :=
  nonNeg32 (planK1 p) && decide (bytesAt p 4 4 < 2) && decide (bytesAt p 28 36 = 0)

/-- Skip entry `j`: LASTID and OFFSET. -/
def Session.skipEntry (ss : Session) (l : BitVec 256) (j : Nat) : Work (Nat × Nat) := do
  let a := lSkip l + 8 * j
  let v ← ss.read a 8 a
  pure (v % 2 ^ 32, v / 2 ^ 32)

/-- The LASTID of block `j`, its address and its header; a directory that breaks R221 makes the block malformed. -/
def Session.blockHead (ss : Session) (l : BitVec 256) (j : Nat) : Work (Nat × Nat × Nat) := do
  let (last, off) ← ss.skipEntry l j
  let a := (lBlocks l + off) % 2 ^ 64
  if off % 32 ≠ 0 then throw (.bad a)
  let h ← ss.read a 32 a
  pure (last, a, h)

def bFirst (h : Nat) : Nat := bitsOf h 31 0
def bLast (h : Nat) : Nat := bitsOf h 63 32
def bMax (h : Nat) : Nat := bitsOf h 79 64
def bDbits (h : Nat) : Nat := bitsOf h 87 80
def bTbits (h : Nat) : Nat := bitsOf h 95 88
def bCount (h : Nat) : Nat := bitsOf h 111 96
def bBytes (h : Nat) : Nat := bitsOf h 159 128
/-- Bytes of the deltas, and of all codes. -/
def bDelta (h : Nat) : Nat := ceilDiv ((bCount h - 1) * bDbits h) 8
def bNeed (h : Nat) : Nat := bDelta h + ceilDiv (bCount h * bTbits h) 8

/-- The header's own fields are in range (R222). -/
def headOk (h : Nat) : Bool :=
  decide (1 ≤ bCount h) && decide (bCount h ≤ 128) && decide (bTbits h ≤ 16) && decide (bDbits h ≤ 32) &&
  decide (bBytes h % 32 = 0) && decide (32 + bNeed h ≤ bBytes h) && decide (bitsOf h 127 112 = 0) && decide (h / 2 ^ 160 = 0)

/-- The ids of a block: id(i) := id(i - 1) + code + 1 (R222). -/
def idsFrom (first w body : Nat) : Nat → Nat → List Nat
  | _, 0 => []
  | i, n + 1 => first :: idsFrom (first + elemOf body w i + 1) w body (i + 1) n

/-- Decode block `j` of a list (R222): its address, header and postings. -/
def Session.decode (ss : Session) (l : BitVec 256) (j : Nat) : Work (Nat × Nat × List (Nat × Nat)) := do
  let (last, a, h) ← ss.blockHead l j
  let prev ← (if j = 0 then pure none else do
    let (p, _) ← ss.skipEntry l (j - 1)
    pure (some p) : Work (Option Nat))
  if !headOk h || bLast h ≠ last || (match prev with | some p => decide (bFirst h ≤ p) || decide (last ≤ p) | none => false) then
    throw (.bad a)
  let body ← ss.read (a + 32) (bNeed h) a
  let ids := idsFrom (bFirst h) (bDbits h) body 0 (bCount h)
  if ids.getLastD 0 ≠ bLast h then throw (.bad a)
  let t := body / 2 ^ (8 * bDelta h)
  pure (a, h, ids.zipIdx.map fun x => (x.1, elemOf t (bTbits h) x.2 + 1))

/-! ### Matching and scoring (R226, R228) -/

/-- A document in the lists of the slots `hits` matches (R226). -/
def matched (terms : List Term) (hits : List (Nat × Nat)) : Bool :=
  (upTo 4).any fun g =>
    let mem := terms.filter fun t => t.grp.getLsbD g
    !mem.isEmpty && mem.all fun t => hits.any fun x => x.1 == t.slot

/-- The score of a document whose (slot, tf) pairs are `hits` (R228). -/
def Session.score (ss : Session) (doc : Nat) (hits : List (Nat × Nat)) : Work Nat := do
  let c := planDlen ss.plan + doc
  let code ← ss.read c 1 c
  let k := planKtab ss.plan + 4 * code
  let kd ← ss.read k 4 k
  let kp := add32 (planK1 ss.plan) one32
  pure ((sortBy (fun a b => decide (a.slot < b.slot)) ss.terms).foldl (fun sum t =>
    match hits.find? (·.1 == t.slot) with
    | none => sum
    | some (_, tf) =>
      let f := ofNat32 tf
      add32 sum (mul32 t.w.toNat (div32 (mul32 f kp) (add32 f kd)))) 0)

/-! ### A run (R229, R231) -/

/-- The greater of two parts of a bound; a NaN stands, for no document is skipped by it (R229). -/
def peakOf (a b : Nat) : Nat := if (fp32.decode a).isNan then a else if (fp32.decode b).isNan || scoreBelow a b then b else a

/-- A slot's part of U(d) at its greatest over the documents of [lo, hi] (R229), from the blocks that reach into them, in order, as (FIRST,
LAST, BMAX): documents that no block holds have BMAX 0. -/
def slotBound (w lo hi : Nat) (bs : List (Nat × Nat × Nat)) : Nat :=
  let part := fun (x : Nat) => (fMul fp32 .rup w ((fp16.decode x).roundTo fp32 .rne).1).1
  let upto := bs.foldl (fun n b => if b.1 ≤ n then max n (b.2.1 + 1) else n) lo
  match (if hi < upto then [] else [part 0]) ++ bs.map fun b => part b.2.2 with
  | [] => part 0
  | v :: r => r.foldl peakOf v

/-- The bound of R229 over the documents of [lo, hi]: the sum, in slot order, of each slot's part at its greatest, in the headers as
they stand; none when one cannot be read. -/
def boundOf (ss : Session) (s : State) (lo hi : Nat) : Option Nat :=
  let rec reach (l : BitVec 256) (j : Nat) : Nat → Option (List (Nat × Nat × Nat))
    | 0 => some []
    | n + 1 =>
      match ((ss.blockHead l j).go s).1 with
      | .error _ => none
      | .ok (_, _, h) =>
        if hi < bFirst h then some []
        else (reach l (j + 1) n).map fun r => if lo ≤ bLast h then (bFirst h, bLast h, bMax h) :: r else r
  ((ss.run.map (·.curs)).getD []).foldl (fun o c =>
    match o, ss.terms.find? (·.slot == c.slot) with
    | some u, some t =>
      (reach t.list c.next (lCount t.list - c.next)).map fun r =>
        let here := if c.next = 0 || hi < c.first || c.last < lo then [] else [(c.first, c.last, c.bmax)]
        (fAdd fp32 .rup u (slotBound t.w.toNat lo hi (here ++ r))).1
    | _, _ => none) (some 0)

/-- The run may skip the documents of [lo, hi], and does (R229). -/
def prunes (ss : Session) (s : State) (lo hi : Nat) : Bool :=
  planPrune ss.plan &&
  (match ss.list.bind fun i => s.listAt ss.cluster i ss.task with
   | none => false
   | some l => (match boundOf ss s lo hi with | some u => (fLt fp32 u l.theta).1 | none => false)) &&
  Config.pruneSkip (2 ^ 33 * s.env.free + lo)

/-- The nearest document of a cursor: its id, and whether its block is decoded; none at the end of the list. -/
def Session.nearest (ss : Session) (c : Cursor) : Work (Option (Nat × Bool)) :=
  match c.ids with
  | (i, _) :: _ => pure (some (i, true))
  | [] =>
    match ss.terms.find? (·.slot == c.slot) with
    | none => pure none
    | some t =>
      if c.next < lCount t.list then do
        let (_, _, h) ← ss.blockHead t.list c.next
        pure (some (bFirst h, false))
      else pure none

/-- The nearest of several, a block to decode before an equal id. -/
def nearestOf (ss : Session) : List Cursor → Work (Option (Nat × Bool × Cursor))
  | [] => pure none
  | c :: r => do
    let x ← ss.nearest c
    let y ← nearestOf ss r
    pure (match x, y with
      | none, y => y
      | some (i, e), none => some (i, e, c)
      | some (i, e), some (j, f, k) => if i < j || (i == j && (!e || f)) then some (i, e, c) else some (j, f, k))

/-- Keep a session with its progress. -/
def keepS (ss : Session) : Work Unit := modify fun s => s.putSession ss

/-- Replace the cursors of a run, and raise the id below which it passes every document (R229). -/
def Session.withCurs (ss : Session) (floor : Nat) (f : Cursor → Cursor) : Session :=
  { ss with run := ss.run.map fun r => { r with curs := r.curs.map f, floor := max floor r.floor } }

/-- That id. -/
def Session.floor (ss : Session) : Nat := (ss.run.map (·.floor)).getD 0

/-- The run goes on to its next matched document: the document with its score, or none at the end (R231). -/
def runOn : Nat → Session → Work (Option (Nat × Nat) × Session)
  | 0, ss => pure (none, ss)
  | n + 1, ss => do
    match ← nearestOf ss ((ss.run.map (·.curs)).getD []) with
    | none => pure (none, ss)
    | some (_, false, c) =>
      match ss.terms.find? (·.slot == c.slot) with
      | none => pure (none, ss)
      | some t =>
        let (_, _, h) ← ss.blockHead t.list c.next
        if prunes ss (← get) (bFirst h) (bLast h) then
          let ss' := { ss.withCurs (bLast h + 1) (fun k =>
              let g := { k with ids := k.ids.filter fun x => decide (bLast h < x.1) }
              if k.slot = c.slot then { g with next := g.next + 1 } else g) with pruned := ss.pruned + 1 }
          keepS ss'
          runOn n ss'
        else do
          let (a, hd, ids) ← ss.decode t.list c.next
          let ahead := ids.filter fun x => decide (ss.floor ≤ x.1)
          let ss' := { ss.withCurs 0 (fun k => if k.slot = c.slot then
              { k with next := k.next + 1, addr := a, bmax := bMax hd, first := bFirst hd, last := bLast hd, ids := ahead } else k) with
            blocks := ss.blocks + 1 }
          keepS ss'
          runOn n ss'
    | some (d, true, c) =>
      if planNdoc ss.plan ≤ d then throw (.bad c.addr)
      let curs := (ss.run.map (·.curs)).getD []
      let hits := curs.filterMap fun k => match k.ids with | (i, tf) :: _ => if i = d then some (k.slot, tf) else none | [] => none
      let after := ss.withCurs (d + 1) fun k => { k with ids := k.ids.filter fun x => decide (d < x.1) }
      if !matched ss.terms hits || prunes ss (← get) d d then
        keepS after
        runOn n after
      else do
        let sc ← ss.score d hits
        pure (some (d, sc), after)

/-- Enough rounds for every block and posting of the terms. -/
def Session.rounds (ss : Session) : Nat := ss.terms.foldl (fun n t => n + 131 * lCount t.list) 1

/-- A session whose work ended with `stop`, none for a regular end (R233). -/
def Session.stopped (ss : Session) : Option Stop → Session
  | some (.fault c a) => { ss with run := none, failed := true, malformed := false, cause := c.code, faultAddr := a }
  | some (.bad a) => { ss with run := none, failed := false, malformed := true, cause := 0, faultAddr := a }
  | _ => { ss with run := none, failed := false, malformed := false, cause := 0 }

/-- The session of a cluster that runs, or probes; the run of a pre-empted task stands at its checkpoint (R253). -/
def State.atWork (s : State) (cluster id : Nat) (probe : Bool) : Option Session :=
  s.eng.sessions.find? fun x => x.cluster == cluster && x.id == id &&
    (match x.run with | some r => r.probe == probe | none => false) &&
    (match s.taskAt x.task with | some t => t.phase == .running || t.phase == .preempting | none => false)

/-- The session as it stands after some work. -/
def State.again (s : State) (ss : Session) : Session :=
  (s.eng.sessions.find? fun x => x.cluster == ss.cluster && x.id == ss.id).getD ss

/-- RIDDLE_OFFER (R231, R238): the run offers its next matched document. -/
def execRiddleOffer (cluster session : Nat) (s : State) : Out :=
  match s.atWork cluster session false with
  | none => .next s
  | some ss =>
    match (runOn ss.rounds ss).go s with
    | (.ok (some (d, sc), after), t) =>
      match ss.list.bind fun i => t.listAt cluster i ss.task with
      | none => .next (t.putSession after)
      | some l =>
        let (l', ins) := l.offer d sc
        .next ((t.putList l').putSession { after with inserted := after.inserted + ins.toNat })
    | _ => .next s

/-- RIDDLE_RUN_END (R233): no document is left, or the run meets a fault or a malformed block. -/
def execRiddleRunEnd (cluster session : Nat) (s : State) : Out :=
  match s.atWork cluster session false with
  | none => .next s
  | some ss =>
    match (runOn ss.rounds ss).go s with
    | (.ok (none, after), t) => .next (t.putSession (after.stopped none))
    | (.ok _, _) => .next s
    | (.error .wait, _) => .next s
    | (.error x, t) => .next (t.putSession ((t.again ss).stopped (some x)))

/-! ### A probe (R232) -/

/-- The first block from `j` on with LASTID ≥ `d`. -/
def Session.locate (ss : Session) (l : BitVec 256) (d j : Nat) : Nat → Work (Option Nat)
  | 0 => pure none
  | n + 1 => do
    let (last, _) ← ss.skipEntry l j
    if d ≤ last then pure (some j) else ss.locate l d (j + 1) n

/-- The tf of a document in a term's list, if it is there. -/
def probeTerm (d : Nat) (t : Term) (dec : Decoded) (ss : Session) : Work (Option Nat × Decoded × Session) := do
  match ← ss.locate t.list d 0 (lCount t.list) with
  | none => pure (none, dec, ss)
  | some j =>
    match dec.find? (·.1 == (t.slot, j)) with
    | some (_, ids) => pure ((ids.find? (·.1 == d)).map (·.2), dec, ss)
    | none =>
      let (a, _, ids) ← ss.decode t.list j
      let ss' := { ss with blocks := ss.blocks + 1 }
      keepS ss'
      if ids.any (fun x => decide (planNdoc ss.plan ≤ x.1)) then throw (.bad a)
      pure ((ids.find? (·.1 == d)).map (·.2), ((t.slot, j), ids) :: dec, ss')

/-- The (slot, tf) pairs of a document. -/
def probeTerms (d : Nat) : List Term → Decoded → Session → Work (List (Nat × Nat) × Decoded × Session)
  | [], dec, ss => pure ([], dec, ss)
  | t :: r, dec, ss => do
    let (o, dec1, ss1) ← probeTerm d t dec ss
    let (l, dec2, ss2) ← probeTerms d r dec1 ss1
    pure ((match o with | some tf => (t.slot, tf) :: l | none => l), dec2, ss2)

/-- Set the lexical state of an entry. -/
def State.setLex (s : State) (ss : Session) (d : BitVec 32) (x : Lex) (sc : Nat) : State :=
  match ss.list.bind fun i => s.listAt ss.cluster i ss.task with
  | none => s
  | some l => s.putList { l with entries := updIf (·.doc == d) (fun e => { e with lex := x, score := BitVec.ofNat 32 sc }) l.entries }

/-- A probe visits an entry (R232): with the blocks it has decoded, the state it sets. -/
def probeEntry (ss : Session) (dec : Decoded) (e : SkEntry) : Work (Session × Decoded) := do
  let d := e.doc.toNat
  if planNdoc ss.plan ≤ d then
    modify fun s => s.setLex ss e.doc .unmatched 0
    pure (ss, dec)
  else
    let (hits, dec', ss') ← probeTerms d (sortBy (fun a b => decide (a.slot < b.slot)) ss.terms) dec ss
    if matched ss.terms hits then
      let sc ← ss'.score d hits
      modify fun s => s.setLex ss' e.doc .matched sc
    else modify fun s => s.setLex ss' e.doc .unmatched 0
    pure (ss', dec')

/-- The next entry of a probe: the first NONE entry of its list that stood when it began, or that it visits though it came later (R232). -/
def State.probeNext (s : State) (ss : Session) (r : Run) : Option SkEntry :=
  let l := ((ss.list.bind fun i => s.listAt ss.cluster i ss.task).map (·.entries)).getD []
  l.find? fun e => e.lex == .none && (r.stood.any (· == e.doc) || Config.probeLate (2 ^ 32 * s.env.free + e.doc.toNat))

/-- PROBE_END (R232): the probe visits its next entry (R235); it ends when it has visited every one, or stops. -/
def execProbeEnd (cluster session : Nat) (s : State) : Out :=
  match s.atWork cluster session true with
  | none => .next s
  | some ss =>
    match ss.run with
    | none => .next s
    | some r =>
      match s.probeNext ss r with
      | none => .next (s.putSession (ss.stopped none))
      | some e =>
        match (probeEntry ss r.decoded e).go s with
        | (.ok (after, dec), t) => .next (t.putSession { after with run := some { r with decoded := dec } })
        | (.error .wait, _) => .next s
        | (.error x, t) => .next (t.putSession ((t.again ss).stopped (some x)))

/-! ### PLE (R230, R233) -/

/-- PL_OPEN (R230): -1 before -2, and 0 for the close of a session that the task does not have (log entry 178). -/
def execPlOpen (d a b : Reg) (s : State) : Out :=
  let h := s.hart
  let x := s.get a
  let n := (s.get b).toNat % 8
  if x = 0 then
    match s.sessionAt h.cluster n h.tk.task with
    | none => s.result d 0
    | some ss =>
      if ss.run.isSome then .next (s.waitFor .engine)
      else { s with eng := { s.eng with sessions := s.eng.sessions.filter fun y => !(y.cluster == h.cluster && y.id == n) } }.result d 0
  else if x.toNat % 64 ≠ 0 then .next (s.trap .misalign x)
  else match s.loadRecord x.toNat 8 with
    | ((.wait w, _), t) => .next (t.waitFor w)
    | ((.fault c, at_), t) => .next (t.trap c (BitVec.ofNat 64 at_))
    | ((.val v, _), t) =>
      match t.freeSession h.cluster, t.listAt h.cluster n h.tk.task with
      | some i, some l =>
        let p := BitVec.ofNat 512 v
        if !planOk p then t.result d (-2)
        else
          (t.putSession { cluster := h.cluster, id := i, task := h.tk.task, part := h.tk.part, ctx := h.tk.ctx, list := some l.id, plan := p
                          terms := [], run := none, failed := false, malformed := false, cause := 0, blocks := 0, faultAddr := 0
                          inserted := 0, pruned := 0 }).result d (BitVec.ofNat 64 i)
      | _, _ => t.result d (-1)

/-- A term record is well-formed (R225, R395). -/
def termOk (v : Nat) : Bool :=
  decide (v % 2 ^ 64 % 32 = 0) && nonNeg32 (bitsOf v 95 64) && decide (bitsOf v 103 96 ≤ 15) && decide (bitsOf v 111 104 ≤ 15) &&
  decide (v / 2 ^ 112 % 2 ^ 16 = 0)

/-- A group would hold more than eight terms. -/
def groupsFull (l : List Term) : Bool := (upTo 4).any fun g => decide (8 < (l.filter fun t => t.grp.getLsbD g).length)

/-- PL_TERM (R230). -/
def execPlTerm (d a b : Reg) (s : State) : Out :=
  let h := s.hart
  let x := s.get b
  let answer := fun (t : State) (ok : Bool) (v list : Nat) =>
    match t.sessionAt h.cluster ((s.get a).toNat % 8) h.tk.task with
    | none => t.result d (-1)
    | some ss =>
      if ss.run.isSome then t.result d 1
      else if !ok then t.result d 2
      else
        let k := bitsOf v 103 96
        let terms := putFirst (·.slot == k)
          { slot := k, list := BitVec.ofNat 256 list, w := BitVec.ofNat 32 (bitsOf v 95 64), grp := BitVec.ofNat 4 (bitsOf v 111 104) } ss.terms
        if groupsFull terms then t.result d 3 else (t.putSession { ss with terms := terms }).result d 0
  if x.toNat % 16 ≠ 0 then .next (s.trap .misalign x)
  else match s.loadRecord x.toNat 2 with
    | ((.wait w, _), t) => .next (t.waitFor w)
    | ((.fault c, at_), t) => .next (t.trap c (BitVec.ofNat 64 at_))
    | ((.val v, _), t) =>
      if !termOk v then answer t false 0 0
      else match t.loadRecord (v % 2 ^ 64) 4 with
        | ((.wait w, _), u) => .next (u.waitFor w)
        | ((.fault c, at_), u) => .next (u.trap c (BitVec.ofNat 64 at_))
        | ((.val l, _), u) => answer u (listOk (BitVec.ofNat 256 l)) v l

/-- Start a run or a probe: x[D], and the state after (R230 to R232). -/
def startRun (probe : Bool) (d a : Reg) (s : State) : Out :=
  let h := s.hart
  match s.sessionAt h.cluster ((s.get a).toNat % 8) h.tk.task with
  | none => s.result d (-1)
  | some ss =>
    if ss.run.isSome then s.result d 1
    else if ss.terms.all (fun t => t.grp == 0#4) then s.result d 2
    else if ss.list.isNone then s.result d 3
    else
      let curs := (sortBy (fun a b => decide (a.slot < b.slot)) ss.terms).map fun t =>
        ({ slot := t.slot, next := 0, addr := 0, bmax := 0, first := 0, last := 0, ids := [] } : Cursor)
      (s.putSession { ss with
        run := some { probe := probe, hart := h.id, floor := 0, curs := curs, decoded := []
                      stood := ((ss.list.bind fun i => s.listAt ss.cluster i ss.task).map fun l => l.entries.map (·.doc)).getD [] }
        failed := false, malformed := false, cause := 0, blocks := 0
        inserted := if probe then ss.inserted else 0, pruned := if probe then ss.pruned else 0 }).result d 0

/-- PL_RUN (R230, R231). -/
def execPlRun (d a : Reg) (s : State) : Out := startRun false d a s
/-- PL_PROBE (R230, R232). -/
def execPlProbe (d a : Reg) (s : State) : Out := startRun true d a s

/-- The status word (R233). -/
def Session.status (ss : Session) : Word :=
  BitVec.ofNat 64 (ss.run.isSome.toNat * 2 ^ 63 + ss.failed.toNat * 2 ^ 62 + ss.malformed.toNat * 2 ^ 61 +
    (if ss.failed then ss.cause else 0) * 2 ^ 48 + ss.blocks % 2 ^ 48)

/-- PL_STAT (R233). -/
def execPlStat (d a b : Reg) (s : State) : Out :=
  let h := s.hart
  let sel := (s.get b).toNat
  match s.sessionAt h.cluster ((s.get a).toNat % 8) h.tk.task with
  | none => s.result d (-1)
  | some ss =>
    match sel with
    | 0 => s.result d ss.status
    | 1 => if ss.run.isSome then .next (s.waitFor .engine) else s.result d ss.status
    | 2 => s.result d (if ss.failed || ss.malformed then BitVec.ofNat 64 ss.faultAddr else Config.faultAddress s.env.free)
    | 3 => s.result d (BitVec.ofNat 64 (ss.inserted % 2 ^ 32 * 2 ^ 32 + ss.pruned % 2 ^ 32))
    | _ => s.result d (-1)

end Sys2Proof.Machine
end

