-- ==== Sys2Proof/Machine/Launch.lean ====
section
/-! DEFINITION. `launch` (R137, R321 to R325, R395), kernel descriptors and group templates (R108, R109), launches through a command
window (R354), and the start-condition counters (R326). -/
namespace Sys2Proof.Machine

/-! ### The launch record (R321) -/

def rKdesc (r : BitVec 512) : Nat := bytesAt r 0 8
def rArg (r : BitVec 512) : Word := BitVec.ofNat 64 (bytesAt r 8 8)
def rWaddr (r : BitVec 512) : Nat := bytesAt r 16 8
def rWval (r : BitVec 512) : Nat := bytesAt r 24 8
def rDaddr (r : BitVec 512) : Nat := bytesAt r 32 8
def rHarts (r : BitVec 512) : Nat := bytesAt r 40 4
def rClass (r : BitVec 512) : Nat := bytesAt r 44 1
def rQueue (r : BitVec 512) : Nat := bytesAt r 45 1
def rFlags (r : BitVec 512) : Nat := bytesAt r 46 1
def rAff (r : BitVec 512) : Nat := bytesAt r 48 2
abbrev rWait (r : BitVec 512) : Bool := (rFlags r).testBit 0
abbrev rDone (r : BitVec 512) : Bool := (rFlags r).testBit 1
abbrev rDsys (r : BitVec 512) : Bool := (rFlags r).testBit 2

/-- The record's own fields pass R321 (R322 step 2, R324). -/
def recordOk (r : BitVec 512) : Bool :=
  decide (rKdesc r % 64 = 0) && decide (rWaddr r % 8 = 0) && decide (rDaddr r % 8 = 0) && decide (rHarts r ≤ 5120) &&
  decide (rClass r ≤ 3) && decide (rQueue r ≤ 3) && decide (rFlags r < 8) && decide (bytesAt r 47 1 = 0) &&
  decide (bytesAt r 50 14 = 0) && (decide (rAff r ≤ 159) || decide (0xFFFE ≤ rAff r)) &&
  (rWait r || (decide (rWaddr r = 0) && decide (rWval r = 0))) && (rDone r || decide (rDaddr r = 0))

/-! ### The kernel descriptor (R108) -/

def kEntry (d : BitVec 512) : Nat := bytesAt d 8 8
def kTvec (d : BitVec 512) : Nat := bytesAt d 16 8
def kHarts (d : BitVec 512) : Nat := bytesAt d 24 4
def kQuads (d : BitVec 512) : Nat := bytesAt d 28 1
def kSlots (d : BitVec 512) : Nat := bytesAt d 29 1
def kTiles (d : BitVec 512) : Nat := bytesAt d 30 1
def kWin (d : BitVec 512) : Nat := bytesAt d 32 2
def kAff (d : BitVec 512) : Nat := bytesAt d 34 2
def kSpad (d : BitVec 512) : Nat := bytesAt d 36 4
def kNgrp (d : BitVec 512) : Nat := bytesAt d 44 2
def kGrpoff (d : BitVec 512) : Nat := bytesAt d 48 8

/-- The descriptor keeps R108, SPAD the range of R97, and ENTRY and TVEC are multiples of 4 (R324). -/
def descriptorOk (d : BitVec 512) : Bool :=
  decide (bytesAt d 4 4 = 0) && decide (bytesAt d 31 1 = 0) && decide (bytesAt d 46 2 = 0) && decide (bytesAt d 56 8 = 0) &&
  decide (1 ≤ kHarts d) && decide (kHarts d ≤ 5120) && [1, 2, 4, 8].any (· == kQuads d) && decide (kSlots d ≤ 64) &&
  decide (kTiles d ≤ 4) && decide (kWin d ≤ 256) && (decide (kAff d ≤ 159) || decide (kAff d = 0xFFFF)) &&
  decide (kSpad d ≤ 2 ^ 21) && decide (kSpad d % 64 = 0) && decide (kNgrp d ≤ 256) &&
  (decide (kNgrp d ≠ 0) || decide (kGrpoff d = 0)) && decide (kEntry d % 4 = 0) && decide (kTvec d % 4 = 0)

/-- HARTS of a launch: the record's, or the descriptor's (R321). -/
def effHarts (r d : BitVec 512) : Nat := if rHarts r = 0 then kHarts d else rHarts r
/-- Its affinity, none for no affinity. -/
def effAff (r d : BitVec 512) : Option Nat :=
  let a := if rAff r = 0xFFFF then kAff d else rAff r
  if a < 160 then some a else none

/-- The cores of a partition: those of its clusters that are not fenced off (R347, R389). -/
def State.partCores (s : State) (p : Partition) : List Nat :=
  (upTo 640).filter fun c => p.clusters.getLsbD (clusterOf c) && !(s.coreAt c).fenced

/-- The task can be placed in the partition at some time (R324). -/
def State.placeable (s : State) (p : Partition) (harts : Nat) (aff : Option Nat) : Bool :=
  decide (harts ≤ 8 * (s.partCores p).length) &&
  match aff with
  | none => true
  | some c => p.clusters.getLsbD c && decide (harts ≤ 32)

/-! ### Reads by the arbiter (R323, R326) -/

/-- A global address through a context's scalar page tables, with no core's TLB, from the control complex, which stands
on I/O die 0 (R323). -/
def State.ctxLoc (s : State) (part ctx a : Nat) (acc : Acc) : Placed :=
  if isLocal a || bitsOf a 62 52 ≠ 0 then .error (some .page)
  else match (s.walkFrom 4 part ctx a).1 with
    | .error c => .error c
    | .ok (e, k) => .of (s.route part e k a acc true)

/-- `len` bytes at an address of a context, aligned to their length (R116). -/
def State.ctxRead (s : State) (part ctx a len : Nat) : Rd × State :=
  if a % len ≠ 0 then (.fault .misalign, s)
  else match s.ctxLoc part ctx a .read with
    | .error none => (.wait .memory, s)
    | .error (some c) => (.fault c, s)
    | .ok loc => s.lineRead loc len

/-- `n` units of `w` bytes from `a` up. -/
def State.ctxUnits (s : State) (part ctx a w : Nat) : Nat → Rd × State
  | 0 => (.val 0, s)
  | n + 1 =>
    match s.ctxRead part ctx (a % 2 ^ 64) w with
    | (.val v, t) =>
      match t.ctxUnits part ctx (a + w) w n with
      | (.val x, u) => (.val (v + 2 ^ (8 * w) * x), u)
      | r => r
    | r => r

/-- What a group template is found to be (R109): a wait, a fault, or its groups. -/
inductive TRead where
  | wait
  | fault
  | groups (l : List (Nat × List Nat))
  deriving DecidableEq, Repr

/-- The entries of a group template from `a` on (R109). A count above 5,120 is read to one index past it, more than ascending
hart indices can be. -/
def State.template (s : State) (part ctx a : Nat) : Nat → TRead × State
  | 0 => (.groups [], s)
  | n + 1 =>
    match s.ctxUnits part ctx a 4 4 with
    | (.wait _, t) => (.wait, t)
    | (.fault _, t) => (.fault, t)
    | (.val e, t) =>
      let cnt := min 5121 (bitsOf e 63 32)
      match t.ctxUnits part ctx (e / 2 ^ 64) 4 cnt with
      | (.wait _, u) => (.wait, u)
      | (.fault _, u) => (.fault, u)
      | (.val m, u) =>
        match u.template part ctx (a + 16) n with
        | (.groups l, v) => (.groups ((e % 256, (upTo cnt).map fun i => elemOf m 32 i) :: l), v)
        | r => r

/-- The effective HARTS is above every member index (R324), and no group has more members than a task can have harts (log entry 74). -/
def membersFit (harts : Nat) (l : List (Nat × List Nat)) : Bool :=
  l.all fun g => decide (g.2.length ≤ 5120) && g.2.all fun m => decide (m < harts)

/-! ### Queueing (R324, R325) -/

/-- How a launch whose reads have passed ends: a wait, or the status with the state after. -/
def State.enqueue (s : State) (part ctx : Nat) (r d : BitVec 512) (kpa : Nat) (wloc dloc : Loc) : Option Nat × State :=
  match s.partAt part with
  | none => (some 2, s)
  | some p =>
    if !descriptorOk d || !s.placeable p (effHarts r d) (effAff r d) then (some 2, s)
    else
      let (g, t) := s.template part ctx (kGrpoff d) (kNgrp d)
      let ok := match g with
        | .groups l => membersFit (effHarts r d) l
        | _ => true
      if g = .wait then (none, t)
      else if !ok then (some 2, t)
      else
        let q := 4 * rClass r + rQueue r
        if 64 ≤ (p.queues.toList.getD q []).length then (some 1, t)
        else
          let e : QEntry := { record := r, desc := d, ctx := ctx, kpa := kpa, wloc := wloc, dloc := dloc, eligible := !rWait r }
          (some 0, t.onPart part fun p =>
            { p with queues := Vector.ofFn fun i : Fin 16 => if i.val = q then p.queues.get i ++ [e] else p.queues.get i })

/-- A place that a launch does not use. -/
def noLoc : Loc := { kind := .cached, key := 0 }

/-- The translations of a launch in their order: KDESC, WADDR when WAIT = 1, DADDR when DONE = 1 (R323); the first fault, or none for a
walk that waits, with its address. -/
def launchLocs (loc : Nat → Acc → Placed) (r : BitVec 512) : Except (Option Cause × Nat) (Loc × Loc × Loc) :=
  match loc (rKdesc r) .read with
  | .error c => .error (c, rKdesc r)
  | .ok k =>
    match (if rWait r then loc (rWaddr r) .read else .ok noLoc) with
    | .error c => .error (c, rWaddr r)
    | .ok w =>
      match (if rDone r then loc (rDaddr r) .write else .ok noLoc) with
      | .error c => .error (c, rDaddr r)
      | .ok d => .ok (k, w, d)

/-- LAUNCH (R137, R322): the vector wait, `fence.rel.dev.eng`, the record, its translations, the descriptor, and the queue. -/
def execLaunch (d a : Reg) (s : State) : Out :=
  match s.release .dev true with
  | .error w => .next (s.waitFor w)
  | .ok t =>
    let ra := t.get a
    if ra.toNat % 64 ≠ 0 then .next (t.trap .misalign ra)
    else match t.loadRecord ra.toNat 8 with
      | ((.wait w, _), u) => .next (u.waitFor w)
      | ((.fault c, x), u) => .next (u.trap c (BitVec.ofNat 64 x))
      | ((.val v, _), u) =>
        let r := BitVec.ofNat 512 v
        let h := u.hart
        if !recordOk r then u.result d 2
        else match launchLocs (fun x acc => u.scalarLoc h x 8 acc) r with
          | .error (none, _) => .next (u.waitFor .memory)
          | .error (some c, x) => .next (u.trap c (BitVec.ofNat 64 x))
          | .ok (k, wl, dl) =>
            match u.loadRecord (rKdesc r) 8 with
            | ((.wait w, _), z) => .next (z.waitFor w)
            | ((.fault c, x), z) => .next (z.trap c (BitVec.ofNat 64 x))
            | ((.val v2, _), z) =>
              match z.enqueue h.tk.part h.tk.ctx r (BitVec.ofNat 512 v2) k.pa wl dl with
              | (none, y) => .next (y.waitFor .memory)
              | (some st, y) => y.result d (BitVec.ofNat 64 st)

/-- A control core executes `launch` on a record for a partition's window: the status, none while it waits; a fault is status 2
(R323, R354). -/
def State.windowLaunch (s : State) (part ctx : Nat) (r : BitVec 512) : Option Nat × State :=
  if !recordOk r then (some 2, s)
  else match launchLocs (fun x acc => s.ctxLoc part ctx x acc) r with
    | .error (none, _) => (none, s)
    | .error (some _, _) => (some 2, s)
    | .ok (k, wl, dl) =>
      match s.ctxUnits part ctx (rKdesc r) 8 8 with
      | (.wait _, t) => (none, t)
      | (.fault _, t) => (some 2, t)
      | (.val v, t) => t.enqueue part ctx r (BitVec.ofNat 512 v) k.pa wl dl

/-- A host access, command or launch of an order in which each waits for those before it (R354, R355, R357): one that cannot be
carried out joins those that wait; tried again, the first of them leaves when it is done. -/
def State.inOrder (s : State) (order : Nat) (i : HostAccess) (go : State → Option State) : State :=
  let t := { s with env := { s.env with again := false } }
  let tried := if s.env.again || s.sys.waiting.all (·.1 != order) then go t else none
  match tried with
  | some u => if s.env.again then { u with sys := { u.sys with waiting := dropFirst (·.1 == order) u.sys.waiting } } else u
  | none => if s.env.again then t else { t with sys := { t.sys with waiting := t.sys.waiting ++ [(order, i)] } }

/-- The status of SUBMIT or CMDSUBMIT of a window. -/
def State.windowStatus (s : State) (win n : Nat) : State := { s with sys := { s.sys with status := Sparse.put 0 s.sys.status win n } }

/-- SUBMIT (R354): a host write of a slot index to SUBMIT of a partition's window. The status reads 0xFF while the launch waits, also
behind an earlier one. -/
def execSubmit (part slot : Nat) (s : State) : Out :=
  if 7 < part then .next s
  else
    .next ((s.windowStatus (part + 1) 0xFF).inOrder (2 + part) (.submit part slot) fun s =>
      let (st, t) := match s.partAt part with
        | none => (some 2, s)
        | some p =>
          if 511 < slot then (some 2, s)
          else if p.keyWait then (none, s)
          else s.windowLaunch part p.winCtx (Sparse.get 0 s.sys.slots (512 * (part + 1) + slot))
      st.map fun n => t.windowStatus (part + 1) n)

/-! ### Start conditions (R326) -/

/-- The arbiter's monitor on the counter of a queue's head. -/
def counterMonitor (part queue : Nat) : Nat := 65536 + 16 * part + queue

/-- Change the head of a launch queue. -/
def onHead (q : Nat) (f : QEntry → QEntry) (p : Partition) : Partition :=
  { p with queues := Vector.ofFn fun i : Fin 16 =>
      if i.val = q then (match p.queues.get i with | [] => [] | e :: r => f e :: r) else p.queues.get i }

/-- The arbiter reads the start-condition counter of a head: the head is eligible while the counter holds at least WVAL as last
read, and the arbiter goes on watching its line until the head is placed (R326). -/
def State.readCounter (s : State) (part q : Nat) : State :=
  match (s.partAt part).bind fun p => (p.queues.toList.getD q []).head? with
  | none => s
  | some e =>
    if !rWait e.record then s
    else match s.lineRead e.wloc 8 with
      | (.val v, t) =>
        (t.monitor (counterMonitor part q) (lineOf e.wloc.key)).onPart part
          (onHead q fun e => { e with eligible := decide (rWval e.record ≤ v) })
      | (_, t) => t.monitor (counterMonitor part q) (lineOf e.wloc.key)

/-- START_COUNTER_REREAD (R326): a first read of a new head, or a read after a write to its counter's line. -/
def execStartCounterReread (part queue : Nat) (s : State) : Out :=
  match s.monitorOf (counterMonitor part queue) with
  | some m => .next (if m.hit then s.readCounter part queue else s)
  | none => .next (s.readCounter part queue)

/-- START_COUNTER_POLL_TIMEOUT (R326): 65,536 cycles have passed. -/
def execStartCounterPollTimeout (part queue : Nat) (s : State) : Out := .next (s.readCounter part queue)

end Sys2Proof.Machine
end

