-- ==== Sys2Proof/Machine/VecSync.lean ====
section
/-! DEFINITION. Vector synchronisation: linked gather and conditional scatter (R177, R178), vector locks (R179), accumulation
windows (R180 to R182), scatter-add (R183) and commutative ranges (R184, R185). -/
namespace Sys2Proof.Machine

/-! ### Elements checked before anything is changed -/

/-- What the place of an element makes it fault with: a remote home refuses it or cannot be reached, a lost word, an error (R296, R361,
R383). -/
def State.placeFault (s : State) (h : Hart) (loc : Loc) (b : Nat) : Option Cause :=
  let line := lineOf loc.key
  let m := wordMask loc.key b
  let r := match loc.kind with
    | .remote => some (s.remoteReady loc b)
    | .cached =>
      if !s.lineWaits line m && s.lineLost line m then some (.fault .ownerLost) else s.fabricDown h.core line
    | _ => none
  match r with
  | some (.fault c) => some c
  | _ => if s.poisoned loc.key b then some .ecc else none

/-- The owners of an element's words are asked before it is checked, so that a poisoned dirty word is known to be lost (R307). -/
def State.askElem (s : State) (h : Hart) (a b : Nat) : State :=
  match s.elemLoc h a b .write false with
  | .error _ => s
  | .ok loc =>
    let line := lineOf loc.key
    let m := wordMask loc.key b
    if loc.kind == .cached && !s.lineWaits line m then s.askOwners line m else s

/-- The same for every active element. -/
def State.askElems (s : State) (h : Hart) (b : Nat) (act : Nat → Bool) (addr : Nat → Nat) (n : Nat) : State :=
  (upTo n).foldl (fun t i => if act i then t.askElem h (addr i) b else t) s

/-- The checks of R165 on an element that is changed at its home: write permission first, as R118 asks of an atomic; `atomic`
adds ATOMIC_PATH. The detector records a write once one is made. -/
def State.homeElem (s : State) (h : Hart) (a b : Nat) (atomic : Bool) : Except Cause (Loc × State) :=
  match s.elemLoc h a b .write false with
  | .error c => .error c
  | .ok loc =>
    if atomic && loc.kind == .remote && !loc.ar then .error .atomicPath
    else match s.placeFault h loc b with
      | some c => .error c
      | none =>
        if s.guardPoisoned loc.key then .error .guard
        else match s.race h loc.key b false atomic with
          | none => .error .race
          | some t => if h.watched a b true || (atomic && h.watched a b false) then .error .watch else .ok (loc, t)

/-- The hart has stored at places: the race detector records it (R390). -/
def State.noteStores (s : State) (b : Nat) (atomic : Bool) (ls : List Loc) : State :=
  ls.foldl (fun t l => t.shadowStore s.hart l.key b atomic) s

/-- Every active element from `i` on, checked in ascending order: (index, address, place), or the lowest fault. -/
def checkElems (h : Hart) (b : Nat) (atomic : Bool) (act : Nat → Bool) (addr : Nat → Nat) (i : Nat) :
    Nat → State → Except (Nat × Cause × Nat) (List (Nat × Nat × Loc) × State)
  | 0, s => .ok ([], s)
  | n + 1, s =>
    if !act i then checkElems h b atomic act addr (i + 1) n s
    else match s.homeElem h (addr i) b atomic with
      | .error c => .error (i, c, addr i)
      | .ok (loc, t) =>
        match checkElems h b atomic act addr (i + 1) n t with
        | .error x => .error x
        | .ok (l, u) => .ok ((i, addr i, loc) :: l, u)

/-- Make memory hold the current value of words of a line, ready for a change at its ordering point: owners are taken and
partials collected at a home, queued writes go out at a controller (R280, R296). -/
def State.atPlace (s : State) (loc : Loc) (m : BitVec 16) : Except Wait State :=
  let line := lineOf loc.key
  match loc.kind with
  | .bank => if s.bankTest loc.key then .error .memory else .ok s
  | .remote => match s.remoteReady { loc with key := 64 * line } 64 with
    | .wait w => .error w
    | _ => .ok s
  | .uncached => if s.underTest line then .error .memory else .ok (s.flushQueue (·.line == line))
  | _ =>
    if (s.fabricDown s.hart.core line).isSome || s.lineWaits line m then .error .memory
    else .ok ((s.collect line).takeOwners line m)

/-- The lines of checked elements, each once, in ascending order of address. -/
def insertLine (l : Nat) : List Nat → List Nat
  | [] => [l]
  | k :: r => if l < k then l :: k :: r else if l = k then k :: r else k :: insertLine l r
def elemLines (els : List (Nat × Nat × Loc)) : List Nat := els.foldl (fun a e => insertLine (lineOf e.2.2.key) a) []

/-- The words that elements of `b` bytes touch in a line. -/
def maskIn (b line : Nat) (els : List (Nat × Nat × Loc)) : BitVec 16 :=
  els.foldl (fun m e => if lineOf e.2.2.key = line then m ||| wordMask e.2.2.key b else m) 0

/-- Every line of the elements is ready at its place, or one of them makes the instruction wait. -/
def State.atPlaces (s : State) (b : Nat) (els : List (Nat × Nat × Loc)) : Except Wait State :=
  (elemLines els).foldl (fun r line => r.bind fun t =>
    match els.find? fun e => lineOf e.2.2.key == line with
    | none => .ok t
    | some e => t.atPlace e.2.2 (maskIn b line els)) (.ok s)

/-! ### Linked gather and conditional scatter (R177, R178) -/

/-- The slice of a line, with the module that holds it. -/
def linkHome (line : Nat) : Nat × Nat := (line / 2 ^ 46, homeSlice (line % 2 ^ 42))

/-- The home records a link of the hart to a line; a slice holds 2,048, the oldest leaving (R177). -/
def State.link (s : State) (hart line : Nat) : State :=
  let others := s.coh.links.filter fun l => !(l == (hart, line))
  let l := others ++ [(hart, line)]
  let mine := l.filter fun x => linkHome x.2 == linkHome line
  { s with coh := { s.coh with
      links := if mine.length ≤ 2048 then l else dropFirst (fun x => linkHome x.2 == linkHome line) l } }

/-- A place with a home: a cached or a remote line; a scratchpad bank and an uncached page have none (R57, R310). -/
def Loc.hasHome (l : Loc) : Bool := l.kind == .cached || l.kind == .remote

/-- Links for the elements delivered. -/
def linkElems (e : VEntry) (ad : Nat → Nat) (start stop : Nat) (s : State) : State :=
  let h := s.hart
  let b := h.vt.ew / 8
  (List.range' start (stop - start)).foldl (fun t i =>
    if !h.maskBit (BitVec.ofNat 3 (wK e.word)) i then t
    else match t.elemLoc h (ad i) b .read false with
      | .ok loc => if loc.hasHome then t.link h.id (lineOf loc.key) else t
      | .error _ => t) s

/-- VGLL (R177). -/
def vgllBody : Body := fun e s => loadBody false (indexAddr ewIw) (linkElems e) e s
def execVgll (d a b : Reg) (k : BitVec 3) (t : Bool) (s : State) : Out := vissue (encode (.vgll d a b k t)) vgllBody s

/-- Store an element at its place. -/
def State.putElem (s : State) (loc : Loc) (b v : Nat) : State := s.putNat loc.key b (v % 2 ^ (8 * b))

/-- VSCC at one line: all of its elements in ascending order when the hart's link is set, or none (R178). -/
def sccLine (h b : Nat) (data : Nat → Nat) (els : List (Nat × Nat × Loc)) (r : List Nat × State) (line : Nat) : List Nat × State :=
  if r.2.coh.links.any (· == (h, line)) then
    let mine := els.filter fun e => lineOf e.2.2.key == line
    (r.1 ++ mine.map (·.1), ((mine.foldl (fun t e => t.putElem e.2.2 b (data e.1)) r.2).noteWrite line).noteStores b false (mine.map (·.2.2)))
  else r

/-- VSCC (R178). -/
def vsccBody : Body := fun e s0 =>
  let h := s0.hart
  let t := h.vt
  let b := t.ew / 8
  let s := s0.askElems h b (activeOf s0 e) (indexAddr ewIw e s0) t.vl
  match checkElems h b false (activeOf s e) (indexAddr ewIw e s) 0 t.vl s with
  | .error (i, c, a) => .trap e c (BitVec.ofNat 64 a) i s
  | .ok (els, u) =>
    match u.atPlaces b els with
    | .error w => .block w e s
    | .ok v =>
      let g := h.group (wD e.word) t.g
      let (won, z) := (elemLines els).foldl (sccLine h.id b (fun i => elemOf g t.ew i) els) ([], v)
      .done (z.onHart (putMaskTo t (wK e.word) 0 4096 fun i => won.any (· == i)))
def execVscc (d a b : Reg) (k : BitVec 3) (t : Bool) (s : State) : Out := vissue (encode (.vscc d a b k t)) vsccBody s

/-! ### Vector locks (R179) -/

/-- h's value: 0x8000_0000_0000_0000 OR HARTID[20:0]. -/
def lockValue (id : Nat) : Nat := 2 ^ 63 + hartIdOf id % 2 ^ 21

/-- The distinct lock words of a line. -/
def lockWords (els : List (Nat × Nat × Loc)) (line : Nat) : List Loc :=
  ((els.filter fun e => lineOf e.2.2.key == line).map (·.2.2)).eraseDups

/-- `vlock` at one line: all of its words, if each is 0 or the hart's already, or none. -/
def lockLine (mine : Nat) (els : List (Nat × Nat × Loc)) (s : State) (line : Nat) : State :=
  let ws := lockWords els line
  if ws.all fun l => s.memNat l.key 8 == 0 || s.memNat l.key 8 == mine then
    ((ws.foldl (fun t l => t.putElem l 8 mine) s).noteWrite line).noteStores 8 true ws
  else s.clearLinks line

/-- `vunlock` at one line: the words that hold the hart's value become 0. -/
def unlockLine (mine : Nat) (els : List (Nat × Nat × Loc)) (s : State) (line : Nat) : State :=
  let ws := (lockWords els line).filter fun l => s.memNat l.key 8 == mine
  if ws.isEmpty then s.clearLinks line else ((ws.foldl (fun t l => t.putElem l 8 0) s).noteWrite line).noteStores 8 true ws

/-- The work of `vlock` and `vunlock`: every active address is checked, then the lines are visited (R179). -/
def locksBody (take : Bool) : Body := fun e s0 =>
  let h := s0.hart
  let t := h.vt
  let s := s0.askElems h 8 (activeOf s0 e) (indexAddr ewIw e s0) t.vl
  let mine := lockValue h.id
  match checkElems h 8 true (activeOf s e) (indexAddr ewIw e s) 0 t.vl s with
  | .error (i, c, a) => .trap e c (BitVec.ofNat 64 a) i s
  | .ok (els, u) =>
    match u.atPlaces 8 els with
    | .error w => .block w e s
    | .ok v =>
      if take then
        let z := (elemLines els).foldl (lockLine mine els) v
        let held := els.filter fun x => z.memNat x.2.2.key 8 == mine
        .done (z.onHart (putMaskTo t (wD e.word) 0 4096 fun i => held.any (·.1 == i)))
      else .done ((elemLines els).foldl (unlockLine mine els) v)
/-- VLOCK (R179). -/
def execVlock (d a b : Reg) (k : BitVec 3) (s : State) : Out := vissue (encode (.vlock d a b k)) (locksBody true) s
/-- VUNLOCK (R179). -/
def execVunlock (a b : Reg) (k : BitVec 3) (s : State) : Out := vissue (encode (.vunlock a b k)) (locksBody false) s

/-! ### Accumulation windows (R180 to R182) -/

/-- WIN_DECL (R180): four lanes a quad, each with n zero entries; PAGE before MISALIGN (log entry 176). -/
def winDeclBody : Body := fun e s =>
  let h := s.hart
  let t := h.vt
  let a := e.xa.toNat
  if isLocal a then .trap e .page e.xa 0 s
  else if a % 4 ≠ 0 then .trap e .misalign e.xa 0 s
  else .done (s.onHart fun g => { g with win := some {
    base := a, n := e.xb.toNat, float := t.isFloat, signed := t.isSigned
    copies := List.replicate (4 * h.quads.count * e.xb.toNat) 0 } })
def execWinDecl (a b : Reg) (s : State) : Out := vissue (encode (.winDecl a b)) winDeclBody s

/-- One active element of `vscadd.win` (R181): the new copies and the events. -/
def winAdd (w : Window) (rm : RMode) (lanes e idx x : Nat) : List (BitVec 32) × Ev :=
  if w.n ≤ idx then (w.copies, { nv := true })
  else
    let p := (e % (4 * lanes)) / 4 * w.n + idx
    let old := (w.copies.getD p 0).toNat
    let r : Nat × Ev := if w.float then fAdd fp32 rm old x else ((old + x) % 2 ^ 32, {})
    (w.copies.set p (BitVec.ofNat 32 r.1), r.2)

/-- The elements of `vscadd.win` from index `i` on; an enabled class traps at its element, which changes nothing (R143, R181). -/
def winAdds (e : VEntry) (act : Nat → Bool) (idx x : Nat → Nat) (i : Nat) : Nat → Window → State → VOut
  | 0, w, s => .done (s.onHart fun h => { h with win := some w })
  | n + 1, w, s =>
    if !act i then winAdds e act idx x (i + 1) n w s
    else
      let (c, ev) := winAdd w s.hart.vt.rm (4 * s.hart.vt.n) i (idx i) (x i)
      let t := s.recordAt e.pc [(i, ev)]
      match ev.trap t.hart.fl.flags with
      | some k => .trap e k (e.word.setWidth 64) i (t.onHart fun h => { h with win := some w })
      | none => winAdds e act idx x (i + 1) n { w with copies := c } t

/-- VSCADD_WIN (R181): a hart without a window was stopped at check 3. -/
def vscaddWinBody : Body := fun e s =>
  let h := s.hart
  let t := h.vt
  match h.win with
  | none => .trap e .illegalType (e.word.setWidth 64) 0 s
  | some w =>
    let b := h.group (wB e.word) t.g
    let d := h.group (wD e.word) t.g
    winAdds e (activeOf s e) (elemOf b 32) (elemOf d 32) e.start (t.vl - e.start) w s
def execVscaddWin (d b : Reg) (k : BitVec 3) (s : State) : Out := vissue (encode (.vscaddWin d b k)) vscaddWinBody s

/-- The atomic addition of a value to a word, at the place R119 gives for the scope: integers wrap, floats round in RNE, no flag
is raised (R182, R183). -/
def State.addAt (s : State) (sc : Scope) (loc : Loc) (w : Nat) (fmt : Option Fmt) (x : Nat) : Rd × State :=
  let matched := fun r : CRange => r.op == 0#2 && decide (r.ew = w) && (if fmt.isSome then decide (r.cls = 2) else decide (r.cls ≤ 1))
  let add := fun old : Nat => match fmt with
    | some f => (fAdd f .rne old x).1
    | none => (old + x) % 2 ^ w
  s.atomicAt s.hart sc loc w matched x fun old => some (add old)

/-- The fold of entry `i` over the lanes, none when every copy has a zero bit pattern (R182). -/
def winFold (w : Window) (lanes i : Nat) : Option Nat :=
  let c := (upTo lanes).map fun l => (w.copies.getD (l * w.n + i) 0).toNat
  if c.all (· == 0) then none
  else some (match c with
    | [] => 0
    | x :: r => r.foldl (fun a y => if w.float then (fAdd fp32 .rne a y).1 else (a + y) % 2 ^ 32) x)

/-- Zero entry `i` of every copy. -/
def Window.clear (w : Window) (lanes i : Nat) : Window :=
  { w with copies := (upTo lanes).foldl (fun c l => c.set (l * w.n + i) 0) w.copies }

/-- WIN_MERGE from entry `i` on (R182). -/
def winMerges (sc : Scope) (e : VEntry) (lanes i : Nat) : Nat → Window → State → VOut
  | 0, w, s => .done (s.onHart fun h => { h with win := some w })
  | n + 1, w, s0 =>
    let keep := fun t : State => t.onHart fun h => { h with win := some w }
    match winFold w lanes i with
    | none => winMerges sc e lanes (i + 1) n (w.clear lanes i) s0
    | some v =>
      let a := (w.base + 4 * i) % 2 ^ 64
      let s := s0.askElem s0.hart a 4
      let add := fun (t : State) loc => t.addAt sc loc 32 (if w.float then some fp32 else none) v
      match s.homeElem s.hart a 4 true with
      | .error c => .trap e c (BitVec.ofNat 64 a) i (keep s)
      | .ok (loc, t) =>
        match add t loc with
        | (.wait x, _) => .block x { e with start := i } (keep (add s loc).2)
        | (.fault c, _) => .trap e c (BitVec.ofNat 64 a) i (keep (add s loc).2)
        | (.val _, u) => winMerges sc e lanes (i + 1) n (w.clear lanes i) (u.noteStores 4 true [loc])

def winMergeBody (sc : Scope) : Body := fun e s =>
  match s.hart.win with
  | none => .trap e .illegalType (e.word.setWidth 64) 0 s
  | some w => winMerges sc e (4 * s.hart.quads.count) e.start (w.n - e.start) w s
def execWinMerge (sc : Scope) (s : State) : Out := vissue (encode (.winMerge sc)) (winMergeBody sc) s

/-! ### Scatter-add (R183) -/

/-- The scope of a `vscadd` (R183). -/
def scaddScope (c : BitVec 2) : Scope := if c = 1#2 then .clu else if c = 2#2 then .sys else .dev

/-- The checked elements, added in ascending order; a wait or fault of any ends it with nothing added. -/
def addAll (sc : Scope) (w : Nat) (fmt : Option Fmt) (data : Nat → Nat) :
    List (Nat × Nat × Loc) → State → Except (Rd × Nat × Nat) State
  | [], s => .ok s
  | (i, a, loc) :: r, s =>
    match s.addAt sc loc w fmt (data i) with
    | (.val _, t) => addAll sc w fmt data r (t.noteStores (w / 8) true [loc])
    | (x, _) => .error (x, i, a)

/-- VSCADD (R183). -/
def vscaddBody (sc : Scope) : Body := fun e s0 =>
  let h := s0.hart
  let t := h.vt
  let s := s0.askElems h (t.ew / 8) (activeOf s0 e) (indexAddr ewIw e s0) t.vl
  match checkElems h (t.ew / 8) true (activeOf s e) (indexAddr ewIw e s) 0 t.vl s with
  | .error (i, c, a) => .trap e c (BitVec.ofNat 64 a) i s
  | .ok (els, u) =>
    let g := h.group (wD e.word) t.g
    match addAll sc t.ew (if t.isFloat then some t.fmt else none) (fun i => elemOf g t.ew i) els u with
    | .ok v => .done v
    | .error (.fault c, i, a) => .trap e c (BitVec.ofNat 64 a) i s
    | .error (.wait w, _, _) => .block w e s
    | .error (.val _, _, _) => .done u
def execVscadd (d a b : Reg) (k : BitVec 3) (t : Bool) (c : BitVec 2) (s : State) : Out :=
  vissue (encode (.vscadd d a b k t c)) (vscaddBody (scaddScope c)) s

/-! ### Commutative ranges (R184, R185) -/

/-- The physical segments of a range of `len` bytes, page by page of 1 GiB: those on cached pages, or the first fault. -/
def rangeSegs (s : State) (part ctx a len : Nat) : Nat → Except (Cause × Nat) (List (Nat × Nat))
  | 0 => .ok []
  | n + 1 =>
    if len = 0 then .ok []
    else
      let here := min len (2 ^ 30 - a % 2 ^ 30)
      match s.vmapLoc part ctx a .write with
      | .error c => .error (c, a)
      | .ok loc =>
        match rangeSegs s part ctx (a + here) (len - here) n with
        | .error x => .error x
        | .ok l => .ok (if loc.kind == .cached then (loc.key, here) :: l else l)

/-- A line lies in a list of segments. -/
def inSegs (segs : List (Nat × Nat)) (line : Nat) : Bool :=
  segs.any fun (b, n) => decide (b ≤ 64 * line) && decide (64 * line < b + n)

/-- Combine buffers write back and drop the undeclared copies of a partition that satisfy `p` (R184, R306). -/
def State.flushCopiesIn (s : State) (p : CombLine → Bool) : Option State :=
  (s.coh.comb.filter p).foldl (fun r b => r.bind fun t => t.combFlush b) (some s)

/-- CR_DECL (R184), PAGE before MISALIGN (log entry 176). Number and overlap were checked at the push (R255), when other harts' queued
declarations counted; a replay of a `zloop` body declares its own range once more (log entry 159). -/
def crDeclBody (o : BitVec 2) (r : BitVec 3) : Body := fun e s =>
  let h := s.hart
  let t := h.vt
  let a := e.xa.toNat
  let len := e.xb.toNat
  if isLocal a then .trap e .page e.xa 0 s
  else if a % 64 ≠ 0 then .trap e .misalign e.xa 0 s
  else match rangeSegs s h.tk.part h.tk.ctx a len 6 with
    | .error (c, f) => .trap e c (BitVec.ofNat 64 f) 0 s
    | .ok segs =>
      match s.flushCopiesIn fun b => !b.partialLine && b.part == h.tk.part && inSegs segs b.line with
      | none => .block .memory e s
      | some u =>
        let rg : CRange := { part := h.tk.part, task := h.tk.task, rng := r.toNat, va := a, len := len, op := o, ew := t.ew, cls := t.cls, segs := segs }
        let others := u.coh.ranges.filter fun g => !(g.part == rg.part && g.task == rg.task && g.rng == rg.rng)
        .done { u with coh := { u.coh with ranges := others ++ [rg] } }
def execCrDecl (o : BitVec 2) (r : BitVec 3) (a b : Reg) (s : State) : Out := vissue (encode (.crDecl o r a b)) (crDeclBody o r) s

/-- The homes collect every line of a range (R185, R303); none while one of its lines makes it wait. -/
def State.collectRange (s : State) (r : CRange) : Option State :=
  (r.segs.flatMap fun g => (upTo (g.2 / 64)).map (g.1 / 64 + ·)).foldl (fun t line => t.bind fun t => if t.lineWaits line 0xFFFF#16 then none else some (t.collect line)) (some s)

/-- Collect and remove the ranges that satisfy `p`. -/
def State.dropRanges (s : State) (p : CRange → Bool) : Option State :=
  ((s.coh.ranges.filter p).foldl (fun t r => t.bind (·.collectRange r)) (some s)).map fun t =>
    { t with coh := { t.coh with ranges := t.coh.ranges.filter fun r => !p r } }

/-- CR_DROP (R185). -/
def crDropBody (r : BitVec 3) : Body := fun e s =>
  match s.dropRanges fun g => g.part == s.hart.tk.part && g.task == s.hart.tk.task && g.rng == r.toNat with
  | none => .block .memory e s
  | some t => .done t
def execCrDrop (r : BitVec 3) (s : State) : Out := vissue (encode (.crDrop r)) (crDropBody r) s

end Sys2Proof.Machine
end

