-- ==== Sys2Proof/Machine/Placement.lean ====
section
/-! DEFINITION. The arbiter and the dispatcher: which task is placed next (R327), where its harts go (R258, R315, R330), what a placed
hart starts with (R4, R26, R259, R329), pre-emption requests (R332), restoring (R336, R394), and the end of a task (R328). -/
namespace Sys2Proof.Machine

/-! ### What a core holds -/

/-- What tasks hold on a core: hart slots, quads held, reserved or out of service, scratchpad, and for each task its tiles, slots
and context. -/
structure Use where
  slots : List Nat
  quads : BitVec 8
  spad : List (Nat × Nat)
  tasks : List (Nat × Nat × Nat × Nat)
  deriving DecidableEq, Repr

/-- What the tasks outside `ign` hold on a core. -/
def State.useOf (s : State) (ign : List Nat) (c : Nat) : Use :=
  let hs := (s.hartsOn c).filter fun h => !ign.any (· == h.tk.task)
  let ps := s.places.filter fun p => p.core == c && !ign.any (· == p.task)
  { slots := hs.map (·.slot)
    quads := (ps.foldl (fun m p => m ||| p.reserve) (hs.foldl (fun m h => m ||| h.quads.mask) (s.coreAt c).outQuads))
    spad := ps.flatMap (·.spad)
    tasks := ps.map fun p => (p.task, p.tiles, p.slots, ((s.taskAt p.task).map (·.entry.ctx)).getD 0) }

/-- A task may stand on the core beside those there (R198). -/
def Use.hosts (u : Use) (task tiles slots ctx : Nat) : Bool :=
  if u.tasks.any (·.1 == task) then true
  else
    let l := (task, tiles, slots, ctx) :: u.tasks
    decide ((l.map (·.2.1)).sum ≤ 4) && decide ((l.map (·.2.2.1)).sum ≤ 64) &&
    decide (((l.filter fun t => decide (0 < t.2.1 + t.2.2.1)).map (·.2.2.2)).eraseDups.length ≤ 2)

/-- A task stands on the core. -/
def Use.enter (u : Use) (task tiles slots ctx : Nat) : Use :=
  if u.tasks.any (·.1 == task) then u else { u with tasks := (task, tiles, slots, ctx) :: u.tasks }

/-- Scratchpad bytes are free. -/
def spadFree (l : List (Nat × Nat)) (limit off len : Nat) : Bool :=
  decide (off + len ≤ limit) && l.all fun a => decide (off + len ≤ a.1) || decide (a.1 + a.2 ≤ off)

/-- The lowest free offset: 0 or the end of an allocation (R330, R334). -/
def lowestHole (l : List (Nat × Nat)) (limit len : Nat) : Option Nat :=
  (sortBy (fun a b => decide (a < b)) (0 :: l.map fun a => a.1 + a.2)).find? fun o => spadFree l limit o len

/-- A place for a hart: core, slot, quads and scratchpad offset. -/
structure Seat where
  core : Nat
  slot : Nat
  quads : Quads
  off : Nat
  deriving DecidableEq, Repr

/-- One hart's place on a core (R258), at a scratchpad offset if one is asked for. -/
def Use.seat (u : Use) (core task tiles slots ctx q len : Nat) (at_ : Option Nat) : Option (Seat × Use) :=
  if !u.hosts task tiles slots ctx then none
  else match (upTo 8).find? fun i => !u.slots.any (· == i) with
    | none => none
    | some sl =>
      match blockIn (~~~u.quads) q with
      | none => none
      | some b =>
        let off := if len = 0 then some 0 else match at_ with
          | some o => if spadFree u.spad (2 ^ 21) o len then some o else none
          | none => lowestHole u.spad (2 ^ 21) len
        off.map fun o =>
          ({ core := core, slot := sl, quads := b, off := o },
           { u.enter task tiles slots ctx with
             slots := sl :: u.slots, quads := u.quads ||| b.mask
             spad := if len = 0 then u.spad else (o, len) :: u.spad })

/-- As many harts as a core takes, `n` at most. -/
def Use.seats (u : Use) (core task tiles slots ctx q len : Nat) : Nat → List Seat
  | 0 => []
  | n + 1 =>
    match u.seat core task tiles slots ctx q len none with
    | none => []
    | some (x, v) => x :: v.seats core task tiles slots ctx q len n

/-! ### The order of cores (R330) -/

/-- The dies, from the one with the most of what is counted, lower die first on a tie, in rising number and around. -/
def dieOrder (cnt : Nat → Nat) : List Nat :=
  let b := [1, 2, 3].foldl (fun b d => if cnt b < cnt d then d else b) 0
  [b, (b + 1) % 4, (b + 2) % 4, (b + 3) % 4]

/-- The cores of the partition on which a task with that affinity may be placed now. -/
def State.coresFor (s : State) (p : Partition) (aff : Option Nat) : List Nat :=
  (s.partCores p).filter fun c => !(s.coreAt c).out && (match aff with | none => true | some a => clusterOf c == a)

/-- The cores in the order in which a task takes its places. -/
def State.coreOrder (s : State) (ign : List Nat) (cores : List Nat) : List Nat :=
  (dieOrder fun d => ((cores.filter fun c => c / 160 == d).map fun c => 8 - (s.useOf ign c).slots.length).sum).flatMap fun d =>
    cores.filter fun c => c / 160 == d

/-- A cluster qualifies for a task placed by whole clusters; with its tiles and slots the task must have room there (R198, R258). -/
def State.clusterFree (s : State) (ign cores : List Nat) (room : Use → Bool) (cl : Nat) : Bool :=
  (upTo 4).all fun i =>
    let c := 4 * cl + i
    let u := s.useOf ign c
    cores.any (· == c) && u.slots.isEmpty && u.quads == 0#8 && u.spad.isEmpty && room u

/-- The qualifying clusters in their order. -/
def State.clusterOrder (s : State) (ign cores : List Nat) (room : Use → Bool) : List Nat :=
  let qual := ((cores.map clusterOf).eraseDups).filter (s.clusterFree ign cores room)
  (dieOrder fun d => (qual.filter fun c => c / 40 == d).length).flatMap fun d => qual.filter fun c => c / 40 == d

/-- Harts over cores in turn. -/
def State.fillCores (s : State) (ign : List Nat) (task : Nat) (d : BitVec 512) (ctx : Nat) : List Nat → Nat → List Seat
  | [], _ => []
  | c :: r, n =>
    if n = 0 then []
    else
      let l := (s.useOf ign c).seats c task (kTiles d) (kSlots d) ctx (kQuads d) (kSpad d) (min 8 n)
      l ++ s.fillCores ign task d ctx r (n - l.length)

/-- The task is placed by whole clusters (R315, R330). -/
def wholeClusters (r d : BitVec 512) : Bool := kQuads d == 8 && decide (effHarts r d % 4 = 0)

/-- A place for every hart of a task, in index order, or none (R258, R330). -/
def State.plan (s : State) (ign : List Nat) (p : Partition) (task : Nat) (e : QEntry) : Option (List Seat) :=
  let d := e.desc
  let n := effHarts e.record d
  let cores := s.coresFor p (effAff e.record d)
  if wholeClusters e.record d then
    let cls := s.clusterOrder ign cores fun u => u.hosts task (kTiles d) (kSlots d) e.ctx
    if cls.length < n / 4 then none
    else (upTo n).mapM fun i =>
      let c := 4 * cls.getD (i / 4) 0 + i % 4
      ((s.useOf ign c).seat c task (kTiles d) (kSlots d) e.ctx 8 (kSpad d) (some 0)).map (·.1)
  else
    let l := s.fillCores ign task d e.ctx (s.coreOrder ign cores) n
    if l.length = n then some l else none

/-! ### Starting a task -/

/-- GMEM: the first four groups that hold a hart, in ascending number (R26, R109). -/
def gmemOf (groups : List (Nat × List Nat)) (i : Nat) : Word :=
  BitVec.ofNat 64 (joinNat 16 (fun j => (((groups.filter fun g => g.2.any (· == i)).map (·.1))[j]?.map (2 ^ 15 + ·)).getD 0) 4)

/-- A placed hart (R4, R8, R26, R259). -/
def placedHart (task part : Nat) (e : QEntry) (groups : List (Nat × List Nat)) (i : Nat) (x : Seat) : Hart :=
  let g := Hart.empty (8 * x.core + x.slot)
  let len := kSpad e.desc
  let h : Hart := { g with
    status := .placed, pc := BitVec.ofNat 64 (kEntry e.desc), quads := x.quads
    vr := { g.vr with quads := x.quads.count }
    tr := { g.tr with tvec := BitVec.ofNat 64 (kTvec e.desc) }
    tk := { g.tk with task := task, part := part, ctx := e.ctx, index := i, count := effHarts e.record e.desc, gmem := gmemOf groups i } }
  (h.set 2 (if len = 0 then 0 else BitVec.ofNat 64 (2 ^ 63 + x.off + len))).set 10 (rArg e.record)

/-- A hart stands in its slot. -/
def State.putHart (s : State) (g : Hart) : State :=
  if s.hart.id = g.id then { s with hart := g } else { s with others := g :: s.others.filter fun h => h.id != g.id }

/-- What a task holds on a core at its start (R198, R206). -/
def freshPlace (task : Nat) (e : QEntry) (core : Nat) (seats : List Seat) : Place :=
  let len := kSpad e.desc
  { task := task, core := core, tiles := kTiles e.desc, slots := kSlots e.desc, tile := [], side := [], pair := [], slot := []
    shdr := [], claims := [], badRows := [], badSlots := []
    spad := if len = 0 then [] else (seats.filter (·.core == core)).map fun x => (x.off, len)
    reserve := 0 }

/-- Tiles and slots of the core are allotted to what a task holds there: the lowest that no other task holds (R198, log entry 166). -/
def State.allot (s : State) (p : Place) : Place :=
  let here := s.places.filter fun q => q.core == p.core && q.task != p.task
  let pick := fun (limit n : Nat) (held : List Nat) => ((upTo limit).filter fun i => !held.any (· == i)).take n
  { p with
    tileMap := pick 4 p.tiles (here.flatMap fun q => (upTo q.tiles).map q.physTile)
    slotMap := pick 64 p.slots (here.flatMap fun q => (upTo q.slots).map q.physSlot) }

/-- The contexts that hold tiles or slots on a core, a new one last (R219). -/
def State.noteCtx (s : State) (core part ctx : Nat) (d : BitVec 512) : State :=
  if kTiles d + kSlots d = 0 then s
  else s.onCore core fun c => if c.ctxs.any (· == (part, ctx)) then c else { c with ctxs := c.ctxs ++ [(part, ctx)] }

/-- A line of what a save writes: the spec gives a slot no layout, so its bytes are free values, which belong to the save's number (log
entry 34). -/
def saveLine (mark i : Nat) : BitVec 512 := BitVec.ofNat 512 (joinNat 8 (fun b => (Config.saveByte (2 ^ 52 * mark + 64 * i + b)).toNat) 64)

/-- A part of a save slot is written at its lines' homes (R334): a lost word stays lost. -/
def State.writeSlot (s : State) (base size : Nat) : State :=
  (upTo (size / 64)).foldl (fun t i =>
    let l := lineOf (dramKey base) + i
    let u := t.takeOwners l 0xFFFF#16
    let own := (u.homeAt l).select 0xFFFF#16 (· == .unreg)
    (u.applyLine l (bytesOfWords own) (saveLine s.env.free i)).noteWrite l) s

/-- Where a save slot begins in physical memory. -/
def State.slotBase (s : State) (part : Nat) (v : SaveSlot) : Nat := ((s.partAt part).map (·.saveArea.1)).getD 0 + v.base

/-- The part of a slot for a core, or for cluster c as 640 + c: its offset and length. -/
def SaveSlot.partOf (v : SaveSlot) (unit : Nat) : Nat × Nat := ((v.parts.find? (·.1 == unit)).map (·.2)).getD (0, 0)

/-- The sessions and lists of pre-empted tasks on clusters that another task takes, and where they have no hart left, go to those tasks'
save slots (R394). -/
def State.displace (s0 : State) (task : Nat) (clusters : List Nat) : State :=
  let gone := fun (cl t : Nat) => clusters.any (· == cl) && t != task && (match s0.taskAt t with
    | some x => (x.phase == .saved || x.phase == .preempting) && !s0.harts.any fun h => h.present && h.tk.task == t && h.cluster == cl
    | none => false)
  let ss := s0.eng.sessions.filter fun x => gone x.cluster x.task
  let ls := s0.eng.lists.filter fun x => gone x.cluster x.task
  let units := ((ss.map fun x => (x.task, x.cluster)) ++ ls.map fun x => (x.task, x.cluster)).eraseDups
  let s := units.foldl (fun t u =>
    match t.sys.saves.find? (·.task == u.1), t.taskAt u.1 with
    | some v, some k => let (o, n) := v.partOf (640 + u.2); t.writeSlot (t.slotBase k.part v + o) n
    | _, _ => t) s0
  { s with
    eng := { s.eng with
      sessions := s.eng.sessions.filter fun x => !gone x.cluster x.task
      lists := s.eng.lists.filter fun x => !gone x.cluster x.task }
    sys := { s.sys with saves := s.sys.saves.map fun v =>
      { v with sessions := v.sessions ++ ss.filter (·.task == v.task), lists := v.lists ++ ls.filter (·.task == v.task) } } }

/-- Place a queued task (R258, R261). -/
def State.placeTask (s : State) (part : Nat) (e : QEntry) (groups : List (Nat × List Nat)) (seats : List Seat) : State :=
  let id := s.sys.nextTask
  let cores := (seats.map (·.core)).eraseDups
  let task : Task :=
    { id := id, part := part, entry := e, phase := .running
      groups := groups.map fun g => { num := g.1, members := g.2, phase := 0, arrived := [] }
      halted := [], started := id, ending := false }
  let t := seats.zipIdx.foldl (fun t x => t.putHart (placedHart id part e groups x.2 x.1)) s
  let u := cores.foldl (fun t c => t.noteCtx c part e.ctx e.desc) t
  ({ u with
    places := u.places ++ cores.map fun c => u.allot (freshPlace id e c seats)
    sys := { u.sys with tasks := u.sys.tasks ++ [task], nextTask := id + 1 } }).displace id ((cores.map clusterOf).eraseDups)

/-- HART_START (R329, R331): the caches of its core are invalidated, the hart performs `fence.acq.dev.ro`, and runs. -/
def execHartStart (h : Nat) (s : State) : Out :=
  match s.hartAt h with
  | some g =>
    if g.status == .placed && (match s.taskAt g.tk.task with | some t => t.phase == .running | none => false) then
      let t := (s.turnTo h).onHart fun k => { k with status := .running }
      .next ((t.acquire .dev true).onCore g.core fun c => { c with icache := [] })
    else .next s
  | none => .next s

/-! ### Events (R357) -/

/-- An event record; the log of 256 discards its oldest. -/
def State.event (s : State) (addr kind part : Nat) : State :=
  let r := BitVec.ofNat 256 (s.env.cycle % 2 ^ 64 + addr % 2 ^ 64 * 2 ^ 64 + kind * 2 ^ 128 + part * 2 ^ 136)
  let l := s.sys.events ++ [r]
  { s with sys := { s.sys with events := if l.length ≤ 256 then l else l.drop 1 } }

/-! ### Pre-emption requests (R332 to R334) -/

/-- Quads in a set. -/
def quadCount (m : BitVec 8) : Nat := ((upTo 8).filter fun i => m.getLsbD i).length

/-- The bytes that the save of what a task holds on a core takes (R334), in whole lines. -/
def State.partSize (s : State) (p : Place) : Nat :=
  let hs := (s.hartsOn p.core).filter fun h => h.present && h.tk.task == p.task
  let b := (hs.map fun h => 2560 * h.quads.count + 1024 + ((h.win.map fun w => 16 * w.n * h.quads.count).getD 0)).sum
  ceilDiv ((p.spad.map (·.2)).sum + 9216 * p.claims.length + 34816 * p.tiles + b) 64 * 64

/-- The parts of a task's save, packed in ascending core and then cluster order (R334, R394): unit, offset and length. -/
def State.saveParts (s : State) (task : Nat) : List (Nat × Nat × Nat) :=
  let ps := sortBy (fun a b => decide (a.core < b.core)) (s.places.filter (·.task == task))
  let cl := (((s.eng.sessions.filter (·.task == task)).map (·.cluster)) ++ ((s.eng.lists.filter (·.task == task)).map (·.cluster))).eraseDups
  let sizes : List (Nat × Nat) := (ps.map fun p : Place => (p.core, s.partSize p)) ++ cl.map fun c => (640 + c, 65536)
  sizes.foldl (fun (l : List (Nat × Nat × Nat)) x => l ++ [(x.1, (l.map (·.2.2)).sum, x.2)]) []

/-- The bytes that the save of a task takes (R334, R394), in whole blocks of 4 KiB. -/
def State.saveSize (s : State) (task : Nat) : Nat := ceilDiv ((s.saveParts task).map (·.2.2)).sum 4096 * 4096

/-- The save slots of a partition, as ranges of its save area. -/
def State.slotRanges (s : State) (part : Nat) : List (Nat × Nat) :=
  (s.sys.saves.filter fun v => match s.taskAt v.task with | some t => t.part == part | none => false).map fun v => (v.base, v.size)

/-- The offset of a save slot for a task, if it fits in the free part of the save area (R334). -/
def State.saveFit (s : State) (p : Partition) (task : Nat) : Option Nat := lowestHole (s.slotRanges p.id) p.saveArea.2 (s.saveSize task)

/-- A pre-emption request for a running task whose save fits (R332). -/
def State.preempt (s : State) (p : Partition) (task : Nat) : Option State :=
  match s.taskAt task with
  | none => none
  | some t =>
    if t.phase != .running then none
    else (s.saveFit p task).map fun base =>
      let u := s.onTask task fun t => { t with phase := .preempting }
      { u with
        eng := { u.eng with copies := updIf (·.task == task) freezeCopy u.eng.copies }
        sys := { u.sys with saves := u.sys.saves ++
          [{ task := task, base := base, size := s.saveSize task, harts := [], places := [], spad := [], sessions := [], lists := [], saving := []
             parts := s.saveParts task, marks := [] }] } }

/-- The class of a task. -/
def Task.cls (t : Task) : Nat := rClass t.entry.record

/-- What a candidate for placement uses of a core besides hart slots and quads: scratchpad, tiles or slots, and sessions or lists on
its cluster. -/
structure Needs where
  spad : Bool
  matrix : Bool
  engines : Bool
  deriving DecidableEq, Repr

/-- What a candidate with that record and descriptor needs. -/
def needsOf (r d : BitVec 512) (engines : Bool) : Needs :=
  { spad := wholeClusters r d || decide (0 < kSpad d), matrix := decide (0 < kTiles d + kSlots d), engines := engines }

/-- The task holds on a core something that the candidate could use (R332). -/
def State.holdsUse (s : State) (n : Needs) (p : Place) : Bool :=
  (s.hartsOn p.core).any (·.tk.task == p.task) || p.reserve != 0#8 || (n.spad && !p.spad.isEmpty) ||
  (n.matrix && decide (0 < p.tiles + p.slots)) ||
  (n.engines && (s.eng.sessions.any (fun x => x.task == p.task && x.cluster == clusterOf p.core) ||
    s.eng.lists.any (fun x => x.task == p.task && x.cluster == clusterOf p.core)))

/-- The tasks that a candidate of a class may pre-empt, in the order of choice (R332). -/
def State.victims (s : State) (part cls : Nat) (cores : List Nat) (n : Needs) : List Task :=
  sortBy (fun a b => decide (b.cls < a.cls) || (a.cls == b.cls && decide (b.started < a.started)))
    (s.sys.tasks.filter fun t => t.part == part && t.phase == .running && !t.ending && decide (cls < t.cls) &&
      s.places.any fun p => p.task == t.id && cores.any (· == p.core) && s.holdsUse n p)

/-- Request pre-emptions until the freed and the free resources would place the candidate: none when no choice does (R332). -/
def State.request (s : State) (p : Partition) (fits : List Nat → Bool) : List Task → List Nat → State → State
  | [], _, _ => s
  | v :: r, ign, t =>
    if fits ign then t
    else match t.preempt p v.id with
      | none => s.request p fits r ign t
      | some u => if fits (v.id :: ign) then u else s.request p fits r (v.id :: ign) u

/-- PREEMPT_REQUEST (R327, R332): what a blocked candidate does. -/
def State.blocked (s : State) (p : Partition) (cls : Nat) (aff : Option Nat) (n : Needs) (fits : List Nat → Bool) : State :=
  let going := (s.sys.tasks.filter fun t => t.part == p.id && (t.phase == .preempting || t.ending)).map (·.id)
  s.request p fits (s.victims p.id cls (s.coresFor p aff) n) going s

/-! ### Restoring (R336, R394) -/

/-- The hart is in a family of forks; its slot number is known to the program (R132, R133). -/
def Hart.family (h : Hart) : Bool := h.tk.parent.isSome || !h.tk.children.isEmpty

/-- Where a saved core's part lands: the saved place, the new core, each hart with its slot and block, and the reserve. -/
structure Landing where
  place : Place
  core : Nat
  harts : List (Hart × Nat × Quads)
  reserve : BitVec 8
  deriving DecidableEq, Repr

/-- Slots and blocks for harts, larger blocks first. -/
def landHarts : List Hart → List Nat → BitVec 8 → Option (List (Hart × Nat × Quads) × BitVec 8)
  | [], _, m => some ([], m)
  | h :: r, slots, m =>
    let b := if h.quads.count = 0 then some ⟨0, 0⟩ else blockIn (~~~m) h.quads.count
    let sl := if h.family then (if slots.any (· == h.slot) then none else some h.slot)
      else (upTo 8).find? fun i => !slots.any (· == i) && !r.any fun g => g.family && g.slot == i
    match b, sl with
    | some q, some i => (landHarts r (i :: slots) (m ||| q.mask)).map fun x => ((h, i, q) :: x.1, x.2)
    | _, _ => none

/-- The lowest quads outside a set, a number of them. -/
def lowestQuads (m : BitVec 8) (n : Nat) : Option (BitVec 8) :=
  let l := ((upTo 8).filter fun i => !m.getLsbD i).take n
  if l.length = n then some (l.foldl (fun a i => a ||| BitVec.ofNat 8 (2 ^ i)) 0) else none

/-- A saved core's part on a core, with its scratchpad at the same offsets (R336). -/
def State.land (s : State) (ign : List Nat) (t : Task) (v : SaveSlot) (p : Place) (c : Nat) : Option Landing :=
  let u := s.useOf ign c
  let hs := sortBy (fun a b => decide (b.quads.count < a.quads.count)) (v.harts.filter fun h => h.core == p.core)
  if !u.hosts t.id p.tiles p.slots t.entry.ctx || !p.spad.all (fun a => spadFree u.spad (2 ^ 21) a.1 a.2) then none
  else match landHarts hs u.slots u.quads with
    | none => none
    | some (l, m) => (lowestQuads m (quadCount p.reserve)).map fun r => { place := p, core := c, harts := l, reserve := r }

/-- The places of a saved task in ascending core number. -/
def SaveSlot.byCore (v : SaveSlot) : List Place := sortBy (fun a b => decide (a.core < b.core)) v.places

/-- A cluster's session and list numbers and capacity that tasks other than `task` hold; with `place`, for a task placed there, without those
that give way to it (R394). -/
def State.heldBy (s : State) (task cl : Nat) (place : Bool) : List Nat × List Nat × Nat :=
  let live := fun t : Nat => t != task && (match s.taskAt t with | some x => x.phase != .saved || !place | none => false)
  ((s.eng.sessions.filter fun x => x.cluster == cl && live x.task).map (·.id),
   (s.eng.lists.filter fun x => x.cluster == cl && live x.task).map (·.id),
   ((s.eng.lists.filter fun x => x.cluster == cl && live x.task).map (·.cap)).sum)

/-- Where the sessions and lists of an original cluster go: the cluster on which the lowest-indexed hart that was on it lands (R394); they
stay with their cluster when no hart that was on it is left (log entry 162). -/
def destCluster (ls : List Landing) (cl : Nat) : Nat :=
  let hs := ls.flatMap fun l => (l.harts.filter fun x => x.1.cluster == cl).map fun x => (x.1.tk.index, clusterOf l.core)
  ((sortBy (fun a b => decide (a.1 < b.1)) hs).head?.map (·.2)).getD cl

/-- The sessions and lists of a saved task, in place or in its slot. -/
def State.ownSessions (s : State) (v : SaveSlot) : List Session := (s.eng.sessions.filter (·.task == v.task)) ++ v.sessions
def State.ownLists (s : State) (v : SaveSlot) : List SkList := (s.eng.lists.filter (·.task == v.task)) ++ v.lists

/-- The numbers and the capacity are free on every cluster to which sessions and lists go (R394). -/
def State.roomFor (s : State) (v : SaveSlot) (ls : List Landing) : Bool :=
  let ss := (s.ownSessions v).map fun x => (destCluster ls x.cluster, x.id)
  let ks := (s.ownLists v).map fun x => (destCluster ls x.cluster, x.id, x.cap)
  let cls := ((ss.map (·.1)) ++ ks.map (·.1)).eraseDups
  cls.all fun c =>
    let (hs, hl, cap) := s.heldBy v.task c (ls.any fun l => clusterOf l.core == c)
    let a := (ss.filter (·.1 == c)).map (·.2)
    let b := (ks.filter (·.1 == c)).map (·.2.1)
    a.all (fun i => !hs.any (· == i)) && b.all (fun i => !hl.any (· == i)) && a.eraseDups.length == a.length &&
    b.eraseDups.length == b.length && decide (cap + ((ks.filter (·.1 == c)).map (·.2.2)).sum ≤ 4096)

/-- Saved cores on cores in their order, each on one of its own: the first choice under which all have room (R336). -/
def State.landAll (s : State) (ign : List Nat) (t : Task) (v : SaveSlot) (done : List Landing) : List Place → List Nat → Option (List Landing)
  | [], _ => if s.roomFor v done then some done else none
  | p :: r, cores => cores.findSome? fun c =>
    (s.land ign t v p c).bind fun l => s.landAll ign t v (done ++ [l]) r (cores.filter (· != c))

/-- The same by whole clusters, every core at its position (R315, R336). -/
def State.landClusters (s : State) (ign : List Nat) (t : Task) (v : SaveSlot) (done : List Landing) :
    List Nat → List Nat → Option (List Landing)
  | [], _ => if s.roomFor v done then some done else none
  | o :: r, cls => cls.findSome? fun c =>
    ((v.byCore.filter fun p => clusterOf p.core == o).mapM fun p => s.land ign t v p (4 * c + p.core % 4)).bind fun l =>
      s.landClusters ign t v (done ++ l) r (cls.filter (· != c))

/-- A place for every part of a saved task, or none (R258, R330, R336). -/
def State.restorePlan (s : State) (ign : List Nat) (p : Partition) (t : Task) (v : SaveSlot) : Option (List Landing) :=
  let e := t.entry
  let cores := s.coresFor p (effAff e.record e.desc)
  if wholeClusters e.record e.desc then
    s.landClusters ign t v [] ((v.byCore.map fun p => clusterOf p.core).eraseDups)
      (s.clusterOrder ign cores fun u => u.hosts t.id (kTiles e.desc) (kSlots e.desc) e.ctx)
  else s.landAll ign t v [] v.byCore (s.coreOrder ign cores)

/-- The new number of a hart. -/
def newHart (ls : List Landing) (old : Nat) : Nat :=
  ((ls.flatMap fun l => l.harts.map fun x => (x.1.id, 8 * l.core + x.2.1)).find? (·.1 == old)).map (·.2) |>.getD old

/-- A saved hart in its new slot, still stopped. -/
def landedHart (ls : List Landing) (l : Landing) (x : Hart × Nat × Quads) : Hart :=
  { x.1 with id := 8 * l.core + x.2.1, quads := x.2.2, tk := { x.1.tk with parent := x.1.tk.parent.map (newHart ls) } }

/-- Memory without the bytes of some scratchpad allocations, before a restore writes those saved. -/
def clearSpad (core : Nat) (l : List (Nat × Nat)) (m : List Host.Cell) : List Host.Cell :=
  m.filter fun c => !l.any fun a => decide (spadKey core 0 + a.1 ≤ c.1) && decide (c.1 < spadKey core 0 + a.1 + a.2)

/-- The free values of a range of keys, without the default. -/
def freeCells {α : Type} [DecidableEq α] (d : α) (f : Nat → α) (keys : List Nat) : Sparse α :=
  keys.filterMap fun k => if f k = d then none else some (k, f k)

/-- A hart restored from bytes that are not those its save wrote: its data are free values (R334; log entry 34). -/
def Hart.altered (f : Nat → Nat) (h : Hart) : Hart :=
  let w := fun i => BitVec.ofNat 64 (f i)
  let queue := fun (l : List VEntry) (n : Nat) => l.zipIdx.map fun e => { e.1 with xa := w (n + 3 * e.2), xb := w (n + 3 * e.2 + 1), xc := w (n + 3 * e.2 + 2) }
  { h with
    x := Vector.ofFn fun i : Fin 32 => if i.val = 0 then 0 else w i.val
    pc := BitVec.ofNat 64 (4 * f 32)
    v := Vector.ofFn fun i : Fin 32 => BitVec.ofNat 4096 (f (64 + i.val))
    hdr := Vector.ofFn fun i : Fin 32 => BitVec.ofNat 512 (f (96 + i.val))
    k := Vector.ofFn fun i : Fin 8 => BitVec.ofNat 4096 (f (128 + i.val))
    q := Vector.ofFn fun i : Fin 8 => (h.q.get i).zipIdx.map fun x => w (1024 + 256 * i.val + x.2)
    z := Vector.ofFn fun i : Fin 8 => (h.z.get i).map fun z => { z with block := BitVec.ofNat 1024 (f (136 + i.val)) }
    f := Vector.ofFn fun i : Fin 8 => w (144 + i.val)
    fl := { flags := BitVec.ofNat 16 (f 33), eix := Vector.ofFn fun i : Fin 6 => BitVec.ofNat 16 (f (152 + i.val))
            epc := Vector.ofFn fun i : Fin 6 => w (158 + i.val) }
    tr := { tvec := w 34, tcause := w 35, tval := w 36, tpc := w 37, eri := w 38, tnpc := w 39 }
    skipd := w 40, mhb := w 41, mhctl := w 42
    vs := { h.vs with vq := queue h.vs.vq 4096, parked := queue h.vs.parked 8192 } }

/-- What a task holds on a core, restored from other bytes. -/
def Place.altered (f : Nat → Nat) (p : Place) : Place :=
  let slots := (p.claims.map (·.1)).eraseDups
  let keys := fun n => sortBy (fun a b => decide (a < b)) (slots.flatMap fun o => (upTo n).map fun i => n * o + i)
  { p with
    tile := freeCells 0 (fun k => BitVec.ofNat 32 (f (2 ^ 20 + k))) (upTo (8192 * p.tiles))
    slot := freeCells 0 (fun k => BitVec.ofNat 8 (f (2 ^ 21 + k))) (keys 8192)
    shdr := freeCells 0 (fun k => BitVec.ofNat 8 (f (2 ^ 22 + k))) (keys 1024) }

/-- Scratchpad allocations restored from other bytes. -/
def alteredSpad (f : Nat → Nat) (p : Place) : List (Nat × Byte) :=
  p.spad.flatMap fun a => freeCells 0 (fun k => BitVec.ofNat 8 (f (2 ^ 23 + k))) ((upTo a.2).map (a.1 + ·))

/-- The bytes of a core's part of a save slot are those that its save wrote (R334). -/
def State.intact (s : State) (part : Nat) (v : SaveSlot) (core : Nat) : Bool :=
  let (o, n) := v.partOf core
  let mark := ((v.marks.find? (·.1 == core)).map (·.2)).getD 0
  (upTo n).all fun i => s.cohByte (dramKey (s.slotBase part v + o) + i) == Config.saveByte (2 ^ 52 * mark + i)

/-- What a restore reads from a save slot (R334, R335): what was saved, where the bytes stand; else free values. -/
def State.readSlot (s : State) (part : Nat) (v : SaveSlot) : SaveSlot :=
  let ok := s.intact part v
  let f := fun (n i : Nat) => Config.savedValue (2 ^ 64 * s.env.free + 2 ^ 32 * n + i)
  { v with
    harts := v.harts.map fun h => if ok h.core then h else h.altered (f h.id)
    places := v.places.map fun p => if ok p.core then p else p.altered (f (8192 + p.core))
    spad := v.spad.map fun x => if ok x.1 then x else
      (x.1, ((v.places.find? (·.core == x.1)).map (alteredSpad (f (8192 + x.1)))).getD []) }

/-- Put a saved task back on cores (R336, R394): the harts stay stopped until the restore completes. -/
def State.landTask (s : State) (t : Task) (v : SaveSlot) (ls : List Landing) : State :=
  let u : State := ls.foldl (fun (u : State) (l : Landing) =>
    let w := l.harts.foldl (fun w x => w.putHart (landedHart ls l x)) { u with mem := clearSpad l.core l.place.spad u.mem }
    let bytes := ((v.spad.find? (·.1 == l.place.core)).map (·.2)).getD []
    let z := bytes.foldl (fun z b => { z with mem := memPut z.mem (spadKey l.core b.1) b.2 }) w
    let claims := l.place.claims.map fun c : Nat × Nat => (c.1, newHart ls c.2)
    State.noteCtx { z with places := z.places ++ [z.allot { l.place with core := l.core, reserve := l.reserve, claims := claims }] }
      l.core t.part t.entry.ctx t.entry.desc) s
  let move := destCluster ls
  let w : State := { u with
    eng := { u.eng with
      sessions := (u.eng.sessions.filter fun x => x.task != t.id) ++ (u.ownSessions v).map fun x =>
        { x with cluster := move x.cluster, run := x.run.map fun r => { r with hart := newHart ls r.hart } }
      lists := (u.eng.lists.filter fun x => x.task != t.id) ++ (u.ownLists v).map fun x => { x with cluster := move x.cluster }
      copies := updIf (·.task == t.id) (fun c =>
        { c with hart := newHart ls c.hart, core := if c.state == .frozen then newHart ls c.hart / 8 else c.core }) u.eng.copies }
    sys := { u.sys with saves := u.sys.saves.filter fun x => x.task != t.id } }
  let back := fun m : Nat => if m / 2 ^ 15 = 32 * (t.id + 1) then newHart ls (m % 2 ^ 20) else m
  let egress := updIf (·.task == t.id) (fun e => { e with hart := newHart ls e.hart }) w.coh.egress
  (({ w with coh := { w.coh with egress := egress } }.renameMods back).onTask t.id fun t => { t with phase := .restoring }).displace t.id ((ls.map fun l : Landing => clusterOf l.core).eraseDups)

/-! ### The arbiter (R327) -/

/-- A candidate for placement: a task of a resume list, or a queue. -/
inductive Cand where
  | resumed (task : Nat)
  | queue (q : Nat)
  deriving DecidableEq, Repr

/-- The candidates of a class in their order (R327). -/
def Partition.cands (p : Partition) (c : Nat) : List Cand :=
  let last := (p.lastQueue.toList.getD c none).map (· + 1) |>.getD 0
  (p.resume.toList.getD c []).map .resumed ++ (upTo 4).map fun i => .queue (4 * c + (last + i) % 4)

/-- Take the head of a queue, which is served. -/
def takeHead (q : Nat) (p : Partition) : Partition :=
  { p with
    queues := Vector.ofFn fun i : Fin 16 => if i.val = q then (p.queues.get i).drop 1 else p.queues.get i
    lastQueue := Vector.ofFn fun i : Fin 4 => if i.val = q / 4 then some (q % 4) else p.lastQueue.get i }

/-- A candidate tried: placed, removed, or awaiting its group template; blocked; or passed over. -/
inductive Tried where
  | placed (s : State)
  | blocked (s : State)
  | passed (s : State)

/-- Try to place a candidate. -/
def State.tryCand (s : State) (p : Partition) (c : Cand) : Tried :=
  match c with
  | .resumed id =>
    match s.taskAt id, (s.sys.saves.find? (·.task == id)).map (s.readSlot p.id) with
    | some t, some v =>
      match s.restorePlan [] p t v with
      | some ls =>
        .placed ((s.landTask t v ls).onPart p.id fun p =>
          { p with resume := Vector.ofFn fun i : Fin 4 => (p.resume.get i).filter (· != id) })
      | none =>
        let n := needsOf t.entry.record t.entry.desc (!(s.ownSessions v).isEmpty || !(s.ownLists v).isEmpty)
        .blocked (s.blocked p t.cls (effAff t.entry.record t.entry.desc) n fun ign => (s.restorePlan ign p t v).isSome)
    | _, _ => .passed s
  | .queue q =>
    match (p.queues.toList.getD q []).head? with
    | none => .passed s
    | some e =>
      if !e.eligible then .passed s
      else match s.plan [] p s.sys.nextTask e with
        | none =>
          .blocked (s.blocked p (rClass e.record) (effAff e.record e.desc) (needsOf e.record e.desc false) fun ign =>
            (s.plan ign p s.sys.nextTask e).isSome)
        | some seats =>
          match s.template p.id e.ctx (kGrpoff e.desc) (kNgrp e.desc) with
          | (.wait, t) => .placed t
          | (.fault, t) => .placed (((t.unmonitor (counterMonitor p.id q)).onPart p.id (takeHead q)).event e.kpa 2 p.id)
          | (.groups g, t) => .placed (((t.unmonitor (counterMonitor p.id q)).onPart p.id (takeHead q)).placeTask p.id e g seats)

/-- The candidates of a class in turn: whether one was placed, whether one was blocked. -/
def State.tryCands (s : State) (p : Partition) : List Cand → Bool → Bool × Bool × State
  | [], b => (false, b, s)
  | c :: r, b =>
    match s.tryCand p c with
    | .placed t => (true, b, t)
    | .blocked t => t.tryCands p r true
    | .passed t => t.tryCands p r b

/-- The classes in turn, up to a placement or a class with a blocked candidate. -/
def State.tryClasses (s : State) (p : Partition) : List Nat → Bool × State
  | [] => (false, s)
  | c :: r =>
    match s.tryCands p (p.cands c) false with
    | (true, _, t) => (true, t)
    | (false, true, t) => (false, t)
    | (false, false, t) => t.tryClasses p r

/-- TASK_PLACEMENT (R327, R332): the arbiter of a partition places the next task, or raises its requests. -/
def execTaskPlacement (part : Nat) (s : State) : Out :=
  match s.partAt part with
  | none => .next s
  | some p => .next (if p.fatal then s else (s.tryClasses p [0, 1, 2, 3]).2)

/-! ### The end of a task (R328) -/

/-- Engine operations of the task go on. -/
def State.taskBusy (s : State) (task : Nat) : Bool :=
  s.eng.copies.any (fun c => c.task == task && c.open) || s.eng.sessions.any fun x => x.task == task && x.run.isSome

/-- A task leaves a core: the remaining context becomes the first (R219). -/
def State.leaveCore (s : State) (task core : Nat) : State :=
  let t := { s with places := s.places.filter fun p => !(p.task == task && p.core == core) }
  let here := (t.places.filter fun p => p.core == core && decide (0 < p.tiles + p.slots)).filterMap fun p =>
    (s.taskAt p.task).map fun x => (x.part, x.entry.ctx)
  t.onCore core fun c => { c with ctxs := c.ctxs.filter fun x => here.any (· == x) }

/-- Steps 2 and 3 of R328: ranges, lists and sessions, and what the task holds on its cores; none while a range's collection waits. -/
def State.releaseTask (s : State) (t : Task) : Option State :=
  (s.dropRanges fun r => r.part == t.part && r.task == t.id).map fun u =>
    let v := { u with eng := { u.eng with
      sessions := u.eng.sessions.filter (·.task != t.id), lists := u.eng.lists.filter (·.task != t.id)
      copies := u.eng.copies.filter (·.task != t.id) } }
    let w := (v.places.filter (·.task == t.id)).foldl (fun w p => w.leaveCore t.id p.core) v
    { w with sys := { w.sys with
        tasks := w.sys.tasks.filter (·.id != t.id), saves := w.sys.saves.filter (·.task != t.id)
        parts := w.sys.parts.map fun p =>
          if p.id = t.part then { p with resume := Vector.ofFn fun i : Fin 4 => (p.resume.get i).filter (· != t.id) } else p } }

/-- TASK_END (R328): every hart has halted, none is saved, and every engine operation of the task has ended. -/
def execTaskEnd (task : Nat) (s : State) : Out :=
  match s.taskAt task with
  | none => .next s
  | some t =>
    let waiting := t.phase == .saved || t.phase == .restoring ||
      (t.phase == .preempting && s.sys.saves.any fun v => v.task == task && !v.harts.isEmpty)
    -- fence.rel.sys: every write to another module has been acknowledged (R128)
    let unacked := rDone t.entry.record && rDsys t.entry.record && !t.ending && s.coh.egress.any (·.task == task)
    if s.harts.any (fun h => h.present && h.tk.task == task) || s.taskBusy task || unacked || (waiting && !t.ending) then .next s
    else match s.releaseTask t with
      | none => .next s
      | some u =>
        if t.ending || !rDone t.entry.record then .next u
        else
          -- the increment's `fence.rel`: what the harts' `.clu` atomics modified goes home (R306)
          match u.flushCopiesIn fun b => !b.partialLine && b.mods.any fun m => m / 2 ^ 20 == t.id + 1 with
          | none => .next s
          | some u =>
          let h := Hart.empty 0
          let who := { h with tk := { h.tk with part := t.part, ctx := t.entry.ctx } }
          match u.atomicAt who (if rDsys t.entry.record then .sys else .dev) t.entry.dloc 64 (fun _ => false) 1
              (fun old => some ((old + 1) % 2 ^ 64)) with
          | (.wait _, _) => .next s
          | (_, v) => .next v

/-- The copy has not begun, or is frozen. -/
def Copy.idle (c : Copy) : Bool :=
  match c.state with
  | .registering | .frozen => true
  | _ => false

/-- The copies of a task that the supervisor ends: those not begun or frozen drop the words that they hold and ask for no more, the others run
to their end. -/
def State.dropIdle (s : State) (task : Nat) : State :=
  let gone := s.eng.copies.filter fun c => c.task == task && c.idle
  let t := gone.foldl (fun t c => t.unregisterCopy { c with regs := c.regs.filter fun r => !s.underway fun m => c.asks m && m.line == r.1 }) s
  let void := fun v : Serve => if gone.any fun c => c.asks v.req then { v with req := { v.req with kind := .xfer, aux2 := 2 } } else v
  { t with
    eng := { t.eng with copies := t.eng.copies.filter fun c => !(c.task == task && c.idle) }
    coh := { t.coh with
      net := t.coh.net.filter fun m => !gone.any fun c => c.asks m
      homes := t.coh.homes.map fun hl => { hl with serving := hl.serving.map void } } }

/-- The partition supervisor ends a task (R328, R338): its harts are gone, and its counter will not be incremented. -/
def State.killTask (s : State) (task : Nat) : State :=
  let hs := s.harts.filter fun h => h.present && h.tk.task == task
  let t := hs.foldl (fun t h => match t.hartAt h.id with | some g => if g.present then (t.dropDrain g).endHart g else t | none => t) s
  let gone := fun m : Nat => hs.any (·.id == m) || decide (m / 2 ^ 20 = task + 1)
  let u : State := { t with coh := { t.coh with comb := t.coh.comb.map fun b => { b with mods := b.mods.filter fun m => !gone m } } }
  (u.onTask task fun t => { t with ending := true }).dropIdle task

end Sys2Proof.Machine
end

