-- ==== Sys2Proof/Machine/Preempt.lean ====
section
/-! DEFINITION. Stopping, saving and restoring a pre-empted task (R139, R253, R288, R333 to R337), page-fault service (R338, R339, R356),
and the device steps of the crucible (R211, R218, R219). -/
namespace Sys2Proof.Machine

/-! ### Stopping (R333) -/

/-- A read or an atomic of the hart is on its way as a message, or is served. -/
def State.outstanding (s : State) (h : Hart) : Bool :=
  s.underway fun m => m.sender == h.port && (m.kind == .rdv || m.kind == .atom)

/-- A `tk.ins` of the hart has inserted some of its elements: it is complete before the vector stream goes on (R239). -/
def Hart.inserting (h : Hart) : Bool :=
  match h.vs.vq with
  | e :: _ => wMaj e.word == 0x19 && decide (0 < e.start)
  | [] => false

/-- The hart stands at an instruction boundary (R139): no atomic is half done, no `py.ld` is storing, no copy is being issued, no `tk.ins`
is half done. -/
def State.atBoundary (s : State) (h : Hart) : Bool :=
  h.snap.isNone && h.atomReply.isNone && !s.outstanding h && !h.inserting &&
  !s.eng.copies.any fun c => c.hart == h.id && c.task == h.tk.task && c.state == .registering

/-- The head of the vector queue has begun and is abandoned (R169, R211, R220): its PC, and for a vector load or store, `win.merge`,
`mld` or `mst` the element, entry or row at which it restarts; a `mop` keeps its place in the step progress. -/
def Hart.abandoned (h : Hart) : Option (Word × Option Nat) :=
  match h.vs.vq with
  | [] => none
  | e :: _ =>
    let fn := wFn e.word
    let atElement := match wMaj e.word with
      | 0x2B | 0x2C | 0x2D => true
      | 0x2E => fn % 16 == 0 || fn % 16 == 6
      | 0x33 => true
      | _ => false
    if atElement && (h.vs.blocked || decide (0 < e.start)) then some (e.pc, some e.start)
    else if wMaj e.word = 0x31 ∧ 0 < h.vs.mopStep then some (e.pc, none)
    else none

/-- A hart that stops for a pre-emption: a waiting instruction runs again from the start later (R139, R253, R375). TPC and ERI hold the
place of an abandoned word (R169, R211). -/
def Hart.preempted (h : Hart) : Hart :=
  { h with
    status := .preempted
    wait := none
    tr := match h.abandoned with
      | some (pc, at_) =>
          { h.tr with tpc := pc, eri := (at_.map fun n => BitVec.ofNat 64 n).getD h.tr.eri }
      | none => h.tr
    vs := { h.vs with blocked := false, lines := [] } }

/-- The links and monitors of a hart are cleared (R177, R139). -/
def State.unlink (s : State) (h : Nat) : State :=
  { s with coh := { s.coh with links := s.coh.links.filter fun l => l.1 != h, monitors := s.coh.monitors.filter fun m => m.who != h } }

/-- HART_STOP (R333): a hart of a task being pre-empted stops at a boundary. -/
def execHartStop (h : Nat) (s : State) : Out :=
  match s.hartAt h with
  | none => .next s
  | some g =>
    let asked := match s.taskAt g.tk.task with | some t => t.phase == .preempting | none => false
    if asked && (g.status == .running || g.status == .placed) && s.atBoundary g then
      .next ((((s.dropDrain g).unlink h).onHartAt h (·.preempted)).onCore g.core fun c =>
        { c with reserved := if c.reserved = some h then none else c.reserved })
    else .next s

/-! ### Saving (R333 to R335) -/

/-- The copy writes a scratchpad of the core: a destination not yet written, or a barrier it is bound to, lies there (R192, R333). -/
def Copy.writesSpad (c : Copy) (core : Nat) : Bool :=
  let here := fun a : Nat => isLocal a && (match localTarget c.core a with | some (k, _) => k == core | none => false)
  c.barAddrs.any here || c.rest.any fun i => (copyDsts c.desc i).any here

/-- A core can save what a task holds there (R333): its harts have stopped, their stores have drained, and every copy of the task
that writes its scratchpad has ended or is frozen. -/
def State.canSave (s : State) (task core : Nat) : Bool :=
  (s.placeAt task core).isSome &&
  ((s.hartsOn core).filter (·.tk.task == task)).all (fun h =>
    h.status != .running && h.status != .placed && h.ssb.isEmpty && h.psf.toList.all (·.isEmpty) && h.cpf.toList.all (·.isEmpty)) &&
  !s.eng.copies.any fun c => c.task == task && c.open && c.state != .frozen && c.writesSpad core

/-- Change a task's save slot. -/
def State.onSave (s : State) (task : Nat) (f : SaveSlot → SaveSlot) : State :=
  { s with sys := { s.sys with saves := updIf (·.task == task) f s.sys.saves } }

/-- A hart of the task is left, on a core or saved: when every hart has halted before its boundary, the task ends and nothing is
saved (R337). -/
def State.anyLeft (s : State) (task : Nat) : Bool :=
  s.harts.any (fun h => h.present && h.tk.task == task) || s.sys.saves.any fun v => v.task == task && !v.harts.isEmpty

/-- CORE_SAVE_BEGIN (R333). -/
def execCoreSaveBegin (task core : Nat) (s : State) : Out :=
  match s.taskAt task with
  | none => .next s
  | some t =>
    if t.phase == .preempting && !t.ending && s.anyLeft task && s.canSave task core then
      .next (s.onSave task fun v => if v.saving.any (· == core) then v else { v with saving := core :: v.saving })
    else .next s

/-- The bytes of a core's scratchpad in some allocations that are not zero, by offset. -/
def State.spadBytes (s : State) (core : Nat) (l : List (Nat × Nat)) : List (Nat × Byte) :=
  s.mem.filterMap fun c =>
    if l.any fun a => decide (spadKey core 0 + a.1 ≤ c.1) && decide (c.1 < spadKey core 0 + a.1 + a.2) then some (c.1 - spadKey core 0, c.2)
    else none

/-- The lines of a core's part of the slot make the save wait (R296). -/
def State.slotWaits (s : State) (base size : Nat) : Bool := (upTo (size / 64)).any fun i => s.lineWaits (lineOf (dramKey base) + i) 0xFFFF#16

/-- The parts of a task on a core go to its save slot, and the core is free of it (R334, R335): `base` and `size` are its part of the slot. -/
def State.saveCore (s : State) (task core base size : Nat) (p : Place) : State :=
  let hs := (s.hartsOn core).filter (·.tk.task == task)
  let t := ((s.writeSlot base size).renameMods fun m => if hs.any (·.id == m) then savedId task m else m).onSave task fun v =>
    { v with
      harts := v.harts ++ hs, places := v.places ++ [p], spad := v.spad ++ [(core, s.spadBytes core p.spad)]
      saving := v.saving.filter (· != core), marks := v.marks ++ [(core, s.env.free)] }
  let frozen := t.eng.copies.filter fun c => c.task == task && c.hart / 8 == core && c.state == .frozen
  let u := frozen.foldl (fun u c => (u.unregisterCopy c).putCopy { c with regs := [] }) t
  (hs.foldl (fun u h => (u.unlink h.id).clearSlot h.id) u).leaveCore task core

/-- CORE_SAVE_COMPLETE (R335); with the last core the task enters its class's resume list (R325, R336). -/
def execCoreSaveComplete (task core : Nat) (s : State) : Out :=
  match s.taskAt task, s.sys.saves.find? (·.task == task), s.placeAt task core with
  | some t, some v, some p =>
    if !v.saving.any (· == core) then .next s
    else
      let (o, n) := v.partOf core
      let base := s.slotBase t.part v + o
      if s.slotWaits base n then .next s else
      let u := s.saveCore task core base n p
      if u.places.any (·.task == task) then .next u
      else
        .next ((u.onTask task fun t => { t with phase := .saved }).onPart t.part fun q =>
          { q with resume := Vector.ofFn fun i : Fin 4 => if i.val = t.cls then q.resume.get i ++ [task] else q.resume.get i })
  | _, _, _ => .next s

/-! ### Restoring (R288, R336) -/

/-- A frozen copy registers its words again and resumes; none while a word makes it wait (R301, R336). -/
def State.thaw (s : State) (task : Nat) : Option State :=
  (s.eng.copies.filter fun c => c.task == task && c.state == .frozen).foldl
    (fun o c => o.bind fun t => (t.registerCopy c).map fun u => u.startCopy { t.withRegs c with state := .running }) (some s)

/-- A restored hart performs the moves of `fence.acq.dev.ro` (R288) and continues; one that was stopped stays stopped (R336). -/
def State.resumeHart (s : State) (h : Nat) : State :=
  ((s.turnTo h).acquire .dev true).onHart fun g => if g.status == .preempted then { g with status := .running } else g

/-- RESTORE_COMPLETE (R336). -/
def execRestoreComplete (task : Nat) (s : State) : Out :=
  match s.taskAt task with
  | none => .next s
  | some t =>
    if t.phase != .restoring then .next s
    else match s.thaw task with
      | none => .next s
      | some v =>
        let u := v.onTask task fun t => { t with phase := .running }
        let cores := (u.places.filter (·.task == task)).map (·.core)
        let w := cores.foldl (fun w c => (w.dropRo c).onCore c fun k => { k with icache := [] }) u
        let hs := (w.harts.filter fun h => h.tk.task == task && h.present).map (·.id)
        .next (hs.foldl (fun w h => w.resumeHart h) w)

/-! ### Page faults (R338, R339, R356) -/

/-- The hart stopped for a page fault that its task does not handle. -/
def Hart.faulted (h : Hart) : Bool :=
  h.status == .stopped && h.inHandler && (let c := h.tr.tcause.toNat % 2 ^ 62; c == 4 || c == 5 || c == 6)

/-- The hart restarts at TPC from ERI with IH clear; a hart of a task that is not running stays stopped until its restore (R337). -/
def restarted (running : Bool) (h : Hart) : Hart := { returnFromTrap h with status := if running then .running else .preempted }

/-- A page fault of a hart is resolved, or its task ends (R338). The record names the hart by the number it had when it stopped, also
when it has moved since (R337; log entry 148). -/
def State.resolve (s : State) (part id : Nat) (retry : Bool) : State :=
  let mine := fun h : Hart => h.faultHart == id && h.tk.part == part && h.faulted
  let found := match s.harts.find? mine with
    | some h => some h
    | none => (s.sys.saves.flatMap fun v : SaveSlot => v.harts).find? mine
  match found with
  | none => s
  | some h =>
    if !retry then s.killTask h.tk.task
    else
      let run := match s.taskAt h.tk.task with | some t => t.phase == .running | none => true
      if s.harts.any mine then s.onHartAt h.id (restarted run)
      else s.onSave h.tk.task fun v => { v with harts := updIf mine (restarted false) v.harts }

/-- A fault record leaves the queue, and one that waits for room enters it (R356). -/
def Partition.popFault (p : Partition) : Partition :=
  { p with faults := p.faults.drop 1 ++ p.faultWait.take 1, faultWait := p.faultWait.drop 1 }

/-- The HART field of a fault record. -/
def recordHart (r : BitVec 256) : Nat := bytesAt r 24 4

/-- PAGE_FAULT_RESOLVED (R338, R356): in hardware mode the control cores take the hart's record and serve the fault. -/
def execPageFaultResolved (h : Nat) (ok : Bool) (s : State) : Out :=
  let go := fun p : Partition =>
    let q := if (p.faults.head?.map recordHart) = some (hartIdOf h) then p.popFault
      else
        { p with faults := dropFirst (fun r => recordHart r == hartIdOf h) p.faults ++ p.faultWait.take 1, faultWait := p.faultWait.drop 1 }
    (s.onPart p.id fun _ => q).resolve p.id h ok
  match s.sys.parts.find? fun p => !s.hostMode p.id 0 && p.faults.any fun r => recordHart r == hartIdOf h with
  | none => .next s
  | some p => .next (go p)

/-! ### Crucible steps -/

/-- A product cannot take its next step: an operand has an error, which traps when the vector stream comes to it, or a row that it uses is
under test (R383, R388). -/
def State.mopHeld (s : State) (g : Hart) (w : IWord) : Bool :=
  let rows := mopRows g w
  s.tileTest g (wT w) || rows.any (s.slotTest g) ||
  (match s.placeOf g with | some p => rows.any (s.slotBad g.core p) | none => false)

/-- MOP_STEP_END (R211): the product at the head of the vector queue completes its next 64-cycle step; with the last one it is
done. -/
def execMopStepEnd (h : Nat) (s : State) : Out :=
  match s.hartAt h with
  | none => .next s
  | some g =>
    match g.vs.vq with
    | [] => .next s
    | e :: r =>
      let p := s.placeOf g
      let len := (p.map fun p => p.mopLen (wT e.word)).getD 0
      if e.word.toNat / 2 ^ 26 ≠ 49 ∨ g.status ≠ .running ∨ mopSkipped g e.word = true ∨ s.slotServes g = false ∨ s.mopHeld g e.word = true ∨
          len ≤ g.vs.mopStep then .next s
      else
        let n := g.vs.mopStep + 1
        let t := s.onPlace g.tk.task g.core (mopSteps g e.word g.vs.mopStep n)
        .next (t.onHartAt h fun k =>
          if n < len then { k with vs := { k.vs with mopStep := n } }
          else ({ k with vs := { k.vs with mopStep := 0, vq := r, blocked := false } } : Hart).replay e)

/-- CRUCIBLE_SLOT_TICK (R219): the next slot of the 16 begins. -/
def execCrucibleSlotTick (core : Nat) (s : State) : Out := .next (s.onCore core fun c => { c with slot := (c.slot + 1) % 16 })

/-- SKIP_CUR_ADJUST (R218): in adaptive mode the power manager moves CUR between DMIN and DELTA. -/
def execSkipCurAdjust (h : Nat) (cur : BitVec 8) (s : State) : Out :=
  .next (s.onHartAt h fun g =>
    let w := g.skipd.toNat
    if skipMode g.skipd = 2 ∧ bitsOf w 23 16 ≤ cur.toNat ∧ cur.toNat ≤ bitsOf w 15 8 then
      { g with skipd := BitVec.ofNat 64 (w % 2 ^ 24 + cur.toNat * 2 ^ 24) }
    else g)

end Sys2Proof.Machine
end

