-- ==== Sys2Proof/Machine/Pyramid.lean ====
section
/-! DEFINITION. Stream pyramids (R242 to R253, R363 to R378, R380, R381): PYR, combiners, and the steps of the anneal units. -/
namespace Sys2Proof.Machine

/-! ### The region (R363 to R366) -/

/-- The key of a byte of the region, none outside it (R366). -/
def Stream.key (st : Stream) (off : Nat) : Option Nat :=
  if off < st.size then (st.pages[off / 4096]?).map fun p => 4096 * p + off % 4096 else none

/-- Bytes of a region inside one line: how far they lie from the first byte asked for, their key, and how many. -/
structure Piece where
  off : Nat
  key : Nat
  len : Nat

def Piece.line (p : Piece) : Nat := lineOf p.key
def Piece.words (p : Piece) : BitVec 16 := wordMask p.key p.len

/-- `n` bytes from `off`, line by line; bytes outside the region are in no piece. -/
def Stream.pieces (st : Stream) (off n : Nat) : List Piece :=
  (upTo ((off % 64 + n + 63) / 64)).filterMap fun i =>
    let a := max off (64 * (off / 64 + i))
    let len := min (min (off + n) st.size) (64 * (off / 64 + i + 1)) - a
    if len = 0 then none else (st.key a).map fun k => { off := a - off, key := k, len := len }

/-- An access to the bytes waits at a home. -/
def State.regionBusy (s : State) (st : Stream) (off n : Nat) : Bool := (st.pieces off n).any fun p => s.lineWaits p.line p.words

/-- The bytes are made ready at their homes: partials are collected and owners asked (R303, R307). -/
def State.regionReady (s : State) (st : Stream) (off n : Nat) : State :=
  (st.pieces off n).foldl (fun t p => t.readyHome p.line p.words) s

/-- What the bytes make a step fault with (R308, R383, R389); a store overwrites an error. -/
def State.regionBad (s : State) (st : Stream) (off n : Nat) (store : Bool) : Option Cause :=
  (st.pieces off n).findSome? fun p =>
    if s.lineLost p.line p.words then some .ownerLost
    else if (if store then s.deadAt p.key p.len else s.poisoned p.key p.len) then some .ecc else none

/-- The bytes, as the coherence order has them; a byte outside the region reads as 0. -/
def State.regionGet (s : State) (st : Stream) (off n : Nat) : Nat :=
  (st.pieces off n).foldl (fun v p => v + s.cohNat p.key p.len * 2 ^ (8 * p.off)) 0

/-- Write `n` bytes at their homes, for the hart that issued the write, if one did (R390); bytes outside the region are dropped. -/
def State.regionPut (s : State) (st : Stream) (who : Option Nat) (off n v : Nat) : State :=
  (st.pieces off n).foldl (fun t p =>
    let u := (((t.collect p.line).takeOwners p.line p.words).putNat p.key p.len (v / 2 ^ (8 * p.off))).noteWrite p.line
    match who with
    | some h => u.shadowWrite h st.part p.key p.len
    | none => u) s

/-- The bytes are ready for a step: it waits while a home makes it wait; a lost word or an error is its fault. -/
def regionOpen (st : Stream) (off n : Nat) (store : Bool) : Walk Unit := do
  let s ← get
  if s.regionBusy st off n then throw none
  let t := s.regionReady st off n
  set t
  match t.regionBad st off n store with
  | some c => throw (some c)
  | none => pure ()

/-- Bytes of a region as a step reads them. -/
def regionRead (st : Stream) (off n : Nat) : Walk Nat := do
  regionOpen st off n false
  pure ((← get).regionGet st off n)

/-- The words of an entry become registered to an anneal unit (R301); none while one makes it wait. -/
def State.regionReg (s : State) (st : Stream) (e off n : Nat) : Option State :=
  (st.pieces off n).foldl (fun o p => o.bind fun t => t.eregLine e p.line p.words) (some s)

/-- They pass back (R301). -/
def State.regionUnreg (s : State) (st : Stream) (e off n : Nat) : State :=
  (st.pieces off n).foldl (fun t p => t.onHome p.line fun hl => hl.setWords (hl.select p.words (· == .engine e)) .unreg) s

/-! ### The header (R244, R364) -/

/-- The fields in use of a header: its first 512 bytes. -/
abbrev Hdr := BitVec 4096

def Hdr.iszLog (h : Hdr) : Nat := min 8 (bytesAt h 0 1)
def Hdr.isz (h : Hdr) : Nat := 2 ^ h.iszLog
def Hdr.nlev (h : Hdr) : Nat := min 16 (bytesAt h 1 1)
def Hdr.comb (h : Hdr) : Nat := bytesAt h 2 1
def Hdr.tier (h : Hdr) : Nat := bytesAt h 3 1
def Hdr.view (h : Hdr) : Word := BitVec.ofNat 64 (bytesAt h 4 4)
def Hdr.cap (h : Hdr) (l : Nat) : Nat := 2 ^ min 20 (bytesAt h (8 + l) 1)
def Hdr.enable (h : Hdr) : Nat := bytesAt h 40 1
def Hdr.gen (h : Hdr) : Nat := bytesAt h 64 8
def Hdr.tlast (h : Hdr) : Nat := bytesAt h 72 8
def Hdr.state (h : Hdr) : Nat := bytesAt h 80 4
def Hdr.defined (h : Hdr) : Bool := h.state.testBit 31
def Hdr.held (h : Hdr) : Bool := h.state.testBit 30
def Hdr.lost (h : Hdr) : Nat := bytesAt h 84 4
def Hdr.fqn (h : Hdr) : Nat := bytesAt h 88 1
def Hdr.fqh (h : Hdr) : Nat := bytesAt h 89 1
def Hdr.head (h : Hdr) (l : Nat) : Nat := bytesAt h (256 + 16 * l) 4
def Hdr.occ (h : Hdr) (l : Nat) : Nat := bytesAt h (260 + 16 * l) 4

/-- E, RB_l and the offset of an entry (R363). -/
def Hdr.esz (h : Hdr) : Nat := 32 + h.isz
def Hdr.ringBase (h : Hdr) (l : Nat) : Nat := 4096 + (upTo l).foldl (fun n m => n + h.cap m * h.esz) 0
def Hdr.entryOff (h : Hdr) (l i : Nat) : Nat := h.ringBase l + i % h.cap l * h.esz

def State.header (s : State) (st : Stream) : Hdr := BitVec.ofNat 4096 (s.regionGet st 0 512)

/-- The header as a step reads it. -/
def headerOpen (st : Stream) : Walk Hdr := do
  regionOpen st 0 512 false
  pure ((← get).header st)

/-- Set and clear bits of STATE. -/
def State.putState32 (s : State) (st : Stream) (who : Option Nat) (h : Hdr) (set clear : Nat) : State :=
  s.regionPut st who 80 4 ((BitVec.ofNat 32 h.state &&& ~~~(BitVec.ofNat 32 clear)) ||| BitVec.ofNat 32 set).toNat
def bitHeld : Nat := 2 ^ 30
def bitAppended : Nat := 2 ^ 29
def bitBusy : Nat := 2 ^ 28

/-- HEAD and OCC of a level. -/
def State.putLevel (s : State) (st : Stream) (who : Option Nat) (l head occ : Nat) : State :=
  s.regionPut st who (256 + 16 * l) 8 (head % 2 ^ 32 + 2 ^ 32 * (occ % 2 ^ 32))

/-- A span: its descriptor and its value (R365). -/
structure Span where
  tf : Nat
  tl : Nat
  lev : Nat
  value : Nat
  deriving DecidableEq, Repr

/-- The descriptor of entry `i` of ring `l`. -/
def descAt (st : Stream) (h : Hdr) (l i : Nat) : Walk Span := do
  let d ← regionRead st (h.entryOff l i) 32
  pure { tf := d % 2 ^ 64, tl := bitsOf d 127 64, lev := bitsOf d 135 128, value := 0 }

/-- The entry whole. -/
def spanAt (st : Stream) (h : Hdr) (l i : Nat) : Walk Span := do
  let x ← descAt st h l i
  let v ← regionRead st (h.entryOff l i + 32) h.isz
  pure { x with value := v }

/-- An entry's bytes. -/
def Span.bytes (x : Span) : Nat := x.tf + 2 ^ 64 * x.tl + 2 ^ 128 * x.lev + 2 ^ 256 * x.value

/-! ### Streams (R366) -/

/-- The physical address of a byte of the vector window in the partition's own cached memory (R346, R366). -/
def State.ownPa (s : State) (part ctx a : Nat) : Option Nat :=
  if 2 ^ 46 ≤ a then none
  else
    let e := match s.partAt part with
      | none => 0
      | some p => Sparse.get 0 p.vmap (65536 * ctx + a / 2 ^ 30)
    let pa := ptePa e / 2 ^ 30 * 2 ^ 30 + a % 2 ^ 30
    if vmapOk e && !e.getLsbD 8 && !e.getLsbD 7 && s.owns part pa false then some (dramKey pa) else none

/-- The stream whose header stands at an address, with the header, while the header says that it is defined; a hart reaches the header
over the fabric (R383). -/
def streamAt (core part ctx a : Nat) : Walk (Option (Stream × Hdr)) := do
  let s ← get
  match s.ownPa part ctx a with
  | none => pure none
  | some k =>
    match s.fabricDown core (lineOf k), s.eng.streams.find? fun x => x.part == part && x.base == k with
    | some (.fault c), _ => throw (some c)
    | some _, _ => throw none
    | none, none => pure none
    | none, some st => do
      let h ← headerOpen st
      pure (if h.defined then some (st, h) else none)

def State.putStream (s : State) (st : Stream) : State :=
  { s with eng := { s.eng with streams := putFirst (·.base == st.base) st s.eng.streams } }

/-- The anneal unit of a stream, by its owner id (R291, R377). -/
def annealUnit (base : Nat) : Nat :=
  let u := fold (base / 4096) 4
  if base < lpddrBase then 0x320 + 16 * fold (base / 2 ^ 9) 2 + u else 0x360 + 16 * (fold (base / 2 ^ 8) 5 / 16) + u

/-! ### Snapshots (R246) -/

/-- What a PYR step finds: a status alone, or the covering span with its status and generation. -/
inductive Snap where
  | none (status : Nat)
  | span (status : Nat) (x : Span) (gen : Nat)
  deriving DecidableEq, Repr

/-- The entries in use, the newest first (R365, R367). -/
def Hdr.refs (h : Hdr) : List (Nat × Nat) :=
  (upTo h.nlev).flatMap fun l => let n := min (h.occ l) (h.cap l); (upTo n).map fun j => (l, h.head l + (n - 1 - j))

/-- The first entry of a list whose t_first is at most `t`. -/
def coverer (st : Stream) (h : Hdr) (t : Nat) : List (Nat × Nat) → Walk (Option (Nat × Nat))
  | [] => pure none
  | x :: r => do
    let d ← descAt st h x.1 x.2
    if d.tf ≤ t then pure (some x) else coverer st h t r

/-- The snapshot at time `t` with resolution `r` (R243, R246). -/
def snapshot (o : Option (Stream × Hdr)) (t r : Nat) : Walk Snap :=
  match o with
  | none => pure (.none 6)
  | some (st, h) =>
    if h.nlev ≤ r then pure (.none 8)
    else match h.refs with
      | [] => pure (.none 5)
      | newest :: rest => do
        let d ← descAt st h newest.1 newest.2
        if d.tl < t then pure (.none 5)
        else match ← coverer st h t (newest :: rest) with
          | none => pure (.none 4)
          | some x =>
            let sp ← spanAt st h x.1 x.2
            pure (.span (if sp.lev < r then 1 else 0) sp h.gen)

/-- A `py.ldv` of the hart is queued, or is still to be replayed: later steps of its program order wait (R242, R376). -/
def Hart.pyrQueued (h : Hart) : Bool :=
  h.vs.vq.any (fun e => wMaj e.word == 0x1A) ||
  (match h.vs.loop with | some l => decide (0 < l.left) && l.body.any (fun e => wMaj e.word == 0x1A) | none => false)

/-- Steps of a scalar PYR word at the homes, after what it did in `t`: it waits as it was in `s`, or faults with `tval` the address x[A]
(log entry 154). -/
def pyStep {α : Type} (s t : State) (tval : Word) (w : Walk α) (k : α → State → Out) : Out :=
  if s.hart.pyrQueued then .next (s.waitFor .vector)
  else match w.go t with
    | (.error none, _) => .next (s.waitFor .memory)
    | (.error (some c), u) => .next (u.trap c tval)
    | (.ok x, u) => k x u

/-- The same, at the stream that an address names. -/
def pyStream (s t : State) (a : Word) (k : Option (Stream × Hdr) → State → Out) : Out :=
  let h := s.hart
  pyStep s t a (streamAt h.core h.tk.part h.tk.ctx a.toNat) k

/-! ### py.ld (R246, R380) -/

/-- The checks of R116 on a store that comes later; none while its walk waits. -/
def State.storeCheck (s : State) (a len : Nat) : Except (Option Cause) Unit :=
  match s.scalarLoc s.hart a len .write with
  | .error c => .error c
  | .ok loc =>
    match s.storeRefused loc len with
    | some c => .error (some c)
    | none =>
      match s.race s.hart loc.key len true false with
      | none => .error (some .race)
      | some _ => if s.hart.watched a len true then .error (some .watch) else .ok ()

/-- The first of several 8-byte stores that cannot be made, with its address. -/
def State.storeChecks (s : State) (l : List Nat) : Option (Option Cause × Nat) :=
  l.findSome? fun x => match s.storeCheck x 8 with | .error c => some (c, x) | .ok _ => none

/-- The stores of a record, in ascending order, as far as the SSB takes them. -/
def storeOn : List (Nat × Nat × Word) → State → (List (Nat × Nat × Word) × Option (Cause × Nat)) × State
  | [], s => (([], none), s)
  | (a, len, w) :: r, s =>
    match s.scalarStore a len w with
    | (.val _, t) => storeOn r t
    | (.wait _, _) => (((a, len, w) :: r, none), s)
    | (.fault c, _) => (([], some (c, a)), s)

/-- The record's stores go on; the instruction retires with the last one. -/
def storeSnap (d : Reg) (status : Word) (l : List (Nat × Nat × Word)) (s : State) : Out :=
  match storeOn l s with
  | (([], none), t) => (t.onHart fun h => { h with snap := none }).result d status
  | ((r, none), t) => .next ((t.onHart fun h => { h with snap := some (status, r) }).waitFor .drain)
  | ((_, some (c, a)), t) => .next ((t.onHart fun h => { h with snap := none }).trap c (BitVec.ofNat 64 a))

/-- What `py.ld` stores at x[B]. -/
def snapStores (b : Nat) (x : Span) (gen isz : Nat) : List (Nat × Nat × Word) :=
  [(b + 16, 8, BitVec.ofNat 64 x.tf), (b + 24, 8, BitVec.ofNat 64 x.tl), (b + 32, 8, BitVec.ofNat 64 x.lev),
   (b + 40, 8, BitVec.ofNat 64 gen)] ++ (upTo (isz / 8)).map fun i => (b + 64 + 8 * i, 8, BitVec.ofNat 64 (x.value / 2 ^ (64 * i)))

/-- The 8-byte units of a record that is written. -/
def unitsOf (b n : Nat) : List Nat := (upTo (n / 8)).map fun i => b + 8 * i

/-- PY_LD (R246). -/
def execPyLd (d a b : Reg) (s : State) : Out :=
  let h := s.hart
  let rec_ := s.get b
  let ad := rec_.toNat
  match h.snap with
  | some (st, l) => storeSnap d st l s
  | none =>
    if ad % 64 ≠ 0 then .next (s.trap .misalign rec_)
    else match s.scalarLoad ad 8 with
      | (.wait w, t) => .next (t.waitFor w)
      | (.fault c, t) => .next (t.trap c rec_)
      | (.val tm, t) =>
        match t.scalarLoad (ad + 8) 1 with
        | (.wait w, u) => .next (u.waitFor w)
        | (.fault c, u) => .next (u.trap c (rec_ + 8))
        | (.val r, u) =>
          pyStream s u (s.get a) fun o z =>
            let isz := (o.map fun p => p.2.isz).getD 0
            let written := if o.isSome then unitsOf (ad + 16) 48 ++ unitsOf (ad + 64) isz else []
            match z.storeChecks written with
            | some (none, _) => .next (s.waitFor .memory)
            | some (some c, x) => .next (z.trap c (BitVec.ofNat 64 x))
            | none => pyStep s z (s.get a) (snapshot o tm r) fun sn y =>
              match sn with
              | .none st => y.result d (BitVec.ofNat 64 st)
              | .span st x gen => storeSnap d (BitVec.ofNat 64 st) (snapStores ad x gen isz) y

/-! ### py.ldv (R247) -/

/-- CLASS, FMT and EW of a VTYPE value. -/
def viewBits (v : Word) : Word := v &&& 0x3F38#64

/-- The work of `py.ldv`. -/
def pyLdvBody : Body := fun e s =>
  let h := s.hart
  let t := h.vt
  let push := fun (k : Hart) (l : List Nat) => l.foldl (fun k v => k.push 4 (BitVec.ofNat 64 v)) k
  if !h.queueRoom 4 5 then .block .queueReg e s
  else match (streamAt h.core h.tk.part h.tk.ctx e.xa.toNat).go s with
    | (.error none, _) => .block .memory e s
    | (.error (some c), u) => .trap e c e.xa 0 u
    | (.ok o, u) =>
      if (match o with | some p => viewBits h.vr.vtype != viewBits p.2.view | none => false) then
        .trap e .illegalType (e.word.setWidth 64) 0 u
      else match (snapshot o e.xb.toNat (e.xc.toNat % 256)).go u with
        | (.error none, _) => .block .memory e s
        | (.error (some c), z) => .trap e c e.xa 0 z
        | (.ok (.none st), z) => .done (z.onHart fun k => push k [st, 0, 0, 0, 0])
        | (.ok (.span st x gen), z) =>
          let act := fun i => decide (i < t.vl)
          let heads := fun g : Hart =>
            if t.cls = 5 then
              putBlockHeaders t (wD e.word) t.g t.per (fun k => decide (32 * k < t.vl))
                (fun k => (Config.spanHeader (4096 * s.env.free + k)).toNat) g
            else g
          .done (z.onHart fun k => push (heads (putElems t 0 (wD e.word) act (fun i => elemOf x.value t.ew i) t.vlmax k))
            [st, x.tf, x.tl, x.lev, gen])
/-- PY_LDV (R247). -/
def execPyLdv (d a b : Reg) (s : State) : Out := vissue (encode (.pyLdv d a b)) pyLdvBody s

/-! ### py.app, py.stat, py.resume (R248, R251, R252) -/

/-- An append that has read its record (R248): it waits as it was in `s`, for level 0 with the record kept (R381), or stores. -/
def appendTo (d a : Reg) (v : Nat) (st : Stream) (hd : Hdr) (s t : State) : Out :=
  let h := s.hart
  let tm := v % 2 ^ 64
  let who := some h.id
  if tm < hd.tlast then t.result d 3
  else if hd.cap 0 ≤ hd.occ 0 then
    if hd.held then t.result d 2 else .next (s.waitFor (.append d st.base v))
  else
    let at_ := hd.entryOff 0 (hd.head 0 + hd.occ 0)
    pyStep s t (s.get a) (regionOpen st at_ hd.esz true) fun _ u =>
      let x : Span := { tf := tm, tl := tm, lev := 0, value := v / 2 ^ 64 }
      ((((u.regionPut st who at_ hd.esz x.bytes).putLevel st who 0 (hd.head 0) (hd.occ 0 + 1)).regionPut st who 72 8 tm).putState32
        st who hd bitAppended 0).result d 0

/-- An append that waits for level 0 looks at the header again; its record was read at issue (R248, R381). -/
def appendAgain (d a : Reg) (base v : Nat) (s : State) : Out :=
  match s.eng.streams.find? (·.base == base) with
  | none => s.result d 6
  | some st =>
    match (headerOpen st).go s with
    | (.error none, _) => .next s
    | (.error (some c), u) => .next (u.trap c (s.get a))
    | (.ok hd, t) => appendTo d a v st hd s t

/-- PY_APP (R248, R372, R381). -/
def execPyApp (d a b : Reg) (s : State) : Out :=
  let rec_ := s.get b
  match s.hart.wait with
  | some (.append _ base v) => appendAgain d a base v s
  | _ =>
    if rec_.toNat % 8 ≠ 0 then .next (s.trap .misalign rec_)
    else pyStream s s (s.get a) fun o t0 =>
      match t0.loadRecord rec_.toNat (1 + (o.map fun p => p.2.isz).getD 0 / 8) with
      | ((.wait w, _), t) => .next (t.waitFor w)
      | ((.fault c, x), t) => .next (t.trap c (BitVec.ofNat 64 x))
      | ((.val v, _), t) =>
        match o with
        | none => t.result d 6
        | some (st, hd) => appendTo d a v st hd s t

/-- The appends that wait on a stream end, with a status (R381). -/
def State.endAppends (s : State) (base : Nat) (status : Word) : State :=
  s.onHarts (fun h => match h.wait with | some (.append _ b _) => b == base | _ => false) fun h =>
    match h.wait with
    | some (.append d _ _) => (h.set d status).goto (h.pc + 4) .other
    | _ => h

/-- PY_STAT (R251). -/
def execPyStat (d a b : Reg) (s : State) : Out :=
  let h := s.hart
  let rec_ := s.get b
  if rec_.toNat % 8 ≠ 0 then .next (s.trap .misalign rec_)
  else pyStream s s (s.get a) fun o t =>
    match o with
    | none => t.result d (-1)
    | some (st, hd) =>
      if rec_ = 0 then
        t.result d (BitVec.ofNat 64 (hd.held.toNat * 2 ^ 63 + 2 ^ 62 + hd.fqn * 2 ^ 48 + min hd.lost 255 * 2 ^ 40 + hd.occ 0))
      else match t.storeChecks (unitsOf rec_.toNat 32) with
        | some (none, _) => .next (s.waitFor .memory)
        | some (some c, x) => .next (t.trap c (BitVec.ofNat 64 x))
        | none =>
          if hd.fqn = 0 then t.result d 0
          else match t.storeRecord rec_.toNat (t.regionGet st (128 + 32 * (hd.fqh % 4)) 32) 4 with
            | ((.wait w, _), _) => .next (s.waitFor w)
            | ((.fault c, x), _) => .next (t.trap c (BitVec.ofNat 64 x))
            | ((.val _, _), u) => (u.regionPut st (some h.id) 88 2 (hd.fqn - 1 + 256 * ((hd.fqh + 1) % 4))).result d 1

/-- The body registered as a combiner (R250). -/
def State.combiner (s : State) (part id : Nat) : Option (List IWord) :=
  (s.eng.combiners.find? fun c => c.part == part && c.id == id).map (·.words)

/-- PY_RESUME (R252, R373). -/
def execPyResume (d a : Reg) (s : State) : Out :=
  pyStream s s (s.get a) fun o t =>
    match o with
    | none => t.result d 6
    | some (st, hd) =>
      if !hd.held then t.result d 10
      else if (t.combiner st.part hd.comb).isNone then t.result d 9
      else (t.putState32 st (some s.hart.id) hd 0 bitHeld).result d 0

/-! ### Combiners (R250, R370, R374, R375) -/

/-- The integer operation of a function code (R70, R146). -/
def iopOf : Nat → IOp
  | 0 => .add | 1 => .sub | 2 => .rsub | 3 => .mul | 4 => .mulh | 5 => .macc | 6 => .min | 7 => .max | 8 => .and | 9 => .or
  | 10 => .xor | 11 => .sll | 12 => .srl | 13 => .sra | 16 => .sadd | _ => .ssub

/-- The FP operation of a function code (R148 to R150). -/
def fopOf (n : Nat) (f : Fmt) (m : RMode) (a y d : Nat) : Nat × Ev :=
  match n with
  | 0 => fAdd f m a y
  | 1 => fSub f m a y
  | 2 => fMul f m a y
  | 3 => fFma f m a y (f.decode d)
  | 4 => fFma f m a y (f.decode d).negate
  | 5 => fDiv f m a y
  | 6 => fSqrt f m a
  | 7 => fMinMax f false a y
  | 8 => fMinMax f true a y
  | 9 => (2 ^ fClass f a, {})
  | _ => fRcpe f a

/-- The relation of a compare (R151). -/
def relOf (n : Nat) (t : VT) (a y : Nat) : Bool × Ev :=
  match n with
  | 0 => icmp (fun x y => decide (x = y)) t a y
  | 1 => icmp (fun x y => decide (x ≠ y)) t a y
  | 2 => icmp (fun x y => decide (x < y)) t a y
  | 3 => icmp (fun x y => decide (x ≤ y)) t a y
  | 4 => icmp (fun x y => decide (y < x)) t a y
  | 5 => icmp (fun x y => decide (y ≤ x)) t a y
  | 8 => fEq t.fmt a y
  | 9 => (!(fEq t.fmt a y).1, (fEq t.fmt a y).2)
  | 10 => fLt t.fmt a y
  | _ => fLe t.fmt a y

/-- The bit of a mask operation (R152). -/
def kopOf (n : Nat) (vl : Nat) (a b : BitVec 4096) (i : Nat) : Bool :=
  match n with
  | 0 => a.getLsbD i && b.getLsbD i
  | 1 => a.getLsbD i || b.getLsbD i
  | 2 => a.getLsbD i != b.getLsbD i
  | 3 => !a.getLsbD i
  | 4 => decide (0 < i) && a.getLsbD (i - 1)
  | 5 => decide (i + 1 < vl) && a.getLsbD (i + 1)
  | _ => a.getLsbD i

/-- The work of a word of the combiner subset (R374). -/
def combBody (w : IWord) : Body :=
  let fn := wFn w
  match wMaj w with
  | 0x21 => if fn = 14 ∨ fn = 15 then vcarryBody (fn == 15) true none else vintBody (iopOf fn) true none
  | 0x23 =>
    let imm := fun t => immY (BitVec.ofNat 5 (wB w)) (decide (11 ≤ fn) && decide (fn ≤ 13)) t
    if fn = 14 ∨ fn = 15 then vcarryBody (fn == 15) false (some imm) else vintBody (iopOf fn) false (some imm)
  | 0x24 => vfpBody (fopOf fn) (bIsGroup w)
  | 0x26 => vcmpBody (relOf fn) true
  | 0x27 => kBody (kopOf fn)
  | _ => vmergeBody

/-- A word of the combiner subset, encoded as R80 asks (R374). -/
def combWord (w : IWord) : Bool :=
  let fn := wFn w
  (match wMaj w with
   | 0x21 | 0x23 | 0x24 => !w.getLsbD 7
   | 0x26 => decide (fn < 32) && !w.getLsbD 7
   | 0x27 => fn != 6 && fn != 7
   | 0x28 => fn == 0 && !w.getLsbD 7
   | _ => false) && !wCv w && (decodeJoin w).isSome

/-- The vector context of an anneal unit (R370). -/
def combHart (view : Word) (enable isz v0 v1 : Nat) : Hart :=
  let e := Hart.empty 0
  let ew := ewBits view 8
  let h := { e with
    quads := ⟨8, 0⟩
    vr := { vtype := view &&& 0x7FF3F#64, vl := 8 * isz / ew, cbits := 8, quads := 8, pending := false }
    fl := { e.fl with flags := BitVec.ofNat 16 (256 * enable) } }
  (h.putGroup 0 1 v0).putGroup 1 1 v1

/-- The index of the first word that a VIEW does not allow (R7, R79, R374). -/
def viewBad (s : State) (view : Word) (body : List IWord) : Option Nat :=
  let h := combHart view 0 8 0 0
  body.findIdx? fun w => (typeBad s h w 0 0).isSome

/-- Run a body: the merged value, or the cause and element of a trap (R370, R371). -/
def runComb : List IWord → State → Except (Cause × Nat) Nat
  | [], s => .ok (s.hart.group 0 1)
  | w :: r, s =>
    match combBody w { word := w, pc := 0, xa := 0, xb := 0, xc := 0 } s with
    | .done t => runComb r t
    | .block _ _ t => runComb r t
    | .trap _ c _ eri _ => .error (c, eri)

/-- The merge of two values (R369, R370). -/
def State.combine (s : State) (h : Hdr) (body : List IWord) (a b : Nat) : Except (Cause × Nat) Nat :=
  if body.isEmpty then .ok a
  else
    match runComb body { s with hart := combHart h.view h.enable h.isz a b } with
    | .ok v => .ok (v % 2 ^ (8 * h.isz))
    | .error x => .error x

/-- The lowest offending word of a body for a combiner id: the subset, and every VIEW of the partition's streams with that id
(R374). -/
def State.admissionBad (s : State) (part id : Nat) (body : List IWord) : Option Nat :=
  let sub := body.findIdx? fun w => !combWord w
  let legal := body.take (sub.getD body.length)
  let views := s.eng.streams.filterMap fun st =>
    let h := s.header st
    if st.part = part ∧ h.defined ∧ h.comb = id then viewBad s h.view legal else none
  (sub.toList ++ views).foldl (fun o i => match o with | none => some i | some j => some (min i j)) none

/-- Register a body. -/
def State.register (s : State) (part id : Nat) (body : List IWord) : State :=
  let new : Combiner := { part := part, id := id, words := body }
  { s with eng := { s.eng with combiners := putFirst (fun c => c.part == part && c.id == id) new s.eng.combiners } }

/-- BADCOMB with the index of a word (R243). -/
def badComb (i : Nat) : Word := BitVec.ofNat 64 (9 + 256 * (i % 256))

/-- The words of a combiner record, 4 bytes each by scalar loads. -/
def State.loadWords (s : State) (a : Nat) : Nat → (Rd × Nat) × List IWord × State
  | 0 => ((.val 0, a), [], s)
  | n + 1 =>
    match s.scalarLoad a 4 with
    | (.val v, t) => let (r, l, u) := t.loadWords (a + 4) n; (r, BitVec.ofNat 32 v :: l, u)
    | (r, t) => ((r, a), [], t)

/-- Finish an admission: `other` is the index at which the host rejects. -/
def admitRun (d : Reg) (part id : Nat) (body : List IWord) (other : Option Nat) (s : State) : Out :=
  match s.admissionBad part id body, other with
  | none, none => (s.register part id body).result d 0
  | some i, none => s.result d (badComb i)
  | none, some j => s.result d (badComb j)
  | some i, some j => s.result d (badComb (min i j))

/-- Post a request to the host (R359); none while the queue of 64 is full. -/
def State.post (s : State) (kind part id : Nat) (body : List IWord) : Option State :=
  if 64 ≤ (s.sys.posts.filter fun p => !p.popped).length then none
  else some { s with sys := { s.sys with
    nextSeq := s.sys.nextSeq + 1
    posts := s.sys.posts ++ [{ seq := s.sys.nextSeq, kind := kind, part := part, id := id, words := body, popped := false, verdict := none }] } }

/-- PY_COMB (R250, R374, R375). -/
def execPyComb (d a b : Reg) (s : State) : Out :=
  let h := s.hart
  let id := (s.get a).toNat
  let rec_ := s.get b
  match h.wait with
  | some (.admission seq) =>
    match s.sys.posts.find? (·.seq == seq) with
    | none => .next { s with hart := { h with wait := none } }
    | some p =>
      match p.verdict with
      | none => .next s
      | some (v, i) =>
        admitRun d h.tk.part p.id p.words (if v = 0 then none else some i)
          { s with sys := { s.sys with posts := s.sys.posts.filter fun q => q.seq != seq } }
  | _ =>
    if rec_.toNat % 8 ≠ 0 then .next (s.trap .misalign rec_)
    else match s.scalarLoad rec_.toNat 8 with
      | (.wait w, t) => .next (t.waitFor w)
      | (.fault c, t) => .next (t.trap c rec_)
      | (.val v, t) =>
        let n := v % 2 ^ 16
        match t.loadWords (rec_.toNat + 8) (min n 64) with
        | ((.wait w, _), _, u) => .next (u.waitFor w)
        | ((.fault c, x), _, u) => .next (u.trap c (BitVec.ofNat 64 x))
        | ((.val _, _), body, u) =>
          if 63 < id ∨ v / 2 ^ 16 ≠ 0 then u.result d (badComb 0)
          else if 64 < n then u.result d (badComb 64)
          else if u.hostMode h.tk.part 1 then
            match u.post 1 h.tk.part id body with
            | none => .next (u.waitFor .engine)
            | some w => .next (w.waitFor (.admission u.sys.nextSeq))
          else admitRun d h.tk.part id body none u

/-! ### py.def (R244, R249) -/

/-- The container of a blocked view, from the format register of the hart that defines the stream. -/
def viewBits8 (h : Hart) (view : Word) : Option Nat :=
  if vtClass view ≠ 5 then some (8 * 2 ^ vtEw view)
  else
    let f := h.f.get ⟨vtFmt view % 8, by omega⟩
    if fmtWidthOk f then some (containerOf (fmtWm1 f + 1)) else none

/-- A definition block with NLEV ≥ 1 keeps R244. -/
def defOk (h : Hart) (b : BitVec 512) : Bool :=
  let nlev := bytesAt b 1 1
  let view := BitVec.ofNat 64 (bytesAt b 4 4)
  let isl := bytesAt b 0 1
  let cap := fun l => bytesAt b (8 + l) 1
  decide (3 ≤ isl) && decide (isl ≤ 8) && decide (nlev ≤ 16) && decide (bytesAt b 2 1 ≤ 63) && decide (bytesAt b 3 1 ≤ 1) &&
  decide (bytesAt b 41 23 = 0) &&
  (upTo 16).all (fun l => if l < nlev then decide (2 ≤ cap l) && decide (cap l ≤ 20) else decide (cap l = 0)) &&
  decide (bytesAt b 24 8 % 4096 = 0) && vtLegal view && decide (bitsOf view.toNat 31 19 = 0) && decide (bitsOf view.toNat 7 6 = 0) &&
  (match viewBits8 h view with
   | none => false
   | some w => decide (8 * 2 ^ isl % w = 0) && (vtClass view != 5 || decide (32 * w ≤ 8 * 2 ^ isl))) &&
  decide (4096 + (upTo nlev).foldl (fun n l => n + 2 ^ cap l * (2 ^ isl + 32)) 0 ≤ bytesAt b 32 8)

/-- The physical page numbers of a region, if every page maps to the partition's memory of the tier (R249, R348). -/
def State.regionPages (s : State) (part ctx tier base : Nat) : Nat → Option (List Nat)
  | 0 => some []
  | n + 1 =>
    match s.regionPages part ctx tier base n with
    | none => none
    | some l =>
      match s.ownPa part ctx (base + 4096 * n) with
      | none => none
      | some k => if (if k < lpddrBase then tier = 0 else tier = 1) then some (l ++ [k / 4096]) else none

/-- What an anneal unit does on a stream is dropped: the words it holds registered pass back (R301, R378). -/
def State.dropOp (s : State) (st : Stream) : State :=
  match st.op with
  | some (.merge _ _ off len) => s.regionUnreg st (annealUnit st.base) off len
  | _ => s

/-- PY_DEF with NLEV ≥ 1 (R249): x[D]. -/
def define (h : Hart) (b : BitVec 512) : Walk Word := do
  let s ← get
  let part := h.tk.part
  let base := bytesAt b 24 8
  let size := bytesAt b 32 8
  if !defOk h b then pure 7
  else match s.combiner part (bytesAt b 2 1) with
    | none => pure 9
    | some body =>
      match s.regionPages part h.tk.ctx (bytesAt b 3 1) base (ceilDiv size 4096) with
      | none => pure 7
      | some pages => do
        if (← streamAt h.core part h.tk.ctx base).isSome then pure 7
        else match viewBad s (BitVec.ofNat 64 (bytesAt b 4 4)) body with
          | some i => pure (badComb i)
          | none => do
            let st : Stream := { part := part, base := 4096 * pages.headD 0, size := size, pages := pages, op := none, retry := none }
            match s.eng.streams.find? (·.base == st.base) with
            | some old => modify (·.dropOp old)
            | none => pure ()
            regionOpen st 0 4096 true
            modify fun t => (t.putStream st).regionPut st (some h.id) 0 4096 (b.toNat + 2 ^ 640 * 2 ^ 31)
            pure 0

/-- PY_DEF (R249, R378): undefining a stream abandons what its anneal unit is doing, and nothing of that is published. -/
def execPyDef (d a : Reg) (s : State) : Out :=
  let h := s.hart
  let rec_ := s.get a
  if rec_.toNat % 64 ≠ 0 then .next (s.trap .misalign rec_)
  else match s.loadRecord rec_.toNat 8 with
    | ((.wait w, _), t) => .next (t.waitFor w)
    | ((.fault c, x), t) => .next (t.trap c (BitVec.ofNat 64 x))
    | ((.val v, _), t) =>
      let b := BitVec.ofNat 512 v
      let base := BitVec.ofNat 64 (bytesAt b 24 8)
      if bytesAt b 1 1 = 0 then
        pyStream s t base fun o u =>
          match o with
          | none => u.result d 6
          | some (st, _) => pyStep s u base (regionOpen st 0 4096 true) fun _ w =>
            let x := ((w.dropOp st).regionPut st (some h.id) 0 4096 0).endAppends st.base 6
            { x with eng := { x.eng with streams := x.eng.streams.filter fun y => y.base != st.base } }.result d 0
      else pyStep s t base (define h b) fun w u => u.result d w

/-! ### The anneal units (R368 to R373, R377) -/

/-- The operation an anneal unit would perform on a stream: none, or its level, with the header (R368, R373). -/
def State.eligible (s : State) (st : Stream) : Option (Nat × Hdr) :=
  match ((headerOpen st).go s).1 with
  | .error _ => none
  | .ok h =>
    if !h.defined || h.held then none
    else match st.retry with
      | some l => some (l, h)
      | none => ((upTo h.nlev).find? fun l =>
          decide (h.cap l < h.occ l + 2) && (l + 1 == h.nlev || decide (h.occ (l + 1) < h.cap (l + 1)))).map (·, h)

/-- A merge is abandoned (R371): the stream is held, a fault record queued, and the appends that wait end (R381). -/
def State.holdStream (s : State) (st : Stream) (h : Hdr) (l : Nat) (a b : Span) (c : Cause) (eri : Nat) : State :=
  let full := h.fqn == 4
  let qh := if full then (h.fqh + 1) % 4 else h.fqh % 4
  let qn := if full then 3 else h.fqn
  let r := h.gen + a.tf * 2 ^ 64 + b.tl * 2 ^ 128 + l * 2 ^ 192 + c.code * 2 ^ 200 + eri % 2 ^ 16 * 2 ^ 208
  let t := ((s.regionPut st none (128 + 32 * ((qh + qn) % 4)) 32 r).regionPut st none 88 2
    (qn + 1 + 256 * qh)).regionPut st none 84 4 (if full then min (h.lost + 1) (2 ^ 32 - 1) else h.lost)
  ((t.putState32 st none h bitHeld bitBusy).putStream { st with op := none, retry := some l }).endAppends st.base 2

/-- The descriptors of the two spans that a merge takes (R369). -/
def mergeSpans (st : Stream) (l : Nat) (h : Hdr) : Walk (Span × Span) := do
  let a ← descAt st h l (h.head l)
  let b ← descAt st h l (h.head l + 1)
  pure (a, b)

/-- An anneal unit begins an operation on a stream: for a merge it registers the entry it will write (R301, R369); none while that waits. A
lost word of the entry faults the operation (R296): the merge is abandoned as R371 has it (log entry 163). -/
def State.beginOp (s : State) (au : Nat) (st : Stream) (l : Nat) (h : Hdr) : Option State :=
  let go := fun (op : AnnealOp) (t : State) => (t.putStream { st with op := some op, retry := none }).putState32 st none h bitBusy 0
  if st.retry.isNone && l + 1 == h.nlev then some (go .discard s)
  else
    let off := h.entryOff (l + 1) (h.head (l + 1) + h.occ (l + 1))
    (s.regionReg st au off h.esz).bind fun t =>
      match t.regionBad st off h.esz true with
      | some c =>
        match (mergeSpans st l h).go (t.regionUnreg st au off h.esz) with
        | (.ok (a, b), u) => some (u.holdStream st h l a b c 0)
        | _ => none
      | none => some (go (.merge l ((t.combiner st.part h.comb).getD []) off h.esz) t)

/-- ANNEAL_OPERATION_START (R368, R377): the unit takes its next stream in round-robin order. -/
def execAnnealOperationStart (au : Nat) (s : State) : Out :=
  let mine := sortBy (fun a b => decide (a.base < b.base)) (s.eng.streams.filter fun st => annealUnit st.base == au)
  if mine.any (·.op.isSome) then .next s
  else
    let ready := mine.filterMap fun st => (s.eligible st).map fun l => (st, l)
    let last := Sparse.get 0 s.eng.served au
    match (ready.filter fun x => decide (last ≤ x.1.base)) ++ ready with
    | [] => .next s
    | (st, l, h) :: _ =>
      match s.beginOp au st l h with
      | none => .next s
      | some t => .next { t with eng := { t.eng with served := Sparse.put 0 t.eng.served au (st.base + 1) } }

/-- What a merge finds: the header, the two spans, the key of an error in a value (R371), and the body's outcome. -/
structure Merging where
  hdr : Hdr
  a : Span
  b : Span
  bad : Option Nat
  out : Except (Cause × Nat) Nat

/-- The key of the first bytes of an entry's value with an uncorrectable error, or of a lost word, whose data a read finds poisoned (R296,
R371). -/
def State.valueBad (s : State) (st : Stream) (h : Hdr) (l i : Nat) : Option Nat :=
  (st.pieces (h.entryOff l i + 32) h.isz).findSome? fun p =>
    (s.coh.poison.find? fun k => decide (k < p.key + p.len) && decide (p.key < k + 4)).or
      (if s.deadAt p.key p.len || s.lineLost p.line p.words then some p.key else none)

/-- An entry's value is made ready to be read, and its error found. -/
def valueOpen (st : Stream) (h : Hdr) (l i : Nat) : Walk (Option Nat) := do
  let s ← get
  if s.regionBusy st (h.entryOff l i + 32) h.isz then throw none
  let t := s.regionReady st (h.entryOff l i + 32) h.isz
  set t
  pure (t.valueBad st h l i)

/-- Steps 1 and 2 of R369. -/
def mergeWork (st : Stream) (l : Nat) (body : List IWord) : Walk Merging := do
  let h ← headerOpen st
  let i := h.head l
  let (a, b) ← mergeSpans st l h
  let e ← valueOpen st h l i
  let f ← valueOpen st h l (i + 1)
  match e.or f with
  | some k => pure { hdr := h, a := a, b := b, bad := some k, out := .error (.ecc, 0) }
  | none => do
    let x ← spanAt st h l i
    let y ← spanAt st h l (i + 1)
    pure { hdr := h, a := x, b := y, bad := none, out := (← get).combine h body x.value y.value }

/-- A home makes the write of a merge's entry wait, whose words the unit holds registered: not for a sweep, which waits until the unit has
finished and written them (R309). -/
def State.entryWaits (s : State) (st : Stream) (off n : Nat) : Bool :=
  (st.pieces off n).any fun p =>
    let hl := s.homeAt p.line
    !hl.locked && (!(hl.busy &&& p.words == 0#16) || s.underTest p.line || s.inFlight p.line p.words)

/-- Lock or unlock the lines of an entry. -/
def State.lockLines (s : State) (ls : List Nat) (b : Bool) : State := ls.foldl (fun t l => t.onHome l fun hl => { hl with locked := b }) s

/-- The stream with a header address, the merge it is in, and what that finds. -/
def State.merging (s : State) (hdr : Nat) : Option (Stream × Nat × Nat × Nat × Merging × State) :=
  match s.eng.streams.find? (·.base == hdr) with
  | none => none
  | some st =>
    match st.op with
    | some (.merge l body off len) =>
      let swept := (((st.pieces off len).map (·.line)).eraseDups).filter fun l => (s.homeAt l).locked
      match (mergeWork st l body).go (s.lockLines swept false) with
      | (.ok m, t) => if s.entryWaits st off len then none else some (st, l, off, len, m, t.lockLines swept true)
      | _ => none
    | _ => none

/-- Step 4 of R369: a level's HEAD moves on by `n`, and GEN rises. -/
def State.publish (s : State) (st : Stream) (h : Hdr) (l n : Nat) : State :=
  ((s.putLevel st none l ((h.head l + n) % h.cap l) (h.occ l - n)).regionPut st none 64 8 (h.gen + 1)).putState32 st none h 0 bitBusy

/-- MERGE_PUBLICATION (R369). -/
def execMergePublication (hdr : Nat) (s : State) : Out :=
  match s.merging hdr with
  | some (st, l, off, len, m, t) =>
    match m.out with
    | .error _ => .next s
    | .ok v =>
      let x : Span := { tf := m.a.tf, tl := m.b.tl, lev := l + 1, value := v }
      let u := ((t.regionPut st none off m.hdr.esz x.bytes).regionUnreg st (annealUnit st.base) off len).putLevel st none (l + 1)
        (m.hdr.head (l + 1)) (m.hdr.occ (l + 1) + 1)
      .next ((u.publish st m.hdr l 2).putStream { st with op := none })
  | none => .next s

/-- HORIZON_DISCARD (R369). -/
def execHorizonDiscard (hdr : Nat) (s : State) : Out :=
  match s.eng.streams.find? (·.base == hdr) with
  | none => .next s
  | some st =>
    if st.op = some .discard then
      match (headerOpen st).go s with
      | (.ok h, t) => .next ((t.publish st h (h.nlev - 1) 1).putStream { st with op := none })
      | _ => .next s
    else .next s

/-- MERGE_ABANDON (R371): an error in a value is reported to the error log too (R387, R388), with its channel to test; a lost word is
logged alone. -/
def execMergeAbandon (hdr : Nat) (s : State) : Out :=
  match s.merging hdr with
  | some (st, l, off, len, m, t) =>
    match m.out with
    | .ok _ => .next s
    | .error (c, eri) =>
      let u := (t.regionUnreg st (annealUnit st.base) off len).holdStream st m.hdr l m.a m.b c eri
      .next (match m.bad with
        | some k =>
          let r := errorRecord s.env.cycle k (if k < lpddrBase then 7 else 8) (channelOf (lineOf k) % 1024) 1 0 st.part 0
          if t.lineLost (lineOf k) (wordMask k 1) then u.logError r else u.report r .channel (lineOf k)
        | none => u)
  | none => .next s

end Sys2Proof.Machine
end

