-- ==== Sys2Proof/Machine/Coherence.lean ====
section
/-! DEFINITION. The moves of the ordering machine that work on their own: drains (R281, R282), evictions (R298, R299, R305),
controllers (R280) and links; and the messages between agents and homes (R293 to R297), collections (R303), lost words (R307,
R308) and sweeps (R309). -/
namespace Sys2Proof.Machine

/-! ### Drains (R282 moves 2, 5 and 13, R173) -/

/-- The core's L1 holds every word of the mask registered. -/
def State.holds (s : State) (core line : Nat) (m : BitVec 16) : Bool := s.heldWords core line &&& m == m

/-- The (key, byte) pairs of a store. -/
def SsbEntry.bytes (e : SsbEntry) : List (Nat × Byte) :=
  (natBytes e.len e.data.toNat).zipIdx.map fun x => (e.loc.key + x.2, x.1)

/-- The head of a hart's SSB leaves. -/
def State.popSsb (s : State) (h : Nat) : State := s.onHartAt h fun g => { g with ssb := g.ssb.drop 1 }

/-- A remote write of a hart cannot perform: that hart of that task learns of it, also when it is saved (R288). -/
def State.loseRemote (s : State) (task h va : Nat) (c : Cause) : State :=
  let hit := fun g : Hart => g.id == h && g.tk.task == task
  let lose := fun g : Hart => { g with lostStores := g.lostStores ++ [(va, c)] }
  if s.harts.any hit then s.onHarts hit lose else s.onSave task fun v => { v with harts := updIf hit lose v.harts }

/-- A store of the hart cannot perform (R308, R361, R383): the hart takes the cause at an instruction boundary. -/
def State.loseStore (s : State) (h va : Nat) (c : Cause := .ownerLost) : State :=
  s.onHartAt h fun g => { g with lostStores := g.lostStores ++ [(va, c)] }

/-- What keeps a drain from its place: a row or channel under test, or a link that carries nothing; past the link's time, or where the
channel or row is retired, the store cannot perform (R383, R388, R389). -/
def State.drainStop (s : State) (h : Hart) (loc : Loc) : Option Rd :=
  if loc.kind != .remote && s.deadAt loc.key 1 then some (.fault .ecc)
  else match loc.kind with
  | .bank => if s.bankTest loc.key then some (.wait .drain) else none
  | .uncached => if s.underTest (lineOf loc.key) then some (.wait .drain) else s.farDown h.core loc
  | .remote => none
  | _ => s.fabricDown h.core (lineOf loc.key)

/-- A cached store at the head of an SSB (R282 move 2): its words become registered to the core, then its bytes are written as
dirty; with a lost word it is discarded (R308). Cut into messages, the registration goes by REG. -/
def State.drainCached (s : State) (h : Hart) (e : SsbEntry) : State :=
  let line := lineOf e.loc.key
  let m := wordMask e.loc.key e.len
  let write := fun t : State => (t.l1Write h.core e.loc.key e.len e.data).popSsb h.id
  if s.rowTest 0 h.core line then s
  else if s.holds h.core line m then write s
  else if s.env.cut then
    if s.requested .reg h.core line then s
    else s.send (Machine.request .reg h.core h.tk.part line (m &&& ~~~s.heldWords h.core line) h.id)
  else if s.lineWaits line m then s
  else match s.registerWords h.core line m with
    | none => s
    | some t => if t.lineLost line m then (t.popSsb h.id).loseStore h.id e.va else write t

/-- A remote write enters its link egress queue (R281). -/
def State.sendRemote (s : State) (e : EgressEntry) : State := { s with coh := { s.coh with egress := s.coh.egress ++ [e] } }

/-- The head of a hart's SSB performs at its ordering point, if it can (R282 move 2). -/
def State.drainSsb (s : State) (h : Hart) (e : SsbEntry) : State :=
  match s.drainStop h e.loc with
  | some (.fault c) => (s.popSsb h.id).loseStore h.id e.va c
  | some _ => s
  | none =>
    match e.loc.kind with
    | .bank => ((s.applyBytes e.bytes).noteWrite (lineOf e.loc.key)).popSsb h.id
    | .uncached =>
      match s.ctlWrite (lineOf e.loc.key) (byteMask e.loc.key e.len)
          (BitVec.ofNat 512 (e.data.toNat % 2 ^ (8 * e.len) * 2 ^ (8 * (e.loc.key % 64)))) with
      | none => s
      | some t => t.popSsb h.id
    | .remote =>
      (s.sendRemote { module := e.loc.module, task := h.tk.task, hart := h.id, src := .store, va := e.va, bytes := e.bytes }).popSsb h.id
    | _ => s.drainCached h e

/-- SSB_DRAIN (R282 move 2). -/
def execSsbDrain (h : Nat) (s : State) : Out :=
  match s.hartAt h with
  | none => .next s
  | some g =>
    match g.ssb.head? with
    | none => .next s
    | some e => .next (s.drainSsb g e)

/-- The head of PSF[q] leaves; lines the vector port has read by messages for this word are read again. -/
def State.popPsf (s : State) (h q line : Nat) : State :=
  s.onHartAt h fun g =>
    { g with
      psf := Vector.set g.psf (q % 8) ((g.psf.get ⟨q % 8, by omega⟩).drop 1) (by omega)
      vs := { g.vs with lines := g.vs.lines.filter fun l => l.1 != line } }

/-- A line of a PSF is applied at its home once its words have no owner (R282 move 5, R296 WRV): bytes of lost words are discarded. -/
def State.putWrv (s : State) (line : Nat) (mask : BitVec 64) (data : BitVec 512) : State :=
  let lost := (s.homeAt line).select (wordsOfBytes mask) (· == .lost)
  (s.applyLine line (mask &&& ~~~(bytesOfWords lost)) data).noteWrite line

/-- The same with its owners' words taken first; the hart learns of a lost word (R308). -/
def State.applyWrv (s : State) (h va line : Nat) (mask : BitVec 64) (data : BitVec 512) : State :=
  let m := wordsOfBytes mask
  let t := (s.collect line).takeOwners line m
  let u := t.putWrv line mask data
  if t.lineLost line m then u.loseStore h va else u

/-- The head of PSF[q] performs at its ordering point, if it can (R282 move 5). Cut into messages, a cached line goes by WRV,
whose `aux` holds q and the address. -/
def State.drainPsf (s : State) (h : Hart) (q : Nat) (e : PsfEntry) : State :=
  let line := lineOf e.loc.key
  match s.drainStop h e.loc with
  | some (.fault c) => (s.popPsf h.id q line).loseStore h.id e.va c
  | some _ => s
  | none =>
    match e.loc.kind with
    | .bank => ((s.applyLine line e.mask e.data).noteWrite line).popPsf h.id q line
    | .uncached =>
      match s.ctlWrite line e.mask e.data with
      | none => s
      | some t => t.popPsf h.id q line
    | .remote =>
      (s.sendRemote { module := e.loc.module, task := h.tk.task, hart := h.id, src := .store, va := e.va
                      bytes := maskedBytes line e.mask e.data }).popPsf h.id q line
    | _ =>
      if s.env.cut then
        if s.requested .wrv h.port line then s
        else s.send { Machine.request .wrv h.port h.tk.part line (wordsOfBytes e.mask) (q + 8 * e.va) with bytes := e.mask, data := e.data }
      else if s.lineWaits line (wordsOfBytes e.mask) then s
      else (s.applyWrv h.id e.va line e.mask e.data).popPsf h.id q line

/-- PSF_DRAIN (R282 move 5). -/
def execPsfDrain (h q : Nat) (s : State) : Out :=
  match s.hartAt h with
  | none => .next s
  | some g =>
    match (g.psf.get ⟨q % 8, by omega⟩).head? with
    | none => .next s
    | some e => .next (s.drainPsf g (q % 8) e)

/-- The lines that (key, byte) pairs touch. -/
def linesIn (bytes : List (Nat × Byte)) : List Nat := (bytes.map fun b => lineOf b.1).eraseDups

/-- Bytes are written where they belong, each line's write noted. -/
def State.writeNoted (s : State) (bytes : List (Nat × Byte)) : State :=
  (linesIn bytes).foldl (fun t l => t.noteWrite l) (s.applyBytes bytes)

/-- CPF_DRAIN (R173): the head packet is applied whole to its core's scratchpad. -/
def execCpfDrain (h c : Nat) (s : State) : Out :=
  match s.hartAt h with
  | none => .next s
  | some g =>
    match (g.cpf.get ⟨c % 4, by omega⟩).head? with
    | none => .next s
    | some p =>
      if p.bytes.any fun b => s.bankTest b.1 then .next s
      else .next ((s.writeNoted p.bytes).onHartAt h fun g => { g with
        cpf := Vector.set g.cpf (c % 4) ((g.cpf.get ⟨c % 4, by omega⟩).drop 1) (by omega) })

/-- The trap that a store which could not perform brings next (R308): the hart runs and stands at an instruction boundary. -/
def State.ownerLostDue (s : State) (g : Hart) : Option (Nat × Cause) :=
  let mid := match g.wait with | some (.admission _) | some (.delivery _ _) => true | _ => g.tk.arrived.isSome
  if g.status == .running && s.atBoundary g && !mid then g.lostStores.head? else none

/-- OWNER_LOST_TRAP (R308): TVAL holds the store's address and TPC the next instruction's PC, with PK = 0. -/
def execOwnerLostTrap (h : Nat) (s : State) : Out :=
  match s.hartAt h with
  | none => .next s
  | some g =>
    match s.ownerLostDue g with
    | none => .next s
    | some (va, c) =>
      .next (((s.turnTo h).onHart fun g => { g with lostStores := g.lostStores.drop 1 }).trap c (BitVec.ofNat 64 va))

/-- A remote write that cannot be delivered in time (R361): the hart takes ECC for it, or the copy ends with it; a write of the host is
dropped like one that a translation fault stops (R355). -/
def State.undelivered (s : State) (e : EgressEntry) : State :=
  match e.src with
  | .store | .drain => s.loseRemote e.task e.hart e.va .ecc
  | .copy token =>
    let hit := fun c : Copy => c.hart == e.hart && c.task == e.task && c.token == token
    { s with eng := { s.eng with copies := updIf hit (fun c => { c with fault := some Cause.ecc.code }) s.eng.copies } }
  | .host => s.event e.va 0 (e.va / 2 ^ 36)

/-- LINK_DELIVERY (R282 move 13): the oldest write for a module reaches its remote home; past its time over a route that is down it
faults (R361). -/
def execLinkDelivery (module : Nat) (s : State) : Out :=
  match s.coh.egress.find? (·.module == module) with
  | none => .next s
  | some e =>
    let t : State := { s with coh := { s.coh with egress := dropFirst (·.module == module) s.coh.egress } }
    if s.routeDown module then .next (if s.coh.expired.any (· == module) then t.undelivered e else s)
    else
      -- the flit has come through: its replays are over
      let u : State := { t with coh := { t.coh with replays := Sparse.put 0 t.coh.replays (Config.port module) 0 } }
      .next (u.writeNoted e.bytes)

/-! ### Evictions and controllers (R280, R298, R299, R305) -/

/-- L1_EVICTION (R298). -/
def execL1Eviction (core line : Nat) (s : State) : Out := .next (s.evictLine core line)

/-- CONTROLLER_WRITE_ISSUE (R280): the oldest queued write of a channel goes out; at 16 entries drain mode ends. -/
def execControllerWriteIssue (chan : Nat) (s : State) : Out :=
  match s.coh.wq.find? (·.chan == chan) with
  | none => .next s
  | some e =>
    if s.underTest e.line then .next s else
    let t := s.applyLine e.line e.mask e.data
    let q := dropFirst (·.chan == chan) s.coh.wq
    .next { t with coh := { t.coh with
      wq := q
      draining := if (q.filter (·.chan == chan)).length ≤ 16 then t.coh.draining.filter (· != chan) else t.coh.draining } }

/-- COMBINE_BUFFER_EVICTION (R305). -/
def execCombineBufferEviction (cluster : Nat) (s : State) : Out :=
  match s.coh.comb.find? (·.cluster == cluster) with
  | none => .next s
  | some b => .next ((s.combFlush b).getD s)

/-! ### The agents and the network (R293, R294) -/

/-- The channel of a message: 0 REQ, 1 CMD, 2 RSP. -/
def MsgKind.chan : MsgKind → Nat
  | .rd | .rdv | .reg | .wrv | .atom | .ereg | .ewr => 0
  | .gnt | .xfer | .fwd | .nakl | .collect | .claim => 1
  | .wb | .xack | .fack | .part | .claimr => 2

/-- A core on the die of an agent (R291). -/
def agentCore (a : Nat) : Nat :=
  if a < 640 then a else if a < 0x320 then 4 * (a - 0x280) else if a < 0x360 then 160 * ((a - 0x320) / 16) else (a - 4096) / 8

/-- The agent of a message that is not the home. -/
def Msg.agent (m : Msg) : Nat := if m.kind.chan == 1 then m.target else m.sender

/-- A message may arrive (R294): none earlier on its channel between the two, and no link on its way that carries nothing (R383);
requests arrive and then wait at the home word by word (R295), so an earlier request stands in the way only if it shares a word. -/
def State.deliverable (s : State) (n : Nat) (m : Msg) : Bool :=
  (s.fabricDown (agentCore m.agent) m.line).isNone &&
  !(s.coh.net.take n).any fun e =>
    e.kind.chan == m.kind.chan && e.sender == m.sender && e.target == m.target &&
    (m.kind.chan != 0 || (e.line == m.line && !(e.words &&& m.words == 0#16)))

/-- The message at a place of the network, if it is of that kind and may arrive. -/
def State.msgAt (s : State) (k : MsgKind) (n : Nat) : Option Msg :=
  (s.coh.net[n]?).filter fun m => m.kind == k && s.deliverable n m

/-- The message at a place leaves the network. -/
def State.takeMsg (s : State) (n : Nat) : State := { s with coh := { s.coh with net := s.coh.net.eraseIdx n } }

/-- The home of a line, as an agent. -/
def homeAgent (line : Nat) : Nat := 65536 + homeSlice line

/-- A command of a home to an agent. -/
def homeCommand (k : MsgKind) (line target : Nat) (words : BitVec 16) (aux : Nat := 0) (aux2 : Nat := 0) : Msg :=
  { kind := k, sender := homeAgent line, target := target, part := 0, line := line, words := words, bytes := 0, data := 0
    dirty := 0, poison := 0, aux := aux, aux2 := aux2 }

/-- The partition whose memory holds a line (R310). -/
def State.lineOwner (s : State) (line : Nat) : Option Partition :=
  s.sys.parts.find? fun p => inGib p.stacked (64 * line) || inGib p.lpddr (64 * line)

/-- The clusters of a partition. -/
def Partition.clusterList (p : Partition) : List Nat := (upTo 160).filter fun c => p.clusters.getLsbD c

/-! ### Serving requests at the home (R295, R296, R299, R300, R303) -/

/-- The line as the home serves it: its own value, with the values that owners forwarded (R296 FACK). -/
def State.servedLine (s : State) (line : Nat) (gathered : List (Nat × BitVec 16 × BitVec 512)) : BitVec 512 :=
  gathered.foldl (fun d g => if g.1 < 640 then mergeBytes d g.2.2 (bytesOfWords g.2.1) else d) (s.memLine line)

/-- The partials that came, in ascending cluster order, folded into the home value (R304). -/
def State.foldGathered (s : State) (line : Nat) (gathered : List (Nat × BitVec 16 × BitVec 512)) : State :=
  match s.rangeOf line with
  | none => s
  | some r =>
    s.foldLine r line ((sortBy (fun a b => decide (a.1 < b.1)) (gathered.filter fun g => decide (640 ≤ g.1))).map (·.2))

/-- The atomic of an ATOM message performs at the home (R117, R296); with poisoned data it has no reply, and its hart finds the error. -/
def State.serveAtom (s : State) (m : Msg) : State :=
  let w := m.aux2 / 16
  if s.poisoned m.aux (w / 8) then s
  else
    let old := s.memNat m.aux (w / 8)
    let d := m.data.toNat
    let t := match amoApply (amoOfCode (m.aux2 % 16)) w old (d % 2 ^ 64) (d / 2 ^ 64 % 2 ^ 64) with
      | none => s.clearLinks m.line
      | some nw =>
        let t := (s.putNat m.aux (w / 8) nw).noteWrite m.line
        match s.hartAt (m.sender - 4096) with | some g => t.shadowStore g m.aux (w / 8) true | none => t
    t.onHartAt (m.sender - 4096) fun g => { g with atomReply := some (BitVec.ofNat 64 old) }

/-- A request is taken up (R295): `words` are busy until the agents asked have answered: the cores that own words of `mask`, by `k`
with reason `why`, and the combine buffers `bufs` of a collection (R303). -/
def State.take (s : State) (req : Msg) (words mask : BitVec 16) (k : MsgKind) (why : Nat) (bufs : List Nat) (coll : Bool) : State :=
  let hl := s.homeAt req.line
  let owners := hl.coreOwners mask
  let u := s.onHome req.line fun g =>
    { g with
      busy := g.busy ||| words
      serving := g.serving ++ [{ req := req, words := words, collects := coll, awaiting := owners ++ bufs, gathered := [] }] }
  let v := owners.foldl (fun v a => v.send (homeCommand k req.line a (hl.select mask (· == .core a)) why)) u
  bufs.foldl (fun v a => v.send (homeCommand .collect req.line a 0xFFFF#16)) v

/-- The home recalls every core-registered word of a line by XFER with reason 2: to evict it (`why` 0, R299), or to free its split entry
(1, R300). A slice has one recall of each kind under way at a time. -/
def State.recallLine (s : State) (line why : Nat) : State :=
  if s.coh.homes.any fun hl => homeSlice hl.line == homeSlice line && hl.serving.any fun v => v.req.kind == .xfer && v.req.aux2 == why
  then s
  else
    let owned := (s.homeAt line).select 0xFFFF#16 WState.isCore
    s.take (homeCommand .xfer line 0 owned 2 why) owned owned .xfer 2 [] false

/-- A change that may make words of a line lost, which then need a split entry: with none free the oldest that can be is freed, by XFER when
transactions are cut into messages, and the change waits while none can (R300, R307). -/
def State.forLoss (s : State) (line : Nat) (f : State → State) : State :=
  if s.env.cut && s.splitFull (f s) line then
    match s.splitVictim line with
    | some l => s.recallLine l 1
    | none => s
  else (s.withSplit line f).getD s

/-- A word of the line is registered to a core that is fenced off. -/
def State.fencedOwner (s : State) (line : Nat) : Bool := ((s.homeAt line).coreOwners 0xFFFF#16).any fun n => (s.coreAt n).fenced

/-- The words of a line that are registered to cores that are fenced off become lost (R307). -/
def State.loseFenced (s : State) (line : Nat) : State :=
  s.onHome line fun g => ((g.coreOwners 0xFFFF#16).filter fun n => (s.coreAt n).fenced).foldl
    (fun g n => g.setWords (g.select 0xFFFF#16 (· == .core n)) .lost) g

/-- A registration for which its slice has no line or split entry waits at the home while room is made (R299, R300): it is the first of
the requests again. None where there is room. -/
def State.noRoom (s : State) (m : Msg) (w : WState) : Option State :=
  let again := { s with coh := { s.coh with net := m :: s.coh.net } }
  let makeWay := fun (v : Option Nat) why => match v with | some l => again.recallLine l why | none => again
  if !s.lineFree m.line then some (makeWay (s.lineVictim m.line) 0)
  else if s.regFull m.line m.words w then some (makeWay (s.splitVictim m.line) 1)
  else none

/-- What a NAKL of a request tells: 0 a store's registration, 1 a WRV, else a request whose agent finds the loss itself. -/
def nakCode (m : Msg) : Nat :=
  match m.kind with
  | .reg => if m.aux2 = 1 then 2 else 0
  | .wrv => 1
  | _ => 2

/-- The request itself, once owners and partials are in (R296). A recall ends with the line evicted, if that was its purpose (R299). -/
def State.performReq (s : State) (m : Msg) (gathered : List (Nat × BitVec 16 × BitVec 512)) : State :=
  let lost := (s.homeAt m.line).select m.words (· == .lost)
  let nak := fun t : State => if lost = 0#16 then t else t.send (homeCommand .nakl m.line m.sender lost m.aux (nakCode m))
  match m.kind with
  | .rd =>
    let d := s.servedLine m.line gathered
    if m.aux = 1 then s
    else if m.aux2 = 1 then
      if s.lineLost m.line 0xFFFF#16 || s.poisoned (64 * m.line) 64 then s else s.onCore m.sender (·.roFill m.line d)
    else (s.makeRoom m.sender m.line).fillData m.sender m.line d
  | .rdv =>
    s.onHarts (fun h => h.port == m.sender && h.status == .running) fun h =>
      { h with vs := { h.vs with lines := h.vs.lines ++ [(m.line, m.words, s.servedLine m.line gathered)] } }
  | .reg =>
    if lost ≠ 0#16 then nak s
    else match s.noRoom m (.core m.sender) with
      | some t => t
      | none =>
        ((s.send { homeCommand .gnt m.line m.sender m.words m.aux m.aux2 with data := s.memLine m.line }).onHome m.line
          (·.setWords m.words (.core m.sender))).noteWrite m.line
  | .wrv => nak ((s.putWrv m.line m.bytes m.data).popPsf (m.sender - 4096) (m.aux % 8) m.line)
  | .atom => if lost ≠ 0#16 then nak s else s.serveAtom m
  | .ereg =>
    match s.noRoom m (.engine m.sender) with
    | some t => t
    | none =>
      let free := (s.homeAt m.line).select m.words (· == .unreg)
      nak ((s.onHome m.line (·.setWords free (.engine m.sender))).clearLinks m.line)
  | .xfer => if m.aux2 = 0 && s.recallable m.line then (s.evictHome m.line).getD s else s
  | _ => s

/-- The engines of a partition, as CLAIM and COLLECT reach them (R291, R309, R310). -/
def State.partEngines (s : State) (p : Partition) : List Nat :=
  p.clusterList.map (0x280 + ·) ++ ((s.eng.streams.filter (·.part == p.id)).map fun st => annealUnit st.base).eraseDups

/-- The sweep's CLAIM goes to every core that still answers and to the engines of the line's partition (R309). -/
def State.sendClaims (s : State) (line : Nat) : State :=
  let agents := match s.lineOwner line with
    | none => []
    | some p =>
      ((p.clusterList.flatMap fun c => [4 * c, 4 * c + 1, 4 * c + 2, 4 * c + 3]).filter fun n => !(s.coreAt n).fenced) ++ s.partEngines p
  let t := s.onHome line fun hl => { hl with awaiting := agents, gathered := [] }
  agents.foldl (fun t a => t.send (homeCommand .claim line a 0xFFFF#16)) t

/-- The end of a sweep (R309): each word with a single claim takes its value; every word becomes unregistered, and the line is
unlocked; two claims for one word stop every hart of the partition, and an error record tells the supervisor. -/
def State.endSweep (s : State) (line : Nat) (gathered : List (Nat × BitVec 16 × BitVec 512)) : State :=
  let claims := fun w => gathered.filter fun g => g.2.1.getLsbD w
  let t := (upTo 16).foldl (fun t w =>
    match claims w with
    | [g] => t.applyLine line (bytesOfWords (BitVec.ofNat 16 (2 ^ w))) g.2.2
    | _ => t) s
  let u := t.onHome line fun _ => HomeLine.fresh line
  if (upTo 16).any fun w => decide (2 ≤ (claims w).length) then
    match s.lineOwner line with
    | none => u
    | some p =>
      ((u.logError (errorRecord s.env.cycle (64 * line) 11 (homeSlice line) 1 0 p.id 0)).onPart p.id fun q => { q with fatal := true }).onHarts
        (fun h => h.tk.part == p.id && h.status != .empty) fun h => { h with status := .stopped }
  else u

/-- The sweep's end if every agent has answered. -/
def State.sweepDone (s : State) (line : Nat) : State :=
  let hl := s.homeAt line
  if hl.locked && hl.serving.isEmpty && hl.awaiting.isEmpty then s.endSweep line hl.gathered else s

/-- A SWEEP begins (R309): the line is locked; requests being served end first. -/
def State.sweep (s : State) (line : Nat) : State :=
  let hl := s.homeAt line
  if hl.locked then s
  else
    let t := s.onHome line fun g => { g with locked := true }
    if hl.serving.isEmpty then (t.sendClaims line).sweepDone line else t

/-- A served request ends once nothing is awaited: partials fold, the request performs, its words are no longer busy (R295,
R303); a sweep that waited for it begins. -/
def State.finish (s : State) (line : Nat) : State :=
  match (s.homeAt line).serving.find? (·.awaiting.isEmpty) with
  | none => s
  | some v =>
    let t := s.onHome line fun g =>
      { g with busy := g.busy &&& ~~~v.words, serving := dropFirst (·.awaiting.isEmpty) g.serving }
    let u := (if v.collects then t.foldGathered line v.gathered else t).performReq v.req v.gathered
    if (u.homeAt line).locked && (u.homeAt line).serving.isEmpty then (u.sendClaims line).sweepDone line else u

/-- A line served for cores that are fenced off (R307): their words become lost, they answer nothing and ask nothing, and the requests that
awaited them alone end; where the loss waits for a split entry, all of this waits (R300). -/
def State.settleFenced (s : State) (line : Nat) : State :=
  let t := if s.fencedOwner line then s.forLoss line (·.loseFenced line) else s
  if t.fencedOwner line then t
  else
    let dead := fun a : Nat => decide (a < 640) && (t.coreAt a).fenced
    let void := fun v : Serve => { v with
      awaiting := v.awaiting.filter fun a => !dead a
      req := if dead v.req.sender then { v.req with kind := .xfer, aux2 := 2 } else v.req }
    let u := t.onHome line fun hl => { hl with awaiting := hl.awaiting.filter (fun a => !dead a), serving := hl.serving.map void }
    ((upTo (u.homeAt line).serving.length).foldl (fun v _ => v.finish line) u).sweepDone line

/-- A line of the slice of `line` with words of cores that are fenced off, which can become lost now. -/
def State.fencedLine (s : State) (line : Nat) : Option Nat :=
  ((s.coh.homes.filter fun hl => homeSlice hl.line == homeSlice line && s.fencedOwner hl.line).map (·.line)).find? fun l =>
    decide (s.settleFenced l ≠ s)

/-- The request looks at words of cores by FWD, not by XFER (R296). -/
def MsgKind.reads : MsgKind → Bool
  | .rd | .rdv => true
  | _ => false

/-- The words that a request asks of cores, outside collections (R296): for REG not the sender's own; for RD, which fills a line, every
word of it that is not busy. -/
def HomeLine.toAsk (hl : HomeLine) (m : Msg) : BitVec 16 :=
  match m.kind with
  | .rd => hl.select (~~~hl.busy) WState.isCore
  | .reg => hl.select m.words fun w => w.isCore && w != .core m.sender
  | _ => hl.select m.words WState.isCore

/-- The reason in the XFER of a request (R293): 0 transfer, 1 deregistration. -/
def MsgKind.why : MsgKind → Nat
  | .reg => 0
  | _ => 1

/-- A request arrives and is served: at once when it asks nobody, else its words are busy until the answers are in (R295, R296,
R303). It waits while the line is locked, a word of it is busy or an engine's, a test holds the line, or the sender's own writeback of the line
is on its way; a collection waits until nothing of the line is served. Words left to a core that is fenced off become lost first (R307). -/
def State.serve (s : State) (k : MsgKind) (n : Nat) : State :=
  match s.msgAt k n with
  | none => s
  | some m =>
    let hl := s.homeAt m.line
    if let some l := s.fencedLine m.line then s.settleFenced l
    else if hl.waits m.words || s.underTest m.line || !(s.wbsOf m.sender m.line).isEmpty || s.fencedOwner m.line then s
    else match s.rangeOf m.line with
      | some _ =>
        if !hl.serving.isEmpty then s
        else
          let bufs := (match s.lineOwner m.line with | some p => p.clusterList | none => []).map (0x280 + ·)
          ((s.takeMsg n).take m 0xFFFF#16 0xFFFF#16 .xfer 3 bufs true).finish m.line
      | none =>
        let mask := hl.toAsk m
        ((s.takeMsg n).take m (m.words ||| mask) mask (if k.reads then .fwd else .xfer) k.why [] false).finish m.line

/-- SLICE_EVICTION (R299): the owners' words are recalled, by XFER when transactions are cut into messages; then links are cleared and
the line written back. A line with an engine's or a lost word is never chosen. -/
def execSliceEviction (line : Nat) (s : State) : Out :=
  if !s.recallable line then .next s
  else if s.env.cut && !((s.homeAt line).select 0xFFFF#16 WState.isCore == 0#16) then .next (s.recallLine line 0)
  else .next ((s.evictHome line).getD s)

/-- RD (R296). -/
def execRd (n : Nat) (s : State) : Out := .next (s.serve .rd n)
/-- RDV (R296). -/
def execRdv (n : Nat) (s : State) : Out := .next (s.serve .rdv n)
/-- REG (R296). -/
def execReg (n : Nat) (s : State) : Out := .next (s.serve .reg n)
/-- WRV (R296). -/
def execWrv (n : Nat) (s : State) : Out := .next (s.serve .wrv n)
/-- ATOM (R296). -/
def execAtom (n : Nat) (s : State) : Out := .next (s.serve .atom n)
/-- EREG (R296). -/
def execEreg (n : Nat) (s : State) : Out := .next (s.serve .ereg n)

/-! ### What agents answer (R297, R303, R309) -/

/-- The answer of an agent to a home; `aux` holds the words it was asked for. -/
def reply (k : MsgKind) (c : Msg) (words : BitVec 16) : Msg :=
  { kind := k, sender := c.target, target := c.sender, part := 0, line := c.line, words := words, bytes := 0, data := 0
    dirty := 0, poison := 0, aux := c.words.toNat, aux2 := 0 }

/-- What a core's L1 holds of a line, or nothing. -/
def State.l1Of (s : State) (core line : Nat) : L1Line :=
  ((s.coreAt core).lineAt line).getD { line := line, data := 0, valid := 0, reg := 0, dirty := 0, poison := 0 }

/-- A command that a core's L1 can carry out: the row of its line is not under test (R388). -/
def State.l1MsgAt (s : State) (k : MsgKind) (n : Nat) : Option Msg :=
  (s.msgAt k n).filter fun m => !s.rowTest 0 m.target m.line

/-- GNT (R297): the L1 takes the words and writes the SSB entry whose drain asked for them. -/
def execGnt (n : Nat) (s : State) : Out :=
  match s.l1MsgAt .gnt n with
  | none => .next s
  | some m =>
    let t := ((s.takeMsg n).makeRoom m.target m.line).grantWords m.target m.line m.words m.data
    match (if m.aux2 = 1 then none else (t.hartAt m.aux).bind (·.ssb.head?)) with
    | none => .next t
    | some e =>
      if lineOf e.loc.key = m.line && e.loc.kind == .cached && t.holds m.target m.line (wordMask e.loc.key e.len) then
        .next ((t.l1Write m.target e.loc.key e.len e.data).popSsb m.aux)
      else .next t

/-- XFER (R297, R307): the L1 returns what it holds registered, dirty words with data, and marks the words invalid. -/
def execXfer (n : Nat) (s : State) : Out :=
  match s.l1MsgAt .xfer n with
  | none => .next s
  | some m =>
    let l := s.l1Of m.target m.line
    let held := l.reg &&& m.words
    .next (((s.takeMsg n).onCore m.target (·.onLine m.line (dropWords held))).send
      { reply .xack m held with data := l.data, dirty := l.dirty &&& held, poison := l.poison &&& l.dirty &&& held })

/-- FWD (R297, R307): the L1 returns the values and keeps the words; a poisoned dirty word it reports and gives up. -/
def execFwd (n : Nat) (s : State) : Out :=
  match s.l1MsgAt .fwd n with
  | none => .next s
  | some m =>
    let l := s.l1Of m.target m.line
    let held := l.reg &&& m.words
    let bad := l.poison &&& l.dirty &&& held
    .next (((s.takeMsg n).onCore m.target (·.onLine m.line (dropWords bad))).send
      { reply .fack m held with data := l.data, poison := bad })

/-- NAKL (R308): the store that asked is discarded and its hart learns of the loss; an atomic or an engine finds the word lost. -/
def execNakl (n : Nat) (s : State) : Out :=
  match s.msgAt .nakl n with
  | none => .next s
  | some m =>
    let t := s.takeMsg n
    if m.aux2 = 0 then
      match (t.hartAt m.aux).bind (·.ssb.head?) with
      | some e => if lineOf e.loc.key = m.line then .next ((t.popSsb m.aux).loseStore m.aux e.va) else .next t
      | none => .next t
    else if m.aux2 = 1 then .next (t.loseStore (m.target - 4096) (m.aux / 8))
    else .next t

/-- COLLECT (R303): the combine buffer answers with its partial of the line and resets it. -/
def execCollect (n : Nat) (s : State) : Out :=
  match s.msgAt .collect n with
  | none => .next s
  | some m =>
    if s.rowTest 6 (m.target - 0x280) m.line then .next s else
    let t := s.takeMsg n
    match t.combAt (m.target - 0x280) m.line true with
    | none => .next (t.send (reply .part m 0))
    | some b =>
      .next ({ t with coh := { t.coh with comb := t.coh.comb.filter fun c => !(c == b) } }.send
        { reply .part m b.words with data := b.data })

/-- CLAIM (R309): a core lists the words it holds registered, which become valid-unregistered; an engine answers once it has
written its words of the line. -/
def execClaim (n : Nat) (s : State) : Out :=
  match s.msgAt .claim n with
  | none => .next s
  | some m =>
    let t := s.takeMsg n
    if m.target < 640 then
      let l := s.l1Of m.target m.line
      .next ((t.onCore m.target (·.onLine m.line fun l => { l with valid := l.valid ||| l.reg, reg := 0, dirty := 0 })).send
        { reply .claimr m l.reg with data := l.data, poison := l.poison &&& l.reg })
    else if (s.homeAt m.line).select 0xFFFF#16 (· == .engine m.target) ≠ 0#16 then .next s
    else .next (t.send (reply .claimr m 0))

/-! ### What the home makes of the answers (R296, R303, R304, R307, R309) -/

/-- WB (R296). -/
def execWb (n : Nat) (s : State) : Out :=
  match s.msgAt .wb n with
  | none => .next s
  | some m => .next (s.forLoss m.line fun s => applyWb m (s.takeMsg n))

/-- One answer is in, for the request among those served that asked for its words. -/
def State.answered (s : State) (m : Msg) (g : List (Nat × BitVec 16 × BitVec 512)) : State :=
  s.onHome m.line fun hl => { hl with
    serving := updIf (fun v => v.awaiting.any (· == m.sender) && !(v.words &&& BitVec.ofNat 16 m.aux == 0#16))
      (fun v => { v with awaiting := v.awaiting.filter (· != m.sender), gathered := v.gathered ++ g }) hl.serving }

/-- XACK (R296): returned words become unregistered, dirty data are written, a poisoned word becomes lost. -/
def execXack (n : Nat) (s : State) : Out :=
  match s.msgAt .xack n with
  | none => .next s
  | some m => .next (s.forLoss m.line fun s => ((applyWb m (s.takeMsg n)).answered m []).finish m.line)

/-- FACK (R296): the values are in; a word reported poisoned becomes lost (R307). -/
def execFack (n : Nat) (s : State) : Out :=
  match s.msgAt .fack n with
  | none => .next s
  | some m => .next (s.forLoss m.line fun s =>
      let t := (s.takeMsg n).onHome m.line fun g => g.setWords (g.select m.poison (· == .core m.sender)) .lost
      (t.answered m [(m.sender, m.words &&& ~~~m.poison, m.data)]).finish m.line)

/-- PART (R303, R304): a partial is in; with the last answer the home folds them. -/
def execPart (n : Nat) (s : State) : Out :=
  match s.msgAt .part n with
  | none => .next s
  | some m => .next (((s.takeMsg n).answered m (if m.words = 0#16 then [] else [(m.sender, m.words, m.data)])).finish m.line)

/-- Mark the 8-byte units of words of a line poisoned (R383). -/
def State.poisonUnits (s : State) (line : Nat) (m : BitVec 16) : State :=
  let units := ((upTo 16).filter fun w => (pairsOf m).getLsbD w).map fun w => 64 * line + 4 * w
  { s with coh := { s.coh with poison := (units.filter fun u => !s.coh.poison.any (· == u)) ++ s.coh.poison } }

/-- CLAIMR (R309): a claim is in; with the last one the sweep ends. -/
def execClaimr (n : Nat) (s : State) : Out :=
  match s.msgAt .claimr n with
  | none => .next s
  | some m =>
    let t := (s.takeMsg n).poisonUnits m.line m.poison
    let u := t.onHome m.line fun hl => { hl with
      awaiting := hl.awaiting.filter (· != m.sender)
      gathered := if m.words = 0#16 then hl.gathered else hl.gathered ++ [(m.sender, m.words, m.data)] }
    .next (u.sweepDone m.line)

end Sys2Proof.Machine
end

