-- ==== Sys2Proof/Machine/HostPort.lean ====
section
/-! DEFINITION. The host port (R353 to R357, R359): the registers of the command windows, posted requests, the event and error logs as
the host reads them, and accesses through BAR 4 and BAR 2. What a host read returns stands in `hostOut`. -/
namespace Sys2Proof.Machine

/-- A host read returns bytes. -/
def State.answer (s : State) (l : List Byte) (refused : Bool) : State :=
  { s with sys := { s.sys with hostOut := l, hostRefused := refused } }

/-- All ones (R354, R357, R359). -/
def allOnes (n : Nat) : List Byte := List.replicate n 0xFF#8

/-! ### Fault records (R354, R356) -/

/-- FAULTPOP (R354). -/
def execFaultpop (part : Nat) (s : State) : Out :=
  match (s.partAt part).bind fun p => p.faults.head? with
  | none => .next (s.answer (allOnes 32) false)
  | some r => .next ((s.onPart part (·.popFault)).answer (natBytes 32 r.toNat) false)

/-- RESOLVE (R354, R338): [20:0] HARTID; bit 32 is 0 to retry, 1 to end the task. -/
def execResolve (part : Nat) (w : BitVec 64) (s : State) : Out :=
  let n := bitsOf w.toNat 20 0
  if hartIdOf (n % 2 ^ 13) = n then .next (s.resolve part (n % 2 ^ 13) (!w.getLsbD 32)) else .next s

/-! ### Posted requests (R359) -/

/-- The 320 bytes of a request. -/
def Post.bytes (p : Post) : List Byte :=
  natBytes 64 (p.seq % 2 ^ 64 + p.kind * 2 ^ 64 + p.part * 2 ^ 72 + p.id * 2 ^ 80 + p.words.length * 2 ^ 88) ++
  (p.words.flatMap fun w => natBytes 4 w.toNat) ++ List.replicate (256 - 4 * p.words.length) 0

/-- POSTPOP (R357, R359): the request stays outstanding until it is answered. -/
def execPostpop (s : State) : Out :=
  match s.sys.posts.find? fun p => !p.popped with
  | none => .next (s.answer (allOnes 320) false)
  | some p =>
    .next ({ s with sys := { s.sys with posts := updIf (fun q => q.seq == p.seq) (fun q => { q with popped := true }) s.sys.posts } }.answer
      p.bytes false)

/-- ANSWER (R359): SEQ, VERDICT, INDEX. A key request is settled by VERDICT 0 once a key is loaded; the waiting `py.comb` reads the
verdict of an admission, and an answer to one that no longer waits (R375) settles the request and nothing else. -/
def execAnswer (w : BitVec 128) (s : State) : Out :=
  let seq := bytesAt w 0 8
  let v := bytesAt w 8 1
  match s.sys.posts.find? (·.seq == seq) with
  | none => .next s
  | some p =>
    if 1 < v ∨ bytesAt w 10 6 ≠ 0 then .next s
    else if p.kind = 1 then
      if p.verdict.isSome then .next s
      else if !s.harts.any (fun h => h.wait == some (.admission seq)) then
        .next { s with sys := { s.sys with posts := s.sys.posts.filter fun q => q.seq != seq } }
      else .next { s with sys := { s.sys with posts := updIf (fun q => q.seq == seq) (fun q => { q with verdict := some (v, bytesAt w 9 1) }) s.sys.posts } }
    else if v = 0 && s.sys.keys.any (·.1 == p.id) then
      .next ({ s with sys := { s.sys with posts := s.sys.posts.filter fun q => q.seq != seq } }.onPart p.part fun q => { q with keyWait := false })
    else .next s

/-! ### Logs and registers (R357, R387) -/

/-- ERRPOP (R387). -/
def execErrpop (s : State) : Out :=
  match s.sys.errors with
  | [] => .next (s.answer (allOnes 32) false)
  | r :: l => .next ({ s with sys := { s.sys with errors := l } }.answer (natBytes 32 r.toNat) false)

/-- EVENTPOP (R357). -/
def execEventpop (s : State) : Out :=
  match s.sys.events with
  | [] => .next (s.answer (allOnes 32) false)
  | r :: l => .next ({ s with sys := { s.sys with events := l } }.answer (natBytes 32 r.toNat) false)

/-- One byte of a record replaced. -/
def putRecByte (r : BitVec 512) (i : Nat) (b : Byte) : BitVec 512 :=
  mergeBytes r (BitVec.ofNat 512 (b.toNat * 2 ^ (8 * (i % 64)))) (BitVec.ofNat 64 (2 ^ (i % 64)))

/-- A byte of a window's slots or of BUF. -/
def putWindowByte (win off : Nat) (b : Byte) (y : Sys) : Sys :=
  if off < 0x8000 && win ≤ 8 then
    let k := 512 * win + off / 64
    { y with slots := Sparse.put 0 y.slots k (putRecByte (Sparse.get 0 y.slots k) off b) }
  else if win = 0 && 0xC000 ≤ off && off < 0x10000 then { y with buf := Sparse.put 0 y.buf (off - 0xC000) b }
  else y

/-- REGISTER_WRITE (R354, R357): eight bytes to slots or to BUF; other offsets, and windows 9 to 15, ignore it (R353). -/
def execRegisterWrite (win off : Nat) (w : BitVec 64) (s : State) : Out :=
  .next { s with sys := (natBytes 8 w.toNat).zipIdx.foldl (fun y x => putWindowByte win (off + x.2) x.1 y) s.sys }

/-! ### BAR 4 (R353, R355) -/

/-- The pieces of a host access, one for each line it touches: address, length and offset in the data. -/
def linePieces (a len off : Nat) : Nat → List (Nat × Nat × Nat)
  | 0 => []
  | n + 1 => if len = 0 then [] else let k := min len (64 - a % 64); (a, k, off) :: linePieces (a + k) (len - k) (off + k) n

/-- The host's view: a wait, a refusal, or the places of an access's pieces. -/
inductive HostLocs where
  | wait
  | refused
  | at_ (part : Nat) (l : List (Loc × Nat × Nat))
  deriving DecidableEq, Repr

/-- A host write to another module has not performed yet: the accesses after it wait (R355). -/
def State.hostFlying (s : State) : Bool := s.coh.egress.any (·.src == .host)

/-- Where a BAR 4 access leads (R353, R355): through the vector map of the context bound to the partition's window. -/
def State.hostLocs (s : State) (off len : Nat) (acc : Acc) : HostLocs :=
  match s.partAt (off / 2 ^ 36) with
  | none => .refused
  | some p =>
    if p.keyWait || s.hostFlying then .wait
    else
      let locs := (linePieces (p.winBase + off % 2 ^ 36) len 0 10).map fun x => ((s.vmapLoc p.id p.winCtx x.1 acc), x.2.1, x.2.2)
      if locs.any fun x => match x.1 with | .error _ => true | .ok _ => false then .refused
      else
        let l := locs.filterMap fun x => match x.1 with | .ok loc => some (loc, x.2.1, x.2.2) | .error _ => none
        if l.any fun x => (x.1.kind == .remote && !x.1.peer) || s.deadAt x.1.key x.2.1 || x.1.kind == .cached && s.lineLost (lineOf x.1.key) (wordMask x.1.key x.2.1) then .refused
        else if l.any fun x => s.underTest (lineOf x.1.key) || x.1.kind == .cached && s.lineWaits (lineOf x.1.key) (wordMask x.1.key x.2.1) then .wait
        else .at_ p.id l

/-- One piece of a host write at its ordering point (R355, R296 WRV); none while a write queue is full. `off` is its BAR 4 offset. -/
def State.hostPut (s : State) (loc : Loc) (len v : Nat) (off : Nat := 0) : Option State :=
  let line := lineOf loc.key
  let w := v % 2 ^ (8 * len)
  match loc.kind with
  | .uncached => s.ctlWrite line (byteMask loc.key len) (BitVec.ofNat 512 (w * 2 ^ (8 * (loc.key % 64))))
  | .remote => some { s with coh := { s.coh with egress := s.coh.egress ++
      [{ module := loc.module, task := 0, hart := 8191, src := .host, va := off, bytes := (natBytes len w).zipIdx.map fun x => (loc.key + x.2, x.1) }] } }
  | _ => some ((s.putNat loc.key len w).noteWrite line)

/-- The home takes the words that a host write touches from their owners, and collects their partials (R303, R355). -/
def State.hostTake (s : State) (l : List (Loc × Nat × Nat)) : State :=
  l.foldl (fun t x =>
    if x.1.kind == .cached then (t.collect (lineOf x.1.key)).takeOwners (lineOf x.1.key) (wordMask x.1.key x.2.1) else t) s

/-- A place of an access holds a lost word. -/
def State.hostLost (s : State) (l : List (Loc × Nat × Nat)) : Bool :=
  l.any fun x => x.1.kind == .cached && s.lineLost (lineOf x.1.key) (wordMask x.1.key x.2.1)

/-- HOST_WRITE (R355): up to 64 bytes at a BAR 4 offset; a translation fault or a lost word drops it and posts an event of KIND 0. One
that must wait holds back the accesses that come after it. -/
def execHostWrite (off len : Nat) (w : BitVec 512) (s : State) : Out :=
  let n := min len 64
  .next (s.inOrder 0 (.write off len w) fun s =>
    match s.hostLocs off n .write with
    | .wait => none
    | .refused => some (s.event off 0 (off / 2 ^ 36))
    | .at_ _ l =>
      let t := s.hostTake l
      if t.hostLost l then some (t.event off 0 (off / 2 ^ 36))
      else l.foldl (fun o x => o.bind fun t => t.hostPut x.1 x.2.1 (w.toNat / 2 ^ (8 * x.2.2)) off) (some t))

/-- The pieces of a host read, joined. -/
def State.hostGet (s : State) : List (Loc × Nat × Nat) → Rd × State
  | [] => (.val 0, s)
  | x :: r =>
    match s.lineRead x.1 x.2.1 with
    | (.val v, t) =>
      match t.hostGet r with
      | (.val z, u) => (.val (v + 2 ^ (8 * x.2.1) * z), u)
      | q => q
    | q => q

/-- A byte of BAR 0 as a read that pops nothing finds it (R353, R354, R357): the slots of window 0, the statuses and BUF; zero where
window 0 lists nothing and in windows 9 to 15; elsewhere a register to which the spec gives no such read (log entry 144). -/
def State.windowByte (s : State) (a : Nat) : Byte :=
  let win := a / 0x10000
  let off := a % 0x10000
  if 9 ≤ win then 0
  else if 0x8000 ≤ off ∧ off < 0x8008 then
    -- 0xFF while one of the window is pending, also where an earlier one has ended since
    BitVec.ofNat 8 ((if s.sys.waiting.any (·.1 == win + 1) then 0xFF else Sparse.get 0 s.sys.status win) / 2 ^ (8 * (off - 0x8000)))
  else if win = 0 then
    if off < 0x8000 then fld (Sparse.get 0 s.sys.slots (off / 64)) (8 * (off % 64)) 8
    else if 0xC000 ≤ off then Sparse.get 0 s.sys.buf (off - 0xC000)
    else if (0x8040 ≤ off ∧ off < 0x8190) ∨ (0x9000 ≤ off ∧ off < 0x9030) ∨ (0x9040 ≤ off ∧ off < 0x9060) then
      Config.windowByte (0x100000 * s.env.free + a)
    else 0
  else Config.windowByte (0x100000 * s.env.free + a)

/-- A host read of BAR 0: one that covers a popping register pops it. -/
def windowRead (off len : Nat) (s : State) : Out :=
  if off = 0x9000 ∧ len = 32 then execErrpop s
  else if off = 0x9040 ∧ len = 32 then execEventpop s
  else if off = 0x8040 ∧ len = 320 then execPostpop s
  else if 1 ≤ off / 0x10000 ∧ off / 0x10000 ≤ 8 ∧ off % 0x10000 = 0x8008 ∧ len = 32 then execFaultpop (off / 0x10000 - 1) s
  else .next (s.answer ((upTo (min len 64)).map fun i => s.windowByte (off + i)) false)

/-- Where the offsets of BAR 0 begin in the argument of HOST_READ, past those of BAR 4 (log entry 149). -/
def barZero : Nat := 2 ^ 40

/-- HOST_READ (R354, R355, R357): BAR 0 holds the windows' registers; through BAR 4, up to 64 bytes of memory, where a refused read is an
Unsupported Request completion with an event of KIND 1. BAR 2 is SAVE_AREA_ACCESS. -/
def execHostRead (off len : Nat) (s : State) : Out :=
  if barZero ≤ off then windowRead (off - barZero) len s
  else
    let n := min len 64
    .next (s.inOrder 0 (.read off len) fun s =>
      let refuse := fun t : State => (t.answer (allOnes n) true).event off 1 (off / 2 ^ 36)
      match s.hostLocs off n .read with
      | .wait => none
      | .refused => some (refuse s)
      | .at_ _ l =>
        match s.hostGet l with
        | (.val v, t) => some (t.answer (natBytes n v) false)
        | (.wait _, _) => none
        | (.fault _, t) => some (refuse t))

/-! ### BAR 2 (R353) -/

/-- SAVE_AREA_ACCESS (R353): eight bytes of a partition's save area; closed, or outside it, reads give all ones and writes are
dropped. It takes its place among the accesses to memory. -/
def execSaveAreaAccess (off : Nat) (wr : Option (BitVec 64)) (s : State) : Out :=
  let part := off / 2 ^ 32
  let o := off % 2 ^ 32 / 8 * 8
  .next (s.inOrder 0 (.save off wr) fun s =>
    let place : Option (Bool × Nat) := (s.partAt part).bind fun p =>
      if p.saveOpen && decide (o + 8 ≤ p.saveArea.2) then some (p.keyWait, dramKey (p.saveArea.1 + o)) else none
    match place, wr with
    | none, none => some (s.answer (allOnes 8) false)
    | none, some _ => some s
    | some (true, _), _ => none
    | some (_, key), none =>
      if s.hostFlying then none else
      match s.lineRead { kind := .cached, key := key } 8 with
      | (.val v, t) => some (t.answer (natBytes 8 v) false)
      | (.wait _, _) => none
      | (.fault _, t) => some (t.answer (allOnes 8) true)
    | some (_, key), some w =>
      let l := [({ kind := .cached, key := key }, 8, 0)]
      if s.hostFlying || s.lineWaits (lineOf key) (wordMask key 8) then none
      else
        let t := s.hostTake l
        if t.hostLost l then some t else t.hostPut { kind := .cached, key := key } 8 w.toNat)

end Sys2Proof.Machine
end

