-- ==== Sys2Proof/Machine/Commands.lean ====
section
/-! DEFINITION. The commands of the supervisor window (R357, R358). Each runs the record of the slot that CMDSUBMIT names, when the
record's OP is that command's, and writes the status: 0 done, 2 malformed, 3 refused; with 2 and 3 nothing changes. -/
namespace Sys2Proof.Machine

/-- The fields of a command record. -/
def cOp (r : BitVec 512) : Nat := bytesAt r 0 2
def cPart (r : BitVec 512) : Nat := bytesAt r 2 1
def cA0 (r : BitVec 512) : Nat := bytesAt r 4 4
def cA1 (r : BitVec 512) : Nat := bytesAt r 8 8
def cA2 (r : BitVec 512) : Nat := bytesAt r 16 8
def cA3 (r : BitVec 512) : Nat := bytesAt r 24 8

/-- The fields that no command uses are zero (R358). -/
def restZero (r : BitVec 512) : Bool := decide (bytesAt r 3 1 = 0) && decide (bytesAt r 32 32 = 0)

/-- What a command comes to: its status and the state, or a wait. -/
inductive Done where
  | ok (s : State)
  | malformed
  | refused
  | wait

/-- The status of CMDSUBMIT. -/
def State.commandStatus (s : State) (n : Nat) : State := s.windowStatus 0 n

/-- The record in a command slot. -/
def State.commandRecord (s : State) (slot : Nat) : BitVec 512 := Sparse.get 0 s.sys.slots (slot % 512)

/-- A write of a slot index to CMDSUBMIT when the slot holds command `op` (R357). The status reads 0xFF while the
command waits, also behind an earlier one. -/
def command (op slot : Nat) (body : BitVec 512 → State → Done) (s : State) : Out :=
  if 512 ≤ slot ∨ cOp (s.commandRecord slot) ≠ op then .next s
  else
    .next ((s.commandStatus 0xFF).inOrder 1 (.command slot) fun s =>
      let r := s.commandRecord slot
      if !restZero r then some (s.commandStatus 2)
      else match body r s with
        | .ok t => some (t.commandStatus 0)
        | .malformed => some (s.commandStatus 2)
        | .refused => some (s.commandStatus 3)
        | .wait => none)

/-- A command for a partition 0 to 7 that must exist; its operand check comes first. -/
def forPart (r : BitVec 512) (s : State) (ok : Bool) (k : Partition → Done) : Done :=
  if 7 < cPart r || !ok then .malformed
  else match s.partAt (cPart r) with
    | none => .refused
    | some p => k p

/-- MALFORMED_COMMAND (R358): an OP that is no command's. -/
def execMalformedCommand (slot : Nat) (s : State) : Out :=
  let r := s.commandRecord slot
  if slot < 512 ∧ (cOp r = 0 ∨ 16 < cOp r) then
    .next ((s.commandStatus 0xFF).inOrder 1 (.command slot) fun s => some (s.commandStatus 2))
  else .next s

/-! ### Partitions (R347, R348, R350) -/

/-- A range operand: [63:32] first GiB, [31:0] count. -/
def gibOf (a : Nat) : Nat × Nat := (a / 2 ^ 32, a % 2 ^ 32)
/-- The range lies in a tier: stacked DRAM, or LPDDR6 (R348). -/
def inStacked (r : Nat × Nat) : Bool := decide (r.1 + r.2 ≤ 768)
def inLpddr (r : Nat × Nat) : Bool := r.2 == 0 || (decide (1024 ≤ r.1) && decide (r.1 + r.2 ≤ 3072))
/-- Two ranges share a GiB. -/
def gibMeet (a b : Nat × Nat) : Bool := decide (a.1 < b.1 + b.2) && decide (b.1 < a.1 + a.2) && a.2 != 0 && b.2 != 0

/-- Bytes of BUF, none past its end (R357). -/
def State.bufBytes (s : State) (off n : Nat) : Option (List Byte) :=
  if 16384 < off + n then none else some (Sparse.readRange 0 off n s.sys.buf)

/-- A key in some ranges. -/
def inRanges (l : List (Nat × Nat)) (key : Nat) : Bool := decide (key < 2 ^ 48) && l.any fun r => inGib r key

/-- The number of the key that a key id has now, which says how memory reads under it (R350): the same key reads alike again; 1 for the one
that the security engine gave the shared key id, and 0 while a key is awaited. -/
def State.keyNumber (s : State) (kid : Nat) : Nat :=
  match s.sys.keys.find? (·.1 == kid) with
  | some k => k.2.toNat + 2
  | none => if kid = 15 then 1 else 0

/-- Memory under the key that a key id has now (R350, R358; log entry 130): every byte of the ranges that was written under another key reads
as an unrelated one, a free value, and every copy of it is gone. -/
def State.scrub (s : State) (kid : Nat) (l : List (Nat × Nat)) : State :=
  let gone := fun line : Nat => inRanges l (64 * line)
  { s with
    sys := { s.sys with pads := l.map (·, s.keyNumber kid) ++ s.sys.pads }
    cores := s.cores.map fun c =>
      { c with l1 := c.l1.filter (fun x => !gone x.line), ro := c.ro.filter (fun x => !gone x.1), icache := c.icache.filter fun x => !inRanges l x.1 }
    coh := { s.coh with
      homes := s.coh.homes.filter fun h => !gone h.line
      split := s.coh.split.filter fun x => !gone x
      wq := s.coh.wq.filter fun e => !gone e.line
      comb := s.coh.comb.filter fun b => !gone b.line
      poison := s.coh.poison.filter fun k => !inRanges l k
      guardBad := s.coh.guardBad.filter fun b => !inRanges l (4096 * b)
      shadow := s.coh.shadow.filter fun e => !inRanges l (32 * e.granule) } }

/-- A partition as PARTDEF creates it. -/
def newPart (id : Nat) (clusters : BitVec 160) (stacked lpddr : Nat × Nat) (wait : Bool) : Partition :=
  { id := id, clusters := clusters, stacked := stacked, lpddr := lpddr, roots := [], vmap := [], saveArea := (0, 0), saveOpen := false
    guardTab := none, winCtx := 0, winBase := 0, race := 0, peers := [], faults := [], faultWait := []
    queues := Vector.replicate 16 [], resume := Vector.replicate 4 [], lastQueue := Vector.replicate 4 none, keyWait := wait, fatal := false }

/-- The ranges that partitions other than `id`, and with `sh` the shared pages, hold. -/
def State.heldRanges (s : State) (id : Nat) (sh : Bool) : List (Nat × Nat) :=
  (s.sys.parts.filter (·.id != id)).flatMap (fun p => [p.stacked, p.lpddr]) ++ (if sh then [s.sys.shared.1, s.sys.shared.2] else [])

/-- The key id takes a fresh key: from the security engine, or from the host after a posted request (R350, R359). -/
def State.freshKey (s : State) (part : Nat) : Option State :=
  let t := { s with sys := { s.sys with keys := s.sys.keys.filter (·.1 != part + 1) } }
  if s.hostMode part 2 then t.post 2 part (part + 1) []
  else some { t with sys := { t.sys with keys := (part + 1, Config.freshKey t.env.free) :: t.sys.keys } }

/-- A cluster of a compute die that the boot left disabled (R392). -/
def Boot.lacks (b : Boot) (m : BitVec 160) : Bool := (upTo 160).any fun c => m.getLsbD c && b.alternatives.any (· == 4 + c / 40)

/-- Create a partition: the last of the boot's steps (R391). -/
def createPart (r : BitVec 512) (s : State) : Done :=
  let a := gibOf (cA2 r)
  let b := gibOf (cA3 r)
  match s.bufBytes (cA1 r) 20 with
  | none => .malformed
  | some l =>
    let m := BitVec.ofNat 160 (bytesNat l)
    let held := s.heldRanges 8 true
    if !inStacked a || !inLpddr b then .malformed
    else if (s.partAt (cPart r)).isSome || s.sys.boot.lacks m || s.sys.parts.any (fun p => !(p.clusters &&& m == 0#160)) ||
        held.any (fun x => gibMeet a x || gibMeet b x) then .refused
    else match s.freshKey (cPart r) with
      | none => .wait
      | some t =>
        .ok ({ t with sys := { t.sys with
          parts := t.sys.parts ++ [newPart (cPart r) m a b (s.hostMode (cPart r) 2)]
          boot := { t.sys.boot with complete := true } } }.scrub (cPart r + 1) [a, b])

/-- Dismantle a partition: no task of it may be queued, running or saved. -/
def dismantle (r : BitVec 512) (s : State) : Done :=
  if cA1 r ≠ 0 ∨ cA2 r ≠ 0 ∨ cA3 r ≠ 0 then .malformed
  else match s.partAt (cPart r) with
    | none => .refused
    | some p =>
      if p.queues.toList.any (fun q => !q.isEmpty) || s.sys.tasks.any (·.part == p.id) then .refused
      else
        let t := (s.eng.streams.filter (·.part == p.id)).foldl (fun t st => t.dropOp st) s
        .ok { t with
          sys := { t.sys with parts := t.sys.parts.filter (·.id != p.id), keys := t.sys.keys.filter (·.1 != p.id + 1) }
          eng := { t.eng with streams := t.eng.streams.filter (·.part != p.id), combiners := t.eng.combiners.filter (·.part != p.id) } }

/-- Set the shared ranges: memory that becomes shared is read under another key (R346, R350). -/
def setShared (r : BitVec 512) (s : State) : Done :=
  let a := gibOf (cA2 r)
  let b := gibOf (cA3 r)
  if cA0 r ≠ 0 ∨ cA1 r ≠ 0 ∨ inStacked a = false ∨ inLpddr b = false then .malformed
  else if (s.heldRanges 8 false).any fun x => gibMeet a x || gibMeet b x then .refused
  else
    let old := [s.sys.shared.1, s.sys.shared.2]
    let new := ([a, b].flatMap fun g => (upTo g.2).map fun i => (g.1 + i, 1)).filter fun g => !old.any fun o => inGib o (g.1 * 2 ^ 30)
    .ok ({ s with sys := { s.sys with shared := (a, b) } }.scrub 15 new)

/-- PARTDEF (R358). -/
def execPartdef (slot : Nat) (s : State) : Out :=
  command 1 slot (fun r s =>
    if cPart r = 0xFF then setShared r s
    else if 7 < cPart r ∨ 1 < cA0 r then .malformed
    else if cA0 r = 1 then createPart r s
    else dismantle r s) s

/-! ### Maps -/

/-- PTROOT (R340, R358). -/
def execPtroot (slot : Nat) (s : State) : Out :=
  command 2 slot (fun r s =>
    forPart r s (decide (cA0 r < 256) && decide (cA1 r % 65536 = 0) && decide (cA1 r < 2 ^ 52) && decide (cA2 r = 0) && decide (cA3 r = 0))
      fun p =>
        let used := s.sys.tasks.any (fun t => t.part == p.id && t.entry.ctx == cA0 r) ||
          p.queues.toList.any (fun q => q.any (·.ctx == cA0 r))
        if cA1 r = 0 ∧ used = true then .refused
        else .ok (s.onPart p.id fun p => { p with roots := Sparse.put 0 p.roots (cA0 r) (cA1 r) })) s

/-- An element of a vector store of the context and page still waits with the place it had under the entry as it stands (R345). -/
def State.mapInUse (s : State) (part ctx page : Nat) : Bool :=
  s.harts.any fun h => h.tk.part == part && h.tk.ctx == ctx && h.psf.toList.any fun q => q.any fun e => !isLocal e.va && e.va / 2 ^ 30 == page

/-- VMAP (R344, R345, R358): it waits for the elements that translated through the old entry. -/
def execVmap (slot : Nat) (s : State) : Out :=
  command 3 slot (fun r s =>
    forPart r s (decide (cA0 r < 256) && decide (cA1 r < 65536) && decide (cA3 r = 0)) fun p =>
      if s.mapInUse p.id (cA0 r) (cA1 r) then .wait
      else .ok (s.onPart p.id fun p => { p with vmap := Sparse.put 0 p.vmap (65536 * cA0 r + cA1 r) (BitVec.ofNat 64 (cA2 r)) })) s

/-- SHOOT (R343, R358): every TLB of the partition's cores has dropped the context's translations. -/
def execShoot (slot : Nat) (s : State) : Out :=
  command 4 slot (fun r s =>
    forPart r s (decide (cA0 r < 256) && decide (cA1 r = 0) && decide (cA2 r = 0) && decide (cA3 r = 0)) fun p =>
      .ok { s with cores := s.cores.map fun c => { c with tlb := c.tlb.filter fun t => !(t.part == p.id && t.ctx == cA0 r) } }) s

/-- SLOTTAB (R219, R358). -/
def execSlottab (slot : Nat) (s : State) : Out :=
  command 5 slot (fun r s =>
    if cPart r ≠ 0xFF ∨ 639 < cA0 r ∨ 2 ^ 32 ≤ cA1 r ∨ cA2 r ≠ 0 ∨ cA3 r ≠ 0 then .malformed
    else .ok (s.onCore (cA0 r) fun c => { c with slotTab := BitVec.ofNat 32 (cA1 r) })) s

/-- MODE (R358, R393). -/
def execMode (slot : Nat) (s : State) : Out :=
  command 6 slot (fun r s =>
    let bad := decide (4 < cA0 r) || decide (1 < cA1 r) || decide (cA2 r ≠ 0) || decide (cA3 r ≠ 0)
    if bad then .malformed
    else if 3 ≤ cA0 r then
      if cPart r ≠ 0xFF then .malformed
      else if cA0 r = 3 then .ok { s with sys := { s.sys with hostErrors := cA1 r == 1 } }
      else .ok { s with sys := { s.sys with boot := { s.sys.boot with bootHost := cA1 r == 1 } } }
    else if 7 < cPart r then .malformed
    else .ok { s with sys := { s.sys with modes := Sparse.put 0 s.sys.modes (3 * cPart r + cA0 r) (cA1 r) } }) s

/-! ### The save area and the guard table -/

/-- SAVEAREA (R334, R358). -/
def execSavearea (slot : Nat) (s : State) : Out :=
  command 7 slot (fun r s =>
    let base := cA1 r % 2 ^ 48
    forPart r s (decide (cA0 r = 0) && decide (cA3 r = 0) && decide (cA1 r % 4096 = 0) && decide (cA1 r < 2 ^ 52) &&
        decide (cA2 r % 4096 = 0) && decide (cA2 r ≤ 2 ^ 32)) fun p =>
      if !(decide (p.stacked.1 * 2 ^ 30 ≤ base) && decide (base + cA2 r ≤ (p.stacked.1 + p.stacked.2) * 2 ^ 30)) then .malformed
      else if s.sys.saves.any fun v => match s.taskAt v.task with | some t => t.part == p.id | none => false then .refused
      else .ok (s.onPart p.id fun p => { p with saveArea := (base, cA2 r) })) s

/-- SAVEOPEN (R353, R358). -/
def execSaveopen (slot : Nat) (s : State) : Out :=
  command 8 slot (fun r s =>
    forPart r s (decide (cA0 r < 2) && decide (cA1 r = 0) && decide (cA2 r = 0) && decide (cA3 r = 0)) fun p =>
      .ok (s.onPart p.id fun p => { p with saveOpen := cA0 r == 1 })) s

/-- GUARDTAB (R358, R384): every stored state starts with V = 0; like every access, its writes wait for the key (R359). -/
def execGuardtab (slot : Nat) (s : State) : Out :=
  command 9 slot (fun r s =>
    forPart r s (decide (cA0 r = 0) && decide (cA1 r % 4096 = 0) && decide (cA1 r < 2 ^ 52) && decide (cA2 r = 0) && decide (cA3 r = 0))
      fun p =>
        let q := { p with guardTab := some (cA1 r) }
        if p.keyWait then .wait
        else .ok ((s.onPart p.id fun p => { p with guardTab := some (cA1 r) }).clearV [q])) s

/-! ### Keys (R350, R358) -/

/-- KEX (R358). -/
def execKex (slot : Nat) (s : State) : Out :=
  command 10 slot (fun r s =>
    if cPart r ≠ 0xFF ∨ cA0 r ≠ 0 ∨ cA2 r ≠ 0 ∨ cA3 r ≠ 0 then .malformed
    else match s.bufBytes (cA1 r) 1568 with
      | none => .malformed
      | some l => .ok { s with sys := { s.sys with hostKey := some (Config.decapsulate l) } }) s

/-- Key loading for a key id is host-assisted; for the shared key id, when it is for some partition. -/
def State.hostLoads (s : State) (kid : Nat) : Bool :=
  if kid = 15 then (upTo 8).any fun p => s.hostMode p 2 else s.hostMode (kid - 1) 2

/-- The memory that a key id covers. -/
def State.keyRanges (s : State) (kid : Nat) : List (Nat × Nat) :=
  if kid = 15 then [s.sys.shared.1, s.sys.shared.2]
  else match s.partAt (kid - 1) with | some p => [p.stacked, p.lpddr] | none => []

/-- KEY (R358). -/
def execKey (slot : Nat) (s : State) : Out :=
  command 11 slot (fun r s =>
    let kid := cA0 r
    if cPart r ≠ 0xFF ∨ ¬ (1 ≤ kid ∧ kid ≤ 8 ∨ kid = 15) ∨ cA2 r ≠ 0 ∨ cA3 r ≠ 0 then .malformed
    else match s.bufBytes (cA1 r) 72 with
      | none => .malformed
      | some l =>
        if !s.hostLoads kid then .refused
        else match s.sys.hostKey.bind fun k => Config.unwrapKey k l with
          | none => .refused
          | some key =>
            let t := { s with sys := { s.sys with keys := (kid, key) :: s.sys.keys.filter (·.1 != kid) } }
            .ok (if s.sys.keys.any (· == (kid, key)) then t else t.scrub kid (s.keyRanges kid))) s

/-! ### Windows, tasks, lost words, the race detector, peers -/

/-- WINBIND (R323, R353, R358). -/
def execWinbind (slot : Nat) (s : State) : Out :=
  command 12 slot (fun r s =>
    forPart r s (decide (cA0 r < 256) && decide (cA1 r % 2 ^ 30 = 0) && decide (cA2 r = 0) && decide (cA3 r = 0)) fun p =>
      .ok (s.onPart p.id fun p => { p with winCtx := cA0 r, winBase := cA1 r })) s

/-- The task of a hart of a partition, placed or saved. -/
def State.taskOfHart (s : State) (part id : Nat) : Option Nat :=
  let mine := fun h : Hart => h.present && h.id == id && h.tk.part == part
  match s.harts.find? mine with
  | some h => some h.tk.task
  | none => ((s.sys.saves.flatMap fun v : SaveSlot => v.harts).find? mine).map (·.tk.task)

/-- TASK (R332, R358): a second request for a task being pre-empted has no further effect; one whose save does not fit is refused. -/
def execTask (slot : Nat) (s : State) : Out :=
  command 13 slot (fun r s =>
    forPart r s (decide (cA0 r < 2 ^ 21) && decide (cA1 r < 2) && decide (cA2 r = 0) && decide (cA3 r = 0)) fun p =>
      let id := cA0 r % 2 ^ 13
      match (if hartIdOf id = cA0 r then s.taskOfHart p.id id else none) with
      | none => .refused
      | some k =>
        if cA1 r = 1 then .ok (s.killTask k)
        else match s.taskAt k with
          | none => .refused
          | some t =>
            if t.phase == .preempting || t.phase == .saved then .ok s
            else match s.preempt p k with
              | none => .refused
              | some u => .ok u) s

/-- CLEARLOST (R307, R358): a cleared word reads 0 at its home, also where an error had been found; it waits for the key (R359). -/
def execClearlost (slot : Nat) (s : State) : Out :=
  command 14 slot (fun r s =>
    forPart r s (decide (cA0 r < 2 ^ 16) && decide (cA1 r % 64 = 0) && decide (cA1 r < 2 ^ 52) && decide (cA2 r = 0) && decide (cA3 r = 0))
      fun p =>
        if !s.owns p.id (cA1 r) false then .malformed
        else if p.keyWait then .wait
        else
          let line := lineOf (dramKey (cA1 r))
          let m := (s.homeAt line).select (BitVec.ofNat 16 (cA0 r)) (· == .lost)
          let t := (s.onHome line (·.setWords m .unreg)).applyLine line (bytesOfWords m) 0
          .ok { t with coh := { t.coh with poison := t.coh.poison.filter fun k => lineOf k != line || !m.getLsbD (wordOf k) } }) s

/-- RACE (R358, R390): arming starts with no writer known. -/
def execRace (slot : Nat) (s : State) : Out :=
  command 15 slot (fun r s =>
    forPart r s (decide (cA0 r < 3) && decide (cA1 r = 0) && decide (cA2 r = 0) && decide (cA3 r = 0)) fun p =>
      let t := if p.race = 0 then
          { s with coh := { s.coh with shadow := s.coh.shadow.filter fun e => !inRanges [p.stacked, p.lpddr] (32 * e.granule) } }
        else s
      .ok (t.onPart p.id fun p => { p with race := cA0 r })) s

/-- PEER (R358, R361). -/
def execPeer (slot : Nat) (s : State) : Out :=
  command 16 slot (fun r s =>
    forPart r s (decide (cA0 r < 256) && decide (cA1 r < 2) && decide (cA2 r = 0) && decide (cA3 r = 0)) fun p =>
      .ok (s.onPart p.id fun p =>
        let l := p.peers.filter (· != cA0 r)
        { p with peers := if cA1 r = 1 then cA0 r :: l else l })) s

end Sys2Proof.Machine
end

