-- ==== Sys2Proof/Machine/Integrity.lean ====
section
/-! DEFINITION. Errors and what they do (R383, R387), tests, verdicts and retirement (R388, R389, R393), links and other modules (R361,
R383), and reset and boot (R391, R392). -/
namespace Sys2Proof.Machine

/-! ### What an uncorrectable error does (R383, R307, R309) -/

/-- An L1 word pair with an uncorrectable error (R307, R383): a registered dirty word is poisoned, a registered clean one dropped,
so that the home value stands, and an unregistered one poisoned; so is a word in the read-only ways. -/
def State.l1Error (s0 : State) (core key : Nat) : State :=
  let line := lineOf key
  let m := wordMask (key / 8 * 8) 8
  let s := s0.onCore core fun c => { c with ro := updIf (·.1 == line) (fun x => (x.1, x.2.1, x.2.2 ||| m)) c.ro }
  match (s.coreAt core).lineAt line with
  | none => s
  | some l =>
    let clean := m &&& l.reg &&& ~~~l.dirty
    let bad := m &&& (l.valid ||| l.reg) &&& ~~~clean
    let t := s.onCore core (·.onLine line fun x =>
      { x with valid := x.valid &&& ~~~clean, reg := x.reg &&& ~~~clean, poison := x.poison ||| bad })
    if clean = 0#16 then t
    else t.send (Machine.request .wb core 0 line clean)

/-- What a task holds on a core, with the number by which it sees a structure of the core: `n` of them, behind which `phys` stands. -/
def State.holderOf (s : State) (core x : Nat) (n : Place → Nat) (phys : Place → Nat → Nat) : Option (Place × Nat) :=
  (s.places.filter (·.core == core)).findSome? fun p => ((upTo (n p)).find? fun i => phys p i == x).map (p, ·)

/-- A list with an entry that it holds once. -/
def addOnce (n : Nat) (l : List Nat) : List Nat := if l.any (· == n) then l else n :: l

/-- A row of an accumulator is poisoned (R383): `n` is 128 x tile + row of the core. -/
def State.rowError (s : State) (core n : Nat) : State :=
  match s.holderOf core (n / 128) (·.tiles) Place.physTile with
  | none => s
  | some (p, t) => s.onPlace p.task core fun q => { q with badRows := addOnce (128 * t + n % 128) q.badRows }

/-- The first running copy of a core's runner ends with ECC (R188, R383). -/
def State.stagingError (s : State) (core : Nat) : State :=
  match s.eng.copies.find? fun c => c.core == core && c.state == .running with
  | none => s
  | some c => s.endCopy c (some Cause.ecc.code)

/-- A row of the operand memory, 64 x slot + row of the core, is poisoned (R383). -/
def State.slotError (s : State) (core n : Nat) : State :=
  match s.holderOf core (n / 64) (·.slots) Place.physSlot with
  | none => s
  | some (p, o) => s.onPlace p.task core fun q => { q with badSlots := addOnce (64 * o + n % 64) q.badSlots }

/-- A line of a combine buffer. -/
def State.combLine (s : State) (cluster line : Nat) : Option CombLine := s.coh.comb.find? fun b => b.cluster == cluster && b.line == line

/-- A combine buffer's line fails its parity (R383, R307): the words of its partial, or all words of its copy, become lost, once a split
entry is free for them (R300). -/
def State.combError (s : State) (cluster line : Nat) : State :=
  match s.combLine cluster line with
  | none => s
  | some b => s.forLoss line fun s =>
    let t := { s with coh := { s.coh with comb := s.coh.comb.filter fun c => !(c == b) } }
    let m := if b.partialLine then b.words else 0xFFFF#16
    (takeWords line m t).onHome line (·.setWords m .lost)

/-- Units whose records hold a physical address (R387). -/
def unitHasAddr (u : Nat) : Bool := [0, 1, 6, 7, 8, 11].any (· == u)

/-- An uncorrectable error, by the unit that the record names; `place` is where it lies in a unit whose records hold no address. -/
def State.uncorrectable (s : State) (r : BitVec 256) (place : Nat) : State :=
  let w := recWhere r
  let key := dramKey (recAddr r)
  match recUnit r with
  | 0 => s.l1Error w key
  | 1 => s.poisonUnits (lineOf key) (wordMask (key / 8 * 8) 8)
  | 2 => s.poisonUnits (lineOf (spadKey w 0) + place) 0xFFFF#16
  | 3 => s.slotError w place
  | 4 => s.rowError w place
  | 5 => s.stagingError w
  | 6 => s.combError w (lineOf key)
  | 7 | 8 => s.poisonUnits (lineOf key) 0xFFFF#16
  | 11 => s.sweep (lineOf key)
  | _ => s

/-! ### Detection and tests (R387, R388) -/

/-- A record as the device logs it: TIME is the cycle, ADDR 0 where none applies, CLASS pending (R387). -/
def freshRecord (cycle : Nat) (r : BitVec 256) : BitVec 256 :=
  errorRecord cycle (if unitHasAddr (recUnit r) then recAddr r else 0) (recUnit r) (recWhere r) (recKind r) 0 (bytesAt r 22 1) (bytesAt r 24 8)

/-- The place of an error in its unit: the line of its address, or, where no address applies, what the detection gives for one (log
entry 95). -/
def placeOf (er : BitVec 256) : Nat := if unitHasAddr (recUnit er) then lineOf (dramKey (recAddr er)) else recAddr er

/-- ERROR_DETECTED (R383, R387, R388): an uncorrectable error has its effect, and the record is logged, with the test that becomes due. A
combine buffer's line whose loss waits for a split entry is found in error once it has one (R300, log entry 167). -/
def execErrorDetected (er : BitVec 256) (what : Tested) (s : State) : Out :=
  let r := freshRecord s.env.cycle er
  let n := placeOf er
  let t := if recKind r = 1 then s.uncorrectable r n else s
  if recKind r = 1 && recUnit r == 6 && (t.combLine (recWhere r) n).isSome then .next t
  else .next (t.report r what n)

/-- A record with its CLASS. -/
def withClass (r : BitVec 256) (c : Nat) : BitVec 256 :=
  BitVec.ofNat 256 (r.toNat - recClass r * 2 ^ 168 + c % 256 * 2 ^ 168)

/-- A core is fenced off (R307, R389): it answers nothing, its messages go, every word registered to it is lost, and it leaves its
partition. -/
def State.fence (s : State) (core : Nat) : State :=
  let t := s.onCore core fun c => { c with l1 := [], out := true, fenced := true }
  let u := { t with coh := { t.coh with net := t.coh.net.filter fun m => m.sender != core && m.target != core } }
  ((u.coh.homes.map (·.line)).foldl (fun u line => u.settleFenced line) u).onHarts
    (fun h => h.core == core && (h.status == .running || h.status == .placed)) fun h => { h with status := .stopped }

/-- The entry of the repair map (R389): UNIT, WHERE, the spare and TIME. -/
def repairEntry (r : BitVec 256) (spare time : Nat) : BitVec 128 :=
  BitVec.ofNat 128 (recUnit r + recWhere r * 2 ^ 16 + spare % 2 ^ 32 * 2 ^ 32 + time % 2 ^ 64 * 2 ^ 64)

/-- The spares that a retirement may take (R389): the 8 rows, or the 2 columns, of an L1, an L2 slice or the scratchpad bank of the place, as
0 to 7 and 8 to 9 from 10 x bank, those not yet in the repair map; none in other units; other structures take no spare of a set. -/
def State.spares (s : State) (p : PendingTest) : List Nat :=
  let base := if recUnit p.er = 2 then 10 * (p.place % 8) else 0
  let free := fun l : List Nat => if recUnit p.er ≤ 2 then
      (l.map (base + ·)).filter fun i => !s.sys.repair.any fun e => bytesAt e 0 8 == recUnit p.er + recWhere p.er * 2 ^ 16 + i * 2 ^ 32
    else []
  match p.what with
  | .row => free (upTo 8)
  | .column => free [8, 9]
  | _ => [0]

/-- Lines that a structure fenced off held go where they belong (R298, R305, R389): an L1's lines for which there is no way left, and the line
of a combine buffer or an L2 row. -/
def State.emptied (s : State) (unit w place : Nat) : State :=
  match unit with
  | 0 => (upTo 64).foldl (fun t i => (t.crowded w i 0).foldl (fun t v => t.evictLine w v) t) (s.evictLine w place)
  | 16 => (upTo 64).foldl (fun t i => (t.crowded w i 0).foldl (fun t v => t.evictLine w v) t) s
  | 1 | 11 => if s.recallable place then (s.evictHome place).getD s else s
  | 6 => ((s.combLine w place).bind s.combFlush).getD s
  | _ => s

/-- The structure of a record lies in that of another: the same location, channel, quad, or a core of a core or cluster (R388, R393). -/
def PendingTest.within (q p : PendingTest) : Bool :=
  let own := testedCores (recWhere q.er) q.what
  match p.what with
  | .row | .column => q.what == p.what && locationOf q.er q.place == locationOf p.er p.place
  | .channel => q.what == .channel && channelOf q.place == channelOf p.place
  | .quad _ => q.what == p.what && recWhere q.er == recWhere p.er
  | x => !own.isEmpty && own.all fun n => (testedCores (recWhere p.er) x).any (· == n)

/-- What a CLASS does to the structure (R388, R389): transient, it is back in service; lasting, it is retired, and a row that found no spare
is fenced off. -/
def State.retire (s : State) (p : PendingTest) (cls : Nat) : State :=
  let w := recWhere p.er
  let still := s.sys.pending.any fun q => q.what == p.what && recUnit q.er == recUnit p.er && recWhere q.er == w
  if cls = 1 then (if still then s else s.setService w p.what false)
  else match p.what with
    | .quad q => s.onCore w fun c => let d := c.deadQuads ||| BitVec.ofNat 8 (2 ^ (q % 8)); { c with deadQuads := d, outQuads := c.outQuads ||| d }
    | .row | .column =>
      let u := recUnit p.er + (if p.what == .column then 16 else 0)
      let r := (u, w, p.place)
      if cls = 2 || s.coh.deadRows.any (· == r) then s
      else State.emptied { s with coh := { s.coh with deadRows := r :: s.coh.deadRows } } u w p.place
    | .channel =>
      let c := channelOf p.place
      { s with coh := { s.coh with dead := if s.coh.dead.any (· == c) then s.coh.dead else c :: s.coh.dead } }
    | x => (testedCores w x).foldl (fun t n => t.fence n) s

/-- The class of a pending record is decided (R388, R389): a transient one is updated in the log; where the structure is retired, every
record of it is, whatever class it had, and none of them is pending. Class 2 adds an entry to the repair map, with the spare asked for or else
the first that is free; with no spare left or no room in the map the class is 3. -/
def State.classify (s : State) (p : PendingTest) (cls : Nat) (spare : Option Nat) : State :=
  let free := s.spares p
  let pick := (spare.filter fun i => free.any (· == i)).or free.head?
  let cls' := if cls = 2 then (if pick.isSome && decide (s.sys.repair.length < 4096) then 2 else 3) else cls
  let lasting := decide (2 ≤ cls')
  let of := if lasting then s.sys.tested.filter (·.within p) else [p]
  let hit := fun r : BitVec 256 => of.any fun q => withClass r 0 == withClass q.er 0
  let t := { s with sys := { s.sys with
    errors := updIf hit (withClass · cls') s.sys.errors
    pending := if lasting then s.sys.pending.filter fun q => !q.within p else dropFirst (· == p) s.sys.pending
    repair := if cls' = 2 then s.sys.repair ++ [repairEntry p.er (pick.getD 0) s.env.cycle] else s.sys.repair } }
  t.retire p cls'

/-- The same location has logged three corrected errors within 2^30 cycles (R388). -/
def State.thrice (s : State) (p : PendingTest) : Bool :=
  let times := (s.sys.corrected.filter fun c => c.1 == locationOf p.er p.place).map (·.2)
  times.any fun a => decide (3 ≤ (times.filter fun b => decide (a ≤ b) && decide (b < a + 2 ^ 30)).length)

/-- The structure can be tested now (R388): a quad in no hart's holding, a core or cluster at its task's end. -/
def State.testable (s : State) (p : PendingTest) : Bool :=
  let w := recWhere p.er
  match p.what with
  | .quad q => !(s.harts.any fun h => h.core == w && decide (h.quads.first ≤ q) && decide (q < h.quads.first + h.quads.count))
  | x => (testedCores w x).all fun n => !s.places.any (·.core == n)

/-- SELF_TEST_COMPLETE (R388): the test of the oldest pending record of a location ends, in the hardware mode of R393. -/
def execSelfTestComplete (er : BitVec 256) (failed : Bool) (spare : Option Nat) (s : State) : Out :=
  match s.sys.pending.find? fun p => locationOf p.er 0 == locationOf er 0 with
  | none => .next s
  | some p =>
    if s.sys.hostErrors || !s.testable p then .next s else .next (s.classify p (if failed || s.thrice p then 2 else 1) spare)

/-- VERDICT (R393): the host's class for every pending record with that ADDR, WHERE and UNIT. -/
def execVerdict (w : BitVec 128) (s : State) : Out :=
  let cls := bitsOf w.toNat 97 96
  let hit := fun p : PendingTest =>
    recAddr p.er == bytesAt w 0 8 && recWhere p.er == bytesAt w 8 2 && recUnit p.er == bytesAt w 10 2
  if cls = 0 ∨ bitsOf w.toNat 127 98 ≠ 0 ∨ s.sys.hostErrors = false then .next s
  else .next ((s.sys.pending.filter hit).foldl (fun t p => t.classify p cls none) s)

/-! ### Links and other modules (R361, R383) -/

/-- FLIT_REPLAY (R383): a replay is logged; after 16 of one flit the link retrains. The operand is the link + 65,536 x the flit (log entry
168). -/
def execFlitReplay (x : Nat) (s : State) : Out :=
  let link := x % 65536
  let flit := x / 65536
  let before := Sparse.get 0 s.coh.replays link
  let n := if before / 32 = flit then before % 32 + 1 else 1
  let unit := if link < 8 then 10 else 9
  let kind := if 16 ≤ n then 1 else 0
  let t := s.logError (errorRecord s.env.cycle 0 unit link kind 0 0xFF 0)
  if s.coh.retrain.any (· == link) then .next s
  else if 16 ≤ n then
    .next { t with coh := { t.coh with retrain := link :: t.coh.retrain, replays := Sparse.put 0 t.coh.replays link 0 } }
  else .next { t with coh := { t.coh with replays := Sparse.put 0 t.coh.replays link (32 * flit + n) } }

/-- LINK_RETRAIN_COMPLETE (R383): the link carries its waiting traffic again. -/
def execLinkRetrainComplete (link : Nat) (s : State) : Out :=
  .next { s with coh := { s.coh with
    retrain := s.coh.retrain.filter (· != link)
    replays := Sparse.put 0 s.coh.replays link 0
    down := s.coh.down.filter fun m => Config.port m != link
    expired := s.coh.expired.filter fun m => m != 256 + link && (decide (256 ≤ m) || Config.port m != link) } }

/-- LINK_DOWN (R361). -/
def execLinkDown (module : Nat) (s : State) : Out :=
  .next { s with coh := { s.coh with down := if s.coh.down.any (· == module) then s.coh.down else module :: s.coh.down } }

/-- REMOTE_ACCESS_TIMEOUT (R361, R383): accesses over a route that is down have waited 65,536 cycles and fault with ECC; `module` 256 + n
stands for the die-to-die link n. -/
def execRemoteAccessTimeout (module : Nat) (s : State) : Out :=
  let isDown := if module < 256 then s.routeDown module else s.coh.retrain.any (· == module - 256)
  if isDown && !s.coh.expired.any (· == module) then
    .next { s with coh := { s.coh with expired := module :: s.coh.expired } }
  else .next s

/-- A frame of another module performed at the home (R361), none while it waits there; the answer goes back over the link. -/
def State.remoteServe (s : State) (pa : Nat) (op : RemoteOp) : Option State :=
  let key := dramKey pa
  let loc : Loc := { kind := .cached, key := key, pa := pa }
  match op with
  | .load n =>
    if n = 0 ∨ 64 < pa % 64 + n then some s
    else match s.lineRead loc n with
      | (.wait _, _) => none
      | (_, t) => some t
  | .store n d =>
    if n = 0 ∨ 64 < pa % 64 + n then some s
    else if s.lineWaits (lineOf key) (wordMask key n) then none
    else
      let t := s.hostTake [(loc, n, 0)]
      if t.hostLost [(loc, n, 0)] then some t else t.hostPut loc n d.toNat
  | .atomic o wide b c =>
    let w := if wide then 64 else 32
    if pa % (w / 8) ≠ 0 then some s
    else match s.homeAtomic key w fun old => amoApply o w old b.toNat c.toNat with
      | (.wait _, _) => none
      | (_, t) => some t

/-- REMOTE_REQUEST (R361): served, in the order the module sent its requests, when the peer table of the partition that owns the key id
lists the module; it waits while that key id awaits its key (R359). -/
def execRemoteRequest (module pa : Nat) (op : RemoteOp) (s : State) : Out :=
  let kid := pa / 2 ^ 48 % 16
  .next (s.inOrder (16 + module) (.remote module pa op) fun s =>
    match s.partAt (kid - 1) with
    | none => some s
    | some p =>
      if kid = 0 || !p.peers.any (· == module) || !s.owns p.id (pa % 2 ^ 52) false then some s
      else if p.keyWait then none
      else s.remoteServe (pa % 2 ^ 52) op)

/-! ### Reset and boot (R391, R392) -/

/-- A little-endian field of a file (R101). -/
def fileField (l : List Byte) (off n : Nat) : Nat := bytesNat ((l.drop off).take n)

/-- The line table's bytes that R110 names: the count, the names, and whole entries; 0 of them where there is no table. -/
def lineBytes (l : List Byte) : Nat :=
  let size := fileField l 64 8
  let names := 4 + 4 * fileField l (fileField l 56 8) 4
  if fileField l 56 8 = 0 then 0 else if size < names then size else names + (size - names) / 16 * 16

/-- The header, tables and contents of a file, each as (offset, length, its bytes that the format gives as zero) (R102 to R110). -/
def fileParts (l : List Byte) : List (Nat × Nat × List (Nat × Nat)) :=
  let at_ := fileField l
  let secs := (upTo (at_ 8 4)).map fun i => at_ 16 8 + 48 * i
  let contents := fun p => if at_ (p + 4) 2 = 4 then [] else [(at_ (p + 16) 8, at_ (p + 24) 8, [])]
  let relocs := fun p => (upTo (at_ (p + 12) 4)).map fun r => (at_ (p + 40) 8 + 24 * r, 24, [(14, 2)])
  [(0, 128, [(96, 32)]), (at_ 32 8, at_ 40 4, []), (at_ 56 8, lineBytes l, [])] ++
  secs.flatMap (fun p => [(p, 48, [(9, 3)])] ++ contents p ++ relocs p) ++
  ((upTo (at_ 12 4)).map fun i => (at_ 24 8 + 32 * i, 32, if i = 0 then [(0, 32)] else [(24, 8)])) ++
  (upTo (at_ 44 4)).map fun i => (at_ 48 8 + 64 * i, 64, [(4, 4), (31, 1), (46, 2), (56, 8)])

/-- A file up to SIGOFF is one that a loader takes (R101, R102, R105, R111): tables at multiples of 8, no part past SIGOFF, and zero in
the bytes that the format gives as zero and in those that no field names. -/
def fileOk (l : List Byte) (sig : Nat) : Bool :=
  let parts := (fileParts l).filter fun p => decide (0 < p.2.1)
  let zeros := parts.flatMap fun p => p.2.2.map fun z => (p.1 + z.1, z.2)
  let lies := fun (b o n : Nat) => decide (o ≤ b) && decide (b < o + n)
  ([16, 24, 32, 48, 56].all fun f => fileField l f 8 % 8 == 0) &&
  ((upTo (fileField l 8 4)).all fun i => fileField l (fileField l 16 8 + 48 * i + 40) 8 % 8 == 0) &&
  (parts.all fun p => decide (p.1 + p.2.1 ≤ sig)) &&
  ((l.take sig).zipIdx.all fun b => b.1 == 0#8 || (!(zeros.any fun z => lies b.2 z.1 z.2) && parts.any fun p => lies b.2 p.1 p.2.1))

/-- The image is accepted (R391): KIND 3 with its signature block, a key hash of the fuses, the digest of its bytes up to SIGOFF, the
signature over it, and the minimum version. The digest is the firmware identity. -/
def imageDigest (l : List Byte) : Option (BitVec 512) :=
  let at_ := fileField l
  let sig := at_ 80 8
  let hash := BitVec.ofNat 512 (at_ (sig + 8) 64)
  let digest := BitVec.ofNat 512 (at_ (sig + 72) 64)
  let ok :=
    decide (l.length = sig + 4768) && decide (sig % 16 = 0) && at_ 0 4 == 0x00464F42 && at_ 4 2 == 1 && at_ 6 2 == 3 && fileOk l sig &&
    at_ sig 4 == 0x47495342 && at_ (sig + 4) 2 == 1 && at_ (sig + 6) 2 == 0 && at_ (sig + 4763) 5 == 0 &&
    ([0, 1, 2, 3].any fun i => Config.fuseKey i == some hash) && Config.sha3 (l.take sig) == digest &&
    Config.verifySig hash digest ((l.drop (sig + 136)).take 4627) && decide (Config.fuseMinVersion ≤ at_ 88 8)
  if ok then some digest else none

/-- The alternatives that a later start still takes (R392): those of steps that are not done, which are those from `n` on. Steps: 0 fetch,
1 acceptance, 2 stacks, 3 LPDDR6, 4 to 7 the compute dies, in this order; all are done when the firmware has created a partition. -/
def Boot.undone (b : Boot) (n : Nat) : List Nat := if b.complete then [] else b.alternatives.filter fun k => decide (n ≤ k)

/-- Where the journal stands at a reset (R392): the step begun and not done, and the first of those not done. A reset during the bring-up of
the firmware finds it at a point that the spec does not give (log entry 169). -/
def Boot.stands (b : Boot) (free : Nat) : Option Nat × Nat :=
  if b.running && !b.complete then
    let k := Config.bootStep free % 13
    (if k % 2 = 1 then some (2 + k / 2) else none, 2 + k / 2)
  else (b.begun, 0)

/-- The device after a reset: what flash keeps, the journal, the repair map and the boot source, and what the repair map keeps out of
service, over the state of reset; a retired channel has left its tier (R389). -/
def State.afterReset (s : State) (journal : Boot) : State :=
  let kept := s.cores.filter fun c => c.fenced || c.deadQuads != 0#8
  { State.reset with
    cores := kept.map fun c => { Core.empty c.id with outQuads := c.deadQuads, deadQuads := c.deadQuads, out := c.fenced, fenced := c.fenced }
    coh := { State.reset.coh with gone := s.coh.dead ++ s.coh.gone, deadRows := s.coh.deadRows }
    sys := { State.reset.sys with repair := s.sys.repair, boot := journal }
    env := { s.env with opps := [], issue := none, cycle := 0 } }

/-- A compute die is left disabled (R392): 160 cores. -/
def State.disableDie (s : State) (d : Nat) : State :=
  (upTo 160).foldl (fun t i => t.onCore (160 * d + i) fun c => { c with out := true }) s

/-- The dies whose bring-up takes the alternative: steps 4 to 7 of the journal. -/
def State.disableDies (s : State) (steps : List Nat) : State :=
  (steps.filter fun n => decide (4 ≤ n) && decide (n < 8)).foldl (fun t n => t.disableDie (n - 4)) s

/-- Put the boot journal. -/
def State.setBoot (s : State) (b : Boot) : State := { s with sys := { s.sys with boot := b } }

/-- The bytes of an image: `2 x n` names image n of the boot server, `2 x n + 1` image n over the host port, which is the boot source in
host-assisted mode and where the fetch takes its alternative (R391 to R393). -/
def Boot.source (b : Boot) (alts : List Nat) (image : Nat) : Nat := 2 * image + (if b.bootHost || alts.any (· == 0) then 1 else 0)

/-- RESET (R391, R392): a step begun and not done takes its alternative at this start, and a second failure of it stops the device;
then the boot ROM accepts the image, or the last accepted one where the alternative says so, and jumps to its ENTRY. -/
def execReset (image : Nat) (s : State) : Out :=
  let b := s.sys.boot
  let (begun, first) := b.stands s.env.free
  let again := match begun with | some n => (b.undone first).any (· == n) | none => false
  let alts := begun.toList ++ (b.undone first).filter fun n => some n != begun
  let journal : Boot := { b with identity := none, entry := 0, running := false, complete := false, begun := none, alternatives := alts }
  if again then .next (s.afterReset { journal with stopped := true })
  else
    let t := s.afterReset journal
    let chosen := if alts.any (· == 1) then b.accepted else some (b.source alts image)
    match chosen.bind fun i => (imageDigest (Config.bootImage i)).map (i, ·) with
    | some (i, d) =>
      let entry := BitVec.ofNat 64 (fileField (Config.bootImage i) 72 8)
      .next ((t.disableDies alts).setBoot { journal with identity := some d, entry := entry, running := true, accepted := some i })
    | none => .next (t.setBoot (if alts.any (· == 1) then { journal with stopped := true } else { journal with begun := some 1 }))

/-- BOOT_WATCHDOG_EXPIRY (R392): step `n` hung for 10 s and the device resets; a step whose alternative hung stops it. A step hangs
before the firmware runs (0, 1; the fetch over a fabric port is skipped where the host port is the boot source, R393), or before it has created a
partition (2 to 7). -/
def execBootWatchdogExpiry (n : Nat) (s : State) : Out :=
  let b := s.sys.boot
  let due := if n < 2 then !b.running && !(n == 0 && b.bootHost) else b.running && !b.complete && decide (n < 8)
  let journal : Boot := { b with identity := none, entry := 0, running := false, complete := false, alternatives := b.undone n }
  if !due then .next s
  else if (b.undone n).any (· == n) then .next (s.afterReset { journal with stopped := true })
  else .next (s.afterReset { journal with begun := some n })

end Sys2Proof.Machine
end

