-- ==== Sys2Proof/Machine/Arbiter.lean ====
section
/-! DEFINITION. The core arbiters (R138, R269 to R272), and the device steps that a step without inputs looks through for one that can
take place. -/
namespace Sys2Proof.Machine

/-! ### The arbiter of a core (R269, R270) -/

/-- An instruction that has issued and whose access to memory, or whose engine's writes, are on their way: it is carried on when they
may have come, with no issue opportunity (R269; log entry 13). -/
def Hart.polled (h : Hart) : Bool :=
  match h.wait with
  | some .memory | some (.delivery _ _) => true
  | _ => false

/-- A `yield` still keeps the hart behind the others (R138). -/
def Hart.yielding (h : Hart) : Bool := decide (0 < h.sc.yieldLeft) && !h.sc.yielded.isEmpty

/-- A ready hart that is not behind its own `yield` (R138, R269). -/
def Hart.arbReady (h : Hart) : Bool := h.ready && !h.yielding

/-- A hart that becomes ready has its V raised to the lowest V among the harts that were ready (R270). -/
def raised (hs : List Hart) (h : Hart) : Nat :=
  let were := (hs.filter fun g => g.sc.wasReady && g.id != h.id).map (·.sc.vtime)
  if h.sc.wasReady then h.sc.vtime
  else match were with
    | [] => h.sc.vtime
    | v :: r => max h.sc.vtime (r.foldl min v)

/-- The order of choice (R270): first a hart with no opportunity in the last 15 cycles, the longest waiting first; then the lowest V;
ties to the lower slot. Each hart comes with its V. -/
def arbBefore (a b : Nat × Hart) : Bool :=
  let sa := decide (15 ≤ a.2.sc.age)
  let sb := decide (15 ≤ b.2.sc.age)
  if sa && sb then decide (b.2.sc.age < a.2.sc.age) || (a.2.sc.age == b.2.sc.age && decide (a.2.slot < b.2.slot))
  else if sa || sb then sa
  else decide (a.1 < b.1) || (a.1 == b.1 && decide (a.2.slot < b.2.slot))

/-- The harts of a core that take this cycle's opportunities: up to two, with their V. -/
def State.arbChoice (s : State) (core : Nat) : List (Nat × Hart) :=
  let hs := s.hartsOn core
  (sortBy arbBefore ((hs.filter (·.arbReady)).map fun h => (raised hs h, h))).take 2

/-- A hart of the core after the cycle: the chosen rise by 1024 / SHARE. In the first cycle after a `yield` those of the others that turn
out not to be ready no longer count (R138). -/
def afterArb (hs : List Hart) (chosen : List Nat) (h : Hart) : Hart :=
  let got := chosen.any (· == h.id)
  let v := if h.ready then raised hs h else h.sc.vtime
  let others := h.sc.yielded.filter fun g => h.sc.yieldLeft != 16 || hs.any fun k => k.id == g && k.ready
  { h with sc := { h.sc with
      vtime := if got then v + 1024 / h.tk.share.toNat else v
      age := if got then 0 else h.sc.age + 1
      wasReady := h.ready
      yieldLeft := h.sc.yieldLeft - 1
      yielded := if h.sc.yieldLeft ≤ 1 then [] else others.filter fun g => !chosen.any (· == g) } }

/-- One cycle of a core's arbiter: the opportunities go to the chosen harts. -/
def State.arbitrate (s : State) (core : Nat) : State :=
  let hs := s.hartsOn core
  let chosen := (s.arbChoice core).map (·.2.id)
  let t := s.onHarts (fun h => h.core == core && h.status != .empty) (afterArb hs chosen)
  { t with env := { t.env with opps := t.env.opps ++ chosen } }

/-- ISSUE_ARBITRATION (R270). -/
def execIssueArbitration (core : Nat) (s : State) : Out := .next (s.arbitrate core)

/-! ### What works on its own -/

/-- The step that takes a message of a kind. -/
noncomputable def messageStep (n : Nat) : MsgKind → Option Instr
  | .rd => some (.rd n) | .rdv => some (.rdv n) | .reg => some (.reg n) | .wrv => some (.wrv n) | .atom => some (.atom n)
  | .ereg => some (.ereg n) | .ewr => none | .gnt => some (.gnt n) | .xfer => some (.xfer n) | .fwd => some (.fwd n)
  | .nakl => some (.nakl n) | .collect => some (.collect n) | .claim => some (.claim n) | .wb => some (.wb n)
  | .xack => some (.xack n) | .fack => some (.fack n) | .part => some (.part n) | .claimr => some (.claimr n)

/-- The steps of a hart's buffers and of the hart itself. -/
noncomputable def hartSteps (h : Hart) : List Instr :=
  (if h.ssb.isEmpty then [] else [.ssbDrain h.id]) ++
  ((upTo 8).map fun q => .psfDrain h.id q) ++ ((upTo 4).map fun c => .cpfDrain h.id c) ++
  [.wfeWake h.id, .vacquireGrant h.id, .hartStart h.id, .hartStop h.id]

/-- The steps of a copy. -/
noncomputable def copySteps (c : Copy) : List Instr :=
  let n := 64 * c.task + c.token
  [.ewr c.hart n, .engineWrite c.hart n, .copyEnd c.hart n]

/-- The steps of a session. -/
noncomputable def sessionSteps (c : Session) : List Instr :=
  [.riddleOffer c.cluster c.id, .riddleRunEnd c.cluster c.id, .probeEnd c.cluster c.id]

/-- The steps of a stream's anneal unit. -/
noncomputable def streamSteps (z : Stream) : List Instr := [.mergePublication z.base, .mergeAbandon z.base, .horizonDiscard z.base]

/-- The steps of a task. -/
noncomputable def State.taskSteps (s : State) (t : Task) : List Instr :=
  let cores := (s.places.filter (·.task == t.id)).map (·.core)
  (cores.map fun c => .coreSaveBegin t.id c) ++ (cores.map fun c => .coreSaveComplete t.id c) ++ [.restoreComplete t.id, .taskEnd t.id]

/-- Device steps that may be able to take place, the oldest message first. Evictions, timeouts, errors and what the host or another
module does come only as inputs. -/
noncomputable def State.deviceSteps (s : State) : List Instr :=
  (s.coh.net.zipIdx.filterMap fun m => messageStep m.2 m.1.kind) ++
  (s.harts.filter (·.status != .empty)).flatMap hartSteps ++
  s.eng.copies.flatMap copySteps ++ [.globalPauseEnd] ++
  ((s.coh.egress.map (·.module)).eraseDups.map fun m => .linkDelivery m) ++
  (s.coh.draining.map fun c => .controllerWriteIssue c) ++
  s.eng.sessions.flatMap sessionSteps ++
  s.eng.streams.flatMap streamSteps ++ (if s.eng.streams.isEmpty then [] else (upTo 96).map fun a => .annealOperationStart (0x320 + a)) ++
  s.sys.tasks.flatMap s.taskSteps ++
  s.sys.parts.flatMap fun p =>
    ((upTo 16).map fun q => .startCounterReread p.id q) ++ [.taskPlacement p.id]

/-! ### Whose turn it is -/

/-- A list begun at another of its elements. -/
def turnList {α : Type} (l : List α) (n : Nat) : List α := l.drop (n % l.length) ++ l.take (n % l.length)

/-- A core with a ready hart, be it behind its `yield`, the cores taking turns (R138, R271). -/
def State.readyCore (s : State) : Option Nat :=
  (turnList ((s.harts.filter (·.status != .empty)).map (·.core)).eraseDups (s.env.turn / 5)).find? fun c => (s.hartsOn c).any (·.ready)

/-- A running hart that satisfies `p`, the harts taking turns. -/
def State.turnOf (s : State) (p : Hart → Bool) : Option Nat :=
  (turnList (s.harts.filter fun h => h.status == .running) (s.env.turn / 5)).find? p |>.map (·.id)

/-- A hart whose vector stream can issue: its queue is not empty, and no atomic of it is half done. -/
def State.vectorReady (s : State) (h : Hart) : Bool := !h.vs.vq.isEmpty && h.atomReply.isNone && !s.outstanding h

/-- The choice whether the vector stream lags is taken. -/
def State.lagged (s : State) : State := { s with env := { s.env with lag := s.env.lag.tail } }

/-- The head leaves the vector queue to be issued. -/
def State.issuing (s : State) (e : VEntry) : State :=
  { s with
    hart := { s.hart with vs := { s.hart.vs with vq := s.hart.vs.vq.drop 1, blocked := false } }
    env := { s.env with issue := some e } }


/-- The orders of host accesses that have one waiting, taking turns (R354, R355, R357). -/
def State.waitingOrders (s : State) : List Nat := turnList ((s.sys.waiting.map (·.1)).eraseDups) (s.env.turn / 5)

end Sys2Proof.Machine
end

