-- ==== Sys2Proof/Machine/Alu.lean ====
section
/-! DEFINITION. The scalar arithmetic words: ALU (R112), the immediate majors (R113) and MULDIV (R114). -/
namespace Sys2Proof.Machine

/-- A truth value as a word. -/
def boolW (b : Bool) : Word := if b then 1 else 0

/-- The immediate of LUI and AUIPC (R62). -/
def upperImm (i : BitVec 16) : Word := i.signExtend 64 <<< 16

/-- Leading zero bits below bit `n`. -/
def leadingZeros (w : Word) : Nat → Nat
  | 0 => 0
  | n + 1 => if w.getLsbD n then 0 else leadingZeros w n + 1

/-- Trailing zero bits of the `n` bits that end at bit 63. -/
def trailingZeros (w : Word) : Nat → Nat
  | 0 => 0
  | n + 1 => if w.getLsbD (63 - n) then 0 else trailingZeros w n + 1

/-- One bits below bit `n`. -/
def onesBelow (w : Word) : Nat → Nat
  | 0 => 0
  | n + 1 => onesBelow w n + (w.getLsbD n).toNat

/-- A two-operand ALU word: x[D] := f x[A] x[B], with no flag and no trap (R112). -/
def alu (d a b : Reg) (f : Word → Word → Word) (s : State) : Out := s.result d (f (s.get a) (s.get b))
/-- A one-operand ALU or immediate word (R112, R113). -/
def alu1 (d a : Reg) (f : Word → Word) (s : State) : Out := s.result d (f (s.get a))

/-- ADD (R112). -/
def execAdd (d a b : Reg) (s : State) : Out := alu d a b (fun x y => x + y) s
/-- SUB (R112). -/
def execSub (d a b : Reg) (s : State) : Out := alu d a b (fun x y => x - y) s
/-- AND (R112). -/
def execAnd (d a b : Reg) (s : State) : Out := alu d a b (fun x y => x &&& y) s
/-- OR (R112). -/
def execOr (d a b : Reg) (s : State) : Out := alu d a b (fun x y => x ||| y) s
/-- XOR (R112). -/
def execXor (d a b : Reg) (s : State) : Out := alu d a b (fun x y => x ^^^ y) s
/-- SLL (R112). -/
def execSll (d a b : Reg) (s : State) : Out := alu d a b (fun x y => x <<< (y.toNat % 64)) s
/-- SRL (R112). -/
def execSrl (d a b : Reg) (s : State) : Out := alu d a b (fun x y => x >>> (y.toNat % 64)) s
/-- SRA (R112). -/
def execSra (d a b : Reg) (s : State) : Out := alu d a b (fun x y => x.sshiftRight (y.toNat % 64)) s
/-- SLT (R112). -/
def execSlt (d a b : Reg) (s : State) : Out := alu d a b (fun x y => boolW (x.slt y)) s
/-- SLTN (R112). -/
def execSltn (d a b : Reg) (s : State) : Out := alu d a b (fun x y => boolW (x.ult y)) s
/-- MIN (R112). -/
def execMin (d a b : Reg) (s : State) : Out := alu d a b (fun x y => if x.slt y then x else y) s
/-- MAX (R112). -/
def execMax (d a b : Reg) (s : State) : Out := alu d a b (fun x y => if x.slt y then y else x) s
/-- MINN (R112). -/
def execMinn (d a b : Reg) (s : State) : Out := alu d a b (fun x y => if x.ult y then x else y) s
/-- MAXN (R112). -/
def execMaxn (d a b : Reg) (s : State) : Out := alu d a b (fun x y => if x.ult y then y else x) s
/-- CLZ (R112). -/
def execClz (d a : Reg) (s : State) : Out := alu1 d a (fun x => BitVec.ofNat 64 (leadingZeros x 64)) s
/-- CTZ (R112). -/
def execCtz (d a : Reg) (s : State) : Out := alu1 d a (fun x => BitVec.ofNat 64 (trailingZeros x 64)) s
/-- POPC (R112). -/
def execPopc (d a : Reg) (s : State) : Out := alu1 d a (fun x => BitVec.ofNat 64 (onesBelow x 64)) s
/-- ADDI (R62, R113). -/
def execAddi (d a : Reg) (i : BitVec 16) (s : State) : Out := alu1 d a (fun x => x + i.signExtend 64) s
/-- ANDI (R62, R113). -/
def execAndi (d a : Reg) (i : BitVec 16) (s : State) : Out := alu1 d a (fun x => x &&& i.setWidth 64) s
/-- ORI (R62, R113). -/
def execOri (d a : Reg) (i : BitVec 16) (s : State) : Out := alu1 d a (fun x => x ||| i.setWidth 64) s
/-- XORI (R62, R113). -/
def execXori (d a : Reg) (i : BitVec 16) (s : State) : Out := alu1 d a (fun x => x ^^^ i.setWidth 64) s
/-- SLTI (R62, R113). -/
def execSlti (d a : Reg) (i : BitVec 16) (s : State) : Out := alu1 d a (fun x => boolW (x.slt (i.signExtend 64))) s
/-- SLLI (R62, R113). -/
def execSlli (d a : Reg) (n : BitVec 6) (s : State) : Out := alu1 d a (fun x => x <<< n.toNat) s
/-- SRLI (R62, R113). -/
def execSrli (d a : Reg) (n : BitVec 6) (s : State) : Out := alu1 d a (fun x => x >>> n.toNat) s
/-- SRAI (R62, R113). -/
def execSrai (d a : Reg) (n : BitVec 6) (s : State) : Out := alu1 d a (fun x => x.sshiftRight n.toNat) s
/-- LUI (R62, R113). -/
def execLui (d : Reg) (i : BitVec 16) (s : State) : Out := s.result d (upperImm i)
/-- AUIPC (R62, R113). -/
def execAuipc (d : Reg) (i : BitVec 16) (s : State) : Out := s.result d (s.hart.pc + upperImm i)

/-! ### MULDIV (R34, R114) -/

/-- The signed quotient: all ones for a zero divisor; -2^63 by -1 wraps (R34). -/
def quotS (x y : Word) : Word := if y = 0 then -1 else x.sdiv y
/-- The unsigned quotient (R34). -/
def quotU (x y : Word) : Word := if y = 0 then -1 else x / y
/-- The signed remainder: the dividend for a zero divisor, else the sign of the dividend (R34). -/
def remS (x y : Word) : Word := if y = 0 then x else x.srem y
/-- The unsigned remainder (R34). -/
def remU (x y : Word) : Word := if y = 0 then x else x % y
/-- A zero divisor sets DZ and traps with INT if IDE is set (R34). -/
def zeroDivisor (y : Word) : Ev := { id := decide (y = 0) }
/-- -2^63 by -1 overflows `div` (R33). -/
def divOverflow (x y : Word) : Bool := decide (x = BitVec.intMin 64) && decide (y = -1)

/-- A division or remainder word: the result and its events (R114, R122). -/
def muldiv (word : IWord) (d a b : Reg) (f : Word → Word → Word) (e : Word → Word → Ev) (s : State) : Out :=
  scalarResult word d (f (s.get a) (s.get b)) (e (s.get a) (s.get b)) s

/-- MUL (R114). -/
def execMul (d a b : Reg) (s : State) : Out := alu d a b (fun x y => x * y) s
/-- MULH (R114). -/
def execMulh (d a b : Reg) (s : State) : Out :=
  alu d a b (fun x y => BitVec.ofInt 64 (x.toInt * y.toInt / 2 ^ 64)) s
/-- MULHN (R114). -/
def execMulhn (d a b : Reg) (s : State) : Out :=
  alu d a b (fun x y => BitVec.ofNat 64 (x.toNat * y.toNat / 2 ^ 64)) s
/-- DIV (R33, R34, R114). -/
def execDiv (d a b : Reg) (s : State) : Out :=
  muldiv (encode (.div d a b)) d a b quotS (fun x y => { zeroDivisor y with io := divOverflow x y }) s
/-- DIVN (R34, R114). -/
def execDivn (d a b : Reg) (s : State) : Out := muldiv (encode (.divn d a b)) d a b quotU (fun _ y => zeroDivisor y) s
/-- REM (R34, R114). -/
def execRem (d a b : Reg) (s : State) : Out := muldiv (encode (.rem d a b)) d a b remS (fun _ y => zeroDivisor y) s
/-- REMN (R34, R114). -/
def execRemn (d a b : Reg) (s : State) : Out := muldiv (encode (.remn d a b)) d a b remU (fun _ y => zeroDivisor y) s

end Sys2Proof.Machine
end

