-- ==== Sys2Proof/Machine/Branch.lean ====
section
/-! DEFINITION. Branches and jumps (R62, R66, R123). -/
namespace Sys2Proof.Machine

/-- PC + 4 x sext(disp) (R62). -/
def target {n : Nat} (s : State) (i : BitVec n) : Word := s.hart.pc + i.signExtend 64 * 4

/-- A conditional branch (R66, R123). -/
def branch (taken : Word → Word → Bool) (a b : Reg) (i : BitVec 13) (s : State) : Out :=
  if taken (s.get a) (s.get b) then .next (s.jump (target s i)) else .next s.advance

/-- B_EQ (R66, R123). -/
def execBEq (a b : Reg) (i : BitVec 13) (s : State) : Out := branch (fun x y => x == y) a b i s
/-- B_NE (R66, R123). -/
def execBNe (a b : Reg) (i : BitVec 13) (s : State) : Out := branch (fun x y => x != y) a b i s
/-- B_LT (R66, R123). -/
def execBLt (a b : Reg) (i : BitVec 13) (s : State) : Out := branch (fun x y => x.slt y) a b i s
/-- B_GE (R66, R123). -/
def execBGe (a b : Reg) (i : BitVec 13) (s : State) : Out := branch (fun x y => !x.slt y) a b i s
/-- B_LTN (R66, R123). -/
def execBLtn (a b : Reg) (i : BitVec 13) (s : State) : Out := branch (fun x y => x.ult y) a b i s
/-- B_GEN (R66, R123). -/
def execBGen (a b : Reg) (i : BitVec 13) (s : State) : Out := branch (fun x y => !x.ult y) a b i s
/-- B_BS (R66, R123). -/
def execBBs (a b : Reg) (i : BitVec 13) (s : State) : Out := branch (fun x y => x.getLsbD (y.toNat % 64)) a b i s
/-- B_BC (R66, R123). -/
def execBBc (a b : Reg) (i : BitVec 13) (s : State) : Out := branch (fun x y => !x.getLsbD (y.toNat % 64)) a b i s
/-- J (R123). -/
def execJ (i : BitVec 26) (s : State) : Out := .next (s.jump (target s i))
/-- JAL: links to x1 (R123). -/
def execJal (i : BitVec 26) (s : State) : Out := .next ((s.set 1 (s.hart.pc + 4)).jump (target s i))
/-- JALR: MISALIGN with the target in TVAL when its low bits are not zero, and nothing is written (R58, R123). -/
def execJalr (d a : Reg) (i : BitVec 16) (s : State) : Out :=
  let t := s.get a + i.signExtend 64
  if t.toNat % 4 ≠ 0 then .next (s.trap .misalign t)
  else .next ((s.set d (s.hart.pc + 4)).jump t)

end Sys2Proof.Machine
end

