-- ==== Sys2Proof/Machine/Fpu.lean ====
section
/-! DEFINITION. The scalar floating-point words (R120 to R122). -/
namespace Sys2Proof.Machine

/-- The format P selects (R120). -/
def pFmt (p : Bool) : Fmt := if p then fp64 else fp32
/-- The rounding mode of an RM field, or VTYPE.RM (R68, R120). -/
def rmOf (h : Hart) : Rm → RMode
  | .rne => .rne | .rtz => .rtz | .rdn => .rdn | .rup => .rup | .rna => .rna | .dyn => vtRm h.vr.vtype
/-- An operand: bits 31:0 for FP32 (R120). -/
def State.fget (s : State) (p : Bool) (r : Reg) : Nat := (s.get r).toNat % 2 ^ (pFmt p).width

/-- A scalar FP word: f's bits, zero-extended, and its events (R120, R122). -/
def fpu (word : IWord) (d : Reg) (r : Nat × Ev) (s : State) : Out := scalarResult word d (BitVec.ofNat 64 r.1) r.2 s
/-- A comparison writes 1 or 0 (R121). -/
def fpuCmp (word : IWord) (d : Reg) (r : Bool × Ev) (s : State) : Out :=
  scalarResult word d (BitVec.ofNat 64 r.1.toNat) r.2 s

/-- FADD (R120). -/
def execFadd (d a b : Reg) (p : Bool) (m : Rm) (s : State) : Out :=
  fpu (encode (.fadd d a b p m)) d (fAdd (pFmt p) (rmOf s.hart m) (s.fget p a) (s.fget p b)) s
/-- FSUB (R120). -/
def execFsub (d a b : Reg) (p : Bool) (m : Rm) (s : State) : Out :=
  fpu (encode (.fsub d a b p m)) d (fSub (pFmt p) (rmOf s.hart m) (s.fget p a) (s.fget p b)) s
/-- FMUL (R120). -/
def execFmul (d a b : Reg) (p : Bool) (m : Rm) (s : State) : Out :=
  fpu (encode (.fmul d a b p m)) d (fMul (pFmt p) (rmOf s.hart m) (s.fget p a) (s.fget p b)) s
/-- FDIV (R120). -/
def execFdiv (d a b : Reg) (p : Bool) (m : Rm) (s : State) : Out :=
  fpu (encode (.fdiv d a b p m)) d (fDiv (pFmt p) (rmOf s.hart m) (s.fget p a) (s.fget p b)) s
/-- FMA: x[A] x x[B] + x[D] with one rounding (R120, R122). -/
def execFma (d a b : Reg) (p : Bool) (m : Rm) (s : State) : Out :=
  fpu (encode (.fma d a b p m)) d
    (fFma (pFmt p) (rmOf s.hart m) (s.fget p a) (s.fget p b) ((pFmt p).decode (s.fget p d))) s
/-- FSQRT (R120). -/
def execFsqrt (d a : Reg) (p : Bool) (m : Rm) (s : State) : Out :=
  fpu (encode (.fsqrt d a p m)) d (fSqrt (pFmt p) (rmOf s.hart m) (s.fget p a)) s
/-- FMIN (R120). -/
def execFmin (d a b : Reg) (p : Bool) (s : State) : Out :=
  fpu (encode (.fmin d a b p)) d (fMinMax (pFmt p) false (s.fget p a) (s.fget p b)) s
/-- FMAX (R120). -/
def execFmax (d a b : Reg) (p : Bool) (s : State) : Out :=
  fpu (encode (.fmax d a b p)) d (fMinMax (pFmt p) true (s.fget p a) (s.fget p b)) s
/-- FCMP_EQ (R121). -/
def execFcmpEq (d a b : Reg) (p : Bool) (s : State) : Out :=
  fpuCmp (encode (.fcmpEq d a b p)) d (fEq (pFmt p) (s.fget p a) (s.fget p b)) s
/-- FCMP_LT (R121). -/
def execFcmpLt (d a b : Reg) (p : Bool) (s : State) : Out :=
  fpuCmp (encode (.fcmpLt d a b p)) d (fLt (pFmt p) (s.fget p a) (s.fget p b)) s
/-- FCMP_LE (R121). -/
def execFcmpLe (d a b : Reg) (p : Bool) (s : State) : Out :=
  fpuCmp (encode (.fcmpLe d a b p)) d (fLe (pFmt p) (s.fget p a) (s.fget p b)) s
/-- FCMP_UN (R121). -/
def execFcmpUn (d a b : Reg) (p : Bool) (s : State) : Out :=
  fpuCmp (encode (.fcmpUn d a b p)) d (fUn (pFmt p) (s.fget p a) (s.fget p b)) s
/-- FCVT_TOS64 (R51, R121). -/
def execFcvtTos64 (d a : Reg) (p : Bool) (m : Rm) (s : State) : Out :=
  fpu (encode (.fcvtTos64 d a p m)) d (fToInt (rmOf s.hart m) true 64 ((pFmt p).decode (s.fget p a))) s
/-- FCVT_TON64 (R51, R121). -/
def execFcvtTon64 (d a : Reg) (p : Bool) (m : Rm) (s : State) : Out :=
  fpu (encode (.fcvtTon64 d a p m)) d (fToInt (rmOf s.hart m) false 64 ((pFmt p).decode (s.fget p a))) s
/-- FCVT_TON32 (R51, R121). -/
def execFcvtTon32 (d a : Reg) (p : Bool) (m : Rm) (s : State) : Out :=
  fpu (encode (.fcvtTon32 d a p m)) d (fToInt (rmOf s.hart m) false 32 ((pFmt p).decode (s.fget p a))) s
/-- FCVT_TOS32: the result is sign-extended (R51, R121). -/
def execFcvtTos32 (d a : Reg) (p : Bool) (m : Rm) (s : State) : Out :=
  let r := fToInt (rmOf s.hart m) true 32 ((pFmt p).decode (s.fget p a))
  scalarResult (encode (.fcvtTos32 d a p m)) d (sextW r.1 32) r.2 s
/-- FCVT_FROMS64 (R51, R121). -/
def execFcvtFroms64 (d a : Reg) (p : Bool) (m : Rm) (s : State) : Out :=
  fpu (encode (.fcvtFroms64 d a p m)) d (fOfInt (pFmt p) (rmOf s.hart m) (s.get a).toInt) s
/-- FCVT_FROMN64 (R51, R121). -/
def execFcvtFromn64 (d a : Reg) (p : Bool) (m : Rm) (s : State) : Out :=
  fpu (encode (.fcvtFromn64 d a p m)) d (fOfInt (pFmt p) (rmOf s.hart m) (s.get a).toNat) s
/-- FCVT_TOFP: to the other precision (R51, R121). -/
def execFcvtTofp (d a : Reg) (p : Bool) (m : Rm) (s : State) : Out :=
  fpu (encode (.fcvtTofp d a p m)) d (((pFmt p).decode (s.fget p a)).roundTo (pFmt (!p)) (rmOf s.hart m)) s

end Sys2Proof.Machine
end

