-- ==== Sys2Proof/Machine/LoadStore.lean ====
section
/-! DEFINITION. The scalar loads and stores (R115, R116). -/
namespace Sys2Proof.Machine

/-- The address of an M-format word (R62, R115). -/
def State.maddr (s : State) (a : Reg) (i : BitVec 13) : Word := s.get a + i.signExtend 64

/-- A load of `n` bytes: `ext` widens the value (R115); a failing check of R116 traps with the address in TVAL and leaves
x[D] unchanged. -/
def load (n : Nat) (ext : Nat → Word) (d a : Reg) (i : BitVec 13) (s : State) : Out :=
  let addr := s.maddr a i
  match s.scalarLoad addr.toNat n with
  | (.wait w, t) => .next (t.waitFor w)
  | (.fault c, t) => .next (t.trap c addr)
  | (.val v, t) => t.result d (ext v)

/-- A store of the low `n` bytes of x[D] (R115); a failing check traps and writes no byte (R116). -/
def store (n : Nat) (d a : Reg) (i : BitVec 13) (s : State) : Out :=
  let addr := s.maddr a i
  match s.scalarStore addr.toNat n (s.get d) with
  | (.wait w, t) => .next (t.waitFor w)
  | (.fault c, t) => .next (t.trap c addr)
  | (.val _, t) => .next t.advance

/-- LD_S8 (R115). -/
def execLdS8 (d a : Reg) (i : BitVec 13) (s : State) : Out := load 1 (sextW · 8) d a i s
/-- LD_N8 (R115). -/
def execLdN8 (d a : Reg) (i : BitVec 13) (s : State) : Out := load 1 (BitVec.ofNat 64) d a i s
/-- LD_S16 (R115). -/
def execLdS16 (d a : Reg) (i : BitVec 13) (s : State) : Out := load 2 (sextW · 16) d a i s
/-- LD_N16 (R115). -/
def execLdN16 (d a : Reg) (i : BitVec 13) (s : State) : Out := load 2 (BitVec.ofNat 64) d a i s
/-- LD_S32 (R115). -/
def execLdS32 (d a : Reg) (i : BitVec 13) (s : State) : Out := load 4 (sextW · 32) d a i s
/-- LD_N32 (R115). -/
def execLdN32 (d a : Reg) (i : BitVec 13) (s : State) : Out := load 4 (BitVec.ofNat 64) d a i s
/-- LD_64 (R115). -/
def execLd64 (d a : Reg) (i : BitVec 13) (s : State) : Out := load 8 (BitVec.ofNat 64) d a i s
/-- ST_8 (R115). -/
def execSt8 (d a : Reg) (i : BitVec 13) (s : State) : Out := store 1 d a i s
/-- ST_16 (R115). -/
def execSt16 (d a : Reg) (i : BitVec 13) (s : State) : Out := store 2 d a i s
/-- ST_32 (R115). -/
def execSt32 (d a : Reg) (i : BitVec 13) (s : State) : Out := store 4 d a i s
/-- ST_64 (R115). -/
def execSt64 (d a : Reg) (i : BitVec 13) (s : State) : Out := store 8 d a i s

end Sys2Proof.Machine
end

