-- ==== Sys2Proof/Machine/Dispatch.lean ====
section
/-! DEFINITION. One arm for each row of the opcode table: a direct call of its meaning. -/
namespace Sys2Proof.Machine

def exec (i : Instr) (s : State) : Host.Outcome State Fault Refusal :=
  match i with
  | .add d a b => Sys2Proof.Machine.execAdd d a b s
  | .sub d a b => Sys2Proof.Machine.execSub d a b s
  | .and d a b => Sys2Proof.Machine.execAnd d a b s
  | .or d a b => Sys2Proof.Machine.execOr d a b s
  | .xor d a b => Sys2Proof.Machine.execXor d a b s
  | .sll d a b => Sys2Proof.Machine.execSll d a b s
  | .srl d a b => Sys2Proof.Machine.execSrl d a b s
  | .sra d a b => Sys2Proof.Machine.execSra d a b s
  | .slt d a b => Sys2Proof.Machine.execSlt d a b s
  | .sltn d a b => Sys2Proof.Machine.execSltn d a b s
  | .min d a b => Sys2Proof.Machine.execMin d a b s
  | .max d a b => Sys2Proof.Machine.execMax d a b s
  | .minn d a b => Sys2Proof.Machine.execMinn d a b s
  | .maxn d a b => Sys2Proof.Machine.execMaxn d a b s
  | .clz d a => Sys2Proof.Machine.execClz d a s
  | .ctz d a => Sys2Proof.Machine.execCtz d a s
  | .popc d a => Sys2Proof.Machine.execPopc d a s
  | .addi d a imm => Sys2Proof.Machine.execAddi d a imm s
  | .andi d a imm => Sys2Proof.Machine.execAndi d a imm s
  | .ori d a imm => Sys2Proof.Machine.execOri d a imm s
  | .xori d a imm => Sys2Proof.Machine.execXori d a imm s
  | .slli d a sc => Sys2Proof.Machine.execSlli d a sc s
  | .srli d a sc => Sys2Proof.Machine.execSrli d a sc s
  | .srai d a sc => Sys2Proof.Machine.execSrai d a sc s
  | .slti d a imm => Sys2Proof.Machine.execSlti d a imm s
  | .lui d imm => Sys2Proof.Machine.execLui d imm s
  | .auipc d imm => Sys2Proof.Machine.execAuipc d imm s
  | .mul d a b => Sys2Proof.Machine.execMul d a b s
  | .mulh d a b => Sys2Proof.Machine.execMulh d a b s
  | .mulhn d a b => Sys2Proof.Machine.execMulhn d a b s
  | .div d a b => Sys2Proof.Machine.execDiv d a b s
  | .divn d a b => Sys2Proof.Machine.execDivn d a b s
  | .rem d a b => Sys2Proof.Machine.execRem d a b s
  | .remn d a b => Sys2Proof.Machine.execRemn d a b s
  | .ldS8 d a imm => Sys2Proof.Machine.execLdS8 d a imm s
  | .ldN8 d a imm => Sys2Proof.Machine.execLdN8 d a imm s
  | .ldS16 d a imm => Sys2Proof.Machine.execLdS16 d a imm s
  | .ldN16 d a imm => Sys2Proof.Machine.execLdN16 d a imm s
  | .ldS32 d a imm => Sys2Proof.Machine.execLdS32 d a imm s
  | .ldN32 d a imm => Sys2Proof.Machine.execLdN32 d a imm s
  | .ld64 d a imm => Sys2Proof.Machine.execLd64 d a imm s
  | .st8 d a imm => Sys2Proof.Machine.execSt8 d a imm s
  | .st16 d a imm => Sys2Proof.Machine.execSt16 d a imm s
  | .st32 d a imm => Sys2Proof.Machine.execSt32 d a imm s
  | .st64 d a imm => Sys2Proof.Machine.execSt64 d a imm s
  | .amoAdd d a b w sc q l => Sys2Proof.Machine.execAmoAdd d a b w sc q l s
  | .amoAnd d a b w sc q l => Sys2Proof.Machine.execAmoAnd d a b w sc q l s
  | .amoOr d a b w sc q l => Sys2Proof.Machine.execAmoOr d a b w sc q l s
  | .amoXor d a b w sc q l => Sys2Proof.Machine.execAmoXor d a b w sc q l s
  | .amoMin d a b w sc q l => Sys2Proof.Machine.execAmoMin d a b w sc q l s
  | .amoMinn d a b w sc q l => Sys2Proof.Machine.execAmoMinn d a b w sc q l s
  | .amoMax d a b w sc q l => Sys2Proof.Machine.execAmoMax d a b w sc q l s
  | .amoMaxn d a b w sc q l => Sys2Proof.Machine.execAmoMaxn d a b w sc q l s
  | .amoSwap d a b w sc q l => Sys2Proof.Machine.execAmoSwap d a b w sc q l s
  | .cas d a b w sc q l => Sys2Proof.Machine.execCas d a b w sc q l s
  | .fadd d a b p m => Sys2Proof.Machine.execFadd d a b p m s
  | .fsub d a b p m => Sys2Proof.Machine.execFsub d a b p m s
  | .fmul d a b p m => Sys2Proof.Machine.execFmul d a b p m s
  | .fma d a b p m => Sys2Proof.Machine.execFma d a b p m s
  | .fdiv d a b p m => Sys2Proof.Machine.execFdiv d a b p m s
  | .fsqrt d a p m => Sys2Proof.Machine.execFsqrt d a p m s
  | .fmin d a b p => Sys2Proof.Machine.execFmin d a b p s
  | .fmax d a b p => Sys2Proof.Machine.execFmax d a b p s
  | .fcmpEq d a b p => Sys2Proof.Machine.execFcmpEq d a b p s
  | .fcmpLt d a b p => Sys2Proof.Machine.execFcmpLt d a b p s
  | .fcmpLe d a b p => Sys2Proof.Machine.execFcmpLe d a b p s
  | .fcmpUn d a b p => Sys2Proof.Machine.execFcmpUn d a b p s
  | .fcvtTos64 d a p m => Sys2Proof.Machine.execFcvtTos64 d a p m s
  | .fcvtTon64 d a p m => Sys2Proof.Machine.execFcvtTon64 d a p m s
  | .fcvtFroms64 d a p m => Sys2Proof.Machine.execFcvtFroms64 d a p m s
  | .fcvtFromn64 d a p m => Sys2Proof.Machine.execFcvtFromn64 d a p m s
  | .fcvtTofp d a p m => Sys2Proof.Machine.execFcvtTofp d a p m s
  | .fcvtTos32 d a p m => Sys2Proof.Machine.execFcvtTos32 d a p m s
  | .fcvtTon32 d a p m => Sys2Proof.Machine.execFcvtTon32 d a p m s
  | .bEq a b imm => Sys2Proof.Machine.execBEq a b imm s
  | .bNe a b imm => Sys2Proof.Machine.execBNe a b imm s
  | .bLt a b imm => Sys2Proof.Machine.execBLt a b imm s
  | .bGe a b imm => Sys2Proof.Machine.execBGe a b imm s
  | .bLtn a b imm => Sys2Proof.Machine.execBLtn a b imm s
  | .bGen a b imm => Sys2Proof.Machine.execBGen a b imm s
  | .bBs a b imm => Sys2Proof.Machine.execBBs a b imm s
  | .bBc a b imm => Sys2Proof.Machine.execBBc a b imm s
  | .j imm => Sys2Proof.Machine.execJ imm s
  | .jal imm => Sys2Proof.Machine.execJal imm s
  | .jalr d a imm => Sys2Proof.Machine.execJalr d a imm s
  | .trap c => Sys2Proof.Machine.execTrap c s
  | .eret => Sys2Proof.Machine.execEret s
  | .brk => Sys2Proof.Machine.execBrk s
  | .halt => Sys2Proof.Machine.execHalt s
  | .wfe d a b => Sys2Proof.Machine.execWfe d a b s
  | .sysget d h n => Sys2Proof.Machine.execSysget d h n s
  | .sysput a h n => Sys2Proof.Machine.execSysput a h n s
  | .fenceAcq sc r => Sys2Proof.Machine.execFenceAcq sc r s
  | .fenceRel sc e => Sys2Proof.Machine.execFenceRel sc e s
  | .fenceSv => Sys2Proof.Machine.execFenceSv s
  | .fenceFull sc r e => Sys2Proof.Machine.execFenceFull sc r e s
  | .lsync => Sys2Proof.Machine.execLsync s
  | .invR a b => Sys2Proof.Machine.execInvR a b s
  | .invRo => Sys2Proof.Machine.execInvRo s
  | .fork d a b => Sys2Proof.Machine.execFork d a b s
  | .join d a b => Sys2Proof.Machine.execJoin d a b s
  | .vrelease => Sys2Proof.Machine.execVrelease s
  | .vacquire d a => Sys2Proof.Machine.execVacquire d a s
  | .gbar d a => Sys2Proof.Machine.execGbar d a s
  | .launch d a => Sys2Proof.Machine.execLaunch d a s
  | .yield => Sys2Proof.Machine.execYield s
  | .cpNd d a g f => Sys2Proof.Machine.execCpNd d a g f s
  | .cpMc d a g f => Sys2Proof.Machine.execCpMc d a g f s
  | .cpWait d a => Sys2Proof.Machine.execCpWait d a s
  | .cpBind d a b => Sys2Proof.Machine.execCpBind d a b s
  | .barInit a b => Sys2Proof.Machine.execBarInit a b s
  | .barArrive d a b => Sys2Proof.Machine.execBarArrive d a b s
  | .barWait d a b => Sys2Proof.Machine.execBarWait d a b s
  | .zbind d a => Sys2Proof.Machine.execZbind d a s
  | .zrd d a => Sys2Proof.Machine.execZrd d a s
  | .zpeek d a => Sys2Proof.Machine.execZpeek d a s
  | .zsave d a => Sys2Proof.Machine.execZsave d a s
  | .zrest d a => Sys2Proof.Machine.execZrest d a s
  | .zloop a b => Sys2Proof.Machine.execZloop a b s
  | .plOpen d a b => Sys2Proof.Machine.execPlOpen d a b s
  | .plTerm d a b => Sys2Proof.Machine.execPlTerm d a b s
  | .plRun d a => Sys2Proof.Machine.execPlRun d a s
  | .plProbe d a => Sys2Proof.Machine.execPlProbe d a s
  | .plStat d a b => Sys2Proof.Machine.execPlStat d a b s
  | .tkInit d a b => Sys2Proof.Machine.execTkInit d a b s
  | .tkIns d a b => Sys2Proof.Machine.execTkIns d a b s
  | .tkFuse d a b => Sys2Proof.Machine.execTkFuse d a b s
  | .tkDrain d a b => Sys2Proof.Machine.execTkDrain d a b s
  | .tkThr d a b => Sys2Proof.Machine.execTkThr d a b s
  | .pyLd d a b => Sys2Proof.Machine.execPyLd d a b s
  | .pyLdv d a b => Sys2Proof.Machine.execPyLdv d a b s
  | .pyApp d a b => Sys2Proof.Machine.execPyApp d a b s
  | .pyDef d a => Sys2Proof.Machine.execPyDef d a s
  | .pyComb d a b => Sys2Proof.Machine.execPyComb d a b s
  | .pyStat d a b => Sys2Proof.Machine.execPyStat d a b s
  | .pyResume d a => Sys2Proof.Machine.execPyResume d a s
  | .vsetl d a => Sys2Proof.Machine.execVsetl d a s
  | .vsett d a b => Sys2Proof.Machine.execVsett d a b s
  | .vaddVv d a b k t c => Sys2Proof.Machine.execVaddVv d a b k t c s
  | .vsubVv d a b k t c => Sys2Proof.Machine.execVsubVv d a b k t c s
  | .vrsubVv d a b k t c => Sys2Proof.Machine.execVrsubVv d a b k t c s
  | .vmulVv d a b k t c => Sys2Proof.Machine.execVmulVv d a b k t c s
  | .vmulhVv d a b k t c => Sys2Proof.Machine.execVmulhVv d a b k t c s
  | .vmaccVv d a b k t c => Sys2Proof.Machine.execVmaccVv d a b k t c s
  | .vminVv d a b k t c => Sys2Proof.Machine.execVminVv d a b k t c s
  | .vmaxVv d a b k t c => Sys2Proof.Machine.execVmaxVv d a b k t c s
  | .vandVv d a b k t c => Sys2Proof.Machine.execVandVv d a b k t c s
  | .vorVv d a b k t c => Sys2Proof.Machine.execVorVv d a b k t c s
  | .vxorVv d a b k t c => Sys2Proof.Machine.execVxorVv d a b k t c s
  | .vsllVv d a b k t c => Sys2Proof.Machine.execVsllVv d a b k t c s
  | .vsrlVv d a b k t c => Sys2Proof.Machine.execVsrlVv d a b k t c s
  | .vsraVv d a b k t c => Sys2Proof.Machine.execVsraVv d a b k t c s
  | .vadcVv d a b k c => Sys2Proof.Machine.execVadcVv d a b k c s
  | .vsbcVv d a b k c => Sys2Proof.Machine.execVsbcVv d a b k c s
  | .vsaddVv d a b k t c => Sys2Proof.Machine.execVsaddVv d a b k t c s
  | .vssubVv d a b k t c => Sys2Proof.Machine.execVssubVv d a b k t c s
  | .vaddVx d a b k t c => Sys2Proof.Machine.execVaddVx d a b k t c s
  | .vsubVx d a b k t c => Sys2Proof.Machine.execVsubVx d a b k t c s
  | .vrsubVx d a b k t c => Sys2Proof.Machine.execVrsubVx d a b k t c s
  | .vmulVx d a b k t c => Sys2Proof.Machine.execVmulVx d a b k t c s
  | .vmulhVx d a b k t c => Sys2Proof.Machine.execVmulhVx d a b k t c s
  | .vmaccVx d a b k t c => Sys2Proof.Machine.execVmaccVx d a b k t c s
  | .vminVx d a b k t c => Sys2Proof.Machine.execVminVx d a b k t c s
  | .vmaxVx d a b k t c => Sys2Proof.Machine.execVmaxVx d a b k t c s
  | .vandVx d a b k t c => Sys2Proof.Machine.execVandVx d a b k t c s
  | .vorVx d a b k t c => Sys2Proof.Machine.execVorVx d a b k t c s
  | .vxorVx d a b k t c => Sys2Proof.Machine.execVxorVx d a b k t c s
  | .vsllVx d a b k t c => Sys2Proof.Machine.execVsllVx d a b k t c s
  | .vsrlVx d a b k t c => Sys2Proof.Machine.execVsrlVx d a b k t c s
  | .vsraVx d a b k t c => Sys2Proof.Machine.execVsraVx d a b k t c s
  | .vadcVx d a b k c => Sys2Proof.Machine.execVadcVx d a b k c s
  | .vsbcVx d a b k c => Sys2Proof.Machine.execVsbcVx d a b k c s
  | .vsaddVx d a b k t c => Sys2Proof.Machine.execVsaddVx d a b k t c s
  | .vssubVx d a b k t c => Sys2Proof.Machine.execVssubVx d a b k t c s
  | .vaddVi d a imm k t c => Sys2Proof.Machine.execVaddVi d a imm k t c s
  | .vsubVi d a imm k t c => Sys2Proof.Machine.execVsubVi d a imm k t c s
  | .vrsubVi d a imm k t c => Sys2Proof.Machine.execVrsubVi d a imm k t c s
  | .vmulVi d a imm k t c => Sys2Proof.Machine.execVmulVi d a imm k t c s
  | .vmulhVi d a imm k t c => Sys2Proof.Machine.execVmulhVi d a imm k t c s
  | .vmaccVi d a imm k t c => Sys2Proof.Machine.execVmaccVi d a imm k t c s
  | .vminVi d a imm k t c => Sys2Proof.Machine.execVminVi d a imm k t c s
  | .vmaxVi d a imm k t c => Sys2Proof.Machine.execVmaxVi d a imm k t c s
  | .vandVi d a imm k t c => Sys2Proof.Machine.execVandVi d a imm k t c s
  | .vorVi d a imm k t c => Sys2Proof.Machine.execVorVi d a imm k t c s
  | .vxorVi d a imm k t c => Sys2Proof.Machine.execVxorVi d a imm k t c s
  | .vsllVi d a imm k t c => Sys2Proof.Machine.execVsllVi d a imm k t c s
  | .vsrlVi d a imm k t c => Sys2Proof.Machine.execVsrlVi d a imm k t c s
  | .vsraVi d a imm k t c => Sys2Proof.Machine.execVsraVi d a imm k t c s
  | .vadcVi d a imm k c => Sys2Proof.Machine.execVadcVi d a imm k c s
  | .vsbcVi d a imm k c => Sys2Proof.Machine.execVsbcVi d a imm k c s
  | .vsaddVi d a imm k t c => Sys2Proof.Machine.execVsaddVi d a imm k t c s
  | .vssubVi d a imm k t c => Sys2Proof.Machine.execVssubVi d a imm k t c s
  | .vfaddVv d a b k t c => Sys2Proof.Machine.execVfaddVv d a b k t c s
  | .vfsubVv d a b k t c => Sys2Proof.Machine.execVfsubVv d a b k t c s
  | .vfmulVv d a b k t c => Sys2Proof.Machine.execVfmulVv d a b k t c s
  | .vfmaVv d a b k t c => Sys2Proof.Machine.execVfmaVv d a b k t c s
  | .vfmsVv d a b k t c => Sys2Proof.Machine.execVfmsVv d a b k t c s
  | .vfdivVv d a b k t c => Sys2Proof.Machine.execVfdivVv d a b k t c s
  | .vfsqrt d a k t c => Sys2Proof.Machine.execVfsqrt d a k t c s
  | .vfminVv d a b k t c => Sys2Proof.Machine.execVfminVv d a b k t c s
  | .vfmaxVv d a b k t c => Sys2Proof.Machine.execVfmaxVv d a b k t c s
  | .vfclass d a k t c => Sys2Proof.Machine.execVfclass d a k t c s
  | .vfrcpe d a k t c => Sys2Proof.Machine.execVfrcpe d a k t c s
  | .vfaddVx d a b k t c => Sys2Proof.Machine.execVfaddVx d a b k t c s
  | .vfsubVx d a b k t c => Sys2Proof.Machine.execVfsubVx d a b k t c s
  | .vfmulVx d a b k t c => Sys2Proof.Machine.execVfmulVx d a b k t c s
  | .vfmaVx d a b k t c => Sys2Proof.Machine.execVfmaVx d a b k t c s
  | .vfmsVx d a b k t c => Sys2Proof.Machine.execVfmsVx d a b k t c s
  | .vfdivVx d a b k t c => Sys2Proof.Machine.execVfdivVx d a b k t c s
  | .vfminVx d a b k t c => Sys2Proof.Machine.execVfminVx d a b k t c s
  | .vfmaxVx d a b k t c => Sys2Proof.Machine.execVfmaxVx d a b k t c s
  | .vcmpEqVv d a b k t c => Sys2Proof.Machine.execVcmpEqVv d a b k t c s
  | .vcmpNeVv d a b k t c => Sys2Proof.Machine.execVcmpNeVv d a b k t c s
  | .vcmpLtVv d a b k t c => Sys2Proof.Machine.execVcmpLtVv d a b k t c s
  | .vcmpLeVv d a b k t c => Sys2Proof.Machine.execVcmpLeVv d a b k t c s
  | .vcmpGtVv d a b k t c => Sys2Proof.Machine.execVcmpGtVv d a b k t c s
  | .vcmpGeVv d a b k t c => Sys2Proof.Machine.execVcmpGeVv d a b k t c s
  | .vfcmpEqVv d a b k t c => Sys2Proof.Machine.execVfcmpEqVv d a b k t c s
  | .vfcmpNeVv d a b k t c => Sys2Proof.Machine.execVfcmpNeVv d a b k t c s
  | .vfcmpLtVv d a b k t c => Sys2Proof.Machine.execVfcmpLtVv d a b k t c s
  | .vfcmpLeVv d a b k t c => Sys2Proof.Machine.execVfcmpLeVv d a b k t c s
  | .vcmpEqVx d a b k t c => Sys2Proof.Machine.execVcmpEqVx d a b k t c s
  | .vcmpNeVx d a b k t c => Sys2Proof.Machine.execVcmpNeVx d a b k t c s
  | .vcmpLtVx d a b k t c => Sys2Proof.Machine.execVcmpLtVx d a b k t c s
  | .vcmpLeVx d a b k t c => Sys2Proof.Machine.execVcmpLeVx d a b k t c s
  | .vcmpGtVx d a b k t c => Sys2Proof.Machine.execVcmpGtVx d a b k t c s
  | .vcmpGeVx d a b k t c => Sys2Proof.Machine.execVcmpGeVx d a b k t c s
  | .vfcmpEqVx d a b k t c => Sys2Proof.Machine.execVfcmpEqVx d a b k t c s
  | .vfcmpNeVx d a b k t c => Sys2Proof.Machine.execVfcmpNeVx d a b k t c s
  | .vfcmpLtVx d a b k t c => Sys2Proof.Machine.execVfcmpLtVx d a b k t c s
  | .vfcmpLeVx d a b k t c => Sys2Proof.Machine.execVfcmpLeVx d a b k t c s
  | .kand d a b => Sys2Proof.Machine.execKand d a b s
  | .kor d a b => Sys2Proof.Machine.execKor d a b s
  | .kxor d a b => Sys2Proof.Machine.execKxor d a b s
  | .knot d a => Sys2Proof.Machine.execKnot d a s
  | .kshl1 d a => Sys2Proof.Machine.execKshl1 d a s
  | .kshr1 d a => Sys2Proof.Machine.execKshr1 d a s
  | .kpopc d a => Sys2Proof.Machine.execKpopc d a s
  | .kfirst d a => Sys2Proof.Machine.execKfirst d a s
  | .kmv d a => Sys2Proof.Machine.execKmv d a s
  | .vmerge d a b k t c => Sys2Proof.Machine.execVmerge d a b k t c s
  | .vbcast d b k t c => Sys2Proof.Machine.execVbcast d b k t c s
  | .vslideup d a b k t c => Sys2Proof.Machine.execVslideup d a b k t c s
  | .vslidedn d a b k t c => Sys2Proof.Machine.execVslidedn d a b k t c s
  | .vrgather d a b k t c => Sys2Proof.Machine.execVrgather d a b k t c s
  | .vcompress d a k t c => Sys2Proof.Machine.execVcompress d a k t c s
  | .vexpand d a k t c => Sys2Proof.Machine.execVexpand d a k t c s
  | .vpermblk d a b t c => Sys2Proof.Machine.execVpermblk d a b t c s
  | .vredSum d a b k t c => Sys2Proof.Machine.execVredSum d a b k t c s
  | .vredOsum d a b k t c => Sys2Proof.Machine.execVredOsum d a b k t c s
  | .vredMax d a b k t c => Sys2Proof.Machine.execVredMax d a b k t c s
  | .vredMin d a b k t c => Sys2Proof.Machine.execVredMin d a b k t c s
  | .vredAnd d a b k t c => Sys2Proof.Machine.execVredAnd d a b k t c s
  | .vredOr d a b k t c => Sys2Proof.Machine.execVredOr d a b k t c s
  | .vstrip d a b k => Sys2Proof.Machine.execVstrip d a b k s
  | .vcvt d a b k t sc c => Sys2Proof.Machine.execVcvt d a b k t sc c s
  | .vwiden d a b k t c => Sys2Proof.Machine.execVwiden d a b k t c s
  | .vnarrow d a b k t sc c => Sys2Proof.Machine.execVnarrow d a b k t sc c s
  | .vld d a k t c => Sys2Proof.Machine.execVld d a k t c s
  | .vlds d a b k t c => Sys2Proof.Machine.execVlds d a b k t c s
  | .vldz d a b q c => Sys2Proof.Machine.execVldz d a b q c s
  | .vldb d a b t c => Sys2Proof.Machine.execVldb d a b t c s
  | .vst d a k t c => Sys2Proof.Machine.execVst d a k t c s
  | .vsts d a b k t c => Sys2Proof.Machine.execVsts d a b k t c s
  | .vstb d a b t c => Sys2Proof.Machine.execVstb d a b t c s
  | .vldx d a b k t w c => Sys2Proof.Machine.execVldx d a b k t w c s
  | .vldc d a b k t w c => Sys2Proof.Machine.execVldc d a b k t w c s
  | .vstxO d a b k t w c => Sys2Proof.Machine.execVstxO d a b k t w c s
  | .vstxU d a b k t w c => Sys2Proof.Machine.execVstxU d a b k t w c s
  | .vstc d a b k t w c => Sys2Proof.Machine.execVstc d a b k t w c s
  | .vgll d a b k t => Sys2Proof.Machine.execVgll d a b k t s
  | .vscc d a b k t => Sys2Proof.Machine.execVscc d a b k t s
  | .vlock d a b k => Sys2Proof.Machine.execVlock d a b k s
  | .vunlock a b k => Sys2Proof.Machine.execVunlock a b k s
  | .winDecl a b => Sys2Proof.Machine.execWinDecl a b s
  | .vscaddWin d b k => Sys2Proof.Machine.execVscaddWin d b k s
  | .winMerge sc => Sys2Proof.Machine.execWinMerge sc s
  | .vscadd d a b k t sc => Sys2Proof.Machine.execVscadd d a b k t sc s
  | .crDecl o r a b => Sys2Proof.Machine.execCrDecl o r a b s
  | .crDrop r => Sys2Proof.Machine.execCrDrop r s
  | .vmv d a k c => Sys2Proof.Machine.execVmv d a k c s
  | .vmvS d b c => Sys2Proof.Machine.execVmvS d b c s
  | .vext d a b c => Sys2Proof.Machine.execVext d a b c s
  | .qput d a => Sys2Proof.Machine.execQput d a s
  | .qget d a => Sys2Proof.Machine.execQget d a s
  | .mattach r => Sys2Proof.Machine.execMattach r s
  | .mdetach => Sys2Proof.Machine.execMdetach s
  | .oClaim f n => Sys2Proof.Machine.execOClaim f n s
  | .oRelease f n => Sys2Proof.Machine.execORelease f n s
  | .mzero t => Sys2Proof.Machine.execMzero t s
  | .mfmt t a b x y => Sys2Proof.Machine.execMfmt t a b x y s
  | .mskip t r => Sys2Proof.Machine.execMskip t r s
  | .mop t a b k z c => Sys2Proof.Machine.execMop t a b k z c s
  | .mopStepEnd h => Sys2Proof.Machine.execMopStepEnd h s
  | .msliceRd t r v c => Sys2Proof.Machine.execMsliceRd t r v c s
  | .msliceWr t r v c => Sys2Proof.Machine.execMsliceWr t r v c s
  | .msliceRdExp t r v c => Sys2Proof.Machine.execMsliceRdExp t r v c s
  | .mld sc r b => Sys2Proof.Machine.execMld sc r b s
  | .mldP sc r b => Sys2Proof.Machine.execMldP sc r b s
  | .mst t r b => Sys2Proof.Machine.execMst t r b s
  | .issueArbitration core => Sys2Proof.Machine.execIssueArbitration core s
  | .yieldExpiry h => Sys2Proof.Machine.execYieldExpiry h s
  | .wfeWake h => Sys2Proof.Machine.execWfeWake h s
  | .wfeTimeout h => Sys2Proof.Machine.execWfeTimeout h s
  | .vacquireGrant h => Sys2Proof.Machine.execVacquireGrant h s
  | .quadReservationTimeout core => Sys2Proof.Machine.execQuadReservationTimeout core s
  | .ssbDrain h => Sys2Proof.Machine.execSsbDrain h s
  | .psfDrain h q => Sys2Proof.Machine.execPsfDrain h q s
  | .cpfDrain h c => Sys2Proof.Machine.execCpfDrain h c s
  | .ownerLostTrap h => Sys2Proof.Machine.execOwnerLostTrap h s
  | .l1Eviction core line => Sys2Proof.Machine.execL1Eviction core line s
  | .sliceEviction line => Sys2Proof.Machine.execSliceEviction line s
  | .controllerWriteIssue chan => Sys2Proof.Machine.execControllerWriteIssue chan s
  | .linkDelivery module => Sys2Proof.Machine.execLinkDelivery module s
  | .rd n => Sys2Proof.Machine.execRd n s
  | .rdv n => Sys2Proof.Machine.execRdv n s
  | .reg n => Sys2Proof.Machine.execReg n s
  | .wrv n => Sys2Proof.Machine.execWrv n s
  | .atom n => Sys2Proof.Machine.execAtom n s
  | .ereg n => Sys2Proof.Machine.execEreg n s
  | .ewr h token => Sys2Proof.Machine.execEwr h token s
  | .gnt n => Sys2Proof.Machine.execGnt n s
  | .xfer n => Sys2Proof.Machine.execXfer n s
  | .fwd n => Sys2Proof.Machine.execFwd n s
  | .nakl n => Sys2Proof.Machine.execNakl n s
  | .collect n => Sys2Proof.Machine.execCollect n s
  | .claim n => Sys2Proof.Machine.execClaim n s
  | .wb n => Sys2Proof.Machine.execWb n s
  | .xack n => Sys2Proof.Machine.execXack n s
  | .fack n => Sys2Proof.Machine.execFack n s
  | .part n => Sys2Proof.Machine.execPart n s
  | .claimr n => Sys2Proof.Machine.execClaimr n s
  | .combineBufferEviction cluster => Sys2Proof.Machine.execCombineBufferEviction cluster s
  | .copyEnd h token => Sys2Proof.Machine.execCopyEnd h token s
  | .globalPauseEnd => Sys2Proof.Machine.execGlobalPauseEnd s
  | .riddleOffer cluster session => Sys2Proof.Machine.execRiddleOffer cluster session s
  | .riddleRunEnd cluster session => Sys2Proof.Machine.execRiddleRunEnd cluster session s
  | .probeEnd cluster session => Sys2Proof.Machine.execProbeEnd cluster session s
  | .annealOperationStart au => Sys2Proof.Machine.execAnnealOperationStart au s
  | .mergePublication hdr => Sys2Proof.Machine.execMergePublication hdr s
  | .horizonDiscard hdr => Sys2Proof.Machine.execHorizonDiscard hdr s
  | .mergeAbandon hdr => Sys2Proof.Machine.execMergeAbandon hdr s
  | .crucibleSlotTick core => Sys2Proof.Machine.execCrucibleSlotTick core s
  | .skipCurAdjust h cur => Sys2Proof.Machine.execSkipCurAdjust h cur s
  | .startCounterReread part queue => Sys2Proof.Machine.execStartCounterReread part queue s
  | .startCounterPollTimeout part queue => Sys2Proof.Machine.execStartCounterPollTimeout part queue s
  | .taskPlacement part => Sys2Proof.Machine.execTaskPlacement part s
  | .hartStart h => Sys2Proof.Machine.execHartStart h s
  | .hartStop h => Sys2Proof.Machine.execHartStop h s
  | .coreSaveBegin task core => Sys2Proof.Machine.execCoreSaveBegin task core s
  | .coreSaveComplete task core => Sys2Proof.Machine.execCoreSaveComplete task core s
  | .restoreComplete task => Sys2Proof.Machine.execRestoreComplete task s
  | .taskEnd task => Sys2Proof.Machine.execTaskEnd task s
  | .pageFaultResolved h ok => Sys2Proof.Machine.execPageFaultResolved h ok s
  | .submit part slot => Sys2Proof.Machine.execSubmit part slot s
  | .faultpop part => Sys2Proof.Machine.execFaultpop part s
  | .resolve part w => Sys2Proof.Machine.execResolve part w s
  | .postpop => Sys2Proof.Machine.execPostpop s
  | .answer w => Sys2Proof.Machine.execAnswer w s
  | .errpop => Sys2Proof.Machine.execErrpop s
  | .verdict w => Sys2Proof.Machine.execVerdict w s
  | .eventpop => Sys2Proof.Machine.execEventpop s
  | .registerWrite win off w => Sys2Proof.Machine.execRegisterWrite win off w s
  | .hostWrite off len w => Sys2Proof.Machine.execHostWrite off len w s
  | .hostRead off len => Sys2Proof.Machine.execHostRead off len s
  | .saveAreaAccess off wr => Sys2Proof.Machine.execSaveAreaAccess off wr s
  | .partdef slot => Sys2Proof.Machine.execPartdef slot s
  | .ptroot slot => Sys2Proof.Machine.execPtroot slot s
  | .vmap slot => Sys2Proof.Machine.execVmap slot s
  | .shoot slot => Sys2Proof.Machine.execShoot slot s
  | .slottab slot => Sys2Proof.Machine.execSlottab slot s
  | .mode slot => Sys2Proof.Machine.execMode slot s
  | .savearea slot => Sys2Proof.Machine.execSavearea slot s
  | .saveopen slot => Sys2Proof.Machine.execSaveopen slot s
  | .guardtab slot => Sys2Proof.Machine.execGuardtab slot s
  | .kex slot => Sys2Proof.Machine.execKex slot s
  | .key slot => Sys2Proof.Machine.execKey slot s
  | .winbind slot => Sys2Proof.Machine.execWinbind slot s
  | .task slot => Sys2Proof.Machine.execTask slot s
  | .clearlost slot => Sys2Proof.Machine.execClearlost slot s
  | .race slot => Sys2Proof.Machine.execRace slot s
  | .peer slot => Sys2Proof.Machine.execPeer slot s
  | .errorDetected er what => Sys2Proof.Machine.execErrorDetected er what s
  | .selfTestComplete er failed spare => Sys2Proof.Machine.execSelfTestComplete er failed spare s
  | .flitReplay link => Sys2Proof.Machine.execFlitReplay link s
  | .remoteAccessTimeout module => Sys2Proof.Machine.execRemoteAccessTimeout module s
  | .reset image => Sys2Proof.Machine.execReset image s
  | .bootWatchdogExpiry n => Sys2Proof.Machine.execBootWatchdogExpiry n s
  | .illegalWord w => Sys2Proof.Machine.execIllegalWord w s
  | .fetchFault => Sys2Proof.Machine.execFetchFault s
  | .engineWrite h token => Sys2Proof.Machine.execEngineWrite h token s
  | .remoteRequest module pa op => Sys2Proof.Machine.execRemoteRequest module pa op s
  | .linkDown module => Sys2Proof.Machine.execLinkDown module s
  | .linkRetrainComplete link => Sys2Proof.Machine.execLinkRetrainComplete link s
  | .malformedCommand slot => Sys2Proof.Machine.execMalformedCommand slot s

end Sys2Proof.Machine
end

