-- ==== Sys2Proof/Machine/Step.lean ====
section
/-! DEFINITION. One step of the machine: a device step that the inputs name; or, for the hart that holds the next issue
opportunity, OWNER_LOST for a lost store or its next instruction; or, with neither, what comes next on its own, in turn: the core
arbiters' choice of opportunities (R270), the vector streams (R271), device steps, harts whose data may have come, and host accesses that
wait. -/
namespace Sys2Proof.Machine

/-- A cycle passes, and the free values move on. -/
def tick (s : State) : State := { s with env := { s.env with free := s.env.free + 1, cycle := s.env.cycle + 1 } }

/-- Run an instruction that the scalar pipe fetched. -/
noncomputable def scalarStep (s : State) : Out :=
  match s.fetch with
  | (.fault _, _) => exec .fetchFault s
  | (.wait, _) => .next (s.waitFor .memory)
  | (.word w, t) =>
    match decodeWord w with
    | some i => exec i t
    | none => exec (.illegalWord w) t

/-- The vector stream of the hart issues the head of its queue. -/
noncomputable def vectorStep (s : State) : Out :=
  match s.hart.vs.vq with
  | [] => .next s
  | e :: _ =>
    match decodeWord e.word with
    | some i => exec i (s.issuing e)
    | none => .next s

/-- The hart whose turn it is takes an issue opportunity (R269): OWNER_LOST for a lost store, or one scalar instruction. -/
noncomputable def hartStep (s : State) : Out :=
  if s.hart.status ≠ .running then .next s
  else if (s.ownerLostDue s.hart).isSome then exec (.ownerLostTrap s.hart.id) s
  else scalarStep s

/-! ### What comes next on its own -/

/-- The hart whose turn it is would only wait: its step leaves everything but its wait and its core's caches as it was. -/
noncomputable def State.onlyWaits (s : State) : Bool :=
  match hartStep s with
  | .next t => t.hart.wait.isSome && decide ({ t with hart := { t.hart with wait := s.hart.wait }, cores := s.cores } = s)
  | _ => false

/-- What a hart waits for from now on, if its next instruction would only wait: it waits in that instruction with no issue slot (R269).
Data on their way are asked for with an opportunity. -/
noncomputable def State.waitOf (s : State) (h : Hart) : Option Wait :=
  match hartStep (s.turnTo h.id) with
  | .next t => if t.hart.wait = some .memory then h.wait else t.hart.wait
  | _ => h.wait

/-- Which harts are ready (R269): those whose next instruction would execute, push, or begin; the others wait in it. -/
noncomputable def State.markReady (s : State) : State :=
  s.onHarts (fun h => h.status == .running) fun h =>
    if h.polled then { h with sc := { h.sc with ready := false } }
    else if (s.turnTo h.id).onlyWaits then { h with wait := s.waitOf h, sc := { h.sc with ready := false } }
    else { h with sc := { h.sc with ready := true } }

/-- The first device step of a list that changes something. -/
noncomputable def firstChange (s : State) : List Instr → Option Out
  | [] => none
  | e :: r =>
    match exec e s with
    | .next t => if t = s then firstChange s r else some (.next t)
    | o => some o

/-- The step of a command: that of the OP in its slot. -/
noncomputable def commandStep (slot : Nat) : Nat → Instr
  | 1 => .partdef slot | 2 => .ptroot slot | 3 => .vmap slot | 4 => .shoot slot | 5 => .slottab slot | 6 => .mode slot
  | 7 => .savearea slot | 8 => .saveopen slot | 9 => .guardtab slot | 10 => .kex slot | 11 => .key slot | 12 => .winbind slot
  | 13 => .task slot | 14 => .clearlost slot | 15 => .race slot | 16 => .peer slot | _ => .malformedCommand slot

/-- The step that tries an access again. -/
noncomputable def State.accessStep (s : State) : HostAccess → Instr
  | .write off len w => .hostWrite off len w
  | .read off len => .hostRead off len
  | .save off wr => .saveAreaAccess off wr
  | .submit part slot => .submit part slot
  | .command slot => commandStep slot (cOp (s.commandRecord slot))
  | .remote module pa op => .remoteRequest module pa op

/-- What waits in an order is tried again, the first of it (R354, R355, R357). -/
noncomputable def State.retryHost (s : State) (order : Nat) : Option Out :=
  (s.sys.waiting.find? (·.1 == order)).map fun x => exec (s.accessStep x.2) { s with env := { s.env with again := true } }

/-- What comes next on its own, by kind: 0 an arbiter, 1 a vector stream, 2 a device step, 3 a hart whose data may have come, 4 a host
access that waits. -/
noncomputable def ownStep (s : State) : Nat → Option Out
  | 0 => let m := s.markReady; m.readyCore.map fun c => exec (.issueArbitration c) m
  | 1 => (s.turnOf s.vectorReady).map fun h => vectorStep (s.turnTo h)
  | 2 => firstChange s (turnList s.deviceSteps (s.env.turn / 5))
  | 3 => (s.turnOf (·.polled)).map fun h => hartStep (s.turnTo h)
  | _ => s.waitingOrders.head?.bind s.retryHost

/-- The kinds take turns; a kind with nothing to do gives way to the next. -/
noncomputable def idleStep (s : State) : Out :=
  let t := { s with env := { s.env with turn := s.env.turn + 1 } }
  ((turnList [0, 1, 2, 3, 4] s.env.turn).findSome? (ownStep t)).getD (.next t)

/-- The step a device event takes; a core's arbiter sees which harts are ready. -/
noncomputable def eventStep (e : Instr) (s : State) : Out :=
  match e with
  | .issueArbitration c => exec (.issueArbitration c) s.markReady
  | e => exec e s

/-- One step. -/
noncomputable def step (s : State) : Host.Outcome State Fault Refusal :=
  if s.sys.boot.stopped then .fault .deviceStopped
  else
    let t := tick s
    match t.env.inputs with
    | e :: r => if e.isWord then .refused .notAnEvent else eventStep e { t with env := { t.env with inputs := r } }
    | [] =>
      match t.env.opps with
      | h :: r => hartStep ({ t with env := { t.env with opps := r } }.turnTo h)
      | [] => idleStep t

/-- `s` with an instruction stored where the next step fetches (log entry 11): at the hart's PC when that translates, else
with the hart placed first. -/
def State.withFetchWord (s : State) (nbits w : Nat) : State :=
  let word : IWord := BitVec.ofNat 32 (w % 2 ^ nbits)
  let t := readyToFetch s
  match (if s.hart.status = .running then storeAtPc t word else none) with
  | some u => u
  | none => (storeAtPc (placedForFetch t) word).getD t

end Sys2Proof.Machine
end

