-- ==== Sys2Proof/Safety.lean ====
section
/-! DEFINITION. What a safe run is, and the predicates that the statements are written with: when a word completes at once, what the
element loop writes, and what an instruction leaves as it was. -/
namespace Sys2Proof

/-- The next `n` steps all answer a next state. -/
def SafeFor : Nat → Machine.State → Prop
  | 0, _ => True
  | n + 1, s => ∃ t, Machine.step s = .next t ∧ SafeFor n t

end Sys2Proof

namespace Sys2Proof.Machine

/-! ### Steps -/

/-- The state in which hart `h` takes the issue opportunity that the list names next; `r` is the rest of the list. -/
def State.taking (s : State) (h : Nat) (r : List Nat) : State :=
  ({ tick s with env := { (tick s).env with opps := r } } : State).turnTo h

/-! ### Scalar words -/

/-- Events of a scalar word at the hart's PC, recorded at element 0 (R21, R122). -/
def State.noted (s : State) (e : Ev) : State := s.onHart fun h => { h with fl := recordEvs [(0, e)] h.pc h.fl }

/-- Nothing but x registers, the PC and the bookkeeping of a retirement differs (`wait`, `restart` and the convoy bit). -/
def ScalarOnly (s t : State) : Prop :=
  t = { s with hart := { s.hart with
    x := t.hart.x, pc := t.hart.pc, wait := t.hart.wait, restart := t.hart.restart
    vs := { s.hart.vs with conv := t.hart.vs.conv } } }

/-- Nothing but that, FLAGS with the event registers, and what taking a trap writes differs: the trap registers, the hart's status,
the loop buffer that a trap sets aside, its links and its monitor. -/
def FlagsOnly (s t : State) : Prop :=
  t = { s with
    hart := { s.hart with
      x := t.hart.x, pc := t.hart.pc, wait := t.hart.wait, restart := t.hart.restart, fl := t.hart.fl, tr := t.hart.tr
      status := t.hart.status
      vs := { s.hart.vs with conv := t.hart.vs.conv, loop := t.hart.vs.loop, parkedLoop := t.hart.vs.parkedLoop } }
    coh := { s.coh with links := t.coh.links, monitors := t.coh.monitors } }

/-- Every x register but `d` reads as before. -/
def KeepsX (d : Reg) (s t : State) : Prop := ∀ r : Reg, r ≠ d → t.get r = s.get r

/-- The registers of the hart that no memory access of the scalar pipe changes read as before, whatever the access did to caches,
buffers and translations: vector, mask, queue, stream, format and type state, FLAGS, matrix grant, quads and skip registers. -/
def KeepsOther (s t : State) : Prop :=
  t.hart.v = s.hart.v ∧ t.hart.hdr = s.hart.hdr ∧ t.hart.k = s.hart.k ∧ t.hart.q = s.hart.q ∧ t.hart.z = s.hart.z ∧
  t.hart.f = s.hart.f ∧ t.hart.vr = s.hart.vr ∧ t.hart.fl = s.hart.fl ∧ t.hart.mgrant = s.hart.mgrant ∧
  t.hart.quads = s.hart.quads ∧ t.hart.skipd = s.hart.skipd ∧ t.hart.mhb = s.hart.mhb ∧ t.hart.mhctl = s.hart.mhctl ∧
  t.hart.tk = s.hart.tk ∧ t.others = s.others ∧ t.places = s.places ∧ t.eng = s.eng

/-! ### Memory and fences -/

/-- The `n` bytes at address `a` are aligned bytes from `off` up of the hart's own scratchpad, allocated to its task, without a
recorded error and not under test, and no watchpoint is set (R28, R116, R388). -/
def SpadAt (s : State) (a : Word) (n off : Nat) : Prop :=
  a.toNat = 2 ^ 63 + off ∧ off + n ≤ 2 ^ 21 ∧ off % n = 0 ∧ s.spadOwned s.hart.tk.task s.hart.core off n = true ∧
  s.poisoned (spadKey s.hart.core off) n = false ∧ s.bankTest (spadKey s.hart.core off) = false ∧ s.hart.debug = false

/-- Every byte of memory but the `n` at `key` reads as before. -/
def KeepsBytes (key n : Nat) (s t : State) : Prop := ∀ k, k < key ∨ key + n ≤ k → t.byte k = s.byte k

/-- The instruction retires; no x register, no other register of the hart that the scalar pipe keeps (`KeepsOther`) and no byte of
memory changes. -/
def Retired (s t : State) : Prop :=
  t.hart.pc = s.hart.pc + 4 ∧ (∀ r, t.get r = s.get r) ∧ KeepsOther s t ∧ ∀ k, t.byte k = s.byte k

/-- What a release of a scope waits for is done (R128): the vector queue, the SSB and the FIFOs are empty; with `eng` no engine
operation of the hart is open; at `.sys` no remote write is on its way; at `.clu` and wider the hart has modified no combine-buffer
copy, of its own cluster or of one it has run on before. -/
def Settled (s : State) (sc : Scope) (eng : Bool) : Prop :=
  s.hart.vs.vq = [] ∧ s.hart.ssb = [] ∧ s.hart.fifosEmpty = true ∧ (eng = true → s.engineBusy s.hart = false) ∧
  (sc = .sys → ∀ e ∈ s.coh.egress, ¬ (e.task = s.hart.tk.task ∧ e.hart = s.hart.id)) ∧
  (wideScope sc = true → ∀ b ∈ s.coh.comb, b.partialLine = false → s.hart.id ∉ b.mods)

/-- The hart's L1 has lost its valid-unregistered words, and keeps the registered ones as they are (R302). -/
def SelfInvalidated (s t : State) : Prop :=
  (∀ l ∈ (t.coreAt s.hart.core).l1, l.valid &&& ~~~l.reg = 0#16) ∧
  (∀ l ∈ (s.coreAt s.hart.core).l1, l.reg ≠ 0#16 → ∃ m ∈ (t.coreAt s.hart.core).l1,
    m.line = l.line ∧ m.reg = l.reg ∧ m.dirty = l.dirty ∧ m.data = l.data)

/-- The same for the lines that satisfy `p`; the others stay as they are, but for those that hold nothing. -/
def InvalidatedOn (s t : State) (p : Nat → Prop) : Prop :=
  (∀ l ∈ (t.coreAt s.hart.core).l1, p l.line → l.valid &&& ~~~l.reg = 0#16) ∧
  (∀ l ∈ (s.coreAt s.hart.core).l1, p l.line → l.reg ≠ 0#16 → ∃ m ∈ (t.coreAt s.hart.core).l1,
    m.line = l.line ∧ m.reg = l.reg ∧ m.dirty = l.dirty ∧ m.data = l.data) ∧
  (∀ l ∈ (s.coreAt s.hart.core).l1, ¬ p l.line → l.valid ||| l.reg ||| l.poison ≠ 0#16 → l ∈ (t.coreAt s.hart.core).l1)

/-! ### Numbers (R35 to R38) -/

/-- The number that a finite value is. -/
noncomputable def FVal.num : FVal → ℝ
  | .fin n m e => (if n then -1 else 1) * m * (2 : ℝ) ^ e
  | _ => 0

/-- The place of a value that is no NaN on the extended real line. -/
noncomputable def FVal.ext : FVal → EReal
  | .inf n => if n then ⊥ else ⊤
  | v => (v.num : EReal)

/-- The numbers of at most `p` significant bits; with `lo`, of units no smaller than 2^lo. -/
def OnGrid (p : Nat) (lo : Option Int) (r : ℝ) : Prop :=
  ∃ k q : Int, |k| < 2 ^ p ∧ (∀ l, lo = some l → l ≤ q) ∧ r = k * (2 : ℝ) ^ q

/-- The values of a slot, without an upper limit (R39). -/
def MSlot.grid (a : MSlot) (r : ℝ) : Prop :=
  if a.e = 0 then ∃ k : Int, r = k * (2 : ℝ) ^ (-(a.bias : Int)) else OnGrid (a.mant + 1) (some (1 - (a.bias : Int) - a.mant)) r

/-- The integers. -/
def IsInteger (r : ℝ) : Prop := ∃ k : Int, r = k

/-- R38: `r` is the number of `g` that the rounding mode gives for `x`. In a tie the even one is an even multiple of its distance to the
other. -/
def RoundsTo (g : ℝ → Prop) (rm : RMode) (x r : ℝ) : Prop :=
  g r ∧ match rm with
  | .rdn => r ≤ x ∧ ∀ t, g t → t ≤ x → t ≤ r
  | .rup => x ≤ r ∧ ∀ t, g t → x ≤ t → r ≤ t
  | .rtz => |r| ≤ |x| ∧ 0 ≤ r * x ∧ ∀ t, g t → |t| ≤ |x| → 0 ≤ t * x → |t| ≤ |r|
  | .rne => (∀ t, g t → |x - r| ≤ |x - t|) ∧
      ∀ t, g t → t ≠ r → |x - t| = |x - r| → ∃ k q : Int, r = 2 * k * (2 : ℝ) ^ q ∧ |t - r| = (2 : ℝ) ^ q
  | .rna => (∀ t, g t → |x - r| ≤ |x - t|) ∧ ∀ t, g t → |x - t| = |x - r| → |t| ≤ |r|

/-- R36 to R38: `o` is `x` rounded once to a format, with its events; `neg` is the sign of a zero `x`. A result of at least 2^(bias + 1)
overflows: to an infinity, or to the largest finite number under a mode that points toward zero. A result is tiny when `x`, rounded
without a lower limit of the exponent, is below the smallest normal number. -/
def IsRounded (f : Fmt) (rm : RMode) (x : ℝ) (neg : Bool) (o : Nat × Ev) : Prop :=
  o.1 < 2 ^ f.width ∧ o.1 % 2 ^ f.low = 0 ∧
  ∃ (r : ℝ) (n : Bool), RoundsTo (OnGrid (f.fb + 1) (some (f.emin - f.fb))) rm x r ∧
    (x < 0 → n = true) ∧ (0 < x → n = false) ∧ (x = 0 → n = neg) ∧
    ((2 : ℝ) ^ (f.bias + 1) ≤ |r| → o.2 = { of := true, nx := true } ∧
      f.decode o.1 = if rm = .rtz ∨ (rm = .rdn ∧ n = false) ∨ (rm = .rup ∧ n = true) then
        .fin n (2 ^ (f.fb + 1) - 1) (f.bias - f.fb) else .inf n) ∧
    (|r| < (2 : ℝ) ^ (f.bias + 1) → (∃ m e, f.decode o.1 = .fin n m e) ∧ (f.decode o.1).num = r ∧
      o.2 = { nx := o.2.nx, uf := o.2.uf } ∧ (o.2.nx = true ↔ r ≠ x) ∧
      (o.2.uf = true ↔ r ≠ x ∧ ∃ u, RoundsTo (OnGrid (f.fb + 1) none) rm x u ∧ |u| < (2 : ℝ) ^ f.emin))

/-! ### Vector-stream words -/

/-- The scalar pipe takes the word, which belongs to no loop body (R197), every check before its push passes, nothing is ahead of it in the
vector queue, and the vector stream does not lag: it executes at once, whole (R63, R81, R255). -/
def TakesAtOnce (s : State) (i : Instr) : Prop :=
  s.env.issue = none ∧ s.env.lag = [] ∧ s.hart.vs.vq = [] ∧ s.hart.restart = none ∧ s.hart.inBody = none ∧ s.hart.vr.quads ≤ 8 ∧
  pushCheck s (encode i) = .ok

/-- No trap of R20 is enabled: FLAGS[15:8] is zero. -/
def NoEnables (s : State) : Prop := s.hart.fl.flags.toNat < 256

/-- The operand S of a word whose VB names an x register (R72, R141). -/
def State.scalarOf (s : State) (b : Reg) : Nat := (s.get b).toNat % 2 ^ s.hart.vt.ew

/-- Element `i` of the register group at `r`, under the hart's type state. -/
def State.elem (s : State) (r : Reg) (i : Nat) : Nat := elemOf (s.hart.group r.toNat s.hart.vt.g) s.hart.vt.ew i

/-- R140: element `i` of a destination after a word with mask field `k` whose active elements become `val i`. -/
def ruled (s : State) (d : Reg) (k : BitVec 3) (val : Nat → Nat) (i : Nat) : Nat :=
  if i < s.hart.vr.vl then
    if s.hart.maskBit k i then val i % 2 ^ s.hart.vt.ew else if s.hart.vt.mp then 0 else s.elem d i
  else if s.hart.vt.tp then 0 else s.elem d i

/-- Every element of the destination group is what R140 gives. -/
def Writes (s t : State) (d : Reg) (k : BitVec 3) (val : Nat → Nat) : Prop :=
  ∀ i, i < s.hart.vt.vlmax → t.elem d i = ruled s d k val i

/-- Nothing but vector registers, their headers, the PC, FLAGS with the event registers and the bookkeeping of an issue differs;
and every vector register outside the group of `n` registers at `d` holds what it held. -/
def VectorOnly (s t : State) (d : Reg) (n : Nat) : Prop :=
  t = { s with hart := { s.hart with
    v := t.hart.v, hdr := t.hart.hdr, pc := s.hart.pc + 4, wait := none, restart := none, fl := t.hart.fl
    vs := { s.hart.vs with conv := t.hart.vs.conv } } } ∧
  ∀ r : Fin 32, r.val < d.toNat ∨ d.toNat + n ≤ r.val → t.hart.v.get r = s.hart.v.get r ∧ t.hart.hdr.get r = s.hart.hdr.get r

/-- Nothing but mask registers other than `k`'s, the PC, FLAGS and the bookkeeping of an issue differs. -/
def MaskOnly (s t : State) (k : Nat) : Prop :=
  t = { s with hart := { s.hart with
    k := t.hart.k, pc := s.hart.pc + 4, wait := none, restart := none, fl := t.hart.fl
    vs := { s.hart.vs with conv := t.hart.vs.conv } } } ∧
  ∀ r : Fin 8, r.val ≠ k → t.hart.k.get r = s.hart.k.get r

/-- The scalar operand that VB names (R72, R141): an x register, or the head of a queue register, which it leaves; none while that
queue is empty. -/
def State.operand (s : State) (b : Reg) : Option (Word × State) :=
  if b.toNat < 24 then some (s.get b, s)
  else match s.hart.queue (b.toNat - 24) with
    | [] => none
    | v :: r => some (v, s.onHart (·.putQueue (b.toNat - 24) r))

/-- The active elements below VL, in ascending order (R12, R57). -/
def State.actives (s : State) (k : BitVec 3) : List Nat := (List.range s.hart.vr.vl).filter fun i => s.hart.maskBit k i

/-- No active element of the word raises an enabled class, where element `e` raises `ev e` (R20, R143). -/
def Quiet (s : State) (k : BitVec 3) (ev : Nat → Ev) : Prop := ∀ e ∈ s.actives k, (ev e).trap s.hart.fl.flags = none

/-- None of the events of a whole word, such as a reduction, is of an enabled class (R158). -/
def QuietList (s : State) (l : List (Nat × Ev)) : Prop := (l.foldl (fun y e => y.or e.2) ({} : Ev)).trap s.hart.fl.flags = none

/-- FLAGS and the event registers after a word whose active element `i` raised `ev i` (R21, R22). -/
def State.notes (s : State) (k : BitVec 3) (ev : Nat → Ev) : FlagRegs :=
  recordEvs ((s.actives k).map fun i => (i, ev i)) s.hart.pc s.hart.fl

/-- The word stands in the vector queue, alone, and waits there; nothing else has changed but the PC. -/
def WaitsQueued (s u : State) (i : Instr) : Prop :=
  u.hart.vs.blocked = true ∧ (∃ e, u.hart.vs.vq = [e] ∧ e.word = encode i ∧ e.pc = s.hart.pc) ∧ u.hart.pc = s.hart.pc + 4 ∧
  (∀ r, u.get r = s.get r) ∧ KeepsOther s u ∧ ∀ k, u.byte k = s.byte k

/-- The vector stream has taken a trap of the word at check 6, at element `j` (R24, R143): no x register and no byte of memory has changed. -/
def TrappedAt (s u : State) (i : Instr) (c : Cause) (j : Nat) : Prop :=
  u.hart.tr.tcause = BitVec.ofNat 64 (c.code + 2 ^ 63 + 2 ^ 62) ∧ u.hart.tr.tpc = s.hart.pc ∧ u.hart.tr.eri = BitVec.ofNat 64 j ∧
  u.hart.tr.tval = (encode i).zeroExtend 64 ∧ u.hart.tr.tnpc = s.hart.pc + 4 ∧ u.hart.pc = s.hart.tr.tvec ∧
  (∀ x, u.get x = s.get x) ∧ ∀ x, u.byte x = s.byte x

/-- The hart is outside a handler, and its task's kernel handles the cause (R23). -/
def Handles (s : State) (c : Cause) : Prop := s.hart.inHandler = false ∧ unhandled (s.descOf s.hart) c = false

/-- Element `j` is the lowest active one whose events `ev` include an enabled class, of cause `c` (R20, R143). -/
def RaisesAt (s : State) (k : BitVec 3) (ev : Nat → Ev) (j : Nat) (c : Cause) : Prop :=
  j ∈ s.actives k ∧ (ev j).trap s.hart.fl.flags = some c ∧ ∀ e ∈ s.actives k, e < j → (ev e).trap s.hart.fl.flags = none

/-- FLAGS and the event registers after the word trapped, having recorded the events of its active elements below `n` (R143). -/
def State.notesTo (s : State) (k : BitVec 3) (ev : Nat → Ev) (n : Nat) : FlagRegs :=
  recordEvs (((s.actives k).filter (· < n)).map fun e => (e, ev e)) s.hart.pc s.hart.fl

/-- The header byte of a block of the register group at `r`, under the hart's type state (R45). -/
def State.hdrByte (s : State) (r : Reg) (b : Nat) : Nat :=
  elemOf (s.hart.headers r.toNat s.hart.vt.g (hdrBytes s.hart.vt.n s.hart.vt.ew)) 8 b

/-- R45: a word that moves blocks leaves, for each block that it writes an element of, the header `src`; the headers of the others stay, and
those of blocks wholly in the tail follow TP. -/
def MovesHeaders (s u : State) (d : Reg) (written : Nat → Prop) (src : Nat → Nat) : Prop :=
  ∀ b, b < s.hart.vt.g * hdrBytes s.hart.vt.n s.hart.vt.ew →
    (32 * b < s.hart.vr.vl → (written b → u.hdrByte d b = src b) ∧ (¬ written b → u.hdrByte d b = s.hdrByte d b)) ∧
    (s.hart.vr.vl ≤ 32 * b → u.hdrByte d b = if s.hart.vt.tp then 0 else s.hdrByte d b)

/-- A value is appended to queue register `q`; nothing but it, the PC, FLAGS with the event registers and the bookkeeping of an issue
differs. -/
def PushedOnly (s t : State) (q : Nat) (v : Word) : Prop :=
  t = { s with hart := { s.hart with
    q := t.hart.q, pc := s.hart.pc + 4, wait := none, restart := none, fl := t.hart.fl
    vs := { s.hart.vs with conv := t.hart.vs.conv } } } ∧
  t.hart.queue q = s.hart.queue q ++ [v] ∧ ∀ r : Fin 8, r.val ≠ q % 8 → t.hart.q.get r = s.hart.q.get r

/-- Bit `e` of mask register `k` after a word that gives bits below VL as `bit` and the others the tail policy (R12). -/
def MaskWritten (s t : State) (k : Nat) (bit : Nat → Bool) : Prop :=
  ∀ e, e < 4096 → (t.hart.kreg k).getLsbD e =
    if e < s.hart.vr.vl then bit e else if s.hart.vt.tp then false else (s.hart.kreg k).getLsbD e

/-- The `n` bytes at address `a` are aligned bytes of a scratchpad of the cluster, allocated to the hart's task, without a recorded
error and not under test, and no watchpoint is set (R28, R165, R388). -/
def SpadElem (s : State) (a n : Nat) : Prop :=
  2 ^ 63 ≤ a ∧ a % n = 0 ∧ s.hart.debug = false ∧ ∃ c off, localTarget s.hart.core a = some (c, off) ∧
    s.spadOwned s.hart.tk.task c off n = true ∧ s.poisoned (spadKey c off) n = false ∧ s.bankTest (spadKey c off) = false

/-- The key of such an address. -/
def State.spadAddr (s : State) (a : Nat) : Nat := ((localTarget s.hart.core a).map fun p => spadKey p.1 p.2).getD 0

/-- No vector store of the hart waits, no block is poisoned by a guard, and the vector port holds no line (R165, R281). -/
def PortIdle (s : State) : Prop :=
  (∀ q : Fin 8, s.hart.psf.get q = []) ∧ s.coh.guardBad = [] ∧ s.hart.vs.lines = []

/-- The byte that the hart's plane store FIFOs hold last for a key (R281, R282). -/
def Hart.queuedByte (h : Hart) (key : Nat) : Option Byte :=
  ((h.psf.toList.flatten.filter fun e => lineOf e.loc.key == lineOf key && e.mask.getLsbD (key % 64)).getLast?).map fun e =>
    BitVec.ofNat 8 (e.data.toNat / 2 ^ (8 * (key % 64)))

/-- Nothing but the hart's store FIFOs, the PC and the bookkeeping of an issue differs, and of the FIFOs only PSFs or only CPFs. -/
def StoresOnly (packets : Bool) (s t : State) : Prop :=
  t = { s with hart := { s.hart with
    psf := t.hart.psf, cpf := t.hart.cpf, pc := s.hart.pc + 4, wait := none, restart := none
    vs := { s.hart.vs with conv := t.hart.vs.conv } } } ∧
  (if packets then t.hart.psf = s.hart.psf else t.hart.cpf = s.hart.cpf)

/-- Nothing but bytes of memory, links, monitors, mask registers, FLAGS with the event registers, the window, the PC and the
bookkeeping of an issue differs. -/
def SyncOnly (s t : State) : Prop :=
  t = { s with
    mem := t.mem
    coh := { s.coh with links := t.coh.links, monitors := t.coh.monitors }
    hart := { s.hart with
      k := t.hart.k, win := t.hart.win, fl := t.hart.fl, pc := s.hart.pc + 4, wait := none, restart := none
      vs := { s.hart.vs with conv := t.hart.vs.conv } } }

/-- A word of `n` bytes at a global address `a` of an uncached page that the hart may write, at `key`, without an error, a guard mark,
a watchpoint, a queued write of a controller or the race detector (R165, R273). -/
def UncachedAt (s : State) (a n key : Nat) : Prop :=
  a < 2 ^ 63 ∧ a % n = 0 ∧ s.hart.debug = false ∧ s.raceMode s.hart.tk.part = 0 ∧ s.coh.wq = [] ∧ s.coh.guardBad = [] ∧
  s.poisoned key n = false ∧ s.underTest (lineOf key) = false ∧
  ∃ loc, s.vmapLoc s.hart.tk.part s.hart.tk.ctx a .write = .ok loc ∧ loc.kind = .uncached ∧ loc.key = key ∧ s.farDown s.hart.core loc = none

/-- No core owns a word of the mask at its home, none of them is lost, an access to them does not wait, and a line that needs a split entry
has one (R290, R295, R307). -/
def Unowned (s : State) (line : Nat) (m : BitVec 16) : Prop :=
  s.lineWaits line m = false ∧ s.lineLost line m = false ∧ (s.homeAt line).coreOwners m = [] ∧ s.coh.ranges = [] ∧ s.splitFull s line = false

/-- A word of `n` bytes at a global address `a` of a cached page of the device's DRAM, at `key`, whose home serves it at once, without an
error, a guard mark, a watchpoint or the race detector (R165, R296). -/
def CachedAt (s : State) (acc : Acc) (a n key : Nat) : Prop :=
  a < 2 ^ 63 ∧ a % n = 0 ∧ s.hart.debug = false ∧ s.raceMode s.hart.tk.part = 0 ∧ s.coh.guardBad = [] ∧ s.poisoned key n = false ∧
  s.fabricDown s.hart.core (lineOf key) = none ∧ Unowned s (lineOf key) 0xFFFF ∧
  ∃ loc, s.vmapLoc s.hart.tk.part s.hart.tk.ctx a acc = .ok loc ∧ loc.kind = .cached ∧ loc.key = key

/-! ### Matrix words -/

/-- What a task holds on a core is in the canonical form: every sparse list of it is. -/
def Place.canonical (p : Place) : Bool :=
  Sparse.wf 0 p.tile && Sparse.wf sideInit p.side && Sparse.wf pairInit p.pair && Sparse.wf 0 p.slot && Sparse.wf 0 p.shdr

/-- Every place of the machine, and every saved one, is in the canonical form. -/
def State.placesCanonical (s : State) : Bool :=
  s.places.all (·.canonical) && s.sys.saves.all fun v => v.places.all (·.canonical)

/-- The word is taken at once, and what the task of the hart holds on its core is `p`, in the canonical form. -/
def TakesWith (s : State) (i : Instr) (p : Place) : Prop :=
  TakesAtOnce s i ∧ s.myPlace = some p ∧ p.canonical = true

/-- No row or column of the machine is under test or fenced off, and none of those that `p` holds has an error (R383, R388, R389). -/
def RowsSound (s : State) (p : Place) : Prop :=
  (∀ x ∈ s.sys.pending, x.what ≠ .row ∧ x.what ≠ .column) ∧ s.coh.deadRows = [] ∧ p.badRows = [] ∧ p.badSlots = []

/-- Nothing but what the hart's task holds on its core, the PC and the bookkeeping of an issue differs. -/
def PlaceOnly (s t : State) : Prop :=
  t = { s with
    places := t.places
    hart := { s.hart with pc := s.hart.pc + 4, wait := none, restart := none, vs := { s.hart.vs with conv := t.hart.vs.conv } } }

/-! ### Records, copies and barriers -/

/-- `n` units of 8 bytes at address `a` lie from `off` up in the hart's own scratchpad, readable at once: the SSB is empty (R28, R282). -/
def RecordAt (s : State) (a : Word) (n off : Nat) : Prop :=
  s.hart.ssb = [] ∧ ∀ i, i < n → SpadAt s (a + BitVec.ofNat 64 (8 * i)) 8 (off + 8 * i)

/-- The barrier object at `key` becomes `b`; `ends` says how the harts that wait there are released, if they are: nothing else of memory
and of the other harts changes (R191, R192). -/
def BarSet (s u : State) (key : Nat) (b : Bar) (ends : Option Bool) : Prop :=
  u.barAt key = b ∧ KeepsBytes key 16 s u ∧ u.others = match ends with
    | none => s.others
    | some r => s.others.map fun h => if h.wait = some (.barrier key none) then { h with wait := some (.barrier key (some r)) } else h

/-! ### The moves of the ordering machine -/

/-- Memory after the masked bytes of a line are written; every other byte is as before. -/
def LineWritten (s u : State) (line : Nat) (m : BitVec 64) (d : BitVec 512) : Prop :=
  ∀ k, u.byte k = if k / 64 = line ∧ m.getLsbD (k % 64) = true then d.extractLsb' (8 * (k % 64)) 8 else s.byte k

/-- Memory after (key, byte) pairs of different keys are written. -/
def BytesWritten (s u : State) (l : List (Nat × Byte)) : Prop :=
  (l.map (·.1)).Nodup → ∀ k, u.byte k = ((l.find? fun b => b.1 == k).map (·.2)).getD (s.byte k)

/-- Every byte of memory reads as before. -/
def SameBytes (s u : State) : Prop := ∀ k, u.byte k = s.byte k

/-- Hart `h` becomes `g`; every other hart is as before. -/
def HartSet (s u : State) (h : Nat) (g : Hart) : Prop := u.hartAt h = some g ∧ ∀ j, j ≠ h → u.hartAt j = s.hartAt j

/-- An access joins those of its order that wait (R354, R355, R357). -/
def State.kept (s : State) (order : Nat) (i : HostAccess) : State := { s with sys := { s.sys with waiting := s.sys.waiting ++ [(order, i)] } }

/-- The slice of a line has a free line and a free split entry (R290, R299, R300). -/
def RoomAt (s : State) (line : Nat) : Prop :=
  (s.coh.homes.filter fun h => homeSlice h.line == homeSlice line).length < s.lineCount line ∧ (s.splitPool line).length < 4096

/-- No core is fenced off (R307). -/
def NoneFenced (s : State) : Prop := ∀ n, (s.coreAt n).fenced = false

end Sys2Proof.Machine
end

