-- ==== Sys2Proof/Certificates/Slice0/Obligations.lean ====
section
/-! DEFINITION. The statements for the provers. Each docstring names the rules of spec/ that it formalises. -/
open Sys2Proof Sys2Proof.Machine

/-! ### Encoding -/

/-- R63 to R76 in 03: a word of each of a few families, written out from its encoding, decodes to the instruction it stands for. -/
def Obligations.DecodeSanity : Prop :=
  decodeWord 0x18A63800#32 = some (.add 5 6 7) ∧
  decodeWord 0x48A63850#32 = some (.amoAdd 5 6 7 true .dev false false) ∧
  decodeWord 0x04000444#32 = some (.fenceRel .dev true) ∧
  decodeWord 0x51073000#32 = some (.fork 8 7 6) ∧
  decodeWord 0xAC8A0000#32 = some (.vld 4 10 0 false false) ∧
  decodeWord 0xA482400C#32 = some (.vstrip 4 2 8 0)

/-- R60 to R78 in 03: the decoder reads every well-formed word instruction back from the word its encoding gives, with every
operand at every value. R61: a word that decodes is the instruction's own word, so no bit of a field marked zero is set in it; its operands
are in range, and it is no device step. R63, R80: the guards and the majors that no family has decode to nothing. -/
def Obligations.DecodeEncode : Prop :=
  (∀ i : Instr, i.isWord = true → i.wf = true → decodeWord (encode i) = some i) ∧
  (∀ (w : IWord) (i : Instr), decodeWord w = some i → encode i = w ∧ i.wf = true ∧ i.isWord = true) ∧
  (∀ w : IWord, ((fld w 26 6).toNat = 0 ∨ (27 ≤ (fld w 26 6).toNat ∧ (fld w 26 6).toNat ≤ 31) ∨ 52 ≤ (fld w 26 6).toNat) →
    decodeWord w = none)

/-- R56: the 64 intercepts and slopes are the rounded exact values; for a finite argument below 128, exp2t rounds slope times rest, intercept
plus that, and the sum times 2^floor(y), each once, and has the events of the last rounding; a NaN gives the canonical NaN, infinities
give infinity and +0, and an argument from 128 up gives infinity with OF and NX. -/
def Obligations.ExponentialTable : Prop :=
  (∀ i : Nat, i < 64 → (∃ e, IsRounded fp32 .rne ((2 : ℝ) ^ ((i : ℝ) / 64)) false (expI i, e)) ∧
    ∃ e, IsRounded fp32 .rne (64 * ((2 : ℝ) ^ (((i : ℝ) + 1) / 64) - (2 : ℝ) ^ ((i : ℝ) / 64))) false (expS i, e)) ∧
  (∀ y : Nat, let v := fp32.decode y
    (v.isNan = true → exp2t y = (fp32.nan, {})) ∧ (∀ n, v = .inf n → exp2t y = (if n then 0 else fp32.inf false, {})) ∧
    (∀ n m e, v = .fin n m e → (128 ≤ v.num → exp2t y = (fp32.inf false, { of := true, nx := true })) ∧
      (v.num < 128 → ∃ (i p t : Nat) (u : ℝ) (ep et : Ev), i < 64 ∧ v.num = ⌊v.num⌋ + i / 64 + u ∧ 0 ≤ u ∧ u < 1 / 64 ∧
        IsRounded fp32 .rne ((fp32.decode (expS i)).num * u) false (p, ep) ∧
        IsRounded fp32 .rne ((fp32.decode (expI i)).num + (fp32.decode p).num) false (t, et) ∧
        IsRounded fp32 .rne ((fp32.decode t).num * (2 : ℝ) ^ ⌊v.num⌋) false (exp2t y))))

/-- R80, R58: a word that is no instruction traps with ILLEGAL and its own value in TVAL. A `vwiden` whose S is 1 (R71), and a blocked load
or store with a mask (R176; the model's choice between the table and the rule, log entry 128), trap with ILLEGAL_TYPE, and on a hart
without quads with TVAL 0 (R9). A fetch that faults traps with the PC in TVAL. -/
def Obligations.IllegalWordAndFetchFault : Prop :=
  (∀ (s : State) (w : IWord), typeIllegalWord w = false → exec (.illegalWord w) s = .next (s.trap .illegal (w.setWidth 64))) ∧
  (∀ (s : State) (w : IWord), typeIllegalWord w = true →
    exec (.illegalWord w) s = .next (s.trap .illegalType (if s.hart.quads.count = 0 then 0 else w.setWidth 64))) ∧
  (∀ (d a b : Reg) (k : BitVec 3) (r c : Bool), (Instr.vwiden d a b k r c).wf = true →
    decodeWord (encode (.vwiden d a b k r c) ||| 2#32) = none ∧ typeIllegalWord (encode (.vwiden d a b k r c) ||| 2#32) = true) ∧
  (∀ (d a b : Reg) (k : BitVec 3) (r c : Bool), k ≠ 0#3 → ∀ i ∈ [Instr.vldb d a b r c, .vstb d a b r c], i.wf = true →
    let w := encode i ||| k.setWidth 32 <<< 8
    decodeWord w = none ∧ typeIllegalWord w = true) ∧
  (∀ (s t : State) (c : Cause), s.fetch = (.fault c, t) → exec .fetchFault s = .next (s.trap c s.hart.pc))

/-! ### A step -/

/-- R58, R63, R269: when the hart that holds the next issue opportunity runs and no lost store of it is due, the step is exec of the
instruction that the word at its PC decodes to; a word that decodes to nothing traps, and so does a fetch that faults; while the fetch
waits, so does the hart. The opportunity leaves the list, and the cycle and the free values move on (the model's own fields). -/
def Obligations.StepRunsDecoded : Prop :=
  ∀ (s : State) (h : Nat) (r : List Nat), s.sys.boot.stopped = false → s.env.inputs = [] → s.env.opps = h :: r →
    let u := s.taking h r
    u.hart.status = .running → (u.ownerLostDue u.hart).isSome = false →
    (∀ (w : IWord) (i : Instr) (t : State), u.fetch = (.word w, t) → decodeWord w = some i → step s = exec i t) ∧
    (∀ (w : IWord) (t : State), u.fetch = (.word w, t) → decodeWord w = none → step s = exec (.illegalWord w) t) ∧
    (∀ (c : Cause) (t : State), u.fetch = (.fault c, t) → step s = exec .fetchFault u) ∧
    (∀ t : State, u.fetch = (.wait, t) → step s = .next (u.waitFor .memory))

/-- R263, R271: with no input and no issue opportunity left, a step in which it is the turn of the vector streams (the model's choice of
turns, log entry 13) is exec of the head of a queue that can issue, with the operands captured for it; no issue opportunity is spent on
it. A device step that the inputs name is exec of it (an arbiter first sees which harts are ready, R269), and a word there is refused. A
hart whose lost store is due takes OWNER_LOST in place of its next instruction (R308); a hart that does not run spends its opportunity on
nothing; a stopped device faults. -/
def Obligations.StepRunsOthers : Prop :=
  (∀ (s : State) (h : Nat) (e : VEntry) (l : List VEntry) (i : Instr), s.sys.boot.stopped = false → s.env.inputs = [] →
    s.env.opps = [] → s.env.turn % 5 = 1 →
    let t := { tick s with env := { (tick s).env with turn := s.env.turn + 1 } }
    t.turnOf t.vectorReady = some h → (t.turnTo h).hart.vs.vq = e :: l → decodeWord e.word = some i →
    step s = exec i ((t.turnTo h).issuing e)) ∧
  (∀ (s : State) (e : Instr) (r : List Instr), s.sys.boot.stopped = false → s.env.inputs = e :: r → e.isWord = false →
    (∀ c, e ≠ .issueArbitration c) → step s = exec e { tick s with env := { (tick s).env with inputs := r } }) ∧
  (∀ (s : State) (c : Nat) (r : List Instr), s.sys.boot.stopped = false → s.env.inputs = .issueArbitration c :: r →
    step s = exec (.issueArbitration c) ({ tick s with env := { (tick s).env with inputs := r } } : State).markReady) ∧
  (∀ (s : State) (e : Instr) (r : List Instr), s.sys.boot.stopped = false → s.env.inputs = e :: r → e.isWord = true →
    step s = .refused .notAnEvent) ∧
  (∀ (s : State) (h : Nat) (r : List Nat), s.sys.boot.stopped = false → s.env.inputs = [] → s.env.opps = h :: r →
    let u := s.taking h r
    (u.hart.status ≠ .running → step s = .next u) ∧
    (u.hart.status = .running → (u.ownerLostDue u.hart).isSome = true → step s = exec (.ownerLostTrap u.hart.id) u)) ∧
  (∀ s : State, s.sys.boot.stopped = true → step s = .fault .deviceStopped)

/-! ### Traps and returns -/

/-- R23: outside a handler, for a cause that the task's kernel handles, a trap of the scalar pipe writes the cause code with IH set and
PK clear to TCAUSE, the given value to TVAL, the PC of the trapping instruction to TPC, ERI and TNPC := 0, and continues at TVEC with
the hart running as before; every x, vector, mask, queue, stream, format and matrix register, FLAGS and memory stay as they were. A trap
that arises while IH is 1, or by a cause that the kernel does not handle, stops the hart: it does not continue at TVEC, and its PC, x and
other registers stay as they were; the trap registers are written as for any trap (the model's reading of R338 and R339, log entry 15), and
the fault record of a PAGE, VMAP or PERM trap goes to the partition: to its queue while that holds fewer than 256.
R24: a trap that the vector stream takes while it executes a word, outside a handler and for a handled cause, saves that word's PC in
TPC and the element in ERI, sets IH and PK, saves the PC of the first instruction that the scalar pipe has not executed in TNPC, parks
the words behind it in their order, leaves the queue empty for the handler, and continues at TVEC.
R124: `trap` takes the trap SYSCALL with its code in TVAL; `brk` takes BREAK with TVAL 0, and while `fettle` holds the task under
debug the hart stops instead. -/
def Obligations.TrapEntry : Prop :=
  (∀ (s : State) (c : Cause) (v : Word) (eri : Nat), s.hart.inHandler = false → unhandled (s.descOf s.hart) c = false →
      let t := s.trap c v eri
      t.hart.tr.tcause = BitVec.ofNat 64 (c.code + 2 ^ 63) ∧ t.hart.inHandler = true ∧ t.hart.parkedBit = false ∧
      t.hart.tr.tval = v ∧ t.hart.tr.tpc = s.hart.pc ∧ t.hart.tr.eri = BitVec.ofNat 64 eri ∧ t.hart.tr.tnpc = 0 ∧
      t.hart.tr.tvec = s.hart.tr.tvec ∧ t.hart.pc = s.hart.tr.tvec ∧ t.hart.status = s.hart.status ∧
      (∀ r, t.get r = s.get r) ∧ KeepsOther s t ∧ t.mem = s.mem ∧ t.sys = s.sys) ∧
  (∀ (s : State) (c : Cause) (v : Word) (eri : Nat),
      s.hart.inHandler = true ∨ unhandled (s.descOf s.hart) c = true →
      let t := s.trap c v eri
      t.hart.status = .stopped ∧ t.hart.pc = s.hart.pc ∧ (∀ r, t.get r = s.get r) ∧ KeepsOther s t ∧ t.mem = s.mem ∧
      t.hart.tr.tpc = s.hart.pc ∧ t.hart.tr.tval = v ∧
      (c.isPageFault = false → t.sys = s.sys) ∧
      (c.isPageFault = true → ∀ p, s.partAt s.hart.tk.part = some p → p.faults.length < 256 →
        ∃ q, t.partAt s.hart.tk.part = some q ∧ q.faults = p.faults ++ [faultRecord t.hart])) ∧
  (∀ (s : State) (e : VEntry) (kept : Option Word) (c : Cause) (v : Word) (eri : Nat),
    s.hart.inHandler = false → unhandled (s.descOf s.hart) c = false →
    let t := parkTrap e kept c v eri s
    t.hart.tr.tcause = BitVec.ofNat 64 (c.code + 2 ^ 63 + 2 ^ 62) ∧ t.hart.tr.tpc = e.pc ∧ t.hart.tr.tval = v ∧
    t.hart.tr.eri = BitVec.ofNat 64 eri ∧ t.hart.tr.tnpc = s.hart.pc ∧ t.hart.pc = s.hart.tr.tvec ∧
    t.hart.vs.parked = s.hart.vs.vq ++ s.hart.vs.parked ∧ t.hart.vs.vq = [] ∧
    t.hart.vs.trapped = some { e with kept := kept } ∧ (∀ r, t.get r = s.get r) ∧ KeepsOther s t ∧ t.mem = s.mem) ∧
  (∀ (s : State) (c : BitVec 7), exec (.trap c) s = .next (s.trap .syscall (c.setWidth 64))) ∧
  (∀ s : State, s.hart.debug = false → exec .brk s = .next (s.trap .brk 0)) ∧
  (∀ s : State, s.hart.debug = true → exec .brk s = .next { s with hart := { s.hart with status := .debugStop } })

/-- R23, R24, R58, R124: with IH set, PK clear and an aligned TPC, `eret` clears IH, discards the parked words and continues at TPC, whose
vector word restarts at ERI. With IH and PK set and an aligned TNPC it clears both, continues at TNPC, and the trapping word at ERI and
the parked words follow what is queued. Registers and memory stay as they were. With IH clear it traps with ILLEGAL; with a target that
is not a multiple of 4 it traps with MISALIGN and the target in TVAL. -/
def Obligations.EretReturns : Prop :=
  (∀ s : State, s.hart.inHandler = true → s.hart.parkedBit = false → s.hart.tr.tpc.toNat % 4 = 0 →
    ∃ t, exec .eret s = .next t ∧ t.hart.pc = s.hart.tr.tpc ∧ t.hart.inHandler = false ∧ t.hart.parkedBit = false ∧
      t.hart.vs.parked = [] ∧ t.hart.vs.vq = s.hart.vs.vq ∧
      (∃ k, t.hart.restart = some (s.hart.tr.tpc, s.hart.tr.eri.toNat, k)) ∧
      (∀ r, t.get r = s.get r) ∧ KeepsOther s t ∧ t.mem = s.mem ∧ t.coh = s.coh) ∧
  (∀ (s : State) (e : VEntry), s.hart.inHandler = true → s.hart.parkedBit = true → s.hart.tr.tnpc.toNat % 4 = 0 →
    s.hart.vs.trapped = some e →
    ∃ t, exec .eret s = .next t ∧ t.hart.pc = s.hart.tr.tnpc ∧ t.hart.inHandler = false ∧ t.hart.parkedBit = false ∧
      t.hart.vs.vq = s.hart.vs.vq ++ { e with start := s.hart.tr.eri.toNat } :: s.hart.vs.parked ∧ t.hart.vs.parked = [] ∧
      (∀ r, t.get r = s.get r) ∧ KeepsOther s t ∧ t.mem = s.mem ∧ t.coh = s.coh) ∧
  (∀ s : State, s.hart.inHandler = false → exec .eret s = .next (s.trap .illegal 0x04000080#64)) ∧
  (∀ s : State, s.hart.inHandler = true →
    let target := if s.hart.parkedBit then s.hart.tr.tnpc else s.hart.tr.tpc
    target.toNat % 4 ≠ 0 → exec .eret s = .next (s.trap .misalign target))

/-! ### Scalar arithmetic and control -/

/-- R112: every two-operand ALU word writes x[D] as its row says and retires, in every state and for every register, x0 included (a
write of x0 is ignored, R5, and x0 reads as zero); for the counts, the count is the one that the bits of x[A] have. R113, with the widening of R62:
the immediate words do the same; a shift word with KIND = 11 or a nonzero IMM16[15:8] is no instruction. -/
def Obligations.AluResults : Prop :=
  (∀ (s : State) (d a b : Reg), ∀ p ∈ [
      (Instr.add d a b, s.get a + s.get b), (.sub d a b, s.get a - s.get b), (.and d a b, s.get a &&& s.get b),
      (.or d a b, s.get a ||| s.get b), (.xor d a b, s.get a ^^^ s.get b),
      (.sll d a b, s.get a <<< ((s.get b).toNat % 64)), (.srl d a b, s.get a >>> ((s.get b).toNat % 64)),
      (.sra d a b, (s.get a).sshiftRight ((s.get b).toNat % 64)),
      (.slt d a b, if (s.get a).toInt < (s.get b).toInt then 1 else 0),
      (.sltn d a b, if (s.get a).toNat < (s.get b).toNat then 1 else 0),
      (.min d a b, if (s.get a).toInt < (s.get b).toInt then s.get a else s.get b),
      (.max d a b, if (s.get a).toInt < (s.get b).toInt then s.get b else s.get a),
      (.minn d a b, if (s.get a).toNat < (s.get b).toNat then s.get a else s.get b),
      (.maxn d a b, if (s.get a).toNat < (s.get b).toNat then s.get b else s.get a)],
    exec p.1 s = .next (s.set d p.2).advance) ∧
  (∀ (s : State) (d a : Reg), ∃ n, n ≤ 64 ∧ (∀ i, 64 - n ≤ i → (s.get a).getLsbD i = false) ∧
    (n < 64 → (s.get a).getLsbD (63 - n) = true) ∧ exec (.clz d a) s = .next (s.set d (BitVec.ofNat 64 n)).advance) ∧
  (∀ (s : State) (d a : Reg), ∃ n, n ≤ 64 ∧ (∀ i, i < n → (s.get a).getLsbD i = false) ∧
    (n < 64 → (s.get a).getLsbD n = true) ∧ exec (.ctz d a) s = .next (s.set d (BitVec.ofNat 64 n)).advance) ∧
  (∀ (s : State) (d a : Reg), exec (.popc d a) s =
    .next (s.set d (BitVec.ofNat 64 ((List.range 64).countP fun i => (s.get a).getLsbD i))).advance) ∧
  (∀ (s : State) (d a : Reg) (i : BitVec 16), ∀ p ∈ [
      (Instr.addi d a i, s.get a + i.signExtend 64), (.andi d a i, s.get a &&& i.zeroExtend 64),
      (.ori d a i, s.get a ||| i.zeroExtend 64), (.xori d a i, s.get a ^^^ i.zeroExtend 64),
      (.slti d a i, if (s.get a).toInt < i.toInt then 1 else 0)],
    exec p.1 s = .next (s.set d p.2).advance) ∧
  (∀ (s : State) (d a : Reg) (n : BitVec 6), ∀ p ∈ [
      (Instr.slli d a n, s.get a <<< n.toNat), (.srli d a n, s.get a >>> n.toNat),
      (.srai d a n, (s.get a).sshiftRight n.toNat)],
    exec p.1 s = .next (s.set d p.2).advance) ∧
  (∀ w : IWord, fld w 26 6 = 11#6 → fld w 6 2 = 3#2 ∨ fld w 8 8 ≠ 0#8 → decodeWord w = none) ∧
  (∀ (s : State) (d : Reg) (i : BitVec 16), ∀ p ∈ [
      (Instr.lui d i, i.signExtend 64 <<< 16), (.auipc d i, s.hart.pc + i.signExtend 64 <<< 16)],
    exec p.1 s = .next (s.set d p.2).advance)

/-- R39, R40: what a slot's code and maxfin are. R41: encode rounds once to the slot's values, delivers maxfin beyond it with SAT and NX, and
its NaN code or 0 for a NaN; NX with SAT for a negative value in an unsigned slot, NV for a signalling NaN, and UF of a delivered magnitude
below the smallest normal one are the model's readings (log entries 132 to 134). R47: SE is the smallest that holds every finite value of the
block. R42, R48: the value of a blocked element and of a container of each crucible class. R51, R159: the conversions to integers and
formats of any source value (from a blocked source its exact value: the model's choice, log entry 173). R52: the products and the sum of a
group with the accumulator, exact and rounded once. R149, R150: the class bit, and the reciprocal toward zero with 7 fraction bits. -/
def Obligations.NumberFunctions : Prop :=
  (∀ (sl : MSlot) (rm : RMode), 1 ≤ sl.wm1 → sl.e + sl.s.toNat ≤ sl.wm1 + 1 →
    let m := sl.wm1 + 1 - sl.s.toNat - sl.e
    let emin : Int := 1 - (sl.bias : Int)
    let ones := 2 ^ (sl.wm1 + 1 - sl.s.toNat) - 1
    let full := fun n : Bool => (if n && sl.s then 2 ^ sl.wm1 else 0) + (ones - sl.nan.toNat)
    (∀ c : Nat, let x := c / 2 ^ m % 2 ^ sl.e
      let k := c % 2 ^ m
      (sl.nan = true → c % (ones + 1) = ones → sl.decode c = .nan false) ∧
      (sl.nan = false ∨ c % (ones + 1) ≠ ones → ∃ q e, sl.decode c = .fin (sl.s && c.testBit sl.wm1) q e ∧
        (q : ℝ) * (2 : ℝ) ^ e = if sl.e = 0 then k * (2 : ℝ) ^ (-(sl.bias : Int)) else if x = 0 then k * (2 : ℝ) ^ (emin - m)
          else (2 ^ m + k) * (2 : ℝ) ^ ((x : Int) - sl.bias - m))) ∧
    sl.maxFin = sl.decode (ones - sl.nan.toNat) ∧
    (∀ y : FVal, let o := sl.encode rm y
      (∀ sig, y = .nan sig → o = if sl.nan then (ones, { nv := sig }) else (0, { nv := true })) ∧
      (∀ n, y = .inf n → o = (if n && !sl.s then 0 else full n, { sat := true, nx := true })) ∧
      ∀ n q e, y = .fin n q e → (q = 0 → o = (if n && sl.s then 2 ^ sl.wm1 else 0, {})) ∧
        (q ≠ 0 → n = true → sl.s = false → o = (0, { sat := true, nx := true })) ∧
        (q ≠ 0 → n = false ∨ sl.s = true → ∃ r, RoundsTo sl.grid rm y.num r ∧
          (sl.maxFin.num < |r| → o = (full n, { sat := true, nx := true })) ∧
          (|r| ≤ sl.maxFin.num → o.1 < 2 ^ (sl.wm1 + 1) ∧ (∃ q' e', sl.decode o.1 = .fin n q' e') ∧ (sl.decode o.1).num = r ∧
            o.2 = { nx := o.2.nx, uf := o.2.uf } ∧ (o.2.nx = true ↔ r ≠ y.num) ∧
            (o.2.uf = true ↔ r ≠ y.num ∧ sl.e ≠ 0 ∧ |r| < (2 : ℝ) ^ emin)))) ∧
    (∀ vals : List FVal, let se := chooseSE sl vals
      let fits := fun k : Nat => ∀ v ∈ vals, ∀ n q e, v = .fin n q e → |v.num| ≤ sl.maxFin.num * (2 : ℝ) ^ ((k : Int) - 32)
      ((∀ v ∈ vals, v.num = 0) → se = 0) ∧
      ((∃ v ∈ vals, v.num ≠ 0) → se ≤ 63 ∧ (fits se ∨ se = 63) ∧ ∀ k, k < se → ¬ fits k))) ∧
  (∀ (f : Word) (hd x : Nat), let sl := slotOf f (hd / 64 % 4)
    (sl.v = false → blockUndefined f hd = true ∧ blockValue f hd x = .fin false 0 0) ∧
    (sl.v = true → blockUndefined f hd = false ∧ (∀ sig, sl.decode x = .nan sig → blockValue f hd x = .nan sig) ∧
      ∀ n q e, sl.decode x = .fin n q e → (∃ q' e', blockValue f hd x = .fin n q' e') ∧
        (blockValue f hd x).num = (sl.decode x).num * (2 : ℝ) ^ (((hd % 64 : Nat) : Int) - 32))) ∧
  (∀ (h : Hart) (t : VT) (a ah i : Nat), let x := a / 2 ^ (t.ew * i) % 2 ^ t.ew
    let hd := ah / 2 ^ (8 * (i / 32)) % 256
    (t.cls = 5 → sourceValue h t a ah i = (blockValue h.fmtReg hd x, { nv := blockUndefined h.fmtReg hd })) ∧
    (t.isFloat = true → sourceValue h t a ah i = (t.fmt.decode x, {})) ∧
    (t.isInt = true → let z : Int := if t.isSigned then sextI x t.ew else x
      sourceValue h t a ah i = (.fin (decide (z < 0)) z.natAbs 0, {}))) ∧
  (∀ (t : VT) (sat sg : Bool) (x : Nat) (v : FVal) (ev : Ev),
    (∀ w ∈ [8, 16, 32, 64],
      let lo : Int := if sg then -(2 ^ (w - 1)) else 0
      let hi : Int := if sg then 2 ^ (w - 1) - 1 else 2 ^ w - 1
      let enc := fun z : Int => (z % 2 ^ w).toNat
      let o := convertElem t sat (.int sg w) x (v, ev)
      (t.isInt = true → ∀ z : Int, v = .fin (decide (z < 0)) z.natAbs 0 → o = if w = t.ew then (x, {})
        else if sat then (enc (if z < lo then lo else if hi < z then hi else z), { sat := decide (z < lo) || decide (hi < z) })
        else (enc z, {})) ∧
      (t.isInt = false → (v.isNan = true → o = (0, ({ nv := true } : Ev).or ev)) ∧
        (∀ n, v = .inf n → o = (enc (if n then lo else hi), ({ nv := true } : Ev).or ev)) ∧
        ∀ n m e, v = .fin n m e → ∃ r : Int, RoundsTo IsInteger t.rm v.num r ∧ (r < lo → o = (enc lo, ({ nv := true } : Ev).or ev)) ∧
          (hi < r → o = (enc hi, ({ nv := true } : Ev).or ev)) ∧
          (lo ≤ r → r ≤ hi → o.1 = enc r ∧ ∃ nx : Bool, o.2 = ({ nx := nx } : Ev).or ev ∧ (nx = true ↔ (r : ℝ) ≠ v.num)))) ∧
    (∀ f ∈ [fp64, fp32, fp16, bf16, e8m10], let o := convertElem t sat (.flt f) x (v, ev)
      (∀ sig, v = .nan sig → o = (f.nan, ({ nv := sig } : Ev).or ev)) ∧ (∀ n, v = .inf n → o = (f.inf n, ev)) ∧
      ∀ n m e, v = .fin n m e → ∃ w, IsRounded f t.rm v.num n (o.1, w) ∧ o.2 = w.or ev)) ∧
  (∀ (c : Nat) (f : Word) (row hdr k : Nat), let x := fun w : Nat => row / 2 ^ (w * k) % 2 ^ w
    (∀ p ∈ ([(0, fp32.decode (x 32)), (1, e8m10.decode (x 32)), (2, bf16.decode (x 16)), (3, fp16.decode (x 16)), (4, intVal (sextI (x 8) 8)),
      (5, intVal (x 8)), (6, intVal (sextI (x 4) 4)), (7, intVal (x 4))] : List (Nat × FVal)), c = p.1 → opValue c f row hdr k = p.2) ∧
    (8 ≤ c → c ≤ 19 → let w := if c < 15 then c - 6 else c - 11
      opValue c f row hdr k = blockValue f (hdr / 2 ^ (8 * (k / 32)) % 256) (x (if w ≤ 2 then 2 else if w ≤ 4 then 4 else 8) % 2 ^ w))) ∧
  (∀ a b : FVal, let o := (a.mul b).1
    (a.isNan = true ∨ b.isNan = true ∨ (∃ n, a = .inf n ∧ b.isZero = true) ∨ (∃ n, b = .inf n ∧ a.isZero = true) → o.isNan = true) ∧
    (∀ n m q e, a = .inf n → b = .fin m q e → q ≠ 0 → o = .inf (n != m) ∧ (b.mul a).1 = .inf (n != m)) ∧
    (∀ n m, a = .inf n → b = .inf m → o = .inf (n != m)) ∧
    (∀ n q e n' q' e', a = .fin n q e → b = .fin n' q' e' → (∃ k j, o = .fin (n != n') k j) ∧ o.num = a.num * b.num)) ∧
  (∀ (acc : Nat) (ps : List FVal), ps ≠ [] → let a := fp32.decode acc
    let o := addGroup false acc ps
    (a.isNan = true ∨ (∃ p ∈ ps, p.isNan = true) ∨ (∃ n, a = .inf n ∧ .inf (!n) ∈ ps) ∨ (.inf true ∈ ps ∧ .inf false ∈ ps) → o = fp32.nan) ∧
    (∀ n, a = .inf n ∨ .inf n ∈ ps → (∀ p ∈ a :: ps, p.isNan = false ∧ p ≠ .inf (!n)) → o = fp32.inf n) ∧
    ((∀ p ∈ a :: ps, ∃ n q e, p = .fin n q e) → ∃ (z : Bool) (e : Ev), (z = true ↔ ∀ p ∈ a :: ps, p.neg = true ∧ p.isZero = true) ∧
      IsRounded fp32 .rne (a.num + (ps.map (·.num)).sum) z (o, e))) ∧
  (∀ (acc : Nat) (ps : List (Int × Int)), addGroup true acc (ps.map fun p : Int × Int => ((intVal p.1).mul (intVal p.2)).1) =
    ((acc + (ps.map fun p : Int × Int => p.1 * p.2).sum) % 2 ^ 32).toNat) ∧
  (∀ f ∈ [fp64, fp32, fp16, bf16, e8m10], ∀ x : Nat, let v := f.decode x
    let o := fRcpe f x
    (v.isNan = true → fClass f x = (if v.isSig then 8 else 9) ∧ o = (f.nan, { nv := v.isSig })) ∧
    (∀ n, v = .inf n → fClass f x = (if n then 0 else 7) ∧ o = (f.zero n, {})) ∧
    ∀ n m e, v = .fin n m e →
      (v.num = 0 → fClass f x = (if n then 3 else 4) ∧ o = (f.inf n, { dz := true })) ∧
      (v.num ≠ 0 → |v.num| < (2 : ℝ) ^ f.emin → fClass f x = if n then 2 else 5) ∧
      ((2 : ℝ) ^ f.emin ≤ |v.num| → fClass f x = if n then 1 else 6) ∧
      (v.num ≠ 0 → ∃ r, RoundsTo (OnGrid 8 (some (f.emin - 7))) .rtz (1 / v.num) r ∧ o.1 < 2 ^ f.width ∧ ∃ q j, f.decode o.1 = .fin n q j ∧
        ((2 : ℝ) ^ (f.bias + 1) ≤ |r| → |(f.decode o.1).num| = 255 * (2 : ℝ) ^ ((f.bias : Int) - 7) ∧ o.2 = { of := true }) ∧
        (|r| < (2 : ℝ) ^ (f.bias + 1) → (f.decode o.1).num = r ∧ o.2 = { uf := o.2.uf } ∧
          (o.2.uf = true ↔ r ≠ 1 / v.num ∧ ∃ u, RoundsTo (OnGrid 8 none) .rtz (1 / v.num) u ∧ |u| < (2 : ℝ) ^ f.emin))))

/-- R114, R34, R33: products are the halves of the exact product. A quotient is all ones for a zero divisor and otherwise rounds toward
zero, so that -2^63 by -1 gives -2^63; a remainder is the dividend for a zero divisor and otherwise has the dividend's sign. A zero
divisor records DZ at element 0, and with IDE clear the word writes x[D] and retires. With IDE set a zero divisor, and with IOE set a
`div` that overflows, traps with INT and leaves x[D] as it was. -/
def Obligations.MulDivResults : Prop :=
  (∀ (s : State) (d a b : Reg), ∀ p ∈ [
      (Instr.mul d a b, s.get a * s.get b),
      (.mulh d a b, BitVec.ofInt 64 ((s.get a).toInt * (s.get b).toInt / 2 ^ 64)),
      (.mulhn d a b, BitVec.ofNat 64 ((s.get a).toNat * (s.get b).toNat / 2 ^ 64))],
    exec p.1 s = .next (s.set d p.2).advance) ∧
  (∀ (s : State) (d a b : Reg), s.get b ≠ 0 → ∀ p ∈ [
      (Instr.divn d a b, BitVec.ofNat 64 ((s.get a).toNat / (s.get b).toNat)),
      (.rem d a b, BitVec.ofInt 64 ((s.get a).toInt.tmod (s.get b).toInt)),
      (.remn d a b, BitVec.ofNat 64 ((s.get a).toNat % (s.get b).toNat))],
    exec p.1 s = .next (s.set d p.2).advance) ∧
  (∀ (s : State) (d a b : Reg), s.get b ≠ 0 →
    (s.hart.fl.flags.getLsbD 9 = false ∨ s.get a ≠ BitVec.intMin 64 ∨ s.get b ≠ -1) →
    exec (.div d a b) s = .next (s.set d (BitVec.ofInt 64 ((s.get a).toInt.tdiv (s.get b).toInt))).advance) ∧
  (∀ (s : State) (d a b : Reg), s.get b = 0 → ∀ p ∈ [
      (Instr.div d a b, BitVec.allOnes 64), (.divn d a b, BitVec.allOnes 64), (.rem d a b, s.get a), (.remn d a b, s.get a)],
    (s.hart.fl.flags.getLsbD 8 = false → exec p.1 s = .next (((s.noted { id := true }).set d p.2).advance)) ∧
    (s.hart.fl.flags.getLsbD 8 = true →
      exec p.1 s = .next ((s.noted { id := true }).trap .int ((encode p.1).zeroExtend 64)))) ∧
  (∀ (s : State) (d a b : Reg), s.get a = BitVec.intMin 64 → s.get b = -1 → s.hart.fl.flags.getLsbD 9 = true →
    exec (.div d a b) s = .next (s.trap .int ((encode (.div d a b)).zeroExtend 64)))

/-- R21: recording events ORs the bit of each class that some element raised into FLAGS and leaves every other bit; for a class raised
while its EIX holds 0xFFFF it writes the lowest raising element and the PC to EIX and EPC, and it leaves those of every other class.
A write of FLAGS sets all sixteen bits, and resets EIX and EPC of exactly the classes whose sticky bit it leaves 0. -/
def Obligations.EventRegisters : Prop :=
  (∀ (evs : List (Nat × Ev)) (pc : Word) (fl : FlagRegs) (c : Fin 6),
    let t := recordEvs evs pc fl
    t.flags.getLsbD (7 - c.val) = (fl.flags.getLsbD (7 - c.val) || evs.any fun p => p.2.has c.val) ∧
    (∀ b, b < 2 ∨ 8 ≤ b → t.flags.getLsbD b = fl.flags.getLsbD b) ∧
    ((evs.any fun p => p.2.has c.val) = true → fl.eix.get c = 0xFFFF#16 →
      ∃ e, (∃ v, (e, v) ∈ evs ∧ v.has c.val = true) ∧ (∀ p ∈ evs, p.2.has c.val = true → e ≤ p.1) ∧
        t.eix.get c = BitVec.ofNat 16 e ∧ t.epc.get c = pc) ∧
    (((evs.any fun p => p.2.has c.val) = false ∨ fl.eix.get c ≠ 0xFFFF#16) →
      t.eix.get c = fl.eix.get c ∧ t.epc.get c = fl.epc.get c)) ∧
  (∀ (fl : FlagRegs) (w : BitVec 16) (c : Fin 6),
    (writeFlags fl w).flags = w ∧
    (w.getLsbD (7 - c.val) = false → (writeFlags fl w).eix.get c = 0xFFFF#16 ∧ (writeFlags fl w).epc.get c = 0) ∧
    (w.getLsbD (7 - c.val) = true →
      (writeFlags fl w).eix.get c = fl.eix.get c ∧ (writeFlags fl w).epc.get c = fl.epc.get c))

/-- R35 to R38, R51, R120 to R122: in each of the five formats and modes a sum, difference, product, quotient, fused multiply-add, square
root or conversion of finite operands is the exact real value rounded once (`IsRounded`, with OF, UF and NX). A zero sum of operands of
different signs is +0, and -0 under RDN. A NaN operand or an invalid operation (infinities cancelling, 0 x infinity, 0 / 0, infinity /
infinity, the root of a negative number) gives the canonical NaN; NV is raised for a signalling operand and for an invalid operation. A
nonzero finite value by zero is an infinity with DZ. A conversion to an integer clamps with NV, gives 0 with NV for a NaN, and raises NX
for an inexact result in range. The relations compare as extended reals, and a NaN is unordered; fmin and fmax give the smaller and the
larger, with -0 below +0, and the other operand for one NaN. -/
def Obligations.FloatArithmetic : Prop :=
  ∀ f ∈ [fp64, fp32, fp16, bf16, e8m10], ∀ g ∈ [fp64, fp32, fp16, bf16, e8m10], ∀ (rm : RMode) (a b c : Nat),
    let va := f.decode a
    let vb := f.decode b
    let vc := f.decode c
    let nan := fun nv : Bool => (f.nan, ({ nv := nv } : Ev))
    let inf := fun n : Bool => (f.inf n, ({} : Ev))
    let down := decide (rm = .rdn)
    let bad := (va.isZero && vb == .inf vb.neg) || (vb.isZero && va == .inf va.neg)
    (f.decode f.nan = .nan false ∧ ∀ n, f.decode (f.inf n) = .inf n ∧ f.decode (f.zero n) = .fin n 0 (f.emin - f.fb)) ∧
    (va.isNan = true ∨ vb.isNan = true → ∀ o ∈ [fAdd f rm a b, fSub f rm a b, fMul f rm a b, fDiv f rm a b],
      o = nan (va.isSig || vb.isSig)) ∧
    (∀ n m e n' m' e', va = .fin n m e → vb = .fin n' m' e' →
      IsRounded f rm (va.num + vb.num) (if n = n' then n else down) (fAdd f rm a b) ∧
      IsRounded f rm (va.num - vb.num) (if n = n' then down else n) (fSub f rm a b) ∧
      IsRounded f rm (va.num * vb.num) (n != n') (fMul f rm a b) ∧
      (m' ≠ 0 → IsRounded f rm (va.num / vb.num) (n != n') (fDiv f rm a b)) ∧
      (m' = 0 → fDiv f rm a b = if m = 0 then nan true else (f.inf (n != n'), { dz := true })) ∧
      (∀ n2 m2 e2, vc = .fin n2 m2 e2 →
        IsRounded f rm (va.num * vb.num + vc.num) (if (n != n') = n2 then n2 else down) (fFma f rm a b vc)) ∧
      (∀ n2, vc = .inf n2 → fFma f rm a b vc = inf n2)) ∧
    (∀ n n', va = .inf n → vb = .inf n' →
      fAdd f rm a b = (if n = n' then inf n else nan true) ∧ fSub f rm a b = (if n = n' then nan true else inf n) ∧
      fMul f rm a b = inf (n != n') ∧ fDiv f rm a b = nan true) ∧
    (∀ n n' m' e', va = .inf n → vb = .fin n' m' e' →
      (∀ o ∈ [fAdd f rm a b, fAdd f rm b a, fSub f rm a b], o = inf n) ∧ fSub f rm b a = inf (!n) ∧
      (∀ o ∈ [fMul f rm a b, fMul f rm b a], o = if m' = 0 then nan true else inf (n != n')) ∧
      fDiv f rm a b = inf (n != n') ∧ fDiv f rm b a = (f.zero (n != n'), {})) ∧
    (va.isNan = true ∨ vb.isNan = true ∨ vc.isNan = true ∨ bad = true →
      fFma f rm a b vc = nan (va.isSig || vb.isSig || vc.isSig || bad)) ∧
    (va.isNan = false → vb.isNan = false → bad = false → va = .inf va.neg ∨ vb = .inf vb.neg →
      let p := va.neg != vb.neg
      (vc = .inf p ∨ (∃ n2 m2 e2, vc = .fin n2 m2 e2) → fFma f rm a b vc = inf p) ∧ (vc = .inf (!p) → fFma f rm a b vc = nan true)) ∧
    (va.isNan = true → fSqrt f rm a = nan va.isSig ∧ va.roundTo g rm = (g.nan, { nv := va.isSig })) ∧
    (∀ n, va = .inf n → fSqrt f rm a = (if n then nan true else inf false) ∧ va.roundTo g rm = (g.inf n, {})) ∧
    (∀ n m e, va = .fin n m e → IsRounded g rm va.num n (va.roundTo g rm) ∧ (m = 0 → fSqrt f rm a = (f.zero n, {})) ∧
      (m ≠ 0 → n = true → fSqrt f rm a = nan true) ∧ (m ≠ 0 → n = false → IsRounded f rm (Real.sqrt va.num) false (fSqrt f rm a))) ∧
    (∀ i : Int, IsRounded f rm (i : ℝ) false (fOfInt f rm i)) ∧
    (∀ (sg : Bool), ∀ w ∈ [8, 16, 32, 64],
      let lo : Int := if sg then -(2 ^ (w - 1)) else 0
      let hi : Int := if sg then 2 ^ (w - 1) - 1 else 2 ^ w - 1
      let enc := fun z : Int => (z % 2 ^ w).toNat
      let o := fToInt rm sg w va
      (va.isNan = true → o = (0, { nv := true })) ∧ (∀ n, va = .inf n → o = (enc (if n then lo else hi), { nv := true })) ∧
      (∀ n m e, va = .fin n m e → ∃ r : Int, RoundsTo IsInteger rm va.num r ∧ (r < lo → o = (enc lo, { nv := true })) ∧
        (hi < r → o = (enc hi, { nv := true })) ∧
        (lo ≤ r → r ≤ hi → o.1 = enc r ∧ o.2 = { nx := o.2.nx } ∧ (o.2.nx = true ↔ (r : ℝ) ≠ va.num)))) ∧
    (fEq f a b).2 = { nv := va.isSig || vb.isSig } ∧ (fUn f a b).2 = { nv := va.isSig || vb.isSig } ∧
    (fLt f a b).2 = { nv := va.isNan || vb.isNan } ∧ (fLe f a b).2 = { nv := va.isNan || vb.isNan } ∧
    (va.isNan = true ∨ vb.isNan = true →
      (fEq f a b).1 = false ∧ (fLt f a b).1 = false ∧ (fLe f a b).1 = false ∧ (fUn f a b).1 = true) ∧
    (va.isNan = false → vb.isNan = false → ((fEq f a b).1 = true ↔ va.ext = vb.ext) ∧ ((fLt f a b).1 = true ↔ va.ext < vb.ext) ∧
      ((fLe f a b).1 = true ↔ va.ext ≤ vb.ext) ∧ (fUn f a b).1 = false) ∧
    (∀ mx : Bool, let o := fMinMax f mx a b
      let v := f.decode o.1
      o.2 = { nv := va.isSig || vb.isSig } ∧ (va.isNan = true → vb.isNan = true → o.1 = f.nan) ∧
      (va.isNan = true → vb.isNan = false → v = vb) ∧ (va.isNan = false → vb.isNan = true → v = va) ∧
      (va.isNan = false → vb.isNan = false → (v = va ∨ v = vb) ∧ v.ext = (if mx then max va.ext vb.ext else min va.ext vb.ext) ∧
        (va.isZero = true → vb.isZero = true → v.neg = if mx then va.neg && vb.neg else va.neg || vb.neg)))

/-- R120 to R122: each scalar floating-point word computes its operation (FloatArithmetic) on the bits of its operands in the format P names, with the
rounding mode of its RM field or of VTYPE, records the events and, when no enabled class is raised, writes the result, zero-extended
(`tos32` sign-extended), and retires; when one is, it traps with FP, the events recorded and x[D] as it was. -/
def Obligations.FpuResults : Prop :=
  ∀ (s : State) (d a b : Reg) (p : Bool) (m : Rm),
    let f := pFmt p
    let r := rmOf s.hart m
    let x := s.fget p a
    let y := s.fget p b
    ∀ q ∈ [
      (Instr.fadd d a b p m, BitVec.ofNat 64 (fAdd f r x y).1, (fAdd f r x y).2),
      (.fsub d a b p m, BitVec.ofNat 64 (fSub f r x y).1, (fSub f r x y).2),
      (.fmul d a b p m, BitVec.ofNat 64 (fMul f r x y).1, (fMul f r x y).2),
      (.fma d a b p m, BitVec.ofNat 64 (fFma f r x y (f.decode (s.fget p d))).1, (fFma f r x y (f.decode (s.fget p d))).2),
      (.fdiv d a b p m, BitVec.ofNat 64 (fDiv f r x y).1, (fDiv f r x y).2),
      (.fsqrt d a p m, BitVec.ofNat 64 (fSqrt f r x).1, (fSqrt f r x).2),
      (.fmin d a b p, BitVec.ofNat 64 (fMinMax f false x y).1, (fMinMax f false x y).2),
      (.fmax d a b p, BitVec.ofNat 64 (fMinMax f true x y).1, (fMinMax f true x y).2),
      (.fcmpEq d a b p, if (fEq f x y).1 then 1 else 0, (fEq f x y).2),
      (.fcmpLt d a b p, if (fLt f x y).1 then 1 else 0, (fLt f x y).2),
      (.fcmpLe d a b p, if (fLe f x y).1 then 1 else 0, (fLe f x y).2),
      (.fcmpUn d a b p, if (fUn f x y).1 then 1 else 0, (fUn f x y).2),
      (.fcvtTos64 d a p m, BitVec.ofNat 64 (fToInt r true 64 (f.decode x)).1, (fToInt r true 64 (f.decode x)).2),
      (.fcvtTon64 d a p m, BitVec.ofNat 64 (fToInt r false 64 (f.decode x)).1, (fToInt r false 64 (f.decode x)).2),
      (.fcvtTon32 d a p m, BitVec.ofNat 64 (fToInt r false 32 (f.decode x)).1, (fToInt r false 32 (f.decode x)).2),
      (.fcvtTos32 d a p m, sextW (fToInt r true 32 (f.decode x)).1 32, (fToInt r true 32 (f.decode x)).2),
      (.fcvtFroms64 d a p m, BitVec.ofNat 64 (fOfInt f r (s.get a).toInt).1, (fOfInt f r (s.get a).toInt).2),
      (.fcvtFromn64 d a p m, BitVec.ofNat 64 (fOfInt f r (s.get a).toNat).1, (fOfInt f r (s.get a).toNat).2),
      (.fcvtTofp d a p m, BitVec.ofNat 64 ((f.decode x).roundTo (pFmt (!p)) r).1, ((f.decode x).roundTo (pFmt (!p)) r).2)],
    (q.2.2.trap s.hart.fl.flags = none → exec q.1 s = .next (((s.noted q.2.2).set d q.2.1).advance)) ∧
    (∀ c, q.2.2.trap s.hart.fl.flags = some c →
      exec q.1 s = .next ((s.noted q.2.2).trap c ((encode q.1).zeroExtend 64)))

/-- R123, R66: a branch whose condition holds continues at PC + 4 x sext(DISP13), any other at PC + 4; `j`, `jal` and an aligned `jalr`
continue at their targets, the link is PC + 4, and `jalr` reads x[A] before it writes x[D]; a `jalr` whose target is not a multiple
of 4 traps with MISALIGN and writes nothing. The target reads its CV bit as 0 (`fresh`), and a fetch fault there traps with TPC = target. -/
def Obligations.BranchesAndJumps : Prop :=
  (∀ (s : State) (a b : Reg) (i : BitVec 13), ∀ p ∈ [
      (Instr.bEq a b i, decide (s.get a = s.get b)), (.bNe a b i, decide (s.get a ≠ s.get b)),
      (.bLt a b i, decide ((s.get a).toInt < (s.get b).toInt)), (.bGe a b i, decide ((s.get b).toInt ≤ (s.get a).toInt)),
      (.bLtn a b i, decide ((s.get a).toNat < (s.get b).toNat)), (.bGen a b i, decide ((s.get b).toNat ≤ (s.get a).toNat)),
      (.bBs a b i, (s.get a).getLsbD ((s.get b).toNat % 64)), (.bBc a b i, !(s.get a).getLsbD ((s.get b).toNat % 64))],
    exec p.1 s = .next (if p.2 then s.jump (s.hart.pc + 4 * i.signExtend 64) else s.advance)) ∧
  (∀ (s : State) (i : BitVec 26), exec (.j i) s = .next (s.jump (s.hart.pc + 4 * i.signExtend 64)) ∧
    exec (.jal i) s = .next ((s.set 1 (s.hart.pc + 4)).jump (s.hart.pc + 4 * i.signExtend 64))) ∧
  (∀ (s : State) (d a : Reg) (i : BitVec 16), let t := s.get a + i.signExtend 64
    (t.toNat % 4 = 0 → exec (.jalr d a i) s = .next ((s.set d (s.hart.pc + 4)).jump t)) ∧
    (t.toNat % 4 ≠ 0 → exec (.jalr d a i) s = .next (s.trap .misalign t))) ∧
  (∀ (s : State) (t : Word), (s.jump t).hart.pc = t ∧ (s.jump t).hart.vs.conv = .fresh ∧
    s.advance.hart.pc = s.hart.pc + 4 ∧ s.advance.hart.vs.conv = .other) ∧
  (∀ (s u : State) (t : Word) (c : Cause), (s.jump t).fetch = (.fault c, u) →
    ∃ v, exec .fetchFault (s.jump t) = .next v ∧ v.hart.tr.tpc = t)

/-- What the ALU, immediate, multiply, branch and jump words leave as it was: every x register but the destination (x1 for `jal`), FLAGS
and the event registers, every other register of the hart, the other harts, and every byte of memory. What division, remainder and
floating-point words leave as it was, whether they retire or trap: every x register but the destination, every register of the hart but
FLAGS with the event registers and what a trap writes, the other harts, and every byte of memory. R5: x0 reads 0 and discards writes. -/
def Obligations.ScalarFrame : Prop :=
  (∀ (s t : State) (d a b : Reg), ∀ i ∈ [
      Instr.add d a b, .sub d a b, .and d a b, .or d a b, .xor d a b, .sll d a b, .srl d a b, .sra d a b, .slt d a b, .sltn d a b,
      .min d a b, .max d a b, .minn d a b, .maxn d a b, .clz d a, .ctz d a, .popc d a, .mul d a b, .mulh d a b, .mulhn d a b],
    exec i s = .next t → ScalarOnly s t ∧ KeepsX d s t ∧ ∀ k, t.byte k = s.byte k) ∧
  (∀ (s t : State) (d a : Reg) (n : BitVec 16) (m : BitVec 6), ∀ i ∈ [
      Instr.addi d a n, .andi d a n, .ori d a n, .xori d a n, .slti d a n, .slli d a m, .srli d a m, .srai d a m, .lui d n, .auipc d n],
    exec i s = .next t → ScalarOnly s t ∧ KeepsX d s t ∧ ∀ k, t.byte k = s.byte k) ∧
  (∀ (s t : State) (a b : Reg) (n : BitVec 13) (j : BitVec 26), ∀ i ∈ [
      Instr.bEq a b n, .bNe a b n, .bLt a b n, .bGe a b n, .bLtn a b n, .bGen a b n, .bBs a b n, .bBc a b n, .j j],
    exec i s = .next t → ScalarOnly s t ∧ (∀ r, t.get r = s.get r) ∧ ∀ k, t.byte k = s.byte k) ∧
  (∀ (s t : State) (j : BitVec 26), exec (.jal j) s = .next t → ScalarOnly s t ∧ KeepsX 1 s t ∧ ∀ k, t.byte k = s.byte k) ∧
  (∀ (s : State) (d : Reg) (w : Word), (s.set d w).get d = (if d = 0 then 0 else w) ∧ s.get 0 = 0) ∧
  (∀ (s t : State) (d a b : Reg) (p : Bool) (m : Rm), ∀ i ∈ [
        Instr.div d a b, .divn d a b, .rem d a b, .remn d a b, .fadd d a b p m, .fsub d a b p m, .fmul d a b p m, .fma d a b p m,
        .fdiv d a b p m, .fsqrt d a p m, .fmin d a b p, .fmax d a b p, .fcmpEq d a b p, .fcmpLt d a b p, .fcmpLe d a b p,
        .fcmpUn d a b p, .fcvtTos64 d a p m, .fcvtTon64 d a p m, .fcvtFroms64 d a p m, .fcvtFromn64 d a p m, .fcvtTofp d a p m,
        .fcvtTos32 d a p m, .fcvtTon32 d a p m],
      exec i s = .next t → FlagsOnly s t ∧ KeepsX d s t ∧ ∀ k, t.byte k = s.byte k)


/-! ### Scalar memory, fences, system registers and harts -/

/-- R115, R116: a load of b bytes at a = x[A] + sext(DISP13) whose address is not a multiple of b traps with MISALIGN and a in TVAL. A
load of allocated scratchpad bytes, with nothing in the SSB, writes x[D] with the little-endian value of the bytes, extended by sign
or by zero, and retires. Anywhere, a load whose access gives a value writes it so, one whose access fails a check traps with its cause
and a in TVAL, and one that must wait runs again. R281: a store to allocated
scratchpad bytes, with room in the SSB, appends its low b bytes for that place to the SSB and retires; a store traps and waits as a load
does, and then appends nothing. -/
def Obligations.LoadStoreResults : Prop :=
  (∀ (s : State) (d a : Reg) (i : BitVec 13), ∀ p ∈ ([
      (Instr.ldS8 d a i, 1, fun v => (BitVec.ofNat 8 v).signExtend 64), (.ldN8 d a i, 1, fun v => (BitVec.ofNat 8 v).zeroExtend 64),
      (.ldS16 d a i, 2, fun v => (BitVec.ofNat 16 v).signExtend 64), (.ldN16 d a i, 2, fun v => (BitVec.ofNat 16 v).zeroExtend 64),
      (.ldS32 d a i, 4, fun v => (BitVec.ofNat 32 v).signExtend 64), (.ldN32 d a i, 4, fun v => (BitVec.ofNat 32 v).zeroExtend 64),
      (.ld64 d a i, 8, fun v => BitVec.ofNat 64 v)] : List (Instr × Nat × (Nat → Word))),
    let addr := s.get a + i.signExtend 64
    (addr.toNat % p.2.1 ≠ 0 → exec p.1 s = .next (s.trap .misalign addr)) ∧
    (∀ off, SpadAt s addr p.2.1 off → s.hart.ssb = [] →
      exec p.1 s = .next (s.set d (p.2.2 (s.memNat (spadKey s.hart.core off) p.2.1))).advance) ∧
    (∀ v t, v < 2 ^ (8 * p.2.1) → s.scalarLoad addr.toNat p.2.1 = (.val v, t) → exec p.1 s = .next (t.set d (p.2.2 v)).advance) ∧
    (∀ c t, s.scalarLoad addr.toNat p.2.1 = (.fault c, t) → exec p.1 s = .next (t.trap c addr)) ∧
    (∀ w t, s.scalarLoad addr.toNat p.2.1 = (.wait w, t) → exec p.1 s = .next (t.waitFor w))) ∧
  (∀ (s : State) (d a : Reg) (i : BitVec 13), ∀ p ∈ [
      (Instr.st8 d a i, 1), (.st16 d a i, 2), (.st32 d a i, 4), (.st64 d a i, 8)],
    let addr := s.get a + i.signExtend 64
    (addr.toNat % p.2 ≠ 0 → exec p.1 s = .next (s.trap .misalign addr)) ∧
    (∀ off, SpadAt s addr p.2 off → s.hart.ssb.length < 32 →
      exec p.1 s = .next (s.onHart fun h => { h with ssb := h.ssb ++
        [{ loc := { kind := .bank, key := spadKey s.hart.core off }, va := addr.toNat, len := p.2, data := s.get d }] }).advance) ∧
    (∀ v t, s.scalarStore addr.toNat p.2 (s.get d) = (.val v, t) → exec p.1 s = .next t.advance) ∧
    (∀ c t, s.scalarStore addr.toNat p.2 (s.get d) = (.fault c, t) → exec p.1 s = .next (t.trap c addr)) ∧
    (∀ w t, s.scalarStore addr.toNat p.2 (s.get d) = (.wait w, t) → exec p.1 s = .next (t.waitFor w)))

/-- R53, R158: the tree (`node`, level by level over the element positions) and its final addition, each rounding at its lowest leaf. R54: the
sum in index order. R157: the extreme of init and the active elements, with -0 below +0; any NaN gives the canonical NaN, with NV for a
signalling one, which for init belongs to element 0 (the model's choice, log entry 174). R162, R163: one strip: the maximum, the reference
exponent, the factor, the probabilities, the compensated sum, and the events with their elements. -/
def Obligations.ReductionFunctions : Prop :=
  (∀ (add : Adder) (init : Nat) (els : List Leaf) (node : Nat → Nat → Leaf), (∀ i, node 0 i = els[i]?.join) →
    (∀ l i, node (l + 1) i = match node l (2 * i), node l (2 * i + 1) with
      | some (j, a), some (_, b) => some (j, (add a b).1)
      | some x, none => some x
      | none, y => y) →
    ∀ n, els.length ≤ 2 ^ n → n ≤ 12 →
      (redTree add init els).1 = (match node n 0 with | none => init | some (_, r) => (add init r).1) ∧
      ∀ i ev, (i, ev) ∈ (redTree add init els).2 ↔
        (∃ l p a j b, l < n ∧ node l (2 * p) = some (i, a) ∧ node l (2 * p + 1) = some (j, b) ∧ ev = (add a b).2) ∨
        (i = 0 ∧ ∃ j r, node n 0 = some (j, r) ∧ ev = (add init r).2)) ∧
  (∀ (op : Adder) (init : Nat) (els : List Leaf), let run := fun l : List (Nat × Nat) => l.foldl (fun x p => (op x p.2).1) init
    (redSeq op init els).1 = run els.reduceOption ∧
    ∀ i ev, (i, ev) ∈ (redSeq op init els).2 ↔ ∃ l a r, els.reduceOption = l ++ (i, a) :: r ∧ ev = (op (run l) a).2) ∧
  (∀ (t : VT) (mx : Bool) (init : Nat) (els : List Leaf), t.isFloat = true → let f := t.fmt
    let o := redExtreme t mx init els
    let vals := init :: els.reduceOption.map (·.2)
    (els.reduceOption = [] → o = (init, [])) ∧
    (els.reduceOption ≠ [] → o.2 = (0, { nv := (f.decode init).isSig }) :: els.reduceOption.map (fun p => (p.1, { nv := (f.decode p.2).isSig })) ∧
      ((∃ x ∈ vals, (f.decode x).isNan = true) → o.1 = f.nan) ∧
      ((∀ x ∈ vals, (f.decode x).isNan = false) → (∃ x ∈ vals, f.decode o.1 = f.decode x) ∧ o.1 % 2 ^ f.low = 0 ∧ ∀ x ∈ vals,
        (if mx then (f.decode x).ext ≤ (f.decode o.1).ext else (f.decode o.1).ext ≤ (f.decode x).ext) ∧
        ((f.decode x).isZero = true → (f.decode o.1).isZero = true → if mx then (f.decode o.1).neg = true → (f.decode x).neg = true
          else (f.decode x).neg = true → (f.decode o.1).neg = true)))) ∧
  (∀ (lim : Int) (st : Strip) (c : Nat) (els : List Leaf), 0 ≤ lim → let o := stripRow lim st c els
    (els.reduceOption = [] → o = { st := st, f := 0x3F800000, p := els, evs := [] }) ∧
    (els.reduceOption ≠ [] →
      let mul := fMul fp32 .rne
      let add := fAdd fp32 .rne
      let sub := fSub fp32 .rne
      let y := fun a => mul a c
      let m := fp32.decode o.st.m
      let rises := (∃ n q e, m = .fin n q e) ∧ (st.r = none ∨ ∃ r, st.r = some r ∧ (r : ℝ) + 8 < m.num)
      let d := fun z => finish fp32 .rne ((fp32.decode z).add .rne (intVal (-(o.st.r.getD 0))))
      let hi := mul st.hi o.f
      let lo := mul st.lo o.f
      let t := redTree add 0 o.p
      let sh := add hi.1 t.1
      let bv := sub sh.1 hi.1
      let av := sub sh.1 bv.1
      let x1 := sub hi.1 av.1
      let x2 := sub t.1 bv.1
      let e1 := add x1.1 x2.1
      let l2 := add lo.1 e1.1
      let h2 := add sh.1 l2.1
      let z := sub h2.1 sh.1
      let l3 := sub l2.1 z.1
      o.st.m = els.reduceOption.foldl (fun x p => (fMinMax fp32 true x (y p.2).1).1) st.m ∧
      (rises → o.st.r = some (max (-lim) (min lim ⌈m.num⌉))) ∧ (¬ rises → o.st.r = st.r) ∧
      (∀ u, let w := fp32.decode u
        (w.isNan = true → d u = (fp32.nan, { nv := w.isSig })) ∧ (∀ n, w = .inf n → d u = (fp32.inf n, {})) ∧
        ∀ n q e, w = .fin n q e → IsRounded fp32 .rne (w.num - (o.st.r.getD 0 : Int)) false (d u)) ∧
      o.p = els.map (fun l => l.map fun x => (x.1, (exp2t (d (y x.2).1).1).1)) ∧ o.st.hi = h2.1 ∧ o.st.lo = l3.1 ∧
      ∃ fe : Ev, (o.st.r = st.r → o.f = 0x3F800000 ∧ fe = {}) ∧ (o.st.r ≠ st.r → st.r = none → o.f = 0 ∧ fe = {}) ∧
        (∀ r r', st.r = some r → o.st.r = some r' → r ≠ r' → IsRounded fp32 .rne ((2 : ℝ) ^ (r - r')) false (o.f, fe)) ∧
        ∀ sel ∈ [Ev.nv, Ev.dz, Ev.of, Ev.uf, Ev.nx, Ev.sat, Ev.io, Ev.id], ∀ i, (∃ ev, (i, ev) ∈ o.evs ∧ sel ev = true) ↔
          (∃ a, some (i, a) ∈ els ∧ ∃ ev ∈ [(y a).2, { nv := (fp32.decode (y a).1).isNan }, (d (y a).1).2, (exp2t (d (y a).1).1).2], sel ev = true) ∨
          (∃ ev, (i, ev) ∈ t.2 ∧ sel ev = true) ∨
          (i = 0 ∧ ∃ ev ∈ [fe, hi.2, lo.2, sh.2, bv.2, av.2, x1.2, x2.2, e1.2, l2.2, h2.2, z.2, l3.2], sel ev = true)))

/-- R116, R118: after the alignment, a local address that is malformed and a global one with bits 62:52 set traps with PAGE; where the walk
of the page tables ends in a fault (PAGE without a translation, or that of reading an entry, R343), with its cause; while it waits at the
home of an entry, so does the access. Scratchpad bytes not allocated to the task and a page without the permission trap with PERM (an
atomic and a store need W); a page of another partition traps with PARTITION; a remote page without AR, or over a route that is not a
direct link (R362), makes an atomic trap with ATOMIC_PATH. TVAL is a. -/
def Obligations.AddressChecks : Prop :=
  ∀ (s : State) (d a b : Reg) (sc : Scope) (q : Bool), s.hart.ssb = [] → s.hart.atomReply = none → (q = true → s.hart.vs.vq = []) →
    ∀ p ∈ [(Instr.ld64 d a 0, Acc.read, false), (.st64 d a 0, .write, false), (.amoAdd d a b true sc q false, .write, true),
      (.cas d a b true sc q false, .write, true)],
    let addr := s.get a
    let n := addr.toNat
    n % 8 = 0 →
    (2 ^ 63 ≤ n → localTarget s.hart.core n = none → exec p.1 s = .next (s.trap .page addr)) ∧
    (2 ^ 63 ≤ n → ∀ c off, localTarget s.hart.core n = some (c, off) → s.spadOwned s.hart.tk.task c off 8 = false →
      exec p.1 s = .next (s.trap .perm addr)) ∧
    (n < 2 ^ 63 → 2 ^ 52 ≤ n → exec p.1 s = .next (s.trap .page addr)) ∧
    (n < 2 ^ 52 → ∀ c, s.leafFor s.hart.core s.hart.tk.part s.hart.tk.ctx n = .error (some c) → exec p.1 s = .next (s.trap c addr)) ∧
    (n < 2 ^ 52 → s.leafFor s.hart.core s.hart.tk.part s.hart.tk.ctx n = .error none → exec p.1 s = .next (s.waitFor .memory)) ∧
    (n < 2 ^ 52 → ∀ e k, s.leafFor s.hart.core s.hart.tk.part s.hart.tk.ctx n = .ok (e, k) →
      (e.getLsbD (if p.2.1 = .read then 2 else 3) = false → exec p.1 s = .next (s.trap .perm addr)) ∧
      (e.getLsbD (if p.2.1 = .read then 2 else 3) = true → e.getLsbD 8 = false →
        s.owns s.hart.tk.part (ptePa e / 2 ^ k * 2 ^ k + n % 2 ^ k) (e.getLsbD 7) = false →
        exec p.1 s = .next (s.trap .partition addr)) ∧
      (e.getLsbD 3 = true → e.getLsbD 8 = true → e.getLsbD 9 = false ∨ Config.direct (bitsOf e.toNat 63 56) = false → p.2.2 = true →
        exec p.1 s = .next (s.trap .atomicPath addr)))

/-- R281, R282: right after a store to allocated scratchpad bytes, a load of the same address and size gives the low bytes of the
stored value, though memory still holds the old ones. The drain of a scratchpad store at the head of an SSB, to a row that is neither
under test nor fenced off, writes exactly its bytes to the bank and takes it out; the rest of memory, and every other hart, stay as they were,
when memory is in the canonical form (the invariant StepKeepsCanonical). A store to a row fenced off is taken out and its hart has ECC to
take (R389; the model's reading, log entry 156). -/
def Obligations.StoreThenLoad : Prop :=
  (∀ (s : State) (d e a : Reg) (i : BitVec 13), ∀ p ∈ [
      (Instr.st8 d a i, Instr.ldN8 e a i, 1), (.st16 d a i, .ldN16 e a i, 2), (.st32 d a i, .ldN32 e a i, 4),
      (.st64 d a i, .ld64 e a i, 8)],
    ∀ off, SpadAt s (s.get a + i.signExtend 64) p.2.2 off → s.hart.ssb.length < 32 →
      ∃ t u, exec p.1 s = .next t ∧ exec p.2.1 t = .next u ∧ t.mem = s.mem ∧ u.mem = s.mem ∧
        (e ≠ 0 → u.get e = BitVec.ofNat 64 ((s.get d).toNat % 2 ^ (8 * p.2.2)))) ∧
  (∀ (s : State) (h : Nat) (g : Hart) (e : SsbEntry) (r : List SsbEntry), Memory.wf s.mem = true → s.hartAt h = some g → g.ssb = e :: r → e.loc.kind = .bank →
    (s.deadAt e.loc.key 1 = false → s.bankTest e.loc.key = false →
      ∃ t, exec (.ssbDrain h) s = .next t ∧ t.memNat e.loc.key e.len = e.data.toNat % 2 ^ (8 * e.len) ∧
      KeepsBytes e.loc.key e.len s t ∧ t.hartAt h = some { g with ssb := r } ∧
      ∀ j, j ≠ h → t.hartAt j = s.hartAt j) ∧
    (s.deadAt e.loc.key 1 = true → ∃ t, exec (.ssbDrain h) s = .next t ∧ t.mem = s.mem ∧
      HartSet s t h { g with ssb := r, lostStores := g.lostStores ++ [(e.va, Cause.ecc)] }))

/-- R115, R116, R281: a load that retires, traps or waits changes no x register but its destination and no byte of memory, when no
commutative range is declared and no write waits at a controller (those bytes may go to DRAM first); a store changes no x register and,
when no commutative range is declared, which reading a table entry could collect, no byte of memory: it appends to the SSB at most one
entry, for the place its address translates to. Neither changes any other register
of the hart, another hart, or an engine. -/
def Obligations.LoadStoreFrame : Prop :=
  (∀ (s t : State) (d a : Reg) (i : BitVec 13), ∀ j ∈ [
      Instr.ldS8 d a i, .ldN8 d a i, .ldS16 d a i, .ldN16 d a i, .ldS32 d a i, .ldN32 d a i, .ld64 d a i],
    exec j s = .next t → KeepsX d s t ∧ KeepsOther s t ∧ t.hart.ssb = s.hart.ssb ∧ t.hart.psf = s.hart.psf ∧
      (s.coh.ranges = [] → s.coh.wq = [] → ∀ k, t.byte k = s.byte k)) ∧
  (∀ (s t : State) (d a : Reg) (i : BitVec 13), ∀ p ∈ [(Instr.st8 d a i, 1), (.st16 d a i, 2), (.st32 d a i, 4), (.st64 d a i, 8)],
    exec p.1 s = .next t → (∀ r, t.get r = s.get r) ∧ KeepsOther s t ∧ t.hart.psf = s.hart.psf ∧
      (s.coh.ranges = [] → ∀ k, t.byte k = s.byte k) ∧
      (t.hart.ssb = s.hart.ssb ∨ ∃ loc, s.scalarLoc s.hart (s.maddr a i).toNat p.2 .write = .ok loc ∧
        t.hart.ssb = s.hart.ssb ++ [{ loc := loc, va := (s.maddr a i).toNat, len := p.2, data := s.get d }]))

/-- R117, R119: an atomic without `.rel` on allocated scratchpad bytes, with the SSB empty, stores f of the old word and x[B] (`cas`: x[B]
if the old word equals x[D]) and writes the old word to x[D], a 32-bit one by sign or, for `minn` and `maxn`, by zero; the rest of
memory, in the canonical form (the invariant StepKeepsCanonical), and every other register stay as they were. A misaligned address traps
with MISALIGN. -/
def Obligations.AtomicResults : Prop :=
  ∀ (s : State) (d a b : Reg) (wide : Bool) (sc : Scope) (q : Bool) (off : Nat),
    let n := if wide then 8 else 4
    let key := spadKey s.hart.core off
    let old := s.memNat key n
    let x := (s.get b).toNat % 2 ^ (8 * n)
    let c := (s.get d).toNat % 2 ^ (8 * n)
    let sg := fun v : Nat => if v < 2 ^ (8 * n - 1) then (v : Int) else v - 2 ^ (8 * n)
    let ext := fun u => if wide || u then BitVec.ofNat 64 old else (BitVec.ofNat 32 old).signExtend 64
    Memory.wf s.mem = true → s.hart.ssb = [] → s.hart.atomReply = none → (q = true → s.hart.vs.vq = []) →
    ∀ p ∈ [(Instr.amoAdd d a b wide sc q false, (old + x) % 2 ^ (8 * n), false), (.amoAnd d a b wide sc q false, old &&& x, false),
      (.amoOr d a b wide sc q false, old ||| x, false), (.amoXor d a b wide sc q false, old ^^^ x, false),
      (.amoMin d a b wide sc q false, if sg old ≤ sg x then old else x, false),
      (.amoMinn d a b wide sc q false, min old x, true),
      (.amoMax d a b wide sc q false, if sg old ≤ sg x then x else old, false),
      (.amoMaxn d a b wide sc q false, max old x, true),
      (.amoSwap d a b wide sc q false, x, false), (.cas d a b wide sc q false, if old = c then x else old, false)],
    (SpadAt s (s.get a) n off → ∃ t, exec p.1 s = .next t ∧ t.memNat key n = p.2.1 ∧ KeepsBytes key n s t ∧ KeepsX d s t ∧
      (d ≠ 0 → t.get d = ext p.2.2) ∧ KeepsOther s t ∧ t.hart.pc = s.hart.pc + 4 ∧ t.hart.ssb = []) ∧
    ((s.get a).toNat % n ≠ 0 → exec p.1 s = .next (s.trap .misalign (s.get a)))

/-- R117, R118, R286: wherever its word lies, an atomic changes no x register but its destination, no other register of the hart and no
other hart; it waits while the SSB holds a store, and `.acq` while the vector queue holds a word: R117 puts the acquire after the atomic, and
that its vector wait comes before is the model's reading (log entry 41). With `.rel` it waits for what a release waits for, and then does what
it does without `.rel` after the release. -/
def Obligations.AtomicFrame : Prop :=
  ∀ (s : State) (d a b : Reg) (w : Bool) (sc : Scope) (q : Bool), ∀ f ∈ [
      Instr.amoAdd, Instr.amoAnd, Instr.amoOr, Instr.amoXor, Instr.amoMin, Instr.amoMinn, Instr.amoMax, Instr.amoMaxn, Instr.amoSwap,
      Instr.cas],
    (∀ (l : Bool) (t : State), exec (f d a b w sc q l) s = .next t → KeepsX d s t ∧ KeepsOther s t ∧ t.hart.ssb = s.hart.ssb) ∧
    (s.hart.atomReply = none → q = true → s.hart.vs.vq ≠ [] → exec (f d a b w sc q false) s = .next (s.waitFor .vector)) ∧
    (s.hart.atomReply = none → s.hart.vs.vq = [] → s.hart.ssb ≠ [] → exec (f d a b w sc q false) s = .next (s.waitFor .drain)) ∧
    (∀ t, s.hart.atomReply = none → s.release sc false = .ok t → exec (f d a b w sc q true) s = exec (f d a b w sc q false) t) ∧
    (∀ x, s.hart.atomReply = none → (q = true → s.hart.vs.vq = []) → s.release sc false = .error x →
      exec (f d a b w sc q true) s = .next (s.waitFor x))

/-- R128, R129: each of them waits while the vector queue holds a word. An acquire then self-invalidates the core's L1 at `.clu` and
wider and, with RO at any scope (the model's reading, log entry 171), empties its read-only ways. A release retires once the SSB, the FIFOs and, as its scope and ENG say, engine
operations, remote writes and combine-buffer copies are gone, and waits before; a full fence does both; `fence.sv` waits for SSB and
FIFOs and self-invalidates; `lsync` waits for the FIFOs; `inv.r` self-invalidates the lines that hold a byte of its range, those that its
addresses translate to, and of more than 65,536 bytes every line; it leaves the other lines, and waits while the walk for one of its lines
waits; `inv.ro` empties the read-only ways. No x register, no other register and no byte of memory changes. -/
def Obligations.FenceResults : Prop :=
  ∀ (s : State) (sc : Scope) (r e : Bool) (a b : Reg),
    (s.hart.vs.vq ≠ [] → ∀ i ∈ [Instr.fenceAcq sc r, .fenceRel sc e, .fenceFull sc r e, .fenceSv, .lsync, .invR a b, .invRo],
      exec i s = .next (s.waitFor .vector)) ∧
    (s.hart.vs.vq = [] → (s.hart.ssb ≠ [] ∨ s.hart.fifosEmpty = false → ∀ i ∈ [Instr.fenceRel sc e, .fenceFull sc r e, .fenceSv],
        exec i s = .next (s.waitFor .drain)) ∧
      (s.hart.fifosEmpty = false → exec .lsync s = .next (s.waitFor .drain))) ∧
    (s.hart.vs.vq = [] → s.hart.ssb = [] → s.hart.fifosEmpty = true → e = true → s.engineBusy s.hart = true →
      ∀ i ∈ [Instr.fenceRel sc e, .fenceFull sc r e], exec i s = .next (s.waitFor .engine)) ∧
    (s.hart.vs.vq = [] → ∃ t, exec (.fenceAcq sc r) s = .next t ∧ Retired s t ∧ (wideScope sc = true → SelfInvalidated s t) ∧
      (r = true → (t.coreAt s.hart.core).ro = []) ∧ (wideScope sc = false → r = false → t.cores = s.cores)) ∧
    (Settled s sc e → ∃ t, exec (.fenceRel sc e) s = .next t ∧ Retired s t ∧ t.cores = s.cores) ∧
    (Settled s sc e → ∃ t, exec (.fenceFull sc r e) s = .next t ∧ Retired s t ∧ (wideScope sc = true → SelfInvalidated s t) ∧
      (r = true → (t.coreAt s.hart.core).ro = [])) ∧
    (s.hart.vs.vq = [] → s.hart.ssb = [] → s.hart.fifosEmpty = true →
      ∃ t, exec .fenceSv s = .next t ∧ Retired s t ∧ SelfInvalidated s t) ∧
    (s.hart.vs.vq = [] → s.hart.fifosEmpty = true → exec .lsync s = .next s.advance) ∧
    (s.hart.vs.vq = [] →
      let waits := 0 < (s.get b).toNat ∧ (s.get b).toNat ≤ 65536 ∧ LineAt.wait ∈ s.linesOf (s.get a).toNat (s.get b).toNat
      (waits → exec (.invR a b) s = .next (s.waitFor .memory)) ∧
      (¬ waits → ∃ t, exec (.invR a b) s = .next t ∧ Retired s t ∧ InvalidatedOn s t fun l =>
        65536 < (s.get b).toNat ∨ (0 < (s.get b).toNat ∧ LineAt.line l ∈ s.linesOf (s.get a).toNat (s.get b).toNat)) ∧
      (0 < (s.get b).toNat → (∀ t ∈ (s.coreAt s.hart.core).tlb, 12 ≤ t.logSize) → ∀ i, i < (s.get b).toNat →
        let v := ((s.get a).toNat + i) % 2 ^ 64
        v < 2 ^ 52 → ∀ p k, s.leafFor s.hart.core s.hart.tk.part s.hart.tk.ctx v = .ok (p, k) → p.getLsbD 8 = false →
          LineAt.line (lineOf (dramKey (ptePa p / 2 ^ k * 2 ^ k + v % 2 ^ k))) ∈ s.linesOf (s.get a).toNat (s.get b).toNat)) ∧
    (s.hart.vs.vq = [] → ∃ t, exec .invRo s = .next t ∧ Retired s t ∧ (t.coreAt s.hart.core).ro = [] ∧
      (t.coreAt s.hart.core).l1 = (s.coreAt s.hart.core).l1)

/-- R27, R127, R207, R259: `sysget` writes x[D] with the register its number names, and `sysput` writes x[A] to it, both after the vector
wait; FLAGS as R20 and R21 say, TCAUSE with PK = 0 discarding the parked words (R24), SHARE with 1 for 0, SKIPD and MHCTL only with legal values: SKIPD takes MODE and DELTA, DMIN lowered to
DELTA, and CUR as R216 says: 0, DELTA, or, when MODE stays at 10, what it was, brought into the new range. A number that no table names, a `sysput` to a
read-only register and an illegal value of SKIPD or MHCTL trap with ILLEGAL and the word in TVAL. -/
def Obligations.SystemRegisters : Prop :=
  ∀ (s : State) (r : Reg) (hi : BitVec 5) (lo : BitVec 7) (i : Fin 6) (j : Fin 8),
    let n := hi.toNat * 128 + lo.toNat
    let h := s.hart
    let w := s.get r
    (s.hart.vs.vq = [] → ∀ p ∈ [
        (0x000, h.vr.vtype), (0x001, BitVec.ofNat 64 h.vr.vl), (0x002, BitVec.ofNat 64 (h.quads.count % 16 + h.quads.first % 8 * 16)),
        (0x010, h.fl.flags.zeroExtend 64), (0x020 + i.val, (h.fl.eix.get i).zeroExtend 64), (0x028 + i.val, h.fl.epc.get i),
        (0x040, h.tr.tvec), (0x041, h.tr.tcause), (0x042, h.tr.tval), (0x043, h.tr.tpc), (0x044, h.tr.eri), (0x045, h.tr.tnpc),
        (0x050, h.tk.share.zeroExtend 64), (0x051, h.tk.gmem), (0x052, h.mgrant.zeroExtend 64), (0x053, BitVec.ofNat 64 (hartIdOf h.id)),
        (0x054, BitVec.ofNat 64 (h.tk.index % 2 ^ 13 + h.tk.isChild.toNat * 2 ^ 15 + h.tk.count % 2 ^ 13 * 2 ^ 16)),
        (0x060 + j.val, h.f.get j), (0x070, h.skipd), (0x071, h.mhb), (0x072, h.mhctl)],
      n = p.1 → exec (.sysget r hi lo) s = .next (s.set r p.2).advance) ∧
    (s.hart.vs.vq = [] → ∀ p ∈ [
        (0x010, { h with fl := writeFlags h.fl (w.truncate 16) }),
        (0x020 + i.val, { h with fl := { h.fl with eix := Vector.set h.fl.eix i.val (w.truncate 16) i.isLt } }),
        (0x028 + i.val, { h with fl := { h.fl with epc := Vector.set h.fl.epc i.val w i.isLt } }),
        (0x040, { h with tr := { h.tr with tvec := w } }), (0x041, { h with tr := { h.tr with tcause := w }, vs := { h.vs with parked := if w.getLsbD 62 then h.vs.parked else [] } }),
        (0x042, { h with tr := { h.tr with tval := w } }), (0x043, { h with tr := { h.tr with tpc := w } }),
        (0x044, { h with tr := { h.tr with eri := w } }), (0x045, { h with tr := { h.tr with tnpc := w } }),
        (0x050, { h with tk := { h.tk with share := if w.truncate 4 = 0#4 then 1 else w.truncate 4 } }),
        (0x060 + j.val, { h with f := Vector.set h.f j.val w j.isLt }), (0x071, { h with mhb := w })],
      n = p.1 → exec (.sysput r hi lo) s = .next { s with hart := p.2 }.advance) ∧
    (s.hart.vs.vq = [] → n = 0x072 → w.toNat < 4 → exec (.sysput r hi lo) s = .next { s with hart := { h with mhctl := w } }.advance) ∧
    (s.hart.vs.vq = [] → n = 0x070 → w.toNat < 2 ^ 32 → bitsOf w.toNat 7 2 = 0 → w.toNat % 4 ≠ 3 →
      let delta := bitsOf w.toNat 15 8
      let dmin := if delta < bitsOf w.toNat 23 16 then delta else bitsOf w.toNat 23 16
      let old := bitsOf h.skipd.toNat 31 24
      ∃ v : Word, exec (.sysput r hi lo) s = .next { s with hart := { h with skipd := v } }.advance ∧ v.toNat < 2 ^ 32 ∧
        v.toNat % 4 = w.toNat % 4 ∧ bitsOf v.toNat 7 2 = 0 ∧ bitsOf v.toNat 15 8 = delta ∧ bitsOf v.toNat 23 16 = dmin ∧
        bitsOf v.toNat 31 24 = if w.toNat % 4 = 0 then 0 else if w.toNat % 4 = 1 ∨ h.skipd.toNat % 4 ≠ 2 then delta
          else if old < dmin then dmin else if delta < old then delta else old) ∧
    (s.hart.vs.vq = [] → (n = 0x072 ∧ 4 ≤ w.toNat) ∨ (n = 0x070 ∧ (2 ^ 32 ≤ w.toNat ∨ bitsOf w.toNat 7 2 ≠ 0 ∨ w.toNat % 4 = 3)) →
      exec (.sysput r hi lo) s = .next (s.trap .illegal ((encode (.sysput r hi lo)).zeroExtend 64))) ∧
    (n ∈ [0x000, 0x001, 0x002, 0x051, 0x052, 0x053, 0x054] →
      exec (.sysput r hi lo) s = .next (s.trap .illegal ((encode (.sysput r hi lo)).zeroExtend 64))) ∧
    ((2 < n ∧ n < 0x10) ∨ (0x10 < n ∧ n < 0x20) ∨ n = 0x26 ∨ n = 0x27 ∨ (0x2E ≤ n ∧ n < 0x40) ∨ (0x46 ≤ n ∧ n < 0x50) ∨
        (0x55 ≤ n ∧ n < 0x60) ∨ (0x68 ≤ n ∧ n < 0x70) ∨ 0x73 ≤ n →
      exec (.sysget r hi lo) s = .next (s.trap .illegal ((encode (.sysget r hi lo)).zeroExtend 64)) ∧
      exec (.sysput r hi lo) s = .next (s.trap .illegal ((encode (.sysput r hi lo)).zeroExtend 64)))

/-- R126: `wfe` on allocated scratchpad bytes, with the SSB empty, writes x[D] := 0 and retires when the 8 bytes differ from x[B], and
otherwise waits with its line monitored. A write to the line that reaches its ordering point is noted; the wake after it writes x[D] :=
0, and the timeout without one writes x[D] := 1; both retire it. A misaligned address traps. -/
def Obligations.WfeResults : Prop :=
  ∀ (s : State) (d a b : Reg) (off : Nat),
    (SpadAt s (s.get a) 8 off → s.hart.ssb = [] → (∀ e, s.hart.wait ≠ some (.wfe e)) →
      let key := spadKey s.hart.core off
      (s.memNat key 8 ≠ (s.get b).toNat → exec (.wfe d a b) s = .next (s.set d 0).advance) ∧
      (s.memNat key 8 = (s.get b).toNat → ∃ t, exec (.wfe d a b) s = .next t ∧ t.hart.wait = some (.wfe d) ∧ t.hart.pc = s.hart.pc ∧
        (∀ r, t.get r = s.get r) ∧ t.mem = s.mem ∧ { who := s.hart.id, line := key / 64, hit := false } ∈ t.coh.monitors)) ∧
    ((s.get a).toNat % 8 ≠ 0 → (∀ e, s.hart.wait ≠ some (.wfe e)) → exec (.wfe d a b) s = .next (s.trap .misalign (s.get a))) ∧
    (∀ m, s.hart.wait = some (.wfe d) → s.coh.monitors.find? (·.who == s.hart.id) = some m →
      (∀ i ∈ [Instr.wfeWake s.hart.id, .wfe d a b], m.hit = true → ∃ t, exec i s = .next t ∧ t.hart.pc = s.hart.pc + 4 ∧
        t.hart.wait = none ∧ KeepsX d s t ∧ (d ≠ 0 → t.get d = 0) ∧ t.mem = s.mem) ∧
      (m.hit = false → exec (.wfe d a b) s = .next s ∧ exec (.wfeWake s.hart.id) s = .next s ∧
        ∃ t, exec (.wfeTimeout s.hart.id) s = .next t ∧ t.hart.pc = s.hart.pc + 4 ∧ t.hart.wait = none ∧ KeepsX d s t ∧
          (d ≠ 0 → t.get d = 1) ∧ t.mem = s.mem)) ∧
    (∀ line, (s.noteWrite line).coh.monitors = s.coh.monitors.map fun m => if m.line = line then { m with hit := true } else m)

/-- R132: with the vector queue empty, `fork` writes x[D] := -1 when no slot of the core is free. Otherwise the child stands in the lowest
free slot, with the x registers that x[B] selects, x[D] = 256 + the parent's slot, VTYPE, f0 to f7, TVEC and SHARE of the parent, and
everything else as at a task's start; a parent with two or more quads gives it the upper half of its block and keeps the lower; the
parent's x[D] is the slot, and memory and the parent's other registers stay as they were. -/
def Obligations.ForkResults : Prop :=
  ∀ (s : State) (d a b : Reg), s.hart.vs.vq = [] →
    ((∀ k, k < 8 → ∃ h ∈ s.hartsOn s.hart.core, h.slot = k) → exec (.fork d a b) s = .next (s.set d (-1)).advance) ∧
    (∀ k, k < 8 → (∀ h ∈ s.hartsOn s.hart.core, h.slot ≠ k) → (∀ j, j < k → ∃ h ∈ s.hartsOn s.hart.core, h.slot = j) →
      ∃ t c, exec (.fork d a b) s = .next t ∧ t.hart.pc = s.hart.pc + 4 ∧ KeepsX d s t ∧ (d ≠ 0 → t.get d = BitVec.ofNat 64 k) ∧
        (∀ i, t.byte i = s.byte i) ∧ t.hart.fl = s.hart.fl ∧ t.hart.v = s.hart.v ∧ t.hart.k = s.hart.k ∧
        t.others = c :: s.others.filter (fun g => g.id != c.id) ∧ c.id = 8 * s.hart.core + k ∧ c.status = .running ∧ c.wait = none ∧
        c.pc = s.get a ∧ c.get 0 = 0 ∧
        (∀ r : Reg, r ≠ 0 → c.get r = if r = d then BitVec.ofNat 64 (256 + s.hart.slot)
          else if (s.get b).getLsbD r.toNat then s.get r else 0) ∧
        c.vr.vtype = s.hart.vr.vtype ∧ c.f = s.hart.f ∧ c.tr.tvec = s.hart.tr.tvec ∧ c.tk.share = s.hart.tk.share ∧ c.vr.vl = 0 ∧
        c.fl.flags = 0 ∧ c.fl.eix = Vector.replicate 6 0xFFFF ∧ c.k = Vector.replicate 8 0 ∧ c.q = Vector.replicate 8 [] ∧
        c.z = Vector.replicate 8 none ∧ c.tk.gmem = 0 ∧ c.mgrant = 0 ∧ c.inHandler = false ∧ c.tk.isChild = true ∧
        c.tk.task = s.hart.tk.task ∧ c.tk.index = s.hart.tk.index ∧ c.tk.count = s.hart.tk.count ∧ c.tk.parent = some s.hart.id ∧
        c.vr.pending = true ∧ (2 ≤ s.hart.quads.count → t.hart.vr.pending = true) ∧
        (if 2 ≤ s.hart.quads.count then
            c.quads = ⟨s.hart.quads.count / 2, s.hart.quads.first + s.hart.quads.count / 2⟩ ∧
            t.hart.quads = ⟨s.hart.quads.count / 2, s.hart.quads.first⟩
          else c.quads.count = 0 ∧ t.hart.quads = s.hart.quads))

/-- R133: `join` writes x[D] := -1 at once where x[A] names no live child and for x[A] = -1 on a hart that no `fork` created; it waits for
a live child, and, after the vector wait, collects a joined one: x[D] is the value it handed over, its slot is freed, and its block merges with the parent's
when both are as at the fork. A settled child-role `join` hands x[B] over and ends. R125: a settled `halt` empties the hart's slot and
returns its quads; where a `fork` created the hart, its parent has it no longer as a live child, so that a `join` for it gives -1; the slots of
its own joined children are freed, and its live ones go on without a parent. -/
def Obligations.JoinAndHalt : Prop :=
  (∀ (s : State) (d a b : Reg), s.get a = -1 → s.hart.tk.isChild = false → exec (.join d a b) s = .next (s.set d (-1)).advance) ∧
  (∀ (s : State) (d a b : Reg), s.get a ≠ -1 → (∀ c ∈ s.hart.tk.children, c.slot ≠ (s.get a).toNat) →
    exec (.join d a b) s = .next (s.set d (-1)).advance) ∧
  (∀ (s : State) (d a b : Reg), s.get a = -1 → s.hart.tk.isChild = true → s.hart.tk.children ≠ [] →
    exec (.join d a b) s = .next (s.trap .illegal ((encode (.join d a b)).zeroExtend 64))) ∧
  (∀ (s : State) (d a b : Reg) (c : Child), s.get a ≠ -1 → s.hart.tk.children.find? (fun k => k.slot == (s.get a).toNat) = some c →
    (c.joined = none → exec (.join d a b) s = .next (s.waitFor (.join c.slot))) ∧
    (∀ w, c.joined = some w → s.hart.vs.vq ≠ [] → exec (.join d a b) s = .next (s.waitFor .vector)) ∧
    (∀ w, c.joined = some w → s.hart.vs.vq = [] → c.slot < 8 → c.slot ≠ s.hart.slot →
      ∃ t, exec (.join d a b) s = .next t ∧ t.hart.pc = s.hart.pc + 4 ∧ KeepsX d s t ∧ (d ≠ 0 → t.get d = w) ∧
        t.hartAt (8 * s.hart.core + c.slot) = none ∧ (∀ i, t.byte i = s.byte i) ∧
        ∀ g, s.hartAt (8 * s.hart.core + c.slot) = some g → 0 < c.qCount → g.quads = ⟨c.qCount, c.qFirst⟩ →
          s.hart.quads = ⟨c.qCount, c.qFirst - c.qCount⟩ → t.hart.quads = ⟨2 * c.qCount, s.hart.quads.first⟩)) ∧
  (∀ (s : State) (d a b : Reg) (p : Nat) (g : Hart), s.get a = -1 → s.hart.tk.isChild = true → s.hart.tk.children = [] →
    s.hart.tk.parent = some p → p ≠ s.hart.id → s.hartAt p = some g → Settled s .core true →
    ∃ t, exec (.join d a b) s = .next t ∧ t.hart.status = .joined ∧ t.hart.id = s.hart.id ∧ t.hart.quads = s.hart.quads ∧
      t.hartAt p = some { g with tk := { g.tk with children := g.tk.children.map fun c =>
        if c.slot = s.hart.slot then { c with joined := some (s.get b) } else c } } ∧ ∀ i, t.byte i = s.byte i) ∧
  (∀ s : State, Settled s .dev true → s.hart.tk.children = [] → s.hart.tk.parent = none →
    ∃ t, exec .halt s = .next t ∧ t.hart = Hart.empty s.hart.id ∧ t.others = s.others ∧ (∀ i, t.byte i = s.byte i) ∧
      ∀ p ∈ t.places, ∀ c ∈ p.claims, p.task = s.hart.tk.task → p.core = s.hart.core → c.2 ≠ s.hart.id) ∧
  (∀ (s : State) (p : Nat) (g : Hart), Settled s .dev true → s.hart.tk.children = [] → s.hart.tk.isChild = true → s.hart.tk.parent = some p →
    p ≠ s.hart.id → s.hartAt p = some g →
    ∃ t, exec .halt s = .next t ∧ t.hart = Hart.empty s.hart.id ∧ (∀ i, t.byte i = s.byte i) ∧ t.sys.tasks = s.sys.tasks ∧
      t.hartAt p = some { g with tk := { g.tk with children := g.tk.children.filter fun c => c.slot != s.hart.slot } } ∧
      ∀ (u : State) (d a b : Reg) (k : Hart), t.hartAt p = some k → u.hart.tk = k.tk → (u.get a).toNat = s.hart.slot →
        exec (.join d a b) u = .next (u.set d (-1)).advance) ∧
  (∀ s : State, Settled s .dev true → s.hart.tk.parent = none → (s.hart.tk.children.map (·.slot)).Nodup →
    (∀ c ∈ s.hart.tk.children, c.slot < 8 ∧ c.slot ≠ s.hart.slot) →
    ∃ t, exec .halt s = .next t ∧ t.hart = Hart.empty s.hart.id ∧ (∀ i, t.byte i = s.byte i) ∧ ∀ c ∈ s.hart.tk.children,
      (c.joined.isSome = true → t.hartAt (8 * s.hart.core + c.slot) = none) ∧
      (c.joined = none → ∀ k, s.hartAt (8 * s.hart.core + c.slot) = some k →
        t.hartAt (8 * s.hart.core + c.slot) = some { k with tk := { k.tk with parent := none } })) ∧
  (∀ s : State, s.hart.vs.vq ≠ [] → exec .halt s = .next (s.waitFor .vector))

/-- R134: `vrelease` clears QHELD, VL and MGRANT and empties q0 to q3, keeping q4 to q7; without quads it changes nothing. R135: `vacquire`
of a holder gives its count, of a bad count 0; with no other waiter it takes a free aligned block at once (the lowest, the model's choice:
log entry 12), and else it waits. R136: `gbar` on a group not in GMEM gives 1; as the last member to arrive it gives 0, the phase having
moved on; before that the hart is recorded as arrived and waits, and it gives 0 once the phase has moved on. R138: `yield` changes no register
and retires, and the hart then stands behind the other harts of its core that are ready. -/
def Obligations.QuadsAndGroups : Prop :=
  (∀ s : State, s.hart.vs.vq = [] → s.hart.quads.count ≠ 0 →
    ∃ t, exec .vrelease s = .next t ∧ t.hart.pc = s.hart.pc + 4 ∧ t.hart.quads = ⟨0, 0⟩ ∧ t.hart.vr.vl = 0 ∧ t.hart.mgrant = 0 ∧
      t.hart.vr.pending = true ∧ (∀ i : Fin 8, t.hart.q.get i = if i.val < 4 then [] else s.hart.q.get i) ∧ t.hart.z = s.hart.z ∧
      t.hart.psf = s.hart.psf ∧ (∀ r, t.get r = s.get r) ∧ ∀ i, t.byte i = s.byte i) ∧
  (∀ s : State, s.hart.vs.vq = [] → s.hart.quads.count = 0 → exec .vrelease s = .next s.advance) ∧
  (∀ s : State, s.hart.vs.vq ≠ [] → exec .vrelease s = .next (s.waitFor .vector)) ∧
  (∀ (s : State) (d a : Reg), (s.hart.quads.count ≠ 0 → exec (.vacquire d a) s = .next (s.set d (BitVec.ofNat 64 s.hart.quads.count)).advance) ∧
    (s.hart.quads.count = 0 → (s.get a).toNat ∉ [1, 2, 4, 8] → exec (.vacquire d a) s = .next (s.set d 0).advance)) ∧
  (∀ (s : State) (d a : Reg) (n : Nat), s.hart.quads.count = 0 → n ∈ [1, 2, 4, 8] → (s.get a).toNat = n → s.hart.status = .running →
    s.hart.wait = none → (s.coreAt s.hart.core).reserved = none → (∀ h ∈ s.others, ∀ e k c, h.wait ≠ some (.vacquire e k c)) →
    (∀ q, blockIn (s.pool s.hart.tk.task s.hart.core) n = some q → ∃ t, exec (.vacquire d a) s = .next t ∧ t.hart.quads = q ∧
      q.count = n ∧ q.first % n = 0 ∧ q.first + n ≤ 8 ∧ KeepsX d s t ∧ (d ≠ 0 → t.get d = BitVec.ofNat 64 n) ∧ t.hart.pc = s.hart.pc + 4 ∧
      t.hart.vr.pending = true) ∧
    (blockIn (s.pool s.hart.tk.task s.hart.core) n = none →
      exec (.vacquire d a) s = .next (s.waitFor (.vacquire d n s.env.cycle)))) ∧
  (∀ (s : State) (d a : Reg), (∀ i, i < 4 → s.hart.tk.gmem.getLsbD (16 * i + 15) = true →
      bitsOf s.hart.tk.gmem.toNat (16 * i + 7) (16 * i) ≠ (s.get a).toNat % 256) →
    exec (.gbar d a) s = .next (s.set d 1).advance) ∧
  (∀ (s : State) (d a : Reg) (t : Task) (g : Group), inGroup s.hart.tk.gmem ((s.get a).toNat % 256) = true → s.hart.tk.arrived = none →
    Settled s .dev false → s.taskAt s.hart.tk.task = some t → t.groups = [g] → g.num = (s.get a).toNat % 256 →
    (∀ m ∈ g.members, m = s.hart.tk.index ∨ m ∈ g.arrived ∨ m ∈ t.halted) →
    ∃ u, exec (.gbar d a) s = .next u ∧ u.hart.pc = s.hart.pc + 4 ∧ KeepsX d s u ∧ (d ≠ 0 → u.get d = 0) ∧ u.hart.tk.arrived = none ∧
      (∀ i, u.byte i = s.byte i) ∧ ∃ v, u.taskAt s.hart.tk.task = some v ∧ v.groups = [{ g with phase := g.phase + 1, arrived := [] }]) ∧
  (∀ (s : State) (d a : Reg) (t : Task) (g : Group), inGroup s.hart.tk.gmem ((s.get a).toNat % 256) = true → s.hart.tk.arrived = none →
    Settled s .dev false → s.taskAt s.hart.tk.task = some t → t.groups = [g] → g.num = (s.get a).toNat % 256 →
    (∃ m ∈ g.members, m ≠ s.hart.tk.index ∧ m ∉ g.arrived ∧ m ∉ t.halted) →
    ∃ u, exec (.gbar d a) s = .next u ∧ u.hart.pc = s.hart.pc ∧ u.hart.wait = some (.gbar g.num) ∧ (∀ r, u.get r = s.get r) ∧
      u.hart.tk.arrived = some (g.num, g.phase) ∧ (∀ i, u.byte i = s.byte i) ∧
      ∃ v, u.taskAt s.hart.tk.task = some v ∧ v.groups = [{ g with arrived := s.hart.tk.index :: g.arrived }]) ∧
  (∀ (s : State) (d a : Reg) (t : Task) (g : Group) (p : Nat), inGroup s.hart.tk.gmem ((s.get a).toNat % 256) = true →
    s.hart.tk.arrived = some (g.num, p) → s.taskAt s.hart.tk.task = some t → t.groups = [g] → g.num = (s.get a).toNat % 256 →
    (p = g.phase → exec (.gbar d a) s = .next (s.waitFor (.gbar g.num))) ∧
    (p ≠ g.phase → ∃ u, exec (.gbar d a) s = .next u ∧ u.hart.pc = s.hart.pc + 4 ∧ KeepsX d s u ∧ (d ≠ 0 → u.get d = 0) ∧
      u.hart.tk.arrived = none ∧ ∀ i, u.byte i = s.byte i)) ∧
  (∀ s : State, ∃ t, exec .yield s = .next t ∧ Retired s t ∧ t.hart.sc.yieldLeft = 16 ∧ s.hart.id ∉ t.env.opps ∧
    ∀ i, i ∈ t.hart.sc.yielded ↔ ∃ g ∈ s.hartsOn s.hart.core, g.id = i ∧ i ≠ s.hart.id ∧ g.status = .running ∧ g.sc.ready = true)

/-- R137, R322, R324: a settled `launch` of a misaligned record address traps with MISALIGN; it gives 2 for a record whose own fields are
malformed; otherwise, with the addresses of the record translated and the descriptor read, it gives the status with which the partition
takes the launch: 0 and the entry at the end of the chosen queue when descriptor and placement are legal and the queue has room, 1 when
the queue holds 64, 2 when they are not. -/
def Obligations.LaunchResults : Prop :=
  (∀ (s : State) (d a : Reg), s.hart.vs.vq ≠ [] → exec (.launch d a) s = .next (s.waitFor .vector)) ∧
  (∀ (s t : State) (d a : Reg), s.release .dev true = .ok t → (s.get a).toNat % 64 ≠ 0 →
    exec (.launch d a) s = .next (t.trap .misalign (s.get a))) ∧
  (∀ (s t u : State) (d a : Reg) (v x : Nat), s.release .dev true = .ok t → (s.get a).toNat % 64 = 0 →
    t.loadRecord (s.get a).toNat 8 = ((.val v, x), u) →
    let r := BitVec.ofNat 512 v
    (recordOk r = false → exec (.launch d a) s = .next (u.set d 2).advance) ∧
    (recordOk r = true → ∀ k w l, launchLocs (fun y acc => u.scalarLoc u.hart y 8 acc) r = .ok (k, w, l) →
      ∀ v2 y z, u.loadRecord (rKdesc r) 8 = ((.val v2, y), z) → ∀ st q, z.enqueue u.hart.tk.part u.hart.tk.ctx r (BitVec.ofNat 512 v2) k.pa w l =
        (some st, q) → exec (.launch d a) s = .next (q.set d (BitVec.ofNat 64 st)).advance)) ∧
  (∀ (s : State) (p : Partition) (c : Nat) (r d : BitVec 512) (kpa : Nat) (wl dl : Loc), s.partAt p.id = some p →
    (descriptorOk d = false ∨ s.placeable p (effHarts r d) (effAff r d) = false → s.enqueue p.id c r d kpa wl dl = (some 2, s)) ∧
    (descriptorOk d = true → s.placeable p (effHarts r d) (effAff r d) = true → kNgrp d = 0 →
      ∀ q : Fin 16, q.val = 4 * rClass r + rQueue r →
      (64 ≤ (p.queues.get q).length → s.enqueue p.id c r d kpa wl dl = (some 1, s)) ∧
      ((p.queues.get q).length < 64 → ∃ t, s.enqueue p.id c r d kpa wl dl = (some 0, t) ∧ t.mem = s.mem ∧ t.hart = s.hart ∧
        ∃ p2, t.partAt p.id = some p2 ∧ p2.queues.get q = p.queues.get q ++
          [{ record := r, desc := d, ctx := c, kpa := kpa, wloc := wl, dloc := dl, eligible := !(rFlags r).testBit 0 }] ∧
          ∀ k, k ≠ q → p2.queues.get k = p.queues.get k)))

/-! ### The vector stream -/

/-- R145, R10: after the vector wait, `vsetl` sets VL and x[D] to the smaller of x[A] and VLMAX under the present VTYPE and holding; `vsett`
takes VTYPE from x[A] first and the wanted length from x[B]. R8: a holding that differs from the one at the last of them zeroes every v
and k register. R18: a VTYPE with bits above 31, a nonzero low field, a rounding mode above 4 or an illegal CLASS and EW traps with
ILLEGAL_TYPE and the word in TVAL. -/
def Obligations.TypeSetting : Prop :=
  ∀ (s : State) (d a b : Reg), s.hart.vs.vq = [] →
    let vt := s.get a
    let bad := 2 ^ 32 ≤ vt.toNat ∨ vt.toNat % 8 ≠ 0 ∨ 4 < bitsOf vt.toNat 18 16 ∨ legalPair (bitsOf vt.toNat 10 8) (bitsOf vt.toNat 5 3) = false
    let bits := fun v : Word => if bitsOf v.toNat 10 8 = 5 then s.hart.vr.cbits else 8 * 2 ^ bitsOf v.toNat 5 3
    let sets := fun (u : State) (v want : Word) (c : Nat) (ew : Nat) =>
      u.hart.vr = { vtype := v, vl := min want.toNat (min 4096 (512 * s.hart.quads.count * 2 ^ bitsOf v.toNat 7 6 / ew)), cbits := c
                    quads := s.hart.quads.count, pending := false } ∧
      (d ≠ 0 → u.get d = BitVec.ofNat 64 u.hart.vr.vl) ∧ KeepsX d s u ∧ u.hart.pc = s.hart.pc + 4 ∧ u.hart.fl = s.hart.fl ∧
      (∀ i, u.byte i = s.byte i) ∧ u.hart.q = s.hart.q ∧ u.hart.z = s.hart.z ∧
      (if s.hart.vr.quads = s.hart.quads.count then u.hart.v = s.hart.v ∧ u.hart.k = s.hart.k ∧ u.hart.hdr = s.hart.hdr
       else u.hart.v = Vector.replicate 32 0 ∧ u.hart.k = Vector.replicate 8 0)
    (∃ u, exec (.vsetl d a) s = .next u ∧ sets u s.hart.vr.vtype (s.get a) s.hart.vr.cbits (bits s.hart.vr.vtype)) ∧
    (bad → exec (.vsett d a b) s = .next (s.trap .illegalType ((encode (.vsett d a b)).zeroExtend 64))) ∧
    (¬ bad → bitsOf vt.toNat 10 8 ≠ 5 → ∃ u, exec (.vsett d a b) s = .next u ∧ sets u vt (s.get b) s.hart.vr.cbits (bits vt)) ∧
    (∀ c, vsettAccepts s.hart vt = some c → bitsOf vt.toNat 10 8 = 5 → ∃ u, exec (.vsett d a b) s = .next u ∧ sets u vt (s.get b) c c)

/-- R140, R146: a VINT word that the scalar pipe takes, no active element of which raises an enabled class (R33: a signed overflow is an
event of the wrapping sums and products), writes each active element with its operation on A[e], Y (B[e], the scalar operand, or the
immediate) and D[e], the exact result modulo 2^EW; saturating forms clamp and record SAT; inactive and tail elements follow MP and TP. An
empty queue operand waits. Nothing else changes. -/
def Obligations.VectorIntegerResults : Prop :=
  ∀ (s : State) (d a b : Reg) (i : BitVec 5) (k : BitVec 3) (t c : Bool),
    let h := s.hart
    let w := h.vt.ew
    let sg := h.vt.isSigned
    let rd := fun n : Nat => if sg then sextI n w else (n : Int)
    let lo : Int := if sg then -(2 ^ (w - 1)) else 0
    let hi : Int := if sg then 2 ^ (w - 1) - 1 else 2 ^ w - 1
    let m := fun z : Int => (z % 2 ^ w).toNat
    let clamp := fun z : Int => m (if z < lo then lo else if hi < z then hi else z)
    let out : Int → Ev := fun z => { sat := decide (z < lo) || decide (hi < z) }
    let wraps := fun z : Int => (m z, ({ io := sg && (decide (z < lo) || decide (hi < z)) } : Ev))
    let imm := fun shift : Bool => if sg && !shift then m i.toInt else i.toNat % 2 ^ w
    ∀ p ∈ ([
        (.vaddVv d a b k t c, .vaddVx d a b k t c, .vaddVi d a i k t c, false, fun x y _ => wraps (rd x + rd y)),
        (.vsubVv d a b k t c, .vsubVx d a b k t c, .vsubVi d a i k t c, false, fun x y _ => wraps (rd x - rd y)),
        (.vrsubVv d a b k t c, .vrsubVx d a b k t c, .vrsubVi d a i k t c, false, fun x y _ => wraps (rd y - rd x)),
        (.vmulVv d a b k t c, .vmulVx d a b k t c, .vmulVi d a i k t c, false, fun x y _ => wraps (rd x * rd y)),
        (.vmulhVv d a b k t c, .vmulhVx d a b k t c, .vmulhVi d a i k t c, false, fun x y _ => (m (rd x * rd y / 2 ^ w), {})),
        (.vmaccVv d a b k t c, .vmaccVx d a b k t c, .vmaccVi d a i k t c, false, fun x y z => wraps (rd z + rd x * rd y)),
        (.vminVv d a b k t c, .vminVx d a b k t c, .vminVi d a i k t c, false, fun x y _ => (if rd x ≤ rd y then x else y, {})),
        (.vmaxVv d a b k t c, .vmaxVx d a b k t c, .vmaxVi d a i k t c, false, fun x y _ => (if rd x ≤ rd y then y else x, {})),
        (.vandVv d a b k t c, .vandVx d a b k t c, .vandVi d a i k t c, false, fun x y _ => (x &&& y, {})),
        (.vorVv d a b k t c, .vorVx d a b k t c, .vorVi d a i k t c, false, fun x y _ => (x ||| y, {})),
        (.vxorVv d a b k t c, .vxorVx d a b k t c, .vxorVi d a i k t c, false, fun x y _ => (x ^^^ y, {})),
        (.vsllVv d a b k t c, .vsllVx d a b k t c, .vsllVi d a i k t c, true, fun x y _ => (x * 2 ^ (y % w), {})),
        (.vsrlVv d a b k t c, .vsrlVx d a b k t c, .vsrlVi d a i k t c, true, fun x y _ => (x / 2 ^ (y % w), {})),
        (.vsraVv d a b k t c, .vsraVx d a b k t c, .vsraVi d a i k t c, true, fun x y _ => (m (sextI x w / 2 ^ (y % w)), {})),
        (.vsaddVv d a b k t c, .vsaddVx d a b k t c, .vsaddVi d a i k t c, false,
          fun x y _ => (clamp (rd x + rd y), out (rd x + rd y))),
        (.vssubVv d a b k t c, .vssubVx d a b k t c, .vssubVi d a i k t c, false,
          fun x y _ => (clamp (rd x - rd y), out (rd x - rd y)))] :
        List (Instr × Instr × Instr × Bool × (Nat → Nat → Nat → Nat × Ev))),
      let f := p.2.2.2.2
      let does := fun (i : Instr) (s0 : State) (y : Nat → Nat) => Quiet s k (fun e => (f (s.elem a e) (y e) (s.elem d e)).2) →
        ∃ u, exec i s = .next u ∧ Writes s u d k (fun e => (f (s.elem a e) (y e) (s.elem d e)).1) ∧ VectorOnly s0 u d h.vt.g ∧
          u.hart.fl = s.notes k fun e => (f (s.elem a e) (y e) (s.elem d e)).2
      (TakesAtOnce s p.1 → does p.1 s (s.elem b)) ∧
      (TakesAtOnce s p.2.1 → ∀ v s0, s.operand b = some (v, s0) → does p.2.1 s0 fun _ => v.toNat % 2 ^ w) ∧
      (TakesAtOnce s p.2.1 → s.operand b = none → ∃ u, exec p.2.1 s = .next u ∧ WaitsQueued s u p.2.1) ∧
      (TakesAtOnce s p.2.2.1 → does p.2.2.1 s fun _ => imm p.2.2.2.1)

/-- R147: `vadc` and `vsbc` act on every element below VL whatever the mask: D[e] is A[e] + Y + bit e of kK, or A[e] - Y - it, modulo
2^EW, and bit e of kK becomes the carry or the borrow; tail elements follow TP, bits of kK at VL and above R12. Nothing else changes:
FLAGS and the event registers do not. -/
def Obligations.CarryResults : Prop :=
  ∀ (s : State) (d a b : Reg) (i : BitVec 5) (k : BitVec 3) (c sub : Bool),
    let h := s.hart
    let w := h.vt.ew
    let cin := fun e => ((h.kreg k.toNat).getLsbD e).toNat
    let does := fun (s0 u : State) (y : Nat → Nat) =>
      Writes s u d 0 (fun e => if sub then (((s.elem a e : Int) - y e - cin e) % 2 ^ w).toNat else s.elem a e + y e + cin e) ∧
      MaskWritten s u k.toNat (fun e => if sub then decide (s.elem a e < y e + cin e) else decide (2 ^ w ≤ s.elem a e + y e + cin e)) ∧
      (∀ r : Fin 8, r.val ≠ k.toNat → u.hart.k.get r = h.k.get r) ∧ u.hart.fl = h.fl ∧
      VectorOnly s0 { u with hart := { u.hart with k := h.k } } d h.vt.g
    let vv := if sub then Instr.vsbcVv d a b k c else .vadcVv d a b k c
    let vx := if sub then Instr.vsbcVx d a b k c else .vadcVx d a b k c
    let vi := if sub then Instr.vsbcVi d a i k c else .vadcVi d a i k c
    (TakesAtOnce s vv → ∃ u, exec vv s = .next u ∧ does s u (s.elem b)) ∧
    (TakesAtOnce s vx → ∀ v s0, s.operand b = some (v, s0) → ∃ u, exec vx s = .next u ∧ does s0 u fun _ => v.toNat % 2 ^ w) ∧
    (TakesAtOnce s vx → s.operand b = none → ∃ u, exec vx s = .next u ∧ WaitsQueued s u vx) ∧
    (TakesAtOnce s vi → ∃ u, exec vi s = .next u ∧
      does s u fun _ => if h.vt.isSigned then (i.toInt % 2 ^ w).toNat else i.toNat % 2 ^ w)

/-- R148 to R150: a VFP word that the scalar pipe takes, no active element of which raises an enabled class, writes each active element with its operation in the element
format and the rounding mode of VTYPE, and records the events of those elements; inactive and tail elements follow MP and TP. Nothing
else changes. -/
def Obligations.VectorFloatResults : Prop :=
  ∀ (s : State) (d a b : Reg) (k : BitVec 3) (t c : Bool),
    let h := s.hart
    let f := h.vt.fmt
    let r := h.vt.rm
    let does := fun (i : Instr) (s0 : State) (o : Nat → Nat → Nat → Nat × Ev) (y : Nat → Nat) =>
      Quiet s k (fun e => (o (s.elem a e) (y e) (s.elem d e)).2) → ∃ u, exec i s = .next u ∧
        Writes s u d k (fun e => (o (s.elem a e) (y e) (s.elem d e)).1) ∧ VectorOnly s0 u d h.vt.g ∧
        u.hart.fl = s.notes k fun e => (o (s.elem a e) (y e) (s.elem d e)).2
    (∀ p ∈ ([
        (.vfaddVv d a b k t c, .vfaddVx d a b k t c, fun x y _ => fAdd f r x y),
        (.vfsubVv d a b k t c, .vfsubVx d a b k t c, fun x y _ => fSub f r x y),
        (.vfmulVv d a b k t c, .vfmulVx d a b k t c, fun x y _ => fMul f r x y),
        (.vfmaVv d a b k t c, .vfmaVx d a b k t c, fun x y z => fFma f r x y (f.decode z)),
        (.vfmsVv d a b k t c, .vfmsVx d a b k t c, fun x y z => fFma f r x y (f.decode z).negate),
        (.vfdivVv d a b k t c, .vfdivVx d a b k t c, fun x y _ => fDiv f r x y),
        (.vfminVv d a b k t c, .vfminVx d a b k t c, fun x y _ => fMinMax f false x y),
        (.vfmaxVv d a b k t c, .vfmaxVx d a b k t c, fun x y _ => fMinMax f true x y)] :
        List (Instr × Instr × (Nat → Nat → Nat → Nat × Ev))),
      (TakesAtOnce s p.1 → does p.1 s p.2.2 (s.elem b)) ∧
      (TakesAtOnce s p.2.1 → ∀ v s0, s.operand b = some (v, s0) → does p.2.1 s0 p.2.2 fun _ => v.toNat % 2 ^ h.vt.ew) ∧
      (TakesAtOnce s p.2.1 → s.operand b = none → ∃ u, exec p.2.1 s = .next u ∧ WaitsQueued s u p.2.1)) ∧
    (∀ p ∈ ([
        (.vfsqrt d a k t c, fun x => fSqrt f r x), (.vfclass d a k t c, fun x => (2 ^ fClass f x, {})),
        (.vfrcpe d a k t c, fun x => fRcpe f x)] : List (Instr × (Nat → Nat × Ev))),
      TakesAtOnce s p.1 → does p.1 s (fun x _ _ => p.2 x) fun _ => 0)

/-- R143, R24: when an active element raises a class whose trap is enabled, an element-wise word traps at the lowest such element j: TPC is
its PC, ERI is j, PK is set, TVAL is the word, the cause is FP or INT; the elements (or mask bits) below j are written as R140 says, those
from j on stay as they were, and the events of the active elements up to j are recorded. So do the VFP words, the wrapping VINT words
with the signed overflow of R33, the saturating ones, the compares and the conversions. R158: a reduction pushes nothing, records every
event of the whole reduction, and traps with ERI 0. R160: a conversion to a slot traps at the block that holds the raising element, with
ERI its first element; the blocks below are written whole with their headers, and the events of the blocks up to it are recorded. -/
def Obligations.VectorTraps : Prop :=
  ∀ (s : State) (d a b : Reg) (i : BitVec 5) (k : BitVec 3) (t sat c : Bool),
    let h := s.hart
    let w := h.vt.ew
    let f := h.vt.fmt
    let r := h.vt.rm
    let sg := h.vt.isSigned
    let rd := fun n : Nat => if sg then sextI n w else (n : Int)
    let lo : Int := if sg then -(2 ^ (w - 1)) else 0
    let hi : Int := if sg then 2 ^ (w - 1) - 1 else 2 ^ w - 1
    let m := fun z : Int => (z % 2 ^ w).toNat
    let out := fun z : Int => decide (z < lo) || decide (hi < z)
    let wraps := fun z : Int => (m z, ({ io := sg && out z } : Ev))
    let clamps := fun z : Int => (m (if z < lo then lo else if hi < z then hi else z), ({ sat := out z } : Ev))
    let imm := if sg then m i.toInt else i.toNat % 2 ^ w
    let stops := fun (p : Instr) (val : Nat → Nat × Ev) => ∀ j x, Handles s x → RaisesAt s k (fun e => (val e).2) j x →
      ∃ u, exec p s = .next u ∧ TrappedAt s u p x j ∧ u.hart.fl = s.notesTo k (fun e => (val e).2) (j + 1) ∧
        ∀ e, e < h.vt.vlmax → u.elem d e = if e < j then ruled s d k (fun e => (val e).1) e else s.elem d e
    let stopsMask := fun (p : Instr) (val : Nat → Bool × Ev) => ∀ j x, Handles s x → RaisesAt s k (fun e => (val e).2) j x →
      ∃ u, exec p s = .next u ∧ TrappedAt s u p x j ∧ u.hart.fl = s.notesTo k (fun e => (val e).2) (j + 1) ∧
        ∀ e, e < 4096 → (u.hart.kreg d.toNat).getLsbD e = if e < j ∧ h.maskBit k e then (val e).1
          else if e < j ∧ h.vt.mp then false else (h.kreg d.toNat).getLsbD e
    (∀ p ∈ ([
        (.vfaddVv d a b k t c, .vfaddVx d a b k t c, fun x y _ => fAdd f r x y),
        (.vfsubVv d a b k t c, .vfsubVx d a b k t c, fun x y _ => fSub f r x y),
        (.vfmulVv d a b k t c, .vfmulVx d a b k t c, fun x y _ => fMul f r x y),
        (.vfmaVv d a b k t c, .vfmaVx d a b k t c, fun x y z => fFma f r x y (f.decode z)),
        (.vfmsVv d a b k t c, .vfmsVx d a b k t c, fun x y z => fFma f r x y (f.decode z).negate),
        (.vfdivVv d a b k t c, .vfdivVx d a b k t c, fun x y _ => fDiv f r x y),
        (.vfminVv d a b k t c, .vfminVx d a b k t c, fun x y _ => fMinMax f false x y),
        (.vfmaxVv d a b k t c, .vfmaxVx d a b k t c, fun x y _ => fMinMax f true x y),
        (.vaddVv d a b k t c, .vaddVx d a b k t c, fun x y _ => wraps (rd x + rd y)),
        (.vsubVv d a b k t c, .vsubVx d a b k t c, fun x y _ => wraps (rd x - rd y)),
        (.vrsubVv d a b k t c, .vrsubVx d a b k t c, fun x y _ => wraps (rd y - rd x)),
        (.vmulVv d a b k t c, .vmulVx d a b k t c, fun x y _ => wraps (rd x * rd y)),
        (.vmaccVv d a b k t c, .vmaccVx d a b k t c, fun x y z => wraps (rd z + rd x * rd y)),
        (.vsaddVv d a b k t c, .vsaddVx d a b k t c, fun x y _ => clamps (rd x + rd y)),
        (.vssubVv d a b k t c, .vssubVx d a b k t c, fun x y _ => clamps (rd x - rd y))] :
        List (Instr × Instr × (Nat → Nat → Nat → Nat × Ev))),
      (TakesAtOnce s p.1 → stops p.1 fun e => p.2.2 (s.elem a e) (s.elem b e) (s.elem d e)) ∧
      (TakesAtOnce s p.2.1 → ∀ v s0, s.operand b = some (v, s0) →
        stops p.2.1 fun e => p.2.2 (s.elem a e) (v.toNat % 2 ^ w) (s.elem d e))) ∧
    (∀ p ∈ ([
        (.vaddVi d a i k t c, fun x y _ => wraps (rd x + rd y)), (.vsubVi d a i k t c, fun x y _ => wraps (rd x - rd y)),
        (.vrsubVi d a i k t c, fun x y _ => wraps (rd y - rd x)), (.vmulVi d a i k t c, fun x y _ => wraps (rd x * rd y)),
        (.vmaccVi d a i k t c, fun x y z => wraps (rd z + rd x * rd y)),
        (.vsaddVi d a i k t c, fun x y _ => clamps (rd x + rd y)), (.vssubVi d a i k t c, fun x y _ => clamps (rd x - rd y)),
        (.vfsqrt d a k t c, fun x _ _ => fSqrt f r x), (.vfrcpe d a k t c, fun x _ _ => fRcpe f x)] :
        List (Instr × (Nat → Nat → Nat → Nat × Ev))),
      TakesAtOnce s p.1 → stops p.1 fun e => p.2 (s.elem a e) imm (s.elem d e)) ∧
    (∀ p ∈ ([
        (.vfcmpEqVv d a b k t c, .vfcmpEqVx d a b k t c, fun x y => fEq f x y),
        (.vfcmpNeVv d a b k t c, .vfcmpNeVx d a b k t c, fun x y => (!(fEq f x y).1, (fEq f x y).2)),
        (.vfcmpLtVv d a b k t c, .vfcmpLtVx d a b k t c, fun x y => fLt f x y),
        (.vfcmpLeVv d a b k t c, .vfcmpLeVx d a b k t c, fun x y => fLe f x y)] : List (Instr × Instr × (Nat → Nat → Bool × Ev))),
      (TakesAtOnce s p.1 → stopsMask p.1 fun e => p.2.2 (s.elem a e) (s.elem b e)) ∧
      (TakesAtOnce s p.2.1 → ∀ v s0, s.operand b = some (v, s0) → stopsMask p.2.1 fun e => p.2.2 (s.elem a e) (v.toNat % 2 ^ w))) ∧
    (h.vt.isFloat = true → ∀ v s0, s.operand b = some (v, s0) → (24 ≤ b.toNat → (b.toNat - 24) % 8 ≠ (d.toNat - 24) % 8) →
      (h.queue (d.toNat - 24)).length < 16 →
      let leaves := (List.range h.vr.vl).map fun e => if h.maskBit k e then some (e, s.elem a e) else none
      let init := v.toNat % 2 ^ w
      ∀ p ∈ [
        (Instr.vredSum d a b k t c, redTree (fun x y => fAdd f r x y) init leaves),
        (.vredOsum d a b k t c, redSeq (fun x y => fAdd f r x y) init leaves),
        (.vredMax d a b k t c, redExtreme h.vt true init leaves), (.vredMin d a b k t c, redExtreme h.vt false init leaves)],
      TakesAtOnce s p.1 → ∀ x, Handles s x → (p.2.2.foldl (fun y e => y.or e.2) ({} : Ev)).trap h.fl.flags = some x →
      ∃ u, exec p.1 s = .next u ∧ TrappedAt s u p.1 x 0 ∧ u.hart.fl = recordEvs p.2.2 h.pc h.fl ∧
        u.hart.queue (d.toNat - 24) = h.queue (d.toNat - 24)) ∧
    (let vt := h.vt
     let tgt := targetOf b.toNat
     let tb := tgt.bits h.fmtReg
     let val := sourceValue h vt (h.group a.toNat vt.g) (h.headers a.toNat vt.g vt.per)
     ∀ p ∈ [
        (Instr.vcvt d a b k t sat c, vt.g, sat), (.vwiden d a b k t c, vt.g * (tb / vt.ew), false),
        (.vnarrow d a b k t sat c, max 1 (vt.g / (vt.ew / tb)), sat)],
      let n := p.2.1
      let old := fun e => elemOf (h.group d.toNat n) tb e
      TakesAtOnce s p.1 → ∀ x, Handles s x →
      ((∀ q, tgt ≠ .slot q) →
        let o := fun e => convertElem vt p.2.2 tgt (s.elem a e) (val e)
        ∀ j, RaisesAt s k (fun e => (o e).2) j x → ∃ u, exec p.1 s = .next u ∧ TrappedAt s u p.1 x j ∧
          u.hart.fl = s.notesTo k (fun e => (o e).2) (j + 1) ∧
          ∀ e, e < n * (512 * vt.n / tb) → elemOf (u.hart.group d.toNat n) tb e =
            if e < j ∧ h.maskBit k e then (o e).1 % 2 ^ tb else if e < j ∧ vt.mp then 0 else old e) ∧
      (∀ q, tgt = .slot q →
        let sl := slotOf h.fmtReg q
        let se := fun blk => chooseSE sl (((s.actives k).filter fun e => e / 32 = blk).map fun e => (val e).1)
        let o := fun e => sl.encode vt.rm ((val e).1.scale (32 - (se (e / 32) : Int)))
        let per := hdrBytes vt.n tb
        ∀ j, RaisesAt s k (fun e => (o e).2.or (val e).2) j x → ∃ u, exec p.1 s = .next u ∧ TrappedAt s u p.1 x (32 * (j / 32)) ∧
          u.hart.fl = s.notesTo k (fun e => (o e).2.or (val e).2) (32 * (j / 32) + 32) ∧
          (∀ e, e < n * (512 * vt.n / tb) → elemOf (u.hart.group d.toNat n) tb e =
            if e < 32 * (j / 32) ∧ h.maskBit k e then (o e).1 % 2 ^ tb else if e < 32 * (j / 32) ∧ vt.mp then 0 else old e) ∧
          ∀ blk, blk < n * per → elemOf (u.hart.headers d.toNat n per) 8 blk =
            if blk < j / 32 then (64 * q + se blk) % 256 else elemOf (h.headers d.toNat n per) 8 blk))

/-- R151: a compare that the scalar pipe takes, no active element of which raises an enabled class, sets bit e of its mask register for each active element to the
relation, signed or unsigned by CLASS or in the element format; inactive bits follow MP, bits at VL and above R12. R152: the mask
operations compute the bits below VL from the stored bits of their sources; `kpopc` and `kfirst` push their value to a queue register, or
wait while it is full. Nothing else changes. -/
def Obligations.MaskResults : Prop :=
  (∀ (s : State) (d a b : Reg) (k : BitVec 3) (t c : Bool),
    let h := s.hart
    let w := h.vt.ew
    let rd := fun n : Nat => if h.vt.isSigned then sextI n w else (n : Int)
    let f := h.vt.fmt
    ∀ p ∈ ([
        (.vcmpEqVv d a b k t c, .vcmpEqVx d a b k t c, fun x y => (decide (rd x = rd y), {})),
        (.vcmpNeVv d a b k t c, .vcmpNeVx d a b k t c, fun x y => (decide (rd x ≠ rd y), {})),
        (.vcmpLtVv d a b k t c, .vcmpLtVx d a b k t c, fun x y => (decide (rd x < rd y), {})),
        (.vcmpLeVv d a b k t c, .vcmpLeVx d a b k t c, fun x y => (decide (rd x ≤ rd y), {})),
        (.vcmpGtVv d a b k t c, .vcmpGtVx d a b k t c, fun x y => (decide (rd y < rd x), {})),
        (.vcmpGeVv d a b k t c, .vcmpGeVx d a b k t c, fun x y => (decide (rd y ≤ rd x), {})),
        (.vfcmpEqVv d a b k t c, .vfcmpEqVx d a b k t c, fun x y => fEq f x y),
        (.vfcmpNeVv d a b k t c, .vfcmpNeVx d a b k t c, fun x y => (!(fEq f x y).1, (fEq f x y).2)),
        (.vfcmpLtVv d a b k t c, .vfcmpLtVx d a b k t c, fun x y => fLt f x y),
        (.vfcmpLeVv d a b k t c, .vfcmpLeVx d a b k t c, fun x y => fLe f x y)] : List (Instr × Instr × (Nat → Nat → Bool × Ev))),
      let does := fun (i : Instr) (s0 : State) (y : Nat → Nat) => Quiet s k (fun e => (p.2.2 (s.elem a e) (y e)).2) →
        ∃ u, exec i s = .next u ∧ MaskWritten s u d.toNat (fun e => if h.maskBit k e then (p.2.2 (s.elem a e) (y e)).1
            else if h.vt.mp then false else (h.kreg d.toNat).getLsbD e) ∧
          MaskOnly s0 u (d.toNat % 8) ∧ u.hart.fl = s.notes k fun e => (p.2.2 (s.elem a e) (y e)).2
      (TakesAtOnce s p.1 → does p.1 s (s.elem b)) ∧
      (TakesAtOnce s p.2.1 → ∀ v s0, s.operand b = some (v, s0) → does p.2.1 s0 fun _ => v.toNat % 2 ^ w) ∧
      (TakesAtOnce s p.2.1 → s.operand b = none → ∃ u, exec p.2.1 s = .next u ∧ WaitsQueued s u p.2.1)) ∧
  (∀ (s : State) (d a b : Reg),
    let x := fun e => (s.hart.kreg a.toNat).getLsbD e
    let y := fun e => (s.hart.kreg b.toNat).getLsbD e
    let vl := s.hart.vr.vl
    (∀ p ∈ ([
        (.kand d a b, fun e => x e && y e), (.kor d a b, fun e => x e || y e), (.kxor d a b, fun e => x e != y e),
        (.knot d a, fun e => !x e), (.kshl1 d a, fun e => if e = 0 then false else x (e - 1)),
        (.kshr1 d a, fun e => if e + 1 < vl then x (e + 1) else false), (.kmv d a, x)] : List (Instr × (Nat → Bool))),
      TakesAtOnce s p.1 → ∃ u, exec p.1 s = .next u ∧ MaskWritten s u d.toNat p.2 ∧ MaskOnly s u (d.toNat % 8) ∧ u.hart.fl = s.hart.fl) ∧
    (∀ n : Nat, (∀ e, e < n → x e = false) → (n < vl → x n = true) → n ≤ vl → ∀ p ∈ [
        (Instr.kpopc d a, BitVec.ofNat 64 ((List.range vl).countP x)),
        (.kfirst d a, if n < vl then BitVec.ofNat 64 n else -1)],
      TakesAtOnce s p.1 →
      ((s.hart.queue (d.toNat - 24)).length < 16 → ∃ u, exec p.1 s = .next u ∧ PushedOnly s u (d.toNat - 24) p.2 ∧ u.hart.fl = s.hart.fl) ∧
      (16 ≤ (s.hart.queue (d.toNat - 24)).length → ∃ u, exec p.1 s = .next u ∧ WaitsQueued s u p.1)))

/-- R153: `vmv` copies under R140, `vmv.s` writes D[0] when VL is not 0, `vext` pushes A[S] or 0, `qput` pushes x[A], `qget` pops into x[D],
and each waits on a full or empty queue. R154 to R156: `vmerge`, `vbcast`, the slides, `vrgather`, `vcompress`, `vexpand` and `vpermblk`
place the elements their rows name. R45: under blocked-narrow `vmv`, the slides and `vpermblk` move the headers with their blocks, a block
from beyond the group with header 0; no other word, and none in another class, changes a header. R79: a slide of blocked elements by an
amount from a queue register that is not a multiple of 32 traps with ILLEGAL_TYPE; under blocked-narrow the amount is the whole operand
(the model's choice, log entry 14). Nothing else changes. -/
def Obligations.MoveResults : Prop :=
  (∀ (s : State) (d a b : Reg) (k : BitVec 3) (t c : Bool),
    let h := s.hart
    let w := h.vt.ew
    let vl := h.vr.vl
    let blocked := h.vt.cls = 5
    let pick := fun e => if e < h.vt.vlmax then s.elem a e else 0
    let pickHeader := fun e => if e < h.vt.vlmax then s.hdrByte a (e / 32) else 0
    let on := s.actives k
    let touched := fun blk => ∃ e, e / 32 = blk ∧ e < vl ∧ (h.maskBit k e = true ∨ h.vt.mp = true)
    let only := fun (s0 u : State) => VectorOnly s0 u d h.vt.g ∧ u.hart.fl = h.fl
    let keeps := fun (s0 u : State) => only s0 u ∧ u.hart.hdr = h.hdr
    (∀ p ∈ ([
        (.vmerge d a b k t c, 0, fun e => if h.maskBit k e then s.elem b e else s.elem a e),
        (.vrgather d a b k t c, k, fun e => if s.elem b e < vl then s.elem a (s.elem b e) else 0),
        (.vexpand d a k t c, k, fun e => s.elem a ((on.filter (· < e)).length))] : List (Instr × BitVec 3 × (Nat → Nat))),
      TakesAtOnce s p.1 → ∃ u, exec p.1 s = .next u ∧ Writes s u d p.2.1 p.2.2 ∧ keeps s u) ∧
    (TakesAtOnce s (.vmv d a k c) → ∃ u, exec (.vmv d a k c) s = .next u ∧ Writes s u d k (s.elem a) ∧ only s u ∧
      (¬ blocked → u.hart.hdr = h.hdr) ∧ (blocked → MovesHeaders s u d touched (s.hdrByte a))) ∧
    (TakesAtOnce s (.vcompress d a k t c) → ∃ u, exec (.vcompress d a k t c) s = .next u ∧
      (∀ e, e < h.vt.vlmax → u.elem d e = if e < on.length then s.elem a (on.getD e 0)
        else if e < vl then (if h.vt.mp then 0 else s.elem d e) else if h.vt.tp then 0 else s.elem d e) ∧ keeps s u) ∧
    (TakesAtOnce s (.vpermblk d a b t c) →
      let from_ := fun blk => 32 * elemOf (h.vreg b.toNat).toNat 8 blk
      ∃ u, exec (.vpermblk d a b t c) s = .next u ∧ only s u ∧ Writes s u d 0 (fun e =>
        if from_ (e / 32) < h.vt.vlmax then s.elem a (from_ (e / 32) + e % 32) else 0) ∧
      (¬ blocked → u.hart.hdr = h.hdr) ∧ (blocked → MovesHeaders s u d (fun _ => True) fun blk => pickHeader (from_ blk))) ∧
    (∀ v s0, s.operand b = some (v, s0) →
      (TakesAtOnce s (.vbcast d b k t c) → ∃ u, exec (.vbcast d b k t c) s = .next u ∧ Writes s u d k (fun _ => v.toNat % 2 ^ w) ∧
        keeps s0 u) ∧
      (TakesAtOnce s (.vmvS d b c) → ∃ u, exec (.vmvS d b c) s = .next u ∧ keeps s0 u ∧
        ∀ e, e < h.vt.vlmax → u.elem d e = if e = 0 ∧ 0 < vl then v.toNat % 2 ^ w else s.elem d e) ∧
      (let n := if h.vt.cls = 5 then v.toNat else v.toNat % 2 ^ w
       ∀ p ∈ ([
          (.vslideup d a b k t c, fun e => if e < n then s.elem d e else pick (e - n),
            fun blk => if 32 * blk < n then s.hdrByte d blk else pickHeader (32 * blk - n), fun e => e < n),
          (.vslidedn d a b k t c, fun e => pick (e + n), fun blk => pickHeader (32 * blk + n), fun _ => False)] :
          List (Instr × (Nat → Nat) × (Nat → Nat) × (Nat → Prop))),
        TakesAtOnce s p.1 →
        (blocked → n % 32 ≠ 0 → Handles s .illegalType → ∃ u, exec p.1 s = .next u ∧ TrappedAt s u p.1 .illegalType 0 ∧ u.hart.v = h.v) ∧
        (¬ blocked ∨ n % 32 = 0 → ∃ u, exec p.1 s = .next u ∧ only s0 u ∧ (¬ blocked → u.hart.hdr = h.hdr) ∧
          (blocked → MovesHeaders s u d touched p.2.2.1) ∧
          ∀ e, e < h.vt.vlmax → (p.2.2.2 e ∧ e < vl → u.elem d e = s.elem d e) ∧
            (¬ (p.2.2.2 e ∧ e < vl) → u.elem d e = ruled s d k p.2.1 e))) ∧
      (TakesAtOnce s (.vext d a b c) → (h.queue (d.toNat - 24)).length < 16 →
        let j := v.toNat % 2 ^ w
        ∃ u, exec (.vext d a b c) s = .next u ∧ u.hart.fl = h.fl ∧ PushedOnly s0 u (d.toNat - 24)
          (if j < vl then (if h.vt.isSigned then sextW (s.elem a j) w else BitVec.ofNat 64 (s.elem a j)) else 0))) ∧
    (s.operand b = none →
      (∀ p ∈ [Instr.vbcast d b k t c, .vmvS d b c, .vslideup d a b k t c, .vslidedn d a b k t c], TakesAtOnce s p →
        ∃ u, exec p s = .next u ∧ WaitsQueued s u p) ∧
      (TakesAtOnce s (.vext d a b c) → (h.queue (d.toNat - 24)).length < 16 →
        ∃ u, exec (.vext d a b c) s = .next u ∧ WaitsQueued s u (.vext d a b c))) ∧
    (TakesAtOnce s (.vext d a b c) → 16 ≤ (h.queue (d.toNat - 24)).length →
      ∃ u, exec (.vext d a b c) s = .next u ∧ WaitsQueued s u (.vext d a b c))) ∧
  (∀ (s : State) (d a : Reg), s.hart.quads.count ≠ 0 →
    ((s.hart.queue (d.toNat - 24)).length < 16 →
      exec (.qput d a) s = .next (s.onHart fun h => h.putQueue (d.toNat - 24) (h.queue (d.toNat - 24) ++ [s.get a])).advance) ∧
    (16 ≤ (s.hart.queue (d.toNat - 24)).length → exec (.qput d a) s = .next (s.waitFor .queueReg))) ∧
  (∀ (s : State) (d a : Reg), s.hart.quads.count = 0 → exec (.qput d a) s = .next (s.trap .illegalType 0)) ∧
  (∀ (s : State) (d a : Reg), (∀ v r, s.hart.queue (a.toNat - 24) = v :: r →
      exec (.qget d a) s = .next ((s.onHart (·.putQueue (a.toNat - 24) r)).set d v).advance) ∧
    (s.hart.queue (a.toNat - 24) = [] → exec (.qget d a) s = .next (s.waitFor .queueReg)))

/-- R157, R158: with room in its queue and no event of an enabled class, a reduction pushes its result over the active elements, starting from S: for
an integer class the sum modulo 2^EW, the extreme, the AND or the OR; for a float class the tree of R53 or the order of R54. It waits
while the queue is full. R161 to R163: with no event of an enabled class `vstrip` computes the row (`stripRow`) from x[B] to x[B + 4], writes the four
state registers and the factor, and the probabilities to D. -/
def Obligations.ReductionResults : Prop :=
  (∀ (s : State) (d a b : Reg) (k : BitVec 3) (t c : Bool),
    let h := s.hart
    let w := h.vt.ew
    let sg := h.vt.isSigned
    let rd := fun n : Nat => if sg then sextI n w else (n : Int)
    let els := (s.actives k).map (s.elem a)
    let leaves := (List.range h.vr.vl).map fun e => if h.maskBit k e then some (e, s.elem a e) else none
    let q := d.toNat - 24
    let add := fun x y => fAdd h.vt.fmt h.vt.rm x y
    ∀ v s0, s.operand b = some (v, s0) → (24 ≤ b.toNat → (b.toNat - 24) % 8 ≠ q % 8) → (h.queue q).length < 16 →
    let init := v.toNat % 2 ^ w
    (h.vt.isInt = true → h.vr.vl ≤ 4096 → ∀ p ∈ [
        (Instr.vredSum d a b k t c, (init + els.sum) % 2 ^ w), (.vredOsum d a b k t c, (init + els.sum) % 2 ^ w),
        (.vredMax d a b k t c, els.foldl (fun x y => if rd x ≤ rd y then y else x) init),
        (.vredMin d a b k t c, els.foldl (fun x y => if rd x ≤ rd y then x else y) init),
        (.vredAnd d a b k t c, els.foldl (· &&& ·) init), (.vredOr d a b k t c, els.foldl (· ||| ·) init)],
      TakesAtOnce s p.1 → ∃ u, exec p.1 s = .next u ∧ u.hart.fl = h.fl ∧
        PushedOnly s0 u q (if sg then sextW p.2 w else BitVec.ofNat 64 p.2)) ∧
    (h.vt.isFloat = true → ∀ p ∈ [
        (Instr.vredSum d a b k t c, redTree add init leaves), (.vredOsum d a b k t c, redSeq add init leaves),
        (.vredMax d a b k t c, redExtreme h.vt true init leaves), (.vredMin d a b k t c, redExtreme h.vt false init leaves)],
      TakesAtOnce s p.1 → QuietList s p.2.2 → ∃ u, exec p.1 s = .next u ∧ u.hart.fl = recordEvs p.2.2 h.pc h.fl ∧
        PushedOnly s0 u q (BitVec.ofNat 64 (p.2.1 % 2 ^ w)))) ∧
  (∀ (s : State) (d a b : Reg) (k : BitVec 3) (t c : Bool), 16 ≤ (s.hart.queue (d.toNat - 24)).length → ∀ p ∈ [
      Instr.vredSum d a b k t c, .vredOsum d a b k t c, .vredMax d a b k t c, .vredMin d a b k t c, .vredAnd d a b k t c, .vredOr d a b k t c],
    TakesAtOnce s p → ∃ u, exec p s = .next u ∧ WaitsQueued s u p) ∧
  (∀ (s : State) (d a b : Reg) (k : BitVec 3), s.hart.vs.vq = [] → s.hart.vr.quads ≤ 8 → d.toNat % s.hart.vt.g = 0 →
    typeBad s s.hart (encode (.vstrip d a b k)) 0 0 = none →
    let lo := fun r : Reg => (s.get r).toNat % 2 ^ 32
    let leaves := (List.range s.hart.vr.vl).map fun e => if s.hart.maskBit k e then some (e, s.elem a e) else none
    let o := stripRow (2 ^ 62) { m := lo b, r := refOf (s.get (b + 1)), hi := lo (b + 2), lo := lo (b + 3) } (lo (b + 4)) leaves
    QuietList s o.evs → ∃ u, exec (.vstrip d a b k) s = .next u ∧ u.hart.pc = s.hart.pc + 4 ∧ u.hart.fl = recordEvs o.evs s.hart.pc s.hart.fl ∧
      Writes s u d k (fun e => match (o.p[e]?).join with | some (_, x) => x | none => 0) ∧ (∀ i, u.byte i = s.byte i) ∧
      (0 < b.toNat → b.toNat ≤ 26 → u.get b = BitVec.ofNat 64 o.st.m ∧ u.get (b + 1) = refWord o.st.r ∧ u.get (b + 2) = BitVec.ofNat 64 o.st.hi ∧
        u.get (b + 3) = BitVec.ofNat 64 o.st.lo ∧ u.get (b + 5) = BitVec.ofNat 64 o.f) ∧
      ∀ r : Reg, r ≠ b → r ≠ b + 1 → r ≠ b + 2 → r ≠ b + 3 → r ≠ b + 5 → u.get r = s.get r)

/-- R159: with no active element that raises an enabled class, `vcvt`, `vwiden` and `vnarrow` to an integer or floating-point type write each active element of the
destination, whose elements have the target's width, with the conversion of the source element, and record its events. R160: to a slot,
each block below VL gets a header with the slot's number and the exponent chosen for its active elements, and each active element the
code of its scaled value; the events of the encoding and of the source are recorded. Other elements follow MP and TP, and headers of
blocks wholly in the tail TP; nothing else changes. -/
def Obligations.ConversionResults : Prop :=
  ∀ (s : State) (d a b : Reg) (k : BitVec 3) (t sat c : Bool),
    let h := s.hart
    let vt := h.vt
    let tgt := targetOf b.toNat
    let tb := tgt.bits h.fmtReg
    let src := h.group a.toNat vt.g
    let heads := h.headers a.toNat vt.g vt.per
    let val := sourceValue h vt src heads
    vt.n ≤ 8 → ∀ p ∈ [
      (Instr.vcvt d a b k t sat c, vt.g, sat), (.vwiden d a b k t c, vt.g * (tb / vt.ew), false),
      (.vnarrow d a b k t sat c, max 1 (vt.g / (vt.ew / tb)), sat)],
    let n := p.2.1
    let old := fun e => elemOf (h.group d.toNat n) tb e
    let rest := fun e => if e < h.vr.vl then (if vt.mp then 0 else old e) else if vt.tp then 0 else old e
    TakesAtOnce s p.1 →
      ((∀ i, tgt ≠ .slot i) →
        let o := fun e => convertElem vt p.2.2 tgt (s.elem a e) (val e)
        Quiet s k (fun e => (o e).2) → ∃ u, exec p.1 s = .next u ∧ VectorOnly s u d n ∧
          (∀ e, e < n * (512 * vt.n / tb) → elemOf (u.hart.group d.toNat n) tb e =
            if e < h.vr.vl ∧ h.maskBit k e then (o e).1 % 2 ^ tb else rest e) ∧
          u.hart.fl = s.notes k fun e => (o e).2) ∧
      (∀ i, tgt = .slot i →
        let sl := slotOf h.fmtReg i
        let se := fun blk => chooseSE sl (((s.actives k).filter fun e => e / 32 = blk).map fun e => (val e).1)
        let o := fun e => sl.encode vt.rm ((val e).1.scale (32 - (se (e / 32) : Int)))
        let per := hdrBytes vt.n tb
        Quiet s k (fun e => (o e).2.or (val e).2) → ∃ u, exec p.1 s = .next u ∧ VectorOnly s u d n ∧
        (∀ e, e < n * (512 * vt.n / tb) → elemOf (u.hart.group d.toNat n) tb e =
          if e < h.vr.vl ∧ h.maskBit k e then (o e).1 % 2 ^ tb else rest e) ∧
        u.hart.fl = s.notes k (fun e => (o e).2.or (val e).2) ∧
        ∀ blk, blk < n * per → elemOf (u.hart.headers d.toNat n per) 8 blk =
          if 32 * blk < h.vr.vl then (64 * i + se blk) % 256 else if vt.tp then 0 else elemOf (h.headers d.toNat n per) 8 blk)

/-- R165, R166, R170: with the port idle and every active element in allocated scratchpad bytes, a load writes each with the bytes at its
address, under R140, and changes nothing else; `vgll` too (a scratchpad line has no home, so no link: the model's reading,
log entry 51). A fault of element 0 traps with
ERI 0 and writes nothing; one of a later active element f lowers VL to f and sets TRIM, without a trap. R175: `vldz` of one raw block of
VL elements writes them and pushes its length; R176: `vldb` writes whole blocks and their headers. -/
def Obligations.VectorLoadResults : Prop :=
  ∀ (s : State) (d a b : Reg) (k : BitVec 3) (t c : Bool) (w : BitVec 2), w ≠ 3#2 → PortIdle s → s.hart.vr.quads ≤ 8 →
    let h := s.hart
    let vt := h.vt
    let n := vt.ew / 8
    let base := (s.get a).toNat
    let iw := if w = 0#2 then 32 else if w = 1#2 then 64 else 16
    let index := fun (bits : Nat) e => elemOf (h.group b.toNat (idxRegs vt bits)) bits e
    (∀ p ∈ ([
        (.vld d a k t c, fun e => (base + e * n) % 2 ^ 64), (.vlds d a b k t c, fun e => (base + e * (s.get b).toNat) % 2 ^ 64),
        (.vldx d a b k t w c, fun e => (base + index iw e) % 2 ^ 64), (.vldc d a b k t w c, fun e => (base + index iw e) % 2 ^ 64),
        (.vgll d a b k t, fun e => (base + index vt.ew e) % 2 ^ 64)] : List (Instr × (Nat → Nat))),
      TakesAtOnce s p.1 →
      let good := fun e => SpadElem s (p.2 e) n ∧ (p.1 = .vldc d a b k t w c → p.2 e / 2 ^ 61 = 5)
      ((∀ e ∈ s.actives k, good e) → ∃ u, exec p.1 s = .next u ∧ Writes s u d k (fun e => s.memNat (s.spadAddr (p.2 e)) n) ∧
        VectorOnly s u d vt.g ∧ u.hart.fl = h.fl) ∧
      (∀ f, f ∈ s.actives k → (∀ e ∈ s.actives k, e < f → good e) → p.2 f % n ≠ 0 →
        (f = 0 → h.inHandler = false → unhandled (s.descOf h) .misalign = false → ∃ u, exec p.1 s = .next u ∧ u.hart.tr.tpc = h.pc ∧
          u.hart.tr.eri = 0 ∧ u.hart.tr.tval = BitVec.ofNat 64 (p.2 0) ∧ u.hart.pc = h.tr.tvec ∧ u.hart.v = h.v ∧ u.hart.vr = h.vr) ∧
        (0 < f → ∃ u, exec p.1 s = .next u ∧ u.hart.vr.vl = f ∧ u.hart.pc = h.pc + 4 ∧ u.hart.fl.flags = h.fl.flags ||| 2#16 ∧
          u.hart.tr = h.tr ∧ ∀ e, e < vt.vlmax → u.elem d e = if e < f then ruled s d k (fun e => s.memNat (s.spadAddr (p.2 e)) n) e
            else if vt.tp then 0 else s.elem d e))) ∧
    (∀ q : BitVec 2, let size := 8 + (h.vr.vl * vt.ew + 63) / 64 * 8
      TakesAtOnce s (.vldz d a b q c) → 1 ≤ h.vr.vl → h.vr.vl ≤ 256 → base + size ≤ 2 ^ 64 → size ≤ (s.get b).toNat →
      (∀ e, 8 * e < size → SpadElem s (base + 8 * e) 8 ∧ s.spadAddr (base + 8 * e) = s.spadAddr base + 8 * e) →
      s.memNat (s.spadAddr base) 8 = (h.vr.vl - 1) * 2 ^ 15 + size / 8 → (h.queue (4 + q.toNat)).length < 16 →
      ∃ u, exec (.vldz d a b q c) s = .next u ∧ u.hart.queue (4 + q.toNat) = h.queue (4 + q.toNat) ++ [BitVec.ofNat 64 size] ∧
        u.hart.vr = h.vr ∧ u.hart.fl = h.fl ∧ u.hart.pc = h.pc + 4 ∧
        Writes s u d 0 fun e => elemOf (s.memNat (s.spadAddr base + 8) (size - 8)) vt.ew e) ∧
    (let blocks := (h.vr.vl + 31) / 32
      let bytes := 4 * vt.ew
      TakesAtOnce s (.vldb d a b t c) → vt.ew ∈ [2, 4, 8] →
      (∀ j, j < blocks → SpadElem s ((base + j * bytes) % 2 ^ 64) bytes ∧ SpadElem s (hdrAddr (s.get b).toNat ((base + j * bytes) % 2 ^ 64) bytes) 1) →
      ∃ u, exec (.vldb d a b t c) s = .next u ∧ VectorOnly s u d vt.g ∧ u.hart.fl = h.fl ∧
        ∀ j, j < blocks → 32 * (j + 1) ≤ vt.vlmax →
          elemOf (u.hart.group d.toNat vt.g) (32 * vt.ew) j = s.memNat (s.spadAddr ((base + j * bytes) % 2 ^ 64)) bytes ∧
          elemOf (u.hart.headers d.toNat vt.g vt.per) 8 j = s.memNat (s.spadAddr (hdrAddr (s.get b).toNat ((base + j * bytes) % 2 ^ 64) bytes)) 1)

/-- R167, R170, R172: with the port idle and at most 16 active elements, each in allocated scratchpad bytes, a vector store queues each
element's bytes in a PSF, the last of equal addresses on top (`vstx.u`: one of them), and changes nothing else; memory changes when
the FIFOs drain. A misaligned element f traps with ERI f once the elements before it are queued. A store that finds its FIFO full waits.
R173: `vstc` appends one packet for each core with active elements, its bytes in element order. R176: `vstb` queues whole blocks and their
headers. -/
def Obligations.VectorStoreResults : Prop :=
  ∀ (s : State) (d a b : Reg) (k : BitVec 3) (t c : Bool) (w : BitVec 2), w ≠ 3#2 → s.hart.vr.quads ≤ 8 → s.coh.guardBad = [] →
    let h := s.hart
    let vt := h.vt
    let n := vt.ew / 8
    let base := (s.get a).toNat
    let iw := if w = 0#2 then 32 else if w = 1#2 then 64 else 16
    let index := fun e => elemOf (h.group b.toNat (idxRegs vt iw)) iw e
    let holds := fun (u : State) (key len v : Nat) => ∀ j, j < len → u.hart.queuedByte (key + j) = some (BitVec.ofNat 8 (v / 256 ^ j))
    (∀ p ∈ ([
        (.vst d a k t c, fun e => (base + e * n) % 2 ^ 64), (.vsts d a b k t c, fun e => (base + e * (s.get b).toNat) % 2 ^ 64),
        (.vstxO d a b k t w c, fun e => (base + index e) % 2 ^ 64), (.vstxU d a b k t w c, fun e => (base + index e) % 2 ^ 64)] :
        List (Instr × (Nat → Nat))),
      let key := fun e => s.spadAddr (p.2 e)
      TakesAtOnce s p.1 → (s.actives k).length ≤ 16 →
      (PortIdle s → (∀ e ∈ s.actives k, SpadElem s (p.2 e) n) → ∃ u, exec p.1 s = .next u ∧ StoresOnly false s u ∧
        (∀ e ∈ s.actives k, (p.1 ≠ .vstxU d a b k t w c → (∀ f ∈ s.actives k, e < f → key f ≠ key e) → holds u (key e) n (s.elem d e)) ∧
          ∃ f ∈ s.actives k, key f = key e ∧ holds u (key e) n (s.elem d f)) ∧
        ∀ x, (∀ e ∈ s.actives k, x < key e ∨ key e + n ≤ x) → u.hart.queuedByte x = none) ∧
      (∀ f, f ∈ s.actives k → PortIdle s → (∀ e ∈ s.actives k, e < f → SpadElem s (p.2 e) n) → p.2 f % n ≠ 0 → h.inHandler = false →
        unhandled (s.descOf h) .misalign = false → ∃ u, exec p.1 s = .next u ∧ u.hart.tr.tpc = h.pc ∧ u.hart.tr.eri = BitVec.ofNat 64 f ∧
          u.hart.tr.tval = BitVec.ofNat 64 (p.2 f) ∧ u.hart.pc = h.tr.tvec ∧ (∀ x, u.byte x = s.byte x) ∧
          (∀ e ∈ s.actives k, e < f → ∃ g ∈ s.actives k, g < f ∧ key g = key e ∧ holds u (key e) n (s.elem d g)) ∧
          ∀ x, (∀ e ∈ s.actives k, e < f → x < key e ∨ key e + n ≤ x) → u.hart.queuedByte x = none) ∧
      (s.actives k ≠ [] → (∀ e ∈ s.actives k, SpadElem s (p.2 e) n) → (∀ q : Fin 8, (h.psf.get q).length = 16) →
        ∃ u, exec p.1 s = .next u ∧ WaitsQueued s u p.1 ∧ u.hart.psf = h.psf)) ∧
    (let addr := fun e => (base + index e) % 2 ^ 64
      let key := fun e => s.spadAddr (addr e)
      let mine := fun q : Nat => (s.actives k).filter fun e => spadPos (key e) == q
      TakesAtOnce s (.vstc d a b k t w c) → (∀ e ∈ s.actives k, SpadElem s (addr e) n ∧ addr e / 2 ^ 61 = 5) →
      (∀ q : Fin 4, (h.cpf.get q).length < 16) → ∃ u, exec (.vstc d a b k t w c) s = .next u ∧ StoresOnly true s u ∧
        ∀ q : Fin 4, if mine q.val = [] then u.hart.cpf.get q = h.cpf.get q else ∃ va, u.hart.cpf.get q = h.cpf.get q ++ [{
          va := va, bytes := (mine q.val).flatMap fun e => (natBytes n (s.elem d e)).zipIdx.map fun x => (key e + x.2, x.1) }]) ∧
    (let blocks := (h.vr.vl + 31) / 32
      let bytes := 4 * vt.ew
      let data := fun j => s.spadAddr ((base + j * bytes) % 2 ^ 64)
      let head := fun j => s.spadAddr (hdrAddr (s.get b).toNat ((base + j * bytes) % 2 ^ 64) bytes)
      TakesAtOnce s (.vstb d a b t c) → vt.ew ∈ [2, 4, 8] → blocks ≤ 8 → PortIdle s →
      (∀ j, j < blocks → SpadElem s ((base + j * bytes) % 2 ^ 64) bytes ∧ SpadElem s (hdrAddr (s.get b).toNat ((base + j * bytes) % 2 ^ 64) bytes) 1) →
      (∀ i j, i < blocks → j < blocks → head i < data j ∨ data j + bytes ≤ head i) →
      ∃ u, exec (.vstb d a b t c) s = .next u ∧ StoresOnly false s u ∧ ∀ j, j < blocks →
        holds u (data j) bytes (elemOf (h.group d.toNat vt.g) (32 * vt.ew) j) ∧
        holds u (head j) 1 (elemOf (h.headers d.toNat vt.g vt.per) 8 j))

/-- R177: `vgll` reads each active element of cached lines of the device's DRAM at its home, which records a link of the hart to the line.
R178: `vscc`, on such lines or on allocated scratchpad bytes, stores the elements of each line on which the hart holds a link, in ascending order,
none of another line, and writes its mask register with the active elements of those lines. R179: `vlock` takes the words of each line if all
are 0 or the hart's, and marks the active elements whose word is the hart's; `vunlock` writes 0 to the words that are the hart's. R183:
`vscadd` adds each active element to its word, equal addresses in ascending order, and raises no flag. Every other byte stays, in a memory
of canonical form (the invariant StepKeepsCanonical); a misaligned lowest element traps first, with nothing changed. -/
def Obligations.VectorSyncResults : Prop :=
  ∀ (s : State) (d a b : Reg) (k : BitVec 3) (t : Bool) (sc : BitVec 2) (key : Nat → Nat), Memory.wf s.mem = true → s.coh.guardBad = [] → s.hart.vr.quads ≤ 8 →
    let h := s.hart
    let vt := h.vt
    let n := vt.ew / 8
    let addr := fun e => ((s.get a).toNat + s.elem b e) % 2 ^ 64
    let act := s.actives k
    let mine := 2 ^ 63 + hartIdOf h.id % 2 ^ 21
    let others := fun (u : State) => ∀ x, (∀ e ∈ act, x < key e ∨ key e + n ≤ x) → u.byte x = s.byte x
    let local_ := fun e => SpadElem s (addr e) n ∧ key e = s.spadAddr (addr e)
    let good := fun e => local_ e ∨ CachedAt s .write (addr e) n (key e)
    (TakesAtOnce s (.vgll d a b k t) → PortIdle s → s.env.cut = false → (∀ e ∈ act, CachedAt s .read (addr e) n (key e)) →
      (∀ x, (s.coh.links.filter fun l => linkHome l.2 == linkHome x).length + act.length ≤ 2048) →
      ∃ u, exec (.vgll d a b k t) s = .next u ∧ Writes s u d k (fun e => s.memNat (key e) n) ∧ u.hart.fl = h.fl ∧
        VectorOnly { s with coh := { s.coh with links := u.coh.links } } u d vt.g ∧
        ∀ l, l ∈ u.coh.links ↔ l ∈ s.coh.links ∨ ∃ e ∈ act, l = (h.id, lineOf (key e))) ∧
    (∀ p ∈ [Instr.vscc d a b k t, .vlock d a b k, .vunlock a b k, .vscadd d a b k t sc], TakesAtOnce s p →
      ∀ e ∈ act, (∀ f ∈ act, good f ∨ (e ≤ f ∧ addr f % n ≠ 0)) → addr e % n ≠ 0 → h.inHandler = false → unhandled (s.descOf h) .misalign = false →
        ∃ u, exec p s = .next u ∧ u.hart.tr.eri = BitVec.ofNat 64 e ∧ u.hart.tr.tval = BitVec.ofNat 64 (addr e) ∧ u.hart.pc = h.tr.tvec ∧
          u.hart.tr.tpc = h.pc ∧ u.hart.k = h.k ∧ ∀ x, u.byte x = s.byte x) ∧
    ((∀ e ∈ act, good e) →
      (k ≠ 0 → TakesAtOnce s (.vscc d a b k t) →
        let won := fun e => decide (e ∈ act) && s.coh.links.contains (h.id, lineOf (key e))
        ∃ u, exec (.vscc d a b k t) s = .next u ∧ SyncOnly s u ∧ MaskWritten s u k.toNat won ∧
          (∀ r : Fin 8, r.val ≠ k.toNat → u.hart.k.get r = h.k.get r) ∧ u.hart.fl = h.fl ∧
          (∀ e ∈ act, (won e = true → (∀ f ∈ act, e < f → key f ≠ key e) → u.memNat (key e) n = s.elem d e) ∧
            (won e = false → u.memNat (key e) n = s.memNat (key e) n) ∧
            (won e = true → (h.id, lineOf (key e)) ∉ u.coh.links)) ∧ others u) ∧
      (vt.ew = 64 → TakesAtOnce s (.vlock d a b k) →
        let free := fun e => act.all fun f => lineOf (key f) != lineOf (key e) || s.memNat (key f) 8 == 0 || s.memNat (key f) 8 == mine
        ∃ u, exec (.vlock d a b k) s = .next u ∧ SyncOnly s u ∧ u.hart.fl = h.fl ∧
          MaskWritten s u d.toNat (fun e => decide (e ∈ act) && (free e || s.memNat (key e) 8 == mine)) ∧
          (∀ r : Fin 8, r.val ≠ d.toNat % 8 → u.hart.k.get r = h.k.get r) ∧
          (∀ e ∈ act, u.memNat (key e) 8 = if free e then mine else s.memNat (key e) 8) ∧ others u) ∧
      (vt.ew = 64 → TakesAtOnce s (.vunlock a b k) →
        ∃ u, exec (.vunlock a b k) s = .next u ∧ SyncOnly s u ∧ u.hart.fl = h.fl ∧ u.hart.k = h.k ∧
          (∀ e ∈ act, u.memNat (key e) 8 = if s.memNat (key e) 8 = mine then 0 else s.memNat (key e) 8) ∧ others u) ∧
      (TakesAtOnce s (.vscadd d a b k t sc) → (∀ e ∈ act, local_ e) ∨ sc ≠ 1 →
        let add := fun x y => if vt.isFloat then (fAdd vt.fmt .rne x y).1 else (x + y) % 2 ^ vt.ew
        ∃ u, exec (.vscadd d a b k t sc) s = .next u ∧ SyncOnly s u ∧ u.hart.fl = h.fl ∧ u.hart.k = h.k ∧
          (∀ e ∈ act, u.memNat (key e) n = (act.filter fun f => key f == key e).foldl (fun x f => add x (s.elem d f)) (s.memNat (key e) n)) ∧
          others u))

/-- R180: `win.decl` declares a window of n zero entries a lane over a global base (PAGE before MISALIGN for another is log entry 176). R181: `vscadd.win` adds each active element below VL to
the entry its index names in the copy of its lane, in ascending order, and raises NV for an index that is not below n. R182: `win.merge`
folds each entry over the lanes, adds it to its word of memory (here an uncached one) if a copy is not zero, and leaves every copy zero; a
hart without a window traps with ILLEGAL_TYPE. R184, R185: `cr.decl` records the range with the cached segments of its translation (these only:
log entry 57); `cr.drop` removes the range of its number that the task declared, once the homes have folded the partials of its lines (R304):
with none of them an integer's bytes stay. -/
def Obligations.WindowResults : Prop :=
  (∀ (s : State) (a b : Reg), TakesAtOnce s (.winDecl a b) → (s.get a).toNat < 2 ^ 63 → (s.get a).toNat % 4 = 0 →
    ∃ u, exec (.winDecl a b) s = .next u ∧ SyncOnly s u ∧ u.hart.k = s.hart.k ∧ u.hart.fl = s.hart.fl ∧ u.mem = s.mem ∧
      u.hart.win = some {
        base := (s.get a).toNat, n := (s.get b).toNat, float := s.hart.vt.isFloat, signed := s.hart.vt.isSigned
        copies := List.replicate (4 * s.hart.quads.count * (s.get b).toNat) 0 }) ∧
  (∀ (s : State) (a b : Reg) (c : Cause), TakesAtOnce s (.winDecl a b) → s.hart.inHandler = false → unhandled (s.descOf s.hart) c = false →
    ((2 ^ 63 ≤ (s.get a).toNat ∧ c = .page) ∨ ((s.get a).toNat < 2 ^ 63 ∧ (s.get a).toNat % 4 ≠ 0 ∧ c = .misalign)) →
    ∃ u, exec (.winDecl a b) s = .next u ∧ u.hart.tr.tval = s.get a ∧ u.hart.tr.eri = 0 ∧ u.hart.win = s.hart.win ∧ u.hart.pc = s.hart.tr.tvec) ∧
  (∀ (s : State) (d b : Reg) (k : BitVec 3) (w : Window), TakesAtOnce s (.vscaddWin d b k) → s.hart.win = some w →
    (if w.float then NoEnables s else Quiet s k fun e => { nv := decide (w.n ≤ s.elem b e) }) →
    let n := s.hart.vt.n
    let lane := fun e => e % (16 * n) / 4
    let add := fun x y => if w.float then (fAdd fp32 s.hart.vt.rm x y).1 else (x + y) % 2 ^ 32
    s.hart.vr.vl ≤ 4096 → w.copies.length = 4 * n * w.n →
    ∃ u x, exec (.vscaddWin d b k) s = .next u ∧ SyncOnly s u ∧ u.mem = s.mem ∧ u.hart.k = s.hart.k ∧ u.hart.win = some { w with copies := x } ∧
      x.length = w.copies.length ∧
      (w.float = false → u.hart.fl = s.notes k fun e => { nv := decide (w.n ≤ s.elem b e) }) ∧
      ∀ l i, l < 4 * n → i < w.n → (x.getD (l * w.n + i) 0).toNat =
        ((s.actives k).filter fun e => lane e == l && s.elem b e == i).foldl (fun y e => add y (s.elem d e)) (w.copies.getD (l * w.n + i) 0).toNat) ∧
  (∀ (s : State) (sc : Scope) (w : Window) (key : Nat → Nat), TakesAtOnce s (.winMerge sc) → Memory.wf s.mem = true → s.hart.win = some w →
    let lanes := 4 * s.hart.quads.count
    let copies := fun i => (List.range lanes).map fun l => (w.copies.getD (l * w.n + i) 0).toNat
    let some' := fun i => (copies i).any (· != 0)
    let sum := fun x y => if w.float then (fAdd fp32 .rne x y).1 else (x + y) % 2 ^ 32
    let fold := fun i => match copies i with | [] => 0 | x :: r => r.foldl sum x
    w.copies.length = lanes * w.n → (∀ i, i < w.n → some' i = true → UncachedAt s ((w.base + 4 * i) % 2 ^ 64) 4 (key i)) →
    (∀ i j, i < w.n → j < w.n → some' i = true → some' j = true → i ≠ j → key i ≠ key j) →
    ∃ u, exec (.winMerge sc) s = .next u ∧ u.hart.pc = s.hart.pc + 4 ∧ u.hart.fl = s.hart.fl ∧ u.hart.v = s.hart.v ∧ u.hart.k = s.hart.k ∧
      u.hart.x = s.hart.x ∧ u.hart.win = some { w with copies := List.replicate (lanes * w.n) 0 } ∧
      (∀ i, i < w.n → some' i = true → u.memNat (key i) 4 = sum (s.memNat (key i) 4) (fold i)) ∧
      ∀ x, (∀ i, i < w.n → some' i = true → x < key i ∨ key i + 4 ≤ x) → u.byte x = s.byte x) ∧
  (∀ (s : State) (i : Instr), (∃ d b k, i = .vscaddWin d b k) ∨ (∃ sc, i = .winMerge sc) → s.env.issue = none → s.hart.win = none →
    queuedBefore s.hart (encode i) = false → s.hart.quads.count ≠ 0 → exec i s = .next (s.trap .illegalType ((encode i).zeroExtend 64))) ∧
  (∀ (s : State) (o : BitVec 2) (r : BitVec 3) (a b : Reg) (segs : List (Nat × Nat)), TakesAtOnce s (.crDecl o r a b) → s.coh.comb = [] →
    (s.get a).toNat < 2 ^ 63 → (s.get a).toNat % 64 = 0 →
    rangeSegs s s.hart.tk.part s.hart.tk.ctx (s.get a).toNat (s.get b).toNat 6 = .ok segs →
    ∃ u, exec (.crDecl o r a b) s = .next u ∧ u.mem = s.mem ∧ u.hart.pc = s.hart.pc + 4 ∧ u.hart.x = s.hart.x ∧
      u.coh = { s.coh with ranges := s.coh.ranges ++ [{
        part := s.hart.tk.part, task := s.hart.tk.task, rng := r.toNat
        va := (s.get a).toNat, len := (s.get b).toNat, op := o, ew := s.hart.vt.ew, cls := s.hart.vt.cls, segs := segs }] }) ∧
  (∀ (s : State) (r : BitVec 3), TakesAtOnce s (.crDrop r) → Memory.wf s.mem = true →
    let mine := fun g : CRange => g.part == s.hart.tk.part && g.task == s.hart.tk.task && g.rng == r.toNat
    let free := fun l => s.lineWaits l 0xFFFF = false ∧ (s.homeAt l).coreOwners 0xFFFF = [] ∧ s.splitFull s l = false
    let done := fun u : State => exec (.crDrop r) s = .next u ∧ u.hart.pc = s.hart.pc + 4 ∧ u.hart.x = s.hart.x ∧
      u.coh.ranges = s.coh.ranges.filter (fun g => !mine g)
    ((∀ g ∈ s.coh.ranges, mine g = false) → ∃ u, done u ∧ u.mem = s.mem ∧ u.coh = s.coh) ∧
    (s.coh.comb = [] → (∀ g ∈ s.coh.ranges, g.cls ≤ 1 ∧ (g.ew = 32 ∨ g.ew = 64) ∧ (mine g = true → ∀ x ∈ g.segs, ∀ i, i < x.2 / 64 → free (x.1 / 64 + i))) →
      ∃ u, done u ∧ SameBytes s u ∧ u.coh = { s.coh with ranges := u.coh.ranges }) ∧
    (∀ g l b, s.coh.ranges = [g] → mine g = true → g.segs = [(64 * l, 64)] → g.ew = 32 ∨ g.ew = 64 → s.coh.comb = [b] → b.partialLine = true →
      b.line = l → b.cluster < 160 → free l → ∃ u, done u ∧ u.coh.comb = [] ∧
        LineWritten s u l (-1) (foldPartials g (s.memLine l) [(b.words, b.data)])))

/-- R203: `mattach` of a hart with rows, or of a task without tiles, grants nothing; else it grants the lowest free aligned block of the
wanted rows, or of the largest smaller size with one. `mdetach` sets g to 0, and clears b and keeps SKB (the model's reading, log entry
58). R204: `o.claim` gives the hart the slots of its range, and
`o.release` gives back those of the range that it holds. R206: `mzero` zeroes the granted rows of the tile and their side entries. R205:
`mfmt` sets the class pair, with the format registers that blocked classes name. R217: `mskip` sets SKB from the record and the live rows.
Nothing else changes, in a place of canonical form (the invariant StepKeepsCanonical). -/
def Obligations.MatrixStateResults : Prop :=
  (∀ (s : State) (r : Reg), TakesAtOnce s (.mattach r) →
    let h := s.hart
    let g := fun u : State => u.hart.mgrant.toNat % 256
    let b := fun u : State => u.hart.mgrant.toNat / 256 % 256
    let x := (s.get r).toNat
    let want := if x = 0 ∨ 64 < x then 128 else if 32 < x then 64 else if 16 < x then 32 else 16
    let free := fun n c => decide (c % n = 0) && decide (c + n ≤ 128) && (List.range n).all fun i => !s.rowTaken h (c + i)
    ∃ u, exec (.mattach r) s = .next u ∧
      u = { s with hart := { s.hart with
        mgrant := u.hart.mgrant, pc := h.pc + 4, wait := none, restart := none, vs := { h.vs with conv := u.hart.vs.conv } } } ∧
      (0 < g s ∨ (∀ p, s.myPlace = some p → p.tiles = 0) → u.hart.mgrant = h.mgrant) ∧
      (g s = 0 → (∃ p, s.myPlace = some p ∧ 0 < p.tiles) → u.hart.mgrant.getLsbD 16 = h.mgrant.getLsbD 16 ∧
        ((∀ n ∈ [16, 32, 64, 128], n ≤ want → ∀ c, free n c = false) → u.hart.mgrant = h.mgrant) ∧
        ∀ n ∈ [16, 32, 64, 128], ∀ c, n ≤ want → free n c = true → (∀ e, e < c → free n e = false) →
          (∀ m ∈ [16, 32, 64, 128], n < m → m ≤ want → ∀ e, free m e = false) → g u = n ∧ b u = c)) ∧
  (∀ s : State, TakesAtOnce s .mdetach → ∃ u, exec .mdetach s = .next u ∧ u.hart.mgrant.toNat % 65536 = 0 ∧
    u.hart.mgrant.getLsbD 16 = s.hart.mgrant.getLsbD 16 ∧ u.hart.x = s.hart.x ∧ u.places = s.places ∧ u.mem = s.mem ∧ u.hart.pc = s.hart.pc + 4) ∧
  (∀ (s : State) (f n : BitVec 6) (p : Place), s.myPlace = some p →
    (TakesAtOnce s (.oClaim f n) → ∃ u q, exec (.oClaim f n) s = .next u ∧ PlaceOnly s u ∧ u.myPlace = some { p with claims := q } ∧
      ∀ o id, (o, id) ∈ q ↔ if f.toNat ≤ o ∧ o ≤ f.toNat + n.toNat then id = s.hart.id else (o, id) ∈ p.claims) ∧
    (TakesAtOnce s (.oRelease f n) → ∃ u q, exec (.oRelease f n) s = .next u ∧ PlaceOnly s u ∧ u.myPlace = some { p with claims := q } ∧
      ∀ o id, (o, id) ∈ q ↔ (o, id) ∈ p.claims ∧ ¬ (id = s.hart.id ∧ f.toNat ≤ o ∧ o ≤ f.toNat + n.toNat))) ∧
  (∀ (s : State) (t : BitVec 2) (p : Place), TakesWith s (.mzero t) p → s.tileTest s.hart t.toNat = false → s.hart.row0 + s.hart.rows ≤ 128 →
    let mine := fun tt row => tt = t.toNat ∧ s.hart.row0 ≤ row ∧ row < s.hart.row0 + s.hart.rows
    ∃ u q, exec (.mzero t) s = .next u ∧ PlaceOnly s u ∧ u.myPlace = some q ∧
      q = { p with tile := q.tile, side := q.side, badRows := q.badRows } ∧
      (∀ tt row col, row < 128 → col < 64 → q.acc tt row col = if mine tt row then 0 else p.acc tt row col) ∧
      (∀ tt row, row < 128 → q.sideAt tt row = if mine tt row then 0x80000000FF800000#128 else p.sideAt tt row)) ∧
  (∀ (s : State) (t : BitVec 2) (ca cb : BitVec 5) (x y : BitVec 3) (p : Place), TakesWith s (.mfmt t ca cb x y) p →
    let fr := fun (c : BitVec 5) (i : BitVec 3) => if c.toNat < 8 then 0 else s.hart.f.get ⟨i.toNat, i.isLt⟩
    ∃ u q, exec (.mfmt t ca cb x y) s = .next u ∧ PlaceOnly s u ∧ u.myPlace = some q ∧ q = { p with pair := q.pair } ∧
      ∀ tt, q.pairAt tt = if tt = t.toNat then { a := ca, b := cb, fa := fr ca x, fb := fr cb y } else p.pairAt tt) ∧
  (∀ (s : State) (t : BitVec 2) (r : Reg) (p : Place), TakesWith s (.mskip t r) p → PortIdle s → SpadElem s (s.get r).toNat 16 →
    let word := fun i => s.memNat (s.spadAddr (s.get r).toNat + 4 * i) 4
    let beta := (fMul fp32 .rup (fMul fp32 .rup (word 2) (word 1)).1 (word 0)).1
    let below := fun row => match (stripOf (p.sideAt t.toNat row)).r with
      | none => false
      | some i => (fp32.decode beta).cmp (intVal (i - 1 - bitsOf s.hart.skipd.toNat 31 24)) == .lt && !(fp32.decode beta).isNan
    let skb := s.hart.skipd.toNat % 4 != 0 && (List.range s.hart.liveRows).all fun i => below (s.hart.row0 + i)
    ∃ u, exec (.mskip t r) s = .next u ∧
      u = { s with hart := { s.hart with
        mgrant := u.hart.mgrant, pc := s.hart.pc + 4, wait := none, restart := none, vs := { s.hart.vs with conv := u.hart.vs.conv } } } ∧
      u.hart.mgrant.getLsbD 16 = skb ∧ u.hart.mgrant.toNat % 65536 = s.hart.mgrant.toNat % 65536)

/-- R210: `mop` replaces each live accumulator of its tile by the sum, group of eight by group, of the products of the decoded containers of
its operand rows, from zero with `.z`, and nothing else; with `.sk` and SKB set it changes nothing, and with an error in an operand row
it traps with ECC (R383; the model's reading, for R211 names the traps of R81 alone, log entry 106). R212: the plain slices move accumulators
or side words unchanged; rows at or above g read as zero and ignore writes. R213, for VL 64 with no event of an enabled class: one strip of the row, whose events
are recorded.
R208: `mld` and `mld.p` load whole rows from allocated scratchpad bytes. R209: `mst` queues the live rows of a tile (at most 16 here). -/
def Obligations.MatrixResults : Prop :=
  (∀ (s : State) (t : BitVec 2) (a b : BitVec 6) (k z c : Bool) (p : Place), TakesWith s (.mop t a b k z c) p → s.hart.vs.mopStep = 0 →
    ((k = false ∨ s.hart.mgrant.getLsbD 16 = false) → s.slotServes s.hart = true → Handles s .ecc → (∀ x ∈ s.sys.pending, x.what ≠ .row ∧ x.what ≠ .column) →
      (∃ o ∈ p.badSlots, (∃ i, i < s.hart.liveRows ∧ o = 64 * a.toNat + i) ∨ ∃ j, j < vtCols s.hart.vr.vtype ∧ o = 64 * b.toNat + j) →
      ∃ u, exec (.mop t a b k z c) s = .next u ∧ TrappedAt s u (.mop t a b k z c) .ecc 0 ∧ u.places = s.places) ∧
    (k = true → s.hart.mgrant.getLsbD 16 = true → ∃ u, exec (.mop t a b k z c) s = .next u ∧ PlaceOnly s u ∧ u.places = s.places) ∧
    ((k = false ∨ s.hart.mgrant.getLsbD 16 = false) → s.slotServes s.hart = true → RowsSound s p →
      s.hart.row0 + s.hart.rows ≤ 128 →
      let pr := p.pairAt t.toNat
      let ca := pr.a.toNat
      let cb := pr.b.toNat
      let kk := min (krow ca) (krow cb)
      let av := fun i n => opValue ca pr.fa (p.slotRow (a.toNat + i / 64) (i % 64)) (p.slotHdr (a.toNat + i / 64) (i % 64)) n
      let bv := fun j n => opValue cb pr.fb (p.slotRow b.toNat j) (p.slotHdr b.toNat j) n
      let acc := fun i j (x : Nat) => (List.range (kk / 8)).foldl (fun y g => addGroup (intClass ca && intClass cb) y
        ((List.range 8).map fun m => ((av i (8 * g + m)).mul (bv j (8 * g + m))).1)) x
      kk / 8 % max (classSteps ca) (classSteps cb) = 0 →
      ∃ u q, exec (.mop t a b k z c) s = .next u ∧ PlaceOnly s u ∧ u.myPlace = some q ∧ q = { p with tile := q.tile } ∧
        ∀ tt row col, row < 128 → col < 64 → q.acc tt row col =
          if tt = t.toNat ∧ s.hart.row0 ≤ row ∧ row < s.hart.row0 + s.hart.liveRows ∧ col < vtCols s.hart.vr.vtype then
            BitVec.ofNat 32 (acc (row - s.hart.row0) col (if z then 0 else (p.acc tt row col).toNat))
          else p.acc tt row col)) ∧
  (∀ (s : State) (t : BitVec 2) (r v : Reg) (c : Bool) (p : Place), RowsSound s p → s.hart.row0 + s.hart.rows ≤ 128 → s.hart.vr.quads ≤ 8 →
    let h := s.hart
    let side := (s.get r).getLsbD 8
    let at' := fun e => if side then (bitsOf (s.get r).toNat 6 0 + e / 4, e % 4) else (bitsOf (s.get r).toNat 6 0 + e / 64, e % 64)
    (TakesWith s (.msliceRd t r v c) p → ∃ u, exec (.msliceRd t r v c) s = .next u ∧ VectorOnly s u v h.vt.g ∧ u.hart.fl = h.fl ∧
      Writes s u v 0 fun e => if h.rows ≤ (at' e).1 then 0
        else if side then elemOf (p.sideAt t.toNat (h.row0 + (at' e).1)).toNat 32 (at' e).2
        else (p.acc t.toNat (h.row0 + (at' e).1) (at' e).2).toNat) ∧
    (TakesWith s (.msliceWr t r v c) p → ∃ u q, exec (.msliceWr t r v c) s = .next u ∧ PlaceOnly s u ∧ u.myPlace = some q ∧
      q = { p with tile := q.tile, side := q.side } ∧
      (∀ tt row col, row < 128 → col < 64 → ((∀ e, e < h.vr.vl → ¬ (tt = t.toNat ∧ side = false ∧ row < h.row0 + h.rows ∧
          at' e = (row - h.row0, col) ∧ h.row0 ≤ row)) → q.acc tt row col = p.acc tt row col) ∧
        ∀ e, e < h.vr.vl → side = false → (at' e).1 < h.rows → row = h.row0 + (at' e).1 → col = (at' e).2 → tt = t.toNat →
          q.acc tt row col = BitVec.ofNat 32 (s.elem v e)) ∧
      (∀ tt row j, row < 128 → j < 4 → ((∀ e, e < h.vr.vl → ¬ (tt = t.toNat ∧ side = true ∧ row < h.row0 + h.rows ∧
          at' e = (row - h.row0, j) ∧ h.row0 ≤ row)) → elemOf (q.sideAt tt row).toNat 32 j = elemOf (p.sideAt tt row).toNat 32 j) ∧
        ∀ e, e < h.vr.vl → side = true → (at' e).1 < h.rows → row = h.row0 + (at' e).1 → j = (at' e).2 → tt = t.toNat →
          elemOf (q.sideAt tt row).toNat 32 j = s.elem v e)) ∧
    (TakesWith s (.msliceRdExp t r v c) p → h.vr.vl = 64 → bitsOf (s.get r).toNat 6 0 < h.liveRows →
      (intClass (p.pairAt t.toNat).a.toNat && intClass (p.pairAt t.toNat).b.toNat) = false →
      let row := h.row0 + bitsOf (s.get r).toNat 6 0
      let o := stripRow (2 ^ 30) (stripOf (p.sideAt (t.toNat ^^^ 1) row)) ((s.get r).toNat / 2 ^ 32)
        ((List.range (vtCols h.vr.vtype)).map fun j => some (j, (p.acc t.toNat row j).toNat))
      let evs := o.evs ++ if o.f = 0 ∨ o.f = 0x3F800000 then [] else (List.range 64).map fun j =>
        (0, (fMul fp32 .rne (p.acc (t.toNat ^^^ 1) row j).toNat o.f).2)
      QuietList s evs → ∃ u q, exec (.msliceRdExp t r v c) s = .next u ∧ u.hart.fl = recordEvs evs h.pc h.fl ∧ u.hart.pc = h.pc + 4 ∧ u.hart.x = h.x ∧ u.mem = s.mem ∧ u.myPlace = some q ∧
        q = { p with tile := q.tile, side := q.side } ∧
        Writes s u v 0 (fun e => match (o.p[e]?).join with | some (_, y) => y | none => 0) ∧
        (∀ tt i, i < 128 → q.sideAt tt i = if tt = (t.toNat ^^^ 1) ∧ i = row then sideOf o.st else p.sideAt tt i) ∧
        ∀ tt i j, i < 128 → j < 64 → q.acc tt i j = if tt = (t.toNat ^^^ 1) ∧ i = row then
            (if o.f = 0 then 0 else if o.f = 0x3F800000 then p.acc tt i j else BitVec.ofNat 32 (fMul fp32 .rne (p.acc tt i j).toNat o.f).1)
          else p.acc tt i j)) ∧
  (∀ (s : State) (o : BitVec 6) (r b : Reg) (p : Place), PortIdle s →
    let h := s.hart
    let row := fun i => ((s.get b).toNat + i * (s.get r).toNat) % 2 ^ 64
    let high := fun i => (row i + 64) % 2 ^ 64
    let rows := min (vtRows h.vr.vtype) 128
    let cols := min (vtCols h.vr.vtype) 64
    let block := if h.mhctl.toNat % 4 = 1 then 32 else if h.mhctl.toNat % 4 = 2 then 16 else 8
    let head := fun i n => hdrAddr h.mhb.toNat ((row i + n * block) % 2 ^ 64) block
    let heads := if h.mhctl.toNat % 4 = 0 then 0 else 128 / block
    ∀ x ∈ [(Instr.mld o r b, cols), (.mldP o r b, rows)], TakesWith s x.1 p → (∀ y ∈ s.sys.pending, y.what ≠ .row ∧ y.what ≠ .column) →
      (∀ i, i < x.2 → SpadElem s (row i) 64 ∧ SpadElem s (high i) 64 ∧ ∀ n, n < heads → SpadElem s (head i n) 1) →
      ∃ u q, exec x.1 s = .next u ∧ PlaceOnly s u ∧ u.myPlace = some q ∧ q = { p with slot := q.slot, shdr := q.shdr, badSlots := q.badSlots } ∧
        (∀ i, i < x.2 → q.slotRow (o.toNat + i / 64) (i % 64) = s.memNat (s.spadAddr (row i)) 64 + 2 ^ 512 * s.memNat (s.spadAddr (high i)) 64 ∧
          ∀ n, n < 16 → elemOf (q.slotHdr (o.toNat + i / 64) (i % 64)) 8 n =
            if n < heads then (s.byte (s.spadAddr (head i n))).toNat else elemOf (p.slotHdr (o.toNat + i / 64) (i % 64)) 8 n) ∧
        ∀ sl i, i < 64 → (sl < o.toNat ∨ x.2 ≤ 64 * (sl - o.toNat) + i) → q.slotRow sl i = p.slotRow sl i ∧ q.slotHdr sl i = p.slotHdr sl i) ∧
  (∀ (s : State) (t : BitVec 2) (r b : Reg) (p : Place), TakesWith s (.mst t r b) p → PortIdle s → RowsSound s p → s.hart.liveRows ≤ 16 →
    s.hart.row0 + s.hart.rows ≤ 128 →
    let at' := fun i j => (((s.get b).toNat + i * (s.get r).toNat) % 2 ^ 64 + 4 * j) % 2 ^ 64
    let cols := vtCols s.hart.vr.vtype
    (∀ i j, i < s.hart.liveRows → j < cols → SpadElem s (at' i j) 4) →
    ∃ u, exec (.mst t r b) s = .next u ∧ StoresOnly false s u ∧
      (∀ i j, i < s.hart.liveRows → j < cols → (∀ m n, i < m → m < s.hart.liveRows → n < cols → s.spadAddr (at' m n) ≠ s.spadAddr (at' i j)) →
        ∀ n, n < 4 → u.hart.queuedByte (s.spadAddr (at' i j) + n) = some (BitVec.ofNat 8 ((p.acc t.toNat (s.hart.row0 + i) j).toNat / 256 ^ n))) ∧
      ∀ x, (∀ i j, i < s.hart.liveRows → j < cols → x < s.spadAddr (at' i j) ∨ s.spadAddr (at' i j) + 4 ≤ x) → u.hart.queuedByte x = none)

/-! ### Engines -/

/-- R187: `cp.nd`, `cp.mc` and `cp.bind` trap with MISALIGN when the descriptor is not aligned to 64; from a descriptor in the hart's
scratchpad they answer -1 when all 64 tokens are in use and -2 when it is ill-formed (in this order, log entry 64), and otherwise, for a scratchpad destination, start
the copy and answer its token, the lowest free one (the model's choice, log entry 65); a guarded one takes the next version. R188: `cp.wait` answers -1
for a token without a copy, waits for an open one, and takes the status of an ended one, freeing its token; R287: for a global
destination it self-invalidates the L1. -/
def Obligations.CopyResults : Prop :=
  (∀ (s : State) (d a b : Reg) (g f : Bool) (off : Nat),
    let h := s.hart
    let mine := s.eng.copies.filter fun c => c.hart == h.id && c.task == h.tk.task
    let v := BitVec.ofNat 1024 (s.memNat (spadKey h.core off) 128)
    s.env.cut = false → (∀ c ∈ mine, c.state ≠ .registering) →
    ∀ p ∈ [(Instr.cpNd d a g f, dMask v == 0, g, f, none), (.cpMc d a g f, dMask v != 0, g, f, none), (.cpBind d a b, true, false, false, some (s.get b))],
      let bound := p.2.2.2.2
      ((s.get a).toNat % 64 ≠ 0 → exec p.1 s = .next (s.trap .misalign (s.get a))) ∧
      ((s.get a).toNat % 64 = 0 → (∀ x c, bound = some x → s.barLoc h x = .error c → exec p.1 s = .next (s.trap c x)) ∧
        ((∀ x, bound = some x → ∃ key, s.barLoc h x = .ok key) → RecordAt s (s.get a) 16 off →
          ((∀ k, k < 64 → ∃ c ∈ mine, c.token = k) → exec p.1 s = .next (s.set d (-1)).advance) ∧
          ∀ k, k < 64 → (∀ c ∈ mine, c.token ≠ k) → (∀ j, j < k → ∃ c ∈ mine, c.token = j) →
            let good := descOk v && p.2.1 && (!p.2.2.1 || guardOk v) && (bound.isNone || decide (dLen v * dSize v < 2 ^ 31))
            (good = false → exec p.1 s = .next (s.set d (-2)).advance) ∧
            (good = true → s.eng.paused = false → (∀ t, s.taskAt h.tk.task = some t → t.phase ≠ .preempting) → (p.2.2.1 = true → s.eng.clock ≠ 2 ^ 48 - 1) → (dMask v = 0 → ∀ i, i < dTotal v →
                2 ^ 63 ≤ addrAt (dDst v) (strided v (dDstr v) i)) →
              exec p.1 s = .next (({ s with eng := { s.eng with
                clock := if p.2.2.1 then s.eng.clock + 1 else s.eng.clock
                copies := s.eng.copies ++ [{
                  hart := h.id, token := k, core := h.core, task := h.tk.task, part := h.tk.part, ctx := h.tk.ctx, desc := v
                  guarded := p.2.2.1, final := p.2.2.1 && p.2.2.2.1, barrier := bound.map (·.toNat), done := 0
                  version := if p.2.2.1 then s.eng.clock + 1 else 0, fault := none, state := .running }] } } : State).set d (BitVec.ofNat 64 k)).advance)))) ∧
  (∀ (s : State) (d a : Reg), s.copyOf s.hart (s.get a).toNat = none → exec (.cpWait d a) s = .next (s.set d (-1)).advance) ∧
  (∀ (s : State) (d a : Reg) (c : Copy), s.copyOf s.hart (s.get a).toNat = some c →
    ((∀ w, c.state ≠ .ended w) → exec (.cpWait d a) s = .next (s.waitFor .copy)) ∧
    ∀ w, c.state = .ended w → ∃ u, exec (.cpWait d a) s = .next u ∧ u.hart.pc = s.hart.pc + 4 ∧ KeepsX d s u ∧ (d ≠ 0 → u.get d = w) ∧
      KeepsBytes 0 0 s u ∧ u.eng.copies = s.eng.copies.filter (fun x => !(x.hart == c.hart && x.task == c.task && x.token == c.token)) ∧
      (dDst c.desc < 2 ^ 63 → SelfInvalidated s u) ∧ (2 ^ 63 ≤ dDst c.desc → u.cores = s.cores))

/-- R191, R192: `bar.init` with a count of 1 to 2^31 writes the object: EXPECT and LEFT the count, TX_LEFT 0, P 0; another count traps with
ILLEGAL; a bad count goes before the address, and a bad operand of `bar.arrive` likewise (the model's choice, log entry 68);
an error in an object that is read traps with ECC (R383). A settled `bar.arrive` takes one from LEFT, adds its bytes to TX_LEFT and answers P; with both at 0 it flips P, re-arms the object
and releases the waiters; at a broken object it answers 2, and an arrival too many or out of range breaks it. `bar.wait` answers 0 once P
differs from bit 0 of x[B], 1 with BRK at a broken object, after an acquire at `.clu`, and waits otherwise; one that begins at an unbroken
object with both at 0 first completes its phase. -/
def Obligations.BarrierResults : Prop :=
  (∀ (s : State) (a b : Reg), let n := (s.get b).toNat
    ((n = 0 ∨ 2 ^ 31 < n) → exec (.barInit a b) s = .next (s.trap .illegal ((encode (.barInit a b)).zeroExtend 64))) ∧
    (0 < n → n ≤ 2 ^ 31 → (∀ c, s.barLoc s.hart (s.get a) = .error c → exec (.barInit a b) s = .next (s.trap c (s.get a))) ∧
      ∀ key, s.barLoc s.hart (s.get a) = .ok key → Memory.wf s.mem = true → s.deadAt key 16 = false → s.bankTest key = false →
        ∃ u, exec (.barInit a b) s = .next u ∧ BarSet s u key { exp := n, left := n, tx := 0, p := false, broken := false } none ∧
          (∀ r, u.get r = s.get r) ∧ KeepsOther s u ∧ u.hart.pc = s.hart.pc + 4)) ∧
  (∀ (s : State) (a : Reg), ((s.get a).toNat % 16 ≠ 0 → s.barLoc s.hart (s.get a) = .error .misalign) ∧
    ((s.get a).toNat % 16 = 0 → (s.get a).toNat < 2 ^ 63 → s.barLoc s.hart (s.get a) = .error .page) ∧
    (∀ off, SpadAt s (s.get a) 16 off → s.barLoc s.hart (s.get a) = .ok (spadKey s.hart.core off)) ∧
    ∀ key, s.barLoc s.hart (s.get a) = .ok key → s.poisoned key 16 = true → (∀ x r, s.hart.wait ≠ some (.barrier x (some r))) → ∀ d b : Reg,
      exec (.barWait d a b) s = .next (s.trap .ecc (s.get a)) ∧ ((s.get b).toNat < 2 ^ 31 → exec (.barArrive d a b) s = .next (s.trap .ecc (s.get a)))) ∧
  (∀ (s : State) (d a b : Reg) (key : Nat), (s.get b).toNat < 2 ^ 31 → s.barOpen s.hart (s.get a) = .ok key → s.bankTest key = false →
    Settled s .clu false → Memory.wf s.mem = true →
    let n := (s.get b).toNat
    let o := s.barAt key
    let last := o.left == 1 && o.tx + n == 0
    ∃ u, exec (.barArrive d a b) s = .next u ∧ u.hart.pc = s.hart.pc + 4 ∧ KeepsX d s u ∧ u.hart.fl = s.hart.fl ∧
      (o.broken = true → (d ≠ 0 → u.get d = 2) ∧ BarSet s u key o none) ∧
      (o.broken = false → (o.left = 0 ∨ (2 ^ 31 : Int) ≤ o.tx + n) → (d ≠ 0 → u.get d = 2) ∧ BarSet s u key { o with broken := true } (some true)) ∧
      (o.broken = false → o.left ≠ 0 → o.tx + n < (2 ^ 31 : Int) → (d ≠ 0 → u.get d = BitVec.ofNat 64 o.p.toNat) ∧
        BarSet s u key (if last then { o with p := !o.p, left := o.exp, tx := 0 } else { o with left := o.left - 1, tx := o.tx + n })
          (if last then some false else none))) ∧
  (∀ (s : State) (d a b : Reg), 2 ^ 31 ≤ (s.get b).toNat → exec (.barArrive d a b) s = .next (s.trap .illegal ((encode (.barArrive d a b)).zeroExtend 64))) ∧
  (∀ (s : State) (d a b : Reg) (key : Nat), (∀ x r, s.hart.wait ≠ some (.barrier x (some r))) → s.barOpen s.hart (s.get a) = .ok key →
    s.bankTest key = false → s.hart.vs.vq = [] → let o := s.barAt key
    o.left ≠ 0 ∨ o.tx ≠ 0 →
    (o.p ≠ (s.get b).getLsbD 0 ∨ o.broken = true → ∃ u, exec (.barWait d a b) s = .next u ∧ u.hart.pc = s.hart.pc + 4 ∧ KeepsX d s u ∧ u.mem = s.mem ∧
      SelfInvalidated s u ∧ (o.p ≠ (s.get b).getLsbD 0 → (d ≠ 0 → u.get d = 0) ∧ u.hart.fl = s.hart.fl) ∧
      (o.p = (s.get b).getLsbD 0 → (d ≠ 0 → u.get d = 1) ∧ u.hart.fl = { s.hart.fl with flags := s.hart.fl.flags ||| 1#16 })) ∧
    (o.p = (s.get b).getLsbD 0 → o.broken = false → exec (.barWait d a b) s = .next (s.waitFor (.barrier key none)))) ∧
  (∀ (s : State) (d a b : Reg) (key : Nat), (∀ x r, s.hart.wait ≠ some (.barrier x r)) → s.barOpen s.hart (s.get a) = .ok key →
    s.bankTest key = false → s.hart.vs.vq = [] → Memory.wf s.mem = true → let o := s.barAt key
    o.left = 0 → o.tx = 0 → o.broken = false → ∃ u, exec (.barWait d a b) s = .next u ∧ BarSet s u key { o with p := !o.p, left := o.exp } (some false) ∧
      (o.p = (s.get b).getLsbD 0 → u.hart.pc = s.hart.pc + 4 ∧ KeepsX d s u ∧ (d ≠ 0 → u.get d = 0) ∧ u.hart.fl = s.hart.fl ∧ SelfInvalidated s u) ∧
      (o.p ≠ (s.get b).getLsbD 0 → u.hart = { s.hart with wait := some (.barrier key none) } ∧ u.cores = s.cores)) ∧
  (∀ (s : State) (d a b : Reg) (key : Nat) (r : Bool), s.hart.wait = some (.barrier key (some r)) → s.hart.vs.vq = [] →
    ∃ u, exec (.barWait d a b) s = .next u ∧ u.hart.pc = s.hart.pc + 4 ∧ KeepsX d s u ∧ u.mem = s.mem ∧ SelfInvalidated s u ∧
      (d ≠ 0 → u.get d = if r then 1 else 0) ∧ u.hart.fl = if r then { s.hart.fl with flags := s.hart.fl.flags ||| 1#16 } else s.hart.fl)

/-- R195: on a hart with quads `zbind` and `zrest` bind zD to a well-formed block in the hart's scratchpad, with progress 0 or the saved one; an
ill-formed one traps with STREAM. `zsave` of a bound register queues block and progress as 17 stores; one of an unbound register traps with
STREAM, whatever its address (the model's choice, log entry 143). R194, R196: `zrd` of an affine stream
without operators writes the elements at its next VL positions and advances progress by VL; `zpeek` does not advance; an end after f > 0
positions trims VL to f, and an end at once traps with STREAM. R197: `zloop` begins a loop of its body's words and the product of its
counts; each body word is pushed under its own checks and kept; when the last one is done with replays left, the whole body is queued again. A
length of 0 or above 32 is ILLEGAL (log entry 72), and a loop waits for the one before it (log entry 136): the model's readings. -/
def Obligations.StreamResults : Prop :=
  (∀ (s : State) (d a : Reg) (off : Nat), s.hart.quads.count ≠ 0 → ∀ p ∈ [(Instr.zbind d a, 64, 16), (.zrest d a, 8, 17)],
    let v := s.memNat (spadKey s.hart.core off) (8 * p.2.2)
    ((s.get a).toNat % p.2.1 ≠ 0 → exec p.1 s = .next (s.trap .misalign (s.get a))) ∧
    ((s.get a).toNat % p.2.1 = 0 → RecordAt s (s.get a) p.2.2 off →
      (zBlockOk (BitVec.ofNat 1024 v) = false → exec p.1 s = .next (s.trap .stream (s.get a))) ∧
      (zBlockOk (BitVec.ofNat 1024 v) = true → exec p.1 s = .next (s.onHart fun h => { h with
        z := Vector.set h.z (d.toNat % 8) (some { block := BitVec.ofNat 1024 v, progress := v / 2 ^ 1024 }) (by omega) }).advance))) ∧
  (∀ (s : State) (d a : Reg) (z : ZReg), s.hart.quads.count ≠ 0 → s.hart.z.get ⟨d.toNat % 8, by omega⟩ = some z →
    ((s.get a).toNat % 8 ≠ 0 → exec (.zsave d a) s = .next (s.trap .misalign (s.get a))) ∧
    ∀ off, (∀ i, i < 17 → SpadAt s (s.get a + BitVec.ofNat 64 (8 * i)) 8 (off + 8 * i)) → s.hart.ssb.length ≤ 15 →
      exec (.zsave d a) s = .next (s.onHart fun h => { h with ssb := h.ssb ++ (List.range 17).map fun i => {
        loc := { kind := .bank, key := spadKey s.hart.core (off + 8 * i) }, va := (s.get a).toNat + 8 * i, len := 8
        data := BitVec.ofNat 64 (if i < 16 then z.block.toNat / 2 ^ (64 * i) else z.progress) } }).advance) ∧
  (∀ (s : State) (d a : Reg), s.hart.quads.count ≠ 0 → s.hart.z.get ⟨d.toNat % 8, by omega⟩ = none →
    exec (.zsave d a) s = .next (s.trap .stream ((encode (.zsave d a)).zeroExtend 64))) ∧
  (∀ (s : State) (d a b : Reg), s.hart.quads.count = 0 → ∀ i ∈ [Instr.zbind d a, .zrest d a, .zsave d a, .zloop a b],
    exec i s = .next (s.trap .illegalType 0)) ∧
  (∀ (s : State) (d a : Reg) (z : ZReg), PortIdle s → s.hart.vr.quads ≤ 8 → s.hart.z.get ⟨a.toNat % 8, by omega⟩ = some z → bytesAt z.block 0 1 = 0 →
    bytesAt z.block 3 1 = 0 → 8 ≤ s.hart.vt.ew → codeBits s.hart.fmtReg (zEtype z.block) = s.hart.vt.ew →
    let h := s.hart
    let n := h.vt.ew / 8
    let addr := fun e => addrAt (zBase z.block) (zOffset z.block (z.progress + e))
    let len := (List.range (zDim z.block)).foldl (fun n j => n * zCount z.block j) 1
    let val := fun e => s.memNat (s.spadAddr (addr e)) n
    let went := fun (u : State) (adv : Bool) (f : Nat) => u.hart.z =
      if adv then Vector.set h.z (a.toNat % 8) (some { z with progress := z.progress + f }) (by omega) else h.z
    ∀ p ∈ [(Instr.zrd d a, true), (.zpeek d a, false)], TakesAtOnce s p.1 →
      (z.progress + h.vr.vl ≤ len → (∀ e, e < h.vr.vl → SpadElem s (addr e) n) → ∃ u, exec p.1 s = .next u ∧ Writes s u d 0 val ∧ went u p.2 h.vr.vl ∧
        VectorOnly { s with hart := { h with z := u.hart.z } } u d h.vt.g ∧ u.hart.fl = h.fl) ∧
      (∀ f, 0 < f → f < h.vr.vl → z.progress + f = len → (∀ e, e < f → SpadElem s (addr e) n) → ∃ u, exec p.1 s = .next u ∧ went u p.2 f ∧
        u.hart.vr.vl = f ∧ u.hart.pc = h.pc + 4 ∧ u.hart.fl = { h.fl with flags := h.fl.flags ||| 2#16 } ∧
        ∀ e, e < h.vt.vlmax → u.elem d e = if e < f then val e else if h.vt.tp then 0 else s.elem d e) ∧
      (0 < h.vr.vl → z.progress = len → h.inHandler = false → unhandled (s.descOf h) .stream = false → ∃ u, exec p.1 s = .next u ∧
        u.hart.tr.tpc = h.pc ∧ u.hart.tr.eri = 0 ∧ u.hart.tr.tval = (encode p.1).zeroExtend 64 ∧ u.hart.pc = h.tr.tvec ∧ u.hart.z = h.z ∧ u.hart.v = h.v)) ∧
  (∀ (s t u : State) (a b : Reg) (l : List IWord) (counts : List Nat) (x : Nat), s.hart.quads.count ≠ 0 → 1 ≤ (s.get a).toNat → (s.get a).toNat ≤ 32 →
    (∀ y, s.hart.vs.loop = some y → y.filling = true) → s.bodyWords (s.hart.pc.toNat + 4) (s.get a).toNat = (.words l, t) →
    (∀ w ∈ l, vectorWord w = true ∧ ((decodeJoin w).isSome = true ∨ typeIllegalWord w = true)) →
    t.tripCounts (s.get b).toNat 6 = ((.val 0, x), counts, u) → counts ≠ [] →
    exec (.zloop a b) s = .next (u.onHart fun g => { g with vs := { g.vs with loop := some {
      first := g.pc + 4, words := (s.get a).toNat, body := [], left := counts.foldl (· * ·) 1 - 1 } } }).advance) ∧
  (∀ (s : State) (a b : Reg) (y : LoopBuf), s.hart.quads.count ≠ 0 → 1 ≤ (s.get a).toNat → (s.get a).toNat ≤ 32 → s.hart.vs.loop = some y →
    y.filling = false → exec (.zloop a b) s = .next (s.waitFor .vector)) ∧
  (∀ (s : State) (i : Instr) (l : LoopBuf), vectorWord (encode i) = true → s.env.issue = none → s.hart.inBody = some l → s.hart.vs.vq ≠ [] →
    pushCheck s (encode i) = .ok → ∃ u e, exec i s = .next u ∧ e.word = encode i ∧ e.pc = s.hart.pc ∧ e.last = decide (l.body.length + 1 = l.words) ∧
      u.hart.vs.vq = s.hart.vs.vq ++ [e] ∧ u.hart.vs.loop = some { l with body := l.body ++ [{ e with start := 0, kept := none }] } ∧
      u.hart.pc = s.hart.pc + 4 ∧ (∀ r, u.get r = s.get r) ∧ u.mem = s.mem) ∧
  (∀ (s : State) (e : VEntry) (l : LoopBuf), s.env.issue = some e → e.last = true → s.hart.vs.loop = some l → ∃ u, exec .mdetach s = .next u ∧
    (0 < l.left → u.hart.vs.vq = l.body ++ s.hart.vs.vq ∧ u.hart.vs.loop = some { l with left := l.left - 1 }) ∧
    (l.left = 0 → u.hart.vs.vq = s.hart.vs.vq ∧ u.hart.vs.loop = none)) ∧
  (∀ (s : State) (a b : Reg), s.hart.quads.count ≠ 0 → ((s.get a).toNat = 0 ∨ 32 < (s.get a).toNat) →
    exec (.zloop a b) s = .next (s.trap .illegal ((encode (.zloop a b)).zeroExtend 64)))

/-- R236: `tk.init` answers -2 for a bad capacity or keep count, -1 without room, and else the lowest free handle (the model's choice, log
entry 117), of an empty list. R239: `tk.ins`
gives each of the VL documents its vector score, one a step (R235). R240, R238, R241: `tk.fuse` sets a list's rule; `tk.thr` answers counts or θ and raises θ;
`tk.drain` writes the KEEP best documents, fused and ranked, one a step, waits until each has performed (R287), and frees the list if asked. R230 to R233: `pl.open` closes and opens sessions,
`pl.term` sets a term, `pl.run` and `pl.probe` start the session with every cursor at its list's start, and `pl.stat` answers. Each answers
-1 for a session or list that the task does not have, but `pl.open` of 0 answers 0 there, and gives -1 before -2 (the model's choices, log
entry 178). -/
def Obligations.RetrievalResults : Prop :=
  ∀ (s : State) (d a b : Reg), let h := s.hart
    let x := (s.get a).toNat
    let y := (s.get b).toNat
    let answers := fun (i : Instr) (v : Word) => exec i s = .next (s.set d v).advance
    let mine := s.eng.lists.filter fun l => l.cluster == h.cluster
    let docs := fun ss : Session => ((ss.list.bind fun i => s.listAt ss.cluster i ss.task).map fun l => l.entries.map (·.doc)).getD []
    let fresh := ∀ n l, h.wait ≠ some (.delivery n l)
    let bad := x = 0 ∨ 4096 < x ∨ y = 0 ∨ 1024 < y ∨ x < y
    (bad → answers (.tkInit d a b) (-2)) ∧
    (¬ bad → ((∀ i, i < 8 → ∃ l ∈ mine, l.id = i) ∨ 4096 < (mine.map (·.cap)).sum + x) → answers (.tkInit d a b) (-1)) ∧
    (∀ i, ¬ bad → i < 8 → (∀ l ∈ mine, l.id ≠ i) → (∀ j, j < i → ∃ l ∈ mine, l.id = j) → (mine.map (·.cap)).sum + x ≤ 4096 →
      exec (.tkInit d a b) s = .next (({ s with eng := { s.eng with lists := s.eng.lists ++ [{
        cluster := h.cluster, id := i, task := h.tk.task, cap := x, keep := y, raised := none, rank := false, kr := 0
        alpha := 0x3F800000, beta := 0x3F800000, entries := [], refused := 0 }] } } : State).set d (BitVec.ofNat 64 i)).advance) ∧
    (∀ e : VEntry, s.env.issue = some e → e.word = encode (.tkIns d a b) → e.last = false → h.vt.ew = 32 → ∃ u, exec (.tkIns d a b) s = .next u ∧ u.mem = s.mem ∧
      u.hart.v = h.v ∧ u.hart.fl = h.fl ∧ u.hart.pc = h.pc ∧
      let n := e.xb.toNat % 8
      ((s.listAt h.cluster n h.tk.task = none ∨ h.vr.vl ≤ e.start) → u.eng = s.eng ∧ u.hart.vs.vq = h.vs.vq) ∧
      ∀ l, s.listAt h.cluster n h.tk.task = some l → e.start < h.vr.vl → u.eng.sessions = s.eng.sessions ∧
        u.hart.vs.vq = (if e.start + 1 < h.vr.vl then [{ e with start := e.start + 1 }] else []) ++ h.vs.vq ∧
        (∀ m o, m ≠ n ∨ o ≠ h.cluster → u.eng.lists.find? (fun k => k.cluster == o && k.id == m) = s.eng.lists.find? (fun k => k.cluster == o && k.id == m)) ∧
        (s.eng.lists.find? (fun k => k.cluster == h.cluster && k.id == n) = some l →
          u.listAt h.cluster n h.tk.task = some (l.insert (s.elem d e.start) (s.elem a e.start)))) ∧
    (TakesAtOnce s (.tkIns d a b) → ∃ u, exec (.tkIns d a b) s = .next u ∧ u.hart.pc = h.pc + 4 ∧ u.mem = s.mem ∧
      (s.listAt h.cluster (y % 8) h.tk.task = none ∨ h.vr.vl ≤ 1 → u.hart.vs.vq = []) ∧
      (s.listAt h.cluster (y % 8) h.tk.task ≠ none → 1 < h.vr.vl → ∃ e, u.hart.vs.vq = [e] ∧ e.word = encode (.tkIns d a b) ∧ e.xb = s.get b ∧ e.start = 1)) ∧
    (∀ (l : SkList) (doc score : Nat), let v := some (BitVec.ofNat 32 score)
      ((∃ e ∈ l.entries, e.doc = BitVec.ofNat 32 doc) → l.insert doc score =
        { l with entries := l.entries.map fun e => if e.doc = BitVec.ofNat 32 doc then { e with vec := v } else e }) ∧
      ((∀ e ∈ l.entries, e.doc ≠ BitVec.ofNat 32 doc) → l.insert doc score = if l.entries.length < l.cap then
        { l with entries := l.entries ++ [{ doc := BitVec.ofNat 32 doc, lex := .none, score := 0, vec := v }] }
        else { l with refused := l.refused + 1 })) ∧
    (s.listAt h.cluster (x % 8) h.tk.task = none → ∀ i ∈ [Instr.tkFuse d a b, .tkThr d a b], answers i (-1)) ∧
    (∀ l, s.listAt h.cluster (x % 8) h.tk.task = some l →
      (x / 8 % 32 = 0 ∧ x / 512 % 128 = 0 ∧ x < 2 ^ 32 → exec (.tkFuse d a b) s = .next ((s.putList { l with
        rank := x.testBit 8, kr := BitVec.ofNat 16 (x / 2 ^ 16), alpha := BitVec.ofNat 32 y, beta := BitVec.ofNat 32 (y / 2 ^ 32) }).set d 0).advance) ∧
      (¬ (x / 8 % 32 = 0 ∧ x / 512 % 128 = 0 ∧ x < 2 ^ 32) → answers (.tkFuse d a b) (-1)) ∧
      (x / 8 % 32 = 0 ∧ x < 1024 → (x.testBit 9 = true → answers (.tkThr d a b) (BitVec.ofNat 64 (l.entries.length * 2 ^ 32 + l.refused % 2 ^ 32))) ∧
        (x.testBit 9 = false → exec (.tkThr d a b) s = .next
          ((if x.testBit 8 && !(fp32.decode (y % 2 ^ 32)).isNan && scoreBelow l.theta (y % 2 ^ 32) then s.putList { l with raised := some (BitVec.ofNat 32 y) } else s).set
            d (BitVec.ofNat 64 l.theta)).advance)) ∧
      (¬ (x / 8 % 32 = 0 ∧ x < 1024) → answers (.tkThr d a b) (-1)) ∧
      (fresh → y % 8 = 0 → ¬ (x / 8 % 32 = 0 ∧ x < 512) → answers (.tkDrain d a b) (-1)) ∧
      (fresh → y % 8 = 0 → x / 8 % 32 = 0 → x < 512 → s.coh.guardBad = [] →
        let recs := (sortBy ranksBefore l.fused).take l.keep
        let place := fun i => (y + 8 * i) % 2 ^ 64
        (∀ i, i < recs.length → SpadElem s (place i) 8) → exec (.tkDrain d a b) s = .next (s.waitFor (.delivery recs.length
          (recs.zipIdx.map fun p => (place p.2, { kind := .bank, key := s.spadAddr (place p.2) }, p.1.1 + 2 ^ 32 * p.1.2)))))) ∧
    (fresh → y % 8 = 0 → s.listAt h.cluster (x % 8) h.tk.task = none → answers (.tkDrain d a b) (-1)) ∧
    (fresh → y % 8 ≠ 0 → exec (.tkDrain d a b) s = .next (s.trap .misalign (s.get b))) ∧
    (∀ n va key v rest, h.wait = some (.delivery n ((va, { kind := .bank, key := key }, v) :: rest)) → Memory.wf s.mem = true →
      s.deadAt key 8 = false → s.bankTest key = false → ∃ u, exec (.tkDrain d a b) s = .next u ∧ u.memNat key 8 = v % 2 ^ 64 ∧ KeepsBytes key 8 s u ∧
        u.hart = { h with wait := some (.delivery n rest) } ∧ u.eng = s.eng ∧ u.cores = s.cores) ∧
    (∀ n, h.wait = some (.delivery n []) → let flies := ∃ e ∈ s.coh.egress, e.hart = h.id ∧ e.task = h.tk.task ∧ e.src = .drain
      (flies → exec (.tkDrain d a b) s = .next s) ∧
      (¬ flies → ∃ u, exec (.tkDrain d a b) s = .next u ∧ u.hart.pc = h.pc + 4 ∧ KeepsX d s u ∧ (d ≠ 0 → u.get d = BitVec.ofNat 64 n) ∧
        SelfInvalidated s u ∧ u.mem = s.mem ∧
        u.eng.lists = if x.testBit 8 ∧ s.listAt h.cluster (x % 8) h.tk.task ≠ none then
          s.eng.lists.filter (fun k => !(k.cluster == h.cluster && k.id == x % 8)) else s.eng.lists)) ∧
    (x = 0 → (s.sessionAt h.cluster (y % 8) h.tk.task = none → answers (.plOpen d a b) 0) ∧
      ∀ ss, s.sessionAt h.cluster (y % 8) h.tk.task = some ss → if ss.run.isSome then exec (.plOpen d a b) s = .next (s.waitFor .engine)
        else exec (.plOpen d a b) s = .next (({ s with eng := { s.eng with
          sessions := s.eng.sessions.filter fun z => !(z.cluster == h.cluster && z.id == y % 8) } } : State).set d 0).advance) ∧
    (x % 64 ≠ 0 → exec (.plOpen d a b) s = .next (s.trap .misalign (s.get a))) ∧
    (∀ off, x ≠ 0 → x % 64 = 0 → RecordAt s (s.get a) 8 off → let p := BitVec.ofNat 512 (s.memNat (spadKey h.core off) 64)
      ((s.freeSession h.cluster = none ∨ s.listAt h.cluster (y % 8) h.tk.task = none) → answers (.plOpen d a b) (-1)) ∧
      ∀ i l, s.freeSession h.cluster = some i → s.listAt h.cluster (y % 8) h.tk.task = some l →
        (planOk p = false → answers (.plOpen d a b) (-2)) ∧
        (planOk p = true → exec (.plOpen d a b) s = .next (({ s with eng := { s.eng with sessions := s.eng.sessions ++ [{
          cluster := h.cluster, id := i, task := h.tk.task, part := h.tk.part, ctx := h.tk.ctx, list := some l.id, plan := p
          terms := [], run := none, failed := false, malformed := false, cause := 0, blocks := 0, faultAddr := 0
          inserted := 0, pruned := 0 }] } } : State).set d (BitVec.ofNat 64 i)).advance)) ∧
    (s.sessionAt h.cluster (x % 8) h.tk.task = none → (∀ i ∈ [Instr.plRun d a, .plProbe d a, .plStat d a b], answers i (-1)) ∧
      ∀ off off', y % 16 = 0 → RecordAt s (s.get b) 2 off → RecordAt s (BitVec.ofNat 64 (s.memNat (spadKey h.core off) 16 % 2 ^ 64)) 4 off' →
        answers (.plTerm d a b) (-1)) ∧
    (y % 16 ≠ 0 → exec (.plTerm d a b) s = .next (s.trap .misalign (s.get b))) ∧
    (∀ ss, s.sessionAt h.cluster (x % 8) h.tk.task = some ss →
      (∀ off off', y % 16 = 0 → RecordAt s (s.get b) 2 off → let v := s.memNat (spadKey h.core off) 16
        RecordAt s (BitVec.ofNat 64 (v % 2 ^ 64)) 4 off' → let list := BitVec.ofNat 256 (s.memNat (spadKey h.core off') 32)
        let terms := putFirst (fun t : Term => t.slot == v / 2 ^ 96 % 256) { slot := v / 2 ^ 96 % 256, list := list, w := BitVec.ofNat 32 (v / 2 ^ 64), grp := BitVec.ofNat 4 (v / 2 ^ 104) } ss.terms
        (ss.run.isSome = true → answers (.plTerm d a b) 1) ∧
        (ss.run = none → (termOk v && listOk list) = false → answers (.plTerm d a b) 2) ∧
        (ss.run = none → (termOk v && listOk list) = true → if groupsFull terms then answers (.plTerm d a b) 3
          else exec (.plTerm d a b) s = .next ((s.putSession { ss with terms := terms }).set d 0).advance)) ∧
      (∀ probe : Bool, let i := if probe then Instr.plProbe d a else .plRun d a
        (ss.run.isSome = true → answers i 1) ∧ (ss.run = none → (∀ t ∈ ss.terms, t.grp = 0) → answers i 2) ∧
        (ss.run = none → (∃ t ∈ ss.terms, t.grp ≠ 0) → if ss.list = none then answers i 3 else exec i s = .next ((s.putSession { ss with
          run := some { probe := probe, hart := h.id, floor := 0, decoded := [], stood := docs ss, curs := (sortBy (fun a b => decide (a.slot < b.slot)) ss.terms).map fun t =>
            { slot := t.slot, next := 0, addr := 0, bmax := 0, first := 0, last := 0, ids := [] } }
          failed := false, malformed := false, cause := 0, blocks := 0
          inserted := if probe then ss.inserted else 0, pruned := if probe then ss.pruned else 0 }).set d 0).advance)) ∧
      (y = 0 ∨ (y = 1 ∧ ss.run = none) → answers (.plStat d a b) ss.status) ∧ (y = 1 → ss.run.isSome = true → exec (.plStat d a b) s = .next (s.waitFor .engine)) ∧
      (y = 2 → (ss.failed || ss.malformed) = true → answers (.plStat d a b) (BitVec.ofNat 64 ss.faultAddr)) ∧
      (y = 3 → answers (.plStat d a b) (BitVec.ofNat 64 (ss.inserted % 2 ^ 32 * 2 ^ 32 + ss.pruned % 2 ^ 32))) ∧ (3 < y → answers (.plStat d a b) (-1)))

/-- With records in the hart's scratchpad, and after the hart's queued `py.ldv` (R242): R246: `py.ld` stores the covering span's descriptor and
value and answers the snapshot's status, and stores nothing where there is no span; R247: `py.ldv` writes the value to vD and pushes status and
descriptor to q4. R248: `py.app` appends the item to level 0, or answers 6, 3 or 2, or waits while level 0 is full. R249: `py.def` with NLEV 0
undefines a stream, else defines one or answers why not; R381: an append that waits on an undefined stream ends with 6, and one that waits looks at the
header again with the record it read. R250: `py.comb` registers
an admitted body, refuses another, or asks the host. R251: `py.stat` answers the state word, or stores and takes out the oldest fault record.
R252: `py.resume` clears HELD. A step waits while a home makes it wait, and traps on what the region makes it fault with.
The order of `py.def`'s statuses and the merge abandoned at NLEV 0 are log entry 120, the causes of a region's errors log entry 154 (the model's
readings). -/
def Obligations.PyramidResults : Prop :=
  ∀ (s : State) (d a b : Reg), let h := s.hart
    let rec' := (s.get b).toNat
    let answers := fun (i : Instr) (v : Word) => exec i s = .next (s.set d v).advance
    let byte := fun off n => s.memNat (spadKey h.core off) n
    let finds := fun (t : State) (x : Word) => (streamAt h.core h.tk.part h.tk.ctx x.toNat).go t
    let entry := fun off (x : Nat × Word) => ({ loc := { kind := .bank, key := spadKey h.core (off + x.1) }, va := rec' + x.1, len := 8, data := x.2 } : SsbEntry)
    let queued := fun (t : State) off (l : List (Nat × Word)) => t.onHart fun g => { g with ssb := g.ssb ++ l.map (entry off) }
    let fresh := ∀ r y v, h.wait ≠ some (.append r y v)
    let appends := fun (v : Nat) (st : Stream) (g : Hdr) (t : State) =>
      (v % 2 ^ 64 < g.tlast → exec (.pyApp d a b) s = .next (t.set d 3).advance) ∧
      (g.tlast ≤ v % 2 ^ 64 → g.cap 0 ≤ g.occ 0 → (g.held = true → exec (.pyApp d a b) s = .next (t.set d 2).advance) ∧
        (g.held = false → exec (.pyApp d a b) s = .next (s.waitFor (.append d st.base v)))) ∧
      (g.tlast ≤ v % 2 ^ 64 → g.occ 0 < g.cap 0 → ∀ u, (regionOpen st (g.entryOff 0 (g.head 0 + g.occ 0)) g.esz true).go t = (.ok (), u) →
        exec (.pyApp d a b) s = .next ((((((u.regionPut st (some h.id) (g.entryOff 0 (g.head 0 + g.occ 0)) g.esz ({
          tf := v % 2 ^ 64, tl := v % 2 ^ 64, lev := 0, value := v / 2 ^ 64 } : Span).bytes).putLevel st (some h.id) 0 (g.head 0)
          (g.occ 0 + 1)).regionPut st (some h.id) 72 8 (v % 2 ^ 64)).putState32 st (some h.id) g (2 ^ 29) 0).set d 0).advance))
    -- the order of steps, and what stops one
    (fresh → h.pyrQueued = true → exec (.pyResume d a) s = .next (s.waitFor .vector) ∧
      (rec' % 8 = 0 → ∀ i ∈ [Instr.pyApp d a b, .pyStat d a b], exec i s = .next (s.waitFor .vector))) ∧
    (fresh → h.pyrQueued = false → ∀ (c : Option Cause) (t : State), finds s (s.get a) = (.error c, t) →
      let out := match c with | none => s.waitFor .memory | some x => t.trap x (s.get a)
      exec (.pyResume d a) s = .next out ∧ (rec' % 8 = 0 → ∀ i ∈ [Instr.pyApp d a b, .pyStat d a b], exec i s = .next out)) ∧
    -- py.ld
    (rec' % 64 ≠ 0 → h.snap = none → exec (.pyLd d a b) s = .next (s.trap .misalign (s.get b))) ∧
    (∀ off o t, rec' % 64 = 0 → h.snap = none → h.pyrQueued = false → RecordAt s (s.get b) 2 off → SpadAt s (s.get b + 8) 1 (off + 8) →
      finds s (s.get a) = (.ok o, t) → (o = none → exec (.pyLd d a b) s = .next (t.set d 6).advance) ∧
      ∀ st g, o = some (st, g) → (∀ i, 2 ≤ i → i < 8 + g.isz / 8 → SpadAt s (s.get b + BitVec.ofNat 64 (8 * i)) 8 (off + 8 * i)) →
        ∀ r y, (snapshot o (byte off 8) (byte (off + 8) 1)).go t = (r, y) → (r = .error none → exec (.pyLd d a b) s = .next (s.waitFor .memory)) ∧
          (∀ c, r = .error (some c) → exec (.pyLd d a b) s = .next (y.trap c (s.get a))) ∧
          (∀ w, r = .ok (.none w) → exec (.pyLd d a b) s = .next (y.set d (BitVec.ofNat 64 w)).advance) ∧
          ∀ w x gen, r = .ok (.span w x gen) → g.isz / 8 ≤ 28 → exec (.pyLd d a b) s = .next (((queued y off ([(16, BitVec.ofNat 64 x.tf),
            (24, BitVec.ofNat 64 x.tl), (32, BitVec.ofNat 64 x.lev), (40, BitVec.ofNat 64 gen)] ++ (List.range (g.isz / 8)).map fun i =>
              (64 + 8 * i, BitVec.ofNat 64 (x.value / 2 ^ (64 * i))))).onHart fun g => { g with snap := none }).set d (BitVec.ofNat 64 w)).advance) ∧
    -- py.ldv
    (TakesAtOnce s (.pyLdv d a b) → h.vt.cls ≠ 5 → b ≠ 31 → (16 < (h.queue 4).length + 5 → ∃ u, exec (.pyLdv d a b) s = .next u ∧ WaitsQueued s u (.pyLdv d a b)) ∧
      ((h.queue 4).length + 5 ≤ 16 → ∀ o t, finds s (s.get a) = (.ok o, t) → (∀ st g, o = some (st, g) → viewBits h.vr.vtype = viewBits g.view) →
        ∀ r y, (snapshot o (s.get b).toNat ((s.get (b + 1)).toNat % 256)).go t = (.ok r, y) →
        (∀ w, r = .none w → ∃ u, exec (.pyLdv d a b) s = .next u ∧ u.hart.pc = h.pc + 4 ∧ u.hart.v = h.v ∧ u.mem = y.mem ∧
          u.hart.queue 4 = h.queue 4 ++ [BitVec.ofNat 64 w, 0, 0, 0, 0]) ∧
        ∀ w x gen, r = .span w x gen → ∃ u, exec (.pyLdv d a b) s = .next u ∧ u.hart.pc = h.pc + 4 ∧ u.mem = y.mem ∧ u.hart.fl = h.fl ∧
          u.hart.queue 4 = h.queue 4 ++ [BitVec.ofNat 64 w, BitVec.ofNat 64 x.tf, BitVec.ofNat 64 x.tl, BitVec.ofNat 64 x.lev, BitVec.ofNat 64 gen] ∧
          Writes s u d 0 fun e => elemOf x.value h.vt.ew e)) ∧
    -- py.app
    (fresh → rec' % 8 ≠ 0 → ∀ i ∈ [Instr.pyApp d a b, .pyStat d a b], exec i s = .next (s.trap .misalign (s.get b))) ∧
    (∀ off o t, fresh → rec' % 8 = 0 → h.pyrQueued = false → finds s (s.get a) = (.ok o, t) →
      RecordAt t (s.get b) (1 + ((o.map fun p => p.2.isz).getD 0) / 8) off →
      (o = none → exec (.pyApp d a b) s = .next (t.set d 6).advance) ∧
      ∀ st g, o = some (st, g) → appends (t.memNat (spadKey h.core off) (8 * (1 + g.isz / 8))) st g t) ∧
    (∀ r base v, h.wait = some (.append r base v) → let st := s.eng.streams.find? fun x => x.base == base
      (st = none → answers (.pyApp d a b) 6) ∧ ∀ x, st = some x → ∀ o t, (headerOpen x).go s = (o, t) →
        (o = .error none → exec (.pyApp d a b) s = .next s) ∧ (∀ c, o = .error (some c) → exec (.pyApp d a b) s = .next (t.trap c (s.get a))) ∧
        ∀ g, o = .ok g → appends v x g t) ∧
    -- py.stat
    (∀ o t, rec' % 8 = 0 → h.pyrQueued = false → finds s (s.get a) = (.ok o, t) → (o = none → exec (.pyStat d a b) s = .next (t.set d (-1)).advance) ∧
      ∀ st g, o = some (st, g) → (rec' = 0 → exec (.pyStat d a b) s = .next
          (t.set d (BitVec.ofNat 64 (g.held.toNat * 2 ^ 63 + 2 ^ 62 + g.fqn * 2 ^ 48 + min g.lost 255 * 2 ^ 40 + g.occ 0))).advance) ∧
        ∀ off, (∀ i, i < 4 → SpadAt s (s.get b + BitVec.ofNat 64 (8 * i)) 8 (off + 8 * i)) →
          (g.fqn = 0 → exec (.pyStat d a b) s = .next (t.set d 0).advance) ∧
          (g.fqn ≠ 0 → h.ssb.length ≤ 28 → exec (.pyStat d a b) s = .next ((((queued t off ((List.range 4).map fun i =>
            (8 * i, BitVec.ofNat 64 (t.regionGet st (128 + 32 * (g.fqh % 4)) 32 / 2 ^ (64 * i))))).regionPut st (some h.id) 88 2
              (g.fqn - 1 + 256 * ((g.fqh + 1) % 4))).set d 1).advance))) ∧
    -- py.resume
    (∀ o t, h.pyrQueued = false → finds s (s.get a) = (.ok o, t) → (o = none → exec (.pyResume d a) s = .next (t.set d 6).advance) ∧
      ∀ st g, o = some (st, g) → (g.held = false → exec (.pyResume d a) s = .next (t.set d 10).advance) ∧
      (g.held = true → t.combiner st.part g.comb = none → exec (.pyResume d a) s = .next (t.set d 9).advance) ∧
      (g.held = true → t.combiner st.part g.comb ≠ none → exec (.pyResume d a) s = .next ((t.putState32 st (some h.id) g 0 (2 ^ 30)).set d 0).advance)) ∧
    -- py.def
    ((s.get a).toNat % 64 ≠ 0 → exec (.pyDef d a) s = .next (s.trap .misalign (s.get a))) ∧
    (∀ off o t, (s.get a).toNat % 64 = 0 → h.pyrQueued = false → RecordAt s (s.get a) 8 off → let k := BitVec.ofNat 512 (byte off 64)
      let base := BitVec.ofNat 64 (bytesAt k 24 8)
      finds s base = (.ok o, t) →
      (bytesAt k 1 1 = 0 → (o = none → exec (.pyDef d a) s = .next (t.set d 6).advance) ∧ ∀ st g w, o = some (st, g) → h.wait = none →
        (regionOpen st 0 4096 true).go t = (.ok (), w) → ∃ u, exec (.pyDef d a) s = .next u ∧ u.hart.pc = h.pc + 4 ∧ KeepsX d s u ∧
          (d ≠ 0 → u.get d = 0) ∧ u.mem = ((w.dropOp st).regionPut st (some h.id) 0 4096 0).mem ∧ (∀ x ∈ u.eng.streams, x.base ≠ st.base) ∧
          u.others = s.others.map fun x => match x.wait with
            | some (.append r y _) => if y = st.base then (x.set r 6).goto (x.pc + 4) .other else x
            | _ => x) ∧
      (bytesAt k 1 1 ≠ 0 → (defOk h k = false → answers (.pyDef d a) 7) ∧ (defOk h k = true → s.combiner h.tk.part (bytesAt k 2 1) = none → answers (.pyDef d a) 9) ∧
        ∀ body pages, defOk h k = true → s.combiner h.tk.part (bytesAt k 2 1) = some body →
          s.regionPages h.tk.part h.tk.ctx (bytesAt k 3 1) (bytesAt k 24 8) ((bytesAt k 32 8 + 4095) / 4096) = some pages →
          (o ≠ none → exec (.pyDef d a) s = .next (t.set d 7).advance) ∧
          (∀ i, o = none → viewBad s (BitVec.ofNat 64 (bytesAt k 4 4)) body = some i → exec (.pyDef d a) s = .next (t.set d (badComb i)).advance) ∧
          (o = none → viewBad s (BitVec.ofNat 64 (bytesAt k 4 4)) body = none →
            let st : Stream := { part := h.tk.part, base := 4096 * pages.headD 0, size := bytesAt k 32 8, pages := pages, op := none, retry := none }
            (∀ x ∈ s.eng.streams, x.base ≠ st.base) → ∀ w, (regionOpen st 0 4096 true).go t = (.ok (), w) →
            exec (.pyDef d a) s = .next (((w.putStream st).regionPut st (some h.id) 0 4096 (k.toNat + 2 ^ 671)).set d 0).advance))) ∧
    -- py.comb
    ((∀ q, h.wait ≠ some (.admission q)) → (rec' % 8 ≠ 0 → exec (.pyComb d a b) s = .next (s.trap .misalign (s.get b))) ∧
      ∀ off, rec' % 8 = 0 → let v := byte off 8
        let n := v % 2 ^ 16
        let body := (List.range (min n 64)).map fun i => BitVec.ofNat 32 (byte (off + 8 + 4 * i) 4)
        h.ssb = [] → SpadAt s (s.get b) 8 off → (∀ i, i < min n 64 → SpadAt s (s.get b + BitVec.ofNat 64 (8 + 4 * i)) 4 (off + 8 + 4 * i)) →
        (63 < (s.get a).toNat ∨ v / 2 ^ 16 ≠ 0 → answers (.pyComb d a b) (badComb 0)) ∧
        ((s.get a).toNat ≤ 63 → v / 2 ^ 16 = 0 → (64 < n → answers (.pyComb d a b) (badComb 64)) ∧
          (n ≤ 64 → s.hostMode h.tk.part 1 = false → (∀ i, s.admissionBad h.tk.part (s.get a).toNat body = some i → answers (.pyComb d a b) (badComb i)) ∧
            (s.admissionBad h.tk.part (s.get a).toNat body = none →
              exec (.pyComb d a b) s = .next ((s.register h.tk.part (s.get a).toNat body).set d 0).advance)) ∧
          (n ≤ 64 → s.hostMode h.tk.part 1 = true → ∀ t, s.post 1 h.tk.part (s.get a).toNat body = some t →
            exec (.pyComb d a b) s = .next (t.waitFor (.admission s.sys.nextSeq)))))

/-! ### Device steps -/

/-- R282: the drain of a PSF writes its line to the bank, queues it at the controller or for the link, or writes it at the home and drops its
words' registrations (R296); a CPF packet is written whole (R173); a delivery writes a remote store; the controller writes its oldest
line (R280); a row under test and a link that is down make a drain wait, and past the link's time the store is lost (R383, R388;
the model's reading, log entries 155 and 156). R298, R299, R305: an evicted L1 line leaves with a writeback, a slice line is recalled, a combine buffer's copy goes home. R308:
a lost store traps with its address. R188: a copy writes its next element, to a bank or at the home, whose words it then holds registered no
more (R296), and ends with its status once its remote writes have performed (R287); memory is
in the canonical form (the invariant StepKeepsCanonical). -/
def Obligations.OrderingMoves : Prop :=
  (∀ (s : State) (h : Nat) (q : Fin 8) (g : Hart) (e : PsfEntry) (r : List PsfEntry), Memory.wf s.mem = true → s.hartAt h = some g →
    g.psf.get q = e :: r → let line := lineOf e.loc.key
    let gone := fun u : State => ∃ w, HartSet s u h { g with psf := Vector.set g.psf q.val r q.isLt, vs := { g.vs with lines := w } }
    (∀ w, s.drainStop g e.loc = some (.wait w) → exec (.psfDrain h q.val) s = .next s) ∧
    (∀ c, s.drainStop g e.loc = some (.fault c) → ∃ u w, exec (.psfDrain h q.val) s = .next u ∧ SameBytes s u ∧ HartSet s u h { g with
      psf := Vector.set g.psf q.val r q.isLt, vs := { g.vs with lines := w }, lostStores := g.lostStores ++ [(e.va, c)] }) ∧
    (s.drainStop g e.loc = none → (e.loc.kind = .bank → ∃ u, exec (.psfDrain h q.val) s = .next u ∧ LineWritten s u line e.mask e.data ∧ gone u) ∧
    (e.loc.kind = .uncached → (s.coh.wq.filter fun w => w.chan == channelOf line).length < 64 → ∃ u, exec (.psfDrain h q.val) s = .next u ∧
      u.coh.wq = s.coh.wq ++ [{ chan := channelOf line, line := line, mask := e.mask, data := e.data }] ∧ SameBytes s u ∧ gone u) ∧
    (e.loc.kind = .remote → ∃ u, exec (.psfDrain h q.val) s = .next u ∧ SameBytes s u ∧ gone u ∧
      u.coh.egress = s.coh.egress ++ [{ module := e.loc.module, task := g.tk.task, hart := g.id, src := .store, va := e.va, bytes := maskedBytes line e.mask e.data }]) ∧
    (e.loc.kind = .cached → s.env.cut = false → Unowned s line (wordsOfBytes e.mask) →
      ∃ u, exec (.psfDrain h q.val) s = .next u ∧ LineWritten s u line e.mask e.data ∧ gone u) ∧
    (e.loc.kind = .cached → s.env.cut = false → s.lineWaits line (wordsOfBytes e.mask) = false → s.coh.ranges = [] → (s.splitPool line).length < 4096 →
      ∃ u, exec (.psfDrain h q.val) s = .next u ∧ (∀ k, k / 64 ≠ line → u.byte k = s.byte k) ∧
        ∀ i n, i < 16 → (wordsOfBytes e.mask).getLsbD i = true → (u.homeAt line).word i ≠ .core n))) ∧
  (∀ (s : State) (h : Nat) (q : Fin 4) (g : Hart) (p : Packet) (r : List Packet), Memory.wf s.mem = true → s.hartAt h = some g → g.cpf.get q = p :: r →
    (∀ x ∈ p.bytes, s.bankTest x.1 = false) → ∃ u, exec (.cpfDrain h q.val) s = .next u ∧ BytesWritten s u p.bytes ∧ HartSet s u h { g with cpf := Vector.set g.cpf q.val r q.isLt }) ∧
  (∀ (s : State) (h va : Nat) (c : Cause) (g : Hart), s.hartAt h = some g → s.ownerLostDue g = some (va, c) → g.inHandler = false → unhandled (s.descOf g) c = false →
    ∃ u, exec (.ownerLostTrap h) s = .next u ∧ u.hart.id = h ∧ u.hart.tr.tval = BitVec.ofNat 64 va ∧ u.hart.tr.tpc = g.pc ∧ u.hart.pc = g.tr.tvec ∧
      u.hart.lostStores = g.lostStores.drop 1 ∧ u.hart.tr.tcause.toNat % 2 ^ 62 = c.code ∧ u.hart.inHandler = true ∧ u.hart.x = g.x ∧ SameBytes s u) ∧
  (∀ (s : State) (core line : Nat), ∃ u, exec (.l1Eviction core line) s = .next u ∧ (u.coreAt core).lineAt line = none ∧ u.hart = s.hart ∧
    u.others = s.others ∧ SameBytes s u ∧ (∀ c, c ≠ core → u.coreAt c = s.coreAt c) ∧
    ∀ l, (s.coreAt core).lineAt line = some l → l.reg ≠ 0 → ∃ m, u.coh.net = s.coh.net ++ [m] ∧ m.kind = .wb ∧ m.sender = core ∧ m.line = line ∧
      m.words = l.reg ∧ m.data = l.data ∧ m.dirty = l.dirty) ∧
  (∀ (s : State) (line : Nat), s.recallable line = false → exec (.sliceEviction line) s = .next s) ∧
  (∀ (s : State) (line : Nat), s.recallable line = true → s.env.cut = false ∨ (s.homeAt line).coreOwners 0xFFFF = [] →
    (s.coh.wq.filter fun w => w.chan == channelOf line).length < 64 → (s.splitPool line).length < 4096 → ∃ u, exec (.sliceEviction line) s = .next u ∧ u.hart = s.hart ∧
      (u.homeAt line).coreOwners 0xFFFF = [] ∧ (∀ x ∈ u.coh.links, x.2 ≠ line) ∧ ∀ k, k / 64 ≠ line → u.byte k = s.byte k) ∧
  (∀ (s : State) (chan : Nat) (l r : List WqEntry) (e : WqEntry), Memory.wf s.mem = true → s.coh.wq = l ++ e :: r → (∀ x ∈ l, x.chan ≠ chan) → e.chan = chan →
    s.underTest e.line = false → ∃ u, exec (.controllerWriteIssue chan) s = .next u ∧ LineWritten s u e.line e.mask e.data ∧ u.coh.wq = l ++ r ∧ u.hart = s.hart) ∧
  (∀ (s : State) (m : Nat) (l r : List EgressEntry) (e : EgressEntry), Memory.wf s.mem = true → s.coh.egress = l ++ e :: r → (∀ x ∈ l, x.module ≠ m) →
    e.module = m → s.routeDown m = false → ∃ u, exec (.linkDelivery m) s = .next u ∧ BytesWritten s u e.bytes ∧ u.coh.egress = l ++ r ∧ u.hart = s.hart) ∧
  (∀ (s : State) (m : Nat), s.routeDown m = true → s.coh.expired.any (· == m) = false → exec (.linkDelivery m) s = .next s) ∧
  (∀ (s : State) (cluster : Nat) (b : CombLine), Memory.wf s.mem = true → s.coh.comb.find? (fun c => c.cluster == cluster) = some b → s.rowTest 6 cluster b.line = false →
    (b.partialLine = false → Unowned s b.line 0xFFFF → ∃ u, exec (.combineBufferEviction cluster) s = .next u ∧ LineWritten s u b.line (-1) b.data ∧
      u.coh.comb = s.coh.comb.filter (· ≠ b)) ∧
    (b.partialLine = true → s.lineWaits b.line 0xFFFF = false → (s.homeAt b.line).coreOwners 0xFFFF = [] → s.splitFull s b.line = false → ∀ r, s.rangeOf b.line = some r →
      ∃ u, exec (.combineBufferEviction cluster) s = .next u ∧ LineWritten s u b.line (-1) (foldPartials r (s.memLine b.line) [(b.words, b.data)]) ∧
        u.coh.comb = s.coh.comb.filter (· ≠ b))) ∧
  (∀ (s : State) (h n : Nat) (c : Copy), s.copyAt h n = some c → c.state = .running → s.eng.paused = false → c.guarded = false → dMask c.desc = 0 →
    c.fault = none → let sz := dSize c.desc
    let i := dStart c.desc + c.done
    let src := copySrc c.desc i
    let dst := addrAt (dDst c.desc) (strided c.desc (dDstr c.desc) i)
    let next := fun u : State => u.copyAt h n = some { c with done := c.done + 1 }
    (∀ ks kd, Memory.wf s.mem = true → s.coh.guardBad = [] → c.done < dLen c.desc → s.engineLoc c.core c.task c.part c.ctx src sz .read = .ok { kind := .bank, key := ks } →
      s.poisoned ks sz = false → s.bankTest ks = false →
      (s.engineLoc c.core c.task c.part c.ctx dst sz .write = .ok { kind := .bank, key := kd } → s.deadAt kd sz = false → s.bankTest kd = false → ∃ u, exec (.engineWrite h n) s = .next u ∧
        u.memNat kd sz = s.memNat ks sz ∧ KeepsBytes kd sz s u ∧ next u ∧ u.hart = s.hart ∧ u.others = s.others) ∧
      (∀ loc, s.engineLoc c.core c.task c.part c.ctx dst sz .write = .ok loc → loc.kind = .cached → c.done + 1 = dLen c.desc →
        (∀ w, w < 16 → (wordMask loc.key sz).getLsbD w = true → (s.homeAt (lineOf loc.key)).word w = .engine (runnerId c.core)) →
        s.deadAt loc.key sz = false → s.farDown c.core loc = none → s.underTest (lineOf loc.key) = false → s.coh.ranges = [] → s.splitFull s (lineOf loc.key) = false → ∃ u, exec (.ewr h n) s = .next u ∧ u.memNat loc.key sz = s.memNat ks sz ∧
          KeepsBytes loc.key sz s u ∧ u.copyAt h n = some { c.without (lineOf loc.key) (wordMask loc.key sz) with done := c.done + 1 } ∧ ∀ w, w < 16 → (wordMask loc.key sz).getLsbD w = true → (u.homeAt (lineOf loc.key)).word w = .unreg)) ∧
    (c.done < dLen c.desc → ∀ k, s.engineLoc c.core c.task c.part c.ctx src sz .read = .error k → c.barrier = none → s.copyFlying c = false →
      ∃ u, exec (.copyEnd h n) s = .next u ∧ u.mem = s.mem ∧
        u.copyAt h n = some { c with fault := some k.code, state := .ended (BitVec.ofNat 64 (2 ^ 63 + k.code * 2 ^ 48 + sz * c.done % 2 ^ 48)), regs := [] }) ∧
    (s.copyFlying c = true → exec (.copyEnd h n) s = .next s) ∧
    (dLen c.desc ≤ c.done → c.barrier = none → s.copyFlying c = false → ∃ u, exec (.copyEnd h n) s = .next u ∧ u.mem = s.mem ∧ u.hart = s.hart ∧
      u.copyAt h n = some { c with fault := none, state := .ended (BitVec.ofNat 64 (sz * c.done % 2 ^ 48)), regs := [] })) ∧
  (∀ s : State, s.eng.paused = true → ∃ u, exec .globalPauseEnd s = .next u ∧ u.eng.paused = false ∧ u.mem = s.mem ∧ u.hart = s.hart ∧
    u.eng.clock = (s.eng.copies.filter fun c => c.guarded && c.state == .waiting && c.version == 0).length ∧
    u.eng.copies.map (·.state) = s.eng.copies.map fun c => if c.state = .waiting then .running else c.state)


/-! ### Messages -/

/-- R296: a request that needs no answer of others is performed when it arrives: RD fills the sender's L1 with the words that the home may
give, RDV gives the words to the vector port, REG registers the words to the sender and sends GNT with the home value, WRV writes the
line and frees its FIFO entry, ATOM changes the word and answers with the old one, EREG registers the free words to the engine. One that
must ask owners (R295, R296) sends FWD (RD, RDV) or XFER to each, with the reason of R293, and its words are busy until the answers are
in. A fill of the read-only ways enters them (R278); one whose core has self-invalidated meanwhile fills nothing (R285). A REG waits while a
word of it is busy or an engine's, the line is locked or under test, or the core's own writeback of it is on its way. A message is one that
may arrive (R294); no core is fenced off. Memory is in the canonical form (the invariant StepKeepsCanonical). -/
def Obligations.Requests : Prop :=
  (∀ (s : State) (n : Nat) (m : Msg) (k : MsgKind), NoneFenced s → s.msgAt k n = some m → (s.homeAt m.line).serving = [] → s.lineWaits m.line m.words = false →
    s.wbsOf m.sender m.line = [] → s.rangeOf m.line = none → RoomAt s m.line → let old := s.homeAt m.line
    let owners := old.coreOwners (old.toAsk m)
    let net := s.coh.net.eraseIdx n
    let free := s.lineLost m.line m.words = false
    (owners = [] → k = .rd → m.aux = 1 → ∃ u, exec (.rd n) s = .next u ∧ SameBytes s u ∧ u.hart = s.hart ∧ u.cores = s.cores ∧ u.coh.net = net) ∧
    (owners = [] → k = .rd → m.aux ≠ 1 → m.aux2 = 1 → s.lineLost m.line 0xFFFF = false → s.poisoned (64 * m.line) 64 = false →
      ∃ u, exec (.rd n) s = .next u ∧ SameBytes s u ∧ u.hart = s.hart ∧ (u.coreAt m.sender).ro.head? = some (m.line, s.memLine m.line, 0) ∧
        (u.coreAt m.sender).l1 = (s.coreAt m.sender).l1 ∧ u.coh.net = net) ∧
    (owners = [] → k = .rd → m.aux ≠ 1 → m.aux2 ≠ 1 → ∃ u l, exec (.rd n) s = .next u ∧ SameBytes s u ∧ u.hart = s.hart ∧ (u.coreAt m.sender).lineAt m.line = some l ∧
      ∀ i, i < 16 → old.word i ≠ .lost → (∀ e, old.word i ≠ .engine e) → old.busy.getLsbD i = false → (s.l1Of m.sender m.line).reg.getLsbD i = false →
        l.valid.getLsbD i = true ∧ l.data.extractLsb' (32 * i) 32 = (s.memLine m.line).extractLsb' (32 * i) 32) ∧
    (owners = [] → k = .rdv → ∀ h g, s.hartAt h = some g → g.port = m.sender → g.status = .running →
      ∃ u, exec (.rdv n) s = .next u ∧ SameBytes s u ∧ u.coh.net = net ∧
        u.hartAt h = some { g with vs := { g.vs with lines := g.vs.lines ++ [(m.line, m.words, s.memLine m.line)] } }) ∧
    (owners = [] → k = .reg → free → ∃ u, exec (.reg n) s = .next u ∧ SameBytes s u ∧ u.hart = s.hart ∧
      u.coh.net = net ++ [{ homeCommand .gnt m.line m.sender m.words m.aux m.aux2 with data := s.memLine m.line }] ∧
      ∀ i, i < 16 → (u.homeAt m.line).word i = if m.words.getLsbD i then .core m.sender else old.word i) ∧
    (owners = [] → k = .wrv → free → Memory.wf s.mem = true → ∀ h g, s.hartAt h = some g → m.sender = 4096 + h → ∃ u, exec (.wrv n) s = .next u ∧
      LineWritten s u m.line m.bytes m.data ∧ u.coh.net = net ∧ HartSet s u h { g with
        psf := Vector.set g.psf (m.aux % 8) ((g.psf.get ⟨m.aux % 8, by omega⟩).drop 1) (by omega)
        vs := { g.vs with lines := g.vs.lines.filter fun l => l.1 != m.line } }) ∧
    (owners = [] → k = .atom → free → Memory.wf s.mem = true → ∀ w, w = 32 ∨ w = 64 → m.aux2 / 16 = w → s.poisoned m.aux (w / 8) = false →
      ∀ h g, s.hartAt h = some g → m.sender = 4096 + h → let o := s.memNat m.aux (w / 8)
      ∃ u, exec (.atom n) s = .next u ∧ KeepsBytes m.aux (w / 8) s u ∧ HartSet s u h { g with atomReply := some (BitVec.ofNat 64 o) } ∧
        u.memNat m.aux (w / 8) = (amoApply (amoOfCode (m.aux2 % 16)) w o (m.data.toNat % 2 ^ 64) (m.data.toNat / 2 ^ 64 % 2 ^ 64)).getD o) ∧
    (owners = [] → k = .ereg → free → ∃ u, exec (.ereg n) s = .next u ∧ SameBytes s u ∧ u.hart = s.hart ∧ u.coh.net = net ∧
      ∀ i, i < 16 → (u.homeAt m.line).word i = if m.words.getLsbD i = true ∧ old.word i = .unreg then .engine m.sender else old.word i) ∧
    (owners ≠ [] → ∀ i, (k = .rd ∧ i = .rd n) ∨ (k = .rdv ∧ i = .rdv n) ∨ (k = .reg ∧ i = .reg n) ∨ (k = .wrv ∧ i = .wrv n) ∨ (k = .atom ∧ i = .atom n) ∨
      (k = .ereg ∧ i = .ereg n) → ∃ u, exec i s = .next u ∧ SameBytes s u ∧ u.hart = s.hart ∧
        u.homeAt m.line = { old with
          busy := old.busy ||| (m.words ||| old.toAsk m)
          serving := [{ req := m, words := m.words ||| old.toAsk m, collects := false, awaiting := owners, gathered := [] }] } ∧
        u.coh.net = net ++ owners.map fun a =>
          homeCommand (if k.reads then .fwd else .xfer) m.line a (old.select (old.toAsk m) (· == .core a)) (if k = .reg then 0 else 1))) ∧
  (∀ (s : State) (n : Nat) (m : Msg), NoneFenced s → s.msgAt .reg n = some m → ((s.homeAt m.line).waits m.words = true ∨ s.underTest m.line = true ∨
    s.wbsOf m.sender m.line ≠ []) → exec (.reg n) s = .next s)

/-- R297: GNT lets the waiting store write as dirty; XFER gives the words up, FWD keeps them, and a poisoned dirty word is reported (R307).
R303: COLLECT takes a partial out of the combine buffer. R309: CLAIM reports the registered words, which become unregistered, and CLAIMR
ends a sweep in which no word has two claims: the words take the claimed values and the line is unlocked. R308: NAKL reports a lost store. R296,
R307: what the home makes of WB, XACK and FACK: dirty words are written, poisoned ones lost; R303: PART keeps a partial. With the last XACK a
REG is performed. The slice has a free split entry. Memory is in the canonical form (the invariant StepKeepsCanonical). -/
def Obligations.Answers : Prop :=
  (∀ (s : State) (n : Nat) (m : Msg) (g : Hart) (e : SsbEntry) (r : List SsbEntry), s.hartAt m.aux = some g → g.ssb = e :: r → lineOf e.loc.key = m.line →
    (s.msgAt .gnt n = some m → m.aux2 ≠ 1 → s.rowTest 0 m.target m.line = false → e.loc.kind = .cached → 0 < e.len → e.loc.key % 64 + e.len ≤ 64 →
      wordMask e.loc.key e.len &&& m.words = wordMask e.loc.key e.len → ∃ u l, exec (.gnt n) s = .next u ∧ SameBytes s u ∧
        HartSet s u m.aux { g with ssb := r } ∧ (u.coreAt m.target).lineAt m.line = some l ∧ l.reg &&& m.words = m.words ∧
        l.dirty &&& wordMask e.loc.key e.len = wordMask e.loc.key e.len ∧
        l.data.toNat / 2 ^ (8 * (e.loc.key % 64)) % 2 ^ (8 * e.len) = e.data.toNat % 2 ^ (8 * e.len)) ∧
    (s.msgAt .nakl n = some m → m.aux2 = 0 → ∃ u, exec (.nakl n) s = .next u ∧ SameBytes s u ∧ u.coh.net = s.coh.net.eraseIdx n ∧
      HartSet s u m.aux { g with ssb := r, lostStores := g.lostStores ++ [(e.va, .ownerLost)] })) ∧
  (∀ (s : State) (n : Nat) (m : Msg), let l := s.l1Of m.target m.line
    let held := l.reg &&& m.words
    let bad := l.poison &&& l.dirty &&& held
    let net := s.coh.net.eraseIdx n
    (s.msgAt .xfer n = some m → s.rowTest 0 m.target m.line = false → ∃ u, exec (.xfer n) s = .next u ∧ SameBytes s u ∧ u.hart = s.hart ∧
      u.coreAt m.target = (s.coreAt m.target).onLine m.line (dropWords held) ∧
      u.coh.net = net ++ [{ reply .xack m held with data := l.data, dirty := l.dirty &&& held, poison := bad }]) ∧
    (s.msgAt .fwd n = some m → s.rowTest 0 m.target m.line = false → ∃ u, exec (.fwd n) s = .next u ∧ SameBytes s u ∧ u.hart = s.hart ∧
      u.coreAt m.target = (s.coreAt m.target).onLine m.line (dropWords bad) ∧
      u.coh.net = net ++ [{ reply .fack m held with data := l.data, poison := bad }]) ∧
    (s.msgAt .collect n = some m → s.rowTest 6 (m.target - 0x280) m.line = false → (s.combAt (m.target - 0x280) m.line true = none →
        ∃ u, exec (.collect n) s = .next u ∧ SameBytes s u ∧ u.coh.comb = s.coh.comb ∧ u.coh.net = net ++ [reply .part m 0]) ∧
      ∀ b, s.combAt (m.target - 0x280) m.line true = some b → ∃ u, exec (.collect n) s = .next u ∧ SameBytes s u ∧
        u.coh.comb = s.coh.comb.filter (· ≠ b) ∧ u.coh.net = net ++ [{ reply .part m b.words with data := b.data }]) ∧
    (s.msgAt .claim n = some m → (m.target < 640 → ∃ u, exec (.claim n) s = .next u ∧ SameBytes s u ∧ u.hart = s.hart ∧
        u.coreAt m.target = (s.coreAt m.target).onLine m.line (fun l => { l with valid := l.valid ||| l.reg, reg := 0, dirty := 0 }) ∧
        u.coh.net = net ++ [{ reply .claimr m l.reg with data := l.data, poison := l.poison &&& l.reg }]) ∧
      (640 ≤ m.target → (∀ i, i < 16 → (s.homeAt m.line).word i ≠ .engine m.target) →
        ∃ u, exec (.claim n) s = .next u ∧ SameBytes s u ∧ u.hart = s.hart ∧ u.coh.net = net ++ [reply .claimr m 0])) ∧
    (∀ h g, s.msgAt .nakl n = some m → m.aux2 = 1 → m.target = 4096 + h → s.hartAt h = some g →
      ∃ u, exec (.nakl n) s = .next u ∧ SameBytes s u ∧ HartSet s u h { g with lostStores := g.lostStores ++ [(m.aux / 8, .ownerLost)] })) ∧
  (∀ (s : State) (n : Nat) (m : Msg), Memory.wf s.mem = true → (s.splitPool m.line).length < 4096 → let old := s.homeAt m.line
    let mine := old.select m.words (· == .core m.sender)
    let written := fun u : State => LineWritten s u m.line (bytesOfWords (mine &&& m.dirty &&& ~~~m.poison)) m.data ∧ u.hart = s.hart ∧
      ∀ i, i < 16 → (u.homeAt m.line).word i = if mine.getLsbD i then (if (m.dirty &&& m.poison).getLsbD i then .lost else .unreg) else old.word i
    let left := fun v : Serve => v.awaiting.filter (· ≠ m.sender)
    let asked := fun v : Serve => old.serving = [v] ∧ m.sender ∈ v.awaiting ∧ v.words &&& BitVec.ofNat 16 m.aux ≠ 0
    let waits := fun (u : State) (v : Serve) g => (u.homeAt m.line).serving = [{ v with awaiting := left v, gathered := v.gathered ++ g }]
    let came := if m.words = 0 then [] else [(m.sender, m.words, m.data)]
    (s.msgAt .wb n = some m → ∃ u, exec (.wb n) s = .next u ∧ written u ∧ u.coh.net = s.coh.net.eraseIdx n) ∧
    (∀ v, asked v → left v ≠ [] → (s.msgAt .xack n = some m → ∃ u, exec (.xack n) s = .next u ∧ written u ∧ waits u v []) ∧
      (s.msgAt .fack n = some m → ∃ u, exec (.fack n) s = .next u ∧ SameBytes s u ∧ waits u v [(m.sender, m.words &&& ~~~m.poison, m.data)] ∧
        ∀ i, i < 16 → (u.homeAt m.line).word i = if m.poison.getLsbD i = true ∧ old.word i = .core m.sender then .lost else old.word i) ∧
      (s.msgAt .part n = some m → ∃ u, exec (.part n) s = .next u ∧ SameBytes s u ∧ waits u v came)) ∧
    (∀ v, asked v → left v = [] → v.req.kind = .reg → v.req.line = m.line → old.locked = false → s.rangeOf m.line = none → m.poison = 0 →
      s.lineLost m.line v.req.words = false → RoomAt s m.line → s.msgAt .xack n = some m → ∃ u, exec (.xack n) s = .next u ∧ u.hart = s.hart ∧
        LineWritten s u m.line (bytesOfWords (mine &&& m.dirty)) m.data ∧ (u.homeAt m.line).serving = [] ∧
        u.coh.net = s.coh.net.eraseIdx n ++ [{ homeCommand .gnt m.line v.req.sender v.req.words v.req.aux v.req.aux2 with data := u.memLine m.line }] ∧
        ∀ i, i < 16 → v.req.words.getLsbD i = true → (u.homeAt m.line).word i = .core v.req.sender) ∧
    (s.msgAt .claimr n = some m → old.locked = true → old.serving = [] → let rest := old.awaiting.filter (· ≠ m.sender)
      (rest ≠ [] → ∃ u, exec (.claimr n) s = .next u ∧ SameBytes s u ∧ (u.homeAt m.line).serving = [] ∧ (u.homeAt m.line).awaiting = rest ∧
        (u.homeAt m.line).gathered = old.gathered ++ came) ∧
      (rest = [] → ∃ u, exec (.claimr n) s = .next u ∧ (u.homeAt m.line).locked = false ∧ (∀ i, i < 16 → (u.homeAt m.line).word i = .unreg) ∧
        (∀ k, k / 64 ≠ m.line → u.byte k = s.byte k) ∧ ∀ i, i < 16 → let cs := (old.gathered ++ came).filter fun g => g.2.1.getLsbD i
        (cs = [] → (u.memLine m.line).extractLsb' (32 * i) 32 = (s.memLine m.line).extractLsb' (32 * i) 32) ∧
        ∀ g, cs = [g] → (u.memLine m.line).extractLsb' (32 * i) 32 = g.2.2.extractLsb' (32 * i) 32)))


/-! ### Harts, tasks and engines -/

/-- R270: an arbiter gives its opportunities to up to two ready harts, none passed over by one behind it, and their virtual times rise by
1024 / SHARE. R135: the first waiter for quads gets the block that is free, and one that has waited too long has freed quads held for it.
R138: a `yield` ends. R326: a read of a start counter, at the first and after each write to its line, makes its queue's head eligible while it holds WVAL, and watches it. R327, R329,
R26: the first eligible head is placed, each hart with its entry, argument, index and count; a placed hart starts with its core's L1
self-invalidated. R333, R335: a hart of a task that is pre-empted stops; a core's part goes to its part of the save slot, whose bytes are free values of that save (log entry 34), no byte
of memory outside changes, and with the last one the task waits in its resume list. R336: a restored task's harts run on. R328: at its end, its writes to other modules acknowledged, and with no copy of a line that
its harts modified left in a combine buffer, a task holds nothing, and its counter rises. Which tiles and slots of its core a task takes is
the model's choice (log entry 166). -/
def Obligations.SchedulingSteps : Prop :=
  (∀ (s : State) (core : Nat), (s.harts.map (·.id)).Nodup → let hs := s.hartsOn core
    ∃ (u : State) (cs : List Hart), exec (.issueArbitration core) s = .next u ∧ u.env.opps = s.env.opps ++ cs.map (·.id) ∧ cs.length = min 2 (hs.filter (·.arbReady)).length ∧
      (∀ g ∈ cs, g ∈ hs ∧ g.arbReady = true) ∧ u.mem = s.mem ∧
      (∀ g ∈ cs, ∀ x ∈ hs, x.arbReady = true → x ∉ cs → arbBefore (raised hs x, x) (raised hs g, g) = false) ∧
      ∀ g ∈ hs, ∃ k, u.hartAt g.id = some k ∧ k = { g with sc := k.sc } ∧
        (g ∈ cs → k.sc.vtime = raised hs g + 1024 / g.tk.share.toNat ∧ k.sc.age = 0) ∧ (g ∉ cs → k.sc.age = g.sc.age + 1)) ∧
  (∀ (s : State) (h : Nat) (g : Hart), s.hartAt h = some g →
    (∃ u, exec (.yieldExpiry h) s = .next u ∧ HartSet s u h { g with sc := { g.sc with yielded := [], yieldLeft := 0 } }) ∧
    (∀ d n since r q, g.wait = some (.vacquire d n since) → s.waiters g.core = (n, g) :: r → (s.coreAt g.core).reserved ∈ [none, some g.id] →
      blockIn (s.pool g.tk.task g.core) n = some q → ∃ u, exec (.vacquireGrant h) s = .next u ∧ (u.coreAt g.core).reserved = none ∧
        HartSet s u h (({ (g.hold q).set d (BitVec.ofNat 64 q.count) with
          sc := { g.sc with qtime := g.sc.qtime + 1024 * q.count / g.tk.share.toNat } } : Hart).goto (g.pc + 4) .other)) ∧
    (∀ t, s.taskAt g.tk.task = some t → (g.status = .placed → t.phase = .running → ∃ u, exec (.hartStart h) s = .next u ∧ SameBytes s u ∧
        HartSet s u h { g with status := .running } ∧ (u.coreAt g.core).icache = [] ∧ (u.coreAt g.core).ro = [] ∧
        ∀ l ∈ (u.coreAt g.core).l1, l.valid &&& ~~~l.reg = 0) ∧
      (g.status = .running ∨ g.status = .placed → t.phase = .preempting → s.atBoundary g = true → ∃ u, exec (.hartStop h) s = .next u ∧
        SameBytes s u ∧ HartSet s u h g.preempted ∧ ∀ l ∈ u.coh.links, l.1 ≠ h))) ∧
  (∀ (s : State) (core n : Nat) (g : Hart) (r : List (Nat × Hart)), s.waiters core = (n, g) :: r → (s.coreAt core).reserved = none →
    ∃ u, exec (.quadReservationTimeout core) s = .next u ∧ u.coreAt core = { s.coreAt core with reserved := some g.id } ∧ u.hart = s.hart ∧ u.others = s.others) ∧
  (∀ (s : State) (part : Nat) (q : Fin 16) (p : Partition) (e : QEntry) (r : List QEntry), s.partAt part = some p → p.queues.get q = e :: r →
    rWait e.record = true → let who := counterMonitor part q.val
    ∀ i, (i = .startCounterReread part q.val ∧ ∀ m, s.monitorOf who = some m → m.hit = true) ∨ i = .startCounterPollTimeout part q.val →
      ∀ o t, s.lineRead e.wloc 8 = (o, t) → ∃ u, exec i s = .next u ∧ u.mem = t.mem ∧ u.hart = t.hart ∧
        u.monitorOf who = some { who := who, line := lineOf e.wloc.key, hit := false } ∧
        (∀ v, o = .val v → ∃ k, u.partAt part = some k ∧ k.queues.get q = { e with eligible := decide (rWval e.record ≤ v) } :: r) ∧
        ((∀ v, o ≠ .val v) → u.sys = t.sys)) ∧
  (∀ (s : State) (part : Nat) (p : Partition) (l r : List Cand) (q : Nat) (e : QEntry) (seats : List Seat), s.partAt part = some p → p.fatal = false →
    [0, 1, 2, 3].flatMap p.cands = l ++ .queue q :: r →
    (∀ c ∈ l, ∃ k, c = .queue k ∧ ∀ x, (p.queues.toList.getD k []).head? = some x → x.eligible = false) →
    (p.queues.toList.getD q []).head? = some e → e.eligible = true → s.plan [] p s.sys.nextTask e = some seats → kNgrp e.desc = 0 →
    (seats.map fun x => 8 * x.core + x.slot).Nodup → (∀ x ∈ s.eng.sessions, ∀ k, s.taskAt x.task = some k → k.phase = .running) →
    (∀ x ∈ s.eng.lists, ∀ k, s.taskAt x.task = some k → k.phase = .running) → let id := s.sys.nextTask
    ∃ u, exec (.taskPlacement part) s = .next u ∧ u.sys.nextTask = id + 1 ∧ u.partAt part = some (takeHead q p) ∧ SameBytes s u ∧
      u.sys.tasks = s.sys.tasks ++ [{ id := id, part := part, entry := e, phase := .running, groups := [], halted := [], started := id, ending := false }] ∧
      u.places = s.places ++ (seats.map (·.core)).eraseDups.map (fun c => s.allot (freshPlace id e c seats)) ∧
      ∀ i x, seats[i]? = some x → u.hartAt (8 * x.core + x.slot) = some (placedHart id part e [] i x)) ∧
  (∀ (task part i : Nat) (e : QEntry) (x : Seat), let h := placedHart task part e [] i x
    h.status = .placed ∧ h.pc = BitVec.ofNat 64 (kEntry e.desc) ∧ h.tr.tvec = BitVec.ofNat 64 (kTvec e.desc) ∧ h.get 10 = rArg e.record ∧
    h.get 2 = (if kSpad e.desc = 0 then 0 else BitVec.ofNat 64 (2 ^ 63 + x.off + kSpad e.desc)) ∧ h.quads = x.quads ∧ h.tk.index = i ∧
    h.tk.count = effHarts e.record e.desc ∧ ∀ r : Reg, r ≠ 2 → r ≠ 10 → h.get r = 0) ∧
  (∀ (s : State) (task core : Nat) (t : Task) (v : SaveSlot) (p : Place), s.taskAt task = some t → s.sys.saves.find? (·.task == task) = some v →
    (t.phase = .preempting → t.ending = false → s.anyLeft task = true → s.canSave task core = true → v.saving.any (· == core) = false →
      ∃ u, exec (.coreSaveBegin task core) s = .next u ∧ SameBytes s u ∧ u.hart = s.hart ∧
        u.sys.saves.find? (·.task == task) = some { v with saving := core :: v.saving }) ∧
    ((s.harts.map (·.id)).Nodup → s.placeAt task core = some p → v.saving.any (· == core) = true → Memory.wf s.mem = true →
      ∀ base n, (v.parts.find? (·.1 == core)).map (·.2) = some (base, n) → let slot := dramKey (((s.partAt t.part).map (·.saveArea.1)).getD 0 + v.base + base)
      slot % 64 = 0 → n % 64 = 0 → (∀ l, slot / 64 ≤ l → l < (slot + n) / 64 → Unowned s l 0xFFFF) → ∃ u w, exec (.coreSaveComplete task core) s = .next u ∧
      (∀ k, k < slot ∨ slot + n ≤ k → u.byte k = s.byte k) ∧ (∀ i, i < n → u.byte (slot + i) = Config.saveByte (2 ^ 52 * s.env.free + i)) ∧ (∀ g ∈ u.hartsOn core, g.tk.task ≠ task) ∧ u.placeAt task core = none ∧ u.sys.saves.find? (·.task == task) = some w ∧
      w.harts = v.harts ++ (s.hartsOn core).filter (·.tk.task == task) ∧ w.places = v.places ++ [p] ∧ w.spad = v.spad ++ [(core, s.spadBytes core p.spad)] ∧
      w.parts = v.parts ∧ w.marks = v.marks ++ [(core, s.env.free)] ∧
      ((∀ q ∈ s.places, q.task = task → q.core = core) → u.taskAt task = some { t with phase := .saved } ∧ ∀ q, s.partAt t.part = some q →
        ∃ q', u.partAt t.part = some q' ∧ ∀ i : Fin 4, q'.resume.get i = if i.val = t.cls then q.resume.get i ++ [task] else q.resume.get i))) ∧
  (∀ (s : State) (task : Nat) (t : Task), s.taskAt task = some t → (s.harts.map (·.id)).Nodup →
    (t.phase = .restoring → (∀ c ∈ s.eng.copies, c.task = task → c.state ≠ .frozen) → ∃ u, exec (.restoreComplete task) s = .next u ∧ SameBytes s u ∧
      u.taskAt task = some { t with phase := .running } ∧ (∀ p ∈ s.places, p.task = task → (u.coreAt p.core).icache = [] ∧ (u.coreAt p.core).ro = []) ∧
      ∀ g ∈ s.harts, u.hartAt g.id = some (if g.tk.task = task ∧ g.status = .preempted then { g with status := .running } else g)) ∧
    (t.phase = .running → t.ending = false → (∀ h ∈ s.harts, h.status ≠ .empty → h.tk.task ≠ task) → s.taskBusy task = false → s.coh.ranges = [] →
      (∀ b ∈ s.coh.comb, b.partialLine = false → ∀ m ∈ b.mods, m / 2 ^ 20 ≠ task + 1) →
      let line := lineOf t.entry.dloc.key
      (rDone t.entry.record = true → (rDsys t.entry.record = true → ∀ e ∈ s.coh.egress, e.task ≠ task) ∧ s.fabricDown 0 line = none ∧ t.entry.dloc.kind = .cached ∧ Memory.wf s.mem = true ∧ Unowned s line (wordMask t.entry.dloc.key 8) ∧ s.poisoned t.entry.dloc.key 8 = false) →
      ∃ u, exec (.taskEnd task) s = .next u ∧ u.taskAt task = none ∧ (∀ p ∈ u.places, p.task ≠ task) ∧ (∀ x ∈ u.eng.sessions, x.task ≠ task) ∧
        (∀ x ∈ u.eng.lists, x.task ≠ task) ∧ (∀ x ∈ u.eng.copies, x.task ≠ task) ∧ u.hart = s.hart ∧ u.others = s.others ∧
        if rDone t.entry.record then u.memNat t.entry.dloc.key 8 = (s.memNat t.entry.dloc.key 8 + 1) % 2 ^ 64 ∧ KeepsBytes t.entry.dloc.key 8 s u
        else SameBytes s u))

/-- R226, R231: with every term's block decoded and no pruning, a run offers the nearest document when a group of its terms has it, and goes
past it; R238: what an offer does to the list. R233: a run ends when no document is left, and with a malformed block at an id out of range.
R232, R235: a probe visits a NONE entry a step, marks one that no list can hold UNMATCHED, and ends when none is left. R301: a merge begins once
the words it will write are registered; a lost one abandons it (R296; the model's reading, log entry 163). R368, R377: an anneal unit starts on its next stream in round-robin order.
R369: a merge publishes the merged span at the next level, then moves HEAD by two, GEN by one and clears BUSY; a discard drops the oldest
span. R371, R381: a merge whose body traps holds the stream, queues the fault record and ends the appends that wait with 2. R211: a product completes a step of its tile, and leaves
the queue with the last. R219: the slot moves on. R218: in adaptive mode CUR moves between DMIN and DELTA. -/
def Obligations.EngineSteps : Prop :=
  (∀ (s : State) (cluster session : Nat) (ss : Session) (run : Run) (curs : List Cursor), s.atWork cluster session false = some ss →
    ss.run = some run → run.curs = curs →
    (∀ d, (∀ c ∈ curs, ∃ i tf r, c.ids = (i, tf) :: r ∧ d ≤ i) → (∃ c ∈ curs, ∃ tf r, c.ids = (d, tf) :: r) →
      let hits := curs.filterMap fun k => k.ids.head?.bind fun x => if x.1 = d then some (k.slot, x.2) else none
      let after := ss.withCurs (d + 1) fun k => { k with ids := k.ids.filter fun x => decide (d < x.1) }
      (d < planNdoc ss.plan → planPrune ss.plan = false → matched ss.terms hits = true → ∀ sc t i l, (ss.score d hits).go s = (.ok sc, t) →
        ss.list = some i → t.listAt cluster i ss.task = some l → exec (.riddleOffer cluster session) s =
          .next ((t.putList (l.offer d sc).1).putSession { after with inserted := ss.inserted + (l.offer d sc).2.toNat })) ∧
      (planNdoc ss.plan ≤ d → s.eng.sessions.find? (fun x => x.cluster == cluster && x.id == session) = some ss →
        ∃ c ∈ curs, exec (.riddleRunEnd cluster session) s =
          .next (s.putSession { ss with run := none, failed := false, malformed := true, cause := 0, faultAddr := c.addr }))) ∧
    ((∀ c ∈ curs, c.ids = [] ∧ ∀ t, ss.terms.find? (·.slot == c.slot) = some t → lCount t.list ≤ c.next) →
      exec (.riddleRunEnd cluster session) s = .next (s.putSession { ss with run := none, failed := false, malformed := false, cause := 0 }))) ∧
  (∀ (l : SkList) (doc score : Nat), let d := BitVec.ofNat 32 doc
    let new : SkEntry := { doc := d, lex := .matched, score := BitVec.ofNat 32 score, vec := none }
    let low := (fp32.decode score).isNan || (fLt fp32 score l.theta).1
    ((∃ e ∈ l.entries, e.doc = d) → l.offer doc score =
      ({ l with entries := l.entries.map fun e => if e.doc = d then { e with lex := .matched, score := BitVec.ofNat 32 score } else e }, true)) ∧
    ((∀ e ∈ l.entries, e.doc ≠ d) → (low = true → l.offer doc score = (l, false)) ∧
      (low = false → (l.entries.length < l.cap → l.offer doc score = ({ l with entries := l.entries ++ [new] }, true)) ∧
        (l.cap ≤ l.entries.length → (∀ v, l.victim = some v → scoreBelow v.score.toNat score = false) →
          l.offer doc score = ({ l with refused := l.refused + 1 }, false)) ∧
        ∀ v, l.cap ≤ l.entries.length → l.victim = some v → scoreBelow v.score.toNat score = true → v ∈ l.entries ∧ v.vec = none ∧
          l.offer doc score = ({ l with refused := l.refused + 1, entries := (l.entries.filter fun e => e.doc ≠ v.doc) ++ [new] }, true)))) ∧
  (∀ (s : State) (cluster session : Nat) (ss : Session) (run : Run), s.atWork cluster session true = some ss → ss.run = some run →
    (s.probeNext ss run = none → exec (.probeEnd cluster session) s =
      .next (s.putSession { ss with run := none, failed := false, malformed := false, cause := 0 })) ∧
    ∀ i l e, ss.list = some i → s.eng.lists.find? (fun x => x.cluster == cluster && x.id == i) = some l → l.task = ss.task →
      s.probeNext ss run = some e → e ∈ l.entries ∧ e.lex = .none ∧
        ((l.entries.map (·.doc)).Nodup → planNdoc ss.plan ≤ e.doc.toNat → ∃ u, exec (.probeEnd cluster session) s = .next u ∧ SameBytes s u ∧
          u.eng.sessions = (s.putSession ss).eng.sessions ∧ u.listAt cluster i ss.task =
            some { l with entries := l.entries.map fun x => if x.doc = e.doc then { x with lex := .unmatched, score := 0 } else x })) ∧
  (∀ (s : State) (au lev : Nat) (h : Hdr) (st : Stream), let mine := s.eng.streams.filter fun x => annealUnit x.base == au
    let last := Sparse.get 0 s.eng.served au
    (∀ x ∈ mine, x.op = none ∧ (x.base = st.base → x = st)) → st ∈ mine → s.eligible st = some (lev, h) →
    (∀ x ∈ mine, (s.eligible x).isSome = true → if last ≤ st.base then st.base ≤ x.base ∨ x.base < last else x.base < last ∧ st.base ≤ x.base) →
    let off := h.entryOff (lev + 1) (h.head (lev + 1) + h.occ (lev + 1))
    let began := fun (op : AnnealOp) (t : State) => (t.putStream { st with op := some op, retry := none }).putState32 st none h (2 ^ 28) 0
    let served := fun t : State => ({ t with eng := { t.eng with served := Sparse.put 0 t.eng.served au (st.base + 1) } } : State)
    (st.retry = none → lev + 1 = h.nlev → exec (.annealOperationStart au) s = .next (served (began .discard s))) ∧
    (¬ (st.retry = none ∧ lev + 1 = h.nlev) → (s.regionReg st au off h.esz = none → exec (.annealOperationStart au) s = .next s) ∧
      ∀ t, s.regionReg st au off h.esz = some t → exec (.annealOperationStart au) s = .next (match t.regionBad st off h.esz true with
        | none => served (began (.merge lev ((t.combiner st.part h.comb).getD []) off h.esz) t)
        | some c => match (mergeSpans st lev h).go (t.regionUnreg st au off h.esz) with
          | (.ok (a, b), u) => served (u.holdStream st h lev a b c 0)
          | _ => s))) ∧
  (∀ (s : State) (hdr : Nat) (st : Stream), let moved := fun (t : State) (h : Hdr) (l n : Nat) =>
      ((t.putLevel st none l ((h.head l + n) % h.cap l) (h.occ l - n)).regionPut st none 64 8 (h.gen + 1)).putState32 st none h 0 (2 ^ 28)
    (∀ l off len m t, s.merging hdr = some (st, l, off, len, m, t) → let h := m.hdr
      (∀ v, m.out = .ok v → exec (.mergePublication hdr) s = .next ((moved (((t.regionPut st none off h.esz ({
        tf := m.a.tf, tl := m.b.tl, lev := l + 1, value := v } : Span).bytes).regionUnreg st (annealUnit st.base) off len).putLevel st none (l + 1)
          (h.head (l + 1)) (h.occ (l + 1) + 1)) h l 2).putStream { st with op := none })) ∧
      (∀ c eri, m.out = .error (c, eri) → m.bad = none → s.hart.wait = none → let full := h.fqn = 4
        let qh := if full then (h.fqh + 1) % 4 else h.fqh % 4
        let qn := if full then 3 else h.fqn
        ∃ u, exec (.mergeAbandon hdr) s = .next u ∧ u.eng.streams = (t.putStream { st with op := none, retry := some l }).eng.streams ∧ u.hart = t.hart ∧
          u.others = (t.others.map fun x => match x.wait with
            | some (.append r y _) => if y = st.base then (x.set r 2).goto (x.pc + 4) .other else x
            | _ => x) ∧
          u.mem = (((((t.regionUnreg st (annealUnit st.base) off len).regionPut st none (128 + 32 * ((qh + qn) % 4)) 32 (h.gen + m.a.tf * 2 ^ 64 +
            m.b.tl * 2 ^ 128 + l * 2 ^ 192 + c.code * 2 ^ 200 + eri % 2 ^ 16 * 2 ^ 208)).regionPut st none 88 2 (qn + 1 + 256 * qh)).regionPut st none 84 4
              (if full then min (h.lost + 1) (2 ^ 32 - 1) else h.lost)).putState32 st none h (2 ^ 30) (2 ^ 28)).mem)) ∧
    (∀ h t, s.eng.streams.find? (·.base == hdr) = some st → st.op = some .discard → (headerOpen st).go s = (.ok h, t) →
      exec (.horizonDiscard hdr) s = .next ((moved t h (h.nlev - 1) 1).putStream { st with op := none }))) ∧
  (∀ (s : State) (h : Nat) (g : Hart) (e : VEntry) (r : List VEntry) (p : Place), s.hartAt h = some g → g.vs.vq = e :: r → e.word.toNat / 2 ^ 26 = 49 →
    g.status = .running → mopSkipped g e.word = false → s.slotServes g = true → s.placeOf g = some p → s.mopHeld g e.word = false → e.last = false →
    let n := g.vs.mopStep
    let len := p.mopLen (e.word.toNat / 2 ^ 24 % 4)
    n < len → ∃ u, exec (.mopStepEnd h) s = .next u ∧ SameBytes s u ∧ u.places = (s.onPlace g.tk.task g.core (mopSteps g e.word n (n + 1))).places ∧
      HartSet s u h { g with vs := if n + 1 < len then { g.vs with mopStep := n + 1 } else { g.vs with mopStep := 0, vq := r, blocked := false } }) ∧
  (∀ (s : State) (core : Nat), ∃ u, exec (.crucibleSlotTick core) s = .next u ∧ u.hart = s.hart ∧ u.mem = s.mem ∧
    u.coreAt core = { s.coreAt core with slot := ((s.coreAt core).slot + 1) % 16 } ∧ ∀ c, c ≠ core → u.coreAt c = s.coreAt c) ∧
  (∀ (s : State) (h : Nat) (cur : BitVec 8) (g : Hart), s.hartAt h = some g → ∃ u, exec (.skipCurAdjust h cur) s = .next u ∧ u.mem = s.mem ∧
    HartSet s u h (if g.skipd.extractLsb' 0 2 = 2 ∧ g.skipd.extractLsb' 16 8 ≤ cur ∧ cur ≤ g.skipd.extractLsb' 8 8 then
      { g with skipd := (0 : BitVec 32) ++ cur ++ g.skipd.extractLsb' 0 24 } else g))


/-! ### The host and the supervisor -/

/-- R354: a write to SUBMIT launches the record of its slot: status 2 when it is ill-formed, 1 when the queue is full, else 0 with the task
queued. FAULTPOP takes the oldest fault record; RESOLVE, and the page-fault service in hardware mode (R338), let the hart run again at TPC
or end its task, by the number it had when it stopped (R337, log entry 148). R359: POSTPOP gives the oldest request, ANSWER settles it.
R357, R387: EVENTPOP and ERRPOP take the oldest record, all ones when there is none; a register write changes eight bytes of a slot or of
BUF. R353, R354, R357: a read of BAR 0 gives the statuses, 0xFF while one of the window is pending, the slots of window 0 and BUF, zero in windows 9 to 15, and pops at the offset of
a popping register. R355: a BAR 4 write or read acts on the line at its home, and a refused one leaves an event, a read all ones in `hostOut` (the model's
place for them, log entry 124); one to another module enters its egress queue, and later ones wait for it. R353: the
save area reads and writes as memory while it is open, and else as all ones. What must wait, for its data or for an earlier one, is kept in
the order it came (log entry 149) and tried again. Memory is in the canonical form (the invariant StepKeepsCanonical). -/
def Obligations.HostSteps : Prop :=
  (∀ (s0 : State) (part slot : Nat), part ≤ 7 → s0.env.again = false → let s := s0.windowStatus (part + 1) 0xFF
    let r := Sparse.get 0 s.sys.slots (512 * (part + 1) + slot)
    let waits := exec (.submit part slot) s0 = .next (s.kept (2 + part) (.submit part slot))
    ((∃ x ∈ s.sys.waiting, x.1 = 2 + part) → waits) ∧
    ((∀ x ∈ s.sys.waiting, x.1 ≠ 2 + part) → let ends := fun (t : State) (n : Nat) => exec (.submit part slot) s0 = .next (t.windowStatus (part + 1) n)
    (s.partAt part = none ∨ 511 < slot → ends s 2) ∧
    ∀ p, s.partAt part = some p → slot ≤ 511 → (p.keyWait = true → waits) ∧
      (p.keyWait = false → (recordOk r = false → ends s 2) ∧
        (recordOk r = true → ∀ c x, launchLocs (fun x acc => s.ctxLoc part p.winCtx x acc) r = .error (some c, x) → ends s 2) ∧
        ∀ k wl dl v, recordOk r = true → launchLocs (fun x acc => s.ctxLoc part p.winCtx x acc) r = .ok (k, wl, dl) →
          s.ctxUnits part p.winCtx (rKdesc r) 8 8 = (.val v, s) → let d := BitVec.ofNat 512 v
          ((descriptorOk d && s.placeable p (effHarts r d) (effAff r d)) = false → ends s 2) ∧
          ((descriptorOk d && s.placeable p (effHarts r d) (effAff r d)) = true → ∀ g, s.template part p.winCtx (kGrpoff d) (kNgrp d) = (.groups g, s) →
            (membersFit (effHarts r d) g = false → ends s 2) ∧ (membersFit (effHarts r d) g = true → let q := 4 * rClass r + rQueue r
            let l := p.queues.toList.getD q []
            (64 ≤ l.length → ends s 1) ∧
            (l.length < 64 → ∃ u p', ends u 0 ∧ u.partAt part = some p' ∧ SameBytes s u ∧ u.hart = s.hart ∧
              p'.queues.toList.getD q [] = l ++ [{ record := r, desc := d, ctx := p.winCtx, kpa := k.pa, wloc := wl, dloc := dl, eligible := !rWait r }])))))) ∧
  (∀ (s : State) (part : Nat) (p : Partition), s.partAt part = some p → (p.faults = [] → exec (.faultpop part) s = .next (s.answer (allOnes 32) false)) ∧
    ∀ r l, p.faults = r :: l → ∃ u, exec (.faultpop part) s = .next u ∧ u.hart = s.hart ∧ u.mem = s.mem ∧ u.sys.hostOut = natBytes 32 r.toNat ∧
      u.partAt part = some { p with faults := l ++ p.faultWait.take 1, faultWait := p.faultWait.drop 1 }) ∧
  (∀ (s : State) (j h part : Nat) (g : Hart) (t : Task), (s.harts.map (·.id)).Nodup → s.hartAt j = some g → g.faultHart = h → h < 2 ^ 13 →
    g.tk.part = part → g.faulted = true → (∀ k ∈ s.harts, k.faultHart = h → k.tk.part = part → k.faulted = true → k.id = j) → s.taskAt g.tk.task = some t → t.phase = .running → let back := { returnFromTrap g with status := .running }
    let gone := fun u : State => (∃ t', u.taskAt g.tk.task = some t' ∧ t'.ending = true) ∧ ∀ k ∈ u.harts, k.status ≠ .empty → k.tk.task ≠ g.tk.task
    (∀ w : BitVec 64, w.toNat % 2 ^ 21 = hartIdOf h →
      (w.getLsbD 32 = false → ∃ u, exec (.resolve part w) s = .next u ∧ HartSet s u j back ∧ u.mem = s.mem) ∧
      (w.getLsbD 32 = true → ∃ u, exec (.resolve part w) s = .next u ∧ gone u)) ∧
    (∀ p r l, s.sys.parts.find? (fun p => !s.hostMode p.id 0 && p.faults.any fun r => recordHart r == hartIdOf h) = some p → p.id = part →
      p.faults = r :: l → recordHart r = hartIdOf h →
      let popped := fun u : State => u.partAt part = some { p with faults := l ++ p.faultWait.take 1, faultWait := p.faultWait.drop 1 }
      (∃ u, exec (.pageFaultResolved h true) s = .next u ∧ HartSet s u j back ∧ popped u) ∧
      ∃ u, exec (.pageFaultResolved h false) s = .next u ∧ gone u ∧ popped u)) ∧
  (∀ s : State, let out := fun (i : Instr) (y : Sys) (l : List Byte) => exec i s = .next (({ s with sys := y } : State).answer l false)
    ((∀ p ∈ s.sys.posts, p.popped = true) → out .postpop s.sys (allOnes 320)) ∧
    (∀ l p r, s.sys.posts = l ++ p :: r → (∀ x ∈ l, x.popped = true ∧ x.seq ≠ p.seq) → (∀ x ∈ r, x.seq ≠ p.seq) → p.popped = false →
      out .postpop { s.sys with posts := l ++ { p with popped := true } :: r } p.bytes) ∧
    (s.sys.errors = [] → out .errpop s.sys (allOnes 32)) ∧ (∀ r l, s.sys.errors = r :: l → out .errpop { s.sys with errors := l } (natBytes 32 r.toNat)) ∧
    (s.sys.events = [] → out .eventpop s.sys (allOnes 32)) ∧ (∀ r l, s.sys.events = r :: l → out .eventpop { s.sys with events := l } (natBytes 32 r.toNat))) ∧
  (∀ (s : State) (w : BitVec 128) (p : Post), let v := bytesAt w 8 1
    s.sys.posts.find? (·.seq == bytesAt w 0 8) = some p → v ≤ 1 → bytesAt w 10 6 = 0 →
    (p.kind = 1 → p.verdict = none → (∃ h ∈ s.harts, h.wait = some (.admission (bytesAt w 0 8))) →
      ∃ u, exec (.answer w) s = .next u ∧ u.sys.posts.find? (·.seq == bytesAt w 0 8) = some { p with verdict := some (v, bytesAt w 9 1) } ∧
      u.hart = s.hart ∧ u.mem = s.mem) ∧
    (p.kind = 2 → v = 0 → (∃ x ∈ s.sys.keys, x.1 = p.id) → ∃ u, exec (.answer w) s = .next u ∧ u.hart = s.hart ∧ u.mem = s.mem ∧
      (∀ x ∈ u.sys.posts, x.seq ≠ bytesAt w 0 8) ∧ ∀ q, u.partAt p.part = some q → q.keyWait = false)) ∧
  (∀ (s : State) (win off : Nat) (w : BitVec 64), off % 8 = 0 →
    (8 < win ∨ (win ≠ 0 ∧ 0x8000 ≤ off) → exec (.registerWrite win off w) s = .next s) ∧
    (win ≤ 8 → off < 0x8000 → Sparse.wf 0 s.sys.slots = true → ∃ u, exec (.registerWrite win off w) s = .next u ∧ u.hart = s.hart ∧ u.mem = s.mem ∧
      let k := 512 * win + off / 64
      let new := Sparse.get 0 u.sys.slots k
      bytesAt new (off % 64) 8 = w.toNat ∧ (∀ i, i < 64 → i < off % 64 ∨ off % 64 + 8 ≤ i → bytesAt new i 1 = bytesAt (Sparse.get 0 s.sys.slots k) i 1) ∧
      ∀ j, j ≠ k → Sparse.get 0 u.sys.slots j = Sparse.get 0 s.sys.slots j) ∧
    (win = 0 → 0xC000 ≤ off → off < 0x10000 → Sparse.wf 0 s.sys.buf = true → ∃ u, exec (.registerWrite win off w) s = .next u ∧ u.hart = s.hart ∧ u.mem = s.mem ∧
      (∀ i, i < 8 → Sparse.get 0 u.sys.buf (off - 0xC000 + i) = w.extractLsb' (8 * i) 8) ∧
      ∀ j, j < off - 0xC000 ∨ off - 0xC000 + 8 ≤ j → Sparse.get 0 u.sys.buf j = Sparse.get 0 s.sys.buf j)) ∧
  (∀ (s : State) (off n : Nat), let out := fun l => exec (.hostRead (2 ^ 40 + off) n) s = .next (s.answer l false)
    (∀ win, win ≤ 8 → off = 0x10000 * win + 0x8000 → n = 8 → ((∃ x ∈ s.sys.waiting, x.1 = win + 1) → out (natBytes 8 0xFF)) ∧
      ((∀ x ∈ s.sys.waiting, x.1 ≠ win + 1) → out (natBytes 8 (Sparse.get 0 s.sys.status win)))) ∧
    (∀ k i, k < 512 → i + n ≤ 64 → off = 64 * k + i → out (natBytes n ((Sparse.get 0 s.sys.slots k).toNat / 2 ^ (8 * i)))) ∧
    (0xC000 ≤ off → off + n ≤ 0x10000 → n ≤ 64 → out ((upTo n).map fun i => Sparse.get 0 s.sys.buf (off - 0xC000 + i))) ∧
    (0x90000 ≤ off → n ≤ 64 → out (List.replicate n 0)) ∧
    (off = 0x9000 → n = 32 → exec (.hostRead (2 ^ 40 + off) n) s = exec .errpop s) ∧ (off = 0x9040 → n = 32 → exec (.hostRead (2 ^ 40 + off) n) s = exec .eventpop s) ∧
    (off = 0x8040 → n = 320 → exec (.hostRead (2 ^ 40 + off) n) s = exec .postpop s) ∧
    (∀ part, part ≤ 7 → off = 0x10000 * (part + 1) + 0x8008 → n = 32 → exec (.hostRead (2 ^ 40 + off) n) s = exec (.faultpop part) s)) ∧
  (∀ (s : State) (off n : Nat) (w : BitVec 512), off < 2 ^ 40 → n ≤ 64 → s.env.again = false →
    (s.partAt (off / 2 ^ 36) = none → ∀ acc, s.hostLocs off n acc = .refused) ∧
    ((∃ x ∈ s.sys.waiting, x.1 = 0) ∨ s.hostLocs off n .write = .wait → exec (.hostWrite off n w) s = .next (s.kept 0 (.write off n w))) ∧
    ((∃ x ∈ s.sys.waiting, x.1 = 0) ∨ s.hostLocs off n .read = .wait → exec (.hostRead off n) s = .next (s.kept 0 (.read off n))) ∧
    ((∀ x ∈ s.sys.waiting, x.1 ≠ 0) →
      (s.hostLocs off n .write = .refused → ∃ u r, exec (.hostWrite off n w) s = .next u ∧ SameBytes s u ∧
        u.sys.events = (if s.sys.events.length < 256 then s.sys.events else s.sys.events.drop 1) ++ [r] ∧ bytesAt r 16 1 = 0) ∧
      (s.hostLocs off n .read = .refused → ∃ u r, exec (.hostRead off n) s = .next u ∧ SameBytes s u ∧ u.sys.hostOut = allOnes n ∧ u.sys.hostRefused = true ∧
        u.sys.events = (if s.sys.events.length < 256 then s.sys.events else s.sys.events.drop 1) ++ [r] ∧ bytesAt r 16 1 = 1) ∧
      (∀ part loc, loc.kind = .remote → s.hostLocs off n .write = .at_ part [(loc, n, 0)] → ∃ u e, exec (.hostWrite off n w) s = .next u ∧ SameBytes s u ∧
        u.coh.egress = s.coh.egress ++ [e] ∧ e.module = loc.module ∧ e.src = .host ∧
        e.bytes = (List.range n).map (fun i => (loc.key + i, BitVec.ofNat 8 (w.toNat / 2 ^ (8 * i)))) ∧
        ∀ p, u.partAt (off / 2 ^ 36) = some p → ∀ acc, u.hostLocs off n acc = .wait) ∧
      ∀ part loc, loc.kind = .cached → Memory.wf s.mem = true → Unowned s (lineOf loc.key) (wordMask loc.key n) →
        (s.hostLocs off n .write = .at_ part [(loc, n, 0)] → ∃ u, exec (.hostWrite off n w) s = .next u ∧ u.memNat loc.key n = w.toNat % 2 ^ (8 * n) ∧
          KeepsBytes loc.key n s u ∧ u.hart = s.hart) ∧
        (s.hostLocs off n .read = .at_ part [(loc, n, 0)] → s.poisoned loc.key n = false →
          exec (.hostRead off n) s = .next (s.answer (natBytes n (s.cohNat loc.key n)) false)))) ∧
  (∀ (s : State) (off n : Nat) (w : BitVec 512) (x : HostAccess) (l : List (Nat × HostAccess)), n ≤ 64 → s.env.again = true → s.sys.waiting = (0, x) :: l →
    let t := { s with env := { s.env with again := false } }
    (t.hostLocs off n .write = .wait → exec (.hostWrite off n w) s = .next t) ∧
    ∀ part loc, loc.kind = .cached → Memory.wf t.mem = true → Unowned t (lineOf loc.key) (wordMask loc.key n) →
      t.hostLocs off n .write = .at_ part [(loc, n, 0)] → ∃ u, exec (.hostWrite off n w) s = .next u ∧ u.memNat loc.key n = w.toNat % 2 ^ (8 * n) ∧
        KeepsBytes loc.key n t u ∧ u.sys.waiting = l ∧ u.env.again = false) ∧
  (∀ (s : State) (part o : Nat) (w : BitVec 64), o < 2 ^ 32 → o % 8 = 0 → s.env.again = false → let off := part * 2 ^ 32 + o
    let wait := fun wr => exec (.saveAreaAccess off wr) s = .next (s.kept 0 (.save off wr))
    ((∃ x ∈ s.sys.waiting, x.1 = 0) → ∀ wr, wait wr) ∧
    ((∀ x ∈ s.sys.waiting, x.1 ≠ 0) →
      ((∀ p, s.partAt part = some p → p.saveOpen = false ∨ p.saveArea.2 < o + 8) →
        exec (.saveAreaAccess off none) s = .next (s.answer (allOnes 8) false) ∧ exec (.saveAreaAccess off (some w)) s = .next s) ∧
      ∀ p, s.partAt part = some p → p.saveOpen = true → o + 8 ≤ p.saveArea.2 → (p.keyWait = true ∨ s.hostFlying = true → ∀ wr, wait wr) ∧
        (p.keyWait = false → s.hostFlying = false → let key := dramKey (p.saveArea.1 + o)
          (s.lineWaits (lineOf key) (wordMask key 8) = true → ∀ wr, wait wr) ∧
          (Unowned s (lineOf key) (wordMask key 8) →
            (s.poisoned key 8 = false → exec (.saveAreaAccess off none) s = .next (s.answer (natBytes 8 (s.cohNat key 8)) false)) ∧
            (Memory.wf s.mem = true → ∃ u, exec (.saveAreaAccess off (some w)) s = .next u ∧ u.memNat key 8 = w.toNat ∧ KeepsBytes key 8 s u ∧ u.hart = s.hart)))))

/-- R358: a command record with a stray operand, or for no partition number, gets status 2 and an OP that is no command's too; one for a
partition that does not exist gets 3; else the command has its effect with status 0: PARTDEF creates a partition with a fresh key, whose
memory then reads as unrelated bytes (R350: free values that go with the key, log entry 130), dismantles one without tasks, or
sets the shared ranges, where memory that becomes shared is read under another key; PTROOT, VMAP, WINBIND, SAVEAREA,
SAVEOPEN, GUARDTAB, RACE and PEER set what they name; SHOOT empties the TLBs of a context, SLOTTAB a core's slot table, MODE a function's
mode; KEX and KEY take keys, and a new key makes memory
unrelated bytes; TASK requests a pre-emption, or ends the task of a hart; CLEARLOST makes lost words unregistered, with
value 0, also where an error had been found (status 2 where the partition does not own the address is log entry 93). The combiners that go and
the bytes that stay when a partition is dismantled are log entry 92, and MODE for a number without a partition is log entry 88. VMAP waits for
the elements that wait under the old entry (R345), GUARDTAB and CLEARLOST for the key. While a command waits its status reads 0xFF and the later ones wait behind it (R357). Memory is in the canonical form (the invariant StepKeepsCanonical). -/
def Obligations.Commands : Prop :=
  ∀ (s0 : State) (slot : Nat), let s := s0.commandStatus 0xFF
    let r := s.commandRecord slot
    let part := cPart r
    let a0 := cA0 r
    let a1 := cA1 r
    let a2 := cA2 r
    let a3 := cA3 r
    let run := fun (i : Instr) (op : Nat) (t : State) (n : Nat) => cOp r = op → restZero r = true → exec i s0 = .next (t.commandStatus n)
    -- a byte as it reads under the key of number n
    let newByte := fun (n k : Nat) => s.byte k ^^^ padOf s.sys.pads k ^^^ Config.staleByte (2 ^ 48 * n + k)
    let all := [Instr.partdef slot, .ptroot slot, .vmap slot, .shoot slot, .slottab slot, .mode slot, .savearea slot, .saveopen slot, .guardtab slot,
      .kex slot, .key slot, .winbind slot, .task slot, .clearlost slot, .race slot, .peer slot]
    slot < 512 → s0.env.again = false →
    (∀ k i, all[k]? = some i → (cOp r ≠ k + 1 → exec i s0 = .next s0) ∧
      (cOp r = k + 1 → (∃ x ∈ s.sys.waiting, x.1 = 1) → exec i s0 = .next (s.kept 1 (.command slot)))) ∧
    ((∀ x ∈ s.sys.waiting, x.1 ≠ 1) →
    (cOp r = 0 ∨ 16 < cOp r → exec (.malformedCommand slot) s0 = .next (s.commandStatus 2)) ∧
    (∀ k i, all[k]? = some i → cOp r = k + 1 → restZero r = false → exec i s0 = .next (s.commandStatus 2)) ∧
    -- the commands that set a field of a partition
    (∀ x ∈ [(Instr.ptroot slot, 2, decide (a0 < 256 ∧ a1 % 65536 = 0 ∧ a1 < 2 ^ 52 ∧ a2 = 0 ∧ a3 = 0), fun p : Partition => { p with roots := Sparse.put 0 p.roots a0 a1 }),
        (.vmap slot, 3, decide (a0 < 256 ∧ a1 < 65536 ∧ a3 = 0), fun p => { p with vmap := Sparse.put 0 p.vmap (65536 * a0 + a1) (BitVec.ofNat 64 a2) }),
        (.saveopen slot, 8, decide (a0 < 2 ∧ a1 = 0 ∧ a2 = 0 ∧ a3 = 0), fun p => { p with saveOpen := a0 == 1 }),
        (.winbind slot, 12, decide (a0 < 256 ∧ a1 % 2 ^ 30 = 0 ∧ a2 = 0 ∧ a3 = 0), fun p => { p with winCtx := a0, winBase := a1 }),
        (.peer slot, 16, decide (a0 < 256 ∧ a1 < 2 ∧ a2 = 0 ∧ a3 = 0), fun p =>
          { p with peers := if a1 = 1 then a0 :: p.peers.filter (· ≠ a0) else p.peers.filter (· ≠ a0) })],
      (7 < part ∨ x.2.2.1 = false → run x.1 x.2.1 s 2) ∧ (part ≤ 7 → x.2.2.1 = true → (s.partAt part = none → run x.1 x.2.1 s 3) ∧
        ∀ p, s.partAt part = some p → (x.2.1 = 3 → s.mapInUse part a0 a1 = false) → (x.2.1 = 2 → a1 = 0 → (∀ t ∈ s.sys.tasks, t.part = part → t.entry.ctx ≠ a0) ∧
          ∀ q : Fin 16, ∀ e ∈ p.queues.get q, e.ctx ≠ a0) → run x.1 x.2.1 (s.onPart part x.2.2.2) 0)) ∧
    (part ≤ 7 → ∀ p, s.partAt part = some p →
      (a0 < 256 → a1 < 65536 → a3 = 0 → cOp r = 3 → restZero r = true → s.mapInUse part a0 a1 = true → exec (.vmap slot) s0 = .next (s.kept 1 (.command slot))) ∧
      (p.keyWait = true → a1 < 2 ^ 52 → a2 = 0 → a3 = 0 → restZero r = true →
        (a0 = 0 → a1 % 4096 = 0 → cOp r = 9 → exec (.guardtab slot) s0 = .next (s.kept 1 (.command slot))) ∧
        (a0 < 2 ^ 16 → a1 % 64 = 0 → cOp r = 14 → s.owns part a1 false = true → exec (.clearlost slot) s0 = .next (s.kept 1 (.command slot)))) ∧
      (a0 < 256 → a1 = 0 → a2 = 0 → a3 = 0 → run (.shoot slot) 4
        { s with cores := s.cores.map fun c => { c with tlb := c.tlb.filter fun t => !(t.part == part && t.ctx == a0) } } 0) ∧
      (a0 = 0 → a3 = 0 → a1 % 4096 = 0 → a1 < 2 ^ 52 → a2 % 4096 = 0 → a2 ≤ 2 ^ 32 → p.stacked.1 * 2 ^ 30 ≤ a1 % 2 ^ 48 →
        a1 % 2 ^ 48 + a2 ≤ (p.stacked.1 + p.stacked.2) * 2 ^ 30 → (∀ v ∈ s.sys.saves, ∀ t, s.taskAt v.task = some t → t.part ≠ part) →
        run (.savearea slot) 7 (s.onPart part fun p => { p with saveArea := (a1 % 2 ^ 48, a2) }) 0) ∧
      (a0 = 0 → a1 % 4096 = 0 → a1 < 2 ^ 52 → a2 = 0 → a3 = 0 → cOp r = 9 → restZero r = true → p.keyWait = false → Memory.wf s.mem = true → ∃ u, exec (.guardtab slot) s0 = .next u ∧
        u.partAt part = some { p with guardTab := some a1 } ∧
        ∀ k, u.byte k = if vByte [{ p with guardTab := some a1 }] k then s.byte k &&& 0x7F else s.byte k) ∧
      (a0 < 2 ^ 21 → a2 = 0 → a3 = 0 → let id := a0 % 2 ^ 13
        (hartIdOf id ≠ a0 → a1 < 2 → run (.task slot) 13 s 3) ∧
        ∀ k t, hartIdOf id = a0 → s.taskOfHart part id = some k → s.taskAt k = some t → (a1 = 1 → run (.task slot) 13 (s.killTask k) 0) ∧
          (a1 = 0 → t.phase ≠ .preempting → t.phase ≠ .saved → (s.preempt p k = none → run (.task slot) 13 s 3) ∧ ∀ u, s.preempt p k = some u → run (.task slot) 13 u 0 ∧
            (u.taskAt k).map (·.phase) = some .preempting) ∧
          (a1 = 0 → t.phase = .preempting ∨ t.phase = .saved → run (.task slot) 13 s 0)) ∧
      (a0 < 2 ^ 16 → a1 % 64 = 0 → a1 < 2 ^ 52 → a2 = 0 → a3 = 0 → (s.owns part a1 false = false → run (.clearlost slot) 14 s 2) ∧
        (s.owns part a1 false = true → cOp r = 14 → restZero r = true → p.keyWait = false → Memory.wf s.mem = true → let line := lineOf (dramKey a1)
          let lost := fun i => decide (i < 16 ∧ a0.testBit i = true ∧ (s.homeAt line).word i = .lost)
          ∃ u, exec (.clearlost slot) s0 = .next u ∧ (∀ i, i < 16 → (u.homeAt line).word i = if lost i then .unreg else (s.homeAt line).word i) ∧
            (∀ x ∈ u.coh.poison, x ∈ s.coh.poison ∧ ¬ (x / 64 = line ∧ lost (x % 64 / 4) = true)) ∧
            ∀ k, u.byte k = if k / 64 = line ∧ lost (k % 64 / 4) = true then 0 else s.byte k)) ∧
      (a0 < 3 → a1 = 0 → a2 = 0 → a3 = 0 → cOp r = 15 → restZero r = true → ∃ u, exec (.race slot) s0 = .next u ∧ u.partAt part = some { p with race := a0 } ∧
        u.mem = s.mem ∧ (p.race = 0 → ∀ e ∈ u.coh.shadow, inRanges [p.stacked, p.lpddr] (32 * e.granule) = false))) ∧
    (part = 0xFF → (a0 ≤ 639 → a1 < 2 ^ 32 → a2 = 0 → a3 = 0 → run (.slottab slot) 5 (s.onCore a0 fun c => { c with slotTab := BitVec.ofNat 32 a1 }) 0) ∧
      (a1 ≤ 1 → a2 = 0 → a3 = 0 → (a0 = 3 → run (.mode slot) 6 { s with sys := { s.sys with hostErrors := a1 == 1 } } 0) ∧
        (a0 = 4 → run (.mode slot) 6 { s with sys := { s.sys with boot := { s.sys.boot with bootHost := a1 == 1 } } } 0)) ∧
      (a0 = 0 → a2 = 0 → a3 = 0 → ∀ l, s.bufBytes a1 1568 = some l → run (.kex slot) 10 { s with sys := { s.sys with hostKey := some (Config.decapsulate l) } } 0) ∧
      (1 ≤ a0 ∧ a0 ≤ 8 ∨ a0 = 15 → a2 = 0 → a3 = 0 → ∀ l, s.bufBytes a1 72 = some l → (s.hostLoads a0 = false → run (.key slot) 11 s 3) ∧
        ∀ k key, s.hostLoads a0 = true → s.sys.hostKey = some k → (Config.unwrapKey k l = none → run (.key slot) 11 s 3) ∧
          (Config.unwrapKey k l = some key → cOp r = 11 → restZero r = true → ∃ u, exec (.key slot) s0 = .next u ∧
            u.sys.keys = (a0, key) :: s.sys.keys.filter (·.1 ≠ a0) ∧ u.hart = s.hart ∧
            ∀ k, u.byte k = if (a0, key) ∉ s.sys.keys ∧ inRanges (s.keyRanges a0) k = true then newByte (key.toNat + 2) k else s.byte k)) ∧
      (a0 = 0 → a1 = 0 → inStacked (gibOf a2) = true → inLpddr (gibOf a3) = true → cOp r = 1 → restZero r = true →
        (∀ p ∈ s.sys.parts, p.id ≠ 8 → ∀ x ∈ [p.stacked, p.lpddr], gibMeet (gibOf a2) x = false ∧ gibMeet (gibOf a3) x = false) →
        ∃ u, exec (.partdef slot) s0 = .next u ∧ u.sys.shared = (gibOf a2, gibOf a3) ∧ u.hart = s.hart ∧
          ∀ k, u.byte k = if inRanges [gibOf a2, gibOf a3] k = true ∧ inRanges [s.sys.shared.1, s.sys.shared.2] k = false then newByte (s.keyNumber 15) k else s.byte k)) ∧
    (part ≤ 7 → a0 ≤ 2 → a1 ≤ 1 → a2 = 0 → a3 = 0 → run (.mode slot) 6 { s with sys := { s.sys with modes := Sparse.put 0 s.sys.modes (3 * part + a0) a1 } } 0) ∧
    (part ≤ 7 → a0 = 0 → a1 = 0 → a2 = 0 → a3 = 0 → (s.partAt part = none → run (.partdef slot) 1 s 3) ∧ ∀ p, s.partAt part = some p →
      ((∃ t ∈ s.sys.tasks, t.part = part) ∨ (∃ q : Fin 16, p.queues.get q ≠ []) → run (.partdef slot) 1 s 3) ∧
      ((∀ t ∈ s.sys.tasks, t.part ≠ part) → (∀ q : Fin 16, p.queues.get q = []) → cOp r = 1 → restZero r = true → ∃ u, exec (.partdef slot) s0 = .next u ∧
        u.partAt part = none ∧ (∀ x ∈ u.sys.keys, x.1 ≠ part + 1) ∧ (∀ x ∈ u.eng.streams, x.part ≠ part) ∧ (∀ x ∈ u.eng.combiners, x.part ≠ part) ∧
        SameBytes s u ∧ u.hart = s.hart)) ∧
    (part ≤ 7 → a0 = 1 → ∀ l, s.bufBytes a1 20 = some l → let m := BitVec.ofNat 160 (bytesNat l)
      ((inStacked (gibOf a2) && inLpddr (gibOf a3)) = false → run (.partdef slot) 1 s 2) ∧
      (inStacked (gibOf a2) = true → inLpddr (gibOf a3) = true → (s.partAt part ≠ none → run (.partdef slot) 1 s 3) ∧
        (s.partAt part = none → s.sys.boot.lacks m = false → (∀ p ∈ s.sys.parts, p.clusters &&& m = 0) →
          (∀ x ∈ s.heldRanges 8 true, gibMeet (gibOf a2) x = false ∧ gibMeet (gibOf a3) x = false) → cOp r = 1 → restZero r = true →
          let host := s.hostMode part 2
          (host = true → 64 ≤ (s.sys.posts.filter fun q => !q.popped).length → exec (.partdef slot) s0 = .next (s.kept 1 (.command slot))) ∧
          (host = false ∨ (s.sys.posts.filter fun q => !q.popped).length < 64 → ∃ u, exec (.partdef slot) s0 = .next u ∧
            u.partAt part = some (newPart part m (gibOf a2) (gibOf a3) host) ∧ u.sys.boot.complete = true ∧ u.hart = s.hart ∧
            u.sys.keys = (if host then [] else [(part + 1, Config.freshKey s.env.free)]) ++ s.sys.keys.filter (·.1 ≠ part + 1) ∧
            u.sys.posts = s.sys.posts ++ (if host then [{ seq := s.sys.nextSeq, kind := 2, part := part, id := part + 1, words := [], popped := false, verdict := none }] else []) ∧
            ∀ k, u.byte k = if inRanges [gibOf a2, gibOf a3] k then newByte (if host then 0 else (Config.freshKey s.env.free).toNat + 2) k else s.byte k)))))


/-- R387, R388: a detected error is logged with its time and class pending, a corrected one counted at its place, and the structure waits
for its test, out of service; R383: an uncorrectable one in DRAM makes its line read as ECC. R388, R389: a test that passes makes the class
transient and puts the structure back; a failing one takes a spare into the repair map, and a row with none left is fenced off; R393: in the
host mode the VERDICT decides. R383: a link retrains after the sixteenth replay, and carries its traffic again once that completes; R361: a
module whose link is down, and whose accesses have waited their time, answers ECC. R361: another module's load and store are performed only for
a listed peer. R389, R391, R392: a reset keeps the repair map, the boot journal and what is retired and, with an image that is accepted, runs it at
its ENTRY; a refused image leaves step 1 for its alternative, the last image accepted; a step that hangs resets the device, and stops it when its
alternative hangs too; during the firmware's bring-up the journal stands at a step that the spec does not give. The numbers of boot steps
and of image sources are the model's (log entries 109 and 169), as are the numbers of the die-to-die links, from 8 up (155), and of flits (168),
the place of an error in its unit (95), and a column's row in the list of those fenced off (164). -/
def Obligations.IntegritySteps : Prop :=
  (∀ (s : State) (er : BitVec 256) (what : Tested), recUnit er ≠ 9 → recUnit er ≠ 10 → let r := freshRecord s.env.cycle er
    let at_ := if recUnit er ∈ [0, 1, 6, 7, 8, 11] then lineOf (dramKey (recAddr er)) else recAddr er
    bytesAt r 0 8 = s.env.cycle % 2 ^ 64 ∧ recClass r = 0 ∧ recKind r = recKind er ∧ recUnit r = recUnit er ∧ recWhere r = recWhere er ∧
    recAddr r = (if recUnit er ∈ [0, 1, 6, 7, 8, 11] then recAddr er else 0) ∧
    (recKind er ≤ 1 → ∃ u, exec (.errorDetected er what) s = .next u ∧
      (recKind er = 0 → u.sys.errors = (if s.sys.errors.length < 1024 then s.sys.errors else s.sys.errors.drop 1) ++ [r] ∧
        u.sys.pending = s.sys.pending ++ [{ er := r, what := what, place := at_ }] ∧ u.mem = s.mem ∧ u.hart = s.hart ∧ u.coh = s.coh ∧
        u.sys.corrected = s.sys.corrected ++ [(locationOf r at_, s.env.cycle)] ∧
        (∀ q, what = .quad q → (u.coreAt (recWhere r)).outQuads = (s.coreAt (recWhere r)).outQuads ||| BitVec.ofNat 8 (2 ^ (q % 8))) ∧
        (what = .core → (u.coreAt (recWhere r)).out = true)) ∧
      (recKind er = 1 → recUnit er = 7 ∨ recUnit er = 8 →
        u.sys.errors = (if s.sys.errors.length < 1024 then s.sys.errors else s.sys.errors.drop 1) ++ [r] ∧
        u.sys.pending = s.sys.pending ++ [{ er := r, what := what, place := at_ }] ∧ u.mem = s.mem ∧
        ∀ i, i < 64 → u.poisoned (dramKey (recAddr r) / 64 * 64 + i) 1 = true))) ∧
  (∀ (s : State) (er : BitVec 256) (l l' : List PendingTest) (p : PendingTest), s.sys.pending = l ++ p :: l' →
    (∀ q ∈ l, locationOf q.er 0 ≠ locationOf er 0) → p ∉ l → locationOf p.er 0 = locationOf er 0 →
    (∀ q ∈ l ++ l', q.what = p.what → recUnit q.er = recUnit p.er → recWhere q.er ≠ recWhere p.er) →
    (p.what = .core ∨ p.what = .cluster → ∀ hl ∈ s.coh.homes, hl.serving = [] ∧ hl.locked = false) →
    let same := fun (r : BitVec 256) (q : PendingTest) => withClass r 0 = withClass q.er 0
    let passed := fun u : State => u.mem = s.mem ∧ u.hart = s.hart ∧ u.coh = s.coh ∧ u.sys.pending = l ++ l' ∧ u.sys.repair = s.sys.repair ∧
      u.sys.errors = s.sys.errors.map fun r => if same r p then withClass r 1 else r
    let retired := fun (c : Nat) (u : State) => u.sys.pending = s.sys.pending.filter (fun q => !q.within p) ∧
      u.sys.errors = s.sys.errors.map (fun r => if ∃ q ∈ s.sys.tested, q.within p = true ∧ same r q then withClass r c else r) ∧
      (p.what = .core → (u.coreAt (recWhere p.er)).fenced = true) ∧ (∀ q, p.what = .quad q → q < 8 → (u.coreAt (recWhere p.er)).deadQuads.getLsbD q = true) ∧
      (p.what = .channel → channelOf p.place ∈ u.coh.dead)
    (s.sys.hostErrors = false → s.testable p = true → ∀ spare,
      (s.thrice p = false → ∃ u, exec (.selfTestComplete er false spare) s = .next u ∧ passed u ∧
        (p.what = .core → (u.coreAt (recWhere p.er)).out = (s.coreAt (recWhere p.er)).fenced)) ∧
      (∀ failed, failed = true ∨ s.thrice p = true → (∀ n ∈ s.spares p, spare = some n → s.sys.repair.length < 4096 →
          ∃ u, exec (.selfTestComplete er failed spare) s = .next u ∧ retired 2 u ∧ u.sys.repair = s.sys.repair ++ [repairEntry p.er n s.env.cycle]) ∧
        (s.spares p = [] ∨ 4096 ≤ s.sys.repair.length → ∃ u, exec (.selfTestComplete er failed spare) s = .next u ∧ retired 3 u ∧
          u.sys.repair = s.sys.repair ∧ (p.what = .row → (recUnit p.er, recWhere p.er, p.place) ∈ u.coh.deadRows) ∧
          (p.what = .column → (recUnit p.er + 16, recWhere p.er, p.place) ∈ u.coh.deadRows)))) ∧
    (∀ w : BitVec 128, s.sys.hostErrors = true → w.toNat / 2 ^ 96 = 1 → l = [] → bytesAt w 0 8 = recAddr p.er →
      bytesAt w 8 2 = recWhere p.er → bytesAt w 10 2 = recUnit p.er → (∀ q ∈ l', ¬ (recAddr q.er = recAddr p.er ∧ recWhere q.er = recWhere p.er ∧ recUnit q.er = recUnit p.er)) →
      ∃ u, exec (.verdict w) s = .next u ∧ passed u)) ∧
  (∀ (s : State) (n : Nat), (∀ flit, n < 65536 → let before := Sparse.get 0 s.coh.replays n
    let seen := if before / 32 = flit then before % 32 + 1 else 1
    s.coh.retrain.any (· == n) = false → ∃ u r, exec (.flitReplay (n + 65536 * flit)) s = .next u ∧ u.mem = s.mem ∧ u.hart = s.hart ∧
      u.sys.errors = (if s.sys.errors.length < 1024 then s.sys.errors else s.sys.errors.drop 1) ++ [r] ∧
      if seen < 16 then u.coh = { s.coh with replays := Sparse.put 0 s.coh.replays n (32 * flit + seen) }
      else u.coh = { s.coh with retrain := n :: s.coh.retrain, replays := Sparse.put 0 s.coh.replays n 0 }) ∧
    (∃ u, exec (.linkRetrainComplete n) s = .next u ∧ u.mem = s.mem ∧ u.hart = s.hart ∧ n ∉ u.coh.retrain ∧ (∀ m, m ≠ n → (m ∈ u.coh.retrain ↔ m ∈ s.coh.retrain)) ∧
      (∀ m, m ∈ u.coh.down ↔ m ∈ s.coh.down ∧ Config.port m ≠ n) ∧ ∀ m ∈ u.coh.expired, m ≠ 256 + n ∧ (m < 256 → Config.port m ≠ n)) ∧
    (∃ u, exec (.linkDown n) s = .next u ∧ u.routeDown n = true ∧ u.mem = s.mem ∧ u.hart = s.hart) ∧
    (n < 256 → s.routeDown n = true → ∃ u, exec (.remoteAccessTimeout n) s = .next u ∧ u.mem = s.mem ∧ u.hart = s.hart ∧
      ∀ loc len, loc.module = n → u.remoteReady loc len = .fault .ecc) ∧
    (n ∈ s.coh.retrain → ∃ u, exec (.remoteAccessTimeout (256 + n)) s = .next u ∧ u.mem = s.mem ∧ u.hart = s.hart ∧
      ∀ core line, core / 160 ≠ homeSlice line / 64 → n = 8 + Config.dieLink (core / 160) (homeSlice line / 64) → u.fabricDown core line = some (.fault .ecc))) ∧
  (∀ (s : State) (module pa n : Nat) (d : BitVec 512) (p : Partition), s.env.again = false → let kid := pa / 2 ^ 48 % 16
    let key := dramKey (pa % 2 ^ 52)
    let waits := fun op => exec (.remoteRequest module pa op) s = .next (s.kept (16 + module) (.remote module pa op))
    ((∃ x ∈ s.sys.waiting, x.1 = 16 + module) → ∀ op, waits op) ∧
    ((∀ x ∈ s.sys.waiting, x.1 ≠ 16 + module) → s.partAt (kid - 1) = some p →
      (kid = 0 ∨ module ∉ p.peers ∨ s.owns p.id (pa % 2 ^ 52) false = false → ∀ op, exec (.remoteRequest module pa op) s = .next s) ∧
      (0 < kid → module ∈ p.peers → s.owns p.id (pa % 2 ^ 52) false = true → (p.keyWait = true → ∀ op, waits op) ∧
        (p.keyWait = false → 0 < n → pa % 64 + n ≤ 64 → Memory.wf s.mem = true → Unowned s (lineOf key) (wordMask key n) →
          exec (.remoteRequest module pa (.load n)) s = .next s ∧ ∃ u, exec (.remoteRequest module pa (.store n d)) s = .next u ∧
          u.memNat key n = d.toNat % 2 ^ (8 * n) ∧ KeepsBytes key n s u ∧ u.hart = s.hart)))) ∧
  (∀ (s : State) (image : Nat), let b := s.sys.boot
    let kept := fun (u : State) => u.mem = [] ∧ u.hart = Hart.empty 0 ∧ u.others = [] ∧ u.places = [] ∧ u.sys.parts = [] ∧ u.sys.tasks = [] ∧
      u.sys.repair = s.sys.repair ∧ u.coh.gone = s.coh.dead ++ s.coh.gone ∧ u.coh.deadRows = s.coh.deadRows
    let runs := fun (u : State) (i : Nat) (d : BitVec 512) => u.sys.boot.running = true ∧ u.sys.boot.identity = some d ∧ u.sys.boot.begun = none ∧
      u.sys.boot.accepted = some i ∧ u.sys.boot.entry.toNat = fileField (Config.bootImage i) 72 8 % 2 ^ 64
    let idle := fun (u : State) => u.sys.boot.running = false ∧ u.sys.boot.identity = none ∧ u.sys.boot.accepted = b.accepted
    (b.begun = none → b.running = false ∨ b.complete = true → b.undone 0 = [] → ∃ u, exec (.reset image) s = .next u ∧ kept u ∧ u.sys.boot.stopped = b.stopped ∧ let i := b.source [] image
      match imageDigest (Config.bootImage i) with
      | some d => runs u i d
      | none => idle u ∧ u.sys.boot.begun = some 1) ∧
    (b.begun = some 1 → b.running = false ∨ b.complete = true → b.undone 0 = [] → ∃ u, exec (.reset image) s = .next u ∧ kept u ∧ u.sys.boot.alternatives = [1] ∧
      (∀ i d, b.accepted = some i → imageDigest (Config.bootImage i) = some d → runs u i d) ∧ (b.accepted = none → idle u ∧ u.sys.boot.stopped = true)) ∧
    (∀ n, b.begun = some n → b.running = false ∨ b.complete = true → n ∈ b.undone 0 → ∃ u, exec (.reset image) s = .next u ∧ u.sys.boot.stopped = true ∧ u.sys.boot.running = false) ∧
    (b.running = true → b.complete = false → let k := Config.bootStep s.env.free % 13
      let n := 2 + k / 2
      (k % 2 = 1 → n ∈ b.undone n → ∃ u, exec (.reset image) s = .next u ∧ u.sys.boot.stopped = true ∧ u.sys.boot.running = false) ∧
      (k % 2 = 1 → n ∉ b.undone n → ∃ u, exec (.reset image) s = .next u ∧ kept u ∧ u.sys.boot.alternatives = n :: b.undone n) ∧
      (k % 2 = 0 → ∃ u, exec (.reset image) s = .next u ∧ kept u ∧ u.sys.boot.alternatives = b.undone n)) ∧
    (∀ n, (n < 2 ∧ b.running = false ∧ (n = 0 → b.bootHost = false)) ∨ (2 ≤ n ∧ n < 8 ∧ b.running = true ∧ b.complete = false) →
      (n ∉ b.undone n → ∃ u, exec (.bootWatchdogExpiry n) s = .next u ∧ kept u ∧
        u.sys.boot = { b with identity := none, entry := 0, running := false, complete := false, begun := some n, alternatives := b.undone n }) ∧
      (n ∈ b.undone n → ∃ u, exec (.bootWatchdogExpiry n) s = .next u ∧ u.sys.boot.stopped = true)))



/-! ### Reset and invariants -/

/-- R391, R347: after reset no partition, task, hart or place exists and no engine works. R292: every word is unregistered at its home. R393:
every function of every partition is in its hardware mode. R4, R21 give a task's start x 0, FLAGS 0 and EIX 0xFFFF; that an empty slot's hart holds them already is the model's choice (log entry 5).
R327: no queue has been served. Memory lists nothing and reads 0 (log entry 2, the model's choice), and, like every place, is in the
canonical form that StepKeepsCanonical keeps. -/
def Obligations.ResetState : Prop :=
  let s := State.reset
  Memory.wf s.mem = true ∧ s.placesCanonical = true ∧ (∀ k, s.byte k = 0) ∧
  s.sys.parts = [] ∧ s.sys.tasks = [] ∧ s.others = [] ∧ s.places = [] ∧ s.hart.status = .empty ∧ s.sys.boot.running = false ∧
  s.sys.boot.complete = false ∧ s.sys.boot.stopped = false ∧ s.sys.waiting = [] ∧ s.sys.events = [] ∧ s.sys.errors = [] ∧ s.sys.pending = [] ∧ s.coh.egress = [] ∧
  s.eng.copies = [] ∧ s.eng.sessions = [] ∧ s.eng.lists = [] ∧ s.eng.streams = [] ∧ s.coh.net = [] ∧
  (∀ line i, (s.homeAt line).word i = .unreg) ∧ (∀ part fn, s.hostMode part fn = false) ∧ s.sys.hostErrors = false ∧
  (∀ r, s.get r = 0) ∧ s.hart.fl.flags = 0 ∧ (∀ i : Fin 6, s.hart.fl.eix.get i = 0xFFFF) ∧
  (∀ id clusters a b w, (newPart id clusters a b w).lastQueue = Vector.replicate 4 none)

/-- Every step that answers a next state keeps memory in its canonical form (keys strictly rising, no entry 0), and keeps the tiles, side
arrays, slots and sidebands of every place, of the machine and of the saved tasks, in theirs. So equal contents are equal data, and a
read after a write of the same byte gives what was written (R284) in every state that a run reaches: the premise `Memory.wf` of the other
statements. The form is the model's; log entry 2 says what an unlisted byte reads as. -/
def Obligations.StepKeepsCanonical : Prop :=
  ∀ s t : State, Memory.wf s.mem = true → s.placesCanonical = true → step s = .next t → Memory.wf t.mem = true ∧ t.placesCanonical = true
end

