-- ==== Sys2Proof/Laws/State.lean ====
section
/-! SUPPORT. What each update of the state, and of a hart, does to each field. -/
namespace Sys2Proof.Machine


/-! `State.onHart` -/
@[simp] theorem State.onHart_hart (s : State) (f : Hart → Hart) : (s.onHart f).hart = f s.hart := rfl
@[simp] theorem State.onHart_others (s : State) (f : Hart → Hart) : (s.onHart f).others = s.others := rfl
@[simp] theorem State.onHart_places (s : State) (f : Hart → Hart) : (s.onHart f).places = s.places := rfl
@[simp] theorem State.onHart_cores (s : State) (f : Hart → Hart) : (s.onHart f).cores = s.cores := rfl
@[simp] theorem State.onHart_mem (s : State) (f : Hart → Hart) : (s.onHart f).mem = s.mem := rfl
@[simp] theorem State.onHart_coh (s : State) (f : Hart → Hart) : (s.onHart f).coh = s.coh := rfl
@[simp] theorem State.onHart_eng (s : State) (f : Hart → Hart) : (s.onHart f).eng = s.eng := rfl
@[simp] theorem State.onHart_sys (s : State) (f : Hart → Hart) : (s.onHart f).sys = s.sys := rfl
@[simp] theorem State.onHart_env (s : State) (f : Hart → Hart) : (s.onHart f).env = s.env := rfl

/-! `State.set` -/
@[simp] theorem State.set_hart (s : State) (r : Reg) (w : Word) : (s.set r w).hart = s.hart.set r w := rfl
@[simp] theorem State.set_others (s : State) (r : Reg) (w : Word) : (s.set r w).others = s.others := rfl
@[simp] theorem State.set_places (s : State) (r : Reg) (w : Word) : (s.set r w).places = s.places := rfl
@[simp] theorem State.set_cores (s : State) (r : Reg) (w : Word) : (s.set r w).cores = s.cores := rfl
@[simp] theorem State.set_mem (s : State) (r : Reg) (w : Word) : (s.set r w).mem = s.mem := rfl
@[simp] theorem State.set_coh (s : State) (r : Reg) (w : Word) : (s.set r w).coh = s.coh := rfl
@[simp] theorem State.set_eng (s : State) (r : Reg) (w : Word) : (s.set r w).eng = s.eng := rfl
@[simp] theorem State.set_sys (s : State) (r : Reg) (w : Word) : (s.set r w).sys = s.sys := rfl
@[simp] theorem State.set_env (s : State) (r : Reg) (w : Word) : (s.set r w).env = s.env := rfl

/-! `State.advance` -/
@[simp] theorem State.advance_hart (s : State) : (s.advance).hart = s.hart.goto (s.hart.pc + 4) .other := rfl
@[simp] theorem State.advance_others (s : State) : (s.advance).others = s.others := rfl
@[simp] theorem State.advance_places (s : State) : (s.advance).places = s.places := rfl
@[simp] theorem State.advance_cores (s : State) : (s.advance).cores = s.cores := rfl
@[simp] theorem State.advance_mem (s : State) : (s.advance).mem = s.mem := rfl
@[simp] theorem State.advance_coh (s : State) : (s.advance).coh = s.coh := rfl
@[simp] theorem State.advance_eng (s : State) : (s.advance).eng = s.eng := rfl
@[simp] theorem State.advance_sys (s : State) : (s.advance).sys = s.sys := rfl
@[simp] theorem State.advance_env (s : State) : (s.advance).env = s.env := rfl

/-! `State.jump` -/
@[simp] theorem State.jump_hart (s : State) (w : Word) : (s.jump w).hart = s.hart.goto w .fresh := rfl
@[simp] theorem State.jump_others (s : State) (w : Word) : (s.jump w).others = s.others := rfl
@[simp] theorem State.jump_places (s : State) (w : Word) : (s.jump w).places = s.places := rfl
@[simp] theorem State.jump_cores (s : State) (w : Word) : (s.jump w).cores = s.cores := rfl
@[simp] theorem State.jump_mem (s : State) (w : Word) : (s.jump w).mem = s.mem := rfl
@[simp] theorem State.jump_coh (s : State) (w : Word) : (s.jump w).coh = s.coh := rfl
@[simp] theorem State.jump_eng (s : State) (w : Word) : (s.jump w).eng = s.eng := rfl
@[simp] theorem State.jump_sys (s : State) (w : Word) : (s.jump w).sys = s.sys := rfl
@[simp] theorem State.jump_env (s : State) (w : Word) : (s.jump w).env = s.env := rfl

/-! `State.waitFor` -/
@[simp] theorem State.waitFor_hart (s : State) (w : Wait) : (s.waitFor w).hart = { s.hart with wait := some w } := rfl
@[simp] theorem State.waitFor_others (s : State) (w : Wait) : (s.waitFor w).others = s.others := rfl
@[simp] theorem State.waitFor_places (s : State) (w : Wait) : (s.waitFor w).places = s.places := rfl
@[simp] theorem State.waitFor_cores (s : State) (w : Wait) : (s.waitFor w).cores = s.cores := rfl
@[simp] theorem State.waitFor_mem (s : State) (w : Wait) : (s.waitFor w).mem = s.mem := rfl
@[simp] theorem State.waitFor_coh (s : State) (w : Wait) : (s.waitFor w).coh = s.coh := rfl
@[simp] theorem State.waitFor_eng (s : State) (w : Wait) : (s.waitFor w).eng = s.eng := rfl
@[simp] theorem State.waitFor_sys (s : State) (w : Wait) : (s.waitFor w).sys = s.sys := rfl
@[simp] theorem State.waitFor_env (s : State) (w : Wait) : (s.waitFor w).env = s.env := rfl

/-! `State.onHarts` -/
@[simp] theorem State.onHarts_hart (s : State) (p : Hart → Bool) (f : Hart → Hart) : (s.onHarts p f).hart = if p s.hart then f s.hart else s.hart := rfl
@[simp] theorem State.onHarts_others (s : State) (p : Hart → Bool) (f : Hart → Hart) : (s.onHarts p f).others = updIf p f s.others := rfl
@[simp] theorem State.onHarts_places (s : State) (p : Hart → Bool) (f : Hart → Hart) : (s.onHarts p f).places = s.places := rfl
@[simp] theorem State.onHarts_cores (s : State) (p : Hart → Bool) (f : Hart → Hart) : (s.onHarts p f).cores = s.cores := rfl
@[simp] theorem State.onHarts_mem (s : State) (p : Hart → Bool) (f : Hart → Hart) : (s.onHarts p f).mem = s.mem := rfl
@[simp] theorem State.onHarts_coh (s : State) (p : Hart → Bool) (f : Hart → Hart) : (s.onHarts p f).coh = s.coh := rfl
@[simp] theorem State.onHarts_eng (s : State) (p : Hart → Bool) (f : Hart → Hart) : (s.onHarts p f).eng = s.eng := rfl
@[simp] theorem State.onHarts_sys (s : State) (p : Hart → Bool) (f : Hart → Hart) : (s.onHarts p f).sys = s.sys := rfl
@[simp] theorem State.onHarts_env (s : State) (p : Hart → Bool) (f : Hart → Hart) : (s.onHarts p f).env = s.env := rfl

/-! `State.onCore` -/
@[simp] theorem State.onCore_hart (s : State) (n : Nat) (f : Core → Core) : (s.onCore n f).hart = s.hart := rfl
@[simp] theorem State.onCore_others (s : State) (n : Nat) (f : Core → Core) : (s.onCore n f).others = s.others := rfl
@[simp] theorem State.onCore_places (s : State) (n : Nat) (f : Core → Core) : (s.onCore n f).places = s.places := rfl
@[simp] theorem State.onCore_cores (s : State) (n : Nat) (f : Core → Core) : (s.onCore n f).cores = putFirst (·.id == n) (f (s.coreAt n)) s.cores := rfl
@[simp] theorem State.onCore_mem (s : State) (n : Nat) (f : Core → Core) : (s.onCore n f).mem = s.mem := rfl
@[simp] theorem State.onCore_coh (s : State) (n : Nat) (f : Core → Core) : (s.onCore n f).coh = s.coh := rfl
@[simp] theorem State.onCore_eng (s : State) (n : Nat) (f : Core → Core) : (s.onCore n f).eng = s.eng := rfl
@[simp] theorem State.onCore_sys (s : State) (n : Nat) (f : Core → Core) : (s.onCore n f).sys = s.sys := rfl
@[simp] theorem State.onCore_env (s : State) (n : Nat) (f : Core → Core) : (s.onCore n f).env = s.env := rfl

/-! `State.onPlace` -/
@[simp] theorem State.onPlace_hart (s : State) (t c : Nat) (f : Place → Place) : (s.onPlace t c f).hart = s.hart := rfl
@[simp] theorem State.onPlace_others (s : State) (t c : Nat) (f : Place → Place) : (s.onPlace t c f).others = s.others := rfl
@[simp] theorem State.onPlace_places (s : State) (t c : Nat) (f : Place → Place) : (s.onPlace t c f).places = updIf (fun p => p.task == t && p.core == c) f s.places := rfl
@[simp] theorem State.onPlace_cores (s : State) (t c : Nat) (f : Place → Place) : (s.onPlace t c f).cores = s.cores := rfl
@[simp] theorem State.onPlace_mem (s : State) (t c : Nat) (f : Place → Place) : (s.onPlace t c f).mem = s.mem := rfl
@[simp] theorem State.onPlace_coh (s : State) (t c : Nat) (f : Place → Place) : (s.onPlace t c f).coh = s.coh := rfl
@[simp] theorem State.onPlace_eng (s : State) (t c : Nat) (f : Place → Place) : (s.onPlace t c f).eng = s.eng := rfl
@[simp] theorem State.onPlace_sys (s : State) (t c : Nat) (f : Place → Place) : (s.onPlace t c f).sys = s.sys := rfl
@[simp] theorem State.onPlace_env (s : State) (t c : Nat) (f : Place → Place) : (s.onPlace t c f).env = s.env := rfl

/-! `State.onTask` -/
@[simp] theorem State.onTask_hart (s : State) (t : Nat) (f : Task → Task) : (s.onTask t f).hart = s.hart := rfl
@[simp] theorem State.onTask_others (s : State) (t : Nat) (f : Task → Task) : (s.onTask t f).others = s.others := rfl
@[simp] theorem State.onTask_places (s : State) (t : Nat) (f : Task → Task) : (s.onTask t f).places = s.places := rfl
@[simp] theorem State.onTask_cores (s : State) (t : Nat) (f : Task → Task) : (s.onTask t f).cores = s.cores := rfl
@[simp] theorem State.onTask_mem (s : State) (t : Nat) (f : Task → Task) : (s.onTask t f).mem = s.mem := rfl
@[simp] theorem State.onTask_coh (s : State) (t : Nat) (f : Task → Task) : (s.onTask t f).coh = s.coh := rfl
@[simp] theorem State.onTask_eng (s : State) (t : Nat) (f : Task → Task) : (s.onTask t f).eng = s.eng := rfl
@[simp] theorem State.onTask_sys (s : State) (t : Nat) (f : Task → Task) : (s.onTask t f).sys = { s.sys with tasks := updIf (·.id == t) f s.sys.tasks } := rfl
@[simp] theorem State.onTask_env (s : State) (t : Nat) (f : Task → Task) : (s.onTask t f).env = s.env := rfl

/-! `State.onPart` -/
@[simp] theorem State.onPart_hart (s : State) (t : Nat) (f : Partition → Partition) : (s.onPart t f).hart = s.hart := rfl
@[simp] theorem State.onPart_others (s : State) (t : Nat) (f : Partition → Partition) : (s.onPart t f).others = s.others := rfl
@[simp] theorem State.onPart_places (s : State) (t : Nat) (f : Partition → Partition) : (s.onPart t f).places = s.places := rfl
@[simp] theorem State.onPart_cores (s : State) (t : Nat) (f : Partition → Partition) : (s.onPart t f).cores = s.cores := rfl
@[simp] theorem State.onPart_mem (s : State) (t : Nat) (f : Partition → Partition) : (s.onPart t f).mem = s.mem := rfl
@[simp] theorem State.onPart_coh (s : State) (t : Nat) (f : Partition → Partition) : (s.onPart t f).coh = s.coh := rfl
@[simp] theorem State.onPart_eng (s : State) (t : Nat) (f : Partition → Partition) : (s.onPart t f).eng = s.eng := rfl
@[simp] theorem State.onPart_sys (s : State) (t : Nat) (f : Partition → Partition) : (s.onPart t f).sys = { s.sys with parts := updIf (·.id == t) f s.sys.parts } := rfl
@[simp] theorem State.onPart_env (s : State) (t : Nat) (f : Partition → Partition) : (s.onPart t f).env = s.env := rfl

/-! `State.putNat` -/
@[simp] theorem State.putNat_hart (s : State) (k n v : Nat) : (s.putNat k n v).hart = s.hart := rfl
@[simp] theorem State.putNat_others (s : State) (k n v : Nat) : (s.putNat k n v).others = s.others := rfl
@[simp] theorem State.putNat_places (s : State) (k n v : Nat) : (s.putNat k n v).places = s.places := rfl
@[simp] theorem State.putNat_cores (s : State) (k n v : Nat) : (s.putNat k n v).cores = s.cores := rfl
@[simp] theorem State.putNat_mem (s : State) (k n v : Nat) : (s.putNat k n v).mem = memPutBytes s.mem k (storedBytes s.sys.pads k (natBytes n v)) := rfl
@[simp] theorem State.putNat_coh (s : State) (k n v : Nat) : (s.putNat k n v).coh = s.coh := rfl
@[simp] theorem State.putNat_eng (s : State) (k n v : Nat) : (s.putNat k n v).eng = s.eng := rfl
@[simp] theorem State.putNat_sys (s : State) (k n v : Nat) : (s.putNat k n v).sys = s.sys := rfl
@[simp] theorem State.putNat_env (s : State) (k n v : Nat) : (s.putNat k n v).env = s.env := rfl

/-! `State.applyBytes` -/
@[simp] theorem State.applyBytes_hart (s : State) (l : List (Nat × Byte)) : (s.applyBytes l).hart = s.hart := rfl
@[simp] theorem State.applyBytes_others (s : State) (l : List (Nat × Byte)) : (s.applyBytes l).others = s.others := rfl
@[simp] theorem State.applyBytes_places (s : State) (l : List (Nat × Byte)) : (s.applyBytes l).places = s.places := rfl
@[simp] theorem State.applyBytes_cores (s : State) (l : List (Nat × Byte)) : (s.applyBytes l).cores = s.cores := rfl
@[simp] theorem State.applyBytes_mem (s : State) (l : List (Nat × Byte)) : (s.applyBytes l).mem = l.foldl (fun m b => memPut m b.1 (b.2 ^^^ padOf s.sys.pads b.1)) s.mem := rfl
@[simp] theorem State.applyBytes_coh (s : State) (l : List (Nat × Byte)) : (s.applyBytes l).coh = s.coh := rfl
@[simp] theorem State.applyBytes_eng (s : State) (l : List (Nat × Byte)) : (s.applyBytes l).eng = s.eng := rfl
@[simp] theorem State.applyBytes_sys (s : State) (l : List (Nat × Byte)) : (s.applyBytes l).sys = s.sys := rfl
@[simp] theorem State.applyBytes_env (s : State) (l : List (Nat × Byte)) : (s.applyBytes l).env = s.env := rfl

/-! `State.applyLine` -/
@[simp] theorem State.applyLine_hart (s : State) (line : Nat) (m : BitVec 64) (d : BitVec 512) : (s.applyLine line m d).hart = s.hart := rfl
@[simp] theorem State.applyLine_others (s : State) (line : Nat) (m : BitVec 64) (d : BitVec 512) : (s.applyLine line m d).others = s.others := rfl
@[simp] theorem State.applyLine_places (s : State) (line : Nat) (m : BitVec 64) (d : BitVec 512) : (s.applyLine line m d).places = s.places := rfl
@[simp] theorem State.applyLine_cores (s : State) (line : Nat) (m : BitVec 64) (d : BitVec 512) : (s.applyLine line m d).cores = s.cores := rfl
@[simp] theorem State.applyLine_mem (s : State) (line : Nat) (m : BitVec 64) (d : BitVec 512) : (s.applyLine line m d).mem = (maskedBytes line m d).foldl (fun m b => memPut m b.1 (b.2 ^^^ padOf s.sys.pads b.1)) s.mem := rfl
@[simp] theorem State.applyLine_coh (s : State) (line : Nat) (m : BitVec 64) (d : BitVec 512) : (s.applyLine line m d).coh = s.coh := rfl
@[simp] theorem State.applyLine_eng (s : State) (line : Nat) (m : BitVec 64) (d : BitVec 512) : (s.applyLine line m d).eng = s.eng := rfl
@[simp] theorem State.applyLine_sys (s : State) (line : Nat) (m : BitVec 64) (d : BitVec 512) : (s.applyLine line m d).sys = s.sys := rfl
@[simp] theorem State.applyLine_env (s : State) (line : Nat) (m : BitVec 64) (d : BitVec 512) : (s.applyLine line m d).env = s.env := rfl

/-! `State.onHome` -/
@[simp] theorem State.onHome_hart (s : State) (line : Nat) (f : HomeLine → HomeLine) : (s.onHome line f).hart = s.hart := rfl
@[simp] theorem State.onHome_others (s : State) (line : Nat) (f : HomeLine → HomeLine) : (s.onHome line f).others = s.others := rfl
@[simp] theorem State.onHome_places (s : State) (line : Nat) (f : HomeLine → HomeLine) : (s.onHome line f).places = s.places := rfl
@[simp] theorem State.onHome_cores (s : State) (line : Nat) (f : HomeLine → HomeLine) : (s.onHome line f).cores = s.cores := rfl
@[simp] theorem State.onHome_mem (s : State) (line : Nat) (f : HomeLine → HomeLine) : (s.onHome line f).mem = s.mem := rfl
@[simp] theorem State.onHome_eng (s : State) (line : Nat) (f : HomeLine → HomeLine) : (s.onHome line f).eng = s.eng := rfl
@[simp] theorem State.onHome_sys (s : State) (line : Nat) (f : HomeLine → HomeLine) : (s.onHome line f).sys = s.sys := rfl
@[simp] theorem State.onHome_env (s : State) (line : Nat) (f : HomeLine → HomeLine) : (s.onHome line f).env = s.env := rfl

/-! `State.noteWrite` -/
@[simp] theorem State.noteWrite_hart (s : State) (line : Nat) (k : Option Nat) : (s.noteWrite line k).hart = s.hart := rfl
@[simp] theorem State.noteWrite_others (s : State) (line : Nat) (k : Option Nat) : (s.noteWrite line k).others = s.others := rfl
@[simp] theorem State.noteWrite_places (s : State) (line : Nat) (k : Option Nat) : (s.noteWrite line k).places = s.places := rfl
@[simp] theorem State.noteWrite_cores (s : State) (line : Nat) (k : Option Nat) : (s.noteWrite line k).cores = s.cores := rfl
@[simp] theorem State.noteWrite_mem (s : State) (line : Nat) (k : Option Nat) : (s.noteWrite line k).mem = s.mem := rfl
@[simp] theorem State.noteWrite_eng (s : State) (line : Nat) (k : Option Nat) : (s.noteWrite line k).eng = s.eng := rfl
@[simp] theorem State.noteWrite_sys (s : State) (line : Nat) (k : Option Nat) : (s.noteWrite line k).sys = s.sys := rfl
@[simp] theorem State.noteWrite_env (s : State) (line : Nat) (k : Option Nat) : (s.noteWrite line k).env = s.env := rfl

/-! `State.clearLinks` -/
@[simp] theorem State.clearLinks_hart (s : State) (line : Nat) : (s.clearLinks line).hart = s.hart := rfl
@[simp] theorem State.clearLinks_others (s : State) (line : Nat) : (s.clearLinks line).others = s.others := rfl
@[simp] theorem State.clearLinks_places (s : State) (line : Nat) : (s.clearLinks line).places = s.places := rfl
@[simp] theorem State.clearLinks_cores (s : State) (line : Nat) : (s.clearLinks line).cores = s.cores := rfl
@[simp] theorem State.clearLinks_mem (s : State) (line : Nat) : (s.clearLinks line).mem = s.mem := rfl
@[simp] theorem State.clearLinks_eng (s : State) (line : Nat) : (s.clearLinks line).eng = s.eng := rfl
@[simp] theorem State.clearLinks_sys (s : State) (line : Nat) : (s.clearLinks line).sys = s.sys := rfl
@[simp] theorem State.clearLinks_env (s : State) (line : Nat) : (s.clearLinks line).env = s.env := rfl

/-! `State.send` -/
@[simp] theorem State.send_hart (s : State) (m : Msg) : (s.send m).hart = s.hart := rfl
@[simp] theorem State.send_others (s : State) (m : Msg) : (s.send m).others = s.others := rfl
@[simp] theorem State.send_places (s : State) (m : Msg) : (s.send m).places = s.places := rfl
@[simp] theorem State.send_cores (s : State) (m : Msg) : (s.send m).cores = s.cores := rfl
@[simp] theorem State.send_mem (s : State) (m : Msg) : (s.send m).mem = s.mem := rfl
@[simp] theorem State.send_coh (s : State) (m : Msg) : (s.send m).coh = { s.coh with net := s.coh.net ++ [m] } := rfl
@[simp] theorem State.send_eng (s : State) (m : Msg) : (s.send m).eng = s.eng := rfl
@[simp] theorem State.send_sys (s : State) (m : Msg) : (s.send m).sys = s.sys := rfl
@[simp] theorem State.send_env (s : State) (m : Msg) : (s.send m).env = s.env := rfl

/-! `State.dropMsg` -/
@[simp] theorem State.dropMsg_hart (s : State) (m : Msg) : (s.dropMsg m).hart = s.hart := rfl
@[simp] theorem State.dropMsg_others (s : State) (m : Msg) : (s.dropMsg m).others = s.others := rfl
@[simp] theorem State.dropMsg_places (s : State) (m : Msg) : (s.dropMsg m).places = s.places := rfl
@[simp] theorem State.dropMsg_cores (s : State) (m : Msg) : (s.dropMsg m).cores = s.cores := rfl
@[simp] theorem State.dropMsg_mem (s : State) (m : Msg) : (s.dropMsg m).mem = s.mem := rfl
@[simp] theorem State.dropMsg_eng (s : State) (m : Msg) : (s.dropMsg m).eng = s.eng := rfl
@[simp] theorem State.dropMsg_sys (s : State) (m : Msg) : (s.dropMsg m).sys = s.sys := rfl
@[simp] theorem State.dropMsg_env (s : State) (m : Msg) : (s.dropMsg m).env = s.env := rfl

/-! `State.takeMsg` -/
@[simp] theorem State.takeMsg_hart (s : State) (n : Nat) : (s.takeMsg n).hart = s.hart := rfl
@[simp] theorem State.takeMsg_others (s : State) (n : Nat) : (s.takeMsg n).others = s.others := rfl
@[simp] theorem State.takeMsg_places (s : State) (n : Nat) : (s.takeMsg n).places = s.places := rfl
@[simp] theorem State.takeMsg_cores (s : State) (n : Nat) : (s.takeMsg n).cores = s.cores := rfl
@[simp] theorem State.takeMsg_mem (s : State) (n : Nat) : (s.takeMsg n).mem = s.mem := rfl
@[simp] theorem State.takeMsg_coh (s : State) (n : Nat) : (s.takeMsg n).coh = { s.coh with net := s.coh.net.eraseIdx n } := rfl
@[simp] theorem State.takeMsg_eng (s : State) (n : Nat) : (s.takeMsg n).eng = s.eng := rfl
@[simp] theorem State.takeMsg_sys (s : State) (n : Nat) : (s.takeMsg n).sys = s.sys := rfl
@[simp] theorem State.takeMsg_env (s : State) (n : Nat) : (s.takeMsg n).env = s.env := rfl

/-! `State.unlink` -/
@[simp] theorem State.unlink_hart (s : State) (n : Nat) : (s.unlink n).hart = s.hart := rfl
@[simp] theorem State.unlink_others (s : State) (n : Nat) : (s.unlink n).others = s.others := rfl
@[simp] theorem State.unlink_places (s : State) (n : Nat) : (s.unlink n).places = s.places := rfl
@[simp] theorem State.unlink_cores (s : State) (n : Nat) : (s.unlink n).cores = s.cores := rfl
@[simp] theorem State.unlink_mem (s : State) (n : Nat) : (s.unlink n).mem = s.mem := rfl
@[simp] theorem State.unlink_eng (s : State) (n : Nat) : (s.unlink n).eng = s.eng := rfl
@[simp] theorem State.unlink_sys (s : State) (n : Nat) : (s.unlink n).sys = s.sys := rfl
@[simp] theorem State.unlink_env (s : State) (n : Nat) : (s.unlink n).env = s.env := rfl

/-! `State.putComb` -/
@[simp] theorem State.putComb_hart (s : State) (b : CombLine) : (s.putComb b).hart = s.hart := rfl
@[simp] theorem State.putComb_others (s : State) (b : CombLine) : (s.putComb b).others = s.others := rfl
@[simp] theorem State.putComb_places (s : State) (b : CombLine) : (s.putComb b).places = s.places := rfl
@[simp] theorem State.putComb_cores (s : State) (b : CombLine) : (s.putComb b).cores = s.cores := rfl
@[simp] theorem State.putComb_mem (s : State) (b : CombLine) : (s.putComb b).mem = s.mem := rfl
@[simp] theorem State.putComb_eng (s : State) (b : CombLine) : (s.putComb b).eng = s.eng := rfl
@[simp] theorem State.putComb_sys (s : State) (b : CombLine) : (s.putComb b).sys = s.sys := rfl
@[simp] theorem State.putComb_env (s : State) (b : CombLine) : (s.putComb b).env = s.env := rfl

/-! `State.sendRemote` -/
@[simp] theorem State.sendRemote_hart (s : State) (e : EgressEntry) : (s.sendRemote e).hart = s.hart := rfl
@[simp] theorem State.sendRemote_others (s : State) (e : EgressEntry) : (s.sendRemote e).others = s.others := rfl
@[simp] theorem State.sendRemote_places (s : State) (e : EgressEntry) : (s.sendRemote e).places = s.places := rfl
@[simp] theorem State.sendRemote_cores (s : State) (e : EgressEntry) : (s.sendRemote e).cores = s.cores := rfl
@[simp] theorem State.sendRemote_mem (s : State) (e : EgressEntry) : (s.sendRemote e).mem = s.mem := rfl
@[simp] theorem State.sendRemote_coh (s : State) (e : EgressEntry) : (s.sendRemote e).coh = { s.coh with egress := s.coh.egress ++ [e] } := rfl
@[simp] theorem State.sendRemote_eng (s : State) (e : EgressEntry) : (s.sendRemote e).eng = s.eng := rfl
@[simp] theorem State.sendRemote_sys (s : State) (e : EgressEntry) : (s.sendRemote e).sys = s.sys := rfl
@[simp] theorem State.sendRemote_env (s : State) (e : EgressEntry) : (s.sendRemote e).env = s.env := rfl

/-! `State.putSession` -/
@[simp] theorem State.putSession_hart (s : State) (x : Session) : (s.putSession x).hart = s.hart := rfl
@[simp] theorem State.putSession_others (s : State) (x : Session) : (s.putSession x).others = s.others := rfl
@[simp] theorem State.putSession_places (s : State) (x : Session) : (s.putSession x).places = s.places := rfl
@[simp] theorem State.putSession_cores (s : State) (x : Session) : (s.putSession x).cores = s.cores := rfl
@[simp] theorem State.putSession_mem (s : State) (x : Session) : (s.putSession x).mem = s.mem := rfl
@[simp] theorem State.putSession_coh (s : State) (x : Session) : (s.putSession x).coh = s.coh := rfl
@[simp] theorem State.putSession_sys (s : State) (x : Session) : (s.putSession x).sys = s.sys := rfl
@[simp] theorem State.putSession_env (s : State) (x : Session) : (s.putSession x).env = s.env := rfl

/-! `State.putList` -/
@[simp] theorem State.putList_hart (s : State) (x : SkList) : (s.putList x).hart = s.hart := rfl
@[simp] theorem State.putList_others (s : State) (x : SkList) : (s.putList x).others = s.others := rfl
@[simp] theorem State.putList_places (s : State) (x : SkList) : (s.putList x).places = s.places := rfl
@[simp] theorem State.putList_cores (s : State) (x : SkList) : (s.putList x).cores = s.cores := rfl
@[simp] theorem State.putList_mem (s : State) (x : SkList) : (s.putList x).mem = s.mem := rfl
@[simp] theorem State.putList_coh (s : State) (x : SkList) : (s.putList x).coh = s.coh := rfl
@[simp] theorem State.putList_sys (s : State) (x : SkList) : (s.putList x).sys = s.sys := rfl
@[simp] theorem State.putList_env (s : State) (x : SkList) : (s.putList x).env = s.env := rfl

/-! `State.putStream` -/
@[simp] theorem State.putStream_hart (s : State) (x : Stream) : (s.putStream x).hart = s.hart := rfl
@[simp] theorem State.putStream_others (s : State) (x : Stream) : (s.putStream x).others = s.others := rfl
@[simp] theorem State.putStream_places (s : State) (x : Stream) : (s.putStream x).places = s.places := rfl
@[simp] theorem State.putStream_cores (s : State) (x : Stream) : (s.putStream x).cores = s.cores := rfl
@[simp] theorem State.putStream_mem (s : State) (x : Stream) : (s.putStream x).mem = s.mem := rfl
@[simp] theorem State.putStream_coh (s : State) (x : Stream) : (s.putStream x).coh = s.coh := rfl
@[simp] theorem State.putStream_sys (s : State) (x : Stream) : (s.putStream x).sys = s.sys := rfl
@[simp] theorem State.putStream_env (s : State) (x : Stream) : (s.putStream x).env = s.env := rfl

/-! `State.answer` -/
@[simp] theorem State.answer_hart (s : State) (l : List Byte) (b : Bool) : (s.answer l b).hart = s.hart := rfl
@[simp] theorem State.answer_others (s : State) (l : List Byte) (b : Bool) : (s.answer l b).others = s.others := rfl
@[simp] theorem State.answer_places (s : State) (l : List Byte) (b : Bool) : (s.answer l b).places = s.places := rfl
@[simp] theorem State.answer_cores (s : State) (l : List Byte) (b : Bool) : (s.answer l b).cores = s.cores := rfl
@[simp] theorem State.answer_mem (s : State) (l : List Byte) (b : Bool) : (s.answer l b).mem = s.mem := rfl
@[simp] theorem State.answer_coh (s : State) (l : List Byte) (b : Bool) : (s.answer l b).coh = s.coh := rfl
@[simp] theorem State.answer_eng (s : State) (l : List Byte) (b : Bool) : (s.answer l b).eng = s.eng := rfl
@[simp] theorem State.answer_sys (s : State) (l : List Byte) (b : Bool) : (s.answer l b).sys = { s.sys with hostOut := l, hostRefused := b } := rfl
@[simp] theorem State.answer_env (s : State) (l : List Byte) (b : Bool) : (s.answer l b).env = s.env := rfl

/-! `State.commandStatus` -/
@[simp] theorem State.commandStatus_hart (s : State) (n : Nat) : (s.commandStatus n).hart = s.hart := rfl
@[simp] theorem State.commandStatus_others (s : State) (n : Nat) : (s.commandStatus n).others = s.others := rfl
@[simp] theorem State.commandStatus_places (s : State) (n : Nat) : (s.commandStatus n).places = s.places := rfl
@[simp] theorem State.commandStatus_cores (s : State) (n : Nat) : (s.commandStatus n).cores = s.cores := rfl
@[simp] theorem State.commandStatus_mem (s : State) (n : Nat) : (s.commandStatus n).mem = s.mem := rfl
@[simp] theorem State.commandStatus_coh (s : State) (n : Nat) : (s.commandStatus n).coh = s.coh := rfl
@[simp] theorem State.commandStatus_eng (s : State) (n : Nat) : (s.commandStatus n).eng = s.eng := rfl
@[simp] theorem State.commandStatus_sys (s : State) (n : Nat) : (s.commandStatus n).sys = { s.sys with status := Sparse.put 0 s.sys.status 0 n } := rfl
@[simp] theorem State.commandStatus_env (s : State) (n : Nat) : (s.commandStatus n).env = s.env := rfl

/-! `State.setBoot` -/
@[simp] theorem State.setBoot_hart (s : State) (b : Boot) : (s.setBoot b).hart = s.hart := rfl
@[simp] theorem State.setBoot_others (s : State) (b : Boot) : (s.setBoot b).others = s.others := rfl
@[simp] theorem State.setBoot_places (s : State) (b : Boot) : (s.setBoot b).places = s.places := rfl
@[simp] theorem State.setBoot_cores (s : State) (b : Boot) : (s.setBoot b).cores = s.cores := rfl
@[simp] theorem State.setBoot_mem (s : State) (b : Boot) : (s.setBoot b).mem = s.mem := rfl
@[simp] theorem State.setBoot_coh (s : State) (b : Boot) : (s.setBoot b).coh = s.coh := rfl
@[simp] theorem State.setBoot_eng (s : State) (b : Boot) : (s.setBoot b).eng = s.eng := rfl
@[simp] theorem State.setBoot_sys (s : State) (b : Boot) : (s.setBoot b).sys = { s.sys with boot := b } := rfl
@[simp] theorem State.setBoot_env (s : State) (b : Boot) : (s.setBoot b).env = s.env := rfl

/-! `Hart.goto` -/
@[simp] theorem Hart.goto_id (h : Hart) (p : Word) (c : Convoy) : (h.goto p c).id = h.id := rfl
@[simp] theorem Hart.goto_status (h : Hart) (p : Word) (c : Convoy) : (h.goto p c).status = h.status := rfl
@[simp] theorem Hart.goto_wait (h : Hart) (p : Word) (c : Convoy) : (h.goto p c).wait = none := rfl
@[simp] theorem Hart.goto_x (h : Hart) (p : Word) (c : Convoy) : (h.goto p c).x = h.x := rfl
@[simp] theorem Hart.goto_pc (h : Hart) (p : Word) (c : Convoy) : (h.goto p c).pc = p := rfl
@[simp] theorem Hart.goto_v (h : Hart) (p : Word) (c : Convoy) : (h.goto p c).v = h.v := rfl
@[simp] theorem Hart.goto_hdr (h : Hart) (p : Word) (c : Convoy) : (h.goto p c).hdr = h.hdr := rfl
@[simp] theorem Hart.goto_k (h : Hart) (p : Word) (c : Convoy) : (h.goto p c).k = h.k := rfl
@[simp] theorem Hart.goto_q (h : Hart) (p : Word) (c : Convoy) : (h.goto p c).q = h.q := rfl
@[simp] theorem Hart.goto_z (h : Hart) (p : Word) (c : Convoy) : (h.goto p c).z = h.z := rfl
@[simp] theorem Hart.goto_f (h : Hart) (p : Word) (c : Convoy) : (h.goto p c).f = h.f := rfl
@[simp] theorem Hart.goto_vr (h : Hart) (p : Word) (c : Convoy) : (h.goto p c).vr = h.vr := rfl
@[simp] theorem Hart.goto_fl (h : Hart) (p : Word) (c : Convoy) : (h.goto p c).fl = h.fl := rfl
@[simp] theorem Hart.goto_tr (h : Hart) (p : Word) (c : Convoy) : (h.goto p c).tr = h.tr := rfl
@[simp] theorem Hart.goto_mgrant (h : Hart) (p : Word) (c : Convoy) : (h.goto p c).mgrant = h.mgrant := rfl
@[simp] theorem Hart.goto_quads (h : Hart) (p : Word) (c : Convoy) : (h.goto p c).quads = h.quads := rfl
@[simp] theorem Hart.goto_skipd (h : Hart) (p : Word) (c : Convoy) : (h.goto p c).skipd = h.skipd := rfl
@[simp] theorem Hart.goto_mhb (h : Hart) (p : Word) (c : Convoy) : (h.goto p c).mhb = h.mhb := rfl
@[simp] theorem Hart.goto_mhctl (h : Hart) (p : Word) (c : Convoy) : (h.goto p c).mhctl = h.mhctl := rfl
@[simp] theorem Hart.goto_vs (h : Hart) (p : Word) (c : Convoy) : (h.goto p c).vs = { h.vs with conv := c } := rfl
@[simp] theorem Hart.goto_restart (h : Hart) (p : Word) (c : Convoy) : (h.goto p c).restart = none := rfl
@[simp] theorem Hart.goto_win (h : Hart) (p : Word) (c : Convoy) : (h.goto p c).win = h.win := rfl
@[simp] theorem Hart.goto_ssb (h : Hart) (p : Word) (c : Convoy) : (h.goto p c).ssb = h.ssb := rfl
@[simp] theorem Hart.goto_psf (h : Hart) (p : Word) (c : Convoy) : (h.goto p c).psf = h.psf := rfl
@[simp] theorem Hart.goto_cpf (h : Hart) (p : Word) (c : Convoy) : (h.goto p c).cpf = h.cpf := rfl
@[simp] theorem Hart.goto_tk (h : Hart) (p : Word) (c : Convoy) : (h.goto p c).tk = h.tk := rfl
@[simp] theorem Hart.goto_sc (h : Hart) (p : Word) (c : Convoy) : (h.goto p c).sc = h.sc := rfl
@[simp] theorem Hart.goto_lostStores (h : Hart) (p : Word) (c : Convoy) : (h.goto p c).lostStores = h.lostStores := rfl
@[simp] theorem Hart.goto_faultHart (h : Hart) (p : Word) (c : Convoy) : (h.goto p c).faultHart = h.faultHart := rfl
@[simp] theorem Hart.goto_atomReply (h : Hart) (p : Word) (c : Convoy) : (h.goto p c).atomReply = h.atomReply := rfl
@[simp] theorem Hart.goto_snap (h : Hart) (p : Word) (c : Convoy) : (h.goto p c).snap = h.snap := rfl
@[simp] theorem Hart.goto_interval (h : Hart) (p : Word) (c : Convoy) : (h.goto p c).interval = h.interval := rfl
@[simp] theorem Hart.goto_watch (h : Hart) (p : Word) (c : Convoy) : (h.goto p c).watch = h.watch := rfl
@[simp] theorem Hart.goto_debug (h : Hart) (p : Word) (c : Convoy) : (h.goto p c).debug = h.debug := rfl

/-! `Hart.hold` -/
@[simp] theorem Hart.hold_id (h : Hart) (q : Quads) : (h.hold q).id = h.id := rfl
@[simp] theorem Hart.hold_status (h : Hart) (q : Quads) : (h.hold q).status = h.status := rfl
@[simp] theorem Hart.hold_wait (h : Hart) (q : Quads) : (h.hold q).wait = h.wait := rfl
@[simp] theorem Hart.hold_x (h : Hart) (q : Quads) : (h.hold q).x = h.x := rfl
@[simp] theorem Hart.hold_pc (h : Hart) (q : Quads) : (h.hold q).pc = h.pc := rfl
@[simp] theorem Hart.hold_v (h : Hart) (q : Quads) : (h.hold q).v = h.v := rfl
@[simp] theorem Hart.hold_hdr (h : Hart) (q : Quads) : (h.hold q).hdr = h.hdr := rfl
@[simp] theorem Hart.hold_k (h : Hart) (q : Quads) : (h.hold q).k = h.k := rfl
@[simp] theorem Hart.hold_q (h : Hart) (q : Quads) : (h.hold q).q = h.q := rfl
@[simp] theorem Hart.hold_z (h : Hart) (q : Quads) : (h.hold q).z = h.z := rfl
@[simp] theorem Hart.hold_f (h : Hart) (q : Quads) : (h.hold q).f = h.f := rfl
@[simp] theorem Hart.hold_vr (h : Hart) (q : Quads) : (h.hold q).vr = { h.vr with pending := true } := rfl
@[simp] theorem Hart.hold_fl (h : Hart) (q : Quads) : (h.hold q).fl = h.fl := rfl
@[simp] theorem Hart.hold_tr (h : Hart) (q : Quads) : (h.hold q).tr = h.tr := rfl
@[simp] theorem Hart.hold_mgrant (h : Hart) (q : Quads) : (h.hold q).mgrant = h.mgrant := rfl
@[simp] theorem Hart.hold_quads (h : Hart) (q : Quads) : (h.hold q).quads = q := rfl
@[simp] theorem Hart.hold_skipd (h : Hart) (q : Quads) : (h.hold q).skipd = h.skipd := rfl
@[simp] theorem Hart.hold_mhb (h : Hart) (q : Quads) : (h.hold q).mhb = h.mhb := rfl
@[simp] theorem Hart.hold_mhctl (h : Hart) (q : Quads) : (h.hold q).mhctl = h.mhctl := rfl
@[simp] theorem Hart.hold_vs (h : Hart) (q : Quads) : (h.hold q).vs = h.vs := rfl
@[simp] theorem Hart.hold_restart (h : Hart) (q : Quads) : (h.hold q).restart = h.restart := rfl
@[simp] theorem Hart.hold_win (h : Hart) (q : Quads) : (h.hold q).win = none := rfl
@[simp] theorem Hart.hold_ssb (h : Hart) (q : Quads) : (h.hold q).ssb = h.ssb := rfl
@[simp] theorem Hart.hold_psf (h : Hart) (q : Quads) : (h.hold q).psf = h.psf := rfl
@[simp] theorem Hart.hold_cpf (h : Hart) (q : Quads) : (h.hold q).cpf = h.cpf := rfl
@[simp] theorem Hart.hold_tk (h : Hart) (q : Quads) : (h.hold q).tk = h.tk := rfl
@[simp] theorem Hart.hold_sc (h : Hart) (q : Quads) : (h.hold q).sc = h.sc := rfl
@[simp] theorem Hart.hold_lostStores (h : Hart) (q : Quads) : (h.hold q).lostStores = h.lostStores := rfl
@[simp] theorem Hart.hold_faultHart (h : Hart) (q : Quads) : (h.hold q).faultHart = h.faultHart := rfl
@[simp] theorem Hart.hold_atomReply (h : Hart) (q : Quads) : (h.hold q).atomReply = h.atomReply := rfl
@[simp] theorem Hart.hold_snap (h : Hart) (q : Quads) : (h.hold q).snap = h.snap := rfl
@[simp] theorem Hart.hold_interval (h : Hart) (q : Quads) : (h.hold q).interval = h.interval := rfl
@[simp] theorem Hart.hold_watch (h : Hart) (q : Quads) : (h.hold q).watch = h.watch := rfl
@[simp] theorem Hart.hold_debug (h : Hart) (q : Quads) : (h.hold q).debug = h.debug := rfl

/-! `Hart.detach` -/
@[simp] theorem Hart.detach_id (h : Hart) : (h.detach).id = h.id := rfl
@[simp] theorem Hart.detach_status (h : Hart) : (h.detach).status = h.status := rfl
@[simp] theorem Hart.detach_wait (h : Hart) : (h.detach).wait = h.wait := rfl
@[simp] theorem Hart.detach_x (h : Hart) : (h.detach).x = h.x := rfl
@[simp] theorem Hart.detach_pc (h : Hart) : (h.detach).pc = h.pc := rfl
@[simp] theorem Hart.detach_v (h : Hart) : (h.detach).v = h.v := rfl
@[simp] theorem Hart.detach_hdr (h : Hart) : (h.detach).hdr = h.hdr := rfl
@[simp] theorem Hart.detach_k (h : Hart) : (h.detach).k = h.k := rfl
@[simp] theorem Hart.detach_q (h : Hart) : (h.detach).q = h.q := rfl
@[simp] theorem Hart.detach_z (h : Hart) : (h.detach).z = h.z := rfl
@[simp] theorem Hart.detach_f (h : Hart) : (h.detach).f = h.f := rfl
@[simp] theorem Hart.detach_vr (h : Hart) : (h.detach).vr = h.vr := rfl
@[simp] theorem Hart.detach_fl (h : Hart) : (h.detach).fl = h.fl := rfl
@[simp] theorem Hart.detach_tr (h : Hart) : (h.detach).tr = h.tr := rfl
@[simp] theorem Hart.detach_mgrant (h : Hart) : (h.detach).mgrant = h.mgrant &&& 0x10000#17 := rfl
@[simp] theorem Hart.detach_quads (h : Hart) : (h.detach).quads = h.quads := rfl
@[simp] theorem Hart.detach_skipd (h : Hart) : (h.detach).skipd = h.skipd := rfl
@[simp] theorem Hart.detach_mhb (h : Hart) : (h.detach).mhb = h.mhb := rfl
@[simp] theorem Hart.detach_mhctl (h : Hart) : (h.detach).mhctl = h.mhctl := rfl
@[simp] theorem Hart.detach_vs (h : Hart) : (h.detach).vs = h.vs := rfl
@[simp] theorem Hart.detach_restart (h : Hart) : (h.detach).restart = h.restart := rfl
@[simp] theorem Hart.detach_win (h : Hart) : (h.detach).win = h.win := rfl
@[simp] theorem Hart.detach_ssb (h : Hart) : (h.detach).ssb = h.ssb := rfl
@[simp] theorem Hart.detach_psf (h : Hart) : (h.detach).psf = h.psf := rfl
@[simp] theorem Hart.detach_cpf (h : Hart) : (h.detach).cpf = h.cpf := rfl
@[simp] theorem Hart.detach_tk (h : Hart) : (h.detach).tk = h.tk := rfl
@[simp] theorem Hart.detach_sc (h : Hart) : (h.detach).sc = h.sc := rfl
@[simp] theorem Hart.detach_lostStores (h : Hart) : (h.detach).lostStores = h.lostStores := rfl
@[simp] theorem Hart.detach_faultHart (h : Hart) : (h.detach).faultHart = h.faultHart := rfl
@[simp] theorem Hart.detach_atomReply (h : Hart) : (h.detach).atomReply = h.atomReply := rfl
@[simp] theorem Hart.detach_snap (h : Hart) : (h.detach).snap = h.snap := rfl
@[simp] theorem Hart.detach_interval (h : Hart) : (h.detach).interval = h.interval := rfl
@[simp] theorem Hart.detach_watch (h : Hart) : (h.detach).watch = h.watch := rfl
@[simp] theorem Hart.detach_debug (h : Hart) : (h.detach).debug = h.debug := rfl

/-! `Hart.pushStore` -/
@[simp] theorem Hart.pushStore_id (h : Hart) (e : SsbEntry) : (h.pushStore e).id = h.id := rfl
@[simp] theorem Hart.pushStore_status (h : Hart) (e : SsbEntry) : (h.pushStore e).status = h.status := rfl
@[simp] theorem Hart.pushStore_wait (h : Hart) (e : SsbEntry) : (h.pushStore e).wait = h.wait := rfl
@[simp] theorem Hart.pushStore_x (h : Hart) (e : SsbEntry) : (h.pushStore e).x = h.x := rfl
@[simp] theorem Hart.pushStore_pc (h : Hart) (e : SsbEntry) : (h.pushStore e).pc = h.pc := rfl
@[simp] theorem Hart.pushStore_v (h : Hart) (e : SsbEntry) : (h.pushStore e).v = h.v := rfl
@[simp] theorem Hart.pushStore_hdr (h : Hart) (e : SsbEntry) : (h.pushStore e).hdr = h.hdr := rfl
@[simp] theorem Hart.pushStore_k (h : Hart) (e : SsbEntry) : (h.pushStore e).k = h.k := rfl
@[simp] theorem Hart.pushStore_q (h : Hart) (e : SsbEntry) : (h.pushStore e).q = h.q := rfl
@[simp] theorem Hart.pushStore_z (h : Hart) (e : SsbEntry) : (h.pushStore e).z = h.z := rfl
@[simp] theorem Hart.pushStore_f (h : Hart) (e : SsbEntry) : (h.pushStore e).f = h.f := rfl
@[simp] theorem Hart.pushStore_vr (h : Hart) (e : SsbEntry) : (h.pushStore e).vr = h.vr := rfl
@[simp] theorem Hart.pushStore_fl (h : Hart) (e : SsbEntry) : (h.pushStore e).fl = h.fl := rfl
@[simp] theorem Hart.pushStore_tr (h : Hart) (e : SsbEntry) : (h.pushStore e).tr = h.tr := rfl
@[simp] theorem Hart.pushStore_mgrant (h : Hart) (e : SsbEntry) : (h.pushStore e).mgrant = h.mgrant := rfl
@[simp] theorem Hart.pushStore_quads (h : Hart) (e : SsbEntry) : (h.pushStore e).quads = h.quads := rfl
@[simp] theorem Hart.pushStore_skipd (h : Hart) (e : SsbEntry) : (h.pushStore e).skipd = h.skipd := rfl
@[simp] theorem Hart.pushStore_mhb (h : Hart) (e : SsbEntry) : (h.pushStore e).mhb = h.mhb := rfl
@[simp] theorem Hart.pushStore_mhctl (h : Hart) (e : SsbEntry) : (h.pushStore e).mhctl = h.mhctl := rfl
@[simp] theorem Hart.pushStore_vs (h : Hart) (e : SsbEntry) : (h.pushStore e).vs = h.vs := rfl
@[simp] theorem Hart.pushStore_restart (h : Hart) (e : SsbEntry) : (h.pushStore e).restart = h.restart := rfl
@[simp] theorem Hart.pushStore_win (h : Hart) (e : SsbEntry) : (h.pushStore e).win = h.win := rfl
@[simp] theorem Hart.pushStore_ssb (h : Hart) (e : SsbEntry) : (h.pushStore e).ssb = h.ssb ++ [e] := rfl
@[simp] theorem Hart.pushStore_psf (h : Hart) (e : SsbEntry) : (h.pushStore e).psf = h.psf := rfl
@[simp] theorem Hart.pushStore_cpf (h : Hart) (e : SsbEntry) : (h.pushStore e).cpf = h.cpf := rfl
@[simp] theorem Hart.pushStore_tk (h : Hart) (e : SsbEntry) : (h.pushStore e).tk = h.tk := rfl
@[simp] theorem Hart.pushStore_sc (h : Hart) (e : SsbEntry) : (h.pushStore e).sc = h.sc := rfl
@[simp] theorem Hart.pushStore_lostStores (h : Hart) (e : SsbEntry) : (h.pushStore e).lostStores = h.lostStores := rfl
@[simp] theorem Hart.pushStore_faultHart (h : Hart) (e : SsbEntry) : (h.pushStore e).faultHart = h.faultHart := rfl
@[simp] theorem Hart.pushStore_atomReply (h : Hart) (e : SsbEntry) : (h.pushStore e).atomReply = h.atomReply := rfl
@[simp] theorem Hart.pushStore_snap (h : Hart) (e : SsbEntry) : (h.pushStore e).snap = h.snap := rfl
@[simp] theorem Hart.pushStore_interval (h : Hart) (e : SsbEntry) : (h.pushStore e).interval = h.interval := rfl
@[simp] theorem Hart.pushStore_watch (h : Hart) (e : SsbEntry) : (h.pushStore e).watch = h.watch := rfl
@[simp] theorem Hart.pushStore_debug (h : Hart) (e : SsbEntry) : (h.pushStore e).debug = h.debug := rfl

/-! `Hart.preempted` -/
@[simp] theorem Hart.preempted_id (h : Hart) : (h.preempted).id = h.id := rfl
@[simp] theorem Hart.preempted_status (h : Hart) : (h.preempted).status = .preempted := rfl
@[simp] theorem Hart.preempted_x (h : Hart) : (h.preempted).x = h.x := rfl
@[simp] theorem Hart.preempted_pc (h : Hart) : (h.preempted).pc = h.pc := rfl
@[simp] theorem Hart.preempted_v (h : Hart) : (h.preempted).v = h.v := rfl
@[simp] theorem Hart.preempted_hdr (h : Hart) : (h.preempted).hdr = h.hdr := rfl
@[simp] theorem Hart.preempted_k (h : Hart) : (h.preempted).k = h.k := rfl
@[simp] theorem Hart.preempted_q (h : Hart) : (h.preempted).q = h.q := rfl
@[simp] theorem Hart.preempted_z (h : Hart) : (h.preempted).z = h.z := rfl
@[simp] theorem Hart.preempted_f (h : Hart) : (h.preempted).f = h.f := rfl
@[simp] theorem Hart.preempted_vr (h : Hart) : (h.preempted).vr = h.vr := rfl
@[simp] theorem Hart.preempted_fl (h : Hart) : (h.preempted).fl = h.fl := rfl
@[simp] theorem Hart.preempted_tcause (h : Hart) : (h.preempted).tr.tcause = h.tr.tcause := by unfold Hart.preempted; split <;> (try split) <;> rfl
@[simp] theorem Hart.preempted_tval (h : Hart) : (h.preempted).tr.tval = h.tr.tval := by unfold Hart.preempted; split <;> (try split) <;> rfl
@[simp] theorem Hart.preempted_tvec (h : Hart) : (h.preempted).tr.tvec = h.tr.tvec := by unfold Hart.preempted; split <;> (try split) <;> rfl
@[simp] theorem Hart.preempted_tnpc (h : Hart) : (h.preempted).tr.tnpc = h.tr.tnpc := by unfold Hart.preempted; split <;> (try split) <;> rfl
@[simp] theorem Hart.preempted_mgrant (h : Hart) : (h.preempted).mgrant = h.mgrant := rfl
@[simp] theorem Hart.preempted_quads (h : Hart) : (h.preempted).quads = h.quads := rfl
@[simp] theorem Hart.preempted_skipd (h : Hart) : (h.preempted).skipd = h.skipd := rfl
@[simp] theorem Hart.preempted_mhb (h : Hart) : (h.preempted).mhb = h.mhb := rfl
@[simp] theorem Hart.preempted_mhctl (h : Hart) : (h.preempted).mhctl = h.mhctl := rfl
@[simp] theorem Hart.preempted_restart (h : Hart) : (h.preempted).restart = h.restart := rfl
@[simp] theorem Hart.preempted_win (h : Hart) : (h.preempted).win = h.win := rfl
@[simp] theorem Hart.preempted_ssb (h : Hart) : (h.preempted).ssb = h.ssb := rfl
@[simp] theorem Hart.preempted_psf (h : Hart) : (h.preempted).psf = h.psf := rfl
@[simp] theorem Hart.preempted_cpf (h : Hart) : (h.preempted).cpf = h.cpf := rfl
@[simp] theorem Hart.preempted_tk (h : Hart) : (h.preempted).tk = h.tk := rfl
@[simp] theorem Hart.preempted_sc (h : Hart) : (h.preempted).sc = h.sc := rfl
@[simp] theorem Hart.preempted_lostStores (h : Hart) : (h.preempted).lostStores = h.lostStores := rfl
@[simp] theorem Hart.preempted_faultHart (h : Hart) : (h.preempted).faultHart = h.faultHart := rfl
@[simp] theorem Hart.preempted_atomReply (h : Hart) : (h.preempted).atomReply = h.atomReply := rfl
@[simp] theorem Hart.preempted_snap (h : Hart) : (h.preempted).snap = h.snap := rfl
@[simp] theorem Hart.preempted_interval (h : Hart) : (h.preempted).interval = h.interval := rfl
@[simp] theorem Hart.preempted_watch (h : Hart) : (h.preempted).watch = h.watch := rfl
@[simp] theorem Hart.preempted_debug (h : Hart) : (h.preempted).debug = h.debug := rfl

/-! `Hart.set`, which writes only x (R5) -/
@[simp] theorem Hart.set_id (h : Hart) (r : Reg) (w : Word) : (h.set r w).id = h.id := by unfold Hart.set; split <;> rfl
@[simp] theorem Hart.set_status (h : Hart) (r : Reg) (w : Word) : (h.set r w).status = h.status := by unfold Hart.set; split <;> rfl
@[simp] theorem Hart.set_wait (h : Hart) (r : Reg) (w : Word) : (h.set r w).wait = h.wait := by unfold Hart.set; split <;> rfl
@[simp] theorem Hart.set_pc (h : Hart) (r : Reg) (w : Word) : (h.set r w).pc = h.pc := by unfold Hart.set; split <;> rfl
@[simp] theorem Hart.set_v (h : Hart) (r : Reg) (w : Word) : (h.set r w).v = h.v := by unfold Hart.set; split <;> rfl
@[simp] theorem Hart.set_hdr (h : Hart) (r : Reg) (w : Word) : (h.set r w).hdr = h.hdr := by unfold Hart.set; split <;> rfl
@[simp] theorem Hart.set_k (h : Hart) (r : Reg) (w : Word) : (h.set r w).k = h.k := by unfold Hart.set; split <;> rfl
@[simp] theorem Hart.set_q (h : Hart) (r : Reg) (w : Word) : (h.set r w).q = h.q := by unfold Hart.set; split <;> rfl
@[simp] theorem Hart.set_z (h : Hart) (r : Reg) (w : Word) : (h.set r w).z = h.z := by unfold Hart.set; split <;> rfl
@[simp] theorem Hart.set_f (h : Hart) (r : Reg) (w : Word) : (h.set r w).f = h.f := by unfold Hart.set; split <;> rfl
@[simp] theorem Hart.set_vr (h : Hart) (r : Reg) (w : Word) : (h.set r w).vr = h.vr := by unfold Hart.set; split <;> rfl
@[simp] theorem Hart.set_fl (h : Hart) (r : Reg) (w : Word) : (h.set r w).fl = h.fl := by unfold Hart.set; split <;> rfl
@[simp] theorem Hart.set_tr (h : Hart) (r : Reg) (w : Word) : (h.set r w).tr = h.tr := by unfold Hart.set; split <;> rfl
@[simp] theorem Hart.set_mgrant (h : Hart) (r : Reg) (w : Word) : (h.set r w).mgrant = h.mgrant := by unfold Hart.set; split <;> rfl
@[simp] theorem Hart.set_quads (h : Hart) (r : Reg) (w : Word) : (h.set r w).quads = h.quads := by unfold Hart.set; split <;> rfl
@[simp] theorem Hart.set_skipd (h : Hart) (r : Reg) (w : Word) : (h.set r w).skipd = h.skipd := by unfold Hart.set; split <;> rfl
@[simp] theorem Hart.set_mhb (h : Hart) (r : Reg) (w : Word) : (h.set r w).mhb = h.mhb := by unfold Hart.set; split <;> rfl
@[simp] theorem Hart.set_mhctl (h : Hart) (r : Reg) (w : Word) : (h.set r w).mhctl = h.mhctl := by unfold Hart.set; split <;> rfl
@[simp] theorem Hart.set_vs (h : Hart) (r : Reg) (w : Word) : (h.set r w).vs = h.vs := by unfold Hart.set; split <;> rfl
@[simp] theorem Hart.set_restart (h : Hart) (r : Reg) (w : Word) : (h.set r w).restart = h.restart := by unfold Hart.set; split <;> rfl
@[simp] theorem Hart.set_win (h : Hart) (r : Reg) (w : Word) : (h.set r w).win = h.win := by unfold Hart.set; split <;> rfl
@[simp] theorem Hart.set_ssb (h : Hart) (r : Reg) (w : Word) : (h.set r w).ssb = h.ssb := by unfold Hart.set; split <;> rfl
@[simp] theorem Hart.set_psf (h : Hart) (r : Reg) (w : Word) : (h.set r w).psf = h.psf := by unfold Hart.set; split <;> rfl
@[simp] theorem Hart.set_cpf (h : Hart) (r : Reg) (w : Word) : (h.set r w).cpf = h.cpf := by unfold Hart.set; split <;> rfl
@[simp] theorem Hart.set_tk (h : Hart) (r : Reg) (w : Word) : (h.set r w).tk = h.tk := by unfold Hart.set; split <;> rfl
@[simp] theorem Hart.set_sc (h : Hart) (r : Reg) (w : Word) : (h.set r w).sc = h.sc := by unfold Hart.set; split <;> rfl
@[simp] theorem Hart.set_lostStores (h : Hart) (r : Reg) (w : Word) : (h.set r w).lostStores = h.lostStores := by unfold Hart.set; split <;> rfl
@[simp] theorem Hart.set_faultHart (h : Hart) (r : Reg) (w : Word) : (h.set r w).faultHart = h.faultHart := by unfold Hart.set; split <;> rfl
@[simp] theorem Hart.set_atomReply (h : Hart) (r : Reg) (w : Word) : (h.set r w).atomReply = h.atomReply := by unfold Hart.set; split <;> rfl
@[simp] theorem Hart.set_snap (h : Hart) (r : Reg) (w : Word) : (h.set r w).snap = h.snap := by unfold Hart.set; split <;> rfl
@[simp] theorem Hart.set_interval (h : Hart) (r : Reg) (w : Word) : (h.set r w).interval = h.interval := by unfold Hart.set; split <;> rfl
@[simp] theorem Hart.set_watch (h : Hart) (r : Reg) (w : Word) : (h.set r w).watch = h.watch := by unfold Hart.set; split <;> rfl
@[simp] theorem Hart.set_debug (h : Hart) (r : Reg) (w : Word) : (h.set r w).debug = h.debug := by unfold Hart.set; split <;> rfl

/-- x0 reads 0 (R5). -/
@[simp] theorem Hart.get_zero (h : Hart) : h.get 0 = 0 := rfl
/-- A register reads what was written to it; x0 reads 0 (R5). -/
@[simp] theorem Hart.get_set_self (h : Hart) (d : Reg) (w : Word) : (h.set d w).get d = if d = 0 then 0 else w := by
  unfold Hart.set Hart.get
  split <;> simp_all [Vector.get_eq_getElem, Vector.getElem_set_self]
/-- Writing one register leaves every other one (R5). -/
theorem Hart.get_set_ne (h : Hart) (d r : Reg) (w : Word) (hr : r ≠ d) : (h.set d w).get r = h.get r := by
  unfold Hart.set Hart.get
  by_cases hd : d = 0#5
  · simp [hd]
  · by_cases h0 : r = 0#5
    · simp [h0]
    · have : ¬ d.toNat = r.toNat := fun e => hr (BitVec.eq_of_toNat_eq e.symm)
      simp [hd, h0, Vector.get_eq_getElem, this]
/-- The same for the hart whose turn it is. -/
@[simp] theorem State.get_set_self (s : State) (d : Reg) (w : Word) : (s.set d w).get d = if d = 0 then 0 else w := s.hart.get_set_self d w
theorem State.get_set_ne (s : State) (d r : Reg) (w : Word) (hr : r ≠ d) : (s.set d w).get r = s.get r := s.hart.get_set_ne d r w hr
@[simp] theorem State.get_advance (s : State) (r : Reg) : s.advance.get r = s.get r := rfl

/-! Finding by number -/

theorem find?_updIf {α : Type} (p q : α → Bool) (f : α → α) (hf : ∀ a, p (f a) = p a) (l : List α) :
    (updIf q f l).find? p = (l.find? p).map fun a => if q a then f a else a := by
  induction l with
  | nil => rfl
  | cons a r ih =>
    simp only [updIf, List.map_cons, List.find?_cons] at ih ⊢
    by_cases hq : q a = true <;> by_cases hp : p a = true <;> simp_all

theorem find?_putFirst {α : Type} (p : α → Bool) (a : α) (ha : p a = true) (l : List α) : (putFirst p a l).find? p = some a := by
  induction l with
  | nil => simp [putFirst, ha]
  | cons b r ih =>
    unfold putFirst
    by_cases hb : p b = true <;> simp_all

theorem find?_putFirst_ne {α : Type} (p q : α → Bool) (a : α) (ha : q a = false) (h : ∀ b, p b = true → q b = false) (l : List α) :
    (putFirst p a l).find? q = l.find? q := by
  induction l with
  | nil => simp [putFirst, ha]
  | cons b r ih =>
    unfold putFirst
    by_cases hb : p b = true
    · simp [hb, ha, h b hb]
    · simp only [hb]
      by_cases hq : q b = true <;> simp_all

/-- A core keeps its number. -/
theorem State.coreAt_id (s : State) (n : Nat) : (s.coreAt n).id = n := by
  unfold State.coreAt
  cases h : s.cores.find? (·.id == n) with
  | none => rfl
  | some c => simpa using List.find?_some h
/-- Changing a core, read back. -/
theorem State.coreAt_onCore (s : State) (n : Nat) (f : Core → Core) (hf : ∀ c, (f c).id = c.id) : (s.onCore n f).coreAt n = f (s.coreAt n) := by
  have h : ((f (s.coreAt n)).id == n) = true := by simp [hf, s.coreAt_id]
  show ((putFirst (fun c : Core => c.id == n) (f (s.coreAt n)) s.cores).find? (fun c : Core => c.id == n)).getD _ = _
  rw [find?_putFirst (fun c : Core => c.id == n) _ h]; rfl
/-- Changing a core leaves the others. -/
theorem State.coreAt_onCore_ne (s : State) (n m : Nat) (f : Core → Core) (hf : ∀ c, (f c).id = c.id) (h : m ≠ n) :
    (s.onCore n f).coreAt m = s.coreAt m := by
  have h1 : ((f (s.coreAt n)).id == m) = false := by simp [hf, s.coreAt_id]; omega
  show ((putFirst (fun c : Core => c.id == n) (f (s.coreAt n)) s.cores).find? (fun c : Core => c.id == m)).getD _ = (s.cores.find? (fun c : Core => c.id == m)).getD _
  rw [find?_putFirst_ne (fun c : Core => c.id == n) (fun c : Core => c.id == m) _ h1]
  intro b hb; simp at hb ⊢; omega
/-- The hart with a number has it. -/
theorem State.hartAt_id {s : State} {n : Nat} {g : Hart} (h : s.hartAt n = some g) : g.id = n := by
  unfold State.hartAt at h
  split at h
  · simp_all
  · simpa using List.find?_some h
/-- Changing a hart, read back. -/
theorem State.hartAt_onHartAt (s : State) (n : Nat) (f : Hart → Hart) (hf : ∀ g, (f g).id = g.id) : (s.onHartAt n f).hartAt n = (s.hartAt n).map f := by
  unfold State.onHartAt State.hartAt
  by_cases h : s.hart.id = n
  · simp [h, hf]
  · simp only [h, ↓reduceIte]
    rw [find?_updIf _ _ _ (by simp [hf])]
    cases hh : s.others.find? (·.id == n) with
    | none => rfl
    | some g => have := List.find?_some hh; simp_all
/-- Changing a hart leaves the others. -/
theorem State.hartAt_onHartAt_ne (s : State) (n m : Nat) (f : Hart → Hart) (hf : ∀ g, (f g).id = g.id) (h : m ≠ n) :
    (s.onHartAt n f).hartAt m = s.hartAt m := by
  unfold State.onHartAt State.hartAt
  by_cases hn : s.hart.id = n
  · have h2 : ¬ (f s.hart).id = m := by rw [hf]; omega
    have h3 : ¬ n = m := by omega
    simp [hn, h2, h3]
  · simp only [hn, ↓reduceIte]
    split
    · rfl
    · rw [find?_updIf _ _ _ (by simp [hf])]
      cases hh : s.others.find? (·.id == m) with
      | none => rfl
      | some g => have hg := List.find?_some hh; simp at hg; simp [hg, h]
@[simp] theorem State.onHartAt_mem (s : State) (n : Nat) (f : Hart → Hart) : (s.onHartAt n f).mem = s.mem := by unfold State.onHartAt; split <;> rfl
@[simp] theorem State.onHartAt_coh (s : State) (n : Nat) (f : Hart → Hart) : (s.onHartAt n f).coh = s.coh := by unfold State.onHartAt; split <;> rfl
@[simp] theorem State.onHartAt_cores (s : State) (n : Nat) (f : Hart → Hart) : (s.onHartAt n f).cores = s.cores := by unfold State.onHartAt; split <;> rfl
@[simp] theorem State.onHartAt_places (s : State) (n : Nat) (f : Hart → Hart) : (s.onHartAt n f).places = s.places := by unfold State.onHartAt; split <;> rfl
@[simp] theorem State.onHartAt_eng (s : State) (n : Nat) (f : Hart → Hart) : (s.onHartAt n f).eng = s.eng := by unfold State.onHartAt; split <;> rfl
@[simp] theorem State.onHartAt_sys (s : State) (n : Nat) (f : Hart → Hart) : (s.onHartAt n f).sys = s.sys := by unfold State.onHartAt; split <;> rfl
@[simp] theorem State.onHartAt_env (s : State) (n : Nat) (f : Hart → Hart) : (s.onHartAt n f).env = s.env := by unfold State.onHartAt; split <;> rfl

/-! The home's entries -/

theorem HomeLine.fresh_line (n : Nat) : (HomeLine.fresh n).line = n := rfl
/-- A home's entry carries its line. -/
theorem State.homeAt_line (s : State) (n : Nat) : (s.homeAt n).line = n := by
  unfold State.homeAt
  cases h : s.coh.homes.find? (·.line == n) with
  | none => rfl
  | some c => simpa using List.find?_some h
/-- Changing a home's entry, read back. -/
theorem State.homeAt_onHome (s : State) (n : Nat) (f : HomeLine → HomeLine) (hf : (f (s.homeAt n)).line = n) : (s.onHome n f).homeAt n = f (s.homeAt n) := by
  have hnone : (s.coh.homes.filter fun g => g.line != n).find? (fun g => g.line == n) = none := by
    rw [List.find?_eq_none]; intro x hx; simp at hx ⊢; exact hx.2
  show ((if f (s.homeAt n) == HomeLine.fresh n then _ else _ : List HomeLine).find? _).getD _ = _
  by_cases h : f (s.homeAt n) = HomeLine.fresh n
  · simp [h, hnone]
  · have h2 : (f (s.homeAt n) == HomeLine.fresh n) = false := by simpa using h
    simp [h2, hf]
/-- Changing a home's entry leaves the others. -/
theorem State.homeAt_onHome_ne (s : State) (n m : Nat) (f : HomeLine → HomeLine) (hf : (f (s.homeAt n)).line = n) (h : m ≠ n) :
    (s.onHome n f).homeAt m = s.homeAt m := by
  have hrest : (s.coh.homes.filter fun g => g.line != n).find? (fun g => g.line == m) = s.coh.homes.find? (fun g => g.line == m) := by
    rw [List.find?_filter]; congr 1; funext g
    by_cases e : g.line = m
    · simp [e, h]
    · simp [e]
  have h3 : ¬ (f (s.homeAt n)).line = m := by omega
  show ((if f (s.homeAt n) == HomeLine.fresh n then _ else _ : List HomeLine).find? _).getD _ = (s.coh.homes.find? _).getD _
  by_cases h1 : f (s.homeAt n) = HomeLine.fresh n
  · simp only [h1, beq_self_eq_true, ↓reduceIte, hrest]
  · have h2 : (f (s.homeAt n) == HomeLine.fresh n) = false := by simpa using h1
    simp [h2, h3, hrest]

end Sys2Proof.Machine
end

