-- ==== Sys2Proof/Laws/Homes.lean ====
section
/-! SUPPORT. What accesses at homes and walks of page tables can change: memory, the cores and what the homes hold, and nothing else. -/
namespace Sys2Proof.Machine

/-- Nothing but memory, the cores and what the homes hold differs. -/
structure AtHomes (s t : State) : Prop where
  hart : t.hart = s.hart
  others : t.others = s.others
  places : t.places = s.places
  eng : t.eng = s.eng
  sys : t.sys = s.sys
  env : t.env = s.env

theorem AtHomes.refl (s : State) : AtHomes s s := ⟨rfl, rfl, rfl, rfl, rfl, rfl⟩
theorem AtHomes.trans {s t u : State} (h : AtHomes s t) (k : AtHomes t u) : AtHomes s u :=
  ⟨k.hart.trans h.hart, k.others.trans h.others, k.places.trans h.places, k.eng.trans h.eng, k.sys.trans h.sys, k.env.trans h.env⟩
theorem AtHomes.foldl {α : Type} (f : State → α → State) (hf : ∀ t a, AtHomes t (f t a)) (l : List α) (s : State) : AtHomes s (l.foldl f s) := by
  induction l generalizing s with
  | nil => exact .refl s
  | cons a r ih => exact (hf s a).trans (ih _)

theorem State.onHome_atHomes (s : State) (line : Nat) (f : HomeLine → HomeLine) : AtHomes s (s.onHome line f) := ⟨rfl, rfl, rfl, rfl, rfl, rfl⟩
theorem State.onCore_atHomes (s : State) (n : Nat) (f : Core → Core) : AtHomes s (s.onCore n f) := ⟨rfl, rfl, rfl, rfl, rfl, rfl⟩
theorem State.applyLine_atHomes (s : State) (line : Nat) (m : BitVec 64) (d : BitVec 512) : AtHomes s (s.applyLine line m d) :=
  ⟨rfl, rfl, rfl, rfl, rfl, rfl⟩
theorem State.noteWrite_atHomes (s : State) (line : Nat) (k : Option Nat) : AtHomes s (s.noteWrite line k) := ⟨rfl, rfl, rfl, rfl, rfl, rfl⟩
theorem State.dropMsg_atHomes (s : State) (m : Msg) : AtHomes s (s.dropMsg m) := ⟨rfl, rfl, rfl, rfl, rfl, rfl⟩

theorem applyWb_atHomes (w : Msg) (s : State) : AtHomes s (applyWb w s) := by
  unfold applyWb
  exact (s.applyLine_atHomes _ _ _).trans (State.onHome_atHomes _ _ _)
theorem landWb_atHomes (line n : Nat) (s : State) : AtHomes s (landWb line n s) := by
  unfold landWb
  exact AtHomes.foldl _ (fun t w => (t.dropMsg_atHomes w).trans (applyWb_atHomes w _)) _ s
theorem takeFrom_atHomes (line : Nat) (m : BitVec 16) (n : Nat) (s : State) : AtHomes s (takeFrom line m n s) := by
  refine (landWb_atHomes line n s).trans ?_
  unfold takeFrom
  generalize landWb line n s = t
  simp only []
  split
  · exact t.onHome_atHomes _ _
  split
  · exact t.onHome_atHomes _ _
  · exact ((t.applyLine_atHomes _ _ _).trans (State.onCore_atHomes _ _ _)).trans (State.onHome_atHomes _ _ _)
theorem takeWords_atHomes (line : Nat) (m : BitVec 16) (s : State) : AtHomes s (takeWords line m s) :=
  AtHomes.foldl _ (fun t n => takeFrom_atHomes line m n t) _ s
theorem askOne_atHomes (line : Nat) (m : BitVec 16) (s : State) (n : Nat) : AtHomes s (askOne line m s n) := by
  refine (landWb_atHomes line n s).trans ?_
  unfold askOne
  generalize landWb line n s = t
  simp only []
  split
  · exact t.onHome_atHomes _ _
  split
  · exact .refl t
  · split
    · exact .refl t
    · exact (t.onHome_atHomes _ _).trans (State.onCore_atHomes _ _ _)
theorem askWords_atHomes (line : Nat) (m : BitVec 16) (s : State) : AtHomes s (askWords line m s) := AtHomes.foldl _ (askOne_atHomes line m) _ s

theorem State.freeSplit_atHomes {s t : State} {line : Nat} (h : s.freeSplit line = some t) : AtHomes s t := by
  unfold State.freeSplit at h
  simp only [] at h
  split at h
  · cases h
    refine AtHomes.foldl _ (fun u l => ?_) _ s
    split
    · exact .refl u
    · exact takeWords_atHomes _ _ u
  · cases h
/-- A change that may need a split entry changes what it changes itself, and what freeing an entry changes at the homes (R300). -/
theorem State.withSplit_atHomes (s : State) (line : Nat) (f : State → State) (hf : ∀ t, AtHomes t (f t)) : AtHomes s ((s.withSplit line f).getD s) := by
  unfold State.withSplit
  split
  · rcases h : s.freeSplit line with _ | t
    · exact .refl s
    · exact (State.freeSplit_atHomes h).trans (hf t)
  · exact hf s
theorem State.takeOwners_atHomes (s : State) (line : Nat) (m : BitVec 16) : AtHomes s (s.takeOwners line m) :=
  s.withSplit_atHomes line _ (takeWords_atHomes line m)
theorem State.askOwners_atHomes (s : State) (line : Nat) (m : BitVec 16) : AtHomes s (s.askOwners line m) :=
  s.withSplit_atHomes line _ (askWords_atHomes line m)
theorem State.foldLine_atHomes (s : State) (r : CRange) (line : Nat) (ps : List (BitVec 16 × BitVec 512)) : AtHomes s (s.foldLine r line ps) := by
  unfold State.foldLine
  simp only []
  split
  · exact s.applyLine_atHomes _ _ _
  · exact (s.applyLine_atHomes _ _ _).trans (State.noteWrite_atHomes _ _ _)
theorem State.collect_atHomes (s : State) (line : Nat) : AtHomes s (s.collect line) := by
  unfold State.collect
  split
  · exact .refl s
  · exact ((s.takeOwners_atHomes line 0xFFFF#16).trans (State.foldLine_atHomes _ _ line _)).trans ⟨rfl, rfl, rfl, rfl, rfl, rfl⟩
theorem State.readyHome_atHomes (s : State) (line : Nat) (m : BitVec 16) : AtHomes s (s.readyHome line m) :=
  (s.collect_atHomes _).trans (State.askOwners_atHomes _ _ _)

/-- A read at a home changes memory, the cores and the homes alone (R296, R303). -/
theorem State.homeRead_atHomes (s : State) (key len : Nat) : AtHomes s (s.homeRead key len).2 := by
  have h := s.readyHome_atHomes (lineOf key) (wordMask key len)
  unfold State.homeRead
  simp only []
  split
  · exact .refl s
  · split
    · exact h
    · split <;> exact h

/-! ### Walks (R340, R343) -/

/-- A walk changes nothing but what its reads at homes change. -/
def Walk.Keeps {α : Type} (w : Walk α) : Prop := ∀ s, AtHomes s (w.go s).2

theorem Walk.go_bind {α β : Type} (w : Walk α) (f : α → Walk β) (s : State) :
    (w >>= f).go s = match w.go s with | (.ok a, t) => (f a).go t | (.error c, t) => (.error c, t) := by
  unfold Walk.go
  simp only [ExceptT.run_bind, StateT.run_bind]
  rcases (ExceptT.run w).run s with ⟨r, t⟩
  cases r <;> rfl
theorem Walk.go_get (s : State) : (get : Walk State).go s = (.ok s, s) := rfl
theorem Walk.go_set (s t : State) : (set t : Walk PUnit).go s = (.ok ⟨⟩, t) := rfl
theorem Walk.keeps_pure {α : Type} (a : α) : Walk.Keeps (pure a : Walk α) := fun s => .refl s
theorem Walk.keeps_throw {α : Type} (c : Option Cause) : Walk.Keeps (throw c : Walk α) := fun s => .refl s
theorem Walk.keeps_get : Walk.Keeps (get : Walk State) := fun s => .refl s
theorem Walk.keeps_bind {α β : Type} {w : Walk α} {f : α → Walk β} (hw : w.Keeps) (hf : ∀ a, (f a).Keeps) : (w >>= f).Keeps := by
  intro s
  rw [Walk.go_bind]
  have h := hw s
  split
  · next a t e => rw [e] at h; exact h.trans (hf a t)
  · next c t e => rw [e] at h; exact h
theorem orPage_keeps {α : Type} (o : Option α) : (orPage o).Keeps := by cases o <;> exact fun s => .refl s

theorem pte_keeps (die part table idx : Nat) : (pte die part table idx).Keeps := by
  intro s
  have h := s.homeRead_atHomes (dramKey (table + 8 * idx)) 8
  have key : ((pte die part table idx).go s).2 = s ∨ ((pte die part table idx).go s).2 = (s.homeRead (dramKey (table + 8 * idx)) 8).2 := by
    unfold pte
    by_cases ho : s.owns part (table + 8 * idx) false
    · rcases hd : s.dieDown die (homeSlice (lineOf (dramKey (table + 8 * idx))) / 64) with _ | c
      · right
        rcases hr : s.homeRead (dramKey (table + 8 * idx)) 8 with ⟨r, t⟩
        cases r <;> simp [Walk.go_bind, Walk.go_get, Walk.go_set, ho, hd, hr] <;> rfl
      · left
        simp [Walk.go_bind, Walk.go_get, ho, hd]
        rfl
    · left
      simp [Walk.go_bind, Walk.go_get, ho]
      rfl
  rcases key with e | e <;> rw [e]
  · exact .refl s
  · exact h

theorem leafOr_keeps (e : Word) (l k : Nat) : (leafOr e l k).Keeps := orPage_keeps _

theorem walkTables_keeps (die part root va : Nat) : (walkTables die part root va).Keeps := by
  unfold walkTables
  repeat' first
    | exact Walk.keeps_pure _
    | exact Walk.keeps_throw _
    | exact Walk.keeps_get
    | exact orPage_keeps _
    | exact pte_keeps _ _ _ _
    | exact leafOr_keeps _ _ _
    | refine Walk.keeps_bind ?_ fun _ => ?_
    | split

theorem State.walkFrom_atHomes (s : State) (die part ctx va : Nat) : AtHomes s (s.walkFrom die part ctx va).2 := by
  unfold State.walkFrom
  split
  · exact .refl s
  · simp only []
    split
    · exact .refl s
    · exact walkTables_keeps _ _ _ _ s

/-- A TLB fill changes what its walk changes, and the core's TLB (R343). -/
theorem State.tlbFill_atHomes (s : State) (c p x a : Nat) : AtHomes s (s.tlbFill c p x a) := by
  unfold State.tlbFill
  split
  · exact .refl s
  · exact (s.walkFrom_atHomes (c / 160) p x a).trans (State.onCore_atHomes _ _ _)

end Sys2Proof.Machine
end

