-- ==== Sys2Proof/Laws/Memory.lean ====
section
/-! SUPPORT. The canonical form of sparse lists and of memory: every operation keeps it, and what a read gives after a write. -/
namespace Sys2Proof.Machine

/-! ### Sparse lists -/

variable {α : Type} [DecidableEq α]

/-- The two halves of the canonical form, from a lower bound on. -/
def Sparse.ok (d : α) (lo : Nat) (m : Sparse α) : Prop := Sparse.above lo m = true ∧ ∀ e ∈ m, e.2 ≠ d

theorem Sparse.wf_iff (d : α) (m : Sparse α) : Sparse.wf d m = true ↔ Sparse.ok d 0 m := by
  simp [Sparse.wf, Sparse.ok]

omit [DecidableEq α] in
theorem Sparse.ok_nil (d : α) (lo : Nat) : Sparse.ok d lo [] := ⟨rfl, by simp⟩

omit [DecidableEq α] in
theorem Sparse.ok_cons_iff (d : α) (lo k : Nat) (v : α) (r : Sparse α) :
    Sparse.ok d lo ((k, v) :: r) ↔ lo ≤ k ∧ v ≠ d ∧ Sparse.ok d (k + 1) r := by
  simp only [Sparse.ok, Sparse.above, Bool.and_eq_true, decide_eq_true_eq, List.mem_cons, forall_eq_or_imp]
  tauto

omit [DecidableEq α] in
theorem Sparse.ok_mono (d : α) {lo hi : Nat} (h : lo ≤ hi) : ∀ {m : Sparse α}, Sparse.ok d hi m → Sparse.ok d lo m
  | [], _ => Sparse.ok_nil d lo
  | (k, v) :: r, hm => by
    rw [Sparse.ok_cons_iff] at hm ⊢
    exact ⟨by omega, hm.2⟩

theorem Sparse.ok_cons (d : α) {lo k : Nat} {v : α} {r : Sparse α} (hk : lo ≤ k) (hr : Sparse.ok d (k + 1) r) : Sparse.ok d lo (Sparse.cons d k v r) := by
  unfold Sparse.cons
  split
  · exact Sparse.ok_mono d (by omega) hr
  · rw [Sparse.ok_cons_iff]; exact ⟨hk, by assumption, hr⟩

theorem Sparse.ok_put (d : α) (i : Nat) (v : α) : ∀ {lo : Nat} {m : Sparse α}, lo ≤ i → Sparse.ok d lo m → Sparse.ok d lo (Sparse.put d m i v)
  | lo, [], hi, _ => Sparse.ok_cons d hi (Sparse.ok_nil d _)
  | lo, (k, w) :: r, hi, hm => by
    rw [Sparse.ok_cons_iff] at hm
    unfold Sparse.put
    split
    · exact Sparse.ok_cons d hi ((Sparse.ok_cons_iff d _ _ _ _).mpr ⟨by omega, hm.2⟩)
    · split
      · subst i; exact Sparse.ok_cons d hi hm.2.2
      · rw [Sparse.ok_cons_iff]; exact ⟨hm.1, hm.2.1, Sparse.ok_put d i v (by omega) hm.2.2⟩

/-- A write keeps the canonical form. -/
theorem Sparse.wf_put (d : α) (m : Sparse α) (i : Nat) (v : α) (h : Sparse.wf d m = true) : Sparse.wf d (Sparse.put d m i v) = true := by
  rw [Sparse.wf_iff] at h ⊢; exact Sparse.ok_put d i v (Nat.zero_le _) h

omit [DecidableEq α] in
theorem Sparse.ok_filter (d : α) (p : Nat × α → Bool) : ∀ {lo : Nat} {m : Sparse α}, Sparse.ok d lo m → Sparse.ok d lo (m.filter p)
  | lo, [], _ => Sparse.ok_nil d lo
  | lo, (k, v) :: r, hm => by
    rw [Sparse.ok_cons_iff] at hm
    rw [List.filter_cons]
    split
    · rw [Sparse.ok_cons_iff]; exact ⟨hm.1, hm.2.1, Sparse.ok_filter d p hm.2.2⟩
    · exact Sparse.ok_mono d (by omega) (Sparse.ok_filter d p hm.2.2)

/-- Dropping entries keeps it. -/
theorem Sparse.wf_filter (d : α) (p : Nat × α → Bool) (m : Sparse α) (h : Sparse.wf d m = true) : Sparse.wf d (m.filter p) = true := by
  rw [Sparse.wf_iff] at h ⊢; exact Sparse.ok_filter d p h

omit [DecidableEq α] in
theorem Sparse.ok_filterMap (d : α) (f : Nat × α → Option (Nat × α)) (hf : ∀ e g, f e = some g → g.1 = e.1 ∧ (e.2 ≠ d → g.2 ≠ d)) :
    ∀ {lo : Nat} {m : Sparse α}, Sparse.ok d lo m → Sparse.ok d lo (m.filterMap f)
  | lo, [], _ => Sparse.ok_nil d lo
  | lo, (k, v) :: r, hm => by
    rw [Sparse.ok_cons_iff] at hm
    rw [List.filterMap_cons]
    cases h : f (k, v) with
    | none => exact Sparse.ok_mono d (by omega) (Sparse.ok_filterMap d f hf hm.2.2)
    | some g =>
      obtain ⟨g1, g2⟩ := g
      obtain ⟨h1, h2⟩ := hf _ _ h
      simp only at h1 h2 ⊢
      subst h1
      rw [Sparse.ok_cons_iff]; exact ⟨hm.1, h2 hm.2.1, Sparse.ok_filterMap d f hf hm.2.2⟩

/-- Changing or dropping entries in place keeps it. -/
theorem Sparse.wf_filterMap (d : α) (f : Nat × α → Option (Nat × α)) (hf : ∀ e g, f e = some g → g.1 = e.1 ∧ (e.2 ≠ d → g.2 ≠ d)) (m : Sparse α)
    (h : Sparse.wf d m = true) : Sparse.wf d (m.filterMap f) = true := by
  rw [Sparse.wf_iff] at h ⊢; exact Sparse.ok_filterMap d f hf h

theorem Sparse.ok_walk (d : α) (f : Nat → α → α) : ∀ (n k : Nat) {m : Sparse α}, Sparse.ok d k m → Sparse.ok d k (Sparse.walk d f k n m)
  | 0, k, m, h => by unfold Sparse.walk; exact h
  | n + 1, k, [], _ => by
    unfold Sparse.walk; exact Sparse.ok_cons d (Nat.le_refl _) (Sparse.ok_walk d f n (k + 1) (Sparse.ok_nil d _))
  | n + 1, k, (j, v) :: r, h => by
    rw [Sparse.ok_cons_iff] at h
    unfold Sparse.walk
    split
    · subst j; exact Sparse.ok_cons d (Nat.le_refl _) (Sparse.ok_walk d f n (k + 1) h.2.2)
    · exact Sparse.ok_cons d (Nat.le_refl _) (Sparse.ok_walk d f n (k + 1) ((Sparse.ok_cons_iff d _ _ _ _).mpr ⟨by omega, h.2⟩))

theorem Sparse.ok_mapRange (d : α) (f : Nat → α → α) (lo n : Nat) : ∀ {b : Nat} {m : Sparse α}, b ≤ lo → Sparse.ok d b m → Sparse.ok d b (Sparse.mapRange d f lo n m)
  | b, [], hb, _ => by unfold Sparse.mapRange; exact Sparse.ok_mono d hb (Sparse.ok_walk d f n lo (Sparse.ok_nil d _))
  | b, (j, v) :: r, hb, h => by
    have h' := (Sparse.ok_cons_iff d _ _ _ _).mp h
    unfold Sparse.mapRange
    split
    · rw [Sparse.ok_cons_iff]; exact ⟨h'.1, h'.2.1, Sparse.ok_mapRange d f lo n (by omega) h'.2.2⟩
    · exact Sparse.ok_mono d hb (Sparse.ok_walk d f n lo ((Sparse.ok_cons_iff d _ _ _ _).mpr ⟨by omega, h'.2⟩))

/-- Changing a range of keys keeps it. -/
theorem Sparse.wf_mapRange (d : α) (f : Nat → α → α) (lo n : Nat) (m : Sparse α) (h : Sparse.wf d m = true) : Sparse.wf d (Sparse.mapRange d f lo n m) = true := by
  rw [Sparse.wf_iff] at h ⊢; exact Sparse.ok_mapRange d f lo n (Nat.zero_le _) h

/-! Reads -/

omit [DecidableEq α] in
theorem Sparse.get_below (d : α) : ∀ {lo i : Nat} {m : Sparse α}, Sparse.ok d lo m → i < lo → Sparse.get d m i = d
  | _, _, [], _, _ => rfl
  | lo, i, (k, v) :: r, h, hi => by
    rw [Sparse.ok_cons_iff] at h
    unfold Sparse.get
    rw [if_neg (by omega), if_pos (by omega)]

theorem Sparse.get_cons (d : α) {k i : Nat} {v : α} {r : Sparse α} (hr : Sparse.ok d (k + 1) r) :
    Sparse.get d (Sparse.cons d k v r) i = if i = k then v else if i < k then d else Sparse.get d r i := by
  unfold Sparse.cons
  split
  · subst v
    split
    · subst i; exact Sparse.get_below d hr (by omega)
    · split
      · exact Sparse.get_below d hr (by omega)
      · rfl
  · rfl

theorem Sparse.get_put_aux (d : α) (i : Nat) (v : α) (j : Nat) : ∀ {lo : Nat} {m : Sparse α}, Sparse.ok d lo m →
    Sparse.get d (Sparse.put d m i v) j = if j = i then v else Sparse.get d m j
  | lo, [], _ => by
    unfold Sparse.put
    rw [Sparse.get_cons d (Sparse.ok_nil d _)]; simp [Sparse.get]
  | lo, (k, w) :: r, hm => by
    rw [Sparse.ok_cons_iff] at hm
    unfold Sparse.put
    split
    · rw [Sparse.get_cons d ((Sparse.ok_cons_iff d _ _ _ _).mpr ⟨by omega, hm.2⟩)]
      split
      · rfl
      · split
        · rw [Sparse.get, if_neg (by omega), if_pos (by omega)]
        · rfl
    · split
      · subst i
        rw [Sparse.get_cons d hm.2.2]
        rw [Sparse.get]
        by_cases h1 : j = k
        · rw [if_pos h1, if_pos h1]
        · simp only [h1, ↓reduceIte]
      · unfold Sparse.get
        rw [Sparse.get_put_aux d i v j hm.2.2]
        split <;> split <;> (try split) <;> first | rfl | omega

/-- A read after a write. -/
theorem Sparse.get_put (d : α) (m : Sparse α) (i j : Nat) (v : α) (h : Sparse.wf d m = true) :
    Sparse.get d (Sparse.put d m i v) j = if j = i then v else Sparse.get d m j :=
  Sparse.get_put_aux d i v j ((Sparse.wf_iff d m).mp h)

omit [DecidableEq α] in
theorem Sparse.get_filter_aux (d : α) (p : Nat → Bool) (i : Nat) : ∀ {lo : Nat} {m : Sparse α}, Sparse.ok d lo m →
    Sparse.get d (m.filter fun e => p e.1) i = if p i then Sparse.get d m i else d
  | lo, [], _ => by simp [Sparse.get]
  | lo, (k, v) :: r, hm => by
    rw [Sparse.ok_cons_iff] at hm
    rw [List.filter_cons]
    have ih := Sparse.get_filter_aux d p i hm.2.2
    by_cases hk : p k = true
    · simp only [hk, ↓reduceIte]
      unfold Sparse.get
      rw [ih]
      by_cases h1 : i = k
      · subst i; simp [hk]
      · by_cases h2 : i < k <;> simp [h1, h2]
    · simp only [hk]
      rw [if_neg (by simp), ih]
      by_cases h1 : i = k
      · subst i; simp [hk]
      · by_cases h2 : i < k
        · rw [Sparse.get_below d hm.2.2 (by omega)]
          conv_rhs => unfold Sparse.get
          simp [h1, h2]
        · conv_rhs => unfold Sparse.get
          simp [h1, h2]

/-- A read after entries are dropped by their keys. -/
theorem Sparse.get_filter (d : α) (p : Nat → Bool) (m : Sparse α) (i : Nat) (h : Sparse.wf d m = true) :
    Sparse.get d (m.filter fun e => p e.1) i = if p i then Sparse.get d m i else d :=
  Sparse.get_filter_aux d p i ((Sparse.wf_iff d m).mp h)

theorem Sparse.get_walk (d : α) (f : Nat → α → α) (i : Nat) : ∀ (n k : Nat) {m : Sparse α}, Sparse.ok d k m →
    Sparse.get d (Sparse.walk d f k n m) i = if k ≤ i ∧ i < k + n then f i (Sparse.get d m i) else Sparse.get d m i
  | 0, k, m, h => by
    unfold Sparse.walk; rw [if_neg (by omega)]
  | n + 1, k, [], _ => by
    unfold Sparse.walk
    rw [Sparse.get_cons d (Sparse.ok_walk d f n (k + 1) (Sparse.ok_nil d _)), Sparse.get_walk d f i n (k + 1) (Sparse.ok_nil d _)]
    simp only [Sparse.get]
    by_cases h1 : i = k
    · subst i; simp
    · by_cases h2 : i < k
      · rw [if_neg h1, if_pos h2, if_neg (by omega)]
      · rw [if_neg h1, if_neg h2]
        by_cases h3 : k + 1 ≤ i ∧ i < k + 1 + n
        · rw [if_pos h3, if_pos (by omega)]
        · rw [if_neg h3, if_neg (by omega)]
  | n + 1, k, (j, v) :: r, h => by
    have h' := (Sparse.ok_cons_iff d _ _ _ _).mp h
    unfold Sparse.walk
    by_cases hj : j = k
    · subst j
      rw [if_pos rfl, Sparse.get_cons d (Sparse.ok_walk d f n (k + 1) h'.2.2), Sparse.get_walk d f i n (k + 1) h'.2.2]
      by_cases h1 : i = k
      · subst i; simp [Sparse.get]
      · have hg : Sparse.get d ((k, v) :: r) i = if i < k then d else Sparse.get d r i := by rw [Sparse.get, if_neg h1]
        rw [hg, if_neg h1]
        by_cases h2 : i < k
        · rw [if_pos h2, if_neg (by omega), if_pos h2]
        · simp only [h2, ↓reduceIte]
          by_cases h3 : k + 1 ≤ i ∧ i < k + 1 + n
          · rw [if_pos h3, if_pos (by omega)]
          · rw [if_neg h3, if_neg (by omega)]
    · have hr : Sparse.ok d (k + 1) ((j, v) :: r) := (Sparse.ok_cons_iff d _ _ _ _).mpr ⟨by omega, h'.2⟩
      rw [if_neg hj, Sparse.get_cons d (Sparse.ok_walk d f n (k + 1) hr), Sparse.get_walk d f i n (k + 1) hr]
      by_cases h1 : i = k
      · subst i
        have hg : Sparse.get d ((j, v) :: r) k = d := Sparse.get_below d hr (by omega)
        rw [if_pos rfl, hg, if_pos (by omega)]
      · by_cases h2 : i < k
        · rw [if_neg h1, if_pos h2, if_neg (by omega), Sparse.get_below d h h2]
        · rw [if_neg h1, if_neg h2]
          by_cases h3 : k + 1 ≤ i ∧ i < k + 1 + n
          · rw [if_pos h3, if_pos (by omega)]
          · rw [if_neg h3, if_neg (by omega)]

theorem Sparse.get_mapRange_aux (d : α) (f : Nat → α → α) (lo n i : Nat) : ∀ {b : Nat} {m : Sparse α}, b ≤ lo → Sparse.ok d b m →
    Sparse.get d (Sparse.mapRange d f lo n m) i = if lo ≤ i ∧ i < lo + n then f i (Sparse.get d m i) else Sparse.get d m i
  | b, [], _, _ => by unfold Sparse.mapRange; exact Sparse.get_walk d f i n lo (Sparse.ok_nil d _)
  | b, (j, v) :: r, hb, h => by
    have h' := (Sparse.ok_cons_iff d _ _ _ _).mp h
    unfold Sparse.mapRange
    by_cases hj : j < lo
    · rw [if_pos hj]
      have ih := Sparse.get_mapRange_aux d f lo n i (b := j + 1) (by omega) h'.2.2
      unfold Sparse.get
      rw [ih]
      by_cases h1 : i = j
      · rw [if_pos h1, if_pos h1, if_neg (by omega)]
      · by_cases h2 : i < j
        · rw [if_neg h1, if_pos h2, if_neg h1, if_pos h2, if_neg (by omega)]
        · simp only [h1, h2, ↓reduceIte]
    · rw [if_neg hj]; exact Sparse.get_walk d f i n lo ((Sparse.ok_cons_iff d _ _ _ _).mpr ⟨by omega, h'.2⟩)

/-- A read after a range of keys is changed. -/
theorem Sparse.get_mapRange (d : α) (f : Nat → α → α) (lo n i : Nat) (m : Sparse α) (h : Sparse.wf d m = true) :
    Sparse.get d (Sparse.mapRange d f lo n m) i = if lo ≤ i ∧ i < lo + n then f i (Sparse.get d m i) else Sparse.get d m i :=
  Sparse.get_mapRange_aux d f lo n i (Nat.zero_le _) ((Sparse.wf_iff d m).mp h)

/-! ### Memory -/

/-- A byte write keeps the canonical form. -/
theorem memPut_wf (m : List Host.Cell) (k : Nat) (b : Byte) (h : Memory.wf m = true) : Memory.wf (memPut m k b) = true := Sparse.wf_put _ m k b h

/-- Consecutive byte writes keep it. -/
theorem memPutBytes_wf : ∀ (l : List Byte) (m : List Host.Cell) (k : Nat), Memory.wf m = true → Memory.wf (memPutBytes m k l) = true
  | [], _, _, h => h
  | b :: r, m, k, h => memPutBytes_wf r (memPut m k b) (k + 1) (memPut_wf m k b h)

/-- Byte writes at any keys keep it. -/
theorem foldPut_wf (g : Nat × Byte → Byte) (l : List (Nat × Byte)) (m : List Host.Cell) (h : Memory.wf m = true) :
    Memory.wf (l.foldl (fun m b => memPut m b.1 (g b)) m) = true := by
  induction l generalizing m with
  | nil => exact h
  | cons b r ih => exact ih _ (memPut_wf m b.1 (g b) h)

theorem State.putNat_wf (s : State) (k n v : Nat) (h : Memory.wf s.mem = true) : Memory.wf (s.putNat k n v).mem = true := memPutBytes_wf _ _ _ h
theorem State.applyBytes_wf (s : State) (l : List (Nat × Byte)) (h : Memory.wf s.mem = true) : Memory.wf (s.applyBytes l).mem = true := foldPut_wf _ _ _ h
theorem State.applyLine_wf (s : State) (line : Nat) (m : BitVec 64) (d : BitVec 512) (h : Memory.wf s.mem = true) :
    Memory.wf (s.applyLine line m d).mem = true := foldPut_wf _ _ _ h
/-- Clearing V in guard tables keeps it. -/
theorem State.clearV_wf (s : State) (ps : List Partition) (h : Memory.wf s.mem = true) : Memory.wf (s.clearV ps).mem = true := by
  unfold State.clearV
  split
  · apply Sparse.wf_filterMap _ _ _ _ h
    intro e g hg
    split at hg
    · split at hg
      · exact absurd hg (by simp)
      · obtain rfl := Option.some.inj hg
        exact ⟨rfl, fun _ => by assumption⟩
    · obtain rfl := Option.some.inj hg
      exact ⟨rfl, id⟩
  · induction ps generalizing s with
    | nil => exact h
    | cons p r ih =>
      rw [List.foldl_cons]
      apply ih
      · split
        · exact h
        · exact Sparse.wf_mapRange _ _ _ _ _ h
      · split <;> assumption
theorem State.invalidateGuards_wf (s : State) (h : Memory.wf s.mem = true) : Memory.wf s.invalidateGuards.mem = true := State.clearV_wf s _ h
theorem clearSpad_wf (core : Nat) (l : List (Nat × Nat)) (m : List Host.Cell) (h : Memory.wf m = true) : Memory.wf (clearSpad core l m) = true :=
  Sparse.wf_filter _ _ _ h
theorem State.scrub_wf (s : State) (kid : Nat) (l : List (Nat × Nat)) (h : Memory.wf s.mem = true) : Memory.wf (s.scrub kid l).mem = true := h
/-- Memory after reset is in the canonical form. -/
theorem reset_mem_wf : Memory.wf State.reset.mem = true := rfl

/-- A byte after a byte write. -/
theorem get_memPut (m : List Host.Cell) (k j : Nat) (b : Byte) (h : Memory.wf m = true) :
    Sparse.get memDefault (memPut m k b) j = if j = k then b else Sparse.get memDefault m j := Sparse.get_put _ m k j b h

/-- A byte after consecutive byte writes. -/
theorem get_memPutBytes : ∀ (l : List Byte) (m : List Host.Cell) (k j : Nat), Memory.wf m = true →
    Sparse.get memDefault (memPutBytes m k l) j = if k ≤ j ∧ j < k + l.length then l.getD (j - k) 0 else Sparse.get memDefault m j
  | [], m, k, j, _ => by
    show Sparse.get memDefault m j = _
    rw [if_neg (by simp)]
  | b :: r, m, k, j, h => by
    rw [memPutBytes, get_memPutBytes r _ _ _ (memPut_wf m k b h), get_memPut m k j b h]
    by_cases h1 : j = k
    · subst j; rw [if_neg (by omega), if_pos rfl, if_pos (by simp)]; simp
    · by_cases h2 : k + 1 ≤ j ∧ j < k + 1 + r.length
      · rw [if_pos h2, if_pos (by simp; omega)]
        have : j - k = (j - (k + 1)) + 1 := by omega
        rw [this]; rfl
      · rw [if_neg h2, if_neg h1, if_neg (by simp; omega)]

theorem natBytes_length : ∀ n v, (natBytes n v).length = n
  | 0, _ => rfl
  | n + 1, v => by simp [natBytes, natBytes_length n]
theorem natBytes_getD : ∀ (n v i : Nat), i < n → (natBytes n v).getD i 0 = BitVec.ofNat 8 (v / 256 ^ i)
  | n + 1, v, 0, _ => by simp [natBytes]
  | n + 1, v, i + 1, h => by
    have := natBytes_getD n (v / 256) i (by omega)
    simp only [natBytes, List.getD_cons_succ, this, Nat.div_div_eq_div_mul, pow_succ, Nat.mul_comm]

/-- Bytes as they are stored read back as they are (R350). -/
theorem storedBytes_length (pads : List ((Nat × Nat) × Nat)) : ∀ k l, (storedBytes pads k l).length = l.length
  | _, [] => rfl
  | k, b :: r => by simp [storedBytes, storedBytes_length pads (k + 1) r]
theorem storedBytes_getD (pads : List ((Nat × Nat) × Nat)) : ∀ (k : Nat) (l : List Byte) (i : Nat), i < l.length →
    (storedBytes pads k l).getD i 0 ^^^ padOf pads (k + i) = l.getD i 0
  | k, b :: r, 0, _ => by simp [storedBytes]
  | k, b :: r, i + 1, h => by
    have := storedBytes_getD pads (k + 1) r i (by simpa using h)
    rw [show k + (i + 1) = k + 1 + i by omega]
    simpa [storedBytes] using this

/-- A byte after a number is written (R57). -/
theorem State.byte_putNat (s : State) (k n v j : Nat) (h : Memory.wf s.mem = true) :
    (s.putNat k n v).byte j = if k ≤ j ∧ j < k + n then BitVec.ofNat 8 (v / 256 ^ (j - k)) else s.byte j := by
  unfold State.putNat State.byte
  simp only
  rw [get_memPutBytes _ _ _ _ h, storedBytes_length, natBytes_length]
  split
  · have := storedBytes_getD s.sys.pads k (natBytes n v) (j - k) (by rw [natBytes_length]; omega)
    rwa [show k + (j - k) = j by omega, natBytes_getD _ _ _ (by omega)] at this
  · rfl

theorem State.memNat_congr (s t : State) : ∀ (n k : Nat), (∀ j, k ≤ j → j < k + n → t.byte j = s.byte j) → t.memNat k n = s.memNat k n
  | 0, _, _ => rfl
  | n + 1, k, h => by
    unfold State.memNat
    rw [h k (by omega) (by omega), State.memNat_congr s t n (k + 1) fun j h1 h2 => h j (by omega) (by omega)]

/-- A number read back (R57). -/
theorem State.memNat_putNat (s : State) (k v : Nat) (h : Memory.wf s.mem = true) : ∀ n, (s.putNat k n v).memNat k n = v % 256 ^ n := by
  intro n
  have key : ∀ m i, i + m = n → (s.putNat k n v).memNat (k + i) m = v / 256 ^ i % 256 ^ m := by
    intro m
    induction m with
    | zero => intro i _; simp [State.memNat, Nat.mod_one]
    | succ m ih =>
      intro i hi
      unfold State.memNat
      have h1 : k + i + 1 = k + (i + 1) := by omega
      rw [h1, ih (i + 1) (by omega), State.byte_putNat s k n v _ h, if_pos (by omega)]
      have h2 : k + i - k = i := by omega
      rw [h2, BitVec.toNat_ofNat, pow_succ 256 i, ← Nat.div_div_eq_div_mul, pow_succ 256 m, Nat.mul_comm (256 ^ m) 256, Nat.mod_mul]
  simpa using key n 0 (by omega)

/-- Writing a number leaves every other byte. -/
theorem State.byte_putNat_ne (s : State) (k n v j : Nat) (h : Memory.wf s.mem = true) (hj : j < k ∨ k + n ≤ j) : (s.putNat k n v).byte j = s.byte j := by
  rw [State.byte_putNat s k n v j h, if_neg (by omega)]

/-- A byte after (key, byte) pairs of different keys are written. -/
theorem State.byte_applyBytes (s : State) (l : List (Nat × Byte)) (j : Nat) (h : Memory.wf s.mem = true) (hn : (l.map (·.1)).Nodup) :
    (s.applyBytes l).byte j = ((l.find? fun b => b.1 == j).map (·.2)).getD (s.byte j) := by
  have key : ∀ (l : List (Nat × Byte)) (m : List Host.Cell), Memory.wf m = true → (l.map (·.1)).Nodup →
      Sparse.get memDefault (l.foldl (fun m b => memPut m b.1 (b.2 ^^^ padOf s.sys.pads b.1)) m) j ^^^ padOf s.sys.pads j =
        ((l.find? fun b => b.1 == j).map (·.2)).getD (Sparse.get memDefault m j ^^^ padOf s.sys.pads j) := by
    intro l
    induction l with
    | nil => exact fun _ _ _ => rfl
    | cons b r ih =>
      intro m hm hn
      rw [List.map_cons, List.nodup_cons] at hn
      rw [List.foldl_cons, ih _ (memPut_wf m b.1 _ hm) hn.2, List.find?_cons, get_memPut m b.1 j _ hm]
      by_cases hb : b.1 = j
      · subst j
        have hr : r.find? (fun c => c.1 == b.1) = none := by
          rw [List.find?_eq_none]; intro c hc; simp; intro e; exact hn.1 (e ▸ List.mem_map_of_mem hc)
        simp [hr]
      · have h2 : (b.1 == j) = false := by simpa using hb
        have h3 : ¬ j = b.1 := fun e => hb e.symm
        simp only [h2, h3, ↓reduceIte]
  exact key l s.mem h hn

end Sys2Proof.Machine
end

