-- ==== Sys2Proof/Laws/Ops.lean ====
section
/-! SUPPORT. What the shared operations can do, each said once: traps and returns, the vector stream's issue, fields joined in a
number, register groups, and the scalar store. -/
namespace Sys2Proof.Machine

/-! ### Traps (R23, R24) -/

theorem postFault_frame (h : Hart) (s : State) :
    (postFault h s).hart = s.hart ∧ (postFault h s).others = s.others ∧ (postFault h s).places = s.places ∧ (postFault h s).cores = s.cores ∧
    (postFault h s).mem = s.mem ∧ (postFault h s).coh = s.coh ∧ (postFault h s).eng = s.eng ∧ (postFault h s).env = s.env :=
  ⟨rfl, rfl, rfl, rfl, rfl, rfl, rfl, rfl⟩

/-- What taking a trap changes: the hart, the links and monitors it holds, and the fault queue of its partition. -/
theorem takeTrap_frame (c : Cause) (v p : Word) (e : Nat) (n : Option Word) (s : State) :
    let stops := s.hart.inHandler || unhandled (s.descOf s.hart) c
    let t := takeTrap c v p e n s
    t.hart = { s.hart.trapped stops c v p e n with faultHart := t.hart.faultHart } ∧ t.others = s.others ∧ t.places = s.places ∧ t.cores = s.cores ∧ t.mem = s.mem ∧
    t.eng = s.eng ∧ t.env = s.env := by
  intro stops t
  simp only [t, takeTrap]
  split <;> exact ⟨rfl, rfl, rfl, rfl, rfl, rfl, rfl⟩

@[simp] theorem State.trap_mem (s : State) (c : Cause) (v : Word) (e : Nat) : (s.trap c v e).mem = s.mem := (takeTrap_frame c v s.hart.pc e none s).2.2.2.2.1
@[simp] theorem State.trap_places (s : State) (c : Cause) (v : Word) (e : Nat) : (s.trap c v e).places = s.places := (takeTrap_frame c v s.hart.pc e none s).2.2.1
@[simp] theorem State.trap_others (s : State) (c : Cause) (v : Word) (e : Nat) : (s.trap c v e).others = s.others := (takeTrap_frame c v s.hart.pc e none s).2.1
@[simp] theorem State.trap_cores (s : State) (c : Cause) (v : Word) (e : Nat) : (s.trap c v e).cores = s.cores := (takeTrap_frame c v s.hart.pc e none s).2.2.2.1
@[simp] theorem State.trap_eng (s : State) (c : Cause) (v : Word) (e : Nat) : (s.trap c v e).eng = s.eng := (takeTrap_frame c v s.hart.pc e none s).2.2.2.2.2.1
@[simp] theorem parkTrap_mem (e : VEntry) (k : Option Word) (c : Cause) (v : Word) (n : Nat) (s : State) : (parkTrap e k c v n s).mem = s.mem := by
  simp only [parkTrap, takeTrap]; split <;> rfl
@[simp] theorem parkTrap_places (e : VEntry) (k : Option Word) (c : Cause) (v : Word) (n : Nat) (s : State) : (parkTrap e k c v n s).places = s.places := by
  simp only [parkTrap, takeTrap]; split <;> rfl

/-- The x registers, memory side and vector state are as before a trap. -/
theorem Hart.trapped_frame (h : Hart) (b : Bool) (c : Cause) (v p : Word) (e : Nat) (n : Option Word) :
    let g := h.trapped b c v p e n
    g.id = h.id ∧ g.x = h.x ∧ g.v = h.v ∧ g.hdr = h.hdr ∧ g.k = h.k ∧ g.q = h.q ∧ g.z = h.z ∧ g.f = h.f ∧ g.vr = h.vr ∧ g.fl = h.fl ∧ g.ssb = h.ssb ∧
    g.psf = h.psf ∧ g.cpf = h.cpf ∧ g.tk = h.tk ∧ g.quads = h.quads ∧ g.win = h.win := by
  cases b <;> exact ⟨rfl, rfl, rfl, rfl, rfl, rfl, rfl, rfl, rfl, rfl, rfl, rfl, rfl, rfl, rfl, rfl⟩

/-- A trap outside a handler, of a handled cause, continues at TVEC. -/
theorem State.trap_handled (s : State) (c : Cause) (v : Word) (e : Nat) (h1 : s.hart.inHandler = false) (h2 : unhandled (s.descOf s.hart) c = false) :
    (s.trap c v e).hart = s.hart.trapped false c v s.hart.pc e none := by
  simp [State.trap, takeTrap, h1, h2]

/-! ### Outcomes -/

/-- The next state of an instruction that writes one register and retires. -/
theorem State.result_eq (s : State) (d : Reg) (w : Word) : s.result d w = .next (s.set d w).advance := rfl
theorem State.result_next {s t : State} {d : Reg} {w : Word} (h : s.result d w = .next t) : t = (s.set d w).advance := by
  injection h with h; exact h.symm

/-! ### The vector stream's issue (R63, R81, R263) -/

/-- A word that the vector stream issues runs its body. -/
theorem vissue_issued (w : IWord) (body : Body) (s : State) (e : VEntry) (h : s.env.issue = some e) :
    vissue w body s = runBody body e { s with env := { s.env with issue := none } } := by
  simp only [vissue, h]

/-- A word taken at once runs its body on the state past it. -/
theorem vissue_atOnce {s : State} {i : Instr} (body : Body) (h : TakesAtOnce s i) :
    vissue (encode i) body s = runBody body (entryOf s.hart (encode i)) (s.pushed (entryOf s.hart (encode i))) := by
  obtain ⟨h1, h2, h3, h4, h7, h5, h6⟩ := h
  generalize he : entryOf s.hart (encode i) = e
  have hl : (s.pushed e).env.lag = [] := h2
  have ht : { s.pushed e with env := { (s.pushed e).env with lag := (s.pushed e).env.lag.tail } } = s.pushed e := by
    rw [hl]; simp only [List.tail_nil]; rw [← hl]
  simp only [vissue, h1, h3, h6, h2, he, List.isEmpty_nil, Bool.not_true, Bool.false_eq_true, ↓reduceIte, List.headD_nil, ht]

/-- A word that no return from a trap restarts and that belongs to no loop body starts at element 0. -/
theorem entryOf_fresh (h : Hart) (w : IWord) (hr : h.restart = none) (hb : h.inBody = none) :
    entryOf h w = { word := w, pc := h.pc, xa := (captureOps h w).1, xb := (captureOps h w).2.1, xc := (captureOps h w).2.2 } := by
  simp [entryOf, hr, hb]

theorem runBody_done {body : Body} {e : VEntry} {s t : State} (h : body e s = .done t) : runBody body e s = .next (t.onHart (·.replay e)) := by
  simp [runBody, h]
theorem runBody_block {body : Body} {e e' : VEntry} {s t : State} {w : Wait} (h : body e s = .block w e' t) :
    runBody body e s = .next (t.onHart (·.requeue e')) := by
  simp [runBody, h]
theorem runBody_trap {body : Body} {e e' : VEntry} {s t : State} {c : Cause} {v : Word} {n : Nat} (h : body e s = .trap e' c v n t) :
    runBody body e s = .next (parkTrap e' e'.kept c v n t) := by
  simp [runBody, h]

/-- An entry that no `zloop` repeats leaves the hart as it is. -/
theorem Hart.replay_plain (h : Hart) (e : VEntry) (he : e.last = false) : h.replay e = h := by simp [Hart.replay, he]

/-- Everything a vector-stream word can do: it answers a next state always. -/
theorem vissue_next (w : IWord) (body : Body) (s : State) : ∃ t, vissue w body s = .next t := by
  have run : ∀ e u, ∃ t, runBody body e u = .next t := fun e u => by
    unfold runBody; split <;> exact ⟨_, rfl⟩
  simp only [vissue]
  repeat' split
  all_goals first | exact ⟨_, rfl⟩ | exact run _ _

/-! ### Fields joined in a number -/

theorem joinNat_lt (w : Nat) (f : Nat → Nat) : ∀ n, joinNat w f n < 2 ^ (w * n)
  | 0 => by simp [joinNat]
  | n + 1 => by
    have h1 := joinNat_lt w f n
    have h2 : f n % 2 ^ w < 2 ^ w := Nat.mod_lt _ (Nat.two_pow_pos w)
    have h3 : 2 ^ (w * (n + 1)) = 2 ^ w * 2 ^ (w * n) := by rw [← pow_add]; congr 1; ring
    rw [joinNat, h3]
    calc joinNat w f n + f n % 2 ^ w * 2 ^ (w * n) < 2 ^ (w * n) + f n % 2 ^ w * 2 ^ (w * n) := by omega
      _ = (f n % 2 ^ w + 1) * 2 ^ (w * n) := by ring
      _ ≤ 2 ^ w * 2 ^ (w * n) := Nat.mul_le_mul_right _ h2

/-- Element `i` of what was joined. -/
theorem elemOf_joinNat (w : Nat) (f : Nat → Nat) (n i : Nat) (h : i < n) : elemOf (joinNat w f n) w i = f i % 2 ^ w := by
  induction n with
  | zero => omega
  | succ n ih =>
    have h1 := joinNat_lt w f n
    unfold elemOf at ih ⊢
    rw [joinNat]
    by_cases hi : i = n
    · subst hi
      rw [Nat.add_mul_div_right _ _ (Nat.two_pow_pos _), Nat.div_eq_of_lt h1, Nat.zero_add, Nat.mod_mod]
    · have hin : i < n := by omega
      have hs : 2 ^ (w * n) = 2 ^ (w * i) * (2 ^ w * 2 ^ (w * (n - 1 - i))) := by
        rw [← pow_add, ← pow_add]; congr 1
        have : n = i + (1 + (n - 1 - i)) := by omega
        conv_lhs => rw [this]
        ring
      rw [← ih hin, hs, show f n % 2 ^ w * (2 ^ (w * i) * (2 ^ w * 2 ^ (w * (n - 1 - i)))) = 2 ^ (w * i) * (2 ^ w * (f n % 2 ^ w * 2 ^ (w * (n - 1 - i)))) by ring,
        Nat.add_mul_div_left _ _ (Nat.two_pow_pos _), Nat.add_mul_mod_self_left]

/-- Element `i` past what was joined is 0. -/
theorem elemOf_joinNat_ge (w : Nat) (f : Nat → Nat) (n i : Nat) (h : n ≤ i) : elemOf (joinNat w f n) w i = 0 := by
  unfold elemOf
  rw [Nat.div_eq_of_lt (lt_of_lt_of_le (joinNat_lt w f n) (Nat.pow_le_pow_right (by omega) (Nat.mul_le_mul_left w h))), Nat.zero_mod]

/-- Two joins are equal when their fields are. -/
theorem joinNat_congr (w : Nat) (f g : Nat → Nat) : ∀ n, (∀ i, i < n → f i % 2 ^ w = g i % 2 ^ w) → joinNat w f n = joinNat w g n
  | 0, _ => rfl
  | n + 1, h => by rw [joinNat, joinNat, h n (by omega), joinNat_congr w f g n fun i hi => h i (by omega)]

/-- The bits of a join of single bits. -/
theorem testBit_joinNat_one (f : Nat → Nat) (n i : Nat) (h : i < n) : (joinNat 1 f n).testBit i = decide (f i % 2 = 1) := by
  have := elemOf_joinNat 1 f n i h
  unfold elemOf at this
  rw [Nat.testBit_eq_decide_div_mod_eq]
  simpa using congrArg (fun x => decide (x = 1)) this

/-! ### Registers outside a group -/

/-- Writing a group leaves the registers outside it. -/
theorem Hart.putGroup_other (h : Hart) (b n x : Nat) (r : Fin 32) (hr : r.val < b ∨ b + n ≤ r.val) : (h.putGroup b n x).v.get r = h.v.get r := by
  simp only [Hart.putGroup, Vector.get_eq_getElem, Vector.getElem_ofFn]
  rw [if_neg (by omega)]
/-- And every other part of the hart. -/
theorem Hart.putGroup_frame (h : Hart) (b n x : Nat) : h.putGroup b n x = { h with v := (h.putGroup b n x).v } := rfl
/-- Writing a mask register leaves the others. -/
theorem Hart.putK_other (h : Hart) (k : Nat) (x : BitVec 4096) (r : Fin 8) (hr : r.val ≠ k % 8) : (h.putK k x).k.get r = h.k.get r := by
  have : ¬ k % 8 = r.val := by omega
  simp [Hart.putK, Vector.get_eq_getElem, this]

/-- The registers of a group, read back after the group is written (R7). -/
theorem Hart.group_putGroup (h : Hart) (b n x : Nat) (hb : b + n ≤ 32) (hq : h.vr.quads ≤ 8) (hx : x < 2 ^ (512 * h.vr.quads * n)) :
    (h.putGroup b n x).group b n = x := by
  have hw : ∀ j, j < n → ((h.putGroup b n x).vreg (b + j)).toNat = elemOf x (512 * h.vr.quads) j := by
    intro j hj
    have h1 : (b + j) % 32 = b + j := by omega
    have h2 : b + j - b = j := by omega
    simp only [Hart.vreg, Hart.putGroup, Vector.get_eq_getElem, Vector.getElem_ofFn, elemOf, h1, h2]
    rw [if_pos (by omega), BitVec.toNat_ofNat]
    exact Nat.mod_eq_of_lt (lt_of_lt_of_le (Nat.mod_lt _ (Nat.two_pow_pos _)) (Nat.pow_le_pow_right (by omega) (by omega)))
  have key : ∀ m, m ≤ n → joinNat (512 * h.vr.quads) (fun j => ((h.putGroup b n x).vreg (b + j)).toNat) m = x % 2 ^ (512 * h.vr.quads * m) := by
    intro m
    induction m with
    | zero => intro _; simp [joinNat, Nat.mod_one]
    | succ m ih =>
      intro hm
      rw [joinNat, ih (by omega), hw m (by omega)]
      have h3 : 2 ^ (512 * h.vr.quads * (m + 1)) = 2 ^ (512 * h.vr.quads * m) * 2 ^ (512 * h.vr.quads) := by rw [← pow_add]; congr 1
      rw [h3, Nat.mod_mul]
      simp only [elemOf, Nat.mod_mod]
      ring
  show joinNat (512 * h.vr.quads) _ n = x
  rw [key n (Nat.le_refl n), Nat.mod_eq_of_lt hx]

/-! ### What accounting an access changes -/

theorem State.logError_frame (s : State) (r : BitVec 256) : s.logError r = { s with sys := (s.logError r).sys } := by
  simp only [State.logError]; split <;> rfl

/-- The race detector changes the error log and the shadow alone (R390). -/
theorem State.race_frame {s u : State} {h : Hart} {k n : Nat} {w a : Bool} (hu : s.race h k n w a = some u) :
    u = { s with coh := { s.coh with shadow := u.coh.shadow }, sys := u.sys } := by
  unfold State.race at hu
  simp only [] at hu
  split at hu
  · injection hu with hu; subst hu; rfl
  · split at hu
    · exact absurd hu (by simp)
    · split at hu <;> split at hu <;> (injection hu with hu; subst hu; (try rw [State.logError_frame]); first | rfl | skip)

/-- A scalar store writes nothing yet: it waits in the SSB. What the hart's task holds and the other harts stay as they are, and so does
memory for a local address, which no walk translates. -/
theorem State.scalarStore_keeps {s t : State} {a len : Nat} {w : Word} {r : Rd} (h : s.scalarStore a len w = (r, t)) :
    t.places = s.places ∧ t.others = s.others ∧ (isLocal a = true → t.mem = s.mem) := by
  unfold State.scalarStore at h
  simp only [] at h
  repeat' split at h
  all_goals (injection h with _ h; subst h)
  all_goals first
    | exact ⟨rfl, rfl, fun _ => rfl⟩
    | (have hf := State.race_frame ‹s.race _ _ _ _ _ = some _›; rw [hf]; exact ⟨rfl, rfl, fun _ => rfl⟩)
    | (have hf := State.race_frame ‹s.race _ _ _ _ _ = some _›
       have ht := State.tlbFill_atHomes ‹State› s.hart.core s.hart.tk.part s.hart.tk.ctx a
       refine ⟨ht.places.trans (by rw [hf]), ht.others.trans (by rw [hf]), fun hl => absurd hl ‹_›⟩)

end Sys2Proof.Machine
end

