-- ==== Sys2Proof/Laws/PerInstr.lean ====
section
/-! SUPPORT. Lemmas per instruction: the function codes of an instruction's own word select that instruction (R63 to R76). -/
set_option Elab.async false
set_option linter.unusedSimpArgs false
namespace Sys2Proof.Laws.OwnWord

/-- A field wholly in the low part of a word. -/
theorem ext_lo {n m : Nat} (x : BitVec n) (y : BitVec m) (s l : Nat) (h : s + l ≤ m) :
    (x ++ y).extractLsb' s l = y.extractLsb' s l := by
  apply BitVec.eq_of_getLsbD_eq; intro i hi
  simp [BitVec.getLsbD_append, hi]; omega
/-- A field wholly in the high part. -/
theorem ext_hi {n m : Nat} (x : BitVec n) (y : BitVec m) (s l : Nat) (h : m ≤ s) :
    (x ++ y).extractLsb' s l = x.extractLsb' (s - m) l := by
  apply BitVec.eq_of_getLsbD_eq; intro i hi
  have : ¬ (s + i < m) := by omega
  simp [BitVec.getLsbD_append, hi, this]; congr 1; omega
/-- The whole. -/
theorem ext_self {n : Nat} (x : BitVec n) : x.extractLsb' 0 n = x := by
  apply BitVec.eq_of_getLsbD_eq; intro i hi; simp [hi]
/-- A one-bit field of a Bool. -/
theorem isOne_bit1 (b : Bool) : isOne (bit1 b) = b := by cases b <;> rfl
/-- A scope field reads back. -/
theorem Scope.ofCode_code (s : Scope) : Scope.ofCode s.code = some s := by cases s <;> rfl
/-- A rounding field reads back. -/
theorem Rm.ofCode_code (m : Rm) : Rm.ofCode m.code = some m := by cases m <;> rfl

/-- The decoder's tables select a word instruction from its own word. -/
def Statement (i : Instr) : Prop := i.isWord = true → rawDecode (encode i) = some i

theorem raw_1 {w : IWord} (h : fld w 26 6 = 1#6) : rawDecode w = decSys w := by unfold rawDecode; rw [h]; rfl
theorem raw_2 {w : IWord} (h : fld w 26 6 = 2#6) : rawDecode w = decBr w := by unfold rawDecode; rw [h]; rfl
theorem raw_3 {w : IWord} (h : fld w 26 6 = 3#6) : rawDecode w = some (.j (fld w 0 26)) := by unfold rawDecode; rw [h]; rfl
theorem raw_4 {w : IWord} (h : fld w 26 6 = 4#6) : rawDecode w = some (.jal (fld w 0 26)) := by unfold rawDecode; rw [h]; rfl
theorem raw_5 {w : IWord} (h : fld w 26 6 = 5#6) : rawDecode w = some (.jalr (fld w 21 5) (fld w 16 5) (fld w 0 16)) := by unfold rawDecode; rw [h]; rfl
theorem raw_6 {w : IWord} (h : fld w 26 6 = 6#6) : rawDecode w = decAlu w := by unfold rawDecode; rw [h]; rfl
theorem raw_7 {w : IWord} (h : fld w 26 6 = 7#6) : rawDecode w = some (.addi (fld w 21 5) (fld w 16 5) (fld w 0 16)) := by unfold rawDecode; rw [h]; rfl
theorem raw_8 {w : IWord} (h : fld w 26 6 = 8#6) : rawDecode w = some (.andi (fld w 21 5) (fld w 16 5) (fld w 0 16)) := by unfold rawDecode; rw [h]; rfl
theorem raw_9 {w : IWord} (h : fld w 26 6 = 9#6) : rawDecode w = some (.ori (fld w 21 5) (fld w 16 5) (fld w 0 16)) := by unfold rawDecode; rw [h]; rfl
theorem raw_10 {w : IWord} (h : fld w 26 6 = 10#6) : rawDecode w = some (.xori (fld w 21 5) (fld w 16 5) (fld w 0 16)) := by unfold rawDecode; rw [h]; rfl
theorem raw_11 {w : IWord} (h : fld w 26 6 = 11#6) : rawDecode w = decShift w := by unfold rawDecode; rw [h]; rfl
theorem raw_12 {w : IWord} (h : fld w 26 6 = 12#6) : rawDecode w = some (.slti (fld w 21 5) (fld w 16 5) (fld w 0 16)) := by unfold rawDecode; rw [h]; rfl
theorem raw_13 {w : IWord} (h : fld w 26 6 = 13#6) : rawDecode w = some (.lui (fld w 21 5) (fld w 0 16)) := by unfold rawDecode; rw [h]; rfl
theorem raw_14 {w : IWord} (h : fld w 26 6 = 14#6) : rawDecode w = some (.auipc (fld w 21 5) (fld w 0 16)) := by unfold rawDecode; rw [h]; rfl
theorem raw_15 {w : IWord} (h : fld w 26 6 = 15#6) : rawDecode w = decMulDiv w := by unfold rawDecode; rw [h]; rfl
theorem raw_16 {w : IWord} (h : fld w 26 6 = 16#6) : rawDecode w = decLd w := by unfold rawDecode; rw [h]; rfl
theorem raw_17 {w : IWord} (h : fld w 26 6 = 17#6) : rawDecode w = decSt w := by unfold rawDecode; rw [h]; rfl
theorem raw_18 {w : IWord} (h : fld w 26 6 = 18#6) : rawDecode w = decAmo w := by unfold rawDecode; rw [h]; rfl
theorem raw_19 {w : IWord} (h : fld w 26 6 = 19#6) : rawDecode w = decFpu w := by unfold rawDecode; rw [h]; rfl
theorem raw_20 {w : IWord} (h : fld w 26 6 = 20#6) : rawDecode w = decHart w := by unfold rawDecode; rw [h]; rfl
theorem raw_21 {w : IWord} (h : fld w 26 6 = 21#6) : rawDecode w = decCp w := by unfold rawDecode; rw [h]; rfl
theorem raw_22 {w : IWord} (h : fld w 26 6 = 22#6) : rawDecode w = decBar w := by unfold rawDecode; rw [h]; rfl
theorem raw_23 {w : IWord} (h : fld w 26 6 = 23#6) : rawDecode w = decStrm w := by unfold rawDecode; rw [h]; rfl
theorem raw_24 {w : IWord} (h : fld w 26 6 = 24#6) : rawDecode w = decPle w := by unfold rawDecode; rw [h]; rfl
theorem raw_25 {w : IWord} (h : fld w 26 6 = 25#6) : rawDecode w = decTopk w := by unfold rawDecode; rw [h]; rfl
theorem raw_26 {w : IWord} (h : fld w 26 6 = 26#6) : rawDecode w = decPyr w := by unfold rawDecode; rw [h]; rfl
theorem raw_32 {w : IWord} (h : fld w 26 6 = 32#6) : rawDecode w = decVSet w := by unfold rawDecode; rw [h]; rfl
theorem raw_33 {w : IWord} (h : fld w 26 6 = 33#6) : rawDecode w = decVIntVV w := by unfold rawDecode; rw [h]; rfl
theorem raw_34 {w : IWord} (h : fld w 26 6 = 34#6) : rawDecode w = decVIntVX w := by unfold rawDecode; rw [h]; rfl
theorem raw_35 {w : IWord} (h : fld w 26 6 = 35#6) : rawDecode w = decVIntVI w := by unfold rawDecode; rw [h]; rfl
theorem raw_36 {w : IWord} (h : fld w 26 6 = 36#6) : rawDecode w = decVFpVV w := by unfold rawDecode; rw [h]; rfl
theorem raw_37 {w : IWord} (h : fld w 26 6 = 37#6) : rawDecode w = decVFpVX w := by unfold rawDecode; rw [h]; rfl
theorem raw_38 {w : IWord} (h : fld w 26 6 = 38#6) : rawDecode w = decVCmp w := by unfold rawDecode; rw [h]; rfl
theorem raw_39 {w : IWord} (h : fld w 26 6 = 39#6) : rawDecode w = decKOps w := by unfold rawDecode; rw [h]; rfl
theorem raw_40 {w : IWord} (h : fld w 26 6 = 40#6) : rawDecode w = decVPerm w := by unfold rawDecode; rw [h]; rfl
theorem raw_41 {w : IWord} (h : fld w 26 6 = 41#6) : rawDecode w = decVRed w := by unfold rawDecode; rw [h]; rfl
theorem raw_42 {w : IWord} (h : fld w 26 6 = 42#6) : rawDecode w = decVCvt w := by unfold rawDecode; rw [h]; rfl
theorem raw_43 {w : IWord} (h : fld w 26 6 = 43#6) : rawDecode w = decVLd w := by unfold rawDecode; rw [h]; rfl
theorem raw_44 {w : IWord} (h : fld w 26 6 = 44#6) : rawDecode w = decVSt w := by unfold rawDecode; rw [h]; rfl
theorem raw_45 {w : IWord} (h : fld w 26 6 = 45#6) : rawDecode w = decVGs w := by unfold rawDecode; rw [h]; rfl
theorem raw_46 {w : IWord} (h : fld w 26 6 = 46#6) : rawDecode w = decVSync w := by unfold rawDecode; rw [h]; rfl
theorem raw_47 {w : IWord} (h : fld w 26 6 = 47#6) : rawDecode w = decVMov w := by unfold rawDecode; rw [h]; rfl
theorem raw_48 {w : IWord} (h : fld w 26 6 = 48#6) : rawDecode w = decMat w := by unfold rawDecode; rw [h]; rfl
theorem raw_49 {w : IWord} (h : fld w 26 6 = 49#6) : rawDecode w = some (.mop (fld w 24 2) (fld w 18 6) (fld w 12 6) (isOne (fld w 2 1)) (isOne (fld w 1 1)) (isOne (fld w 0 1))) := by unfold rawDecode; rw [h]; rfl
theorem raw_50 {w : IWord} (h : fld w 26 6 = 50#6) : rawDecode w = decMSlice w := by unfold rawDecode; rw [h]; rfl
theorem raw_51 {w : IWord} (h : fld w 26 6 = 51#6) : rawDecode w = decMLoad w := by unfold rawDecode; rw [h]; rfl
theorem mul (x0 : BitVec 5) (x1 : BitVec 5) (x2 : BitVec 5) : Statement (.mul x0 x1 x2) := fun _ => by
  have key : ∀ w : IWord, fld w 0 11 = 0#11 → decMulDiv w = some (.mul (fld w 21 5) (fld w 16 5) (fld w 11 5)) := by
    intro w h1; unfold decMulDiv; rw [h1]; rfl
  rw [raw_15 (by simp (disch := omega) only [encode, fld, ext_lo, ext_hi, Nat.reduceSub, ext_self]; try rfl), key _ (by simp (disch := omega) only [encode, fld, ext_lo, ext_hi, Nat.reduceSub, ext_self]; try rfl)]
  simp (disch := omega) only [encode, fld, ext_lo, ext_hi, Nat.reduceSub, ext_self, isOne_bit1, Scope.ofCode_code, Rm.ofCode_code, Option.map_some]
theorem mulh (x0 : BitVec 5) (x1 : BitVec 5) (x2 : BitVec 5) : Statement (.mulh x0 x1 x2) := fun _ => by
  have key : ∀ w : IWord, fld w 0 11 = 1#11 → decMulDiv w = some (.mulh (fld w 21 5) (fld w 16 5) (fld w 11 5)) := by
    intro w h1; unfold decMulDiv; rw [h1]; rfl
  rw [raw_15 (by simp (disch := omega) only [encode, fld, ext_lo, ext_hi, Nat.reduceSub, ext_self]; try rfl), key _ (by simp (disch := omega) only [encode, fld, ext_lo, ext_hi, Nat.reduceSub, ext_self]; try rfl)]
  simp (disch := omega) only [encode, fld, ext_lo, ext_hi, Nat.reduceSub, ext_self, isOne_bit1, Scope.ofCode_code, Rm.ofCode_code, Option.map_some]
theorem mulhn (x0 : BitVec 5) (x1 : BitVec 5) (x2 : BitVec 5) : Statement (.mulhn x0 x1 x2) := fun _ => by
  have key : ∀ w : IWord, fld w 0 11 = 2#11 → decMulDiv w = some (.mulhn (fld w 21 5) (fld w 16 5) (fld w 11 5)) := by
    intro w h1; unfold decMulDiv; rw [h1]; rfl
  rw [raw_15 (by simp (disch := omega) only [encode, fld, ext_lo, ext_hi, Nat.reduceSub, ext_self]; try rfl), key _ (by simp (disch := omega) only [encode, fld, ext_lo, ext_hi, Nat.reduceSub, ext_self]; try rfl)]
  simp (disch := omega) only [encode, fld, ext_lo, ext_hi, Nat.reduceSub, ext_self, isOne_bit1, Scope.ofCode_code, Rm.ofCode_code, Option.map_some]
theorem div (x0 : BitVec 5) (x1 : BitVec 5) (x2 : BitVec 5) : Statement (.div x0 x1 x2) := fun _ => by
  have key : ∀ w : IWord, fld w 0 11 = 3#11 → decMulDiv w = some (.div (fld w 21 5) (fld w 16 5) (fld w 11 5)) := by
    intro w h1; unfold decMulDiv; rw [h1]; rfl
  rw [raw_15 (by simp (disch := omega) only [encode, fld, ext_lo, ext_hi, Nat.reduceSub, ext_self]; try rfl), key _ (by simp (disch := omega) only [encode, fld, ext_lo, ext_hi, Nat.reduceSub, ext_self]; try rfl)]
  simp (disch := omega) only [encode, fld, ext_lo, ext_hi, Nat.reduceSub, ext_self, isOne_bit1, Scope.ofCode_code, Rm.ofCode_code, Option.map_some]
theorem divn (x0 : BitVec 5) (x1 : BitVec 5) (x2 : BitVec 5) : Statement (.divn x0 x1 x2) := fun _ => by
  have key : ∀ w : IWord, fld w 0 11 = 4#11 → decMulDiv w = some (.divn (fld w 21 5) (fld w 16 5) (fld w 11 5)) := by
    intro w h1; unfold decMulDiv; rw [h1]; rfl
  rw [raw_15 (by simp (disch := omega) only [encode, fld, ext_lo, ext_hi, Nat.reduceSub, ext_self]; try rfl), key _ (by simp (disch := omega) only [encode, fld, ext_lo, ext_hi, Nat.reduceSub, ext_self]; try rfl)]
  simp (disch := omega) only [encode, fld, ext_lo, ext_hi, Nat.reduceSub, ext_self, isOne_bit1, Scope.ofCode_code, Rm.ofCode_code, Option.map_some]
theorem rem (x0 : BitVec 5) (x1 : BitVec 5) (x2 : BitVec 5) : Statement (.rem x0 x1 x2) := fun _ => by
  have key : ∀ w : IWord, fld w 0 11 = 5#11 → decMulDiv w = some (.rem (fld w 21 5) (fld w 16 5) (fld w 11 5)) := by
    intro w h1; unfold decMulDiv; rw [h1]; rfl
  rw [raw_15 (by simp (disch := omega) only [encode, fld, ext_lo, ext_hi, Nat.reduceSub, ext_self]; try rfl), key _ (by simp (disch := omega) only [encode, fld, ext_lo, ext_hi, Nat.reduceSub, ext_self]; try rfl)]
  simp (disch := omega) only [encode, fld, ext_lo, ext_hi, Nat.reduceSub, ext_self, isOne_bit1, Scope.ofCode_code, Rm.ofCode_code, Option.map_some]
theorem remn (x0 : BitVec 5) (x1 : BitVec 5) (x2 : BitVec 5) : Statement (.remn x0 x1 x2) := fun _ => by
  have key : ∀ w : IWord, fld w 0 11 = 6#11 → decMulDiv w = some (.remn (fld w 21 5) (fld w 16 5) (fld w 11 5)) := by
    intro w h1; unfold decMulDiv; rw [h1]; rfl
  rw [raw_15 (by simp (disch := omega) only [encode, fld, ext_lo, ext_hi, Nat.reduceSub, ext_self]; try rfl), key _ (by simp (disch := omega) only [encode, fld, ext_lo, ext_hi, Nat.reduceSub, ext_self]; try rfl)]
  simp (disch := omega) only [encode, fld, ext_lo, ext_hi, Nat.reduceSub, ext_self, isOne_bit1, Scope.ofCode_code, Rm.ofCode_code, Option.map_some]
theorem fadd (x0 : BitVec 5) (x1 : BitVec 5) (x2 : BitVec 5) (x3 : Bool) (x4 : Rm) : Statement (.fadd x0 x1 x2 x3 x4) := fun _ => by
  have key : ∀ w : IWord, fld w 7 4 = 0#4 → decFpu w = (Rm.ofCode (fld w 3 3)).map fun c => .fadd (fld w 21 5) (fld w 16 5) (fld w 11 5) (isOne (fld w 6 1)) c := by
    intro w h1; unfold decFpu; rw [h1]; rfl
  rw [raw_19 (by simp (disch := omega) only [encode, fld, ext_lo, ext_hi, Nat.reduceSub, ext_self]; try rfl), key _ (by simp (disch := omega) only [encode, fld, ext_lo, ext_hi, Nat.reduceSub, ext_self]; try rfl)]
  simp (disch := omega) only [encode, fld, ext_lo, ext_hi, Nat.reduceSub, ext_self, isOne_bit1, Scope.ofCode_code, Rm.ofCode_code, Option.map_some]
theorem fsub (x0 : BitVec 5) (x1 : BitVec 5) (x2 : BitVec 5) (x3 : Bool) (x4 : Rm) : Statement (.fsub x0 x1 x2 x3 x4) := fun _ => by
  have key : ∀ w : IWord, fld w 7 4 = 1#4 → decFpu w = (Rm.ofCode (fld w 3 3)).map fun c => .fsub (fld w 21 5) (fld w 16 5) (fld w 11 5) (isOne (fld w 6 1)) c := by
    intro w h1; unfold decFpu; rw [h1]; rfl
  rw [raw_19 (by simp (disch := omega) only [encode, fld, ext_lo, ext_hi, Nat.reduceSub, ext_self]; try rfl), key _ (by simp (disch := omega) only [encode, fld, ext_lo, ext_hi, Nat.reduceSub, ext_self]; try rfl)]
  simp (disch := omega) only [encode, fld, ext_lo, ext_hi, Nat.reduceSub, ext_self, isOne_bit1, Scope.ofCode_code, Rm.ofCode_code, Option.map_some]
theorem fmul (x0 : BitVec 5) (x1 : BitVec 5) (x2 : BitVec 5) (x3 : Bool) (x4 : Rm) : Statement (.fmul x0 x1 x2 x3 x4) := fun _ => by
  have key : ∀ w : IWord, fld w 7 4 = 2#4 → decFpu w = (Rm.ofCode (fld w 3 3)).map fun c => .fmul (fld w 21 5) (fld w 16 5) (fld w 11 5) (isOne (fld w 6 1)) c := by
    intro w h1; unfold decFpu; rw [h1]; rfl
  rw [raw_19 (by simp (disch := omega) only [encode, fld, ext_lo, ext_hi, Nat.reduceSub, ext_self]; try rfl), key _ (by simp (disch := omega) only [encode, fld, ext_lo, ext_hi, Nat.reduceSub, ext_self]; try rfl)]
  simp (disch := omega) only [encode, fld, ext_lo, ext_hi, Nat.reduceSub, ext_self, isOne_bit1, Scope.ofCode_code, Rm.ofCode_code, Option.map_some]
theorem fma (x0 : BitVec 5) (x1 : BitVec 5) (x2 : BitVec 5) (x3 : Bool) (x4 : Rm) : Statement (.fma x0 x1 x2 x3 x4) := fun _ => by
  have key : ∀ w : IWord, fld w 7 4 = 3#4 → decFpu w = (Rm.ofCode (fld w 3 3)).map fun c => .fma (fld w 21 5) (fld w 16 5) (fld w 11 5) (isOne (fld w 6 1)) c := by
    intro w h1; unfold decFpu; rw [h1]; rfl
  rw [raw_19 (by simp (disch := omega) only [encode, fld, ext_lo, ext_hi, Nat.reduceSub, ext_self]; try rfl), key _ (by simp (disch := omega) only [encode, fld, ext_lo, ext_hi, Nat.reduceSub, ext_self]; try rfl)]
  simp (disch := omega) only [encode, fld, ext_lo, ext_hi, Nat.reduceSub, ext_self, isOne_bit1, Scope.ofCode_code, Rm.ofCode_code, Option.map_some]
theorem fdiv (x0 : BitVec 5) (x1 : BitVec 5) (x2 : BitVec 5) (x3 : Bool) (x4 : Rm) : Statement (.fdiv x0 x1 x2 x3 x4) := fun _ => by
  have key : ∀ w : IWord, fld w 7 4 = 4#4 → decFpu w = (Rm.ofCode (fld w 3 3)).map fun c => .fdiv (fld w 21 5) (fld w 16 5) (fld w 11 5) (isOne (fld w 6 1)) c := by
    intro w h1; unfold decFpu; rw [h1]; rfl
  rw [raw_19 (by simp (disch := omega) only [encode, fld, ext_lo, ext_hi, Nat.reduceSub, ext_self]; try rfl), key _ (by simp (disch := omega) only [encode, fld, ext_lo, ext_hi, Nat.reduceSub, ext_self]; try rfl)]
  simp (disch := omega) only [encode, fld, ext_lo, ext_hi, Nat.reduceSub, ext_self, isOne_bit1, Scope.ofCode_code, Rm.ofCode_code, Option.map_some]
theorem fsqrt (x0 : BitVec 5) (x1 : BitVec 5) (x2 : Bool) (x3 : Rm) : Statement (.fsqrt x0 x1 x2 x3) := fun _ => by
  have key : ∀ w : IWord, fld w 7 4 = 5#4 → decFpu w = (Rm.ofCode (fld w 3 3)).map fun c => .fsqrt (fld w 21 5) (fld w 16 5) (isOne (fld w 6 1)) c := by
    intro w h1; unfold decFpu; rw [h1]; rfl
  rw [raw_19 (by simp (disch := omega) only [encode, fld, ext_lo, ext_hi, Nat.reduceSub, ext_self]; try rfl), key _ (by simp (disch := omega) only [encode, fld, ext_lo, ext_hi, Nat.reduceSub, ext_self]; try rfl)]
  simp (disch := omega) only [encode, fld, ext_lo, ext_hi, Nat.reduceSub, ext_self, isOne_bit1, Scope.ofCode_code, Rm.ofCode_code, Option.map_some]
theorem fmin (x0 : BitVec 5) (x1 : BitVec 5) (x2 : BitVec 5) (x3 : Bool) : Statement (.fmin x0 x1 x2 x3) := fun _ => by
  have key : ∀ w : IWord, fld w 7 4 = 6#4 → decFpu w = some (.fmin (fld w 21 5) (fld w 16 5) (fld w 11 5) (isOne (fld w 6 1))) := by
    intro w h1; unfold decFpu; rw [h1]; rfl
  rw [raw_19 (by simp (disch := omega) only [encode, fld, ext_lo, ext_hi, Nat.reduceSub, ext_self]; try rfl), key _ (by simp (disch := omega) only [encode, fld, ext_lo, ext_hi, Nat.reduceSub, ext_self]; try rfl)]
  simp (disch := omega) only [encode, fld, ext_lo, ext_hi, Nat.reduceSub, ext_self, isOne_bit1, Scope.ofCode_code, Rm.ofCode_code, Option.map_some]
theorem fmax (x0 : BitVec 5) (x1 : BitVec 5) (x2 : BitVec 5) (x3 : Bool) : Statement (.fmax x0 x1 x2 x3) := fun _ => by
  have key : ∀ w : IWord, fld w 7 4 = 7#4 → decFpu w = some (.fmax (fld w 21 5) (fld w 16 5) (fld w 11 5) (isOne (fld w 6 1))) := by
    intro w h1; unfold decFpu; rw [h1]; rfl
  rw [raw_19 (by simp (disch := omega) only [encode, fld, ext_lo, ext_hi, Nat.reduceSub, ext_self]; try rfl), key _ (by simp (disch := omega) only [encode, fld, ext_lo, ext_hi, Nat.reduceSub, ext_self]; try rfl)]
  simp (disch := omega) only [encode, fld, ext_lo, ext_hi, Nat.reduceSub, ext_self, isOne_bit1, Scope.ofCode_code, Rm.ofCode_code, Option.map_some]
theorem fcmpEq (x0 : BitVec 5) (x1 : BitVec 5) (x2 : BitVec 5) (x3 : Bool) : Statement (.fcmpEq x0 x1 x2 x3) := fun _ => by
  have key : ∀ w : IWord, fld w 7 4 = 8#4 → fld w 0 3 = 0#3 → decFpu w = some (.fcmpEq (fld w 21 5) (fld w 16 5) (fld w 11 5) (isOne (fld w 6 1))) := by
    intro w h1 h2; unfold decFpu; simp only [h1, h2]; rfl
  rw [raw_19 (by simp (disch := omega) only [encode, fld, ext_lo, ext_hi, Nat.reduceSub, ext_self]; try rfl), key _ (by simp (disch := omega) only [encode, fld, ext_lo, ext_hi, Nat.reduceSub, ext_self]; try rfl) (by simp (disch := omega) only [encode, fld, ext_lo, ext_hi, Nat.reduceSub, ext_self]; try rfl)]
  simp (disch := omega) only [encode, fld, ext_lo, ext_hi, Nat.reduceSub, ext_self, isOne_bit1, Scope.ofCode_code, Rm.ofCode_code, Option.map_some]
theorem fcmpLt (x0 : BitVec 5) (x1 : BitVec 5) (x2 : BitVec 5) (x3 : Bool) : Statement (.fcmpLt x0 x1 x2 x3) := fun _ => by
  have key : ∀ w : IWord, fld w 7 4 = 8#4 → fld w 0 3 = 1#3 → decFpu w = some (.fcmpLt (fld w 21 5) (fld w 16 5) (fld w 11 5) (isOne (fld w 6 1))) := by
    intro w h1 h2; unfold decFpu; simp only [h1, h2]; rfl
  rw [raw_19 (by simp (disch := omega) only [encode, fld, ext_lo, ext_hi, Nat.reduceSub, ext_self]; try rfl), key _ (by simp (disch := omega) only [encode, fld, ext_lo, ext_hi, Nat.reduceSub, ext_self]; try rfl) (by simp (disch := omega) only [encode, fld, ext_lo, ext_hi, Nat.reduceSub, ext_self]; try rfl)]
  simp (disch := omega) only [encode, fld, ext_lo, ext_hi, Nat.reduceSub, ext_self, isOne_bit1, Scope.ofCode_code, Rm.ofCode_code, Option.map_some]
theorem fcmpLe (x0 : BitVec 5) (x1 : BitVec 5) (x2 : BitVec 5) (x3 : Bool) : Statement (.fcmpLe x0 x1 x2 x3) := fun _ => by
  have key : ∀ w : IWord, fld w 7 4 = 8#4 → fld w 0 3 = 2#3 → decFpu w = some (.fcmpLe (fld w 21 5) (fld w 16 5) (fld w 11 5) (isOne (fld w 6 1))) := by
    intro w h1 h2; unfold decFpu; simp only [h1, h2]; rfl
  rw [raw_19 (by simp (disch := omega) only [encode, fld, ext_lo, ext_hi, Nat.reduceSub, ext_self]; try rfl), key _ (by simp (disch := omega) only [encode, fld, ext_lo, ext_hi, Nat.reduceSub, ext_self]; try rfl) (by simp (disch := omega) only [encode, fld, ext_lo, ext_hi, Nat.reduceSub, ext_self]; try rfl)]
  simp (disch := omega) only [encode, fld, ext_lo, ext_hi, Nat.reduceSub, ext_self, isOne_bit1, Scope.ofCode_code, Rm.ofCode_code, Option.map_some]
theorem fcmpUn (x0 : BitVec 5) (x1 : BitVec 5) (x2 : BitVec 5) (x3 : Bool) : Statement (.fcmpUn x0 x1 x2 x3) := fun _ => by
  have key : ∀ w : IWord, fld w 7 4 = 8#4 → fld w 0 3 = 3#3 → decFpu w = some (.fcmpUn (fld w 21 5) (fld w 16 5) (fld w 11 5) (isOne (fld w 6 1))) := by
    intro w h1 h2; unfold decFpu; simp only [h1, h2]; rfl
  rw [raw_19 (by simp (disch := omega) only [encode, fld, ext_lo, ext_hi, Nat.reduceSub, ext_self]; try rfl), key _ (by simp (disch := omega) only [encode, fld, ext_lo, ext_hi, Nat.reduceSub, ext_self]; try rfl) (by simp (disch := omega) only [encode, fld, ext_lo, ext_hi, Nat.reduceSub, ext_self]; try rfl)]
  simp (disch := omega) only [encode, fld, ext_lo, ext_hi, Nat.reduceSub, ext_self, isOne_bit1, Scope.ofCode_code, Rm.ofCode_code, Option.map_some]
theorem fcvtTos64 (x0 : BitVec 5) (x1 : BitVec 5) (x2 : Bool) (x3 : Rm) : Statement (.fcvtTos64 x0 x1 x2 x3) := fun _ => by
  have key : ∀ w : IWord, fld w 7 4 = 9#4 → fld w 0 3 = 0#3 → decFpu w = (Rm.ofCode (fld w 3 3)).map fun c => .fcvtTos64 (fld w 21 5) (fld w 16 5) (isOne (fld w 6 1)) c := by
    intro w h1 h2; unfold decFpu; simp only [h1, h2]; rfl
  rw [raw_19 (by simp (disch := omega) only [encode, fld, ext_lo, ext_hi, Nat.reduceSub, ext_self]; try rfl), key _ (by simp (disch := omega) only [encode, fld, ext_lo, ext_hi, Nat.reduceSub, ext_self]; try rfl) (by simp (disch := omega) only [encode, fld, ext_lo, ext_hi, Nat.reduceSub, ext_self]; try rfl)]
  simp (disch := omega) only [encode, fld, ext_lo, ext_hi, Nat.reduceSub, ext_self, isOne_bit1, Scope.ofCode_code, Rm.ofCode_code, Option.map_some]
theorem fcvtTon64 (x0 : BitVec 5) (x1 : BitVec 5) (x2 : Bool) (x3 : Rm) : Statement (.fcvtTon64 x0 x1 x2 x3) := fun _ => by
  have key : ∀ w : IWord, fld w 7 4 = 9#4 → fld w 0 3 = 1#3 → decFpu w = (Rm.ofCode (fld w 3 3)).map fun c => .fcvtTon64 (fld w 21 5) (fld w 16 5) (isOne (fld w 6 1)) c := by
    intro w h1 h2; unfold decFpu; simp only [h1, h2]; rfl
  rw [raw_19 (by simp (disch := omega) only [encode, fld, ext_lo, ext_hi, Nat.reduceSub, ext_self]; try rfl), key _ (by simp (disch := omega) only [encode, fld, ext_lo, ext_hi, Nat.reduceSub, ext_self]; try rfl) (by simp (disch := omega) only [encode, fld, ext_lo, ext_hi, Nat.reduceSub, ext_self]; try rfl)]
  simp (disch := omega) only [encode, fld, ext_lo, ext_hi, Nat.reduceSub, ext_self, isOne_bit1, Scope.ofCode_code, Rm.ofCode_code, Option.map_some]
theorem fcvtFroms64 (x0 : BitVec 5) (x1 : BitVec 5) (x2 : Bool) (x3 : Rm) : Statement (.fcvtFroms64 x0 x1 x2 x3) := fun _ => by
  have key : ∀ w : IWord, fld w 7 4 = 9#4 → fld w 0 3 = 2#3 → decFpu w = (Rm.ofCode (fld w 3 3)).map fun c => .fcvtFroms64 (fld w 21 5) (fld w 16 5) (isOne (fld w 6 1)) c := by
    intro w h1 h2; unfold decFpu; simp only [h1, h2]; rfl
  rw [raw_19 (by simp (disch := omega) only [encode, fld, ext_lo, ext_hi, Nat.reduceSub, ext_self]; try rfl), key _ (by simp (disch := omega) only [encode, fld, ext_lo, ext_hi, Nat.reduceSub, ext_self]; try rfl) (by simp (disch := omega) only [encode, fld, ext_lo, ext_hi, Nat.reduceSub, ext_self]; try rfl)]
  simp (disch := omega) only [encode, fld, ext_lo, ext_hi, Nat.reduceSub, ext_self, isOne_bit1, Scope.ofCode_code, Rm.ofCode_code, Option.map_some]
theorem fcvtFromn64 (x0 : BitVec 5) (x1 : BitVec 5) (x2 : Bool) (x3 : Rm) : Statement (.fcvtFromn64 x0 x1 x2 x3) := fun _ => by
  have key : ∀ w : IWord, fld w 7 4 = 9#4 → fld w 0 3 = 3#3 → decFpu w = (Rm.ofCode (fld w 3 3)).map fun c => .fcvtFromn64 (fld w 21 5) (fld w 16 5) (isOne (fld w 6 1)) c := by
    intro w h1 h2; unfold decFpu; simp only [h1, h2]; rfl
  rw [raw_19 (by simp (disch := omega) only [encode, fld, ext_lo, ext_hi, Nat.reduceSub, ext_self]; try rfl), key _ (by simp (disch := omega) only [encode, fld, ext_lo, ext_hi, Nat.reduceSub, ext_self]; try rfl) (by simp (disch := omega) only [encode, fld, ext_lo, ext_hi, Nat.reduceSub, ext_self]; try rfl)]
  simp (disch := omega) only [encode, fld, ext_lo, ext_hi, Nat.reduceSub, ext_self, isOne_bit1, Scope.ofCode_code, Rm.ofCode_code, Option.map_some]
theorem fcvtTofp (x0 : BitVec 5) (x1 : BitVec 5) (x2 : Bool) (x3 : Rm) : Statement (.fcvtTofp x0 x1 x2 x3) := fun _ => by
  have key : ∀ w : IWord, fld w 7 4 = 9#4 → fld w 0 3 = 4#3 → decFpu w = (Rm.ofCode (fld w 3 3)).map fun c => .fcvtTofp (fld w 21 5) (fld w 16 5) (isOne (fld w 6 1)) c := by
    intro w h1 h2; unfold decFpu; simp only [h1, h2]; rfl
  rw [raw_19 (by simp (disch := omega) only [encode, fld, ext_lo, ext_hi, Nat.reduceSub, ext_self]; try rfl), key _ (by simp (disch := omega) only [encode, fld, ext_lo, ext_hi, Nat.reduceSub, ext_self]; try rfl) (by simp (disch := omega) only [encode, fld, ext_lo, ext_hi, Nat.reduceSub, ext_self]; try rfl)]
  simp (disch := omega) only [encode, fld, ext_lo, ext_hi, Nat.reduceSub, ext_self, isOne_bit1, Scope.ofCode_code, Rm.ofCode_code, Option.map_some]
theorem fcvtTos32 (x0 : BitVec 5) (x1 : BitVec 5) (x2 : Bool) (x3 : Rm) : Statement (.fcvtTos32 x0 x1 x2 x3) := fun _ => by
  have key : ∀ w : IWord, fld w 7 4 = 9#4 → fld w 0 3 = 5#3 → decFpu w = (Rm.ofCode (fld w 3 3)).map fun c => .fcvtTos32 (fld w 21 5) (fld w 16 5) (isOne (fld w 6 1)) c := by
    intro w h1 h2; unfold decFpu; simp only [h1, h2]; rfl
  rw [raw_19 (by simp (disch := omega) only [encode, fld, ext_lo, ext_hi, Nat.reduceSub, ext_self]; try rfl), key _ (by simp (disch := omega) only [encode, fld, ext_lo, ext_hi, Nat.reduceSub, ext_self]; try rfl) (by simp (disch := omega) only [encode, fld, ext_lo, ext_hi, Nat.reduceSub, ext_self]; try rfl)]
  simp (disch := omega) only [encode, fld, ext_lo, ext_hi, Nat.reduceSub, ext_self, isOne_bit1, Scope.ofCode_code, Rm.ofCode_code, Option.map_some]
theorem fcvtTon32 (x0 : BitVec 5) (x1 : BitVec 5) (x2 : Bool) (x3 : Rm) : Statement (.fcvtTon32 x0 x1 x2 x3) := fun _ => by
  have key : ∀ w : IWord, fld w 7 4 = 9#4 → fld w 0 3 = 6#3 → decFpu w = (Rm.ofCode (fld w 3 3)).map fun c => .fcvtTon32 (fld w 21 5) (fld w 16 5) (isOne (fld w 6 1)) c := by
    intro w h1 h2; unfold decFpu; simp only [h1, h2]; rfl
  rw [raw_19 (by simp (disch := omega) only [encode, fld, ext_lo, ext_hi, Nat.reduceSub, ext_self]; try rfl), key _ (by simp (disch := omega) only [encode, fld, ext_lo, ext_hi, Nat.reduceSub, ext_self]; try rfl) (by simp (disch := omega) only [encode, fld, ext_lo, ext_hi, Nat.reduceSub, ext_self]; try rfl)]
  simp (disch := omega) only [encode, fld, ext_lo, ext_hi, Nat.reduceSub, ext_self, isOne_bit1, Scope.ofCode_code, Rm.ofCode_code, Option.map_some]
theorem trap (x0 : BitVec 7) : Statement (.trap x0) := fun _ => by
  have key : ∀ w : IWord, fld w 7 4 = 0#4 → decSys w = some (.trap (fld w 0 7)) := by
    intro w h1; unfold decSys; rw [h1]; rfl
  rw [raw_1 (by simp (disch := omega) only [encode, fld, ext_lo, ext_hi, Nat.reduceSub, ext_self]; try rfl), key _ (by simp (disch := omega) only [encode, fld, ext_lo, ext_hi, Nat.reduceSub, ext_self]; try rfl)]
  simp (disch := omega) only [encode, fld, ext_lo, ext_hi, Nat.reduceSub, ext_self, isOne_bit1, Scope.ofCode_code, Rm.ofCode_code, Option.map_some]
theorem eret : Statement (.eret) := fun _ => by
  have key : ∀ w : IWord, fld w 7 4 = 1#4 → decSys w = some .eret := by
    intro w h1; unfold decSys; rw [h1]; rfl
  rw [raw_1 (by simp (disch := omega) only [encode, fld, ext_lo, ext_hi, Nat.reduceSub, ext_self]; try rfl), key _ (by simp (disch := omega) only [encode, fld, ext_lo, ext_hi, Nat.reduceSub, ext_self]; try rfl)]
theorem brk : Statement (.brk) := fun _ => by
  have key : ∀ w : IWord, fld w 7 4 = 2#4 → decSys w = some .brk := by
    intro w h1; unfold decSys; rw [h1]; rfl
  rw [raw_1 (by simp (disch := omega) only [encode, fld, ext_lo, ext_hi, Nat.reduceSub, ext_self]; try rfl), key _ (by simp (disch := omega) only [encode, fld, ext_lo, ext_hi, Nat.reduceSub, ext_self]; try rfl)]
theorem halt : Statement (.halt) := fun _ => by
  have key : ∀ w : IWord, fld w 7 4 = 3#4 → decSys w = some .halt := by
    intro w h1; unfold decSys; rw [h1]; rfl
  rw [raw_1 (by simp (disch := omega) only [encode, fld, ext_lo, ext_hi, Nat.reduceSub, ext_self]; try rfl), key _ (by simp (disch := omega) only [encode, fld, ext_lo, ext_hi, Nat.reduceSub, ext_self]; try rfl)]
theorem wfe (x0 : BitVec 5) (x1 : BitVec 5) (x2 : BitVec 5) : Statement (.wfe x0 x1 x2) := fun _ => by
  have key : ∀ w : IWord, fld w 7 4 = 4#4 → decSys w = some (.wfe (fld w 21 5) (fld w 16 5) (fld w 11 5)) := by
    intro w h1; unfold decSys; rw [h1]; rfl
  rw [raw_1 (by simp (disch := omega) only [encode, fld, ext_lo, ext_hi, Nat.reduceSub, ext_self]; try rfl), key _ (by simp (disch := omega) only [encode, fld, ext_lo, ext_hi, Nat.reduceSub, ext_self]; try rfl)]
  simp (disch := omega) only [encode, fld, ext_lo, ext_hi, Nat.reduceSub, ext_self, isOne_bit1, Scope.ofCode_code, Rm.ofCode_code, Option.map_some]
theorem sysget (x0 : BitVec 5) (x1 : BitVec 5) (x2 : BitVec 7) : Statement (.sysget x0 x1 x2) := fun _ => by
  have key : ∀ w : IWord, fld w 7 4 = 5#4 → decSys w = some (.sysget (fld w 21 5) (fld w 11 5) (fld w 0 7)) := by
    intro w h1; unfold decSys; rw [h1]; rfl
  rw [raw_1 (by simp (disch := omega) only [encode, fld, ext_lo, ext_hi, Nat.reduceSub, ext_self]; try rfl), key _ (by simp (disch := omega) only [encode, fld, ext_lo, ext_hi, Nat.reduceSub, ext_self]; try rfl)]
  simp (disch := omega) only [encode, fld, ext_lo, ext_hi, Nat.reduceSub, ext_self, isOne_bit1, Scope.ofCode_code, Rm.ofCode_code, Option.map_some]
theorem sysput (x0 : BitVec 5) (x1 : BitVec 5) (x2 : BitVec 7) : Statement (.sysput x0 x1 x2) := fun _ => by
  have key : ∀ w : IWord, fld w 7 4 = 6#4 → decSys w = some (.sysput (fld w 16 5) (fld w 11 5) (fld w 0 7)) := by
    intro w h1; unfold decSys; rw [h1]; rfl
  rw [raw_1 (by simp (disch := omega) only [encode, fld, ext_lo, ext_hi, Nat.reduceSub, ext_self]; try rfl), key _ (by simp (disch := omega) only [encode, fld, ext_lo, ext_hi, Nat.reduceSub, ext_self]; try rfl)]
  simp (disch := omega) only [encode, fld, ext_lo, ext_hi, Nat.reduceSub, ext_self, isOne_bit1, Scope.ofCode_code, Rm.ofCode_code, Option.map_some]
theorem fenceAcq (x0 : Scope) (x1 : Bool) : Statement (.fenceAcq x0 x1) := fun _ => by
  have key : ∀ w : IWord, fld w 7 4 = 7#4 → decSys w = (Scope.ofCode (fld w 4 3)).map fun c => .fenceAcq c (isOne (fld w 3 1)) := by
    intro w h1; unfold decSys; rw [h1]; rfl
  rw [raw_1 (by simp (disch := omega) only [encode, fld, ext_lo, ext_hi, Nat.reduceSub, ext_self]; try rfl), key _ (by simp (disch := omega) only [encode, fld, ext_lo, ext_hi, Nat.reduceSub, ext_self]; try rfl)]
  simp (disch := omega) only [encode, fld, ext_lo, ext_hi, Nat.reduceSub, ext_self, isOne_bit1, Scope.ofCode_code, Rm.ofCode_code, Option.map_some]
theorem fenceRel (x0 : Scope) (x1 : Bool) : Statement (.fenceRel x0 x1) := fun _ => by
  have key : ∀ w : IWord, fld w 7 4 = 8#4 → decSys w = (Scope.ofCode (fld w 4 3)).map fun c => .fenceRel c (isOne (fld w 2 1)) := by
    intro w h1; unfold decSys; rw [h1]; rfl
  rw [raw_1 (by simp (disch := omega) only [encode, fld, ext_lo, ext_hi, Nat.reduceSub, ext_self]; try rfl), key _ (by simp (disch := omega) only [encode, fld, ext_lo, ext_hi, Nat.reduceSub, ext_self]; try rfl)]
  simp (disch := omega) only [encode, fld, ext_lo, ext_hi, Nat.reduceSub, ext_self, isOne_bit1, Scope.ofCode_code, Rm.ofCode_code, Option.map_some]
theorem fenceSv : Statement (.fenceSv) := fun _ => by
  have key : ∀ w : IWord, fld w 7 4 = 9#4 → decSys w = some .fenceSv := by
    intro w h1; unfold decSys; rw [h1]; rfl
  rw [raw_1 (by simp (disch := omega) only [encode, fld, ext_lo, ext_hi, Nat.reduceSub, ext_self]; try rfl), key _ (by simp (disch := omega) only [encode, fld, ext_lo, ext_hi, Nat.reduceSub, ext_self]; try rfl)]
theorem fenceFull (x0 : Scope) (x1 : Bool) (x2 : Bool) : Statement (.fenceFull x0 x1 x2) := fun _ => by
  have key : ∀ w : IWord, fld w 7 4 = 10#4 → decSys w = (Scope.ofCode (fld w 4 3)).map fun c => .fenceFull c (isOne (fld w 3 1)) (isOne (fld w 2 1)) := by
    intro w h1; unfold decSys; rw [h1]; rfl
  rw [raw_1 (by simp (disch := omega) only [encode, fld, ext_lo, ext_hi, Nat.reduceSub, ext_self]; try rfl), key _ (by simp (disch := omega) only [encode, fld, ext_lo, ext_hi, Nat.reduceSub, ext_self]; try rfl)]
  simp (disch := omega) only [encode, fld, ext_lo, ext_hi, Nat.reduceSub, ext_self, isOne_bit1, Scope.ofCode_code, Rm.ofCode_code, Option.map_some]
theorem lsync : Statement (.lsync) := fun _ => by
  have key : ∀ w : IWord, fld w 7 4 = 11#4 → decSys w = some .lsync := by
    intro w h1; unfold decSys; rw [h1]; rfl
  rw [raw_1 (by simp (disch := omega) only [encode, fld, ext_lo, ext_hi, Nat.reduceSub, ext_self]; try rfl), key _ (by simp (disch := omega) only [encode, fld, ext_lo, ext_hi, Nat.reduceSub, ext_self]; try rfl)]
theorem invR (x0 : BitVec 5) (x1 : BitVec 5) : Statement (.invR x0 x1) := fun _ => by
  have key : ∀ w : IWord, fld w 7 4 = 12#4 → decSys w = some (.invR (fld w 16 5) (fld w 11 5)) := by
    intro w h1; unfold decSys; rw [h1]; rfl
  rw [raw_1 (by simp (disch := omega) only [encode, fld, ext_lo, ext_hi, Nat.reduceSub, ext_self]; try rfl), key _ (by simp (disch := omega) only [encode, fld, ext_lo, ext_hi, Nat.reduceSub, ext_self]; try rfl)]
  simp (disch := omega) only [encode, fld, ext_lo, ext_hi, Nat.reduceSub, ext_self, isOne_bit1, Scope.ofCode_code, Rm.ofCode_code, Option.map_some]
theorem invRo : Statement (.invRo) := fun _ => by
  have key : ∀ w : IWord, fld w 7 4 = 13#4 → decSys w = some .invRo := by
    intro w h1; unfold decSys; rw [h1]; rfl
  rw [raw_1 (by simp (disch := omega) only [encode, fld, ext_lo, ext_hi, Nat.reduceSub, ext_self]; try rfl), key _ (by simp (disch := omega) only [encode, fld, ext_lo, ext_hi, Nat.reduceSub, ext_self]; try rfl)]
theorem fork (x0 : BitVec 5) (x1 : BitVec 5) (x2 : BitVec 5) : Statement (.fork x0 x1 x2) := fun _ => by
  have key : ∀ w : IWord, fld w 0 11 = 0#11 → decHart w = some (.fork (fld w 21 5) (fld w 16 5) (fld w 11 5)) := by
    intro w h1; unfold decHart; rw [h1]; rfl
  rw [raw_20 (by simp (disch := omega) only [encode, fld, ext_lo, ext_hi, Nat.reduceSub, ext_self]; try rfl), key _ (by simp (disch := omega) only [encode, fld, ext_lo, ext_hi, Nat.reduceSub, ext_self]; try rfl)]
  simp (disch := omega) only [encode, fld, ext_lo, ext_hi, Nat.reduceSub, ext_self, isOne_bit1, Scope.ofCode_code, Rm.ofCode_code, Option.map_some]
theorem join (x0 : BitVec 5) (x1 : BitVec 5) (x2 : BitVec 5) : Statement (.join x0 x1 x2) := fun _ => by
  have key : ∀ w : IWord, fld w 0 11 = 1#11 → decHart w = some (.join (fld w 21 5) (fld w 16 5) (fld w 11 5)) := by
    intro w h1; unfold decHart; rw [h1]; rfl
  rw [raw_20 (by simp (disch := omega) only [encode, fld, ext_lo, ext_hi, Nat.reduceSub, ext_self]; try rfl), key _ (by simp (disch := omega) only [encode, fld, ext_lo, ext_hi, Nat.reduceSub, ext_self]; try rfl)]
  simp (disch := omega) only [encode, fld, ext_lo, ext_hi, Nat.reduceSub, ext_self, isOne_bit1, Scope.ofCode_code, Rm.ofCode_code, Option.map_some]
theorem vrelease : Statement (.vrelease) := fun _ => by
  have key : ∀ w : IWord, fld w 0 11 = 2#11 → decHart w = some .vrelease := by
    intro w h1; unfold decHart; rw [h1]; rfl
  rw [raw_20 (by simp (disch := omega) only [encode, fld, ext_lo, ext_hi, Nat.reduceSub, ext_self]; try rfl), key _ (by simp (disch := omega) only [encode, fld, ext_lo, ext_hi, Nat.reduceSub, ext_self]; try rfl)]
theorem vacquire (x0 : BitVec 5) (x1 : BitVec 5) : Statement (.vacquire x0 x1) := fun _ => by
  have key : ∀ w : IWord, fld w 0 11 = 3#11 → decHart w = some (.vacquire (fld w 21 5) (fld w 16 5)) := by
    intro w h1; unfold decHart; rw [h1]; rfl
  rw [raw_20 (by simp (disch := omega) only [encode, fld, ext_lo, ext_hi, Nat.reduceSub, ext_self]; try rfl), key _ (by simp (disch := omega) only [encode, fld, ext_lo, ext_hi, Nat.reduceSub, ext_self]; try rfl)]
  simp (disch := omega) only [encode, fld, ext_lo, ext_hi, Nat.reduceSub, ext_self, isOne_bit1, Scope.ofCode_code, Rm.ofCode_code, Option.map_some]
theorem gbar (x0 : BitVec 5) (x1 : BitVec 5) : Statement (.gbar x0 x1) := fun _ => by
  have key : ∀ w : IWord, fld w 0 11 = 4#11 → decHart w = some (.gbar (fld w 21 5) (fld w 16 5)) := by
    intro w h1; unfold decHart; rw [h1]; rfl
  rw [raw_20 (by simp (disch := omega) only [encode, fld, ext_lo, ext_hi, Nat.reduceSub, ext_self]; try rfl), key _ (by simp (disch := omega) only [encode, fld, ext_lo, ext_hi, Nat.reduceSub, ext_self]; try rfl)]
  simp (disch := omega) only [encode, fld, ext_lo, ext_hi, Nat.reduceSub, ext_self, isOne_bit1, Scope.ofCode_code, Rm.ofCode_code, Option.map_some]
theorem launch (x0 : BitVec 5) (x1 : BitVec 5) : Statement (.launch x0 x1) := fun _ => by
  have key : ∀ w : IWord, fld w 0 11 = 5#11 → decHart w = some (.launch (fld w 21 5) (fld w 16 5)) := by
    intro w h1; unfold decHart; rw [h1]; rfl
  rw [raw_20 (by simp (disch := omega) only [encode, fld, ext_lo, ext_hi, Nat.reduceSub, ext_self]; try rfl), key _ (by simp (disch := omega) only [encode, fld, ext_lo, ext_hi, Nat.reduceSub, ext_self]; try rfl)]
  simp (disch := omega) only [encode, fld, ext_lo, ext_hi, Nat.reduceSub, ext_self, isOne_bit1, Scope.ofCode_code, Rm.ofCode_code, Option.map_some]
theorem yield : Statement (.yield) := fun _ => by
  have key : ∀ w : IWord, fld w 0 11 = 6#11 → decHart w = some .yield := by
    intro w h1; unfold decHart; rw [h1]; rfl
  rw [raw_20 (by simp (disch := omega) only [encode, fld, ext_lo, ext_hi, Nat.reduceSub, ext_self]; try rfl), key _ (by simp (disch := omega) only [encode, fld, ext_lo, ext_hi, Nat.reduceSub, ext_self]; try rfl)]
theorem cpNd (x0 : BitVec 5) (x1 : BitVec 5) (x2 : Bool) (x3 : Bool) : Statement (.cpNd x0 x1 x2 x3) := fun _ => by
  have key : ∀ w : IWord, fld w 8 3 = 0#3 → decCp w = some (.cpNd (fld w 21 5) (fld w 16 5) (isOne (fld w 7 1)) (isOne (fld w 6 1))) := by
    intro w h1; unfold decCp; rw [h1]; rfl
  rw [raw_21 (by simp (disch := omega) only [encode, fld, ext_lo, ext_hi, Nat.reduceSub, ext_self]; try rfl), key _ (by simp (disch := omega) only [encode, fld, ext_lo, ext_hi, Nat.reduceSub, ext_self]; try rfl)]
  simp (disch := omega) only [encode, fld, ext_lo, ext_hi, Nat.reduceSub, ext_self, isOne_bit1, Scope.ofCode_code, Rm.ofCode_code, Option.map_some]
theorem cpMc (x0 : BitVec 5) (x1 : BitVec 5) (x2 : Bool) (x3 : Bool) : Statement (.cpMc x0 x1 x2 x3) := fun _ => by
  have key : ∀ w : IWord, fld w 8 3 = 1#3 → decCp w = some (.cpMc (fld w 21 5) (fld w 16 5) (isOne (fld w 7 1)) (isOne (fld w 6 1))) := by
    intro w h1; unfold decCp; rw [h1]; rfl
  rw [raw_21 (by simp (disch := omega) only [encode, fld, ext_lo, ext_hi, Nat.reduceSub, ext_self]; try rfl), key _ (by simp (disch := omega) only [encode, fld, ext_lo, ext_hi, Nat.reduceSub, ext_self]; try rfl)]
  simp (disch := omega) only [encode, fld, ext_lo, ext_hi, Nat.reduceSub, ext_self, isOne_bit1, Scope.ofCode_code, Rm.ofCode_code, Option.map_some]
theorem cpWait (x0 : BitVec 5) (x1 : BitVec 5) : Statement (.cpWait x0 x1) := fun _ => by
  have key : ∀ w : IWord, fld w 8 3 = 2#3 → decCp w = some (.cpWait (fld w 21 5) (fld w 16 5)) := by
    intro w h1; unfold decCp; rw [h1]; rfl
  rw [raw_21 (by simp (disch := omega) only [encode, fld, ext_lo, ext_hi, Nat.reduceSub, ext_self]; try rfl), key _ (by simp (disch := omega) only [encode, fld, ext_lo, ext_hi, Nat.reduceSub, ext_self]; try rfl)]
  simp (disch := omega) only [encode, fld, ext_lo, ext_hi, Nat.reduceSub, ext_self, isOne_bit1, Scope.ofCode_code, Rm.ofCode_code, Option.map_some]
theorem cpBind (x0 : BitVec 5) (x1 : BitVec 5) (x2 : BitVec 5) : Statement (.cpBind x0 x1 x2) := fun _ => by
  have key : ∀ w : IWord, fld w 8 3 = 3#3 → decCp w = some (.cpBind (fld w 21 5) (fld w 16 5) (fld w 11 5)) := by
    intro w h1; unfold decCp; rw [h1]; rfl
  rw [raw_21 (by simp (disch := omega) only [encode, fld, ext_lo, ext_hi, Nat.reduceSub, ext_self]; try rfl), key _ (by simp (disch := omega) only [encode, fld, ext_lo, ext_hi, Nat.reduceSub, ext_self]; try rfl)]
  simp (disch := omega) only [encode, fld, ext_lo, ext_hi, Nat.reduceSub, ext_self, isOne_bit1, Scope.ofCode_code, Rm.ofCode_code, Option.map_some]
theorem barInit (x0 : BitVec 5) (x1 : BitVec 5) : Statement (.barInit x0 x1) := fun _ => by
  have key : ∀ w : IWord, fld w 0 11 = 0#11 → decBar w = some (.barInit (fld w 16 5) (fld w 11 5)) := by
    intro w h1; unfold decBar; rw [h1]; rfl
  rw [raw_22 (by simp (disch := omega) only [encode, fld, ext_lo, ext_hi, Nat.reduceSub, ext_self]; try rfl), key _ (by simp (disch := omega) only [encode, fld, ext_lo, ext_hi, Nat.reduceSub, ext_self]; try rfl)]
  simp (disch := omega) only [encode, fld, ext_lo, ext_hi, Nat.reduceSub, ext_self, isOne_bit1, Scope.ofCode_code, Rm.ofCode_code, Option.map_some]
theorem barArrive (x0 : BitVec 5) (x1 : BitVec 5) (x2 : BitVec 5) : Statement (.barArrive x0 x1 x2) := fun _ => by
  have key : ∀ w : IWord, fld w 0 11 = 1#11 → decBar w = some (.barArrive (fld w 21 5) (fld w 16 5) (fld w 11 5)) := by
    intro w h1; unfold decBar; rw [h1]; rfl
  rw [raw_22 (by simp (disch := omega) only [encode, fld, ext_lo, ext_hi, Nat.reduceSub, ext_self]; try rfl), key _ (by simp (disch := omega) only [encode, fld, ext_lo, ext_hi, Nat.reduceSub, ext_self]; try rfl)]
  simp (disch := omega) only [encode, fld, ext_lo, ext_hi, Nat.reduceSub, ext_self, isOne_bit1, Scope.ofCode_code, Rm.ofCode_code, Option.map_some]
theorem barWait (x0 : BitVec 5) (x1 : BitVec 5) (x2 : BitVec 5) : Statement (.barWait x0 x1 x2) := fun _ => by
  have key : ∀ w : IWord, fld w 0 11 = 2#11 → decBar w = some (.barWait (fld w 21 5) (fld w 16 5) (fld w 11 5)) := by
    intro w h1; unfold decBar; rw [h1]; rfl
  rw [raw_22 (by simp (disch := omega) only [encode, fld, ext_lo, ext_hi, Nat.reduceSub, ext_self]; try rfl), key _ (by simp (disch := omega) only [encode, fld, ext_lo, ext_hi, Nat.reduceSub, ext_self]; try rfl)]
  simp (disch := omega) only [encode, fld, ext_lo, ext_hi, Nat.reduceSub, ext_self, isOne_bit1, Scope.ofCode_code, Rm.ofCode_code, Option.map_some]
theorem zbind (x0 : BitVec 5) (x1 : BitVec 5) : Statement (.zbind x0 x1) := fun _ => by
  have key : ∀ w : IWord, fld w 0 11 = 0#11 → decStrm w = some (.zbind (fld w 21 5) (fld w 16 5)) := by
    intro w h1; unfold decStrm; rw [h1]; rfl
  rw [raw_23 (by simp (disch := omega) only [encode, fld, ext_lo, ext_hi, Nat.reduceSub, ext_self]; try rfl), key _ (by simp (disch := omega) only [encode, fld, ext_lo, ext_hi, Nat.reduceSub, ext_self]; try rfl)]
  simp (disch := omega) only [encode, fld, ext_lo, ext_hi, Nat.reduceSub, ext_self, isOne_bit1, Scope.ofCode_code, Rm.ofCode_code, Option.map_some]
theorem zrd (x0 : BitVec 5) (x1 : BitVec 5) : Statement (.zrd x0 x1) := fun _ => by
  have key : ∀ w : IWord, fld w 0 11 = 1#11 → decStrm w = some (.zrd (fld w 21 5) (fld w 16 5)) := by
    intro w h1; unfold decStrm; rw [h1]; rfl
  rw [raw_23 (by simp (disch := omega) only [encode, fld, ext_lo, ext_hi, Nat.reduceSub, ext_self]; try rfl), key _ (by simp (disch := omega) only [encode, fld, ext_lo, ext_hi, Nat.reduceSub, ext_self]; try rfl)]
  simp (disch := omega) only [encode, fld, ext_lo, ext_hi, Nat.reduceSub, ext_self, isOne_bit1, Scope.ofCode_code, Rm.ofCode_code, Option.map_some]
theorem zpeek (x0 : BitVec 5) (x1 : BitVec 5) : Statement (.zpeek x0 x1) := fun _ => by
  have key : ∀ w : IWord, fld w 0 11 = 2#11 → decStrm w = some (.zpeek (fld w 21 5) (fld w 16 5)) := by
    intro w h1; unfold decStrm; rw [h1]; rfl
  rw [raw_23 (by simp (disch := omega) only [encode, fld, ext_lo, ext_hi, Nat.reduceSub, ext_self]; try rfl), key _ (by simp (disch := omega) only [encode, fld, ext_lo, ext_hi, Nat.reduceSub, ext_self]; try rfl)]
  simp (disch := omega) only [encode, fld, ext_lo, ext_hi, Nat.reduceSub, ext_self, isOne_bit1, Scope.ofCode_code, Rm.ofCode_code, Option.map_some]
theorem zsave (x0 : BitVec 5) (x1 : BitVec 5) : Statement (.zsave x0 x1) := fun _ => by
  have key : ∀ w : IWord, fld w 0 11 = 3#11 → decStrm w = some (.zsave (fld w 21 5) (fld w 16 5)) := by
    intro w h1; unfold decStrm; rw [h1]; rfl
  rw [raw_23 (by simp (disch := omega) only [encode, fld, ext_lo, ext_hi, Nat.reduceSub, ext_self]; try rfl), key _ (by simp (disch := omega) only [encode, fld, ext_lo, ext_hi, Nat.reduceSub, ext_self]; try rfl)]
  simp (disch := omega) only [encode, fld, ext_lo, ext_hi, Nat.reduceSub, ext_self, isOne_bit1, Scope.ofCode_code, Rm.ofCode_code, Option.map_some]
theorem zrest (x0 : BitVec 5) (x1 : BitVec 5) : Statement (.zrest x0 x1) := fun _ => by
  have key : ∀ w : IWord, fld w 0 11 = 4#11 → decStrm w = some (.zrest (fld w 21 5) (fld w 16 5)) := by
    intro w h1; unfold decStrm; rw [h1]; rfl
  rw [raw_23 (by simp (disch := omega) only [encode, fld, ext_lo, ext_hi, Nat.reduceSub, ext_self]; try rfl), key _ (by simp (disch := omega) only [encode, fld, ext_lo, ext_hi, Nat.reduceSub, ext_self]; try rfl)]
  simp (disch := omega) only [encode, fld, ext_lo, ext_hi, Nat.reduceSub, ext_self, isOne_bit1, Scope.ofCode_code, Rm.ofCode_code, Option.map_some]
theorem zloop (x0 : BitVec 5) (x1 : BitVec 5) : Statement (.zloop x0 x1) := fun _ => by
  have key : ∀ w : IWord, fld w 0 11 = 5#11 → decStrm w = some (.zloop (fld w 16 5) (fld w 11 5)) := by
    intro w h1; unfold decStrm; rw [h1]; rfl
  rw [raw_23 (by simp (disch := omega) only [encode, fld, ext_lo, ext_hi, Nat.reduceSub, ext_self]; try rfl), key _ (by simp (disch := omega) only [encode, fld, ext_lo, ext_hi, Nat.reduceSub, ext_self]; try rfl)]
  simp (disch := omega) only [encode, fld, ext_lo, ext_hi, Nat.reduceSub, ext_self, isOne_bit1, Scope.ofCode_code, Rm.ofCode_code, Option.map_some]
theorem plOpen (x0 : BitVec 5) (x1 : BitVec 5) (x2 : BitVec 5) : Statement (.plOpen x0 x1 x2) := fun _ => by
  have key : ∀ w : IWord, fld w 0 11 = 0#11 → decPle w = some (.plOpen (fld w 21 5) (fld w 16 5) (fld w 11 5)) := by
    intro w h1; unfold decPle; rw [h1]; rfl
  rw [raw_24 (by simp (disch := omega) only [encode, fld, ext_lo, ext_hi, Nat.reduceSub, ext_self]; try rfl), key _ (by simp (disch := omega) only [encode, fld, ext_lo, ext_hi, Nat.reduceSub, ext_self]; try rfl)]
  simp (disch := omega) only [encode, fld, ext_lo, ext_hi, Nat.reduceSub, ext_self, isOne_bit1, Scope.ofCode_code, Rm.ofCode_code, Option.map_some]
theorem plTerm (x0 : BitVec 5) (x1 : BitVec 5) (x2 : BitVec 5) : Statement (.plTerm x0 x1 x2) := fun _ => by
  have key : ∀ w : IWord, fld w 0 11 = 1#11 → decPle w = some (.plTerm (fld w 21 5) (fld w 16 5) (fld w 11 5)) := by
    intro w h1; unfold decPle; rw [h1]; rfl
  rw [raw_24 (by simp (disch := omega) only [encode, fld, ext_lo, ext_hi, Nat.reduceSub, ext_self]; try rfl), key _ (by simp (disch := omega) only [encode, fld, ext_lo, ext_hi, Nat.reduceSub, ext_self]; try rfl)]
  simp (disch := omega) only [encode, fld, ext_lo, ext_hi, Nat.reduceSub, ext_self, isOne_bit1, Scope.ofCode_code, Rm.ofCode_code, Option.map_some]
theorem plRun (x0 : BitVec 5) (x1 : BitVec 5) : Statement (.plRun x0 x1) := fun _ => by
  have key : ∀ w : IWord, fld w 0 11 = 2#11 → decPle w = some (.plRun (fld w 21 5) (fld w 16 5)) := by
    intro w h1; unfold decPle; rw [h1]; rfl
  rw [raw_24 (by simp (disch := omega) only [encode, fld, ext_lo, ext_hi, Nat.reduceSub, ext_self]; try rfl), key _ (by simp (disch := omega) only [encode, fld, ext_lo, ext_hi, Nat.reduceSub, ext_self]; try rfl)]
  simp (disch := omega) only [encode, fld, ext_lo, ext_hi, Nat.reduceSub, ext_self, isOne_bit1, Scope.ofCode_code, Rm.ofCode_code, Option.map_some]
theorem plProbe (x0 : BitVec 5) (x1 : BitVec 5) : Statement (.plProbe x0 x1) := fun _ => by
  have key : ∀ w : IWord, fld w 0 11 = 3#11 → decPle w = some (.plProbe (fld w 21 5) (fld w 16 5)) := by
    intro w h1; unfold decPle; rw [h1]; rfl
  rw [raw_24 (by simp (disch := omega) only [encode, fld, ext_lo, ext_hi, Nat.reduceSub, ext_self]; try rfl), key _ (by simp (disch := omega) only [encode, fld, ext_lo, ext_hi, Nat.reduceSub, ext_self]; try rfl)]
  simp (disch := omega) only [encode, fld, ext_lo, ext_hi, Nat.reduceSub, ext_self, isOne_bit1, Scope.ofCode_code, Rm.ofCode_code, Option.map_some]
theorem plStat (x0 : BitVec 5) (x1 : BitVec 5) (x2 : BitVec 5) : Statement (.plStat x0 x1 x2) := fun _ => by
  have key : ∀ w : IWord, fld w 0 11 = 4#11 → decPle w = some (.plStat (fld w 21 5) (fld w 16 5) (fld w 11 5)) := by
    intro w h1; unfold decPle; rw [h1]; rfl
  rw [raw_24 (by simp (disch := omega) only [encode, fld, ext_lo, ext_hi, Nat.reduceSub, ext_self]; try rfl), key _ (by simp (disch := omega) only [encode, fld, ext_lo, ext_hi, Nat.reduceSub, ext_self]; try rfl)]
  simp (disch := omega) only [encode, fld, ext_lo, ext_hi, Nat.reduceSub, ext_self, isOne_bit1, Scope.ofCode_code, Rm.ofCode_code, Option.map_some]
theorem tkInit (x0 : BitVec 5) (x1 : BitVec 5) (x2 : BitVec 5) : Statement (.tkInit x0 x1 x2) := fun _ => by
  have key : ∀ w : IWord, fld w 0 11 = 0#11 → decTopk w = some (.tkInit (fld w 21 5) (fld w 16 5) (fld w 11 5)) := by
    intro w h1; unfold decTopk; rw [h1]; rfl
  rw [raw_25 (by simp (disch := omega) only [encode, fld, ext_lo, ext_hi, Nat.reduceSub, ext_self]; try rfl), key _ (by simp (disch := omega) only [encode, fld, ext_lo, ext_hi, Nat.reduceSub, ext_self]; try rfl)]
  simp (disch := omega) only [encode, fld, ext_lo, ext_hi, Nat.reduceSub, ext_self, isOne_bit1, Scope.ofCode_code, Rm.ofCode_code, Option.map_some]
theorem tkIns (x0 : BitVec 5) (x1 : BitVec 5) (x2 : BitVec 5) : Statement (.tkIns x0 x1 x2) := fun _ => by
  have key : ∀ w : IWord, fld w 0 11 = 1#11 → decTopk w = some (.tkIns (fld w 21 5) (fld w 16 5) (fld w 11 5)) := by
    intro w h1; unfold decTopk; rw [h1]; rfl
  rw [raw_25 (by simp (disch := omega) only [encode, fld, ext_lo, ext_hi, Nat.reduceSub, ext_self]; try rfl), key _ (by simp (disch := omega) only [encode, fld, ext_lo, ext_hi, Nat.reduceSub, ext_self]; try rfl)]
  simp (disch := omega) only [encode, fld, ext_lo, ext_hi, Nat.reduceSub, ext_self, isOne_bit1, Scope.ofCode_code, Rm.ofCode_code, Option.map_some]
theorem tkFuse (x0 : BitVec 5) (x1 : BitVec 5) (x2 : BitVec 5) : Statement (.tkFuse x0 x1 x2) := fun _ => by
  have key : ∀ w : IWord, fld w 0 11 = 2#11 → decTopk w = some (.tkFuse (fld w 21 5) (fld w 16 5) (fld w 11 5)) := by
    intro w h1; unfold decTopk; rw [h1]; rfl
  rw [raw_25 (by simp (disch := omega) only [encode, fld, ext_lo, ext_hi, Nat.reduceSub, ext_self]; try rfl), key _ (by simp (disch := omega) only [encode, fld, ext_lo, ext_hi, Nat.reduceSub, ext_self]; try rfl)]
  simp (disch := omega) only [encode, fld, ext_lo, ext_hi, Nat.reduceSub, ext_self, isOne_bit1, Scope.ofCode_code, Rm.ofCode_code, Option.map_some]
theorem tkDrain (x0 : BitVec 5) (x1 : BitVec 5) (x2 : BitVec 5) : Statement (.tkDrain x0 x1 x2) := fun _ => by
  have key : ∀ w : IWord, fld w 0 11 = 3#11 → decTopk w = some (.tkDrain (fld w 21 5) (fld w 16 5) (fld w 11 5)) := by
    intro w h1; unfold decTopk; rw [h1]; rfl
  rw [raw_25 (by simp (disch := omega) only [encode, fld, ext_lo, ext_hi, Nat.reduceSub, ext_self]; try rfl), key _ (by simp (disch := omega) only [encode, fld, ext_lo, ext_hi, Nat.reduceSub, ext_self]; try rfl)]
  simp (disch := omega) only [encode, fld, ext_lo, ext_hi, Nat.reduceSub, ext_self, isOne_bit1, Scope.ofCode_code, Rm.ofCode_code, Option.map_some]
theorem tkThr (x0 : BitVec 5) (x1 : BitVec 5) (x2 : BitVec 5) : Statement (.tkThr x0 x1 x2) := fun _ => by
  have key : ∀ w : IWord, fld w 0 11 = 4#11 → decTopk w = some (.tkThr (fld w 21 5) (fld w 16 5) (fld w 11 5)) := by
    intro w h1; unfold decTopk; rw [h1]; rfl
  rw [raw_25 (by simp (disch := omega) only [encode, fld, ext_lo, ext_hi, Nat.reduceSub, ext_self]; try rfl), key _ (by simp (disch := omega) only [encode, fld, ext_lo, ext_hi, Nat.reduceSub, ext_self]; try rfl)]
  simp (disch := omega) only [encode, fld, ext_lo, ext_hi, Nat.reduceSub, ext_self, isOne_bit1, Scope.ofCode_code, Rm.ofCode_code, Option.map_some]
theorem pyLd (x0 : BitVec 5) (x1 : BitVec 5) (x2 : BitVec 5) : Statement (.pyLd x0 x1 x2) := fun _ => by
  have key : ∀ w : IWord, fld w 0 11 = 0#11 → decPyr w = some (.pyLd (fld w 21 5) (fld w 16 5) (fld w 11 5)) := by
    intro w h1; unfold decPyr; rw [h1]; rfl
  rw [raw_26 (by simp (disch := omega) only [encode, fld, ext_lo, ext_hi, Nat.reduceSub, ext_self]; try rfl), key _ (by simp (disch := omega) only [encode, fld, ext_lo, ext_hi, Nat.reduceSub, ext_self]; try rfl)]
  simp (disch := omega) only [encode, fld, ext_lo, ext_hi, Nat.reduceSub, ext_self, isOne_bit1, Scope.ofCode_code, Rm.ofCode_code, Option.map_some]
theorem pyLdv (x0 : BitVec 5) (x1 : BitVec 5) (x2 : BitVec 5) : Statement (.pyLdv x0 x1 x2) := fun _ => by
  have key : ∀ w : IWord, fld w 0 11 = 1#11 → decPyr w = some (.pyLdv (fld w 21 5) (fld w 16 5) (fld w 11 5)) := by
    intro w h1; unfold decPyr; rw [h1]; rfl
  rw [raw_26 (by simp (disch := omega) only [encode, fld, ext_lo, ext_hi, Nat.reduceSub, ext_self]; try rfl), key _ (by simp (disch := omega) only [encode, fld, ext_lo, ext_hi, Nat.reduceSub, ext_self]; try rfl)]
  simp (disch := omega) only [encode, fld, ext_lo, ext_hi, Nat.reduceSub, ext_self, isOne_bit1, Scope.ofCode_code, Rm.ofCode_code, Option.map_some]
theorem pyApp (x0 : BitVec 5) (x1 : BitVec 5) (x2 : BitVec 5) : Statement (.pyApp x0 x1 x2) := fun _ => by
  have key : ∀ w : IWord, fld w 0 11 = 2#11 → decPyr w = some (.pyApp (fld w 21 5) (fld w 16 5) (fld w 11 5)) := by
    intro w h1; unfold decPyr; rw [h1]; rfl
  rw [raw_26 (by simp (disch := omega) only [encode, fld, ext_lo, ext_hi, Nat.reduceSub, ext_self]; try rfl), key _ (by simp (disch := omega) only [encode, fld, ext_lo, ext_hi, Nat.reduceSub, ext_self]; try rfl)]
  simp (disch := omega) only [encode, fld, ext_lo, ext_hi, Nat.reduceSub, ext_self, isOne_bit1, Scope.ofCode_code, Rm.ofCode_code, Option.map_some]
theorem pyDef (x0 : BitVec 5) (x1 : BitVec 5) : Statement (.pyDef x0 x1) := fun _ => by
  have key : ∀ w : IWord, fld w 0 11 = 3#11 → decPyr w = some (.pyDef (fld w 21 5) (fld w 16 5)) := by
    intro w h1; unfold decPyr; rw [h1]; rfl
  rw [raw_26 (by simp (disch := omega) only [encode, fld, ext_lo, ext_hi, Nat.reduceSub, ext_self]; try rfl), key _ (by simp (disch := omega) only [encode, fld, ext_lo, ext_hi, Nat.reduceSub, ext_self]; try rfl)]
  simp (disch := omega) only [encode, fld, ext_lo, ext_hi, Nat.reduceSub, ext_self, isOne_bit1, Scope.ofCode_code, Rm.ofCode_code, Option.map_some]
theorem pyComb (x0 : BitVec 5) (x1 : BitVec 5) (x2 : BitVec 5) : Statement (.pyComb x0 x1 x2) := fun _ => by
  have key : ∀ w : IWord, fld w 0 11 = 4#11 → decPyr w = some (.pyComb (fld w 21 5) (fld w 16 5) (fld w 11 5)) := by
    intro w h1; unfold decPyr; rw [h1]; rfl
  rw [raw_26 (by simp (disch := omega) only [encode, fld, ext_lo, ext_hi, Nat.reduceSub, ext_self]; try rfl), key _ (by simp (disch := omega) only [encode, fld, ext_lo, ext_hi, Nat.reduceSub, ext_self]; try rfl)]
  simp (disch := omega) only [encode, fld, ext_lo, ext_hi, Nat.reduceSub, ext_self, isOne_bit1, Scope.ofCode_code, Rm.ofCode_code, Option.map_some]
theorem pyStat (x0 : BitVec 5) (x1 : BitVec 5) (x2 : BitVec 5) : Statement (.pyStat x0 x1 x2) := fun _ => by
  have key : ∀ w : IWord, fld w 0 11 = 5#11 → decPyr w = some (.pyStat (fld w 21 5) (fld w 16 5) (fld w 11 5)) := by
    intro w h1; unfold decPyr; rw [h1]; rfl
  rw [raw_26 (by simp (disch := omega) only [encode, fld, ext_lo, ext_hi, Nat.reduceSub, ext_self]; try rfl), key _ (by simp (disch := omega) only [encode, fld, ext_lo, ext_hi, Nat.reduceSub, ext_self]; try rfl)]
  simp (disch := omega) only [encode, fld, ext_lo, ext_hi, Nat.reduceSub, ext_self, isOne_bit1, Scope.ofCode_code, Rm.ofCode_code, Option.map_some]
theorem pyResume (x0 : BitVec 5) (x1 : BitVec 5) : Statement (.pyResume x0 x1) := fun _ => by
  have key : ∀ w : IWord, fld w 0 11 = 6#11 → decPyr w = some (.pyResume (fld w 21 5) (fld w 16 5)) := by
    intro w h1; unfold decPyr; rw [h1]; rfl
  rw [raw_26 (by simp (disch := omega) only [encode, fld, ext_lo, ext_hi, Nat.reduceSub, ext_self]; try rfl), key _ (by simp (disch := omega) only [encode, fld, ext_lo, ext_hi, Nat.reduceSub, ext_self]; try rfl)]
  simp (disch := omega) only [encode, fld, ext_lo, ext_hi, Nat.reduceSub, ext_self, isOne_bit1, Scope.ofCode_code, Rm.ofCode_code, Option.map_some]
theorem vsetl (x0 : BitVec 5) (x1 : BitVec 5) : Statement (.vsetl x0 x1) := fun _ => by
  have key : ∀ w : IWord, fld w 1 6 = 0#6 → decVSet w = some (.vsetl (fld w 21 5) (fld w 16 5)) := by
    intro w h1; unfold decVSet; rw [h1]; rfl
  rw [raw_32 (by simp (disch := omega) only [encode, fld, ext_lo, ext_hi, Nat.reduceSub, ext_self]; try rfl), key _ (by simp (disch := omega) only [encode, fld, ext_lo, ext_hi, Nat.reduceSub, ext_self]; try rfl)]
  simp (disch := omega) only [encode, fld, ext_lo, ext_hi, Nat.reduceSub, ext_self, isOne_bit1, Scope.ofCode_code, Rm.ofCode_code, Option.map_some]
theorem vsett (x0 : BitVec 5) (x1 : BitVec 5) (x2 : BitVec 5) : Statement (.vsett x0 x1 x2) := fun _ => by
  have key : ∀ w : IWord, fld w 1 6 = 1#6 → decVSet w = some (.vsett (fld w 21 5) (fld w 16 5) (fld w 11 5)) := by
    intro w h1; unfold decVSet; rw [h1]; rfl
  rw [raw_32 (by simp (disch := omega) only [encode, fld, ext_lo, ext_hi, Nat.reduceSub, ext_self]; try rfl), key _ (by simp (disch := omega) only [encode, fld, ext_lo, ext_hi, Nat.reduceSub, ext_self]; try rfl)]
  simp (disch := omega) only [encode, fld, ext_lo, ext_hi, Nat.reduceSub, ext_self, isOne_bit1, Scope.ofCode_code, Rm.ofCode_code, Option.map_some]
theorem vaddVv (x0 : BitVec 5) (x1 : BitVec 5) (x2 : BitVec 5) (x3 : BitVec 3) (x4 : Bool) (x5 : Bool) : Statement (.vaddVv x0 x1 x2 x3 x4 x5) := fun _ => by
  have key : ∀ w : IWord, fld w 1 6 = 0#6 → decVIntVV w = some (.vaddVv (fld w 21 5) (fld w 16 5) (fld w 11 5) (fld w 8 3) (isOne (fld w 7 1)) (isOne (fld w 0 1))) := by
    intro w h1; unfold decVIntVV; rw [h1]; rfl
  rw [raw_33 (by simp (disch := omega) only [encode, fld, ext_lo, ext_hi, Nat.reduceSub, ext_self]; try rfl), key _ (by simp (disch := omega) only [encode, fld, ext_lo, ext_hi, Nat.reduceSub, ext_self]; try rfl)]
  simp (disch := omega) only [encode, fld, ext_lo, ext_hi, Nat.reduceSub, ext_self, isOne_bit1, Scope.ofCode_code, Rm.ofCode_code, Option.map_some]
theorem vsubVv (x0 : BitVec 5) (x1 : BitVec 5) (x2 : BitVec 5) (x3 : BitVec 3) (x4 : Bool) (x5 : Bool) : Statement (.vsubVv x0 x1 x2 x3 x4 x5) := fun _ => by
  have key : ∀ w : IWord, fld w 1 6 = 1#6 → decVIntVV w = some (.vsubVv (fld w 21 5) (fld w 16 5) (fld w 11 5) (fld w 8 3) (isOne (fld w 7 1)) (isOne (fld w 0 1))) := by
    intro w h1; unfold decVIntVV; rw [h1]; rfl
  rw [raw_33 (by simp (disch := omega) only [encode, fld, ext_lo, ext_hi, Nat.reduceSub, ext_self]; try rfl), key _ (by simp (disch := omega) only [encode, fld, ext_lo, ext_hi, Nat.reduceSub, ext_self]; try rfl)]
  simp (disch := omega) only [encode, fld, ext_lo, ext_hi, Nat.reduceSub, ext_self, isOne_bit1, Scope.ofCode_code, Rm.ofCode_code, Option.map_some]
theorem vrsubVv (x0 : BitVec 5) (x1 : BitVec 5) (x2 : BitVec 5) (x3 : BitVec 3) (x4 : Bool) (x5 : Bool) : Statement (.vrsubVv x0 x1 x2 x3 x4 x5) := fun _ => by
  have key : ∀ w : IWord, fld w 1 6 = 2#6 → decVIntVV w = some (.vrsubVv (fld w 21 5) (fld w 16 5) (fld w 11 5) (fld w 8 3) (isOne (fld w 7 1)) (isOne (fld w 0 1))) := by
    intro w h1; unfold decVIntVV; rw [h1]; rfl
  rw [raw_33 (by simp (disch := omega) only [encode, fld, ext_lo, ext_hi, Nat.reduceSub, ext_self]; try rfl), key _ (by simp (disch := omega) only [encode, fld, ext_lo, ext_hi, Nat.reduceSub, ext_self]; try rfl)]
  simp (disch := omega) only [encode, fld, ext_lo, ext_hi, Nat.reduceSub, ext_self, isOne_bit1, Scope.ofCode_code, Rm.ofCode_code, Option.map_some]
theorem vmulVv (x0 : BitVec 5) (x1 : BitVec 5) (x2 : BitVec 5) (x3 : BitVec 3) (x4 : Bool) (x5 : Bool) : Statement (.vmulVv x0 x1 x2 x3 x4 x5) := fun _ => by
  have key : ∀ w : IWord, fld w 1 6 = 3#6 → decVIntVV w = some (.vmulVv (fld w 21 5) (fld w 16 5) (fld w 11 5) (fld w 8 3) (isOne (fld w 7 1)) (isOne (fld w 0 1))) := by
    intro w h1; unfold decVIntVV; rw [h1]; rfl
  rw [raw_33 (by simp (disch := omega) only [encode, fld, ext_lo, ext_hi, Nat.reduceSub, ext_self]; try rfl), key _ (by simp (disch := omega) only [encode, fld, ext_lo, ext_hi, Nat.reduceSub, ext_self]; try rfl)]
  simp (disch := omega) only [encode, fld, ext_lo, ext_hi, Nat.reduceSub, ext_self, isOne_bit1, Scope.ofCode_code, Rm.ofCode_code, Option.map_some]
theorem vmulhVv (x0 : BitVec 5) (x1 : BitVec 5) (x2 : BitVec 5) (x3 : BitVec 3) (x4 : Bool) (x5 : Bool) : Statement (.vmulhVv x0 x1 x2 x3 x4 x5) := fun _ => by
  have key : ∀ w : IWord, fld w 1 6 = 4#6 → decVIntVV w = some (.vmulhVv (fld w 21 5) (fld w 16 5) (fld w 11 5) (fld w 8 3) (isOne (fld w 7 1)) (isOne (fld w 0 1))) := by
    intro w h1; unfold decVIntVV; rw [h1]; rfl
  rw [raw_33 (by simp (disch := omega) only [encode, fld, ext_lo, ext_hi, Nat.reduceSub, ext_self]; try rfl), key _ (by simp (disch := omega) only [encode, fld, ext_lo, ext_hi, Nat.reduceSub, ext_self]; try rfl)]
  simp (disch := omega) only [encode, fld, ext_lo, ext_hi, Nat.reduceSub, ext_self, isOne_bit1, Scope.ofCode_code, Rm.ofCode_code, Option.map_some]
theorem vmaccVv (x0 : BitVec 5) (x1 : BitVec 5) (x2 : BitVec 5) (x3 : BitVec 3) (x4 : Bool) (x5 : Bool) : Statement (.vmaccVv x0 x1 x2 x3 x4 x5) := fun _ => by
  have key : ∀ w : IWord, fld w 1 6 = 5#6 → decVIntVV w = some (.vmaccVv (fld w 21 5) (fld w 16 5) (fld w 11 5) (fld w 8 3) (isOne (fld w 7 1)) (isOne (fld w 0 1))) := by
    intro w h1; unfold decVIntVV; rw [h1]; rfl
  rw [raw_33 (by simp (disch := omega) only [encode, fld, ext_lo, ext_hi, Nat.reduceSub, ext_self]; try rfl), key _ (by simp (disch := omega) only [encode, fld, ext_lo, ext_hi, Nat.reduceSub, ext_self]; try rfl)]
  simp (disch := omega) only [encode, fld, ext_lo, ext_hi, Nat.reduceSub, ext_self, isOne_bit1, Scope.ofCode_code, Rm.ofCode_code, Option.map_some]
theorem vminVv (x0 : BitVec 5) (x1 : BitVec 5) (x2 : BitVec 5) (x3 : BitVec 3) (x4 : Bool) (x5 : Bool) : Statement (.vminVv x0 x1 x2 x3 x4 x5) := fun _ => by
  have key : ∀ w : IWord, fld w 1 6 = 6#6 → decVIntVV w = some (.vminVv (fld w 21 5) (fld w 16 5) (fld w 11 5) (fld w 8 3) (isOne (fld w 7 1)) (isOne (fld w 0 1))) := by
    intro w h1; unfold decVIntVV; rw [h1]; rfl
  rw [raw_33 (by simp (disch := omega) only [encode, fld, ext_lo, ext_hi, Nat.reduceSub, ext_self]; try rfl), key _ (by simp (disch := omega) only [encode, fld, ext_lo, ext_hi, Nat.reduceSub, ext_self]; try rfl)]
  simp (disch := omega) only [encode, fld, ext_lo, ext_hi, Nat.reduceSub, ext_self, isOne_bit1, Scope.ofCode_code, Rm.ofCode_code, Option.map_some]
theorem vmaxVv (x0 : BitVec 5) (x1 : BitVec 5) (x2 : BitVec 5) (x3 : BitVec 3) (x4 : Bool) (x5 : Bool) : Statement (.vmaxVv x0 x1 x2 x3 x4 x5) := fun _ => by
  have key : ∀ w : IWord, fld w 1 6 = 7#6 → decVIntVV w = some (.vmaxVv (fld w 21 5) (fld w 16 5) (fld w 11 5) (fld w 8 3) (isOne (fld w 7 1)) (isOne (fld w 0 1))) := by
    intro w h1; unfold decVIntVV; rw [h1]; rfl
  rw [raw_33 (by simp (disch := omega) only [encode, fld, ext_lo, ext_hi, Nat.reduceSub, ext_self]; try rfl), key _ (by simp (disch := omega) only [encode, fld, ext_lo, ext_hi, Nat.reduceSub, ext_self]; try rfl)]
  simp (disch := omega) only [encode, fld, ext_lo, ext_hi, Nat.reduceSub, ext_self, isOne_bit1, Scope.ofCode_code, Rm.ofCode_code, Option.map_some]
theorem vandVv (x0 : BitVec 5) (x1 : BitVec 5) (x2 : BitVec 5) (x3 : BitVec 3) (x4 : Bool) (x5 : Bool) : Statement (.vandVv x0 x1 x2 x3 x4 x5) := fun _ => by
  have key : ∀ w : IWord, fld w 1 6 = 8#6 → decVIntVV w = some (.vandVv (fld w 21 5) (fld w 16 5) (fld w 11 5) (fld w 8 3) (isOne (fld w 7 1)) (isOne (fld w 0 1))) := by
    intro w h1; unfold decVIntVV; rw [h1]; rfl
  rw [raw_33 (by simp (disch := omega) only [encode, fld, ext_lo, ext_hi, Nat.reduceSub, ext_self]; try rfl), key _ (by simp (disch := omega) only [encode, fld, ext_lo, ext_hi, Nat.reduceSub, ext_self]; try rfl)]
  simp (disch := omega) only [encode, fld, ext_lo, ext_hi, Nat.reduceSub, ext_self, isOne_bit1, Scope.ofCode_code, Rm.ofCode_code, Option.map_some]
theorem vorVv (x0 : BitVec 5) (x1 : BitVec 5) (x2 : BitVec 5) (x3 : BitVec 3) (x4 : Bool) (x5 : Bool) : Statement (.vorVv x0 x1 x2 x3 x4 x5) := fun _ => by
  have key : ∀ w : IWord, fld w 1 6 = 9#6 → decVIntVV w = some (.vorVv (fld w 21 5) (fld w 16 5) (fld w 11 5) (fld w 8 3) (isOne (fld w 7 1)) (isOne (fld w 0 1))) := by
    intro w h1; unfold decVIntVV; rw [h1]; rfl
  rw [raw_33 (by simp (disch := omega) only [encode, fld, ext_lo, ext_hi, Nat.reduceSub, ext_self]; try rfl), key _ (by simp (disch := omega) only [encode, fld, ext_lo, ext_hi, Nat.reduceSub, ext_self]; try rfl)]
  simp (disch := omega) only [encode, fld, ext_lo, ext_hi, Nat.reduceSub, ext_self, isOne_bit1, Scope.ofCode_code, Rm.ofCode_code, Option.map_some]
theorem vxorVv (x0 : BitVec 5) (x1 : BitVec 5) (x2 : BitVec 5) (x3 : BitVec 3) (x4 : Bool) (x5 : Bool) : Statement (.vxorVv x0 x1 x2 x3 x4 x5) := fun _ => by
  have key : ∀ w : IWord, fld w 1 6 = 10#6 → decVIntVV w = some (.vxorVv (fld w 21 5) (fld w 16 5) (fld w 11 5) (fld w 8 3) (isOne (fld w 7 1)) (isOne (fld w 0 1))) := by
    intro w h1; unfold decVIntVV; rw [h1]; rfl
  rw [raw_33 (by simp (disch := omega) only [encode, fld, ext_lo, ext_hi, Nat.reduceSub, ext_self]; try rfl), key _ (by simp (disch := omega) only [encode, fld, ext_lo, ext_hi, Nat.reduceSub, ext_self]; try rfl)]
  simp (disch := omega) only [encode, fld, ext_lo, ext_hi, Nat.reduceSub, ext_self, isOne_bit1, Scope.ofCode_code, Rm.ofCode_code, Option.map_some]
theorem vsllVv (x0 : BitVec 5) (x1 : BitVec 5) (x2 : BitVec 5) (x3 : BitVec 3) (x4 : Bool) (x5 : Bool) : Statement (.vsllVv x0 x1 x2 x3 x4 x5) := fun _ => by
  have key : ∀ w : IWord, fld w 1 6 = 11#6 → decVIntVV w = some (.vsllVv (fld w 21 5) (fld w 16 5) (fld w 11 5) (fld w 8 3) (isOne (fld w 7 1)) (isOne (fld w 0 1))) := by
    intro w h1; unfold decVIntVV; rw [h1]; rfl
  rw [raw_33 (by simp (disch := omega) only [encode, fld, ext_lo, ext_hi, Nat.reduceSub, ext_self]; try rfl), key _ (by simp (disch := omega) only [encode, fld, ext_lo, ext_hi, Nat.reduceSub, ext_self]; try rfl)]
  simp (disch := omega) only [encode, fld, ext_lo, ext_hi, Nat.reduceSub, ext_self, isOne_bit1, Scope.ofCode_code, Rm.ofCode_code, Option.map_some]
theorem vsrlVv (x0 : BitVec 5) (x1 : BitVec 5) (x2 : BitVec 5) (x3 : BitVec 3) (x4 : Bool) (x5 : Bool) : Statement (.vsrlVv x0 x1 x2 x3 x4 x5) := fun _ => by
  have key : ∀ w : IWord, fld w 1 6 = 12#6 → decVIntVV w = some (.vsrlVv (fld w 21 5) (fld w 16 5) (fld w 11 5) (fld w 8 3) (isOne (fld w 7 1)) (isOne (fld w 0 1))) := by
    intro w h1; unfold decVIntVV; rw [h1]; rfl
  rw [raw_33 (by simp (disch := omega) only [encode, fld, ext_lo, ext_hi, Nat.reduceSub, ext_self]; try rfl), key _ (by simp (disch := omega) only [encode, fld, ext_lo, ext_hi, Nat.reduceSub, ext_self]; try rfl)]
  simp (disch := omega) only [encode, fld, ext_lo, ext_hi, Nat.reduceSub, ext_self, isOne_bit1, Scope.ofCode_code, Rm.ofCode_code, Option.map_some]
theorem vsraVv (x0 : BitVec 5) (x1 : BitVec 5) (x2 : BitVec 5) (x3 : BitVec 3) (x4 : Bool) (x5 : Bool) : Statement (.vsraVv x0 x1 x2 x3 x4 x5) := fun _ => by
  have key : ∀ w : IWord, fld w 1 6 = 13#6 → decVIntVV w = some (.vsraVv (fld w 21 5) (fld w 16 5) (fld w 11 5) (fld w 8 3) (isOne (fld w 7 1)) (isOne (fld w 0 1))) := by
    intro w h1; unfold decVIntVV; rw [h1]; rfl
  rw [raw_33 (by simp (disch := omega) only [encode, fld, ext_lo, ext_hi, Nat.reduceSub, ext_self]; try rfl), key _ (by simp (disch := omega) only [encode, fld, ext_lo, ext_hi, Nat.reduceSub, ext_self]; try rfl)]
  simp (disch := omega) only [encode, fld, ext_lo, ext_hi, Nat.reduceSub, ext_self, isOne_bit1, Scope.ofCode_code, Rm.ofCode_code, Option.map_some]
theorem vadcVv (x0 : BitVec 5) (x1 : BitVec 5) (x2 : BitVec 5) (x3 : BitVec 3) (x4 : Bool) : Statement (.vadcVv x0 x1 x2 x3 x4) := fun _ => by
  have key : ∀ w : IWord, fld w 1 6 = 14#6 → decVIntVV w = some (.vadcVv (fld w 21 5) (fld w 16 5) (fld w 11 5) (fld w 8 3) (isOne (fld w 0 1))) := by
    intro w h1; unfold decVIntVV; rw [h1]; rfl
  rw [raw_33 (by simp (disch := omega) only [encode, fld, ext_lo, ext_hi, Nat.reduceSub, ext_self]; try rfl), key _ (by simp (disch := omega) only [encode, fld, ext_lo, ext_hi, Nat.reduceSub, ext_self]; try rfl)]
  simp (disch := omega) only [encode, fld, ext_lo, ext_hi, Nat.reduceSub, ext_self, isOne_bit1, Scope.ofCode_code, Rm.ofCode_code, Option.map_some]
theorem vsbcVv (x0 : BitVec 5) (x1 : BitVec 5) (x2 : BitVec 5) (x3 : BitVec 3) (x4 : Bool) : Statement (.vsbcVv x0 x1 x2 x3 x4) := fun _ => by
  have key : ∀ w : IWord, fld w 1 6 = 15#6 → decVIntVV w = some (.vsbcVv (fld w 21 5) (fld w 16 5) (fld w 11 5) (fld w 8 3) (isOne (fld w 0 1))) := by
    intro w h1; unfold decVIntVV; rw [h1]; rfl
  rw [raw_33 (by simp (disch := omega) only [encode, fld, ext_lo, ext_hi, Nat.reduceSub, ext_self]; try rfl), key _ (by simp (disch := omega) only [encode, fld, ext_lo, ext_hi, Nat.reduceSub, ext_self]; try rfl)]
  simp (disch := omega) only [encode, fld, ext_lo, ext_hi, Nat.reduceSub, ext_self, isOne_bit1, Scope.ofCode_code, Rm.ofCode_code, Option.map_some]
theorem vsaddVv (x0 : BitVec 5) (x1 : BitVec 5) (x2 : BitVec 5) (x3 : BitVec 3) (x4 : Bool) (x5 : Bool) : Statement (.vsaddVv x0 x1 x2 x3 x4 x5) := fun _ => by
  have key : ∀ w : IWord, fld w 1 6 = 16#6 → decVIntVV w = some (.vsaddVv (fld w 21 5) (fld w 16 5) (fld w 11 5) (fld w 8 3) (isOne (fld w 7 1)) (isOne (fld w 0 1))) := by
    intro w h1; unfold decVIntVV; rw [h1]; rfl
  rw [raw_33 (by simp (disch := omega) only [encode, fld, ext_lo, ext_hi, Nat.reduceSub, ext_self]; try rfl), key _ (by simp (disch := omega) only [encode, fld, ext_lo, ext_hi, Nat.reduceSub, ext_self]; try rfl)]
  simp (disch := omega) only [encode, fld, ext_lo, ext_hi, Nat.reduceSub, ext_self, isOne_bit1, Scope.ofCode_code, Rm.ofCode_code, Option.map_some]
theorem vssubVv (x0 : BitVec 5) (x1 : BitVec 5) (x2 : BitVec 5) (x3 : BitVec 3) (x4 : Bool) (x5 : Bool) : Statement (.vssubVv x0 x1 x2 x3 x4 x5) := fun _ => by
  have key : ∀ w : IWord, fld w 1 6 = 17#6 → decVIntVV w = some (.vssubVv (fld w 21 5) (fld w 16 5) (fld w 11 5) (fld w 8 3) (isOne (fld w 7 1)) (isOne (fld w 0 1))) := by
    intro w h1; unfold decVIntVV; rw [h1]; rfl
  rw [raw_33 (by simp (disch := omega) only [encode, fld, ext_lo, ext_hi, Nat.reduceSub, ext_self]; try rfl), key _ (by simp (disch := omega) only [encode, fld, ext_lo, ext_hi, Nat.reduceSub, ext_self]; try rfl)]
  simp (disch := omega) only [encode, fld, ext_lo, ext_hi, Nat.reduceSub, ext_self, isOne_bit1, Scope.ofCode_code, Rm.ofCode_code, Option.map_some]
theorem vaddVx (x0 : BitVec 5) (x1 : BitVec 5) (x2 : BitVec 5) (x3 : BitVec 3) (x4 : Bool) (x5 : Bool) : Statement (.vaddVx x0 x1 x2 x3 x4 x5) := fun _ => by
  have key : ∀ w : IWord, fld w 1 6 = 0#6 → decVIntVX w = some (.vaddVx (fld w 21 5) (fld w 16 5) (fld w 11 5) (fld w 8 3) (isOne (fld w 7 1)) (isOne (fld w 0 1))) := by
    intro w h1; unfold decVIntVX; rw [h1]; rfl
  rw [raw_34 (by simp (disch := omega) only [encode, fld, ext_lo, ext_hi, Nat.reduceSub, ext_self]; try rfl), key _ (by simp (disch := omega) only [encode, fld, ext_lo, ext_hi, Nat.reduceSub, ext_self]; try rfl)]
  simp (disch := omega) only [encode, fld, ext_lo, ext_hi, Nat.reduceSub, ext_self, isOne_bit1, Scope.ofCode_code, Rm.ofCode_code, Option.map_some]
theorem vsubVx (x0 : BitVec 5) (x1 : BitVec 5) (x2 : BitVec 5) (x3 : BitVec 3) (x4 : Bool) (x5 : Bool) : Statement (.vsubVx x0 x1 x2 x3 x4 x5) := fun _ => by
  have key : ∀ w : IWord, fld w 1 6 = 1#6 → decVIntVX w = some (.vsubVx (fld w 21 5) (fld w 16 5) (fld w 11 5) (fld w 8 3) (isOne (fld w 7 1)) (isOne (fld w 0 1))) := by
    intro w h1; unfold decVIntVX; rw [h1]; rfl
  rw [raw_34 (by simp (disch := omega) only [encode, fld, ext_lo, ext_hi, Nat.reduceSub, ext_self]; try rfl), key _ (by simp (disch := omega) only [encode, fld, ext_lo, ext_hi, Nat.reduceSub, ext_self]; try rfl)]
  simp (disch := omega) only [encode, fld, ext_lo, ext_hi, Nat.reduceSub, ext_self, isOne_bit1, Scope.ofCode_code, Rm.ofCode_code, Option.map_some]
theorem vrsubVx (x0 : BitVec 5) (x1 : BitVec 5) (x2 : BitVec 5) (x3 : BitVec 3) (x4 : Bool) (x5 : Bool) : Statement (.vrsubVx x0 x1 x2 x3 x4 x5) := fun _ => by
  have key : ∀ w : IWord, fld w 1 6 = 2#6 → decVIntVX w = some (.vrsubVx (fld w 21 5) (fld w 16 5) (fld w 11 5) (fld w 8 3) (isOne (fld w 7 1)) (isOne (fld w 0 1))) := by
    intro w h1; unfold decVIntVX; rw [h1]; rfl
  rw [raw_34 (by simp (disch := omega) only [encode, fld, ext_lo, ext_hi, Nat.reduceSub, ext_self]; try rfl), key _ (by simp (disch := omega) only [encode, fld, ext_lo, ext_hi, Nat.reduceSub, ext_self]; try rfl)]
  simp (disch := omega) only [encode, fld, ext_lo, ext_hi, Nat.reduceSub, ext_self, isOne_bit1, Scope.ofCode_code, Rm.ofCode_code, Option.map_some]
theorem vmulVx (x0 : BitVec 5) (x1 : BitVec 5) (x2 : BitVec 5) (x3 : BitVec 3) (x4 : Bool) (x5 : Bool) : Statement (.vmulVx x0 x1 x2 x3 x4 x5) := fun _ => by
  have key : ∀ w : IWord, fld w 1 6 = 3#6 → decVIntVX w = some (.vmulVx (fld w 21 5) (fld w 16 5) (fld w 11 5) (fld w 8 3) (isOne (fld w 7 1)) (isOne (fld w 0 1))) := by
    intro w h1; unfold decVIntVX; rw [h1]; rfl
  rw [raw_34 (by simp (disch := omega) only [encode, fld, ext_lo, ext_hi, Nat.reduceSub, ext_self]; try rfl), key _ (by simp (disch := omega) only [encode, fld, ext_lo, ext_hi, Nat.reduceSub, ext_self]; try rfl)]
  simp (disch := omega) only [encode, fld, ext_lo, ext_hi, Nat.reduceSub, ext_self, isOne_bit1, Scope.ofCode_code, Rm.ofCode_code, Option.map_some]
theorem vmulhVx (x0 : BitVec 5) (x1 : BitVec 5) (x2 : BitVec 5) (x3 : BitVec 3) (x4 : Bool) (x5 : Bool) : Statement (.vmulhVx x0 x1 x2 x3 x4 x5) := fun _ => by
  have key : ∀ w : IWord, fld w 1 6 = 4#6 → decVIntVX w = some (.vmulhVx (fld w 21 5) (fld w 16 5) (fld w 11 5) (fld w 8 3) (isOne (fld w 7 1)) (isOne (fld w 0 1))) := by
    intro w h1; unfold decVIntVX; rw [h1]; rfl
  rw [raw_34 (by simp (disch := omega) only [encode, fld, ext_lo, ext_hi, Nat.reduceSub, ext_self]; try rfl), key _ (by simp (disch := omega) only [encode, fld, ext_lo, ext_hi, Nat.reduceSub, ext_self]; try rfl)]
  simp (disch := omega) only [encode, fld, ext_lo, ext_hi, Nat.reduceSub, ext_self, isOne_bit1, Scope.ofCode_code, Rm.ofCode_code, Option.map_some]
theorem vmaccVx (x0 : BitVec 5) (x1 : BitVec 5) (x2 : BitVec 5) (x3 : BitVec 3) (x4 : Bool) (x5 : Bool) : Statement (.vmaccVx x0 x1 x2 x3 x4 x5) := fun _ => by
  have key : ∀ w : IWord, fld w 1 6 = 5#6 → decVIntVX w = some (.vmaccVx (fld w 21 5) (fld w 16 5) (fld w 11 5) (fld w 8 3) (isOne (fld w 7 1)) (isOne (fld w 0 1))) := by
    intro w h1; unfold decVIntVX; rw [h1]; rfl
  rw [raw_34 (by simp (disch := omega) only [encode, fld, ext_lo, ext_hi, Nat.reduceSub, ext_self]; try rfl), key _ (by simp (disch := omega) only [encode, fld, ext_lo, ext_hi, Nat.reduceSub, ext_self]; try rfl)]
  simp (disch := omega) only [encode, fld, ext_lo, ext_hi, Nat.reduceSub, ext_self, isOne_bit1, Scope.ofCode_code, Rm.ofCode_code, Option.map_some]
theorem vminVx (x0 : BitVec 5) (x1 : BitVec 5) (x2 : BitVec 5) (x3 : BitVec 3) (x4 : Bool) (x5 : Bool) : Statement (.vminVx x0 x1 x2 x3 x4 x5) := fun _ => by
  have key : ∀ w : IWord, fld w 1 6 = 6#6 → decVIntVX w = some (.vminVx (fld w 21 5) (fld w 16 5) (fld w 11 5) (fld w 8 3) (isOne (fld w 7 1)) (isOne (fld w 0 1))) := by
    intro w h1; unfold decVIntVX; rw [h1]; rfl
  rw [raw_34 (by simp (disch := omega) only [encode, fld, ext_lo, ext_hi, Nat.reduceSub, ext_self]; try rfl), key _ (by simp (disch := omega) only [encode, fld, ext_lo, ext_hi, Nat.reduceSub, ext_self]; try rfl)]
  simp (disch := omega) only [encode, fld, ext_lo, ext_hi, Nat.reduceSub, ext_self, isOne_bit1, Scope.ofCode_code, Rm.ofCode_code, Option.map_some]
theorem vmaxVx (x0 : BitVec 5) (x1 : BitVec 5) (x2 : BitVec 5) (x3 : BitVec 3) (x4 : Bool) (x5 : Bool) : Statement (.vmaxVx x0 x1 x2 x3 x4 x5) := fun _ => by
  have key : ∀ w : IWord, fld w 1 6 = 7#6 → decVIntVX w = some (.vmaxVx (fld w 21 5) (fld w 16 5) (fld w 11 5) (fld w 8 3) (isOne (fld w 7 1)) (isOne (fld w 0 1))) := by
    intro w h1; unfold decVIntVX; rw [h1]; rfl
  rw [raw_34 (by simp (disch := omega) only [encode, fld, ext_lo, ext_hi, Nat.reduceSub, ext_self]; try rfl), key _ (by simp (disch := omega) only [encode, fld, ext_lo, ext_hi, Nat.reduceSub, ext_self]; try rfl)]
  simp (disch := omega) only [encode, fld, ext_lo, ext_hi, Nat.reduceSub, ext_self, isOne_bit1, Scope.ofCode_code, Rm.ofCode_code, Option.map_some]
theorem vandVx (x0 : BitVec 5) (x1 : BitVec 5) (x2 : BitVec 5) (x3 : BitVec 3) (x4 : Bool) (x5 : Bool) : Statement (.vandVx x0 x1 x2 x3 x4 x5) := fun _ => by
  have key : ∀ w : IWord, fld w 1 6 = 8#6 → decVIntVX w = some (.vandVx (fld w 21 5) (fld w 16 5) (fld w 11 5) (fld w 8 3) (isOne (fld w 7 1)) (isOne (fld w 0 1))) := by
    intro w h1; unfold decVIntVX; rw [h1]; rfl
  rw [raw_34 (by simp (disch := omega) only [encode, fld, ext_lo, ext_hi, Nat.reduceSub, ext_self]; try rfl), key _ (by simp (disch := omega) only [encode, fld, ext_lo, ext_hi, Nat.reduceSub, ext_self]; try rfl)]
  simp (disch := omega) only [encode, fld, ext_lo, ext_hi, Nat.reduceSub, ext_self, isOne_bit1, Scope.ofCode_code, Rm.ofCode_code, Option.map_some]
theorem vorVx (x0 : BitVec 5) (x1 : BitVec 5) (x2 : BitVec 5) (x3 : BitVec 3) (x4 : Bool) (x5 : Bool) : Statement (.vorVx x0 x1 x2 x3 x4 x5) := fun _ => by
  have key : ∀ w : IWord, fld w 1 6 = 9#6 → decVIntVX w = some (.vorVx (fld w 21 5) (fld w 16 5) (fld w 11 5) (fld w 8 3) (isOne (fld w 7 1)) (isOne (fld w 0 1))) := by
    intro w h1; unfold decVIntVX; rw [h1]; rfl
  rw [raw_34 (by simp (disch := omega) only [encode, fld, ext_lo, ext_hi, Nat.reduceSub, ext_self]; try rfl), key _ (by simp (disch := omega) only [encode, fld, ext_lo, ext_hi, Nat.reduceSub, ext_self]; try rfl)]
  simp (disch := omega) only [encode, fld, ext_lo, ext_hi, Nat.reduceSub, ext_self, isOne_bit1, Scope.ofCode_code, Rm.ofCode_code, Option.map_some]
theorem vxorVx (x0 : BitVec 5) (x1 : BitVec 5) (x2 : BitVec 5) (x3 : BitVec 3) (x4 : Bool) (x5 : Bool) : Statement (.vxorVx x0 x1 x2 x3 x4 x5) := fun _ => by
  have key : ∀ w : IWord, fld w 1 6 = 10#6 → decVIntVX w = some (.vxorVx (fld w 21 5) (fld w 16 5) (fld w 11 5) (fld w 8 3) (isOne (fld w 7 1)) (isOne (fld w 0 1))) := by
    intro w h1; unfold decVIntVX; rw [h1]; rfl
  rw [raw_34 (by simp (disch := omega) only [encode, fld, ext_lo, ext_hi, Nat.reduceSub, ext_self]; try rfl), key _ (by simp (disch := omega) only [encode, fld, ext_lo, ext_hi, Nat.reduceSub, ext_self]; try rfl)]
  simp (disch := omega) only [encode, fld, ext_lo, ext_hi, Nat.reduceSub, ext_self, isOne_bit1, Scope.ofCode_code, Rm.ofCode_code, Option.map_some]
theorem vsllVx (x0 : BitVec 5) (x1 : BitVec 5) (x2 : BitVec 5) (x3 : BitVec 3) (x4 : Bool) (x5 : Bool) : Statement (.vsllVx x0 x1 x2 x3 x4 x5) := fun _ => by
  have key : ∀ w : IWord, fld w 1 6 = 11#6 → decVIntVX w = some (.vsllVx (fld w 21 5) (fld w 16 5) (fld w 11 5) (fld w 8 3) (isOne (fld w 7 1)) (isOne (fld w 0 1))) := by
    intro w h1; unfold decVIntVX; rw [h1]; rfl
  rw [raw_34 (by simp (disch := omega) only [encode, fld, ext_lo, ext_hi, Nat.reduceSub, ext_self]; try rfl), key _ (by simp (disch := omega) only [encode, fld, ext_lo, ext_hi, Nat.reduceSub, ext_self]; try rfl)]
  simp (disch := omega) only [encode, fld, ext_lo, ext_hi, Nat.reduceSub, ext_self, isOne_bit1, Scope.ofCode_code, Rm.ofCode_code, Option.map_some]
theorem vsrlVx (x0 : BitVec 5) (x1 : BitVec 5) (x2 : BitVec 5) (x3 : BitVec 3) (x4 : Bool) (x5 : Bool) : Statement (.vsrlVx x0 x1 x2 x3 x4 x5) := fun _ => by
  have key : ∀ w : IWord, fld w 1 6 = 12#6 → decVIntVX w = some (.vsrlVx (fld w 21 5) (fld w 16 5) (fld w 11 5) (fld w 8 3) (isOne (fld w 7 1)) (isOne (fld w 0 1))) := by
    intro w h1; unfold decVIntVX; rw [h1]; rfl
  rw [raw_34 (by simp (disch := omega) only [encode, fld, ext_lo, ext_hi, Nat.reduceSub, ext_self]; try rfl), key _ (by simp (disch := omega) only [encode, fld, ext_lo, ext_hi, Nat.reduceSub, ext_self]; try rfl)]
  simp (disch := omega) only [encode, fld, ext_lo, ext_hi, Nat.reduceSub, ext_self, isOne_bit1, Scope.ofCode_code, Rm.ofCode_code, Option.map_some]
theorem vsraVx (x0 : BitVec 5) (x1 : BitVec 5) (x2 : BitVec 5) (x3 : BitVec 3) (x4 : Bool) (x5 : Bool) : Statement (.vsraVx x0 x1 x2 x3 x4 x5) := fun _ => by
  have key : ∀ w : IWord, fld w 1 6 = 13#6 → decVIntVX w = some (.vsraVx (fld w 21 5) (fld w 16 5) (fld w 11 5) (fld w 8 3) (isOne (fld w 7 1)) (isOne (fld w 0 1))) := by
    intro w h1; unfold decVIntVX; rw [h1]; rfl
  rw [raw_34 (by simp (disch := omega) only [encode, fld, ext_lo, ext_hi, Nat.reduceSub, ext_self]; try rfl), key _ (by simp (disch := omega) only [encode, fld, ext_lo, ext_hi, Nat.reduceSub, ext_self]; try rfl)]
  simp (disch := omega) only [encode, fld, ext_lo, ext_hi, Nat.reduceSub, ext_self, isOne_bit1, Scope.ofCode_code, Rm.ofCode_code, Option.map_some]
theorem vadcVx (x0 : BitVec 5) (x1 : BitVec 5) (x2 : BitVec 5) (x3 : BitVec 3) (x4 : Bool) : Statement (.vadcVx x0 x1 x2 x3 x4) := fun _ => by
  have key : ∀ w : IWord, fld w 1 6 = 14#6 → decVIntVX w = some (.vadcVx (fld w 21 5) (fld w 16 5) (fld w 11 5) (fld w 8 3) (isOne (fld w 0 1))) := by
    intro w h1; unfold decVIntVX; rw [h1]; rfl
  rw [raw_34 (by simp (disch := omega) only [encode, fld, ext_lo, ext_hi, Nat.reduceSub, ext_self]; try rfl), key _ (by simp (disch := omega) only [encode, fld, ext_lo, ext_hi, Nat.reduceSub, ext_self]; try rfl)]
  simp (disch := omega) only [encode, fld, ext_lo, ext_hi, Nat.reduceSub, ext_self, isOne_bit1, Scope.ofCode_code, Rm.ofCode_code, Option.map_some]
theorem vsbcVx (x0 : BitVec 5) (x1 : BitVec 5) (x2 : BitVec 5) (x3 : BitVec 3) (x4 : Bool) : Statement (.vsbcVx x0 x1 x2 x3 x4) := fun _ => by
  have key : ∀ w : IWord, fld w 1 6 = 15#6 → decVIntVX w = some (.vsbcVx (fld w 21 5) (fld w 16 5) (fld w 11 5) (fld w 8 3) (isOne (fld w 0 1))) := by
    intro w h1; unfold decVIntVX; rw [h1]; rfl
  rw [raw_34 (by simp (disch := omega) only [encode, fld, ext_lo, ext_hi, Nat.reduceSub, ext_self]; try rfl), key _ (by simp (disch := omega) only [encode, fld, ext_lo, ext_hi, Nat.reduceSub, ext_self]; try rfl)]
  simp (disch := omega) only [encode, fld, ext_lo, ext_hi, Nat.reduceSub, ext_self, isOne_bit1, Scope.ofCode_code, Rm.ofCode_code, Option.map_some]
theorem vsaddVx (x0 : BitVec 5) (x1 : BitVec 5) (x2 : BitVec 5) (x3 : BitVec 3) (x4 : Bool) (x5 : Bool) : Statement (.vsaddVx x0 x1 x2 x3 x4 x5) := fun _ => by
  have key : ∀ w : IWord, fld w 1 6 = 16#6 → decVIntVX w = some (.vsaddVx (fld w 21 5) (fld w 16 5) (fld w 11 5) (fld w 8 3) (isOne (fld w 7 1)) (isOne (fld w 0 1))) := by
    intro w h1; unfold decVIntVX; rw [h1]; rfl
  rw [raw_34 (by simp (disch := omega) only [encode, fld, ext_lo, ext_hi, Nat.reduceSub, ext_self]; try rfl), key _ (by simp (disch := omega) only [encode, fld, ext_lo, ext_hi, Nat.reduceSub, ext_self]; try rfl)]
  simp (disch := omega) only [encode, fld, ext_lo, ext_hi, Nat.reduceSub, ext_self, isOne_bit1, Scope.ofCode_code, Rm.ofCode_code, Option.map_some]
theorem vssubVx (x0 : BitVec 5) (x1 : BitVec 5) (x2 : BitVec 5) (x3 : BitVec 3) (x4 : Bool) (x5 : Bool) : Statement (.vssubVx x0 x1 x2 x3 x4 x5) := fun _ => by
  have key : ∀ w : IWord, fld w 1 6 = 17#6 → decVIntVX w = some (.vssubVx (fld w 21 5) (fld w 16 5) (fld w 11 5) (fld w 8 3) (isOne (fld w 7 1)) (isOne (fld w 0 1))) := by
    intro w h1; unfold decVIntVX; rw [h1]; rfl
  rw [raw_34 (by simp (disch := omega) only [encode, fld, ext_lo, ext_hi, Nat.reduceSub, ext_self]; try rfl), key _ (by simp (disch := omega) only [encode, fld, ext_lo, ext_hi, Nat.reduceSub, ext_self]; try rfl)]
  simp (disch := omega) only [encode, fld, ext_lo, ext_hi, Nat.reduceSub, ext_self, isOne_bit1, Scope.ofCode_code, Rm.ofCode_code, Option.map_some]
theorem vaddVi (x0 : BitVec 5) (x1 : BitVec 5) (x2 : BitVec 5) (x3 : BitVec 3) (x4 : Bool) (x5 : Bool) : Statement (.vaddVi x0 x1 x2 x3 x4 x5) := fun _ => by
  have key : ∀ w : IWord, fld w 1 6 = 0#6 → decVIntVI w = some (.vaddVi (fld w 21 5) (fld w 16 5) (fld w 11 5) (fld w 8 3) (isOne (fld w 7 1)) (isOne (fld w 0 1))) := by
    intro w h1; unfold decVIntVI; rw [h1]; rfl
  rw [raw_35 (by simp (disch := omega) only [encode, fld, ext_lo, ext_hi, Nat.reduceSub, ext_self]; try rfl), key _ (by simp (disch := omega) only [encode, fld, ext_lo, ext_hi, Nat.reduceSub, ext_self]; try rfl)]
  simp (disch := omega) only [encode, fld, ext_lo, ext_hi, Nat.reduceSub, ext_self, isOne_bit1, Scope.ofCode_code, Rm.ofCode_code, Option.map_some]
theorem vsubVi (x0 : BitVec 5) (x1 : BitVec 5) (x2 : BitVec 5) (x3 : BitVec 3) (x4 : Bool) (x5 : Bool) : Statement (.vsubVi x0 x1 x2 x3 x4 x5) := fun _ => by
  have key : ∀ w : IWord, fld w 1 6 = 1#6 → decVIntVI w = some (.vsubVi (fld w 21 5) (fld w 16 5) (fld w 11 5) (fld w 8 3) (isOne (fld w 7 1)) (isOne (fld w 0 1))) := by
    intro w h1; unfold decVIntVI; rw [h1]; rfl
  rw [raw_35 (by simp (disch := omega) only [encode, fld, ext_lo, ext_hi, Nat.reduceSub, ext_self]; try rfl), key _ (by simp (disch := omega) only [encode, fld, ext_lo, ext_hi, Nat.reduceSub, ext_self]; try rfl)]
  simp (disch := omega) only [encode, fld, ext_lo, ext_hi, Nat.reduceSub, ext_self, isOne_bit1, Scope.ofCode_code, Rm.ofCode_code, Option.map_some]
theorem vrsubVi (x0 : BitVec 5) (x1 : BitVec 5) (x2 : BitVec 5) (x3 : BitVec 3) (x4 : Bool) (x5 : Bool) : Statement (.vrsubVi x0 x1 x2 x3 x4 x5) := fun _ => by
  have key : ∀ w : IWord, fld w 1 6 = 2#6 → decVIntVI w = some (.vrsubVi (fld w 21 5) (fld w 16 5) (fld w 11 5) (fld w 8 3) (isOne (fld w 7 1)) (isOne (fld w 0 1))) := by
    intro w h1; unfold decVIntVI; rw [h1]; rfl
  rw [raw_35 (by simp (disch := omega) only [encode, fld, ext_lo, ext_hi, Nat.reduceSub, ext_self]; try rfl), key _ (by simp (disch := omega) only [encode, fld, ext_lo, ext_hi, Nat.reduceSub, ext_self]; try rfl)]
  simp (disch := omega) only [encode, fld, ext_lo, ext_hi, Nat.reduceSub, ext_self, isOne_bit1, Scope.ofCode_code, Rm.ofCode_code, Option.map_some]
theorem vmulVi (x0 : BitVec 5) (x1 : BitVec 5) (x2 : BitVec 5) (x3 : BitVec 3) (x4 : Bool) (x5 : Bool) : Statement (.vmulVi x0 x1 x2 x3 x4 x5) := fun _ => by
  have key : ∀ w : IWord, fld w 1 6 = 3#6 → decVIntVI w = some (.vmulVi (fld w 21 5) (fld w 16 5) (fld w 11 5) (fld w 8 3) (isOne (fld w 7 1)) (isOne (fld w 0 1))) := by
    intro w h1; unfold decVIntVI; rw [h1]; rfl
  rw [raw_35 (by simp (disch := omega) only [encode, fld, ext_lo, ext_hi, Nat.reduceSub, ext_self]; try rfl), key _ (by simp (disch := omega) only [encode, fld, ext_lo, ext_hi, Nat.reduceSub, ext_self]; try rfl)]
  simp (disch := omega) only [encode, fld, ext_lo, ext_hi, Nat.reduceSub, ext_self, isOne_bit1, Scope.ofCode_code, Rm.ofCode_code, Option.map_some]
theorem vmulhVi (x0 : BitVec 5) (x1 : BitVec 5) (x2 : BitVec 5) (x3 : BitVec 3) (x4 : Bool) (x5 : Bool) : Statement (.vmulhVi x0 x1 x2 x3 x4 x5) := fun _ => by
  have key : ∀ w : IWord, fld w 1 6 = 4#6 → decVIntVI w = some (.vmulhVi (fld w 21 5) (fld w 16 5) (fld w 11 5) (fld w 8 3) (isOne (fld w 7 1)) (isOne (fld w 0 1))) := by
    intro w h1; unfold decVIntVI; rw [h1]; rfl
  rw [raw_35 (by simp (disch := omega) only [encode, fld, ext_lo, ext_hi, Nat.reduceSub, ext_self]; try rfl), key _ (by simp (disch := omega) only [encode, fld, ext_lo, ext_hi, Nat.reduceSub, ext_self]; try rfl)]
  simp (disch := omega) only [encode, fld, ext_lo, ext_hi, Nat.reduceSub, ext_self, isOne_bit1, Scope.ofCode_code, Rm.ofCode_code, Option.map_some]
theorem vmaccVi (x0 : BitVec 5) (x1 : BitVec 5) (x2 : BitVec 5) (x3 : BitVec 3) (x4 : Bool) (x5 : Bool) : Statement (.vmaccVi x0 x1 x2 x3 x4 x5) := fun _ => by
  have key : ∀ w : IWord, fld w 1 6 = 5#6 → decVIntVI w = some (.vmaccVi (fld w 21 5) (fld w 16 5) (fld w 11 5) (fld w 8 3) (isOne (fld w 7 1)) (isOne (fld w 0 1))) := by
    intro w h1; unfold decVIntVI; rw [h1]; rfl
  rw [raw_35 (by simp (disch := omega) only [encode, fld, ext_lo, ext_hi, Nat.reduceSub, ext_self]; try rfl), key _ (by simp (disch := omega) only [encode, fld, ext_lo, ext_hi, Nat.reduceSub, ext_self]; try rfl)]
  simp (disch := omega) only [encode, fld, ext_lo, ext_hi, Nat.reduceSub, ext_self, isOne_bit1, Scope.ofCode_code, Rm.ofCode_code, Option.map_some]
theorem vminVi (x0 : BitVec 5) (x1 : BitVec 5) (x2 : BitVec 5) (x3 : BitVec 3) (x4 : Bool) (x5 : Bool) : Statement (.vminVi x0 x1 x2 x3 x4 x5) := fun _ => by
  have key : ∀ w : IWord, fld w 1 6 = 6#6 → decVIntVI w = some (.vminVi (fld w 21 5) (fld w 16 5) (fld w 11 5) (fld w 8 3) (isOne (fld w 7 1)) (isOne (fld w 0 1))) := by
    intro w h1; unfold decVIntVI; rw [h1]; rfl
  rw [raw_35 (by simp (disch := omega) only [encode, fld, ext_lo, ext_hi, Nat.reduceSub, ext_self]; try rfl), key _ (by simp (disch := omega) only [encode, fld, ext_lo, ext_hi, Nat.reduceSub, ext_self]; try rfl)]
  simp (disch := omega) only [encode, fld, ext_lo, ext_hi, Nat.reduceSub, ext_self, isOne_bit1, Scope.ofCode_code, Rm.ofCode_code, Option.map_some]
theorem vmaxVi (x0 : BitVec 5) (x1 : BitVec 5) (x2 : BitVec 5) (x3 : BitVec 3) (x4 : Bool) (x5 : Bool) : Statement (.vmaxVi x0 x1 x2 x3 x4 x5) := fun _ => by
  have key : ∀ w : IWord, fld w 1 6 = 7#6 → decVIntVI w = some (.vmaxVi (fld w 21 5) (fld w 16 5) (fld w 11 5) (fld w 8 3) (isOne (fld w 7 1)) (isOne (fld w 0 1))) := by
    intro w h1; unfold decVIntVI; rw [h1]; rfl
  rw [raw_35 (by simp (disch := omega) only [encode, fld, ext_lo, ext_hi, Nat.reduceSub, ext_self]; try rfl), key _ (by simp (disch := omega) only [encode, fld, ext_lo, ext_hi, Nat.reduceSub, ext_self]; try rfl)]
  simp (disch := omega) only [encode, fld, ext_lo, ext_hi, Nat.reduceSub, ext_self, isOne_bit1, Scope.ofCode_code, Rm.ofCode_code, Option.map_some]
theorem vandVi (x0 : BitVec 5) (x1 : BitVec 5) (x2 : BitVec 5) (x3 : BitVec 3) (x4 : Bool) (x5 : Bool) : Statement (.vandVi x0 x1 x2 x3 x4 x5) := fun _ => by
  have key : ∀ w : IWord, fld w 1 6 = 8#6 → decVIntVI w = some (.vandVi (fld w 21 5) (fld w 16 5) (fld w 11 5) (fld w 8 3) (isOne (fld w 7 1)) (isOne (fld w 0 1))) := by
    intro w h1; unfold decVIntVI; rw [h1]; rfl
  rw [raw_35 (by simp (disch := omega) only [encode, fld, ext_lo, ext_hi, Nat.reduceSub, ext_self]; try rfl), key _ (by simp (disch := omega) only [encode, fld, ext_lo, ext_hi, Nat.reduceSub, ext_self]; try rfl)]
  simp (disch := omega) only [encode, fld, ext_lo, ext_hi, Nat.reduceSub, ext_self, isOne_bit1, Scope.ofCode_code, Rm.ofCode_code, Option.map_some]
theorem vorVi (x0 : BitVec 5) (x1 : BitVec 5) (x2 : BitVec 5) (x3 : BitVec 3) (x4 : Bool) (x5 : Bool) : Statement (.vorVi x0 x1 x2 x3 x4 x5) := fun _ => by
  have key : ∀ w : IWord, fld w 1 6 = 9#6 → decVIntVI w = some (.vorVi (fld w 21 5) (fld w 16 5) (fld w 11 5) (fld w 8 3) (isOne (fld w 7 1)) (isOne (fld w 0 1))) := by
    intro w h1; unfold decVIntVI; rw [h1]; rfl
  rw [raw_35 (by simp (disch := omega) only [encode, fld, ext_lo, ext_hi, Nat.reduceSub, ext_self]; try rfl), key _ (by simp (disch := omega) only [encode, fld, ext_lo, ext_hi, Nat.reduceSub, ext_self]; try rfl)]
  simp (disch := omega) only [encode, fld, ext_lo, ext_hi, Nat.reduceSub, ext_self, isOne_bit1, Scope.ofCode_code, Rm.ofCode_code, Option.map_some]
theorem vxorVi (x0 : BitVec 5) (x1 : BitVec 5) (x2 : BitVec 5) (x3 : BitVec 3) (x4 : Bool) (x5 : Bool) : Statement (.vxorVi x0 x1 x2 x3 x4 x5) := fun _ => by
  have key : ∀ w : IWord, fld w 1 6 = 10#6 → decVIntVI w = some (.vxorVi (fld w 21 5) (fld w 16 5) (fld w 11 5) (fld w 8 3) (isOne (fld w 7 1)) (isOne (fld w 0 1))) := by
    intro w h1; unfold decVIntVI; rw [h1]; rfl
  rw [raw_35 (by simp (disch := omega) only [encode, fld, ext_lo, ext_hi, Nat.reduceSub, ext_self]; try rfl), key _ (by simp (disch := omega) only [encode, fld, ext_lo, ext_hi, Nat.reduceSub, ext_self]; try rfl)]
  simp (disch := omega) only [encode, fld, ext_lo, ext_hi, Nat.reduceSub, ext_self, isOne_bit1, Scope.ofCode_code, Rm.ofCode_code, Option.map_some]
theorem vsllVi (x0 : BitVec 5) (x1 : BitVec 5) (x2 : BitVec 5) (x3 : BitVec 3) (x4 : Bool) (x5 : Bool) : Statement (.vsllVi x0 x1 x2 x3 x4 x5) := fun _ => by
  have key : ∀ w : IWord, fld w 1 6 = 11#6 → decVIntVI w = some (.vsllVi (fld w 21 5) (fld w 16 5) (fld w 11 5) (fld w 8 3) (isOne (fld w 7 1)) (isOne (fld w 0 1))) := by
    intro w h1; unfold decVIntVI; rw [h1]; rfl
  rw [raw_35 (by simp (disch := omega) only [encode, fld, ext_lo, ext_hi, Nat.reduceSub, ext_self]; try rfl), key _ (by simp (disch := omega) only [encode, fld, ext_lo, ext_hi, Nat.reduceSub, ext_self]; try rfl)]
  simp (disch := omega) only [encode, fld, ext_lo, ext_hi, Nat.reduceSub, ext_self, isOne_bit1, Scope.ofCode_code, Rm.ofCode_code, Option.map_some]
theorem vsrlVi (x0 : BitVec 5) (x1 : BitVec 5) (x2 : BitVec 5) (x3 : BitVec 3) (x4 : Bool) (x5 : Bool) : Statement (.vsrlVi x0 x1 x2 x3 x4 x5) := fun _ => by
  have key : ∀ w : IWord, fld w 1 6 = 12#6 → decVIntVI w = some (.vsrlVi (fld w 21 5) (fld w 16 5) (fld w 11 5) (fld w 8 3) (isOne (fld w 7 1)) (isOne (fld w 0 1))) := by
    intro w h1; unfold decVIntVI; rw [h1]; rfl
  rw [raw_35 (by simp (disch := omega) only [encode, fld, ext_lo, ext_hi, Nat.reduceSub, ext_self]; try rfl), key _ (by simp (disch := omega) only [encode, fld, ext_lo, ext_hi, Nat.reduceSub, ext_self]; try rfl)]
  simp (disch := omega) only [encode, fld, ext_lo, ext_hi, Nat.reduceSub, ext_self, isOne_bit1, Scope.ofCode_code, Rm.ofCode_code, Option.map_some]
theorem vsraVi (x0 : BitVec 5) (x1 : BitVec 5) (x2 : BitVec 5) (x3 : BitVec 3) (x4 : Bool) (x5 : Bool) : Statement (.vsraVi x0 x1 x2 x3 x4 x5) := fun _ => by
  have key : ∀ w : IWord, fld w 1 6 = 13#6 → decVIntVI w = some (.vsraVi (fld w 21 5) (fld w 16 5) (fld w 11 5) (fld w 8 3) (isOne (fld w 7 1)) (isOne (fld w 0 1))) := by
    intro w h1; unfold decVIntVI; rw [h1]; rfl
  rw [raw_35 (by simp (disch := omega) only [encode, fld, ext_lo, ext_hi, Nat.reduceSub, ext_self]; try rfl), key _ (by simp (disch := omega) only [encode, fld, ext_lo, ext_hi, Nat.reduceSub, ext_self]; try rfl)]
  simp (disch := omega) only [encode, fld, ext_lo, ext_hi, Nat.reduceSub, ext_self, isOne_bit1, Scope.ofCode_code, Rm.ofCode_code, Option.map_some]
theorem vadcVi (x0 : BitVec 5) (x1 : BitVec 5) (x2 : BitVec 5) (x3 : BitVec 3) (x4 : Bool) : Statement (.vadcVi x0 x1 x2 x3 x4) := fun _ => by
  have key : ∀ w : IWord, fld w 1 6 = 14#6 → decVIntVI w = some (.vadcVi (fld w 21 5) (fld w 16 5) (fld w 11 5) (fld w 8 3) (isOne (fld w 0 1))) := by
    intro w h1; unfold decVIntVI; rw [h1]; rfl
  rw [raw_35 (by simp (disch := omega) only [encode, fld, ext_lo, ext_hi, Nat.reduceSub, ext_self]; try rfl), key _ (by simp (disch := omega) only [encode, fld, ext_lo, ext_hi, Nat.reduceSub, ext_self]; try rfl)]
  simp (disch := omega) only [encode, fld, ext_lo, ext_hi, Nat.reduceSub, ext_self, isOne_bit1, Scope.ofCode_code, Rm.ofCode_code, Option.map_some]
theorem vsbcVi (x0 : BitVec 5) (x1 : BitVec 5) (x2 : BitVec 5) (x3 : BitVec 3) (x4 : Bool) : Statement (.vsbcVi x0 x1 x2 x3 x4) := fun _ => by
  have key : ∀ w : IWord, fld w 1 6 = 15#6 → decVIntVI w = some (.vsbcVi (fld w 21 5) (fld w 16 5) (fld w 11 5) (fld w 8 3) (isOne (fld w 0 1))) := by
    intro w h1; unfold decVIntVI; rw [h1]; rfl
  rw [raw_35 (by simp (disch := omega) only [encode, fld, ext_lo, ext_hi, Nat.reduceSub, ext_self]; try rfl), key _ (by simp (disch := omega) only [encode, fld, ext_lo, ext_hi, Nat.reduceSub, ext_self]; try rfl)]
  simp (disch := omega) only [encode, fld, ext_lo, ext_hi, Nat.reduceSub, ext_self, isOne_bit1, Scope.ofCode_code, Rm.ofCode_code, Option.map_some]
theorem vsaddVi (x0 : BitVec 5) (x1 : BitVec 5) (x2 : BitVec 5) (x3 : BitVec 3) (x4 : Bool) (x5 : Bool) : Statement (.vsaddVi x0 x1 x2 x3 x4 x5) := fun _ => by
  have key : ∀ w : IWord, fld w 1 6 = 16#6 → decVIntVI w = some (.vsaddVi (fld w 21 5) (fld w 16 5) (fld w 11 5) (fld w 8 3) (isOne (fld w 7 1)) (isOne (fld w 0 1))) := by
    intro w h1; unfold decVIntVI; rw [h1]; rfl
  rw [raw_35 (by simp (disch := omega) only [encode, fld, ext_lo, ext_hi, Nat.reduceSub, ext_self]; try rfl), key _ (by simp (disch := omega) only [encode, fld, ext_lo, ext_hi, Nat.reduceSub, ext_self]; try rfl)]
  simp (disch := omega) only [encode, fld, ext_lo, ext_hi, Nat.reduceSub, ext_self, isOne_bit1, Scope.ofCode_code, Rm.ofCode_code, Option.map_some]
theorem vssubVi (x0 : BitVec 5) (x1 : BitVec 5) (x2 : BitVec 5) (x3 : BitVec 3) (x4 : Bool) (x5 : Bool) : Statement (.vssubVi x0 x1 x2 x3 x4 x5) := fun _ => by
  have key : ∀ w : IWord, fld w 1 6 = 17#6 → decVIntVI w = some (.vssubVi (fld w 21 5) (fld w 16 5) (fld w 11 5) (fld w 8 3) (isOne (fld w 7 1)) (isOne (fld w 0 1))) := by
    intro w h1; unfold decVIntVI; rw [h1]; rfl
  rw [raw_35 (by simp (disch := omega) only [encode, fld, ext_lo, ext_hi, Nat.reduceSub, ext_self]; try rfl), key _ (by simp (disch := omega) only [encode, fld, ext_lo, ext_hi, Nat.reduceSub, ext_self]; try rfl)]
  simp (disch := omega) only [encode, fld, ext_lo, ext_hi, Nat.reduceSub, ext_self, isOne_bit1, Scope.ofCode_code, Rm.ofCode_code, Option.map_some]
theorem vfaddVv (x0 : BitVec 5) (x1 : BitVec 5) (x2 : BitVec 5) (x3 : BitVec 3) (x4 : Bool) (x5 : Bool) : Statement (.vfaddVv x0 x1 x2 x3 x4 x5) := fun _ => by
  have key : ∀ w : IWord, fld w 1 6 = 0#6 → decVFpVV w = some (.vfaddVv (fld w 21 5) (fld w 16 5) (fld w 11 5) (fld w 8 3) (isOne (fld w 7 1)) (isOne (fld w 0 1))) := by
    intro w h1; unfold decVFpVV; rw [h1]; rfl
  rw [raw_36 (by simp (disch := omega) only [encode, fld, ext_lo, ext_hi, Nat.reduceSub, ext_self]; try rfl), key _ (by simp (disch := omega) only [encode, fld, ext_lo, ext_hi, Nat.reduceSub, ext_self]; try rfl)]
  simp (disch := omega) only [encode, fld, ext_lo, ext_hi, Nat.reduceSub, ext_self, isOne_bit1, Scope.ofCode_code, Rm.ofCode_code, Option.map_some]
theorem vfsubVv (x0 : BitVec 5) (x1 : BitVec 5) (x2 : BitVec 5) (x3 : BitVec 3) (x4 : Bool) (x5 : Bool) : Statement (.vfsubVv x0 x1 x2 x3 x4 x5) := fun _ => by
  have key : ∀ w : IWord, fld w 1 6 = 1#6 → decVFpVV w = some (.vfsubVv (fld w 21 5) (fld w 16 5) (fld w 11 5) (fld w 8 3) (isOne (fld w 7 1)) (isOne (fld w 0 1))) := by
    intro w h1; unfold decVFpVV; rw [h1]; rfl
  rw [raw_36 (by simp (disch := omega) only [encode, fld, ext_lo, ext_hi, Nat.reduceSub, ext_self]; try rfl), key _ (by simp (disch := omega) only [encode, fld, ext_lo, ext_hi, Nat.reduceSub, ext_self]; try rfl)]
  simp (disch := omega) only [encode, fld, ext_lo, ext_hi, Nat.reduceSub, ext_self, isOne_bit1, Scope.ofCode_code, Rm.ofCode_code, Option.map_some]
theorem vfmulVv (x0 : BitVec 5) (x1 : BitVec 5) (x2 : BitVec 5) (x3 : BitVec 3) (x4 : Bool) (x5 : Bool) : Statement (.vfmulVv x0 x1 x2 x3 x4 x5) := fun _ => by
  have key : ∀ w : IWord, fld w 1 6 = 2#6 → decVFpVV w = some (.vfmulVv (fld w 21 5) (fld w 16 5) (fld w 11 5) (fld w 8 3) (isOne (fld w 7 1)) (isOne (fld w 0 1))) := by
    intro w h1; unfold decVFpVV; rw [h1]; rfl
  rw [raw_36 (by simp (disch := omega) only [encode, fld, ext_lo, ext_hi, Nat.reduceSub, ext_self]; try rfl), key _ (by simp (disch := omega) only [encode, fld, ext_lo, ext_hi, Nat.reduceSub, ext_self]; try rfl)]
  simp (disch := omega) only [encode, fld, ext_lo, ext_hi, Nat.reduceSub, ext_self, isOne_bit1, Scope.ofCode_code, Rm.ofCode_code, Option.map_some]
theorem vfmaVv (x0 : BitVec 5) (x1 : BitVec 5) (x2 : BitVec 5) (x3 : BitVec 3) (x4 : Bool) (x5 : Bool) : Statement (.vfmaVv x0 x1 x2 x3 x4 x5) := fun _ => by
  have key : ∀ w : IWord, fld w 1 6 = 3#6 → decVFpVV w = some (.vfmaVv (fld w 21 5) (fld w 16 5) (fld w 11 5) (fld w 8 3) (isOne (fld w 7 1)) (isOne (fld w 0 1))) := by
    intro w h1; unfold decVFpVV; rw [h1]; rfl
  rw [raw_36 (by simp (disch := omega) only [encode, fld, ext_lo, ext_hi, Nat.reduceSub, ext_self]; try rfl), key _ (by simp (disch := omega) only [encode, fld, ext_lo, ext_hi, Nat.reduceSub, ext_self]; try rfl)]
  simp (disch := omega) only [encode, fld, ext_lo, ext_hi, Nat.reduceSub, ext_self, isOne_bit1, Scope.ofCode_code, Rm.ofCode_code, Option.map_some]
theorem vfmsVv (x0 : BitVec 5) (x1 : BitVec 5) (x2 : BitVec 5) (x3 : BitVec 3) (x4 : Bool) (x5 : Bool) : Statement (.vfmsVv x0 x1 x2 x3 x4 x5) := fun _ => by
  have key : ∀ w : IWord, fld w 1 6 = 4#6 → decVFpVV w = some (.vfmsVv (fld w 21 5) (fld w 16 5) (fld w 11 5) (fld w 8 3) (isOne (fld w 7 1)) (isOne (fld w 0 1))) := by
    intro w h1; unfold decVFpVV; rw [h1]; rfl
  rw [raw_36 (by simp (disch := omega) only [encode, fld, ext_lo, ext_hi, Nat.reduceSub, ext_self]; try rfl), key _ (by simp (disch := omega) only [encode, fld, ext_lo, ext_hi, Nat.reduceSub, ext_self]; try rfl)]
  simp (disch := omega) only [encode, fld, ext_lo, ext_hi, Nat.reduceSub, ext_self, isOne_bit1, Scope.ofCode_code, Rm.ofCode_code, Option.map_some]
theorem vfdivVv (x0 : BitVec 5) (x1 : BitVec 5) (x2 : BitVec 5) (x3 : BitVec 3) (x4 : Bool) (x5 : Bool) : Statement (.vfdivVv x0 x1 x2 x3 x4 x5) := fun _ => by
  have key : ∀ w : IWord, fld w 1 6 = 5#6 → decVFpVV w = some (.vfdivVv (fld w 21 5) (fld w 16 5) (fld w 11 5) (fld w 8 3) (isOne (fld w 7 1)) (isOne (fld w 0 1))) := by
    intro w h1; unfold decVFpVV; rw [h1]; rfl
  rw [raw_36 (by simp (disch := omega) only [encode, fld, ext_lo, ext_hi, Nat.reduceSub, ext_self]; try rfl), key _ (by simp (disch := omega) only [encode, fld, ext_lo, ext_hi, Nat.reduceSub, ext_self]; try rfl)]
  simp (disch := omega) only [encode, fld, ext_lo, ext_hi, Nat.reduceSub, ext_self, isOne_bit1, Scope.ofCode_code, Rm.ofCode_code, Option.map_some]
theorem vfsqrt (x0 : BitVec 5) (x1 : BitVec 5) (x2 : BitVec 3) (x3 : Bool) (x4 : Bool) : Statement (.vfsqrt x0 x1 x2 x3 x4) := fun _ => by
  have key : ∀ w : IWord, fld w 1 6 = 6#6 → decVFpVV w = some (.vfsqrt (fld w 21 5) (fld w 16 5) (fld w 8 3) (isOne (fld w 7 1)) (isOne (fld w 0 1))) := by
    intro w h1; unfold decVFpVV; rw [h1]; rfl
  rw [raw_36 (by simp (disch := omega) only [encode, fld, ext_lo, ext_hi, Nat.reduceSub, ext_self]; try rfl), key _ (by simp (disch := omega) only [encode, fld, ext_lo, ext_hi, Nat.reduceSub, ext_self]; try rfl)]
  simp (disch := omega) only [encode, fld, ext_lo, ext_hi, Nat.reduceSub, ext_self, isOne_bit1, Scope.ofCode_code, Rm.ofCode_code, Option.map_some]
theorem vfminVv (x0 : BitVec 5) (x1 : BitVec 5) (x2 : BitVec 5) (x3 : BitVec 3) (x4 : Bool) (x5 : Bool) : Statement (.vfminVv x0 x1 x2 x3 x4 x5) := fun _ => by
  have key : ∀ w : IWord, fld w 1 6 = 7#6 → decVFpVV w = some (.vfminVv (fld w 21 5) (fld w 16 5) (fld w 11 5) (fld w 8 3) (isOne (fld w 7 1)) (isOne (fld w 0 1))) := by
    intro w h1; unfold decVFpVV; rw [h1]; rfl
  rw [raw_36 (by simp (disch := omega) only [encode, fld, ext_lo, ext_hi, Nat.reduceSub, ext_self]; try rfl), key _ (by simp (disch := omega) only [encode, fld, ext_lo, ext_hi, Nat.reduceSub, ext_self]; try rfl)]
  simp (disch := omega) only [encode, fld, ext_lo, ext_hi, Nat.reduceSub, ext_self, isOne_bit1, Scope.ofCode_code, Rm.ofCode_code, Option.map_some]
theorem vfmaxVv (x0 : BitVec 5) (x1 : BitVec 5) (x2 : BitVec 5) (x3 : BitVec 3) (x4 : Bool) (x5 : Bool) : Statement (.vfmaxVv x0 x1 x2 x3 x4 x5) := fun _ => by
  have key : ∀ w : IWord, fld w 1 6 = 8#6 → decVFpVV w = some (.vfmaxVv (fld w 21 5) (fld w 16 5) (fld w 11 5) (fld w 8 3) (isOne (fld w 7 1)) (isOne (fld w 0 1))) := by
    intro w h1; unfold decVFpVV; rw [h1]; rfl
  rw [raw_36 (by simp (disch := omega) only [encode, fld, ext_lo, ext_hi, Nat.reduceSub, ext_self]; try rfl), key _ (by simp (disch := omega) only [encode, fld, ext_lo, ext_hi, Nat.reduceSub, ext_self]; try rfl)]
  simp (disch := omega) only [encode, fld, ext_lo, ext_hi, Nat.reduceSub, ext_self, isOne_bit1, Scope.ofCode_code, Rm.ofCode_code, Option.map_some]
theorem vfclass (x0 : BitVec 5) (x1 : BitVec 5) (x2 : BitVec 3) (x3 : Bool) (x4 : Bool) : Statement (.vfclass x0 x1 x2 x3 x4) := fun _ => by
  have key : ∀ w : IWord, fld w 1 6 = 9#6 → decVFpVV w = some (.vfclass (fld w 21 5) (fld w 16 5) (fld w 8 3) (isOne (fld w 7 1)) (isOne (fld w 0 1))) := by
    intro w h1; unfold decVFpVV; rw [h1]; rfl
  rw [raw_36 (by simp (disch := omega) only [encode, fld, ext_lo, ext_hi, Nat.reduceSub, ext_self]; try rfl), key _ (by simp (disch := omega) only [encode, fld, ext_lo, ext_hi, Nat.reduceSub, ext_self]; try rfl)]
  simp (disch := omega) only [encode, fld, ext_lo, ext_hi, Nat.reduceSub, ext_self, isOne_bit1, Scope.ofCode_code, Rm.ofCode_code, Option.map_some]
theorem vfrcpe (x0 : BitVec 5) (x1 : BitVec 5) (x2 : BitVec 3) (x3 : Bool) (x4 : Bool) : Statement (.vfrcpe x0 x1 x2 x3 x4) := fun _ => by
  have key : ∀ w : IWord, fld w 1 6 = 10#6 → decVFpVV w = some (.vfrcpe (fld w 21 5) (fld w 16 5) (fld w 8 3) (isOne (fld w 7 1)) (isOne (fld w 0 1))) := by
    intro w h1; unfold decVFpVV; rw [h1]; rfl
  rw [raw_36 (by simp (disch := omega) only [encode, fld, ext_lo, ext_hi, Nat.reduceSub, ext_self]; try rfl), key _ (by simp (disch := omega) only [encode, fld, ext_lo, ext_hi, Nat.reduceSub, ext_self]; try rfl)]
  simp (disch := omega) only [encode, fld, ext_lo, ext_hi, Nat.reduceSub, ext_self, isOne_bit1, Scope.ofCode_code, Rm.ofCode_code, Option.map_some]
theorem vfaddVx (x0 : BitVec 5) (x1 : BitVec 5) (x2 : BitVec 5) (x3 : BitVec 3) (x4 : Bool) (x5 : Bool) : Statement (.vfaddVx x0 x1 x2 x3 x4 x5) := fun _ => by
  have key : ∀ w : IWord, fld w 1 6 = 0#6 → decVFpVX w = some (.vfaddVx (fld w 21 5) (fld w 16 5) (fld w 11 5) (fld w 8 3) (isOne (fld w 7 1)) (isOne (fld w 0 1))) := by
    intro w h1; unfold decVFpVX; rw [h1]; rfl
  rw [raw_37 (by simp (disch := omega) only [encode, fld, ext_lo, ext_hi, Nat.reduceSub, ext_self]; try rfl), key _ (by simp (disch := omega) only [encode, fld, ext_lo, ext_hi, Nat.reduceSub, ext_self]; try rfl)]
  simp (disch := omega) only [encode, fld, ext_lo, ext_hi, Nat.reduceSub, ext_self, isOne_bit1, Scope.ofCode_code, Rm.ofCode_code, Option.map_some]
theorem vfsubVx (x0 : BitVec 5) (x1 : BitVec 5) (x2 : BitVec 5) (x3 : BitVec 3) (x4 : Bool) (x5 : Bool) : Statement (.vfsubVx x0 x1 x2 x3 x4 x5) := fun _ => by
  have key : ∀ w : IWord, fld w 1 6 = 1#6 → decVFpVX w = some (.vfsubVx (fld w 21 5) (fld w 16 5) (fld w 11 5) (fld w 8 3) (isOne (fld w 7 1)) (isOne (fld w 0 1))) := by
    intro w h1; unfold decVFpVX; rw [h1]; rfl
  rw [raw_37 (by simp (disch := omega) only [encode, fld, ext_lo, ext_hi, Nat.reduceSub, ext_self]; try rfl), key _ (by simp (disch := omega) only [encode, fld, ext_lo, ext_hi, Nat.reduceSub, ext_self]; try rfl)]
  simp (disch := omega) only [encode, fld, ext_lo, ext_hi, Nat.reduceSub, ext_self, isOne_bit1, Scope.ofCode_code, Rm.ofCode_code, Option.map_some]
theorem vfmulVx (x0 : BitVec 5) (x1 : BitVec 5) (x2 : BitVec 5) (x3 : BitVec 3) (x4 : Bool) (x5 : Bool) : Statement (.vfmulVx x0 x1 x2 x3 x4 x5) := fun _ => by
  have key : ∀ w : IWord, fld w 1 6 = 2#6 → decVFpVX w = some (.vfmulVx (fld w 21 5) (fld w 16 5) (fld w 11 5) (fld w 8 3) (isOne (fld w 7 1)) (isOne (fld w 0 1))) := by
    intro w h1; unfold decVFpVX; rw [h1]; rfl
  rw [raw_37 (by simp (disch := omega) only [encode, fld, ext_lo, ext_hi, Nat.reduceSub, ext_self]; try rfl), key _ (by simp (disch := omega) only [encode, fld, ext_lo, ext_hi, Nat.reduceSub, ext_self]; try rfl)]
  simp (disch := omega) only [encode, fld, ext_lo, ext_hi, Nat.reduceSub, ext_self, isOne_bit1, Scope.ofCode_code, Rm.ofCode_code, Option.map_some]
theorem vfmaVx (x0 : BitVec 5) (x1 : BitVec 5) (x2 : BitVec 5) (x3 : BitVec 3) (x4 : Bool) (x5 : Bool) : Statement (.vfmaVx x0 x1 x2 x3 x4 x5) := fun _ => by
  have key : ∀ w : IWord, fld w 1 6 = 3#6 → decVFpVX w = some (.vfmaVx (fld w 21 5) (fld w 16 5) (fld w 11 5) (fld w 8 3) (isOne (fld w 7 1)) (isOne (fld w 0 1))) := by
    intro w h1; unfold decVFpVX; rw [h1]; rfl
  rw [raw_37 (by simp (disch := omega) only [encode, fld, ext_lo, ext_hi, Nat.reduceSub, ext_self]; try rfl), key _ (by simp (disch := omega) only [encode, fld, ext_lo, ext_hi, Nat.reduceSub, ext_self]; try rfl)]
  simp (disch := omega) only [encode, fld, ext_lo, ext_hi, Nat.reduceSub, ext_self, isOne_bit1, Scope.ofCode_code, Rm.ofCode_code, Option.map_some]
theorem vfmsVx (x0 : BitVec 5) (x1 : BitVec 5) (x2 : BitVec 5) (x3 : BitVec 3) (x4 : Bool) (x5 : Bool) : Statement (.vfmsVx x0 x1 x2 x3 x4 x5) := fun _ => by
  have key : ∀ w : IWord, fld w 1 6 = 4#6 → decVFpVX w = some (.vfmsVx (fld w 21 5) (fld w 16 5) (fld w 11 5) (fld w 8 3) (isOne (fld w 7 1)) (isOne (fld w 0 1))) := by
    intro w h1; unfold decVFpVX; rw [h1]; rfl
  rw [raw_37 (by simp (disch := omega) only [encode, fld, ext_lo, ext_hi, Nat.reduceSub, ext_self]; try rfl), key _ (by simp (disch := omega) only [encode, fld, ext_lo, ext_hi, Nat.reduceSub, ext_self]; try rfl)]
  simp (disch := omega) only [encode, fld, ext_lo, ext_hi, Nat.reduceSub, ext_self, isOne_bit1, Scope.ofCode_code, Rm.ofCode_code, Option.map_some]
theorem vfdivVx (x0 : BitVec 5) (x1 : BitVec 5) (x2 : BitVec 5) (x3 : BitVec 3) (x4 : Bool) (x5 : Bool) : Statement (.vfdivVx x0 x1 x2 x3 x4 x5) := fun _ => by
  have key : ∀ w : IWord, fld w 1 6 = 5#6 → decVFpVX w = some (.vfdivVx (fld w 21 5) (fld w 16 5) (fld w 11 5) (fld w 8 3) (isOne (fld w 7 1)) (isOne (fld w 0 1))) := by
    intro w h1; unfold decVFpVX; rw [h1]; rfl
  rw [raw_37 (by simp (disch := omega) only [encode, fld, ext_lo, ext_hi, Nat.reduceSub, ext_self]; try rfl), key _ (by simp (disch := omega) only [encode, fld, ext_lo, ext_hi, Nat.reduceSub, ext_self]; try rfl)]
  simp (disch := omega) only [encode, fld, ext_lo, ext_hi, Nat.reduceSub, ext_self, isOne_bit1, Scope.ofCode_code, Rm.ofCode_code, Option.map_some]
theorem vfminVx (x0 : BitVec 5) (x1 : BitVec 5) (x2 : BitVec 5) (x3 : BitVec 3) (x4 : Bool) (x5 : Bool) : Statement (.vfminVx x0 x1 x2 x3 x4 x5) := fun _ => by
  have key : ∀ w : IWord, fld w 1 6 = 7#6 → decVFpVX w = some (.vfminVx (fld w 21 5) (fld w 16 5) (fld w 11 5) (fld w 8 3) (isOne (fld w 7 1)) (isOne (fld w 0 1))) := by
    intro w h1; unfold decVFpVX; rw [h1]; rfl
  rw [raw_37 (by simp (disch := omega) only [encode, fld, ext_lo, ext_hi, Nat.reduceSub, ext_self]; try rfl), key _ (by simp (disch := omega) only [encode, fld, ext_lo, ext_hi, Nat.reduceSub, ext_self]; try rfl)]
  simp (disch := omega) only [encode, fld, ext_lo, ext_hi, Nat.reduceSub, ext_self, isOne_bit1, Scope.ofCode_code, Rm.ofCode_code, Option.map_some]
theorem vfmaxVx (x0 : BitVec 5) (x1 : BitVec 5) (x2 : BitVec 5) (x3 : BitVec 3) (x4 : Bool) (x5 : Bool) : Statement (.vfmaxVx x0 x1 x2 x3 x4 x5) := fun _ => by
  have key : ∀ w : IWord, fld w 1 6 = 8#6 → decVFpVX w = some (.vfmaxVx (fld w 21 5) (fld w 16 5) (fld w 11 5) (fld w 8 3) (isOne (fld w 7 1)) (isOne (fld w 0 1))) := by
    intro w h1; unfold decVFpVX; rw [h1]; rfl
  rw [raw_37 (by simp (disch := omega) only [encode, fld, ext_lo, ext_hi, Nat.reduceSub, ext_self]; try rfl), key _ (by simp (disch := omega) only [encode, fld, ext_lo, ext_hi, Nat.reduceSub, ext_self]; try rfl)]
  simp (disch := omega) only [encode, fld, ext_lo, ext_hi, Nat.reduceSub, ext_self, isOne_bit1, Scope.ofCode_code, Rm.ofCode_code, Option.map_some]
theorem vcmpEqVv (x0 : BitVec 5) (x1 : BitVec 5) (x2 : BitVec 5) (x3 : BitVec 3) (x4 : Bool) (x5 : Bool) : Statement (.vcmpEqVv x0 x1 x2 x3 x4 x5) := fun _ => by
  have key : ∀ w : IWord, fld w 1 6 = 0#6 → decVCmp w = some (.vcmpEqVv (fld w 21 5) (fld w 16 5) (fld w 11 5) (fld w 8 3) (isOne (fld w 7 1)) (isOne (fld w 0 1))) := by
    intro w h1; unfold decVCmp; rw [h1]; rfl
  rw [raw_38 (by simp (disch := omega) only [encode, fld, ext_lo, ext_hi, Nat.reduceSub, ext_self]; try rfl), key _ (by simp (disch := omega) only [encode, fld, ext_lo, ext_hi, Nat.reduceSub, ext_self]; try rfl)]
  simp (disch := omega) only [encode, fld, ext_lo, ext_hi, Nat.reduceSub, ext_self, isOne_bit1, Scope.ofCode_code, Rm.ofCode_code, Option.map_some]
theorem vcmpNeVv (x0 : BitVec 5) (x1 : BitVec 5) (x2 : BitVec 5) (x3 : BitVec 3) (x4 : Bool) (x5 : Bool) : Statement (.vcmpNeVv x0 x1 x2 x3 x4 x5) := fun _ => by
  have key : ∀ w : IWord, fld w 1 6 = 1#6 → decVCmp w = some (.vcmpNeVv (fld w 21 5) (fld w 16 5) (fld w 11 5) (fld w 8 3) (isOne (fld w 7 1)) (isOne (fld w 0 1))) := by
    intro w h1; unfold decVCmp; rw [h1]; rfl
  rw [raw_38 (by simp (disch := omega) only [encode, fld, ext_lo, ext_hi, Nat.reduceSub, ext_self]; try rfl), key _ (by simp (disch := omega) only [encode, fld, ext_lo, ext_hi, Nat.reduceSub, ext_self]; try rfl)]
  simp (disch := omega) only [encode, fld, ext_lo, ext_hi, Nat.reduceSub, ext_self, isOne_bit1, Scope.ofCode_code, Rm.ofCode_code, Option.map_some]
theorem vcmpLtVv (x0 : BitVec 5) (x1 : BitVec 5) (x2 : BitVec 5) (x3 : BitVec 3) (x4 : Bool) (x5 : Bool) : Statement (.vcmpLtVv x0 x1 x2 x3 x4 x5) := fun _ => by
  have key : ∀ w : IWord, fld w 1 6 = 2#6 → decVCmp w = some (.vcmpLtVv (fld w 21 5) (fld w 16 5) (fld w 11 5) (fld w 8 3) (isOne (fld w 7 1)) (isOne (fld w 0 1))) := by
    intro w h1; unfold decVCmp; rw [h1]; rfl
  rw [raw_38 (by simp (disch := omega) only [encode, fld, ext_lo, ext_hi, Nat.reduceSub, ext_self]; try rfl), key _ (by simp (disch := omega) only [encode, fld, ext_lo, ext_hi, Nat.reduceSub, ext_self]; try rfl)]
  simp (disch := omega) only [encode, fld, ext_lo, ext_hi, Nat.reduceSub, ext_self, isOne_bit1, Scope.ofCode_code, Rm.ofCode_code, Option.map_some]
theorem vcmpLeVv (x0 : BitVec 5) (x1 : BitVec 5) (x2 : BitVec 5) (x3 : BitVec 3) (x4 : Bool) (x5 : Bool) : Statement (.vcmpLeVv x0 x1 x2 x3 x4 x5) := fun _ => by
  have key : ∀ w : IWord, fld w 1 6 = 3#6 → decVCmp w = some (.vcmpLeVv (fld w 21 5) (fld w 16 5) (fld w 11 5) (fld w 8 3) (isOne (fld w 7 1)) (isOne (fld w 0 1))) := by
    intro w h1; unfold decVCmp; rw [h1]; rfl
  rw [raw_38 (by simp (disch := omega) only [encode, fld, ext_lo, ext_hi, Nat.reduceSub, ext_self]; try rfl), key _ (by simp (disch := omega) only [encode, fld, ext_lo, ext_hi, Nat.reduceSub, ext_self]; try rfl)]
  simp (disch := omega) only [encode, fld, ext_lo, ext_hi, Nat.reduceSub, ext_self, isOne_bit1, Scope.ofCode_code, Rm.ofCode_code, Option.map_some]
theorem vcmpGtVv (x0 : BitVec 5) (x1 : BitVec 5) (x2 : BitVec 5) (x3 : BitVec 3) (x4 : Bool) (x5 : Bool) : Statement (.vcmpGtVv x0 x1 x2 x3 x4 x5) := fun _ => by
  have key : ∀ w : IWord, fld w 1 6 = 4#6 → decVCmp w = some (.vcmpGtVv (fld w 21 5) (fld w 16 5) (fld w 11 5) (fld w 8 3) (isOne (fld w 7 1)) (isOne (fld w 0 1))) := by
    intro w h1; unfold decVCmp; rw [h1]; rfl
  rw [raw_38 (by simp (disch := omega) only [encode, fld, ext_lo, ext_hi, Nat.reduceSub, ext_self]; try rfl), key _ (by simp (disch := omega) only [encode, fld, ext_lo, ext_hi, Nat.reduceSub, ext_self]; try rfl)]
  simp (disch := omega) only [encode, fld, ext_lo, ext_hi, Nat.reduceSub, ext_self, isOne_bit1, Scope.ofCode_code, Rm.ofCode_code, Option.map_some]
theorem vcmpGeVv (x0 : BitVec 5) (x1 : BitVec 5) (x2 : BitVec 5) (x3 : BitVec 3) (x4 : Bool) (x5 : Bool) : Statement (.vcmpGeVv x0 x1 x2 x3 x4 x5) := fun _ => by
  have key : ∀ w : IWord, fld w 1 6 = 5#6 → decVCmp w = some (.vcmpGeVv (fld w 21 5) (fld w 16 5) (fld w 11 5) (fld w 8 3) (isOne (fld w 7 1)) (isOne (fld w 0 1))) := by
    intro w h1; unfold decVCmp; rw [h1]; rfl
  rw [raw_38 (by simp (disch := omega) only [encode, fld, ext_lo, ext_hi, Nat.reduceSub, ext_self]; try rfl), key _ (by simp (disch := omega) only [encode, fld, ext_lo, ext_hi, Nat.reduceSub, ext_self]; try rfl)]
  simp (disch := omega) only [encode, fld, ext_lo, ext_hi, Nat.reduceSub, ext_self, isOne_bit1, Scope.ofCode_code, Rm.ofCode_code, Option.map_some]
theorem vfcmpEqVv (x0 : BitVec 5) (x1 : BitVec 5) (x2 : BitVec 5) (x3 : BitVec 3) (x4 : Bool) (x5 : Bool) : Statement (.vfcmpEqVv x0 x1 x2 x3 x4 x5) := fun _ => by
  have key : ∀ w : IWord, fld w 1 6 = 8#6 → decVCmp w = some (.vfcmpEqVv (fld w 21 5) (fld w 16 5) (fld w 11 5) (fld w 8 3) (isOne (fld w 7 1)) (isOne (fld w 0 1))) := by
    intro w h1; unfold decVCmp; rw [h1]; rfl
  rw [raw_38 (by simp (disch := omega) only [encode, fld, ext_lo, ext_hi, Nat.reduceSub, ext_self]; try rfl), key _ (by simp (disch := omega) only [encode, fld, ext_lo, ext_hi, Nat.reduceSub, ext_self]; try rfl)]
  simp (disch := omega) only [encode, fld, ext_lo, ext_hi, Nat.reduceSub, ext_self, isOne_bit1, Scope.ofCode_code, Rm.ofCode_code, Option.map_some]
theorem vfcmpNeVv (x0 : BitVec 5) (x1 : BitVec 5) (x2 : BitVec 5) (x3 : BitVec 3) (x4 : Bool) (x5 : Bool) : Statement (.vfcmpNeVv x0 x1 x2 x3 x4 x5) := fun _ => by
  have key : ∀ w : IWord, fld w 1 6 = 9#6 → decVCmp w = some (.vfcmpNeVv (fld w 21 5) (fld w 16 5) (fld w 11 5) (fld w 8 3) (isOne (fld w 7 1)) (isOne (fld w 0 1))) := by
    intro w h1; unfold decVCmp; rw [h1]; rfl
  rw [raw_38 (by simp (disch := omega) only [encode, fld, ext_lo, ext_hi, Nat.reduceSub, ext_self]; try rfl), key _ (by simp (disch := omega) only [encode, fld, ext_lo, ext_hi, Nat.reduceSub, ext_self]; try rfl)]
  simp (disch := omega) only [encode, fld, ext_lo, ext_hi, Nat.reduceSub, ext_self, isOne_bit1, Scope.ofCode_code, Rm.ofCode_code, Option.map_some]
theorem vfcmpLtVv (x0 : BitVec 5) (x1 : BitVec 5) (x2 : BitVec 5) (x3 : BitVec 3) (x4 : Bool) (x5 : Bool) : Statement (.vfcmpLtVv x0 x1 x2 x3 x4 x5) := fun _ => by
  have key : ∀ w : IWord, fld w 1 6 = 10#6 → decVCmp w = some (.vfcmpLtVv (fld w 21 5) (fld w 16 5) (fld w 11 5) (fld w 8 3) (isOne (fld w 7 1)) (isOne (fld w 0 1))) := by
    intro w h1; unfold decVCmp; rw [h1]; rfl
  rw [raw_38 (by simp (disch := omega) only [encode, fld, ext_lo, ext_hi, Nat.reduceSub, ext_self]; try rfl), key _ (by simp (disch := omega) only [encode, fld, ext_lo, ext_hi, Nat.reduceSub, ext_self]; try rfl)]
  simp (disch := omega) only [encode, fld, ext_lo, ext_hi, Nat.reduceSub, ext_self, isOne_bit1, Scope.ofCode_code, Rm.ofCode_code, Option.map_some]
theorem vfcmpLeVv (x0 : BitVec 5) (x1 : BitVec 5) (x2 : BitVec 5) (x3 : BitVec 3) (x4 : Bool) (x5 : Bool) : Statement (.vfcmpLeVv x0 x1 x2 x3 x4 x5) := fun _ => by
  have key : ∀ w : IWord, fld w 1 6 = 11#6 → decVCmp w = some (.vfcmpLeVv (fld w 21 5) (fld w 16 5) (fld w 11 5) (fld w 8 3) (isOne (fld w 7 1)) (isOne (fld w 0 1))) := by
    intro w h1; unfold decVCmp; rw [h1]; rfl
  rw [raw_38 (by simp (disch := omega) only [encode, fld, ext_lo, ext_hi, Nat.reduceSub, ext_self]; try rfl), key _ (by simp (disch := omega) only [encode, fld, ext_lo, ext_hi, Nat.reduceSub, ext_self]; try rfl)]
  simp (disch := omega) only [encode, fld, ext_lo, ext_hi, Nat.reduceSub, ext_self, isOne_bit1, Scope.ofCode_code, Rm.ofCode_code, Option.map_some]
theorem vcmpEqVx (x0 : BitVec 5) (x1 : BitVec 5) (x2 : BitVec 5) (x3 : BitVec 3) (x4 : Bool) (x5 : Bool) : Statement (.vcmpEqVx x0 x1 x2 x3 x4 x5) := fun _ => by
  have key : ∀ w : IWord, fld w 1 6 = 32#6 → decVCmp w = some (.vcmpEqVx (fld w 21 5) (fld w 16 5) (fld w 11 5) (fld w 8 3) (isOne (fld w 7 1)) (isOne (fld w 0 1))) := by
    intro w h1; unfold decVCmp; rw [h1]; rfl
  rw [raw_38 (by simp (disch := omega) only [encode, fld, ext_lo, ext_hi, Nat.reduceSub, ext_self]; try rfl), key _ (by simp (disch := omega) only [encode, fld, ext_lo, ext_hi, Nat.reduceSub, ext_self]; try rfl)]
  simp (disch := omega) only [encode, fld, ext_lo, ext_hi, Nat.reduceSub, ext_self, isOne_bit1, Scope.ofCode_code, Rm.ofCode_code, Option.map_some]
theorem vcmpNeVx (x0 : BitVec 5) (x1 : BitVec 5) (x2 : BitVec 5) (x3 : BitVec 3) (x4 : Bool) (x5 : Bool) : Statement (.vcmpNeVx x0 x1 x2 x3 x4 x5) := fun _ => by
  have key : ∀ w : IWord, fld w 1 6 = 33#6 → decVCmp w = some (.vcmpNeVx (fld w 21 5) (fld w 16 5) (fld w 11 5) (fld w 8 3) (isOne (fld w 7 1)) (isOne (fld w 0 1))) := by
    intro w h1; unfold decVCmp; rw [h1]; rfl
  rw [raw_38 (by simp (disch := omega) only [encode, fld, ext_lo, ext_hi, Nat.reduceSub, ext_self]; try rfl), key _ (by simp (disch := omega) only [encode, fld, ext_lo, ext_hi, Nat.reduceSub, ext_self]; try rfl)]
  simp (disch := omega) only [encode, fld, ext_lo, ext_hi, Nat.reduceSub, ext_self, isOne_bit1, Scope.ofCode_code, Rm.ofCode_code, Option.map_some]
theorem vcmpLtVx (x0 : BitVec 5) (x1 : BitVec 5) (x2 : BitVec 5) (x3 : BitVec 3) (x4 : Bool) (x5 : Bool) : Statement (.vcmpLtVx x0 x1 x2 x3 x4 x5) := fun _ => by
  have key : ∀ w : IWord, fld w 1 6 = 34#6 → decVCmp w = some (.vcmpLtVx (fld w 21 5) (fld w 16 5) (fld w 11 5) (fld w 8 3) (isOne (fld w 7 1)) (isOne (fld w 0 1))) := by
    intro w h1; unfold decVCmp; rw [h1]; rfl
  rw [raw_38 (by simp (disch := omega) only [encode, fld, ext_lo, ext_hi, Nat.reduceSub, ext_self]; try rfl), key _ (by simp (disch := omega) only [encode, fld, ext_lo, ext_hi, Nat.reduceSub, ext_self]; try rfl)]
  simp (disch := omega) only [encode, fld, ext_lo, ext_hi, Nat.reduceSub, ext_self, isOne_bit1, Scope.ofCode_code, Rm.ofCode_code, Option.map_some]
theorem vcmpLeVx (x0 : BitVec 5) (x1 : BitVec 5) (x2 : BitVec 5) (x3 : BitVec 3) (x4 : Bool) (x5 : Bool) : Statement (.vcmpLeVx x0 x1 x2 x3 x4 x5) := fun _ => by
  have key : ∀ w : IWord, fld w 1 6 = 35#6 → decVCmp w = some (.vcmpLeVx (fld w 21 5) (fld w 16 5) (fld w 11 5) (fld w 8 3) (isOne (fld w 7 1)) (isOne (fld w 0 1))) := by
    intro w h1; unfold decVCmp; rw [h1]; rfl
  rw [raw_38 (by simp (disch := omega) only [encode, fld, ext_lo, ext_hi, Nat.reduceSub, ext_self]; try rfl), key _ (by simp (disch := omega) only [encode, fld, ext_lo, ext_hi, Nat.reduceSub, ext_self]; try rfl)]
  simp (disch := omega) only [encode, fld, ext_lo, ext_hi, Nat.reduceSub, ext_self, isOne_bit1, Scope.ofCode_code, Rm.ofCode_code, Option.map_some]
theorem vcmpGtVx (x0 : BitVec 5) (x1 : BitVec 5) (x2 : BitVec 5) (x3 : BitVec 3) (x4 : Bool) (x5 : Bool) : Statement (.vcmpGtVx x0 x1 x2 x3 x4 x5) := fun _ => by
  have key : ∀ w : IWord, fld w 1 6 = 36#6 → decVCmp w = some (.vcmpGtVx (fld w 21 5) (fld w 16 5) (fld w 11 5) (fld w 8 3) (isOne (fld w 7 1)) (isOne (fld w 0 1))) := by
    intro w h1; unfold decVCmp; rw [h1]; rfl
  rw [raw_38 (by simp (disch := omega) only [encode, fld, ext_lo, ext_hi, Nat.reduceSub, ext_self]; try rfl), key _ (by simp (disch := omega) only [encode, fld, ext_lo, ext_hi, Nat.reduceSub, ext_self]; try rfl)]
  simp (disch := omega) only [encode, fld, ext_lo, ext_hi, Nat.reduceSub, ext_self, isOne_bit1, Scope.ofCode_code, Rm.ofCode_code, Option.map_some]
theorem vcmpGeVx (x0 : BitVec 5) (x1 : BitVec 5) (x2 : BitVec 5) (x3 : BitVec 3) (x4 : Bool) (x5 : Bool) : Statement (.vcmpGeVx x0 x1 x2 x3 x4 x5) := fun _ => by
  have key : ∀ w : IWord, fld w 1 6 = 37#6 → decVCmp w = some (.vcmpGeVx (fld w 21 5) (fld w 16 5) (fld w 11 5) (fld w 8 3) (isOne (fld w 7 1)) (isOne (fld w 0 1))) := by
    intro w h1; unfold decVCmp; rw [h1]; rfl
  rw [raw_38 (by simp (disch := omega) only [encode, fld, ext_lo, ext_hi, Nat.reduceSub, ext_self]; try rfl), key _ (by simp (disch := omega) only [encode, fld, ext_lo, ext_hi, Nat.reduceSub, ext_self]; try rfl)]
  simp (disch := omega) only [encode, fld, ext_lo, ext_hi, Nat.reduceSub, ext_self, isOne_bit1, Scope.ofCode_code, Rm.ofCode_code, Option.map_some]
theorem vfcmpEqVx (x0 : BitVec 5) (x1 : BitVec 5) (x2 : BitVec 5) (x3 : BitVec 3) (x4 : Bool) (x5 : Bool) : Statement (.vfcmpEqVx x0 x1 x2 x3 x4 x5) := fun _ => by
  have key : ∀ w : IWord, fld w 1 6 = 40#6 → decVCmp w = some (.vfcmpEqVx (fld w 21 5) (fld w 16 5) (fld w 11 5) (fld w 8 3) (isOne (fld w 7 1)) (isOne (fld w 0 1))) := by
    intro w h1; unfold decVCmp; rw [h1]; rfl
  rw [raw_38 (by simp (disch := omega) only [encode, fld, ext_lo, ext_hi, Nat.reduceSub, ext_self]; try rfl), key _ (by simp (disch := omega) only [encode, fld, ext_lo, ext_hi, Nat.reduceSub, ext_self]; try rfl)]
  simp (disch := omega) only [encode, fld, ext_lo, ext_hi, Nat.reduceSub, ext_self, isOne_bit1, Scope.ofCode_code, Rm.ofCode_code, Option.map_some]
theorem vfcmpNeVx (x0 : BitVec 5) (x1 : BitVec 5) (x2 : BitVec 5) (x3 : BitVec 3) (x4 : Bool) (x5 : Bool) : Statement (.vfcmpNeVx x0 x1 x2 x3 x4 x5) := fun _ => by
  have key : ∀ w : IWord, fld w 1 6 = 41#6 → decVCmp w = some (.vfcmpNeVx (fld w 21 5) (fld w 16 5) (fld w 11 5) (fld w 8 3) (isOne (fld w 7 1)) (isOne (fld w 0 1))) := by
    intro w h1; unfold decVCmp; rw [h1]; rfl
  rw [raw_38 (by simp (disch := omega) only [encode, fld, ext_lo, ext_hi, Nat.reduceSub, ext_self]; try rfl), key _ (by simp (disch := omega) only [encode, fld, ext_lo, ext_hi, Nat.reduceSub, ext_self]; try rfl)]
  simp (disch := omega) only [encode, fld, ext_lo, ext_hi, Nat.reduceSub, ext_self, isOne_bit1, Scope.ofCode_code, Rm.ofCode_code, Option.map_some]
theorem vfcmpLtVx (x0 : BitVec 5) (x1 : BitVec 5) (x2 : BitVec 5) (x3 : BitVec 3) (x4 : Bool) (x5 : Bool) : Statement (.vfcmpLtVx x0 x1 x2 x3 x4 x5) := fun _ => by
  have key : ∀ w : IWord, fld w 1 6 = 42#6 → decVCmp w = some (.vfcmpLtVx (fld w 21 5) (fld w 16 5) (fld w 11 5) (fld w 8 3) (isOne (fld w 7 1)) (isOne (fld w 0 1))) := by
    intro w h1; unfold decVCmp; rw [h1]; rfl
  rw [raw_38 (by simp (disch := omega) only [encode, fld, ext_lo, ext_hi, Nat.reduceSub, ext_self]; try rfl), key _ (by simp (disch := omega) only [encode, fld, ext_lo, ext_hi, Nat.reduceSub, ext_self]; try rfl)]
  simp (disch := omega) only [encode, fld, ext_lo, ext_hi, Nat.reduceSub, ext_self, isOne_bit1, Scope.ofCode_code, Rm.ofCode_code, Option.map_some]
theorem vfcmpLeVx (x0 : BitVec 5) (x1 : BitVec 5) (x2 : BitVec 5) (x3 : BitVec 3) (x4 : Bool) (x5 : Bool) : Statement (.vfcmpLeVx x0 x1 x2 x3 x4 x5) := fun _ => by
  have key : ∀ w : IWord, fld w 1 6 = 43#6 → decVCmp w = some (.vfcmpLeVx (fld w 21 5) (fld w 16 5) (fld w 11 5) (fld w 8 3) (isOne (fld w 7 1)) (isOne (fld w 0 1))) := by
    intro w h1; unfold decVCmp; rw [h1]; rfl
  rw [raw_38 (by simp (disch := omega) only [encode, fld, ext_lo, ext_hi, Nat.reduceSub, ext_self]; try rfl), key _ (by simp (disch := omega) only [encode, fld, ext_lo, ext_hi, Nat.reduceSub, ext_self]; try rfl)]
  simp (disch := omega) only [encode, fld, ext_lo, ext_hi, Nat.reduceSub, ext_self, isOne_bit1, Scope.ofCode_code, Rm.ofCode_code, Option.map_some]
theorem kand (x0 : BitVec 5) (x1 : BitVec 5) (x2 : BitVec 5) : Statement (.kand x0 x1 x2) := fun _ => by
  have key : ∀ w : IWord, fld w 1 6 = 0#6 → decKOps w = some (.kand (fld w 21 5) (fld w 16 5) (fld w 11 5)) := by
    intro w h1; unfold decKOps; rw [h1]; rfl
  rw [raw_39 (by simp (disch := omega) only [encode, fld, ext_lo, ext_hi, Nat.reduceSub, ext_self]; try rfl), key _ (by simp (disch := omega) only [encode, fld, ext_lo, ext_hi, Nat.reduceSub, ext_self]; try rfl)]
  simp (disch := omega) only [encode, fld, ext_lo, ext_hi, Nat.reduceSub, ext_self, isOne_bit1, Scope.ofCode_code, Rm.ofCode_code, Option.map_some]
theorem kor (x0 : BitVec 5) (x1 : BitVec 5) (x2 : BitVec 5) : Statement (.kor x0 x1 x2) := fun _ => by
  have key : ∀ w : IWord, fld w 1 6 = 1#6 → decKOps w = some (.kor (fld w 21 5) (fld w 16 5) (fld w 11 5)) := by
    intro w h1; unfold decKOps; rw [h1]; rfl
  rw [raw_39 (by simp (disch := omega) only [encode, fld, ext_lo, ext_hi, Nat.reduceSub, ext_self]; try rfl), key _ (by simp (disch := omega) only [encode, fld, ext_lo, ext_hi, Nat.reduceSub, ext_self]; try rfl)]
  simp (disch := omega) only [encode, fld, ext_lo, ext_hi, Nat.reduceSub, ext_self, isOne_bit1, Scope.ofCode_code, Rm.ofCode_code, Option.map_some]
theorem kxor (x0 : BitVec 5) (x1 : BitVec 5) (x2 : BitVec 5) : Statement (.kxor x0 x1 x2) := fun _ => by
  have key : ∀ w : IWord, fld w 1 6 = 2#6 → decKOps w = some (.kxor (fld w 21 5) (fld w 16 5) (fld w 11 5)) := by
    intro w h1; unfold decKOps; rw [h1]; rfl
  rw [raw_39 (by simp (disch := omega) only [encode, fld, ext_lo, ext_hi, Nat.reduceSub, ext_self]; try rfl), key _ (by simp (disch := omega) only [encode, fld, ext_lo, ext_hi, Nat.reduceSub, ext_self]; try rfl)]
  simp (disch := omega) only [encode, fld, ext_lo, ext_hi, Nat.reduceSub, ext_self, isOne_bit1, Scope.ofCode_code, Rm.ofCode_code, Option.map_some]
theorem knot (x0 : BitVec 5) (x1 : BitVec 5) : Statement (.knot x0 x1) := fun _ => by
  have key : ∀ w : IWord, fld w 1 6 = 3#6 → decKOps w = some (.knot (fld w 21 5) (fld w 16 5)) := by
    intro w h1; unfold decKOps; rw [h1]; rfl
  rw [raw_39 (by simp (disch := omega) only [encode, fld, ext_lo, ext_hi, Nat.reduceSub, ext_self]; try rfl), key _ (by simp (disch := omega) only [encode, fld, ext_lo, ext_hi, Nat.reduceSub, ext_self]; try rfl)]
  simp (disch := omega) only [encode, fld, ext_lo, ext_hi, Nat.reduceSub, ext_self, isOne_bit1, Scope.ofCode_code, Rm.ofCode_code, Option.map_some]
theorem kshl1 (x0 : BitVec 5) (x1 : BitVec 5) : Statement (.kshl1 x0 x1) := fun _ => by
  have key : ∀ w : IWord, fld w 1 6 = 4#6 → decKOps w = some (.kshl1 (fld w 21 5) (fld w 16 5)) := by
    intro w h1; unfold decKOps; rw [h1]; rfl
  rw [raw_39 (by simp (disch := omega) only [encode, fld, ext_lo, ext_hi, Nat.reduceSub, ext_self]; try rfl), key _ (by simp (disch := omega) only [encode, fld, ext_lo, ext_hi, Nat.reduceSub, ext_self]; try rfl)]
  simp (disch := omega) only [encode, fld, ext_lo, ext_hi, Nat.reduceSub, ext_self, isOne_bit1, Scope.ofCode_code, Rm.ofCode_code, Option.map_some]
theorem kshr1 (x0 : BitVec 5) (x1 : BitVec 5) : Statement (.kshr1 x0 x1) := fun _ => by
  have key : ∀ w : IWord, fld w 1 6 = 5#6 → decKOps w = some (.kshr1 (fld w 21 5) (fld w 16 5)) := by
    intro w h1; unfold decKOps; rw [h1]; rfl
  rw [raw_39 (by simp (disch := omega) only [encode, fld, ext_lo, ext_hi, Nat.reduceSub, ext_self]; try rfl), key _ (by simp (disch := omega) only [encode, fld, ext_lo, ext_hi, Nat.reduceSub, ext_self]; try rfl)]
  simp (disch := omega) only [encode, fld, ext_lo, ext_hi, Nat.reduceSub, ext_self, isOne_bit1, Scope.ofCode_code, Rm.ofCode_code, Option.map_some]
theorem kpopc (x0 : BitVec 5) (x1 : BitVec 5) : Statement (.kpopc x0 x1) := fun _ => by
  have key : ∀ w : IWord, fld w 1 6 = 6#6 → decKOps w = some (.kpopc (fld w 21 5) (fld w 16 5)) := by
    intro w h1; unfold decKOps; rw [h1]; rfl
  rw [raw_39 (by simp (disch := omega) only [encode, fld, ext_lo, ext_hi, Nat.reduceSub, ext_self]; try rfl), key _ (by simp (disch := omega) only [encode, fld, ext_lo, ext_hi, Nat.reduceSub, ext_self]; try rfl)]
  simp (disch := omega) only [encode, fld, ext_lo, ext_hi, Nat.reduceSub, ext_self, isOne_bit1, Scope.ofCode_code, Rm.ofCode_code, Option.map_some]
theorem kfirst (x0 : BitVec 5) (x1 : BitVec 5) : Statement (.kfirst x0 x1) := fun _ => by
  have key : ∀ w : IWord, fld w 1 6 = 7#6 → decKOps w = some (.kfirst (fld w 21 5) (fld w 16 5)) := by
    intro w h1; unfold decKOps; rw [h1]; rfl
  rw [raw_39 (by simp (disch := omega) only [encode, fld, ext_lo, ext_hi, Nat.reduceSub, ext_self]; try rfl), key _ (by simp (disch := omega) only [encode, fld, ext_lo, ext_hi, Nat.reduceSub, ext_self]; try rfl)]
  simp (disch := omega) only [encode, fld, ext_lo, ext_hi, Nat.reduceSub, ext_self, isOne_bit1, Scope.ofCode_code, Rm.ofCode_code, Option.map_some]
theorem kmv (x0 : BitVec 5) (x1 : BitVec 5) : Statement (.kmv x0 x1) := fun _ => by
  have key : ∀ w : IWord, fld w 1 6 = 8#6 → decKOps w = some (.kmv (fld w 21 5) (fld w 16 5)) := by
    intro w h1; unfold decKOps; rw [h1]; rfl
  rw [raw_39 (by simp (disch := omega) only [encode, fld, ext_lo, ext_hi, Nat.reduceSub, ext_self]; try rfl), key _ (by simp (disch := omega) only [encode, fld, ext_lo, ext_hi, Nat.reduceSub, ext_self]; try rfl)]
  simp (disch := omega) only [encode, fld, ext_lo, ext_hi, Nat.reduceSub, ext_self, isOne_bit1, Scope.ofCode_code, Rm.ofCode_code, Option.map_some]
theorem vmerge (x0 : BitVec 5) (x1 : BitVec 5) (x2 : BitVec 5) (x3 : BitVec 3) (x4 : Bool) (x5 : Bool) : Statement (.vmerge x0 x1 x2 x3 x4 x5) := fun _ => by
  have key : ∀ w : IWord, fld w 1 6 = 0#6 → decVPerm w = some (.vmerge (fld w 21 5) (fld w 16 5) (fld w 11 5) (fld w 8 3) (isOne (fld w 7 1)) (isOne (fld w 0 1))) := by
    intro w h1; unfold decVPerm; rw [h1]; rfl
  rw [raw_40 (by simp (disch := omega) only [encode, fld, ext_lo, ext_hi, Nat.reduceSub, ext_self]; try rfl), key _ (by simp (disch := omega) only [encode, fld, ext_lo, ext_hi, Nat.reduceSub, ext_self]; try rfl)]
  simp (disch := omega) only [encode, fld, ext_lo, ext_hi, Nat.reduceSub, ext_self, isOne_bit1, Scope.ofCode_code, Rm.ofCode_code, Option.map_some]
theorem vbcast (x0 : BitVec 5) (x1 : BitVec 5) (x2 : BitVec 3) (x3 : Bool) (x4 : Bool) : Statement (.vbcast x0 x1 x2 x3 x4) := fun _ => by
  have key : ∀ w : IWord, fld w 1 6 = 1#6 → decVPerm w = some (.vbcast (fld w 21 5) (fld w 11 5) (fld w 8 3) (isOne (fld w 7 1)) (isOne (fld w 0 1))) := by
    intro w h1; unfold decVPerm; rw [h1]; rfl
  rw [raw_40 (by simp (disch := omega) only [encode, fld, ext_lo, ext_hi, Nat.reduceSub, ext_self]; try rfl), key _ (by simp (disch := omega) only [encode, fld, ext_lo, ext_hi, Nat.reduceSub, ext_self]; try rfl)]
  simp (disch := omega) only [encode, fld, ext_lo, ext_hi, Nat.reduceSub, ext_self, isOne_bit1, Scope.ofCode_code, Rm.ofCode_code, Option.map_some]
theorem vslideup (x0 : BitVec 5) (x1 : BitVec 5) (x2 : BitVec 5) (x3 : BitVec 3) (x4 : Bool) (x5 : Bool) : Statement (.vslideup x0 x1 x2 x3 x4 x5) := fun _ => by
  have key : ∀ w : IWord, fld w 1 6 = 2#6 → decVPerm w = some (.vslideup (fld w 21 5) (fld w 16 5) (fld w 11 5) (fld w 8 3) (isOne (fld w 7 1)) (isOne (fld w 0 1))) := by
    intro w h1; unfold decVPerm; rw [h1]; rfl
  rw [raw_40 (by simp (disch := omega) only [encode, fld, ext_lo, ext_hi, Nat.reduceSub, ext_self]; try rfl), key _ (by simp (disch := omega) only [encode, fld, ext_lo, ext_hi, Nat.reduceSub, ext_self]; try rfl)]
  simp (disch := omega) only [encode, fld, ext_lo, ext_hi, Nat.reduceSub, ext_self, isOne_bit1, Scope.ofCode_code, Rm.ofCode_code, Option.map_some]
theorem vslidedn (x0 : BitVec 5) (x1 : BitVec 5) (x2 : BitVec 5) (x3 : BitVec 3) (x4 : Bool) (x5 : Bool) : Statement (.vslidedn x0 x1 x2 x3 x4 x5) := fun _ => by
  have key : ∀ w : IWord, fld w 1 6 = 3#6 → decVPerm w = some (.vslidedn (fld w 21 5) (fld w 16 5) (fld w 11 5) (fld w 8 3) (isOne (fld w 7 1)) (isOne (fld w 0 1))) := by
    intro w h1; unfold decVPerm; rw [h1]; rfl
  rw [raw_40 (by simp (disch := omega) only [encode, fld, ext_lo, ext_hi, Nat.reduceSub, ext_self]; try rfl), key _ (by simp (disch := omega) only [encode, fld, ext_lo, ext_hi, Nat.reduceSub, ext_self]; try rfl)]
  simp (disch := omega) only [encode, fld, ext_lo, ext_hi, Nat.reduceSub, ext_self, isOne_bit1, Scope.ofCode_code, Rm.ofCode_code, Option.map_some]
theorem vrgather (x0 : BitVec 5) (x1 : BitVec 5) (x2 : BitVec 5) (x3 : BitVec 3) (x4 : Bool) (x5 : Bool) : Statement (.vrgather x0 x1 x2 x3 x4 x5) := fun _ => by
  have key : ∀ w : IWord, fld w 1 6 = 4#6 → decVPerm w = some (.vrgather (fld w 21 5) (fld w 16 5) (fld w 11 5) (fld w 8 3) (isOne (fld w 7 1)) (isOne (fld w 0 1))) := by
    intro w h1; unfold decVPerm; rw [h1]; rfl
  rw [raw_40 (by simp (disch := omega) only [encode, fld, ext_lo, ext_hi, Nat.reduceSub, ext_self]; try rfl), key _ (by simp (disch := omega) only [encode, fld, ext_lo, ext_hi, Nat.reduceSub, ext_self]; try rfl)]
  simp (disch := omega) only [encode, fld, ext_lo, ext_hi, Nat.reduceSub, ext_self, isOne_bit1, Scope.ofCode_code, Rm.ofCode_code, Option.map_some]
theorem vcompress (x0 : BitVec 5) (x1 : BitVec 5) (x2 : BitVec 3) (x3 : Bool) (x4 : Bool) : Statement (.vcompress x0 x1 x2 x3 x4) := fun _ => by
  have key : ∀ w : IWord, fld w 1 6 = 5#6 → decVPerm w = some (.vcompress (fld w 21 5) (fld w 16 5) (fld w 8 3) (isOne (fld w 7 1)) (isOne (fld w 0 1))) := by
    intro w h1; unfold decVPerm; rw [h1]; rfl
  rw [raw_40 (by simp (disch := omega) only [encode, fld, ext_lo, ext_hi, Nat.reduceSub, ext_self]; try rfl), key _ (by simp (disch := omega) only [encode, fld, ext_lo, ext_hi, Nat.reduceSub, ext_self]; try rfl)]
  simp (disch := omega) only [encode, fld, ext_lo, ext_hi, Nat.reduceSub, ext_self, isOne_bit1, Scope.ofCode_code, Rm.ofCode_code, Option.map_some]
theorem vexpand (x0 : BitVec 5) (x1 : BitVec 5) (x2 : BitVec 3) (x3 : Bool) (x4 : Bool) : Statement (.vexpand x0 x1 x2 x3 x4) := fun _ => by
  have key : ∀ w : IWord, fld w 1 6 = 6#6 → decVPerm w = some (.vexpand (fld w 21 5) (fld w 16 5) (fld w 8 3) (isOne (fld w 7 1)) (isOne (fld w 0 1))) := by
    intro w h1; unfold decVPerm; rw [h1]; rfl
  rw [raw_40 (by simp (disch := omega) only [encode, fld, ext_lo, ext_hi, Nat.reduceSub, ext_self]; try rfl), key _ (by simp (disch := omega) only [encode, fld, ext_lo, ext_hi, Nat.reduceSub, ext_self]; try rfl)]
  simp (disch := omega) only [encode, fld, ext_lo, ext_hi, Nat.reduceSub, ext_self, isOne_bit1, Scope.ofCode_code, Rm.ofCode_code, Option.map_some]
theorem vpermblk (x0 : BitVec 5) (x1 : BitVec 5) (x2 : BitVec 5) (x3 : Bool) (x4 : Bool) : Statement (.vpermblk x0 x1 x2 x3 x4) := fun _ => by
  have key : ∀ w : IWord, fld w 1 6 = 7#6 → decVPerm w = some (.vpermblk (fld w 21 5) (fld w 16 5) (fld w 11 5) (isOne (fld w 7 1)) (isOne (fld w 0 1))) := by
    intro w h1; unfold decVPerm; rw [h1]; rfl
  rw [raw_40 (by simp (disch := omega) only [encode, fld, ext_lo, ext_hi, Nat.reduceSub, ext_self]; try rfl), key _ (by simp (disch := omega) only [encode, fld, ext_lo, ext_hi, Nat.reduceSub, ext_self]; try rfl)]
  simp (disch := omega) only [encode, fld, ext_lo, ext_hi, Nat.reduceSub, ext_self, isOne_bit1, Scope.ofCode_code, Rm.ofCode_code, Option.map_some]
theorem vredSum (x0 : BitVec 5) (x1 : BitVec 5) (x2 : BitVec 5) (x3 : BitVec 3) (x4 : Bool) (x5 : Bool) : Statement (.vredSum x0 x1 x2 x3 x4 x5) := fun _ => by
  have key : ∀ w : IWord, fld w 1 6 = 0#6 → decVRed w = some (.vredSum (fld w 21 5) (fld w 16 5) (fld w 11 5) (fld w 8 3) (isOne (fld w 7 1)) (isOne (fld w 0 1))) := by
    intro w h1; unfold decVRed; rw [h1]; rfl
  rw [raw_41 (by simp (disch := omega) only [encode, fld, ext_lo, ext_hi, Nat.reduceSub, ext_self]; try rfl), key _ (by simp (disch := omega) only [encode, fld, ext_lo, ext_hi, Nat.reduceSub, ext_self]; try rfl)]
  simp (disch := omega) only [encode, fld, ext_lo, ext_hi, Nat.reduceSub, ext_self, isOne_bit1, Scope.ofCode_code, Rm.ofCode_code, Option.map_some]
theorem vredOsum (x0 : BitVec 5) (x1 : BitVec 5) (x2 : BitVec 5) (x3 : BitVec 3) (x4 : Bool) (x5 : Bool) : Statement (.vredOsum x0 x1 x2 x3 x4 x5) := fun _ => by
  have key : ∀ w : IWord, fld w 1 6 = 1#6 → decVRed w = some (.vredOsum (fld w 21 5) (fld w 16 5) (fld w 11 5) (fld w 8 3) (isOne (fld w 7 1)) (isOne (fld w 0 1))) := by
    intro w h1; unfold decVRed; rw [h1]; rfl
  rw [raw_41 (by simp (disch := omega) only [encode, fld, ext_lo, ext_hi, Nat.reduceSub, ext_self]; try rfl), key _ (by simp (disch := omega) only [encode, fld, ext_lo, ext_hi, Nat.reduceSub, ext_self]; try rfl)]
  simp (disch := omega) only [encode, fld, ext_lo, ext_hi, Nat.reduceSub, ext_self, isOne_bit1, Scope.ofCode_code, Rm.ofCode_code, Option.map_some]
theorem vredMax (x0 : BitVec 5) (x1 : BitVec 5) (x2 : BitVec 5) (x3 : BitVec 3) (x4 : Bool) (x5 : Bool) : Statement (.vredMax x0 x1 x2 x3 x4 x5) := fun _ => by
  have key : ∀ w : IWord, fld w 1 6 = 2#6 → decVRed w = some (.vredMax (fld w 21 5) (fld w 16 5) (fld w 11 5) (fld w 8 3) (isOne (fld w 7 1)) (isOne (fld w 0 1))) := by
    intro w h1; unfold decVRed; rw [h1]; rfl
  rw [raw_41 (by simp (disch := omega) only [encode, fld, ext_lo, ext_hi, Nat.reduceSub, ext_self]; try rfl), key _ (by simp (disch := omega) only [encode, fld, ext_lo, ext_hi, Nat.reduceSub, ext_self]; try rfl)]
  simp (disch := omega) only [encode, fld, ext_lo, ext_hi, Nat.reduceSub, ext_self, isOne_bit1, Scope.ofCode_code, Rm.ofCode_code, Option.map_some]
theorem vredMin (x0 : BitVec 5) (x1 : BitVec 5) (x2 : BitVec 5) (x3 : BitVec 3) (x4 : Bool) (x5 : Bool) : Statement (.vredMin x0 x1 x2 x3 x4 x5) := fun _ => by
  have key : ∀ w : IWord, fld w 1 6 = 3#6 → decVRed w = some (.vredMin (fld w 21 5) (fld w 16 5) (fld w 11 5) (fld w 8 3) (isOne (fld w 7 1)) (isOne (fld w 0 1))) := by
    intro w h1; unfold decVRed; rw [h1]; rfl
  rw [raw_41 (by simp (disch := omega) only [encode, fld, ext_lo, ext_hi, Nat.reduceSub, ext_self]; try rfl), key _ (by simp (disch := omega) only [encode, fld, ext_lo, ext_hi, Nat.reduceSub, ext_self]; try rfl)]
  simp (disch := omega) only [encode, fld, ext_lo, ext_hi, Nat.reduceSub, ext_self, isOne_bit1, Scope.ofCode_code, Rm.ofCode_code, Option.map_some]
theorem vredAnd (x0 : BitVec 5) (x1 : BitVec 5) (x2 : BitVec 5) (x3 : BitVec 3) (x4 : Bool) (x5 : Bool) : Statement (.vredAnd x0 x1 x2 x3 x4 x5) := fun _ => by
  have key : ∀ w : IWord, fld w 1 6 = 4#6 → decVRed w = some (.vredAnd (fld w 21 5) (fld w 16 5) (fld w 11 5) (fld w 8 3) (isOne (fld w 7 1)) (isOne (fld w 0 1))) := by
    intro w h1; unfold decVRed; rw [h1]; rfl
  rw [raw_41 (by simp (disch := omega) only [encode, fld, ext_lo, ext_hi, Nat.reduceSub, ext_self]; try rfl), key _ (by simp (disch := omega) only [encode, fld, ext_lo, ext_hi, Nat.reduceSub, ext_self]; try rfl)]
  simp (disch := omega) only [encode, fld, ext_lo, ext_hi, Nat.reduceSub, ext_self, isOne_bit1, Scope.ofCode_code, Rm.ofCode_code, Option.map_some]
theorem vredOr (x0 : BitVec 5) (x1 : BitVec 5) (x2 : BitVec 5) (x3 : BitVec 3) (x4 : Bool) (x5 : Bool) : Statement (.vredOr x0 x1 x2 x3 x4 x5) := fun _ => by
  have key : ∀ w : IWord, fld w 1 6 = 5#6 → decVRed w = some (.vredOr (fld w 21 5) (fld w 16 5) (fld w 11 5) (fld w 8 3) (isOne (fld w 7 1)) (isOne (fld w 0 1))) := by
    intro w h1; unfold decVRed; rw [h1]; rfl
  rw [raw_41 (by simp (disch := omega) only [encode, fld, ext_lo, ext_hi, Nat.reduceSub, ext_self]; try rfl), key _ (by simp (disch := omega) only [encode, fld, ext_lo, ext_hi, Nat.reduceSub, ext_self]; try rfl)]
  simp (disch := omega) only [encode, fld, ext_lo, ext_hi, Nat.reduceSub, ext_self, isOne_bit1, Scope.ofCode_code, Rm.ofCode_code, Option.map_some]
theorem vstrip (x0 : BitVec 5) (x1 : BitVec 5) (x2 : BitVec 5) (x3 : BitVec 3) : Statement (.vstrip x0 x1 x2 x3) := fun _ => by
  have key : ∀ w : IWord, fld w 1 6 = 6#6 → decVRed w = some (.vstrip (fld w 21 5) (fld w 16 5) (fld w 11 5) (fld w 8 3)) := by
    intro w h1; unfold decVRed; rw [h1]; rfl
  rw [raw_41 (by simp (disch := omega) only [encode, fld, ext_lo, ext_hi, Nat.reduceSub, ext_self]; try rfl), key _ (by simp (disch := omega) only [encode, fld, ext_lo, ext_hi, Nat.reduceSub, ext_self]; try rfl)]
  simp (disch := omega) only [encode, fld, ext_lo, ext_hi, Nat.reduceSub, ext_self, isOne_bit1, Scope.ofCode_code, Rm.ofCode_code, Option.map_some]
theorem vcvt (x0 : BitVec 5) (x1 : BitVec 5) (x2 : BitVec 5) (x3 : BitVec 3) (x4 : Bool) (x5 : Bool) (x6 : Bool) : Statement (.vcvt x0 x1 x2 x3 x4 x5 x6) := fun _ => by
  have key : ∀ w : IWord, fld w 5 2 = 0#2 → decVCvt w = some (.vcvt (fld w 21 5) (fld w 16 5) (fld w 11 5) (fld w 8 3) (isOne (fld w 7 1)) (isOne (fld w 1 1)) (isOne (fld w 0 1))) := by
    intro w h1; unfold decVCvt; rw [h1]; rfl
  rw [raw_42 (by simp (disch := omega) only [encode, fld, ext_lo, ext_hi, Nat.reduceSub, ext_self]; try rfl), key _ (by simp (disch := omega) only [encode, fld, ext_lo, ext_hi, Nat.reduceSub, ext_self]; try rfl)]
  simp (disch := omega) only [encode, fld, ext_lo, ext_hi, Nat.reduceSub, ext_self, isOne_bit1, Scope.ofCode_code, Rm.ofCode_code, Option.map_some]
theorem vwiden (x0 : BitVec 5) (x1 : BitVec 5) (x2 : BitVec 5) (x3 : BitVec 3) (x4 : Bool) (x5 : Bool) : Statement (.vwiden x0 x1 x2 x3 x4 x5) := fun _ => by
  have key : ∀ w : IWord, fld w 5 2 = 1#2 → decVCvt w = some (.vwiden (fld w 21 5) (fld w 16 5) (fld w 11 5) (fld w 8 3) (isOne (fld w 7 1)) (isOne (fld w 0 1))) := by
    intro w h1; unfold decVCvt; rw [h1]; rfl
  rw [raw_42 (by simp (disch := omega) only [encode, fld, ext_lo, ext_hi, Nat.reduceSub, ext_self]; try rfl), key _ (by simp (disch := omega) only [encode, fld, ext_lo, ext_hi, Nat.reduceSub, ext_self]; try rfl)]
  simp (disch := omega) only [encode, fld, ext_lo, ext_hi, Nat.reduceSub, ext_self, isOne_bit1, Scope.ofCode_code, Rm.ofCode_code, Option.map_some]
theorem vnarrow (x0 : BitVec 5) (x1 : BitVec 5) (x2 : BitVec 5) (x3 : BitVec 3) (x4 : Bool) (x5 : Bool) (x6 : Bool) : Statement (.vnarrow x0 x1 x2 x3 x4 x5 x6) := fun _ => by
  have key : ∀ w : IWord, fld w 5 2 = 2#2 → decVCvt w = some (.vnarrow (fld w 21 5) (fld w 16 5) (fld w 11 5) (fld w 8 3) (isOne (fld w 7 1)) (isOne (fld w 1 1)) (isOne (fld w 0 1))) := by
    intro w h1; unfold decVCvt; rw [h1]; rfl
  rw [raw_42 (by simp (disch := omega) only [encode, fld, ext_lo, ext_hi, Nat.reduceSub, ext_self]; try rfl), key _ (by simp (disch := omega) only [encode, fld, ext_lo, ext_hi, Nat.reduceSub, ext_self]; try rfl)]
  simp (disch := omega) only [encode, fld, ext_lo, ext_hi, Nat.reduceSub, ext_self, isOne_bit1, Scope.ofCode_code, Rm.ofCode_code, Option.map_some]
theorem vld (x0 : BitVec 5) (x1 : BitVec 5) (x2 : BitVec 3) (x3 : Bool) (x4 : Bool) : Statement (.vld x0 x1 x2 x3 x4) := fun _ => by
  have key : ∀ w : IWord, fld w 1 4 = 0#4 → decVLd w = some (.vld (fld w 21 5) (fld w 16 5) (fld w 8 3) (isOne (fld w 7 1)) (isOne (fld w 0 1))) := by
    intro w h1; unfold decVLd; rw [h1]; rfl
  rw [raw_43 (by simp (disch := omega) only [encode, fld, ext_lo, ext_hi, Nat.reduceSub, ext_self]; try rfl), key _ (by simp (disch := omega) only [encode, fld, ext_lo, ext_hi, Nat.reduceSub, ext_self]; try rfl)]
  simp (disch := omega) only [encode, fld, ext_lo, ext_hi, Nat.reduceSub, ext_self, isOne_bit1, Scope.ofCode_code, Rm.ofCode_code, Option.map_some]
theorem vlds (x0 : BitVec 5) (x1 : BitVec 5) (x2 : BitVec 5) (x3 : BitVec 3) (x4 : Bool) (x5 : Bool) : Statement (.vlds x0 x1 x2 x3 x4 x5) := fun _ => by
  have key : ∀ w : IWord, fld w 1 4 = 1#4 → decVLd w = some (.vlds (fld w 21 5) (fld w 16 5) (fld w 11 5) (fld w 8 3) (isOne (fld w 7 1)) (isOne (fld w 0 1))) := by
    intro w h1; unfold decVLd; rw [h1]; rfl
  rw [raw_43 (by simp (disch := omega) only [encode, fld, ext_lo, ext_hi, Nat.reduceSub, ext_self]; try rfl), key _ (by simp (disch := omega) only [encode, fld, ext_lo, ext_hi, Nat.reduceSub, ext_self]; try rfl)]
  simp (disch := omega) only [encode, fld, ext_lo, ext_hi, Nat.reduceSub, ext_self, isOne_bit1, Scope.ofCode_code, Rm.ofCode_code, Option.map_some]
theorem vldz (x0 : BitVec 5) (x1 : BitVec 5) (x2 : BitVec 5) (x3 : BitVec 2) (x4 : Bool) : Statement (.vldz x0 x1 x2 x3 x4) := fun _ => by
  have key : ∀ w : IWord, fld w 1 4 = 2#4 → decVLd w = some (.vldz (fld w 21 5) (fld w 16 5) (fld w 11 5) (fld w 8 2) (isOne (fld w 0 1))) := by
    intro w h1; unfold decVLd; rw [h1]; rfl
  rw [raw_43 (by simp (disch := omega) only [encode, fld, ext_lo, ext_hi, Nat.reduceSub, ext_self]; try rfl), key _ (by simp (disch := omega) only [encode, fld, ext_lo, ext_hi, Nat.reduceSub, ext_self]; try rfl)]
  simp (disch := omega) only [encode, fld, ext_lo, ext_hi, Nat.reduceSub, ext_self, isOne_bit1, Scope.ofCode_code, Rm.ofCode_code, Option.map_some]
theorem vldb (x0 : BitVec 5) (x1 : BitVec 5) (x2 : BitVec 5) (x3 : Bool) (x4 : Bool) : Statement (.vldb x0 x1 x2 x3 x4) := fun _ => by
  have key : ∀ w : IWord, fld w 1 4 = 3#4 → decVLd w = some (.vldb (fld w 21 5) (fld w 16 5) (fld w 11 5) (isOne (fld w 7 1)) (isOne (fld w 0 1))) := by
    intro w h1; unfold decVLd; rw [h1]; rfl
  rw [raw_43 (by simp (disch := omega) only [encode, fld, ext_lo, ext_hi, Nat.reduceSub, ext_self]; try rfl), key _ (by simp (disch := omega) only [encode, fld, ext_lo, ext_hi, Nat.reduceSub, ext_self]; try rfl)]
  simp (disch := omega) only [encode, fld, ext_lo, ext_hi, Nat.reduceSub, ext_self, isOne_bit1, Scope.ofCode_code, Rm.ofCode_code, Option.map_some]
theorem vst (x0 : BitVec 5) (x1 : BitVec 5) (x2 : BitVec 3) (x3 : Bool) (x4 : Bool) : Statement (.vst x0 x1 x2 x3 x4) := fun _ => by
  have key : ∀ w : IWord, fld w 1 4 = 0#4 → decVSt w = some (.vst (fld w 21 5) (fld w 16 5) (fld w 8 3) (isOne (fld w 7 1)) (isOne (fld w 0 1))) := by
    intro w h1; unfold decVSt; rw [h1]; rfl
  rw [raw_44 (by simp (disch := omega) only [encode, fld, ext_lo, ext_hi, Nat.reduceSub, ext_self]; try rfl), key _ (by simp (disch := omega) only [encode, fld, ext_lo, ext_hi, Nat.reduceSub, ext_self]; try rfl)]
  simp (disch := omega) only [encode, fld, ext_lo, ext_hi, Nat.reduceSub, ext_self, isOne_bit1, Scope.ofCode_code, Rm.ofCode_code, Option.map_some]
theorem vsts (x0 : BitVec 5) (x1 : BitVec 5) (x2 : BitVec 5) (x3 : BitVec 3) (x4 : Bool) (x5 : Bool) : Statement (.vsts x0 x1 x2 x3 x4 x5) := fun _ => by
  have key : ∀ w : IWord, fld w 1 4 = 1#4 → decVSt w = some (.vsts (fld w 21 5) (fld w 16 5) (fld w 11 5) (fld w 8 3) (isOne (fld w 7 1)) (isOne (fld w 0 1))) := by
    intro w h1; unfold decVSt; rw [h1]; rfl
  rw [raw_44 (by simp (disch := omega) only [encode, fld, ext_lo, ext_hi, Nat.reduceSub, ext_self]; try rfl), key _ (by simp (disch := omega) only [encode, fld, ext_lo, ext_hi, Nat.reduceSub, ext_self]; try rfl)]
  simp (disch := omega) only [encode, fld, ext_lo, ext_hi, Nat.reduceSub, ext_self, isOne_bit1, Scope.ofCode_code, Rm.ofCode_code, Option.map_some]
theorem vstb (x0 : BitVec 5) (x1 : BitVec 5) (x2 : BitVec 5) (x3 : Bool) (x4 : Bool) : Statement (.vstb x0 x1 x2 x3 x4) := fun _ => by
  have key : ∀ w : IWord, fld w 1 4 = 3#4 → decVSt w = some (.vstb (fld w 21 5) (fld w 16 5) (fld w 11 5) (isOne (fld w 7 1)) (isOne (fld w 0 1))) := by
    intro w h1; unfold decVSt; rw [h1]; rfl
  rw [raw_44 (by simp (disch := omega) only [encode, fld, ext_lo, ext_hi, Nat.reduceSub, ext_self]; try rfl), key _ (by simp (disch := omega) only [encode, fld, ext_lo, ext_hi, Nat.reduceSub, ext_self]; try rfl)]
  simp (disch := omega) only [encode, fld, ext_lo, ext_hi, Nat.reduceSub, ext_self, isOne_bit1, Scope.ofCode_code, Rm.ofCode_code, Option.map_some]
theorem vldx (x0 : BitVec 5) (x1 : BitVec 5) (x2 : BitVec 5) (x3 : BitVec 3) (x4 : Bool) (x5 : BitVec 2) (x6 : Bool) : Statement (.vldx x0 x1 x2 x3 x4 x5 x6) := fun _ => by
  have key : ∀ w : IWord, fld w 1 4 = 0#4 → decVGs w = some (.vldx (fld w 21 5) (fld w 16 5) (fld w 11 5) (fld w 8 3) (isOne (fld w 7 1)) (fld w 5 2) (isOne (fld w 0 1))) := by
    intro w h1; unfold decVGs; rw [h1]; rfl
  rw [raw_45 (by simp (disch := omega) only [encode, fld, ext_lo, ext_hi, Nat.reduceSub, ext_self]; try rfl), key _ (by simp (disch := omega) only [encode, fld, ext_lo, ext_hi, Nat.reduceSub, ext_self]; try rfl)]
  simp (disch := omega) only [encode, fld, ext_lo, ext_hi, Nat.reduceSub, ext_self, isOne_bit1, Scope.ofCode_code, Rm.ofCode_code, Option.map_some]
theorem vldc (x0 : BitVec 5) (x1 : BitVec 5) (x2 : BitVec 5) (x3 : BitVec 3) (x4 : Bool) (x5 : BitVec 2) (x6 : Bool) : Statement (.vldc x0 x1 x2 x3 x4 x5 x6) := fun _ => by
  have key : ∀ w : IWord, fld w 1 4 = 1#4 → decVGs w = some (.vldc (fld w 21 5) (fld w 16 5) (fld w 11 5) (fld w 8 3) (isOne (fld w 7 1)) (fld w 5 2) (isOne (fld w 0 1))) := by
    intro w h1; unfold decVGs; rw [h1]; rfl
  rw [raw_45 (by simp (disch := omega) only [encode, fld, ext_lo, ext_hi, Nat.reduceSub, ext_self]; try rfl), key _ (by simp (disch := omega) only [encode, fld, ext_lo, ext_hi, Nat.reduceSub, ext_self]; try rfl)]
  simp (disch := omega) only [encode, fld, ext_lo, ext_hi, Nat.reduceSub, ext_self, isOne_bit1, Scope.ofCode_code, Rm.ofCode_code, Option.map_some]
theorem vstxO (x0 : BitVec 5) (x1 : BitVec 5) (x2 : BitVec 5) (x3 : BitVec 3) (x4 : Bool) (x5 : BitVec 2) (x6 : Bool) : Statement (.vstxO x0 x1 x2 x3 x4 x5 x6) := fun _ => by
  have key : ∀ w : IWord, fld w 1 4 = 2#4 → decVGs w = some (.vstxO (fld w 21 5) (fld w 16 5) (fld w 11 5) (fld w 8 3) (isOne (fld w 7 1)) (fld w 5 2) (isOne (fld w 0 1))) := by
    intro w h1; unfold decVGs; rw [h1]; rfl
  rw [raw_45 (by simp (disch := omega) only [encode, fld, ext_lo, ext_hi, Nat.reduceSub, ext_self]; try rfl), key _ (by simp (disch := omega) only [encode, fld, ext_lo, ext_hi, Nat.reduceSub, ext_self]; try rfl)]
  simp (disch := omega) only [encode, fld, ext_lo, ext_hi, Nat.reduceSub, ext_self, isOne_bit1, Scope.ofCode_code, Rm.ofCode_code, Option.map_some]
theorem vstxU (x0 : BitVec 5) (x1 : BitVec 5) (x2 : BitVec 5) (x3 : BitVec 3) (x4 : Bool) (x5 : BitVec 2) (x6 : Bool) : Statement (.vstxU x0 x1 x2 x3 x4 x5 x6) := fun _ => by
  have key : ∀ w : IWord, fld w 1 4 = 3#4 → decVGs w = some (.vstxU (fld w 21 5) (fld w 16 5) (fld w 11 5) (fld w 8 3) (isOne (fld w 7 1)) (fld w 5 2) (isOne (fld w 0 1))) := by
    intro w h1; unfold decVGs; rw [h1]; rfl
  rw [raw_45 (by simp (disch := omega) only [encode, fld, ext_lo, ext_hi, Nat.reduceSub, ext_self]; try rfl), key _ (by simp (disch := omega) only [encode, fld, ext_lo, ext_hi, Nat.reduceSub, ext_self]; try rfl)]
  simp (disch := omega) only [encode, fld, ext_lo, ext_hi, Nat.reduceSub, ext_self, isOne_bit1, Scope.ofCode_code, Rm.ofCode_code, Option.map_some]
theorem vstc (x0 : BitVec 5) (x1 : BitVec 5) (x2 : BitVec 5) (x3 : BitVec 3) (x4 : Bool) (x5 : BitVec 2) (x6 : Bool) : Statement (.vstc x0 x1 x2 x3 x4 x5 x6) := fun _ => by
  have key : ∀ w : IWord, fld w 1 4 = 4#4 → decVGs w = some (.vstc (fld w 21 5) (fld w 16 5) (fld w 11 5) (fld w 8 3) (isOne (fld w 7 1)) (fld w 5 2) (isOne (fld w 0 1))) := by
    intro w h1; unfold decVGs; rw [h1]; rfl
  rw [raw_45 (by simp (disch := omega) only [encode, fld, ext_lo, ext_hi, Nat.reduceSub, ext_self]; try rfl), key _ (by simp (disch := omega) only [encode, fld, ext_lo, ext_hi, Nat.reduceSub, ext_self]; try rfl)]
  simp (disch := omega) only [encode, fld, ext_lo, ext_hi, Nat.reduceSub, ext_self, isOne_bit1, Scope.ofCode_code, Rm.ofCode_code, Option.map_some]
theorem vgll (x0 : BitVec 5) (x1 : BitVec 5) (x2 : BitVec 5) (x3 : BitVec 3) (x4 : Bool) : Statement (.vgll x0 x1 x2 x3 x4) := fun _ => by
  have key : ∀ w : IWord, fld w 1 4 = 0#4 → decVSync w = some (.vgll (fld w 21 5) (fld w 16 5) (fld w 11 5) (fld w 8 3) (isOne (fld w 7 1))) := by
    intro w h1; unfold decVSync; rw [h1]; rfl
  rw [raw_46 (by simp (disch := omega) only [encode, fld, ext_lo, ext_hi, Nat.reduceSub, ext_self]; try rfl), key _ (by simp (disch := omega) only [encode, fld, ext_lo, ext_hi, Nat.reduceSub, ext_self]; try rfl)]
  simp (disch := omega) only [encode, fld, ext_lo, ext_hi, Nat.reduceSub, ext_self, isOne_bit1, Scope.ofCode_code, Rm.ofCode_code, Option.map_some]
theorem vscc (x0 : BitVec 5) (x1 : BitVec 5) (x2 : BitVec 5) (x3 : BitVec 3) (x4 : Bool) : Statement (.vscc x0 x1 x2 x3 x4) := fun _ => by
  have key : ∀ w : IWord, fld w 1 4 = 1#4 → decVSync w = some (.vscc (fld w 21 5) (fld w 16 5) (fld w 11 5) (fld w 8 3) (isOne (fld w 7 1))) := by
    intro w h1; unfold decVSync; rw [h1]; rfl
  rw [raw_46 (by simp (disch := omega) only [encode, fld, ext_lo, ext_hi, Nat.reduceSub, ext_self]; try rfl), key _ (by simp (disch := omega) only [encode, fld, ext_lo, ext_hi, Nat.reduceSub, ext_self]; try rfl)]
  simp (disch := omega) only [encode, fld, ext_lo, ext_hi, Nat.reduceSub, ext_self, isOne_bit1, Scope.ofCode_code, Rm.ofCode_code, Option.map_some]
theorem vlock (x0 : BitVec 5) (x1 : BitVec 5) (x2 : BitVec 5) (x3 : BitVec 3) : Statement (.vlock x0 x1 x2 x3) := fun _ => by
  have key : ∀ w : IWord, fld w 1 4 = 2#4 → decVSync w = some (.vlock (fld w 21 5) (fld w 16 5) (fld w 11 5) (fld w 8 3)) := by
    intro w h1; unfold decVSync; rw [h1]; rfl
  rw [raw_46 (by simp (disch := omega) only [encode, fld, ext_lo, ext_hi, Nat.reduceSub, ext_self]; try rfl), key _ (by simp (disch := omega) only [encode, fld, ext_lo, ext_hi, Nat.reduceSub, ext_self]; try rfl)]
  simp (disch := omega) only [encode, fld, ext_lo, ext_hi, Nat.reduceSub, ext_self, isOne_bit1, Scope.ofCode_code, Rm.ofCode_code, Option.map_some]
theorem vunlock (x0 : BitVec 5) (x1 : BitVec 5) (x2 : BitVec 3) : Statement (.vunlock x0 x1 x2) := fun _ => by
  have key : ∀ w : IWord, fld w 1 4 = 3#4 → decVSync w = some (.vunlock (fld w 16 5) (fld w 11 5) (fld w 8 3)) := by
    intro w h1; unfold decVSync; rw [h1]; rfl
  rw [raw_46 (by simp (disch := omega) only [encode, fld, ext_lo, ext_hi, Nat.reduceSub, ext_self]; try rfl), key _ (by simp (disch := omega) only [encode, fld, ext_lo, ext_hi, Nat.reduceSub, ext_self]; try rfl)]
  simp (disch := omega) only [encode, fld, ext_lo, ext_hi, Nat.reduceSub, ext_self, isOne_bit1, Scope.ofCode_code, Rm.ofCode_code, Option.map_some]
theorem winDecl (x0 : BitVec 5) (x1 : BitVec 5) : Statement (.winDecl x0 x1) := fun _ => by
  have key : ∀ w : IWord, fld w 1 4 = 4#4 → decVSync w = some (.winDecl (fld w 16 5) (fld w 11 5)) := by
    intro w h1; unfold decVSync; rw [h1]; rfl
  rw [raw_46 (by simp (disch := omega) only [encode, fld, ext_lo, ext_hi, Nat.reduceSub, ext_self]; try rfl), key _ (by simp (disch := omega) only [encode, fld, ext_lo, ext_hi, Nat.reduceSub, ext_self]; try rfl)]
  simp (disch := omega) only [encode, fld, ext_lo, ext_hi, Nat.reduceSub, ext_self, isOne_bit1, Scope.ofCode_code, Rm.ofCode_code, Option.map_some]
theorem vscaddWin (x0 : BitVec 5) (x1 : BitVec 5) (x2 : BitVec 3) : Statement (.vscaddWin x0 x1 x2) := fun _ => by
  have key : ∀ w : IWord, fld w 1 4 = 5#4 → decVSync w = some (.vscaddWin (fld w 21 5) (fld w 11 5) (fld w 8 3)) := by
    intro w h1; unfold decVSync; rw [h1]; rfl
  rw [raw_46 (by simp (disch := omega) only [encode, fld, ext_lo, ext_hi, Nat.reduceSub, ext_self]; try rfl), key _ (by simp (disch := omega) only [encode, fld, ext_lo, ext_hi, Nat.reduceSub, ext_self]; try rfl)]
  simp (disch := omega) only [encode, fld, ext_lo, ext_hi, Nat.reduceSub, ext_self, isOne_bit1, Scope.ofCode_code, Rm.ofCode_code, Option.map_some]
theorem winMerge (x0 : Scope) : Statement (.winMerge x0) := fun _ => by
  have key : ∀ w : IWord, fld w 1 4 = 6#4 → decVSync w = (Scope.ofCode (fld w 8 3)).map fun c => .winMerge c := by
    intro w h1; unfold decVSync; rw [h1]; rfl
  rw [raw_46 (by simp (disch := omega) only [encode, fld, ext_lo, ext_hi, Nat.reduceSub, ext_self]; try rfl), key _ (by simp (disch := omega) only [encode, fld, ext_lo, ext_hi, Nat.reduceSub, ext_self]; try rfl)]
  simp (disch := omega) only [encode, fld, ext_lo, ext_hi, Nat.reduceSub, ext_self, isOne_bit1, Scope.ofCode_code, Rm.ofCode_code, Option.map_some]
theorem vscadd (x0 : BitVec 5) (x1 : BitVec 5) (x2 : BitVec 5) (x3 : BitVec 3) (x4 : Bool) (x5 : BitVec 2) : Statement (.vscadd x0 x1 x2 x3 x4 x5) := fun _ => by
  have key : ∀ w : IWord, fld w 1 4 = 7#4 → decVSync w = some (.vscadd (fld w 21 5) (fld w 16 5) (fld w 11 5) (fld w 8 3) (isOne (fld w 7 1)) (fld w 5 2)) := by
    intro w h1; unfold decVSync; rw [h1]; rfl
  rw [raw_46 (by simp (disch := omega) only [encode, fld, ext_lo, ext_hi, Nat.reduceSub, ext_self]; try rfl), key _ (by simp (disch := omega) only [encode, fld, ext_lo, ext_hi, Nat.reduceSub, ext_self]; try rfl)]
  simp (disch := omega) only [encode, fld, ext_lo, ext_hi, Nat.reduceSub, ext_self, isOne_bit1, Scope.ofCode_code, Rm.ofCode_code, Option.map_some]
theorem crDecl (x0 : BitVec 2) (x1 : BitVec 3) (x2 : BitVec 5) (x3 : BitVec 5) : Statement (.crDecl x0 x1 x2 x3) := fun _ => by
  have key : ∀ w : IWord, fld w 1 4 = 8#4 → decVSync w = some (.crDecl (fld w 24 2) (fld w 21 3) (fld w 16 5) (fld w 11 5)) := by
    intro w h1; unfold decVSync; rw [h1]; rfl
  rw [raw_46 (by simp (disch := omega) only [encode, fld, ext_lo, ext_hi, Nat.reduceSub, ext_self]; try rfl), key _ (by simp (disch := omega) only [encode, fld, ext_lo, ext_hi, Nat.reduceSub, ext_self]; try rfl)]
  simp (disch := omega) only [encode, fld, ext_lo, ext_hi, Nat.reduceSub, ext_self, isOne_bit1, Scope.ofCode_code, Rm.ofCode_code, Option.map_some]
theorem crDrop (x0 : BitVec 3) : Statement (.crDrop x0) := fun _ => by
  have key : ∀ w : IWord, fld w 1 4 = 9#4 → decVSync w = some (.crDrop (fld w 21 3)) := by
    intro w h1; unfold decVSync; rw [h1]; rfl
  rw [raw_46 (by simp (disch := omega) only [encode, fld, ext_lo, ext_hi, Nat.reduceSub, ext_self]; try rfl), key _ (by simp (disch := omega) only [encode, fld, ext_lo, ext_hi, Nat.reduceSub, ext_self]; try rfl)]
  simp (disch := omega) only [encode, fld, ext_lo, ext_hi, Nat.reduceSub, ext_self, isOne_bit1, Scope.ofCode_code, Rm.ofCode_code, Option.map_some]
theorem vmv (x0 : BitVec 5) (x1 : BitVec 5) (x2 : BitVec 3) (x3 : Bool) : Statement (.vmv x0 x1 x2 x3) := fun _ => by
  have key : ∀ w : IWord, fld w 1 6 = 0#6 → decVMov w = some (.vmv (fld w 21 5) (fld w 16 5) (fld w 8 3) (isOne (fld w 0 1))) := by
    intro w h1; unfold decVMov; rw [h1]; rfl
  rw [raw_47 (by simp (disch := omega) only [encode, fld, ext_lo, ext_hi, Nat.reduceSub, ext_self]; try rfl), key _ (by simp (disch := omega) only [encode, fld, ext_lo, ext_hi, Nat.reduceSub, ext_self]; try rfl)]
  simp (disch := omega) only [encode, fld, ext_lo, ext_hi, Nat.reduceSub, ext_self, isOne_bit1, Scope.ofCode_code, Rm.ofCode_code, Option.map_some]
theorem vmvS (x0 : BitVec 5) (x1 : BitVec 5) (x2 : Bool) : Statement (.vmvS x0 x1 x2) := fun _ => by
  have key : ∀ w : IWord, fld w 1 6 = 1#6 → decVMov w = some (.vmvS (fld w 21 5) (fld w 11 5) (isOne (fld w 0 1))) := by
    intro w h1; unfold decVMov; rw [h1]; rfl
  rw [raw_47 (by simp (disch := omega) only [encode, fld, ext_lo, ext_hi, Nat.reduceSub, ext_self]; try rfl), key _ (by simp (disch := omega) only [encode, fld, ext_lo, ext_hi, Nat.reduceSub, ext_self]; try rfl)]
  simp (disch := omega) only [encode, fld, ext_lo, ext_hi, Nat.reduceSub, ext_self, isOne_bit1, Scope.ofCode_code, Rm.ofCode_code, Option.map_some]
theorem vext (x0 : BitVec 5) (x1 : BitVec 5) (x2 : BitVec 5) (x3 : Bool) : Statement (.vext x0 x1 x2 x3) := fun _ => by
  have key : ∀ w : IWord, fld w 1 6 = 2#6 → decVMov w = some (.vext (fld w 21 5) (fld w 16 5) (fld w 11 5) (isOne (fld w 0 1))) := by
    intro w h1; unfold decVMov; rw [h1]; rfl
  rw [raw_47 (by simp (disch := omega) only [encode, fld, ext_lo, ext_hi, Nat.reduceSub, ext_self]; try rfl), key _ (by simp (disch := omega) only [encode, fld, ext_lo, ext_hi, Nat.reduceSub, ext_self]; try rfl)]
  simp (disch := omega) only [encode, fld, ext_lo, ext_hi, Nat.reduceSub, ext_self, isOne_bit1, Scope.ofCode_code, Rm.ofCode_code, Option.map_some]
theorem qput (x0 : BitVec 5) (x1 : BitVec 5) : Statement (.qput x0 x1) := fun _ => by
  have key : ∀ w : IWord, fld w 1 6 = 3#6 → decVMov w = some (.qput (fld w 21 5) (fld w 16 5)) := by
    intro w h1; unfold decVMov; rw [h1]; rfl
  rw [raw_47 (by simp (disch := omega) only [encode, fld, ext_lo, ext_hi, Nat.reduceSub, ext_self]; try rfl), key _ (by simp (disch := omega) only [encode, fld, ext_lo, ext_hi, Nat.reduceSub, ext_self]; try rfl)]
  simp (disch := omega) only [encode, fld, ext_lo, ext_hi, Nat.reduceSub, ext_self, isOne_bit1, Scope.ofCode_code, Rm.ofCode_code, Option.map_some]
theorem qget (x0 : BitVec 5) (x1 : BitVec 5) : Statement (.qget x0 x1) := fun _ => by
  have key : ∀ w : IWord, fld w 1 6 = 4#6 → decVMov w = some (.qget (fld w 21 5) (fld w 16 5)) := by
    intro w h1; unfold decVMov; rw [h1]; rfl
  rw [raw_47 (by simp (disch := omega) only [encode, fld, ext_lo, ext_hi, Nat.reduceSub, ext_self]; try rfl), key _ (by simp (disch := omega) only [encode, fld, ext_lo, ext_hi, Nat.reduceSub, ext_self]; try rfl)]
  simp (disch := omega) only [encode, fld, ext_lo, ext_hi, Nat.reduceSub, ext_self, isOne_bit1, Scope.ofCode_code, Rm.ofCode_code, Option.map_some]
theorem mattach (x0 : BitVec 5) : Statement (.mattach x0) := fun _ => by
  have key : ∀ w : IWord, fld w 8 4 = 0#4 → decMat w = some (.mattach (fld w 3 5)) := by
    intro w h1; unfold decMat; rw [h1]; rfl
  rw [raw_48 (by simp (disch := omega) only [encode, fld, ext_lo, ext_hi, Nat.reduceSub, ext_self]; try rfl), key _ (by simp (disch := omega) only [encode, fld, ext_lo, ext_hi, Nat.reduceSub, ext_self]; try rfl)]
  simp (disch := omega) only [encode, fld, ext_lo, ext_hi, Nat.reduceSub, ext_self, isOne_bit1, Scope.ofCode_code, Rm.ofCode_code, Option.map_some]
theorem mdetach : Statement (.mdetach) := fun _ => by
  have key : ∀ w : IWord, fld w 8 4 = 1#4 → decMat w = some .mdetach := by
    intro w h1; unfold decMat; rw [h1]; rfl
  rw [raw_48 (by simp (disch := omega) only [encode, fld, ext_lo, ext_hi, Nat.reduceSub, ext_self]; try rfl), key _ (by simp (disch := omega) only [encode, fld, ext_lo, ext_hi, Nat.reduceSub, ext_self]; try rfl)]
theorem oClaim (x0 : BitVec 6) (x1 : BitVec 6) : Statement (.oClaim x0 x1) := fun _ => by
  have key : ∀ w : IWord, fld w 8 4 = 2#4 → decMat w = some (.oClaim (fld w 18 6) (fld w 12 6)) := by
    intro w h1; unfold decMat; rw [h1]; rfl
  rw [raw_48 (by simp (disch := omega) only [encode, fld, ext_lo, ext_hi, Nat.reduceSub, ext_self]; try rfl), key _ (by simp (disch := omega) only [encode, fld, ext_lo, ext_hi, Nat.reduceSub, ext_self]; try rfl)]
  simp (disch := omega) only [encode, fld, ext_lo, ext_hi, Nat.reduceSub, ext_self, isOne_bit1, Scope.ofCode_code, Rm.ofCode_code, Option.map_some]
theorem oRelease (x0 : BitVec 6) (x1 : BitVec 6) : Statement (.oRelease x0 x1) := fun _ => by
  have key : ∀ w : IWord, fld w 8 4 = 3#4 → decMat w = some (.oRelease (fld w 18 6) (fld w 12 6)) := by
    intro w h1; unfold decMat; rw [h1]; rfl
  rw [raw_48 (by simp (disch := omega) only [encode, fld, ext_lo, ext_hi, Nat.reduceSub, ext_self]; try rfl), key _ (by simp (disch := omega) only [encode, fld, ext_lo, ext_hi, Nat.reduceSub, ext_self]; try rfl)]
  simp (disch := omega) only [encode, fld, ext_lo, ext_hi, Nat.reduceSub, ext_self, isOne_bit1, Scope.ofCode_code, Rm.ofCode_code, Option.map_some]
theorem mzero (x0 : BitVec 2) : Statement (.mzero x0) := fun _ => by
  have key : ∀ w : IWord, fld w 8 4 = 4#4 → decMat w = some (.mzero (fld w 24 2)) := by
    intro w h1; unfold decMat; rw [h1]; rfl
  rw [raw_48 (by simp (disch := omega) only [encode, fld, ext_lo, ext_hi, Nat.reduceSub, ext_self]; try rfl), key _ (by simp (disch := omega) only [encode, fld, ext_lo, ext_hi, Nat.reduceSub, ext_self]; try rfl)]
  simp (disch := omega) only [encode, fld, ext_lo, ext_hi, Nat.reduceSub, ext_self, isOne_bit1, Scope.ofCode_code, Rm.ofCode_code, Option.map_some]
theorem mfmt (x0 : BitVec 2) (x1 : BitVec 5) (x2 : BitVec 5) (x3 : BitVec 3) (x4 : BitVec 3) : Statement (.mfmt x0 x1 x2 x3 x4) := fun _ => by
  have key : ∀ w : IWord, fld w 8 4 = 5#4 → decMat w = some (.mfmt (fld w 24 2) (fld w 18 5) (fld w 12 5) (fld w 4 3) (fld w 1 3)) := by
    intro w h1; unfold decMat; rw [h1]; rfl
  rw [raw_48 (by simp (disch := omega) only [encode, fld, ext_lo, ext_hi, Nat.reduceSub, ext_self]; try rfl), key _ (by simp (disch := omega) only [encode, fld, ext_lo, ext_hi, Nat.reduceSub, ext_self]; try rfl)]
  simp (disch := omega) only [encode, fld, ext_lo, ext_hi, Nat.reduceSub, ext_self, isOne_bit1, Scope.ofCode_code, Rm.ofCode_code, Option.map_some]
theorem mskip (x0 : BitVec 2) (x1 : BitVec 5) : Statement (.mskip x0 x1) := fun _ => by
  have key : ∀ w : IWord, fld w 8 4 = 6#4 → decMat w = some (.mskip (fld w 24 2) (fld w 3 5)) := by
    intro w h1; unfold decMat; rw [h1]; rfl
  rw [raw_48 (by simp (disch := omega) only [encode, fld, ext_lo, ext_hi, Nat.reduceSub, ext_self]; try rfl), key _ (by simp (disch := omega) only [encode, fld, ext_lo, ext_hi, Nat.reduceSub, ext_self]; try rfl)]
  simp (disch := omega) only [encode, fld, ext_lo, ext_hi, Nat.reduceSub, ext_self, isOne_bit1, Scope.ofCode_code, Rm.ofCode_code, Option.map_some]
theorem mop (x0 : BitVec 2) (x1 : BitVec 6) (x2 : BitVec 6) (x3 : Bool) (x4 : Bool) (x5 : Bool) : Statement (.mop x0 x1 x2 x3 x4 x5) := fun _ => by
  rw [raw_49 (by simp (disch := omega) only [encode, fld, ext_lo, ext_hi, Nat.reduceSub, ext_self]; try rfl)]
  simp (disch := omega) only [encode, fld, ext_lo, ext_hi, Nat.reduceSub, ext_self, isOne_bit1, Scope.ofCode_code, Rm.ofCode_code, Option.map_some]
theorem msliceRd (x0 : BitVec 2) (x1 : BitVec 5) (x2 : BitVec 5) (x3 : Bool) : Statement (.msliceRd x0 x1 x2 x3) := fun _ => by
  have key : ∀ w : IWord, fld w 10 2 = 0#2 → decMSlice w = some (.msliceRd (fld w 24 2) (fld w 18 5) (fld w 5 5) (isOne (fld w 0 1))) := by
    intro w h1; unfold decMSlice; rw [h1]; rfl
  rw [raw_50 (by simp (disch := omega) only [encode, fld, ext_lo, ext_hi, Nat.reduceSub, ext_self]; try rfl), key _ (by simp (disch := omega) only [encode, fld, ext_lo, ext_hi, Nat.reduceSub, ext_self]; try rfl)]
  simp (disch := omega) only [encode, fld, ext_lo, ext_hi, Nat.reduceSub, ext_self, isOne_bit1, Scope.ofCode_code, Rm.ofCode_code, Option.map_some]
theorem msliceWr (x0 : BitVec 2) (x1 : BitVec 5) (x2 : BitVec 5) (x3 : Bool) : Statement (.msliceWr x0 x1 x2 x3) := fun _ => by
  have key : ∀ w : IWord, fld w 10 2 = 1#2 → decMSlice w = some (.msliceWr (fld w 24 2) (fld w 18 5) (fld w 5 5) (isOne (fld w 0 1))) := by
    intro w h1; unfold decMSlice; rw [h1]; rfl
  rw [raw_50 (by simp (disch := omega) only [encode, fld, ext_lo, ext_hi, Nat.reduceSub, ext_self]; try rfl), key _ (by simp (disch := omega) only [encode, fld, ext_lo, ext_hi, Nat.reduceSub, ext_self]; try rfl)]
  simp (disch := omega) only [encode, fld, ext_lo, ext_hi, Nat.reduceSub, ext_self, isOne_bit1, Scope.ofCode_code, Rm.ofCode_code, Option.map_some]
theorem msliceRdExp (x0 : BitVec 2) (x1 : BitVec 5) (x2 : BitVec 5) (x3 : Bool) : Statement (.msliceRdExp x0 x1 x2 x3) := fun _ => by
  have key : ∀ w : IWord, fld w 10 2 = 2#2 → decMSlice w = some (.msliceRdExp (fld w 24 2) (fld w 18 5) (fld w 5 5) (isOne (fld w 0 1))) := by
    intro w h1; unfold decMSlice; rw [h1]; rfl
  rw [raw_50 (by simp (disch := omega) only [encode, fld, ext_lo, ext_hi, Nat.reduceSub, ext_self]; try rfl), key _ (by simp (disch := omega) only [encode, fld, ext_lo, ext_hi, Nat.reduceSub, ext_self]; try rfl)]
  simp (disch := omega) only [encode, fld, ext_lo, ext_hi, Nat.reduceSub, ext_self, isOne_bit1, Scope.ofCode_code, Rm.ofCode_code, Option.map_some]
theorem mld (x0 : BitVec 6) (x1 : BitVec 5) (x2 : BitVec 5) : Statement (.mld x0 x1 x2) := fun _ => by
  have key : ∀ w : IWord, fld w 10 2 = 0#2 → fld w 1 1 = 0#1 → decMLoad w = some (.mld (fld w 18 6) (fld w 12 5) (fld w 5 5)) := by
    intro w h1 h2; unfold decMLoad; simp only [h1, h2]; rfl
  rw [raw_51 (by simp (disch := omega) only [encode, fld, ext_lo, ext_hi, Nat.reduceSub, ext_self]; try rfl), key _ (by simp (disch := omega) only [encode, fld, ext_lo, ext_hi, Nat.reduceSub, ext_self]; try rfl) (by simp (disch := omega) only [encode, fld, ext_lo, ext_hi, Nat.reduceSub, ext_self]; try rfl)]
  simp (disch := omega) only [encode, fld, ext_lo, ext_hi, Nat.reduceSub, ext_self, isOne_bit1, Scope.ofCode_code, Rm.ofCode_code, Option.map_some]
theorem mldP (x0 : BitVec 6) (x1 : BitVec 5) (x2 : BitVec 5) : Statement (.mldP x0 x1 x2) := fun _ => by
  have key : ∀ w : IWord, fld w 10 2 = 0#2 → fld w 1 1 = 1#1 → decMLoad w = some (.mldP (fld w 18 6) (fld w 12 5) (fld w 5 5)) := by
    intro w h1 h2; unfold decMLoad; simp only [h1, h2]; rfl
  rw [raw_51 (by simp (disch := omega) only [encode, fld, ext_lo, ext_hi, Nat.reduceSub, ext_self]; try rfl), key _ (by simp (disch := omega) only [encode, fld, ext_lo, ext_hi, Nat.reduceSub, ext_self]; try rfl) (by simp (disch := omega) only [encode, fld, ext_lo, ext_hi, Nat.reduceSub, ext_self]; try rfl)]
  simp (disch := omega) only [encode, fld, ext_lo, ext_hi, Nat.reduceSub, ext_self, isOne_bit1, Scope.ofCode_code, Rm.ofCode_code, Option.map_some]
theorem mst (x0 : BitVec 2) (x1 : BitVec 5) (x2 : BitVec 5) : Statement (.mst x0 x1 x2) := fun _ => by
  have key : ∀ w : IWord, fld w 10 2 = 1#2 → decMLoad w = some (.mst (fld w 24 2) (fld w 12 5) (fld w 5 5)) := by
    intro w h1; unfold decMLoad; rw [h1]; rfl
  rw [raw_51 (by simp (disch := omega) only [encode, fld, ext_lo, ext_hi, Nat.reduceSub, ext_self]; try rfl), key _ (by simp (disch := omega) only [encode, fld, ext_lo, ext_hi, Nat.reduceSub, ext_self]; try rfl)]
  simp (disch := omega) only [encode, fld, ext_lo, ext_hi, Nat.reduceSub, ext_self, isOne_bit1, Scope.ofCode_code, Rm.ofCode_code, Option.map_some]
theorem add (x0 : BitVec 5) (x1 : BitVec 5) (x2 : BitVec 5) : Statement (.add x0 x1 x2) := fun _ => by
  have key : ∀ w : IWord, fld w 0 11 = 0#11 → decAlu w = some (.add (fld w 21 5) (fld w 16 5) (fld w 11 5)) := by
    intro w h1; unfold decAlu; rw [h1]; rfl
  rw [raw_6 (by simp (disch := omega) only [encode, fld, ext_lo, ext_hi, Nat.reduceSub, ext_self]; try rfl), key _ (by simp (disch := omega) only [encode, fld, ext_lo, ext_hi, Nat.reduceSub, ext_self]; try rfl)]
  simp (disch := omega) only [encode, fld, ext_lo, ext_hi, Nat.reduceSub, ext_self, isOne_bit1, Scope.ofCode_code, Rm.ofCode_code, Option.map_some]
theorem sub (x0 : BitVec 5) (x1 : BitVec 5) (x2 : BitVec 5) : Statement (.sub x0 x1 x2) := fun _ => by
  have key : ∀ w : IWord, fld w 0 11 = 1#11 → decAlu w = some (.sub (fld w 21 5) (fld w 16 5) (fld w 11 5)) := by
    intro w h1; unfold decAlu; rw [h1]; rfl
  rw [raw_6 (by simp (disch := omega) only [encode, fld, ext_lo, ext_hi, Nat.reduceSub, ext_self]; try rfl), key _ (by simp (disch := omega) only [encode, fld, ext_lo, ext_hi, Nat.reduceSub, ext_self]; try rfl)]
  simp (disch := omega) only [encode, fld, ext_lo, ext_hi, Nat.reduceSub, ext_self, isOne_bit1, Scope.ofCode_code, Rm.ofCode_code, Option.map_some]
theorem and (x0 : BitVec 5) (x1 : BitVec 5) (x2 : BitVec 5) : Statement (.and x0 x1 x2) := fun _ => by
  have key : ∀ w : IWord, fld w 0 11 = 2#11 → decAlu w = some (.and (fld w 21 5) (fld w 16 5) (fld w 11 5)) := by
    intro w h1; unfold decAlu; rw [h1]; rfl
  rw [raw_6 (by simp (disch := omega) only [encode, fld, ext_lo, ext_hi, Nat.reduceSub, ext_self]; try rfl), key _ (by simp (disch := omega) only [encode, fld, ext_lo, ext_hi, Nat.reduceSub, ext_self]; try rfl)]
  simp (disch := omega) only [encode, fld, ext_lo, ext_hi, Nat.reduceSub, ext_self, isOne_bit1, Scope.ofCode_code, Rm.ofCode_code, Option.map_some]
theorem or (x0 : BitVec 5) (x1 : BitVec 5) (x2 : BitVec 5) : Statement (.or x0 x1 x2) := fun _ => by
  have key : ∀ w : IWord, fld w 0 11 = 3#11 → decAlu w = some (.or (fld w 21 5) (fld w 16 5) (fld w 11 5)) := by
    intro w h1; unfold decAlu; rw [h1]; rfl
  rw [raw_6 (by simp (disch := omega) only [encode, fld, ext_lo, ext_hi, Nat.reduceSub, ext_self]; try rfl), key _ (by simp (disch := omega) only [encode, fld, ext_lo, ext_hi, Nat.reduceSub, ext_self]; try rfl)]
  simp (disch := omega) only [encode, fld, ext_lo, ext_hi, Nat.reduceSub, ext_self, isOne_bit1, Scope.ofCode_code, Rm.ofCode_code, Option.map_some]
theorem xor (x0 : BitVec 5) (x1 : BitVec 5) (x2 : BitVec 5) : Statement (.xor x0 x1 x2) := fun _ => by
  have key : ∀ w : IWord, fld w 0 11 = 4#11 → decAlu w = some (.xor (fld w 21 5) (fld w 16 5) (fld w 11 5)) := by
    intro w h1; unfold decAlu; rw [h1]; rfl
  rw [raw_6 (by simp (disch := omega) only [encode, fld, ext_lo, ext_hi, Nat.reduceSub, ext_self]; try rfl), key _ (by simp (disch := omega) only [encode, fld, ext_lo, ext_hi, Nat.reduceSub, ext_self]; try rfl)]
  simp (disch := omega) only [encode, fld, ext_lo, ext_hi, Nat.reduceSub, ext_self, isOne_bit1, Scope.ofCode_code, Rm.ofCode_code, Option.map_some]
theorem sll (x0 : BitVec 5) (x1 : BitVec 5) (x2 : BitVec 5) : Statement (.sll x0 x1 x2) := fun _ => by
  have key : ∀ w : IWord, fld w 0 11 = 5#11 → decAlu w = some (.sll (fld w 21 5) (fld w 16 5) (fld w 11 5)) := by
    intro w h1; unfold decAlu; rw [h1]; rfl
  rw [raw_6 (by simp (disch := omega) only [encode, fld, ext_lo, ext_hi, Nat.reduceSub, ext_self]; try rfl), key _ (by simp (disch := omega) only [encode, fld, ext_lo, ext_hi, Nat.reduceSub, ext_self]; try rfl)]
  simp (disch := omega) only [encode, fld, ext_lo, ext_hi, Nat.reduceSub, ext_self, isOne_bit1, Scope.ofCode_code, Rm.ofCode_code, Option.map_some]
theorem srl (x0 : BitVec 5) (x1 : BitVec 5) (x2 : BitVec 5) : Statement (.srl x0 x1 x2) := fun _ => by
  have key : ∀ w : IWord, fld w 0 11 = 6#11 → decAlu w = some (.srl (fld w 21 5) (fld w 16 5) (fld w 11 5)) := by
    intro w h1; unfold decAlu; rw [h1]; rfl
  rw [raw_6 (by simp (disch := omega) only [encode, fld, ext_lo, ext_hi, Nat.reduceSub, ext_self]; try rfl), key _ (by simp (disch := omega) only [encode, fld, ext_lo, ext_hi, Nat.reduceSub, ext_self]; try rfl)]
  simp (disch := omega) only [encode, fld, ext_lo, ext_hi, Nat.reduceSub, ext_self, isOne_bit1, Scope.ofCode_code, Rm.ofCode_code, Option.map_some]
theorem sra (x0 : BitVec 5) (x1 : BitVec 5) (x2 : BitVec 5) : Statement (.sra x0 x1 x2) := fun _ => by
  have key : ∀ w : IWord, fld w 0 11 = 7#11 → decAlu w = some (.sra (fld w 21 5) (fld w 16 5) (fld w 11 5)) := by
    intro w h1; unfold decAlu; rw [h1]; rfl
  rw [raw_6 (by simp (disch := omega) only [encode, fld, ext_lo, ext_hi, Nat.reduceSub, ext_self]; try rfl), key _ (by simp (disch := omega) only [encode, fld, ext_lo, ext_hi, Nat.reduceSub, ext_self]; try rfl)]
  simp (disch := omega) only [encode, fld, ext_lo, ext_hi, Nat.reduceSub, ext_self, isOne_bit1, Scope.ofCode_code, Rm.ofCode_code, Option.map_some]
theorem slt (x0 : BitVec 5) (x1 : BitVec 5) (x2 : BitVec 5) : Statement (.slt x0 x1 x2) := fun _ => by
  have key : ∀ w : IWord, fld w 0 11 = 8#11 → decAlu w = some (.slt (fld w 21 5) (fld w 16 5) (fld w 11 5)) := by
    intro w h1; unfold decAlu; rw [h1]; rfl
  rw [raw_6 (by simp (disch := omega) only [encode, fld, ext_lo, ext_hi, Nat.reduceSub, ext_self]; try rfl), key _ (by simp (disch := omega) only [encode, fld, ext_lo, ext_hi, Nat.reduceSub, ext_self]; try rfl)]
  simp (disch := omega) only [encode, fld, ext_lo, ext_hi, Nat.reduceSub, ext_self, isOne_bit1, Scope.ofCode_code, Rm.ofCode_code, Option.map_some]
theorem sltn (x0 : BitVec 5) (x1 : BitVec 5) (x2 : BitVec 5) : Statement (.sltn x0 x1 x2) := fun _ => by
  have key : ∀ w : IWord, fld w 0 11 = 9#11 → decAlu w = some (.sltn (fld w 21 5) (fld w 16 5) (fld w 11 5)) := by
    intro w h1; unfold decAlu; rw [h1]; rfl
  rw [raw_6 (by simp (disch := omega) only [encode, fld, ext_lo, ext_hi, Nat.reduceSub, ext_self]; try rfl), key _ (by simp (disch := omega) only [encode, fld, ext_lo, ext_hi, Nat.reduceSub, ext_self]; try rfl)]
  simp (disch := omega) only [encode, fld, ext_lo, ext_hi, Nat.reduceSub, ext_self, isOne_bit1, Scope.ofCode_code, Rm.ofCode_code, Option.map_some]
theorem min (x0 : BitVec 5) (x1 : BitVec 5) (x2 : BitVec 5) : Statement (.min x0 x1 x2) := fun _ => by
  have key : ∀ w : IWord, fld w 0 11 = 10#11 → decAlu w = some (.min (fld w 21 5) (fld w 16 5) (fld w 11 5)) := by
    intro w h1; unfold decAlu; rw [h1]; rfl
  rw [raw_6 (by simp (disch := omega) only [encode, fld, ext_lo, ext_hi, Nat.reduceSub, ext_self]; try rfl), key _ (by simp (disch := omega) only [encode, fld, ext_lo, ext_hi, Nat.reduceSub, ext_self]; try rfl)]
  simp (disch := omega) only [encode, fld, ext_lo, ext_hi, Nat.reduceSub, ext_self, isOne_bit1, Scope.ofCode_code, Rm.ofCode_code, Option.map_some]
theorem max (x0 : BitVec 5) (x1 : BitVec 5) (x2 : BitVec 5) : Statement (.max x0 x1 x2) := fun _ => by
  have key : ∀ w : IWord, fld w 0 11 = 11#11 → decAlu w = some (.max (fld w 21 5) (fld w 16 5) (fld w 11 5)) := by
    intro w h1; unfold decAlu; rw [h1]; rfl
  rw [raw_6 (by simp (disch := omega) only [encode, fld, ext_lo, ext_hi, Nat.reduceSub, ext_self]; try rfl), key _ (by simp (disch := omega) only [encode, fld, ext_lo, ext_hi, Nat.reduceSub, ext_self]; try rfl)]
  simp (disch := omega) only [encode, fld, ext_lo, ext_hi, Nat.reduceSub, ext_self, isOne_bit1, Scope.ofCode_code, Rm.ofCode_code, Option.map_some]
theorem minn (x0 : BitVec 5) (x1 : BitVec 5) (x2 : BitVec 5) : Statement (.minn x0 x1 x2) := fun _ => by
  have key : ∀ w : IWord, fld w 0 11 = 12#11 → decAlu w = some (.minn (fld w 21 5) (fld w 16 5) (fld w 11 5)) := by
    intro w h1; unfold decAlu; rw [h1]; rfl
  rw [raw_6 (by simp (disch := omega) only [encode, fld, ext_lo, ext_hi, Nat.reduceSub, ext_self]; try rfl), key _ (by simp (disch := omega) only [encode, fld, ext_lo, ext_hi, Nat.reduceSub, ext_self]; try rfl)]
  simp (disch := omega) only [encode, fld, ext_lo, ext_hi, Nat.reduceSub, ext_self, isOne_bit1, Scope.ofCode_code, Rm.ofCode_code, Option.map_some]
theorem maxn (x0 : BitVec 5) (x1 : BitVec 5) (x2 : BitVec 5) : Statement (.maxn x0 x1 x2) := fun _ => by
  have key : ∀ w : IWord, fld w 0 11 = 13#11 → decAlu w = some (.maxn (fld w 21 5) (fld w 16 5) (fld w 11 5)) := by
    intro w h1; unfold decAlu; rw [h1]; rfl
  rw [raw_6 (by simp (disch := omega) only [encode, fld, ext_lo, ext_hi, Nat.reduceSub, ext_self]; try rfl), key _ (by simp (disch := omega) only [encode, fld, ext_lo, ext_hi, Nat.reduceSub, ext_self]; try rfl)]
  simp (disch := omega) only [encode, fld, ext_lo, ext_hi, Nat.reduceSub, ext_self, isOne_bit1, Scope.ofCode_code, Rm.ofCode_code, Option.map_some]
theorem clz (x0 : BitVec 5) (x1 : BitVec 5) : Statement (.clz x0 x1) := fun _ => by
  have key : ∀ w : IWord, fld w 0 11 = 14#11 → decAlu w = some (.clz (fld w 21 5) (fld w 16 5)) := by
    intro w h1; unfold decAlu; rw [h1]; rfl
  rw [raw_6 (by simp (disch := omega) only [encode, fld, ext_lo, ext_hi, Nat.reduceSub, ext_self]; try rfl), key _ (by simp (disch := omega) only [encode, fld, ext_lo, ext_hi, Nat.reduceSub, ext_self]; try rfl)]
  simp (disch := omega) only [encode, fld, ext_lo, ext_hi, Nat.reduceSub, ext_self, isOne_bit1, Scope.ofCode_code, Rm.ofCode_code, Option.map_some]
theorem ctz (x0 : BitVec 5) (x1 : BitVec 5) : Statement (.ctz x0 x1) := fun _ => by
  have key : ∀ w : IWord, fld w 0 11 = 15#11 → decAlu w = some (.ctz (fld w 21 5) (fld w 16 5)) := by
    intro w h1; unfold decAlu; rw [h1]; rfl
  rw [raw_6 (by simp (disch := omega) only [encode, fld, ext_lo, ext_hi, Nat.reduceSub, ext_self]; try rfl), key _ (by simp (disch := omega) only [encode, fld, ext_lo, ext_hi, Nat.reduceSub, ext_self]; try rfl)]
  simp (disch := omega) only [encode, fld, ext_lo, ext_hi, Nat.reduceSub, ext_self, isOne_bit1, Scope.ofCode_code, Rm.ofCode_code, Option.map_some]
theorem popc (x0 : BitVec 5) (x1 : BitVec 5) : Statement (.popc x0 x1) := fun _ => by
  have key : ∀ w : IWord, fld w 0 11 = 16#11 → decAlu w = some (.popc (fld w 21 5) (fld w 16 5)) := by
    intro w h1; unfold decAlu; rw [h1]; rfl
  rw [raw_6 (by simp (disch := omega) only [encode, fld, ext_lo, ext_hi, Nat.reduceSub, ext_self]; try rfl), key _ (by simp (disch := omega) only [encode, fld, ext_lo, ext_hi, Nat.reduceSub, ext_self]; try rfl)]
  simp (disch := omega) only [encode, fld, ext_lo, ext_hi, Nat.reduceSub, ext_self, isOne_bit1, Scope.ofCode_code, Rm.ofCode_code, Option.map_some]
theorem addi (x0 : BitVec 5) (x1 : BitVec 5) (x2 : BitVec 16) : Statement (.addi x0 x1 x2) := fun _ => by
  rw [raw_7 (by simp (disch := omega) only [encode, fld, ext_lo, ext_hi, Nat.reduceSub, ext_self]; try rfl)]
  simp (disch := omega) only [encode, fld, ext_lo, ext_hi, Nat.reduceSub, ext_self, isOne_bit1, Scope.ofCode_code, Rm.ofCode_code, Option.map_some]
theorem andi (x0 : BitVec 5) (x1 : BitVec 5) (x2 : BitVec 16) : Statement (.andi x0 x1 x2) := fun _ => by
  rw [raw_8 (by simp (disch := omega) only [encode, fld, ext_lo, ext_hi, Nat.reduceSub, ext_self]; try rfl)]
  simp (disch := omega) only [encode, fld, ext_lo, ext_hi, Nat.reduceSub, ext_self, isOne_bit1, Scope.ofCode_code, Rm.ofCode_code, Option.map_some]
theorem ori (x0 : BitVec 5) (x1 : BitVec 5) (x2 : BitVec 16) : Statement (.ori x0 x1 x2) := fun _ => by
  rw [raw_9 (by simp (disch := omega) only [encode, fld, ext_lo, ext_hi, Nat.reduceSub, ext_self]; try rfl)]
  simp (disch := omega) only [encode, fld, ext_lo, ext_hi, Nat.reduceSub, ext_self, isOne_bit1, Scope.ofCode_code, Rm.ofCode_code, Option.map_some]
theorem xori (x0 : BitVec 5) (x1 : BitVec 5) (x2 : BitVec 16) : Statement (.xori x0 x1 x2) := fun _ => by
  rw [raw_10 (by simp (disch := omega) only [encode, fld, ext_lo, ext_hi, Nat.reduceSub, ext_self]; try rfl)]
  simp (disch := omega) only [encode, fld, ext_lo, ext_hi, Nat.reduceSub, ext_self, isOne_bit1, Scope.ofCode_code, Rm.ofCode_code, Option.map_some]
theorem slli (x0 : BitVec 5) (x1 : BitVec 5) (x2 : BitVec 6) : Statement (.slli x0 x1 x2) := fun _ => by
  have key : ∀ w : IWord, fld w 6 2 = 0#2 → decShift w = some (.slli (fld w 21 5) (fld w 16 5) (fld w 0 6)) := by
    intro w h1; unfold decShift; rw [h1]; rfl
  rw [raw_11 (by simp (disch := omega) only [encode, fld, ext_lo, ext_hi, Nat.reduceSub, ext_self]; try rfl), key _ (by simp (disch := omega) only [encode, fld, ext_lo, ext_hi, Nat.reduceSub, ext_self]; try rfl)]
  simp (disch := omega) only [encode, fld, ext_lo, ext_hi, Nat.reduceSub, ext_self, isOne_bit1, Scope.ofCode_code, Rm.ofCode_code, Option.map_some]
theorem srli (x0 : BitVec 5) (x1 : BitVec 5) (x2 : BitVec 6) : Statement (.srli x0 x1 x2) := fun _ => by
  have key : ∀ w : IWord, fld w 6 2 = 1#2 → decShift w = some (.srli (fld w 21 5) (fld w 16 5) (fld w 0 6)) := by
    intro w h1; unfold decShift; rw [h1]; rfl
  rw [raw_11 (by simp (disch := omega) only [encode, fld, ext_lo, ext_hi, Nat.reduceSub, ext_self]; try rfl), key _ (by simp (disch := omega) only [encode, fld, ext_lo, ext_hi, Nat.reduceSub, ext_self]; try rfl)]
  simp (disch := omega) only [encode, fld, ext_lo, ext_hi, Nat.reduceSub, ext_self, isOne_bit1, Scope.ofCode_code, Rm.ofCode_code, Option.map_some]
theorem srai (x0 : BitVec 5) (x1 : BitVec 5) (x2 : BitVec 6) : Statement (.srai x0 x1 x2) := fun _ => by
  have key : ∀ w : IWord, fld w 6 2 = 2#2 → decShift w = some (.srai (fld w 21 5) (fld w 16 5) (fld w 0 6)) := by
    intro w h1; unfold decShift; rw [h1]; rfl
  rw [raw_11 (by simp (disch := omega) only [encode, fld, ext_lo, ext_hi, Nat.reduceSub, ext_self]; try rfl), key _ (by simp (disch := omega) only [encode, fld, ext_lo, ext_hi, Nat.reduceSub, ext_self]; try rfl)]
  simp (disch := omega) only [encode, fld, ext_lo, ext_hi, Nat.reduceSub, ext_self, isOne_bit1, Scope.ofCode_code, Rm.ofCode_code, Option.map_some]
theorem slti (x0 : BitVec 5) (x1 : BitVec 5) (x2 : BitVec 16) : Statement (.slti x0 x1 x2) := fun _ => by
  rw [raw_12 (by simp (disch := omega) only [encode, fld, ext_lo, ext_hi, Nat.reduceSub, ext_self]; try rfl)]
  simp (disch := omega) only [encode, fld, ext_lo, ext_hi, Nat.reduceSub, ext_self, isOne_bit1, Scope.ofCode_code, Rm.ofCode_code, Option.map_some]
theorem lui (x0 : BitVec 5) (x1 : BitVec 16) : Statement (.lui x0 x1) := fun _ => by
  rw [raw_13 (by simp (disch := omega) only [encode, fld, ext_lo, ext_hi, Nat.reduceSub, ext_self]; try rfl)]
  simp (disch := omega) only [encode, fld, ext_lo, ext_hi, Nat.reduceSub, ext_self, isOne_bit1, Scope.ofCode_code, Rm.ofCode_code, Option.map_some]
theorem auipc (x0 : BitVec 5) (x1 : BitVec 16) : Statement (.auipc x0 x1) := fun _ => by
  rw [raw_14 (by simp (disch := omega) only [encode, fld, ext_lo, ext_hi, Nat.reduceSub, ext_self]; try rfl)]
  simp (disch := omega) only [encode, fld, ext_lo, ext_hi, Nat.reduceSub, ext_self, isOne_bit1, Scope.ofCode_code, Rm.ofCode_code, Option.map_some]
theorem ldS8 (x0 : BitVec 5) (x1 : BitVec 5) (x2 : BitVec 13) : Statement (.ldS8 x0 x1 x2) := fun _ => by
  have key : ∀ w : IWord, fld w 13 3 = 0#3 → decLd w = some (.ldS8 (fld w 21 5) (fld w 16 5) (fld w 0 13)) := by
    intro w h1; unfold decLd; rw [h1]; rfl
  rw [raw_16 (by simp (disch := omega) only [encode, fld, ext_lo, ext_hi, Nat.reduceSub, ext_self]; try rfl), key _ (by simp (disch := omega) only [encode, fld, ext_lo, ext_hi, Nat.reduceSub, ext_self]; try rfl)]
  simp (disch := omega) only [encode, fld, ext_lo, ext_hi, Nat.reduceSub, ext_self, isOne_bit1, Scope.ofCode_code, Rm.ofCode_code, Option.map_some]
theorem ldN8 (x0 : BitVec 5) (x1 : BitVec 5) (x2 : BitVec 13) : Statement (.ldN8 x0 x1 x2) := fun _ => by
  have key : ∀ w : IWord, fld w 13 3 = 1#3 → decLd w = some (.ldN8 (fld w 21 5) (fld w 16 5) (fld w 0 13)) := by
    intro w h1; unfold decLd; rw [h1]; rfl
  rw [raw_16 (by simp (disch := omega) only [encode, fld, ext_lo, ext_hi, Nat.reduceSub, ext_self]; try rfl), key _ (by simp (disch := omega) only [encode, fld, ext_lo, ext_hi, Nat.reduceSub, ext_self]; try rfl)]
  simp (disch := omega) only [encode, fld, ext_lo, ext_hi, Nat.reduceSub, ext_self, isOne_bit1, Scope.ofCode_code, Rm.ofCode_code, Option.map_some]
theorem ldS16 (x0 : BitVec 5) (x1 : BitVec 5) (x2 : BitVec 13) : Statement (.ldS16 x0 x1 x2) := fun _ => by
  have key : ∀ w : IWord, fld w 13 3 = 2#3 → decLd w = some (.ldS16 (fld w 21 5) (fld w 16 5) (fld w 0 13)) := by
    intro w h1; unfold decLd; rw [h1]; rfl
  rw [raw_16 (by simp (disch := omega) only [encode, fld, ext_lo, ext_hi, Nat.reduceSub, ext_self]; try rfl), key _ (by simp (disch := omega) only [encode, fld, ext_lo, ext_hi, Nat.reduceSub, ext_self]; try rfl)]
  simp (disch := omega) only [encode, fld, ext_lo, ext_hi, Nat.reduceSub, ext_self, isOne_bit1, Scope.ofCode_code, Rm.ofCode_code, Option.map_some]
theorem ldN16 (x0 : BitVec 5) (x1 : BitVec 5) (x2 : BitVec 13) : Statement (.ldN16 x0 x1 x2) := fun _ => by
  have key : ∀ w : IWord, fld w 13 3 = 3#3 → decLd w = some (.ldN16 (fld w 21 5) (fld w 16 5) (fld w 0 13)) := by
    intro w h1; unfold decLd; rw [h1]; rfl
  rw [raw_16 (by simp (disch := omega) only [encode, fld, ext_lo, ext_hi, Nat.reduceSub, ext_self]; try rfl), key _ (by simp (disch := omega) only [encode, fld, ext_lo, ext_hi, Nat.reduceSub, ext_self]; try rfl)]
  simp (disch := omega) only [encode, fld, ext_lo, ext_hi, Nat.reduceSub, ext_self, isOne_bit1, Scope.ofCode_code, Rm.ofCode_code, Option.map_some]
theorem ldS32 (x0 : BitVec 5) (x1 : BitVec 5) (x2 : BitVec 13) : Statement (.ldS32 x0 x1 x2) := fun _ => by
  have key : ∀ w : IWord, fld w 13 3 = 4#3 → decLd w = some (.ldS32 (fld w 21 5) (fld w 16 5) (fld w 0 13)) := by
    intro w h1; unfold decLd; rw [h1]; rfl
  rw [raw_16 (by simp (disch := omega) only [encode, fld, ext_lo, ext_hi, Nat.reduceSub, ext_self]; try rfl), key _ (by simp (disch := omega) only [encode, fld, ext_lo, ext_hi, Nat.reduceSub, ext_self]; try rfl)]
  simp (disch := omega) only [encode, fld, ext_lo, ext_hi, Nat.reduceSub, ext_self, isOne_bit1, Scope.ofCode_code, Rm.ofCode_code, Option.map_some]
theorem ldN32 (x0 : BitVec 5) (x1 : BitVec 5) (x2 : BitVec 13) : Statement (.ldN32 x0 x1 x2) := fun _ => by
  have key : ∀ w : IWord, fld w 13 3 = 5#3 → decLd w = some (.ldN32 (fld w 21 5) (fld w 16 5) (fld w 0 13)) := by
    intro w h1; unfold decLd; rw [h1]; rfl
  rw [raw_16 (by simp (disch := omega) only [encode, fld, ext_lo, ext_hi, Nat.reduceSub, ext_self]; try rfl), key _ (by simp (disch := omega) only [encode, fld, ext_lo, ext_hi, Nat.reduceSub, ext_self]; try rfl)]
  simp (disch := omega) only [encode, fld, ext_lo, ext_hi, Nat.reduceSub, ext_self, isOne_bit1, Scope.ofCode_code, Rm.ofCode_code, Option.map_some]
theorem ld64 (x0 : BitVec 5) (x1 : BitVec 5) (x2 : BitVec 13) : Statement (.ld64 x0 x1 x2) := fun _ => by
  have key : ∀ w : IWord, fld w 13 3 = 6#3 → decLd w = some (.ld64 (fld w 21 5) (fld w 16 5) (fld w 0 13)) := by
    intro w h1; unfold decLd; rw [h1]; rfl
  rw [raw_16 (by simp (disch := omega) only [encode, fld, ext_lo, ext_hi, Nat.reduceSub, ext_self]; try rfl), key _ (by simp (disch := omega) only [encode, fld, ext_lo, ext_hi, Nat.reduceSub, ext_self]; try rfl)]
  simp (disch := omega) only [encode, fld, ext_lo, ext_hi, Nat.reduceSub, ext_self, isOne_bit1, Scope.ofCode_code, Rm.ofCode_code, Option.map_some]
theorem st8 (x0 : BitVec 5) (x1 : BitVec 5) (x2 : BitVec 13) : Statement (.st8 x0 x1 x2) := fun _ => by
  have key : ∀ w : IWord, fld w 13 3 = 0#3 → decSt w = some (.st8 (fld w 21 5) (fld w 16 5) (fld w 0 13)) := by
    intro w h1; unfold decSt; rw [h1]; rfl
  rw [raw_17 (by simp (disch := omega) only [encode, fld, ext_lo, ext_hi, Nat.reduceSub, ext_self]; try rfl), key _ (by simp (disch := omega) only [encode, fld, ext_lo, ext_hi, Nat.reduceSub, ext_self]; try rfl)]
  simp (disch := omega) only [encode, fld, ext_lo, ext_hi, Nat.reduceSub, ext_self, isOne_bit1, Scope.ofCode_code, Rm.ofCode_code, Option.map_some]
theorem st16 (x0 : BitVec 5) (x1 : BitVec 5) (x2 : BitVec 13) : Statement (.st16 x0 x1 x2) := fun _ => by
  have key : ∀ w : IWord, fld w 13 3 = 2#3 → decSt w = some (.st16 (fld w 21 5) (fld w 16 5) (fld w 0 13)) := by
    intro w h1; unfold decSt; rw [h1]; rfl
  rw [raw_17 (by simp (disch := omega) only [encode, fld, ext_lo, ext_hi, Nat.reduceSub, ext_self]; try rfl), key _ (by simp (disch := omega) only [encode, fld, ext_lo, ext_hi, Nat.reduceSub, ext_self]; try rfl)]
  simp (disch := omega) only [encode, fld, ext_lo, ext_hi, Nat.reduceSub, ext_self, isOne_bit1, Scope.ofCode_code, Rm.ofCode_code, Option.map_some]
theorem st32 (x0 : BitVec 5) (x1 : BitVec 5) (x2 : BitVec 13) : Statement (.st32 x0 x1 x2) := fun _ => by
  have key : ∀ w : IWord, fld w 13 3 = 4#3 → decSt w = some (.st32 (fld w 21 5) (fld w 16 5) (fld w 0 13)) := by
    intro w h1; unfold decSt; rw [h1]; rfl
  rw [raw_17 (by simp (disch := omega) only [encode, fld, ext_lo, ext_hi, Nat.reduceSub, ext_self]; try rfl), key _ (by simp (disch := omega) only [encode, fld, ext_lo, ext_hi, Nat.reduceSub, ext_self]; try rfl)]
  simp (disch := omega) only [encode, fld, ext_lo, ext_hi, Nat.reduceSub, ext_self, isOne_bit1, Scope.ofCode_code, Rm.ofCode_code, Option.map_some]
theorem st64 (x0 : BitVec 5) (x1 : BitVec 5) (x2 : BitVec 13) : Statement (.st64 x0 x1 x2) := fun _ => by
  have key : ∀ w : IWord, fld w 13 3 = 6#3 → decSt w = some (.st64 (fld w 21 5) (fld w 16 5) (fld w 0 13)) := by
    intro w h1; unfold decSt; rw [h1]; rfl
  rw [raw_17 (by simp (disch := omega) only [encode, fld, ext_lo, ext_hi, Nat.reduceSub, ext_self]; try rfl), key _ (by simp (disch := omega) only [encode, fld, ext_lo, ext_hi, Nat.reduceSub, ext_self]; try rfl)]
  simp (disch := omega) only [encode, fld, ext_lo, ext_hi, Nat.reduceSub, ext_self, isOne_bit1, Scope.ofCode_code, Rm.ofCode_code, Option.map_some]
theorem amoAdd (x0 : BitVec 5) (x1 : BitVec 5) (x2 : BitVec 5) (x3 : Bool) (x4 : Scope) (x5 : Bool) (x6 : Bool) : Statement (.amoAdd x0 x1 x2 x3 x4 x5 x6) := fun _ => by
  have key : ∀ w : IWord, fld w 7 4 = 0#4 → decAmo w = (Scope.ofCode (fld w 2 3)).map fun c => .amoAdd (fld w 21 5) (fld w 16 5) (fld w 11 5) (isOne (fld w 6 1)) c (isOne (fld w 1 1)) (isOne (fld w 0 1)) := by
    intro w h1; unfold decAmo; rw [h1]; rfl
  rw [raw_18 (by simp (disch := omega) only [encode, fld, ext_lo, ext_hi, Nat.reduceSub, ext_self]; try rfl), key _ (by simp (disch := omega) only [encode, fld, ext_lo, ext_hi, Nat.reduceSub, ext_self]; try rfl)]
  simp (disch := omega) only [encode, fld, ext_lo, ext_hi, Nat.reduceSub, ext_self, isOne_bit1, Scope.ofCode_code, Rm.ofCode_code, Option.map_some]
theorem amoAnd (x0 : BitVec 5) (x1 : BitVec 5) (x2 : BitVec 5) (x3 : Bool) (x4 : Scope) (x5 : Bool) (x6 : Bool) : Statement (.amoAnd x0 x1 x2 x3 x4 x5 x6) := fun _ => by
  have key : ∀ w : IWord, fld w 7 4 = 2#4 → decAmo w = (Scope.ofCode (fld w 2 3)).map fun c => .amoAnd (fld w 21 5) (fld w 16 5) (fld w 11 5) (isOne (fld w 6 1)) c (isOne (fld w 1 1)) (isOne (fld w 0 1)) := by
    intro w h1; unfold decAmo; rw [h1]; rfl
  rw [raw_18 (by simp (disch := omega) only [encode, fld, ext_lo, ext_hi, Nat.reduceSub, ext_self]; try rfl), key _ (by simp (disch := omega) only [encode, fld, ext_lo, ext_hi, Nat.reduceSub, ext_self]; try rfl)]
  simp (disch := omega) only [encode, fld, ext_lo, ext_hi, Nat.reduceSub, ext_self, isOne_bit1, Scope.ofCode_code, Rm.ofCode_code, Option.map_some]
theorem amoOr (x0 : BitVec 5) (x1 : BitVec 5) (x2 : BitVec 5) (x3 : Bool) (x4 : Scope) (x5 : Bool) (x6 : Bool) : Statement (.amoOr x0 x1 x2 x3 x4 x5 x6) := fun _ => by
  have key : ∀ w : IWord, fld w 7 4 = 4#4 → decAmo w = (Scope.ofCode (fld w 2 3)).map fun c => .amoOr (fld w 21 5) (fld w 16 5) (fld w 11 5) (isOne (fld w 6 1)) c (isOne (fld w 1 1)) (isOne (fld w 0 1)) := by
    intro w h1; unfold decAmo; rw [h1]; rfl
  rw [raw_18 (by simp (disch := omega) only [encode, fld, ext_lo, ext_hi, Nat.reduceSub, ext_self]; try rfl), key _ (by simp (disch := omega) only [encode, fld, ext_lo, ext_hi, Nat.reduceSub, ext_self]; try rfl)]
  simp (disch := omega) only [encode, fld, ext_lo, ext_hi, Nat.reduceSub, ext_self, isOne_bit1, Scope.ofCode_code, Rm.ofCode_code, Option.map_some]
theorem amoXor (x0 : BitVec 5) (x1 : BitVec 5) (x2 : BitVec 5) (x3 : Bool) (x4 : Scope) (x5 : Bool) (x6 : Bool) : Statement (.amoXor x0 x1 x2 x3 x4 x5 x6) := fun _ => by
  have key : ∀ w : IWord, fld w 7 4 = 6#4 → decAmo w = (Scope.ofCode (fld w 2 3)).map fun c => .amoXor (fld w 21 5) (fld w 16 5) (fld w 11 5) (isOne (fld w 6 1)) c (isOne (fld w 1 1)) (isOne (fld w 0 1)) := by
    intro w h1; unfold decAmo; rw [h1]; rfl
  rw [raw_18 (by simp (disch := omega) only [encode, fld, ext_lo, ext_hi, Nat.reduceSub, ext_self]; try rfl), key _ (by simp (disch := omega) only [encode, fld, ext_lo, ext_hi, Nat.reduceSub, ext_self]; try rfl)]
  simp (disch := omega) only [encode, fld, ext_lo, ext_hi, Nat.reduceSub, ext_self, isOne_bit1, Scope.ofCode_code, Rm.ofCode_code, Option.map_some]
theorem amoMin (x0 : BitVec 5) (x1 : BitVec 5) (x2 : BitVec 5) (x3 : Bool) (x4 : Scope) (x5 : Bool) (x6 : Bool) : Statement (.amoMin x0 x1 x2 x3 x4 x5 x6) := fun _ => by
  have key : ∀ w : IWord, fld w 7 4 = 8#4 → decAmo w = (Scope.ofCode (fld w 2 3)).map fun c => .amoMin (fld w 21 5) (fld w 16 5) (fld w 11 5) (isOne (fld w 6 1)) c (isOne (fld w 1 1)) (isOne (fld w 0 1)) := by
    intro w h1; unfold decAmo; rw [h1]; rfl
  rw [raw_18 (by simp (disch := omega) only [encode, fld, ext_lo, ext_hi, Nat.reduceSub, ext_self]; try rfl), key _ (by simp (disch := omega) only [encode, fld, ext_lo, ext_hi, Nat.reduceSub, ext_self]; try rfl)]
  simp (disch := omega) only [encode, fld, ext_lo, ext_hi, Nat.reduceSub, ext_self, isOne_bit1, Scope.ofCode_code, Rm.ofCode_code, Option.map_some]
theorem amoMinn (x0 : BitVec 5) (x1 : BitVec 5) (x2 : BitVec 5) (x3 : Bool) (x4 : Scope) (x5 : Bool) (x6 : Bool) : Statement (.amoMinn x0 x1 x2 x3 x4 x5 x6) := fun _ => by
  have key : ∀ w : IWord, fld w 7 4 = 9#4 → decAmo w = (Scope.ofCode (fld w 2 3)).map fun c => .amoMinn (fld w 21 5) (fld w 16 5) (fld w 11 5) (isOne (fld w 6 1)) c (isOne (fld w 1 1)) (isOne (fld w 0 1)) := by
    intro w h1; unfold decAmo; rw [h1]; rfl
  rw [raw_18 (by simp (disch := omega) only [encode, fld, ext_lo, ext_hi, Nat.reduceSub, ext_self]; try rfl), key _ (by simp (disch := omega) only [encode, fld, ext_lo, ext_hi, Nat.reduceSub, ext_self]; try rfl)]
  simp (disch := omega) only [encode, fld, ext_lo, ext_hi, Nat.reduceSub, ext_self, isOne_bit1, Scope.ofCode_code, Rm.ofCode_code, Option.map_some]
theorem amoMax (x0 : BitVec 5) (x1 : BitVec 5) (x2 : BitVec 5) (x3 : Bool) (x4 : Scope) (x5 : Bool) (x6 : Bool) : Statement (.amoMax x0 x1 x2 x3 x4 x5 x6) := fun _ => by
  have key : ∀ w : IWord, fld w 7 4 = 10#4 → decAmo w = (Scope.ofCode (fld w 2 3)).map fun c => .amoMax (fld w 21 5) (fld w 16 5) (fld w 11 5) (isOne (fld w 6 1)) c (isOne (fld w 1 1)) (isOne (fld w 0 1)) := by
    intro w h1; unfold decAmo; rw [h1]; rfl
  rw [raw_18 (by simp (disch := omega) only [encode, fld, ext_lo, ext_hi, Nat.reduceSub, ext_self]; try rfl), key _ (by simp (disch := omega) only [encode, fld, ext_lo, ext_hi, Nat.reduceSub, ext_self]; try rfl)]
  simp (disch := omega) only [encode, fld, ext_lo, ext_hi, Nat.reduceSub, ext_self, isOne_bit1, Scope.ofCode_code, Rm.ofCode_code, Option.map_some]
theorem amoMaxn (x0 : BitVec 5) (x1 : BitVec 5) (x2 : BitVec 5) (x3 : Bool) (x4 : Scope) (x5 : Bool) (x6 : Bool) : Statement (.amoMaxn x0 x1 x2 x3 x4 x5 x6) := fun _ => by
  have key : ∀ w : IWord, fld w 7 4 = 11#4 → decAmo w = (Scope.ofCode (fld w 2 3)).map fun c => .amoMaxn (fld w 21 5) (fld w 16 5) (fld w 11 5) (isOne (fld w 6 1)) c (isOne (fld w 1 1)) (isOne (fld w 0 1)) := by
    intro w h1; unfold decAmo; rw [h1]; rfl
  rw [raw_18 (by simp (disch := omega) only [encode, fld, ext_lo, ext_hi, Nat.reduceSub, ext_self]; try rfl), key _ (by simp (disch := omega) only [encode, fld, ext_lo, ext_hi, Nat.reduceSub, ext_self]; try rfl)]
  simp (disch := omega) only [encode, fld, ext_lo, ext_hi, Nat.reduceSub, ext_self, isOne_bit1, Scope.ofCode_code, Rm.ofCode_code, Option.map_some]
theorem amoSwap (x0 : BitVec 5) (x1 : BitVec 5) (x2 : BitVec 5) (x3 : Bool) (x4 : Scope) (x5 : Bool) (x6 : Bool) : Statement (.amoSwap x0 x1 x2 x3 x4 x5 x6) := fun _ => by
  have key : ∀ w : IWord, fld w 7 4 = 12#4 → decAmo w = (Scope.ofCode (fld w 2 3)).map fun c => .amoSwap (fld w 21 5) (fld w 16 5) (fld w 11 5) (isOne (fld w 6 1)) c (isOne (fld w 1 1)) (isOne (fld w 0 1)) := by
    intro w h1; unfold decAmo; rw [h1]; rfl
  rw [raw_18 (by simp (disch := omega) only [encode, fld, ext_lo, ext_hi, Nat.reduceSub, ext_self]; try rfl), key _ (by simp (disch := omega) only [encode, fld, ext_lo, ext_hi, Nat.reduceSub, ext_self]; try rfl)]
  simp (disch := omega) only [encode, fld, ext_lo, ext_hi, Nat.reduceSub, ext_self, isOne_bit1, Scope.ofCode_code, Rm.ofCode_code, Option.map_some]
theorem cas (x0 : BitVec 5) (x1 : BitVec 5) (x2 : BitVec 5) (x3 : Bool) (x4 : Scope) (x5 : Bool) (x6 : Bool) : Statement (.cas x0 x1 x2 x3 x4 x5 x6) := fun _ => by
  have key : ∀ w : IWord, fld w 7 4 = 14#4 → decAmo w = (Scope.ofCode (fld w 2 3)).map fun c => .cas (fld w 21 5) (fld w 16 5) (fld w 11 5) (isOne (fld w 6 1)) c (isOne (fld w 1 1)) (isOne (fld w 0 1)) := by
    intro w h1; unfold decAmo; rw [h1]; rfl
  rw [raw_18 (by simp (disch := omega) only [encode, fld, ext_lo, ext_hi, Nat.reduceSub, ext_self]; try rfl), key _ (by simp (disch := omega) only [encode, fld, ext_lo, ext_hi, Nat.reduceSub, ext_self]; try rfl)]
  simp (disch := omega) only [encode, fld, ext_lo, ext_hi, Nat.reduceSub, ext_self, isOne_bit1, Scope.ofCode_code, Rm.ofCode_code, Option.map_some]
theorem bEq (x0 : BitVec 5) (x1 : BitVec 5) (x2 : BitVec 13) : Statement (.bEq x0 x1 x2) := fun _ => by
  have key : ∀ w : IWord, fld w 13 3 = 0#3 → decBr w = some (.bEq (fld w 21 5) (fld w 16 5) (fld w 0 13)) := by
    intro w h1; unfold decBr; rw [h1]; rfl
  rw [raw_2 (by simp (disch := omega) only [encode, fld, ext_lo, ext_hi, Nat.reduceSub, ext_self]; try rfl), key _ (by simp (disch := omega) only [encode, fld, ext_lo, ext_hi, Nat.reduceSub, ext_self]; try rfl)]
  simp (disch := omega) only [encode, fld, ext_lo, ext_hi, Nat.reduceSub, ext_self, isOne_bit1, Scope.ofCode_code, Rm.ofCode_code, Option.map_some]
theorem bNe (x0 : BitVec 5) (x1 : BitVec 5) (x2 : BitVec 13) : Statement (.bNe x0 x1 x2) := fun _ => by
  have key : ∀ w : IWord, fld w 13 3 = 1#3 → decBr w = some (.bNe (fld w 21 5) (fld w 16 5) (fld w 0 13)) := by
    intro w h1; unfold decBr; rw [h1]; rfl
  rw [raw_2 (by simp (disch := omega) only [encode, fld, ext_lo, ext_hi, Nat.reduceSub, ext_self]; try rfl), key _ (by simp (disch := omega) only [encode, fld, ext_lo, ext_hi, Nat.reduceSub, ext_self]; try rfl)]
  simp (disch := omega) only [encode, fld, ext_lo, ext_hi, Nat.reduceSub, ext_self, isOne_bit1, Scope.ofCode_code, Rm.ofCode_code, Option.map_some]
theorem bLt (x0 : BitVec 5) (x1 : BitVec 5) (x2 : BitVec 13) : Statement (.bLt x0 x1 x2) := fun _ => by
  have key : ∀ w : IWord, fld w 13 3 = 2#3 → decBr w = some (.bLt (fld w 21 5) (fld w 16 5) (fld w 0 13)) := by
    intro w h1; unfold decBr; rw [h1]; rfl
  rw [raw_2 (by simp (disch := omega) only [encode, fld, ext_lo, ext_hi, Nat.reduceSub, ext_self]; try rfl), key _ (by simp (disch := omega) only [encode, fld, ext_lo, ext_hi, Nat.reduceSub, ext_self]; try rfl)]
  simp (disch := omega) only [encode, fld, ext_lo, ext_hi, Nat.reduceSub, ext_self, isOne_bit1, Scope.ofCode_code, Rm.ofCode_code, Option.map_some]
theorem bGe (x0 : BitVec 5) (x1 : BitVec 5) (x2 : BitVec 13) : Statement (.bGe x0 x1 x2) := fun _ => by
  have key : ∀ w : IWord, fld w 13 3 = 3#3 → decBr w = some (.bGe (fld w 21 5) (fld w 16 5) (fld w 0 13)) := by
    intro w h1; unfold decBr; rw [h1]; rfl
  rw [raw_2 (by simp (disch := omega) only [encode, fld, ext_lo, ext_hi, Nat.reduceSub, ext_self]; try rfl), key _ (by simp (disch := omega) only [encode, fld, ext_lo, ext_hi, Nat.reduceSub, ext_self]; try rfl)]
  simp (disch := omega) only [encode, fld, ext_lo, ext_hi, Nat.reduceSub, ext_self, isOne_bit1, Scope.ofCode_code, Rm.ofCode_code, Option.map_some]
theorem bLtn (x0 : BitVec 5) (x1 : BitVec 5) (x2 : BitVec 13) : Statement (.bLtn x0 x1 x2) := fun _ => by
  have key : ∀ w : IWord, fld w 13 3 = 4#3 → decBr w = some (.bLtn (fld w 21 5) (fld w 16 5) (fld w 0 13)) := by
    intro w h1; unfold decBr; rw [h1]; rfl
  rw [raw_2 (by simp (disch := omega) only [encode, fld, ext_lo, ext_hi, Nat.reduceSub, ext_self]; try rfl), key _ (by simp (disch := omega) only [encode, fld, ext_lo, ext_hi, Nat.reduceSub, ext_self]; try rfl)]
  simp (disch := omega) only [encode, fld, ext_lo, ext_hi, Nat.reduceSub, ext_self, isOne_bit1, Scope.ofCode_code, Rm.ofCode_code, Option.map_some]
theorem bGen (x0 : BitVec 5) (x1 : BitVec 5) (x2 : BitVec 13) : Statement (.bGen x0 x1 x2) := fun _ => by
  have key : ∀ w : IWord, fld w 13 3 = 5#3 → decBr w = some (.bGen (fld w 21 5) (fld w 16 5) (fld w 0 13)) := by
    intro w h1; unfold decBr; rw [h1]; rfl
  rw [raw_2 (by simp (disch := omega) only [encode, fld, ext_lo, ext_hi, Nat.reduceSub, ext_self]; try rfl), key _ (by simp (disch := omega) only [encode, fld, ext_lo, ext_hi, Nat.reduceSub, ext_self]; try rfl)]
  simp (disch := omega) only [encode, fld, ext_lo, ext_hi, Nat.reduceSub, ext_self, isOne_bit1, Scope.ofCode_code, Rm.ofCode_code, Option.map_some]
theorem bBs (x0 : BitVec 5) (x1 : BitVec 5) (x2 : BitVec 13) : Statement (.bBs x0 x1 x2) := fun _ => by
  have key : ∀ w : IWord, fld w 13 3 = 6#3 → decBr w = some (.bBs (fld w 21 5) (fld w 16 5) (fld w 0 13)) := by
    intro w h1; unfold decBr; rw [h1]; rfl
  rw [raw_2 (by simp (disch := omega) only [encode, fld, ext_lo, ext_hi, Nat.reduceSub, ext_self]; try rfl), key _ (by simp (disch := omega) only [encode, fld, ext_lo, ext_hi, Nat.reduceSub, ext_self]; try rfl)]
  simp (disch := omega) only [encode, fld, ext_lo, ext_hi, Nat.reduceSub, ext_self, isOne_bit1, Scope.ofCode_code, Rm.ofCode_code, Option.map_some]
theorem bBc (x0 : BitVec 5) (x1 : BitVec 5) (x2 : BitVec 13) : Statement (.bBc x0 x1 x2) := fun _ => by
  have key : ∀ w : IWord, fld w 13 3 = 7#3 → decBr w = some (.bBc (fld w 21 5) (fld w 16 5) (fld w 0 13)) := by
    intro w h1; unfold decBr; rw [h1]; rfl
  rw [raw_2 (by simp (disch := omega) only [encode, fld, ext_lo, ext_hi, Nat.reduceSub, ext_self]; try rfl), key _ (by simp (disch := omega) only [encode, fld, ext_lo, ext_hi, Nat.reduceSub, ext_self]; try rfl)]
  simp (disch := omega) only [encode, fld, ext_lo, ext_hi, Nat.reduceSub, ext_self, isOne_bit1, Scope.ofCode_code, Rm.ofCode_code, Option.map_some]
theorem j (x0 : BitVec 26) : Statement (.j x0) := fun _ => by
  rw [raw_3 (by simp (disch := omega) only [encode, fld, ext_lo, ext_hi, Nat.reduceSub, ext_self]; try rfl)]
  simp (disch := omega) only [encode, fld, ext_lo, ext_hi, Nat.reduceSub, ext_self, isOne_bit1, Scope.ofCode_code, Rm.ofCode_code, Option.map_some]
theorem jal (x0 : BitVec 26) : Statement (.jal x0) := fun _ => by
  rw [raw_4 (by simp (disch := omega) only [encode, fld, ext_lo, ext_hi, Nat.reduceSub, ext_self]; try rfl)]
  simp (disch := omega) only [encode, fld, ext_lo, ext_hi, Nat.reduceSub, ext_self, isOne_bit1, Scope.ofCode_code, Rm.ofCode_code, Option.map_some]
theorem jalr (x0 : BitVec 5) (x1 : BitVec 5) (x2 : BitVec 16) : Statement (.jalr x0 x1 x2) := fun _ => by
  rw [raw_5 (by simp (disch := omega) only [encode, fld, ext_lo, ext_hi, Nat.reduceSub, ext_self]; try rfl)]
  simp (disch := omega) only [encode, fld, ext_lo, ext_hi, Nat.reduceSub, ext_self, isOne_bit1, Scope.ofCode_code, Rm.ofCode_code, Option.map_some]
theorem mopStepEnd (x0 : Nat) : Statement (.mopStepEnd x0) := fun h => Bool.noConfusion h
theorem issueArbitration (x0 : Nat) : Statement (.issueArbitration x0) := fun h => Bool.noConfusion h
theorem yieldExpiry (x0 : Nat) : Statement (.yieldExpiry x0) := fun h => Bool.noConfusion h
theorem wfeWake (x0 : Nat) : Statement (.wfeWake x0) := fun h => Bool.noConfusion h
theorem wfeTimeout (x0 : Nat) : Statement (.wfeTimeout x0) := fun h => Bool.noConfusion h
theorem vacquireGrant (x0 : Nat) : Statement (.vacquireGrant x0) := fun h => Bool.noConfusion h
theorem quadReservationTimeout (x0 : Nat) : Statement (.quadReservationTimeout x0) := fun h => Bool.noConfusion h
theorem ssbDrain (x0 : Nat) : Statement (.ssbDrain x0) := fun h => Bool.noConfusion h
theorem psfDrain (x0 : Nat) (x1 : Nat) : Statement (.psfDrain x0 x1) := fun h => Bool.noConfusion h
theorem cpfDrain (x0 : Nat) (x1 : Nat) : Statement (.cpfDrain x0 x1) := fun h => Bool.noConfusion h
theorem ownerLostTrap (x0 : Nat) : Statement (.ownerLostTrap x0) := fun h => Bool.noConfusion h
theorem l1Eviction (x0 : Nat) (x1 : Nat) : Statement (.l1Eviction x0 x1) := fun h => Bool.noConfusion h
theorem sliceEviction (x0 : Nat) : Statement (.sliceEviction x0) := fun h => Bool.noConfusion h
theorem controllerWriteIssue (x0 : Nat) : Statement (.controllerWriteIssue x0) := fun h => Bool.noConfusion h
theorem linkDelivery (x0 : Nat) : Statement (.linkDelivery x0) := fun h => Bool.noConfusion h
theorem rd (x0 : Nat) : Statement (.rd x0) := fun h => Bool.noConfusion h
theorem rdv (x0 : Nat) : Statement (.rdv x0) := fun h => Bool.noConfusion h
theorem reg (x0 : Nat) : Statement (.reg x0) := fun h => Bool.noConfusion h
theorem wrv (x0 : Nat) : Statement (.wrv x0) := fun h => Bool.noConfusion h
theorem atom (x0 : Nat) : Statement (.atom x0) := fun h => Bool.noConfusion h
theorem ereg (x0 : Nat) : Statement (.ereg x0) := fun h => Bool.noConfusion h
theorem ewr (x0 : Nat) (x1 : Nat) : Statement (.ewr x0 x1) := fun h => Bool.noConfusion h
theorem gnt (x0 : Nat) : Statement (.gnt x0) := fun h => Bool.noConfusion h
theorem xfer (x0 : Nat) : Statement (.xfer x0) := fun h => Bool.noConfusion h
theorem fwd (x0 : Nat) : Statement (.fwd x0) := fun h => Bool.noConfusion h
theorem nakl (x0 : Nat) : Statement (.nakl x0) := fun h => Bool.noConfusion h
theorem collect (x0 : Nat) : Statement (.collect x0) := fun h => Bool.noConfusion h
theorem claim (x0 : Nat) : Statement (.claim x0) := fun h => Bool.noConfusion h
theorem wb (x0 : Nat) : Statement (.wb x0) := fun h => Bool.noConfusion h
theorem xack (x0 : Nat) : Statement (.xack x0) := fun h => Bool.noConfusion h
theorem fack (x0 : Nat) : Statement (.fack x0) := fun h => Bool.noConfusion h
theorem part (x0 : Nat) : Statement (.part x0) := fun h => Bool.noConfusion h
theorem claimr (x0 : Nat) : Statement (.claimr x0) := fun h => Bool.noConfusion h
theorem combineBufferEviction (x0 : Nat) : Statement (.combineBufferEviction x0) := fun h => Bool.noConfusion h
theorem copyEnd (x0 : Nat) (x1 : Nat) : Statement (.copyEnd x0 x1) := fun h => Bool.noConfusion h
theorem globalPauseEnd : Statement (.globalPauseEnd) := fun h => absurd h (by decide)
theorem riddleOffer (x0 : Nat) (x1 : Nat) : Statement (.riddleOffer x0 x1) := fun h => Bool.noConfusion h
theorem riddleRunEnd (x0 : Nat) (x1 : Nat) : Statement (.riddleRunEnd x0 x1) := fun h => Bool.noConfusion h
theorem probeEnd (x0 : Nat) (x1 : Nat) : Statement (.probeEnd x0 x1) := fun h => Bool.noConfusion h
theorem annealOperationStart (x0 : Nat) : Statement (.annealOperationStart x0) := fun h => Bool.noConfusion h
theorem mergePublication (x0 : Nat) : Statement (.mergePublication x0) := fun h => Bool.noConfusion h
theorem horizonDiscard (x0 : Nat) : Statement (.horizonDiscard x0) := fun h => Bool.noConfusion h
theorem mergeAbandon (x0 : Nat) : Statement (.mergeAbandon x0) := fun h => Bool.noConfusion h
theorem crucibleSlotTick (x0 : Nat) : Statement (.crucibleSlotTick x0) := fun h => Bool.noConfusion h
theorem skipCurAdjust (x0 : Nat) (x1 : BitVec 8) : Statement (.skipCurAdjust x0 x1) := fun h => Bool.noConfusion h
theorem startCounterReread (x0 : Nat) (x1 : Nat) : Statement (.startCounterReread x0 x1) := fun h => Bool.noConfusion h
theorem startCounterPollTimeout (x0 : Nat) (x1 : Nat) : Statement (.startCounterPollTimeout x0 x1) := fun h => Bool.noConfusion h
theorem taskPlacement (x0 : Nat) : Statement (.taskPlacement x0) := fun h => Bool.noConfusion h
theorem hartStart (x0 : Nat) : Statement (.hartStart x0) := fun h => Bool.noConfusion h
theorem hartStop (x0 : Nat) : Statement (.hartStop x0) := fun h => Bool.noConfusion h
theorem coreSaveBegin (x0 : Nat) (x1 : Nat) : Statement (.coreSaveBegin x0 x1) := fun h => Bool.noConfusion h
theorem coreSaveComplete (x0 : Nat) (x1 : Nat) : Statement (.coreSaveComplete x0 x1) := fun h => Bool.noConfusion h
theorem restoreComplete (x0 : Nat) : Statement (.restoreComplete x0) := fun h => Bool.noConfusion h
theorem taskEnd (x0 : Nat) : Statement (.taskEnd x0) := fun h => Bool.noConfusion h
theorem pageFaultResolved (x0 : Nat) (x1 : Bool) : Statement (.pageFaultResolved x0 x1) := fun h => Bool.noConfusion h
theorem submit (x0 : Nat) (x1 : Nat) : Statement (.submit x0 x1) := fun h => Bool.noConfusion h
theorem faultpop (x0 : Nat) : Statement (.faultpop x0) := fun h => Bool.noConfusion h
theorem resolve (x0 : Nat) (x1 : BitVec 64) : Statement (.resolve x0 x1) := fun h => Bool.noConfusion h
theorem postpop : Statement (.postpop) := fun h => absurd h (by decide)
theorem answer (x0 : BitVec 128) : Statement (.answer x0) := fun h => Bool.noConfusion h
theorem errpop : Statement (.errpop) := fun h => absurd h (by decide)
theorem verdict (x0 : BitVec 128) : Statement (.verdict x0) := fun h => Bool.noConfusion h
theorem eventpop : Statement (.eventpop) := fun h => absurd h (by decide)
theorem registerWrite (x0 : Nat) (x1 : Nat) (x2 : BitVec 64) : Statement (.registerWrite x0 x1 x2) := fun h => Bool.noConfusion h
theorem hostWrite (x0 : Nat) (x1 : Nat) (x2 : BitVec 512) : Statement (.hostWrite x0 x1 x2) := fun h => Bool.noConfusion h
theorem hostRead (x0 : Nat) (x1 : Nat) : Statement (.hostRead x0 x1) := fun h => Bool.noConfusion h
theorem saveAreaAccess (x0 : Nat) (x1 : Option (BitVec 64)) : Statement (.saveAreaAccess x0 x1) := fun h => Bool.noConfusion h
theorem partdef (x0 : Nat) : Statement (.partdef x0) := fun h => Bool.noConfusion h
theorem ptroot (x0 : Nat) : Statement (.ptroot x0) := fun h => Bool.noConfusion h
theorem vmap (x0 : Nat) : Statement (.vmap x0) := fun h => Bool.noConfusion h
theorem shoot (x0 : Nat) : Statement (.shoot x0) := fun h => Bool.noConfusion h
theorem slottab (x0 : Nat) : Statement (.slottab x0) := fun h => Bool.noConfusion h
theorem mode (x0 : Nat) : Statement (.mode x0) := fun h => Bool.noConfusion h
theorem savearea (x0 : Nat) : Statement (.savearea x0) := fun h => Bool.noConfusion h
theorem saveopen (x0 : Nat) : Statement (.saveopen x0) := fun h => Bool.noConfusion h
theorem guardtab (x0 : Nat) : Statement (.guardtab x0) := fun h => Bool.noConfusion h
theorem kex (x0 : Nat) : Statement (.kex x0) := fun h => Bool.noConfusion h
theorem key (x0 : Nat) : Statement (.key x0) := fun h => Bool.noConfusion h
theorem winbind (x0 : Nat) : Statement (.winbind x0) := fun h => Bool.noConfusion h
theorem task (x0 : Nat) : Statement (.task x0) := fun h => Bool.noConfusion h
theorem clearlost (x0 : Nat) : Statement (.clearlost x0) := fun h => Bool.noConfusion h
theorem race (x0 : Nat) : Statement (.race x0) := fun h => Bool.noConfusion h
theorem peer (x0 : Nat) : Statement (.peer x0) := fun h => Bool.noConfusion h
theorem errorDetected (x0 : BitVec 256) (x1 : Tested) : Statement (.errorDetected x0 x1) := fun h => Bool.noConfusion h
theorem selfTestComplete (x0 : BitVec 256) (x1 : Bool) (x2 : Option Nat) : Statement (.selfTestComplete x0 x1 x2) := fun h => Bool.noConfusion h
theorem flitReplay (x0 : Nat) : Statement (.flitReplay x0) := fun h => Bool.noConfusion h
theorem remoteAccessTimeout (x0 : Nat) : Statement (.remoteAccessTimeout x0) := fun h => Bool.noConfusion h
theorem reset (x0 : Nat) : Statement (.reset x0) := fun h => Bool.noConfusion h
theorem bootWatchdogExpiry (x0 : Nat) : Statement (.bootWatchdogExpiry x0) := fun h => Bool.noConfusion h
theorem illegalWord (x0 : BitVec 32) : Statement (.illegalWord x0) := fun h => Bool.noConfusion h
theorem fetchFault : Statement (.fetchFault) := fun h => absurd h (by decide)
theorem engineWrite (x0 : Nat) (x1 : Nat) : Statement (.engineWrite x0 x1) := fun h => Bool.noConfusion h
theorem remoteRequest (x0 : Nat) (x1 : Nat) (x2 : RemoteOp) : Statement (.remoteRequest x0 x1 x2) := fun h => Bool.noConfusion h
theorem linkDown (x0 : Nat) : Statement (.linkDown x0) := fun h => Bool.noConfusion h
theorem linkRetrainComplete (x0 : Nat) : Statement (.linkRetrainComplete x0) := fun h => Bool.noConfusion h
theorem malformedCommand (x0 : Nat) : Statement (.malformedCommand x0) := fun h => Bool.noConfusion h

end Sys2Proof.Laws.OwnWord
end

