-- ==== Sys2Proof/Tests/Slice0.lean ====
section
/-! SUPPORT. Tests: decoded words, ill-formed terms, a witness for the hypotheses of each statement, and single steps against
results worked out by hand. -/
namespace Sys2Proof.Tests
set_option Elab.async false
open Sys2Proof.Machine

/-! ### A small machine: one running hart of task 1 on core 0, with one quad, a handler at 0x1000 and its scratchpad. -/

/-- The task's descriptor names a handler and allows windows of 16 entries (R108: TVEC is bytes 16 to 23, WIN bytes 32 and 33). -/
def desc : BitVec 512 := BitVec.ofNat 512 (0x1000 * 2 ^ 128 + 16 * 2 ^ 256)
def hart : Hart := { Hart.empty 0 with
  status := .running, quads := { count := 1, first := 0 }
  vr := { vtype := 0x10, vl := 4, cbits := 8, quads := 1, pending := false }
  tr := { (Hart.empty 0).tr with tvec := 0x1000 }
  mgrant := 0x10, tk := { (Hart.empty 0).tk with task := 1, count := 1 } }
def place : Place := {
  task := 1, core := 0, tiles := 3, slots := 3, tile := [], side := [], pair := [], slot := [], shdr := [], claims := [(0, 0), (1, 0), (2, 0)]
  badRows := [], badSlots := [], spad := [(0, 2 ^ 21)], reserve := 0 }
def task : Task := { loadTask with entry := { loadTask.entry with desc := desc } }
def base : State := { State.reset with
  hart := hart, places := [place], sys := { State.reset.sys with parts := [loadPart], tasks := [task], nextTask := 2 } }
/-- The small machine with its hart changed. -/
def on (f : Hart → Hart) : State := { base with hart := f base.hart }
/-- With x registers. -/
def xs (l : List (Reg × Word)) : State := l.foldl (fun s p => s.set p.1 p.2) base
/-- A next state. -/
noncomputable def isNext (o : Out) : Bool := match o with | .next _ => true | _ => false
/-- A next state of which a check holds. -/
noncomputable def holds (o : Out) (p : State → Bool) : Bool := match o with | .next t => p t | _ => false

/-! ### Decoding: words written out from the encodings of 03 to 07 and 24 -/

theorem test_decode_scalar : decodeWord 0x18A63800#32 = some (.add 5 6 7) ∧
    decodeWord 0x48A63850#32 = some (.amoAdd 5 6 7 true .dev false false) ∧
    decodeWord 0x51073000#32 = some (.fork 8 7 6) ∧ decodeWord 0x51880001#32 = some (.join 12 8 0) := by decide +kernel

theorem test_decode_control : decodeWord 0x04000180#32 = some .halt ∧ decodeWord 0x04000005#32 = some (.trap 5) ∧
    decodeWord 0x040003C8#32 = some (.fenceAcq .dev true) ∧ decodeWord 0x04000444#32 = some (.fenceRel .dev true) := by decide +kernel

theorem test_decode_vector : decodeWord 0xA482400C#32 = some (.vstrip 4 2 8 0) ∧
    decodeWord 0xA9025020#32 = some (.vwiden 8 2 10 0 false false) ∧
    decodeWord 0x982228C4#32 = some (.vcmpLtVx 1 2 5 0 true false) := by decide +kernel

theorem test_decode_vector_memory : decodeWord 0xAC8A0000#32 = some (.vld 4 10 0 false false) ∧
    decodeWord 0xAC8A5802#32 = some (.vlds 4 10 11 0 false false) ∧ decodeWord 0xB4CA1020#32 = some (.vldx 6 10 2 0 false 1 false) ∧
    decodeWord 0xB4CA1004#32 = some (.vstxO 6 10 2 0 false 0 false) ∧ decodeWord 0xAC8A0006#32 = some (.vldb 4 10 0 false false) ∧
    decodeWord 0xAC8A0106#32 = none := by decide +kernel

theorem test_decode_vector_sync : decodeWord 0xB8CA1302#32 = some (.vscc 6 10 2 3 false) ∧
    decodeWord 0xB800040C#32 = some (.winMerge .dev) ∧ decodeWord 0xB80A5A10#32 = some (.crDecl 0 0 10 11) ∧
    decodeWord 0xB8CA100E#32 = some (.vscadd 6 10 2 0 false 0) := by decide +kernel

theorem test_decode_matrix : decodeWord 0xCC00B142#32 = some (.mldP 0 11 10) ∧ decodeWord 0xCD00D580#32 = some (.mst 1 13 12) ∧
    decodeWord 0xC5106006#32 = some (.mop 1 4 6 true true false) ∧ decodeWord 0xC91C0500#32 = some (.msliceWr 1 7 8 false) ∧
    decodeWord 0xC81C0880#32 = some (.msliceRdExp 0 7 4 false) := by decide +kernel

theorem test_decode_streams : decodeWord 0x5C2A0000#32 = some (.zbind 1 10) ∧ decodeWord 0x5C810001#32 = some (.zrd 4 1) := by
  decide +kernel

/-- The major opcodes that no table of 24 gives a word (R80). -/
theorem test_decode_refuses : decodeWord 0#32 = none ∧ decodeWord 0x6C000000#32 = none ∧ decodeWord 0xD0000000#32 = none ∧
    decodeWord 0xFFFFFFFF#32 = none := by decide +kernel


/-- Words of further families: the bits that 24's tables fix, with d = 5, a = 6, b = 7 where the row has them. -/
theorem test_decode_families : ∀ p ∈ ([
    (0x1CA60009#32, .addi 5 6 9), (0x2CA60082#32, .srai 5 6 2), (0x34A00009#32, .lui 5 9), (0x3CA63806#32, .remn 5 6 7),
    (0x40A6A009#32, .ldN32 5 6 9), (0x44A64009#32, .st16 5 6 9), (0x48A63F4B#32, .cas 5 6 7 true .clu true true),
    (0x4CA639D0#32, .fma 5 6 7 true .rdn), (0x08C7A009#32, .bGen 6 7 9), (0x14A60009#32, .jalr 5 6 9), (0x04A63A00#32, .wfe 5 6 7),
    (0x04A00A84#32, .sysget 5 1 4), (0x50A60003#32, .vacquire 5 6), (0x54A601C0#32, .cpMc 5 6 true true),
    (0x58A63802#32, .barWait 5 6 7), (0x60A63801#32, .plTerm 5 6 7), (0x64A63802#32, .tkFuse 5 6 7), (0x68A63802#32, .pyApp 5 6 7),
    (0x80A63802#32, .vsett 5 6 7)] : List (IWord × Instr)), decodeWord p.1 = some p.2 := by decide +kernel

theorem test_decode_vector_families : ∀ p ∈ ([
    (0x84A63B8B#32, .vmaccVv 5 6 7 3 true true), (0x88A63BA3#32, .vssubVx 5 6 7 3 true true), (0x8CA64B9B#32, .vsraVi 5 6 9 3 true true),
    (0x90A63B87#32, .vfmaVv 5 6 7 3 true true), (0x94A63B89#32, .vfmsVx 5 6 7 3 true true), (0xA0A63B89#32, .vrgather 5 6 7 3 true true),
    (0xA8A63BC1#32, .vnarrow 5 6 7 3 true false true), (0xB0A60381#32, .vst 5 6 3 true true), (0xB8063B06#32, .vunlock 6 7 3),
    (0xC0044200#32, .oClaim 1 4), (0xC1187512#32, .mfmt 1 6 7 1 1), (0x9F86000C#32, .kpopc 28 6)] : List (IWord × Instr)),
    decodeWord p.1 = some p.2 := by decide +kernel

/-! ### Well-formedness: one ill-formed term for each check of each instruction, refused -/

theorem test_ill_formed_1 : ∀ i ∈ ([
    .cpNd 0 0 false true, .cpMc 0 0 false true, .zbind 8 0, .zrd 0 8, .zpeek 0 8,
    .zsave 8 0, .zrest 8 0, .pyLdv 0 0 1, .vaddVx 0 0 28 0 false false, .vsubVx 0 0 28 0 false false,
    .vrsubVx 0 0 28 0 false false, .vmulVx 0 0 28 0 false false, .vmulhVx 0 0 28 0 false false, .vmaccVx 0 0 28 0 false false, .vminVx 0 0 28 0 false false,
    .vmaxVx 0 0 28 0 false false, .vandVx 0 0 28 0 false false, .vorVx 0 0 28 0 false false, .vxorVx 0 0 28 0 false false, .vsllVx 0 0 28 0 false false,
    .vsrlVx 0 0 28 0 false false, .vsraVx 0 0 28 0 false false, .vadcVx 0 0 28 0 false, .vsbcVx 0 0 28 0 false, .vsaddVx 0 0 28 0 false false,
    .vssubVx 0 0 28 0 false false, .vfaddVx 0 0 28 0 false false, .vfsubVx 0 0 28 0 false false, .vfmulVx 0 0 28 0 false false, .vfmaVx 0 0 28 0 false false,
    .vfmsVx 0 0 28 0 false false, .vfdivVx 0 0 28 0 false false, .vfminVx 0 0 28 0 false false, .vfmaxVx 0 0 28 0 false false, .vcmpEqVv 8 0 0 0 false false,
    .vcmpNeVv 8 0 0 0 false false, .vcmpLtVv 8 0 0 0 false false, .vcmpLeVv 8 0 0 0 false false, .vcmpGtVv 8 0 0 0 false false, .vcmpGeVv 8 0 0 0 false false,
    .vfcmpEqVv 8 0 0 0 false false, .vfcmpNeVv 8 0 0 0 false false, .vfcmpLtVv 8 0 0 0 false false, .vfcmpLeVv 8 0 0 0 false false, .vcmpEqVx 8 0 0 0 false false,
    .vcmpEqVx 0 0 28 0 false false, .vcmpNeVx 8 0 0 0 false false, .vcmpNeVx 0 0 28 0 false false, .vcmpLtVx 8 0 0 0 false false, .vcmpLtVx 0 0 28 0 false false,
    .vcmpLeVx 8 0 0 0 false false, .vcmpLeVx 0 0 28 0 false false, .vcmpGtVx 8 0 0 0 false false, .vcmpGtVx 0 0 28 0 false false, .vcmpGeVx 8 0 0 0 false false,
    .vcmpGeVx 0 0 28 0 false false, .vfcmpEqVx 8 0 0 0 false false, .vfcmpEqVx 0 0 28 0 false false, .vfcmpNeVx 8 0 0 0 false false, .vfcmpNeVx 0 0 28 0 false false] : List Instr),
    i.wf = false := by decide +kernel

theorem test_ill_formed_2 : ∀ i ∈ ([
    .vfcmpLtVx 8 0 0 0 false false, .vfcmpLtVx 0 0 28 0 false false, .vfcmpLeVx 8 0 0 0 false false, .vfcmpLeVx 0 0 28 0 false false, .kand 8 0 0,
    .kand 0 8 0, .kand 0 0 8, .kor 8 0 0, .kor 0 8 0, .kor 0 0 8,
    .kxor 8 0 0, .kxor 0 8 0, .kxor 0 0 8, .knot 8 0, .knot 0 8,
    .kshl1 8 0, .kshl1 0 8, .kshr1 8 0, .kshr1 0 8, .kpopc 27 0,
    .kpopc 28 8, .kfirst 27 0, .kfirst 28 8, .kmv 8 0, .kmv 0 8,
    .vbcast 0 28 0 false false, .vslideup 0 0 28 0 false false, .vslidedn 0 0 28 0 false false, .vredSum 27 0 0 0 false false, .vredSum 28 0 28 0 false false,
    .vredOsum 27 0 0 0 false false, .vredOsum 28 0 28 0 false false, .vredMax 27 0 0 0 false false, .vredMax 28 0 28 0 false false, .vredMin 27 0 0 0 false false,
    .vredMin 28 0 28 0 false false, .vredAnd 27 0 0 0 false false, .vredAnd 28 0 28 0 false false, .vredOr 27 0 0 0 false false, .vredOr 28 0 28 0 false false,
    .vstrip 0 0 4 0, .vcvt 0 0 13 0 false false false, .vwiden 0 0 13 0 false false, .vnarrow 0 0 13 0 false false false, .vldx 0 0 0 0 false 3 false,
    .vldc 0 0 0 0 false 3 false, .vstxO 0 0 0 0 false 3 false, .vstxU 0 0 0 0 false 3 false, .vstc 0 0 0 0 false 3 false, .vscc 0 0 0 0 false,
    .vlock 8 0 0 0, .vscadd 0 0 0 0 false 3, .vmvS 0 28 false, .vext 27 0 0 false, .vext 28 0 28 false,
    .qput 23 0, .qput 28 0, .qget 0 27, .oClaim 63 1, .oRelease 63 1] : List Instr),
    i.wf = false := by decide +kernel

theorem test_ill_formed_3 : ∀ i ∈ ([
    .mfmt 0 20 0 0 0, .mfmt 0 0 20 0 0, .mop 0 1 0 false false false, .mldP 1 0 0] : List Instr),
    i.wf = false := by decide +kernel

/-! ### Witnesses: for each statement with hypotheses, states and operands that meet them, clause by clause -/

theorem witness_DecodeEncode : (Instr.add 5 6 7).isWord = true ∧ (Instr.add 5 6 7).wf = true ∧
    (Instr.vaddVx 31 31 27 7 true true).isWord = true ∧ (Instr.vaddVx 31 31 27 7 true true).wf = true := by decide +kernel

theorem witness_DecodeEncode_others : (∃ w i, decodeWord w = some i) ∧
    (fld 0#32 26 6).toNat = 0 ∧ (fld 0x6C000000#32 26 6).toNat = 27 ∧ (fld 0xD0000000#32 26 6).toNat = 52 :=
  ⟨⟨0x18A63800#32, .add 5 6 7, by decide +kernel⟩, by decide +kernel⟩

/-- A NaN, an infinity, an argument of 128 and one below. -/
theorem witness_ExponentialTable : (fp32.decode 0x7FC00000).isNan = true ∧ fp32.decode 0xFF800000 = .inf true ∧
    fp32.decode 0x43000000 = .fin false (2 ^ 23) (-16) ∧ fp32.decode 0x3F800000 = .fin false (2 ^ 23) (-23) := by decide +kernel

theorem witness_AluResults : fld 0x2CA600C2#32 26 6 = 11#6 ∧ fld 0x2CA600C2#32 6 2 = 3#2 ∧ fld 0x2CA60102#32 26 6 = 11#6 ∧
    fld 0x2CA60102#32 8 8 ≠ 0#8 := by decide +kernel

/-- A hart whose program is nowhere mapped; and one whose program is one word. -/
theorem witness_IllegalWordAndFetchFault : typeIllegalWord 0#32 = false ∧ typeIllegalWord 0xAC8A0106#32 = true ∧ (Instr.vldb 4 10 0 false false).wf = true ∧ (Instr.vstb 4 10 0 true true).wf = true ∧
    (Instr.vwiden 8 2 10 0 false false).wf = true ∧ base.hart.quads.count ≠ 0 ∧
    ∃ c t, base.fetch = (.fault c, t) :=
  ⟨by decide +kernel, by decide +kernel, by decide +kernel, by decide +kernel, by decide +kernel, by decide +kernel, .page, base.fetch.2, Prod.ext (by decide +kernel) rfl⟩

/-- The machine with one word where its hart fetches. -/
noncomputable def loaded (w : Nat) : State := State.reset.withFetchWord 32 w

theorem witness_StepRunsDecoded : ∀ p ∈ [(0x18A63800, some (Instr.add 5 6 7)), (0, none)],
    let s := loaded p.1
    let u := s.taking 0 []
    s.sys.boot.stopped = false ∧ s.env.inputs = [] ∧ s.env.opps = [0] ∧ u.hart.status = .running ∧ (u.ownerLostDue u.hart).isSome = false ∧
    u.fetch.1 = .word (BitVec.ofNat 32 p.1) ∧ decodeWord (BitVec.ofNat 32 p.1) = p.2 := by
  decide +kernel

/-- The home of the line where the loaded program stands is locked. -/
noncomputable def lockedPage : State := { loaded 0x18A63800 with
  coh := { (loaded 0).coh with homes := [{ HomeLine.fresh (lineOf (dramKey loadPage)) with locked := true }] } }

theorem witness_StepRunsDecoded_others : ∀ p ∈ [({ base with env := { base.env with opps := [0] } }, Fetched.fault .page), (lockedPage, .wait)],
    let s := p.1
    let u := s.taking 0 []
    s.sys.boot.stopped = false ∧ s.env.inputs = [] ∧ s.env.opps = [0] ∧ u.hart.status = .running ∧ (u.ownerLostDue u.hart).isSome = false ∧
    u.fetch.1 = p.2 := by decide +kernel

/-- `vadd.vv v1, v2, v3` in the vector queue. -/
def queued : VEntry := { word := 0x84221800#32, pc := 0, xa := 0, xb := 0, xc := 0 }
def withQueue : State := on fun h => { h with vs := { h.vs with vq := [queued] } }

theorem witness_StepRunsOthers : (let s := { withQueue with env := { base.env with turn := 1 } }
    let t := { tick s with env := { (tick s).env with turn := s.env.turn + 1 } }
    s.sys.boot.stopped = false ∧ s.env.inputs = [] ∧ s.env.opps = [] ∧ s.env.turn % 5 = 1 ∧ t.turnOf t.vectorReady = some 0 ∧
    (t.turnTo 0).hart.vs.vq = [queued] ∧ decodeWord queued.word = some (.vaddVv 1 2 3 0 false false)) ∧
    (Instr.wfeWake 0).isWord = false ∧ (Instr.issueArbitration 0).isWord = false ∧ (Instr.add 1 2 3).isWord = true ∧
    ((on fun h => { h with status := .stopped }).taking 0 []).hart.status = .stopped ∧ ∃ s : State, s.sys.boot.stopped = true :=
  ⟨by decide +kernel, by decide, by decide, by decide, by decide +kernel,
    { base with sys := { base.sys with boot := { base.sys.boot with stopped := true } } }, rfl⟩

/-- The hart lost a store to OWNER_LOST. -/
def lostStore : State := on fun h => { h with lostStores := [(2 ^ 63, .ownerLost)] }
theorem witness_StepRunsOthers_lost : let u := lostStore.taking 0 []
    u.hart.status = .running ∧ (u.ownerLostDue u.hart).isSome = true := by decide +kernel

/-- The hart in its handler. -/
def handling (parked : Bool) : State := on fun h => { h with
  tr := { h.tr with tcause := BitVec.ofNat 64 (2 ^ 63 + if parked then 2 ^ 62 else 0) }, vs := { h.vs with trapped := some queued } }

theorem witness_TrapEntry : base.hart.inHandler = false ∧ unhandled (base.descOf base.hart) .syscall = false ∧
    (handling false).hart.inHandler = true ∧ unhandled 0 .syscall = true ∧ Cause.page.isPageFault = true ∧ Cause.syscall.isPageFault = false ∧
    base.partAt base.hart.tk.part = some loadPart ∧ loadPart.faults.length < 256 ∧ base.hart.debug = false ∧
    (on fun h => { h with debug := true }).hart.debug = true := by decide +kernel

theorem witness_EretReturns : (handling false).hart.inHandler = true ∧ (handling false).hart.parkedBit = false ∧
    (handling false).hart.tr.tpc.toNat % 4 = 0 ∧ (handling true).hart.parkedBit = true ∧ (handling true).hart.tr.tnpc.toNat % 4 = 0 ∧
    (handling true).hart.vs.trapped = some queued ∧ base.hart.inHandler = false ∧
    (on fun h => { h with tr := { h.tr with tcause := BitVec.ofNat 64 (2 ^ 63), tpc := 2 } }).hart.tr.tpc.toNat % 4 ≠ 0 := by decide +kernel

theorem witness_MulDivResults : (xs [(2, 1)]).get 2 ≠ 0 ∧ base.get 2 = 0 ∧ base.hart.fl.flags.getLsbD 8 = false ∧
    (on fun h => { h with fl := { h.fl with flags := 0x300 } }).hart.fl.flags.getLsbD 8 = true ∧
    (xs [(1, BitVec.intMin 64), (2, -1)]).get 1 = BitVec.intMin 64 ∧ (xs [(1, BitVec.intMin 64), (2, -1)]).get 2 = -1 ∧
    (on fun h => { h with fl := { h.fl with flags := 0x300 } }).hart.fl.flags.getLsbD 9 = true := by decide +kernel

theorem witness_EventRegisters : ([(3, ({ nx := true } : Ev))].any fun p => p.2.has 4) = true ∧ hart.fl.eix.get 4 = 0xFFFF#16 ∧
    (([] : List (Nat × Ev)).any fun p => p.2.has 4) = false ∧ (0x8#16).getLsbD (7 - 4) = true ∧ (0#16).getLsbD (7 - 4) = false := by
  decide +kernel

/-- A value of each kind in FP64. -/
theorem witness_FloatArithmetic : fp64.decode 0x7FF8000000000000 = .nan false ∧ fp64.decode 0x7FF0000000000001 = .nan true ∧
    fp64.decode 0x3FF0000000000000 = .fin false (2 ^ 52) (-52) ∧ fp64.decode 0xBFF0000000000000 = .fin true (2 ^ 52) (-52) ∧
    (fp64.decode 0).isZero = true ∧ fp64.decode 0x7FF0000000000000 = .inf false ∧ fp64.decode 0xFFF0000000000000 = .inf true ∧
    (fp64.decode 0x3FF0000000000000).isNan = false ∧ (FVal.inf true).neg = true := by decide +kernel

theorem witness_FpuResults : ({ nx := true } : Ev).trap 0 = none ∧ ({ nv := true } : Ev).trap 0xFF00 = some .fp := by decide +kernel

theorem witness_BranchesAndJumps : ((xs [(2, 8)]).get 2 + (0 : BitVec 16).signExtend 64).toNat % 4 = 0 ∧
    ((xs [(2, 2)]).get 2 + (0 : BitVec 16).signExtend 64).toNat % 4 ≠ 0 ∧ (base.jump 2).fetch.1 = .fault .misalign := by decide +kernel

theorem witness_ScalarFrame : ∀ i ∈ [Instr.add 1 2 3, .addi 1 2 3, .bEq 1 2 3, .jal 3, .div 1 2 3, .fadd 1 2 3 true .rne],
    isNext (exec i base) = true := by decide +kernel

/-- The start of the hart's own scratchpad. -/
def pad : Word := 0x8000000000000000
/-- x2 names the scratchpad. -/
def atPad : State := xs [(2, pad)]

theorem spadAt_base (n off : Nat) (h : off + n ≤ 2 ^ 21) (e : off % n = 0) (a : Word) (ha : a.toNat = 2 ^ 63 + off) :
    SpadAt atPad a n off := by
  refine ⟨ha, h, e, ?_, ?_, ?_, by decide⟩
  · show ([(0, 2 ^ 21)].any fun (b, l) => decide (b ≤ off) && decide (off + n ≤ b + l)) = true
    simp only [List.any_cons, List.any_nil, Bool.or_false, Bool.and_eq_true, decide_eq_true_eq]
    omega
  · simp [State.poisoned, State.deadAt, show atPad.coh.poison = [] from rfl, show atPad.coh.dead = [] from rfl,
      show atPad.coh.deadRows = [] from rfl]
  · simp [State.bankTest, State.rowTest, show atPad.sys.pending = [] from rfl]

theorem witness_LoadStoreResults : SpadAt atPad (atPad.get 2 + (0 : BitVec 13).signExtend 64) 8 0 ∧ atPad.hart.ssb = [] ∧
    ((xs [(2, 1)]).get 2 + (0 : BitVec 13).signExtend 64).toNat % 8 ≠ 0 ∧ (atPad.scalarLoad (2 ^ 63) 8).1 = .val 0 ∧
    (base.scalarLoad 0 8).1 = .fault .page ∧
    (({ atPad with hart := { atPad.hart with ssb := [{ loc := { kind := .bank, key := spadKey 0 0 }, va := 2 ^ 63, len := 1, data := 0 }] } } :
      State).scalarLoad (2 ^ 63) 8).1 = .wait .drain :=
  ⟨spadAt_base 8 0 (by decide) (by decide) _ (by decide +kernel), by decide +kernel, by decide +kernel, by decide +kernel, by decide +kernel,
    by decide +kernel⟩

def full : State := { atPad with hart := { atPad.hart with
  ssb := List.replicate 32 { loc := { kind := .bank, key := spadKey 0 0 }, va := 2 ^ 63, len := 1, data := 0 } } }

theorem witness_LoadStoreResults_stores : SpadAt atPad (atPad.get 2 + (0 : BitVec 13).signExtend 64) 8 0 ∧ atPad.hart.ssb.length < 32 ∧
    (atPad.scalarStore (2 ^ 63) 8 0).1 = .val 0 ∧ (base.scalarStore 0 8 0).1 = .fault .page ∧ (full.scalarStore (2 ^ 63) 8 0).1 = .wait .drain :=
  ⟨spadAt_base 8 0 (by decide) (by decide) _ (by decide +kernel), by decide +kernel, by decide +kernel, by decide +kernel, by decide +kernel⟩

/-- The page of address 0 with a leaf entry; `pa` counts from the partition's key. -/
def leaf (key flags : Nat) : Word := BitVec.ofNat 64 (2 ^ 48 * key + loadPage + flags)
noncomputable def mapped (key flags : Nat) : State := (loaded 0).putNat (dramKey loadL0) 8 (leaf key flags).toNat

/-- The home of the table entry of address 0 is locked. -/
noncomputable def lockedTable : State := { mapped 1 0x13 with
  coh := { base.coh with homes := [{ HomeLine.fresh (lineOf (dramKey loadL0)) with locked := true }] } }

theorem witness_AddressChecks : base.hart.ssb = [] ∧ base.hart.atomReply = none ∧ base.hart.vs.vq = [] ∧
    (localTarget 0 (2 ^ 63 + 2 ^ 23) = none ∧ (2 ^ 63 + 2 ^ 23) % 8 = 0) ∧
    (localTarget 0 (2 ^ 63 + 2 ^ 61 + 2 ^ 21) = some (1, 0) ∧ base.spadOwned 1 1 0 8 = false) ∧
    base.leafFor 0 0 0 0 = .error (some .page) ∧ lockedTable.leafFor 0 0 0 0 = .error none ∧
    ((mapped 1 0x13).leafFor 0 0 0 0 = .ok (leaf 1 0x13, 12) ∧ (leaf 1 0x13).getLsbD 2 = false ∧ (leaf 1 0x13).getLsbD 3 = false) ∧
    ((mapped 3 0x1F).leafFor 0 0 0 0 = .ok (leaf 3 0x1F, 12) ∧ (leaf 3 0x1F).getLsbD 2 = true ∧ (leaf 3 0x1F).getLsbD 8 = false ∧
      (mapped 3 0x1F).owns 0 (ptePa (leaf 3 0x1F) / 2 ^ 12 * 2 ^ 12 + 0 % 2 ^ 12) ((leaf 3 0x1F).getLsbD 7) = false) ∧
    (mapped 1 0x10F).leafFor 0 0 0 0 = .ok (leaf 1 0x10F, 12) ∧ (leaf 1 0x10F).getLsbD 3 = true ∧ (leaf 1 0x10F).getLsbD 8 = true ∧
      (leaf 1 0x10F).getLsbD 9 = false := by decide +kernel

theorem witness_StoreThenLoad : SpadAt atPad (atPad.get 2 + (0 : BitVec 13).signExtend 64) 8 0 ∧
    Memory.wf full.mem = true ∧ full.hartAt 0 = some full.hart ∧ full.hart.ssb ≠ [] ∧ full.bankTest (spadKey 0 0) = false ∧ full.deadAt (spadKey 0 0) 1 = false ∧
    ({ full with coh := { full.coh with deadRows := [(2, 0, 0)] } } : State).deadAt (spadKey 0 0) 1 = true :=
  ⟨spadAt_base 8 0 (by decide) (by decide) _ (by decide +kernel), by decide +kernel, by decide +kernel, by decide +kernel, by decide +kernel,
    by decide +kernel, by decide +kernel⟩

theorem witness_LoadStoreFrame : isNext (exec (.ld64 1 2 0) atPad) = true ∧ isNext (exec (.st64 1 2 0) atPad) = true ∧
    atPad.coh.ranges = [] ∧ atPad.coh.wq = [] := by decide +kernel

theorem witness_AtomicResults : Memory.wf atPad.mem = true ∧ atPad.hart.ssb = [] ∧ atPad.hart.atomReply = none ∧ atPad.hart.vs.vq = [] ∧
    SpadAt atPad (atPad.get 2) 8 0 ∧ ((xs [(2, 1)]).get 2).toNat % 8 ≠ 0 :=
  ⟨by decide +kernel, by decide +kernel, by decide +kernel, by decide +kernel, spadAt_base 8 0 (by decide) (by decide) _ (by decide +kernel),
    by decide +kernel⟩

noncomputable def isOk {α ε : Type} : Except ε α → Bool | .ok _ => true | .error _ => false

theorem witness_AtomicFrame : isNext (exec (.amoAdd 1 2 3 true .core true false) atPad) = true ∧ withQueue.hart.atomReply = none ∧
    withQueue.hart.vs.vq ≠ [] ∧ full.hart.vs.vq = [] ∧ full.hart.ssb ≠ [] ∧ isOk (atPad.release .dev false) = true ∧
    isOk (full.release .dev false) = false := by decide +kernel

def copyOf (state : CopyState) : Copy := {
  hart := 0, token := 0, core := 0, task := 1, part := 0, ctx := 0, desc := 0, guarded := false, final := false, barrier := none, done := 0
  version := 0, fault := none, state := state }
def copying : State := { base with eng := { base.eng with copies := [copyOf .running] } }

theorem settled_base (sc : Scope) (e : Bool) : Settled base sc e :=
  ⟨by decide, by decide, by decide +kernel, fun _ => by decide +kernel, fun _ => by decide +kernel, fun _ => by decide +kernel⟩

theorem witness_FenceResults : withQueue.hart.vs.vq ≠ [] ∧ full.hart.vs.vq = [] ∧ full.hart.ssb ≠ [] ∧
    (let h := { base.hart with cpf := Vector.replicate 4 [{ va := 0, bytes := [] }] }; h.fifosEmpty = false ∧ h.vs.vq = []) ∧
    (copying.hart.vs.vq = [] ∧ copying.hart.ssb = [] ∧ copying.hart.fifosEmpty = true ∧ copying.engineBusy copying.hart = true) ∧
    Settled base .dev true ∧ wideScope .dev = true ∧ wideScope .core = false ∧ 65536 < ((xs [(2, 65537)]).get 2).toNat :=
  ⟨by decide +kernel, by decide +kernel, by decide +kernel, by decide +kernel, by decide +kernel, settled_base _ _, rfl, rfl, by decide +kernel⟩

theorem witness_FenceResults_inv : let s := { lockedTable with hart := { lockedTable.hart with x := (xs [(3, 64)]).hart.x } }
    s.hart.vs.vq = [] ∧ 0 < (s.get 3).toNat ∧ (s.get 3).toNat ≤ 65536 ∧ LineAt.wait ∈ s.linesOf (s.get 2).toNat (s.get 3).toNat := by decide +kernel

theorem witness_FenceResults_range : let s := { mapped 1 0x13 with hart := { (mapped 1 0x13).hart with x := (xs [(3, 64)]).hart.x } }
    s.hart.vs.vq = [] ∧ 0 < (s.get 3).toNat ∧ LineAt.wait ∉ s.linesOf (s.get 2).toNat (s.get 3).toNat ∧
    (∀ t ∈ (s.coreAt s.hart.core).tlb, 12 ≤ t.logSize) ∧ (63 : Nat) < (s.get 3).toNat ∧
    s.leafFor s.hart.core s.hart.tk.part s.hart.tk.ctx 63 = .ok (leaf 1 0x13, 12) ∧ (leaf 1 0x13).getLsbD 8 = false := by decide +kernel

/-- Numbers at the ends of every clause: 7 + 5 bits name 0 to 4,095. -/
theorem witness_SystemRegisters : base.hart.vs.vq = [] ∧ (∀ n ∈ [0x000, 0x002, 0x003, 0x00F, 0x010, 0x011, 0x01F, 0x020, 0x025, 0x026, 0x027,
      0x028, 0x02D, 0x02E, 0x03F, 0x040, 0x045, 0x046, 0x04F, 0x050, 0x051, 0x054, 0x055, 0x05F, 0x060, 0x067, 0x068, 0x06F, 0x070, 0x071, 0x072,
      0x073, 0xFFF], (BitVec.ofNat 5 (n / 128)).toNat * 128 + (BitVec.ofNat 7 n).toNat = n) ∧
    (∀ w ∈ [0, 2, 0xFF02], let v := BitVec.ofNat 64 w; v.toNat < 2 ^ 32 ∧ bitsOf v.toNat 7 2 = 0 ∧ v.toNat % 4 ≠ 3) ∧
    (2 ^ 32 ≤ (0x100000000 : Word).toNat ∧ bitsOf (4 : Word).toNat 7 2 ≠ 0 ∧ (3 : Word).toNat % 4 = 3) ∧
    (3 : Word).toNat < 4 ∧ 4 ≤ (4 : Word).toNat := by decide +kernel

def asleep (hit : Bool) : State := { base with
  hart := { base.hart with wait := some (.wfe 1) }, coh := { base.coh with monitors := [{ who := 0, line := 2 ^ 60, hit := hit }] } }

theorem witness_WfeResults : SpadAt atPad (atPad.get 2) 8 0 ∧ atPad.hart.ssb = [] ∧ (∀ e, atPad.hart.wait ≠ some (.wfe e)) ∧
    atPad.memNat (spadKey atPad.hart.core 0) 8 = (atPad.get 3).toNat ∧ atPad.memNat (spadKey 0 0) 8 ≠ ((xs [(3, 1)]).get 3).toNat ∧
    ((xs [(2, 4)]).get 2).toNat % 8 ≠ 0 ∧
    (∀ hit, (asleep hit).hart.wait = some (.wfe 1) ∧
      (asleep hit).coh.monitors.find? (·.who == (asleep hit).hart.id) = some { who := 0, line := 2 ^ 60, hit := hit }) :=
  ⟨spadAt_base 8 0 (by decide) (by decide) _ (by decide +kernel), by decide +kernel, by rw [show atPad.hart.wait = none from rfl]; exact nofun, by decide +kernel, by decide +kernel,
    by decide +kernel, by decide +kernel⟩

def crowd (l : List Nat) : State := { base with others := l.map fun k => { hart with id := k } }

theorem witness_ForkResults : base.hart.vs.vq = [] ∧
    (∀ k, k < 8 → ∃ h ∈ (crowd [1, 2, 3, 4, 5, 6, 7]).hartsOn base.hart.core, h.slot = k) ∧
    (∀ h ∈ (crowd [1]).hartsOn base.hart.core, h.slot ≠ 2) ∧ (∀ j, j < 2 → ∃ h ∈ (crowd [1]).hartsOn base.hart.core, h.slot = j) ∧
    (∀ h ∈ (crowd [1, 2, 3, 4, 5, 6]).hartsOn base.hart.core, h.slot ≠ 7) := by decide +kernel

def child (j : Option Word) : Child := { slot := 1, qFirst := 1, qCount := 1, joined := j, halted := false }
def childG : Hart := { hart with id := 1, quads := ⟨1, 1⟩, tk := { hart.tk with isChild := true, parent := some 0 } }
def parentOf (j : Option Word) : State := { xs [(2, 1), (3, -1)] with
  hart := { (xs [(2, 1), (3, -1)]).hart with tk := { hart.tk with children := [child j] } }
  others := [childG] }
def childHart : State := { xs [(3, -1)] with
  hart := { (xs [(3, -1)]).hart with id := 1, tk := { hart.tk with isChild := true, parent := some 0 } }, others := [hart] }

/-- The parent of a child that has joined, with a word in its vector queue. -/
def busyParent : State := { parentOf (some 5) with hart := { (parentOf (some 5)).hart with vs := withQueue.hart.vs } }

def middle : State := { childHart with hart := { childHart.hart with tk := { childHart.hart.tk with children := [child none] } } }

theorem settled_child : Settled childHart .core true :=
  ⟨by decide, by decide, by decide +kernel, fun _ => by decide +kernel, fun _ => by decide +kernel, fun _ => by decide +kernel⟩

theorem witness_JoinAndHalt_child : ∀ b : Bool, let j : Option Word := if b then some 5 else none
    (parentOf j).get 2 ≠ -1 ∧ (parentOf j).hart.tk.children.find? (fun k => k.slot == ((parentOf j).get 2).toNat) = some (child j) ∧
    (child j).joined = j ∧ (child j).slot < 8 ∧ (child j).slot ≠ (parentOf j).hart.slot ∧
    (parentOf j).hartAt (8 * (parentOf j).hart.core + (child j).slot) = some childG ∧ 0 < (child j).qCount ∧ childG.quads = ⟨1, 1⟩ ∧
    (parentOf j).hart.quads = ⟨1, 0⟩ := by decide +kernel

theorem witness_JoinAndHalt : ((xs [(3, -1)]).get 3 = -1 ∧ (xs [(3, -1)]).hart.tk.isChild = false) ∧
    (base.get 2 ≠ -1 ∧ ∀ c ∈ base.hart.tk.children, c.slot ≠ (base.get 2).toNat) ∧
    (middle.get 3 = -1 ∧ middle.hart.tk.isChild = true ∧ middle.hart.tk.children ≠ []) ∧
    (childHart.get 3 = -1 ∧ childHart.hart.tk.isChild = true ∧ childHart.hart.tk.children = [] ∧ childHart.hart.tk.parent = some 0 ∧
      childHart.hart.id ≠ 0 ∧ childHart.hartAt 0 = some hart ∧ Settled childHart .core true) ∧
    (Settled base .dev true ∧ base.hart.tk.children = [] ∧ base.hart.tk.parent = none) ∧ withQueue.hart.vs.vq ≠ [] :=
  ⟨by decide +kernel, by decide +kernel, by decide +kernel,
    ⟨by decide +kernel, by decide +kernel, by decide +kernel, by decide +kernel, by decide +kernel, rfl, settled_child⟩,
    ⟨settled_base _ _, by decide +kernel, by decide +kernel⟩, by decide +kernel⟩

theorem settled_childHalt : Settled childHart .dev true :=
  ⟨by decide, by decide, by decide +kernel, fun _ => by decide +kernel, fun _ => by decide +kernel, fun _ => by decide +kernel⟩

/-- A hart that a fork created, and a parent of a live child and of a joined one. -/
theorem witness_JoinAndHalt_halts : (Settled childHart .dev true ∧ childHart.hart.tk.children = [] ∧ childHart.hart.tk.isChild = true ∧
      childHart.hart.tk.parent = some 0 ∧ 0 ≠ childHart.hart.id ∧ childHart.hartAt 0 = some hart) ∧
    ∀ b : Bool, let s := parentOf (if b then some 5 else none)
      Settled s .dev true ∧ s.hart.tk.parent = none ∧ (s.hart.tk.children.map (·.slot)).Nodup ∧
      (∀ c ∈ s.hart.tk.children, c.slot < 8 ∧ c.slot ≠ s.hart.slot) ∧ s.hartAt (8 * s.hart.core + 1) = some childG := by
  refine ⟨⟨settled_childHalt, by decide +kernel⟩, fun b => ⟨⟨?_, ?_, ?_, fun _ => ?_, fun _ => ?_, fun _ => ?_⟩, ?_⟩⟩
  all_goals cases b <;> decide +kernel

theorem witness_JoinAndHalt_queue : busyParent.hart.tk.children = [child (some 5)] ∧ busyParent.hart.vs.vq ≠ [] ∧ (busyParent.get 2).toNat = 1 := by
  decide +kernel

def bare : State := { xs [(2, 2)] with hart := { (xs [(2, 2)]).hart with quads := ⟨0, 0⟩ } }
def member : State := { xs [(2, 3)] with
  hart := { (xs [(2, 3)]).hart with tk := { hart.tk with gmem := 0x8003 } }
  sys := { base.sys with tasks := [{ task with groups := [{ num := 3, members := [0], phase := 0, arrived := [] }] }] } }

theorem settled_member : Settled member .dev false :=
  ⟨by decide, by decide, by decide +kernel, by decide, by decide, by decide +kernel⟩

theorem witness_QuadsAndGroups : ((base.hart.vs.vq = [] ∧ base.hart.quads.count ≠ 0) ∧ (bare.hart.vs.vq = [] ∧ bare.hart.quads.count = 0) ∧
    withQueue.hart.vs.vq ≠ [] ∧ (base.get 2).toNat ∉ [1, 2, 4, 8] ∧
    ((bare.get 2).toNat = 2 ∧ bare.hart.status = .running ∧ bare.hart.wait = none ∧ (bare.coreAt bare.hart.core).reserved = none ∧ bare.others = [] ∧
      blockIn (bare.pool 1 0) 2 = some ⟨2, 0⟩) ∧
    blockIn ({ bare with places := [{ place with task := 2, reserve := 0xFF }] }.pool 1 0) 2 = none ∧
    ∀ i, i < 4 → base.hart.tk.gmem.getLsbD (16 * i + 15) = false) ∧
    (inGroup member.hart.tk.gmem ((member.get 2).toNat % 256) = true ∧ member.hart.tk.arrived = none ∧ Settled member .dev false ∧
      ∃ t g, member.taskAt member.hart.tk.task = some t ∧ t.groups = [g] ∧ g.num = (member.get 2).toNat % 256 ∧
        ∀ m ∈ g.members, m = member.hart.tk.index) :=
  ⟨by decide +kernel, by decide +kernel, by decide +kernel, settled_member, _, _, rfl, rfl, by decide +kernel, by decide +kernel⟩

/-- A group of two, of whose members the other has not arrived; and the hart after it has. -/
def pairGroup (arrived : List Nat) : Group := { num := 3, members := [0, 1], phase := 0, arrived := arrived }
def grouped (arrived : List Nat) (h : Option (Nat × Nat)) : State := { member with
  hart := { member.hart with tk := { member.hart.tk with arrived := h } }
  sys := { base.sys with tasks := [{ task with groups := [pairGroup arrived] }] } }

theorem settled_grouped : Settled (grouped [] none) .dev false :=
  ⟨by decide, by decide, by decide +kernel, by decide, by decide, by decide +kernel⟩

theorem witness_QuadsAndGroups_waits : (inGroup (grouped [] none).hart.tk.gmem (((grouped [] none).get 2).toNat % 256) = true ∧
      (grouped [] none).hart.tk.arrived = none ∧ Settled (grouped [] none) .dev false ∧ ((grouped [] none).taskAt 1).map (fun t => (t.groups, t.halted)) = some ([pairGroup []], []) ∧
      (∃ m ∈ (pairGroup []).members, m ≠ (grouped [] none).hart.tk.index ∧ m ∉ (pairGroup []).arrived)) ∧
    (∀ p ∈ [0, 7], let s := grouped [0] (some (3, p))
      inGroup s.hart.tk.gmem ((s.get 2).toNat % 256) = true ∧ s.hart.tk.arrived = some ((pairGroup [0]).num, p) ∧
      (s.taskAt s.hart.tk.task).map (·.groups) = some [pairGroup [0]]) ∧ 7 ≠ (pairGroup [0]).phase :=
  ⟨⟨by decide +kernel, by decide +kernel, settled_grouped, by decide +kernel, ⟨1, by decide +kernel⟩⟩, by decide +kernel, by decide⟩

def kdesc : BitVec 512 := BitVec.ofNat 512 (1 * 2 ^ 192 + 1 * 2 ^ 224)
def crowdedPart : Partition := { loadPart with queues := Vector.replicate 16 (List.replicate 64 loadTask.entry) }

theorem witness_LaunchResults : withQueue.hart.vs.vq ≠ [] ∧ isOk (base.release .dev true) = true ∧ ((xs [(2, 32)]).get 2).toNat % 64 ≠ 0 ∧
    (let s := mapped 1 0x1F
     isOk (s.release .dev true) = true ∧ (s.loadRecord 64 8).1 = (.val 0, 64) ∧ recordOk 0 = true ∧
     isOk (launchLocs (fun y acc => s.scalarLoc s.hart y 8 acc) 0) = true ∧ (s.loadRecord (rKdesc 0) 8).1 = (.val 0, 0) ∧
     (s.enqueue 0 0 0 0 0 noLoc noLoc).1 = some 2) ∧
    recordOk 1 = false ∧ descriptorOk 0 = false ∧
    (base.partAt loadPart.id = some loadPart ∧ descriptorOk kdesc = true ∧ base.placeable loadPart (effHarts 0 kdesc) (effAff 0 kdesc) = true ∧
      kNgrp kdesc = 0 ∧ (loadPart.queues.get 0).length < 64) ∧ 64 ≤ (crowdedPart.queues.get 0).length := by decide +kernel

/-! #### The vector stream: the type states are s32, n32, s64, FP32 and an 8-bit blocked type; VL 4 -/

def typed (vt : Word) : State := on fun h => { h with vr := { h.vr with vtype := vt }, f := Vector.set h.f 0 0xF91C }
def withX (s : State) (l : List (Reg × Word)) : State := l.foldl (fun s p => s.set p.1 p.2) s
def ints : State := withX (typed 0x10) [(2, pad), (3, 4)]
def longs : State := withX (typed 0x18) [(2, pad)]
def floats : State := withX (typed 0x210) [(2, pad), (3, 4)]
def blocks : State := withX (typed 0x520) [(2, pad), (3, pad + 4096)]

theorem witness_NumberFunctions : (let sl := slotOf 0xF91C 0
      sl.v = true ∧ 1 ≤ sl.wm1 ∧ sl.e + sl.s.toNat ≤ sl.wm1 + 1 ∧ (slotOf 0 0).v = false) ∧
    blocks.hart.vt.cls = 5 ∧ floats.hart.vt.isFloat = true ∧ ints.hart.vt.isInt = true ∧ (fp16.decode 0).isZero = true ∧
    (fp16.decode 0x7E00).isNan = true := by decide +kernel

theorem witness_ReductionFunctions : floats.hart.vt.isFloat = true ∧ ([some (0, 5), none] : List Leaf).reduceOption = [(0, 5)] ∧
    ([none] : List Leaf).reduceOption = [] ∧ [some (0, 5), (none : Leaf)].length ≤ 2 ^ 1 ∧ (fp32.decode 0x7FC00000).isNan = true ∧
    (fp32.decode 5).isNan = false := by decide +kernel

/-- Every trap of R20 enabled. -/
def armed (s : State) : State := { s with hart := { s.hart with fl := { s.hart.fl with flags := 0xFF00 } } }

theorem spadElem_at (s : State) (a n : Nat) (hh : s.hart.core = 0) (hp : s.places = [place]) (ht : s.hart.tk.task = 1)
    (hd : s.hart.debug = false) (hc : s.coh = base.coh) (hq : s.sys.pending = []) (h63 : 2 ^ 63 ≤ a) (hl : localTarget 0 a = some (0, a % 2 ^ 21))
    (hn : a % 2 ^ 21 + n ≤ 2 ^ 21) (hm : a % n = 0) : SpadElem s a n := by
  refine ⟨h63, hm, hd, 0, a % 2 ^ 21, by rw [hh, hl], ?_, ?_⟩
  · have : s.placeAt 1 0 = some place := by unfold State.placeAt; rw [hp]; rfl
    unfold State.spadOwned; rw [ht, this]
    show ([(0, 2 ^ 21)].any fun (b, l) => decide (b ≤ a % 2 ^ 21) && decide (a % 2 ^ 21 + n ≤ b + l)) = true
    simp only [List.any_cons, List.any_nil, Bool.or_false, Bool.and_eq_true, decide_eq_true_eq]
    omega
  · have hr : s.coh.poison = [] ∧ s.coh.dead = [] ∧ s.coh.deadRows = [] := by rw [hc]; exact ⟨rfl, rfl, rfl⟩
    simp [State.poisoned, State.deadAt, State.bankTest, State.rowTest, hr.1, hr.2.1, hr.2.2, hq]

theorem witness_TypeSetting : base.hart.vs.vq = [] ∧ vsettAccepts base.hart 0x10 = some 8 ∧ vsettAccepts blocks.hart 0x520 = some 8 ∧
    bitsOf (0x520 : Word).toNat 10 8 = 5 ∧ (4 < bitsOf (0x50010 : Word).toNat 18 16) ∧ legalPair 5 4 = true ∧ legalPair 6 0 = false := by
  decide +kernel

theorem witness_VectorIntegerResults : Quiet (armed ints) 0 (fun e =>
      ({ io := decide (2 ^ 31 ≤ sextI ((armed ints).elem 2 e) 32 + sextI ((armed ints).elem 3 e) 32) } : Ev)) ∧ (∀ i ∈ [Instr.vaddVv 1 2 3 0 false false, .vaddVx 1 2 3 0 false false,
      .vaddVi 1 2 3 0 false false, .vaddVx 1 2 24 0 false false, .vssubVv 1 2 3 1 false false], TakesAtOnce (armed ints) i) ∧
    (ints.operand 3).isSome = true ∧ ints.operand 24 = none := by
  refine ⟨by unfold Quiet; decide +kernel, ?_, by decide +kernel, by decide +kernel⟩
  unfold TakesAtOnce; decide +kernel

theorem witness_CarryResults : ∀ i ∈ [Instr.vadcVv 1 2 3 1 false, .vadcVx 1 2 3 1 false, .vadcVi 1 2 3 1 false, .vsbcVv 1 2 3 1 false,
    .vsbcVx 1 2 24 1 false, .vsbcVi 1 2 3 1 false], TakesAtOnce ints i := by unfold TakesAtOnce; decide +kernel

theorem witness_VectorFloatResults :
    Quiet (armed floats) 0 (fun e => (fAdd fp32 .rne ((armed floats).elem 2 e) ((armed floats).elem 3 e)).2) ∧ ∀ i ∈ [Instr.vfaddVv 1 2 3 0 false false, .vfmaVx 1 2 3 0 false false,
    .vfsqrt 1 2 0 false false, .vfaddVx 1 2 24 0 false false], TakesAtOnce (armed floats) i := by
  refine ⟨by unfold Quiet; decide +kernel, ?_⟩
  unfold TakesAtOnce; decide +kernel

/-- v2 holds -infinity in element 0 and 2, v3 +infinity in element 2; every trap is enabled. -/
def trapping : State := { floats with hart := { floats.hart with
  fl := { floats.hart.fl with flags := 0xFF00 }, v := Vector.set (Vector.set floats.hart.v 2 (BitVec.ofNat 4096 (0xFF800000 * (1 + 2 ^ 64)))) 3
    (BitVec.ofNat 4096 (0x7F800000 * 2 ^ 64)) } }

theorem witness_VectorTraps : TakesAtOnce trapping (.vfaddVv 1 2 3 0 false false) ∧ trapping.hart.inHandler = false ∧
    unhandled (trapping.descOf trapping.hart) .fp = false ∧ 2 ∈ trapping.actives 0 ∧
    (let val := fun e => fAdd trapping.hart.vt.fmt trapping.hart.vt.rm (trapping.elem 2 e) (trapping.elem 3 e)
     (val 2).2.trap trapping.hart.fl.flags = some .fp ∧ ∀ e ∈ trapping.actives 0, e < 2 → (val e).2.trap trapping.hart.fl.flags = none) := by
  refine ⟨by unfold TakesAtOnce; decide +kernel, by decide +kernel, by decide +kernel, by decide +kernel, by decide +kernel⟩

/-- Enabled traps of the other forms: 2^31 - 1 plus 1 in s32, a compare with a NaN, a sum of -infinity and +infinity, a
conversion of the NaN and of infinity to a slot of E4M3. -/
def intTrap : State := { ints with hart := { ints.hart with
  fl := { ints.hart.fl with flags := 0xFF00 }, v := Vector.set ints.hart.v 2 (BitVec.ofNat 4096 (0x7FFFFFFF * 2 ^ 32)) } }
def nanTrap : State := { trapping with hart := { trapping.hart with v := Vector.set trapping.hart.v 2 (BitVec.ofNat 4096 (0x7FA00000 * 2 ^ 64)) } }

theorem witness_VectorTraps_forms : let s := intTrap
    let n := nanTrap
    let f := fp32
    (∀ i ∈ [Instr.vaddVi 1 2 1 0 false false, .vaddVx 1 2 24 0 false false], TakesAtOnce s i) ∧ Handles s .int ∧
    RaisesAt s 0 (fun e => let z := sextI (s.elem 2 e) 32 + 1; ({ io := decide (2 ^ 31 ≤ z) } : Ev)) 1 .int ∧
    (∀ i ∈ [Instr.vfcmpLtVv 1 2 3 0 false false, .vredSum 28 2 3 0 false false, .vredMax 28 2 3 0 false false,
      .vcvt 1 2 4 0 false false false, .vnarrow 1 2 16 0 false false false], TakesAtOnce n i) ∧ Handles n .fp ∧
    RaisesAt n 0 (fun e => (fLt f (n.elem 2 e) (n.elem 3 e)).2) 2 .fp ∧ (n.operand 3).isSome = true ∧ n.hart.vt.isFloat = true ∧
    (let v := sourceValue n.hart n.hart.vt (n.hart.group 2 n.hart.vt.g) (n.hart.headers 2 n.hart.vt.g n.hart.vt.per)
     RaisesAt n 0 (fun e => ((slotOf n.hart.fmtReg 0).encode n.hart.vt.rm ((v e).1.scale 32)).2.or (v e).2) 2 .fp ∧ RaisesAt n 0 (fun e => (convertElem n.hart.vt false (targetOf 4) (n.elem 2 e) (v e)).2) 2 .fp) ∧
    (redTree (fun x y => fAdd f .rne x y) 0 [some (2, n.elem 2 2)]).2.foldl (fun y e => y.or e.2) ({} : Ev) = { nv := true } := by
  unfold TakesAtOnce Handles RaisesAt; decide +kernel

def queuesFull (s : State) : State := { s with hart := { s.hart with q := Vector.replicate 8 (List.replicate 16 0) } }

theorem witness_MaskResults : (∀ i ∈ [Instr.vcmpEqVv 1 2 3 0 false false, .vcmpLtVx 1 2 3 0 false false, .kand 1 2 3, .kpopc 28 1, .kfirst 28 1],
      TakesAtOnce ints i) ∧ (∀ i ∈ [Instr.vfcmpLtVv 1 2 3 0 false false, .vfcmpEqVx 1 2 24 0 false false], TakesAtOnce (armed floats) i) ∧
    Quiet (armed floats) 0 (fun e => (fLt fp32 ((armed floats).elem 2 e) ((armed floats).elem 3 e)).2) ∧
    TakesAtOnce (queuesFull ints) (.kpopc 28 1) ∧ (ints.hart.queue 4).length < 16 ∧ 16 ≤ ((queuesFull ints).hart.queue 4).length ∧
    (∀ e, e < 4 → (ints.hart.kreg 1).getLsbD e = false) ∧ 4 ≤ ints.hart.vr.vl := by
  refine ⟨by unfold TakesAtOnce; decide +kernel, by unfold TakesAtOnce; decide +kernel, by unfold Quiet; decide +kernel, by unfold TakesAtOnce; decide +kernel,
    by decide +kernel, by decide +kernel, by decide +kernel, by decide +kernel⟩

theorem witness_MoveResults : ints.hart.vt.cls ≠ 5 ∧ (∀ i ∈ [Instr.vmv 1 2 0 false, .vmerge 1 2 3 1 false false, .vrgather 1 2 3 0 false false,
      .vexpand 1 2 0 false false, .vcompress 1 2 0 false false, .vpermblk 1 2 3 false false, .vbcast 1 3 0 false false, .vmvS 1 3 false,
      .vslideup 1 2 3 0 false false, .vslidedn 1 2 24 0 false false, .vext 28 2 24 false, .vext 28 2 3 false], TakesAtOnce ints i) ∧
    TakesAtOnce (queuesFull ints) (.vext 28 2 24 false) ∧ ((queuesFull ints).operand 24).isSome = true ∧ bare.hart.quads.count = 0 ∧
    (queuesFull ints).hart.queue (28 - 24) ≠ [] ∧ ints.hart.queue (28 - 24) = [] := by
  refine ⟨by decide +kernel, by unfold TakesAtOnce; decide +kernel, by unfold TakesAtOnce; decide +kernel, by decide +kernel, by decide +kernel,
    by decide +kernel, by decide +kernel⟩

/-- A slide amount that is not a multiple of 32, from a queue register. -/
def qBlocks : State := { blocks with hart := { blocks.hart with q := Vector.replicate 8 [33] } }

theorem witness_MoveResults_blocked : blocks.hart.vt.cls = 5 ∧ (∀ i ∈ [Instr.vmv 1 2 0 false, .vpermblk 1 2 3 false false,
      .vslideup 1 2 3 0 false false, .vslidedn 1 2 3 0 false false], TakesAtOnce blocks i) ∧ (blocks.operand 3).isSome = true ∧
    ((blocks.get 3).toNat % 32 = 0) ∧ TakesAtOnce qBlocks (.vslideup 1 2 24 0 false false) ∧ (qBlocks.operand 24).map (·.1.toNat % 32) = some 1 ∧
    Handles blocks .illegalType := by unfold TakesAtOnce Handles; decide +kernel

theorem witness_ReductionResults : QuietList (armed floats) (redTree (fun x y => fAdd fp32 .rne x y) 0 [some (0, 0), none]).2 ∧
    QuietList floats (stripRow (2 ^ 62) { m := 0, r := none, hi := 0, lo := 0 } 0x3F800000 [some (0, 0)]).evs ∧ ints.hart.vt.isInt = true ∧ ints.hart.vr.vl ≤ 4096 ∧ floats.hart.vt.isFloat = true ∧
    (∀ i ∈ [Instr.vredSum 28 2 3 0 false false, .vredAnd 28 2 3 0 false false], TakesAtOnce ints i) ∧
    (∀ i ∈ [Instr.vredSum 28 2 3 0 false false, .vredMax 28 2 3 0 false false], TakesAtOnce (armed floats) i) ∧
    TakesAtOnce (queuesFull ints) (.vredSum 28 2 3 0 false false) ∧
    (floats.hart.vs.vq = [] ∧ floats.hart.vr.quads ≤ 8 ∧ (1 : Reg).toNat % floats.hart.vt.g = 0 ∧
      typeBad floats floats.hart (encode (.vstrip 1 2 8 0)) 0 0 = none) := by
  refine ⟨by unfold QuietList; decide +kernel, by unfold QuietList; decide +kernel, by decide +kernel, by decide +kernel, by decide +kernel, by unfold TakesAtOnce; decide +kernel,
    by unfold TakesAtOnce; decide +kernel, by unfold TakesAtOnce; decide +kernel, by decide +kernel⟩

/-- Conversions from FP32 to s32, to FP64, to FP16 and to a blocked slot. -/
theorem witness_ConversionResults : floats.hart.vt.n ≤ 8 ∧ (∀ i, targetOf 10 ≠ .slot i) ∧ targetOf 16 = .slot 0 ∧
    (∀ i ∈ [Instr.vcvt 1 2 4 0 false false false, .vwiden 4 2 12 0 false false, .vnarrow 1 2 8 0 false false false, .vnarrow 1 2 16 0 false false false],
      TakesAtOnce (armed floats) i) ∧
    (let s := armed floats
     let v := sourceValue s.hart s.hart.vt (s.hart.group 2 s.hart.vt.g) (s.hart.headers 2 s.hart.vt.g s.hart.vt.per)
     Quiet s 0 (fun e => (convertElem s.hart.vt false (targetOf 4) (s.elem 2 e) (v e)).2) ∧
     Quiet s 0 fun e => ((slotOf s.hart.fmtReg 0).encode s.hart.vt.rm ((v e).1.scale 32)).2.or (v e).2) :=
  ⟨by decide +kernel, fun i h => by simp [targetOf] at h, rfl, by unfold TakesAtOnce; decide +kernel, by unfold Quiet; decide +kernel⟩

theorem spadElems (s : State) (f : Nat → Nat) (n : Nat) (l : List Nat) (hh : s.hart.core = 0) (hp : s.places = [place])
    (ht : s.hart.tk.task = 1) (hd : s.hart.debug = false) (hc : s.coh = base.coh) (hq : s.sys.pending = [])
    (h : (l.all fun e => decide (2 ^ 63 ≤ f e) && decide (localTarget 0 (f e) = some (0, f e % 2 ^ 21)) &&
      decide (f e % 2 ^ 21 + n ≤ 2 ^ 21) && decide (f e % n = 0)) = true) : ∀ e ∈ l, SpadElem s (f e) n := by
  intro e he
  have := List.all_eq_true.mp h e he
  simp only [Bool.and_eq_true, decide_eq_true_eq] at this
  obtain ⟨⟨⟨a, b⟩, c⟩, d⟩ := this
  exact spadElem_at s (f e) n hh hp ht hd hc hq a b c d

theorem portIdle_of (s : State) (h : s.hart.psf = base.hart.psf) (hc : s.coh = base.coh) (hl : s.hart.vs.lines = []) : PortIdle s := by
  refine ⟨fun q => ?_, by rw [hc]; rfl, hl⟩
  rw [h]; show (Vector.replicate 8 ([] : List PsfEntry)).get q = []
  simp [Vector.get]

def windowed : State := withX ints [(2, 0xA000000000000000)]
def winAddr (e : Nat) : Nat := ((windowed.get 2).toNat + elemOf (windowed.hart.group 4 1) 32 e) % 2 ^ 64
/-- A stride of 2 bytes: element 1 is misaligned. -/
def strided2 : State := withX ints [(3, 2)]
/-- A compressed block of four elements (R174) at the start of the scratchpad. -/
def packed : State := { ints with mem := (ints.putNat (spadKey 0 0) 8 (3 * 2 ^ 15 + 3)).mem, hart := (withX ints [(3, 24)]).hart }

theorem witness_VectorLoadResults : PortIdle ints ∧ ints.hart.vr.quads ≤ 8 ∧
    (∀ i ∈ [Instr.vld 1 2 0 false false, .vlds 1 2 3 0 false false, .vldx 1 2 4 0 false 0 false, .vgll 1 2 4 0 false], TakesAtOnce ints i) ∧
    (∀ e ∈ ints.actives 0, SpadElem ints (((ints.get 2).toNat + e * 4) % 2 ^ 64) 4) ∧
    (TakesAtOnce windowed (.vldc 1 2 4 0 false 0 false) ∧ (∀ e ∈ windowed.actives 0, SpadElem windowed (winAddr e) 4) ∧
      ∀ e ∈ windowed.actives 0, winAddr e / 2 ^ 61 = 5) ∧
    (TakesAtOnce strided2 (.vlds 1 2 3 0 false false) ∧ 1 ∈ strided2.actives 0 ∧
      (∀ e ∈ strided2.actives 0, e < 1 → SpadElem strided2 (((strided2.get 2).toNat + e * (strided2.get 3).toNat) % 2 ^ 64) 4) ∧
      (((strided2.get 2).toNat + 1 * (strided2.get 3).toNat) % 2 ^ 64) % 4 ≠ 0) ∧
    (0 ∈ (withX ints [(2, 1)]).actives 0 ∧ (((withX ints [(2, 1)]).get 2).toNat + 0 * 4) % 2 ^ 64 % 4 ≠ 0 ∧ ints.hart.inHandler = false ∧
      unhandled (ints.descOf ints.hart) .misalign = false) := by
  refine ⟨portIdle_of _ rfl rfl rfl, by decide +kernel, by unfold TakesAtOnce; decide +kernel,
    spadElems _ (fun e => ((ints.get 2).toNat + e * 4) % 2 ^ 64) 4 _ rfl rfl rfl rfl rfl rfl (by decide +kernel),
    ⟨by unfold TakesAtOnce; decide +kernel, spadElems _ winAddr 4 _ rfl rfl rfl rfl rfl rfl (by decide +kernel), by decide +kernel⟩,
    ⟨by unfold TakesAtOnce; decide +kernel, by decide +kernel, fun e he h => ?_, by decide +kernel⟩,
    by decide +kernel⟩
  obtain rfl : e = 0 := by omega
  exact spadElem_at _ _ 4 rfl rfl rfl rfl rfl rfl (by decide +kernel) (by decide +kernel) (by decide +kernel) (by decide +kernel)

theorem witness_VectorLoadResults_block : TakesAtOnce packed (.vldz 1 2 3 0 false) ∧ (1 ≤ packed.hart.vr.vl ∧ packed.hart.vr.vl ≤ 256 ∧
    (packed.get 2).toNat + 24 ≤ 2 ^ 64 ∧ 24 ≤ (packed.get 3).toNat ∧ 24 = 8 + (packed.hart.vr.vl * packed.hart.vt.ew + 63) / 64 * 8) ∧
    (∀ e ∈ [0, 1, 2], SpadElem packed ((packed.get 2).toNat + 8 * e) 8) ∧
    (∀ e ∈ [0, 1, 2], packed.spadAddr ((packed.get 2).toNat + 8 * e) = packed.spadAddr (packed.get 2).toNat + 8 * e) ∧
    packed.memNat (packed.spadAddr (packed.get 2).toNat) 8 = (packed.hart.vr.vl - 1) * 2 ^ 15 + 24 / 8 ∧ (packed.hart.queue 4).length < 16 :=
  ⟨by unfold TakesAtOnce; decide +kernel, by decide +kernel,
    spadElems _ (fun e => (packed.get 2).toNat + 8 * e) 8 _ rfl rfl rfl rfl rfl rfl (by decide +kernel), by decide +kernel, by decide +kernel,
    by decide +kernel⟩

theorem witness_VectorLoadResults_blocked : TakesAtOnce blocks (.vldb 1 2 3 false false) ∧ blocks.hart.vt.ew ∈ [2, 4, 8] ∧
    (∀ j ∈ [0], SpadElem blocks (((blocks.get 2).toNat + j * 32) % 2 ^ 64) 32) ∧
    (∀ j ∈ [0], SpadElem blocks (hdrAddr (blocks.get 3 - BitVec.ofNat 64 (2 ^ 63 / 32)).toNat (((blocks.get 2).toNat + j * 32) % 2 ^ 64) 32) 1) :=
  ⟨by unfold TakesAtOnce; decide +kernel, by decide +kernel,
    spadElems _ (fun j => ((blocks.get 2).toNat + j * 32) % 2 ^ 64) 32 _ rfl rfl rfl rfl rfl rfl (by decide +kernel),
    spadElems _ (fun j => hdrAddr (blocks.get 3 - BitVec.ofNat 64 (2 ^ 63 / 32)).toNat (((blocks.get 2).toNat + j * 32) % 2 ^ 64) 32) 1 _
      rfl rfl rfl rfl rfl rfl (by decide +kernel)⟩

/-- Every plane store FIFO is full. -/
def stuffed : State := { ints with hart := { ints.hart with psf := Vector.replicate 8 (List.replicate 16
  { loc := { kind := .bank, key := spadKey 0 0 }, va := 2 ^ 63, mask := 0, data := 0 }) } }

theorem witness_VectorStoreResults : ints.hart.vr.quads ≤ 8 ∧ ints.coh.guardBad = [] ∧ PortIdle ints ∧ (ints.actives 0).length ≤ 16 ∧
    (∀ i ∈ [Instr.vst 1 2 0 false false, .vsts 1 2 3 0 false false, .vstxO 1 2 4 0 false 0 false, .vstxU 1 2 4 0 false 0 false], TakesAtOnce ints i) ∧
    (∀ e ∈ ints.actives 0, SpadElem ints (((ints.get 2).toNat + e * 4) % 2 ^ 64) 4) ∧
    (TakesAtOnce strided2 (.vsts 1 2 3 0 false false) ∧ 1 ∈ strided2.actives 0 ∧
      (((strided2.get 2).toNat + 1 * (strided2.get 3).toNat) % 2 ^ 64) % 4 ≠ 0) ∧
    (TakesAtOnce stuffed (.vst 1 2 0 false false) ∧ stuffed.actives 0 ≠ [] ∧ ∀ q : Fin 8, (stuffed.hart.psf.get q).length = 16) ∧
    (TakesAtOnce windowed (.vstc 1 2 4 0 false 0 false) ∧ ∀ q : Fin 4, (windowed.hart.cpf.get q).length < 16) ∧
    (TakesAtOnce blocks (.vstb 1 2 3 false false) ∧ (blocks.hart.vr.vl + 31) / 32 ≤ 8) := by
  refine ⟨by decide +kernel, by decide +kernel, portIdle_of _ rfl rfl rfl, by decide +kernel, by unfold TakesAtOnce; decide +kernel,
    spadElems _ (fun e => ((ints.get 2).toNat + e * 4) % 2 ^ 64) 4 _ rfl rfl rfl rfl rfl rfl (by decide +kernel),
    ⟨by unfold TakesAtOnce; decide +kernel, by decide +kernel, by decide +kernel⟩,
    ⟨by unfold TakesAtOnce; decide +kernel, by decide +kernel, by decide +kernel⟩, ⟨by unfold TakesAtOnce; decide +kernel, by decide +kernel⟩,
    by unfold TakesAtOnce; decide +kernel, by decide +kernel⟩

theorem witness_VectorSyncResults : Memory.wf longs.mem = true ∧ longs.coh.guardBad = [] ∧ longs.hart.vr.quads ≤ 8 ∧ longs.hart.vt.ew = 64 ∧
    (∀ i ∈ [Instr.vscc 1 2 3 1 false, .vlock 1 2 3 0, .vunlock 2 3 0, .vscadd 1 2 3 0 false 0], TakesAtOnce longs i) ∧
    (∀ e ∈ longs.actives 0, SpadElem longs (((longs.get 2).toNat + longs.elem 3 e) % 2 ^ 64) 8) ∧
    (0 ∈ longs.actives 0 ∧ ((withX longs [(2, 1)]).get 2).toNat % 8 ≠ 0 ∧ longs.hart.inHandler = false ∧
      unhandled (longs.descOf longs.hart) .misalign = false) :=
  ⟨by decide +kernel, by decide +kernel, by decide +kernel, by decide +kernel, by unfold TakesAtOnce; decide +kernel,
    spadElems _ (fun e => ((longs.get 2).toNat + longs.elem 3 e) % 2 ^ 64) 8 _ rfl rfl rfl rfl rfl rfl (by decide +kernel), by decide +kernel⟩

/-- A window of two entries in four lanes, the first of lane 0 holding 5. -/
def window : Window := { base := 0, n := 2, float := false, signed := true, copies := [5, 0, 0, 0, 0, 0, 0, 0] }
def winState : State := { ints with hart := { ints.hart with win := some window } }

/-- The first GiB mapped for vectors: shared and uncached, and cached (R29, R341). -/
def vmapped (uc : Bool) (x : Word) : State := { withX ints [(2, 0), (3, x)] with
  hart := { (withX ints [(2, 0), (3, x)]).hart with win := some window }
  sys := { ints.sys with
    shared := ((8, 1), (0, 0))
    parts := [{ loadPart with vmap := [(0, BitVec.ofNat 64 (if uc then 15 * 2 ^ 48 + 8 * 2 ^ 30 + 0x8D else 2 ^ 48 + 0xD))] }] } }

noncomputable def okWith {ε α : Type} (x : Except ε α) (p : α → Bool) : Bool := match x with | .ok a => p a | .error _ => false

/-- The first GiB mapped for vectors and cached, and x2 its first address: an element of each line has its home in the device's DRAM. -/
def longsCached : State := { longs with
  hart := { longs.hart with x := (xs [(2, 0)]).hart.x }
  sys := { longs.sys with parts := [{ loadPart with vmap := [(0, BitVec.ofNat 64 (2 ^ 48 + 0xD))] }] } }

theorem cached_longs (acc : Acc) (h : acc = .read ∨ acc = .write) : CachedAt longsCached acc 0 8 0 := by
  refine ⟨by decide, by decide, by decide, by decide +kernel, by decide +kernel, by decide +kernel, by decide +kernel,
    by unfold Unowned; decide +kernel, { kind := .cached, key := 0, pa := 2 ^ 48 }, ?_, rfl, rfl⟩
  obtain rfl | rfl := h <;> rfl

theorem witness_VectorSyncResults_cached : TakesAtOnce longsCached (.vgll 1 2 3 0 false) ∧ PortIdle longsCached ∧ longsCached.env.cut = false ∧
    (∀ e ∈ longsCached.actives 0, CachedAt longsCached .read (((longsCached.get 2).toNat + longsCached.elem 3 e) % 2 ^ 64) 8 0) ∧
    (∀ x, (longsCached.coh.links.filter fun l => linkHome l.2 == linkHome x).length + (longsCached.actives 0).length ≤ 2048) ∧
    (∀ i ∈ [Instr.vscc 1 2 3 1 false, .vlock 1 2 3 0, .vunlock 2 3 0, .vscadd 1 2 3 0 false 0], TakesAtOnce longsCached i) ∧
    (∀ e ∈ longsCached.actives 1, CachedAt longsCached .write (((longsCached.get 2).toNat + longsCached.elem 3 e) % 2 ^ 64) 8 0) := by
  have h : ∀ k ∈ [0#3, 1#3], ∀ e ∈ longsCached.actives k, ((longsCached.get 2).toNat + longsCached.elem 3 e) % 2 ^ 64 = 0 := by decide +kernel
  refine ⟨by unfold TakesAtOnce; decide +kernel, portIdle_of _ rfl rfl rfl, by decide, fun e he => ?_, fun x => ?_, by unfold TakesAtOnce; decide +kernel,
    fun e he => ?_⟩
  · rw [h 0 (by simp) e he]; exact cached_longs _ (.inl rfl)
  · have : (longsCached.actives 0).length = 4 := by decide +kernel
    rw [this]; exact Nat.le_of_ble_eq_true rfl
  · rw [h 1 (by simp) e he]; exact cached_longs _ (.inr rfl)

/-- A range of one line whose partial a combine buffer holds. -/
def ranged : CRange := { part := 0, task := 1, rng := 1, va := 0, len := 64, op := 0, ew := 32, cls := 0, segs := [(0, 64)] }
def rangeOnly (parts : Bool) : State := { ints with coh := { ints.coh with
  ranges := [ranged]
  comb := if parts then [{ cluster := 0, part := 0, line := 0, partialLine := true, data := 0, words := 0xFFFF, mods := [] }] else [] } }

theorem witness_WindowResults_drop : ∀ b, TakesAtOnce (rangeOnly b) (.crDrop 1) ∧ Memory.wf (rangeOnly b).mem = true ∧
    (ranged.part == (rangeOnly b).hart.tk.part && ranged.task == (rangeOnly b).hart.tk.task && ranged.rng == 1) = true ∧
    ((rangeOnly b).lineWaits 0 0xFFFF = false ∧ ((rangeOnly b).homeAt 0).coreOwners 0xFFFF = [] ∧ (rangeOnly b).splitFull (rangeOnly b) 0 = false) ∧
    (rangeOnly b).coh.comb.all (fun c => c.partialLine && decide (c.cluster < 160)) = true := by
  unfold TakesAtOnce; decide +kernel

theorem witness_WindowResults_pages : TakesAtOnce (vmapped true 0) (.winMerge .dev) ∧
    (okWith ((vmapped true 0).vmapLoc 0 0 0 .write) (fun l => l.kind == .uncached && l.key == 8 * 2 ^ 30) = true ∧ (vmapped true 0).raceMode 0 = 0 ∧
      (vmapped true 0).coh.wq = [] ∧ (vmapped true 0).poisoned (8 * 2 ^ 30) 4 = false ∧ (vmapped true 0).underTest (lineOf (8 * 2 ^ 30)) = false) ∧
    TakesAtOnce (vmapped false 64) (.crDecl 0 1 2 3) ∧ okWith (rangeSegs (vmapped false 64) 0 0 0 64 6) (· == [(0, 64)]) = true := by
  refine ⟨by unfold TakesAtOnce; decide +kernel, by decide +kernel, by unfold TakesAtOnce; decide +kernel, by decide +kernel⟩

theorem witness_WindowResults : (TakesAtOnce (withX ints [(2, 0), (3, 16)]) (.winDecl 2 3) ∧ ((withX ints [(2, 0), (3, 16)]).get 2).toNat < 2 ^ 63) ∧
    (TakesAtOnce (withX ints [(3, 16)]) (.winDecl 2 3) ∧ 2 ^ 63 ≤ (ints.get 2).toNat) ∧ (2 : Word).toNat % 4 ≠ 0 ∧
    (TakesAtOnce winState (.vscaddWin 1 3 0) ∧ NoEnables winState ∧ Quiet (armed winState) 0 (fun e => { nv := decide (2 ≤ (armed winState).elem 3 e) }) ∧ winState.hart.win = some window ∧ window.copies.length = 4 * winState.hart.vt.n * window.n) ∧
    (TakesAtOnce winState (.winMerge .dev) ∧ Memory.wf winState.mem = true ∧ window.copies.length = 4 * winState.hart.quads.count * window.n) ∧
    (ints.env.issue = none ∧ ints.hart.win = none ∧ queuedBefore ints.hart (encode (.vscaddWin 1 3 0)) = false ∧ ints.hart.quads.count ≠ 0) ∧
    (TakesAtOnce (withX ints [(2, 0), (3, 64)]) (.crDecl 0 1 2 3) ∧ ints.coh.comb = [] ∧ TakesAtOnce ints (.crDrop 1)) :=
  ⟨⟨by unfold TakesAtOnce; decide +kernel, by decide +kernel⟩, ⟨by unfold TakesAtOnce; decide +kernel, by decide +kernel⟩, by decide,
    ⟨by unfold TakesAtOnce; decide +kernel, by unfold NoEnables; decide +kernel, by unfold Quiet; decide +kernel, by decide +kernel, by decide +kernel⟩,
    ⟨by unfold TakesAtOnce; decide +kernel, by decide +kernel, by decide +kernel⟩, by decide +kernel,
    by unfold TakesAtOnce; decide +kernel, by decide +kernel, by unfold TakesAtOnce; decide +kernel⟩

/-! #### The matrix: 16 rows of tile 0 and slots 0 to 2 are the hart's -/

theorem witness_MatrixStateResults : (TakesAtOnce ints (.mattach 2) ∧ ints.myPlace = some place ∧ 0 < place.tiles ∧ 0 < ints.hart.mgrant.toNat % 256) ∧
    (TakesAtOnce { ints with hart := { ints.hart with mgrant := 0 } } (.mattach 2) ∧ ({ ints.hart with mgrant := 0 } : Hart).mgrant.toNat % 256 = 0) ∧
    TakesAtOnce ints .mdetach ∧ TakesAtOnce ints (.oClaim 0 1) ∧ TakesAtOnce ints (.oRelease 0 1) ∧ place.canonical = true ∧
    TakesAtOnce ints (.mzero 0) ∧ ints.hart.row0 + ints.hart.rows ≤ 128 ∧ TakesAtOnce ints (.mfmt 1 0 0 0 0) ∧
    (TakesAtOnce ints (.mskip 0 2) ∧ PortIdle ints ∧ SpadElem ints (ints.get 2).toNat 16) := by
  refine ⟨⟨?_, rfl, by decide, by decide +kernel⟩, ⟨?_, by decide⟩, ?_, ?_, ?_, by decide +kernel, ?_, by decide +kernel, ?_, ?_,
    portIdle_of _ rfl rfl rfl, spadElem_at _ _ 16 rfl rfl rfl rfl rfl rfl (by decide +kernel) (by decide +kernel) (by decide +kernel) (by decide +kernel)⟩
  all_goals unfold TakesAtOnce; decide +kernel

/-- FP32 elements, VL 64 in a group of four registers; 1 live row and column. -/
def expState : State := { floats with hart := { floats.hart with vr := { floats.hart.vr with vtype := 0x290, vl := 64 } } }

/-- Row 0 of slot 0, an operand row, has an error. -/
def badRow : Place := { place with badSlots := [0] }
def badOperand : State := { ints with places := [badRow] }

theorem witness_MatrixResults_error : TakesAtOnce badOperand (.mop 0 0 2 false false false) ∧ badOperand.myPlace = some badRow ∧ badRow.canonical = true ∧
    badOperand.slotServes badOperand.hart = true ∧ Handles badOperand .ecc ∧ badOperand.sys.pending = [] ∧ 0 < badOperand.hart.liveRows ∧
    badOperand.hart.row0 + badOperand.hart.rows ≤ 128 := by unfold TakesAtOnce Handles; decide +kernel

theorem witness_MatrixResults : (ints.myPlace = some place ∧ place.canonical = true ∧ RowsSound ints place ∧ PortIdle ints) ∧
    (TakesAtOnce ints (.mop 0 0 2 true false false) ∧ ints.hart.vs.mopStep = 0 ∧ ints.hart.mgrant.getLsbD 16 = false ∧ ints.slotServes ints.hart = true ∧
      min (krow 0) (krow 0) / 8 % max (classSteps 0) (classSteps 0) = 0) ∧
    ({ ints.hart with mgrant := 0x10010 } : Hart).mgrant.getLsbD 16 = true ∧
    TakesAtOnce ints (.msliceRd 0 3 4 false) ∧ TakesAtOnce ints (.msliceWr 0 3 4 false) ∧
    (TakesAtOnce expState (.msliceRdExp 0 5 4 false) ∧ expState.hart.vr.vl = 64 ∧
      bitsOf (expState.get 5).toNat 6 0 < expState.hart.liveRows ∧
      (intClass (place.pairAt 0).a.toNat && intClass (place.pairAt 0).b.toNat) = false) ∧
    (TakesAtOnce ints (.mld 0 3 2) ∧ TakesAtOnce ints (.mldP 0 3 2) ∧ min (vtCols ints.hart.vr.vtype) 64 = 1 ∧
      SpadElem ints (((ints.get 2).toNat + 0 * (ints.get 3).toNat) % 2 ^ 64) 64) ∧
    (TakesAtOnce ints (.mst 0 3 2) ∧ ints.hart.liveRows ≤ 16 ∧
      SpadElem ints ((((ints.get 2).toNat + 0 * (ints.get 3).toNat) % 2 ^ 64 + 4 * 0) % 2 ^ 64) 4) := by
  refine ⟨⟨rfl, by decide +kernel, by unfold RowsSound; decide +kernel, portIdle_of _ rfl rfl rfl⟩, ⟨?_, by decide +kernel⟩, by decide, ?_, ?_,
    ⟨?_, by decide +kernel⟩,
    ⟨?_, ?_, by decide +kernel, spadElem_at _ _ 64 rfl rfl rfl rfl rfl rfl (by decide +kernel) (by decide +kernel) (by decide +kernel) (by decide +kernel)⟩,
    ⟨?_, by decide +kernel, spadElem_at _ _ 4 rfl rfl rfl rfl rfl rfl (by decide +kernel) (by decide +kernel) (by decide +kernel) (by decide +kernel)⟩⟩
  all_goals unfold TakesAtOnce; decide +kernel

/-- Row 0 of the slice, with every trap enabled: 64 accumulators of zero, so exponents of zero and no event but none enabled. -/
theorem witness_MatrixResults_exp : QuietList expState (stripRow (2 ^ 30) (stripOf (place.sideAt 1 0)) 0x3F800000 [some (0, 0)]).evs ∧
    ints.sys.pending = [] := by unfold QuietList; decide +kernel

/-! #### Copies, barriers and streams: records at the start of the scratchpad, and one 64 KiB up -/

theorem unit_at (a : Word) (n off i : Nat) (ha : a.toNat = 2 ^ 63 + off) (hn : off + 8 * n ≤ 2 ^ 21) (hi : i < n) :
    (a + BitVec.ofNat 64 (8 * i)).toNat = 2 ^ 63 + (off + 8 * i) := by
  rw [BitVec.toNat_add, BitVec.toNat_ofNat, ha]; omega

theorem recordAt_of (s : State) (a : Word) (n off : Nat) (hs : s.hart.ssb = []) (hp : s.places = [place]) (ht : s.hart.tk.task = 1)
    (hh : s.hart.core = 0) (hd : s.hart.debug = false) (hc : s.coh = base.coh) (hq : s.sys.pending = []) (ha : a.toNat = 2 ^ 63 + off) (ho : off % 8 = 0)
    (hn : off + 8 * n ≤ 2 ^ 21) : RecordAt s a n off := by
  refine ⟨hs, fun i hi => ⟨unit_at a n off i ha hn hi, by omega, by omega, ?_, ?_, ?_, hd⟩⟩
  · have : s.placeAt 1 0 = some place := by unfold State.placeAt; rw [hp]; rfl
    unfold State.spadOwned; rw [ht, hh, this]
    show ([(0, 2 ^ 21)].any fun (b, l) => decide (b ≤ off + 8 * i) && decide (off + 8 * i + 8 ≤ b + l)) = true
    simp only [List.any_cons, List.any_nil, Bool.or_false, Bool.and_eq_true, decide_eq_true_eq]
    omega
  · have hr : s.coh.poison = [] ∧ s.coh.dead = [] ∧ s.coh.deadRows = [] := by rw [hc]; exact ⟨rfl, rfl, rfl⟩
    simp only [State.poisoned, State.deadAt, hr.1, hr.2.1, hr.2.2, List.any_nil, Bool.and_false, Bool.or_false]
  · simp [State.bankTest, State.rowTest, hq]

/-- 16 bytes from the scratchpad to 4,096 bytes up in it (R186). -/
def copyDesc : Nat := 2 ^ 63 + (2 ^ 63 + 4096) * 2 ^ 64 + 2 ^ 128 + 4 * 2 ^ 136 + 2 ^ 192 + 16 * 2 ^ 384 + 16 * 2 ^ 576
def descState : State := { atPad with mem := (atPad.putNat (spadKey 0 0) 128 copyDesc).mem }
def manyCopies : State := { atPad with eng := { atPad.eng with copies := (List.range 64).map fun k => { copyOf .running with token := k } } }

theorem witness_CopyResults : (descState.env.cut = false ∧ descState.eng.copies = [] ∧ ((xs [(2, 32)]).get 2).toNat % 64 ≠ 0) ∧
    (RecordAt descState (descState.get 2) 16 0 ∧ (descState.get 2).toNat % 64 = 0 ∧
      (let v := BitVec.ofNat 1024 (descState.memNat (spadKey descState.hart.core 0) 128)
       descOk v = true ∧ dMask v = 0 ∧ dLen v * dSize v < 2 ^ 31 ∧ ∀ i, i < dTotal v → 2 ^ 63 ≤ addrAt (dDst v) (strided v (dDstr v) i)) ∧
      descOk (BitVec.ofNat 1024 (atPad.memNat (spadKey 0 0) 128)) = false ∧ descState.eng.paused = false ∧ ((descState.taskAt 1).map (·.phase)) = some .running ∧ descState.eng.clock ≠ 2 ^ 48 - 1) ∧
    (okWith (descState.barLoc descState.hart pad) (· == spadKey 0 0) = true ∧ okWith (descState.barLoc descState.hart 8) (fun _ => true) = false) ∧
    (∀ k, k < 64 → ∃ c ∈ manyCopies.eng.copies, c.token = k ∧ c.hart = manyCopies.hart.id ∧ c.task = manyCopies.hart.tk.task) ∧
    ((base.copyOf base.hart 0).isNone = true ∧ (copying.copyOf copying.hart 0).isSome = true) :=
  ⟨by decide +kernel, ⟨recordAt_of _ _ 16 0 rfl rfl rfl rfl rfl rfl rfl (by decide +kernel) (by decide) (by decide), by decide +kernel⟩, by decide +kernel,
    by decide +kernel, by decide +kernel⟩

/-- A barrier for two, one of which has arrived (R191). -/
def barred : State := atPad.putBar (spadKey 0 0) { exp := 2, left := 1, tx := 0, p := false, broken := false }
def barWaiting (r : Bool) : State := on fun h => { h with wait := some (.barrier (spadKey 0 0) (some r)) }

theorem settled_at (s : State) (sc : Scope) (e : Bool) (h1 : s.hart.vs.vq = []) (h2 : s.hart.ssb = []) (h3 : s.hart.fifosEmpty = true)
    (h4 : s.eng = base.eng) (h5 : s.coh.egress = []) (h6 : s.coh.comb = []) : Settled s sc e :=
  ⟨h1, h2, h3, fun _ => by unfold State.engineBusy; rw [h4]; rfl, fun _ => by rw [h5]; simp, fun _ => by rw [h6]; simp⟩

theorem witness_BarrierResults : ((base.get 2).toNat = 0 ∧ 2 ^ 31 < (0x80000001 : Word).toNat ∧ 0 < (2 : Word).toNat ∧ (0x80000000 : Word).toNat ≤ 2 ^ 31) ∧
    (okWith (barred.barLoc barred.hart (barred.get 2)) (· == spadKey 0 0) = true ∧ Memory.wf barred.mem = true ∧ Settled barred .clu false ∧
      barred.barAt (spadKey 0 0) = { exp := 2, left := 1, tx := 0, p := false, broken := false }) ∧
    ((8 : Word).toNat % 16 ≠ 0 ∧ (16 : Word).toNat < 2 ^ 63 ∧ SpadAt atPad (atPad.get 2) 16 0) ∧
    (barred.hart.wait = none ∧ barred.hart.vs.vq = [] ∧ (barred.get 3).getLsbD 0 = false ∧ (1 : Word).getLsbD 0 = true) ∧
    ((barWaiting true).hart.wait = some (.barrier (spadKey 0 0) (some true)) ∧ (barWaiting false).hart.vs.vq = []) :=
  ⟨by decide +kernel, ⟨by decide +kernel, by decide +kernel, settled_at _ _ _ (by decide +kernel) (by decide +kernel) (by decide +kernel) rfl rfl rfl,
    by decide +kernel⟩, ⟨by decide, by decide, spadAt_base 16 0 (by decide) (by decide) _ (by decide +kernel)⟩, by decide +kernel, by decide +kernel⟩

/-- The barrier's bytes have an error. -/
def badBar : State := { barred with coh := { barred.coh with poison := [spadKey 0 0] } }

/-- A barrier whose counts are both at 0. -/
def spentBar : State := atPad.putNat (spadKey 0 0) 16 ({ exp := 2, left := 0, tx := 0, p := false, broken := false } : Bar).bits

theorem witness_BarrierResults_spent : (∀ x r, spentBar.hart.wait ≠ some (.barrier x r)) ∧
    okWith (spentBar.barOpen spentBar.hart (spentBar.get 2)) (· == spadKey 0 0) = true ∧ spentBar.bankTest (spadKey 0 0) = false ∧ spentBar.hart.vs.vq = [] ∧
    Memory.wf spentBar.mem = true ∧ spentBar.barAt (spadKey 0 0) = { exp := 2, left := 0, tx := 0, p := false, broken := false } :=
  ⟨by rw [show spentBar.hart.wait = none from rfl]; exact nofun, by decide +kernel, by decide +kernel, by decide +kernel, by decide +kernel,
    by decide +kernel⟩

theorem witness_BarrierResults_rows : okWith (barred.barOpen barred.hart (barred.get 2)) (· == spadKey 0 0) = true ∧ barred.deadAt (spadKey 0 0) 16 = false ∧
    barred.bankTest (spadKey 0 0) = false ∧ okWith (badBar.barLoc badBar.hart (badBar.get 2)) (· == spadKey 0 0) = true ∧
    badBar.poisoned (spadKey 0 0) 16 = true ∧ (badBar.get 3).toNat < 2 ^ 31 ∧ badBar.hart.wait = none := by decide +kernel

/-- A stream of eight s32 elements at the start of the scratchpad (R193), six of which are read. -/
def zblock : Nat := 1 * 2 ^ 8 + 4 * 2 ^ 16 + 2 ^ 63 * 2 ^ 64 + 8 * 2 ^ 256 + 4 * 2 ^ 448
def bound (p : Nat) : State := { ints with hart := { ints.hart with
  z := Vector.set ints.hart.z 1 (some { block := BitVec.ofNat 1024 zblock, progress := p }) } }
def zExample (p : Nat) : ZReg := { block := BitVec.ofNat 1024 zblock, progress := p }
def blockState : State := { ints with mem := (ints.putNat (spadKey 0 0) 128 zblock).mem }

theorem witness_StreamResults : blockState.hart.quads.count ≠ 0 ∧ (blockState.get 2).toNat % 64 = 0 ∧ (8 : Word).toNat % 64 ≠ 0 ∧
    RecordAt blockState (blockState.get 2) 16 0 ∧ RecordAt blockState (blockState.get 2) 17 0 ∧ zBlockOk (BitVec.ofNat 1024 (blockState.memNat (spadKey 0 0) 128)) = true ∧
    zBlockOk (BitVec.ofNat 1024 (ints.memNat (spadKey 0 0) 128)) = false ∧
    ((bound 0).hart.z.get ⟨1 % 8, by decide⟩).isSome = true ∧ ints.hart.z.get ⟨1 % 8, by decide⟩ = none ∧ (bound 0).hart.ssb.length ≤ 15 ∧
    bare.hart.quads.count = 0 ∧ ((zExample 0).block = BitVec.ofNat 1024 zblock) ∧
    (∀ p ∈ [0, 6, 8], PortIdle (bound p) ∧ ∀ i ∈ [Instr.zrd 4 1, .zpeek 4 1], TakesAtOnce (bound p) i) ∧
    (bytesAt (zExample 0).block 0 1 = 0 ∧ bytesAt (zExample 0).block 3 1 = 0 ∧ codeBits (bound 0).hart.fmtReg (zEtype (zExample 0).block) = (bound 0).hart.vt.ew ∧
      (List.range (zDim (zExample 0).block)).foldl (fun n j => n * zCount (zExample 0).block j) 1 = 8) ∧
    (∀ e ∈ [0, 1, 2, 3], SpadElem (bound 0) (addrAt (zBase (zExample 0).block) (zOffset (zExample 0).block (0 + e))) 4) ∧
    ((0 : Word).toNat = 0 ∧ 32 < (33 : Word).toNat) := by
  refine ⟨by decide +kernel, by decide +kernel, by decide +kernel, recordAt_of _ _ 16 0 rfl rfl rfl rfl rfl rfl rfl (by decide +kernel) (by decide) (by decide),
    recordAt_of _ _ 17 0 rfl rfl rfl rfl rfl rfl rfl (by decide +kernel) (by decide) (by decide), by decide +kernel, by decide +kernel, by decide +kernel,
    by decide +kernel, by decide +kernel, by decide +kernel, rfl, ?_, by decide +kernel,
    spadElems _ (fun e => addrAt (zBase (zExample 0).block) (zOffset (zExample 0).block (0 + e))) 4 _ rfl rfl rfl rfl rfl rfl (by decide +kernel), by decide⟩
  intro p hp
  refine ⟨portIdle_of _ rfl rfl rfl, ?_⟩
  simp only [List.mem_cons, List.not_mem_nil, or_false] at hp
  obtain rfl | rfl | rfl := hp <;> (unfold TakesAtOnce; decide +kernel)

/-- A loop of one `vadd.vv` word, twice (R197). -/
noncomputable def loopState : State := { ((loaded 0).putNat (dramKey loadPage + 4) 4 0x84221800).putNat (dramKey loadPage + 128) 4 2 with
  hart := { ({ (loaded 0).hart with vr := ints.hart.vr, quads := ints.hart.quads }) with x := (xs [(2, 1), (3, 128)]).hart.x } }

theorem witness_StreamResults_loop : loopState.hart.quads.count ≠ 0 ∧ 1 ≤ (loopState.get 2).toNat ∧ (loopState.get 2).toNat ≤ 32 ∧
    loopState.hart.vs.loop = none ∧
    (let b := loopState.bodyWords (loopState.hart.pc.toNat + 4) (loopState.get 2).toNat
     b.1 = .words [0x84221800#32] ∧ vectorWord 0x84221800#32 = true ∧ (decodeJoin 0x84221800#32).isSome = true ∧
     (b.2.tripCounts (loopState.get 3).toNat 6).2.1 = [2] ∧ (b.2.tripCounts (loopState.get 3).toNat 6).1.1 = .val 0) := by decide +kernel

/-- A loop that takes its one body word next, while a word is queued; and one that is full. -/
def fillingLoop : LoopBuf := { first := 0, words := 1, body := [], left := 1 }
def looping (l : LoopBuf) : State := { ints with hart := { ints.hart with vs := { ints.hart.vs with loop := some l, vq := [queued] } } }

theorem witness_StreamResults_body : (looping fillingLoop).hart.inBody = some fillingLoop ∧ (looping fillingLoop).env.issue = none ∧
    (looping fillingLoop).hart.vs.vq ≠ [] ∧ pushCheck (looping fillingLoop) (encode (.vaddVv 1 2 3 0 false false)) = .ok ∧
    vectorWord (encode (.vaddVv 1 2 3 0 false false)) = true ∧
    (∀ n ∈ [0, 1], let l := { fillingLoop with body := [queued], left := n }
      let s := { looping l with env := { ints.env with issue := some { queued with last := true } } }
      s.env.issue = some { queued with last := true } ∧ s.hart.vs.loop = some l ∧ l.filling = false ∧ 1 ≤ (s.get 3).toNat ∧ (s.get 3).toNat ≤ 32) := by
  decide +kernel
/-! #### Retrieval and pyramids -/

def theList : SkList := { cluster := 0, id := 0, task := 1, cap := 2, keep := 1, raised := none, rank := false, kr := 0, alpha := 0x3F800000
                          beta := 0x3F800000, entries := [], refused := 0 }
def entryOf (doc : Nat) (lex : Lex) (vec : Option (BitVec 32)) : SkEntry := { doc := BitVec.ofNat 32 doc, lex := lex, score := 0x3F800000, vec := vec }
def theSession (run : Option Run) (terms : List Term) : Session := {
  cluster := 0, id := 0, task := 1, part := 0, ctx := 0, list := some 0, plan := BitVec.ofNat 512 (100 * 2 ^ 192), terms := terms, run := run
  failed := false, malformed := false, cause := 0, blocks := 0, faultAddr := 0, inserted := 0, pruned := 0 }
def term1 : Term := { slot := 0, list := BitVec.ofNat 256 (2 ^ 128), w := 0x3F800000, grp := 1 }
def engines (sessions : List Session) (lists : List SkList) (l : List (Reg × Word)) : State :=
  { xs l with eng := { base.eng with sessions := sessions, lists := lists } }

/-- A term record at the scratchpad's start, whose list descriptor is 64 bytes up (R221, R230). -/
def termState : State := { engines [theSession none []] [theList] [(3, pad)] with
  mem := ((base.putNat (spadKey 0 0) 16 (2 ^ 63 + 64 + 2 ^ 104)).putNat (spadKey 0 64) 32 (2 ^ 128)).mem }

/-- An element of `tk.ins` that issues for the hart (R235). -/
def insQueued (start : Nat) : VEntry := { word := encode (.tkIns 4 5 3), pc := 0, xa := 0, xb := 0, xc := 0, start := start }
def inserting (lists : List SkList) (start : Nat) : State := { engines [] lists [] with env := { base.env with issue := some (insQueued start) } }
def score : Loc := { kind := .bank, key := spadKey 0 0 }
def delivering (l : List (Nat × Loc × Nat)) (flying : List EgressEntry) : State :=
  { on fun h => { h with wait := some (.delivery 1 l) } with coh := { base.coh with egress := flying } }

theorem witness_RetrievalResults_steps : (∀ n, n < 4 → let s := inserting [theList] n
      s.env.issue = some (insQueued n) ∧ (insQueued n).last = false ∧ s.hart.vt.ew = 32 ∧ (insQueued n).start < s.hart.vr.vl) ∧
    ((inserting [] 0).listAt 0 0 1 = none ∧ (inserting [theList] 4).hart.vr.vl ≤ 4 ∧ (inserting [theList] 0).listAt 0 0 1 = some theList ∧
      (inserting [theList] 0).eng.lists.find? (fun k => k.cluster == 0 && k.id == 0) = some theList) ∧
    ((xs []).hart.wait = none ∧ (delivering [(0, score, 7)] []).hart.wait = some (.delivery 1 [(0, score, 7)]) ∧
      Memory.wf (delivering [(0, score, 7)] []).mem = true ∧ (delivering [] []).hart.wait = some (.delivery 1 [])) ∧
    (∃ e ∈ (delivering [] [{ module := 2, task := 1, hart := 0, src := .drain, va := 0, bytes := [] }]).coh.egress,
      e.hart = base.hart.id ∧ e.task = base.hart.tk.task ∧ e.src = .drain) ∧
    ((1 : Nat) < base.hart.vr.vl ∧ ((xs [(2, 256)]).get 2).toNat.testBit 8 = true) := by decide +kernel

theorem witness_RetrievalResults : (let x := (xs [(2, 2), (3, 1)]).get 2; let y := (xs [(2, 2), (3, 1)]).get 3
      ¬ (x.toNat = 0 ∨ 4096 < x.toNat ∨ y.toNat = 0 ∨ 1024 < y.toNat ∨ x.toNat < y.toNat)) ∧
    (∀ i, i < 8 → ∃ l ∈ (List.range 8).map fun i => { theList with id := i }, l.id = i) ∧
    (TakesAtOnce (engines [] [theList] []) (.tkIns 4 5 3) ∧ (engines [] [theList] []).listAt 0 0 1 = some theList ∧ base.listAt 0 0 1 = none) ∧
    (0 / 8 % 32 = 0 ∧ 0 < 512 ∧ (sortBy ranksBefore theList.fused).take theList.keep = [] ∧
      (sortBy ranksBefore { theList with entries := [entryOf 1 .matched none] }.fused).take 1 ≠ []) ∧
    (base.sessionAt 0 0 1 = none ∧ (engines [theSession none []] [theList] []).sessionAt 0 0 1 = some (theSession none [])) ∧
    (base.freeSession 0 = some 0 ∧ planOk 0 = true ∧ planOk (BitVec.ofNat 512 (2 ^ 300)) = false ∧ ((xs [(2, 32)]).get 2).toNat % 64 ≠ 0) ∧
    (let v := termState.memNat (spadKey 0 0) 16
     let l := BitVec.ofNat 256 (termState.memNat (spadKey 0 64) 32)
     v % 2 ^ 64 = 2 ^ 63 + 64 ∧ termOk v = true ∧ listOk l = true ∧ (termState.get 3).toNat % 16 = 0 ∧ listOk 0 = false ∧
     termState.sessionAt 0 0 1 = some (theSession none [])) ∧
    RecordAt termState (termState.get 3) 2 0 ∧ RecordAt termState (BitVec.ofNat 64 (2 ^ 63 + 64)) 4 64 := by
  refine ⟨by decide +kernel, by decide +kernel, ⟨by unfold TakesAtOnce; decide +kernel, by decide +kernel⟩, by decide +kernel, by decide +kernel,
    by decide +kernel, by decide +kernel, recordAt_of _ _ 2 0 rfl rfl rfl rfl rfl rfl rfl (by decide +kernel) (by decide) (by decide),
    recordAt_of _ _ 4 64 rfl rfl rfl rfl rfl rfl rfl (by decide +kernel) (by decide) (by decide)⟩

/-- The record's session is free. -/
theorem witness_RetrievalResults_free : let s := { termState with eng := { termState.eng with sessions := [] } }
    s.sessionAt s.hart.cluster 0 s.hart.tk.task = none ∧ (s.get 3).toNat % 16 = 0 ∧ RecordAt s (s.get 3) 2 0 ∧
    RecordAt s (BitVec.ofNat 64 (2 ^ 63 + 64)) 4 64 :=
  ⟨by decide +kernel, by decide +kernel, recordAt_of _ _ 2 0 rfl rfl rfl rfl rfl rfl rfl (by decide +kernel) (by decide) (by decide),
    recordAt_of _ _ 4 64 rfl rfl rfl rfl rfl rfl rfl (by decide +kernel) (by decide) (by decide)⟩

/-- A stream of s64 values of 8 bytes, one level of four spans, that holds `occ` of them; `state` adds STATE bits (R244, R364). -/
def pyHeader (occ state : Nat) : Nat := 3 + 2 ^ 8 + 2 ^ 16 + 0x18 * 2 ^ 32 + 2 * 2 ^ 64 + 2 ^ 671 + state + occ * 2 ^ 2080
def aStream (op : Option AnnealOp) : Stream := { part := 0, base := 0x23000, size := 8192, pages := [0x23, 0x24], op := op, retry := none }
/-- It stands at address 0x23000 of a vector map that maps the first GiB to the partition's memory. -/
def pyState (occ state : Nat) (op : Option AnnealOp) (r : List (Reg × Word)) : State := { xs r with
  mem := (base.putNat 0x23000 512 (pyHeader occ state)).mem
  eng := { base.eng with streams := [aStream op], combiners := [{ part := 0, id := 1, words := [0x84221800#32] }] }
  sys := { base.sys with parts := [{ loadPart with vmap := [(0, BitVec.ofNat 64 (2 ^ 48 + 0xD))] }] } }

/-- A PYR step of the state answers. -/
noncomputable def walks {α : Type} (w : Walk α) (s : State) (p : α → Bool) : Bool := okWith (w.go s).1 p
noncomputable def stopsWith {α : Type} (c : Option Cause) (w : Walk α) (s : State) : Bool := match (w.go s).1 with | .error x => x == c | .ok _ => false
def pyLocked : State := let s := pyState 0 0 none []
  { s with coh := { s.coh with homes := [{ HomeLine.fresh (lineOf 0x23000) with locked := true }] } }
def pyPoisoned : State := let s := pyState 0 0 none []
  { s with coh := { s.coh with poison := [0x23000] } }
def ldvQueued : State := on fun h => { h with vs := { h.vs with vq := [{ queued with word := encode (.pyLdv 4 2 6) }] } }

theorem witness_PyramidResults_steps : ldvQueued.hart.pyrQueued = true ∧ base.hart.pyrQueued = false ∧
    stopsWith none (streamAt 0 0 0 0x23000) pyLocked = true ∧ stopsWith (some .ecc) (streamAt 0 0 0 0x23000) pyPoisoned = true ∧
    (let s := pyState 1 0 none []
     let o := some (aStream none, s.header (aStream none))
     stopsWith none (snapshot o 0 0) { s with coh := { s.coh with homes := [{ HomeLine.fresh (lineOf 0x24000) with locked := true }] } } = true ∧ stopsWith (some .ecc) (snapshot o 0 0)
       { s with coh := { s.coh with poison := [0x24000] } } = true) := by decide +kernel

theorem witness_PyramidResults : (base.hart.snap = none ∧ ((xs [(3, 4)]).get 3).toNat % 64 ≠ 0 ∧ ((xs [(3, 4)]).get 3).toNat % 8 ≠ 0) ∧
    walks (streamAt 0 0 0 0) base (· == none) = true ∧
    (let s := pyState 0 0 none [(2, 0x23000), (3, pad)]
     let g := s.header (aStream none)
     walks (streamAt 0 0 0 (s.get 2).toNat) s (· == some (aStream none, g)) = true ∧
     g.held = false ∧ g.tlast = 0 ∧ g.cap 0 = 4 ∧ g.occ 0 = 0 ∧ g.fqn = 0 ∧
     walks (regionOpen (aStream none) (g.entryOff 0 (g.head 0 + g.occ 0)) g.esz true) s (fun _ => true) = true ∧ (s.combiner 0 g.comb).isSome = true ∧
     g.isz / 8 ≤ 28 ∧ viewBits 0x18 = viewBits g.view ∧ walks (snapshot (some (aStream none, g)) 0 0) s (· == .none 5) = true) ∧
    (let s := pyState 1 0 none []
     let g := s.header (aStream none)
     walks (snapshot (some (aStream none, g)) 0 0) s (fun r => match r with | .span _ _ _ => true | .none _ => false) = true ∧ g.occ 0 = 1) ∧
    (((pyState 4 (2 ^ 670) none []).header (aStream none)).held = true ∧ ((pyState 4 0 none []).header (aStream none)).cap 0 ≤ 4) ∧
    (TakesAtOnce longs (.pyLdv 4 2 6) ∧ longs.hart.vt.cls ≠ 5 ∧ (longs.hart.queue 4).length + 5 ≤ 16 ∧ 16 < ((queuesFull longs).hart.queue 4).length + 5) ∧
    TakesAtOnce (queuesFull longs) (.pyLdv 4 2 6) ∧ RecordAt (pyState 0 0 none [(3, pad)]) ((pyState 0 0 none [(3, pad)]).get 3) 29 0 :=
  ⟨by decide +kernel, by decide +kernel, by decide +kernel, by decide +kernel, by decide +kernel,
    ⟨by unfold TakesAtOnce; decide +kernel, by decide +kernel⟩, by unfold TakesAtOnce; decide +kernel,
    recordAt_of _ _ 29 0 rfl rfl rfl rfl rfl rfl rfl (by decide +kernel) (by decide) (by decide)⟩

/-- An append that waits on a stream, and on one that is no more. -/
def appending (base : Nat) : State := let s := pyState 0 0 none []
  { s with hart := { s.hart with wait := some (.append 1 base (5 * 2 ^ 64)) } }

theorem witness_PyramidResults_waits : (∀ b ∈ [0x23000, 0x99000], (appending b).hart.wait = some (.append 1 b (5 * 2 ^ 64))) ∧
    (appending 0x23000).eng.streams.find? (fun x => x.base == 0x23000) = some (aStream none) ∧
    (appending 0x99000).eng.streams.find? (fun x => x.base == 0x99000) = none ∧ walks (headerOpen (aStream none)) (appending 0x23000) (fun _ => true) = true := by
  decide +kernel

/-- A stream that `py.def` accepts in two pages (R249), one it undefines, and records of `py.comb` (R250). -/
theorem witness_PyramidResults_define : (let s := pyState 0 0 none []
     let k := BitVec.ofNat 512 (3 + 2 ^ 8 + 2 ^ 16 + 0x18 * 2 ^ 32 + 2 * 2 ^ 64 + 0x40000 * 2 ^ 192 + 8192 * 2 ^ 256)
     let st : Stream := { part := 0, base := 0x40000, size := 8192, pages := [0x40, 0x41], op := none, retry := none }
     defOk s.hart k = true ∧ (s.combiner 0 1) = some [0x84221800#32] ∧ s.regionPages 0 0 0 0x40000 2 = some [0x40, 0x41] ∧
     walks (streamAt 0 0 0 0x40000) s (· == none) = true ∧ (∀ x ∈ s.eng.streams, x.base ≠ st.base) ∧
     walks (regionOpen st 0 4096 true) s (fun _ => true) = true ∧ walks (regionOpen (aStream none) 0 4096 true) s (fun _ => true) = true ∧
     viewBad s 0x18 [0x84221800#32] = none ∧ viewBad s 0x210 [0x84221800#32] = some 0 ∧ bytesAt k 1 1 ≠ 0 ∧
     bytesAt (BitVec.ofNat 512 (0x23000 * 2 ^ 192)) 1 1 = 0 ∧ defOk s.hart 0 = false ∧ s.combiner 0 2 = none) ∧
    (base.admissionBad 0 1 [0x84221800#32] = none ∧ base.admissionBad 0 1 [0#32] = some 0 ∧ base.hostMode 0 1 = false ∧
      ({ base with sys := { base.sys with modes := [(1, 1)] } } : State).hostMode 0 1 = true ∧ (base.post 1 0 1 []).isSome = true ∧
      base.hart.wait = none) := by decide +kernel
/-! #### Device steps -/

def bankLoc : Loc := { kind := .bank, key := spadKey 0 0 }
def globalLoc (k : PKind) : Loc := { kind := k, key := 0x23000, module := 1 }
def psfOf (l : Loc) : State := on fun h => { h with psf := Vector.set h.psf 0 [{ loc := l, va := 0, mask := 1, data := 5 }] }
def packet : Packet := { va := 2 ^ 63, bytes := [(spadKey 0 0, 5)] }
def l1line (reg : BitVec 16) : L1Line := { line := 0x23000 / 64, data := 7, valid := 0xFFFF, reg := reg, dirty := reg, poison := 0 }
def withCore (c : Core) : State := { base with cores := [c] }
/-- Core 0 owns word 0 of a line. -/
def owned : State := { withCore { Core.empty 0 with l1 := [l1line 1] } with coh := { base.coh with homes := [
  { HomeLine.fresh (0x23000 / 64) with words := Vector.set (Vector.replicate 16 .unreg) 0 (.core 0) }] } }
def copySrcDst : Copy := { copyOf .running with desc := BitVec.ofNat 1024 copyDesc }
def runningCopy : State := { base with eng := { base.eng with copies := [copySrcDst] } }
def comb (p : Bool) : State := { base with coh := { base.coh with
  comb := [{ cluster := 0, part := 0, line := 0x23000 / 64, partialLine := p, data := 0, words := 0xFFFF, mods := [0] }]
  ranges := if p then [{ part := 0, task := 1, rng := 0, va := 0, len := 64, op := 0, ew := 32, cls := 0, segs := [(0x23000, 64)] }] else [] } }

/-- An error record (R387), and a state that tests what it is about (R388). -/
def errorIn (kind unit addr : Nat) : BitVec 256 := BitVec.ofNat 256 (unit * 2 ^ 128 + kind * 2 ^ 160 + addr * 2 ^ 64)
def underTest (e : BitVec 256) (w : Tested) (place : Nat) (s : State) : State :=
  { s with sys := { s.sys with pending := [{ er := e, what := w, place := place }] } }
/-- Remote bytes on their way, and a link that is down. -/
def flying (src : EgressSrc) : EgressEntry := { module := 1, task := 1, hart := 0, src := src, va := 0, bytes := [(0x23000, 5)] }
def linkDown (l : Nat) (out : List Nat) : State := { base with coh := { base.coh with down := [l], retrain := [l], expired := out, egress := [flying .store] } }

theorem witness_OrderingMoves_stops :
    (underTest (errorIn 0 2 0) .row 0 (psfOf bankLoc)).drainStop (psfOf bankLoc).hart bankLoc = some (.wait .drain) ∧
    (underTest (errorIn 0 1 0x23000) .row 0 base).drainStop base.hart (globalLoc .uncached) = some (.wait .drain) ∧
    (∀ l ∈ [bankLoc, globalLoc .uncached, globalLoc .cached, globalLoc .remote], base.drainStop base.hart l = none) ∧
    (base.bankTest (spadKey 0 0) = false ∧ base.deadAt (spadKey 0 0) 16 = false ∧ base.farDown 0 (globalLoc .cached) = none ∧ base.underTest 0 = false) ∧
    ((linkDown 3 []).coh.egress = [] ++ flying .store :: [] ∧ (linkDown 3 []).coh.expired.any (· == 1) = false) := by decide +kernel

theorem witness_OrderingMoves_links : base.routeDown 1 = false ∧ (linkDown (Config.port 1) []).routeDown 1 = true ∧
    (let d := 8 + Config.dieLink 0 (homeSlice (lineOf (0x23000)) / 64)
     (linkDown d [256 + d]).drainStop base.hart { kind := .cached, key := 0x23000 } = some (.fault .ecc)) := by
  refine ⟨by simp [State.routeDown, show base.coh.retrain = [] from rfl, show base.coh.down = [] from rfl], by simp [State.routeDown, linkDown], ?_⟩
  have h : homeSlice (lineOf (0x23000)) / 64 = 2 := by decide +kernel
  simp [State.drainStop, State.fabricDown, State.dieDown, linkDown, h, show base.hart.core = 0 from rfl]

theorem witness_OrderingMoves : Memory.wf base.mem = true ∧ (∀ k ∈ [PKind.uncached, .remote, .cached], (psfOf (globalLoc k)).hartAt 0 = some (psfOf (globalLoc k)).hart) ∧
    Unowned (psfOf (globalLoc .cached)) (lineOf 0x23000) (wordsOfBytes 1) ∧ (psfOf bankLoc).env.cut = false ∧ bankLoc.kind = .bank ∧
    (psfOf (globalLoc .cached)).lineWaits (lineOf 0x23000) (wordsOfBytes 1) = false ∧ owned.lineWaits (lineOf 0x23000) 1 = false ∧ owned.coh.ranges = [] ∧
    (on fun h => { h with cpf := Vector.set h.cpf 0 [packet] }).hart.cpf.get 0 = [packet] ∧
    (let s := on fun h => { h with lostStores := [(8, .ownerLost)] }
     s.ownerLostDue s.hart = some (8, .ownerLost) ∧ s.hart.inHandler = false ∧ unhandled (s.descOf s.hart) .ownerLost = false) ∧
    ((owned.coreAt 0).lineAt (0x23000 / 64) = some (l1line 1) ∧ (l1line 1).reg ≠ 0) ∧
    (base.recallable 0 = true ∧ (base.homeAt 0).coreOwners 0xFFFF = [] ∧ (underTest (errorIn 0 1 0) .row 0 base).recallable 0 = false) ∧
    (base.underTest 0 = false ∧ base.routeDown 1 = false) ∧
    (∀ p, ((comb p).coh.comb.find? (fun c => c.cluster == 0)).isSome = true ∧ (comb p).lineWaits (0x23000 / 64) 0xFFFF = false ∧
      ((comb p).homeAt (0x23000 / 64)).coreOwners 0xFFFF = []) ∧ Unowned (comb false) (0x23000 / 64) 0xFFFF ∧ ((comb true).rangeOf (0x23000 / 64)).isSome = true :=
  by unfold Unowned; decide +kernel

theorem witness_OrderingMoves_copies : runningCopy.copyAt 0 64 = some copySrcDst ∧ copySrcDst.state = .running ∧ runningCopy.eng.paused = false ∧
    copySrcDst.guarded = false ∧ dMask copySrcDst.desc = 0 ∧ copySrcDst.done < dLen copySrcDst.desc ∧ dLen copySrcDst.desc ≤ { copySrcDst with done := 1 }.done ∧
    okWith (runningCopy.engineLoc 0 1 0 0 (copySrc copySrcDst.desc 0) 16 .read) (fun l => l.kind == .bank && l.key == spadKey 0 0) = true ∧
    okWith (runningCopy.engineLoc 0 1 0 0 (addrAt (dDst copySrcDst.desc) 0) 16 .write) (fun l => l.kind == .bank && l.key == spadKey 0 4096) = true ∧
    okWith (runningCopy.engineLoc 0 1 0 0 8 16 .read) (fun _ => true) = false ∧ runningCopy.copyLines copySrcDst = [] ∧ copySrcDst.barrier = none ∧
    runningCopy.poisoned (spadKey 0 0) 16 = false ∧ copySrcDst.fault = none ∧ runningCopy.copyFlying copySrcDst = false ∧
    ({ runningCopy with coh := { base.coh with egress := [flying (.copy copySrcDst.token)] } } : State).copyFlying copySrcDst = true ∧ ({ base with eng := { base.eng with paused := true } } : State).eng.paused = true := by decide +kernel

/-- A message about word 0 of a line, alone in the network. -/
def msg (k : MsgKind) (sender target : Nat) : Msg := {
  kind := k, sender := sender, target := target, part := 0, line := 0x23000 / 64, words := 1, bytes := 0xF, data := 9, dirty := 1, poison := 0, aux := 0, aux2 := 0 }
def mailed (m : Msg) (s : State) : State := { s with coh := { s.coh with net := [m] } }

theorem witness_Requests : ∀ k ∈ [MsgKind.rd, .rdv, .reg, .wrv, .atom, .ereg],
    let s := mailed (msg k (if k = .wrv ∨ k = .atom then 4096 else base.hart.port) 65536) base
    let m := msg k (if k = .wrv ∨ k = .atom then 4096 else base.hart.port) 65536
    s.msgAt k 0 = some m ∧ (s.homeAt m.line).serving = [] ∧ s.wbsOf m.sender m.line = [] ∧ s.lineWaits m.line m.words = false ∧ s.rangeOf m.line = none ∧
    (s.homeAt m.line).coreOwners ((s.homeAt m.line).toAsk m) = [] ∧ s.lineLost m.line m.words = false ∧ Memory.wf s.mem = true ∧ (s.hartAt 0).isSome = true ∧ s.hart.status = .running := by
  decide +kernel

theorem noneFenced_of (s : State) (h : s.cores = base.cores ∨ s.cores = owned.cores) : NoneFenced s := by
  intro n
  unfold State.coreAt
  obtain h | h := h <;> rw [h]
  · rfl
  · by_cases e : n = 0
    · subst e; rfl
    · simp [owned, withCore, Core.empty, Ne.symm e]

/-- An answer to a core that has self-invalidated meanwhile, and a fill of its read-only ways. -/
theorem witness_Requests_fills : NoneFenced base ∧ NoneFenced owned ∧ ∀ p ∈ [(1, 0), (0, 1)],
    let m := { msg .rd base.hart.port 65536 with aux := p.1, aux2 := p.2 }
    let s := mailed m base
    s.msgAt .rd 0 = some m ∧ (s.homeAt m.line).coreOwners ((s.homeAt m.line).toAsk m) = [] ∧ s.lineLost m.line 0xFFFF = false ∧
    s.poisoned (64 * m.line) 64 = false :=
  ⟨noneFenced_of _ (.inl rfl), noneFenced_of _ (.inr rfl), by decide +kernel⟩

theorem witness_Requests_room : RoomAt base (0x23000 / 64) ∧ RoomAt owned (0x23000 / 64) ∧
    (let s := mailed (msg .reg 1 65536) pyLocked
     (s.msgAt .reg 0).isSome = true ∧ (s.homeAt (0x23000 / 64)).waits 1 = true) := by
  refine ⟨by unfold RoomAt; decide +kernel, by unfold RoomAt; decide +kernel, by decide +kernel⟩

/-- Core 1 asks for a word that core 0 owns. -/
theorem witness_Requests_owned : ((mailed (msg .reg 1 65536) owned).msgAt .reg 0).isSome = true ∧
    (owned.homeAt (0x23000 / 64)).coreOwners ((owned.homeAt (0x23000 / 64)).toAsk (msg .reg 1 65536)) = [0] ∧ owned.lineWaits (0x23000 / 64) 1 = false ∧
    (msg .atom 0 0).aux = 0 ∧ base.poisoned 0 8 = false := by decide +kernel

def storing : State := on fun h => { h with ssb := [{ loc := globalLoc .cached, va := 0, len := 4, data := 5 }] }
/-- The home serves a registration by core 1 and awaits the owner, core 0; with `two`, core 2 as well. -/
def serveOf (q : MsgKind) (two : Bool) : Serve := {
  req := msg q 1 65536, words := 1, collects := false, awaiting := if two then [0, 2] else [0], gathered := [] }
def serving (q : MsgKind) (two locked : Bool) : State := { owned with coh := { owned.coh with homes := [
  { HomeLine.fresh (0x23000 / 64) with
    words := Vector.set (Vector.replicate 16 .unreg) 0 (.core 0), serving := if locked then [] else [serveOf q two], locked := locked
    awaiting := if locked then (if two then [0, 2] else [0]) else [] }] } }

theorem witness_Answers : (storing.hartAt (msg .gnt 65536 0).aux = some storing.hart ∧ (mailed (msg .gnt 65536 0) storing).msgAt .gnt 0 = some (msg .gnt 65536 0) ∧
      wordMask 0x23000 4 &&& 1 = wordMask 0x23000 4 ∧ lineOf 0x23000 = 0x23000 / 64) ∧
    (∀ k ∈ [MsgKind.nakl, .xfer, .fwd, .collect, .claim, .wb, .xack, .fack, .part, .claimr], (mailed (msg k 0 0) owned).msgAt k 0 = some (msg k 0 0)) ∧
    (base.combAt 0 (0x23000 / 64) true = none ∧ ((comb true).combAt 0 (0x23000 / 64) true).isSome = true ∧ (base.homeAt 0).word 0 ≠ .engine 640) ∧
    (let o := fun s : State => s.homeAt (0x23000 / 64)
     (o (serving .reg true false)).serving = [serveOf .reg true] ∧ (serveOf .reg true).awaiting.filter (· ≠ 0) ≠ [] ∧ 0 ∈ (serveOf .reg true).awaiting ∧
       (serveOf .reg true).words &&& BitVec.ofNat 16 1 ≠ 0 ∧
     (serveOf .reg false).awaiting.filter (· ≠ 0) = [] ∧ (serveOf .reg false).req.kind = .reg ∧ (o (serving .reg false false)).locked = false ∧
     (serving .reg false false).rangeOf (0x23000 / 64) = none ∧ (serving .reg false false).lineLost (0x23000 / 64) 1 = false ∧
     (o (serving .reg false true)).locked = true ∧ (o (serving .reg true true)).serving = [] ∧ (o (serving .reg true true)).awaiting.filter (· ≠ 0) ≠ [] ∧
       (o (serving .reg false true)).awaiting.filter (· ≠ 0) = []) := by decide +kernel

def waitingHart : State := { bare with hart := { bare.hart with wait := some (.vacquire 1 2 0) } }
def phased (p : Phase) (status : HStatus) : State := { base with
  hart := { hart with status := status }, sys := { base.sys with
    tasks := [{ task with phase := p }]
    saves := [{ task := 1, base := 0, size := 0, harts := [], places := [], spad := [], sessions := [], lists := [], saving := [], parts := [(0, 0, 128)], marks := [] }] } }
def qentry (el : Bool) : QEntry := { loadTask.entry with desc := kdesc, eligible := el, wloc := globalLoc .cached, record := BitVec.ofNat 512 (2 ^ 192 + 2 ^ 368) }
def launching (el : Bool) : State := { State.reset with sys := { State.reset.sys with parts := [{ loadPart with queues := Vector.set loadPart.queues 0 [qentry el] }] } }

/-- Core 0 is being saved. -/
def beingSaved : State := let s := phased .preempting .preempted
  { s with sys := { s.sys with saves := s.sys.saves.map fun v => { v with saving := [0] } } }

theorem witness_SchedulingSteps_ready : (∃ g ∈ (on fun h => { h with sc := { h.sc with ready := true } }).hartsOn 0, g.arbReady = true) ∧
    (let s := launching false
     (∀ m, s.monitorOf (counterMonitor 0 0) = some m → m.hit = true) ∧ rWait (qentry false).record = true ∧ (match s.lineRead (qentry false).wloc 8 with | (.val _, _) => true | _ => false) = true) ∧
    ((phased .preempting .preempted).anyLeft 1 = true ∧ ((phased .preempting .preempted).taskAt 1).map (·.ending) = some false ∧ task.ending = false) ∧
    (∃ v, beingSaved.sys.saves.find? (·.task == 1) = some v ∧ v.saving.any (· == 0) = true ∧ (v.parts.find? (·.1 == 0)).map (·.2) = some (0, 128)) ∧ (beingSaved.harts.map (·.id)).Nodup :=
  ⟨by decide +kernel, by decide +kernel, by decide +kernel, ⟨_, rfl, rfl, rfl⟩, by decide +kernel⟩

theorem witness_SchedulingSteps_save : ∀ l, dramKey 0 / 64 ≤ l → l < (dramKey 0 + 128) / 64 → Unowned beingSaved l 0xFFFF := by
  intro l h h'
  have e : dramKey 0 = 0 := by decide
  rw [e] at h h'
  obtain rfl | rfl : l = 0 ∨ l = 1 := by omega
  all_goals unfold Unowned; decide +kernel

theorem witness_SchedulingSteps_end : base.fabricDown 0 (lineOf 0x23000) = none ∧ (∀ e ∈ base.coh.egress, e.task ≠ 1) ∧
    (linkDown 1 []).coh.egress ≠ [] ∧ Unowned base (lineOf 0x23000) (wordMask 0x23000 8) ∧ base.poisoned 0x23000 8 = false :=
  ⟨by decide +kernel, by decide +kernel, by decide +kernel, by unfold Unowned; decide +kernel, by decide +kernel⟩

theorem witness_SchedulingSteps : (base.harts.map (·.id)).Nodup ∧ base.hartAt 0 = some base.hart ∧
    ((waitingHart.hart.wait = some (.vacquire 1 2 0)) ∧ waitingHart.waiters 0 = [(2, waitingHart.hart)] ∧ (waitingHart.coreAt 0).reserved = none ∧
      blockIn (waitingHart.pool 1 0) 2 = some ⟨2, 0⟩) ∧
    ((phased .running .placed).hart.status = .placed ∧ ((phased .running .placed).taskAt 1).map (·.phase) = some .running) ∧
    (((phased .preempting .running).taskAt 1).map (·.phase) = some .preempting ∧ (phased .preempting .running).atBoundary (phased .preempting .running).hart = true) ∧
    ((launching false).partAt 0).map (fun p => p.queues.get 0) = some [qentry false] ∧ (qentry false).eligible = false ∧
    ((launching false).lineWaits (lineOf 0x23000) (wordMask 0x23000 8) = false ∧ (launching false).poisoned 0x23000 8 = false ∧
      (launching false).cohNat 0x23000 8 < rWval (qentry false).record ∧ (launching false).monitorOf (counterMonitor 0 0) = none) ∧
    (((launching true).partAt 0).map (fun p => (p.fatal, [0, 1, 2, 3].flatMap p.cands |>.head?)) = some (false, some (.queue 0)) ∧
      (((launching true).partAt 0).bind fun p => (launching true).plan [] p 1 (qentry true)).isSome = true ∧ kNgrp (qentry true).desc = 0) ∧
    ((phased .preempting .preempted).canSave 1 0 = true ∧ ((phased .preempting .preempted).sys.saves.find? (·.task == 1)).isSome = true ∧
      (phased .preempting .preempted).placeAt 1 0 = some place) ∧
    (((phased .restoring .preempted).taskAt 1).map (·.phase) = some .restoring) ∧
    (let s := { phased .running .running with hart := Hart.empty 0 }
     (∀ h ∈ s.harts, h.status = .empty) ∧ s.taskBusy 1 = false ∧ s.coh.ranges = [] ∧ rDone task.entry.record = false ∧
     rDone (BitVec.ofNat 512 (2 * 2 ^ 368)) = true) := by decide +kernel

def cursor (ids : List (Nat × Nat)) : Cursor := { slot := 0, next := 0, addr := 64, bmax := 0, first := 0, last := 0, ids := ids }
def runOf (probe : Bool) (ids : List (Nat × Nat)) : Run := { probe := probe, hart := 0, floor := 0, curs := [cursor ids], decoded := [], stood := [0xC8] }
def running (probe : Bool) (ids : List (Nat × Nat)) : Session := theSession (some (runOf probe ids)) [term1]
def working (probe : Bool) (ids : List (Nat × Nat)) (l : SkList) : State := engines [running probe ids] [l] []

theorem witness_EngineSteps : ((working false [(5, 1)] theList).atWork 0 0 false = some (running false [(5, 1)]) ∧
      (∀ c ∈ [cursor [(5, 1)]], c.ids = [(5, 1)]) ∧ 5 < planNdoc (running false [(5, 1)]).plan ∧ planPrune (running false [(5, 1)]).plan = false ∧
      matched [term1] [(0, 1)] = true ∧ planNdoc (running false [(200, 1)]).plan ≤ 200) ∧
    lCount term1.list ≤ { cursor [] with next := 1 }.next ∧
    (let l := { theList with entries := [entryOf 1 .matched none, entryOf 2 .unmatched none] }
     (fp32.decode 0x40000000).isNan = false ∧ (fLt fp32 0x40000000 l.theta).1 = false ∧ l.cap ≤ l.entries.length ∧ l.victim.isSome = true ∧
     scoreBelow 0x3F800000 0x40000000 = true ∧ scoreBelow 0x3F800000 0x3F800000 = false ∧ (fp32.decode 0x7FC00000).isNan = true ∧ (l.entries.map (·.doc)).Nodup) ∧
    ((working true [] { theList with entries := [entryOf 200 .none (some 0)] }).atWork 0 0 true = some (running true []) ∧
      (working true [] theList).probeNext (running true []) (runOf true []) = none ∧
      (working true [] { theList with entries := [entryOf 200 .none (some 0)] }).probeNext (running true []) (runOf true []) = some (entryOf 200 .none (some 0)) ∧
      ∀ e ∈ [entryOf 200 .none (some 0)], planNdoc (running true []).plan ≤ e.doc.toNat) := by decide +kernel

/-- A merge of two spans with value 2^63 whose body saturates, with every trap enabled (R371). -/
def trapsInBody : State :=
  let s := { pyState 3 0 (some (.merge 0 [encode (.vsaddVv 0 0 1 0 false false)] 0x1180 40)) [] with
    mem := (base.putNat 0x23000 512 (pyHeader 3 (2 ^ 668 + 0xFF * 2 ^ 320))).mem }
  { s with mem := ((s.putNat (0x24000 + 32) 8 (2 ^ 63)).putNat (0x24000 + 72) 8 (2 ^ 63)).mem }

theorem witness_EngineSteps_anneal : (((pyState 3 0 none []).eligible (aStream none)).map (·.1) = some 0 ∧ (pyState 3 0 none []).eng.streams = [aStream none]) ∧
    (match (pyState 3 (2 ^ 668) (some (.merge 0 [] 0x1180 40)) []).merging 0x23000 with
     | some (_, 0, 0x1180, 40, m, _) => okWith m.out (· == 0) | _ => false) = true ∧
    (match trapsInBody.merging 0x23000 with
     | some (_, 0, 0x1180, 40, m, _) => m.bad.isNone && (match m.out with | .error x => x == (.int, 0) | .ok _ => false) | _ => false) = true ∧
    walks (headerOpen (aStream (some .discard))) (pyState 3 (2 ^ 668) (some .discard) []) (fun _ => true) = true ∧
    (let s := pyState 3 0 none []
     (s.regionReg (aStream none) (annealUnit 0x23000) 0x1180 40).isSome = true ∧ pyLocked.regionReg (aStream none) (annealUnit 0x23000) 0 40 = none) := by decide +kernel

/-- `mop t0, o0, o2` at the head of the vector queue. -/
def mopping : State := on fun h => { h with vs := { h.vs with vq := [{ queued with word := encode (.mop 0 0 2 false false false) }] } }

theorem witness_EngineSteps_mop : mopping.hart.vs.vq.map (fun e => (e.word.toNat / 2 ^ 26, e.last)) = [(49, false)] ∧ mopping.hart.status = .running ∧
    mopSkipped mopping.hart (encode (.mop 0 0 2 false false false)) = false ∧ mopping.slotServes mopping.hart = true ∧ mopping.placeOf mopping.hart = some place ∧
    mopping.mopHeld mopping.hart (encode (.mop 0 0 2 false false false)) = false ∧
    mopping.hart.vs.mopStep < place.mopLen 0 ∧
    (let h := { base.hart with skipd := 0x0050FF02 }; h.skipd.extractLsb' 0 2 = 2 ∧ h.skipd.extractLsb' 16 8 ≤ (0x60 : BitVec 8) ∧ (0x60 : BitVec 8) ≤ h.skipd.extractLsb' 8 8) := by
  decide +kernel

def slotRecord (win slot v : Nat) (s : State) : State := { s with sys := { s.sys with slots := [(512 * win + slot, BitVec.ofNat 512 v)] } }
def faultedHart : State := { base with
  hart := { hart with status := .stopped, tr := { hart.tr with tcause := BitVec.ofNat 64 (2 ^ 63 + 4) } }
  sys := { base.sys with parts := [{ loadPart with faults := [BitVec.ofNat 256 (0 * 2 ^ 192)] }] } }
def postOf (k : Nat) (popped : Bool) : Post := { seq := 0, kind := k, part := 0, id := 1, words := [], popped := popped, verdict := none }
def withSys (f : Sys → Sys) : State := { base with sys := f base.sys }

/-- A host access that is tried again (R355). -/
def retrying : State := { vmapped false 0 with env := { base.env with again := true }, sys := { (vmapped false 0).sys with waiting := [(0, .write 0 8 5)] } }

/-- Its partition waits for its key (R359). -/
def keyless : State := let s := vmapped false 0
  { s with sys := { s.sys with parts := s.sys.parts.map fun p => { p with keyWait := true } } }

theorem witness_HostSteps_order : (base.env.again = false ∧ base.sys.waiting = [] ∧
      (∃ x ∈ (withSys fun y => { y with waiting := [(2, .submit 0 0), (0, .read 0 8)] }).sys.waiting, x.1 = 2 + 0) ∧
      (∃ x ∈ retrying.sys.waiting, x.1 = 0)) ∧
    (retrying.env.again = true ∧ retrying.sys.waiting = (0, .write 0 8 5) :: [] ∧
      (let t := { retrying with env := { retrying.env with again := false } }
       (match t.hostLocs 0 8 .write with | .at_ 0 [(l, 8, 0)] => l.kind == .cached && l.key == 0 | _ => false) = true ∧ Memory.wf t.mem = true)) ∧
    (match keyless.hostLocs 0 8 .write with | .wait => true | _ => false) = true ∧
    (0x8000 = 0x10000 * 0 + 0x8000 ∧ 64 + 8 = 64 * 1 + 8 ∧ 0xC000 + 64 ≤ 0x10000 ∧ 0x90000 ≤ 0xFFFF8) ∧
    ((faultedHart.hartAt 0).map (·.faultHart) = some 0 ∧ 0 < 2 ^ 13 ∧ (match base.template 0 0 0 0 with | (.groups [], _) => true | _ => false) = true ∧
      membersFit 1 [] = true ∧ (loadPart.queues.toList.getD 0 []).length < 64) := by decide +kernel

theorem witness_HostSteps_free : Unowned { retrying with env := { retrying.env with again := false } } (lineOf 0) (wordMask 0 8) := by unfold Unowned; decide +kernel

theorem witness_HostSteps : (base.partAt 1 = none ∧ 511 < 512 ∧ base.partAt 0 = some loadPart ∧ loadPart.keyWait = false ∧ ({ loadPart with keyWait := true }).keyWait = true) ∧
    (let s := (slotRecord 1 0 64 (mapped 1 0x1F)).windowStatus 1 0xFF
     recordOk (Sparse.get 0 s.sys.slots 512) = true ∧ isOk (launchLocs (fun x acc => s.ctxLoc 0 0 x acc) (BitVec.ofNat 512 64)) = true ∧
     (s.ctxUnits 0 0 64 8 8).1 = .val 0 ∧ (∀ x ∈ s.sys.waiting, x.1 ≠ 2) ∧ descriptorOk 0 = false) ∧
    (loadPart.faults = [] ∧ (faultedHart.partAt 0).map (·.faults) = some [0]) ∧
    ((faultedHart.harts.map (·.id)).Nodup ∧ faultedHart.hart.faulted = true ∧ faultedHart.hostMode 0 0 = false ∧ recordHart 0 = hartIdOf 0 ∧
      (faultedHart.taskAt 1).map (·.phase) = some .running ∧ (0 : BitVec 64).toNat % 2 ^ 21 = hartIdOf 0 ∧ (0x100000000 : BitVec 64).getLsbD 32 = true) ∧
    ((withSys fun y => { y with posts := [postOf 1 true] }).sys.posts.all (·.popped) = true ∧ (postOf 1 false).popped = false) ∧
    ((withSys fun y => { y with posts := [postOf 1 true] }).sys.posts.find? (·.seq == bytesAt (0 : BitVec 128) 0 8) = some (postOf 1 true) ∧ (postOf 1 true).verdict = none ∧
      (on fun h => { h with wait := some (.admission 0) }).harts.any (·.wait == some (.admission (bytesAt (0 : BitVec 128) 0 8))) = true ∧
      (postOf 2 true).kind = 2 ∧ (∃ x ∈ [(1, (0 : BitVec 512))], x.1 = (postOf 2 true).id)) ∧
    (8 < 9 ∧ Sparse.wf 0 base.sys.slots = true ∧ Sparse.wf 0 base.sys.buf = true ∧ 0xC000 % 8 = 0 ∧ 0xFFF8 < 0x10000) ∧
    ((match base.hostLocs 0 8 .write with | .refused => true | _ => false) = true ∧
      (let s := vmapped false 0
       (match s.hostLocs 0 8 .write with | .at_ 0 [(l, 8, 0)] => l.kind == .cached && l.key == 0 | _ => false) = true) ∧ Unowned (vmapped false 0) (lineOf 0) (wordMask 0 8)) ∧
    (loadPart.saveOpen = false ∧ ({ loadPart with saveOpen := true, saveArea := (4096, 4096) }).saveArea.2 = 4096 ∧
      Unowned base (lineOf (dramKey 4096)) (wordMask (dramKey 4096) 8)) := by
  refine ⟨by decide +kernel, by decide +kernel, by decide +kernel, by decide +kernel, by decide +kernel, ⟨by decide +kernel, rfl, by decide +kernel, rfl, ⟨_, List.mem_singleton.mpr rfl, rfl⟩⟩, by decide +kernel, ?_, ?_⟩
  · exact ⟨by decide +kernel, by decide +kernel, by unfold Unowned; decide +kernel⟩
  · exact ⟨by decide +kernel, by decide +kernel, by unfold Unowned; decide +kernel⟩

/-- A mapped page of another module, to which a BAR 4 write goes over its link if that module lists this one, which the model leaves open; and
bytes of a host's write on their way. -/
def remotePage : State := { vmapped true 0 with
  sys := { (vmapped true 0).sys with parts := [{ loadPart with vmap := [(0, BitVec.ofNat 64 (3 * 2 ^ 56 + 2 ^ 48 + 0x10D))] }] } }
def hostBytes : State := { vmapped false 0 with coh := { (vmapped false 0).coh with egress := [flying .host] } }

theorem witness_HostSteps_remote : (∃ loc, remotePage.vmapLoc 0 0 0 .write = .ok loc ∧ loc.kind = .remote ∧ loc.module = 3 ∧ loc.peer = Config.peerAllows 3 1) ∧
    hostBytes.hostFlying = true ∧ base.hostFlying = false ∧ (match hostBytes.hostLocs 0 8 .read with | .wait => true | _ => false) = true :=
  ⟨⟨_, rfl, rfl, rfl, rfl⟩, by decide +kernel⟩

/-- A vector store's element that waits, by its global address. -/
def mapBusy : State := on fun h => { h with psf := Vector.set h.psf 0 [{ loc := globalLoc .cached, va := 8, mask := 1, data := 5 }] }
def poisonedLine : State := { base with coh := { base.coh with poison := [0], homes := [
  { HomeLine.fresh 0 with words := Vector.set (Vector.replicate 16 .unreg) 0 .lost }] } }

theorem witness_Commands_waits : mapBusy.mapInUse 0 0 0 = true ∧ base.mapInUse 0 0 0 = false ∧
    ({ loadPart with keyWait := true } : Partition).keyWait = true ∧ (poisonedLine.homeAt 0).word 0 = .lost ∧ 0 ∈ poisonedLine.coh.poison := by decide +kernel

/-- A command record: OP, PART, A0 to A3. -/
def commandOf (op part a0 a1 a2 a3 : Nat) : State :=
  slotRecord 0 0 (op + part * 2 ^ 16 + a0 * 2 ^ 32 + a1 * 2 ^ 64 + a2 * 2 ^ 128 + a3 * 2 ^ 192) base

theorem witness_Commands_order : base.env.again = false ∧ (∀ x ∈ (base.commandStatus 0xFF).sys.waiting, x.1 ≠ 1) ∧
    (∃ x ∈ ((withSys fun y => { y with waiting := [(1, .command 3)] }).commandStatus 0xFF).sys.waiting, x.1 = 1) ∧
    (base.hostLoads 1 = false ∧ (withSys fun y => { y with modes := [(2, 1)] }).hostLoads 1 = true ∧ base.sys.boot.lacks 0 = false) ∧
    (((withSys fun y => { y with posts := List.replicate 64 (postOf 1 false) }).sys.posts.filter fun q => !q.popped).length = 64 ∧
      (base.sys.posts.filter fun q => !q.popped).length < 64) ∧
    ((withSys fun y => { y with tasks := [{ task with phase := .preempting }] }).taskAt 1).map (·.phase) = some .preempting ∧
    ((withSys fun y => { y with tasks := [{ task with phase := .saved }] }).taskAt 1).map (·.phase) = some .saved := by decide +kernel

theorem witness_Commands : (∀ op ∈ [0, 1, 2, 8, 16, 17], let r := (commandOf op 0 0 0 0 0).commandRecord 0
      cOp r = op ∧ restZero r = true ∧ cPart r = 0 ∧ cA0 r = 0) ∧
    restZero ((slotRecord 0 0 (2 ^ 300) base).commandRecord 0) = false ∧ (commandOf 2 8 0 0 0 0).partAt 8 = none ∧
    (let r := (commandOf 2 0 255 65536 0 0).commandRecord 0; cA0 r < 256 ∧ cA1 r % 65536 = 0 ∧ cA1 r < 2 ^ 52 ∧ cA2 r = 0 ∧ cA3 r = 0) ∧
    (base.partAt 0 = some loadPart ∧ loadPart.stacked.1 * 2 ^ 30 ≤ 4096 ∧ 4096 + 4096 ≤ (loadPart.stacked.1 + loadPart.stacked.2) * 2 ^ 30 ∧ base.sys.saves = []) ∧
    (hartIdOf (0 % 2 ^ 13) = 0 ∧ (base.commandStatus 0xFF).taskOfHart 0 0 = some 1 ∧ base.taskOfHart 0 0 = some 1 ∧ (base.taskAt 1).map (·.phase) = some .running ∧ (base.preempt loadPart 1).isNone = true ∧
      (base.preempt { loadPart with saveArea := (0, 2 ^ 30) } 1).isSome = true ∧ hartIdOf (8 * 640 % 2 ^ 13) ≠ 0) ∧
    (base.owns 0 (2 ^ 48) false = true ∧ base.owns 0 0 false = false ∧ loadPart.race = 0) ∧
    (base.bufBytes 0 1568).isSome = true ∧ base.hostMode 0 2 = false ∧ ({ base with sys := { base.sys with modes := [(2, 1)] } } : State).hostMode 0 2 = true ∧
    (inStacked (gibOf (2 ^ 32 * 8 + 1)) = true ∧ inLpddr (gibOf 0) = true ∧ inStacked (gibOf (2 ^ 32 * 768 + 1)) = false ∧
      ∀ p ∈ base.sys.parts, ∀ x ∈ [p.stacked, p.lpddr], gibMeet (gibOf (2 ^ 32 * 8 + 1)) x = false ∧ gibMeet (gibOf 0) x = false) ∧
    (State.reset.partAt 0 = none ∧ State.reset.sys.parts = [] ∧ (base.bufBytes 0 20).isSome = true ∧
      ({ base with sys := { base.sys with tasks := [] } } : State).sys.tasks = []) := by decide +kernel

def errorOf (kind unit : Nat) : BitVec 256 := BitVec.ofNat 256 (unit * 2 ^ 128 + kind * 2 ^ 160)
def tested (w : Tested) (host : Bool) : State := { base with
  places := [], hart := Hart.empty 0, sys := { base.sys with pending := [{ er := errorOf 0 1, what := w, place := 0 }], hostErrors := host } }

def pendingCore : PendingTest := { er := errorOf 0 1, what := .core, place := 0 }
def pendingRow : PendingTest := { er := errorOf 0 1, what := .row, place := 0 }
/-- The ten spares of the row's structure are in the repair map (R389). -/
def spareless : State := withSys fun y => { y with repair := (upTo 10).map fun i => repairEntry (errorOf 0 1) i 0 }

theorem witness_IntegritySteps_links : base.env.again = false ∧ (∃ x ∈ (withSys fun y => { y with waiting := [(17, .remote 1 0 (.load 8))] }).sys.waiting, x.1 = 16 + 1) ∧
    ((2 ^ 48 / 2 ^ 48 % 16) ≠ 0 ∧ base.partAt (2 ^ 48 / 2 ^ 48 % 16 - 1) = some loadPart) ∧ (linkDown 3 []).coh.retrain = [3] ∧
    (∀ n ∈ [0, 2], n < 2 ∨ 2 ≤ n) := by decide +kernel

theorem witness_IntegritySteps_boot : (let b := fun f : Boot → Boot => (withSys fun y => { y with boot := f y.boot }).sys.boot
    (b fun x => { x with begun := some 1 }).undone 0 = [] ∧ 1 ∈ (b fun x => { x with begun := some 1, alternatives := [1] }).undone 0 ∧
    (let x := b fun x => { x with running := true, alternatives := [3] }; x.running = true ∧ x.complete = false ∧ 3 ∈ x.undone 3 ∧ 4 ∉ x.undone 4 ∧ 2 ∉ x.undone 2) ∧
    base.sys.boot.undone 0 = [] ∧ base.sys.boot.complete = false ∧
    (b fun x => { x with accepted := some 4 }).accepted = some 4 ∧ base.sys.boot.accepted = none ∧ base.sys.boot.bootHost = false) := by decide +kernel

theorem witness_IntegritySteps : (∀ k ∈ [0, 1], recKind (errorOf k 7) = k ∧ recUnit (errorOf k 7) = 7) ∧
    ((tested .core false).testable pendingCore = true ∧ (tested .core false).thrice pendingCore = false ∧
      0 ∈ (tested .core false).spares pendingCore ∧ (tested .row false).spares pendingRow ≠ [] ∧ spareless.spares pendingRow = [] ∧
      (∀ hl ∈ (tested .core false).coh.homes, hl.serving = [] ∧ hl.locked = false) ∧ (tested .core false).sys.repair.length < 4096 ∧
      (tested .core false).sys.hostErrors = false ∧ (tested .core true).sys.hostErrors = true) ∧
    (let w := BitVec.ofNat 128 (2 ^ 96 + 1 * 2 ^ 80); w.toNat / 2 ^ 96 = 1 ∧ bytesAt w 0 8 = recAddr (errorOf 0 1) ∧ bytesAt w 8 2 = recWhere (errorOf 0 1) ∧
      bytesAt w 10 2 = recUnit (errorOf 0 1)) ∧
    (base.coh.retrain.any (· == 1) = false ∧ ({ base with coh := { base.coh with down := [1], retrain := [1] } } : State).coh.retrain.any (· == 1) = true) ∧
    ((1 : Nat) ∉ loadPart.peers ∧ (1 : Nat) ∈ ({ loadPart with peers := [1] }).peers ∧ 0 < 2 ^ 48 / 2 ^ 48 % 16 ∧ base.owns 0 (2 ^ 48 % 2 ^ 52) false = true ∧
      Memory.wf base.mem = true) ∧ Unowned base (lineOf (dramKey (2 ^ 48 % 2 ^ 52))) (wordMask (dramKey (2 ^ 48 % 2 ^ 52)) 8) ∧
    (base.sys.boot.begun = none ∧ base.sys.boot.alternatives = [] ∧ base.sys.boot.running = false ∧ 0 ∉ base.sys.boot.alternatives) :=
  by unfold Unowned; decide +kernel

theorem witness_StepKeepsCanonical : Memory.wf (loaded 0x18A63800).mem = true ∧ (loaded 0x18A63800).placesCanonical = true ∧
    isNext (step (loaded 0x18A63800)) = true := by decide +kernel

/-! ### One step each, against results worked out by hand from the rule named -/

/-- R112: addition wraps at 2^64, and the PC moves on by 4. -/
theorem test_add_wraps : holds (exec (.add 1 2 3) (xs [(2, -1), (3, 2)])) (fun t => t.get 1 == 1 && t.hart.pc == 4) = true := by decide +kernel
/-- R112: an arithmetic shift takes its amount modulo 64 and copies the sign. -/
theorem test_sra : holds (exec (.sra 1 2 3) (xs [(2, 0x8000000000000000), (3, 68)])) (fun t => t.get 1 == 0xF800000000000000) = true := by
  decide +kernel
/-- R113: `slti` extends its immediate by sign. -/
theorem test_slti : holds (exec (.slti 1 2 0xFFFF) (xs [(2, -2)])) (fun t => t.get 1 == 1) = true := by decide +kernel
/-- R114: (-1) x (-1) has the high half 0, and as unsigned numbers 2^64 - 2. -/
theorem test_mulh : holds (exec (.mulh 1 2 2) (xs [(2, -1)])) (fun t => t.get 1 == 0) = true ∧
    holds (exec (.mulhn 1 2 2) (xs [(2, -1)])) (fun t => t.get 1 == 0xFFFFFFFFFFFFFFFE) = true := by decide +kernel
/-- R114: -7 divided by 2 is -3, with remainder -1; division by zero sets DZ and gives all ones. -/
theorem test_div : holds (exec (.div 1 2 3) (xs [(2, -7), (3, 2)])) (fun t => t.get 1 == -3) = true ∧
    holds (exec (.rem 1 2 3) (xs [(2, -7), (3, 2)])) (fun t => t.get 1 == -1) = true ∧
    holds (exec (.div 1 2 3) (xs [(2, 5)])) (fun t => t.get 1 == -1) = true := by decide +kernel
/-- R120: 1.0 + 2.0 = 3.0 in FP32; R121: 2.5 to s32 is 2 with NX. -/
theorem test_fadd : holds (exec (.fadd 1 2 3 false .rne) (xs [(2, 0x3F800000), (3, 0x40000000)])) (fun t => t.get 1 == 0x40400000) = true ∧
    holds (exec (.fcvtTos32 1 2 false .rne) (xs [(2, 0x40200000)])) (fun t => t.get 1 == 2 && t.hart.fl.flags.getLsbD 3) = true := by
  decide +kernel
/-- R121: an unordered compare is false. -/
theorem test_fcmp : holds (exec (.fcmpEq 1 2 2 false) (xs [(2, 0x7FC00000)])) (fun t => t.get 1 == 0) = true ∧
    holds (exec (.fcmpUn 1 2 2 false) (xs [(2, 0x7FC00000)])) (fun t => t.get 1 == 1) = true := by decide +kernel
/-- R123: a branch of -1 words from PC 0 goes to 2^64 - 4. -/
theorem test_branch : holds (exec (.bEq 0 0 0x1FFF) base) (fun t => t.hart.pc == 0xFFFFFFFFFFFFFFFC) = true := by decide +kernel
/-- R124, R23: `trap` saves its PC and code and goes to the handler. -/
theorem test_trap : holds (exec (.trap 5) base) (fun t => t.hart.pc == 0x1000 && t.hart.tr.tval == 5 && t.hart.tr.tcause == 0x8000000000000014 &&
    t.hart.tr.tpc == 0) = true := by decide +kernel
/-- R115, R116: a load of a signed byte of 0x80 at offset 1. -/
theorem test_load : holds (exec (.ldS8 1 2 1) { atPad with mem := (atPad.putNat (spadKey 0 1) 1 0x80).mem }) (fun t => t.get 1 == 0xFFFFFFFFFFFFFF80) = true := by
  decide +kernel
/-- R117: an atomic minimum of 32 bits compares as signed, and returns the old word extended by sign. -/
theorem test_amo_min : holds (exec (.amoMin 1 2 3 false .core false false) { xs [(2, pad), (3, 1)] with mem := (atPad.putNat (spadKey 0 0) 4 0xFFFFFFFE).mem })
    (fun t => t.get 1 == -2 && t.memNat (spadKey 0 0) 4 == 0xFFFFFFFE) = true := by decide +kernel
/-- R117: `cas` stores where the word matches x[D]. -/
theorem test_cas : holds (exec (.cas 1 2 3 true .core false false) (xs [(2, pad), (3, 9)])) (fun t => t.get 1 == 0 && t.memNat (spadKey 0 0) 8 == 9) = true := by
  decide +kernel
/-- R127: FLAGS is register 0x010. -/
theorem test_sysput : holds (exec (.sysput 2 0 0x10) (xs [(2, 0xFF3)])) (fun t => t.hart.fl.flags == 0xFF3) = true := by decide +kernel
/-- R11, R145: VL is the lesser of the wish and VLMAX, 16 elements of 32 bits in one quad. -/
theorem test_vsetl : holds (exec (.vsetl 1 2) (xs [(2, 100)])) (fun t => t.get 1 == 16 && t.hart.vr.vl == 16) = true := by decide +kernel

/-- v2 holds 1, 2, 3, 4 and v3 holds 10, 20, 30, 40. -/
def vectors : State := { ints with hart := { ints.hart with v := Vector.set (Vector.set ints.hart.v 2
  (BitVec.ofNat 4096 (1 + 2 * 2 ^ 32 + 3 * 2 ^ 64 + 4 * 2 ^ 96))) 3 (BitVec.ofNat 4096 (10 + 20 * 2 ^ 32 + 30 * 2 ^ 64 + 40 * 2 ^ 96)) } }

/-- R140, R146: elementwise subtraction below VL; elements past VL keep their old value. -/
theorem test_vsub : holds (exec (.vsubVv 1 3 2 0 false false) vectors)
    (fun t => t.elem 1 0 == 9 && t.elem 1 3 == 36 && t.elem 1 4 == 0) = true := by decide +kernel
/-- R157: the sum of 1 to 4 with the initial value x3 = 4 is 14, pushed to q4. -/
theorem test_vred_sum : holds (exec (.vredSum 28 2 3 0 false false) vectors) (fun t => t.hart.queue 4 == [14]) = true := by decide +kernel
/-- R151, R152: elements 1, 2, 3 are below 4; a population count of that mask is 3. -/
theorem test_vcmp : holds (exec (.vcmpLtVx 1 2 3 0 false false) vectors) (fun t => (t.hart.kreg 1).toNat == 7) = true := by decide +kernel
/-- R170, R281: a store leaves its line with its byte mask in a plane store FIFO. -/
theorem test_vst : holds (exec (.vst 3 2 0 false false) vectors) (fun t => t.hart.queuedByte (spadKey 0 0) == some 10 && t.hart.queuedByte (spadKey 0 12) == some 40 &&
    t.hart.queuedByte (spadKey 0 16) == none) = true := by decide +kernel
/-- R206: `mzero` sets the side entry of a row to -infinity and its reference to none. -/
theorem test_mzero : holds (exec (.mzero 0) vectors) (fun t => (t.myPlace.map fun p => p.acc 0 0 0) == some 0) = true := by decide +kernel
/-- R192: the last arrival of a barrier changes its phase and answers the phase it ended. -/
theorem test_bar_arrive : holds (exec (.barArrive 1 2 3) barred) (fun t => t.get 1 == 0 &&
    t.barAt (spadKey 0 0) == { exp := 2, left := 2, tx := 0, p := true, broken := false }) = true := by decide +kernel
/-- R196: `zrd` reads four elements and moves on by four; `zpeek` does not move. -/
theorem test_zrd : holds (exec (.zrd 4 1) (bound 0)) (fun t => (t.hart.z.get 1).map (·.progress) == some 4) = true ∧
    holds (exec (.zpeek 4 1) (bound 0)) (fun t => (t.hart.z.get 1).map (·.progress) == some 0) = true := by decide +kernel
/-- R248: an append to an empty stream answers 0, and the level holds one span. -/
theorem test_py_app : holds (exec (.pyApp 1 2 3) (pyState 0 0 none [(2, 0x23000), (3, pad)]))
    (fun t => t.get 1 == 0 && (t.header (aStream none)).occ 0 == 1) = true := by decide +kernel

end Sys2Proof.Tests
end

section
/-! PROOFS. The machine state (01): traps and returns (R23, R24), the event registers (R21), the system registers (R27, R127) and reset
(R391). -/
namespace Sys2Proof.Machine

/-! ### Taking a trap (R23) -/

/-- What a trap writes to a hart, field by field (R23, R24): it stops, or continues at TVEC. -/
theorem Hart.trapped_eq (h : Hart) (b : Bool) (c : Cause) (v p : Word) (e : Nat) (n : Option Word) :
    h.trapped b c v p e n = { h with
      tr := trapRegs h.tr c v p e n, wait := none, restart := none, vs := { h.vs.parkLoop n.isSome with conv := .fresh }
      status := if b then .stopped else h.status, pc := if b then h.pc else h.tr.tvec } := by
  cases b <;> rfl

@[simp] theorem VStream.parkLoop_vq (v : VStream) (b : Bool) : (v.parkLoop b).vq = v.vq := by
  unfold VStream.parkLoop; split <;> (try split) <;> rfl
@[simp] theorem VStream.parkLoop_parked (v : VStream) (b : Bool) : (v.parkLoop b).parked = v.parked := by
  unfold VStream.parkLoop; split <;> (try split) <;> rfl
@[simp] theorem VStream.parkLoop_trapped (v : VStream) (b : Bool) : (v.parkLoop b).trapped = v.trapped := by
  unfold VStream.parkLoop; split <;> (try split) <;> rfl

section
variable (c : Cause) (v p : Word) (e : Nat) (n : Option Word) (s : State)

/-- The hart that took a trap: every field but the number for a fault record is as `Hart.trapped_eq` says. -/
theorem takeTrap_hart : (takeTrap c v p e n s).hart = { s.hart with
    tr := trapRegs s.hart.tr c v p e n, wait := none, restart := none, vs := { s.hart.vs.parkLoop n.isSome with conv := .fresh }
    status := if s.hart.inHandler || unhandled (s.descOf s.hart) c then .stopped else s.hart.status
    pc := if s.hart.inHandler || unhandled (s.descOf s.hart) c then s.hart.pc else s.hart.tr.tvec
    faultHart := (takeTrap c v p e n s).hart.faultHart } := by
  have h := (takeTrap_frame c v p e n s).1
  rw [Hart.trapped_eq] at h
  exact h

@[simp] theorem takeTrap_tr : (takeTrap c v p e n s).hart.tr = trapRegs s.hart.tr c v p e n := by rw [takeTrap_hart]
@[simp] theorem takeTrap_pc : (takeTrap c v p e n s).hart.pc =
    if s.hart.inHandler || unhandled (s.descOf s.hart) c then s.hart.pc else s.hart.tr.tvec := by rw [takeTrap_hart]
@[simp] theorem takeTrap_status : (takeTrap c v p e n s).hart.status =
    if s.hart.inHandler || unhandled (s.descOf s.hart) c then .stopped else s.hart.status := by rw [takeTrap_hart]
@[simp] theorem takeTrap_vs : (takeTrap c v p e n s).hart.vs = { s.hart.vs.parkLoop n.isSome with conv := .fresh } := by rw [takeTrap_hart]
@[simp] theorem takeTrap_get (r : Reg) : (takeTrap c v p e n s).get r = s.get r := by unfold State.get; rw [takeTrap_hart]; rfl
@[simp] theorem takeTrap_mem : (takeTrap c v p e n s).mem = s.mem := by
  obtain ⟨-, -, -, -, hmem, -⟩ := takeTrap_frame c v p e n s
  exact hmem

/-- A trap keeps every register but those of the trap and the PC (R23). -/
theorem takeTrap_keepsOther : KeepsOther s (takeTrap c v p e n s) := by
  obtain ⟨-, hothers, hplaces, -, -, heng, -⟩ := takeTrap_frame c v p e n s
  unfold KeepsOther
  rw [takeTrap_hart]
  exact ⟨rfl, rfl, rfl, rfl, rfl, rfl, rfl, rfl, rfl, rfl, rfl, rfl, rfl, rfl, hothers, hplaces, heng⟩

/-- A trap that posts no fault record leaves the system side as it is (R338). -/
theorem takeTrap_sys (h : c.isPageFault = false ∨ (s.hart.inHandler || unhandled (s.descOf s.hart) c) = false) :
    (takeTrap c v p e n s).sys = s.sys := by
  have hserve : (c.isPageFault && (s.hart.inHandler || unhandled (s.descOf s.hart) c)) = false := by
    rcases h with h | h <;> simp [h]
  simp only [takeTrap, hserve]
  rfl

/-- A trap that stops the hart for page-fault service posts its fault record to the partition's queue, while that has room (R338, R356). -/
theorem takeTrap_faults (q : Partition) (hc : c.isPageFault = true) (hstop : (s.hart.inHandler || unhandled (s.descOf s.hart) c) = true)
    (hq : s.partAt s.hart.tk.part = some q) (hroom : q.faults.length < 256) :
    (takeTrap c v p e n s).partAt s.hart.tk.part =
      some { q with faults := q.faults ++ [faultRecord (takeTrap c v p e n s).hart] } := by
  have hserve : (c.isPageFault && (s.hart.inHandler || unhandled (s.descOf s.hart) c)) = true := by rw [hc, hstop]; rfl
  have hid : q.id = s.hart.tk.part := by simpa using List.find?_some hq
  have hput (h : Hart) (u : State) (hh : h.tk.part = s.hart.tk.part) (hu : u.partAt s.hart.tk.part = some q) :
      (postFault h u).partAt s.hart.tk.part = some { q with faults := q.faults ++ [faultRecord h] } := by
    unfold State.partAt at hu ⊢
    unfold postFault State.onPart
    rw [find?_updIf _ _ _ (fun a => by split <;> rfl), hu]
    simp [hid, hh, hroom]
  simp only [takeTrap, hserve, if_true]
  exact hput _ _ (by rw [Hart.trapped_eq]) hq
end

/-- The hart with the words behind a trapping one parked (R24). -/
def State.parking (s : State) (e : VEntry) (kept : Option Word) : State := s.onHart fun h =>
  { h with vs := { h.vs with vq := [], parked := h.vs.vq ++ h.vs.parked, trapped := some { e with kept := kept }, blocked := false } }

/-- A trap that the vector stream takes parks the words and is then taken as any other, with TNPC (R24). -/
theorem parkTrap_eq (e : VEntry) (kept : Option Word) (c : Cause) (v : Word) (eri : Nat) (s : State) :
    parkTrap e kept c v eri s = takeTrap c v e.pc eri (some s.hart.pc) (s.parking e kept) := rfl

/-- `brk` outside debug takes BREAK (R124). -/
theorem exec_brk_trap (s : State) (hd : s.hart.debug = false) : exec .brk s = .next (s.trap .brk 0) := by
  show execBrk s = _
  rw [execBrk, hd]; rfl
/-- `brk` under debug stops the hart for `fettle` (R124). -/
theorem exec_brk_debug (s : State) (hd : s.hart.debug = true) :
    exec .brk s = .next { s with hart := { s.hart with status := .debugStop } } := by
  show execBrk s = _
  rw [execBrk, hd]; rfl

theorem Cause.code_lt (c : Cause) : c.code < 32 := by cases c <;> decide

section
variable (t : TrapRegs) (c : Cause) (v p : Word) (e : Nat) (n : Option Word)
@[simp] theorem trapRegs_tvec : (trapRegs t c v p e n).tvec = t.tvec := by cases t; rfl
@[simp] theorem trapRegs_tval : (trapRegs t c v p e n).tval = v := rfl
@[simp] theorem trapRegs_tpc : (trapRegs t c v p e n).tpc = p := rfl
@[simp] theorem trapRegs_eri : (trapRegs t c v p e n).eri = BitVec.ofNat 64 e := rfl
@[simp] theorem trapRegs_tnpc : (trapRegs t c v p e n).tnpc = n.getD 0 := rfl
end

/-- TCAUSE after a trap of the scalar pipe: the code and IH (R23). -/
theorem trapRegs_tcause_none (t : TrapRegs) (c : Cause) (v p : Word) (e : Nat) :
    (trapRegs t c v p e none).tcause = BitVec.ofNat 64 (c.code + 2 ^ 63) := by simp [trapRegs]
/-- TCAUSE after a trap that parks words: the code, IH and PK (R24). -/
theorem trapRegs_tcause_some (t : TrapRegs) (c : Cause) (v p n : Word) (e : Nat) :
    (trapRegs t c v p e (some n)).tcause = BitVec.ofNat 64 (c.code + 2 ^ 63 + 2 ^ 62) := by simp [trapRegs]
/-- A trap of the scalar pipe sets IH and clears PK (R23). -/
theorem trapRegs_bits_none (t : TrapRegs) (c : Cause) (v p : Word) (e : Nat) :
    (trapRegs t c v p e none).tcause.getLsbD 63 = true ∧ (trapRegs t c v p e none).tcause.getLsbD 62 = false := by
  have := c.code_lt
  rw [trapRegs_tcause_none]
  simp only [BitVec.getLsbD_ofNat, Nat.testBit_eq_decide_div_mod_eq]
  constructor <;> simp <;> omega

/-- Settles O7: `takeTrap` writes the trap registers, the PC and the status alone, and posts a fault record only when it stops the hart. -/
theorem trapEntry : Obligations.TrapEntry := by
  unfold Obligations.TrapEntry
  refine ⟨?handled, ?stopped, ?parked, fun s c => rfl, ?brk, ?debug⟩
  case handled =>
    intro s c v eri hin hun t
    have hgo : (s.hart.inHandler || unhandled (s.descOf s.hart) c) = false := by rw [hin, hun]; rfl
    have ht : t = takeTrap c v s.hart.pc eri none s := rfl
    rw [ht]
    refine ⟨?goTcause, ?goIh, ?goPk, ?_, ?_, ?_, ?_, ?_, ?goPc, ?goStatus, takeTrap_get c v _ eri none s, takeTrap_keepsOther ..,
      takeTrap_mem .., takeTrap_sys c v _ eri none s (.inr hgo)⟩
    case goTcause => rw [takeTrap_tr, trapRegs_tcause_none]
    case goIh => rw [Hart.inHandler, takeTrap_tr]; exact (trapRegs_bits_none ..).1
    case goPk => rw [Hart.parkedBit, takeTrap_tr]; exact (trapRegs_bits_none ..).2
    case goPc => rw [takeTrap_pc, hgo]; rfl
    case goStatus => rw [takeTrap_status, hgo]; rfl
    all_goals simp
  case stopped =>
    intro s c v eri hor t
    have hstop : (s.hart.inHandler || unhandled (s.descOf s.hart) c) = true := by rw [Bool.or_eq_true]; exact hor
    have ht : t = takeTrap c v s.hart.pc eri none s := rfl
    rw [ht]
    refine ⟨?stopStatus, ?stopPc, takeTrap_get c v _ eri none s, takeTrap_keepsOther .., takeTrap_mem .., ?_, ?_,
      fun hc => takeTrap_sys c v _ eri none s (.inl hc), ?stopFaults⟩
    case stopStatus => rw [takeTrap_status, hstop]; rfl
    case stopPc => rw [takeTrap_pc, hstop]; rfl
    case stopFaults => exact fun hc p hp hroom => ⟨_, takeTrap_faults c v _ eri none s p hc hstop hp hroom, rfl⟩
    all_goals simp
  case parked =>
    intro s e kept c v eri hin hun t
    let u := s.parking e kept
    have hgo : (u.hart.inHandler || unhandled (u.descOf u.hart) c) = false := by
      show (s.hart.inHandler || unhandled (s.descOf s.hart) c) = false
      rw [hin, hun]; rfl
    have ht : t = takeTrap c v e.pc eri (some s.hart.pc) u := parkTrap_eq ..
    rw [ht]
    refine ⟨?parkTcause, ?_, ?_, ?_, ?_, ?parkPc, ?parkParked, ?parkVq, ?parkTrapped, takeTrap_get c v e.pc eri _ u, takeTrap_keepsOther c v e.pc eri _ u,
      takeTrap_mem c v e.pc eri _ u⟩
    case parkTcause => rw [takeTrap_tr, trapRegs_tcause_some]
    case parkPc => rw [takeTrap_pc, hgo]; rfl
    case parkParked => rw [takeTrap_vs]; exact VStream.parkLoop_parked _ _
    case parkVq => rw [takeTrap_vs]; exact VStream.parkLoop_vq _ _
    case parkTrapped => rw [takeTrap_vs]; exact VStream.parkLoop_trapped _ _
    all_goals simp [takeTrap_tr]
  case brk => exact exec_brk_trap
  case debug => exact exec_brk_debug

/-! ### `eret` while a loop of the handler runs (R197, log entry 136) -/

/-- With one loop buffer, `eret` waits while a loop of the handler runs and another is set aside (log entry 136). -/
theorem exec_eret_loopsClash (s : State) (hin : s.hart.inHandler = true) (hpk : s.hart.parkedBit = false) (ha : s.hart.tr.tpc.toNat % 4 = 0)
    (hl : s.hart.vs.loopsClash = true) : exec .eret s = .next (s.waitFor .vector) := by
  show execEret s = _
  simp [execEret, hin, hpk, ha, hl]

/-- A `vadd.vv` that the body of a `zloop` holds. -/
def bodyWord : VEntry := { word := 0x84221800#32, pc := 8, xa := 0, xb := 0, xc := 0, loop := true, last := true }

/-- A hart in its handler with PK clear, an aligned TPC, a `zloop` of the handler that has a replay left, and the `zloop` set aside by the trap,
whose body was not whole. -/
def loopingHandler : State := { State.reset with hart := { Hart.empty 0 with
  status := .running, pc := 12
  tr := { (Hart.empty 0).tr with tcause := 0x8000000000000000#64 }
  vs := { (Hart.empty 0).vs with
    vq := [bodyWord]
    loop := some { first := 8, words := 1, body := [bodyWord], left := 1 }
    parkedLoop := some { first := 0, words := 2, body := [], left := 1 } } } }

/-- Refutes O8: in `loopingHandler` the premises of its first clause hold, and `eret` waits for the vector stream, in the handler still, as log
entry 136 says. -/
theorem not_eretReturns : ¬ Obligations.EretReturns := by
  unfold Obligations.EretReturns
  rintro ⟨returns, -⟩
  obtain ⟨t, ht, -, hout, -⟩ := returns loopingHandler (by decide) (by decide) (by decide)
  rw [exec_eret_loopsClash loopingHandler (by decide) (by decide) (by decide) (by decide)] at ht
  injection ht with ht
  rw [← ht] at hout
  exact absurd hout (by decide)

/-! ### The event registers (R21) -/

/-- The lowest element that raised a class is the least of the elements that hold it. -/
theorem lowestOf_eq_min? (evs : List (Nat × Ev)) (c : Nat) :
    lowestOf evs c = ((evs.filter fun p => p.2.has c).map (·.1)).min? := by
  unfold lowestOf
  cases evs.filter fun p => p.2.has c with
  | nil => rfl
  | cons p r =>
    rw [List.foldl_cons, List.map_cons, List.min?_cons']
    generalize p.1 = m
    induction r generalizing m with
    | nil => rfl
    | cons q r ih => exact ih (min m q.1)

theorem lowestOf_eq_none_iff (evs : List (Nat × Ev)) (c : Nat) :
    lowestOf evs c = none ↔ (evs.any fun p => p.2.has c) = false := by
  simp [lowestOf_eq_min?]

theorem lowestOf_eq_some {evs : List (Nat × Ev)} {c e : Nat} (h : lowestOf evs c = some e) :
    (∃ v, (e, v) ∈ evs ∧ v.has c = true) ∧ ∀ p ∈ evs, p.2.has c = true → e ≤ p.1 := by
  rw [lowestOf_eq_min?, List.min?_eq_some_iff] at h
  obtain ⟨hmem, hle⟩ := h
  refine ⟨by simpa using hmem, fun p hp hc => hle _ (List.mem_map_of_mem (List.mem_filter.2 ⟨hp, hc⟩))⟩

/-- Of the steps of a fold over different indices, one changes what `g` sees of the state. -/
theorem foldl_view {σ ι α : Type} (f : σ → ι → σ) (g : σ → α) (k : α → α) (c : ι) (hne : ∀ s d, d ≠ c → g (f s d) = g s)
    (heq : ∀ s, g (f s c) = k (g s)) : ∀ (l : List ι) (s : σ), l.Nodup → c ∈ l → g (l.foldl f s) = k (g s)
  | d :: l, s, hn, hc => by
    obtain ⟨hd, hl⟩ := List.nodup_cons.1 hn
    rw [List.foldl_cons]
    by_cases hdc : d = c
    · subst hdc
      have hrest : ∀ l : List ι, d ∉ l → ∀ t, g (l.foldl f t) = g t := by
        intro l
        induction l with
        | nil => exact fun _ _ => rfl
        | cons a l ih =>
          intro ha t
          rw [List.mem_cons, not_or] at ha
          exact (ih ha.2 _).trans (hne t a (Ne.symm ha.1))
      rw [hrest l hd, heq]
    · have hcl : c ∈ l := (List.mem_cons.1 hc).resolve_left (Ne.symm hdc)
      rw [foldl_view f g k c hne heq l _ hl hcl, hne s d hdc]

/-- What FLAGS and the event registers hold of a class: its sticky bit, EIX and EPC (R21). -/
def FlagRegs.view (fl : FlagRegs) (c : Fin 6) : Bool × BitVec 16 × Word :=
  (fl.flags.getLsbD (7 - c.val), fl.eix.get c, fl.epc.get c)

/-- What recording events makes of a class (R21). -/
def recordView (evs : List (Nat × Ev)) (pc : Word) (c : Fin 6) (x : Bool × BitVec 16 × Word) : Bool × BitVec 16 × Word :=
  match lowestOf evs c.val with
  | none => x
  | some e => (true, if x.2.1 = 0xFFFF#16 then (BitVec.ofNat 16 e, pc) else x.2)

/-- What a write of FLAGS makes of a class whose sticky bit it has written (R21). -/
def clearView (x : Bool × BitVec 16 × Word) : Bool × BitVec 16 × Word := if x.1 then x else (false, 0xFFFF#16, 0)

/-- One bit of a word that is not ORed in. -/
theorem getLsbD_or_bit (x : BitVec 16) (k b : Nat) (hk : k < 16) :
    (x ||| (1#16 <<< k)).getLsbD b = (x.getLsbD b || decide (b = k)) := by
  rw [BitVec.getLsbD_or]
  congr 1
  by_cases h : b = k
  · subst h; simp [hk]
  · simp [h]; omega

/-- Recording a class ORs its sticky bit alone into FLAGS. -/
theorem recordClass_flags (evs : List (Nat × Ev)) (pc : Word) (fl : FlagRegs) (c : Fin 6) (b : Nat) :
    (recordClass evs pc fl c).flags.getLsbD b = (fl.flags.getLsbD b || (lowestOf evs c.val).isSome && decide (b = 7 - c.val)) := by
  unfold recordClass
  cases lowestOf evs c.val with
  | none => simp
  | some e =>
    dsimp only
    split <;> simpa using getLsbD_or_bit fl.flags (7 - c.val) b (by omega)

theorem recordClass_view_self (evs : List (Nat × Ev)) (pc : Word) (c : Fin 6) (fl : FlagRegs) :
    (recordClass evs pc fl c).view c = recordView evs pc c (fl.view c) := by
  have hbit := recordClass_flags evs pc fl c (7 - c.val)
  unfold FlagRegs.view recordView
  rw [hbit]
  unfold recordClass
  cases lowestOf evs c.val with
  | none => simp
  | some e => by_cases h : fl.eix[c.val] = 0xFFFF#16 <;> simp [h, Vector.get_eq_getElem]

theorem recordClass_view_ne (evs : List (Nat × Ev)) (pc : Word) (c : Fin 6) (fl : FlagRegs) (d : Fin 6) (h : d ≠ c) :
    (recordClass evs pc fl d).view c = fl.view c := by
  have hv : d.val ≠ c.val := fun e => h (Fin.ext e)
  have hbit := recordClass_flags evs pc fl d (7 - c.val)
  rw [decide_eq_false (by omega), Bool.and_false, Bool.or_false] at hbit
  unfold FlagRegs.view
  rw [hbit]
  unfold recordClass
  cases lowestOf evs d.val with
  | none => rfl
  | some e => by_cases h : fl.eix[d.val] = 0xFFFF#16 <;> simp [h, Vector.get_eq_getElem, hv]

theorem nodup_classes : ([0, 1, 2, 3, 4, 5] : List (Fin 6)).Nodup := by decide
theorem mem_classes (c : Fin 6) : c ∈ ([0, 1, 2, 3, 4, 5] : List (Fin 6)) := by revert c; decide

/-- Recording events changes each class as its own elements say (R21). -/
theorem recordEvs_view (evs : List (Nat × Ev)) (pc : Word) (fl : FlagRegs) (c : Fin 6) :
    (recordEvs evs pc fl).view c = recordView evs pc c (fl.view c) :=
  foldl_view (recordClass evs pc) (·.view c) (recordView evs pc c) c (recordClass_view_ne evs pc c) (recordClass_view_self evs pc c) _ fl
    nodup_classes (mem_classes c)

/-- Recording events leaves TRIM, BRK and the enables (R20, R21). -/
theorem recordEvs_flags_other (evs : List (Nat × Ev)) (pc : Word) (fl : FlagRegs) (b : Nat) (hb : b < 2 ∨ 8 ≤ b) :
    (recordEvs evs pc fl).flags.getLsbD b = fl.flags.getLsbD b := by
  have hkeep (g : FlagRegs) (c : Fin 6) : (recordClass evs pc g c).flags.getLsbD b = g.flags.getLsbD b := by
    rw [recordClass_flags, decide_eq_false (by omega), Bool.and_false, Bool.or_false]
  simp only [recordEvs, List.foldl_cons, List.foldl_nil, hkeep]

theorem clearClass_flags (fl : FlagRegs) (c : Fin 6) : (clearClass fl c).flags = fl.flags := by
  unfold clearClass; split <;> rfl

theorem clearClass_view_self (c : Fin 6) (fl : FlagRegs) : (clearClass fl c).view c = clearView (fl.view c) := by
  unfold clearClass clearView FlagRegs.view
  by_cases h : fl.flags.getLsbD (7 - c.val) = true <;> simp [h, Vector.get_eq_getElem]

theorem clearClass_view_ne (c : Fin 6) (fl : FlagRegs) (d : Fin 6) (h : d ≠ c) : (clearClass fl d).view c = fl.view c := by
  have hv : d.val ≠ c.val := fun e => h (Fin.ext e)
  unfold FlagRegs.view
  rw [clearClass_flags]
  unfold clearClass
  split
  · rfl
  · simp [Vector.get_eq_getElem, hv]

/-- A write of FLAGS sets all its bits (R20). -/
theorem writeFlags_flags (fl : FlagRegs) (w : BitVec 16) : (writeFlags fl w).flags = w := by
  simp only [writeFlags, List.foldl_cons, List.foldl_nil, clearClass_flags]

/-- A write of FLAGS resets the event registers of each class that it leaves 0 (R21). -/
theorem writeFlags_view (fl : FlagRegs) (w : BitVec 16) (c : Fin 6) :
    (writeFlags fl w).view c = clearView (w.getLsbD (7 - c.val), fl.eix.get c, fl.epc.get c) :=
  foldl_view clearClass (·.view c) clearView c (clearClass_view_ne c) (clearClass_view_self c) _ { fl with flags := w } nodup_classes (mem_classes c)

/-- Settles O12: the fold over the six classes changes each class once, as its own elements say, and no other bit of FLAGS. -/
theorem eventRegisters : Obligations.EventRegisters := by
  unfold Obligations.EventRegisters
  refine ⟨?record, ?write⟩
  case record =>
    intro evs pc fl c t
    have hview : t.view c = recordView evs pc c (fl.view c) := recordEvs_view evs pc fl c
    have hother : ∀ b, b < 2 ∨ 8 ≤ b → t.flags.getLsbD b = fl.flags.getLsbD b := fun b => recordEvs_flags_other evs pc fl b
    have hnone := lowestOf_eq_none_iff evs c.val
    unfold recordView FlagRegs.view at hview
    cases hlow : lowestOf evs c.val with
    | none =>
      have hany := hnone.1 hlow
      rw [hlow, Prod.mk.injEq, Prod.mk.injEq] at hview
      obtain ⟨hbit, heix, hepc⟩ := hview
      refine ⟨by rw [hbit, hany, Bool.or_false], hother, fun h => absurd h (by simp [hany]), fun _ => ⟨heix, hepc⟩⟩
    | some e =>
      have hany : (evs.any fun p => p.2.has c.val) = true := by
        rw [← Bool.not_eq_false, ← hnone, hlow]; exact Option.some_ne_none e
      obtain ⟨hin, hleast⟩ := lowestOf_eq_some hlow
      rw [hlow, Prod.mk.injEq] at hview
      obtain ⟨hbit, hregs⟩ := hview
      refine ⟨by rw [hbit, hany, Bool.or_true], hother, fun _ hfree => ?_, fun hkept => ?_⟩
      · rw [if_pos hfree, Prod.mk.injEq] at hregs
        exact ⟨e, hin, hleast, hregs⟩
      · rw [if_neg (hkept.resolve_left (by simp [hany])), Prod.mk.injEq] at hregs
        exact hregs
  case write =>
    intro fl w c
    have hview := writeFlags_view fl w c
    unfold clearView FlagRegs.view at hview
    refine ⟨writeFlags_flags fl w, fun h => ?_, fun h => ?_⟩
    all_goals
      simp only [h, Bool.false_eq_true, if_false, if_true, Prod.mk.injEq] at hview
      exact hview.2

/-! ### The system registers (R27, R127) -/

theorem sysNumber_eq (hi : BitVec 5) (lo : BitVec 7) : sysNumber hi lo = hi.toNat * 128 + lo.toNat := by
  rw [sysNumber, BitVec.toNat_append, ← Nat.shiftLeft_add_eq_or_of_lt lo.isLt, Nat.shiftLeft_eq]

section
variable {s : State} {hi : BitVec 5} {lo : BitVec 7} {r : Reg} {n : Nat}

/-- `sysget` of a register that a table names, after the vector wait (R127). -/
theorem exec_sysget_named {w : Word} (hq : s.hart.vs.vq = []) (hn : sysNumber hi lo = n) (h : s.hart.sysreg n = some w) :
    exec (.sysget r hi lo) s = .next (s.set r w).advance := by
  show execSysget r hi lo s = _
  simp [execSysget, hn, h, Hart.vectorDone, hq, State.result_eq]

/-- `sysget` of a number that no table names (R27). -/
theorem exec_sysget_unnamed (hn : sysNumber hi lo = n) (h : s.hart.sysreg n = none) :
    exec (.sysget r hi lo) s = .next (s.trap .illegal ((encode (.sysget r hi lo)).zeroExtend 64)) := by
  show execSysget r hi lo s = _
  rw [execSysget, hn, h]

/-- `sysput` to a number that no table names, or to a read-only register (R27). -/
theorem exec_sysput_refused (hn : sysNumber hi lo = n) (h : s.hart.sysreg n = none ∨ sysregReadOnly n = true) :
    exec (.sysput r hi lo) s = .next (s.trap .illegal ((encode (.sysput r hi lo)).zeroExtend 64)) := by
  show execSysput r hi lo s = _
  rw [execSysput, if_pos (by simpa [hn] using h)]

/-- `sysput` to a register that may be written, after the vector wait (R127). -/
theorem exec_sysput_put {g : Hart} (hq : s.hart.vs.vq = []) (hn : sysNumber hi lo = n) (hnamed : (s.hart.sysreg n).isSome = true)
    (hw : sysregReadOnly n = false) (hput : s.hart.putSysreg n (s.get r) = some g) :
    exec (.sysput r hi lo) s = .next { s with hart := g }.advance := by
  show execSysput r hi lo s = _
  simp [execSysput, hn, hw, Option.isSome_iff_ne_none.1 hnamed, Hart.vectorDone, hq, hput]

/-- `sysput` of a value that the register does not take (R207, R216). -/
theorem exec_sysput_illegal (hq : s.hart.vs.vq = []) (hn : sysNumber hi lo = n) (hput : s.hart.putSysreg n (s.get r) = none) :
    exec (.sysput r hi lo) s = .next (s.trap .illegal ((encode (.sysput r hi lo)).zeroExtend 64)) := by
  show execSysput r hi lo s = _
  simp [execSysput, hn, Hart.vectorDone, hq, hput]
end

/-- The numbers of the registers that stand alone in the tables of R27, R207 and R259. -/
def singleSysregs : List Nat :=
  [0x000, 0x001, 0x002, 0x010, 0x040, 0x041, 0x042, 0x043, 0x044, 0x045, 0x050, 0x051, 0x052, 0x053, 0x054, 0x070, 0x071, 0x072]

/-- Another number is of one of the rows of like registers, EIX, EPC and f0 to f7, or names nothing. -/
theorem Hart.sysreg_of_not_single (h : Hart) {n : Nat} (hn : n ∉ singleSysregs) : h.sysreg n =
    if 0x020 ≤ n ∧ n < 0x026 then some ((h.fl.eix.toList.getD (n - 0x020) 0).setWidth 64)
    else if 0x028 ≤ n ∧ n < 0x02E then some (h.fl.epc.toList.getD (n - 0x028) 0)
    else if 0x060 ≤ n ∧ n < 0x068 then some (h.f.toList.getD (n - 0x060) 0)
    else none := by
  unfold Hart.sysreg
  split
  case h_19 => rfl
  all_goals exact absurd (by decide) hn

/-- The same for writes. -/
theorem Hart.putSysreg_of_not_single (h : Hart) {n : Nat} (w : Word) (hn : n ∉ singleSysregs) : h.putSysreg n w =
    if hx : 0x020 ≤ n ∧ n < 0x026 then
      some { h with fl := { h.fl with eix := Vector.set h.fl.eix (n - 0x020) (w.setWidth 16) (by omega) } }
    else if hx : 0x028 ≤ n ∧ n < 0x02E then
      some { h with fl := { h.fl with epc := Vector.set h.fl.epc (n - 0x028) w (by omega) } }
    else if hx : 0x060 ≤ n ∧ n < 0x068 then some { h with f := Vector.set h.f (n - 0x060) w (by omega) }
    else none := by
  unfold Hart.putSysreg
  split
  case h_12 => rfl
  all_goals exact absurd (by decide) hn

theorem getD_toList_eq_get {α : Type} {m : Nat} (v : Vector α m) (i : Fin m) (d : α) : v.toList.getD i.val d = v.get i := by
  simp [Vector.get_eq_getElem]

section
variable (h : Hart) (w : Word) (i : Fin 6) (j : Fin 8)

theorem eix_not_single : 0x020 + i.val ∉ singleSysregs := by simp [singleSysregs]; omega
theorem epc_not_single : 0x028 + i.val ∉ singleSysregs := by simp [singleSysregs]; omega
theorem f_not_single : 0x060 + j.val ∉ singleSysregs := by simp [singleSysregs]; omega

theorem Hart.sysreg_eix : h.sysreg (0x020 + i.val) = some ((h.fl.eix.get i).zeroExtend 64) := by
  rw [h.sysreg_of_not_single (eix_not_single i), if_pos (by omega), Nat.add_sub_cancel_left, getD_toList_eq_get]
theorem Hart.sysreg_epc : h.sysreg (0x028 + i.val) = some (h.fl.epc.get i) := by
  rw [h.sysreg_of_not_single (epc_not_single i), if_neg (by omega), if_pos (by omega), Nat.add_sub_cancel_left, getD_toList_eq_get]
theorem Hart.sysreg_f : h.sysreg (0x060 + j.val) = some (h.f.get j) := by
  rw [h.sysreg_of_not_single (f_not_single j), if_neg (by omega), if_neg (by omega), if_pos (by omega), Nat.add_sub_cancel_left, getD_toList_eq_get]

theorem Hart.putSysreg_eix : h.putSysreg (0x020 + i.val) w =
    some { h with fl := { h.fl with eix := Vector.set h.fl.eix i.val (w.truncate 16) i.isLt } } := by
  rw [h.putSysreg_of_not_single w (eix_not_single i), dif_pos (by omega)]
  simp only [Nat.add_sub_cancel_left]
theorem Hart.putSysreg_epc : h.putSysreg (0x028 + i.val) w =
    some { h with fl := { h.fl with epc := Vector.set h.fl.epc i.val w i.isLt } } := by
  rw [h.putSysreg_of_not_single w (epc_not_single i), dif_neg (by omega), dif_pos (by omega)]
  simp only [Nat.add_sub_cancel_left]
theorem Hart.putSysreg_f : h.putSysreg (0x060 + j.val) w = some { h with f := Vector.set h.f j.val w j.isLt } := by
  rw [h.putSysreg_of_not_single w (f_not_single j), dif_neg (by omega), dif_neg (by omega), dif_pos (by omega)]
  simp only [Nat.add_sub_cancel_left]
theorem Hart.putSysreg_share : h.putSysreg 0x050 w =
    some { h with tk := { h.tk with share := if w.truncate 4 = 0#4 then 1 else w.truncate 4 } } := rfl
theorem Hart.putSysreg_mhctl : h.putSysreg 0x072 w = if w.toNat < 4 then some { h with mhctl := w } else none := rfl
theorem Hart.putSysreg_skipd : h.putSysreg 0x070 w = (skipdWrite h.skipd w).map fun v => { h with skipd := v } := rfl
end

theorem sysregReadOnly_eix (i : Fin 6) : sysregReadOnly (0x020 + i.val) = false := by simp [sysregReadOnly]; omega
theorem sysregReadOnly_epc (i : Fin 6) : sysregReadOnly (0x028 + i.val) = false := by simp [sysregReadOnly]; omega
theorem sysregReadOnly_f (j : Fin 8) : sysregReadOnly (0x060 + j.val) = false := by simp [sysregReadOnly]; omega

/-- The four fields of a SKIPD word read back (R207). -/
theorem skipd_fields {m d n c : Nat} (hm : m < 4) (hd : d < 256) (hn : n < 256) (hc : c < 256) :
    let v := (BitVec.ofNat 64 (m + d * 2 ^ 8 + n * 2 ^ 16 + c * 2 ^ 24)).toNat
    v < 2 ^ 32 ∧ v % 4 = m ∧ bitsOf v 7 2 = 0 ∧ bitsOf v 15 8 = d ∧ bitsOf v 23 16 = n ∧ bitsOf v 31 24 = c := by
  intro v
  have hv : v = m + d * 2 ^ 8 + n * 2 ^ 16 + c * 2 ^ 24 := by
    simp only [v, BitVec.toNat_ofNat]; omega
  rw [hv]
  simp only [bitsOf]
  omega

/-- An illegal value of SKIPD is refused (R216). -/
theorem skipdWrite_illegal {old w : Word} (h : 2 ^ 32 ≤ w.toNat ∨ bitsOf w.toNat 7 2 ≠ 0 ∨ w.toNat % 4 = 3) : skipdWrite old w = none := by
  unfold skipdWrite
  exact if_pos (by omega)

/-- CUR after a legal write of SKIPD (R216). -/
def skipdCur (old w : Word) (delta dmin : Nat) : Nat :=
  if w.toNat % 4 = 0 then 0 else if w.toNat % 4 = 1 ∨ old.toNat % 4 ≠ 2 then delta
    else if bitsOf old.toNat 31 24 < dmin then dmin else if delta < bitsOf old.toNat 31 24 then delta else bitsOf old.toNat 31 24

theorem skipdCur_le {old w : Word} {delta dmin : Nat} (h : dmin ≤ delta) : skipdCur old w delta dmin ≤ delta := by
  unfold skipdCur
  repeat' split
  all_goals omega

/-- A legal write of SKIPD takes MODE and DELTA, lowers DMIN to DELTA, and sets CUR (R216). -/
theorem skipdWrite_legal {old w : Word} (hlt : w.toNat < 2 ^ 32) (hz : bitsOf w.toNat 7 2 = 0) (hmode : w.toNat % 4 ≠ 3) :
    let delta := bitsOf w.toNat 15 8
    let dmin := if delta < bitsOf w.toNat 23 16 then delta else bitsOf w.toNat 23 16
    skipdWrite old w = some (BitVec.ofNat 64 (w.toNat % 4 + delta * 2 ^ 8 + dmin * 2 ^ 16 + skipdCur old w delta dmin * 2 ^ 24)) := by
  intro delta dmin
  have hmin : Nat.min (bitsOf w.toNat 23 16) delta = dmin := by
    show min _ _ = _
    simp only [dmin]; split <;> omega
  have hle : dmin ≤ delta := by simp only [dmin]; split <;> omega
  have hclamp : Nat.max dmin (Nat.min delta (bitsOf old.toNat 31 24)) =
      if bitsOf old.toNat 31 24 < dmin then dmin else if delta < bitsOf old.toNat 31 24 then delta else bitsOf old.toNat 31 24 := by
    show max _ (min _ _) = _
    split <;> (try split) <;> omega
  simp only [skipdWrite, skipdCur]
  rw [if_neg (by omega), hmin, hclamp]
  have hcases : w.toNat % 4 = 0 ∨ w.toNat % 4 = 1 ∨ w.toNat % 4 = 2 := by omega
  rcases hcases with hm | hm | hm <;> by_cases ho : old.toNat % 4 = 2 <;> simp [hm, ho, delta]

/-- Settles O25: each row of the tables by its equation, and the numbers between the rows by `Hart.sysreg_of_not_single`. -/
theorem systemRegisters : Obligations.SystemRegisters := by
  unfold Obligations.SystemRegisters
  intro s r hi lo i j n h w
  have hnum : sysNumber hi lo = n := sysNumber_eq hi lo
  refine ⟨?reads, ?writes, ?mhctl, ?skipd, ?illegal, ?readOnly, ?unnamed⟩
  case reads =>
    intro hq
    have single : ∀ m v, n = m → h.sysreg m = some v → exec (.sysget r hi lo) s = .next (s.set r v).advance :=
      fun m v hm hv => exec_sysget_named hq (hnum.trans hm) hv
    simp only [List.forall_mem_cons, List.not_mem_nil, false_imp_iff, implies_true, and_true]
    refine ⟨?_, ?_, ?_, ?_, fun e => single _ _ e (h.sysreg_eix i), fun e => single _ _ e (h.sysreg_epc i), ?_, ?_, ?_, ?_, ?_, ?_, ?_, ?_, ?_,
      ?_, ?_, fun e => single _ _ e (h.sysreg_f j), ?_, ?_, ?_⟩
    all_goals exact fun e => single _ _ e rfl
  case writes =>
    intro hq
    have single : ∀ m g, n = m → (h.sysreg m).isSome = true → sysregReadOnly m = false → h.putSysreg m w = some g →
        exec (.sysput r hi lo) s = .next { s with hart := g }.advance :=
      fun m g hm hs hr hg => exec_sysput_put hq (hnum.trans hm) hs hr hg
    simp only [List.forall_mem_cons, List.not_mem_nil, false_imp_iff, implies_true, and_true]
    refine ⟨?_, fun e => single _ _ e (by rw [h.sysreg_eix i]; rfl) (sysregReadOnly_eix i) (h.putSysreg_eix w i),
      fun e => single _ _ e (by rw [h.sysreg_epc i]; rfl) (sysregReadOnly_epc i) (h.putSysreg_epc w i), ?_, ?_, ?_, ?_, ?_, ?_, ?_,
      fun e => single _ _ e (by rw [h.sysreg_f j]; rfl) (sysregReadOnly_f j) (h.putSysreg_f w j), ?_⟩
    all_goals exact fun e => single _ _ e rfl rfl rfl
  case mhctl =>
    intro hq e hw
    exact exec_sysput_put hq (hnum.trans e) rfl rfl ((h.putSysreg_mhctl w).trans (if_pos hw))
  case skipd =>
    intro hq e hlt hz hmode delta dmin old
    have hdelta : delta < 256 := Nat.mod_lt _ (by decide)
    have hdmin : dmin ≤ delta := by simp only [dmin]; split <;> omega
    have hcur : skipdCur h.skipd w delta dmin < 256 := (skipdCur_le hdmin).trans_lt hdelta
    obtain ⟨hv, hmd, hzero, hd, hn, hc⟩ := skipd_fields (Nat.mod_lt w.toNat (by decide : 0 < 4)) hdelta (hdmin.trans_lt hdelta) hcur
    exact ⟨_, exec_sysput_put hq (hnum.trans e) rfl rfl (by rw [h.putSysreg_skipd, skipdWrite_legal hlt hz hmode]; rfl), hv, hmd, hzero, hd, hn, hc⟩
  case illegal =>
    rintro hq (⟨e, hw⟩ | ⟨e, hw⟩)
    · exact exec_sysput_illegal hq (hnum.trans e) ((h.putSysreg_mhctl w).trans (if_neg (by omega)))
    · exact exec_sysput_illegal hq (hnum.trans e) (by rw [Hart.putSysreg_skipd, skipdWrite_illegal hw]; rfl)
  case readOnly =>
    exact fun hn => exec_sysput_refused hnum (.inr (List.any_eq_true.2 ⟨n, hn, beq_self_eq_true n⟩))
  case unnamed =>
    intro hn
    have hsingle : n ∉ singleSysregs := by
      simp only [singleSysregs, List.mem_cons, List.not_mem_nil, or_false]
      omega
    have hnone : h.sysreg n = none := by
      rw [h.sysreg_of_not_single hsingle, if_neg (by omega), if_neg (by omega), if_neg (by omega)]
    exact ⟨exec_sysget_unnamed hnum hnone, exec_sysput_refused hnum (.inl hnone)⟩

/-! ### Reset (R391) -/

/-- Every x register of an empty slot's hart reads 0 (R4). -/
theorem Hart.empty_get (id : Nat) (r : Reg) : (Hart.empty id).get r = 0 := by
  simp [Hart.get, Hart.empty, Vector.get_eq_getElem]

/-- No byte of memory is listed at reset, and none lies under a fresh key, so that each reads as an unlisted one (log entry 2). -/
theorem reset_byte (k : Nat) : State.reset.byte k = 0 := by
  show memDefault ^^^ padOf [] k = 0
  simp [padOf, memDefault]

/-- Settles O59: the reset state field by field; registers, bytes and home words read their defaults in the empty lists. -/
theorem resetState : Obligations.ResetState := by
  unfold Obligations.ResetState
  refine ⟨reset_mem_wf, rfl, reset_byte, rfl, rfl, rfl, rfl, rfl, rfl, rfl, rfl, rfl, rfl, rfl, rfl, rfl, rfl, rfl, rfl, rfl, rfl, ?_,
    fun _ _ => rfl, rfl, Hart.empty_get 0, rfl, ?_, fun _ _ _ _ _ => rfl⟩
  · intro line i
    simp [State.homeAt, State.reset, HomeLine.word, HomeLine.fresh, Vector.get_eq_getElem]
  · intro i
    simp [State.reset, Hart.empty, Vector.get_eq_getElem]

end Sys2Proof.Machine
end

section
/-! PROOFS. Numbers (02), part 1: the multiply and divide words and the traps of IDE and IOE (R33, R34, R114). -/
namespace Sys2Proof.Machine

/-! ### A scalar word with a result and events (R122) -/

/-- Which trap the events of a word cause is settled by the enables, which recording events leaves (R20, R21). -/
theorem Ev.trap_recordEvs (e : Ev) (evs : List (Nat × Ev)) (pc : Word) (fl : FlagRegs) :
    e.trap (recordEvs evs pc fl).flags = e.trap fl.flags := by
  have henable : ∀ b, 8 ≤ b → (recordEvs evs pc fl).flags.getLsbD b = fl.flags.getLsbD b :=
    fun b hb => recordEvs_flags_other evs pc fl b (.inr hb)
  unfold Ev.trap Ev.fpEnabled Ev.intEnabled
  simp only [henable 15 (by omega), henable 14 (by omega), henable 13 (by omega), henable 12 (by omega), henable 11 (by omega),
    henable 10 (by omega), henable 9 (by omega), henable 8 (by omega)]

/-- The word of a scalar result retires when no enabled class is raised. -/
theorem scalarResult_retires {e : Ev} {s : State} (word : IWord) (d : Reg) (w : Word) (h : e.trap s.hart.fl.flags = none) :
    scalarResult word d w e s = .next (((s.noted e).set d w).advance) := by
  have ht : e.trap (s.noted e).hart.fl.flags = none := (e.trap_recordEvs _ _ _).trans h
  show (match e.trap (s.noted e).hart.fl.flags with
    | some c => Host.Outcome.next ((s.noted e).trap c (word.setWidth 64))
    | none => (s.noted e).result d w) = _
  rw [ht]; rfl

/-- The word of a scalar result traps when an enabled class is raised, with the events recorded. -/
theorem scalarResult_traps {e : Ev} {s : State} {c : Cause} (word : IWord) (d : Reg) (w : Word) (h : e.trap s.hart.fl.flags = some c) :
    scalarResult word d w e s = .next ((s.noted e).trap c (word.setWidth 64)) := by
  have ht : e.trap (s.noted e).hart.fl.flags = some c := (e.trap_recordEvs _ _ _).trans h
  show (match e.trap (s.noted e).hart.fl.flags with
    | some c => Host.Outcome.next ((s.noted e).trap c (word.setWidth 64))
    | none => (s.noted e).result d w) = _
  rw [ht]

/-- Events of no class of R21, such as the overflow of `div`, leave FLAGS and the event registers. -/
theorem State.noted_of_no_class {e : Ev} (s : State) (h : ∀ c, e.has c = false) : s.noted e = s := by
  have hlow (c : Nat) : lowestOf [(0, e)] c = none := (lowestOf_eq_none_iff _ _).2 (by simp [h])
  have hrec (pc : Word) (fl : FlagRegs) : recordEvs [(0, e)] pc fl = fl := by simp [recordEvs, recordClass, hlow]
  unfold State.noted State.onHart
  simp only [hrec]

/-! ### The events of a division (R33, R34) -/

theorem Ev.has_io (b : Bool) (c : Nat) : ({ io := b } : Ev).has c = false := by unfold Ev.has; split <;> rfl

/-- A zero divisor traps with INT exactly when IDE is set. -/
theorem zeroDivisor_trap (fl : BitVec 16) : ({ id := true } : Ev).trap fl = if fl.getLsbD 8 then some .int else none := by
  simp [Ev.trap, Ev.fpEnabled, Ev.intEnabled]

/-- An overflow of `div` traps with INT exactly when IOE is set. -/
theorem overflow_trap (b : Bool) (fl : BitVec 16) : ({ io := b } : Ev).trap fl = if b && fl.getLsbD 9 then some .int else none := by
  simp [Ev.trap, Ev.fpEnabled, Ev.intEnabled]

theorem zeroDivisor_zero : zeroDivisor 0 = { id := true } := rfl
theorem zeroDivisor_ne {y : Word} (h : y ≠ 0) : zeroDivisor y = {} := by rw [zeroDivisor, decide_eq_false h]

/-- Without a zero divisor, a division word whose events trap with nothing writes its result and retires. -/
theorem muldiv_quiet {word : IWord} {d a b : Reg} {f : Word → Word → Word} {e : Word → Word → Ev} {s : State} {x : Word} {o : Bool}
    (he : e (s.get a) (s.get b) = { io := o }) (ho : (o && s.hart.fl.flags.getLsbD 9) = false) (hx : f (s.get a) (s.get b) = x) :
    muldiv word d a b f e s = .next (s.set d x).advance := by
  have htrap : ({ io := o } : Ev).trap s.hart.fl.flags = none := by rw [overflow_trap, ho]; rfl
  rw [muldiv, he, hx, scalarResult_retires word d x htrap, s.noted_of_no_class (Ev.has_io o)]

/-- A zero divisor records DZ; the word retires with IDE clear and traps with INT with IDE set (R34). -/
theorem muldiv_zero {word : IWord} {d a b : Reg} {f : Word → Word → Word} {e : Word → Word → Ev} {s : State} {x : Word}
    (he : e (s.get a) (s.get b) = { id := true }) (hx : f (s.get a) (s.get b) = x) :
    (s.hart.fl.flags.getLsbD 8 = false → muldiv word d a b f e s = .next (((s.noted { id := true }).set d x).advance)) ∧
    (s.hart.fl.flags.getLsbD 8 = true → muldiv word d a b f e s = .next ((s.noted { id := true }).trap .int (word.setWidth 64))) := by
  rw [muldiv, he, hx]
  exact ⟨fun h => scalarResult_retires word d x (by rw [zeroDivisor_trap, h]; rfl),
    fun h => scalarResult_traps word d x (by rw [zeroDivisor_trap, h]; rfl)⟩

/-! ### Quotients and remainders (R34) -/

/-- The signed quotient rounds toward zero; only -2^63 by -1 wraps. -/
theorem quotS_eq {x y : Word} (h : y ≠ 0) : quotS x y = BitVec.ofInt 64 (x.toInt.tdiv y.toInt) := by
  rw [quotS, if_neg h]
  exact BitVec.eq_of_toInt_eq (by rw [BitVec.toInt_sdiv, BitVec.toInt_ofInt])

/-- The signed remainder has the sign of the dividend. -/
theorem remS_eq {x y : Word} (h : y ≠ 0) : remS x y = BitVec.ofInt 64 (x.toInt.tmod y.toInt) := by
  rw [remS, if_neg h, ← BitVec.toInt_srem, BitVec.ofInt_toInt]

theorem quotU_eq {x y : Word} (h : y ≠ 0) : quotU x y = BitVec.ofNat 64 (x.toNat / y.toNat) := by
  rw [quotU, if_neg h, ← BitVec.toNat_udiv]; exact (BitVec.ofNat_toNat ..).symm ▸ (BitVec.setWidth_eq _).symm

theorem remU_eq {x y : Word} (h : y ≠ 0) : remU x y = BitVec.ofNat 64 (x.toNat % y.toNat) := by
  rw [remU, if_neg h, ← BitVec.toNat_umod]; exact (BitVec.ofNat_toNat ..).symm ▸ (BitVec.setWidth_eq _).symm

theorem divOverflow_eq_false {x y : Word} (h : x ≠ BitVec.intMin 64 ∨ y ≠ -1) : divOverflow x y = false := by
  rw [divOverflow, Bool.and_eq_false_iff, decide_eq_false_iff_not, decide_eq_false_iff_not]
  exact h

theorem exec_div_eq (d a b : Reg) (s : State) : exec (.div d a b) s =
    muldiv (encode (.div d a b)) d a b quotS (fun x y => { zeroDivisor y with io := divOverflow x y }) s := rfl
theorem exec_divn_eq (d a b : Reg) (s : State) : exec (.divn d a b) s =
    muldiv (encode (.divn d a b)) d a b quotU (fun _ y => zeroDivisor y) s := rfl
theorem exec_rem_eq (d a b : Reg) (s : State) : exec (.rem d a b) s =
    muldiv (encode (.rem d a b)) d a b remS (fun _ y => zeroDivisor y) s := rfl
theorem exec_remn_eq (d a b : Reg) (s : State) : exec (.remn d a b) s =
    muldiv (encode (.remn d a b)) d a b remU (fun _ y => zeroDivisor y) s := rfl

/-- The events of `div` by a divisor that is not 0: the overflow of R33. -/
theorem divEvents_ne {x y : Word} (h : y ≠ 0) : ({ zeroDivisor y with io := divOverflow x y } : Ev) = { io := divOverflow x y } := by
  rw [zeroDivisor_ne h]

/-- Settles O11: the words share one result with events, whose trap the enables settle; each quotient and remainder is that of the integers. -/
theorem mulDivResults : Obligations.MulDivResults := by
  unfold Obligations.MulDivResults
  refine ⟨?products, ?quotients, ?signed, ?zero, ?overflow⟩
  case products =>
    intro s d a b
    simp only [List.forall_mem_cons, List.not_mem_nil, false_imp_iff, implies_true, and_true]
    exact ⟨rfl, rfl, rfl⟩
  case quotients =>
    intro s d a b hb
    simp only [List.forall_mem_cons, List.not_mem_nil, false_imp_iff, implies_true, and_true]
    have hquiet : zeroDivisor (s.get b) = { io := false } := zeroDivisor_ne hb
    rw [exec_divn_eq, exec_rem_eq, exec_remn_eq]
    exact ⟨muldiv_quiet hquiet (Bool.false_and _) (quotU_eq hb), muldiv_quiet hquiet (Bool.false_and _) (remS_eq hb),
      muldiv_quiet hquiet (Bool.false_and _) (remU_eq hb)⟩
  case signed =>
    intro s d a b hb hcalm
    rw [exec_div_eq]
    refine muldiv_quiet (o := divOverflow (s.get a) (s.get b)) (divEvents_ne hb) ?_ (quotS_eq hb)
    rcases hcalm with hioe | hval
    · rw [hioe, Bool.and_false]
    · rw [divOverflow_eq_false hval, Bool.false_and]
  case zero =>
    intro s d a b hb
    simp only [List.forall_mem_cons, List.not_mem_nil, false_imp_iff, implies_true, and_true]
    have hz : zeroDivisor (s.get b) = { id := true } := by rw [hb]; rfl
    have hdiv : ({ zeroDivisor (s.get b) with io := divOverflow (s.get a) (s.get b) } : Ev) = { id := true } := by
      rw [divOverflow_eq_false (.inr (by rw [hb]; decide)), hz]
    rw [exec_div_eq, exec_divn_eq, exec_rem_eq, exec_remn_eq]
    exact ⟨muldiv_zero hdiv (if_pos hb), muldiv_zero hz (if_pos hb), muldiv_zero hz (if_pos hb), muldiv_zero hz (if_pos hb)⟩
  case overflow =>
    intro s d a b ha hb hioe
    have hne : s.get b ≠ 0 := by rw [hb]; decide
    have hov : divOverflow (s.get a) (s.get b) = true := by rw [ha, hb]; rfl
    have hev := (divEvents_ne hne).trans (congrArg (fun o => ({ io := o } : Ev)) hov)
    rw [exec_div_eq, muldiv, hev, scalarResult_traps (c := .int) _ _ _ (by rw [overflow_trap, hioe]; rfl), s.noted_of_no_class (Ev.has_io true)]

end Sys2Proof.Machine
end

section
/-! PROOFS. Numbers (02), part 2: what it is to round a real number once (R38), and that the model's rounding of a magnitude does it. -/
namespace Sys2Proof.Machine

/-! ### Signs and values -/

/-- A sign as a factor. -/
noncomputable def sgn (n : Bool) : ℝ := if n then -1 else 1

@[simp] theorem sgn_true : sgn true = -1 := if_pos rfl
@[simp] theorem sgn_false : sgn false = 1 := if_neg Bool.false_ne_true
theorem sgn_bne (n n' : Bool) : sgn (n != n') = sgn n * sgn n' := by cases n <;> cases n' <;> simp
theorem sgn_not (n : Bool) : sgn (!n) = -sgn n := by cases n <;> simp
theorem abs_sgn_mul (n : Bool) (x : ℝ) : |sgn n * x| = |x| := by cases n <;> simp

theorem FVal.num_fin (n : Bool) (m : Nat) (e : Int) : (FVal.fin n m e).num = sgn n * (m * (2 : ℝ) ^ e) := mul_assoc _ _ _

theorem two_zpow_pos (e : Int) : (0 : ℝ) < 2 ^ e := zpow_pos (by norm_num) e
theorem two_zpow_add (a b : Int) : (2 : ℝ) ^ (a + b) = 2 ^ a * 2 ^ b := zpow_add₀ (by norm_num) a b
theorem two_zpow_succ (a : Int) : (2 : ℝ) ^ (a + 1) = 2 * 2 ^ a := by rw [two_zpow_add, zpow_one, mul_comm]
theorem two_zpow_le {a b : Int} (h : a ≤ b) : (2 : ℝ) ^ a ≤ 2 ^ b := zpow_le_zpow_right₀ (by norm_num) h
theorem two_zpow_lt {a b : Int} (h : a < b) : (2 : ℝ) ^ a < 2 ^ b := zpow_lt_zpow_right₀ (by norm_num) h

/-- A power of two with a natural part: `2^(k + e)` as `2^k` units. -/
theorem two_pow_mul_zpow (k : Nat) (e : Int) : (2 : ℝ) ^ k * 2 ^ e = 2 ^ ((k : Int) + e) := by
  rw [two_zpow_add, zpow_natCast]

/-- A step from `e` down to a lower unit. -/
theorem zpow_split {e b : Int} (h : b ≤ e) : (2 : ℝ) ^ e = 2 ^ (e - b).toNat * 2 ^ b := by
  rw [two_pow_mul_zpow, Int.toNat_of_nonneg (by omega), sub_add_cancel]

/-! ### Rounding to a set of numbers -/

/-- The mode that rounds a negated number as `rm` rounds the number. -/
def RMode.flip : RMode → RMode
  | .rdn => .rup
  | .rup => .rdn
  | rm => rm

@[simp] theorem RMode.flip_flip (rm : RMode) : rm.flip.flip = rm := by cases rm <;> rfl

theorem roundsUp_true (rm : RMode) (odd : Bool) (cmp : Ordering) : roundsUp rm true odd cmp = roundsUp rm.flip false odd cmp := by
  cases rm <;> rfl

section
variable {g : ℝ → Prop} {rm : RMode} {x r : ℝ}

/-- Rounding commutes with negation, when the directed modes are exchanged. -/
theorem RoundsTo.neg (hneg : ∀ t, g t → g (-t)) (h : RoundsTo g rm x r) : RoundsTo g rm.flip (-x) (-r) := by
  obtain ⟨hr, h⟩ := h
  refine ⟨hneg r hr, ?_⟩
  have hdist : ∀ t, |-x - t| = |x - -t| := fun t => by rw [← abs_neg]; ring_nf
  cases rm with
  | rdn => exact ⟨neg_le_neg h.1, fun t ht hxt => by linarith [h.2 _ (hneg t ht) (by linarith)]⟩
  | rup => exact ⟨neg_le_neg h.1, fun t ht hxt => by linarith [h.2 _ (hneg t ht) (by linarith)]⟩
  | rtz =>
    obtain ⟨hle, hsign, hmax⟩ := h
    refine ⟨by rwa [abs_neg, abs_neg], by rwa [neg_mul_neg], fun t ht htx hts => ?_⟩
    rw [abs_neg, ← abs_neg t]
    exact hmax _ (hneg t ht) (by rwa [abs_neg, ← abs_neg x]) (by linarith)
  | rne =>
    refine ⟨fun t ht => by rw [hdist, hdist, neg_neg]; exact h.1 _ (hneg t ht), fun t ht hne htie => ?_⟩
    rw [hdist, hdist, neg_neg] at htie
    obtain ⟨k, q, hk, hq⟩ := h.2 _ (hneg t ht) (fun e => hne (by linarith)) htie
    refine ⟨-k, q, by rw [hk]; push_cast; ring, ?_⟩
    rw [← hq, ← abs_neg]; ring_nf
  | rna =>
    refine ⟨fun t ht => by rw [hdist, hdist, neg_neg]; exact h.1 _ (hneg t ht), fun t ht htie => ?_⟩
    rw [hdist, hdist, neg_neg] at htie
    rw [abs_neg, ← abs_neg t]
    exact h.2 _ (hneg t ht) htie

/-- A number of the set is rounded to itself. -/
theorem roundsTo_self (hx : g x) : RoundsTo g rm x x := by
  refine ⟨hx, ?_⟩
  have hzero : |x - x| = 0 := by simp
  have heq : ∀ t, |x - t| = |x - x| → t = x := fun t h => by rw [hzero, abs_eq_zero] at h; linarith
  cases rm with
  | rdn => exact ⟨le_refl x, fun _ _ h => h⟩
  | rup => exact ⟨le_refl x, fun _ _ h => h⟩
  | rtz => exact ⟨le_refl _, mul_self_nonneg x, fun _ _ h _ => h⟩
  | rne => exact ⟨fun t _ => hzero ▸ abs_nonneg _, fun t _ hne htie => absurd (heq t htie) hne⟩
  | rna => exact ⟨fun t _ => hzero ▸ abs_nonneg _, fun t _ htie => (heq t htie).symm ▸ le_refl _⟩

/-- There is one rounded number at most. -/
theorem RoundsTo.unique {r' : ℝ} (h0 : g 0) (h : RoundsTo g rm x r) (h' : RoundsTo g rm x r') : r = r' := by
  obtain ⟨hr, h⟩ := h
  obtain ⟨hr', h'⟩ := h'
  cases rm with
  | rdn => exact le_antisymm (h'.2 _ hr h.1) (h.2 _ hr' h'.1)
  | rup => exact le_antisymm (h.2 _ hr' h'.1) (h'.2 _ hr h.1)
  | rtz =>
    obtain ⟨hle, hsign, hmax⟩ := h
    obtain ⟨hle', hsign', hmax'⟩ := h'
    have habs : |r| = |r'| := le_antisymm (hmax' _ hr hle hsign) (hmax _ hr' hle' hsign')
    rcases abs_eq_abs.1 habs with e | e
    · exact e
    · rw [e] at hsign hle ⊢
      have hprod : r' * x = 0 := by linarith
      rcases mul_eq_zero.1 hprod with h | h
      · rw [h, neg_zero]
      · rw [h, abs_zero, abs_nonpos_iff] at hle'
        rw [hle', neg_zero]
  | rne =>
    by_contra hne
    have hdist : |x - r'| = |x - r| := le_antisymm (h'.1 _ hr) (h.1 _ hr')
    obtain ⟨k, q, hk, hq⟩ := h.2 _ hr' (Ne.symm hne) hdist
    obtain ⟨k', q', hk', hq'⟩ := h'.2 _ hr hne hdist.symm
    have hqq : (2 : ℝ) ^ q' = 2 ^ q := by rw [← hq, ← hq', abs_sub_comm]
    rw [hqq] at hk'
    have hone : |(2 * (k' - k) : ℝ)| * 2 ^ q = 1 * 2 ^ q := calc
      |(2 * (k' - k) : ℝ)| * 2 ^ q = |(2 * (k' - k) * 2 ^ q : ℝ)| := by rw [abs_mul _ ((2 : ℝ) ^ q), abs_of_pos (two_zpow_pos q)]
      _ = |r' - r| := by rw [hk, hk']; ring_nf
      _ = 1 * 2 ^ q := by rw [hq, one_mul]
    have hint : |2 * (k' - k)| = (1 : ℤ) := by exact_mod_cast mul_right_cancel₀ (two_zpow_pos q).ne' hone
    rcases (abs_eq (by norm_num)).1 hint with h | h <;> omega
  | rna =>
    have hdist : |x - r'| = |x - r| := le_antisymm (h'.1 _ hr) (h.1 _ hr')
    have habs : |r| = |r'| := le_antisymm (h'.2 _ hr hdist.symm) (h.2 _ hr' hdist)
    rcases abs_eq_abs.1 habs with e | e
    · exact e
    · rw [e] at hdist ⊢
      rcases abs_eq_abs.1 hdist with e' | e'
      · linarith
      · have hx : x = 0 := by linarith
        have hle := h.1 _ h0
        rw [hx, e, sub_zero, abs_zero, abs_nonpos_iff] at hle
        linarith

/-- To the nearest, a rounded number is at most twice as far from zero. -/
theorem RoundsTo.abs_le_two_mul (h0 : g 0) (h : RoundsTo g .rne x r) : |r| ≤ 2 * |x| := by
  obtain ⟨-, hnear, -⟩ := h
  have hle := hnear 0 h0
  rw [sub_zero] at hle
  calc |r| = |x - (x - r)| := by ring_nf
    _ ≤ |x| + |x - r| := abs_sub _ _
    _ ≤ 2 * |x| := by linarith
end

section
variable {g : ℝ → Prop} {rm : RMode} {a b y : ℝ} {cmp : Ordering} {odd up : Bool} {qe : Int}

/-- No number of the set is nearer to `y` than the nearer of its neighbours, and at that distance only a neighbour. -/
theorem dist_of_gap {t : ℝ} (gap : t ≤ a ∨ b ≤ t) (hl : a ≤ y) (hu : y < b) :
    (y - a ≤ |y - t| ∧ (|y - t| = y - a → t = a)) ∧ t ≤ a ∨ (b - y ≤ |y - t| ∧ (|y - t| = b - y → t = b)) ∧ b ≤ t := by
  rcases gap with h | h
  · refine .inl ⟨?_, h⟩
    rw [abs_of_nonneg (by linarith)]
    exact ⟨by linarith, fun e => by linarith⟩
  · refine .inr ⟨?_, h⟩
    rw [abs_of_nonpos (by linarith)]
    exact ⟨by linarith, fun e => by linarith⟩

/-- R38 for a magnitude `y` between its neighbours `a` and `b` in the set, of distance 2^qe: the model's choice of one of them is the
rounded number. -/
theorem roundsTo_step_pos (hneg : ∀ t, g t → g (-t)) (ga : g a) (gb : g b) (gap : ∀ t, g t → t ≤ a ∨ b ≤ t) (h0 : 0 ≤ a) (hl : a ≤ y)
    (hu : y < b) (hc : cmp.Compares (y - a) (b - y)) (hup : up = true ↔ y ≠ a ∧ roundsUp rm false odd cmp = true)
    (hodd : ∃ k : Int, (if odd then b else a) = 2 * k * (2 : ℝ) ^ qe) (hab : b - a = 2 ^ qe) :
    RoundsTo g rm y (if up then b else a) := by
  by_cases hya : y = a
  · have : up = false := by rw [← Bool.not_eq_true, hup]; exact fun h => h.1 hya
    rw [this, hya]; exact roundsTo_self ga
  have hy : 0 ≤ y := h0.trans hl
  have near := fun t ht => dist_of_gap (gap t ht) hl hu
  have hda : |y - a| = y - a := abs_of_nonneg (by linarith)
  have hdb : |y - b| = b - y := by rw [abs_of_nonpos (by linarith)]; ring
  have hup : up = roundsUp rm false odd cmp := by rw [Bool.eq_iff_iff, hup]; exact and_iff_right hya
  subst hup
  obtain ⟨k, hk⟩ := hodd
  cases rm with
  | rdn => exact ⟨ga, hl, fun t ht hty => (gap t ht).resolve_right (by intro h; linarith)⟩
  | rup => exact ⟨gb, hu.le, fun t ht hyt => (gap t ht).resolve_left (fun h => hya (by linarith))⟩
  | rtz =>
    refine ⟨ga, by rwa [roundsUp, if_neg Bool.false_ne_true, abs_of_nonneg h0, abs_of_nonneg hy], mul_nonneg h0 hy, fun t ht hty _ => ?_⟩
    rw [abs_of_nonneg hy, abs_le] at hty
    rw [roundsUp, if_neg Bool.false_ne_true, abs_of_nonneg h0, abs_le]
    constructor
    · linarith [(gap _ (hneg t ht)).resolve_right (by intro h; linarith)]
    · exact (gap t ht).resolve_right (by intro h; linarith)
  | rne =>
    cases cmp with
    | lt =>
      have hc : y - a < b - y := hc
      refine ⟨ga, fun t ht => ?_, fun t ht hne htie => ?_⟩ <;> simp only [roundsUp, Bool.false_eq_true, if_false, hda] at *
      · rcases near t ht with h | h <;> linarith
      · rcases near t ht with h | h
        · exact absurd (h.1.2 htie) hne
        · linarith
    | gt =>
      have hc : b - y < y - a := hc
      refine ⟨gb, fun t ht => ?_, fun t ht hne htie => ?_⟩ <;> simp only [roundsUp, if_true, hdb] at *
      · rcases near t ht with h | h <;> linarith
      · rcases near t ht with h | h
        · linarith
        · exact absurd (h.1.2 htie) hne
    | eq =>
      have hc : y - a = b - y := hc
      cases odd with
      | false =>
        refine ⟨ga, fun t ht => ?_, fun t ht hne htie => ⟨k, qe, hk, ?_⟩⟩ <;> simp only [roundsUp, Bool.false_eq_true, if_false, hda] at *
        · rcases near t ht with h | h <;> linarith
        · rcases near t ht with h | h
          · exact absurd (h.1.2 htie) hne
          · rw [h.1.2 (by linarith), hab, abs_of_pos (two_zpow_pos qe)]
      | true =>
        refine ⟨gb, fun t ht => ?_, fun t ht hne htie => ⟨k, qe, hk, ?_⟩⟩ <;> simp only [roundsUp, if_true, hdb] at *
        · rcases near t ht with h | h <;> linarith
        · rcases near t ht with h | h
          · rw [h.1.2 (by linarith), abs_sub_comm, hab, abs_of_pos (two_zpow_pos qe)]
          · exact absurd (h.1.2 htie) hne
  | rna =>
    have far (hc : b - y ≤ y - a) : g b ∧ (∀ t, g t → |y - b| ≤ |y - t|) ∧ ∀ t, g t → |y - t| = |y - b| → |t| ≤ |b| := by
      refine ⟨gb, fun t ht => ?_, fun t ht htie => ?_⟩ <;> rw [hdb] at *
      · rcases near t ht with h | h <;> linarith
      · rcases near t ht with h | h
        · have hty : y - t = b - y := by rw [← htie, abs_of_nonneg (by linarith)]
          rw [abs_of_nonneg (by linarith : 0 ≤ b), abs_le]
          constructor <;> linarith
        · rw [h.1.2 htie]
    cases cmp with
    | lt =>
      have hc : y - a < b - y := hc
      refine ⟨ga, fun t ht => ?_, fun t ht htie => ?_⟩ <;> simp only [roundsUp, Bool.false_eq_true, if_false, hda] at *
      · rcases near t ht with h | h <;> linarith
      · rcases near t ht with h | h
        · rw [h.1.2 htie]
        · linarith
    | gt => exact far (le_of_lt hc)
    | eq => exact far (ge_of_eq hc)

/-- The same for a value of either sign. -/
theorem roundsTo_step (neg : Bool) (hneg : ∀ t, g t → g (-t)) (ga : g a) (gb : g b) (gap : ∀ t, g t → t ≤ a ∨ b ≤ t) (h0 : 0 ≤ a)
    (hl : a ≤ y) (hu : y < b) (hc : cmp.Compares (y - a) (b - y)) (hup : up = true ↔ y ≠ a ∧ roundsUp rm neg odd cmp = true)
    (hodd : ∃ k : Int, (if odd then b else a) = 2 * k * (2 : ℝ) ^ qe) (hab : b - a = 2 ^ qe) :
    RoundsTo g rm (sgn neg * y) (sgn neg * if up then b else a) := by
  cases neg with
  | false => simpa using roundsTo_step_pos hneg ga gb gap h0 hl hu hc hup hodd hab
  | true =>
    rw [roundsUp_true] at hup
    simpa only [RMode.flip_flip, sgn_true, neg_one_mul] using (roundsTo_step_pos hneg ga gb gap h0 hl hu hc hup hodd hab).neg hneg
end

/-! ### The numbers of a format (R35) -/

theorem OnGrid.neg {p : Nat} {lo : Option Int} {t : ℝ} (h : OnGrid p lo t) : OnGrid p lo (-t) := by
  obtain ⟨k, q, hk, hq, ht⟩ := h
  exact ⟨-k, q, by rwa [abs_neg], hq, by rw [ht]; push_cast; ring⟩

theorem OnGrid.zero (p : Nat) (lo : Option Int) : OnGrid p lo 0 :=
  ⟨0, lo.getD 0, by simp, fun l hl => by simp [hl], by simp⟩

/-- A multiple of at most 2^p units is a number of p bits. -/
theorem onGrid_mul {p : Nat} {lo : Option Int} {k : Nat} {q : Int} (hp : 1 ≤ p) (hk : k ≤ 2 ^ p) (hlo : ∀ l, lo = some l → l ≤ q) :
    OnGrid p lo (k * (2 : ℝ) ^ q) := by
  rcases Nat.lt_or_eq_of_le hk with hk | hk
  · exact ⟨k, q, by rw [Nat.abs_cast]; exact_mod_cast hk, hlo, rfl⟩
  · obtain ⟨p, rfl⟩ : ∃ p', p = p' + 1 := ⟨p - 1, by omega⟩
    refine ⟨2 ^ p, q + 1, ?_, fun l hl => (hlo l hl).trans (by omega), ?_⟩
    · rw [abs_of_pos (by positivity)]; exact pow_lt_pow_right₀ (by norm_num) (by omega)
    · rw [hk, two_zpow_succ]; push_cast; ring

/-- No number of p bits lies between neighbouring multiples of a unit that is the smallest, or of which 2^(p-1) are reached. -/
theorem onGrid_gap {p : Nat} {lo : Option Int} {t : ℝ} {q : Nat} {qe : Int} (ht : OnGrid p lo t) (h : lo = some qe ∨ 2 ^ p ≤ 2 * q) :
    t ≤ q * (2 : ℝ) ^ qe ∨ (q + 1) * (2 : ℝ) ^ qe ≤ t := by
  obtain ⟨k, j, hk, hj, rfl⟩ := ht
  by_cases hqe : qe ≤ j
  · rw [zpow_split hqe, ← mul_assoc]
    have hint : k * 2 ^ (j - qe).toNat ≤ (q : ℤ) ∨ (q : ℤ) + 1 ≤ k * 2 ^ (j - qe).toNat := by omega
    rcases hint with h | h
    · exact .inl (mul_le_mul_of_nonneg_right (by exact_mod_cast h) (two_zpow_pos qe).le)
    · exact .inr (mul_le_mul_of_nonneg_right (by exact_mod_cast h) (two_zpow_pos qe).le)
  · have h : 2 ^ p ≤ 2 * q := h.resolve_left fun e => hqe (hj qe e)
    have hk : (k : ℝ) ≤ 2 ^ p := by exact_mod_cast (le_abs_self k).trans hk.le
    have h : (2 : ℝ) ^ p ≤ 2 * q := by exact_mod_cast h
    left
    calc (k : ℝ) * 2 ^ j ≤ 2 * q * 2 ^ j := mul_le_mul_of_nonneg_right (hk.trans h) (two_zpow_pos j).le
      _ = q * 2 ^ (j + 1) := by rw [two_zpow_succ]; ring
      _ ≤ q * 2 ^ qe := mul_le_mul_of_nonneg_left (two_zpow_le (by omega)) (Nat.cast_nonneg q)

/-! ### The model's rounding of a magnitude (R38) -/

/-- The magnitude that `m`, `e` and `sticky` stand for: m x 2^e, or one strictly between that and (m + 1) x 2^e. -/
def Stands (m : Nat) (e : Int) (sticky : Bool) (y : ℝ) : Prop :=
  if sticky then m * (2 : ℝ) ^ e < y ∧ y < (m + 1) * (2 : ℝ) ^ e else y = m * (2 : ℝ) ^ e

theorem stands_exact (m : Nat) (e : Int) : Stands m e false (m * (2 : ℝ) ^ e) := by simp [Stands]

/-- `y` lies in the step of 2^qe that starts at its `q`-th multiple, and `up` says whether the mode takes the end of the step. -/
structure InStep (rm : RMode) (neg : Bool) (y : ℝ) (qe : Int) (q : Nat) (up : Bool) : Prop where
  le : q * (2 : ℝ) ^ qe ≤ y
  lt : y < (q + 1) * (2 : ℝ) ^ qe
  up_iff : ∃ cmp : Ordering, cmp.Compares (y - q * (2 : ℝ) ^ qe) ((q + 1) * (2 : ℝ) ^ qe - y) ∧
    (up = true ↔ y ≠ q * (2 : ℝ) ^ qe ∧ roundsUp rm neg (decide (q % 2 = 1)) cmp = true)

/-- A magnitude in half units of 2^e: m2 of them, or strictly less than one half unit away when sticky. -/
theorem Stands.halves {m : Nat} {e : Int} {sticky : Bool} {y : ℝ} (h : Stands m e sticky y) :
    let m2 := 2 * m + (if sticky then 1 else 0)
    if sticky then ((m2 : ℝ) - 1) * 2 ^ (e - 1) < y ∧ y < (m2 + 1) * 2 ^ (e - 1) else y = m2 * 2 ^ (e - 1) := by
  have he : (2 : ℝ) ^ e = 2 * 2 ^ (e - 1) := by rw [← two_zpow_succ, sub_add_cancel]
  unfold Stands at h
  rw [he] at h
  cases sticky with
  | false => simp only [Bool.false_eq_true, if_false] at h ⊢; rw [h]; push_cast; ring
  | true =>
    simp only [if_true] at h ⊢
    push_cast
    constructor <;> nlinarith [h.1, h.2]

/-- Below a quarter of the unit, the step is the first one and the nearer end is 0. -/
theorem roundAt_small {rm : RMode} {neg : Bool} {m : Nat} {e qe : Int} {sticky : Bool} {y : ℝ} (h : Stands m e sticky y) (hsh : e ≤ qe)
    (hlog : Nat.log2 (2 * m + if sticky then 1 else 0) + 2 < (qe - (e - 1)).toNat) :
    InStep rm neg y qe 0 (decide (2 * m + (if sticky then 1 else 0) ≠ 0) && roundsUp rm neg false .lt) ∧
      (2 * m + (if sticky then 1 else 0) ≠ 0 ↔ y ≠ (0 : Nat) * (2 : ℝ) ^ qe) := by
  have hh := h.halves
  set m2 := 2 * m + (if sticky then 1 else 0) with hm2
  have hV := two_zpow_pos (e - 1)
  have hU : (2 : ℝ) ^ qe = 2 ^ (qe - (e - 1)).toNat * 2 ^ (e - 1) := zpow_split (by omega)
  have hquarter : 4 * (m2 + 1) ≤ 2 ^ (qe - (e - 1)).toNat := calc
    4 * (m2 + 1) ≤ 4 * 2 ^ (Nat.log2 m2 + 1) := Nat.mul_le_mul_left 4 Nat.lt_log2_self
    _ = 2 ^ (Nat.log2 m2 + 3) := by ring
    _ ≤ _ := Nat.pow_le_pow_right (by omega) (by omega)
  have hquarterR : 4 * ((m2 : ℝ) + 1) * 2 ^ (e - 1) ≤ 2 ^ qe := by
    rw [hU]; exact mul_le_mul_of_nonneg_right (by exact_mod_cast hquarter) hV.le
  have hbounds : 0 ≤ y ∧ y < ((m2 : ℝ) + 1) * 2 ^ (e - 1) ∧ (m2 ≠ 0 ↔ y ≠ 0) := by
    cases sticky with
    | false =>
      simp only [Bool.false_eq_true, if_false] at hh
      rw [hh]
      exact ⟨by positivity, by nlinarith, by simp [hV.ne']⟩
    | true =>
      simp only [if_true] at hh hm2
      have hm1 : (1 : ℝ) ≤ m2 := by exact_mod_cast (by omega : 1 ≤ m2)
      have hpos : 0 < y := lt_of_le_of_lt (mul_nonneg (by linarith) hV.le) hh.1
      exact ⟨hpos.le, hh.2, by simp [hpos.ne']; omega⟩
  obtain ⟨h0, hlt, hne⟩ := hbounds
  have hUpos := two_zpow_pos qe
  refine ⟨⟨by simpa using h0, by push_cast; nlinarith, .lt, ?_, by simp [hne]⟩, by simpa using hne⟩
  show y - (0 : Nat) * (2 : ℝ) ^ qe < ((0 : Nat) + 1) * (2 : ℝ) ^ qe - y
  push_cast
  nlinarith

/-- Otherwise quotient and remainder of the half units give the step and, by the double of the remainder, the nearer end. -/
theorem roundAt_divide {rm : RMode} {neg : Bool} {m : Nat} {e qe : Int} {sticky : Bool} {y : ℝ} (h : Stands m e sticky y) (hsh : e ≤ qe)
    (hs : sticky = true → e < qe) :
    let m2 := 2 * m + (if sticky then 1 else 0)
    let n := 2 ^ (qe - (e - 1)).toNat
    InStep rm neg y qe (m2 / n) (decide (m2 % n ≠ 0) && roundsUp rm neg (decide (m2 / n % 2 = 1)) (compare (2 * (m2 % n)) n)) ∧
      (m2 % n ≠ 0 ↔ y ≠ (m2 / n : Nat) * (2 : ℝ) ^ qe) := by
  intro m2 n
  have hh := h.halves
  have hV := two_zpow_pos (e - 1)
  have hU : (2 : ℝ) ^ qe = n * 2 ^ (e - 1) := by rw [zpow_split (by omega : e - 1 ≤ qe)]; simp only [n, Nat.cast_pow, Nat.cast_ofNat]
  have hn : n % 2 = 0 := by
    obtain ⟨k, hk⟩ : ∃ k, (qe - (e - 1)).toNat = k + 1 := ⟨(qe - e).toNat, by omega⟩
    simp only [n, hk, pow_succ]; omega
  have hr : m2 % n < n := Nat.mod_lt _ (by positivity)
  have hdiv : n * (m2 / n) + m2 % n = m2 := Nat.div_add_mod m2 n
  set q := m2 / n
  set r := m2 % n
  have hdivR : (m2 : ℝ) = n * q + r := by exact_mod_cast hdiv.symm
  have hrR : (r : ℝ) + 1 ≤ n := by exact_mod_cast hr
  -- the distances to the ends of the step, in half units
  have hdist : (y - q * 2 ^ qe = r * 2 ^ (e - 1)) ∨
      (n % 4 = 0 ∧ r % 2 = 1 ∧ (r - 1 : ℝ) * 2 ^ (e - 1) < y - q * 2 ^ qe ∧ y - q * 2 ^ qe < (r + 1) * 2 ^ (e - 1)) := by
    cases hst : sticky with
    | false =>
      left
      simp only [hst, Bool.false_eq_true, if_false] at hh
      rw [hU, hh]
      have : ((2 * m + 0 : ℕ) : ℝ) = m2 := by simp [m2, hst]
      rw [this, hdivR]; ring
    | true =>
      right
      simp only [hst, if_true] at hh
      have hm2 : 2 * m + 1 = m2 := by simp [m2, hst]
      rw [hm2, hdivR] at hh
      have hn4 : n % 4 = 0 := by
        obtain ⟨k, hk⟩ : ∃ k, (qe - (e - 1)).toNat = k + 2 := ⟨(qe - e - 1).toNat, by have := hs hst; omega⟩
        simp only [n, hk, pow_succ]; omega
      have hodd : r % 2 = 1 := by
        have : n * q % 2 = 0 := by rw [Nat.mul_mod, hn]; simp
        omega
      refine ⟨hn4, hodd, ?_, ?_⟩ <;> rw [hU] <;> nlinarith [hh.1, hh.2]
  have hend : (q + 1 : ℝ) * 2 ^ qe - y = n * 2 ^ (e - 1) - (y - q * 2 ^ qe) := by rw [hU]; ring
  have hr0 : (0 : ℝ) ≤ r := Nat.cast_nonneg r
  have hbounds : 0 ≤ y - q * 2 ^ qe ∧ y - q * 2 ^ qe < n * 2 ^ (e - 1) ∧ (r ≠ 0 ↔ y - q * 2 ^ qe ≠ 0) := by
    rcases hdist with hd | ⟨-, hodd, hlo, hhi⟩
    · rw [hd]
      exact ⟨by positivity, by nlinarith, by simp [hV.ne']⟩
    · have hr1 : (1 : ℝ) ≤ r := by exact_mod_cast (by omega : 1 ≤ r)
      have hpos : 0 < y - q * 2 ^ qe := lt_of_le_of_lt (mul_nonneg (by linarith) hV.le) hlo
      exact ⟨hpos.le, by nlinarith, by simp only [ne_eq, hpos.ne', not_false_eq_true, iff_true]; omega⟩
  obtain ⟨h0, hlt, hne⟩ := hbounds
  have hne' : r ≠ 0 ↔ y ≠ q * (2 : ℝ) ^ qe := hne.trans (not_congr sub_eq_zero)
  refine ⟨⟨by linarith, by rw [hU] at *; linarith, compare (2 * r) n, ?_, by simp [hne']⟩, hne'⟩
  rw [hend]
  cases hcmp : compare (2 * r) n with
  | lt =>
    have hc : 2 * r < n := compare_lt_iff_lt.1 hcmp
    show y - q * 2 ^ qe < _
    rcases hdist with hd | ⟨hn4, hodd, hlo, hhi⟩
    · have : (2 * r : ℝ) + 1 ≤ n := by exact_mod_cast hc
      rw [hd]; nlinarith
    · have : (2 * r : ℝ) + 2 ≤ n := by exact_mod_cast (by omega : 2 * r + 2 ≤ n)
      nlinarith
  | eq =>
    have hc : 2 * r = n := compare_eq_iff_eq.1 hcmp
    show y - q * 2 ^ qe = _
    rcases hdist with hd | ⟨hn4, hodd, hlo, hhi⟩
    · have : (2 * r : ℝ) = n := by exact_mod_cast hc
      rw [hd, ← this]; ring
    · omega
  | gt =>
    have hc : n < 2 * r := compare_gt_iff_gt.1 hcmp
    show _ < y - q * 2 ^ qe
    rcases hdist with hd | ⟨hn4, hodd, hlo, hhi⟩
    · have : (n : ℝ) + 1 ≤ 2 * r := by exact_mod_cast hc
      rw [hd]; nlinarith
    · have : (n : ℝ) + 2 ≤ 2 * r := by exact_mod_cast (by omega : n + 2 ≤ 2 * r)
      nlinarith

/-- `roundAt` finds the step that the magnitude lies in and whether the mode goes to its end; a sticky magnitude needs a coarser unit than
its own. -/
theorem roundAt_inStep (rm : RMode) (neg : Bool) {m : Nat} {e qe : Int} {sticky : Bool} {y : ℝ} (h : Stands m e sticky y)
    (hs : sticky = true → e < qe) : ∃ q up, InStep rm neg y qe q up ∧ (roundAt rm neg m e sticky qe).1 = (if up then q + 1 else q) ∧
      ((roundAt rm neg m e sticky qe).2 = true ↔ y ≠ q * (2 : ℝ) ^ qe) := by
  unfold roundAt
  by_cases hsh : qe - (e - 1) ≤ 0
  · have hst : sticky = false := by
      rw [← Bool.not_eq_true]; intro hst; have := hs hst; omega
    subst hst
    have hy : y = (2 * m * 2 ^ (-(qe - (e - 1))).toNat : Nat) * (2 : ℝ) ^ qe := by
      have hd := h.halves
      simp only [Bool.false_eq_true, if_false] at hd
      rw [hd, zpow_split (by omega : qe ≤ e - 1), neg_sub]; push_cast; ring
    refine ⟨2 * m * 2 ^ (-(qe - (e - 1))).toNat, false, ⟨hy.ge, ?_, .lt, ?_, ?_⟩, ?_, ?_⟩
    · have := two_zpow_pos qe; linarith
    · show y - _ < _; have := two_zpow_pos qe; linarith
    · exact ⟨fun h => absurd h Bool.false_ne_true, fun h => absurd hy h.1⟩
    · simp only [if_pos hsh, Bool.false_eq_true, if_false, Nat.add_zero]
    · simp only [if_pos hsh, ← hy]; simp
  · by_cases hlog : Nat.log2 (2 * m + if sticky then 1 else 0) + 2 < (qe - (e - 1)).toNat
    · obtain ⟨hstep, hne⟩ := roundAt_small (rm := rm) (neg := neg) h (by omega) hlog
      refine ⟨_, _, hstep, ?_, ?_⟩
      · simp only [if_neg hsh, if_pos hlog]
      · simp only [if_neg hsh, if_pos hlog, decide_eq_true_eq]; exact hne
    · obtain ⟨hstep, hne⟩ := roundAt_divide (rm := rm) (neg := neg) h (by omega) hs
      refine ⟨_, _, hstep, ?_, ?_⟩
      · simp only [if_neg hsh, if_neg hlog]
      · simp only [if_neg hsh, if_neg hlog, decide_eq_true_eq]; exact hne

/-! ### Rounding a magnitude to p bits -/

section
variable {rm : RMode} {neg : Bool} {m : Nat} {e qe : Int} {sticky : Bool} {y : ℝ}

/-- Above `n` units the rounded magnitude is `n` units at least. -/
theorem le_roundAt {n : Nat} (h : Stands m e sticky y) (hs : sticky = true → e < qe) (hy : n * (2 : ℝ) ^ qe ≤ y) :
    n ≤ (roundAt rm neg m e sticky qe).1 := by
  obtain ⟨q, up, hstep, hq, -⟩ := roundAt_inStep rm neg h hs
  have hlt := lt_of_mul_lt_mul_right (hy.trans_lt hstep.lt) (two_zpow_pos qe).le
  have : n < q + 1 := by exact_mod_cast hlt
  rw [hq]; split <;> omega

/-- Below `n` units the rounded magnitude is `n` units at most. -/
theorem roundAt_le {n : Nat} (h : Stands m e sticky y) (hs : sticky = true → e < qe) (hy : y < n * (2 : ℝ) ^ qe) :
    (roundAt rm neg m e sticky qe).1 ≤ n := by
  obtain ⟨q, up, hstep, hq, -⟩ := roundAt_inStep rm neg h hs
  have hlt := lt_of_mul_lt_mul_right (hstep.le.trans_lt hy) (two_zpow_pos qe).le
  have : q < n := by exact_mod_cast hlt
  rw [hq]; split <;> omega

/-- `roundAt` says that its result is inexact exactly when it is. -/
theorem roundAt_inexact (h : Stands m e sticky y) (hs : sticky = true → e < qe) :
    (roundAt rm neg m e sticky qe).2 = true ↔ (roundAt rm neg m e sticky qe).1 * (2 : ℝ) ^ qe ≠ y := by
  obtain ⟨q, up, hstep, hq, hne⟩ := roundAt_inStep rm neg h hs
  obtain ⟨cmp, -, hup⟩ := hstep.up_iff
  rw [hne, hq]
  cases up with
  | false => exact ne_comm
  | true =>
    have hlt := hstep.lt
    simp only [if_true, Nat.cast_add, Nat.cast_one]
    exact iff_of_true (hup.1 rfl).1 hlt.ne'

/-- R38: `roundAt` rounds to a set of numbers that has the multiples of its unit around the magnitude, and none between. -/
theorem roundAt_roundsTo {g : ℝ → Prop} (hneg : ∀ t, g t → g (-t)) (h : Stands m e sticky y) (hs : sticky = true → e < qe)
    (hg : ∀ q : Nat, q * (2 : ℝ) ^ qe ≤ y → y < (q + 1) * (2 : ℝ) ^ qe → g (q * (2 : ℝ) ^ qe) ∧ g ((q + 1 : Nat) * (2 : ℝ) ^ qe) ∧
      ∀ t, g t → t ≤ q * (2 : ℝ) ^ qe ∨ (q + 1) * (2 : ℝ) ^ qe ≤ t) :
    RoundsTo g rm (sgn neg * y) (sgn neg * ((roundAt rm neg m e sticky qe).1 * (2 : ℝ) ^ qe)) := by
  obtain ⟨q, up, hstep, hq, -⟩ := roundAt_inStep rm neg h hs
  obtain ⟨hle, hlt, cmp, hcmp, hup⟩ := hstep
  obtain ⟨ga, gb, gap⟩ := hg q hle hlt
  have hend : ((roundAt rm neg m e sticky qe).1 : ℝ) * 2 ^ qe = if up then (q + 1) * (2 : ℝ) ^ qe else q * (2 : ℝ) ^ qe := by
    rw [hq]; split <;> push_cast <;> rfl
  rw [hend]
  rw [Nat.cast_add, Nat.cast_one] at gb
  have heven : ∃ k : Int, (if decide (q % 2 = 1) then (q + 1) * (2 : ℝ) ^ qe else q * (2 : ℝ) ^ qe) = 2 * k * (2 : ℝ) ^ qe := by
    by_cases hodd : q % 2 = 1
    · obtain ⟨k, hk⟩ : ∃ k, q + 1 = 2 * k := ⟨(q + 1) / 2, by omega⟩
      have hkR : (q : ℝ) + 1 = 2 * k := by exact_mod_cast hk
      exact ⟨k, by simp only [hodd, decide_true, if_true, hkR, Int.cast_natCast]⟩
    · obtain ⟨k, hk⟩ : ∃ k, q = 2 * k := ⟨q / 2, by omega⟩
      have hkR : (q : ℝ) = 2 * k := by exact_mod_cast hk
      exact ⟨k, by simp only [hodd, decide_false, Bool.false_eq_true, if_false, hkR, Int.cast_natCast]⟩
  exact roundsTo_step neg hneg ga gb gap (mul_nonneg (Nat.cast_nonneg q) (two_zpow_pos qe).le) hle hlt hcmp hup heven (by ring)

/-- R38: it rounds to the numbers of p bits, if the unit is the smallest one or 2^(p-1) units are reached, and 2^p are not. -/
theorem roundAt_onGrid {p : Nat} {lo : Option Int} (hp : 1 ≤ p) (h : Stands m e sticky y) (hs : sticky = true → e < qe)
    (hlo : ∀ l, lo = some l → l ≤ qe) (hgap : lo = some qe ∨ (2 : ℝ) ^ p * 2 ^ qe ≤ 2 * y) (hy : y < (2 : ℝ) ^ p * 2 ^ qe) :
    RoundsTo (OnGrid p lo) rm (sgn neg * y) (sgn neg * ((roundAt rm neg m e sticky qe).1 * (2 : ℝ) ^ qe)) := by
  refine roundAt_roundsTo (fun _ => OnGrid.neg) h hs fun q hle hlt => ?_
  have hq : q < 2 ^ p := by exact_mod_cast lt_of_mul_lt_mul_right (hle.trans_lt hy) (two_zpow_pos qe).le
  refine ⟨onGrid_mul hp hq.le hlo, onGrid_mul hp hq hlo, fun t ht => onGrid_gap ht (hgap.imp_right fun hbig => ?_)⟩
  have hlt2 : (2 : ℝ) ^ p * 2 ^ qe < 2 * (q + 1) * 2 ^ qe := by linarith
  have : 2 ^ p < 2 * (q + 1) := by exact_mod_cast lt_of_mul_lt_mul_right hlt2 (two_zpow_pos qe).le
  have heven : 2 ^ p % 2 = 0 := by
    obtain ⟨k, rfl⟩ : ∃ k, p = k + 1 := ⟨p - 1, by omega⟩
    rw [pow_succ]; omega
  omega

/-- The binade of a magnitude. -/
theorem Stands.binade (hm : m ≠ 0) (h : Stands m e sticky y) : (2 : ℝ) ^ ((Nat.log2 m : Int) + e) ≤ y ∧ y < 2 ^ ((Nat.log2 m : Int) + e + 1) := by
  have hlo : ((2 ^ Nat.log2 m : Nat) : ℝ) ≤ m := by exact_mod_cast Nat.log2_self_le hm
  have hhi : (m : ℝ) + 1 ≤ (2 ^ (Nat.log2 m + 1) : Nat) := by exact_mod_cast Nat.lt_log2_self
  have he := two_zpow_pos e
  rw [add_right_comm, two_zpow_add, two_zpow_add, two_zpow_add, zpow_natCast, zpow_one]
  push_cast [pow_succ] at hlo hhi
  unfold Stands at h
  cases sticky with
  | false => simp only [Bool.false_eq_true, if_false] at h; rw [h]; constructor <;> nlinarith
  | true => simp only [if_true] at h; constructor <;> nlinarith [h.1, h.2]

/-- A magnitude rounded to a format of `k` fraction bits and smallest normal exponent `emin` (`none`: of any exponent): the unit that the
model chooses gives the rounded number, which keeps to the magnitude's binade. -/
theorem roundAt_float {k : Nat} {lo : Option Int} (hm : m ≠ 0) (h : Stands m e sticky y) (hs : sticky = true → k < Nat.log2 m)
    (hlo : ∀ l, lo = some l → l ≤ qe) (hqe : qe = (Nat.log2 m : Int) + e - k ∨ lo = some qe ∧ (Nat.log2 m : Int) + e - k < qe) :
    RoundsTo (OnGrid (k + 1) lo) rm (sgn neg * y) (sgn neg * ((roundAt rm neg m e sticky qe).1 * (2 : ℝ) ^ qe)) ∧
      ((roundAt rm neg m e sticky qe).2 = true ↔ (roundAt rm neg m e sticky qe).1 * (2 : ℝ) ^ qe ≠ y) ∧
      (qe = (Nat.log2 m : Int) + e - k → 2 ^ k ≤ (roundAt rm neg m e sticky qe).1 ∧ (roundAt rm neg m e sticky qe).1 ≤ 2 ^ (k + 1)) ∧
      (qe ≠ (Nat.log2 m : Int) + e - k → (roundAt rm neg m e sticky qe).1 ≤ 2 ^ k) := by
  obtain ⟨hl, hu⟩ := h.binade hm
  have hs' : sticky = true → e < qe := fun hst => by have := hs hst; omega
  have hk : ∀ j : Nat, (2 : ℝ) ^ j * 2 ^ qe = 2 ^ ((j : Int) + qe) := fun j => two_pow_mul_zpow j qe
  refine ⟨roundAt_onGrid (by omega) h hs' hlo ?_ ?_, roundAt_inexact h hs', fun hq => ⟨le_roundAt h hs' ?_, roundAt_le h hs' ?_⟩,
    fun hq => roundAt_le h hs' ?_⟩
  · refine hqe.symm.imp (·.1) fun hq => ?_
    rw [hk, show ((k + 1 : Nat) : Int) + qe = (Nat.log2 m : Int) + e + 1 by push_cast; omega, two_zpow_succ]
    linarith
  · rw [hk]; exact hu.trans_le (two_zpow_le (by push_cast; omega))
  · push_cast; rw [hk]; exact (two_zpow_le (by omega)).trans hl
  · push_cast; rw [hk]; exact hu.trans_le (two_zpow_le (by push_cast; omega))
  · push_cast; rw [hk]; exact hu.trans_le (two_zpow_le (by omega))
end

end Sys2Proof.Machine
end

section
/-! PROOFS. Numbers (02), part 3: the binary formats of R35, and that the model's `roundTo` gives the exact value rounded once. -/
namespace Sys2Proof.Machine

/-! ### Codes of magnitudes (R35, R39) -/

/-- The magnitude of code `c`, exponent field above `k` fraction bits, without an upper limit. -/
noncomputable def magVal (k : Nat) (bias : Int) (c : Nat) : ℝ :=
  if c < 2 ^ k then c * (2 : ℝ) ^ (1 - bias - k) else (2 ^ k + c % 2 ^ k : Nat) * (2 : ℝ) ^ (((c / 2 ^ k : Nat) : Int) - bias - k)

/-- The code of `q` units under the exponent field `ex`; a carry out of the fraction raises the field. -/
def codeOf (k ex q : Nat) : Nat := if q < 2 ^ k then q else (ex - 1) * 2 ^ k + q

theorem codeOf_small {k q : Nat} (ex : Nat) (h : q < 2 ^ k) : codeOf k ex q = q := if_pos h

/-- A code past the subnormal ones, taken apart into its field and its fraction. -/
theorem codeOf_normal {k ex q : Nat} (hex : 1 ≤ ex) (h : 2 ^ k ≤ q) : codeOf k ex q = ex * 2 ^ k + (q - 2 ^ k) := by
  obtain ⟨ex, rfl⟩ : ∃ x, ex = x + 1 := ⟨ex - 1, by omega⟩
  rw [codeOf, if_neg (by omega), Nat.add_sub_cancel, Nat.succ_mul]; omega

theorem magVal_of_field {k : Nat} {bias : Int} {x j : Nat} (hx : 1 ≤ x) (hj : j < 2 ^ k) :
    magVal k bias (x * 2 ^ k + j) = (2 ^ k + j : Nat) * (2 : ℝ) ^ ((x : Int) - bias - k) := by
  have hge : ¬ x * 2 ^ k + j < 2 ^ k := by have := Nat.mul_le_mul_right (2 ^ k) hx; omega
  have hdiv : (x * 2 ^ k + j) / 2 ^ k = x := by
    rw [Nat.add_comm, Nat.add_mul_div_right _ _ (by positivity), Nat.div_eq_of_lt hj, Nat.zero_add]
  have hmod : (x * 2 ^ k + j) % 2 ^ k = j := by rw [Nat.add_comm, Nat.add_mul_mod_self_right, Nat.mod_eq_of_lt hj]
  rw [magVal, if_neg hge, hdiv, hmod]

/-- The code of `q` units stands for `q` units. -/
theorem magVal_codeOf {k : Nat} {bias : Int} {ex q : Nat} (hex : 1 ≤ ex) (hq : q ≤ 2 ^ (k + 1)) (hsub : q < 2 ^ k → ex = 1) :
    magVal k bias (codeOf k ex q) = q * (2 : ℝ) ^ ((ex : Int) - bias - k) := by
  rcases Nat.lt_or_ge q (2 ^ k) with h | h
  · rw [codeOf_small _ h, magVal, if_pos h, hsub h, Nat.cast_one]
  · have htwo : 2 ^ (k + 1) = 2 ^ k + 2 ^ k := by rw [pow_succ]; omega
    rw [codeOf_normal hex h]
    rcases Nat.lt_or_ge (q - 2 ^ k) (2 ^ k) with hlt | hge
    · rw [magVal_of_field hex hlt, Nat.add_sub_cancel' h]
    · have hqk : q = 2 ^ (k + 1) := by omega
      have hcarry : ex * 2 ^ k + (q - 2 ^ k) = (ex + 1) * 2 ^ k + 0 := by rw [Nat.succ_mul]; omega
      rw [hcarry, magVal_of_field (by omega) (by positivity), hqk, Nat.add_zero,
        show (((ex + 1 : Nat) : Int) - bias - k) = (ex - bias - k) + 1 by push_cast; ring, two_zpow_succ]
      push_cast; ring

/-- Every code is that of some units, and the next code that of one unit more. -/
theorem exists_codeOf (k c : Nat) : ∃ ex q, 1 ≤ ex ∧ q < 2 ^ (k + 1) ∧ (q < 2 ^ k → ex = 1) ∧ codeOf k ex q = c ∧ codeOf k ex (q + 1) = c + 1 := by
  have htwo : 2 ^ (k + 1) = 2 ^ k + 2 ^ k := by rw [pow_succ]; omega
  rcases Nat.lt_or_ge c (2 ^ k) with h | h
  · refine ⟨1, c, le_refl 1, by omega, fun _ => rfl, codeOf_small 1 h, ?_⟩
    unfold codeOf; split <;> omega
  · have hmod : c % 2 ^ k < 2 ^ k := Nat.mod_lt _ (by positivity)
    have hdiv : 1 ≤ c / 2 ^ k := (Nat.one_le_div_iff (by positivity)).2 h
    have hc := Nat.div_add_mod' c (2 ^ k)
    refine ⟨c / 2 ^ k, 2 ^ k + c % 2 ^ k, hdiv, by omega, by omega, ?_, ?_⟩ <;> rw [codeOf_normal hdiv (by omega)] <;> omega

theorem magVal_strictMono (k : Nat) (bias : Int) : StrictMono (magVal k bias) := by
  refine strictMono_nat_of_lt_succ fun c => ?_
  obtain ⟨ex, q, hex, hq, hsub, hc, hc'⟩ := exists_codeOf k c
  rw [← hc', ← hc, magVal_codeOf hex hq.le hsub, magVal_codeOf hex hq (fun h => hsub (by omega))]
  have := two_zpow_pos ((ex : Int) - bias - k)
  push_cast; linarith

theorem magVal_zero (k : Nat) (bias : Int) : magVal k bias 0 = 0 := by
  rw [magVal, if_pos (by positivity), Nat.cast_zero, zero_mul]

theorem magVal_nonneg (k : Nat) (bias : Int) (c : Nat) : 0 ≤ magVal k bias c :=
  magVal_zero k bias ▸ (magVal_strictMono k bias).monotone (Nat.zero_le c)

/-- The code whose fraction is 0. -/
theorem magVal_field (k : Nat) (bias : Int) {x : Nat} (hx : 1 ≤ x) : magVal k bias (x * 2 ^ k) = (2 : ℝ) ^ ((x : Int) - bias) := by
  have h := magVal_of_field (k := k) (bias := bias) hx (j := 0) (by positivity)
  rw [Nat.add_zero] at h
  rw [h]; push_cast
  rw [add_zero, two_pow_mul_zpow, add_sub_cancel]

/-- The code of a magnitude that `roundAt` made with the unit of a format. -/
theorem magVal_codeOf_unit {k : Nat} {bias qe : Int} {q : Nat} (hunit : 1 - bias - k ≤ qe) (hq : q ≤ 2 ^ (k + 1))
    (hsub : q < 2 ^ k → qe = 1 - bias - k) : magVal k bias (codeOf k (qe + k + bias).toNat q) = q * (2 : ℝ) ^ qe := by
  rw [magVal_codeOf (by omega) hq (fun h => by have := hsub h; omega), Int.toNat_of_nonneg (by omega)]
  congr 2; ring

/-! ### The formats and their codes (R35, R37) -/

/-- What the statements need of a format: two exponent bits and one of fraction. -/
structure Fmt.Ok (f : Fmt) : Prop where
  eb : 2 ≤ f.eb
  fb : 1 ≤ f.fb

theorem Fmt.ok_of_mem {f : Fmt} (h : f ∈ [fp64, fp32, fp16, bf16, e8m10]) : f.Ok := by
  simp only [List.mem_cons, List.not_mem_nil, or_false] at h
  rcases h with rfl | rfl | rfl | rfl | rfl <;> exact ⟨by decide, by decide⟩

/-- The bit pattern of a sign and a magnitude code. -/
def Fmt.pattern (f : Fmt) (n : Bool) (c : Nat) : Nat := ((if n then 2 ^ (f.eb + f.fb) else 0) + c) * 2 ^ f.low

/-- The first code that is no finite magnitude. -/
def Fmt.infCode (f : Fmt) : Nat := (2 ^ f.eb - 1) * 2 ^ f.fb

section
variable {f : Fmt} (n : Bool) {c : Nat}

theorem Fmt.zero_eq : f.zero n = f.pattern n 0 := by
  cases n <;> simp [Fmt.zero, Fmt.pattern, pow_add]
theorem Fmt.inf_eq : f.inf n = f.pattern n f.infCode := rfl

theorem Fmt.infCode_pos (hf : f.Ok) : 1 ≤ f.infCode := by
  have h2 : 2 ^ 2 ≤ 2 ^ f.eb := Nat.pow_le_pow_right (by omega) hf.eb
  exact Nat.mul_pos (by omega) (by positivity)

theorem Fmt.infCode_add : f.infCode + 2 ^ f.fb = 2 ^ (f.eb + f.fb) := by
  have h1 : 1 ≤ 2 ^ f.eb := Nat.one_le_two_pow
  rw [Fmt.infCode, pow_add, ← Nat.succ_mul]; congr 1; omega

theorem Fmt.infCode_lt : f.infCode < 2 ^ (f.eb + f.fb) := by
  have := f.infCode_add
  have : 0 < 2 ^ f.fb := by positivity
  omega

theorem Fmt.maxFin_eq (hf : f.Ok) : f.maxFin n = f.pattern n (f.infCode - 1) := by
  have := Fmt.infCode_pos hf
  rw [Fmt.maxFin, Fmt.pattern, ← Nat.add_sub_assoc this]; rfl

theorem Fmt.pattern_lt (hc : c < 2 ^ (f.eb + f.fb)) : f.pattern n c < 2 ^ f.width := by
  have hw : 2 ^ f.width = (2 ^ (f.eb + f.fb) + 2 ^ (f.eb + f.fb)) * 2 ^ f.low := by rw [Fmt.width]; ring
  rw [hw]
  exact Nat.mul_lt_mul_of_pos_right (by split <;> omega) (by positivity)

theorem Fmt.pattern_mod : f.pattern n c % 2 ^ f.low = 0 := Nat.mul_mod_left _ _

/-- The bits of a pattern that count. -/
theorem Fmt.pattern_div (hc : c < 2 ^ (f.eb + f.fb)) :
    f.pattern n c / 2 ^ f.low % 2 ^ (1 + f.eb + f.fb) = (if n then 2 ^ (f.eb + f.fb) else 0) + c := by
  have hw : 2 ^ (1 + f.eb + f.fb) = 2 ^ (f.eb + f.fb) + 2 ^ (f.eb + f.fb) := by ring
  rw [Fmt.pattern, Nat.mul_div_cancel _ (by positivity), hw, Nat.mod_eq_of_lt (by split <;> omega)]

/-- What a pattern stands for, by its sign and its code. -/
theorem Fmt.decode_pattern (hc : c < 2 ^ (f.eb + f.fb)) : f.decode (f.pattern n c) =
    if c / 2 ^ f.fb = 2 ^ f.eb - 1 then (if c % 2 ^ f.fb = 0 then .inf n else .nan (decide (c % 2 ^ f.fb < 2 ^ (f.fb - 1))))
    else if c / 2 ^ f.fb = 0 then .fin n (c % 2 ^ f.fb) (f.emin - f.fb)
    else .fin n (2 ^ f.fb + c % 2 ^ f.fb) (((c / 2 ^ f.fb : Nat) : Int) - f.bias - f.fb) := by
  have hfld : c / 2 ^ f.fb < 2 ^ f.eb := by
    rw [Nat.div_lt_iff_lt_mul (by positivity), ← pow_add]; exact hc
  have hsign : decide (((if n then 2 ^ (f.eb + f.fb) else 0) + c) / 2 ^ (f.eb + f.fb) = 1) = n := by
    cases n with
    | false => simp [Nat.div_eq_of_lt hc]
    | true => simp [Nat.add_div_left _ (Nat.two_pow_pos (f.eb + f.fb)), Nat.div_eq_of_lt hc]
  have hex : ((if n then 2 ^ (f.eb + f.fb) else 0) + c) / 2 ^ f.fb % 2 ^ f.eb = c / 2 ^ f.fb := by
    cases n with
    | false => simp [Nat.mod_eq_of_lt hfld]
    | true => simp [pow_add, Nat.mul_add_div (Nat.two_pow_pos f.fb), Nat.mul_comm (2 ^ f.eb), Nat.mod_eq_of_lt hfld]
  have hfr : ((if n then 2 ^ (f.eb + f.fb) else 0) + c) % 2 ^ f.fb = c % 2 ^ f.fb := by
    cases n with
    | false => simp
    | true => simp [pow_add]
  unfold Fmt.decode
  simp only [Fmt.pattern_div n hc, hsign, hex, hfr]

/-- A pattern stands for the same as its counting bits alone: those of a sign and a code. -/
theorem Fmt.exists_pattern (f : Fmt) (x : Nat) : ∃ n c, c < 2 ^ (f.eb + f.fb) ∧ f.decode x = f.decode (f.pattern n c) ∧
    x / 2 ^ f.low % 2 ^ (1 + f.eb + f.fb) = (if n then 2 ^ (f.eb + f.fb) else 0) + c := by
  set w := x / 2 ^ f.low % 2 ^ (1 + f.eb + f.fb) with hw
  have hlt : w < 2 ^ (f.eb + f.fb) + 2 ^ (f.eb + f.fb) :=
    (Nat.mod_lt _ (by positivity)).trans_eq (by ring)
  have hc : w % 2 ^ (f.eb + f.fb) < 2 ^ (f.eb + f.fb) := Nat.mod_lt _ (by positivity)
  have hwc : w = (if decide (2 ^ (f.eb + f.fb) ≤ w) then 2 ^ (f.eb + f.fb) else 0) + w % 2 ^ (f.eb + f.fb) := by
    by_cases h : 2 ^ (f.eb + f.fb) ≤ w
    · rw [decide_eq_true h, if_pos rfl, Nat.mod_eq_sub_mod h, Nat.mod_eq_of_lt (by omega)]; omega
    · rw [decide_eq_false h, if_neg Bool.false_ne_true, Nat.mod_eq_of_lt (by omega)]; omega
  refine ⟨_, _, hc, ?_, hwc⟩
  unfold Fmt.decode
  simp only [Fmt.pattern_div _ hc, ← hwc, ← hw]

/-- A finite pattern: its sign, its magnitude, and the range of its parts. -/
theorem Fmt.decode_finite (hc : c < f.infCode) : ∃ m e, f.decode (f.pattern n c) = .fin n m e ∧
    m * (2 : ℝ) ^ e = magVal f.fb f.bias c ∧ m < 2 ^ (f.fb + 1) ∧ f.emin - f.fb ≤ e ∧ (m < 2 ^ f.fb ↔ c < 2 ^ f.fb) := by
  have hfld : c / 2 ^ f.fb < 2 ^ f.eb - 1 := by rwa [Nat.div_lt_iff_lt_mul (by positivity)]
  have hmod : c % 2 ^ f.fb < 2 ^ f.fb := Nat.mod_lt _ (by positivity)
  have htwo : 2 ^ (f.fb + 1) = 2 ^ f.fb + 2 ^ f.fb := by rw [pow_succ]; omega
  rw [Fmt.decode_pattern n (hc.trans f.infCode_lt), if_neg hfld.ne]
  by_cases h : c / 2 ^ f.fb = 0
  · have hlt : c < 2 ^ f.fb := by
      rcases Nat.div_eq_zero_iff.1 h with h | h
      · exact absurd h (by positivity)
      · exact h
    rw [if_pos h, Nat.mod_eq_of_lt hlt]
    exact ⟨_, _, rfl, by rw [magVal, if_pos hlt]; rfl, by omega, le_refl _, Iff.rfl⟩
  · have hone : 1 ≤ c / 2 ^ f.fb := Nat.pos_of_ne_zero h
    have hge : 2 ^ f.fb ≤ c := (Nat.one_le_div_iff (by positivity)).1 hone
    rw [if_neg h]
    refine ⟨_, _, rfl, by rw [magVal, if_neg (by omega)], by omega, ?_, by omega⟩
    have : (1 : Int) ≤ (c / 2 ^ f.fb : Nat) := by exact_mod_cast hone
    unfold Fmt.emin; omega

/-- The kinds of values that a pattern stands for. -/
theorem Fmt.decode_of_ge (hc : c < 2 ^ (f.eb + f.fb)) (hge : f.infCode ≤ c) :
    f.decode (f.pattern n c) = if c = f.infCode then .inf n else .nan (decide (c - f.infCode < 2 ^ (f.fb - 1))) := by
  have hadd := f.infCode_add
  obtain ⟨j, rfl⟩ := Nat.exists_eq_add_of_le hge
  have hj : j < 2 ^ f.fb := by omega
  have hdiv : (f.infCode + j) / 2 ^ f.fb = 2 ^ f.eb - 1 := by
    rw [Fmt.infCode, Nat.add_comm, Nat.add_mul_div_right _ _ (by positivity), Nat.div_eq_of_lt hj, Nat.zero_add]
  have hmod : (f.infCode + j) % 2 ^ f.fb = j := by
    rw [Fmt.infCode, Nat.add_comm, Nat.add_mul_mod_self_right, Nat.mod_eq_of_lt hj]
  rw [Fmt.decode_pattern n hc, if_pos hdiv, hmod, Nat.add_sub_cancel_left]
  simp only [Nat.add_eq_left]

/-- A finite value comes from the code of a finite magnitude. -/
theorem Fmt.decode_fin_inv (f : Fmt) {x : Nat} {n : Bool} {m : Nat} {e : Int} (h : f.decode x = .fin n m e) :
    ∃ c, c < f.infCode ∧ m * (2 : ℝ) ^ e = magVal f.fb f.bias c ∧ f.emin - f.fb ≤ e ∧ (m < 2 ^ f.fb ↔ c < 2 ^ f.fb) := by
  obtain ⟨n', c, hc, heq, -⟩ := f.exists_pattern x
  rw [h] at heq
  rcases Nat.lt_or_ge c f.infCode with hlt | hge
  · obtain ⟨m', e', hdec, hmag, -, he, hsub⟩ := f.decode_finite n' hlt
    rw [hdec] at heq
    obtain ⟨rfl, rfl, rfl⟩ := FVal.fin.inj heq
    exact ⟨c, hlt, hmag, he, hsub⟩
  · rw [f.decode_of_ge n' hc hge] at heq
    split at heq <;> exact FVal.noConfusion heq

@[simp] theorem Fmt.decode_inf : f.decode (f.inf n) = .inf n := by
  rw [Fmt.inf_eq, Fmt.decode_of_ge n f.infCode_lt (le_refl _), if_pos rfl]

theorem Fmt.decode_nan (hf : f.Ok) : f.decode f.nan = .nan false := by
  have hlt : 2 ^ (f.fb - 1) < 2 ^ f.fb := Nat.pow_lt_pow_right (by omega) (by have := hf.fb; omega)
  have hadd := f.infCode_add
  have hpos : 0 < 2 ^ (f.fb - 1) := by positivity
  have : f.nan = f.pattern false (f.infCode + 2 ^ (f.fb - 1)) := by simp [Fmt.nan, Fmt.pattern, Fmt.infCode]
  rw [this, Fmt.decode_of_ge false (by omega) (by omega), if_neg (by omega), Nat.add_sub_cancel_left]
  simp

theorem Fmt.decode_zero (hf : f.Ok) : f.decode (f.zero n) = .fin n 0 (f.emin - f.fb) := by
  have h2 : 2 ^ 2 ≤ 2 ^ f.eb := Nat.pow_le_pow_right (by omega) hf.eb
  rw [Fmt.zero_eq, Fmt.decode_pattern n (by positivity), Nat.zero_div, if_neg (by omega), if_pos rfl, Nat.zero_mod]

/-- The largest finite magnitude (R38). -/
theorem Fmt.decode_maxFin (hf : f.Ok) : f.decode (f.maxFin n) = .fin n (2 ^ (f.fb + 1) - 1) (f.bias - f.fb) := by
  have h2 : 2 ^ 2 ≤ 2 ^ f.eb := Nat.pow_le_pow_right (by omega) hf.eb
  obtain ⟨j, hj⟩ : ∃ j, f.eb = j + 1 := ⟨f.eb - 1, by have := hf.eb; omega⟩
  have hbias : (f.bias : Int) = 2 ^ f.eb - 2 - f.bias := by
    have : 2 ^ f.eb = 2 * 2 ^ (f.eb - 1) := by rw [hj, pow_succ, Nat.add_sub_cancel]; ring
    have h1 : 1 ≤ 2 ^ (f.eb - 1) := Nat.one_le_two_pow
    have hb : f.bias + 1 = 2 ^ (f.eb - 1) := by unfold Fmt.bias; omega
    have : ((2 ^ f.eb : Nat) : Int) = 2 * (f.bias + 1) := by rw [this, ← hb]; push_cast; ring
    push_cast at this; omega
  have hpos : 0 < 2 ^ f.fb := by positivity
  have hcode : f.infCode - 1 = 2 ^ f.fb * (2 ^ f.eb - 2) + (2 ^ f.fb - 1) := by
    have : f.infCode = 2 ^ f.fb * (2 ^ f.eb - 2) + 2 ^ f.fb := by
      rw [Fmt.infCode, ← Nat.mul_succ, Nat.mul_comm]; congr 1; omega
    omega
  have hdiv : (f.infCode - 1) / 2 ^ f.fb = 2 ^ f.eb - 2 := by
    rw [hcode, Nat.mul_add_div hpos, Nat.div_eq_of_lt (by omega), Nat.add_zero]
  have hmod : (f.infCode - 1) % 2 ^ f.fb = 2 ^ f.fb - 1 := by
    rw [hcode, Nat.mul_add_mod, Nat.mod_eq_of_lt (by omega)]
  have hlt := f.infCode_lt
  rw [Fmt.maxFin_eq n hf, Fmt.decode_pattern n (by omega), hdiv, hmod, if_neg (by omega), if_neg (by omega)]
  congr 1
  · rw [pow_succ]; omega
  · push_cast [Nat.cast_sub (by omega : 2 ≤ 2 ^ f.eb)]; omega
end

/-- The magnitude at which a format overflows. -/
theorem Fmt.magVal_infCode {f : Fmt} (hf : f.Ok) : magVal f.fb f.bias f.infCode = (2 : ℝ) ^ (f.bias + 1) := by
  have h2 : 2 ^ 2 ≤ 2 ^ f.eb := Nat.pow_le_pow_right (by omega) hf.eb
  have h1 : 1 ≤ 2 ^ (f.eb - 1) := Nat.one_le_two_pow
  have hb : f.bias + 1 = 2 ^ (f.eb - 1) := by unfold Fmt.bias; omega
  have htwo : 2 ^ f.eb = 2 ^ (f.eb - 1) + 2 ^ (f.eb - 1) := by
    obtain ⟨j, hj⟩ : ∃ j, f.eb = j + 1 := ⟨f.eb - 1, by have := hf.eb; omega⟩
    rw [hj, pow_succ, Nat.add_sub_cancel]; omega
  rw [Fmt.infCode, magVal_field _ _ (by omega), ← zpow_natCast]
  congr 1; omega

/-- The smallest normal magnitude. -/
theorem Fmt.magVal_normal (f : Fmt) : magVal f.fb f.bias (2 ^ f.fb) = (2 : ℝ) ^ f.emin := by
  have := magVal_field f.fb f.bias (le_refl 1)
  rwa [Nat.one_mul, Nat.cast_one] at this

end Sys2Proof.Machine
end

section
/-! PROOFS. Numbers (02), part 4: `roundTo` gives the exact value rounded once, with the events of R36. -/
namespace Sys2Proof.Machine

section
variable {f : Fmt} {rm : RMode} {neg : Bool} {m : Nat} {e : Int} {sticky : Bool} {y : ℝ}

/-- What an overflow delivers (R38). -/
theorem overflowTo_decode (hf : f.Ok) : ∃ c, c < 2 ^ (f.eb + f.fb) ∧ overflowTo f rm neg = f.pattern neg c ∧
    f.decode (overflowTo f rm neg) = if rm = .rtz ∨ (rm = .rdn ∧ neg = false) ∨ (rm = .rup ∧ neg = true) then
      .fin neg (2 ^ (f.fb + 1) - 1) (f.bias - f.fb) else .inf neg := by
  have hinf : ∃ c, c < 2 ^ (f.eb + f.fb) ∧ f.inf neg = f.pattern neg c := ⟨_, f.infCode_lt, f.inf_eq neg⟩
  have hmax : ∃ c, c < 2 ^ (f.eb + f.fb) ∧ f.maxFin neg = f.pattern neg c :=
    ⟨_, (Nat.sub_le ..).trans_lt f.infCode_lt, f.maxFin_eq neg hf⟩
  have hdinf := f.decode_inf (n := neg)
  have hdmax := f.decode_maxFin neg hf
  cases rm with
  | rne => obtain ⟨c, hc, he⟩ := hinf; exact ⟨c, hc, he, by rw [if_neg (by simp)]; exact hdinf⟩
  | rna => obtain ⟨c, hc, he⟩ := hinf; exact ⟨c, hc, he, by rw [if_neg (by simp)]; exact hdinf⟩
  | rtz => obtain ⟨c, hc, he⟩ := hmax; exact ⟨c, hc, he, by rw [if_pos (by simp)]; exact hdmax⟩
  | rdn =>
    cases neg with
    | false => obtain ⟨c, hc, he⟩ := hmax; exact ⟨c, hc, he, by rw [if_pos (by simp)]; exact hdmax⟩
    | true => obtain ⟨c, hc, he⟩ := hinf; exact ⟨c, hc, he, by rw [if_neg (by simp)]; exact hdinf⟩
  | rup =>
    cases neg with
    | false => obtain ⟨c, hc, he⟩ := hinf; exact ⟨c, hc, he, by rw [if_neg (by simp)]; exact hdinf⟩
    | true => obtain ⟨c, hc, he⟩ := hmax; exact ⟨c, hc, he, by rw [if_pos (by simp)]; exact hdmax⟩

/-- The exponent of a magnitude's leading bit. -/
def topOf (m : Nat) (e : Int) : Int := (Nat.log2 m : Int) + e

/-- The unit that a magnitude is rounded to in a format (R35). -/
def Fmt.unit (f : Fmt) (m : Nat) (e : Int) : Int := (if topOf m e < f.emin then f.emin else topOf m e) - f.fb

/-- Tininess after rounding (R36), of a magnitude rounded without a lower limit of the exponent. -/
def isTiny (f : Fmt) (rm : RMode) (neg : Bool) (m : Nat) (e : Int) (sticky : Bool) : Bool :=
  decide (topOf m e < f.emin) &&
    !(decide (topOf m e + 1 = f.emin) && decide ((roundAt rm neg m e sticky (topOf m e - f.fb)).1 = 2 ^ (f.fb + 1)))

/-- `roundTo` of a nonzero magnitude: the code of the units that `roundAt` gives, unless that code is past the finite ones. -/
theorem roundTo_eq (hf : f.Ok) (hm : m ≠ 0) : roundTo f rm neg m e sticky =
    let q := roundAt rm neg m e sticky (f.unit m e)
    let c := codeOf f.fb (f.unit m e + f.fb + f.bias).toNat q.1
    if f.infCode ≤ c then (overflowTo f rm neg, { of := true, nx := true })
    else (f.pattern neg c, { nx := q.2, uf := isTiny f rm neg m e sticky && q.2 }) := by
  have hzero : (decide (m = 0) && !sticky) = false := by simp [hm]
  have hle : ∀ c, c / 2 ^ f.fb ≥ 2 ^ f.eb - 1 ↔ f.infCode ≤ c := fun c => Nat.le_div_iff_mul_le (by positivity)
  have hunit : (if (Nat.log2 m : Int) + e < f.emin then f.emin else (Nat.log2 m : Int) + e) - f.fb = f.unit m e := rfl
  unfold roundTo
  simp only [hzero, hunit, Bool.false_eq_true, if_false]
  by_cases hq : (roundAt rm neg m e sticky (f.unit m e)).1 = 0
  · have hc : codeOf f.fb (f.unit m e + f.fb + f.bias).toNat 0 = 0 := codeOf_small _ (by positivity)
    have := f.infCode_pos hf
    simp only [hq, if_true, hc, if_neg (by omega : ¬ f.infCode ≤ 0), Fmt.zero_eq]
    rfl
  · simp only [hq, if_false, hle]
    rfl

/-- The two roundings of a nonzero magnitude that `roundTo` makes, and what its code stands for. -/
theorem unit_rounding (hm : m ≠ 0) (h : Stands m e sticky y) (hs : sticky = true → f.fb < Nat.log2 m) :
    let q := roundAt rm neg m e sticky (f.unit m e)
    RoundsTo (OnGrid (f.fb + 1) (some (f.emin - f.fb))) rm (sgn neg * y) (sgn neg * (q.1 * (2 : ℝ) ^ f.unit m e)) ∧
      (q.2 = true ↔ q.1 * (2 : ℝ) ^ f.unit m e ≠ y) ∧
      magVal f.fb f.bias (codeOf f.fb (f.unit m e + f.fb + f.bias).toNat q.1) = q.1 * (2 : ℝ) ^ f.unit m e := by
  intro q
  have hemin : f.emin = 1 - f.bias := rfl
  have hcase : (f.unit m e = topOf m e - f.fb ∧ f.emin ≤ topOf m e) ∨ (f.unit m e = f.emin - f.fb ∧ topOf m e < f.emin) := by
    unfold Fmt.unit; split <;> omega
  have htop : topOf m e = (Nat.log2 m : Int) + e := rfl
  obtain ⟨hround, hinexact, hnormal, hsub⟩ := roundAt_float (rm := rm) (neg := neg) (qe := f.unit m e) (lo := some (f.emin - f.fb))
    hm h hs (fun l hl => by injection hl; omega)
    (hcase.imp (fun h => by omega) (fun h => ⟨congrArg some h.1.symm, by omega⟩))
  refine ⟨hround, hinexact, ?_⟩
  have htwo : 2 ^ (f.fb + 1) = 2 ^ f.fb + 2 ^ f.fb := by rw [pow_succ]; omega
  rcases hcase with ⟨hu, hle⟩ | ⟨hu, hlt⟩
  · obtain ⟨hlo, hhi⟩ := hnormal (by omega)
    exact magVal_codeOf_unit (by omega) hhi (fun h => absurd h (not_lt.2 hlo))
  · exact magVal_codeOf_unit (by omega) ((hsub (by omega)).trans (by omega)) (fun _ => by omega)

/-- `isTiny` says whether the number rounded without a lower limit of the exponent is below the smallest normal one (R36). -/
theorem isTiny_iff (hm : m ≠ 0) (h : Stands m e sticky y) (hs : sticky = true → f.fb < Nat.log2 m) :
    isTiny f rm neg m e sticky = true ↔ ∃ u, RoundsTo (OnGrid (f.fb + 1) none) rm (sgn neg * y) u ∧ |u| < (2 : ℝ) ^ f.emin := by
  obtain ⟨hround, -, hbinade, -⟩ := roundAt_float (rm := rm) (neg := neg) (qe := topOf m e - f.fb) (lo := none) hm h hs
    (fun l hl => absurd hl (by simp)) (.inl rfl)
  obtain ⟨hlo, hhi⟩ := hbinade rfl
  unfold isTiny
  set u := (roundAt rm neg m e sticky (topOf m e - f.fb)).1
  have hmag : |sgn neg * (u * (2 : ℝ) ^ (topOf m e - f.fb))| = u * 2 ^ (topOf m e - f.fb) := by
    rw [abs_sgn_mul, abs_of_nonneg (mul_nonneg (Nat.cast_nonneg u) (two_zpow_pos _).le)]
  have hunique : (∃ v, RoundsTo (OnGrid (f.fb + 1) none) rm (sgn neg * y) v ∧ |v| < (2 : ℝ) ^ f.emin) ↔
      u * (2 : ℝ) ^ (topOf m e - f.fb) < 2 ^ f.emin := by
    refine ⟨fun ⟨v, hv, hlt⟩ => ?_, fun hlt => ⟨_, hround, by rwa [hmag]⟩⟩
    rwa [hv.unique (OnGrid.zero _ _) hround, hmag] at hlt
  rw [hunique]
  have hpow : ∀ k : Nat, (2 ^ k : Nat) * (2 : ℝ) ^ (topOf m e - f.fb) = 2 ^ (topOf m e - f.fb + k) := fun k => by
    push_cast; rw [two_pow_mul_zpow, add_comm]
  have hpos := two_zpow_pos (topOf m e - f.fb)
  have hge : (2 : ℝ) ^ topOf m e ≤ u * 2 ^ (topOf m e - f.fb) := by
    have := mul_le_mul_of_nonneg_right (Nat.cast_le (α := ℝ).2 hlo) hpos.le
    rwa [hpow, sub_add_cancel] at this
  have hle : u * (2 : ℝ) ^ (topOf m e - f.fb) ≤ 2 ^ (topOf m e + 1) := by
    have := mul_le_mul_of_nonneg_right (Nat.cast_le (α := ℝ).2 hhi) hpos.le
    rwa [hpow, show topOf m e - f.fb + (f.fb + 1 : Nat) = topOf m e + 1 by push_cast; ring] at this
  rcases lt_trichotomy (topOf m e + 1) f.emin with hlt | heq | hgt
  · have : u * (2 : ℝ) ^ (topOf m e - f.fb) < 2 ^ f.emin := hle.trans_lt (two_zpow_lt hlt)
    simp only [this, iff_true]
    rw [decide_eq_true (by omega), decide_eq_false (by omega)]; rfl
  · rw [decide_eq_true (by omega : topOf m e < f.emin), decide_eq_true heq, Bool.true_and, Bool.true_and, Bool.not_eq_true',
      decide_eq_false_iff_not, ← heq]
    have hcarry : ((2 ^ (f.fb + 1) : Nat) : ℝ) * 2 ^ (topOf m e - f.fb) = 2 ^ (topOf m e + 1) := by
      rw [hpow]; congr 1; push_cast; ring
    rw [← hcarry, mul_lt_mul_iff_left₀ hpos, Nat.cast_lt]
    omega
  · have : ¬ u * (2 : ℝ) ^ (topOf m e - f.fb) < 2 ^ f.emin := not_lt.2 ((two_zpow_le (by omega)).trans hge)
    simp only [this, iff_false]
    rw [decide_eq_false (by omega), Bool.false_and]; exact Bool.false_ne_true

/-- A zero is rounded to itself, with its sign. -/
theorem zero_isRounded (hf : f.Ok) : IsRounded f rm 0 neg (f.zero neg, {}) := by
  have hlt : f.pattern neg 0 < 2 ^ f.width := f.pattern_lt neg (by positivity)
  have hnum : (f.decode (f.zero neg)).num = 0 := by rw [f.decode_zero neg hf, FVal.num_fin]; simp
  refine ⟨f.zero_eq neg ▸ hlt, f.zero_eq neg ▸ f.pattern_mod neg, 0, neg, roundsTo_self (OnGrid.zero _ _), fun h => absurd h (lt_irrefl 0),
    fun h => absurd h (lt_irrefl 0), fun _ => rfl, fun h => ?_, fun _ => ⟨⟨_, _, f.decode_zero neg hf⟩, hnum, rfl, by simp, by simp⟩⟩
  rw [abs_zero] at h
  exact absurd h (not_le.2 (by positivity))

/-- R36 to R38: `roundTo` gives the value it is given rounded once, with its events. A sticky magnitude has more bits than the format. -/
theorem roundTo_isRounded (hf : f.Ok) (h : Stands m e sticky y) (hs : sticky = true → f.fb < Nat.log2 m) :
    IsRounded f rm (sgn neg * y) neg (roundTo f rm neg m e sticky) := by
  by_cases hm : m = 0
  · have hst : sticky = false := by
      rw [← Bool.not_eq_true]; intro hst; have := hs hst; rw [hm] at this; simp at this
    subst hm hst
    have hy : y = 0 := by simpa [Stands] using h
    rw [hy, mul_zero]
    exact zero_isRounded hf
  · have hy : 0 < y := (two_zpow_pos _).trans_le (h.binade hm).1
    obtain ⟨hround, hinexact, hval⟩ := unit_rounding (f := f) (rm := rm) (neg := neg) hm h hs
    have htiny := isTiny_iff (f := f) (rm := rm) (neg := neg) hm h hs
    rw [roundTo_eq hf hm]
    dsimp only at hround hinexact hval ⊢
    set q := roundAt rm neg m e sticky (f.unit m e)
    set c := codeOf f.fb (f.unit m e + f.fb + f.bias).toNat q.1
    have hmag : |sgn neg * (q.1 * (2 : ℝ) ^ f.unit m e)| = magVal f.fb f.bias c := by
      rw [abs_sgn_mul, ← hval, abs_of_nonneg (magVal_nonneg ..)]
    have hover : (2 : ℝ) ^ (f.bias + 1) ≤ |sgn neg * (q.1 * (2 : ℝ) ^ f.unit m e)| ↔ f.infCode ≤ c := by
      rw [hmag, ← Fmt.magVal_infCode hf, (magVal_strictMono ..).le_iff_le]
    have hsign : (sgn neg * y < 0 → neg = true) ∧ (0 < sgn neg * y → neg = false) ∧ (sgn neg * y = 0 → neg = neg) := by
      cases neg <;> simp <;> linarith
    obtain ⟨hsign1, hsign2, hsign3⟩ := hsign
    split
    · rename_i hge
      obtain ⟨c', hc', hpat, hdec⟩ := overflowTo_decode (rm := rm) (neg := neg) hf
      refine ⟨hpat ▸ f.pattern_lt neg hc', hpat ▸ f.pattern_mod neg, _, neg, hround, hsign1, hsign2, hsign3, fun _ => ⟨rfl, hdec⟩, fun hlt => ?_⟩
      exact absurd (hover.2 hge) (not_le.2 hlt)
    · rename_i hlt
      have hlt : c < f.infCode := not_le.1 hlt
      obtain ⟨m', e', hdec, hm', -⟩ := f.decode_finite neg hlt
      have hne : q.2 = true ↔ sgn neg * (q.1 * (2 : ℝ) ^ f.unit m e) ≠ sgn neg * y := by
        rw [hinexact]; cases neg <;> simp
      refine ⟨f.pattern_lt neg (hlt.trans f.infCode_lt), f.pattern_mod neg, _, neg, hround, hsign1, hsign2, hsign3,
        fun hge => absurd (hover.1 hge) (not_le.2 hlt), fun _ => ⟨⟨m', e', hdec⟩, ?_, rfl, hne, ?_⟩⟩
      · rw [hdec, FVal.num_fin, hm', hval]
      · rw [Bool.and_eq_true, htiny, hne, and_comm]

/-- A finite value rounded to a format. -/
theorem fin_roundTo_isRounded (hf : f.Ok) : IsRounded f rm (FVal.fin neg m e).num neg ((FVal.fin neg m e).roundTo f rm) := by
  rw [FVal.num_fin]
  exact roundTo_isRounded hf (stands_exact m e) (fun h => absurd h Bool.false_ne_true)
end

/-- Of a value other than zero, the sign of a zero does not matter. -/
theorem IsRounded.of_ne_zero {f : Fmt} {rm : RMode} {x : ℝ} {n : Bool} {o : Nat × Ev} (h : IsRounded f rm x n o) (n' : Bool)
    (hx : x = 0 → n' = n) : IsRounded f rm x n' o := by
  obtain ⟨h1, h2, r, k, hround, hneg, hpos, hzero, h3⟩ := h
  exact ⟨h1, h2, r, k, hround, hneg, hpos, fun h0 => (hzero h0).trans (hx h0).symm, h3⟩

end Sys2Proof.Machine
end

section
/-! PROOFS. Numbers (02), part 5: the operations on exact values, and what each arithmetic function gives (R35 to R38, R120 to R122). -/
namespace Sys2Proof.Machine

/-! ### Exact values -/

/-- A signed magnitude in units of 2^base is the number. -/
theorem signedAt_num (n : Bool) (m : Nat) {e base : Int} (h : base ≤ e) : (signedAt n m e base : ℝ) * 2 ^ base = (FVal.fin n m e).num := by
  rw [FVal.num_fin, zpow_split h]
  unfold signedAt
  cases n <;> simp <;> ring

/-- The number of a signed count of units. -/
theorem num_of_int (t base : Int) : (FVal.fin (decide (t < 0)) t.natAbs base).num = t * (2 : ℝ) ^ base := by
  rw [FVal.num_fin, ← mul_assoc]
  congr 1
  by_cases h : t < 0
  · rw [decide_eq_true h, sgn_true, Nat.cast_natAbs, abs_of_neg h]; push_cast; ring
  · rw [decide_eq_false h, sgn_false, Nat.cast_natAbs, abs_of_nonneg (not_lt.1 h), one_mul]

theorem FVal.num_eq_zero_iff (n : Bool) (m : Nat) (e : Int) : (FVal.fin n m e).num = 0 ↔ m = 0 := by
  rw [FVal.num_fin, mul_eq_zero, mul_eq_zero, Nat.cast_eq_zero]
  have h1 : sgn n ≠ 0 := by cases n <;> simp
  simp [h1, (two_zpow_pos e).ne']

theorem FVal.num_nonneg (m : Nat) (e : Int) : 0 ≤ (FVal.fin false m e).num := by
  rw [FVal.num_fin, sgn_false, one_mul]; positivity
theorem FVal.num_nonpos (m : Nat) (e : Int) : (FVal.fin true m e).num ≤ 0 := by
  rw [FVal.num_fin, sgn_true, neg_one_mul, neg_nonpos]; positivity

/-- The exact sum of finite values; the sign of a zero sum is the common one, or else that of the mode (R122). -/
theorem FVal.add_fin (rm : RMode) (n n' : Bool) (m m' : Nat) (e e' : Int) : ∃ k q j, (FVal.fin n m e).add rm (.fin n' m' e') = (.fin k q j, false) ∧
    (FVal.fin k q j).num = (FVal.fin n m e).num + (FVal.fin n' m' e').num ∧
    ((FVal.fin n m e).num + (FVal.fin n' m' e').num = 0 → k = if n = n' then n else decide (rm = .rdn)) := by
  have hsum : ((signedAt n m e (min e e') + signedAt n' m' e' (min e e') : Int) : ℝ) * 2 ^ min e e' =
      (FVal.fin n m e).num + (FVal.fin n' m' e').num := by
    rw [← signedAt_num n m (min_le_left e e'), ← signedAt_num n' m' (min_le_right e e')]; push_cast; ring
  unfold FVal.add
  dsimp only
  set t := signedAt n m e (min e e') + signedAt n' m' e' (min e e')
  by_cases ht : t = 0
  · rw [if_pos ht]
    refine ⟨_, _, _, rfl, by rw [← hsum, ht, FVal.num_fin]; simp, fun h => ?_⟩
    by_cases hn : n = n'
    · subst hn
      have hzero : m = 0 ∧ m' = 0 := by
        rw [← FVal.num_eq_zero_iff n m e, ← FVal.num_eq_zero_iff n m' e']
        cases n with
        | false => have := FVal.num_nonneg m e; have := FVal.num_nonneg m' e'; constructor <;> linarith
        | true => have := FVal.num_nonpos m e; have := FVal.num_nonpos m' e'; constructor <;> linarith
      simp [hzero.1, hzero.2]
    · simp [hn]
  · rw [if_neg ht]
    refine ⟨_, _, _, rfl, by rw [num_of_int, hsum], fun h => absurd ?_ ht⟩
    rw [← hsum] at h
    exact_mod_cast (mul_eq_zero.1 h).resolve_right (two_zpow_pos _).ne'

theorem FVal.mul_num (n n' : Bool) (m m' : Nat) (e e' : Int) :
    (FVal.fin (n != n') (m * m') (e + e')).num = (FVal.fin n m e).num * (FVal.fin n' m' e').num := by
  rw [FVal.num_fin, FVal.num_fin, FVal.num_fin, sgn_bne, two_zpow_add]; push_cast; ring

theorem FVal.num_negate (n : Bool) (m : Nat) (e : Int) : (FVal.fin (!n) m e).num = -(FVal.fin n m e).num := by
  rw [FVal.num_fin, FVal.num_fin, sgn_not]; ring

theorem FVal.num_scale (n : Bool) (m : Nat) (e k : Int) : (FVal.fin n m (e + k)).num = (FVal.fin n m e).num * 2 ^ k := by
  rw [FVal.num_fin, FVal.num_fin, two_zpow_add]; ring

@[simp] theorem FVal.negate_isNan (v : FVal) : v.negate.isNan = v.isNan := by cases v <;> rfl
@[simp] theorem FVal.negate_isSig (v : FVal) : v.negate.isSig = v.isSig := by cases v <;> rfl
@[simp] theorem FVal.isSig_eq_false {v : FVal} (h : v.isNan = false) : v.isSig = false := by
  cases v with
  | nan s => exact absurd h (by simp [FVal.isNan])
  | inf n => rfl
  | fin n m e => rfl

theorem FVal.isNan_iff {v : FVal} : v.isNan = true ↔ ∃ s, v = .nan s := by cases v <;> simp [FVal.isNan]

/-- A NaN operand gives a NaN; a signalling one is invalid (R36). -/
theorem FVal.add_nan (rm : RMode) {a b : FVal} (h : a.isNan = true ∨ b.isNan = true) : a.add rm b = (.nan false, a.isSig || b.isSig) := by
  cases a with
  | nan s => rfl
  | inf n =>
    obtain ⟨s, rfl⟩ := FVal.isNan_iff.1 (h.resolve_left Bool.false_ne_true)
    exact congrArg (FVal.nan false, ·) (Bool.or_false s)
  | fin n m e =>
    obtain ⟨s, rfl⟩ := FVal.isNan_iff.1 (h.resolve_left Bool.false_ne_true)
    exact congrArg (FVal.nan false, ·) (Bool.or_false s)
theorem FVal.mul_nan {a b : FVal} (h : a.isNan = true ∨ b.isNan = true) : a.mul b = (.nan false, a.isSig || b.isSig) := by
  cases a with
  | nan s => rfl
  | inf n =>
    obtain ⟨s, rfl⟩ := FVal.isNan_iff.1 (h.resolve_left Bool.false_ne_true)
    exact congrArg (FVal.nan false, ·) (Bool.or_false s)
  | fin n m e =>
    obtain ⟨s, rfl⟩ := FVal.isNan_iff.1 (h.resolve_left Bool.false_ne_true)
    exact congrArg (FVal.nan false, ·) (Bool.or_false s)

/-- Zero times an infinity (R122). -/
def FVal.zeroTimesInf (a b : FVal) : Bool := (a.isZero && b == .inf b.neg) || (b.isZero && a == .inf a.neg)

theorem FVal.zeroTimesInf_nan {a b : FVal} (h : a.isNan = true ∨ b.isNan = true) : a.zeroTimesInf b = false := by
  rcases h with h | h <;> obtain ⟨s, rfl⟩ := FVal.isNan_iff.1 h <;> simp [FVal.zeroTimesInf, FVal.isZero]

/-- The products of values that are not NaN: invalid, an infinity, or finite (R122). -/
theorem FVal.mul_cases {a b : FVal} (ha : a.isNan = false) (hb : b.isNan = false) :
    (a.zeroTimesInf b = true ∧ a.mul b = (.nan false, true)) ∨
    (a.zeroTimesInf b = false ∧ (a = .inf a.neg ∨ b = .inf b.neg) ∧ a.mul b = (.inf (a.neg != b.neg), false)) ∨
    (a.zeroTimesInf b = false ∧ ∃ n m e n' m' e', a = .fin n m e ∧ b = .fin n' m' e') := by
  cases a with
  | nan s => exact Bool.noConfusion ha
  | inf n =>
    cases b with
    | nan s => exact Bool.noConfusion hb
    | inf n' => exact .inr (.inl ⟨rfl, .inl rfl, rfl⟩)
    | fin n' m' e' =>
      by_cases hz : m' = 0
      · exact .inl (by simp [FVal.zeroTimesInf, FVal.mul, FVal.isZero, FVal.neg, hz])
      · exact .inr (.inl (by simp [FVal.zeroTimesInf, FVal.mul, FVal.isZero, FVal.neg, hz]))
  | fin n m e =>
    cases b with
    | nan s => exact Bool.noConfusion hb
    | inf n' =>
      by_cases hz : m = 0
      · exact .inl (by simp [FVal.zeroTimesInf, FVal.mul, FVal.isZero, FVal.neg, hz])
      · exact .inr (.inl (by simp [FVal.zeroTimesInf, FVal.mul, FVal.isZero, FVal.neg, hz, bne_comm (a := n)]))
    | fin n' m' e' => exact .inr (.inr ⟨by simp [FVal.zeroTimesInf, FVal.neg], _, _, _, _, _, _, rfl, rfl⟩)

theorem FVal.mul_of_inf {a b : FVal} (ha : a.isNan = false) (hb : b.isNan = false) (hok : a.zeroTimesInf b = false)
    (hinf : a = .inf a.neg ∨ b = .inf b.neg) : a.mul b = (.inf (a.neg != b.neg), false) := by
  rcases FVal.mul_cases ha hb with ⟨hbad, -⟩ | ⟨-, -, h⟩ | ⟨-, n, m, e, n', m', e', rfl, rfl⟩
  · rw [hok] at hbad; exact Bool.noConfusion hbad
  · exact h
  · rcases hinf with hi | hi <;> exact FVal.noConfusion hi

/-! ### The result of an operation -/

@[simp] theorem Ev.or_quiet (e : Ev) : e.or { nv := false } = e := by cases e; simp [Ev.or]
@[simp] theorem finish_nan (f : Fmt) (rm : RMode) (sig nv : Bool) : finish f rm (.nan sig, nv) = (f.nan, { nv := sig || nv }) := by
  simp [finish, FVal.roundTo, Ev.or]
@[simp] theorem finish_inf (f : Fmt) (rm : RMode) (n : Bool) : finish f rm (.inf n, false) = (f.inf n, {}) := by
  simp [finish, FVal.roundTo]
theorem finish_fin (f : Fmt) (rm : RMode) (n : Bool) (m : Nat) (e : Int) :
    finish f rm (.fin n m e, false) = (FVal.fin n m e).roundTo f rm := by
  show ((FVal.roundTo f rm (.fin n m e)).1, (FVal.roundTo f rm (.fin n m e)).2.or { nv := false }) = _
  rw [Ev.or_quiet]

/-- The sum of finite values is rounded once (R122). -/
theorem finish_add_fin {f : Fmt} (hf : f.Ok) (rm : RMode) (n n' : Bool) (m m' : Nat) (e e' : Int) :
    IsRounded f rm ((FVal.fin n m e).num + (FVal.fin n' m' e').num) (if n = n' then n else decide (rm = .rdn))
      (finish f rm ((FVal.fin n m e).add rm (.fin n' m' e'))) := by
  obtain ⟨k, q, j, hadd, hnum, hsign⟩ := FVal.add_fin rm n n' m m' e e'
  rw [hadd, finish_fin, ← hnum]
  exact (fin_roundTo_isRounded hf).of_ne_zero _ fun h => (hsign (hnum ▸ h)).symm

/-! ### Division (R122) -/

/-- The quotient of magnitudes to `k` more bits, sticky when a remainder is left, stands for the exact quotient. -/
theorem stands_div {m m' : Nat} (hm' : 0 < m') (k : Nat) (e e' : Int) :
    Stands (m * 2 ^ k / m') (e - e' - k) (decide (m * 2 ^ k % m' ≠ 0)) (m * (2 : ℝ) ^ e / (m' * (2 : ℝ) ^ e')) := by
  have hm'R : (0 : ℝ) < m' := by exact_mod_cast hm'
  have hu := two_zpow_pos (e - e' - k)
  have hdiv : ((m * 2 ^ k : Nat) : ℝ) = m' * (m * 2 ^ k / m' : Nat) + (m * 2 ^ k % m' : Nat) := by exact_mod_cast (Nat.div_add_mod _ _).symm
  have hmod : ((m * 2 ^ k % m' : Nat) : ℝ) < m' := by exact_mod_cast Nat.mod_lt _ hm'
  have hy : m * (2 : ℝ) ^ e / (m' * (2 : ℝ) ^ e') = ((m * 2 ^ k % m' : Nat) / m' + (m * 2 ^ k / m' : Nat)) * 2 ^ (e - e' - k) := by
    have he : (2 : ℝ) ^ e = 2 ^ k * 2 ^ (e - e' - k) * 2 ^ e' := by
      rw [two_pow_mul_zpow, ← two_zpow_add]; congr 1; ring
    have hnum : (m : ℝ) * 2 ^ k = m' * (m * 2 ^ k / m' : Nat) + (m * 2 ^ k % m' : Nat) := by rw [← hdiv]; push_cast; ring
    rw [he, div_eq_iff (mul_pos hm'R (two_zpow_pos e')).ne', div_add' _ _ _ hm'R.ne']
    field_simp
    linarith [hnum]
  rw [hy]
  unfold Stands
  by_cases h : m * 2 ^ k % m' = 0
  · simp [h]
  · have hpos : (0 : ℝ) < (m * 2 ^ k % m' : Nat) := by exact_mod_cast Nat.pos_of_ne_zero h
    have hfrac : 0 < ((m * 2 ^ k % m' : Nat) : ℝ) / m' ∧ ((m * 2 ^ k % m' : Nat) : ℝ) / m' < 1 :=
      ⟨div_pos hpos hm'R, (div_lt_one hm'R).2 hmod⟩
    simp only [h, ne_eq, not_false_eq_true, decide_true, if_true]
    constructor <;> nlinarith [hfrac.1, hfrac.2]

/-- The quotient has more bits than the format. -/
theorem log2_div_gt {m m' : Nat} (hm : m ≠ 0) (hm' : 0 < m') (b : Nat) : b < Nat.log2 (m * 2 ^ (Nat.log2 m' + b + 4) / m') := by
  have hle : 2 ^ (b + 3) ≤ m * 2 ^ (Nat.log2 m' + b + 4) / m' := by
    rw [Nat.le_div_iff_mul_le hm']
    calc 2 ^ (b + 3) * m' ≤ 2 ^ (b + 3) * 2 ^ (Nat.log2 m' + 1) := Nat.mul_le_mul_left _ Nat.lt_log2_self.le
      _ = 2 ^ (Nat.log2 m' + b + 4) := by rw [← pow_add]; congr 1; ring
      _ ≤ m * 2 ^ (Nat.log2 m' + b + 4) := Nat.le_mul_of_pos_left _ (Nat.pos_of_ne_zero hm)
  have := (Nat.le_log2 (by have : 0 < 2 ^ (b + 3) := by positivity
                           omega)).2 hle
  omega

/-- The quotient of finite values by one that is not zero is rounded once (R122). -/
theorem fDivV_fin {f : Fmt} (hf : f.Ok) (rm : RMode) (n n' : Bool) (m : Nat) {m' : Nat} (e e' : Int) (hm' : m' ≠ 0) :
    IsRounded f rm ((FVal.fin n m e).num / (FVal.fin n' m' e').num) (n != n') (fDivV f rm (.fin n m e) (.fin n' m' e')) := by
  have hx : (FVal.fin n m e).num / (FVal.fin n' m' e').num = sgn (n != n') * (m * (2 : ℝ) ^ e / (m' * (2 : ℝ) ^ e')) := by
    rw [FVal.num_fin, FVal.num_fin, sgn_bne]
    cases n <;> cases n' <;> simp [neg_div, div_neg]
  unfold fDivV
  dsimp only
  rw [if_neg hm', hx]
  by_cases hm : m = 0
  · rw [if_pos hm, hm, Nat.cast_zero, zero_mul, zero_div, mul_zero]
    exact zero_isRounded hf
  · rw [if_neg hm]
    exact roundTo_isRounded hf (stands_div (Nat.pos_of_ne_zero hm') _ e e') fun _ => log2_div_gt hm (Nat.pos_of_ne_zero hm') f.fb

/-- A NaN operand of a division (R36). -/
theorem fDivV_nan (f : Fmt) (rm : RMode) {a b : FVal} (h : a.isNan = true ∨ b.isNan = true) :
    fDivV f rm a b = (f.nan, { nv := a.isSig || b.isSig }) := by
  cases a with
  | nan s => rfl
  | inf n =>
    obtain ⟨s, rfl⟩ := FVal.isNan_iff.1 (h.resolve_left Bool.false_ne_true)
    exact congrArg (fun x => (f.nan, ({ nv := x } : Ev))) (Bool.or_false s)
  | fin n m e =>
    obtain ⟨s, rfl⟩ := FVal.isNan_iff.1 (h.resolve_left Bool.false_ne_true)
    exact congrArg (fun x => (f.nan, ({ nv := x } : Ev))) (Bool.or_false s)

/-! ### Square roots (R122) -/

/-- Choosing the bits of a number from the highest down, each kept while `f` of it is at most `n`, ends at the last number of that kind. -/
theorem bits_floor {f : Nat → Nat} {go : Nat → Nat → Nat} {n : Nat} (h0 : ∀ r, go 0 r = r)
    (hs : ∀ i r, go (i + 1) r = go i (if f (r + 2 ^ i) ≤ n then r + 2 ^ i else r)) :
    ∀ i r, f r ≤ n → n < f (r + 2 ^ i) → f (go i r) ≤ n ∧ n < f (go i r + 1)
  | 0, r, hlo, hhi => by rw [h0]; exact ⟨hlo, hhi⟩
  | i + 1, r, hlo, hhi => by
    have htwo : 2 ^ (i + 1) = 2 ^ i + 2 ^ i := by rw [pow_succ]; omega
    rw [hs]
    split
    · rename_i h
      exact bits_floor h0 hs i _ h (by rwa [Nat.add_assoc, ← htwo])
    · rename_i h
      exact bits_floor h0 hs i r hlo (not_le.1 h)

/-- The integer square root that `fSqrt` starts from. -/
theorem isqrt_spec (x : Nat) : let r := isqrtGo x (Nat.log2 x / 2 + 1) 0
    r * r ≤ x ∧ x < (r + 1) * (r + 1) := by
  refine bits_floor (f := fun r => r * r) (go := isqrtGo x) (fun _ => rfl) (fun _ _ => rfl) _ 0 (Nat.zero_le x) ?_
  rw [Nat.zero_add, ← pow_add]
  exact Nat.lt_log2_self.trans_le (Nat.pow_le_pow_right (by omega) (by omega))

/-- An integer square root, sticky when it is not exact, stands for the root. -/
theorem stands_sqrt {m r k : Nat} {e : Int} (hlo : r * r ≤ m * 2 ^ k) (hhi : m * 2 ^ k < (r + 1) * (r + 1)) (heven : 2 ∣ e - k) :
    Stands r ((e - k) / 2) (decide (r * r ≠ m * 2 ^ k)) (Real.sqrt (m * (2 : ℝ) ^ e)) := by
  obtain ⟨j, hj⟩ := heven
  have hdiv : (e - k) / 2 = j := by omega
  have hu := two_zpow_pos j
  have hx : (m : ℝ) * 2 ^ e = (m * 2 ^ k : Nat) * (2 ^ j * 2 ^ j) := by
    rw [← two_zpow_add]; push_cast
    rw [mul_assoc, two_pow_mul_zpow]; congr 2; omega
  have hroot : Real.sqrt (m * (2 : ℝ) ^ e) = Real.sqrt (m * 2 ^ k : Nat) * 2 ^ j := by
    rw [hx, Real.sqrt_mul (Nat.cast_nonneg _), Real.sqrt_mul_self hu.le]
  rw [hdiv, hroot]
  unfold Stands
  by_cases h : r * r = m * 2 ^ k
  · simp only [h, ne_eq, not_true_eq_false, decide_false, Bool.false_eq_true, if_false]
    rw [← h, Nat.cast_mul, Real.sqrt_mul_self (Nat.cast_nonneg r)]
  · simp only [h, ne_eq, not_false_eq_true, decide_true, if_true]
    have hlt : ((r * r : Nat) : ℝ) < (m * 2 ^ k : Nat) := by exact_mod_cast lt_of_le_of_ne hlo h
    have hgt : ((m * 2 ^ k : Nat) : ℝ) < ((r + 1) * (r + 1) : Nat) := by exact_mod_cast hhi
    have h1 : (r : ℝ) < Real.sqrt (m * 2 ^ k : Nat) := Real.lt_sqrt_of_sq_lt (by rw [sq]; exact_mod_cast hlt)
    have h2 : Real.sqrt (m * 2 ^ k : Nat) < (r : ℝ) + 1 := (Real.sqrt_lt' (by positivity)).2 (by rw [sq]; exact_mod_cast hgt)
    exact ⟨mul_lt_mul_of_pos_right h1 hu, mul_lt_mul_of_pos_right h2 hu⟩

/-- The square root of a positive value is rounded once (R122). -/
theorem fSqrt_pos {f : Fmt} (hf : f.Ok) (rm : RMode) {a m : Nat} {e : Int} (h : f.decode a = .fin false m e) (hm : m ≠ 0) :
    IsRounded f rm (Real.sqrt (FVal.fin false m e).num) false (fSqrt f rm a) := by
  unfold fSqrt
  simp only [h, if_neg hm, Bool.false_eq_true, if_false]
  set k := 2 * (f.fb + 4) + (if e % 2 = 0 then 0 else 1) with hk
  obtain ⟨hlo, hhi⟩ := isqrt_spec (m * 2 ^ k)
  set r := isqrtGo (m * 2 ^ k) (Nat.log2 (m * 2 ^ k) / 2 + 1) 0
  have hx : (FVal.fin false m e).num = m * (2 : ℝ) ^ e := by rw [FVal.num_fin, sgn_false, one_mul]
  have heven : 2 ∣ e - k := by
    rw [hk]; split <;> push_cast <;> omega
  have hbig : 2 ^ (f.fb + 4) ≤ r := by
    by_contra hlt
    have h1 : (r + 1) * (r + 1) ≤ 2 ^ (f.fb + 4) * 2 ^ (f.fb + 4) := Nat.mul_le_mul (by omega) (by omega)
    have h2 : 2 ^ (f.fb + 4) * 2 ^ (f.fb + 4) ≤ m * 2 ^ k := by
      rw [← pow_add]
      exact (Nat.pow_le_pow_right (by omega) (by rw [hk]; omega)).trans (Nat.le_mul_of_pos_left _ (Nat.pos_of_ne_zero hm))
    omega
  have hlog : f.fb < Nat.log2 r := by
    have := (Nat.le_log2 (by have : 0 < 2 ^ (f.fb + 4) := by positivity
                             omega)).2 hbig
    omega
  have := roundTo_isRounded (rm := rm) (neg := false) hf (stands_sqrt hlo hhi heven) (fun _ => hlog)
  rwa [sgn_false, one_mul, ← hx] at this

/-! ### Conversions to an integer (R51) -/

theorem isInteger_neg (t : ℝ) (h : IsInteger t) : IsInteger (-t) := by
  obtain ⟨k, rfl⟩ := h
  exact ⟨-k, by push_cast; rfl⟩

/-- Rounding to an integer is rounding to units of 1. -/
theorem roundAt_isInteger (rm : RMode) (n : Bool) (m : Nat) (e : Int) :
    RoundsTo IsInteger rm (FVal.fin n m e).num (sgn n * (roundAt rm n m e false 0).1) ∧
      ((roundAt rm n m e false 0).2 = true ↔ sgn n * ((roundAt rm n m e false 0).1 : ℝ) ≠ (FVal.fin n m e).num) := by
  have hs : false = true → e < 0 := fun h => absurd h Bool.false_ne_true
  rw [FVal.num_fin]
  constructor
  · have := roundAt_roundsTo (rm := rm) (neg := n) (qe := 0) isInteger_neg (stands_exact m e) hs fun q _ _ => by
      simp only [zpow_zero, mul_one]
      refine ⟨⟨q, by push_cast; rfl⟩, ⟨q + 1, by push_cast; rfl⟩, ?_⟩
      rintro t ⟨k, rfl⟩
      have : k ≤ q ∨ (q : ℤ) + 1 ≤ k := by omega
      exact_mod_cast this
    simpa only [zpow_zero, mul_one] using this
  · have := roundAt_inexact (rm := rm) (neg := n) (qe := 0) (stands_exact m e) hs
    rw [zpow_zero, mul_one] at this
    rw [this]; cases n <;> simp

/-- The integer limits of a target of `w` bits. -/
def intLo (sg : Bool) (w : Nat) : Int := if sg then -(2 ^ (w - 1)) else 0
def intHi (sg : Bool) (w : Nat) : Int := if sg then 2 ^ (w - 1) - 1 else 2 ^ w - 1

theorem intLo_nonpos (sg : Bool) (w : Nat) : intLo sg w ≤ 0 := by
  unfold intLo; split
  · have : (0 : Int) < 2 ^ (w - 1) := by positivity
    omega
  · exact le_refl 0
theorem neg_pow_le_intLo (sg : Bool) (w : Nat) : -(2 ^ w : Int) ≤ intLo sg w := by
  have h1 : (2 : Int) ^ (w - 1) ≤ 2 ^ w := pow_le_pow_right₀ (by norm_num) (by omega)
  have h2 : (0 : Int) < 2 ^ w := by positivity
  unfold intLo; split <;> omega
theorem intHi_lt_pow (sg : Bool) (w : Nat) : intHi sg w < 2 ^ w := by
  have h1 : (2 : Int) ^ (w - 1) ≤ 2 ^ w := pow_le_pow_right₀ (by norm_num) (by omega)
  unfold intHi; split <;> omega

/-- R51: a finite value is rounded to an integer, which is clamped with NV or delivered, with NX when it is inexact. -/
theorem fToInt_fin (rm : RMode) (sg : Bool) (w n : Nat) (neg : Bool) (e : Int) : ∃ r : Int,
    RoundsTo IsInteger rm (FVal.fin neg n e).num r ∧
    (r < intLo sg w → fToInt rm sg w (.fin neg n e) = ((intLo sg w % 2 ^ w).toNat, { nv := true })) ∧
    (intHi sg w < r → fToInt rm sg w (.fin neg n e) = ((intHi sg w % 2 ^ w).toNat, { nv := true })) ∧
    (intLo sg w ≤ r → r ≤ intHi sg w → ∃ nx : Bool, fToInt rm sg w (.fin neg n e) = ((r % 2 ^ w).toNat, { nx := nx }) ∧
      (nx = true ↔ (r : ℝ) ≠ (FVal.fin neg n e).num)) := by
  have hlo0 := intLo_nonpos sg w
  have hlo := neg_pow_le_intLo sg w
  have hhi := intHi_lt_pow sg w
  have hsplit : intLo sg w ≤ intHi sg w + 1 := by
    have h1 : (0 : Int) < 2 ^ (w - 1) := by positivity
    have h2 : (0 : Int) < 2 ^ w := by positivity
    unfold intLo intHi; split <;> omega
  have heq : fToInt rm sg w (.fin neg n e) =
      if w + 1 < Nat.log2 n + e.toNat && 0 < e && n ≠ 0 then (((if neg then intLo sg w else intHi sg w) % 2 ^ w).toNat, { nv := true })
      else
        let i : Int := if neg then -((roundAt rm neg n e false 0).1 : Int) else (roundAt rm neg n e false 0).1
        if i < intLo sg w then ((intLo sg w % 2 ^ w).toNat, { nv := true })
        else if intHi sg w < i then ((intHi sg w % 2 ^ w).toNat, { nv := true })
        else ((i % 2 ^ w).toNat, { nx := (roundAt rm neg n e false 0).2 }) := rfl
  rw [heq]
  by_cases hbig : (decide (w + 1 < Nat.log2 n + e.toNat) && decide (0 < e) && decide (n ≠ 0)) = true
  · rw [if_pos hbig]
    simp only [Bool.and_eq_true, decide_eq_true_eq] at hbig
    obtain ⟨⟨hlog, he⟩, hn⟩ := hbig
    have hint : (FVal.fin neg n e).num = (signedAt neg n e 0 : Int) := by
      rw [← signedAt_num neg n he.le, zpow_zero, mul_one]
    have hmag : (2 : Int) ^ w < n * 2 ^ e.toNat := by
      have h1 : 2 ^ w < 2 ^ Nat.log2 n * 2 ^ e.toNat := by
        rw [← pow_add]; exact Nat.pow_lt_pow_right (by omega) (by omega)
      exact_mod_cast h1.trans_le (Nat.mul_le_mul_right _ (Nat.log2_self_le hn))
    refine ⟨signedAt neg n e 0, by rw [hint]; exact roundsTo_self ⟨_, rfl⟩, ?_⟩
    unfold signedAt
    rw [sub_zero]
    cases neg with
    | false =>
      simp only [Bool.false_eq_true, if_false]; push_cast
      exact ⟨fun h => by omega, fun _ => trivial, fun _ h => by omega⟩
    | true =>
      simp only [if_true]; push_cast
      exact ⟨fun _ => trivial, fun h => by omega, fun h => by omega⟩
  · rw [if_neg hbig]
    obtain ⟨hround, hinexact⟩ := roundAt_isInteger rm neg n e
    set i : Int := if neg then -((roundAt rm neg n e false 0).1 : Int) else (roundAt rm neg n e false 0).1
    have hi : (i : ℝ) = sgn neg * (roundAt rm neg n e false 0).1 := by
      simp only [i]; cases neg <;> simp
    rw [← hi] at hround hinexact
    refine ⟨i, hround, fun h => by simp only [if_pos h], fun h => ?_, fun h1 h2 => ⟨(roundAt rm neg n e false 0).2, ?_, hinexact⟩⟩
    · simp only [if_neg (by omega : ¬ i < intLo sg w), if_pos h]
    · simp only [if_neg (by omega : ¬ i < intLo sg w), if_neg (by omega : ¬ intHi sg w < i)]

/-! ### Order (R120, R121) -/

theorem FVal.ext_fin (n : Bool) (m : Nat) (e : Int) : (FVal.fin n m e).ext = ((FVal.fin n m e).num : EReal) := rfl

/-- `cmp` is the order of the extended reals. -/
theorem FVal.cmp_compares {a b : FVal} (ha : a.isNan = false) (hb : b.isNan = false) : (a.cmp b).Compares a.ext b.ext := by
  cases a with
  | nan s => exact absurd ha (by simp [FVal.isNan])
  | inf n =>
    cases b with
    | nan s => exact absurd hb (by simp [FVal.isNan])
    | inf n' => cases n <;> cases n' <;> simp [FVal.cmp, FVal.ext, Ordering.Compares]
    | fin n' m' e' => cases n <;> simp [FVal.cmp, FVal.ext, Ordering.Compares, EReal.bot_lt_coe, EReal.coe_lt_top]
  | fin n m e =>
    cases b with
    | nan s => exact absurd hb (by simp [FVal.isNan])
    | inf n' => cases n' <;> simp [FVal.cmp, FVal.ext, Ordering.Compares, EReal.bot_lt_coe, EReal.coe_lt_top]
    | fin n' m' e' =>
      rw [FVal.ext_fin, FVal.ext_fin, ← signedAt_num n m (min_le_left e e'), ← signedAt_num n' m' (min_le_right e e')]
      have hpos := two_zpow_pos (min e e')
      show (compare (signedAt n m e (min e e')) (signedAt n' m' e' (min e e'))).Compares _ _
      cases h : compare (signedAt n m e (min e e')) (signedAt n' m' e' (min e e')) with
      | lt => exact EReal.coe_lt_coe_iff.2 (mul_lt_mul_of_pos_right (Int.cast_lt.2 (compare_lt_iff_lt.1 h)) hpos)
      | eq => rw [compare_eq_iff_eq.1 h]; rfl
      | gt => exact EReal.coe_lt_coe_iff.2 (mul_lt_mul_of_pos_right (Int.cast_lt.2 (compare_gt_iff_gt.1 h)) hpos)

/-- One value is below another when it is less, or -0 against +0. -/
theorem FVal.below_iff {a b : FVal} (ha : a.isNan = false) (hb : b.isNan = false) :
    a.below b = true ↔ a.ext < b.ext ∨ a.ext = b.ext ∧ a.isZero = true ∧ b.isZero = true ∧ a.neg = true ∧ b.neg = false := by
  have h := FVal.cmp_compares ha hb
  unfold FVal.below
  cases hc : a.cmp b <;> rw [hc] at h
  · have h : a.ext < b.ext := h
    simp [h]
  · have h : a.ext = b.ext := h
    simp [h, and_assoc]
  · have h : b.ext < a.ext := h
    simp [h.ne', h.le.not_gt]

/-- Zeros are equal. -/
theorem FVal.ext_of_isZero {a : FVal} (h : a.isZero = true) : a.ext = 0 := by
  cases a with
  | nan s => exact absurd h (by simp [FVal.isZero])
  | inf n => exact absurd h (by simp [FVal.isZero])
  | fin n m e =>
    have hm : m = 0 := by simpa [FVal.isZero] using h
    rw [FVal.ext_fin, (FVal.num_eq_zero_iff n m e).2 hm]; rfl

/-- Bits below the fraction do not count (R37). -/
theorem Fmt.decode_cut (f : Fmt) (x : Nat) : f.decode (x / 2 ^ f.low * 2 ^ f.low) = f.decode x := by
  unfold Fmt.decode
  rw [Nat.mul_div_cancel _ (by positivity)]

/-- `fmin` and `fmax` of two numbers: one of them, the extreme one, with -0 below +0 (R120). -/
theorem fMinMax_spec {f : Fmt} (mx : Bool) {a b : Nat} (ha : (f.decode a).isNan = false) (hb : (f.decode b).isNan = false) :
    let o := (fMinMax f mx a b).1
    let v := f.decode o
    (v = f.decode a ∨ v = f.decode b) ∧ o % 2 ^ f.low = 0 ∧
    v.ext = (if mx then max (f.decode a).ext (f.decode b).ext else min (f.decode a).ext (f.decode b).ext) ∧
    ((f.decode a).isZero = true → (f.decode b).isZero = true →
      v.neg = if mx then (f.decode a).neg && (f.decode b).neg else (f.decode a).neg || (f.decode b).neg) := by
  have hlow : ∀ x, x / 2 ^ f.low * 2 ^ f.low % 2 ^ f.low = 0 := fun x => Nat.mul_mod_left _ _
  have hab := FVal.below_iff ha hb
  have hba := FVal.below_iff hb ha
  have hzero : (f.decode a).isZero = true → (f.decode b).isZero = true → (f.decode a).ext = (f.decode b).ext :=
    fun h1 h2 => (FVal.ext_of_isZero h1).trans (FVal.ext_of_isZero h2).symm
  unfold fMinMax
  simp only [ha, hb, Bool.false_eq_true, if_false]
  cases mx with
  | true =>
    simp only [if_true]
    by_cases h : (f.decode a).below (f.decode b) = true
    · rw [if_pos h, Fmt.decode_cut]
      refine ⟨.inr rfl, hlow b, ?_, fun h1 h2 => ?_⟩
      · rcases hab.1 h with h | h
        · exact (max_eq_right h.le).symm
        · exact (max_eq_right h.1.le).symm
      · obtain ⟨-, -, -, hn, hn'⟩ := (hab.1 h).resolve_left (hzero h1 h2).not_lt
        rw [hn, hn']; rfl
    · rw [if_neg h, Fmt.decode_cut]
      rw [hab, not_or] at h
      refine ⟨.inl rfl, hlow a, (max_eq_left (not_lt.1 h.1)).symm, fun h1 h2 => ?_⟩
      have hn := h.2
      simp only [hzero h1 h2, h1, h2, true_and] at hn
      revert hn
      cases (f.decode a).neg <;> cases (f.decode b).neg <;> decide
  | false =>
    simp only [Bool.false_eq_true, if_false]
    by_cases h : (f.decode b).below (f.decode a) = true
    · rw [if_pos h, Fmt.decode_cut]
      refine ⟨.inr rfl, hlow b, ?_, fun h1 h2 => ?_⟩
      · rcases hba.1 h with h | h
        · exact (min_eq_right h.le).symm
        · exact (min_eq_right h.1.le).symm
      · obtain ⟨-, -, -, hn, hn'⟩ := (hba.1 h).resolve_left (hzero h1 h2).symm.not_lt
        rw [hn, hn']; rfl
    · rw [if_neg h, Fmt.decode_cut]
      rw [hba, not_or] at h
      refine ⟨.inl rfl, hlow a, (min_eq_left (not_lt.1 h.1)).symm, fun h1 h2 => ?_⟩
      have hn := h.2
      simp only [hzero h1 h2, h1, h2, true_and] at hn
      revert hn
      cases (f.decode a).neg <;> cases (f.decode b).neg <;> decide

end Sys2Proof.Machine
end

section
/-! PROOFS. Numbers (02), part 6: the statement of the floating-point arithmetic (R35 to R38, R51, R120 to R122). -/
namespace Sys2Proof.Machine

section
variable {f : Fmt} (rm : RMode) {a b : Nat}

theorem fAdd_eq (f : Fmt) (a b : Nat) : fAdd f rm a b = finish f rm ((f.decode a).add rm (f.decode b)) := rfl
theorem fSub_eq (f : Fmt) (a b : Nat) : fSub f rm a b = finish f rm ((f.decode a).add rm (f.decode b).negate) := rfl
theorem fMul_eq (f : Fmt) (a b : Nat) : fMul f rm a b = finish f rm ((f.decode a).mul (f.decode b)) := rfl
theorem fFma_eq (f : Fmt) (a b : Nat) (c : FVal) : fFma f rm a b c = finish f rm (((((f.decode a).mul (f.decode b)).1).add rm c).1,
    ((f.decode a).mul (f.decode b)).2 || ((((f.decode a).mul (f.decode b)).1).add rm c).2) := rfl
theorem fDiv_eq (f : Fmt) (a b : Nat) : fDiv f rm a b = fDivV f rm (f.decode a) (f.decode b) := rfl

/-- A NaN operand: the canonical NaN, with NV for a signalling one (R36). -/
theorem arith_nan (h : (f.decode a).isNan = true ∨ (f.decode b).isNan = true) : ∀ o ∈ [fAdd f rm a b, fSub f rm a b, fMul f rm a b, fDiv f rm a b],
    o = (f.nan, { nv := (f.decode a).isSig || (f.decode b).isSig }) := by
  simp only [List.forall_mem_cons, List.not_mem_nil, false_imp_iff, implies_true, and_true]
  refine ⟨?_, ?_, ?_, fDivV_nan f rm h⟩
  · rw [fAdd_eq, FVal.add_nan rm h, finish_nan, Bool.false_or]
  · rw [fSub_eq, FVal.add_nan rm (by rwa [FVal.negate_isNan]), finish_nan, Bool.false_or, FVal.negate_isSig]
  · rw [fMul_eq, FVal.mul_nan h, finish_nan, Bool.false_or]

/-- A fused multiply-add with a NaN operand, or with an invalid product (R122). -/
theorem fFma_invalid {c : FVal} (h : (f.decode a).isNan = true ∨ (f.decode b).isNan = true ∨ c.isNan = true ∨
      (f.decode a).zeroTimesInf (f.decode b) = true) :
    fFma f rm a b c = (f.nan, { nv := (f.decode a).isSig || (f.decode b).isSig || c.isSig || (f.decode a).zeroTimesInf (f.decode b) }) := by
  rw [fFma_eq]
  generalize f.decode a = va at *
  generalize f.decode b = vb at *
  by_cases hnan : va.isNan = true ∨ vb.isNan = true
  · rw [FVal.mul_nan hnan, FVal.zeroTimesInf_nan hnan, FVal.add_nan rm (.inl rfl)]
    simp [FVal.isSig]
  · rw [not_or, Bool.not_eq_true, Bool.not_eq_true] at hnan
    obtain ⟨hna, hnb⟩ := hnan
    rw [FVal.isSig_eq_false hna, FVal.isSig_eq_false hnb]
    rcases FVal.mul_cases hna hnb with ⟨hbad, hprod⟩ | ⟨hok, -, hprod⟩ | ⟨hok, n, m, e, n', m', e', rfl, rfl⟩
    · rw [hprod, FVal.add_nan rm (.inl rfl), hbad]
      simp
    · have hc : c.isNan = true := by simpa [hna, hnb, hok] using h
      rw [hprod, FVal.add_nan rm (.inr hc), hok]
      simp [FVal.isSig]
    · have hc : c.isNan = true := by simpa [hna, hnb, hok] using h
      rw [FVal.mul, FVal.add_nan rm (.inr hc), hok]
      simp [FVal.isSig]

/-- A fused multiply-add whose product is an infinity (R122). -/
theorem fFma_inf {c : FVal} (hna : (f.decode a).isNan = false) (hnb : (f.decode b).isNan = false)
    (hok : (f.decode a).zeroTimesInf (f.decode b) = false) (hinf : f.decode a = .inf (f.decode a).neg ∨ f.decode b = .inf (f.decode b).neg) :
    let p := (f.decode a).neg != (f.decode b).neg
    (c = .inf p ∨ (∃ n m e, c = .fin n m e) → fFma f rm a b c = (f.inf p, {})) ∧ (c = .inf (!p) → fFma f rm a b c = (f.nan, { nv := true })) := by
  rw [fFma_eq, FVal.mul_of_inf hna hnb hok hinf]
  intro p
  refine ⟨?_, ?_⟩
  · rintro (rfl | ⟨n, m, e, rfl⟩) <;> simp [FVal.add, p]
  · rintro rfl
    simp [FVal.add, p]
end

/-- The sum, difference, product, quotient and fused multiply-add of finite operands (R122). -/
theorem arith_fin {f : Fmt} (hf : f.Ok) (rm : RMode) {a b : Nat} (c : FVal) {n n' : Bool} {m m' : Nat} {e e' : Int}
    (ha : f.decode a = .fin n m e) (hb : f.decode b = .fin n' m' e') :
    let x := (FVal.fin n m e).num
    let y := (FVal.fin n' m' e').num
    let down := decide (rm = .rdn)
    IsRounded f rm (x + y) (if n = n' then n else down) (fAdd f rm a b) ∧ IsRounded f rm (x - y) (if n = n' then down else n) (fSub f rm a b) ∧
      IsRounded f rm (x * y) (n != n') (fMul f rm a b) ∧ (m' ≠ 0 → IsRounded f rm (x / y) (n != n') (fDiv f rm a b)) ∧
      (m' = 0 → fDiv f rm a b = if m = 0 then (f.nan, { nv := true }) else (f.inf (n != n'), { dz := true })) ∧
      (∀ n2 m2 e2, c = .fin n2 m2 e2 → IsRounded f rm (x * y + c.num) (if (n != n') = n2 then n2 else down) (fFma f rm a b c)) ∧
      (∀ n2, c = .inf n2 → fFma f rm a b c = (f.inf n2, {})) := by
  intro x y down
  have hmul : (f.decode a).mul (f.decode b) = (.fin (n != n') (m * m') (e + e'), false) := by rw [ha, hb]; rfl
  have hprod : (FVal.fin (n != n') (m * m') (e + e')).num = x * y := FVal.mul_num ..
  refine ⟨?_, ?_, ?_, fun hm' => ?_, fun hm' => ?_, ?_, ?_⟩
  · rw [fAdd_eq, ha, hb]
    exact finish_add_fin hf rm ..
  · have hsub := finish_add_fin hf rm n (!n') m m' e e'
    rw [FVal.num_negate, ← sub_eq_add_neg] at hsub
    rw [fSub_eq, ha, hb]
    have hsign : (if n = n' then down else n) = if n = !n' then n else down := by cases n <;> cases n' <;> rfl
    rw [hsign]
    exact hsub
  · rw [fMul_eq, hmul, finish_fin, ← hprod]
    exact fin_roundTo_isRounded hf
  · rw [fDiv_eq, ha, hb]
    exact fDivV_fin hf rm n n' m e e' hm'
  · rw [fDiv_eq, ha, hb, hm']; rfl
  · rintro n2 m2 e2 rfl
    rw [fFma_eq, hmul]
    have hadd := finish_add_fin hf rm (n != n') n2 (m * m') m2 (e + e') e2
    obtain ⟨k, q, j, hsum, -, -⟩ := FVal.add_fin rm (n != n') n2 (m * m') m2 (e + e') e2
    rw [hprod, hsum] at hadd
    simp only [hsum, Bool.or_self]
    have hsign : (if (n != n') = n2 then n2 else down) = if (n != n') = n2 then (n != n') else down := by
      split
      · rename_i h; rw [h]
      · rfl
    rw [hsign]
    exact hadd
  · rintro n2 rfl
    rw [fFma_eq, hmul]
    simp [FVal.add]

/-- Two infinities (R122). -/
theorem arith_inf_inf {f : Fmt} (rm : RMode) {a b : Nat} {n n' : Bool} (ha : f.decode a = .inf n) (hb : f.decode b = .inf n') :
    fAdd f rm a b = (if n = n' then (f.inf n, {}) else (f.nan, { nv := true })) ∧
      fSub f rm a b = (if n = n' then (f.nan, { nv := true }) else (f.inf n, {})) ∧
      fMul f rm a b = (f.inf (n != n'), {}) ∧ fDiv f rm a b = (f.nan, { nv := true }) := by
  rw [fAdd_eq, fSub_eq, fMul_eq, fDiv_eq, ha, hb]
  refine ⟨?_, ?_, finish_inf f rm _, rfl⟩
  · cases n <;> cases n' <;> simp [FVal.add]
  · cases n <;> cases n' <;> simp [FVal.add, FVal.negate]

/-- An infinity and a finite value, in either order (R122). -/
theorem arith_inf_fin {f : Fmt} (rm : RMode) {a b : Nat} {n n' : Bool} {m' : Nat} {e' : Int} (ha : f.decode a = .inf n)
    (hb : f.decode b = .fin n' m' e') :
    (∀ o ∈ [fAdd f rm a b, fAdd f rm b a, fSub f rm a b], o = (f.inf n, {})) ∧ fSub f rm b a = (f.inf (!n), {}) ∧
      (∀ o ∈ [fMul f rm a b, fMul f rm b a], o = if m' = 0 then (f.nan, { nv := true }) else (f.inf (n != n'), {})) ∧
      fDiv f rm a b = (f.inf (n != n'), {}) ∧ fDiv f rm b a = (f.zero (n != n'), {}) := by
  simp only [List.forall_mem_cons, List.not_mem_nil, false_imp_iff, implies_true, and_true]
  simp only [fAdd_eq, fSub_eq, fMul_eq, fDiv_eq, ha, hb]
  refine ⟨⟨finish_inf f rm n, finish_inf f rm n, finish_inf f rm n⟩, finish_inf f rm _, ⟨?_, ?_⟩, rfl, rfl⟩
  · by_cases hm : m' = 0 <;> simp [FVal.mul, FVal.isZero, FVal.neg, hm]
  · by_cases hm : m' = 0 <;> simp [FVal.mul, FVal.isZero, FVal.neg, hm]

theorem fSqrt_nan {f : Fmt} (rm : RMode) {a : Nat} (h : (f.decode a).isNan = true) : fSqrt f rm a = (f.nan, { nv := (f.decode a).isSig }) := by
  obtain ⟨s, hs⟩ := FVal.isNan_iff.1 h
  simp only [fSqrt, hs]; rfl
theorem fSqrt_inf {f : Fmt} (rm : RMode) {a : Nat} {n : Bool} (h : f.decode a = .inf n) :
    fSqrt f rm a = if n then (f.nan, { nv := true }) else (f.inf false, {}) := by
  simp only [fSqrt, h]; rfl
theorem fSqrt_zero {f : Fmt} (rm : RMode) {a m : Nat} {n : Bool} {e : Int} (h : f.decode a = .fin n m e) (hm : m = 0) :
    fSqrt f rm a = (f.zero n, {}) := by
  simp only [fSqrt, h, if_pos hm]
theorem fSqrt_neg {f : Fmt} (rm : RMode) {a m : Nat} {e : Int} (h : f.decode a = .fin true m e) (hm : m ≠ 0) :
    fSqrt f rm a = (f.nan, { nv := true }) := by
  simp only [fSqrt, h, if_neg hm]; rfl

/-- An integer as a number, rounded once (R51). -/
theorem fOfInt_isRounded {f : Fmt} (hf : f.Ok) (rm : RMode) (i : Int) : IsRounded f rm (i : ℝ) false (fOfInt f rm i) := by
  have h := fin_roundTo_isRounded (rm := rm) (neg := decide (i < 0)) (m := i.natAbs) (e := 0) hf
  rw [num_of_int, zpow_zero, mul_one] at h
  refine h.of_ne_zero false fun h0 => ?_
  have : i = 0 := by exact_mod_cast h0
  rw [this]; rfl

/-- Conversion of a value to an integer of `w` bits (R51). -/
theorem fToInt_spec (rm : RMode) (sg : Bool) (w : Nat) (v : FVal) :
    let enc := fun z : Int => (z % 2 ^ w).toNat
    let o := fToInt rm sg w v
    (v.isNan = true → o = (0, { nv := true })) ∧ (∀ n, v = .inf n → o = (enc (if n then intLo sg w else intHi sg w), { nv := true })) ∧
      (∀ n m e, v = .fin n m e → ∃ r : Int, RoundsTo IsInteger rm v.num r ∧ (r < intLo sg w → o = (enc (intLo sg w), { nv := true })) ∧
        (intHi sg w < r → o = (enc (intHi sg w), { nv := true })) ∧
        (intLo sg w ≤ r → r ≤ intHi sg w → ∃ nx : Bool, o = (enc r, { nx := nx }) ∧ (nx = true ↔ (r : ℝ) ≠ v.num))) := by
  intro enc o
  refine ⟨fun h => ?_, ?_, ?_⟩
  · obtain ⟨s, rfl⟩ := FVal.isNan_iff.1 h; rfl
  · rintro n rfl; rfl
  · rintro n m e rfl; exact fToInt_fin rm sg w m n e

/-- The relations on values with a NaN, and on numbers (R121). -/
theorem compare_nan {f : Fmt} {a b : Nat} (h : (f.decode a).isNan = true ∨ (f.decode b).isNan = true) :
    (fEq f a b).1 = false ∧ (fLt f a b).1 = false ∧ (fLe f a b).1 = false ∧ (fUn f a b).1 = true := by
  simp only [fEq, fLt, fLe, fUn]
  rcases h with h | h <;> simp [h]

theorem compare_num {f : Fmt} {a b : Nat} (ha : (f.decode a).isNan = false) (hb : (f.decode b).isNan = false) :
    ((fEq f a b).1 = true ↔ (f.decode a).ext = (f.decode b).ext) ∧ ((fLt f a b).1 = true ↔ (f.decode a).ext < (f.decode b).ext) ∧
      ((fLe f a b).1 = true ↔ (f.decode a).ext ≤ (f.decode b).ext) ∧ (fUn f a b).1 = false := by
  have h := FVal.cmp_compares ha hb
  simp only [fEq, fLt, fLe, fUn, ha, hb, Bool.not_false, Bool.true_and, Bool.or_self, beq_iff_eq, bne_iff_ne]
  exact ⟨h.eq_eq, h.eq_lt, h.ne_gt, trivial⟩

/-- `fmin` and `fmax` with a NaN: the other operand, or the canonical NaN for two (R36, R120). -/
theorem fMinMax_nan {f : Fmt} (mx : Bool) (a b : Nat) :
    (fMinMax f mx a b).2 = { nv := (f.decode a).isSig || (f.decode b).isSig } ∧
      ((f.decode a).isNan = true → (f.decode b).isNan = true → (fMinMax f mx a b).1 = f.nan) ∧
      ((f.decode a).isNan = true → (f.decode b).isNan = false → f.decode (fMinMax f mx a b).1 = f.decode b) ∧
      ((f.decode a).isNan = false → (f.decode b).isNan = true → f.decode (fMinMax f mx a b).1 = f.decode a) := by
  unfold fMinMax
  refine ⟨?_, fun ha hb => ?_, fun ha hb => ?_, fun ha hb => ?_⟩
  · dsimp only
    split
    · rfl
    · split <;> rfl
  · simp only [ha, hb, if_true]
  · simp only [ha, hb, if_true, Bool.false_eq_true, if_false, Fmt.decode_cut]
  · simp only [ha, hb, if_true, Bool.false_eq_true, if_false, Fmt.decode_cut]

/-- Settles O13: each operation forms its exact value, or a magnitude that stands for it, which `roundTo` rounds once; the rest are the cases of NaN,
infinity and zero. -/
theorem floatArithmetic : Obligations.FloatArithmetic := by
  unfold Obligations.FloatArithmetic
  intro f hf g hg rm a b c va vb vc nan inf down bad
  have okf := Fmt.ok_of_mem hf
  have okg := Fmt.ok_of_mem hg
  refine ⟨⟨f.decode_nan okf, fun n => ⟨f.decode_inf n, f.decode_zero n okf⟩⟩, arith_nan rm, ?finite, fun n n' => arith_inf_inf rm,
    fun n n' m' e' => arith_inf_fin rm, fFma_invalid rm, fun hna hnb hok => fFma_inf rm hna hnb hok, ?nan, ?inf, ?unary, fOfInt_isRounded okf rm,
    ?integer, rfl, rfl, rfl, rfl, compare_nan, compare_num, ?extreme⟩
  case finite =>
    intro n m e n' m' e' ha hb
    have h := arith_fin okf rm vc ha hb
    rw [← ha, ← hb] at h
    obtain ⟨hadd, hsub, hmul, hdiv, hzero, hfma, hinf⟩ := h
    exact ⟨hadd, hsub, hmul, hdiv, hzero, fun n2 m2 e2 hc => hfma n2 m2 e2 hc, hinf⟩
  case nan =>
    intro h
    obtain ⟨s, hs⟩ := FVal.isNan_iff.1 h
    exact ⟨fSqrt_nan rm h, by rw [hs]; rfl⟩
  case inf => exact fun n h => ⟨fSqrt_inf rm h, by rw [h]; rfl⟩
  case unary =>
    intro n m e h
    refine ⟨by rw [h]; exact fin_roundTo_isRounded okg, fSqrt_zero rm h, fun hm hn => fSqrt_neg rm (hn ▸ h) hm, fun hm hn => ?_⟩
    subst hn
    rw [h]
    exact fSqrt_pos okf rm h hm
  case integer =>
    intro sg w _ lo hi enc o
    obtain ⟨hnan, hinf, hfin⟩ := fToInt_spec rm sg w va
    refine ⟨hnan, hinf, fun n m e h => ?_⟩
    obtain ⟨r, hround, hlo, hhi, hin⟩ := hfin n m e h
    refine ⟨r, hround, hlo, hhi, fun h1 h2 => ?_⟩
    obtain ⟨nx, ho, hnx⟩ := hin h1 h2
    rw [show o = _ from ho]
    exact ⟨rfl, rfl, hnx⟩
  case extreme =>
    intro mx o v
    obtain ⟨hev, hboth, hfst, hsnd⟩ := fMinMax_nan (f := f) mx a b
    refine ⟨hev, hboth, hfst, hsnd, fun ha hb => ?_⟩
    obtain ⟨hmem, -, hext, hsign⟩ := fMinMax_spec mx ha hb
    exact ⟨hmem, hext, hsign⟩

end Sys2Proof.Machine
end

section
/-! PROOFS. Numbers (02), part 7: the exponential table and its evaluation (R56). -/
namespace Sys2Proof.Machine

/-! ### The roots that the table is made of -/

theorem fp32_ok : fp32.Ok := ⟨by decide, by decide⟩

/-- A k-th root, rounded down, of 2^(i + jk) is the floor of 2^(i/k) in units of 2^-j, and exact when it is a k-th root. -/
theorem floor_of_root {i j k r : Nat} (hk : k ≠ 0) (hlo : r ^ k ≤ 2 ^ (i + j * k)) (hhi : 2 ^ (i + j * k) < (r + 1) ^ k) :
    (r : ℝ) ≤ (2 : ℝ) ^ ((i : ℝ) / k) * 2 ^ j ∧ (2 : ℝ) ^ ((i : ℝ) / k) * 2 ^ j < r + 1 ∧
      ((r : ℝ) = (2 : ℝ) ^ ((i : ℝ) / k) * 2 ^ j → r ^ k = 2 ^ (i + j * k)) := by
  have hpos : (0 : ℝ) < (2 : ℝ) ^ ((i : ℝ) / k) * 2 ^ j := by positivity
  have hpow : ((2 : ℝ) ^ ((i : ℝ) / k) * 2 ^ j) ^ k = (2 ^ (i + j * k) : Nat) := by
    rw [mul_pow, ← Real.rpow_mul_natCast (by norm_num), div_mul_cancel₀ _ (Nat.cast_ne_zero.2 hk), Real.rpow_natCast, ← pow_mul, ← pow_add]
    push_cast; rfl
  refine ⟨(pow_le_pow_iff_left₀ (Nat.cast_nonneg _) hpos.le hk).1 ?_, (pow_lt_pow_iff_left₀ hpos.le (by positivity) hk).1 ?_, fun e => ?_⟩
  · rw [hpow]; exact_mod_cast hlo
  · rw [hpow]; exact_mod_cast hhi
  · rw [← e] at hpow; exact_mod_cast hpow

/-- A power of two whose exponent is no multiple of k has no whole k-th root. -/
theorem pow_ne_two_pow {i j k y : Nat} (hk : k ≠ 0) (hi : i % k ≠ 0) : y ^ k ≠ 2 ^ (i + j * k) := by
  intro h
  obtain ⟨l, -, rfl⟩ := (Nat.dvd_prime_pow Nat.prime_two).1 (h ▸ dvd_pow_self y hk)
  rw [← pow_mul] at h
  have hexp := Nat.pow_right_injective (le_refl 2) h
  apply hi
  rw [← Nat.add_mul_mod_self_right i j k, ← hexp, Nat.mul_mod_left]

/-- A root stands for 2^(i/k) in its units; it is exact for a whole exponent only. -/
theorem stands_root {i j k r : Nat} {e : Int} {x : ℝ} (he : e = -j) (hx : x = (i : ℝ) / k) (hk : k ≠ 0) (hlo : r ^ k ≤ 2 ^ (i + j * k))
    (hhi : 2 ^ (i + j * k) < (r + 1) ^ k) : Stands r e (decide (i % k ≠ 0)) ((2 : ℝ) ^ x) := by
  subst he hx
  obtain ⟨hle, hlt, hexact⟩ := floor_of_root hk hlo hhi
  have hy : (2 : ℝ) ^ ((i : ℝ) / k) = (2 : ℝ) ^ ((i : ℝ) / k) * 2 ^ j * 2 ^ (-j : Int) := by
    rw [mul_assoc, two_pow_mul_zpow, add_neg_cancel, zpow_zero, mul_one]
  have hu := two_zpow_pos (-j)
  unfold Stands
  by_cases h : i % k = 0
  · simp only [h, ne_eq, not_true_eq_false, decide_false, Bool.false_eq_true, if_false]
    obtain ⟨l, rfl⟩ : ∃ l, i = l * k := ⟨i / k, (Nat.div_mul_cancel (Nat.dvd_of_mod_eq_zero h)).symm⟩
    have hwhole : (2 : ℝ) ^ (((l * k : Nat) : ℝ) / k) * 2 ^ j = (2 ^ (l + j) : Nat) := by
      rw [Nat.cast_mul, mul_div_cancel_right₀ _ (Nat.cast_ne_zero.2 hk), Real.rpow_natCast, ← pow_add]; push_cast; rfl
    rw [hwhole] at hle hlt
    have h1 : r ≤ 2 ^ (l + j) := by exact_mod_cast hle
    have h2 : 2 ^ (l + j) < r + 1 := by exact_mod_cast hlt
    rw [hy, hwhole, (by omega : r = 2 ^ (l + j))]
  · simp only [h, ne_eq, not_false_eq_true, decide_true, if_true]
    have hne : (r : ℝ) ≠ (2 : ℝ) ^ ((i : ℝ) / k) * 2 ^ j := fun e => pow_ne_two_pow hk h (hexact e)
    rw [hy]
    exact ⟨mul_lt_mul_of_pos_right (lt_of_le_of_ne hle hne) hu, mul_lt_mul_of_pos_right hlt hu⟩

/-- The bounds of such a root: 2^j from below, and the start of the search for it from above. -/
theorem two_pow_le_root {i j k r : Nat} (hhi : 2 ^ (i + j * k) < (r + 1) ^ k) : 2 ^ j ≤ r := by
  have hpow : (2 ^ j) ^ k < (r + 1) ^ k := by
    rw [← pow_mul]; exact (Nat.pow_le_pow_right Nat.two_pos (Nat.le_add_left _ i)).trans_lt hhi
  exact Nat.le_of_lt_succ (lt_of_pow_lt_pow_left₀ k (Nat.zero_le _) hpow)
theorem two_pow_lt_start {n b k : Nat} (h : n < b * k) : 2 ^ n < (0 + 2 ^ b) ^ k := by
  rw [Nat.zero_add, ← pow_mul]; exact Nat.pow_lt_pow_right Nat.one_lt_two h

/-- The FP32 pattern of a 64th root in units of 2^-64 (R56). -/
def roundedRoot (i r : Nat) : Nat := (roundTo fp32 .rne false r (-64) (decide (i % 64 ≠ 0))).1
theorem expI_eq (i : Nat) : expI i = roundedRoot i (root64 i) := rfl

/-- The FP32 pattern of 64 times a difference in units of 2^-64 (R56). -/
def roundedSlope (m : Nat) : Nat := (roundTo fp32 .rne false m (-58) true).1
theorem expS_eq (i : Nat) : expS i = roundedSlope (root64 (i + 1) - root64 i) := rfl

theorem roundedRoot_isRounded {i r : Nat} (hlo : r ^ 64 ≤ 2 ^ (i + 64 * 64)) (hhi : 2 ^ (i + 64 * 64) < (r + 1) ^ 64) :
    ∃ e, IsRounded fp32 .rne ((2 : ℝ) ^ ((i : ℝ) / 64)) false (roundedRoot i r, e) := by
  have hge : 2 ^ 64 ≤ r := two_pow_le_root hhi
  have hlog : fp32.fb < Nat.log2 r := lt_of_lt_of_le (by decide) ((Nat.le_log2 (by omega)).2 hge)
  have hst : Stands r (-64) (decide (i % 64 ≠ 0)) ((2 : ℝ) ^ ((i : ℝ) / 64)) :=
    stands_root (j := 64) (k := 64) (by norm_num) (by norm_num) (by decide) hlo hhi
  have h := roundTo_isRounded (rm := .rne) (neg := false) fp32_ok hst (fun _ => hlog)
  rw [sgn_false, one_mul] at h
  exact ⟨_, h⟩

/-- `root64` is the root of 2^(i + 64 x 64), rounded down. -/
theorem root64_spec {i : Nat} (hi : i < 128) : root64 i ^ 64 ≤ 2 ^ (i + 64 * 64) ∧ 2 ^ (i + 64 * 64) < (root64 i + 1) ^ 64 :=
  bits_floor (f := fun r => r ^ 64) (go := rootGo (2 ^ (i + 64 * 64))) (fun _ => rfl) (fun _ _ => rfl) 66 0 (Nat.zero_le _)
    (two_pow_lt_start (by omega))

/-- The intercepts are the rounded powers (R56). -/
theorem expI_isRounded {i : Nat} (hi : i < 128) : ∃ e, IsRounded fp32 .rne ((2 : ℝ) ^ ((i : ℝ) / 64)) false (expI i, e) := by
  rw [expI_eq]
  exact roundedRoot_isRounded (root64_spec hi).1 (root64_spec hi).2

/-! ### The slopes -/

/-- What makes a difference `m` of rounded roots good enough: counted in units of 2^20, no whole number of them is within 1, so that the
coarser count stands for the exact difference, and it is rounded to the same pattern. -/
def slopeOk (m : Nat) : Bool :=
  decide (1 ≤ m % 2 ^ 20) && decide (m % 2 ^ 20 + 2 ≤ 2 ^ 20) && decide (2 ^ 24 ≤ m / 2 ^ 20) &&
    decide (roundedSlope m = (roundTo fp32 .rne false (m / 2 ^ 20) (-38) true).1)

/-- All 64 differences are. -/
theorem slopeOk_table : ((List.range 64).all fun i => slopeOk (root64 (i + 1) - root64 i)) = true := by decide +kernel

/-- The difference of two exact roots, from that of the rounded ones. -/
theorem stands_slope {r r' : Nat} {x x' : ℝ} (hr : (r : ℝ) ≤ x * 2 ^ 64 ∧ x * 2 ^ 64 < r + 1) (hr' : (r' : ℝ) ≤ x' * 2 ^ 64 ∧ x' * 2 ^ 64 < r' + 1)
    (h1 : 1 ≤ (r' - r) % 2 ^ 20) (h2 : (r' - r) % 2 ^ 20 + 2 ≤ 2 ^ 20) : Stands ((r' - r) / 2 ^ 20) (-38) true (64 * (x' - x)) := by
  have hdiv := Nat.div_add_mod (r' - r) (2 ^ 20)
  generalize (r' - r) / 2 ^ 20 = q at *
  have hlo : ((2 ^ 20 * q + 1 + r : Nat) : ℝ) ≤ r' := by exact_mod_cast (by omega : 2 ^ 20 * q + 1 + r ≤ r')
  have hhi : (r' : ℝ) + 2 ≤ (2 ^ 20 * (q + 1) + r : Nat) := by exact_mod_cast (by omega : r' + 2 ≤ 2 ^ 20 * (q + 1) + r)
  have hunit : (2 : ℝ) ^ (-38 : Int) = 1 / 2 ^ 38 := by norm_num
  unfold Stands
  rw [if_pos rfl, hunit]
  push_cast at hlo hhi
  constructor <;> linarith [hr.1, hr.2, hr'.1, hr'.2]

/-- A good difference of 64th roots is rounded as the exact one. -/
theorem roundedSlope_isRounded {i r r' : Nat} (hlo : r ^ 64 ≤ 2 ^ (i + 64 * 64)) (hhi : 2 ^ (i + 64 * 64) < (r + 1) ^ 64)
    (hlo' : r' ^ 64 ≤ 2 ^ (i + 1 + 64 * 64)) (hhi' : 2 ^ (i + 1 + 64 * 64) < (r' + 1) ^ 64) (hok : slopeOk (r' - r) = true) :
    ∃ e, IsRounded fp32 .rne (64 * ((2 : ℝ) ^ (((i : ℝ) + 1) / 64) - (2 : ℝ) ^ ((i : ℝ) / 64))) false (roundedSlope (r' - r), e) := by
  simp only [slopeOk, Bool.and_eq_true, decide_eq_true_eq] at hok
  obtain ⟨⟨⟨h1, h2⟩, hbig⟩, hsame⟩ := hok
  obtain ⟨hr1, hr2, -⟩ := floor_of_root (by decide) hlo hhi
  obtain ⟨hr1', hr2', -⟩ := floor_of_root (by decide) hlo' hhi'
  have hlog : fp32.fb < Nat.log2 ((r' - r) / 2 ^ 20) := lt_of_lt_of_le (by decide) ((Nat.le_log2 (by omega)).2 hbig)
  push_cast at hr1 hr2 hr1' hr2'
  have hst := stands_slope ⟨hr1, hr2⟩ ⟨hr1', hr2'⟩ h1 h2
  have h := roundTo_isRounded (rm := .rne) (neg := false) fp32_ok hst (fun _ => hlog)
  rw [sgn_false, one_mul] at h
  rw [hsame]
  exact ⟨_, h⟩

/-- The slopes are the rounded differences of the powers (R56). -/
theorem expS_isRounded {i : Nat} (hi : i < 64) :
    ∃ e, IsRounded fp32 .rne (64 * ((2 : ℝ) ^ (((i : ℝ) + 1) / 64) - (2 : ℝ) ^ ((i : ℝ) / 64))) false (expS i, e) := by
  rw [expS_eq]
  exact roundedSlope_isRounded (root64_spec (by omega)).1 (root64_spec (by omega)).2 (root64_spec (by omega)).1 (root64_spec (by omega)).2
    (List.all_eq_true.1 slopeOk_table i (List.mem_range.2 hi))

end Sys2Proof.Machine
end

section
/-! PROOFS. Numbers (02), part 8: the evaluation of the exponential table (R56). -/
namespace Sys2Proof.Machine

/-- To the nearest, a value that is not negative and far from the overflow is rounded to a finite one, at most twice as large. -/
theorem IsRounded.finite {f : Fmt} {x : ℝ} {o : Nat × Ev} (h : IsRounded f .rne x false o) (hx : 0 ≤ x) (hsmall : 2 * x < (2 : ℝ) ^ (f.bias + 1)) :
    ∃ m e, f.decode o.1 = .fin false m e ∧ 0 ≤ (f.decode o.1).num ∧ (f.decode o.1).num ≤ 2 * x := by
  obtain ⟨-, -, r, n, hround, -, hpos, hzero, -, hfin⟩ := h
  have hr := hround.abs_le_two_mul (OnGrid.zero _ _)
  rw [abs_of_nonneg hx] at hr
  obtain ⟨⟨m, e, hdec⟩, hnum, -⟩ := hfin (hr.trans_lt hsmall)
  have hn : n = false := by
    rcases hx.lt_or_eq with h | h
    · exact hpos h
    · exact hzero h.symm
  subst hn
  refine ⟨m, e, hdec, hdec ▸ FVal.num_nonneg m e, ?_⟩
  rw [hnum]
  exact (le_abs_self r).trans hr

/-! ### The argument taken apart -/

/-- A number of 1/(64 q) units: its floor, its 64th part and the rest. -/
theorem floor_split (k : Int) {q : Nat} (hq : 0 < q) :
    let n := k / (64 * q : Nat)
    let r := (k - n * (64 * q : Nat)).toNat
    r / q < 64 ∧ ⌊(k : ℝ) / (64 * q : Nat)⌋ = n ∧ (k : ℝ) / (64 * q : Nat) = n + (r / q : Nat) / 64 + (r % q : Nat) / (64 * q : Nat) ∧
      ((r % q : Nat) : ℝ) / (64 * q : Nat) < 1 / 64 := by
  intro n r
  have hp : (0 : Int) < (64 * q : Nat) := by exact_mod_cast (by omega : 0 < 64 * q)
  have hmod : k - n * (64 * q : Nat) = k % (64 * q : Nat) := by
    have := Int.mul_ediv_add_emod k (64 * q : Nat)
    rw [mul_comm] at this; simp only [n]; omega
  have hr : (r : Int) = k % (64 * q : Nat) := by rw [← hmod]; exact Int.toNat_of_nonneg (hmod ▸ Int.emod_nonneg k hp.ne')
  have hrlt : r < 64 * q := by have := Int.emod_lt_of_pos k hp; omega
  have hk : k = n * (64 * q : Nat) + r := by rw [hr, ← hmod]; ring
  have hrest : r % q < q := Nat.mod_lt _ hq
  have hqR : (0 : ℝ) < q := by exact_mod_cast hq
  have hpR : (0 : ℝ) < (64 * q : Nat) := by exact_mod_cast hp
  have hkR : (k : ℝ) = n * (64 * q : Nat) + r := by exact_mod_cast hk
  have hrR : (r : ℝ) = q * (r / q : Nat) + (r % q : Nat) := by exact_mod_cast (Nat.div_add_mod r q).symm
  refine ⟨(Nat.div_lt_iff_lt_mul hq).2 hrlt, ?_, ?_, ?_⟩
  · rw [Int.floor_div_natCast, Int.floor_intCast]
  · rw [hkR, hrR, div_eq_iff hpR.ne']
    push_cast
    field_simp
    ring
  · have : ((r % q : Nat) : ℝ) < q := by exact_mod_cast hrest
    rw [div_lt_div_iff₀ hpR (by norm_num)]
    push_cast; linarith

/-- The roundings of R56: slope times rest, intercept plus that, and the sum times a power of two. -/
def exp2Round (slope icept : Nat) (n : Int) (u : Nat) : Nat × Ev :=
  let p := ((fp32.decode slope).mul (.fin false u (-149))).1.roundTo fp32 .rne
  let t := fAdd fp32 .rne icept p.1
  ((fp32.decode t.1).scale n).roundTo fp32 .rne

/-- `exp2t` of a finite argument below 128 takes it apart and makes these roundings. -/
theorem exp2t_small {y : Nat} {neg : Bool} {m : Nat} {e : Int} (h : fp32.decode y = .fin neg m e) (hlt : (FVal.fin neg m e).num < 128) :
    let k := signedAt neg m e (-149)
    let n := k / 2 ^ 149
    let r := (k - n * 2 ^ 149).toNat
    exp2t y = exp2Round (expS (r / 2 ^ 143)) (expI (r / 2 ^ 143)) n (r % 2 ^ 143) := by
  have hcmp := FVal.cmp_compares (a := .fin neg m e) (b := .fin false 128 0) rfl rfl
  have hguard : (!neg && (FVal.fin neg m e).cmp (.fin false 128 0) != .lt) = false := by
    have hext : (FVal.fin neg m e).ext < (FVal.fin false 128 0).ext := by
      rw [FVal.ext_fin, FVal.ext_fin, EReal.coe_lt_coe_iff, FVal.num_fin false 128]
      simpa using hlt
    rw [hcmp.eq_lt.2 hext]; exact Bool.and_false _
  unfold exp2t
  simp only [h, hguard, Bool.false_eq_true, if_false]
  rfl

theorem exp2t_large {y : Nat} {neg : Bool} {m : Nat} {e : Int} (h : fp32.decode y = .fin neg m e) (hge : 128 ≤ (FVal.fin neg m e).num) :
    exp2t y = (fp32.inf false, { of := true, nx := true }) := by
  have hcmp := FVal.cmp_compares (a := .fin neg m e) (b := .fin false 128 0) rfl rfl
  have hneg : neg = false := by
    cases neg with
    | false => rfl
    | true => have := FVal.num_nonpos m e; linarith
  subst hneg
  have hguard : (!false && (FVal.fin false m e).cmp (.fin false 128 0) != .lt) = true := by
    have hext : (FVal.fin false 128 0).ext ≤ (FVal.fin false m e).ext := by
      rw [FVal.ext_fin, FVal.ext_fin, EReal.coe_le_coe_iff, FVal.num_fin false 128]
      simpa using hge
    rw [Bool.not_false, Bool.true_and, bne_iff_ne]
    exact fun hc => (hcmp.eq_lt.1 hc).not_ge hext
  unfold exp2t
  simp only [h, hguard, if_true]

/-- Each of the roundings of R56 is one of an exact value. -/
theorem exp2Round_isRounded {slope icept : Nat} {xs xi : ℝ} {es ei : Ev} (hs : IsRounded fp32 .rne xs false (slope, es))
    (hi : IsRounded fp32 .rne xi false (icept, ei)) (hxs : 0 ≤ xs ∧ xs ≤ 64) (hxi : 0 ≤ xi ∧ xi ≤ 2) (n : Int) {u : Nat}
    (hu : (u : ℝ) * 2 ^ (-149 : Int) < 1 / 64) : ∃ (p t : Nat) (ep et : Ev),
      IsRounded fp32 .rne ((fp32.decode slope).num * (u * (2 : ℝ) ^ (-149 : Int))) false (p, ep) ∧
      IsRounded fp32 .rne ((fp32.decode icept).num + (fp32.decode p).num) false (t, et) ∧
      IsRounded fp32 .rne ((fp32.decode t).num * (2 : ℝ) ^ n) false (exp2Round slope icept n u) := by
  have hlim : (64 : ℝ) * 4 < 2 ^ (fp32.bias + 1) := by
    have : fp32.bias + 1 = 128 := rfl
    rw [this]; norm_num
  have hu0 : 0 ≤ (u : ℝ) * 2 ^ (-149 : Int) := mul_nonneg (Nat.cast_nonneg u) (two_zpow_pos _).le
  obtain ⟨ms, js, hds, hs0, hs1⟩ := hs.finite hxs.1 (by linarith)
  obtain ⟨mi, ji, hdi, hi0, hi1⟩ := hi.finite hxi.1 (by linarith)
  dsimp only at hds hs0 hs1 hdi hi0 hi1
  have hunum : (FVal.fin false u (-149)).num = u * (2 : ℝ) ^ (-149 : Int) := by rw [FVal.num_fin, sgn_false, one_mul]
  have hp : IsRounded fp32 .rne ((fp32.decode slope).num * (u * (2 : ℝ) ^ (-149 : Int))) false
      (((fp32.decode slope).mul (.fin false u (-149))).1.roundTo fp32 .rne) := by
    rw [hds, ← hunum, ← FVal.mul_num]
    exact fin_roundTo_isRounded fp32_ok
  have hprod : (fp32.decode slope).num * (u * (2 : ℝ) ^ (-149 : Int)) ≤ 2 :=
    (mul_le_mul (hs1.trans (by linarith : 2 * xs ≤ 128)) hu.le hu0 (by norm_num)).trans (by norm_num)
  obtain ⟨mp, jp, hdp, hp0, hp1⟩ := hp.finite (mul_nonneg hs0 hu0) (by linarith)
  obtain ⟨hadd, -⟩ := arith_fin fp32_ok .rne (.inf false) hdi hdp
  rw [if_pos rfl, ← hdi, ← hdp] at hadd
  obtain ⟨mt, jt, hdt, -⟩ := hadd.finite (add_nonneg hi0 hp0) (by linarith)
  refine ⟨_, _, _, _, hp, hadd, ?_⟩
  have hlast := fin_roundTo_isRounded (rm := .rne) (neg := false) (m := mt) (e := jt + n) fp32_ok
  rw [FVal.num_scale, ← hdt] at hlast
  unfold exp2Round
  dsimp only
  rw [show (fp32.decode (fAdd fp32 .rne icept (((fp32.decode slope).mul (.fin false u (-149))).1.roundTo fp32 .rne).1).1).scale n =
    .fin false mt (jt + n) by rw [hdt]; rfl]
  exact hlast

/-- The powers of the table lie between 1 and 2. -/
theorem table_power {x : ℝ} (h0 : 0 ≤ x) (h1 : x ≤ 1) : 1 ≤ (2 : ℝ) ^ x ∧ (2 : ℝ) ^ x ≤ 2 :=
  ⟨Real.one_le_rpow (by norm_num) h0, by simpa using Real.rpow_le_rpow_of_exponent_le (by norm_num : (1 : ℝ) ≤ 2) h1⟩

/-- Settles O3: the table holds 64th roots that stand for the exact powers, and the evaluation takes its argument apart and rounds three times. -/
theorem exponentialTable : Obligations.ExponentialTable := by
  unfold Obligations.ExponentialTable
  refine ⟨fun i hi => ⟨expI_isRounded (by omega), expS_isRounded hi⟩, fun y => ?_⟩
  intro v
  refine ⟨fun h => ?nan, fun n h => ?inf, fun n m e h => ⟨fun hge => ?large, fun hlt => ?small⟩⟩
  case nan =>
    obtain ⟨s, hs⟩ := FVal.isNan_iff.1 h
    simp only [exp2t, show fp32.decode y = .nan s from hs]
  case inf => simp only [exp2t, show fp32.decode y = .inf n from h]
  case large => exact exp2t_large h (h ▸ hge)
  case small =>
    obtain ⟨-, -, -, he, -⟩ := fp32.decode_fin_inv h
    have he : -149 ≤ e := he
    rw [h] at hlt
    rw [exp2t_small h hlt]
    have hnum : v.num = (signedAt n m e (-149) : ℝ) / (64 * 2 ^ 143 : Nat) := by
      rw [h, ← signedAt_num n m he, div_eq_mul_inv]
      congr 1
      norm_num
    rw [hnum]
    obtain ⟨hi, hfloor, hsplit, hrest⟩ := floor_split (signedAt n m e (-149)) (q := 2 ^ 143) (by positivity)
    have hp : ((64 * 2 ^ 143 : Nat) : Int) = 2 ^ 149 := by norm_num
    rw [hp] at hi hfloor hsplit hrest
    generalize (signedAt n m e (-149) - signedAt n m e (-149) / 2 ^ 149 * 2 ^ 149).toNat = r at *
    have hu : ∀ u : Nat, (u : ℝ) * 2 ^ (-149 : Int) = u / (64 * 2 ^ 143 : Nat) := fun u => by
      rw [div_eq_mul_inv]; congr 1; norm_num
    obtain ⟨es, hs⟩ := expS_isRounded hi
    obtain ⟨ei, hI⟩ := expI_isRounded (hi.trans (by decide))
    have hi64 : ((r / 2 ^ 143 : Nat) : ℝ) + 1 ≤ 64 := by exact_mod_cast hi
    have h0 : (0 : ℝ) ≤ (r / 2 ^ 143 : Nat) := Nat.cast_nonneg _
    have hlow := table_power (x := ((r / 2 ^ 143 : Nat) : ℝ) / 64) (by positivity) (by linarith)
    have hhigh := table_power (x := (((r / 2 ^ 143 : Nat) : ℝ) + 1) / 64) (by positivity) (by linarith)
    have hmono : (2 : ℝ) ^ (((r / 2 ^ 143 : Nat) : ℝ) / 64) ≤ (2 : ℝ) ^ ((((r / 2 ^ 143 : Nat) : ℝ) + 1) / 64) :=
      Real.rpow_le_rpow_of_exponent_le (by norm_num) (by linarith)
    obtain ⟨p, t, ep, et, hmul, hadd, hlast⟩ := exp2Round_isRounded hs hI ⟨by linarith, by linarith [hlow.1, hhigh.2]⟩ ⟨by linarith [hlow.1], hlow.2⟩
      (signedAt n m e (-149) / 2 ^ 149) (u := r % 2 ^ 143) (by rw [hu]; exact hrest)
    rw [hu] at hmul
    refine ⟨_, p, t, _, ep, et, hi, ?_, ?_, hrest, hmul, hadd, ?_⟩
    · rw [hfloor]; exact hsplit
    · positivity
    · rw [hfloor]; exact hlast

end Sys2Proof.Machine
end

section
/-! PROOFS. Numbers (02), part 9: sums and extremes (R53, R54, R157, R158). -/
namespace Sys2Proof.Machine

/-! ### The tree (R53, R158) -/

/-- What two neighbouring positions of a level give the next one. -/
def combine (add : Adder) : Leaf → Leaf → Leaf
  | some (i, a), some (_, b) => some (i, (add a b).1)
  | some x, none => some x
  | none, y => y

@[simp] theorem combine_none_right (add : Adder) (x : Leaf) : combine add x none = x := by cases x <;> rfl
@[simp] theorem combine_none_left (add : Adder) (y : Leaf) : combine add none y = y := rfl

/-- The position `i` of a level, none past its end. -/
def leafAt (l : List Leaf) (i : Nat) : Leaf := l[i]?.join

@[simp] theorem leafAt_cons_zero (x : Leaf) (l : List Leaf) : leafAt (x :: l) 0 = x := rfl
@[simp] theorem leafAt_cons_succ (x : Leaf) (l : List Leaf) (i : Nat) : leafAt (x :: l) (i + 1) = leafAt l i := rfl
@[simp] theorem leafAt_nil (i : Nat) : leafAt [] i = none := rfl

theorem leafAt_of_length_le {l : List Leaf} {i : Nat} (h : l.length ≤ i) : leafAt l i = none := by
  rw [leafAt, List.getElem?_eq_none h]; rfl

/-- One level of the tree, position by position. -/
theorem leafAt_pairUp (add : Adder) (l : List Leaf) (i : Nat) :
    leafAt (pairUp add l).1 i = combine add (leafAt l (2 * i)) (leafAt l (2 * i + 1)) := by
  fun_induction pairUp add l generalizing i with
  | case1 j a k b r l evs h s ih =>
    cases i with
    | zero => rfl
    | succ i => rw [h] at ih; exact ih i
  | case2 x r l evs h ih =>
    cases i with
    | zero => rfl
    | succ i => rw [h] at ih; exact ih i
  | case3 y r l evs h ih =>
    cases i with
    | zero => rfl
    | succ i => rw [h] at ih; exact ih i
  | case4 x =>
    cases i with
    | zero => exact (combine_none_right add x).symm
    | succ i => rfl
  | case5 => rfl

/-- The events of one level: one for each pair of present neighbours, at the lowest leaf. -/
theorem mem_pairUp_events (add : Adder) (l : List Leaf) (i : Nat) (ev : Ev) : (i, ev) ∈ (pairUp add l).2 ↔
    ∃ p a j b, leafAt l (2 * p) = some (i, a) ∧ leafAt l (2 * p + 1) = some (j, b) ∧ ev = (add a b).2 := by
  -- the events of a level whose first pair is taken off
  have split : ∀ (x y : Leaf) (r : List Leaf), (∃ p a j b, leafAt (x :: y :: r) (2 * p) = some (i, a) ∧
      leafAt (x :: y :: r) (2 * p + 1) = some (j, b) ∧ ev = (add a b).2) ↔ (∃ a j b, x = some (i, a) ∧ y = some (j, b) ∧ ev = (add a b).2) ∨
      ∃ p a j b, leafAt r (2 * p) = some (i, a) ∧ leafAt r (2 * p + 1) = some (j, b) ∧ ev = (add a b).2 := by
    intro x y r
    constructor
    · rintro ⟨p, h⟩
      cases p with
      | zero => exact .inl h
      | succ p => exact .inr ⟨p, h⟩
    · rintro (h | ⟨p, h⟩)
      · exact ⟨0, h⟩
      · exact ⟨p + 1, h⟩
  fun_induction pairUp add l with
  | case1 j a k b r l evs h s ih =>
    rw [h] at ih
    rw [split, List.mem_cons]
    refine or_congr ⟨fun e => ?_, ?_⟩ ih
    · obtain ⟨rfl, rfl⟩ := Prod.mk.inj e
      exact ⟨a, k, b, rfl, rfl, rfl⟩
    · rintro ⟨a', k', b', hx, hy, rfl⟩
      injection hx with hx
      injection hy with hy
      obtain ⟨rfl, rfl⟩ := Prod.mk.inj hx
      obtain ⟨rfl, rfl⟩ := Prod.mk.inj hy
      rfl
  | case2 x r l evs h ih =>
    rw [h] at ih
    rw [split]
    exact ih.trans (or_iff_right (by rintro ⟨a, j, b, -, hy, -⟩; exact nomatch hy)).symm
  | case3 y r l evs h ih =>
    rw [h] at ih
    rw [split]
    exact ih.trans (or_iff_right (by rintro ⟨a, j, b, hx, -⟩; exact nomatch hx)).symm
  | case4 x =>
    refine iff_of_false List.not_mem_nil ?_
    rintro ⟨p, a, j, b, -, hb, -⟩
    rw [leafAt_of_length_le (by simp)] at hb
    exact nomatch hb
  | case5 => simp

theorem length_pairUp (add : Adder) (l : List Leaf) : (pairUp add l).1.length = (l.length + 1) / 2 := by
  fun_induction pairUp add l with
  | case1 j a k b r l evs h s ih => rw [h] at ih; simp only [List.length_cons, ih]; omega
  | case2 x r l evs h ih => rw [h] at ih; simp only [List.length_cons, ih]; omega
  | case3 y r l evs h ih => rw [h] at ih; simp only [List.length_cons, ih]; omega
  | case4 x => simp
  | case5 => rfl

/-- The events that the levels from `lo` on, `n` of them, give in a tree of nodes. -/
def TreeEvent (add : Adder) (node : Nat → Nat → Leaf) (lo n i : Nat) (ev : Ev) : Prop :=
  ∃ l p a j b, lo ≤ l ∧ l < lo + n ∧ node l (2 * p) = some (i, a) ∧ node l (2 * p + 1) = some (j, b) ∧ ev = (add a b).2

section
variable {add : Adder} {node : Nat → Nat → Leaf} (hnode : ∀ l i, node (l + 1) i = combine add (node l (2 * i)) (node l (2 * i + 1)))
include hnode

/-- `treeSum` over a level is the tree of nodes above it. -/
theorem treeSum_spec : ∀ (n lo : Nat) (l : List Leaf), (∀ i, node lo i = leafAt l i) → l.length ≤ 2 ^ n →
    (treeSum add n l).1 = node (lo + n) 0 ∧ ∀ i ev, (i, ev) ∈ (treeSum add n l).2 ↔ TreeEvent add node lo n i ev
  | 0, lo, l, hl, hlen => by
    refine ⟨?_, fun i ev => iff_of_false List.not_mem_nil ?_⟩
    · rw [Nat.add_zero, hl]
      cases l <;> rfl
    · rintro ⟨l, p, a, j, b, h1, h2, -⟩
      omega
  | n + 1, lo, l, hl, hlen => by
    have hup : ∀ i, node (lo + 1) i = leafAt (pairUp add l).1 i := fun i => by rw [hnode, hl, hl, leafAt_pairUp]
    have hlen' : (pairUp add l).1.length ≤ 2 ^ n := by rw [length_pairUp]; rw [pow_succ] at hlen; omega
    obtain ⟨hroot, hevs⟩ := treeSum_spec n (lo + 1) (pairUp add l).1 hup hlen'
    refine ⟨?_, fun i ev => ?_⟩
    · rw [show lo + (n + 1) = lo + 1 + n by omega, ← hroot]; rfl
    · have happ : (treeSum add (n + 1) l).2 = (pairUp add l).2 ++ (treeSum add n (pairUp add l).1).2 := rfl
      rw [happ, List.mem_append, mem_pairUp_events, hevs]
      constructor
      · rintro (⟨p, a, j, b, h1, h2, he⟩ | ⟨l', p, a, j, b, h1, h2, h⟩)
        · exact ⟨lo, p, a, j, b, le_refl lo, by omega, (hl _).trans h1, (hl _).trans h2, he⟩
        · exact ⟨l', p, a, j, b, by omega, by omega, h⟩
      · rintro ⟨l', p, a, j, b, h1, h2, ha, hb, he⟩
        rcases Nat.eq_or_lt_of_le h1 with rfl | h1
        · exact .inl ⟨p, a, j, b, (hl _).symm.trans ha, (hl _).symm.trans hb, he⟩
        · exact .inr ⟨l', p, a, j, b, h1, by omega, ha, hb, he⟩

/-- Past the leaves a node is empty. -/
theorem node_none {len : Nat} (hlen : ∀ i, len ≤ i → node 0 i = none) : ∀ l i, len ≤ i * 2 ^ l → node l i = none
  | 0, i, h => hlen i (by simpa using h)
  | l + 1, i, h => by
    have h2 : i * 2 ^ (l + 1) = 2 * i * 2 ^ l := by ring
    have hle : 2 * i * 2 ^ l ≤ (2 * i + 1) * 2 ^ l := Nat.mul_le_mul_right _ (by omega)
    rw [hnode, node_none hlen l (2 * i) (by omega), node_none hlen l (2 * i + 1) (by omega)]
    rfl

/-- From the level on that one node covers all leaves, nothing changes. -/
theorem node_above {len n : Nat} (hlen : ∀ i, len ≤ i → node 0 i = none) (hn : len ≤ 2 ^ n) : ∀ k, node (n + k) 0 = node n 0
  | 0 => rfl
  | k + 1 => by
    have hpow : 2 ^ n ≤ 2 ^ (n + k) := Nat.pow_le_pow_right (by omega) (by omega)
    rw [← Nat.add_assoc, hnode, node_none hnode hlen (n + k) (2 * 0 + 1) (by omega), combine_none_right, Nat.mul_zero, node_above hlen hn k]

/-- R53, R158: the sum of the tree, with the events of its nodes and of the final addition at element 0. -/
theorem redTree_spec {init n : Nat} {els : List Leaf} (h0 : ∀ i, node 0 i = leafAt els i) (hlen : els.length ≤ 2 ^ n) (hn : n ≤ 12) :
    (redTree add init els).1 = (match node n 0 with | none => init | some (_, r) => (add init r).1) ∧
      ∀ i ev, (i, ev) ∈ (redTree add init els).2 ↔ TreeEvent add node 0 n i ev ∨ (i = 0 ∧ ∃ j r, node n 0 = some (j, r) ∧ ev = (add init r).2) := by
  have hempty : ∀ i, els.length ≤ i → node 0 i = none := fun i hi => (h0 i).trans (leafAt_of_length_le hi)
  obtain ⟨hroot, hevs⟩ := treeSum_spec hnode 12 0 els h0 (hlen.trans (Nat.pow_le_pow_right (by omega) hn))
  have hsame : node (0 + 12) 0 = node n 0 := by
    have := node_above hnode hempty hlen (12 - n)
    rwa [Nat.add_sub_cancel' hn] at this
  have hlevels : ∀ i ev, TreeEvent add node 0 12 i ev ↔ TreeEvent add node 0 n i ev := by
    refine fun i ev => ⟨?_, fun ⟨l, p, a, j, b, h1, h2, h⟩ => ⟨l, p, a, j, b, h1, by omega, h⟩⟩
    rintro ⟨l, p, a, j, b, h1, h2, ha, hb, he⟩
    refine ⟨l, p, a, j, b, h1, ?_, ha, hb, he⟩
    by_contra hge
    have hpow : 2 ^ n ≤ 2 ^ l := Nat.pow_le_pow_right (by omega) (by omega)
    have hone : 1 * 2 ^ l ≤ (2 * p + 1) * 2 ^ l := Nat.mul_le_mul_right _ (by omega)
    rw [node_none hnode hempty l (2 * p + 1) (by omega)] at hb
    exact nomatch hb
  rw [hsame] at hroot
  unfold redTree
  revert hroot hevs
  rcases treeSum add 12 els with ⟨root, evs⟩
  intro hroot hevs
  dsimp only at hroot hevs
  subst hroot
  cases hr : node n 0 with
  | none =>
    refine ⟨rfl, fun i ev => ?_⟩
    rw [hevs, hlevels, or_iff_left]
    rintro ⟨-, j, r, h, -⟩
    exact nomatch h
  | some x =>
    refine ⟨rfl, fun i ev => ?_⟩
    show (i, ev) ∈ evs ++ [(0, (add init x.2).2)] ↔ _
    rw [List.mem_append, hevs, hlevels, List.mem_singleton, Prod.mk.injEq]
    refine or_congr Iff.rfl (and_congr_right fun _ => ⟨fun he => ⟨x.1, x.2, rfl, he⟩, ?_⟩)
    rintro ⟨j, r, h, rfl⟩
    injection h with h
    rw [h]
end

/-! ### The sum in index order (R54, R158) -/

/-- R54: each element that is present is combined in turn, with its events. -/
theorem redSeq_spec (op : Adder) : ∀ (els : List Leaf) (init : Nat),
    (redSeq op init els).1 = els.reduceOption.foldl (fun x p => (op x p.2).1) init ∧
    ∀ i ev, (i, ev) ∈ (redSeq op init els).2 ↔ ∃ l a r, els.reduceOption = l ++ (i, a) :: r ∧
      ev = (op (l.foldl (fun x p => (op x p.2).1) init) a).2
  | [], init => ⟨rfl, fun i ev => iff_of_false List.not_mem_nil (by rintro ⟨l, a, r, h, -⟩; simp at h)⟩
  | none :: els, init => redSeq_spec op els init
  | some (k, b) :: els, init => by
    obtain ⟨hval, hevs⟩ := redSeq_spec op els (op init b).1
    refine ⟨hval, fun i ev => ?_⟩
    have hcons : (redSeq op init (some (k, b) :: els)).2 = (k, (op init b).2) :: (redSeq op (op init b).1 els).2 := rfl
    rw [hcons, List.mem_cons, hevs, List.reduceOption_cons_of_some]
    constructor
    · rintro (he | ⟨l, a, r, h, he⟩)
      · obtain ⟨rfl, rfl⟩ := Prod.mk.inj he
        exact ⟨[], b, _, rfl, rfl⟩
      · exact ⟨(k, b) :: l, a, r, by rw [h]; rfl, he⟩
    · rintro ⟨l, a, r, h, he⟩
      cases l with
      | nil =>
        obtain ⟨h1, -⟩ := List.cons.inj h
        obtain ⟨rfl, rfl⟩ := Prod.mk.inj h1
        exact .inl (congrArg _ he)
      | cons x l =>
        obtain ⟨rfl, h2⟩ := List.cons.inj h
        exact .inr ⟨l, a, r, h2, he⟩

/-! ### Extremes (R157) -/

/-- A value that no `w` passes, in the order with -0 below +0. -/
def FVal.Tops (mx : Bool) (v w : FVal) : Prop :=
  (if mx then w.ext ≤ v.ext else v.ext ≤ w.ext) ∧
    (w.isZero = true → v.isZero = true → if mx then v.neg = true → w.neg = true else w.neg = true → v.neg = true)

theorem FVal.Tops.refl (mx : Bool) (v : FVal) : v.Tops mx v := by
  cases mx <;> exact ⟨le_refl _, fun _ _ h => h⟩

theorem FVal.isZero_iff_ext {v : FVal} (h : v.isNan = false) : v.isZero = true ↔ v.ext = 0 := by
  refine ⟨FVal.ext_of_isZero, fun h0 => ?_⟩
  cases v with
  | nan s => exact Bool.noConfusion h
  | inf n => cases n <;> simp [FVal.ext] at h0
  | fin n m e =>
    rw [FVal.ext_fin, EReal.coe_eq_zero, FVal.num_eq_zero_iff] at h0
    simp [FVal.isZero, h0]

theorem FVal.Tops.trans {mx : Bool} {u v w : FVal} (hv : v.isNan = false) (h1 : u.Tops mx v) (h2 : v.Tops mx w) : u.Tops mx w := by
  obtain ⟨e1, z1⟩ := h1
  obtain ⟨e2, z2⟩ := h2
  cases mx with
  | true =>
    simp only [if_true] at e1 e2 z1 z2
    refine ⟨e2.trans e1, fun hw hu => ?_⟩
    have hz : v.isZero = true := (FVal.isZero_iff_ext hv).2
      (le_antisymm (e1.trans_eq (FVal.ext_of_isZero hu)) ((FVal.ext_of_isZero hw).ge.trans e2))
    exact fun h => z2 hw hz (z1 hz hu h)
  | false =>
    simp only [Bool.false_eq_true, if_false] at e1 e2 z1 z2
    refine ⟨e1.trans e2, fun hw hu => ?_⟩
    have hz : v.isZero = true := (FVal.isZero_iff_ext hv).2
      (le_antisymm (e2.trans_eq (FVal.ext_of_isZero hw)) ((FVal.ext_of_isZero hu).ge.trans e1))
    exact fun h => z1 hz hu (z2 hw hz h)

/-- The extreme of two numbers passes both. -/
theorem fMinMax_tops {f : Fmt} (mx : Bool) {a b : Nat} (ha : (f.decode a).isNan = false) (hb : (f.decode b).isNan = false) :
    (f.decode (fMinMax f mx a b).1).Tops mx (f.decode a) ∧ (f.decode (fMinMax f mx a b).1).Tops mx (f.decode b) := by
  obtain ⟨hmem, -, hext, hsign⟩ := fMinMax_spec mx ha hb
  generalize f.decode (fMinMax f mx a b).1 = v at *
  have hzero : v.isZero = true → ∀ w, (w = f.decode a ∨ w = f.decode b) → w.isZero = true → if mx then v.neg = true → w.neg = true
      else w.neg = true → v.neg = true := by
    intro hv w hw hwz
    by_cases hboth : (f.decode a).isZero = true ∧ (f.decode b).isZero = true
    · have hn := hsign hboth.1 hboth.2
      cases mx <;> simp only [if_true, Bool.false_eq_true, if_false] at hn ⊢ <;> rw [hn] <;> rcases hw with rfl | rfl <;> simp +contextual
    · have hvw : v = w := by
        rcases hmem with rfl | rfl <;> rcases hw with rfl | rfl
        · rfl
        · exact absurd ⟨hv, hwz⟩ hboth
        · exact absurd ⟨hwz, hv⟩ hboth
        · rfl
      subst hvw
      cases mx <;> exact fun h => h
  refine ⟨⟨?_, fun hw hv => hzero hv _ (.inl rfl) hw⟩, ⟨?_, fun hw hv => hzero hv _ (.inr rfl) hw⟩⟩ <;> rw [hext] <;> cases mx
  · exact min_le_left _ _
  · exact le_max_left _ _
  · exact min_le_right _ _
  · exact le_max_right _ _

/-- The extreme of two patterns with a NaN is the canonical NaN (R157). -/
theorem fExtreme_nan {f : Fmt} (mx : Bool) {a b : Nat} (h : (f.decode a).isNan = true ∨ (f.decode b).isNan = true) :
    (fExtreme f mx a b).1 = f.nan := by
  have hor : ((f.decode a).isNan || (f.decode b).isNan) = true := by rw [Bool.or_eq_true]; exact h
  rw [fExtreme, if_pos hor]
theorem fExtreme_num {f : Fmt} (mx : Bool) {a b : Nat} (ha : (f.decode a).isNan = false) (hb : (f.decode b).isNan = false) :
    fExtreme f mx a b = fMinMax f mx a b := by
  rw [fExtreme, ha, hb]; rfl

/-- The extreme of an accumulator and a list, one by one. -/
def extremeFold (f : Fmt) (mx : Bool) (acc : Nat) (xs : List Nat) : Nat := xs.foldl (fun a x => (fExtreme f mx a x).1) acc

theorem extremeFold_nan {f : Fmt} (hf : f.Ok) (mx : Bool) : ∀ (xs : List Nat) (acc : Nat),
    (∃ x ∈ xs, (f.decode x).isNan = true) ∨ (acc = f.nan) → extremeFold f mx acc xs = f.nan
  | [], acc, h => h.resolve_left (by simp)
  | x :: xs, acc, h => by
    refine extremeFold_nan hf mx xs _ ?_
    rcases h with ⟨y, hy, hn⟩ | rfl
    · rcases List.mem_cons.1 hy with rfl | hy
      · exact .inr (fExtreme_nan mx (.inr hn))
      · exact .inl ⟨y, hy, hn⟩
    · exact .inr (fExtreme_nan mx (.inl (by rw [f.decode_nan hf]; rfl)))

/-- Over numbers, the result is one of them, passes all, and has no bits that do not count. -/
theorem extremeFold_num {f : Fmt} (mx : Bool) : ∀ (xs : List Nat) (acc : Nat), acc % 2 ^ f.low = 0 ∨ xs ≠ [] → (∀ x ∈ acc :: xs, (f.decode x).isNan = false) →
    (∃ x ∈ acc :: xs, f.decode (extremeFold f mx acc xs) = f.decode x) ∧ extremeFold f mx acc xs % 2 ^ f.low = 0 ∧
      ∀ x ∈ acc :: xs, (f.decode (extremeFold f mx acc xs)).Tops mx (f.decode x)
  | [], acc, hlow, _ => by
    refine ⟨⟨acc, List.mem_cons_self, rfl⟩, hlow.resolve_right (fun h => h rfl), fun x hx => ?_⟩
    rw [List.mem_singleton.1 hx]
    exact FVal.Tops.refl mx _
  | x :: xs, acc, _, hnum => by
    have ha := hnum acc List.mem_cons_self
    have hx := hnum x (List.mem_cons_of_mem _ List.mem_cons_self)
    obtain ⟨hmem, hlow, -⟩ := fMinMax_spec mx ha hx
    obtain ⟨htop1, htop2⟩ := fMinMax_tops mx ha hx
    have hstep : extremeFold f mx acc (x :: xs) = extremeFold f mx (fMinMax f mx acc x).1 xs := by
      rw [extremeFold, List.foldl_cons, fExtreme_num mx ha hx]; rfl
    have hone : (f.decode (fMinMax f mx acc x).1).isNan = false := by rcases hmem with h | h <;> rw [h] <;> assumption
    obtain ⟨⟨y, hy, hval⟩, hlow', htops⟩ := extremeFold_num mx xs (fMinMax f mx acc x).1 (.inl hlow) fun z hz => by
      rcases List.mem_cons.1 hz with rfl | hz
      · exact hone
      · exact hnum z (List.mem_cons_of_mem _ (List.mem_cons_of_mem _ hz))
    rw [hstep]
    have hhead := htops _ List.mem_cons_self
    refine ⟨?_, hlow', fun z hz => ?_⟩
    · rcases List.mem_cons.1 hy with rfl | hy
      · rcases hmem with h | h
        · exact ⟨acc, List.mem_cons_self, hval.trans h⟩
        · exact ⟨x, List.mem_cons_of_mem _ List.mem_cons_self, hval.trans h⟩
      · exact ⟨y, List.mem_cons_of_mem _ (List.mem_cons_of_mem _ hy), hval⟩
    · rcases List.mem_cons.1 hz with rfl | hz
      · exact hhead.trans hone htop1
      · rcases List.mem_cons.1 hz with rfl | hz
        · exact hhead.trans hone htop2
        · exact htops z (List.mem_cons_of_mem _ hz)

/-- The formats of the float classes are those of R35. -/
theorem VT.fmt_mem (t : VT) : t.fmt ∈ [fp64, fp32, fp16, bf16, e8m10] := by
  unfold VT.fmt
  split
  · simp
  · simp
  · split
    · simp
    · split <;> simp

/-- What `vred.max` and `vred.min` give of a float class: the fold of the extremes, and the events of its operands. -/
theorem redExtreme_float {t : VT} (mx : Bool) (init : Nat) {els : List Leaf} (ht : t.isFloat = true) (hne : els.reduceOption ≠ []) :
    redExtreme t mx init els = (extremeFold t.fmt mx init (els.reduceOption.map (·.2)),
      (0, { nv := (t.fmt.decode init).isSig }) :: els.reduceOption.map fun p => (p.1, { nv := (t.fmt.decode p.2).isSig })) := by
  have hsig : ∀ a, t.sigEv a = { nv := (t.fmt.decode a).isSig } := fun a => by rw [VT.sigEv, ht, Bool.true_and]
  have hext : ∀ a b, t.extreme mx a b = (fExtreme t.fmt mx a b).1 := fun a b => by rw [VT.extreme, if_pos ht]
  unfold redExtreme
  rw [show els.filterMap id = els.reduceOption from rfl]
  cases hp : els.reduceOption with
  | nil => exact absurd hp hne
  | cons p r =>
    simp only [hsig, hext, extremeFold, List.foldl_map]

end Sys2Proof.Machine
end

section
/-! PROOFS. Numbers (02), part 10: one strip (R161 to R163), and the statement of the reductions. -/
namespace Sys2Proof.Machine

/-! ### The maximum and the reference exponent (R162) -/

/-- `ceil32` is the ceiling of a finite value. -/
theorem ceil32_eq {x : Nat} {n : Bool} {m : Nat} {e : Int} (h : fp32.decode x = .fin n m e) : ceil32 x = ⌈(fp32.decode x).num⌉ := by
  simp only [ceil32, h]
  by_cases he : 0 ≤ e
  · rw [if_pos he, ← signedAt_num n m he, zpow_zero, mul_one, Int.ceil_intCast]
  · rw [if_neg he, ← signedAt_num n m (le_refl e)]
    have hpow : (2 : ℝ) ^ e = ((2 ^ (-e).toNat : Nat) : ℝ)⁻¹ := by
      rw [Nat.cast_pow, Nat.cast_ofNat, ← zpow_natCast, ← zpow_neg, Int.toNat_of_nonneg (by omega), neg_neg]
    rw [hpow, ← div_eq_mul_inv, ← neg_neg (_ / _ : ℝ), Int.ceil_neg, ← neg_div, Int.floor_div_natCast, ← Int.cast_neg, Int.floor_intCast]
    push_cast; rfl

theorem above32_iff {x : Nat} {n : Bool} {m : Nat} {e : Int} (h : fp32.decode x = .fin n m e) (i : Int) :
    above32 x i = true ↔ (i : ℝ) < (fp32.decode x).num := by
  have hc := FVal.cmp_compares (a := .fin (decide (i < 0)) i.natAbs 0) (b := .fin n m e) rfl rfl
  rw [above32, h, beq_iff_eq, hc.eq_lt, FVal.ext_fin, FVal.ext_fin, EReal.coe_lt_coe_iff, num_of_int, zpow_zero, mul_one]

theorem finite32_iff (x : Nat) : finite32 x = true ↔ ∃ n m e, fp32.decode x = .fin n m e := by
  unfold finite32
  cases h : fp32.decode x <;> simp

/-- The reference exponent rises when the maximum is finite and there is none yet, or the maximum is more than 8 above it. -/
def Rises (r : Option Int) (v : FVal) : Prop := (∃ n q e, v = .fin n q e) ∧ (r = none ∨ ∃ a, r = some a ∧ (a : ℝ) + 8 < v.num)

theorem stripRef_spec {lim : Int} (hlim : 0 ≤ lim) (r : Option Int) (x : Nat) :
    (Rises r (fp32.decode x) → stripRef lim r x = some (max (-lim) (min lim ⌈(fp32.decode x).num⌉))) ∧
    (¬ Rises r (fp32.decode x) → stripRef lim r x = r) := by
  have hrises : Rises r (fp32.decode x) ↔
      (finite32 x && (match r with | none => true | some v => above32 x (v + 8))) = true := by
    rw [Bool.and_eq_true, finite32_iff]
    refine and_congr_right fun ⟨n, m, e, h⟩ => ?_
    cases r with
    | none => simp
    | some a => simp [above32_iff h]
  have hclamp : ∀ c : Int, (if c < -lim then -lim else if lim < c then lim else c) = max (-lim) (min lim c) := by
    intro c; split
    · omega
    · split <;> omega
  constructor <;> intro h
  · obtain ⟨n, m, e, hfin⟩ := h.1
    rw [← ceil32_eq hfin, ← hclamp]
    exact if_pos (hrises.1 h)
  · exact if_neg (fun hc => h (hrises.2 hc))

/-- The distance to the reference exponent, in one rounding. -/
theorem minusRef_spec (r : Int) (u : Nat) : let w := fp32.decode u
    let o := finish fp32 .rne (w.add .rne (intVal (-r)))
    (w.isNan = true → o = (fp32.nan, { nv := w.isSig })) ∧ (∀ n, w = .inf n → o = (fp32.inf n, {})) ∧
      ∀ n q e, w = .fin n q e → IsRounded fp32 .rne (w.num - r) false o := by
  intro w o
  refine ⟨fun h => ?_, fun n h => ?_, fun n q e h => ?_⟩
  · simp only [o]
    rw [FVal.add_nan .rne (.inl h), finish_nan, Bool.false_or]
    simp [intVal, FVal.isSig]
  · simp only [o, h]
    exact finish_inf fp32 .rne n
  · have hadd := finish_add_fin fp32_ok .rne n (decide (-r < 0)) q (-r).natAbs e 0
    rw [num_of_int, zpow_zero, mul_one, ← h, Int.cast_neg, ← sub_eq_add_neg] at hadd
    refine hadd.of_ne_zero false fun h0 => ?_
    split
    · rename_i hn
      -- a zero difference of values of one sign: both are zeros, and the reference is +0
      by_contra hneg
      have hn1 : n = true := by simpa using Ne.symm hneg
      have hr : 0 < r := by
        have : decide (-r < 0) = true := hn ▸ hn1
        simpa using this
      have hw : w.num ≤ 0 := by rw [h, hn1]; exact FVal.num_nonpos q e
      have : (0 : ℝ) < r := by exact_mod_cast hr
      linarith
    · rfl

/-- The factor for a reference that goes from one exponent to another (R162). -/
theorem stripFactor_spec (r r' : Option Int) : (r' = r → stripFactor r r' = (one32, {})) ∧ (r' ≠ r → r = none → stripFactor r r' = (0, {})) ∧
    ∀ a b, r = some a → r' = some b → a ≠ b → IsRounded fp32 .rne ((2 : ℝ) ^ (a - b)) false (stripFactor r r') := by
  refine ⟨fun h => if_pos h, fun h h0 => ?_, fun a b ha hb hab => ?_⟩
  · subst h0; simp only [stripFactor, if_neg h]
  subst ha hb
  have hne : some b ≠ some a := fun h => hab (Option.some.inj h).symm
  have h := fin_roundTo_isRounded (rm := .rne) (neg := false) (m := 1) (e := a - b) fp32_ok
  rw [FVal.num_fin, sgn_false, one_mul, Nat.cast_one, one_mul] at h
  rw [stripFactor, if_neg hne]
  exact h

/-! ### One strip (R162, R163) -/

/-- What a strip makes of the score `a` of an element under the reference exponent `r`: its probability and its events. -/
def stripElem (r : Int) (c a : Nat) : Nat × Ev :=
  let y := fMul fp32 .rne a c
  let d := finish fp32 .rne ((fp32.decode y.1).add .rne (intVal (-r)))
  let q := exp2t d.1
  (q.1, (y.2.or { nv := (fp32.decode y.1).isNan }).or (d.2.or q.2))

/-- The running maximum over the elements that are present. -/
def stripMax (c m : Nat) (els : List Leaf) : Nat := els.reduceOption.foldl (fun x p => (fMinMax fp32 true x (fMul fp32 .rne p.2 c).1).1) m

/-- The compensated sum of a strip, from its maximum, reference exponent, factor, probabilities and their events (R162, R163). -/
def stripSum (st : Strip) (m : Nat) (r : Option Int) (f : Nat × Ev) (p : List Leaf) (evs : List (Nat × Ev)) : StripOut :=
  let mul := fMul fp32 .rne
  let add := fAdd fp32 .rne
  let sub := fSub fp32 .rne
  let hi := mul st.hi f.1
  let lo := mul st.lo f.1
  let t := redTree add 0 p
  let sh := add hi.1 t.1
  let bv := sub sh.1 hi.1
  let av := sub sh.1 bv.1
  let x1 := sub hi.1 av.1
  let x2 := sub t.1 bv.1
  let e1 := add x1.1 x2.1
  let l2 := add lo.1 e1.1
  let h2 := add sh.1 l2.1
  let z := sub h2.1 sh.1
  let l3 := sub l2.1 z.1
  { st := { m := m, r := r, hi := h2.1, lo := l3.1 }, f := f.1, p := p
    evs := evs ++ t.2 ++ [(0, [f.2, hi.2, lo.2, sh.2, bv.2, av.2, x1.2, x2.2, e1.2, l2.2, h2.2, z.2, l3.2].foldl Ev.or {})] }

/-- A leaf with its scaled score, and with its probability and events. -/
def scaledLeaf (c : Nat) (l : Leaf) : Option (Nat × Nat × Ev) := l.map fun (i, a) => (i, fMul fp32 .rne a c)
def probLeaf (r : Int) (l : Option (Nat × Nat × Ev)) : Option (Nat × Nat × Ev) := l.map fun (i, y) =>
  let d := finish fp32 .rne ((fp32.decode y.1).add .rne (intVal (-r)))
  let q := exp2t d.1
  (i, q.1, (y.2.or { nv := (fp32.decode y.1).isNan }).or (d.2.or q.2))

theorem stripMax_eq (c : Nat) : ∀ (els : List Leaf) (m : Nat), (els.map (scaledLeaf c)).foldl
    (fun acc l => match l with | some (_, y) => (fMinMax fp32 true acc y.1).1 | none => acc) m = stripMax c m els
  | [], _ => rfl
  | none :: els, m => stripMax_eq c els m
  | some (_, a) :: els, m => stripMax_eq c els (fMinMax fp32 true m (fMul fp32 .rne a c).1).1

theorem stripProbs_eq (r : Int) (c : Nat) (els : List Leaf) : (((els.map (scaledLeaf c)).map (probLeaf r)).map fun l => l.map fun (i, q, _) => (i, q)) =
    els.map fun l => l.map fun x => (x.1, (stripElem r c x.2).1) := by
  rw [List.map_map, List.map_map]
  exact List.map_congr_left fun l _ => by cases l <;> rfl

theorem stripEvs_eq (r : Int) (c : Nat) (els : List Leaf) :
    (((els.map (scaledLeaf c)).map (probLeaf r)).filterMap fun l => l.map fun (i, _, ev) => (i, ev)) =
      els.filterMap fun l => l.map fun x => (x.1, (stripElem r c x.2).2) := by
  rw [List.filterMap_map, List.filterMap_map]
  exact List.filterMap_congr fun l _ => by cases l <;> rfl

/-- `stripRow` with an element present, its parts by name. -/
theorem stripRow_eq {lim : Int} {st : Strip} {c m : Nat} {r : Option Int} {els : List Leaf} (h : (els.all (·.isNone)) = false)
    (hm : stripMax c st.m els = m) (hr : stripRef lim st.r m = r) :
    stripRow lim st c els = stripSum st m r (stripFactor st.r r) (els.map fun l => l.map fun x => (x.1, (stripElem (r.getD 0) c x.2).1))
        (els.filterMap fun l => l.map fun x => (x.1, (stripElem (r.getD 0) c x.2).2)) := by
  have hparts : stripRow lim st c els =
      let ys := els.map (scaledLeaf c)
      let m := ys.foldl (fun acc l => match l with | some (_, y) => (fMinMax fp32 true acc y.1).1 | none => acc) st.m
      let r := stripRef lim st.r m
      let ps := ys.map (probLeaf (r.getD 0))
      stripSum st m r (stripFactor st.r r) (ps.map fun l => l.map fun (i, q, _) => (i, q)) (ps.filterMap fun l => l.map fun (i, _, ev) => (i, ev)) := by
    rw [stripRow, h, if_neg Bool.false_ne_true]
    unfold stripSum scaledLeaf probLeaf
    -- the operations stay closed: only the parts are compared
    generalize fMul fp32 .rne = mul, fAdd fp32 .rne = add, fSub fp32 .rne = sub, exp2t = exp2, redTree = tree, fMinMax fp32 true = max2
    rfl
  rw [hparts]
  dsimp only
  rw [stripMax_eq, stripProbs_eq, stripEvs_eq, hm, hr]

/-! ### Events by class -/

/-- The classes of events, as the fields of `Ev`. -/
def eventFields : List (Ev → Bool) := [Ev.nv, Ev.dz, Ev.of, Ev.uf, Ev.nx, Ev.sat, Ev.io, Ev.id]

theorem eventField_or {sel : Ev → Bool} (h : sel ∈ eventFields) (a b : Ev) : sel (a.or b) = (sel a || sel b) := by
  simp only [eventFields, List.mem_cons, List.not_mem_nil, or_false] at h
  rcases h with rfl | rfl | rfl | rfl | rfl | rfl | rfl | rfl <;> rfl
theorem eventField_quiet {sel : Ev → Bool} (h : sel ∈ eventFields) : sel {} = false := by
  simp only [eventFields, List.mem_cons, List.not_mem_nil, or_false] at h
  rcases h with rfl | rfl | rfl | rfl | rfl | rfl | rfl | rfl <;> rfl

/-- The events of several operations together hold a class when one of them does. -/
theorem eventField_foldl {sel : Ev → Bool} (h : sel ∈ eventFields) (l : List Ev) (e : Ev) :
    sel (l.foldl Ev.or e) = true ↔ sel e = true ∨ ∃ ev ∈ l, sel ev = true := by
  induction l generalizing e with
  | nil => simp
  | cons a l ih =>
    rw [List.foldl_cons, ih, eventField_or h, Bool.or_eq_true, List.exists_mem_cons_iff, or_assoc]

/-- The events of an element, class by class. -/
theorem stripElem_events {sel : Ev → Bool} (h : sel ∈ eventFields) (r : Int) (c a : Nat) :
    let y := fMul fp32 .rne a c
    let d := finish fp32 .rne ((fp32.decode y.1).add .rne (intVal (-r)))
    sel (stripElem r c a).2 = true ↔ ∃ ev ∈ [y.2, { nv := (fp32.decode y.1).isNan }, d.2, (exp2t d.1).2], sel ev = true := by
  intro y d
  have heq : (stripElem r c a).2 = (y.2.or { nv := (fp32.decode y.1).isNan }).or (d.2.or (exp2t d.1).2) := rfl
  rw [heq, eventField_or h, eventField_or h, eventField_or h]
  simp only [Bool.or_eq_true, List.exists_mem_cons_iff, List.not_mem_nil, false_and, exists_false, or_false, or_assoc]

/-- Which events of a strip hold a class: those of its elements, of the tree, and at element 0 of the scalar operations. -/
theorem stripSum_events {sel : Ev → Bool} (h : sel ∈ eventFields) (r : Int) (c : Nat) (els : List Leaf) (evs : List (Nat × Ev)) (zero : List Ev) (i : Nat) :
    (∃ ev, (i, ev) ∈ (els.filterMap fun l => l.map fun x => (x.1, (stripElem r c x.2).2)) ++ evs ++ [(0, zero.foldl Ev.or {})] ∧ sel ev = true) ↔
      (∃ a, some (i, a) ∈ els ∧ sel (stripElem r c a).2 = true) ∨ (∃ ev, (i, ev) ∈ evs ∧ sel ev = true) ∨
        (i = 0 ∧ ∃ ev ∈ zero, sel ev = true) := by
  have helem : ∀ ev, (i, ev) ∈ (els.filterMap fun l => l.map fun x => (x.1, (stripElem r c x.2).2)) ↔
      ∃ a, some (i, a) ∈ els ∧ (stripElem r c a).2 = ev := by
    intro ev
    rw [List.mem_filterMap]
    constructor
    · rintro ⟨_ | ⟨j, a⟩, hl, he⟩
      · exact nomatch he
      · obtain ⟨rfl, rfl⟩ := Prod.mk.inj (Option.some.inj he)
        exact ⟨a, hl, rfl⟩
    · rintro ⟨a, hl, rfl⟩
      exact ⟨some (i, a), hl, rfl⟩
  simp only [List.mem_append, helem, List.mem_singleton, Prod.mk.injEq, or_and_right, exists_or, or_assoc]
  refine or_congr ⟨?_, ?_⟩ (or_congr Iff.rfl ⟨?_, ?_⟩)
  · rintro ⟨ev, ⟨a, ha, rfl⟩, hs⟩; exact ⟨a, ha, hs⟩
  · rintro ⟨a, ha, hs⟩; exact ⟨_, ⟨a, ha, rfl⟩, hs⟩
  · rintro ⟨ev, ⟨hi, rfl⟩, hs⟩
    rw [eventField_foldl h, eventField_quiet h] at hs
    exact ⟨hi, hs.resolve_left Bool.false_ne_true⟩
  · rintro ⟨hi, hs⟩
    exact ⟨_, ⟨hi, rfl⟩, (eventField_foldl h _ _).2 (.inr hs)⟩

theorem all_isNone_iff (els : List Leaf) : els.all (·.isNone) = true ↔ els.reduceOption = [] := by
  rw [List.all_eq_true, List.reduceOption, List.filterMap_eq_nil_iff]
  simp only [Option.isNone_iff_eq_none, id]

/-- Settles O18: the tree is that of the nodes, level by level; the sum and the extreme are folds; a strip is its parts, with the events of each. -/
theorem reductionFunctions : Obligations.ReductionFunctions := by
  unfold Obligations.ReductionFunctions
  refine ⟨?tree, fun op init els => redSeq_spec op els init, ?extreme, ?strip⟩
  case tree =>
    intro add init els node h0 hs n hlen hn
    have hnode : ∀ l i, node (l + 1) i = combine add (node l (2 * i)) (node l (2 * i + 1)) := fun l i => by
      rw [hs]; cases node l (2 * i) <;> cases node l (2 * i + 1) <;> rfl
    obtain ⟨hval, hevs⟩ := redTree_spec hnode (init := init) h0 hlen hn
    refine ⟨hval, fun i ev => ?_⟩
    rw [hevs, TreeEvent]
    simp only [Nat.zero_le, Nat.zero_add, true_and]
  case extreme =>
    intro t mx init els ht f o vals
    refine ⟨fun h => ?_, fun hne => ?_⟩
    · simp only [o, redExtreme, show els.filterMap id = [] from h]
    · have ho : o = _ := redExtreme_float mx init ht hne
      rw [ho]
      refine ⟨rfl, ?_, ?_⟩
      · rintro ⟨x, hx, hnan⟩
        rcases List.mem_cons.1 hx with rfl | hx
        · cases hm : els.reduceOption.map (·.2) with
          | nil => exact absurd (List.map_eq_nil_iff.1 hm) hne
          | cons a l =>
            show extremeFold t.fmt mx (fExtreme t.fmt mx x a).1 l = t.fmt.nan
            rw [fExtreme_nan mx (.inl hnan)]
            exact extremeFold_nan (Fmt.ok_of_mem t.fmt_mem) mx l _ (.inr rfl)
        · exact extremeFold_nan (Fmt.ok_of_mem t.fmt_mem) mx _ _ (.inl ⟨x, hx, hnan⟩)
      · intro hnum
        exact extremeFold_num mx _ init (.inr fun h => hne (List.map_eq_nil_iff.1 h)) hnum
  case strip =>
    intro lim st c els hlim o
    have hnone := all_isNone_iff els
    refine ⟨fun h => ?_, fun hne => ?_⟩
    · show stripRow lim st c els = _
      rw [stripRow, if_pos (hnone.2 h)]; rfl
    · obtain ⟨x, hm⟩ : ∃ x, stripMax c st.m els = x := ⟨_, rfl⟩
      obtain ⟨r, hr⟩ : ∃ r, stripRef lim st.r x = r := ⟨_, rfl⟩
      have ho : o = _ := stripRow_eq (by rw [← Bool.not_eq_true, hnone]; exact hne) hm hr
      clear_value o
      subst ho
      obtain ⟨hrise, hkeep⟩ := stripRef_spec hlim st.r x
      obtain ⟨hsame, hfirst, hmove⟩ := stripFactor_spec st.r r
      rw [hr] at hrise hkeep
      generalize stripFactor st.r r = f at *
      intro mul add sub y m rises d hi lo t sh bv av x1 x2 e1 l2 h2 z l3
      refine ⟨hm.symm, hrise, hkeep, minusRef_spec (r.getD 0), rfl, rfl, rfl, f.2, fun h => ?_, fun h h0 => ?_, hmove, fun sel hsel i => ?_⟩
      · exact ⟨congrArg Prod.fst (hsame h), congrArg Prod.snd (hsame h)⟩
      · exact ⟨congrArg Prod.fst (hfirst h h0), congrArg Prod.snd (hfirst h h0)⟩
      · exact (stripSum_events hsel (r.getD 0) c els t.2 [f.2, hi.2, lo.2, sh.2, bv.2, av.2, x1.2, x2.2, e1.2, l2.2, h2.2, z.2, l3.2] i).trans
          (or_congr (exists_congr fun a => and_congr_right fun _ => stripElem_events hsel (r.getD 0) c a) Iff.rfl)

end Sys2Proof.Machine
end

section
/-! PROOFS. Numbers (02), part 11: the values of a slot, `encode`, and the choice of SE (R39 to R41, R47). -/
namespace Sys2Proof.Machine

/-! ### Codes of a slot (R39, R40) -/

/-- What the statements need of a slot: two bits of width, and room for the exponent and the sign (R16). -/
structure MSlot.Ok (a : MSlot) : Prop where
  width : 1 ≤ a.wm1
  room : a.e + a.s.toNat ≤ a.wm1 + 1

/-- The bits of a signed zero. -/
def MSlot.signBits (a : MSlot) (n : Bool) : Nat := if n && a.s then 2 ^ a.wm1 else 0

/-- The magnitude that a code of a slot stands for, without an upper limit. -/
noncomputable def MSlot.val (a : MSlot) (c : Nat) : ℝ := if a.e = 0 then c * (2 : ℝ) ^ (-(a.bias : Int)) else magVal a.mant a.bias c

section
variable {a : MSlot}

theorem MSlot.val_strictMono (a : MSlot) : StrictMono a.val := by
  unfold MSlot.val
  by_cases h : a.e = 0
  · simp only [h, if_true]
    exact fun c d hcd => mul_lt_mul_of_pos_right (Nat.cast_lt.2 hcd) (two_zpow_pos _)
  · simp only [h, if_false]
    exact magVal_strictMono _ _

theorem MSlot.val_zero (a : MSlot) : a.val 0 = 0 := by
  unfold MSlot.val; split
  · rw [Nat.cast_zero, zero_mul]
  · exact magVal_zero _ _

theorem MSlot.val_nonneg (a : MSlot) (c : Nat) : 0 ≤ a.val c := a.val_zero ▸ a.val_strictMono.monotone (Nat.zero_le c)

theorem MSlot.magBits_eq (ok : a.Ok) : a.magBits = a.mant + a.e := by
  have := ok.room; unfold MSlot.magBits MSlot.mant; omega

theorem MSlot.magBits_of_signed (h : a.s = true) : a.magBits = a.wm1 := by simp [MSlot.magBits, h]
theorem MSlot.magBits_le (a : MSlot) : a.magBits ≤ a.wm1 + 1 := Nat.sub_le _ _
theorem MSlot.magBits_pos (ok : a.Ok) : 1 ≤ a.magBits := by
  have := ok.width; have := a.s.toNat_le; unfold MSlot.magBits; omega

/-- The value of a code, by its parts (R39). -/
theorem MSlot.decode_eq (ok : a.Ok) (c : Nat) : a.decode c =
    if a.nan = true ∧ c % 2 ^ a.magBits = 2 ^ a.magBits - 1 then .nan false
    else if a.e = 0 then .fin (a.s && c.testBit a.wm1) (c % 2 ^ a.mant) (-(a.bias : Int))
    else if c / 2 ^ a.mant % 2 ^ a.e = 0 then .fin (a.s && c.testBit a.wm1) (c % 2 ^ a.mant) (1 - (a.bias : Int) - a.mant)
    else .fin (a.s && c.testBit a.wm1) (2 ^ a.mant + c % 2 ^ a.mant) (((c / 2 ^ a.mant % 2 ^ a.e : Nat) : Int) - a.bias - a.mant) := by
  have hmag : c % 2 ^ (a.wm1 + 1) % 2 ^ a.magBits = c % 2 ^ a.magBits := Nat.mod_mod_of_dvd _ (pow_dvd_pow 2 a.magBits_le)
  have hfield : c % 2 ^ a.magBits / 2 ^ a.mant = c / 2 ^ a.mant % 2 ^ a.e := by
    rw [MSlot.magBits_eq ok, pow_add, Nat.mod_mul_right_div_self]
  have hfrac : c % 2 ^ a.magBits % 2 ^ a.mant = c % 2 ^ a.mant :=
    Nat.mod_mod_of_dvd _ (pow_dvd_pow 2 (by rw [MSlot.magBits_eq ok]; omega))
  have hsign : (c % 2 ^ (a.wm1 + 1)).testBit a.wm1 = c.testBit a.wm1 := by simp [Nat.testBit_mod_two_pow]
  unfold MSlot.decode
  simp only [hmag, hfield, hfrac, hsign, Bool.and_eq_true, decide_eq_true_eq]

/-- The code of a sign and a magnitude that is no NaN. -/
theorem MSlot.decode_code (ok : a.Ok) {n : Bool} (hn : n = false ∨ a.s = true) {c : Nat} (hc : c ≤ a.maxCode) :
    a.signBits n + c < 2 ^ (a.wm1 + 1) ∧ ∃ q e, a.decode (a.signBits n + c) = .fin n q e ∧ (FVal.fin n q e).num = sgn n * a.val c := by
  have hpow : 2 ≤ 2 ^ a.magBits := by
    have := Nat.pow_le_pow_right (n := 2) (by omega) (MSlot.magBits_pos ok); omega
  have hlt : c < 2 ^ a.magBits := by
    unfold MSlot.maxCode at hc; omega
  have hnan : ¬ (a.nan = true ∧ c = 2 ^ a.magBits - 1) := by
    rintro ⟨h, rfl⟩
    rw [MSlot.maxCode, h, Bool.toNat_true] at hc; omega
  have htwo : 2 ^ (a.wm1 + 1) = 2 ^ a.wm1 + 2 ^ a.wm1 := by rw [pow_succ]; omega
  have hwide : 2 ^ a.magBits ≤ 2 ^ (a.wm1 + 1) := Nat.pow_le_pow_right (by omega) a.magBits_le
  -- the sign bits lie above the magnitude
  have hparts : a.signBits n + c < 2 ^ (a.wm1 + 1) ∧ (a.signBits n + c) % 2 ^ a.magBits = c ∧ (a.s && (a.signBits n + c).testBit a.wm1) = n := by
    unfold MSlot.signBits
    cases hs : a.s with
    | false =>
      have hn : n = false := hn.resolve_right (by rw [hs]; exact Bool.false_ne_true)
      subst hn
      simp only [Bool.and_false, Bool.false_and, Bool.false_eq_true, if_false, Nat.zero_add]
      exact ⟨by omega, Nat.mod_eq_of_lt hlt, trivial⟩
    | true =>
      rw [MSlot.magBits_of_signed hs] at hlt ⊢
      cases n with
      | false =>
        simp only [Bool.false_and, Bool.true_and, Bool.false_eq_true, if_false, Nat.zero_add]
        exact ⟨by omega, Nat.mod_eq_of_lt hlt, Nat.testBit_lt_two_pow hlt⟩
      | true =>
        simp only [Bool.true_and, if_true]
        exact ⟨by omega, by rw [Nat.add_mod_left, Nat.mod_eq_of_lt hlt], by rw [Nat.testBit_two_pow_add_eq, Nat.testBit_lt_two_pow hlt]; rfl⟩
  obtain ⟨hsmall, hmag, hsign⟩ := hparts
  have hfield : (a.signBits n + c) / 2 ^ a.mant % 2 ^ a.e = c / 2 ^ a.mant := by
    rw [← Nat.mod_mul_right_div_self, ← pow_add, ← MSlot.magBits_eq ok, hmag]
  have hfrac : (a.signBits n + c) % 2 ^ a.mant = c % 2 ^ a.mant := by
    rw [← Nat.mod_mod_of_dvd _ (pow_dvd_pow 2 (by rw [MSlot.magBits_eq ok]; omega : a.mant ≤ a.magBits)), hmag]
  refine ⟨hsmall, ?_⟩
  rw [MSlot.decode_eq ok, hmag, if_neg hnan, hsign, hfield, hfrac]
  unfold MSlot.val
  by_cases he : a.e = 0
  · rw [if_pos he, if_pos he, Nat.mod_eq_of_lt (by rwa [MSlot.magBits_eq ok, he, Nat.add_zero] at hlt)]
    exact ⟨_, _, rfl, FVal.num_fin ..⟩
  · rw [if_neg he, if_neg he]
    by_cases hx : c / 2 ^ a.mant = 0
    · have hsub : c < 2 ^ a.mant := (Nat.div_eq_zero_iff.1 hx).resolve_left (by positivity)
      rw [if_pos hx, magVal, if_pos hsub, Nat.mod_eq_of_lt hsub]
      exact ⟨_, _, rfl, FVal.num_fin ..⟩
    · have hsub : ¬ c < 2 ^ a.mant := fun h => hx (Nat.div_eq_of_lt h)
      rw [if_neg hx, magVal, if_neg hsub]
      exact ⟨_, _, rfl, FVal.num_fin ..⟩

/-- The largest finite value of a slot. -/
theorem MSlot.maxFin_spec (ok : a.Ok) : ∃ q e, a.maxFin = .fin false q e ∧ a.maxFin.num = a.val a.maxCode := by
  obtain ⟨-, q, e, hdec, hnum⟩ := MSlot.decode_code ok (n := false) (.inl rfl) (le_refl a.maxCode)
  have hzero : a.signBits false + a.maxCode = a.maxCode := Nat.zero_add _
  rw [hzero] at hdec
  have hfin : a.maxFin = .fin false q e := hdec
  rw [sgn_false, one_mul] at hnum
  exact ⟨q, e, hfin, by rw [hfin, hnum]⟩

/-- R39: the value of every code, in the words of the rule. -/
theorem MSlot.decode_spec (ok : a.Ok) (c : Nat) :
    (a.nan = true → c % 2 ^ a.magBits = 2 ^ a.magBits - 1 → a.decode c = .nan false) ∧
    (a.nan = false ∨ c % 2 ^ a.magBits ≠ 2 ^ a.magBits - 1 → ∃ q e, a.decode c = .fin (a.s && c.testBit a.wm1) q e ∧
      (q : ℝ) * (2 : ℝ) ^ e = if a.e = 0 then (c % 2 ^ a.mant : Nat) * (2 : ℝ) ^ (-(a.bias : Int))
        else if c / 2 ^ a.mant % 2 ^ a.e = 0 then (c % 2 ^ a.mant : Nat) * (2 : ℝ) ^ (1 - (a.bias : Int) - a.mant)
        else (2 ^ a.mant + (c % 2 ^ a.mant : Nat)) * (2 : ℝ) ^ (((c / 2 ^ a.mant % 2 ^ a.e : Nat) : Int) - a.bias - a.mant)) := by
  rw [MSlot.decode_eq ok]
  refine ⟨fun h1 h2 => if_pos ⟨h1, h2⟩, fun h => ?_⟩
  rw [if_neg (by rintro ⟨h1, h2⟩; exact h.elim (fun h => by rw [h] at h1; exact Bool.false_ne_true h1) (fun h => h h2))]
  split
  · exact ⟨_, _, rfl, rfl⟩
  · split
    · exact ⟨_, _, rfl, rfl⟩
    · exact ⟨_, _, rfl, by push_cast; rfl⟩

/-! ### Encoding (R41) -/

/-- The unit that a magnitude is rounded to in a slot. -/
def MSlot.unit (a : MSlot) (m : Nat) (e : Int) : Int :=
  if a.e = 0 then -(a.bias : Int) else (if topOf m e < 1 - (a.bias : Int) then 1 - (a.bias : Int) else topOf m e) - a.mant

/-- The code of `q` units. -/
def MSlot.code (a : MSlot) (u : Int) (q : Nat) : Nat := if a.e = 0 then q else codeOf a.mant (u + a.mant + a.bias).toNat q

/-- `encode` of a nonzero value that the slot has a sign for. -/
theorem MSlot.encode_eq (rm : RMode) {n : Bool} {m : Nat} (e : Int) (hm : m ≠ 0) (hn : n = false ∨ a.s = true) : a.encode rm (.fin n m e) =
    let q := roundAt rm n m e false (a.unit m e)
    let c := a.code (a.unit m e) q.1
    if a.maxCode < c then (a.signBits n + a.maxCode, { sat := true, nx := true })
    else (a.signBits n + c, { nx := q.2, uf := q.2 && decide (a.e ≠ 0) && decide (c < 2 ^ a.mant) }) := by
  have hsign : (n && !a.s) = false := by rcases hn with h | h <;> rw [h] <;> simp
  unfold MSlot.encode
  simp only [if_neg hm, hsign, Bool.false_eq_true, if_false]
  rfl

theorem MSlot.grid_neg (t : ℝ) (h : a.grid t) : a.grid (-t) := by
  unfold MSlot.grid at h ⊢
  split
  · rename_i he
    rw [if_pos he] at h
    obtain ⟨k, rfl⟩ := h
    exact ⟨-k, by push_cast; ring⟩
  · rename_i he
    rw [if_neg he] at h
    exact h.neg

/-- The rounding of `encode`: to the values of the slot, with the value of its code. -/
theorem MSlot.unit_rounding (rm : RMode) (n : Bool) {m : Nat} (e : Int) (hm : m ≠ 0) :
    let q := roundAt rm n m e false (a.unit m e)
    RoundsTo a.grid rm (FVal.fin n m e).num (sgn n * (q.1 * (2 : ℝ) ^ a.unit m e)) ∧
      (q.2 = true ↔ sgn n * (q.1 * (2 : ℝ) ^ a.unit m e) ≠ (FVal.fin n m e).num) ∧ a.val (a.code (a.unit m e) q.1) = q.1 * (2 : ℝ) ^ a.unit m e := by
  intro q
  have hst := stands_exact m e
  have hs : ∀ qe : Int, false = true → e < qe := fun _ h => absurd h Bool.false_ne_true
  have hinexact : q.2 = true ↔ sgn n * (q.1 * (2 : ℝ) ^ a.unit m e) ≠ (FVal.fin n m e).num := by
    rw [FVal.num_fin]
    exact (roundAt_inexact hst (hs _)).trans (by cases n <;> simp [q])
  rw [FVal.num_fin] at hinexact ⊢
  by_cases he : a.e = 0
  · have hunit : a.unit m e = -(a.bias : Int) := if_pos he
    have hgrid : a.grid = fun r => ∃ k : Int, r = k * (2 : ℝ) ^ (-(a.bias : Int)) := by funext r; unfold MSlot.grid; rw [if_pos he]
    refine ⟨roundAt_roundsTo MSlot.grid_neg hst (hs _) fun k _ _ => ?_, hinexact, ?_⟩
    · rw [hgrid, hunit]
      refine ⟨⟨k, by push_cast; rfl⟩, ⟨k + 1, by push_cast; rfl⟩, ?_⟩
      rintro t ⟨j, rfl⟩
      have hu := two_zpow_pos (-(a.bias : Int))
      have hint : j ≤ k ∨ (k : ℤ) + 1 ≤ j := by omega
      exact hint.imp (fun h => mul_le_mul_of_nonneg_right (by exact_mod_cast h) hu.le) (fun h => mul_le_mul_of_nonneg_right (by exact_mod_cast h) hu.le)
    · rw [MSlot.val, if_pos he, MSlot.code, if_pos he, hunit]
  · have hunit : a.unit m e = (if topOf m e < 1 - (a.bias : Int) then 1 - (a.bias : Int) else topOf m e) - a.mant := if_neg he
    have hgrid : a.grid = OnGrid (a.mant + 1) (some (1 - (a.bias : Int) - a.mant)) := by funext r; unfold MSlot.grid; rw [if_neg he]
    have hcase : (a.unit m e = topOf m e - a.mant ∧ 1 - (a.bias : Int) ≤ topOf m e) ∨
        (a.unit m e = 1 - (a.bias : Int) - a.mant ∧ topOf m e < 1 - (a.bias : Int)) := by
      rw [hunit]; split <;> omega
    have htop : topOf m e = (Nat.log2 m : Int) + e := rfl
    obtain ⟨hround, -, hnormal, hsub⟩ := roundAt_float (rm := rm) (neg := n) (qe := a.unit m e) (k := a.mant)
      (lo := some (1 - (a.bias : Int) - a.mant)) hm hst (fun h => absurd h Bool.false_ne_true) (fun l hl => by injection hl; omega)
      (hcase.imp (fun h => by omega) (fun h => ⟨congrArg some h.1.symm, by omega⟩))
    refine ⟨hgrid ▸ hround, hinexact, ?_⟩
    rw [MSlot.val, if_neg he, MSlot.code, if_neg he]
    have htwo : 2 ^ (a.mant + 1) = 2 ^ a.mant + 2 ^ a.mant := by rw [pow_succ]; omega
    rcases hcase with ⟨hu, hle⟩ | ⟨hu, hlt⟩
    · obtain ⟨hlo, hhi⟩ := hnormal (by omega)
      exact magVal_codeOf_unit (by omega) hhi (fun h => absurd h (not_lt.2 hlo))
    · exact magVal_codeOf_unit (by omega) ((hsub (by omega)).trans (by omega)) (fun _ => by omega)

/-- R41: a nonzero value that the slot has a sign for is rounded once to the slot's values, or delivers maxfin. -/
theorem MSlot.encode_spec (ok : a.Ok) (rm : RMode) {n : Bool} {m : Nat} (e : Int) (hm : m ≠ 0) (hn : n = false ∨ a.s = true) :
    let o := a.encode rm (.fin n m e)
    ∃ r, RoundsTo a.grid rm (FVal.fin n m e).num r ∧
      (a.maxFin.num < |r| → o = (a.signBits n + a.maxCode, { sat := true, nx := true })) ∧
      (|r| ≤ a.maxFin.num → o.1 < 2 ^ (a.wm1 + 1) ∧ (∃ q' e', a.decode o.1 = .fin n q' e') ∧ (a.decode o.1).num = r ∧
        o.2 = { nx := o.2.nx, uf := o.2.uf } ∧ (o.2.nx = true ↔ r ≠ (FVal.fin n m e).num) ∧
        (o.2.uf = true ↔ r ≠ (FVal.fin n m e).num ∧ a.e ≠ 0 ∧ |r| < (2 : ℝ) ^ (1 - (a.bias : Int)))) := by
  intro o
  obtain ⟨hround, hinexact, hval⟩ := MSlot.unit_rounding (a := a) rm n e hm
  obtain ⟨-, -, -, hmax⟩ := MSlot.maxFin_spec ok
  have ho : o = _ := MSlot.encode_eq rm e hm hn
  dsimp only at hround hinexact hval ho
  set q := roundAt rm n m e false (a.unit m e)
  set c := a.code (a.unit m e) q.1
  rw [← hval] at hround hinexact
  have habs : |sgn n * a.val c| = a.val c := by rw [abs_sgn_mul, abs_of_nonneg (a.val_nonneg c)]
  refine ⟨sgn n * a.val c, hround, ?_, ?_⟩
  · rw [habs, hmax, a.val_strictMono.lt_iff_lt]
    intro h
    rw [ho, if_pos h]
  · rw [habs, hmax, a.val_strictMono.le_iff_le]
    intro h
    obtain ⟨hlt, q', e', hdec, hnum⟩ := MSlot.decode_code ok hn h
    rw [if_neg (not_lt.2 h)] at ho
    rw [ho]
    refine ⟨hlt, ⟨q', e', hdec⟩, by rw [hdec, hnum], rfl, hinexact, ?_⟩
    simp only [Bool.and_eq_true, decide_eq_true_eq, hinexact, and_assoc]
    refine and_congr_right fun _ => and_congr_right fun he => ?_
    have hnormal := magVal_field a.mant a.bias (le_refl 1)
    rw [Nat.one_mul, Nat.cast_one] at hnormal
    rw [← hnormal, MSlot.val, if_neg he, (magVal_strictMono _ _).lt_iff_lt]
end

/-! ### The choice of SE (R47) -/

theorem FVal.abs_num_fin (n : Bool) (m : Nat) (e : Int) : |(FVal.fin n m e).num| = (FVal.fin false m e).num := by
  rw [FVal.num_fin, abs_sgn_mul, FVal.num_fin, sgn_false, one_mul, abs_of_nonneg (by positivity)]

/-- The larger of two magnitudes, the first one's sign being positive. -/
theorem FVal.maxMag_spec (m : Nat) (e : Int) (v : FVal) : ∃ m' e', (FVal.fin false m e).maxMag v = .fin false m' e' ∧
    (FVal.fin false m' e').num = max (FVal.fin false m e).num |v.num| := by
  cases v with
  | nan s => exact ⟨m, e, rfl, (max_eq_left ((abs_zero (α := ℝ)).trans_le (FVal.num_nonneg m e))).symm⟩
  | inf n => exact ⟨m, e, rfl, (max_eq_left ((abs_zero (α := ℝ)).trans_le (FVal.num_nonneg m e))).symm⟩
  | fin n m' e' =>
    have hc := FVal.cmp_compares (a := .fin false m e) (b := .fin false m' e') rfl rfl
    have hlt : ((FVal.fin false m e).cmp (.fin false m' e') == .lt) = true ↔ (FVal.fin false m e).num < (FVal.fin false m' e').num := by
      rw [beq_iff_eq, hc.eq_lt, FVal.ext_fin, FVal.ext_fin, EReal.coe_lt_coe_iff]
    rw [FVal.abs_num_fin]
    unfold FVal.maxMag
    dsimp only
    split
    · rename_i h
      exact ⟨m', e', rfl, (max_eq_right (hlt.1 h).le).symm⟩
    · rename_i h
      exact ⟨m, e, rfl, (max_eq_left (not_lt.1 fun hn => h (hlt.2 hn))).symm⟩

/-- The largest magnitude of a block: it bounds a number exactly when the number bounds every one. -/
theorem foldl_maxMag (vals : List FVal) (m : Nat) (e : Int) : ∃ m' e', vals.foldl FVal.maxMag (.fin false m e) = .fin false m' e' ∧
    ∀ x, (FVal.fin false m' e').num ≤ x ↔ (FVal.fin false m e).num ≤ x ∧ ∀ v ∈ vals, |v.num| ≤ x := by
  induction vals generalizing m e with
  | nil => exact ⟨m, e, rfl, by simp⟩
  | cons v vals ih =>
    obtain ⟨m1, e1, hstep, hnum⟩ := FVal.maxMag_spec m e v
    obtain ⟨m', e', hfold, hle⟩ := ih m1 e1
    refine ⟨m', e', by rw [List.foldl_cons, hstep, hfold], fun x => ?_⟩
    rw [hle, hnum, max_le_iff, List.forall_mem_cons, and_assoc]

/-- `chooseSEFrom` finds the first SE that fits, or ends at 63. -/
theorem chooseSEFrom_spec (a : MSlot) (amax : FVal) : ∀ n se, n + se = 64 →
    let fits := fun k : Nat => (amax.cmp (a.maxFin.scale ((k : Int) - 32)) != .gt) = true
    let k := chooseSEFrom a amax n se
    k ≤ 63 ∧ (fits k ∨ k = 63) ∧ ∀ j, se ≤ j → j < k → ¬ fits j
  | 0, se, h => ⟨le_refl 63, .inr rfl, fun j hj hlt => by
      have : j < 63 := hlt
      omega⟩
  | n + 1, se, h => by
    intro fits k
    by_cases hfit : fits se
    · have hk : k = se := if_pos hfit
      rw [hk]
      exact ⟨by omega, .inl hfit, fun j h1 h2 => by omega⟩
    · have hk : k = chooseSEFrom a amax n (se + 1) := if_neg hfit
      obtain ⟨h1, h2, h3⟩ := chooseSEFrom_spec a amax n (se + 1) (by omega)
      rw [← hk] at h1 h2 h3
      refine ⟨h1, h2, fun j hj hlt => ?_⟩
      rcases Nat.eq_or_lt_of_le hj with rfl | hj
      · exact hfit
      · exact h3 j hj hlt

/-- R47: SE is the smallest that holds every finite value of the block. -/
theorem chooseSE_spec {a : MSlot} (ok : a.Ok) (vals : List FVal) :
    let se := chooseSE a vals
    let fits := fun k : Nat => ∀ v ∈ vals, ∀ n q e, v = .fin n q e → |v.num| ≤ a.maxFin.num * (2 : ℝ) ^ ((k : Int) - 32)
    ((∀ v ∈ vals, v.num = 0) → se = 0) ∧ ((∃ v ∈ vals, v.num ≠ 0) → se ≤ 63 ∧ (fits se ∨ se = 63) ∧ ∀ k, k < se → ¬ fits k) := by
  intro se fits
  obtain ⟨m, e, hmax, hle⟩ := foldl_maxMag vals 0 0
  have hzero : (FVal.fin false 0 0).num = 0 := (FVal.num_eq_zero_iff ..).2 rfl
  obtain ⟨q, j, hfin, hval⟩ := MSlot.maxFin_spec ok
  have hse : se = if m = 0 then 0 else chooseSEFrom a (.fin false m e) 64 0 := by
    simp only [se, chooseSE, hmax, FVal.isZero, decide_eq_true_eq]
  have hfits : ∀ k : Nat, fits k ↔ ((FVal.fin false m e).cmp (a.maxFin.scale ((k : Int) - 32)) != .gt) = true := by
    intro k
    have hscale : a.maxFin.scale ((k : Int) - 32) = .fin false q (j + ((k : Int) - 32)) := by rw [hfin]; rfl
    have hnum : (FVal.fin false q (j + ((k : Int) - 32))).num = a.maxFin.num * (2 : ℝ) ^ ((k : Int) - 32) := by rw [FVal.num_scale, hfin]
    have hnonneg : 0 ≤ a.maxFin.num * (2 : ℝ) ^ ((k : Int) - 32) :=
      mul_nonneg (by rw [hval]; exact a.val_nonneg _) (two_zpow_pos _).le
    have hc := FVal.cmp_compares (a := .fin false m e) (b := .fin false q (j + ((k : Int) - 32))) rfl rfl
    rw [hscale, bne_iff_ne, hc.ne_gt, FVal.ext_fin, FVal.ext_fin, EReal.coe_le_coe_iff, hnum, hle, hzero, and_iff_right hnonneg]
    refine forall₂_congr fun v _ => ⟨fun h => ?_, fun h n q e _ => h⟩
    cases v with
    | nan s => simpa [FVal.num] using hnonneg
    | inf n => simpa [FVal.num] using hnonneg
    | fin n q' e' => exact h n q' e' rfl
  refine ⟨fun hall => ?_, fun ⟨v, hv, hne⟩ => ?_⟩
  · have hm : (FVal.fin false m e).num ≤ 0 := (hle 0).2 ⟨hzero.le, fun v hv => by rw [hall v hv, abs_zero]⟩
    rw [hse, if_pos ((FVal.num_eq_zero_iff false m e).1 (le_antisymm hm (FVal.num_nonneg m e)))]
  · have hm : m ≠ 0 := by
      intro h0
      have h0 : (FVal.fin false m e).num = 0 := (FVal.num_eq_zero_iff ..).2 h0
      have := ((hle 0).1 h0.le).2 v hv
      exact hne (abs_nonpos_iff.1 this)
    rw [if_neg hm] at hse
    obtain ⟨h1, h2, h3⟩ := chooseSEFrom_spec a (.fin false m e) 64 0 rfl
    rw [← hse] at h1 h2 h3
    exact ⟨h1, h2.imp_left (hfits se).2, fun k hk hf => h3 k (Nat.zero_le k) hk ((hfits k).1 hf)⟩

end Sys2Proof.Machine
end

section
/-! PROOFS. Numbers (02), part 12: the exact sum of a group of products: NaNs, infinities, signs and zeros (R52). -/
namespace Sys2Proof.Machine

/-! ### Sums of products (R52) -/

/-- The exact sum of values from a first one on, as `exactSum` forms it. -/
def sumFrom (x : FVal) (l : List FVal) : FVal := l.foldl (fun x y => (x.add .rne y).1) x

theorem exactSum_cons (x : FVal) (l : List FVal) : exactSum (x :: l) = sumFrom x l := rfl
theorem sumFrom_cons (x y : FVal) (l : List FVal) : sumFrom x (y :: l) = sumFrom (x.add .rne y).1 l := rfl

/-- A NaN, or infinities of both signs, among the values of a sum. -/
def Clash (l : List FVal) : Prop := (∃ p ∈ l, p.isNan = true) ∨ (.inf true ∈ l ∧ .inf false ∈ l)

/-- No value of a sum is a NaN or the infinity of the other sign. -/
def NoneAgainst (n : Bool) (l : List FVal) : Prop := ∀ p ∈ l, p.isNan = false ∧ p ≠ .inf (!n)

/-- A negative zero. -/
def FVal.NegZero (v : FVal) : Prop := v.neg = true ∧ v.isZero = true

theorem FVal.add_opposite (rm : RMode) (n : Bool) : ((FVal.inf n).add rm (.inf (!n))).1 = .nan false := by cases n <;> rfl

/-- An infinity that is not the one is the other. -/
theorem FVal.eq_of_inf_ne {n k : Bool} (h : FVal.inf k ≠ .inf (!n)) : k = n := Bool.ne_not.1 fun e => h (congrArg FVal.inf e)

/-- A value that is no NaN and no infinity is finite. -/
theorem FVal.finite_of_ne {n : Bool} {v : FVal} (h : v.isNan = false ∧ v ≠ .inf (!n)) (hn : v ≠ .inf n) : ∃ k m e, v = .fin k m e := by
  cases v with
  | nan s => exact Bool.noConfusion h.1
  | inf k => exact absurd (congrArg FVal.inf (FVal.eq_of_inf_ne h.2)) hn
  | fin k m e => exact ⟨k, m, e, rfl⟩

/-- A sum with one infinity that nothing is against is that infinity. -/
theorem FVal.add_inf {n : Bool} {x y : FVal} (h : x = .inf n ∨ y = .inf n) (hn : NoneAgainst n [x, y]) : (x.add .rne y).1 = .inf n := by
  obtain ⟨hx, hx'⟩ := hn x (by simp)
  obtain ⟨hy, hy'⟩ := hn y (by simp)
  rcases h with rfl | rfl
  · cases y with
    | nan s => exact Bool.noConfusion hy
    | inf k =>
      obtain rfl := FVal.eq_of_inf_ne hy'
      simp [FVal.add]
    | fin k m e => rfl
  · cases x with
    | nan s => exact Bool.noConfusion hx
    | inf k =>
      obtain rfl := FVal.eq_of_inf_ne hx'
      simp [FVal.add]
    | fin k m e => rfl

/-- The sign of an exact sum that is -0: both are. -/
theorem FVal.add_fin_negZero (n n' : Bool) (m m' : Nat) (e e' : Int) : ∃ k q j, (FVal.fin n m e).add .rne (.fin n' m' e') = (.fin k q j, false) ∧
    (FVal.fin k q j).num = (FVal.fin n m e).num + (FVal.fin n' m' e').num ∧
    ((FVal.fin k q j).NegZero ↔ (FVal.fin n m e).NegZero ∧ (FVal.fin n' m' e').NegZero) := by
  obtain ⟨k, q, j, hadd, hnum, hsign⟩ := FVal.add_fin .rne n n' m m' e e'
  refine ⟨k, q, j, hadd, hnum, ?_⟩
  have hzero : ∀ (n : Bool) (m : Nat) (e : Int), (FVal.fin n m e).NegZero ↔ n = true ∧ (FVal.fin n m e).num = 0 := fun n m e => by
    rw [FVal.num_eq_zero_iff]; exact and_congr_right fun _ => decide_eq_true_iff
  rw [hzero, hzero, hzero, hnum]
  constructor
  · rintro ⟨hk, h0⟩
    have hs := hsign h0
    rw [hk] at hs
    have hn : n = true ∧ n' = true := by
      cases n <;> cases n' <;> simp at hs ⊢
    obtain ⟨rfl, rfl⟩ := hn
    have h1 := FVal.num_nonpos m e
    have h2 := FVal.num_nonpos m' e'
    exact ⟨⟨rfl, by linarith⟩, ⟨rfl, by linarith⟩⟩
  · rintro ⟨⟨rfl, h1⟩, ⟨rfl, h2⟩⟩
    have h0 : (FVal.fin true m e).num + (FVal.fin true m' e').num = 0 := by rw [h1, h2, add_zero]
    exact ⟨by simpa using hsign h0, h0⟩

/-- A sum with a NaN or a clash of infinities is a NaN. -/
theorem sumFrom_clash : ∀ (l : List FVal) (x : FVal), Clash (x :: l) → (sumFrom x l).isNan = true
  | [], x, h => by
    rcases h with ⟨p, hp, hn⟩ | ⟨h1, h2⟩
    · rwa [List.mem_singleton.1 hp] at hn
    · rw [List.mem_singleton] at h1 h2
      rw [← h1] at h2
      exact absurd h2 (by decide)
  | y :: l, x, h => by
    rw [sumFrom_cons]
    refine sumFrom_clash l _ ?_
    by_cases hnan : x.isNan = true ∨ y.isNan = true
    · exact .inl ⟨_, List.mem_cons_self, by rw [FVal.add_nan .rne hnan]; rfl⟩
    rw [not_or, Bool.not_eq_true, Bool.not_eq_true] at hnan
    by_cases hopp : ∃ n, (x = .inf n ∧ y = .inf (!n))
    · obtain ⟨n, rfl, rfl⟩ := hopp
      exact .inl ⟨_, List.mem_cons_self, by rw [FVal.add_opposite]; rfl⟩
    rw [not_exists] at hopp
    -- an infinity among the first two is their sum
    have hhead : ∀ n, .inf n ∈ x :: y :: l → .inf n ∈ (x.add .rne y).1 :: l := by
      intro n hmem
      simp only [List.mem_cons] at hmem
      rcases hmem with hx | hy | hl
      · refine List.mem_cons.2 (.inl (FVal.add_inf (.inl hx.symm) ?_).symm)
        intro p hp
        simp only [List.mem_cons, List.not_mem_nil, or_false] at hp
        rcases hp with rfl | rfl
        · exact ⟨hnan.1, by rw [← hx]; cases n <;> decide⟩
        · exact ⟨hnan.2, fun e => hopp n ⟨hx.symm, e⟩⟩
      · refine List.mem_cons.2 (.inl (FVal.add_inf (.inr hy.symm) ?_).symm)
        intro p hp
        simp only [List.mem_cons, List.not_mem_nil, or_false] at hp
        rcases hp with rfl | rfl
        · exact ⟨hnan.1, fun e => hopp (!n) ⟨e, by rw [Bool.not_not]; exact hy.symm⟩⟩
        · exact ⟨hnan.2, by rw [← hy]; cases n <;> decide⟩
      · exact List.mem_cons_of_mem _ hl
    rcases h with ⟨p, hp, hn⟩ | ⟨h1, h2⟩
    · simp only [List.mem_cons] at hp
      rcases hp with rfl | rfl | hp
      · rw [hnan.1] at hn; exact Bool.noConfusion hn
      · rw [hnan.2] at hn; exact Bool.noConfusion hn
      · exact .inl ⟨p, List.mem_cons_of_mem _ hp, hn⟩
    · exact .inr ⟨hhead true h1, hhead false h2⟩

/-- The finite sums: exact, and -0 only when every value is. -/
theorem sumFrom_fin : ∀ (l : List FVal) (x : FVal), (∀ p ∈ x :: l, ∃ n m e, p = .fin n m e) → ∃ k q j, sumFrom x l = .fin k q j ∧
    (FVal.fin k q j).num = ((x :: l).map (·.num)).sum ∧ ((FVal.fin k q j).NegZero ↔ ∀ p ∈ x :: l, p.NegZero)
  | [], x, h => by
    obtain ⟨n, m, e, rfl⟩ := h x List.mem_cons_self
    exact ⟨n, m, e, rfl, by simp, by simp⟩
  | y :: l, x, h => by
    obtain ⟨n, m, e, rfl⟩ := h x List.mem_cons_self
    obtain ⟨n', m', e', rfl⟩ := h y (List.mem_cons_of_mem _ List.mem_cons_self)
    obtain ⟨k, q, j, hadd, hnum, hneg⟩ := FVal.add_fin_negZero n n' m m' e e'
    obtain ⟨k', q', j', hsum, hnum', hneg'⟩ := sumFrom_fin l (.fin k q j) fun p hp => by
      rcases List.mem_cons.1 hp with rfl | hp
      · exact ⟨_, _, _, rfl⟩
      · exact h p (List.mem_cons_of_mem _ (List.mem_cons_of_mem _ hp))
    refine ⟨k', q', j', by rw [sumFrom_cons, hadd, hsum], ?_, ?_⟩
    · rw [hnum', List.map_cons, List.sum_cons, hnum]
      simp only [List.map_cons, List.sum_cons]; ring
    · rw [hneg', List.forall_mem_cons, hneg, List.forall_mem_cons, List.forall_mem_cons, and_assoc]

/-- A sum with an infinity that nothing is against is that infinity. -/
theorem sumFrom_inf {n : Bool} : ∀ (l : List FVal) (x : FVal), .inf n ∈ x :: l → NoneAgainst n (x :: l) → sumFrom x l = .inf n
  | [], x, hmem, _ => (List.mem_singleton.1 hmem).symm
  | y :: l, x, hmem, hn => by
    rw [sumFrom_cons]
    have hx := hn x List.mem_cons_self
    have hy := hn y (List.mem_cons_of_mem _ List.mem_cons_self)
    have hl : ∀ p ∈ l, p.isNan = false ∧ p ≠ .inf (!n) := fun p hp => hn p (List.mem_cons_of_mem _ (List.mem_cons_of_mem _ hp))
    have hpair : NoneAgainst n [x, y] := by
      intro p hp
      simp only [List.mem_cons, List.not_mem_nil, or_false] at hp
      rcases hp with rfl | rfl <;> assumption
    by_cases hxy : x = .inf n ∨ y = .inf n
    · rw [FVal.add_inf hxy hpair]
      refine sumFrom_inf l _ List.mem_cons_self fun p hp => ?_
      rcases List.mem_cons.1 hp with rfl | hp
      · exact ⟨rfl, by cases n <;> decide⟩
      · exact hl p hp
    · rw [not_or] at hxy
      obtain ⟨k, m, e, rfl⟩ := FVal.finite_of_ne hx hxy.1
      obtain ⟨k', m', e', rfl⟩ := FVal.finite_of_ne hy hxy.2
      obtain ⟨s, q, j, hadd, -⟩ := FVal.add_fin .rne k k' m m' e e'
      rw [hadd]
      refine sumFrom_inf l _ ?_ fun p hp => ?_
      · simp only [List.mem_cons] at hmem ⊢
        rcases hmem with h | h | h
        · exact FVal.noConfusion h
        · exact FVal.noConfusion h
        · exact .inr h
      · rcases List.mem_cons.1 hp with rfl | hp
        · exact ⟨rfl, fun h => FVal.noConfusion h⟩
        · exact hl p hp

end Sys2Proof.Machine
end

section
/-! PROOFS. Numbers (02), part 13: a group of products added to an accumulator (R52), and the products. -/
namespace Sys2Proof.Machine

/-- One group added to a floating-point accumulator: the exact sums, rounded once. -/
theorem addGroup_float (acc : Nat) (ps : List FVal) :
    addGroup false acc ps = (((fp32.decode acc).add .rne (exactSum ps)).1.roundTo fp32 .rne).1 := rfl

theorem FVal.roundTo_nan {f : Fmt} {rm : RMode} {v : FVal} (h : v.isNan = true) : (v.roundTo f rm).1 = f.nan := by
  obtain ⟨s, rfl⟩ := FVal.isNan_iff.1 h; rfl

section
variable {acc : Nat} {p : FVal} {l : List FVal}

/-- R52: a NaN among the accumulator and the products, or infinities of both signs. -/
theorem addGroup_nan (h : (fp32.decode acc).isNan = true ∨ Clash (p :: l) ∨ ∃ n, fp32.decode acc = .inf n ∧ .inf (!n) ∈ p :: l) :
    addGroup false acc (p :: l) = fp32.nan := by
  rw [addGroup_float, exactSum_cons]
  apply FVal.roundTo_nan
  by_cases hc : Clash (p :: l)
  · rw [FVal.add_nan _ (.inr (sumFrom_clash l p hc))]; rfl
  · rcases h with ha | hc' | ⟨n, ha, hmem⟩
    · rw [FVal.add_nan _ (.inl ha)]; rfl
    · exact absurd hc' hc
    · have hagainst : NoneAgainst (!n) (p :: l) := by
        intro q hq
        refine ⟨Bool.eq_false_iff.2 fun hnan => hc (.inl ⟨q, hq, hnan⟩), ?_⟩
        rintro rfl
        rw [Bool.not_not] at hq
        cases n with
        | false => exact hc (.inr ⟨hmem, hq⟩)
        | true => exact hc (.inr ⟨hq, hmem⟩)
      rw [ha, sumFrom_inf l p hmem hagainst, FVal.add_opposite]; rfl

/-- R52: an infinity that nothing is against. -/
theorem addGroup_inf {n : Bool} (h : fp32.decode acc = .inf n ∨ .inf n ∈ p :: l) (hn : NoneAgainst n (fp32.decode acc :: p :: l)) :
    addGroup false acc (p :: l) = fp32.inf n := by
  obtain ⟨ha, hl⟩ := List.forall_mem_cons.1 hn
  have hsum : (sumFrom p l = .inf n ∧ .inf n ∈ p :: l) ∨ .inf n ∉ p :: l ∧ ∃ k m e, sumFrom p l = .fin k m e := by
    by_cases hmem : .inf n ∈ p :: l
    · exact .inl ⟨sumFrom_inf l p hmem hl, hmem⟩
    · obtain ⟨k, m, e, hs, -⟩ := sumFrom_fin l p fun q hq => FVal.finite_of_ne (hl q hq) fun e => hmem (e ▸ hq)
      exact .inr ⟨hmem, k, m, e, hs⟩
  have hadd : ((fp32.decode acc).add .rne (sumFrom p l)).1 = .inf n := by
    refine FVal.add_inf (h.imp_right fun hmem => ?_) (List.forall_mem_cons.2 ⟨ha, List.forall_mem_singleton.2 ?_⟩)
    · rcases hsum with ⟨hs, -⟩ | ⟨hno, -⟩
      · exact hs
      · exact absurd hmem hno
    · rcases hsum with ⟨hs, -⟩ | ⟨-, k, m, e, hs⟩ <;> rw [hs]
      · exact ⟨rfl, fun e => Bool.self_ne_not n (FVal.inf.inj e)⟩
      · exact ⟨rfl, fun e => FVal.noConfusion e⟩
  rw [addGroup_float, exactSum_cons, hadd]; rfl

/-- R52: finite products and accumulator: the exact sum, rounded once; a zero sum is -0 when all the values are (log entry 61). -/
theorem addGroup_fin (h : ∀ q ∈ fp32.decode acc :: p :: l, ∃ n m e, q = .fin n m e) :
    ∃ (z : Bool) (e : Ev), (z = true ↔ ∀ q ∈ fp32.decode acc :: p :: l, q.NegZero) ∧
      IsRounded fp32 .rne ((fp32.decode acc).num + ((p :: l).map (·.num)).sum) z (addGroup false acc (p :: l), e) := by
  obtain ⟨ha, hl⟩ := List.forall_mem_cons.1 h
  obtain ⟨n, m, e, ha⟩ := ha
  obtain ⟨k, q, j, hs, hsnum, hsneg⟩ := sumFrom_fin l p hl
  obtain ⟨k', q', j', hadd, hnum, hneg⟩ := FVal.add_fin_negZero n k m q e j
  have hround := fin_roundTo_isRounded (f := fp32) (rm := .rne) (neg := k') (m := q') (e := j') fp32_ok
  classical
  refine ⟨decide ((FVal.fin k' q' j').NegZero), ((FVal.fin k' q' j').roundTo fp32 .rne).2, ?_, ?_⟩
  · rw [decide_eq_true_iff, hneg, hsneg, List.forall_mem_cons (a := fp32.decode acc), ha]
  · rw [addGroup_float, exactSum_cons, ha, hs, hadd, ← hsnum, ← hnum]
    refine hround.of_ne_zero _ fun h0 => ?_
    rw [FVal.num_eq_zero_iff] at h0
    simp [FVal.NegZero, FVal.neg, FVal.isZero, h0]
end

/-! ### Sums of integer products -/

/-- The value is the integer `t`. -/
def FVal.IsInt (v : FVal) (t : Int) : Prop := ∃ n m, v = .fin n m 0 ∧ signedAt n m 0 0 = t

theorem signedAt_zero (n : Bool) (m : Nat) : signedAt n m 0 0 = if n then -(m : Int) else m := by
  simp [signedAt]

theorem intVal_isInt (t : Int) : (intVal t).IsInt t := by
  refine ⟨_, _, rfl, ?_⟩
  rw [signedAt_zero]
  by_cases h : t < 0
  · rw [if_pos (decide_eq_true h)]; omega
  · rw [if_neg (by simpa using h)]; omega

theorem FVal.IsInt.mul {v w : FVal} {t u : Int} (h : v.IsInt t) (h' : w.IsInt u) : (v.mul w).1.IsInt (t * u) := by
  obtain ⟨n, m, rfl, rfl⟩ := h
  obtain ⟨n', m', rfl, rfl⟩ := h'
  refine ⟨n != n', m * m', rfl, ?_⟩
  simp only [signedAt_zero]
  cases n <;> cases n' <;> simp

theorem FVal.IsInt.add {v w : FVal} {t u : Int} (h : v.IsInt t) (h' : w.IsInt u) : (v.add .rne w).1.IsInt (t + u) := by
  obtain ⟨n, m, rfl, rfl⟩ := h
  obtain ⟨n', m', rfl, rfl⟩ := h'
  unfold FVal.add
  simp only [min_self]
  generalize signedAt n m 0 0 + signedAt n' m' 0 0 = s
  by_cases hs : s = 0
  · rw [if_pos hs]
    exact ⟨_, _, rfl, by rw [signedAt_zero, hs]; simp⟩
  · rw [if_neg hs]
    exact intVal_isInt s

theorem sumFrom_isInt {α : Type} (val : α → FVal) (int : α → Int) (h : ∀ a, (val a).IsInt (int a)) : ∀ (l : List α) (v : FVal) (t : Int),
    v.IsInt t → (sumFrom v (l.map val)).IsInt (t + (l.map int).sum)
  | [], v, t, hv => by simpa [sumFrom] using hv
  | a :: l, v, t, hv => by
    have := sumFrom_isInt val int h l _ _ (hv.add (h a))
    rw [List.map_cons, sumFrom_cons, List.map_cons, List.sum_cons, ← add_assoc]
    exact this

theorem exactSum_isInt {α : Type} (val : α → FVal) (int : α → Int) (h : ∀ a, (val a).IsInt (int a)) :
    ∀ l : List α, (exactSum (l.map val)).IsInt (l.map int).sum
  | [] => ⟨false, 0, rfl, by simp [signedAt_zero]⟩
  | a :: l => sumFrom_isInt val int h l _ _ (h a)

theorem addGroup_isInt (acc : Nat) {ps : List FVal} {t : Int} (h : (exactSum ps).IsInt t) : addGroup true acc ps = ((acc + t) % 2 ^ 32).toNat := by
  obtain ⟨n, m, hs, ht⟩ := h
  simp only [addGroup, hs, ht, if_true]
  rfl

/-! ### Products (R52) -/

theorem FVal.inf_mul_zero {n : Bool} {v : FVal} (h : v.isZero = true) : ((FVal.inf n).mul v).1.isNan = true ∧ (v.mul (.inf n)).1.isNan = true := by
  cases v with
  | nan s => exact ⟨rfl, rfl⟩
  | inf k => exact Bool.noConfusion h
  | fin k m e =>
    simp only [FVal.mul, h, if_true]; exact ⟨rfl, rfl⟩

theorem FVal.inf_mul_fin (n k : Bool) {m : Nat} (e : Int) (hm : m ≠ 0) :
    ((FVal.inf n).mul (.fin k m e)).1 = .inf (n != k) ∧ ((FVal.fin k m e).mul (.inf n)).1 = .inf (n != k) := by
  simp [FVal.mul, FVal.isZero, FVal.neg, hm]

end Sys2Proof.Machine
end

section
/-! PROOFS. Numbers (02), part 14: the class of a value and the reciprocal estimate (R149, R150). -/
namespace Sys2Proof.Machine

/-! ### Classes (R149) -/

section
variable {f : Fmt} {x : Nat} {n : Bool} {m : Nat} {e : Int}

theorem fClass_nan (h : (f.decode x).isNan = true) : fClass f x = if (f.decode x).isSig then 8 else 9 := by
  obtain ⟨s, hs⟩ := FVal.isNan_iff.1 h
  simp only [fClass, hs]; rfl
theorem fClass_inf (h : f.decode x = .inf n) : fClass f x = if n then 0 else 7 := by simp only [fClass, h]
theorem fClass_fin (h : f.decode x = .fin n m e) : fClass f x =
    if m = 0 then (if n then 3 else 4) else if m < 2 ^ f.fb then (if n then 2 else 5) else (if n then 1 else 6) := by
  simp only [fClass, h]

/-- A finite value is subnormal by its magnitude when it is by its fraction. -/
theorem abs_num_lt_normal_iff (h : f.decode x = .fin n m e) : |(f.decode x).num| < (2 : ℝ) ^ f.emin ↔ m < 2 ^ f.fb := by
  obtain ⟨c, -, hmag, -, hsub⟩ := f.decode_fin_inv h
  rw [h, FVal.num_fin, abs_sgn_mul, hmag, abs_of_nonneg (magVal_nonneg ..), ← Fmt.magVal_normal, (magVal_strictMono ..).lt_iff_lt, hsub]

theorem fClass_zero (h : f.decode x = .fin n m e) (h0 : (f.decode x).num = 0) : fClass f x = if n then 3 else 4 := by
  rw [h, FVal.num_eq_zero_iff] at h0
  rw [fClass_fin h, if_pos h0]
theorem fClass_subnormal (h : f.decode x = .fin n m e) (h0 : (f.decode x).num ≠ 0) (hlt : |(f.decode x).num| < (2 : ℝ) ^ f.emin) :
    fClass f x = if n then 2 else 5 := by
  rw [abs_num_lt_normal_iff h] at hlt
  rw [h, ne_eq, FVal.num_eq_zero_iff] at h0
  rw [fClass_fin h, if_neg h0, if_pos hlt]
theorem fClass_normal (h : f.decode x = .fin n m e) (hge : (2 : ℝ) ^ f.emin ≤ |(f.decode x).num|) : fClass f x = if n then 1 else 6 := by
  rw [← not_lt, abs_num_lt_normal_iff h] at hge
  have : m ≠ 0 := by
    rintro rfl
    exact hge (by positivity)
  rw [fClass_fin h, if_neg this, if_neg hge]
end

/-! ### A format with a shorter fraction in the same container -/

/-- `g` is `f` with its lowest `d` fraction bits fixed at 0. -/
structure Fmt.Shortens (g f : Fmt) (d : Nat) : Prop where
  eb : g.eb = f.eb
  fb : f.fb = g.fb + d
  low : g.low = d + f.low

section
variable {f g : Fmt} {d : Nat} (h : g.Shortens f d)
include h

theorem Fmt.Shortens.width_eq : g.width = f.width := by
  unfold Fmt.width
  have := h.eb; have := h.fb; have := h.low
  omega

theorem Fmt.Shortens.bias_eq : g.bias = f.bias := by rw [Fmt.bias, Fmt.bias, h.eb]
theorem Fmt.Shortens.emin_eq : g.emin = f.emin := by rw [Fmt.emin, Fmt.emin, h.bias_eq]

theorem Fmt.Shortens.pattern_eq (n : Bool) (c : Nat) : g.pattern n c = f.pattern n (c * 2 ^ d) := by
  unfold Fmt.pattern
  rw [h.fb, h.low, h.eb]
  cases n <;> simp only [Bool.false_eq_true, if_false, if_true] <;> ring

theorem Fmt.Shortens.zero_eq (n : Bool) : g.zero n = f.zero n := by
  rw [Fmt.zero_eq, h.pattern_eq, Nat.zero_mul, Fmt.zero_eq]

theorem Fmt.Shortens.inf_eq (n : Bool) : g.inf n = f.inf n := by
  rw [Fmt.inf_eq, h.pattern_eq, Fmt.inf_eq, Fmt.infCode, Fmt.infCode, h.eb, h.fb, pow_add, Nat.mul_assoc]

/-- A finite pattern of the shorter format stands for the same number in the longer one. -/
theorem Fmt.Shortens.decode_fin {x : Nat} (hx : x % 2 ^ g.low = 0) {n : Bool} {m : Nat} {e : Int} (hdec : g.decode x = .fin n m e) :
    f.decode x = .fin n (m * 2 ^ d) (e - d) := by
  obtain ⟨y, rfl⟩ := Nat.dvd_of_mod_eq_zero hx
  have hpos : 0 < 2 ^ d := by positivity
  have hword : 2 ^ g.low * y / 2 ^ f.low % 2 ^ (1 + f.eb + f.fb) = 2 ^ g.low * y / 2 ^ g.low % 2 ^ (1 + g.eb + g.fb) * 2 ^ d := by
    rw [Nat.mul_div_cancel_left _ (by positivity), h.low, pow_add, Nat.mul_comm (2 ^ d), Nat.mul_assoc, Nat.mul_div_cancel_left _ (by positivity),
      h.fb, h.eb, ← Nat.add_assoc, pow_add _ _ d, Nat.mul_comm (2 ^ d) y, Nat.mul_mod_mul_right]
  have hdiv : ∀ w k : Nat, w * 2 ^ d / 2 ^ (k + d) = w / 2 ^ k := fun w k => by rw [pow_add, Nat.mul_div_mul_right _ _ hpos]
  have hmod : ∀ w k : Nat, w * 2 ^ d % 2 ^ (k + d) = w % 2 ^ k * 2 ^ d := fun w k => by rw [pow_add, Nat.mul_mod_mul_right]
  unfold Fmt.decode at hdec ⊢
  rw [hword, h.fb, ← Nat.add_assoc]
  simp only [hdiv, hmod]
  rw [h.eb] at hdec ⊢
  rw [h.emin_eq, h.bias_eq] at hdec
  generalize 2 ^ g.low * y / 2 ^ g.low % 2 ^ (1 + f.eb + g.fb) = w at hdec ⊢
  dsimp only at hdec ⊢
  split at hdec
  · split at hdec <;> exact FVal.noConfusion hdec
  · rename_i hex
    rw [if_neg hex]
    split at hdec
    all_goals
      rename_i h0
      obtain ⟨rfl, rfl, rfl⟩ := FVal.fin.inj hdec
    · rw [if_pos h0]; congr 1; push_cast; ring
    · rw [if_neg h0]; congr 1
      · ring
      · push_cast; ring
end

theorem FVal.num_lengthen (n : Bool) (m : Nat) (e : Int) (d : Nat) : (FVal.fin n (m * 2 ^ d) (e - d)).num = (FVal.fin n m e).num := by
  rw [FVal.num_fin, FVal.num_fin]
  push_cast
  rw [mul_assoc (m : ℝ), two_pow_mul_zpow, add_sub_cancel]

/-! ### The reciprocal (R150) -/

/-- The format that a reciprocal is rounded to. -/
def rcpFmt (f : Fmt) : Fmt := { eb := f.eb, fb := 7, low := f.fb - 7 + f.low }

theorem rcpFmt_shortens {f : Fmt} (h : 7 ≤ f.fb) : (rcpFmt f).Shortens f (f.fb - 7) := ⟨rfl, (Nat.add_sub_cancel' h).symm, rfl⟩
theorem rcpFmt_ok {f : Fmt} (h : f.Ok) : (rcpFmt f).Ok := ⟨h.eb, show 1 ≤ 7 by decide⟩

theorem seven_le_fb {f : Fmt} (h : f ∈ [fp64, fp32, fp16, bf16, e8m10]) : 7 ≤ f.fb := by
  simp only [List.mem_cons, List.not_mem_nil, or_false] at h
  rcases h with rfl | rfl | rfl | rfl | rfl <;> decide

section
variable {f : Fmt} {x : Nat} {n : Bool} {m : Nat} {e : Int}

theorem fRcpe_nan (h : (f.decode x).isNan = true) : fRcpe f x = (f.nan, { nv := (f.decode x).isSig }) := by
  obtain ⟨s, hs⟩ := FVal.isNan_iff.1 h
  simp only [fRcpe, hs]; rfl

theorem fRcpe_inf (hfb : 7 ≤ f.fb) (h : f.decode x = .inf n) : fRcpe f x = (f.zero n, {}) := by
  have hr : fRcpe f x = ((rcpFmt f).zero (n != false), {}) := by simp only [fRcpe, h]; rfl
  rw [hr, (rcpFmt_shortens hfb).zero_eq, Bool.bne_false]

theorem fRcpe_fin (h : f.decode x = .fin n m e) : fRcpe f x =
    ((fDivV (rcpFmt f) .rtz (.fin false 1 0) (.fin n m e)).1, { (fDivV (rcpFmt f) .rtz (.fin false 1 0) (.fin n m e)).2 with nx := false }) := by
  simp only [fRcpe, h]; rfl

theorem fRcpe_zero (hfb : 7 ≤ f.fb) (h : f.decode x = .fin n m e) (h0 : (f.decode x).num = 0) : fRcpe f x = (f.inf n, { dz := true }) := by
  rw [h, FVal.num_eq_zero_iff] at h0
  rw [fRcpe_fin h, h0]
  have hdiv : fDivV (rcpFmt f) .rtz (.fin false 1 0) (.fin n 0 e) = ((rcpFmt f).inf (false != n), { dz := true }) := rfl
  rw [hdiv, (rcpFmt_shortens hfb).inf_eq, Bool.false_bne]

/-- R150: the reciprocal toward zero with 7 fraction bits. -/
theorem fRcpe_spec (ok : f.Ok) (hfb : 7 ≤ f.fb) (h : f.decode x = .fin n m e) (h0 : (f.decode x).num ≠ 0) :
    let v := f.decode x
    let o := fRcpe f x
    ∃ r, RoundsTo (OnGrid 8 (some (f.emin - 7))) .rtz (1 / v.num) r ∧ o.1 < 2 ^ f.width ∧ ∃ q j, f.decode o.1 = .fin n q j ∧
      ((2 : ℝ) ^ (f.bias + 1) ≤ |r| → |(f.decode o.1).num| = 255 * (2 : ℝ) ^ ((f.bias : Int) - 7) ∧ o.2 = { of := true }) ∧
      (|r| < (2 : ℝ) ^ (f.bias + 1) → (f.decode o.1).num = r ∧ o.2 = { uf := o.2.uf } ∧
        (o.2.uf = true ↔ r ≠ 1 / v.num ∧ ∃ u, RoundsTo (OnGrid 8 none) .rtz (1 / v.num) u ∧ |u| < (2 : ℝ) ^ f.emin)) := by
  intro v o
  have hs := rcpFmt_shortens hfb
  have hv : v = .fin n m e := h
  have hm : m ≠ 0 := by rwa [h, ne_eq, FVal.num_eq_zero_iff] at h0
  have hdiv := fDivV_fin (rcpFmt_ok ok) .rtz false n 1 0 e hm
  have hone : (FVal.fin false 1 0).num = 1 := by simp [FVal.num_fin]
  have ho : o = _ := fRcpe_fin h
  rw [hone, ← hv] at hdiv
  rw [← hv] at ho
  clear_value o
  subst ho
  generalize fDivV (rcpFmt f) .rtz (.fin false 1 0) v = w at hdiv ⊢
  obtain ⟨w, ev⟩ := w
  obtain ⟨hlt, hlow, r, k, hround, hneg, hpos, -, hover, hfin⟩ := hdiv
  rw [hs.bias_eq] at hover hfin
  have hk : k = n := by
    have hnz : v.num ≠ 0 := h0
    rw [hv] at hneg hpos hnz
    cases n with
    | false => exact hpos (one_div_pos.2 ((FVal.num_nonneg m e).lt_of_ne' hnz))
    | true => exact hneg (one_div_neg.2 ((FVal.num_nonpos m e).lt_of_ne hnz))
  subst hk
  refine ⟨r, hround, hs.width_eq ▸ hlt, ?_⟩
  rcases le_or_gt ((2 : ℝ) ^ (f.bias + 1)) |r| with hge | hsmall
  · obtain ⟨rfl, hdec⟩ := hover hge
    rw [if_pos (.inl rfl)] at hdec
    have hf := hs.decode_fin hlow hdec
    refine ⟨_, _, hf, fun _ => ⟨?_, rfl⟩, fun hlt => absurd hge (not_le.2 hlt)⟩
    have hmax : ((2 ^ ((rcpFmt f).fb + 1) - 1 : Nat) : ℝ) = 255 := by
      rw [show (rcpFmt f).fb = 7 from rfl]; norm_num
    rw [hf, FVal.num_lengthen, FVal.num_fin, abs_sgn_mul, hmax]
    exact abs_of_nonneg (mul_nonneg (by norm_num) (two_zpow_pos _).le)
  · obtain ⟨⟨q, j, hdec⟩, hnum, hev, -, huf⟩ := hfin hsmall
    have hf := hs.decode_fin hlow hdec
    refine ⟨_, _, hf, fun hge => absurd hge (not_le.2 hsmall), fun _ => ⟨?_, ?_, huf⟩⟩
    · rw [hf, FVal.num_lengthen, ← hnum, hdec]
    · rw [show ev = _ from hev]
end

end Sys2Proof.Machine
end

section
/-! PROOFS. Numbers (02), part 15: values of blocks, of source elements and of operand rows, conversions (R42, R48, R51, R159), and the
statement of the number functions. -/
namespace Sys2Proof.Machine

/-! ### Zeros and negative values in a slot (R41) -/

theorem MSlot.encode_zero (a : MSlot) (rm : RMode) (n : Bool) (e : Int) : a.encode rm (.fin n 0 e) = (a.signBits n, {}) := rfl

theorem MSlot.encode_negative {a : MSlot} (rm : RMode) {m : Nat} (e : Int) (hm : m ≠ 0) (hs : a.s = false) :
    a.encode rm (.fin true m e) = (0, { sat := true, nx := true }) := by
  unfold MSlot.encode
  simp only [if_neg hm, hs, Bool.not_false, Bool.and_self, if_true]

/-! ### Blocks (R16, R42) -/

section
variable {f : Word} {hd : Nat}

theorem blockValue_of_undefined (h : (slotOf f (hd / 64 % 4)).v = false) (x : Nat) :
    blockUndefined f hd = true ∧ blockValue f hd x = .fin false 0 0 := by
  simp only [blockUndefined, blockValue, h, Bool.not_false, Bool.false_eq_true, if_false, and_self]

theorem blockValue_of_defined (h : (slotOf f (hd / 64 % 4)).v = true) (x : Nat) : blockUndefined f hd = false ∧
    blockValue f hd x = ((slotOf f (hd / 64 % 4)).decode x).scale (((hd % 64 : Nat) : Int) - 32) := by
  simp only [blockUndefined, blockValue, h, Bool.not_true, if_true, and_self]
end

/-! ### Conversions of elements (R51, R159) -/

theorem sourceValue_block {t : VT} (h : Hart) (a ah i : Nat) (hc : t.cls = 5) : sourceValue h t a ah i =
    (blockValue h.fmtReg (elemOf ah 8 (i / 32)) (elemOf a t.ew i), { nv := blockUndefined h.fmtReg (elemOf ah 8 (i / 32)) }) := if_pos hc

theorem sourceValue_float {t : VT} (h : Hart) (a ah i : Nat) (hf : t.isFloat = true) :
    sourceValue h t a ah i = (t.fmt.decode (elemOf a t.ew i), {}) := by
  have hc : t.cls ≠ 5 := by
    rintro hc
    simp [VT.isFloat, hc] at hf
  simp only [sourceValue, if_neg hc, hf, if_true]

theorem sourceValue_int {t : VT} (h : Hart) (a ah i : Nat) (hi : t.isInt = true) :
    sourceValue h t a ah i = (intVal (if t.isSigned then sextI (elemOf a t.ew i) t.ew else elemOf a t.ew i), {}) := by
  have hc : t.cls ≤ 1 := of_decide_eq_true hi
  have hf : t.isFloat = false := by
    rw [VT.isFloat, Bool.and_eq_false_iff, decide_eq_false_iff_not]; omega
  have hmod : elemOf a t.ew i % 2 ^ t.ew = elemOf a t.ew i := Nat.mod_mod _ _
  simp only [sourceValue, if_neg (by omega : t.cls ≠ 5), hf, Bool.false_eq_true, if_false, sourceValue.readInt, hmod]
  rfl

/-- An integer element converted to an integer target. -/
theorem convertElem_int {t : VT} (sat sg : Bool) (w x : Nat) (ev : Ev) (hi : t.isInt = true) (z : Int) :
    convertElem t sat (.int sg w) x (intVal z, ev) = if w = t.ew then (x, {})
      else if sat then (((if z < intLo sg w then intLo sg w else if intHi sg w < z then intHi sg w else z) % 2 ^ w).toNat,
        { sat := decide (z < intLo sg w) || decide (intHi sg w < z) })
      else ((z % 2 ^ w).toNat, {}) := by
  have hz : (if decide (z < 0) = true then -(z.natAbs : Int) else z.natAbs) = z := by
    by_cases h : z < 0
    · rw [if_pos (decide_eq_true h)]; omega
    · rw [if_neg (by simpa using h)]; omega
  simp only [convertElem, hi, intVal, if_true, hz]
  rfl

theorem convertElem_toInt {t : VT} (sat sg : Bool) (w x : Nat) (v : FVal) (ev : Ev) (hi : t.isInt = false) :
    convertElem t sat (.int sg w) x (v, ev) = ((fToInt t.rm sg w v).1, (fToInt t.rm sg w v).2.or ev) := by
  simp only [convertElem, hi, Bool.false_eq_true, if_false]

theorem convertElem_float (t : VT) (sat : Bool) (f : Fmt) (x : Nat) (v : FVal) (ev : Ev) :
    convertElem t sat (.flt f) x (v, ev) = ((v.roundTo f t.rm).1, (v.roundTo f t.rm).2.or ev) := rfl

/-! ### Operand classes (R42, R43, R48) -/

theorem opValue_block {c : Nat} (f : Word) (row hdr k : Nat) (h8 : 8 ≤ c) :
    opValue c f row hdr k = blockValue f (elemOf hdr 8 (k / 32))
      (elemOf row (containerOf (if c < 15 then c - 6 else c - 11)) k % 2 ^ (if c < 15 then c - 6 else c - 11)) := by
  obtain ⟨j, rfl⟩ := Nat.exists_eq_add_of_le' h8
  rfl

/-! ### Products (R52) -/

theorem FVal.mul_isNan {a b : FVal} (h : a.isNan = true ∨ b.isNan = true ∨ (∃ n, a = .inf n ∧ b.isZero = true) ∨ (∃ n, b = .inf n ∧ a.isZero = true)) :
    (a.mul b).1.isNan = true := by
  rcases h with h | h | ⟨n, rfl, h⟩ | ⟨n, rfl, h⟩
  · rw [FVal.mul_nan (.inl h)]; rfl
  · rw [FVal.mul_nan (.inr h)]; rfl
  · exact (FVal.inf_mul_zero h).1
  · exact (FVal.inf_mul_zero h).2

/-! ### The statement -/

/-- Settles O10: the codes, the roundings and the sums above, clause by clause. -/
theorem numberFunctions : Obligations.NumberFunctions := by
  unfold Obligations.NumberFunctions
  refine ⟨?slots, ?blocks, ?sources, ?conversions, ?operands, ?products, ?groups, ?integers, ?classes⟩
  case slots =>
    intro sl rm h1 h2 m emin ones full
    have ok : sl.Ok := ⟨h1, h2⟩
    have hones : ones + 1 = 2 ^ sl.magBits := Nat.sub_add_cancel Nat.one_le_two_pow
    refine ⟨fun c => ?_, rfl, fun y => ⟨?_, ?_, ?_⟩, fun vals => chooseSE_spec ok vals⟩
    · rw [hones]
      exact MSlot.decode_spec ok c
    · rintro sig rfl; rfl
    · rintro n rfl; rfl
    · rintro n q e rfl
      refine ⟨?_, ?_, fun hq hn => MSlot.encode_spec ok rm e hq hn⟩
      · rintro rfl
        exact sl.encode_zero rm n e
      · rintro hq rfl hs
        exact MSlot.encode_negative rm e hq hs
  case blocks =>
    intro f hd x
    refine ⟨fun h => blockValue_of_undefined h x, fun h => ?_⟩
    obtain ⟨hdef, hval⟩ := blockValue_of_defined h x
    refine ⟨hdef, fun sig hs => ?_, fun n q e hs => ?_⟩
    · rw [hval, hs]; rfl
    · rw [hval, hs]
      exact ⟨⟨_, _, rfl⟩, FVal.num_scale ..⟩
  case sources => exact fun h t a ah i => ⟨sourceValue_block h a ah i, sourceValue_float h a ah i, sourceValue_int h a ah i⟩
  case conversions =>
    intro t sat sg x v ev
    refine ⟨?_, ?_⟩
    · intro w _ lo hi enc o
      refine ⟨?_, fun hint => ?_⟩
      · rintro hint z rfl
        exact convertElem_int sat sg w x ev hint z
      · have ho : o = _ := convertElem_toInt sat sg w x v ev hint
        obtain ⟨hnan, hinf, hfin⟩ := fToInt_spec t.rm sg w v
        refine ⟨fun h => ?_, fun n h => ?_, fun n m e h => ?_⟩
        · rw [ho, hnan h]
        · rw [ho, hinf n h]; rfl
        · obtain ⟨r, hround, hlo, hhi, hin⟩ := hfin n m e h
          refine ⟨r, hround, fun hr => ?_, fun hr => ?_, fun h1 h2 => ?_⟩
          · rw [ho, hlo hr]; rfl
          · rw [ho, hhi hr]; rfl
          · obtain ⟨nx, heq, hnx⟩ := hin h1 h2
            rw [ho, heq]
            exact ⟨rfl, nx, rfl, hnx⟩
    · intro f hf o
      refine ⟨?_, ?_, ?_⟩
      · rintro sig rfl; rfl
      · rintro n rfl
        have : o = (f.inf n, ({} : Ev).or ev) := rfl
        rw [this]
        simp [Ev.or]
      · rintro n m e rfl
        exact ⟨_, fin_roundTo_isRounded (Fmt.ok_of_mem hf), rfl⟩
  case operands =>
    intro c f row hdr k x
    refine ⟨?_, fun h8 _ => opValue_block f row hdr k h8⟩
    simp only [List.forall_mem_cons, List.not_mem_nil, false_imp_iff, implies_true, and_true]
    refine ⟨?_, ?_, ?_, ?_, ?_, ?_, ?_, ?_⟩ <;> rintro rfl <;> rfl
  case products =>
    intro a b o
    refine ⟨FVal.mul_isNan, ?_, ?_, ?_⟩
    · rintro n m q e rfl rfl hq
      exact FVal.inf_mul_fin n m e hq
    · rintro n m rfl rfl; rfl
    · rintro n q e n' q' e' rfl rfl
      exact ⟨⟨_, _, rfl⟩, FVal.mul_num ..⟩
  case groups =>
    intro acc ps hps
    dsimp only
    obtain ⟨p, l, rfl⟩ := List.exists_cons_of_ne_nil hps
    refine ⟨fun h => addGroup_nan ?_, fun n h hn => addGroup_inf h hn, fun h => addGroup_fin h⟩
    rcases h with h | h | h | h
    · exact .inl h
    · exact .inr (.inl (.inl h))
    · exact .inr (.inr h)
    · exact .inr (.inl (.inr h))
  case integers =>
    intro acc ps
    have hsum := exactSum_isInt (fun p : Int × Int => ((intVal p.1).mul (intVal p.2)).1) (fun p => p.1 * p.2)
      (fun p => (intVal_isInt p.1).mul (intVal_isInt p.2)) ps
    exact addGroup_isInt acc hsum
  case classes =>
    intro f hf x v o
    have ok := Fmt.ok_of_mem hf
    have hfb := seven_le_fb hf
    refine ⟨fun h => ⟨fClass_nan h, fRcpe_nan h⟩, fun n h => ⟨fClass_inf h, fRcpe_inf hfb h⟩, fun n m e h => ?_⟩
    exact ⟨fun h0 => ⟨fClass_zero h h0, fRcpe_zero hfb h h0⟩, fClass_subnormal h, fClass_normal h, fRcpe_spec ok hfb h⟩

end Sys2Proof.Machine
end

section
/-! PROOFS. The encoding (03), part 1: decoding and encoding agree both ways (R60 to R80). -/
namespace Sys2Proof.Laws.OwnWord

/-- Every instruction has its lemma; they stand in the order of the constructors. -/
theorem rawDecode_encode (i : Instr) : Statement i :=
  @Instr.rec Statement
    mul mulh mulhn div divn rem remn fadd fsub fmul fma fdiv fsqrt fmin fmax fcmpEq fcmpLt fcmpLe fcmpUn fcvtTos64 fcvtTon64 fcvtFroms64
    fcvtFromn64 fcvtTofp fcvtTos32 fcvtTon32 trap eret brk halt wfe sysget sysput fenceAcq fenceRel fenceSv fenceFull lsync invR invRo
    fork join vrelease vacquire gbar launch yield cpNd cpMc cpWait cpBind barInit barArrive barWait zbind zrd zpeek zsave zrest zloop
    plOpen plTerm plRun plProbe plStat tkInit tkIns tkFuse tkDrain tkThr pyLd pyLdv pyApp pyDef pyComb pyStat pyResume vsetl vsett
    vaddVv vsubVv vrsubVv vmulVv vmulhVv vmaccVv vminVv vmaxVv vandVv vorVv vxorVv vsllVv vsrlVv vsraVv vadcVv vsbcVv vsaddVv vssubVv
    vaddVx vsubVx vrsubVx vmulVx vmulhVx vmaccVx vminVx vmaxVx vandVx vorVx vxorVx vsllVx vsrlVx vsraVx vadcVx vsbcVx vsaddVx vssubVx
    vaddVi vsubVi vrsubVi vmulVi vmulhVi vmaccVi vminVi vmaxVi vandVi vorVi vxorVi vsllVi vsrlVi vsraVi vadcVi vsbcVi vsaddVi vssubVi
    vfaddVv vfsubVv vfmulVv vfmaVv vfmsVv vfdivVv vfsqrt vfminVv vfmaxVv vfclass vfrcpe vfaddVx vfsubVx vfmulVx vfmaVx vfmsVx vfdivVx
    vfminVx vfmaxVx vcmpEqVv vcmpNeVv vcmpLtVv vcmpLeVv vcmpGtVv vcmpGeVv vfcmpEqVv vfcmpNeVv vfcmpLtVv vfcmpLeVv vcmpEqVx vcmpNeVx
    vcmpLtVx vcmpLeVx vcmpGtVx vcmpGeVx vfcmpEqVx vfcmpNeVx vfcmpLtVx vfcmpLeVx kand kor kxor knot kshl1 kshr1 kpopc kfirst kmv vmerge
    vbcast vslideup vslidedn vrgather vcompress vexpand vpermblk vredSum vredOsum vredMax vredMin vredAnd vredOr vstrip vcvt vwiden
    vnarrow vld vlds vldz vldb vst vsts vstb vldx vldc vstxO vstxU vstc vgll vscc vlock vunlock winDecl vscaddWin winMerge vscadd crDecl
    crDrop vmv vmvS vext qput qget mattach mdetach oClaim oRelease mzero mfmt mskip mop msliceRd msliceWr msliceRdExp mld mldP mst add
    sub and or xor sll srl sra slt sltn min max minn maxn clz ctz popc addi andi ori xori slli srli srai slti lui auipc ldS8 ldN8 ldS16
    ldN16 ldS32 ldN32 ld64 st8 st16 st32 st64 amoAdd amoAnd amoOr amoXor amoMin amoMinn amoMax amoMaxn amoSwap cas bEq bNe bLt bGe bLtn
    bGen bBs bBc j jal jalr mopStepEnd issueArbitration yieldExpiry wfeWake wfeTimeout vacquireGrant quadReservationTimeout ssbDrain
    psfDrain cpfDrain ownerLostTrap l1Eviction sliceEviction controllerWriteIssue linkDelivery rd rdv reg wrv atom ereg ewr gnt xfer fwd
    nakl collect claim wb xack fack part claimr combineBufferEviction copyEnd globalPauseEnd riddleOffer riddleRunEnd probeEnd
    annealOperationStart mergePublication horizonDiscard mergeAbandon crucibleSlotTick skipCurAdjust startCounterReread
    startCounterPollTimeout taskPlacement hartStart hartStop coreSaveBegin coreSaveComplete restoreComplete taskEnd pageFaultResolved
    submit faultpop resolve postpop answer errpop verdict eventpop registerWrite hostWrite hostRead saveAreaAccess partdef ptroot vmap
    shoot slottab mode savearea saveopen guardtab kex key winbind task clearlost race peer errorDetected selfTestComplete flitReplay
    remoteAccessTimeout reset bootWatchdogExpiry illegalWord fetchFault engineWrite remoteRequest linkDown linkRetrainComplete
    malformedCommand
    i

end Sys2Proof.Laws.OwnWord

namespace Sys2Proof.Machine
open Laws.OwnWord (rawDecode_encode)

/-! ### The checks of the decoder (R61, R80) -/

theorem decodeWord_eq_some_iff {w : IWord} {i : Instr} :
    decodeWord w = some i ↔ rawDecode w = some i ∧ i.wf = true ∧ encode i = w := by
  unfold decodeWord
  cases rawDecode w with
  | none => simp only [reduceCtorEq, false_and]
  | some j =>
    simp only [Option.ite_none_right_eq_some, Option.some.injEq, Bool.and_eq_true, beq_iff_eq]
    constructor
    · rintro ⟨⟨hwf, hw⟩, rfl⟩
      exact ⟨rfl, hwf, hw⟩
    · rintro ⟨rfl, hwf, hw⟩
      exact ⟨⟨hwf, hw⟩, rfl⟩

theorem decodeWord_of_encode {w : IWord} {i : Instr} (hword : i.isWord = true) (hwf : i.wf = true) (hw : encode i = w) :
    decodeWord w = some i :=
  decodeWord_eq_some_iff.2 ⟨hw ▸ rawDecode_encode i hword, hwf, hw⟩

theorem decodeWord_of_rawDecode_none {w : IWord} (h : rawDecode w = none) : decodeWord w = none := by
  unfold decodeWord
  rw [h]

/-- A word that is not the own word of the instruction its function codes select is no instruction (R61). -/
theorem decodeWord_of_encode_ne {w : IWord} {i : Instr} (h : rawDecode w = some i) (hne : encode i ≠ w) : decodeWord w = none := by
  simp only [decodeWord, h, beq_eq_false_iff_ne.2 hne, Bool.and_false, Bool.false_eq_true, if_false]

/-! ### Device steps and unassigned majors (R63) -/

/-- Every instruction is a word, or a device step, which has no bits. -/
theorem isWord_or_encode_zero (i : Instr) : (i.isWord || encode i == 0#32) = true := by
  cases i <;> rfl

theorem rawDecode_unassigned {w : IWord}
    (h : (fld w 26 6).toNat = 0 ∨ (27 ≤ (fld w 26 6).toNat ∧ (fld w 26 6).toNat ≤ 31) ∨ 52 ≤ (fld w 26 6).toNat) :
    rawDecode w = none := by
  unfold rawDecode
  split
  rotate_right
  · rfl
  all_goals omega

theorem isWord_of_rawDecode {i : Instr} (h : rawDecode (encode i) = some i) : i.isWord = true := by
  rcases Bool.or_eq_true_iff.1 (isWord_or_encode_zero i) with hword | hzero
  · exact hword
  · rw [beq_iff_eq.1 hzero, rawDecode_unassigned (.inl rfl)] at h
    contradiction

/-! ### The statements -/

/-- Settles O2: the function codes of an own word select its instruction; a device step has the word 0, which selects nothing. -/
theorem decodeEncode : Obligations.DecodeEncode := by
  unfold Obligations.DecodeEncode
  refine ⟨fun i hword hwf => decodeWord_of_encode hword hwf rfl, fun w i h => ?_,
    fun w h => decodeWord_of_rawDecode_none (rawDecode_unassigned h)⟩
  obtain ⟨hraw, hwf, rfl⟩ := decodeWord_eq_some_iff.1 h
  exact ⟨rfl, hwf, isWord_of_rawDecode hraw⟩

/-- Settles O1: each word is the own word of its instruction. -/
theorem decodeSanity : Obligations.DecodeSanity := by
  unfold Obligations.DecodeSanity
  refine ⟨?_, ?_, ?_, ?_, ?_, ?_⟩ <;> exact decodeWord_of_encode rfl rfl (by decide)

end Sys2Proof.Machine
end

section
/-! PROOFS. The encoding (03), part 2: words that are no instruction (R58, R71, R80, R176). -/
namespace Sys2Proof.Machine
open Laws.OwnWord (raw_42 raw_43 raw_44 ext_lo ext_hi ext_self isOne_bit1)

/-! ### Words of the vector format (R60) -/

/-- A word of the vector format: major, D, A, B, K, T, function, C. -/
def vword (m : BitVec 6) (d a b : Reg) (k : BitVec 3) (t : BitVec 1) (f : BitVec 6) (c : BitVec 1) : IWord :=
  m ++ d ++ a ++ b ++ k ++ t ++ f ++ c

section
variable (m m' : BitVec 6) (d d' a a' b b' : Reg) (k k' : BitVec 3) (t t' : BitVec 1) (f f' : BitVec 6) (c c' : BitVec 1)

theorem vword_or : vword m d a b k t f c ||| vword m' d' a' b' k' t' f' c' =
    vword (m ||| m') (d ||| d') (a ||| a') (b ||| b') (k ||| k') (t ||| t') (f ||| f') (c ||| c') := by
  show (_ : BitVec (6 + 5 + 5 + 5 + 3 + 1 + 6 + 1)) ||| _ = _
  simp only [vword, BitVec.or_append]

theorem vword_and : vword m d a b k t f c &&& vword m' d' a' b' k' t' f' c' =
    vword (m &&& m') (d &&& d') (a &&& a') (b &&& b') (k &&& k') (t &&& t') (f &&& f') (c &&& c') := by
  show (_ : BitVec (6 + 5 + 5 + 5 + 3 + 1 + 6 + 1)) &&& _ = _
  simp only [vword, BitVec.and_append]

theorem vword_major : fld (vword m d a b k t f c) 26 6 = m := by
  simp (disch := omega) only [vword, fld, ext_hi, Nat.reduceSub, ext_self]

theorem vword_mask : fld (vword m d a b k t f c) 8 3 = k := by
  simp (disch := omega) only [vword, fld, ext_lo, ext_hi, Nat.reduceSub, ext_self]

theorem vword_function : fld (vword m d a b k t f c) 1 6 = f := by
  simp (disch := omega) only [vword, fld, ext_lo, ext_hi, Nat.reduceSub, ext_self]

/-- Major and function alone. -/
theorem vword_and_function : vword m d a b k t f c &&& 0xFC00007E#32 = vword m 0#5 0#5 0#5 0#3 0#1 f 0#1 := by
  have hmask : 0xFC00007E#32 = vword (BitVec.allOnes 6) 0#5 0#5 0#5 0#3 0#1 (BitVec.allOnes 6) 0#1 := rfl
  simp only [hmask, vword_and, BitVec.and_allOnes, BitVec.and_zero]

/-- The word without its mask. -/
theorem vword_and_unmasked : vword m d a b k t f c &&& 0xFFFFF8FF#32 = vword m d a b 0#3 t f c := by
  have hmask : 0xFFFFF8FF#32 = vword (BitVec.allOnes 6) (BitVec.allOnes 5) (BitVec.allOnes 5) (BitVec.allOnes 5) 0#3 (BitVec.allOnes 1)
    (BitVec.allOnes 6) (BitVec.allOnes 1) := rfl
  simp only [hmask, vword_and, BitVec.and_allOnes, BitVec.and_zero]

/-- The word without its bit S. -/
theorem vword_and_unsaturated : vword m d a b k t f c &&& 0xFFFFFFFD#32 = vword m d a b k t (f &&& 0x3E#6) c := by
  have hmask : 0xFFFFFFFD#32 = vword (BitVec.allOnes 6) (BitVec.allOnes 5) (BitVec.allOnes 5) (BitVec.allOnes 5) (BitVec.allOnes 3)
    (BitVec.allOnes 1) 0x3E#6 (BitVec.allOnes 1) := rfl
  simp only [hmask, vword_and, BitVec.and_allOnes]

/-- A mask laid over a word without one. -/
theorem vword_or_mask : vword m d a b 0#3 t f c ||| k.setWidth 32 <<< 8 = vword m d a b k t f c := by
  have hk : ∀ k : BitVec 3, k.setWidth 32 <<< 8 = vword 0#6 0#5 0#5 0#5 k 0#1 0#6 0#1 := by decide
  simp only [hk, vword_or, BitVec.or_zero, BitVec.zero_or]

/-- Bit S laid over a word without it. -/
theorem vword_or_saturating : vword m d a b k t f c ||| 2#32 = vword m d a b k t (f ||| 1#6) c := by
  have hbit : 2#32 = vword 0#6 0#5 0#5 0#5 0#3 0#1 1#6 0#1 := rfl
  simp only [hbit, vword_or, BitVec.or_zero]

theorem vword_and_mask_ne_zero (hk : k ≠ 0#3) : (vword m d a b k t f c &&& 0x700#32 != 0#32) = true := by
  have hmask : 0x700#32 = vword 0#6 0#5 0#5 0#5 (BitVec.allOnes 3) 0#1 0#6 0#1 := rfl
  rw [bne_iff_ne, hmask, vword_and]
  intro h0
  have h := congrArg (fld · 8 3) h0
  simp only [vword_mask, BitVec.and_allOnes] at h
  exact hk h

end

/-! ### The conversions and the unit-stride memory words, as the vector stream reads them -/

/-- The decoder of the vector stream reads these majors as `decodeWord` does. -/
theorem decodeJoin_eq_decodeWord {w : IWord} (h : fld w 26 6 = 42#6 ∨ fld w 26 6 = 43#6 ∨ fld w 26 6 = 44#6) :
    decodeJoin w = decodeWord w := by
  unfold decodeJoin decodeWord
  rcases h with h | h | h
  · rw [raw_42 h, h]; rfl
  · rw [raw_43 h, h]; rfl
  · rw [raw_44 h, h]; rfl

theorem rawDecode_vwiden_saturating (d a b : Reg) (k : BitVec 3) (t c : Bool) :
    rawDecode (vword 42#6 d a b k (bit1 t) 17#6 (bit1 c)) = some (.vwiden d a b k t c) := by
  rw [raw_42 (vword_major ..), decVCvt]
  simp (disch := omega) only [vword, fld, ext_lo, ext_hi, Nat.reduceSub, ext_self, isOne_bit1]
  rfl

theorem rawDecode_vldb_masked (d a b : Reg) (k : BitVec 3) (t c : Bool) :
    rawDecode (vword 43#6 d a b k (bit1 t) 3#6 (bit1 c)) = some (.vldb d a b t c) := by
  rw [raw_43 (vword_major ..), decVLd]
  simp (disch := omega) only [vword, fld, ext_lo, ext_hi, Nat.reduceSub, ext_self, isOne_bit1]
  rfl

theorem rawDecode_vstb_masked (d a b : Reg) (k : BitVec 3) (t c : Bool) :
    rawDecode (vword 44#6 d a b k (bit1 t) 3#6 (bit1 c)) = some (.vstb d a b t c) := by
  rw [raw_44 (vword_major ..), decVSt]
  simp (disch := omega) only [vword, fld, ext_lo, ext_hi, Nat.reduceSub, ext_self, isOne_bit1]
  rfl

/-! ### The two words with an operand of a wrong type (R71, R176) -/

theorem vwiden_saturating_typeIllegal {d a b : Reg} {k : BitVec 3} {t c : Bool} (hwf : (Instr.vwiden d a b k t c).wf = true) :
    decodeWord (encode (.vwiden d a b k t c) ||| 2#32) = none ∧ typeIllegalWord (encode (.vwiden d a b k t c) ||| 2#32) = true := by
  have henc : encode (.vwiden d a b k t c) = vword 42#6 d a b k (bit1 t) 16#6 (bit1 c) := rfl
  have hword : encode (.vwiden d a b k t c) ||| 2#32 = vword 42#6 d a b k (bit1 t) 17#6 (bit1 c) := by
    rw [henc, vword_or_saturating]; rfl
  have hjoin : (decodeJoin (vword 42#6 d a b k (bit1 t) 16#6 (bit1 c))).isSome = true := by
    rw [decodeJoin_eq_decodeWord (.inl (vword_major ..)), decodeWord_of_encode rfl hwf henc]; rfl
  rw [hword]
  constructor
  · refine decodeWord_of_encode_ne (rawDecode_vwiden_saturating ..) fun h => ?_
    have hf := congrArg (fld · 1 6) (henc.symm.trans h)
    simp only [vword_function] at hf
    contradiction
  · unfold typeIllegalWord
    rw [vword_and_function, vword_and_unsaturated, show 17#6 &&& 0x3E#6 = 16#6 from rfl, hjoin]
    rfl

/-- A blocked load or store, here of major `m`, with a mask. -/
theorem blocked_masked_typeIllegal {i : Instr} {m : BitVec 6} {d a b : Reg} {k : BitVec 3} {t c : Bool}
    (hm : m = 43#6 ∨ m = 44#6) (henc : encode i = vword m d a b 0#3 (bit1 t) 3#6 (bit1 c))
    (hraw : rawDecode (vword m d a b k (bit1 t) 3#6 (bit1 c)) = some i) (hword : i.isWord = true) (hwf : i.wf = true) (hk : k ≠ 0#3) :
    decodeWord (encode i ||| k.setWidth 32 <<< 8) = none ∧ typeIllegalWord (encode i ||| k.setWidth 32 <<< 8) = true := by
  have hjoin : (decodeJoin (vword m d a b 0#3 (bit1 t) 3#6 (bit1 c))).isSome = true := by
    rw [decodeJoin_eq_decodeWord (.inr (by rwa [vword_major])), decodeWord_of_encode hword hwf henc]; rfl
  rw [henc, vword_or_mask]
  constructor
  · refine decodeWord_of_encode_ne hraw fun h => ?_
    have hmask := congrArg (fld · 8 3) (henc.symm.trans h)
    simp only [vword_mask] at hmask
    exact hk hmask.symm
  · unfold typeIllegalWord
    rw [vword_and_function, vword_and_unmasked, vword_and_mask_ne_zero _ _ _ _ _ _ _ _ hk, hjoin]
    rcases hm with rfl | rfl <;> rfl

/-! ### The traps (R58, R80) -/

theorem exec_illegalWord (w : IWord) (s : State) : exec (.illegalWord w) s =
    if typeIllegalWord w then .next (s.trap .illegalType (if s.hart.quads.count = 0 then 0 else w.setWidth 64))
    else .next (s.trap .illegal (w.setWidth 64)) := rfl

theorem exec_fetchFault {s t : State} {c : Cause} (h : s.fetch = (.fault c, t)) : exec .fetchFault s = .next (s.trap c s.hart.pc) := by
  show execFetchFault s = _
  rw [execFetchFault, h]

/-- Settles O4: ILLEGAL, ILLEGAL_TYPE and the faulting fetch, and the two kinds of words that give ILLEGAL_TYPE. -/
theorem illegalWordAndFetchFault : Obligations.IllegalWordAndFetchFault := by
  unfold Obligations.IllegalWordAndFetchFault
  refine ⟨fun s w h => ?_, fun s w h => ?_, fun d a b k r c hwf => vwiden_saturating_typeIllegal hwf,
    fun d a b k r c hk => ?_, fun s t c h => exec_fetchFault h⟩
  · rw [exec_illegalWord, h]; rfl
  · rw [exec_illegalWord, h]; rfl
  · simp only [List.forall_mem_cons, List.not_mem_nil, false_imp_iff, implies_true, and_true]
    exact ⟨fun hwf => blocked_masked_typeIllegal (.inl rfl) rfl (rawDecode_vldb_masked ..) rfl hwf hk,
      fun hwf => blocked_masked_typeIllegal (.inr rfl) rfl (rawDecode_vstb_masked ..) rfl hwf hk⟩

end Sys2Proof.Machine
end

section
/-! PROOFS. The step (R58, R63, R263, R269, R271, R308): what runs at an issue opportunity, and what else a step may be. -/
namespace Sys2Proof.Machine

/-! ### The cases of a step -/

theorem step_of_stopped {s : State} (h : s.sys.boot.stopped = true) : step s = .fault .deviceStopped := if_pos h

section
variable {s : State} (hrun : s.sys.boot.stopped = false)
include hrun

/-- An input is looked at before everything else. -/
theorem step_of_input {e : Instr} {r : List Instr} (hin : s.env.inputs = e :: r) : step s =
    if e.isWord then .refused .notAnEvent else eventStep e { tick s with env := { (tick s).env with inputs := r } } := by
  have hin' : (tick s).env.inputs = e :: r := hin
  simp only [step, hrun, hin', Bool.false_eq_true, if_false]

theorem step_of_opportunity {h : Nat} {r : List Nat} (hin : s.env.inputs = []) (hopp : s.env.opps = h :: r) :
    step s = hartStep (s.taking h r) := by
  have hin' : (tick s).env.inputs = [] := hin
  have hopp' : (tick s).env.opps = h :: r := hopp
  simp only [step, hrun, hin', hopp', Bool.false_eq_true, if_false, State.taking]

theorem step_of_idle (hin : s.env.inputs = []) (hopp : s.env.opps = []) : step s = idleStep (tick s) := by
  have hin' : (tick s).env.inputs = [] := hin
  have hopp' : (tick s).env.opps = [] := hopp
  simp only [step, hrun, hin', hopp', Bool.false_eq_true, if_false]

end

theorem eventStep_of_ne {e : Instr} (s : State) (h : ∀ c, e ≠ .issueArbitration c) : eventStep e s = exec e s := by
  unfold eventStep
  split
  · exact absurd rfl (h _)
  · rfl

/-! ### The hart that holds an opportunity (R269, R308) -/

theorem hartStep_of_not_running {s : State} (h : s.hart.status ≠ .running) : hartStep s = .next s := if_pos h

theorem hartStep_of_lost {s : State} (h : s.hart.status = .running) (hl : (s.ownerLostDue s.hart).isSome = true) :
    hartStep s = exec (.ownerLostTrap s.hart.id) s := by
  rw [hartStep, if_neg (not_not_intro h), if_pos hl]

theorem hartStep_of_running {s : State} (h : s.hart.status = .running) (hl : (s.ownerLostDue s.hart).isSome = false) :
    hartStep s = scalarStep s := by
  rw [hartStep, if_neg (not_not_intro h), if_neg (Bool.eq_false_iff.1 hl)]

/-- What the scalar pipe does with what it fetched (R58, R80). -/
theorem scalarStep_eq (s : State) : (∀ w i t, s.fetch = (.word w, t) → decodeWord w = some i → scalarStep s = exec i t) ∧
    (∀ w t, s.fetch = (.word w, t) → decodeWord w = none → scalarStep s = exec (.illegalWord w) t) ∧
    (∀ c t, s.fetch = (.fault c, t) → scalarStep s = exec .fetchFault s) ∧
    (∀ t, s.fetch = (.wait, t) → scalarStep s = .next (s.waitFor .memory)) := by
  refine ⟨fun w i t hf hd => ?_, fun w t hf hd => ?_, fun c t hf => ?_, fun t hf => ?_⟩
  · simp only [scalarStep, hf, hd]
  · simp only [scalarStep, hf, hd]
  · simp only [scalarStep, hf]
  · simp only [scalarStep, hf]

/-! ### The vector streams (R271) -/

theorem vectorStep_of_head {s : State} {e : VEntry} {l : List VEntry} {i : Instr} (hq : s.hart.vs.vq = e :: l)
    (hd : decodeWord e.word = some i) : vectorStep s = exec i (s.issuing e) := by
  simp only [vectorStep, hq, hd]

/-- The turn passes on (log entry 13). -/
def State.nextTurn (s : State) : State := { s with env := { s.env with turn := s.env.turn + 1 } }

/-- The vector streams hold the turn, and a queue can issue. -/
theorem idleStep_of_vectorReady {s : State} {h : Nat} (hturn : s.env.turn % 5 = 1)
    (hready : s.nextTurn.turnOf s.nextTurn.vectorReady = some h) : idleStep s = vectorStep (s.nextTurn.turnTo h) := by
  have hlist : turnList [0, 1, 2, 3, 4] s.env.turn = [1, 2, 3, 4, 0] := by
    simp only [turnList, List.length_cons, List.length_nil, hturn]; rfl
  show ((turnList [0, 1, 2, 3, 4] s.env.turn).findSome? (ownStep s.nextTurn)).getD (.next s.nextTurn) = _
  simp only [hlist, List.findSome?_cons, ownStep, hready, Option.map_some, Option.getD_some]

/-! ### The statements -/

/-- Settles O5: what the hart that holds the opportunity fetches decides the step. -/
theorem stepRunsDecoded : Obligations.StepRunsDecoded := by
  unfold Obligations.StepRunsDecoded
  intro s h r hrun hin hopp u hstatus hlost
  rw [step_of_opportunity hrun hin hopp, hartStep_of_running hstatus hlost]
  exact scalarStep_eq u

/-- Settles O6: the other cases of a step, one lemma for each. -/
theorem stepRunsOthers : Obligations.StepRunsOthers := by
  unfold Obligations.StepRunsOthers
  refine ⟨?vector, ?device, ?arbitration, ?word, ?opportunity, fun s h => step_of_stopped h⟩
  case vector =>
    intro s h e l i hrun hin hopp hturn t hready hq hd
    rw [step_of_idle hrun hin hopp]
    exact (idleStep_of_vectorReady (s := tick s) hturn hready).trans (vectorStep_of_head hq hd)
  case device =>
    intro s e r hrun hin hword hne
    rw [step_of_input hrun hin, hword, eventStep_of_ne _ hne]
    rfl
  case arbitration =>
    intro s c r hrun hin
    rw [step_of_input hrun hin]
    rfl
  case word =>
    intro s e r hrun hin hword
    rw [step_of_input hrun hin, hword]
    rfl
  case opportunity =>
    intro s h r hrun hin hopp u
    rw [step_of_opportunity hrun hin hopp]
    exact ⟨hartStep_of_not_running, hartStep_of_lost⟩

end Sys2Proof.Machine
end

section
/-! PROOFS. Scalar words (05), part 1: the ALU and immediate words (R112, R113). -/
namespace Sys2Proof.Machine
open Laws.OwnWord (raw_11 ext_lo ext_hi)

/-! ### Comparisons and counts (R112) -/

theorem ite_slt {α : Type} (x y : Word) (p q : α) : (if x.slt y then p else q) = if x.toInt < y.toInt then p else q := by
  simp only [BitVec.slt, decide_eq_true_eq]

theorem ite_ult {α : Type} (x y : Word) (p q : α) : (if x.ult y then p else q) = if x.toNat < y.toNat then p else q := by
  simp only [BitVec.ult, decide_eq_true_eq]

theorem leadingZeros_spec (w : Word) : ∀ n, leadingZeros w n ≤ n ∧ (∀ i, n - leadingZeros w n ≤ i → i < n → w.getLsbD i = false) ∧
    (leadingZeros w n < n → w.getLsbD (n - 1 - leadingZeros w n) = true)
  | 0 => ⟨Nat.le_refl 0, fun _ _ h => absurd h (Nat.not_lt_zero _), fun h => absurd h (Nat.not_lt_zero _)⟩
  | n + 1 => by
    obtain ⟨hle, hzero, hone⟩ := leadingZeros_spec w n
    rw [leadingZeros]
    by_cases hb : w.getLsbD n = true
    · rw [if_pos hb]
      exact ⟨Nat.zero_le _, fun i h1 h2 => by omega, fun _ => hb⟩
    · rw [if_neg hb]
      refine ⟨by omega, fun i h1 h2 => ?_, fun h => ?_⟩
      · rcases Nat.lt_succ_iff_lt_or_eq.1 h2 with h3 | rfl
        · exact hzero i (by omega) h3
        · exact Bool.not_eq_true _ ▸ hb
      · have := hone (by omega)
        rwa [show n + 1 - 1 - (leadingZeros w n + 1) = n - 1 - leadingZeros w n by omega]

theorem trailingZeros_spec (w : Word) : ∀ n, n ≤ 64 → trailingZeros w n ≤ n ∧ (∀ i, i < trailingZeros w n → w.getLsbD (64 - n + i) = false) ∧
    (trailingZeros w n < n → w.getLsbD (64 - n + trailingZeros w n) = true)
  | 0, _ => ⟨Nat.le_refl 0, fun _ h => absurd h (Nat.not_lt_zero _), fun h => absurd h (Nat.not_lt_zero _)⟩
  | n + 1, hn => by
    obtain ⟨hle, hzero, hone⟩ := trailingZeros_spec w n (by omega)
    have hbit : 64 - (n + 1) = 63 - n := by omega
    rw [trailingZeros, hbit]
    by_cases hb : w.getLsbD (63 - n) = true
    · rw [if_pos hb]
      exact ⟨Nat.zero_le _, fun i h => absurd h (Nat.not_lt_zero _), fun _ => hb⟩
    · rw [if_neg hb]
      have hshift : ∀ i, 63 - n + (i + 1) = 64 - n + i := by omega
      refine ⟨by omega, fun i h => ?_, fun h => ?_⟩
      · cases i with
        | zero => exact Bool.not_eq_true _ ▸ hb
        | succ i => rw [hshift]; exact hzero i (by omega)
      · rw [hshift]; exact hone (by omega)

theorem onesBelow_eq_countP (w : Word) : ∀ n, onesBelow w n = (List.range n).countP fun i => w.getLsbD i
  | 0 => rfl
  | n + 1 => by
    rw [onesBelow, onesBelow_eq_countP w n, List.range_succ, List.countP_append, List.countP_singleton]
    cases w.getLsbD n <;> rfl

/-! ### Shift words (R113) -/

/-- An own word of a shift has KIND below 3 and no bit of IMM16[15:8]. -/
theorem shift_fields {w : IWord} {i : Instr} (h : decShift w = some i) : fld (encode i) 6 2 ≠ 3#2 ∧ fld (encode i) 8 8 = 0#8 := by
  unfold decShift at h
  split at h
  case h_4 => contradiction
  all_goals
    injection h with h
    subst h
    simp (disch := omega) only [encode, fld, ext_lo, ext_hi, Nat.reduceSub]
    decide

theorem decodeWord_shift_none {w : IWord} (hmaj : fld w 26 6 = 11#6) (h : fld w 6 2 = 3#2 ∨ fld w 8 8 ≠ 0#8) : decodeWord w = none := by
  rw [Option.eq_none_iff_forall_ne_some]
  intro i hi
  obtain ⟨hraw, -, rfl⟩ := decodeWord_eq_some_iff.1 hi
  rw [raw_11 hmaj] at hraw
  obtain ⟨hkind, himm⟩ := shift_fields hraw
  exact h.elim hkind (· himm)

/-- Settles O9: each word's result is its row's; the counts are read bit by bit, and a shift word is the own word of a shift. -/
theorem aluResults : Obligations.AluResults := by
  unfold Obligations.AluResults
  refine ⟨?twoOperands, ?clz, ?ctz, fun s d a => ?popc, ?immediates, fun s d a n => ?shifts, fun w => decodeWord_shift_none, fun s d i => ?upper⟩
  case twoOperands =>
    intro s d a b
    simp only [List.forall_mem_cons, List.not_mem_nil, false_imp_iff, implies_true, and_true, ← ite_slt, ← ite_ult]
    exact ⟨rfl, rfl, rfl, rfl, rfl, rfl, rfl, rfl, rfl, rfl, rfl, rfl, rfl, rfl⟩
  case clz =>
    intro s d a
    obtain ⟨hle, hzero, hone⟩ := leadingZeros_spec (s.get a) 64
    refine ⟨leadingZeros (s.get a) 64, hle, fun i hi => ?_, fun h => ?_, rfl⟩
    · by_cases h64 : i < 64
      · exact hzero i hi h64
      · exact BitVec.getLsbD_of_ge _ _ (by omega)
    · exact hone h
  case ctz =>
    intro s d a
    obtain ⟨hle, hzero, hone⟩ := trailingZeros_spec (s.get a) 64 (Nat.le_refl _)
    simp only [Nat.sub_self, Nat.zero_add] at hzero hone
    exact ⟨trailingZeros (s.get a) 64, hle, hzero, hone, rfl⟩
  case popc =>
    rw [← onesBelow_eq_countP]
    rfl
  case immediates =>
    intro s d a i
    have hext : i.toInt = (i.signExtend 64).toInt := (BitVec.toInt_signExtend_of_le (by decide)).symm
    simp only [List.forall_mem_cons, List.not_mem_nil, false_imp_iff, implies_true, and_true, hext, ← ite_slt]
    exact ⟨rfl, rfl, rfl, rfl, rfl⟩
  case shifts =>
    simp only [List.forall_mem_cons, List.not_mem_nil, false_imp_iff, implies_true, and_true]
    exact ⟨rfl, rfl, rfl⟩
  case upper =>
    simp only [List.forall_mem_cons, List.not_mem_nil, false_imp_iff, implies_true, and_true]
    exact ⟨rfl, rfl⟩

end Sys2Proof.Machine
end

section
/-! PROOFS. Scalar words (05), part 2: the floating-point words (R120 to R122), branches and jumps (R66, R123), and what the words that
touch no memory leave as it was. -/
namespace Sys2Proof.Machine

/-! ### Floating-point words (R122) -/

/-- A word that hands over a result with events: it retires, or traps with its own word in TVAL. -/
theorem scalarResult_cases (i : Instr) (d : Reg) (w : Word) (e : Ev) (s : State) (h : exec i s = scalarResult (encode i) d w e s) :
    (e.trap s.hart.fl.flags = none → exec i s = .next (((s.noted e).set d w).advance)) ∧
    (∀ c, e.trap s.hart.fl.flags = some c → exec i s = .next ((s.noted e).trap c ((encode i).zeroExtend 64))) :=
  ⟨fun hq => h.trans (scalarResult_retires _ d w hq), fun _ hc => h.trans (scalarResult_traps _ d w hc)⟩

theorem ofNat_toNat_ite (b : Bool) : BitVec.ofNat 64 b.toNat = if b then 1 else 0 := by cases b <;> rfl

/-- Settles O14: each word hands its operation's result and events over as `scalarResult` does. -/
theorem fpuResults : Obligations.FpuResults := by
  unfold Obligations.FpuResults
  intro s d a b p m f r x y
  simp only [List.forall_mem_cons, List.not_mem_nil, false_imp_iff, implies_true, and_true, ← ofNat_toNat_ite]
  refine ⟨?_, ?_, ?_, ?_, ?_, ?_, ?_, ?_, ?_, ?_, ?_, ?_, ?_, ?_, ?_, ?_, ?_, ?_, ?_⟩
  all_goals exact scalarResult_cases _ d _ _ s rfl

/-! ### Branches and jumps (R66, R123) -/

theorem exec_branch {i : Instr} {taken : Word → Word → Bool} {a b : Reg} {n : BitVec 13} {s : State} {c : Bool}
    (h : exec i s = branch taken a b n s) (hc : taken (s.get a) (s.get b) = c) :
    exec i s = .next (if c then s.jump (s.hart.pc + 4 * n.signExtend 64) else s.advance) := by
  rw [h, branch, hc, target, BitVec.mul_comm]
  cases c <;> rfl

theorem decide_le_toInt (x y : Word) : (!x.slt y) = decide (y.toInt ≤ x.toInt) := by
  rw [BitVec.slt, ← decide_not, decide_eq_decide]; omega
theorem decide_le_toNat (x y : Word) : (!x.ult y) = decide (y.toNat ≤ x.toNat) := by
  rw [BitVec.ult, ← decide_not, decide_eq_decide]; omega

/-- Settles O15: a branch asks its condition, and a jump that is aligned goes to its target. -/
theorem branchesAndJumps : Obligations.BranchesAndJumps := by
  unfold Obligations.BranchesAndJumps
  refine ⟨?branches, ?jumps, ?jalr, fun s t => ⟨rfl, rfl, rfl, rfl⟩, ?fault⟩
  case branches =>
    intro s a b i
    simp only [List.forall_mem_cons, List.not_mem_nil, false_imp_iff, implies_true, and_true]
    refine ⟨exec_branch (taken := fun x y => x == y) rfl ?_, exec_branch (taken := fun x y => x != y) rfl ?_,
      exec_branch (taken := fun x y => x.slt y) rfl rfl, exec_branch (taken := fun x y => !x.slt y) rfl (decide_le_toInt _ _),
      exec_branch (taken := fun x y => x.ult y) rfl rfl, exec_branch (taken := fun x y => !x.ult y) rfl (decide_le_toNat _ _),
      exec_branch (taken := fun x y => x.getLsbD (y.toNat % 64)) rfl rfl,
      exec_branch (taken := fun x y => !x.getLsbD (y.toNat % 64)) rfl rfl⟩
    · exact Bool.beq_eq_decide_eq _ _
    · exact (congrArg (!·) (Bool.beq_eq_decide_eq _ _)).trans decide_not.symm
  case jumps =>
    intro s i
    rw [BitVec.mul_comm]
    exact ⟨rfl, rfl⟩
  case jalr =>
    intro s d a i t
    constructor
    · intro ht
      show execJalr d a i s = _
      rw [execJalr, if_neg (not_not_intro ht)]
    · intro ht
      show execJalr d a i s = _
      rw [execJalr, if_pos ht]
  case fault =>
    intro s u t c hf
    refine ⟨(s.jump t).trap c t, ?_, ?_⟩
    · show execFetchFault (s.jump t) = _
      rw [execFetchFault, hf]
      rfl
    · rw [State.trap, takeTrap_tr, trapRegs_tpc]
      rfl

/-! ### Frames -/

/-- A write of one register and a retirement change nothing else. -/
theorem scalarOnly_result (s : State) (d : Reg) (w : Word) : ScalarOnly s (s.set d w).advance := by
  unfold ScalarOnly State.set State.advance State.onHart Hart.set
  split <;> rfl

theorem keepsX_result (s : State) (d : Reg) (w : Word) : KeepsX d s (s.set d w).advance := fun r hr => s.get_set_ne d r w hr

/-- The frame of a word that hands over a register's new value. -/
theorem frame_of_result {s t : State} {o : Out} {d : Reg} {w : Word} (h : o = .next t) (hr : o = s.result d w) :
    ScalarOnly s t ∧ KeepsX d s t ∧ ∀ k, t.byte k = s.byte k := by
  rw [State.result_next (hr.symm.trans h)]
  exact ⟨scalarOnly_result s d w, keepsX_result s d w, fun _ => rfl⟩

theorem frame_of_branch {s t : State} {o : Out} {taken : Word → Word → Bool} {a b : Reg} {n : BitVec 13} (h : o = .next t)
    (hr : o = branch taken a b n s) : ScalarOnly s t ∧ (∀ r, t.get r = s.get r) ∧ ∀ k, t.byte k = s.byte k := by
  rw [h, branch] at hr
  split at hr <;> (injection hr with hr; subst hr; exact ⟨rfl, fun _ => rfl, fun _ => rfl⟩)

/-- Setting a loop aside writes the two loop fields alone (R197). -/
theorem VStream.parkLoop_eq (v : VStream) (b : Bool) :
    v.parkLoop b = { v with loop := (v.parkLoop b).loop, parkedLoop := (v.parkLoop b).parkedLoop } := by
  unfold VStream.parkLoop
  split <;> (try split) <;> rfl

/-- A trap other than a page fault writes nothing but the trap registers, the PC and status, the loop buffer it sets aside, links and
monitors (R23). -/
theorem flagsOnly_trap (s : State) (c : Cause) (v : Word) (hc : c.isPageFault = false) : FlagsOnly s (s.trap c v) := by
  unfold FlagsOnly State.trap takeTrap
  simp only [hc, Bool.false_and, Bool.false_eq_true, if_false]
  rw [Hart.trapped_eq, VStream.parkLoop_eq]

/-- The events of a scalar word are of FP or INT (R20). -/
theorem Ev.trap_not_pageFault {e : Ev} {fl : BitVec 16} {c : Cause} (h : e.trap fl = some c) : c.isPageFault = false := by
  unfold Ev.trap at h
  split at h
  · injection h with h; subst h; rfl
  · split at h
    · injection h with h; subst h; rfl
    · contradiction

/-- The frame of a word with a result and events, whether it retires or traps. -/
theorem frame_of_scalarResult {s t : State} {o : Out} {word : IWord} {d : Reg} {w : Word} {e : Ev} (h : o = .next t)
    (hr : o = scalarResult word d w e s) : FlagsOnly s t ∧ KeepsX d s t ∧ ∀ k, t.byte k = s.byte k := by
  rw [h] at hr
  cases ht : e.trap s.hart.fl.flags with
  | none =>
    rw [scalarResult_retires word d w ht] at hr
    injection hr with hr
    subst hr
    refine ⟨?_, fun r hne => (s.noted e).get_set_ne d r w hne, fun _ => rfl⟩
    unfold FlagsOnly State.set State.advance State.noted State.onHart Hart.set
    split <;> rfl
  | some c =>
    rw [scalarResult_traps word d w ht] at hr
    injection hr with hr
    subst hr
    have hf := flagsOnly_trap (s.noted e) c (word.setWidth 64) (Ev.trap_not_pageFault ht)
    refine ⟨?_, fun r _ => takeTrap_get .., fun k => ?_⟩
    · unfold FlagsOnly at hf ⊢
      exact hf
    · rw [hf]
      rfl

/-- Settles O16: a word writes its destination and retires, branches, or hands over a result with events. -/
theorem scalarFrame : Obligations.ScalarFrame := by
  unfold Obligations.ScalarFrame
  refine ⟨fun s t d a b => ?alu, fun s t d a n m => ?immediates, fun s t a b n j => ?branches, fun s t j => ?jal, fun s d w => ?x0,
    fun s t d a b p m => ?events⟩
  case alu =>
    simp only [List.forall_mem_cons, List.not_mem_nil, false_imp_iff, implies_true, and_true]
    refine ⟨?_, ?_, ?_, ?_, ?_, ?_, ?_, ?_, ?_, ?_, ?_, ?_, ?_, ?_, ?_, ?_, ?_, ?_, ?_, ?_⟩
    all_goals exact fun h => frame_of_result h rfl
  case immediates =>
    simp only [List.forall_mem_cons, List.not_mem_nil, false_imp_iff, implies_true, and_true]
    refine ⟨?_, ?_, ?_, ?_, ?_, ?_, ?_, ?_, ?_, ?_⟩
    all_goals exact fun h => frame_of_result h rfl
  case branches =>
    simp only [List.forall_mem_cons, List.not_mem_nil, false_imp_iff, implies_true, and_true]
    refine ⟨?_, ?_, ?_, ?ge, ?_, ?gen, ?bs, ?bc, ?jump⟩
    case ge => exact fun h => frame_of_branch (taken := fun x y => !x.slt y) h rfl
    case gen => exact fun h => frame_of_branch (taken := fun x y => !x.ult y) h rfl
    case bs => exact fun h => frame_of_branch (taken := fun x y => x.getLsbD (y.toNat % 64)) h rfl
    case bc => exact fun h => frame_of_branch (taken := fun x y => !x.getLsbD (y.toNat % 64)) h rfl
    case jump =>
      intro h
      injection h with h
      subst h
      exact ⟨rfl, fun _ => rfl, fun _ => rfl⟩
    all_goals exact fun h => frame_of_branch h rfl
  case jal =>
    intro h
    injection h with h
    subst h
    exact ⟨by unfold ScalarOnly; rfl, fun r hr => s.get_set_ne 1 r _ hr, fun _ => rfl⟩
  case x0 => exact ⟨s.get_set_self d w, rfl⟩
  case events =>
    simp only [List.forall_mem_cons, List.not_mem_nil, false_imp_iff, implies_true, and_true]
    refine ⟨?_, ?_, ?_, ?_, ?_, ?_, ?_, ?_, ?_, ?_, ?_, ?_, ?_, ?_, ?_, ?_, ?_, ?_, ?_, ?_, ?_, ?_, ?_⟩
    all_goals exact fun h => frame_of_scalarResult h rfl

end Sys2Proof.Machine
end

section
/-! PROOFS. Scalar memory (05), part 1: the scratchpad rules, and the results of the scalar loads and stores (R115, R116, R281, R282). -/
namespace Sys2Proof.Machine

/-! ### Numbers -/

/-- A number below 2^w is what its low bits extend to (R57). -/
theorem zeroExtend_ofNat {v w : Nat} (h : v < 2 ^ w) (hw : w ≤ 64) : (BitVec.ofNat w v).zeroExtend 64 = BitVec.ofNat 64 v := by
  apply BitVec.eq_of_toNat_eq
  have h64 : (2 : Nat) ^ w ≤ 2 ^ 64 := Nat.pow_le_pow_right (by omega) hw
  simp only [BitVec.truncate_eq_setWidth, BitVec.toNat_setWidth, BitVec.toNat_ofNat, Nat.mod_eq_of_lt h, Nat.mod_eq_of_lt (h.trans_le h64)]

/-- `sext` of R57 is the sign extension of the low bits. -/
theorem sextW_eq_signExtend (v w : Nat) (hw : 0 < w) : sextW v w = (BitVec.ofNat w v).signExtend 64 := by
  have hp : (2 : Nat) ^ w = 2 * 2 ^ (w - 1) := by rw [← pow_succ']; congr 1; omega
  have hc : ((2 ^ w : Nat) : Int) = (2 : Int) ^ w := by push_cast; rfl
  unfold sextW BitVec.signExtend
  rw [if_neg (by omega), BitVec.toInt_eq_toNat_cond, BitVec.toNat_ofNat]
  by_cases hv : v % 2 ^ w < 2 ^ (w - 1)
  · rw [if_pos hv, if_pos (by omega), BitVec.ofInt_natCast]
  · rw [if_neg hv, if_neg (by omega), hc]

theorem State.memNat_lt (s : State) : ∀ n k, s.memNat k n < 2 ^ (8 * n)
  | 0, _ => by simp [State.memNat]
  | n + 1, k => by
    have h := State.memNat_lt s n (k + 1)
    have hb := (s.byte k).isLt
    rw [show 8 * (n + 1) = 8 * n + 8 by omega, pow_add]
    unfold State.memNat
    omega

/-! ### Scratchpad bytes (R28, R116) -/

theorem localTarget_own (core off : Nat) (h : off < 2 ^ 21) : localTarget core (2 ^ 63 + off) = some (core, off) := by
  have h1 : bitsOf (2 ^ 63 + off) 60 23 = 0 := by unfold bitsOf; omega
  have h2 : bitsOf (2 ^ 63 + off) 62 61 = 0 := by unfold bitsOf; omega
  have h3 : bitsOf (2 ^ 63 + off) 22 21 = 0 := by unfold bitsOf; omega
  have h4 : (2 ^ 63 + off) % 2 ^ 21 = off := by omega
  simp only [localTarget, h1, h2, h3, h4, ne_eq, not_true_eq_false, if_false, if_true]

/-- A key of a scratchpad lies above those of DRAM. -/
theorem spadKey_ge (core off : Nat) : 2 ^ 48 ≤ spadKey core off := by unfold spadKey; omega

/-- The race detector watches no scratchpad (R390). -/
theorem State.racy_spad (s : State) (part core off : Nat) : s.racy part (spadKey core off) = false := by
  rw [State.racy, decide_eq_false (by have := spadKey_ge core off; omega), Bool.and_false, Bool.false_and]
theorem State.race_spad (s : State) (h : Hart) (core off n : Nat) (w a : Bool) : s.race h (spadKey core off) n w a = some s := by
  rw [State.race, s.racy_spad]
  rfl

theorem Hart.watched_eq_false {h : Hart} (hd : h.debug = false) (a n : Nat) (w : Bool) : h.watched a n w = false := by
  rw [Hart.watched, hd, Bool.false_and]

section
variable {s : State} {a : Word} {n off : Nat}

theorem SpadAt.isLocal (h : SpadAt s a n off) : isLocal a.toNat = true := by
  rw [Machine.isLocal, h.1, decide_eq_true_eq]; omega

/-- An access to allocated scratchpad bytes goes to their bank (R28). -/
theorem SpadAt.scalarLoc (h : SpadAt s a n off) (hn : 0 < n) {acc : Acc} (hacc : (acc == .exec) = false) :
    s.scalarLoc s.hart a.toNat n acc = .ok { kind := .bank, key := spadKey s.hart.core off } := by
  have hl := h.isLocal
  obtain ⟨ha, hoff, -, hown, -⟩ := h
  rw [State.scalarLoc, hl, if_pos rfl, hacc, State.localLoc, ha, localTarget_own _ _ (by omega)]
  simp only [hown, if_true, Bool.false_eq_true, if_false]
  rfl

theorem SpadAt.mod (h : SpadAt s a n off) (hn : n ∣ 2 ^ 63) : a.toNat % n = 0 := by
  obtain ⟨ha, -, hm, -⟩ := h
  rw [ha, Nat.add_mod, hm, Nat.mod_eq_zero_of_dvd hn, Nat.zero_add, Nat.zero_mod]

/-- Such bytes read as memory holds them (R276). -/
theorem SpadAt.bankRead (h : SpadAt s a n off) :
    s.bankRead (spadKey s.hart.core off) n = .val (s.memNat (spadKey s.hart.core off) n) := by
  obtain ⟨-, -, -, -, hp, ht, -⟩ := h
  rw [State.bankRead, ht, hp]
  rfl

theorem SpadAt.not_watched (h : SpadAt s a n off) (w : Bool) : s.hart.watched a.toNat n w = false := by
  obtain ⟨-, -, -, -, -, -, hd⟩ := h
  exact Hart.watched_eq_false hd ..

/-- A load of such bytes that the SSB answers with a value, or leaves to the bank. -/
theorem SpadAt.scalarLoad (h : SpadAt s a n off) (hn : 0 < n) (hd : n ∣ 2 ^ 63) {v : Nat}
    (hv : ssbLookup s.hart.ssb { kind := .bank, key := spadKey s.hart.core off } n = some (.val v) ∨
      ssbLookup s.hart.ssb { kind := .bank, key := spadKey s.hart.core off } n = none ∧ v = s.memNat (spadKey s.hart.core off) n) :
    s.scalarLoad a.toNat n = (.val v, s) := by
  unfold State.scalarLoad
  simp only [h.mod hd, h.scalarLoc hn (acc := .read) rfl, ne_eq, not_true_eq_false, if_false]
  obtain hv | ⟨hv, rfl⟩ := hv
  · simp only [hv, State.race_spad, h.not_watched, h.isLocal, Bool.false_eq_true, if_false, if_true]
  · simp only [hv, State.scalarData, h.bankRead, State.race_spad, h.not_watched, h.isLocal, Bool.false_eq_true, if_false, if_true]

theorem State.not_deadAt_of_not_poisoned {k n : Nat} (h : s.poisoned k n = false) : s.deadAt k n = false := by
  rw [State.poisoned, Bool.or_eq_false_iff] at h
  exact h.2

/-- A store that every check lets pass joins the SSB (R116, R281). -/
theorem State.scalarStore_of_checks {s u : State} {a n : Nat} {loc : Loc} (ha : a % n = 0) (hloc : s.scalarLoc s.hart a n .write = .ok loc)
    (href : s.storeRefused loc n = none) (hrace : s.race s.hart loc.key n true false = some u) (hw : s.hart.watched a n true = false)
    (hroom : s.hart.ssb.length < 32) (w : Word) :
    s.scalarStore a n w = (.val 0, (if isLocal a then u else u.tlbFill s.hart.core s.hart.tk.part s.hart.tk.ctx a).onHart
      (·.pushStore { loc := loc, va := a, len := n, data := w })) := by
  have hfull : ¬ 32 ≤ s.hart.ssb.length := Nat.not_le.mpr hroom
  unfold State.scalarStore
  simp only [ha, hloc, href, hrace, hw, hfull, ne_eq, not_true_eq_false, Bool.false_eq_true, if_false]

/-- A store to such bytes joins the SSB, if there is room (R281). -/
theorem SpadAt.scalarStore (h : SpadAt s a n off) (hn : 0 < n) (hd : n ∣ 2 ^ 63) (hroom : s.hart.ssb.length < 32) (w : Word) :
    s.scalarStore a.toNat n w =
      (.val 0, s.onHart (·.pushStore { loc := { kind := .bank, key := spadKey s.hart.core off }, va := a.toNat, len := n, data := w })) := by
  have hp : s.deadAt (spadKey s.hart.core off) n = false := by
    obtain ⟨-, -, -, -, hp, -, -⟩ := h
    exact State.not_deadAt_of_not_poisoned hp
  have hr : s.storeRefused { kind := .bank, key := spadKey s.hart.core off } n = none := by
    rw [State.storeRefused, hp]; rfl
  rw [State.scalarStore_of_checks (h.mod hd) (h.scalarLoc hn rfl) hr (s.race_spad ..) (h.not_watched true) hroom, if_pos h.isLocal]
end

/-! ### The loads and stores (R115, R116) -/

section
variable {s : State} {i : Instr} {d a : Reg} {m : BitVec 13} {n : Nat}

/-- What the words of a load say of it (R115, R116), where `e` widens a value as the word does. -/
theorem exec_load {f e : Nat → Word} (hi : exec i s = load n f d a m s) (hn : 0 < n) (hd : n ∣ 2 ^ 63)
    (he : ∀ v, v < 2 ^ (8 * n) → f v = e v) :
    let addr := s.get a + m.signExtend 64
    (addr.toNat % n ≠ 0 → exec i s = .next (s.trap .misalign addr)) ∧
    (∀ off, SpadAt s addr n off → s.hart.ssb = [] →
      exec i s = .next (s.set d (e (s.memNat (spadKey s.hart.core off) n))).advance) ∧
    (∀ v t, v < 2 ^ (8 * n) → s.scalarLoad addr.toNat n = (.val v, t) → exec i s = .next (t.set d (e v)).advance) ∧
    (∀ c t, s.scalarLoad addr.toNat n = (.fault c, t) → exec i s = .next (t.trap c addr)) ∧
    (∀ w t, s.scalarLoad addr.toNat n = (.wait w, t) → exec i s = .next (t.waitFor w)) := by
  intro addr
  have hval : ∀ v t, v < 2 ^ (8 * n) → s.scalarLoad addr.toNat n = (.val v, t) → exec i s = .next (t.set d (e v)).advance := by
    intro v t hv h
    rw [hi, load]
    simp only [State.maddr, h, he v hv, State.result_eq, addr]
  have hfault : ∀ c t, s.scalarLoad addr.toNat n = (.fault c, t) → exec i s = .next (t.trap c addr) := by
    intro c t h
    rw [hi, load]
    simp only [State.maddr, h, addr]
  refine ⟨fun h => hfault _ _ ?_, fun off hs he => hval _ _ (s.memNat_lt n _) (hs.scalarLoad hn hd (.inr ⟨by rw [he]; rfl, rfl⟩)),
    hval, hfault, fun w t h => ?_⟩
  · simp only [State.scalarLoad, h, ne_eq, not_false_eq_true, if_true]
  · rw [hi, load]
    simp only [State.maddr, h, addr]

/-- What the words of a store say of it (R115, R116, R281). -/
theorem exec_store (hi : exec i s = store n d a m s) (hn : 0 < n) (hd : n ∣ 2 ^ 63) :
    let addr := s.get a + m.signExtend 64
    (addr.toNat % n ≠ 0 → exec i s = .next (s.trap .misalign addr)) ∧
    (∀ off, SpadAt s addr n off → s.hart.ssb.length < 32 →
      exec i s = .next (s.onHart fun h => { h with ssb := h.ssb ++
        [{ loc := { kind := .bank, key := spadKey s.hart.core off }, va := addr.toNat, len := n, data := s.get d }] }).advance) ∧
    (∀ v t, s.scalarStore addr.toNat n (s.get d) = (.val v, t) → exec i s = .next t.advance) ∧
    (∀ c t, s.scalarStore addr.toNat n (s.get d) = (.fault c, t) → exec i s = .next (t.trap c addr)) ∧
    (∀ w t, s.scalarStore addr.toNat n (s.get d) = (.wait w, t) → exec i s = .next (t.waitFor w)) := by
  intro addr
  have hval : ∀ v t, s.scalarStore addr.toNat n (s.get d) = (.val v, t) → exec i s = .next t.advance := by
    intro v t h
    rw [hi, store]
    simp only [State.maddr, h, addr]
  have hfault : ∀ c t, s.scalarStore addr.toNat n (s.get d) = (.fault c, t) → exec i s = .next (t.trap c addr) := by
    intro c t h
    rw [hi, store]
    simp only [State.maddr, h, addr]
  refine ⟨fun h => hfault _ _ ?_, fun off hs hroom => hval _ _ (hs.scalarStore hn hd hroom _), hval, hfault, fun w t h => ?_⟩
  · simp only [State.scalarStore, h, ne_eq, not_false_eq_true, if_true]
  · rw [hi, store]
    simp only [State.maddr, h, addr]
end

/-- Settles O17: each word is `load` or `store` of its size. -/
theorem loadStoreResults : Obligations.LoadStoreResults := by
  unfold Obligations.LoadStoreResults
  refine ⟨fun s d a i => ?loads, fun s d a i => ?stores⟩
  case loads =>
    simp only [List.forall_mem_cons, List.not_mem_nil, false_imp_iff, implies_true, and_true]
    exact ⟨exec_load (n := 1) (f := (sextW · 8)) (e := fun v => (BitVec.ofNat 8 v).signExtend 64) rfl (by omega) (by norm_num)
        fun v _ => sextW_eq_signExtend v 8 (by omega),
      exec_load (n := 1) (f := BitVec.ofNat 64) (e := fun v => (BitVec.ofNat 8 v).zeroExtend 64) rfl (by omega) (by norm_num)
        fun v h => (zeroExtend_ofNat h (by omega)).symm,
      exec_load (n := 2) (f := (sextW · 16)) (e := fun v => (BitVec.ofNat 16 v).signExtend 64) rfl (by omega) (by norm_num)
        fun v _ => sextW_eq_signExtend v 16 (by omega),
      exec_load (n := 2) (f := BitVec.ofNat 64) (e := fun v => (BitVec.ofNat 16 v).zeroExtend 64) rfl (by omega) (by norm_num)
        fun v h => (zeroExtend_ofNat h (by omega)).symm,
      exec_load (n := 4) (f := (sextW · 32)) (e := fun v => (BitVec.ofNat 32 v).signExtend 64) rfl (by omega) (by norm_num)
        fun v _ => sextW_eq_signExtend v 32 (by omega),
      exec_load (n := 4) (f := BitVec.ofNat 64) (e := fun v => (BitVec.ofNat 32 v).zeroExtend 64) rfl (by omega) (by norm_num)
        fun v h => (zeroExtend_ofNat h (by omega)).symm,
      exec_load (n := 8) (f := BitVec.ofNat 64) (e := BitVec.ofNat 64) rfl (by omega) (by norm_num) fun v h => rfl⟩
  case stores =>
    simp only [List.forall_mem_cons, List.not_mem_nil, false_imp_iff, implies_true, and_true]
    exact ⟨exec_store rfl (by omega) (by norm_num), exec_store rfl (by omega) (by norm_num), exec_store rfl (by omega) (by norm_num),
      exec_store rfl (by omega) (by norm_num)⟩

/-! ### Forwarding and the drain of the SSB (R281, R282) -/

/-- The SSB answers for the bytes of its youngest store (R282). -/
theorem ssbLookup_append (l : List SsbEntry) (loc : Loc) (va n : Nat) (w : Word) (hn : 0 < n) :
    ssbLookup (l ++ [{ loc := loc, va := va, len := n, data := w }]) loc n = some (.val (w.toNat % 2 ^ (8 * n))) := by
  have hlt : loc.key < loc.key + n := by omega
  simp only [ssbLookup, List.filter_append, List.filter_cons, hlt, decide_true, Bool.and_self, if_true, List.filter_nil,
    List.getLast?_append, List.getLast?_singleton, Option.some_or, le_refl, Nat.sub_self, Nat.mul_zero, pow_zero, Nat.div_one]

/-- A store and then a load of the same scratchpad bytes. -/
theorem store_then_load {s : State} {i j : Instr} {d e a : Reg} {m : BitVec 13} {n off : Nat} (hi : ∀ u, exec i u = store n d a m u)
    (hj : ∀ u, exec j u = load n (BitVec.ofNat 64) e a m u) (hn : 0 < n) (hd : n ∣ 2 ^ 63)
    (hs : SpadAt s (s.get a + m.signExtend 64) n off) (hroom : s.hart.ssb.length < 32) :
    ∃ t u, exec i s = .next t ∧ exec j t = .next u ∧ t.mem = s.mem ∧ u.mem = s.mem ∧
      (e ≠ 0 → u.get e = BitVec.ofNat 64 ((s.get d).toNat % 2 ^ (8 * n))) := by
  obtain ⟨t, ht, hssb, hspad, hmem⟩ : ∃ t, exec i s = .next t ∧ t.hart.ssb = s.hart.ssb ++
      [{ loc := { kind := .bank, key := spadKey t.hart.core off }, va := (s.get a + m.signExtend 64).toNat, len := n, data := s.get d }] ∧
      SpadAt t (t.get a + m.signExtend 64) n off ∧ t.mem = s.mem :=
    ⟨_, (exec_store (hi s) hn hd).2.1 off hs hroom, rfl, hs, rfl⟩
  have hl := hspad.scalarLoad hn hd (.inl (by rw [hssb]; exact ssbLookup_append _ _ _ _ _ hn))
  refine ⟨t, _, ht, (exec_load (hj t) hn hd fun _ _ => rfl).2.2.1 _ _ (Nat.mod_lt _ (Nat.two_pow_pos (8 * n))) hl, hmem, hmem,
    fun he => ?_⟩
  rw [State.get_advance, State.get_set_self, if_neg he]

/-- Pairs of consecutive keys are written as the bytes of a number are. -/
theorem foldl_memPut_zipIdx (pads : List ((Nat × Nat) × Nat)) (key : Nat) : ∀ (l : List Byte) (i : Nat) (m : List Host.Cell),
    ((l.zipIdx i).map fun x => (key + x.2, x.1)).foldl (fun m b => memPut m b.1 (b.2 ^^^ padOf pads b.1)) m =
      memPutBytes m (key + i) (storedBytes pads (key + i) l)
  | [], _, _ => rfl
  | _ :: r, i, _ => foldl_memPut_zipIdx pads key r (i + 1) _

theorem State.applyBytes_entry (s : State) (e : SsbEntry) : s.applyBytes e.bytes = s.putNat e.loc.key e.len e.data.toNat := by
  unfold State.applyBytes SsbEntry.bytes State.putNat
  rw [foldl_memPut_zipIdx]
  rfl

section
variable (s : State) {h j : Nat}

theorem State.byte_popSsb (k : Nat) : (s.popSsb h).byte k = s.byte k := by
  rw [State.byte, State.byte, State.popSsb, State.onHartAt_mem, State.onHartAt_sys]
theorem State.hartAt_popSsb : (s.popSsb h).hartAt h = (s.hartAt h).map fun g => { g with ssb := g.ssb.drop 1 } :=
  s.hartAt_onHartAt h _ fun _ => rfl
theorem State.hartAt_popSsb_ne (hj : j ≠ h) : (s.popSsb h).hartAt j = s.hartAt j := s.hartAt_onHartAt_ne h j _ (fun _ => rfl) hj
theorem State.hartAt_loseStore (va : Nat) (c : Cause) :
    (s.loseStore h va c).hartAt h = (s.hartAt h).map fun g => { g with lostStores := g.lostStores ++ [(va, c)] } :=
  s.hartAt_onHartAt h _ fun _ => rfl
theorem State.hartAt_loseStore_ne {va : Nat} {c : Cause} (hj : j ≠ h) : (s.loseStore h va c).hartAt j = s.hartAt j :=
  s.hartAt_onHartAt_ne h j _ (fun _ => rfl) hj
end

/-- The drain of a scratchpad store whose row is in service (R282 move 2). -/
theorem drainSsb_bank {s : State} {g : Hart} {e : SsbEntry} (hk : e.loc.kind = .bank) (hd : s.deadAt e.loc.key 1 = false)
    (ht : s.bankTest e.loc.key = false) :
    s.drainSsb g e = ((s.putNat e.loc.key e.len e.data.toNat).noteWrite (lineOf e.loc.key)).popSsb g.id := by
  have hs : s.drainStop g e.loc = none := by simp only [State.drainStop, hd, Bool.and_false, hk, ht, Bool.false_eq_true, if_false]
  simp only [State.drainSsb, hs, hk, State.applyBytes_entry]

/-- The drain of a store to a row fenced off (R389). -/
theorem drainSsb_bank_dead {s : State} {g : Hart} {e : SsbEntry} (hk : e.loc.kind = .bank) (hd : s.deadAt e.loc.key 1 = true) :
    s.drainSsb g e = (s.popSsb g.id).loseStore g.id e.va .ecc := by
  have hs : s.drainStop g e.loc = some (.fault .ecc) := by rw [State.drainStop, hd, hk]; rfl
  simp only [State.drainSsb, hs]

theorem exec_ssbDrain {s : State} {h : Nat} {g : Hart} {e : SsbEntry} {r : List SsbEntry} (hg : s.hartAt h = some g) (he : g.ssb = e :: r) :
    exec (.ssbDrain h) s = .next (s.drainSsb g e) := by
  show execSsbDrain h s = _
  simp only [execSsbDrain, hg, he, List.head?_cons]

/-- Settles O20: the SSB answers the load; the drain writes the entry's bytes as a number is written. -/
theorem storeThenLoad : Obligations.StoreThenLoad := by
  unfold Obligations.StoreThenLoad
  refine ⟨fun s d e a i => ?forward, fun s h g e r hwf hg he hk => ⟨fun hdead htest => ?drain, fun hdead => ?dead⟩⟩
  case forward =>
    simp only [List.forall_mem_cons, List.not_mem_nil, false_imp_iff, implies_true, and_true]
    exact ⟨fun off => store_then_load (fun _ => rfl) (fun _ => rfl) (by omega) (by norm_num),
      fun off => store_then_load (fun _ => rfl) (fun _ => rfl) (by omega) (by norm_num),
      fun off => store_then_load (fun _ => rfl) (fun _ => rfl) (by omega) (by norm_num),
      fun off => store_then_load (fun _ => rfl) (fun _ => rfl) (by omega) (by norm_num)⟩
  case drain =>
    obtain rfl := State.hartAt_id hg
    refine ⟨_, (exec_ssbDrain hg he).trans (congrArg Host.Outcome.next (drainSsb_bank hk hdead htest)), ?_, ?_, ?_, ?_⟩
    · have hb := State.memNat_congr (s.putNat e.loc.key e.len e.data.toNat)
        (((s.putNat e.loc.key e.len e.data.toNat).noteWrite (lineOf e.loc.key)).popSsb g.id) e.len e.loc.key
        fun k _ _ => State.byte_popSsb _ k
      rw [hb, s.memNat_putNat _ _ hwf, pow_mul]
      norm_num
    · intro k hne
      rw [State.byte_popSsb]
      exact s.byte_putNat_ne _ _ _ k hwf hne
    · rw [State.hartAt_popSsb]
      show (s.hartAt g.id).map _ = _
      rw [hg, Option.map_some, he]
      rfl
    · exact fun j hj => State.hartAt_popSsb_ne _ hj
  case dead =>
    obtain rfl := State.hartAt_id hg
    refine ⟨_, (exec_ssbDrain hg he).trans (congrArg Host.Outcome.next (drainSsb_bank_dead hk hdead)), ?_, ?_, fun j hj => ?_⟩
    · rw [State.loseStore, State.popSsb, State.onHartAt_mem, State.onHartAt_mem]
    · rw [State.hartAt_loseStore, State.hartAt_popSsb, hg, Option.map_some, Option.map_some, he]
      rfl
    · rw [State.hartAt_loseStore_ne _ hj, State.hartAt_popSsb_ne _ hj]

end Sys2Proof.Machine
end

section
/-! PROOFS. Scalar memory (05), part 2: what keeps the registers, acquires and releases, and the results of the atomics (R117 to R119,
R128). -/
namespace Sys2Proof.Machine

/-! ### What keeps the registers of a hart -/

theorem KeepsOther.refl (s : State) : KeepsOther s s := by
  unfold KeepsOther
  exact ⟨rfl, rfl, rfl, rfl, rfl, rfl, rfl, rfl, rfl, rfl, rfl, rfl, rfl, rfl, rfl, rfl, rfl⟩

theorem KeepsOther.trans {s t u : State} (h : KeepsOther s t) (k : KeepsOther t u) : KeepsOther s u := by
  unfold KeepsOther at *
  obtain ⟨h1, h2, h3, h4, h5, h6, h7, h8, h9, h10, h11, h12, h13, h14, h15, h16, h17⟩ := h
  obtain ⟨k1, k2, k3, k4, k5, k6, k7, k8, k9, k10, k11, k12, k13, k14, k15, k16, k17⟩ := k
  exact ⟨k1.trans h1, k2.trans h2, k3.trans h3, k4.trans h4, k5.trans h5, k6.trans h6, k7.trans h7, k8.trans h8, k9.trans h9,
    k10.trans h10, k11.trans h11, k12.trans h12, k13.trans h13, k14.trans h14, k15.trans h15, k16.trans h16, k17.trans h17⟩

/-- The x registers, those of `KeepsOther` and the store FIFOs of the scalar pipe read as before. -/
structure KeepsRegs (s t : State) : Prop where
  get : ∀ r, t.get r = s.get r
  other : KeepsOther s t
  ssb : t.hart.ssb = s.hart.ssb
  psf : t.hart.psf = s.hart.psf

theorem KeepsRegs.refl (s : State) : KeepsRegs s s := ⟨fun _ => rfl, .refl s, rfl, rfl⟩
theorem KeepsRegs.trans {s t u : State} (h : KeepsRegs s t) (k : KeepsRegs t u) : KeepsRegs s u :=
  ⟨fun r => (k.get r).trans (h.get r), h.other.trans k.other, k.ssb.trans h.ssb, k.psf.trans h.psf⟩

/-- The harts, the places and the engines are the same. -/
structure SameHarts (s t : State) : Prop where
  hart : t.hart = s.hart
  others : t.others = s.others
  places : t.places = s.places
  eng : t.eng = s.eng

theorem SameHarts.refl (s : State) : SameHarts s s := ⟨rfl, rfl, rfl, rfl⟩
theorem SameHarts.trans {s t u : State} (h : SameHarts s t) (k : SameHarts t u) : SameHarts s u :=
  ⟨k.hart.trans h.hart, k.others.trans h.others, k.places.trans h.places, k.eng.trans h.eng⟩
theorem AtHomes.sameHarts {s t : State} (h : AtHomes s t) : SameHarts s t := ⟨h.hart, h.others, h.places, h.eng⟩
theorem SameHarts.foldl {α : Type} (f : State → α → State) (hf : ∀ t a, SameHarts t (f t a)) (l : List α) (s : State) :
    SameHarts s (l.foldl f s) := by
  induction l generalizing s with
  | nil => exact .refl s
  | cons a r ih => exact (hf s a).trans (ih _)

theorem SameHarts.keepsRegs {s t : State} (h : SameHarts s t) : KeepsRegs s t := by
  obtain ⟨hh, ho, hp, he⟩ := h
  refine ⟨fun r => by rw [State.get, State.get, hh], ?_, by rw [hh], by rw [hh]⟩
  unfold KeepsOther
  rw [hh, ho, hp, he]
  exact ⟨rfl, rfl, rfl, rfl, rfl, rfl, rfl, rfl, rfl, rfl, rfl, rfl, rfl, rfl, rfl, rfl, rfl⟩

theorem State.waitFor_keepsRegs (s : State) (w : Wait) : KeepsRegs s (s.waitFor w) := ⟨fun _ => rfl, .refl s, rfl, rfl⟩
theorem State.advance_keepsRegs (s : State) : KeepsRegs s s.advance := ⟨fun _ => rfl, .refl s, rfl, rfl⟩
theorem State.trap_keepsRegs (s : State) (c : Cause) (v : Word) : KeepsRegs s (s.trap c v) :=
  ⟨takeTrap_get c v _ 0 none s, takeTrap_keepsOther .., by rw [State.trap, takeTrap_hart], by rw [State.trap, takeTrap_hart]⟩

theorem State.set_keepsOther (s : State) (d : Reg) (w : Word) : KeepsOther s (s.set d w) := by
  unfold State.set State.onHart Hart.set
  split <;> exact .refl s

/-- Registers kept, and then one written at the retirement. -/
theorem KeepsRegs.result {s t : State} (h : KeepsRegs s t) (d : Reg) (w : Word) :
    KeepsX d s (t.set d w).advance ∧ KeepsOther s (t.set d w).advance ∧ (t.set d w).advance.hart.ssb = s.hart.ssb :=
  ⟨fun r hr => (t.get_set_ne d r w hr).trans (h.get r), (h.other.trans (t.set_keepsOther d w)).trans (State.advance_keepsRegs _).other,
    (t.hart.set_ssb d w).trans h.ssb⟩

theorem KeepsRegs.keepsX {s t : State} (h : KeepsRegs s t) (d : Reg) :
    KeepsX d s t ∧ KeepsOther s t ∧ t.hart.ssb = s.hart.ssb := ⟨fun r _ => h.get r, h.other, h.ssb⟩

/-! ### Acquires (R128, R302) -/

theorem State.noteSync_false_eq (s : State) (sc : Scope) :
    s.noteSync false sc = { s with coh := { s.coh with syncs := (s.noteSync false sc).coh.syncs } } := by
  unfold State.noteSync
  simp only [Bool.false_eq_true, if_false]
  split <;> rfl

/-- An acquire changes the core's caches, what homes serve, and the detector's log alone. -/
theorem State.acquire_frame (s : State) (sc : Scope) (ro : Bool) :
    (s.acquire sc ro).hart = s.hart ∧ (s.acquire sc ro).others = s.others ∧ (s.acquire sc ro).places = s.places ∧
    (s.acquire sc ro).eng = s.eng ∧ (s.acquire sc ro).sys = s.sys ∧ (s.acquire sc ro).mem = s.mem := by
  unfold State.acquire
  rw [State.noteSync_false_eq]
  cases ro <;> cases wideScope sc <;> exact ⟨rfl, rfl, rfl, rfl, rfl, rfl⟩

theorem State.acquire_sameHarts (s : State) (sc : Scope) (ro : Bool) : SameHarts s (s.acquire sc ro) :=
  have ⟨hh, ho, hp, he, _, _⟩ := s.acquire_frame sc ro
  ⟨hh, ho, hp, he⟩

theorem State.byte_acquire (s : State) (sc : Scope) (ro : Bool) (k : Nat) : (s.acquire sc ro).byte k = s.byte k := by
  have ⟨_, _, _, _, hs, hm⟩ := s.acquire_frame sc ro
  rw [State.byte, State.byte, hs, hm]

/-- What an atomic leaves before its destination is written (R117). -/
def State.acquiring (s : State) (sc : Scope) (acq : Bool) : State := if acq then s.acquire sc false else s

theorem amoFinish_eq (op : AmoOp) (d : Reg) (wide : Bool) (sc : Scope) (acq : Bool) (old : Nat) (s : State) :
    amoFinish op d wide sc acq old s = .next ((s.acquiring sc acq).set d (amoValue wide (amoUnsigned op) old)).advance := rfl

theorem State.acquiring_sameHarts (s : State) (sc : Scope) (acq : Bool) : SameHarts s (s.acquiring sc acq) := by
  unfold State.acquiring
  split
  · exact s.acquire_sameHarts sc false
  · exact .refl s

theorem State.byte_acquiring (s : State) (sc : Scope) (acq : Bool) (k : Nat) : (s.acquiring sc acq).byte k = s.byte k := by
  unfold State.acquiring
  split
  · exact s.byte_acquire sc false k
  · rfl

theorem State.byte_result_acquiring (s : State) (sc : Scope) (acq : Bool) (d : Reg) (w : Word) (k : Nat) :
    ((s.acquiring sc acq).set d w).advance.byte k = s.byte k := s.byte_acquiring sc acq k

/-! ### Atomics on scratchpad words (R117 to R119) -/

/-- What an atomic does to the word at its place (R119, R177): its new value is stored, or links on the line are cleared. -/
def State.atomStored (s : State) (key n : Nat) : Option Nat → State
  | none => s.clearLinks (lineOf key)
  | some v => (s.putNat key n v).noteWrite (lineOf key)

theorem State.atomStored_sameHarts (s : State) (key n : Nat) (o : Option Nat) : SameHarts s (s.atomStored key n o) := by
  cases o <;> exact ⟨rfl, rfl, rfl, rfl⟩

theorem State.byte_atomStored_ne (s : State) (key n : Nat) (o : Option Nat) (hwf : Memory.wf s.mem = true) : KeepsBytes key n s (s.atomStored key n o) := by
  intro k hk
  cases o with
  | none => rfl
  | some v => exact s.byte_putNat_ne key n v k hwf hk

theorem State.memNat_atomStored (s : State) (key n : Nat) (o : Option Nat) (hwf : Memory.wf s.mem = true)
    (hv : ∀ v, o = some v → v < 256 ^ n) : (s.atomStored key n o).memNat key n = o.getD (s.memNat key n) := by
  cases o with
  | none => exact State.memNat_congr s _ n key fun _ _ _ => rfl
  | some v =>
    have hb := State.memNat_congr (s.putNat key n v) (s.atomStored key n (some v)) n key fun _ _ _ => rfl
    rw [hb, s.memNat_putNat key v hwf, Option.getD_some, Nat.mod_eq_of_lt (hv v rfl)]

section
variable {s : State} {sc : Scope} {op : AmoOp} {d a b : Reg} {wide acq : Bool} {loc : Loc} {w old : Nat}

/-- The access of an atomic to a bank, where neither the detector nor a watchpoint has a say. -/
theorem State.amoAccess_bank (hk : loc.kind = .bank) (hread : s.bankRead loc.key (w / 8) = .val old) (addr operand cmp : Nat)
    (hrace : s.race s.hart loc.key (w / 8) false true = some s) (hracy : ∀ u : State, u.racy s.hart.tk.part loc.key = false)
    (hw : ∀ x, s.hart.watched addr (w / 8) x = false) (hl : isLocal addr = true) :
    s.amoAccess sc op addr loc w operand cmp =
      (.val old, s.atomStored loc.key (w / 8) (amoApply op w old operand cmp)) := by
  have hrun : s.atomicAt s.hart sc loc w (·.matches op w) operand (fun old => amoApply op w old operand cmp) =
      (.val old, s.atomStored loc.key (w / 8) (amoApply op w old operand cmp)) := by
    simp only [State.atomicAt, hk, hread]
    cases amoApply op w old operand cmp <;> rfl
  have hsend : s.sendsAtom sc loc op w = false := by unfold State.sendsAtom; rw [hk]; rfl
  have hshadow : ∀ u : State, u.shadowStore s.hart loc.key (w / 8) true = u := fun u => by rw [State.shadowStore, hracy, if_neg Bool.false_ne_true]
  simp only [State.amoAccess, hsend, Bool.false_eq_true, if_false, hrun, State.amoChecked, hrace, hw, Bool.or_self, hshadow, ite_self, hl,
    if_true]

/-- The vector wait of `.acq` is over (R117). -/
theorem vectorWait_eq_false (hq : acq = true → s.hart.vs.vq = []) : (acq && !s.hart.vectorDone) = false := by
  cases acq with
  | false => rfl
  | true => rw [Hart.vectorDone, hq rfl]; rfl

/-- An atomic without `.rel` whose checks and access give a value (R117). -/
theorem amo_of_access {u : State} (hr : s.hart.atomReply = none) (hq : acq = true → s.hart.vs.vq = []) (hssb : s.hart.ssb = [])
    (hloc : s.amoLoc (s.get a).toNat (if wide then 64 else 32) = .ok loc)
    (hacc : s.amoAccess sc op (s.get a).toNat loc (if wide then 64 else 32) (s.get b).toNat (s.get d).toNat = (.val old, u)) :
    amo op d a b wide sc acq false s = amoFinish op d wide sc acq old u := by
  have hv := vectorWait_eq_false hq
  simp only [amo, hr, hv, Bool.false_eq_true, if_false, hssb, List.isEmpty_nil, Bool.not_true, hloc, hacc]

/-- An atomic without `.rel` waits while the walk of its address does (R343). -/
theorem amo_of_wait (hr : s.hart.atomReply = none) (hq : acq = true → s.hart.vs.vq = []) (hssb : s.hart.ssb = [])
    (hloc : s.amoLoc (s.get a).toNat (if wide then 64 else 32) = .error none) :
    amo op d a b wide sc acq false s = .next (s.waitFor .memory) := by
  have hv := vectorWait_eq_false hq
  simp only [amo, hr, hv, Bool.false_eq_true, if_false, hssb, List.isEmpty_nil, Bool.not_true, hloc]

/-- An atomic without `.rel` that fails a check before its access (R118). -/
theorem amo_of_fault {c : Cause} (hr : s.hart.atomReply = none) (hq : acq = true → s.hart.vs.vq = []) (hssb : s.hart.ssb = [])
    (hloc : s.amoLoc (s.get a).toNat (if wide then 64 else 32) = .error (some c)) :
    amo op d a b wide sc acq false s = .next (s.trap c (s.get a)) := by
  have hv := vectorWait_eq_false hq
  simp only [amo, hr, hv, Bool.false_eq_true, if_false, hssb, List.isEmpty_nil, Bool.not_true, hloc]
end

/-- The result and the frame of an atomic on scratchpad bytes, and its alignment check, where `new` is the word it leaves. -/
theorem amo_spad (s : State) (op : AmoOp) (d a b : Reg) (wide acq : Bool) (sc : Scope) (off new : Nat) (hwf : Memory.wf s.mem = true)
    (hssb : s.hart.ssb = []) (hr : s.hart.atomReply = none) (hq : acq = true → s.hart.vs.vq = []) (n : Nat) (hn : n = if wide then 8 else 4)
    (hnew : ∀ old, old = s.memNat (spadKey s.hart.core off) n → old < 2 ^ (8 * n) →
      (amoApply op (8 * n) old (s.get b).toNat (s.get d).toNat).getD old = new ∧ new < 2 ^ (8 * n)) :
    (SpadAt s (s.get a) n off → ∃ t, amo op d a b wide sc acq false s = .next t ∧ t.memNat (spadKey s.hart.core off) n = new ∧
      KeepsBytes (spadKey s.hart.core off) n s t ∧ KeepsX d s t ∧
      (d ≠ 0 → t.get d = amoValue wide (amoUnsigned op) (s.memNat (spadKey s.hart.core off) n)) ∧ KeepsOther s t ∧
      t.hart.pc = s.hart.pc + 4 ∧ t.hart.ssb = []) ∧
    ((s.get a).toNat % n ≠ 0 → amo op d a b wide sc acq false s = .next (s.trap .misalign (s.get a))) := by
  have hw : (if wide then 64 else 32) = 8 * n := by cases wide <;> simp [hn]
  have hw8 : 8 * n / 8 = n := by omega
  have hn0 : 0 < n := by cases wide <;> simp [hn]
  have hdvd : n ∣ 2 ^ 63 := by cases wide <;> norm_num [hn]
  constructor
  · intro hs
    have hloc : s.amoLoc (s.get a).toNat (if wide then 64 else 32) = .ok { kind := .bank, key := spadKey s.hart.core off } := by
      rw [hw, State.amoLoc, hw8, if_neg (not_not_intro (hs.mod hdvd)), hs.scalarLoc hn0 rfl]
      rfl
    have hracy : ∀ u : State, u.racy s.hart.tk.part (spadKey s.hart.core off) = false := fun u => u.racy_spad ..
    have hacc := State.amoAccess_bank (sc := sc) (op := op) (w := 8 * n) (loc := { kind := .bank, key := spadKey s.hart.core off }) rfl
      (by rw [hw8]; exact hs.bankRead) (s.get a).toNat (s.get b).toNat (s.get d).toNat (s.race_spad ..) hracy
      (by rw [hw8]; exact hs.not_watched) hs.isLocal
    rw [hw8, ← hw] at hacc
    refine ⟨_, (amo_of_access hr hq hssb hloc hacc).trans (amoFinish_eq ..), ?_⟩
    generalize ho : amoApply op (if wide then 64 else 32) (s.memNat (spadKey s.hart.core off) n) (s.get b).toNat (s.get d).toNat = o
    obtain ⟨hget, hlt⟩ := hnew _ rfl (s.memNat_lt n _)
    rw [← hw, ho] at hget
    have hov : ∀ v, o = some v → v < 256 ^ n := by
      rintro v rfl
      rw [show (256 : Nat) = 2 ^ 8 by norm_num, ← pow_mul, show v = new from hget]
      exact hlt
    have hmem := s.memNat_atomStored (spadKey s.hart.core off) n o hwf hov
    have hkeep := s.byte_atomStored_ne (spadKey s.hart.core off) n o hwf
    have hregs := ((s.atomStored_sameHarts (spadKey s.hart.core off) n o).trans (State.acquiring_sameHarts _ sc acq)).keepsRegs
    obtain ⟨hx, hother, hssb'⟩ := hregs.result d (amoValue wide (amoUnsigned op) (s.memNat (spadKey s.hart.core off) n))
    have hpc := ((s.atomStored_sameHarts (spadKey s.hart.core off) n o).trans (State.acquiring_sameHarts _ sc acq)).hart
    refine ⟨?_, fun k hk => ?_, hx, fun hd => ?_, hother, ?_, hssb'.trans hssb⟩
    · rw [← hget, ← hmem]
      exact State.memNat_congr _ _ n _ fun k _ _ => State.byte_result_acquiring ..
    · rw [← hkeep k hk]
      exact State.byte_result_acquiring ..
    · rw [State.get_advance, State.get_set_self, if_neg hd]
    · show (Hart.set _ d _).pc + 4 = _
      rw [Hart.set_pc, hpc]
  · intro hm
    refine amo_of_fault hr hq hssb ?_
    rw [hw, State.amoLoc, hw8, if_pos hm]

end Sys2Proof.Machine
end

section
/-! PROOFS. Scalar memory (05), part 3: the atomics on scratchpad words settled (R117, R119), and the address checks in their order
(R116, R118). -/
namespace Sys2Proof.Machine

/-! ### The results of the atomics (R117) -/

/-- `sext` of R57 of a number that fits its bits. -/
theorem sextI_of_lt {v w : Nat} (hw : 0 < w) (hv : v < 2 ^ w) : sextI v w = if v < 2 ^ (w - 1) then (v : Int) else v - 2 ^ w := by
  unfold sextI
  rw [Nat.mod_eq_of_lt hv, if_neg (by omega)]

/-- The value an atomic hands over (R117). -/
theorem amoValue_eq (wide u : Bool) (old : Nat) :
    amoValue wide u old = if wide || u then BitVec.ofNat 64 old else (BitVec.ofNat 32 old).signExtend 64 := by
  rw [amoValue, sextW_eq_signExtend old 32 (by omega)]

/-- A choice of two numbers below a limit is below it. -/
theorem ite_lt_of_lt {c : Prop} [Decidable c] {x y m : Nat} (hx : x < m) (hy : y < m) : (if c then x else y) < m := by
  split <;> assumption

/-- Settles O22: each atomic is `amo` with an operation whose new value is the row's. -/
theorem atomicResults : Obligations.AtomicResults := by
  unfold Obligations.AtomicResults
  intro s d a b wide sc q off n key old x c sg ext hwf hssb hr hq
  have h8 : 0 < 8 * n := by cases wide <;> simp [n]
  have hold : old < 2 ^ (8 * n) := s.memNat_lt n key
  have hx : x < 2 ^ (8 * n) := Nat.mod_lt _ (Nat.two_pow_pos _)
  have hsg : ∀ v, v < 2 ^ (8 * n) → sextI v (8 * n) = sg v := fun v hv => sextI_of_lt h8 hv
  have hext : ∀ u, amoValue wide u old = ext u := fun u => amoValue_eq wide u old
  have hop := fun (op : AmoOp) (new : Nat) => amo_spad s op d a b wide q sc off new hwf hssb hr hq n rfl
  simp only [List.forall_mem_cons, List.not_mem_nil, false_imp_iff, implies_true, and_true, ← hext, ← hsg old hold, ← hsg x hx]
  refine ⟨hop .add _ ?add, hop .and _ ?and, hop .or _ ?or, hop .xor _ ?xor, hop .min _ ?min, hop .minn _ ?minn, hop .max _ ?max,
    hop .maxn _ ?maxn, hop .swap _ ?swap, hop .cas _ ?cas⟩
  all_goals rintro _ rfl -
  case add => exact ⟨rfl, Nat.mod_lt _ (Nat.two_pow_pos _)⟩
  case and => exact ⟨rfl, Nat.and_lt_two_pow _ hx⟩
  case or => exact ⟨rfl, Nat.or_lt_two_pow hold hx⟩
  case xor => exact ⟨rfl, Nat.xor_lt_two_pow hold hx⟩
  case min => exact ⟨rfl, ite_lt_of_lt hold hx⟩
  case minn => exact ⟨rfl, min_lt_of_left_lt hold⟩
  case max => exact ⟨rfl, ite_lt_of_lt hx hold⟩
  case maxn => exact ⟨rfl, max_lt hold hx⟩
  case swap => exact ⟨rfl, hx⟩
  case cas =>
    refine ⟨?_, ite_lt_of_lt hx hold⟩
    show (if old = c then some x else none).getD old = _
    split <;> rfl

/-! ### The address checks (R116, R118) -/

section
variable {s : State} {h : Hart} {n len : Nat} {acc : Acc}

theorem State.scalarLoc_local (hacc : (acc == .exec) = false) (hn : 2 ^ 63 ≤ n) : s.scalarLoc h n len acc = .of (s.localLoc h n len) := by
  have hl : isLocal n = true := decide_eq_true hn
  simp only [State.scalarLoc, hl, hacc, Bool.false_eq_true, if_true, if_false]

/-- A global address with bits 62:52 set has no translation (R29). -/
theorem State.scalarLoc_high (hn : n < 2 ^ 63) (hb : 2 ^ 52 ≤ n) : s.scalarLoc h n len acc = .error (some .page) := by
  have hl : isLocal n = false := decide_eq_false (by omega)
  have hbits : bitsOf n 62 52 ≠ 0 := by unfold bitsOf; omega
  simp only [State.scalarLoc, hl, hbits, Bool.false_eq_true, if_false, ne_eq, not_false_eq_true, if_true]

/-- A global address goes through the page tables (R116). -/
theorem State.scalarLoc_of_leaf_error (hn : n < 2 ^ 52) {x : Option Cause} (hx : s.leafFor h.core h.tk.part h.tk.ctx n = .error x) :
    s.scalarLoc h n len acc = .error x := by
  have hl : isLocal n = false := decide_eq_false (by omega)
  have hbits : bitsOf n 62 52 = 0 := by unfold bitsOf; omega
  simp only [State.scalarLoc, hl, hbits, Bool.false_eq_true, if_false, ne_eq, not_true_eq_false, hx]
theorem State.scalarLoc_of_leaf (hn : n < 2 ^ 52) {e : Word} {k : Nat} (hx : s.leafFor h.core h.tk.part h.tk.ctx n = .ok (e, k)) :
    s.scalarLoc h n len acc = .of (s.route h.tk.part e k n acc true) := by
  have hl : isLocal n = false := decide_eq_false (by omega)
  have hbits : bitsOf n 62 52 = 0 := by unfold bitsOf; omega
  simp only [State.scalarLoc, hl, hbits, Bool.false_eq_true, if_false, ne_eq, not_true_eq_false, hx]
end

/-- What a word says of its address checks: it takes their faults, waits with the walk, and, an atomic, refuses a remote place without a
path for it. -/
structure ChecksFirst (s : State) (j : Instr) (a : Word) (acc : Acc) (atomic : Bool) : Prop where
  fault : ∀ c, s.scalarLoc s.hart a.toNat 8 acc = .error (some c) → exec j s = .next (s.trap c a)
  waits : s.scalarLoc s.hart a.toNat 8 acc = .error none → exec j s = .next (s.waitFor .memory)
  path : ∀ loc, s.scalarLoc s.hart a.toNat 8 acc = .ok loc → loc.kind = .remote → loc.ar = false → atomic = true →
    exec j s = .next (s.trap .atomicPath a)

section
variable {s : State} {j : Instr} {d a b : Reg}

theorem checksFirst_load (hj : exec j s = load 8 (BitVec.ofNat 64) d a 0 s) (ha : (s.get a).toNat % 8 = 0) :
    ChecksFirst s j (s.get a) .read false := by
  have haddr : s.maddr a 0 = s.get a := by simp [State.maddr]
  refine ⟨fun c hc => ?_, fun hc => ?_, fun _ _ _ _ h => Bool.noConfusion h⟩
  · simp only [hj, load, haddr, State.scalarLoad, ha, hc, ne_eq, not_true_eq_false, if_false]
  · simp only [hj, load, haddr, State.scalarLoad, ha, hc, ne_eq, not_true_eq_false, if_false]

theorem checksFirst_store (hj : exec j s = store 8 d a 0 s) (ha : (s.get a).toNat % 8 = 0) :
    ChecksFirst s j (s.get a) .write false := by
  have haddr : s.maddr a 0 = s.get a := by simp [State.maddr]
  refine ⟨fun c hc => ?_, fun hc => ?_, fun _ _ _ _ h => Bool.noConfusion h⟩
  · simp only [hj, store, haddr, State.scalarStore, ha, hc, ne_eq, not_true_eq_false, if_false]
  · simp only [hj, store, haddr, State.scalarStore, ha, hc, ne_eq, not_true_eq_false, if_false]

theorem checksFirst_amo {op : AmoOp} {sc : Scope} {q : Bool} (hj : exec j s = amo op d a b true sc q false s) (hssb : s.hart.ssb = [])
    (hr : s.hart.atomReply = none) (hq : q = true → s.hart.vs.vq = []) (ha : (s.get a).toNat % 8 = 0) :
    ChecksFirst s j (s.get a) .write true := by
  refine ⟨fun c hc => ?_, fun hc => ?_, fun loc hloc hk har _ => ?_⟩
  · refine hj.trans (amo_of_fault hr hq hssb ?_)
    rw [State.amoLoc, if_pos rfl, if_neg (not_not_intro ha), hc]
  · refine hj.trans (amo_of_wait hr hq hssb ?_)
    rw [State.amoLoc, if_pos rfl, if_neg (not_not_intro ha), hc]
  · refine hj.trans (amo_of_fault hr hq hssb ?_)
    rw [State.amoLoc, if_pos rfl, if_neg (not_not_intro ha), hloc]
    simp only [hk, har, Bool.not_false, Bool.and_true, beq_self_eq_true, if_true]
end

/-- The faults of a translated access, in their order (R116, R273, R346). -/
theorem State.route_perm {s : State} {part k va : Nat} {e : Word} {acc : Acc} (hacc : acc ≠ .exec) (sc : Bool)
    (he : e.getLsbD (if acc = .read then 2 else 3) = false) : s.route part e k va acc sc = .error .perm := by
  cases acc with
  | exec => exact absurd rfl hacc
  | read => simp only [State.route, show e.getLsbD 2 = false from he, Bool.not_false, if_true]
  | write => simp only [State.route, show e.getLsbD 3 = false from he, Bool.not_false, if_true]

theorem State.route_partition {s : State} {part k va : Nat} {e : Word} {acc : Acc} (hacc : acc ≠ .exec) (sc : Bool)
    (he : e.getLsbD (if acc = .read then 2 else 3) = true) (hr : e.getLsbD 8 = false)
    (ho : s.owns part (ptePa e / 2 ^ k * 2 ^ k + va % 2 ^ k) (e.getLsbD 7) = false) : s.route part e k va acc sc = .error .partition := by
  cases acc with
  | exec => exact absurd rfl hacc
  | read => simp only [State.route, show e.getLsbD 2 = true from he, hr, ho, Bool.not_false, Bool.not_true, Bool.false_eq_true, if_true, if_false]
  | write => simp only [State.route, show e.getLsbD 3 = true from he, hr, ho, Bool.not_false, Bool.not_true, Bool.false_eq_true, if_true, if_false]

/-- A remote page gives a remote place, with an atomic path if it has AR and the route is direct (R118, R362). -/
theorem State.route_remote {s : State} {part k va : Nat} {e : Word} (sc : Bool) (hw : e.getLsbD 3 = true) (hr : e.getLsbD 8 = true)
    (ha : e.getLsbD 9 = false ∨ Config.direct (bitsOf e.toNat 63 56) = false) :
    ∃ loc, s.route part e k va .write sc = .ok loc ∧ loc.kind = .remote ∧ loc.ar = false := by
  have har : (e.getLsbD 9 && Config.direct (bitsOf e.toNat 63 56)) = false := by rcases ha with h | h <;> rw [h]; exacts [rfl, Bool.and_false _]
  simp only [State.route, hw, hr, Bool.not_true, Bool.false_eq_true, if_true, if_false]
  exact ⟨_, rfl, rfl, har⟩

/-- The checks of R116 and R118 of a word that takes them first. -/
theorem ChecksFirst.clauses {s : State} {j : Instr} {addr : Word} {acc : Acc} {atomic : Bool} (h : ChecksFirst s j addr acc atomic)
    (hacc : acc ≠ .exec) (hat : atomic = true → acc = .write) : let n := addr.toNat
    (2 ^ 63 ≤ n → localTarget s.hart.core n = none → exec j s = .next (s.trap .page addr)) ∧
    (2 ^ 63 ≤ n → ∀ c off, localTarget s.hart.core n = some (c, off) → s.spadOwned s.hart.tk.task c off 8 = false →
      exec j s = .next (s.trap .perm addr)) ∧
    (n < 2 ^ 63 → 2 ^ 52 ≤ n → exec j s = .next (s.trap .page addr)) ∧
    (n < 2 ^ 52 → ∀ c, s.leafFor s.hart.core s.hart.tk.part s.hart.tk.ctx n = .error (some c) → exec j s = .next (s.trap c addr)) ∧
    (n < 2 ^ 52 → s.leafFor s.hart.core s.hart.tk.part s.hart.tk.ctx n = .error none → exec j s = .next (s.waitFor .memory)) ∧
    (n < 2 ^ 52 → ∀ e k, s.leafFor s.hart.core s.hart.tk.part s.hart.tk.ctx n = .ok (e, k) →
      (e.getLsbD (if acc = .read then 2 else 3) = false → exec j s = .next (s.trap .perm addr)) ∧
      (e.getLsbD (if acc = .read then 2 else 3) = true → e.getLsbD 8 = false →
        s.owns s.hart.tk.part (ptePa e / 2 ^ k * 2 ^ k + n % 2 ^ k) (e.getLsbD 7) = false →
        exec j s = .next (s.trap .partition addr)) ∧
      (e.getLsbD 3 = true → e.getLsbD 8 = true → e.getLsbD 9 = false ∨ Config.direct (bitsOf e.toNat 63 56) = false → atomic = true →
        exec j s = .next (s.trap .atomicPath addr))) := by
  have hx : (acc == .exec) = false := by cases acc <;> first | rfl | exact absurd rfl hacc
  refine ⟨fun hn ht => h.fault _ ?_, fun hn c off ht ho => h.fault _ ?_, fun hn hb => h.fault _ (State.scalarLoc_high hn hb),
    fun hn c hc => h.fault _ (State.scalarLoc_of_leaf_error hn hc), fun hn hc => h.waits (State.scalarLoc_of_leaf_error hn hc),
    fun hn e k hl => ⟨fun he => h.fault _ ?_, fun he hr ho => h.fault _ ?_, fun hw hr ha hatomic => ?_⟩⟩
  · rw [State.scalarLoc_local hx hn, State.localLoc, ht]; rfl
  · rw [State.scalarLoc_local hx hn, State.localLoc, ht]; simp only [ho, Bool.false_eq_true, if_false]; rfl
  · rw [State.scalarLoc_of_leaf hn hl, State.route_perm hacc true he]; rfl
  · rw [State.scalarLoc_of_leaf hn hl, State.route_partition hacc true he hr ho]; rfl
  · obtain ⟨loc, hroute, hk, har⟩ := State.route_remote (s := s) (part := s.hart.tk.part) (k := k) (va := addr.toNat) true hw hr ha
    refine h.path loc ?_ hk har hatomic
    rw [hat hatomic, State.scalarLoc_of_leaf hn hl, hroute]
    rfl

/-- Settles O19: each word takes the checks of its address first. -/
theorem addressChecks : Obligations.AddressChecks := by
  unfold Obligations.AddressChecks
  intro s d a b sc q hssb hr hq p hp
  simp only [List.mem_cons, List.not_mem_nil, or_false] at hp
  rcases hp with rfl | rfl | rfl | rfl <;> intro addr n ha
  · exact (checksFirst_load rfl ha).clauses (by decide) (fun h => Bool.noConfusion h)
  · exact (checksFirst_store rfl ha).clauses (by decide) (fun h => Bool.noConfusion h)
  · exact (checksFirst_amo (op := .add) rfl hssb hr hq ha).clauses (by decide) (fun _ => rfl)
  · exact (checksFirst_amo (op := .cas) rfl hssb hr hq ha).clauses (by decide) (fun _ => rfl)

end Sys2Proof.Machine
end

section
/-! PROOFS. Scalar memory (05), part 4: an atomic anywhere keeps the harts, and the release of `.rel` (R117, R118, R128, R286). -/
namespace Sys2Proof.Machine

/-! ### Moves that keep the harts -/

section
variable {s t : State}

theorem State.send_sameHarts (s : State) (m : Msg) : SameHarts s (s.send m) := ⟨rfl, rfl, rfl, rfl⟩
theorem State.recordWrite_sameHarts (s : State) (h p i k n : Nat) (a : Bool) : SameHarts s (s.recordWrite h p i k n a) := ⟨rfl, rfl, rfl, rfl⟩

theorem State.shadowStore_sameHarts (s : State) (h : Hart) (k n : Nat) (a : Bool) : SameHarts s (s.shadowStore h k n a) := by
  unfold State.shadowStore
  split
  · exact s.recordWrite_sameHarts ..
  · exact .refl s

theorem State.race_sameHarts {h : Hart} {k n : Nat} {w a : Bool} (hr : s.race h k n w a = some t) : SameHarts s t := by
  rw [State.race_frame hr]
  exact ⟨rfl, rfl, rfl, rfl⟩

theorem State.flushQueue_sameHarts (s : State) (p : WqEntry → Bool) : SameHarts s (s.flushQueue p) := by
  have h := SameHarts.foldl (fun u (e : WqEntry) => u.applyLine e.line e.mask e.data) (fun u e => (u.applyLine_atHomes ..).sameHarts)
    (s.coh.wq.filter p) s
  exact ⟨h.hart, h.others, h.places, h.eng⟩

theorem State.evictLine_sameHarts (s : State) (core line : Nat) : SameHarts s (s.evictLine core line) := by
  unfold State.evictLine
  split
  · exact .refl s
  · simp only []
    split <;> exact ⟨rfl, rfl, rfl, rfl⟩

theorem State.makeRoom_sameHarts (s : State) (core line : Nat) : SameHarts s (s.makeRoom core line) := by
  unfold State.makeRoom
  split
  · exact .refl s
  · exact SameHarts.foldl _ (fun t v => t.evictLine_sameHarts core v) _ s

theorem State.evictHome_sameHarts {line : Nat} (h : s.evictHome line = some t) : SameHarts s t := by
  unfold State.evictHome at h
  simp only [] at h
  split at h
  · exact absurd h (by simp)
  · obtain rfl := Option.some.inj h
    have := (s.takeOwners_atHomes line 0xFFFF#16).sameHarts
    exact ⟨this.hart, this.others, this.places, this.eng⟩

theorem State.homeRoom_sameHarts {line : Nat} {m : BitVec 16} {w : WState} (h : s.homeRoom line m w = some t) : SameHarts s t := by
  unfold State.homeRoom at h
  obtain ⟨u, hu, h⟩ := Option.bind_eq_some_iff.mp h
  have hsu : SameHarts s u := by
    split at hu
    · obtain rfl := Option.some.inj hu
      exact .refl s
    · obtain ⟨v, -, hv⟩ := Option.bind_eq_some_iff.mp hu
      exact State.evictHome_sameHarts hv
  split at h
  · exact hsu.trans (State.freeSplit_atHomes h).sameHarts
  · obtain rfl := Option.some.inj h
    exact hsu

theorem State.registerWords_sameHarts {core line : Nat} {m : BitVec 16} (h : s.registerWords core line m = some t) : SameHarts s t := by
  unfold State.registerWords at h
  obtain ⟨r, hr, rfl⟩ := Option.map_eq_some_iff.mp h
  have hsr := (State.homeRoom_sameHarts hr).trans ((r.collect_atHomes line).trans ((r.collect line).takeOwners_atHomes line
    ((r.homeAt line).select m (fun w => w.isCore && w != .core core)))).sameHarts
  simp only []
  generalize (r.collect line).takeOwners line ((r.homeAt line).select m fun w => w.isCore && w != .core core) = v at hsr ⊢
  split
  · exact hsr
  · refine hsr.trans ((v.makeRoom_sameHarts core line).trans ?_)
    exact ⟨rfl, rfl, rfl, rfl⟩

theorem State.combFlush_sameHarts {b : CombLine} (h : s.combFlush b = some t) : SameHarts s t := by
  unfold State.combFlush at h
  split at h
  · exact absurd h (by simp)
  · simp only [] at h
    generalize hg : ({ s with coh := { s.coh with comb := s.coh.comb.filter fun c => !(c == b) } } : State) = g at h
    have hsg : SameHarts s g := by rw [← hg]; exact ⟨rfl, rfl, rfl, rfl⟩
    refine hsg.trans ?_
    split at h
    · split at h
      · obtain rfl := Option.some.inj h
        exact .refl g
      · obtain rfl := Option.some.inj h
        exact ((g.takeOwners_atHomes _ _).trans (State.foldLine_atHomes ..)).sameHarts
    · obtain rfl := Option.some.inj h
      exact (((g.collect_atHomes _).trans (State.takeOwners_atHomes ..)).trans ((State.applyLine_atHomes ..).trans (State.noteWrite_atHomes ..))).sameHarts

theorem State.combRoom_sameHarts {c : Nat} (h : s.combRoom c = some t) : SameHarts s t := by
  unfold State.combRoom at h
  simp only [] at h
  split at h
  · obtain rfl := Option.some.inj h
    exact .refl s
  · split at h
    · obtain rfl := Option.some.inj h
      exact .refl s
    · exact State.combFlush_sameHarts h
end

/-! ### The places of an atomic (R119) -/

section
variable (s : State) (h : Hart) (key w : Nat) (f : Nat → Option Nat)

theorem State.homeAtomic_sameHarts : SameHarts s (s.homeAtomic key w f).2 := by
  have hc := ((s.collect_atHomes (lineOf key)).trans (State.takeOwners_atHomes _ (lineOf key) (wordMask key (w / 8)))).sameHarts
  unfold State.homeAtomic
  simp only []
  repeat' split
  any_goals exact .refl s
  · exact hc
  all_goals exact hc.trans ⟨rfl, rfl, rfl, rfl⟩

theorem State.l1Atomic_sameHarts : SameHarts s (s.l1Atomic h key w f).2 := by
  have hrun : ∀ t : State, SameHarts t (match (t.coreAt h.core).l1Read key (w / 8) with
      | some (.val old) => (Rd.val old, match f old with
        | none => t.clearLinks (lineOf key)
        | some nw => t.l1Write h.core key (w / 8) (BitVec.ofNat 64 nw))
      | some r => (r, t)
      | none => (.wait .memory, t)).2 := by
    intro t
    repeat' split
    all_goals exact ⟨rfl, rfl, rfl, rfl⟩
  unfold State.l1Atomic
  simp only []
  split
  · exact .refl s
  split
  · exact hrun s
  split
  · exact .refl s
  split
  · exact .refl s
  split
  · split
    · exact .refl s
    · exact s.send_sameHarts _
  split
  · exact .refl s
  · next t ht =>
    have hst := State.registerWords_sameHarts ht
    split
    · exact hst
    · exact hst.trans (hrun t)

theorem State.cluPartial_sameHarts {c part ew operand old : Nat} {r : CRange} {t : State}
    (ht : s.cluPartial c part r key ew operand = some (old, t)) : SameHarts s t := by
  unfold State.cluPartial at ht
  simp only [] at ht
  split at ht
  · exact absurd ht (by simp)
  · split at ht
    · exact absurd ht (by simp)
    · next u hu =>
      obtain ⟨-, rfl⟩ := Prod.mk.inj (Option.some.inj ht)
      have hsu : SameHarts s u := by
        split at hu
        · obtain rfl := Option.some.inj hu
          exact .refl s
        · exact State.combRoom_sameHarts hu
      exact hsu.trans ⟨rfl, rfl, rfl, rfl⟩

theorem State.cluCopy_sameHarts (id c part : Nat) : SameHarts s (s.cluCopy id c part key w f).2 := by
  unfold State.cluCopy
  simp only []
  split
  · exact .refl s
  split
  · exact ⟨rfl, rfl, rfl, rfl⟩
  split
  · exact .refl s
  split
  · exact .refl s
  split
  · exact .refl s
  split
  · exact .refl s
  · next t ht =>
    have hst := (State.combRoom_sameHarts ht).trans (t.readyHome_atHomes (lineOf key) 0xFFFF#16).sameHarts
    split
    · exact hst
    · exact hst.trans ⟨rfl, rfl, rfl, rfl⟩

/-- The place of an atomic keeps the harts, whichever row of R119 gives it. -/
theorem State.atomicAt_sameHarts (sc : Scope) (loc : Loc) (m : CRange → Bool) (operand : Nat) :
    SameHarts s (s.atomicAt h sc loc w m operand f).2 := by
  have hq := s.flushQueue_sameHarts (·.line == lineOf loc.key)
  unfold State.atomicAt
  simp only []
  split
  case h_1 =>
    repeat' split
    all_goals exact ⟨rfl, rfl, rfl, rfl⟩
  case h_2 =>
    repeat' split
    all_goals exact ⟨rfl, rfl, rfl, rfl⟩
  case h_3 =>
    split
    · exact .refl s
    split
    · exact .refl s
    split
    · exact .refl s
    · split
      · exact hq.trans ⟨rfl, rfl, rfl, rfl⟩
      · exact hq.trans ⟨rfl, rfl, rfl, rfl⟩
  case h_4 =>
    split
    · exact .refl s
    split
    · split
      · split
        · exact .refl s
        · next ht => exact s.cluPartial_sameHarts _ ht
      · exact s.homeAtomic_sameHarts ..
    · split
      · exact s.l1Atomic_sameHarts ..
      · exact s.l1Atomic_sameHarts ..
      · exact s.cluCopy_sameHarts ..
      · exact s.homeAtomic_sameHarts ..
end

/-- The checks of RACE and WATCH keep the harts if what follows does (R118). -/
theorem State.amoChecked_sameHarts (s : State) (addr : Nat) (loc : Loc) (w : Nat) (go : State → Rd × State) (hgo : ∀ t, SameHarts t (go t).2) :
    SameHarts s (s.amoChecked addr loc w go).2 := by
  unfold State.amoChecked
  split
  · exact .refl s
  · next t ht =>
    split
    · exact .refl s
    · exact (State.race_sameHarts ht).trans (hgo t)

theorem State.amoAccess_sameHarts (s : State) (sc : Scope) (op : AmoOp) (addr : Nat) (loc : Loc) (w operand cmp : Nat) :
    SameHarts s (s.amoAccess sc op addr loc w operand cmp).2 := by
  have hrun := fun t : State => t.atomicAt_sameHarts s.hart w (fun old => amoApply op w old operand cmp) sc loc (·.matches op w) operand
  unfold State.amoAccess
  simp only []
  split
  · split
    · exact .refl s
    split
    · exact .refl s
    split
    · exact .refl s
    split
    · exact .refl s
    · exact s.amoChecked_sameHarts _ _ _ _ fun t => t.send_sameHarts _
  · split
    · refine s.amoChecked_sameHarts _ _ _ _ fun t => (hrun t).trans ?_
      generalize t.atomicAt s.hart sc loc w (·.matches op w) operand (fun old => amoApply op w old operand cmp) = x
      obtain ⟨r, u⟩ := x
      have hv : ∀ b : Bool, SameHarts u (if b then u.shadowStore s.hart loc.key (w / 8) true else u) := by
        intro b
        split
        · exact u.shadowStore_sameHarts ..
        · exact .refl u
      simp only []
      split
      · exact hv _
      · exact (hv _).trans (State.tlbFill_atHomes ..).sameHarts
    · exact hrun s

end Sys2Proof.Machine
end

section
/-! PROOFS. Scalar memory (05), part 5: releases (R128), and what every atomic leaves as it was (R117, R118, R286). -/
namespace Sys2Proof.Machine

/-! ### Releases (R128) -/

section
variable {s t : State} {sc : Scope} {eng : Bool}

/-- A release raises the interval number of the hart, and nothing else of it (R390). -/
theorem State.noteSync_true_hart (s : State) (sc : Scope) : (s.noteSync true sc).hart = { s.hart with interval := s.hart.interval + 1 } := by
  unfold State.noteSync
  simp only [if_true]
  split <;> rfl

theorem State.noteSync_true_eq (s : State) (sc : Scope) :
    s.noteSync true sc = { s with
      hart := { s.hart with interval := s.hart.interval + 1 }
      coh := { s.coh with syncs := (s.noteSync true sc).coh.syncs } } := by
  unfold State.noteSync
  simp only [if_true]
  split <;> rfl

theorem State.noteSync_true_keepsRegs (s : State) (sc : Scope) : KeepsRegs s (s.noteSync true sc) := by
  rw [State.noteSync_true_eq]
  exact ⟨fun _ => rfl, .refl s, rfl, rfl⟩

theorem State.flushCopies_sameHarts (h : s.flushCopies = some t) : SameHarts s t := by
  unfold State.flushCopies at h
  simp only [] at h
  have key : ∀ (l : List CombLine) (o : Option State), (∀ u, o = some u → SameHarts s u) →
      l.foldl (fun o b => o.bind fun t => t.combFlush b) o = some t → SameHarts s t := by
    intro l
    induction l with
    | nil => exact fun o ho h => ho t h
    | cons b r ih =>
      intro o ho h
      refine ih _ (fun u hu => ?_) h
      obtain ⟨v, hv, hb⟩ := Option.bind_eq_some_iff.mp hu
      exact (ho v hv).trans (State.combFlush_sameHarts hb)
  exact key _ _ (fun u hu => by obtain rfl := Option.some.inj hu; exact .refl s) h

/-- What a release that goes on has done (R128): nothing waits in the vector queue, the SSB and the FIFOs, and the copies that the hart
modified have gone home. -/
theorem State.release_ok (h : s.release sc eng = .ok t) :
    s.hart.vectorDone = true ∧ s.hart.ssb = [] ∧ ∃ u, SameHarts s u ∧ t = u.noteSync true sc := by
  unfold State.release at h
  simp only [] at h
  split at h
  · exact absurd h (by simp)
  next hv =>
  split at h
  · exact absurd h (by simp)
  next hssb =>
  have hv' : s.hart.vectorDone = true := by simpa using hv
  have hs' : s.hart.ssb = [] := by
    rw [Bool.not_eq_true, Bool.or_eq_false_iff] at hssb
    simpa using hssb.1
  refine ⟨hv', hs', ?_⟩
  split at h
  · exact absurd h (by simp)
  split at h
  · exact absurd h (by simp)
  split at h
  · split at h
    · exact absurd h (by simp)
    · next u hu =>
      injection h with h
      exact ⟨u, State.flushCopies_sameHarts hu, h.symm⟩
  · injection h with h
    exact ⟨s, .refl s, h.symm⟩

theorem State.release_keepsRegs (h : s.release sc eng = .ok t) : KeepsRegs s t := by
  obtain ⟨-, -, u, hu, rfl⟩ := State.release_ok h
  exact hu.keepsRegs.trans (u.noteSync_true_keepsRegs sc)

theorem State.release_hart (h : s.release sc eng = .ok t) : t.hart = { s.hart with interval := s.hart.interval + 1 } := by
  obtain ⟨-, -, u, hu, rfl⟩ := State.release_ok h
  rw [State.noteSync_true_hart, hu.hart]
end

/-! ### The frame of every atomic -/

section
variable {s t : State} {op : AmoOp} {d a b : Reg} {wide acq rel : Bool} {sc : Scope}

/-- The end of an atomic after moves that keep the registers. -/
theorem amoFinish_keeps {u : State} {old : Nat} (hu : KeepsRegs s u) (h : amoFinish op d wide sc acq old u = .next t) :
    KeepsX d s t ∧ KeepsOther s t ∧ t.hart.ssb = s.hart.ssb := by
  rw [amoFinish_eq] at h
  injection h with h
  subst h
  exact (hu.trans (u.acquiring_sameHarts sc acq).keepsRegs).result d _

/-- An atomic takes its reply (R293). -/
theorem State.dropReply_keepsRegs (s : State) : KeepsRegs s (s.onHart fun h => { h with atomReply := none }) :=
  ⟨fun _ => rfl, .refl s, rfl, rfl⟩

/-- What an atomic does once its access has answered (R116, R117). -/
def amoEnds (op : AmoOp) (d : Reg) (wide : Bool) (sc : Scope) (acq : Bool) (addr : Word) : Rd × State → Out
  | (.wait x, u) => .next (u.waitFor x)
  | (.fault c, u) => .next (u.trap c addr)
  | (.val old, u) => amoFinish op d wide sc acq old u

/-- What an atomic does after its release: the wait for the SSB, the checks, the access (R117, R118, R286). -/
def amoGoes (op : AmoOp) (d : Reg) (wide : Bool) (sc : Scope) (acq : Bool) (addr : Word) (w operand cmp : Nat) (t : State) : Out :=
  if !t.hart.ssb.isEmpty then .next (t.waitFor .drain)
  else match t.amoLoc addr.toNat w with
    | .error none => .next (t.waitFor .memory)
    | .error (some c) => .next (t.trap c addr)
    | .ok loc => amoEnds op d wide sc acq addr (t.amoAccess sc op addr.toNat loc w operand cmp)

theorem amo_eq (op : AmoOp) (d a b : Reg) (wide : Bool) (sc : Scope) (acq rel : Bool) (s : State) :
    amo op d a b wide sc acq rel s =
      match s.hart.atomReply with
      | some v => amoFinish op d wide sc acq v.toNat (s.onHart fun h => { h with atomReply := none })
      | none =>
        if acq && !s.hart.vectorDone then .next (s.waitFor .vector)
        else match (if rel then s.release sc false else .ok s) with
          | .error x => .next (s.waitFor x)
          | .ok t => amoGoes op d wide sc acq (s.get a) (if wide then 64 else 32) (s.get b).toNat (s.get d).toNat t := rfl

theorem amoEnds_keeps {addr : Word} {r : Rd × State} (hr : KeepsRegs s r.2) (h : amoEnds op d wide sc acq addr r = .next t) :
    KeepsX d s t ∧ KeepsOther s t ∧ t.hart.ssb = s.hart.ssb := by
  obtain ⟨x, u⟩ := r
  cases x with
  | wait w =>
    injection h with h
    subst h
    exact (hr.trans (u.waitFor_keepsRegs _)).keepsX d
  | fault c =>
    injection h with h
    subst h
    exact (hr.trans (u.trap_keepsRegs _ _)).keepsX d
  | val old => exact amoFinish_keeps hr h

theorem amoGoes_keeps {r : State} {addr : Word} {w operand cmp : Nat} (hr : KeepsRegs s r)
    (h : amoGoes op d wide sc acq addr w operand cmp r = .next t) : KeepsX d s t ∧ KeepsOther s t ∧ t.hart.ssb = s.hart.ssb := by
  unfold amoGoes at h
  split at h
  · injection h with h
    subst h
    exact (hr.trans (r.waitFor_keepsRegs _)).keepsX d
  split at h
  · injection h with h
    subst h
    exact (hr.trans (r.waitFor_keepsRegs _)).keepsX d
  · injection h with h
    subst h
    exact (hr.trans (r.trap_keepsRegs _ _)).keepsX d
  · exact amoEnds_keeps (hr.trans (r.amoAccess_sameHarts ..).keepsRegs) h

/-- An atomic keeps every register but its destination, every other hart and the SSB, wherever it ends. -/
theorem amo_keeps (h : amo op d a b wide sc acq rel s = .next t) : KeepsX d s t ∧ KeepsOther s t ∧ t.hart.ssb = s.hart.ssb := by
  rw [amo_eq] at h
  split at h
  · exact amoFinish_keeps s.dropReply_keepsRegs h
  split at h
  · injection h with h
    subst h
    exact (s.waitFor_keepsRegs _).keepsX d
  split at h
  · injection h with h
    subst h
    exact (s.waitFor_keepsRegs _).keepsX d
  next r hr =>
  refine amoGoes_keeps ?_ h
  split at hr
  · exact State.release_keepsRegs hr
  · injection hr with hr
    subst hr
    exact .refl s

/-- With `.acq` an atomic waits while the vector queue holds a word (R117). -/
theorem amo_waits_vector (hr : s.hart.atomReply = none) (hq : acq = true) (hv : s.hart.vs.vq ≠ []) :
    amo op d a b wide sc acq false s = .next (s.waitFor .vector) := by
  have hd : s.hart.vectorDone = false := by rw [Hart.vectorDone]; simpa using hv
  simp only [amo, hr, hq, hd, Bool.not_false, Bool.and_self, if_true]

/-- An atomic waits while the SSB holds a store (R286). -/
theorem amo_waits_drain (hr : s.hart.atomReply = none) (hv : s.hart.vs.vq = []) (hssb : s.hart.ssb ≠ []) :
    amo op d a b wide sc acq false s = .next (s.waitFor .drain) := by
  have hd := vectorWait_eq_false (s := s) (acq := acq) fun _ => hv
  have he : s.hart.ssb.isEmpty = false := by simpa using hssb
  simp only [amo, hr, hd, he, Bool.false_eq_true, if_false, Bool.not_false, if_true]

/-- With `.rel` an atomic does after the release what it does without (R117). -/
theorem amo_after_release (hr : s.hart.atomReply = none) (ht : s.release sc false = .ok t) :
    amo op d a b wide sc acq true s = amo op d a b wide sc acq false t := by
  obtain ⟨hv, -⟩ := State.release_ok ht
  have hh := State.release_hart ht
  have hr' : t.hart.atomReply = none := by rw [hh]; exact hr
  have hv' : t.hart.vectorDone = true := by rw [hh]; exact hv
  have hget := (State.release_keepsRegs ht).get
  simp only [amo, hr, hr', hv, hv', Bool.not_true, Bool.and_false, Bool.false_eq_true, if_false, if_true, ht, hget]

/-- With `.rel` it waits for what the release waits for. -/
theorem amo_waits_release {x : Wait} (hr : s.hart.atomReply = none) (hq : acq = true → s.hart.vs.vq = []) (hx : s.release sc false = .error x) :
    amo op d a b wide sc acq true s = .next (s.waitFor x) := by
  have hv := vectorWait_eq_false hq
  simp only [amo, hr, hv, Bool.false_eq_true, if_false, if_true, hx]
end

/-- Settles O23: every atomic is `amo`, which keeps the registers whatever its access does. -/
theorem atomicFrame : Obligations.AtomicFrame := by
  unfold Obligations.AtomicFrame
  intro s d a b w sc q
  simp only [List.forall_mem_cons, List.not_mem_nil, false_imp_iff, implies_true, and_true]
  refine ⟨?_, ?_, ?_, ?_, ?_, ?_, ?_, ?_, ?_, ?_⟩
  all_goals exact ⟨fun l t h => amo_keeps h, amo_waits_vector, amo_waits_drain, fun t => amo_after_release, fun x => amo_waits_release⟩

end Sys2Proof.Machine
end

section
/-! PROOFS. Scalar memory (05), part 6: the fences, `lsync` and the invalidations (R128, R129). -/
namespace Sys2Proof.Machine

/-! ### Self-invalidation and the read-only ways (R278, R302) -/

section
variable (s : State) (core : Nat) (p : Nat → Bool)

theorem State.coreAt_dropFills (n : Nat) : (s.dropFills core p).coreAt n = s.coreAt n := rfl

theorem State.selfInvalidate_l1 : ((s.selfInvalidate core p).coreAt core).l1 =
    (updIf (fun l : L1Line => p l.line) (fun l => { l with valid := l.valid &&& l.reg, poison := l.poison &&& l.reg })
      (s.coreAt core).l1).filter fun l => !(l.valid ||| l.reg ||| l.poison == 0#16) := by
  rw [State.selfInvalidate, State.coreAt_dropFills, State.coreAt_onCore]
  exact fun _ => rfl

/-- A line of the L1 after a self-invalidation comes from one of before: its valid-unregistered words are gone, where it is one of the
lines, and it holds something. -/
theorem State.mem_selfInvalidate {m : L1Line} : m ∈ ((s.selfInvalidate core p).coreAt core).l1 ↔
    (∃ l ∈ (s.coreAt core).l1, m = if p l.line then { l with valid := l.valid &&& l.reg, poison := l.poison &&& l.reg } else l) ∧
    m.valid ||| m.reg ||| m.poison ≠ 0#16 := by
  rw [State.selfInvalidate_l1, List.mem_filter, updIf, List.mem_map]
  constructor
  · rintro ⟨⟨l, hl, rfl⟩, h⟩
    exact ⟨⟨l, hl, rfl⟩, by simpa using h⟩
  · rintro ⟨⟨l, hl, rfl⟩, h⟩
    exact ⟨⟨l, hl, rfl⟩, by simpa using h⟩

theorem State.selfInvalidate_sameHarts : SameHarts s (s.selfInvalidate core p) := ⟨rfl, rfl, rfl, rfl⟩
theorem State.dropRo_sameHarts : SameHarts s (s.dropRo core) := ⟨rfl, rfl, rfl, rfl⟩

theorem State.dropRo_ro : ((s.dropRo core).coreAt core).ro = [] := by
  rw [State.dropRo, State.coreAt_dropFills, State.coreAt_onCore]
  exact fun _ => rfl

theorem State.dropRo_l1 : ((s.dropRo core).coreAt core).l1 = (s.coreAt core).l1 := by
  rw [State.dropRo, State.coreAt_dropFills, State.coreAt_onCore]
  exact fun _ => rfl
end

theorem and_and_not_self (x y : BitVec 16) : x &&& y &&& ~~~y = 0#16 := by
  rw [BitVec.and_assoc, BitVec.and_not_self]
  exact BitVec.and_zero

theorem or_or_ne_zero {x y z : BitVec 16} (h : y ≠ 0#16) : x ||| y ||| z ≠ 0#16 := by
  intro h0
  rw [BitVec.or_eq_zero_iff, BitVec.or_eq_zero_iff] at h0
  exact h h0.1.2

/-- A self-invalidation of the lines that satisfy `p` (R302). -/
theorem invalidatedOn_selfInvalidate (s u : State) (p : Nat → Bool)
    (hu : (u.coreAt s.hart.core).l1 = ((s.selfInvalidate s.hart.core p).coreAt s.hart.core).l1) : InvalidatedOn s u fun l => p l = true := by
  unfold InvalidatedOn
  rw [hu]
  refine ⟨fun m hm hp => ?_, fun l hl hp hreg => ?_, fun l hl hp hne => ?_⟩
  · obtain ⟨⟨l, -, rfl⟩, -⟩ := (s.mem_selfInvalidate _ p).mp hm
    have hline : p l.line = true := by
      by_cases h : p l.line = true
      · exact h
      · rw [if_neg h] at hp
        exact hp
    rw [if_pos hline]
    exact and_and_not_self _ _
  · exact ⟨{ l with valid := l.valid &&& l.reg, poison := l.poison &&& l.reg },
      (s.mem_selfInvalidate _ p).mpr ⟨⟨l, hl, by rw [if_pos hp]⟩, or_or_ne_zero hreg⟩, rfl, rfl, rfl, rfl⟩
  · exact (s.mem_selfInvalidate _ p).mpr ⟨⟨l, hl, by rw [if_neg hp]⟩, hne⟩

theorem InvalidatedOn.all {s u : State} (h : InvalidatedOn s u fun _ => (true = true)) : SelfInvalidated s u := by
  unfold InvalidatedOn at h
  exact ⟨fun l hl => h.1 l hl rfl, fun l hl => h.2.1 l hl rfl⟩

theorem InvalidatedOn.congr {s u : State} {p q : Nat → Prop} (h : InvalidatedOn s u p) (hpq : ∀ l, p l ↔ q l) : InvalidatedOn s u q := by
  have : p = q := funext fun l => propext (hpq l)
  rwa [← this]

/-- An acquire at `.clu` and wider self-invalidates the core's L1 (R128). -/
theorem State.acquire_l1 (s : State) (sc : Scope) (ro : Bool) (hw : wideScope sc = true) :
    ((s.acquire sc ro).coreAt s.hart.core).l1 = ((s.selfInvalidate s.hart.core fun _ => true).coreAt s.hart.core).l1 := by
  unfold State.acquire
  rw [hw, State.noteSync_false_eq]
  cases ro with
  | false => rfl
  | true => exact State.dropRo_l1 _ _

/-- An acquire with RO empties the core's read-only ways (R128). -/
theorem State.acquire_ro (s : State) (sc : Scope) : ((s.acquire sc true).coreAt s.hart.core).ro = [] := by
  unfold State.acquire
  rw [State.noteSync_false_eq]
  cases wideScope sc <;> exact State.dropRo_ro _ _

theorem State.acquire_cores (s : State) (sc : Scope) (hw : wideScope sc = false) : (s.acquire sc false).cores = s.cores := by
  unfold State.acquire
  rw [hw, State.noteSync_false_eq]
  rfl

/-! ### Retirement -/

/-- Moves that keep the registers, the PC and memory, and then the retirement. -/
theorem retired_advance {s u : State} (hu : KeepsRegs s u) (hpc : u.hart.pc = s.hart.pc) (hb : ∀ k, u.byte k = s.byte k) : Retired s u.advance :=
  ⟨congrArg (· + 4) hpc, hu.get, hu.other.trans u.advance_keepsRegs.other, hb⟩

theorem retired_of_sameHarts {s u : State} (hu : SameHarts s u) (hb : ∀ k, u.byte k = s.byte k) : Retired s u.advance :=
  retired_advance hu.keepsRegs (by rw [hu.hart]) hb

/-- What a release waits for is done: it retires, and its copies need not go home (R128). -/
theorem release_of_settled {s : State} {sc : Scope} {eng : Bool} (h : Settled s sc eng) : s.release sc eng = .ok (s.noteSync true sc) := by
  obtain ⟨hv, hssb, hf, he, hsys, hcopies⟩ := h
  have hvd : s.hart.vectorDone = true := by rw [Hart.vectorDone, hv]; rfl
  have heng : (eng && s.engineBusy s.hart) = false := by
    cases eng with
    | false => rfl
    | true => exact he rfl
  have hegress : (sc == .sys && s.coh.egress.any (fun e => e.task == s.hart.tk.task && e.hart == s.hart.id)) = false := by
    rw [Bool.and_eq_false_imp]
    intro hsc
    rw [List.any_eq_false]
    intro e hm
    simpa using hsys (eq_of_beq hsc) e hm
  have hflush : wideScope sc = true → s.flushCopies = some s := by
    intro hw
    have hnil : (s.coh.comb.filter fun b => !b.partialLine && b.mods.any (· == s.hart.id)) = [] := by
      rw [List.filter_eq_nil_iff]
      intro b hb
      have hm := hcopies hw b hb
      cases hp : b.partialLine with
      | true => simp
      | false => simpa using hm hp
    rw [State.flushCopies, hnil]
    rfl
  unfold State.release
  simp only [hvd, hssb, hf, heng, hegress, List.isEmpty_nil, Bool.not_true, Bool.or_self, Bool.false_eq_true, if_false]
  split
  · next hw => rw [hflush hw]
  · rfl

theorem State.noteSync_true_retired (s : State) (sc : Scope) : Retired s (s.noteSync true sc).advance := by
  refine retired_advance (s.noteSync_true_keepsRegs sc) (by rw [State.noteSync_true_hart]) fun k => ?_
  rw [State.noteSync_true_eq]
  rfl

end Sys2Proof.Machine
end

section
/-! PROOFS. Scalar memory (05), part 7: the lines of a range (R129, R340), and the fences settled. -/
namespace Sys2Proof.Machine

/-! ### Translations of one page (R340, R343) -/

/-- Bits above the page offset are those of the page. -/
theorem bitsOf_page {a b hi lo : Nat} (h : a / 2 ^ 12 = b / 2 ^ 12) (hlo : 12 ≤ lo) : bitsOf a hi lo = bitsOf b hi lo := by
  have key : ∀ x : Nat, x / 2 ^ lo = x / 2 ^ 12 / 2 ^ (lo - 12) := fun x => by
    rw [Nat.div_div_eq_div_mul, ← pow_add, Nat.add_sub_cancel' hlo]
  rw [bitsOf, bitsOf, key a, key b, h]

theorem div_page {a b k : Nat} (h : a / 2 ^ 12 = b / 2 ^ 12) (hk : 12 ≤ k) : a / 2 ^ k = b / 2 ^ k := by
  rw [← Nat.add_sub_cancel' hk, pow_add, ← Nat.div_div_eq_div_mul, ← Nat.div_div_eq_div_mul, h]

/-- A walk uses nothing of an address below its page. -/
theorem State.walkFrom_page (s : State) (die part ctx : Nat) {a b : Nat} (h : a / 2 ^ 12 = b / 2 ^ 12) :
    s.walkFrom die part ctx a = s.walkFrom die part ctx b := by
  have hw : ∀ r, walkTables die part r a = walkTables die part r b := fun r => by
    unfold walkTables
    rw [bitsOf_page h (by omega : 12 ≤ 39), bitsOf_page h (by omega : 12 ≤ 30), bitsOf_page h (by omega : 12 ≤ 21),
      bitsOf_page h (le_refl 12)]
  simp only [State.walkFrom, State.walk, hw]

/-- Neither does a TLB whose pages are no smaller. -/
theorem Core.tlbFor_page (c : Core) (hc : ∀ t ∈ c.tlb, 12 ≤ t.logSize) (part ctx : Nat) {a b : Nat} (h : a / 2 ^ 12 = b / 2 ^ 12) :
    c.tlbFor part ctx a = c.tlbFor part ctx b :=
  List.find?_congr fun t ht => by rw [div_page h (hc t ht)]

theorem State.leafFor_page (s : State) (core part ctx : Nat) (hc : ∀ t ∈ (s.coreAt core).tlb, 12 ≤ t.logSize) {a b : Nat}
    (h : a / 2 ^ 12 = b / 2 ^ 12) : s.leafFor core part ctx a = s.leafFor core part ctx b := by
  simp only [State.leafFor, s.walkFrom_page _ _ _ h, (s.coreAt core).tlbFor_page hc _ _ h]

/-- What every result of a walk satisfies. -/
def Walk.Gives {α : Type} (w : Walk α) (p : α → Prop) : Prop := ∀ s a t, w.go s = (.ok a, t) → p a

theorem Walk.gives_bind {α β : Type} {w : Walk α} {f : α → Walk β} {p : β → Prop} (hf : ∀ a, (f a).Gives p) : (w >>= f).Gives p := by
  intro s b t h
  rw [Walk.go_bind] at h
  split at h
  · exact hf _ _ _ _ h
  · exact absurd (congrArg Prod.fst h) (by simp)

theorem Walk.gives_pure {α : Type} {a : α} {p : α → Prop} (h : p a) : (pure a : Walk α).Gives p := by
  intro s b t hb
  obtain rfl : a = b := by injection congrArg Prod.fst hb
  exact h

theorem Walk.gives_throw {α : Type} (c : Option Cause) (p : α → Prop) : (throw c : Walk α).Gives p := by
  intro s b t hb
  exact absurd (congrArg Prod.fst hb) (by simp [Walk.go])

theorem leafOr_gives (e : Word) (l k : Nat) : (leafOr e l k).Gives fun x => x.2 = k := by
  unfold leafOr
  split
  · exact Walk.gives_pure rfl
  · exact Walk.gives_throw _ _

/-- Pages have 12 bits of offset at the least (R342). -/
theorem walkTables_gives (die part root va : Nat) : (walkTables die part root va).Gives fun x => 12 ≤ x.2 := by
  have hleaf : ∀ (e : Word) (l k : Nat), 12 ≤ k → (leafOr e l k).Gives fun x => 12 ≤ x.2 := fun e l k hk s a t h => by
    show 12 ≤ a.2
    rw [leafOr_gives e l k s a t h]
    exact hk
  unfold walkTables
  refine Walk.gives_bind fun _ => Walk.gives_bind fun _ => Walk.gives_bind fun _ => Walk.gives_bind fun _ => Walk.gives_bind fun _ => ?_
  split
  · exact hleaf _ _ _ (by omega)
  refine Walk.gives_bind fun _ => Walk.gives_bind fun _ => ?_
  have hpage : ∀ (e0 : Word) (p : Walk (Word × Nat)), p.Gives (fun x => 12 ≤ x.2) →
      (if (!leafOk e0 0) = true then (do let r ← (throw (some Cause.page) : Walk PUnit); (fun _ => p) r) else p).Gives fun x => 12 ≤ x.2 := by
    intro e0 p hp
    split
    · exact Walk.gives_bind fun _ => hp
    · exact hp
  refine hpage _ _ ?_
  split
  · refine Walk.gives_bind fun _ => Walk.gives_bind fun _ => ?_
    split
    · exact hleaf _ _ _ (by omega)
    · exact Walk.gives_throw _ _
  · exact Walk.gives_pure (le_refl 12)

/-- A core translates through the walk, or through an entry of its TLB (R343). -/
theorem State.leafFor_cases (s : State) (core part ctx va : Nat) : s.leafFor core part ctx va = (s.walkFrom (core / 160) part ctx va).1 ∨
    ∃ t ∈ (s.coreAt core).tlb, s.leafFor core part ctx va = .ok (t.entry, t.logSize) := by
  unfold State.leafFor
  simp only []
  generalize (s.walkFrom (core / 160) part ctx va).1 = fresh
  cases ht : (s.coreAt core).tlbFor part ctx va with
  | none => exact .inl rfl
  | some t =>
    simp only []
    generalize (!(match fresh with | .ok p => p == (t.entry, t.logSize) | .error _ => false) && Config.tlbOld s.env.free) = old
    cases old with
    | true => exact .inr ⟨t, List.mem_of_find?_eq_some ht, rfl⟩
    | false => exact .inl rfl

/-- So have those that translate an address for a core (R343). -/
theorem State.leafFor_logSize {s : State} {core part ctx va k : Nat} {e : Word} (hc : ∀ t ∈ (s.coreAt core).tlb, 12 ≤ t.logSize)
    (h : s.leafFor core part ctx va = .ok (e, k)) : 12 ≤ k := by
  have hfresh : (s.walkFrom (core / 160) part ctx va).1 = .ok (e, k) → 12 ≤ k := by
    intro hf
    unfold State.walkFrom at hf
    split at hf
    · exact absurd hf (by simp)
    · simp only [] at hf
      split at hf
      · exact absurd hf (by simp)
      · exact walkTables_gives _ _ _ _ _ _ _ (Prod.ext hf rfl)
  rcases s.leafFor_cases core part ctx va with hl | ⟨t, ht, hl⟩
  · exact hfresh (hl ▸ h)
  · rw [hl] at h
    injection h with h
    rw [← (Prod.mk.inj h).2]
    exact hc t ht

/-! ### The lines of a range (R129) -/

/-- The line of a translated address (R129). -/
theorem State.lineAtVa_of_leaf {s : State} {va k : Nat} {e : Word} (hva : va < 2 ^ 52)
    (h : s.leafFor s.hart.core s.hart.tk.part s.hart.tk.ctx va = .ok (e, k)) (he : e.getLsbD 8 = false) :
    s.lineAtVa va = .line (lineOf (dramKey (ptePa e / 2 ^ k * 2 ^ k + va % 2 ^ k))) := by
  have hl : isLocal va = false := decide_eq_false (by omega)
  have hb : bitsOf va 62 52 = 0 := by unfold bitsOf; omega
  simp only [State.lineAtVa, hl, hb, h, he, Bool.false_or, ne_eq, not_true_eq_false, decide_false, Bool.false_eq_true, if_false]

/-- The bytes of one line translate to one line. -/
theorem lineOf_page {k v x : Nat} (hk : 12 ≤ k) :
    lineOf (dramKey (x * 2 ^ k + v / 64 * 64 % 2 ^ k)) = lineOf (dramKey (x * 2 ^ k + v % 2 ^ k)) := by
  have h64 : 2 ^ k = 64 * 2 ^ (k - 6) := by rw [show (64 : Nat) = 2 ^ 6 by norm_num, ← pow_add]; congr 1; omega
  have hv : v / 64 * 64 % 2 ^ k = v % 2 ^ k / 64 * 64 := by
    rw [h64, Nat.mul_comm (v / 64) 64, Nat.mul_mod_mul_left, Nat.mod_mul_right_div_self, Nat.mul_comm]
  have hx : x * 2 ^ k = x * 2 ^ (k - 6) * 64 := by rw [h64]; ring
  rw [hv, hx]
  unfold lineOf dramKey
  omega

/-- A byte of a range lies in one of its lines (R129). -/
theorem State.line_mem_linesOf {s : State} {a len i k : Nat} {e : Word} (hc : ∀ t ∈ (s.coreAt s.hart.core).tlb, 12 ≤ t.logSize)
    (hi : i < len) (hv : (a + i) % 2 ^ 64 < 2 ^ 52)
    (h : s.leafFor s.hart.core s.hart.tk.part s.hart.tk.ctx ((a + i) % 2 ^ 64) = .ok (e, k)) (he : e.getLsbD 8 = false) :
    .line (lineOf (dramKey (ptePa e / 2 ^ k * 2 ^ k + (a + i) % 2 ^ 64 % 2 ^ k))) ∈ s.linesOf a len := by
  have hk := State.leafFor_logSize hc h
  rw [State.linesOf, List.mem_map]
  refine ⟨(a + i) / 64 - a / 64, List.mem_range.mpr (by omega), ?_⟩
  have hva : (a / 64 + ((a + i) / 64 - a / 64)) * 64 % 2 ^ 64 = (a + i) % 2 ^ 64 / 64 * 64 := by omega
  generalize (a + i) % 2 ^ 64 = v at hva hv h ⊢
  rw [hva, ← lineOf_page hk]
  refine State.lineAtVa_of_leaf (by omega) ?_ he
  rw [s.leafFor_page _ _ _ hc (show v / 64 * 64 / 2 ^ 12 = v / 2 ^ 12 by omega)]
  exact h

/-! ### The fences (R128, R129) -/

section
variable {s : State} {sc : Scope} {r e : Bool} {a b : Reg}

theorem Hart.vectorDone_of_nil (h : s.hart.vs.vq = []) : s.hart.vectorDone = true := by rw [Hart.vectorDone, h]; rfl
theorem Hart.vectorDone_of_ne_nil (h : s.hart.vs.vq ≠ []) : s.hart.vectorDone = false := by rw [Hart.vectorDone]; simpa using h

theorem State.release_waits_vector (h : s.hart.vectorDone = false) : s.release sc e = .error .vector := by
  simp only [State.release, h, Bool.not_false, if_true]

/-- The words that wait for the vector queue (R128, R129). -/
theorem fences_wait_vector (h : s.hart.vs.vq ≠ []) : ∀ i ∈ [Instr.fenceAcq sc r, .fenceRel sc e, .fenceFull sc r e, .fenceSv, .lsync,
    .invR a b, .invRo], exec i s = .next (s.waitFor .vector) := by
  have hd := Hart.vectorDone_of_ne_nil h
  have hr := State.release_waits_vector (sc := sc) (e := e) hd
  simp only [List.forall_mem_cons, List.not_mem_nil, false_imp_iff, implies_true, and_true]
  refine ⟨?_, ?_, ?_, ?_, ?_, ?_, ?_⟩
  · show execFenceAcq sc r s = _
    simp only [execFenceAcq, hd, Bool.not_false, if_true]
  · show execFenceRel sc e s = _
    simp only [execFenceRel, hr]
  · show execFenceFull sc r e s = _
    simp only [execFenceFull, hr]
  · show execFenceSv s = _
    simp only [execFenceSv, hd, Bool.not_false, if_true]
  · show execLsync s = _
    simp only [execLsync, hd, Bool.not_false, if_true]
  · show execInvR a b s = _
    simp only [execInvR, hd, Bool.not_false, if_true]
  · show execInvRo s = _
    simp only [execInvRo, hd, Bool.not_false, if_true]

/-- What the SSB and the FIFOs still hold makes a release wait (R128). -/
theorem fences_wait_drain (hv : s.hart.vs.vq = []) (h : s.hart.ssb ≠ [] ∨ s.hart.fifosEmpty = false) :
    ∀ i ∈ [Instr.fenceRel sc e, .fenceFull sc r e, .fenceSv], exec i s = .next (s.waitFor .drain) := by
  have hd := Hart.vectorDone_of_nil hv
  have hb : (!s.hart.ssb.isEmpty || !s.hart.fifosEmpty) = true := by
    rcases h with h | h
    · have : s.hart.ssb.isEmpty = false := by simpa using h
      rw [this]; rfl
    · rw [h, Bool.not_false, Bool.or_true]
  have hr : s.release sc e = .error .drain := by
    simp only [State.release, hd, hb, Bool.not_true, Bool.false_eq_true, if_false, if_true]
  simp only [List.forall_mem_cons, List.not_mem_nil, false_imp_iff, implies_true, and_true]
  refine ⟨?_, ?_, ?_⟩
  · show execFenceRel sc e s = _
    simp only [execFenceRel, hr]
  · show execFenceFull sc r e s = _
    simp only [execFenceFull, hr]
  · show execFenceSv s = _
    simp only [execFenceSv, hd, hb, Bool.not_true, Bool.false_eq_true, if_false, if_true]

/-- With ENG an open operation of an engine makes it wait (R128). -/
theorem fences_wait_engine (hv : s.hart.vs.vq = []) (hssb : s.hart.ssb = []) (hf : s.hart.fifosEmpty = true) (he : e = true)
    (hb : s.engineBusy s.hart = true) : ∀ i ∈ [Instr.fenceRel sc e, .fenceFull sc r e], exec i s = .next (s.waitFor .engine) := by
  have hd := Hart.vectorDone_of_nil hv
  have hr : s.release sc e = .error .engine := by
    simp only [State.release, hd, hssb, hf, he, hb, List.isEmpty_nil, Bool.not_true, Bool.or_self, Bool.and_self, Bool.false_eq_true, if_false,
      if_true]
  simp only [List.forall_mem_cons, List.not_mem_nil, false_imp_iff, implies_true, and_true]
  refine ⟨?_, ?_⟩
  · show execFenceRel sc e s = _
    simp only [execFenceRel, hr]
  · show execFenceFull sc r e s = _
    simp only [execFenceFull, hr]

/-- An acquire, and then the retirement (R128). -/
theorem State.acquire_retired (s : State) (sc : Scope) (r : Bool) : Retired s (s.acquire sc r).advance ∧
    (wideScope sc = true → SelfInvalidated s (s.acquire sc r).advance) ∧ (r = true → ((s.acquire sc r).advance.coreAt s.hart.core).ro = []) ∧
    (wideScope sc = false → r = false → (s.acquire sc r).advance.cores = s.cores) := by
  refine ⟨retired_of_sameHarts (s.acquire_sameHarts sc r) (s.byte_acquire sc r),
    fun hw => (invalidatedOn_selfInvalidate s _ (fun _ => true) (s.acquire_l1 sc r hw)).all, ?_, ?_⟩
  · rintro rfl
    exact s.acquire_ro sc
  · rintro hw rfl
    exact s.acquire_cores sc hw

/-- `inv.r` waits with the walk of one of its lines, and else self-invalidates them (R129). -/
theorem invR_results (hv : s.hart.vs.vq = []) :
    let waits := 0 < (s.get b).toNat ∧ (s.get b).toNat ≤ 65536 ∧ LineAt.wait ∈ s.linesOf (s.get a).toNat (s.get b).toNat
    (waits → exec (.invR a b) s = .next (s.waitFor .memory)) ∧
    (¬ waits → ∃ t, exec (.invR a b) s = .next t ∧ Retired s t ∧ InvalidatedOn s t fun l =>
      65536 < (s.get b).toNat ∨ (0 < (s.get b).toNat ∧ LineAt.line l ∈ s.linesOf (s.get a).toNat (s.get b).toNat)) := by
  have hd := Hart.vectorDone_of_nil hv
  have hexec : exec (.invR a b) s = execInvR a b s := rfl
  generalize hlen : (s.get b).toNat = len
  intro waits
  have hself : ∀ p : Nat → Bool, Retired s (s.selfInvalidate s.hart.core p).advance ∧
      InvalidatedOn s (s.selfInvalidate s.hart.core p).advance fun l => p l = true := fun p =>
    ⟨retired_of_sameHarts (s.selfInvalidate_sameHarts _ p) fun _ => rfl, invalidatedOn_selfInvalidate s _ p rfl⟩
  by_cases hbig : 65536 < len
  · refine ⟨fun hw => absurd hw.2.1 (by omega), fun _ => ?_⟩
    obtain ⟨hret, hinv⟩ := hself fun _ => true
    refine ⟨_, ?_, hret, hinv.congr fun l => ⟨fun _ => .inl hbig, fun _ => rfl⟩⟩
    simp only [hexec, execInvR, hd, hlen, hbig, Bool.not_true, Bool.false_eq_true, if_false, if_true]
  generalize hlines : (if len = 0 then [] else s.linesOf (s.get a).toNat len) = lines
  have hmem : ∀ x, x ∈ lines ↔ 0 < len ∧ x ∈ s.linesOf (s.get a).toNat len := by
    intro x
    rw [← hlines]
    by_cases h0 : len = 0
    · simp [h0]
    · simp [h0, Nat.pos_of_ne_zero h0]
  have hany : ∀ x : LineAt, (lines.any (· == x)) = true ↔ 0 < len ∧ x ∈ s.linesOf (s.get a).toNat len := by
    intro x
    rw [← hmem, List.any_eq_true]
    exact ⟨fun ⟨y, hy, he⟩ => eq_of_beq he ▸ hy, fun hx => ⟨x, hx, beq_self_eq_true x⟩⟩
  constructor
  · rintro ⟨h0, -, hw⟩
    have hwait := (hany .wait).mpr ⟨h0, hw⟩
    simp only [hexec, execInvR, hd, hlen, hbig, hlines, hwait, Bool.not_true, Bool.false_eq_true, if_false, if_true]
  · intro hnw
    have hwait : (lines.any (· == .wait)) = false := by
      rw [← Bool.not_eq_true, hany]
      exact fun ⟨h0, hw⟩ => hnw ⟨h0, by omega, hw⟩
    obtain ⟨hret, hinv⟩ := hself fun l => lines.any (· == .line l)
    refine ⟨_, ?_, hret, hinv.congr fun l => ?_⟩
    · simp only [hexec, execInvR, hd, hlen, hbig, hlines, hwait, Bool.not_true, Bool.false_eq_true, if_false]
    · rw [hany]
      exact ⟨.inr, fun h => h.resolve_left hbig⟩
end

/-- Settles O24: the waits, the acquire, the release of what is settled, and the lines of a range. -/
theorem fenceResults : Obligations.FenceResults := by
  unfold Obligations.FenceResults
  intro s sc r e a b
  refine ⟨fences_wait_vector, fun hv => ⟨fences_wait_drain hv, fun hf => ?lsyncWaits⟩, fences_wait_engine, fun hv => ?acquire, fun hs => ?release,
    fun hs => ?full, fun hv hssb hf => ?sv, fun hv hf => ?lsync, fun hv => ?inv, fun hv => ?invRo⟩
  case lsyncWaits =>
    show execLsync s = _
    simp only [execLsync, Hart.vectorDone_of_nil hv, hf, Bool.not_true, Bool.not_false, Bool.false_eq_true, if_false, if_true]
  case acquire =>
    refine ⟨_, ?_, s.acquire_retired sc r⟩
    show execFenceAcq sc r s = _
    simp only [execFenceAcq, Hart.vectorDone_of_nil hv, Bool.not_true, Bool.false_eq_true, if_false]
  case release =>
    refine ⟨_, ?_, s.noteSync_true_retired sc, ?_⟩
    · show execFenceRel sc e s = _
      simp only [execFenceRel, release_of_settled hs]
    · show (s.noteSync true sc).cores = _
      rw [State.noteSync_true_eq]
  case full =>
    have hexec : exec (.fenceFull sc r e) s = .next ((s.noteSync true sc).acquire sc r).advance := by
      show execFenceFull sc r e s = _
      simp only [execFenceFull, release_of_settled hs]
    obtain ⟨l, hl⟩ : ∃ l, s.noteSync true sc = { s with hart := { s.hart with interval := s.hart.interval + 1 }, coh := { s.coh with syncs := l } } :=
      ⟨_, s.noteSync_true_eq sc⟩
    rw [hl] at hexec
    obtain ⟨hret, hinv, hro, -⟩ := State.acquire_retired { s with
      hart := { s.hart with interval := s.hart.interval + 1 }, coh := { s.coh with syncs := l } } sc r
    exact ⟨_, hexec, hret, hinv, hro⟩
  case sv =>
    refine ⟨_, ?_, retired_of_sameHarts (s.selfInvalidate_sameHarts s.hart.core fun _ => true) fun _ => rfl,
      (invalidatedOn_selfInvalidate s _ (fun _ => true) rfl).all⟩
    show execFenceSv s = _
    simp only [execFenceSv, Hart.vectorDone_of_nil hv, hssb, hf, List.isEmpty_nil, Bool.not_true, Bool.or_self, Bool.false_eq_true, if_false]
  case lsync =>
    show execLsync s = _
    simp only [execLsync, Hart.vectorDone_of_nil hv, hf, Bool.not_true, Bool.false_eq_true, if_false]
  case inv =>
    obtain ⟨hwaits, hgoes⟩ := invR_results (a := a) (b := b) hv
    exact ⟨hwaits, hgoes, fun _ hc i hi hv52 p k hl hp => State.line_mem_linesOf hc hi hv52 hl hp⟩
  case invRo =>
    refine ⟨_, ?_, retired_of_sameHarts (s.dropRo_sameHarts s.hart.core) fun _ => rfl, s.dropRo_ro _, s.dropRo_l1 _⟩
    show execInvRo s = _
    simp only [execInvRo, Hart.vectorDone_of_nil hv, Bool.not_true, Bool.false_eq_true, if_false]

end Sys2Proof.Machine
end

section
/-! PROOFS. Harts (05), part 1: `wfe` and its wake (R126), and `fork` (R132). -/
namespace Sys2Proof.Machine

/-! ### `wfe` (R126) -/

section
variable {s : State} {d a b : Reg}

/-- `wfe` of a hart that waits at none compares the word it loads. -/
theorem exec_wfe_of_val {v : Nat} {t : State} (h : ∀ e, s.hart.wait ≠ some (.wfe e)) (hl : s.scalarLoad (s.get a).toNat 8 = (.val v, t)) :
    exec (.wfe d a b) s = if BitVec.ofNat 64 v = s.get b then
      .next ((t.monitor s.hart.id (t.lineOfVa s.hart (s.get a).toNat)).waitFor (.wfe d)) else t.result d 0 := by
  show execWfe d a b s = _
  simp only [execWfe, hl]

theorem exec_wfe_of_fault {c : Cause} {t : State} (h : ∀ e, s.hart.wait ≠ some (.wfe e)) (hl : s.scalarLoad (s.get a).toNat 8 = (.fault c, t)) :
    exec (.wfe d a b) s = .next (t.trap c (s.get a)) := by
  show execWfe d a b s = _
  simp only [execWfe, hl]

/-- The end of a `wfe`: x[D], and the retirement. -/
theorem endWfe_results (s : State) (d : Reg) (v : Word) : let t := (s.unmonitor s.hart.id).onHart (endWfe d v)
    t.hart.pc = s.hart.pc + 4 ∧ t.hart.wait = none ∧ KeepsX d s t ∧ (d ≠ 0 → t.get d = v) ∧ t.mem = s.mem := by
  refine ⟨rfl, rfl, fun r hr => s.hart.get_set_ne d r v hr, fun hd => (s.hart.get_set_self d v).trans ?_, rfl⟩
  rw [if_neg hd]

theorem State.hartAt_self (s : State) : s.hartAt s.hart.id = some s.hart := if_pos rfl
theorem State.onHartAt_of_eq {j : Nat} (f : Hart → Hart) (he : s.hart.id = j) : s.onHartAt j f = s.onHart f := if_pos he
theorem State.onHartAt_self (s : State) (f : Hart → Hart) : s.onHartAt s.hart.id f = s.onHart f := if_pos rfl

/-- A hart that waits at a `wfe` (R126). -/
theorem exec_wfe_of_waiting (h : s.hart.wait = some (.wfe d)) : exec (.wfe d a b) s =
    if ((s.monitorOf s.hart.id).map (·.hit)).getD false then .next ((s.unmonitor s.hart.id).onHart (endWfe d 0)) else .next s := by
  show execWfe d a b s = _
  simp only [execWfe, h]

theorem exec_wfeWake_of_waiting (h : s.hart.wait = some (.wfe d)) : exec (.wfeWake s.hart.id) s =
    if ((s.monitorOf s.hart.id).map (·.hit)).getD false then .next ((s.unmonitor s.hart.id).onHart (endWfe d 0)) else .next s := by
  show execWfeWake s.hart.id s = _
  simp only [execWfeWake, s.hartAt_self, h, ← State.onHartAt_self]
  rfl

theorem exec_wfeTimeout_of_waiting (h : s.hart.wait = some (.wfe d)) : exec (.wfeTimeout s.hart.id) s =
    if ((s.monitorOf s.hart.id).map (·.hit)).getD false then .next s else .next ((s.unmonitor s.hart.id).onHart (endWfe d 1)) := by
  show execWfeTimeout s.hart.id s = _
  simp only [execWfeTimeout, s.hartAt_self, h, ← State.onHartAt_self]
  rfl
end

/-- Settles O26: `wfe` loads its word and compares; once it waits, its monitor says whether a write has come. -/
theorem wfeResults : Obligations.WfeResults := by
  unfold Obligations.WfeResults
  intro s d a b off
  refine ⟨fun hs hssb hwait => ?load, fun hm hwait => ?misaligned, fun m hwait hmon => ⟨fun i hi hhit => ?wake, fun hhit => ?waits⟩, fun line => ?note⟩
  case load =>
    have hl := hs.scalarLoad (by omega) (by norm_num) (.inr ⟨by rw [hssb]; rfl, rfl⟩)
    have hlt := s.memNat_lt 8 (spadKey s.hart.core off)
    have heq : BitVec.ofNat 64 (s.memNat (spadKey s.hart.core off) 8) = s.get b ↔ s.memNat (spadKey s.hart.core off) 8 = (s.get b).toNat := by
      rw [← BitVec.toNat_inj, BitVec.toNat_ofNat, Nat.mod_eq_of_lt hlt]
    have hline : s.lineOfVa s.hart (s.get a).toNat = spadKey s.hart.core off / 64 := by
      rw [State.lineOfVa, hs.scalarLoc (by omega) rfl]
      rfl
    refine ⟨fun hne => ?_, fun he =>
      ⟨(s.monitor s.hart.id (spadKey s.hart.core off / 64)).waitFor (.wfe d), ?_, rfl, rfl, fun _ => rfl, rfl, List.mem_cons_self⟩⟩
    · rw [exec_wfe_of_val hwait hl, if_neg (mt heq.mp hne), State.result_eq]
    · rw [exec_wfe_of_val hwait hl, if_pos (heq.mpr he), hline]
  case misaligned =>
    have hl : s.scalarLoad (s.get a).toNat 8 = (.fault .misalign, s) := by simp only [State.scalarLoad, ne_eq, hm, not_false_eq_true, if_true]
    exact exec_wfe_of_fault hwait hl
  case wake =>
    have hc : ((s.monitorOf s.hart.id).map (·.hit)).getD false = true := by rw [State.monitorOf, hmon]; exact hhit
    refine ⟨_, ?_, endWfe_results s d 0⟩
    simp only [List.mem_cons, List.not_mem_nil, or_false] at hi
    rcases hi with rfl | rfl
    · rw [exec_wfeWake_of_waiting hwait, if_pos hc]
    · rw [exec_wfe_of_waiting hwait, if_pos hc]
  case waits =>
    have hc : ¬ ((s.monitorOf s.hart.id).map (·.hit)).getD false = true := by rw [State.monitorOf, hmon]; exact Bool.eq_false_iff.mp hhit
    refine ⟨by rw [exec_wfe_of_waiting hwait, if_neg hc], by rw [exec_wfeWake_of_waiting hwait, if_neg hc], _,
      by rw [exec_wfeTimeout_of_waiting hwait, if_neg hc], endWfe_results s d 1⟩
  case note =>
    show updIf _ _ _ = _
    unfold updIf
    exact List.map_congr_left fun m _ => by by_cases h : m.line = line <;> simp [h]

/-! ### `fork` (R132) -/

section
variable {s : State} {k : Nat}

theorem State.slotFree_iff (s : State) (core k : Nat) :
    ((s.hartsOn core).all fun h => h.slot != k) = true ↔ ∀ h ∈ s.hartsOn core, h.slot ≠ k := by
  rw [List.all_eq_true]
  simp only [bne_iff_ne, ne_eq]

theorem State.freeSlot_eq_none {core : Nat} (h : ∀ k, k < 8 → ∃ h ∈ s.hartsOn core, h.slot = k) : s.freeSlot core = none := by
  rw [State.freeSlot, List.find?_range_eq_none]
  intro i hi
  obtain ⟨g, hg, hs⟩ := h i hi
  rw [Bool.not_eq_true', ← Bool.not_eq_true, State.slotFree_iff]
  exact fun hall => hall g hg hs

theorem State.freeSlot_eq_some {core : Nat} (hk : k < 8) (hfree : ∀ h ∈ s.hartsOn core, h.slot ≠ k)
    (hlow : ∀ j, j < k → ∃ h ∈ s.hartsOn core, h.slot = j) : s.freeSlot core = some k := by
  rw [State.freeSlot, List.find?_range_eq_some]
  refine ⟨(s.slotFree_iff core k).mpr hfree, List.mem_range.mpr hk, fun j hj => ?_⟩
  obtain ⟨g, hg, hs⟩ := hlow j hj
  rw [Bool.not_eq_true', ← Bool.not_eq_true, State.slotFree_iff]
  exact fun hall => hall g hg hs
end

/-- The quads of a child: the upper half of a block of two or more (R132). -/
def childQuads (q : Quads) : Quads := if 2 ≤ q.count then ⟨q.count / 2, q.first + q.count / 2⟩ else ⟨0, 0⟩

/-- The parent after a `fork` into slot `k` (R132). -/
def forkParent (h : Hart) (k : Nat) : Hart :=
  { (if 2 ≤ h.quads.count then h.hold ⟨h.quads.count / 2, h.quads.first⟩ else h) with
    tk := { h.tk with children := h.tk.children ++
      [{ slot := k, qFirst := (childQuads h.quads).first, qCount := (childQuads h.quads).count, joined := none, halted := false }] } }

theorem exec_fork {s : State} {d a b : Reg} {k : Nat} (hv : s.hart.vs.vq = []) (hk : s.freeSlot s.hart.core = some k) :
    exec (.fork d a b) s = .next (({ s with
      hart := forkParent s.hart k
      others := forkChild s.hart k (childQuads s.hart.quads) (s.get a) (s.get b) d ::
        s.others.filter fun g => g.id != (forkChild s.hart k (childQuads s.hart.quads) (s.get a) (s.get b) d).id } : State).set d
          (BitVec.ofNat 64 k)).advance := by
  show execFork d a b s = _
  simp only [execFork, Hart.vectorDone_of_nil hv, hk, Bool.not_true, Bool.false_eq_true, if_false]
  rfl

/-- What the parent keeps (R132). -/
theorem forkParent_keeps (h : Hart) (k : Nat) : (forkParent h k).pc = h.pc ∧ (forkParent h k).x = h.x ∧ (forkParent h k).fl = h.fl ∧
    (forkParent h k).v = h.v ∧ (forkParent h k).k = h.k ∧ (2 ≤ h.quads.count → (forkParent h k).vr.pending = true) ∧
    (forkParent h k).quads = if 2 ≤ h.quads.count then ⟨h.quads.count / 2, h.quads.first⟩ else h.quads := by
  unfold forkParent
  by_cases hq : 2 ≤ h.quads.count
  · rw [if_pos hq]
    exact ⟨rfl, rfl, rfl, rfl, rfl, fun _ => rfl, (if_pos hq).symm⟩
  · rw [if_neg hq]
    exact ⟨rfl, rfl, rfl, rfl, rfl, fun h => absurd h hq, (if_neg hq).symm⟩

/-- The x registers of the child (R132). -/
theorem forkChild_get (h : Hart) (k : Nat) (q : Quads) (entry copy : Word) (d r : Reg) (hr : r ≠ 0) :
    (forkChild h k q entry copy d).get r = if r = d then BitVec.ofNat 64 (256 + h.slot) else if copy.getLsbD r.toNat then h.get r else 0 := by
  unfold forkChild
  by_cases hd : r = d
  · subst hd
    rw [Hart.get_set_self, if_neg hr, if_pos rfl]
  · have hr0 : r ≠ 0#5 := hr
    have hn : r.toFin.val ≠ 0 := fun h0 => hr (BitVec.eq_of_toFin_eq (Fin.ext h0))
    rw [Hart.get_set_ne _ _ _ _ hd, if_neg hd]
    simp only [Hart.get, if_neg hr0, Vector.get_eq_getElem, Vector.getElem_ofFn, ne_eq, hn, not_false_eq_true, true_and]
    rfl

/-- The rest of the child is what the parent hands over, and else as at a task's start (R132). -/
theorem forkChild_fields (h : Hart) (k : Nat) (q : Quads) (entry copy : Word) (d : Reg) : let c := forkChild h k q entry copy d
    c.status = .running ∧ c.wait = none ∧ c.pc = entry ∧ c.vr.vtype = h.vr.vtype ∧ c.f = h.f ∧ c.tr.tvec = h.tr.tvec ∧
    c.tk.share = h.tk.share ∧ c.vr.vl = 0 ∧ c.fl.flags = 0 ∧ c.fl.eix = Vector.replicate 6 0xFFFF ∧ c.k = Vector.replicate 8 0 ∧
    c.q = Vector.replicate 8 [] ∧ c.z = Vector.replicate 8 none ∧ c.tk.gmem = 0 ∧ c.mgrant = 0 ∧ c.inHandler = false ∧
    c.tk.isChild = true ∧ c.tk.task = h.tk.task ∧ c.tk.index = h.tk.index ∧ c.tk.count = h.tk.count ∧ c.tk.parent = some h.id ∧
    c.vr.pending = true ∧ c.quads = q := by
  unfold forkChild Hart.set
  split <;> exact ⟨rfl, rfl, rfl, rfl, rfl, rfl, rfl, rfl, rfl, rfl, rfl, rfl, rfl, rfl, rfl, BitVec.getLsbD_zero, rfl, rfl, rfl, rfl, rfl, rfl, rfl⟩

/-- Settles O27: the lowest free slot, the child's state, and the halves of the block. -/
theorem forkResults : Obligations.ForkResults := by
  unfold Obligations.ForkResults
  intro s d a b hv
  constructor
  · intro hfull
    show execFork d a b s = _
    simp only [execFork, Hart.vectorDone_of_nil hv, State.freeSlot_eq_none hfull, Bool.not_true, Bool.false_eq_true, if_false, State.result_eq]
  · intro k hk hfree hlow
    obtain ⟨hpc, hx, hfl, hvv, hkk, hpend, hquads⟩ := forkParent_keeps s.hart k
    have hid : (forkChild s.hart k (childQuads s.hart.quads) (s.get a) (s.get b) d).id = 8 * s.hart.core + k := by
      unfold forkChild
      rw [Hart.set_id]
      rfl
    obtain ⟨c1, c2, c3, c4, c5, c6, c7, c8, c9, c10, c11, c12, c13, c14, c15, c16, c17, c18, c19, c20, c21, c22, c23⟩ :=
      forkChild_fields s.hart k (childQuads s.hart.quads) (s.get a) (s.get b) d
    refine ⟨_, _, exec_fork hv (State.freeSlot_eq_some hk hfree hlow), ?pc, fun r hr => ?keep, fun hd => ?dest, fun _ => rfl, ?fl, ?v, ?k,
      rfl, hid, c1, c2, c3, rfl, fun r hr => forkChild_get _ _ _ _ _ d r hr, c4, c5, c6, c7, c8, c9, c10, c11, c12, c13, c14, c15, c16, c17,
      c18, c19, c20, c21, c22, fun hq => ?pending, ?quads⟩
    case pc =>
      show (Hart.set _ _ _).pc + 4 = _
      rw [Hart.set_pc, hpc]
    case keep =>
      rw [State.get_advance, State.get_set_ne _ _ _ _ hr]
      show (forkParent s.hart k).get r = s.hart.get r
      rw [Hart.get, Hart.get, hx]
    case dest => rw [State.get_advance, State.get_set_self, if_neg hd]
    case fl => exact (Hart.set_fl _ _ _).trans hfl
    case v => exact (Hart.set_v _ _ _).trans hvv
    case k => exact (Hart.set_k _ _ _).trans hkk
    case pending =>
      show (Hart.set _ _ _).vr.pending = true
      rw [Hart.set_vr, hpend hq]
    case quads =>
      have ht : (Hart.set (forkParent s.hart k) d (BitVec.ofNat 64 k)).quads = _ := (Hart.set_quads _ _ _).trans hquads
      rw [c23]
      by_cases hq : 2 ≤ s.hart.quads.count
      · rw [if_pos hq] at ht ⊢
        exact ⟨if_pos hq, ht⟩
      · rw [if_neg hq] at ht ⊢
        exact ⟨congrArg Quads.count (if_neg hq), ht⟩

end Sys2Proof.Machine
end

section
/-! PROOFS. Harts (05), part 2: what ending a hart does (R125, R133). -/
namespace Sys2Proof.Machine

/-! ### Slots -/

section
variable {s : State} {h : Hart} {c : Child} {id j : Nat}

theorem State.hartAt_of_ne (hne : s.hart.id ≠ j) : s.hartAt j = s.others.find? (·.id == j) := if_neg hne

theorem State.clearSlot_of_ne (hne : s.hart.id ≠ id) : s.clearSlot id = { s with others := s.others.filter fun h => h.id != id } := if_neg hne
theorem State.clearSlot_of_eq (he : s.hart.id = id) : s.clearSlot id = { s with hart := Hart.empty id } := if_pos he

/-- An emptied slot of another hart holds none. -/
theorem State.hartAt_clearSlot (hne : s.hart.id ≠ id) : (s.clearSlot id).hartAt id = none := by
  rw [State.clearSlot_of_ne hne]
  refine (if_neg hne).trans ?_
  rw [List.find?_eq_none]
  intro g hg
  have := (List.mem_filter.mp hg).2
  simp only [bne_iff_ne, ne_eq] at this
  simpa using this

/-- The other slots stay. -/
theorem State.hartAt_clearSlot_ne (hj : j ≠ id) : (s.clearSlot id).hartAt j = s.hartAt j := by
  by_cases he : s.hart.id = id
  · have hne : s.hart.id ≠ j := fun h => hj (h.symm.trans he)
    have hne' : (Hart.empty id).id ≠ j := fun h => hj h.symm
    rw [State.clearSlot_of_eq he, State.hartAt_of_ne hne, State.hartAt_of_ne hne']
  · rw [State.clearSlot_of_ne he]
    unfold State.hartAt
    split
    · rfl
    · rw [List.find?_filter]
      refine List.find?_congr fun g _ => ?_
      by_cases hg : g.id = j
      · simp [hg, hj]
      · simp [hg]

theorem State.onHartAt_of_ne (f : Hart → Hart) (hne : s.hart.id ≠ id) : s.onHartAt id f = { s with others := updIf (·.id == id) f s.others } := if_neg hne
end

/-! ### The children of a hart that ends (R125) -/

section
variable {s : State} {h : Hart} {c : Child} {j : Nat}

/-- The slot of a child on the core of its parent. -/
def childId (h : Hart) (c : Child) : Nat := 8 * h.core + c.slot

theorem childId_ne (hne : c.slot ≠ h.slot) : childId h c ≠ h.id := by
  unfold childId Hart.core
  unfold Hart.slot at hne
  omega

theorem State.freeJoined_of_some {g : Hart} (hg : s.hartAt (childId h c) = some g) : s.freeJoined h c =
    if c.joined.isSome then (s.toReserve h.tk.task h.core g.quads).clearSlot (childId h c)
    else s.onHartAt (childId h c) fun k => { k with tk := { k.tk with parent := none } } := by
  show (match s.hartAt (childId h c) with | some g => _ | none => _) = _
  rw [hg]
  rfl

theorem State.freeJoined_of_none (hg : s.hartAt (childId h c) = none) : s.freeJoined h c = s := by
  show (match s.hartAt (childId h c) with | some g => _ | none => _) = _
  rw [hg]

/-- Freeing a child touches its own slot, and the places. -/
theorem State.freeJoined_frame (hne : s.hart.id ≠ childId h c) : (s.freeJoined h c).hart = s.hart ∧ (s.freeJoined h c).mem = s.mem ∧
    (s.freeJoined h c).sys = s.sys ∧ ∀ j, j ≠ childId h c → (s.freeJoined h c).hartAt j = s.hartAt j := by
  cases hg : s.hartAt (childId h c) with
  | none =>
    rw [State.freeJoined_of_none hg]
    exact ⟨rfl, rfl, rfl, fun _ _ => rfl⟩
  | some g =>
    rw [State.freeJoined_of_some hg]
    split
    · refine ⟨?_, ?_, ?_, fun j hj => (State.hartAt_clearSlot_ne hj).trans rfl⟩
      all_goals rw [State.clearSlot_of_ne (show (s.toReserve h.tk.task h.core g.quads).hart.id ≠ _ from hne)]; rfl
    · exact ⟨by rw [State.onHartAt_of_ne _ hne], s.onHartAt_mem .., s.onHartAt_sys .., fun j hj => s.hartAt_onHartAt_ne _ _ _ (fun _ => rfl) hj⟩

/-- A joined child's slot is freed. -/
theorem State.hartAt_freeJoined_joined (hne : s.hart.id ≠ childId h c) (hj : c.joined.isSome = true) : (s.freeJoined h c).hartAt (childId h c) = none := by
  cases hg : s.hartAt (childId h c) with
  | none => rw [State.freeJoined_of_none hg, hg]
  | some g =>
    rw [State.freeJoined_of_some hg, if_pos hj]
    exact State.hartAt_clearSlot (show (s.toReserve h.tk.task h.core g.quads).hart.id ≠ _ from hne)

/-- A live child goes on without a parent. -/
theorem State.hartAt_freeJoined_live {k : Hart} (hj : c.joined = none) (hk : s.hartAt (childId h c) = some k) :
    (s.freeJoined h c).hartAt (childId h c) = some { k with tk := { k.tk with parent := none } } := by
  rw [State.freeJoined_of_some hk, hj, Option.isSome_none, if_neg Bool.false_ne_true, State.hartAt_onHartAt, hk]
  · rfl
  · exact fun _ => rfl

/-- The children of a hart that ends are freed one by one. -/
def State.freeChildren (s : State) (h : Hart) (l : List Child) : State := l.foldl (fun t c => t.freeJoined h c) s

theorem State.freeChildren_frame (h : Hart) : ∀ (l : List Child) (s : State), (∀ c ∈ l, s.hart.id ≠ childId h c) →
    (s.freeChildren h l).hart = s.hart ∧ (s.freeChildren h l).mem = s.mem ∧ (s.freeChildren h l).sys = s.sys ∧
    ∀ j, (∀ c ∈ l, j ≠ childId h c) → (s.freeChildren h l).hartAt j = s.hartAt j
  | [], _, _ => ⟨rfl, rfl, rfl, fun _ _ => rfl⟩
  | c :: r, s, hne => by
    rw [List.forall_mem_cons] at hne
    obtain ⟨hh, hm, hs, hj⟩ := State.freeJoined_frame (c := c) hne.1
    obtain ⟨ih, im, is, ij⟩ := State.freeChildren_frame h r (s.freeJoined h c) (by rw [hh]; exact hne.2)
    refine ⟨ih.trans hh, im.trans hm, is.trans hs, fun j hjs => ?_⟩
    rw [List.forall_mem_cons] at hjs
    exact (ij j hjs.2).trans (hj j hjs.1)

theorem State.hartAt_freeChildren (h : Hart) (l : List Child) (s : State) (hne : ∀ c ∈ l, s.hart.id ≠ childId h c) (hnd : (l.map (·.slot)).Nodup) :
    ∀ c ∈ l, (c.joined.isSome = true → (s.freeChildren h l).hartAt (childId h c) = none) ∧
      (c.joined = none → ∀ k, s.hartAt (childId h c) = some k →
        (s.freeChildren h l).hartAt (childId h c) = some { k with tk := { k.tk with parent := none } }) := by
  induction l generalizing s with
  | nil => exact fun c hc => absurd hc (by simp)
  | cons c r ih =>
    rw [List.forall_mem_cons] at hne
    rw [List.map_cons, List.nodup_cons] at hnd
    obtain ⟨hh, -, -, hj⟩ := State.freeJoined_frame (c := c) hne.1
    have hr : ∀ c' ∈ r, (s.freeJoined h c).hart.id ≠ childId h c' := by rw [hh]; exact hne.2
    have hdiff : ∀ e ∈ r, childId h e ≠ childId h c := by
      intro e he heq
      have hslot : e.slot = c.slot := by unfold childId at heq; omega
      exact hnd.1 (List.mem_map.mpr ⟨e, he, hslot⟩)
    rw [List.forall_mem_cons]
    constructor
    · obtain ⟨-, -, -, hkeep⟩ := State.freeChildren_frame h r (s.freeJoined h c) hr
      have hsame := hkeep (childId h c) fun c' hc' => (hdiff c' hc').symm
      exact ⟨fun hjoin => hsame.trans (State.hartAt_freeJoined_joined hne.1 hjoin), fun hlive k hk =>
        hsame.trans (State.hartAt_freeJoined_live hlive hk)⟩
    · intro e he
      obtain ⟨ha, hb⟩ := ih (s.freeJoined h c) hr hnd.2 e he
      exact ⟨ha, fun hlive k hk => hb hlive k ((hj _ (hdiff e he)).trans hk)⟩
end

/-! ### The end of a hart (R125) -/

/-- A hart that has one child less (R133). -/
def Hart.dropChild (g : Hart) (slot : Nat) : Hart :=
  { g with tk := { g.tk with children := g.tk.children.filter fun k => k.slot != slot } }

/-- A hart leaves its task, its slot and its core: what `endHart` does after the children and the parent. -/
def State.vacate (s : State) (h : Hart) : State :=
  let t3 := s.onTask h.tk.task fun t => if h.tk.isChild then t else completeGroups { t with halted := h.tk.index :: t.halted }
  let t4 := (t3.clearSlot h.id).onCore h.core fun c => { c with reserved := if c.reserved = some h.id then none else c.reserved }
  { t4 with
    coh := { t4.coh with links := t4.coh.links.filter fun l => l.1 != h.id }
    eng := { t4.eng with copies := t4.eng.copies.filter fun c => !(c.hart == h.id && c.task == h.tk.task) || c.open } }.dropReserve h.tk.task h.core

/-- A hart that ends has left its copies and claims, and its quads are in its task's reserve. -/
def State.leaving (s : State) (h : Hart) : State := ((s.leaveMods h).dropClaims h).toReserve h.tk.task h.core h.quads

theorem State.endHart_of_parent {s : State} {h : Hart} {p : Nat} (hp : h.tk.parent = some p) : s.endHart h =
    (((s.leaving h).freeChildren h h.tk.children).onHartAt p (·.dropChild h.slot)).vacate h := by
  unfold State.endHart
  simp only [hp]
  rfl

theorem State.endHart_of_no_parent {s : State} {h : Hart} (hp : h.tk.parent = none) :
    s.endHart h = ((s.leaving h).freeChildren h h.tk.children).vacate h := by
  unfold State.endHart
  simp only [hp]
  rfl

section
variable {s : State} {h : Hart} {j : Nat}

theorem State.dropReserve_eq (s : State) (task core : Nat) : s.dropReserve task core = { s with places := (s.dropReserve task core).places } := by
  unfold State.dropReserve
  split <;> rfl

theorem State.clearSlot_eq (s : State) (id : Nat) : s.clearSlot id = { s with hart := (s.clearSlot id).hart, others := (s.clearSlot id).others } := by
  unfold State.clearSlot
  split <;> rfl

theorem State.vacate_hart (he : s.hart.id = h.id) : (s.vacate h).hart = Hart.empty h.id := by
  unfold State.vacate
  simp only []
  rw [State.dropReserve_eq, State.clearSlot_of_eq (show (s.onTask _ _).hart.id = h.id from he)]
  rfl

theorem State.vacate_others (he : s.hart.id = h.id) : (s.vacate h).others = s.others := by
  unfold State.vacate
  simp only []
  rw [State.dropReserve_eq, State.clearSlot_of_eq (show (s.onTask _ _).hart.id = h.id from he)]
  rfl

theorem State.hartAt_vacate (he : s.hart.id = h.id) (hj : j ≠ h.id) : (s.vacate h).hartAt j = s.hartAt j := by
  have hne : s.hart.id ≠ j := fun h' => hj (h'.symm.trans he)
  have hne' : (s.vacate h).hart.id ≠ j := by rw [State.vacate_hart he]; exact fun h' => hj h'.symm
  rw [State.hartAt_of_ne hne, State.hartAt_of_ne hne', State.vacate_others he]

theorem State.byte_vacate (k : Nat) : (s.vacate h).byte k = s.byte k := by
  unfold State.vacate
  simp only []
  rw [State.dropReserve_eq, State.clearSlot_eq]
  rfl

/-- The tasks of a child's end stay (R125). -/
theorem State.vacate_tasks (hc : h.tk.isChild = true) : (s.vacate h).sys.tasks = s.sys.tasks := by
  unfold State.vacate
  simp only [hc, if_true]
  rw [State.dropReserve_eq, State.clearSlot_eq]
  show updIf _ (fun t => t) s.sys.tasks = _
  unfold updIf
  simp only [ite_self, List.map_id']

theorem State.byte_leaving (k : Nat) : (s.leaving h).byte k = s.byte k := rfl

theorem State.byte_freeChildren (l : List Child) (hne : ∀ c ∈ l, s.hart.id ≠ childId h c) (k : Nat) : (s.freeChildren h l).byte k = s.byte k := by
  obtain ⟨-, hm, hs, -⟩ := State.freeChildren_frame h l s hne
  rw [State.byte, State.byte, hm, hs]

theorem State.byte_onHartAt (j : Nat) (f : Hart → Hart) (k : Nat) : (s.onHartAt j f).byte k = s.byte k := by
  rw [State.byte, State.byte, s.onHartAt_mem, s.onHartAt_sys]
end

/-- No place lists a claim of the hart on its core. -/
def NoClaims (task core id : Nat) (p : Place) : Prop := p.task = task → p.core = core → ∀ c ∈ p.claims, c.2 ≠ id

theorem noClaims_updIf {task core id : Nat} {q : Place → Bool} {f : Place → Place} {l : List Place}
    (hf : ∀ p, (f p).task = p.task ∧ (f p).core = p.core ∧ (f p).claims = p.claims) (hl : ∀ p ∈ l, NoClaims task core id p) :
    ∀ p ∈ updIf q f l, NoClaims task core id p := by
  intro p hp
  obtain ⟨r, hr, rfl⟩ := List.mem_map.mp hp
  have := hl r hr
  by_cases hq : q r = true
  · obtain ⟨ht, hc, hcl⟩ := hf r
    rw [if_pos hq]
    unfold NoClaims
    rw [ht, hc, hcl]
    exact this
  · rw [if_neg hq]
    exact this

theorem State.leaving_noClaims (s : State) (h : Hart) : ∀ p ∈ (s.leaving h).places, NoClaims h.tk.task h.core h.id p := by
  refine noClaims_updIf (fun p => ⟨rfl, rfl, rfl⟩) ?_
  intro p hp
  obtain ⟨r, -, rfl⟩ := List.mem_map.mp hp
  by_cases hq : (r.task == h.tk.task && r.core == h.core) = true
  · rw [if_pos hq]
    intro _ _ c hc
    simpa using (List.mem_filter.mp hc).2
  · rw [if_neg hq]
    intro ht hc
    exact absurd (by rw [ht, hc, beq_self_eq_true, beq_self_eq_true]; rfl) hq

theorem State.dropReserve_noClaims {s : State} {t c task core id : Nat} (hs : ∀ p ∈ s.places, NoClaims task core id p) :
    ∀ p ∈ (s.dropReserve t c).places, NoClaims task core id p := by
  unfold State.dropReserve
  split
  · exact hs
  · exact noClaims_updIf (fun p => ⟨rfl, rfl, rfl⟩) hs

theorem State.vacate_noClaims {s : State} {h : Hart} {task core id : Nat} (hs : ∀ p ∈ s.places, NoClaims task core id p) :
    ∀ p ∈ (s.vacate h).places, NoClaims task core id p := by
  unfold State.vacate
  refine State.dropReserve_noClaims ?_
  rw [State.clearSlot_eq]
  exact hs

end Sys2Proof.Machine
end

section
/-! PROOFS. Harts (05), part 3: `join` in both roles, and `halt` (R125, R133). -/
namespace Sys2Proof.Machine

/-! ### The parent's role of `join` (R133) -/

section
variable {s : State} {d a b : Reg} {c : Child}

theorem exec_join_of_no_parent (ha : s.get a = -1) (hc : s.hart.tk.isChild = false) : exec (.join d a b) s = .next (s.set d (-1)).advance := by
  show execJoin d a b s = _
  simp only [execJoin, ha, hc, if_true, Bool.not_false, State.result_eq]

theorem exec_join_of_no_child (ha : s.get a ≠ -1) (hc : ∀ c ∈ s.hart.tk.children, c.slot ≠ (s.get a).toNat) :
    exec (.join d a b) s = .next (s.set d (-1)).advance := by
  have hn : s.hart.tk.children.find? (fun c => c.slot == (s.get a).toNat) = none :=
    List.find?_eq_none.mpr fun c hm => by simpa using hc c hm
  show execJoin d a b s = _
  simp only [execJoin, ha, if_false, hn, State.result_eq]

theorem exec_join_with_children (ha : s.get a = -1) (hc : s.hart.tk.isChild = true) (hne : s.hart.tk.children ≠ []) :
    exec (.join d a b) s = .next (s.trap .illegal ((encode (.join d a b)).zeroExtend 64)) := by
  have he : s.hart.tk.children.isEmpty = false := by simpa using hne
  show execJoin d a b s = _
  simp only [execJoin, ha, hc, he, if_true, Bool.not_true, Bool.not_false, Bool.false_eq_true, if_false]

variable (ha : s.get a ≠ -1) (hc : s.hart.tk.children.find? (fun k => k.slot == (s.get a).toNat) = some c)
include ha hc

theorem exec_join_of_live (hj : c.joined = none) : exec (.join d a b) s = .next (s.waitFor (.join c.slot)) := by
  show execJoin d a b s = _
  simp only [execJoin, ha, if_false, hc, hj]

theorem exec_join_waits_vector {w : Word} (hj : c.joined = some w) (hv : s.hart.vs.vq ≠ []) : exec (.join d a b) s = .next (s.waitFor .vector) := by
  show execJoin d a b s = _
  simp only [execJoin, ha, if_false, hc, hj, Hart.vectorDone_of_ne_nil hv, Bool.not_false, if_true]

theorem exec_join_collects {w : Word} (hj : c.joined = some w) (hv : s.hart.vs.vq = []) :
    exec (.join d a b) s = .next ((((s.acquire .core false).collectChild c).set d w).advance) := by
  show execJoin d a b s = _
  simp only [execJoin, ha, if_false, hc, hj, Hart.vectorDone_of_nil hv, Bool.not_true, Bool.false_eq_true, State.result_eq]
end

/-- The quads that a slot holds. -/
def State.heldAt (s : State) (id : Nat) : Quads := ((s.hartAt id).map (·.quads)).getD ⟨0, 0⟩

theorem State.collectChild_eq (s : State) (c : Child) : s.collectChild c =
    if 0 < c.qCount ∧ s.heldAt (childId s.hart c) = ⟨c.qCount, c.qFirst⟩ ∧ s.hart.quads = ⟨c.qCount, c.qFirst - c.qCount⟩ then
      (s.clearSlot (childId s.hart c)).onHart fun g => (g.dropChild c.slot).hold ⟨2 * c.qCount, s.hart.quads.first⟩
    else ((s.clearSlot (childId s.hart c)).onHart fun g => g.dropChild c.slot).toReserve s.hart.tk.task s.hart.core
      (s.heldAt (childId s.hart c)) := rfl

/-- Collecting a joined child changes the children, the holding and the child's slot alone (R133). -/
theorem State.collectChild_results (s : State) (c : Child) (hne : s.hart.id ≠ childId s.hart c) : let t := s.collectChild c
    t.hart.pc = s.hart.pc ∧ (∀ r, t.get r = s.get r) ∧ t.hart.id = s.hart.id ∧ t.hartAt (childId s.hart c) = none ∧
    (∀ i, t.byte i = s.byte i) ∧
    ∀ g, s.hartAt (childId s.hart c) = some g → 0 < c.qCount → g.quads = ⟨c.qCount, c.qFirst⟩ →
      s.hart.quads = ⟨c.qCount, c.qFirst - c.qCount⟩ → t.hart.quads = ⟨2 * c.qCount, s.hart.quads.first⟩ := by
  have hslot := State.hartAt_clearSlot hne
  rw [State.clearSlot_of_ne hne] at hslot
  have hempty : ∀ (f : Hart → Hart) (pl : List Place), (f s.hart).id = s.hart.id →
      ({ s with hart := f s.hart, others := s.others.filter fun h => h.id != childId s.hart c, places := pl } : State).hartAt
        (childId s.hart c) = none := fun f pl hf =>
    (if_neg (by rw [hf]; exact hne)).trans ((if_neg hne).symm.trans hslot)
  rw [State.collectChild_eq, State.clearSlot_of_ne hne]
  split
  · exact ⟨rfl, fun _ => rfl, rfl, hempty (fun g => (g.dropChild c.slot).hold ⟨2 * c.qCount, s.hart.quads.first⟩) _ rfl, fun _ => rfl,
      fun _ _ _ _ _ => rfl⟩
  · next hm =>
    refine ⟨rfl, fun _ => rfl, rfl, hempty (·.dropChild c.slot) _ rfl, fun _ => rfl, fun g hg h0 hq hp => absurd ⟨h0, ?_, hp⟩ hm⟩
    rw [State.heldAt, hg]
    exact hq

/-! ### The child's role of `join` (R133) -/

/-- A settled hart after its release: its interval number has risen, and the detector has its log (R128, R390). -/
def State.released (s : State) (l : List SyncEvent) : State :=
  { s with hart := { s.hart with interval := s.hart.interval + 1 }, coh := { s.coh with syncs := l } }

theorem release_eq_released {s : State} {sc : Scope} {eng : Bool} (h : Settled s sc eng) : ∃ l, s.release sc eng = .ok (s.released l) :=
  ⟨_, (release_of_settled h).trans (congrArg Except.ok (s.noteSync_true_eq sc))⟩

theorem State.hartAt_of_hart {s t : State} {j : Nat} (hh : t.hart.id = s.hart.id) (ho : t.others = s.others) (hj : j ≠ s.hart.id) :
    t.hartAt j = s.hartAt j := by
  have hne : s.hart.id ≠ j := Ne.symm hj
  rw [State.hartAt_of_ne hne, State.hartAt_of_ne (by rw [hh]; exact hne), ho]

theorem State.hartAt_released {s : State} {j : Nat} (l : List SyncEvent) (hj : j ≠ s.hart.id) : (s.released l).hartAt j = s.hartAt j :=
  State.hartAt_of_hart rfl rfl hj

/-- A child hands its value over to its parent and ends as joined (R133). -/
theorem State.joinChild_results (s : State) (v : Word) {p : Nat} {g : Hart} (hp : s.hart.tk.parent = some p) (hne : p ≠ s.hart.id)
    (hg : s.hartAt p = some g) : let t := s.joinChild v
    t.hart.status = .joined ∧ t.hart.id = s.hart.id ∧ t.hart.quads = s.hart.quads ∧
    t.hartAt p = some { g with tk := { g.tk with children := g.tk.children.map fun c =>
      if c.slot = s.hart.slot then { c with joined := some v } else c } } ∧ ∀ i, t.byte i = s.byte i := by
  unfold State.joinChild
  simp only [hp]
  generalize hu : ({ (s.leaveMods s.hart).dropClaims s.hart with
      hart := { Hart.empty s.hart.id with status := .joined, quads := s.hart.quads, tk := s.hart.tk }
      coh := { ((s.leaveMods s.hart).dropClaims s.hart).coh with links := ((s.leaveMods s.hart).dropClaims s.hart).coh.links.filter fun l => l.1 != s.hart.id }
      eng := { ((s.leaveMods s.hart).dropClaims s.hart).eng with copies := ((s.leaveMods s.hart).dropClaims s.hart).eng.copies.filter fun c =>
        !(c.hart == s.hart.id && c.task == s.hart.tk.task) || c.open } } : State) = u
  have hid : u.hart.id = s.hart.id := by rw [← hu]; rfl
  have hothers : u.others = s.others := by rw [← hu]; rfl
  have hkeep : u.hart.status = .joined ∧ u.hart.quads = s.hart.quads ∧ ∀ i, u.byte i = s.byte i := by
    rw [← hu]
    exact ⟨rfl, rfl, fun _ => rfl⟩
  obtain ⟨hstatus, hquads, hbyte⟩ := hkeep
  have hup : u.hart.id ≠ p := by rw [hid]; exact Ne.symm hne
  have hhart : ∀ f, (u.onHartAt p f).hart = u.hart := fun f => by rw [State.onHartAt_of_ne f hup]
  refine ⟨by rw [hhart]; exact hstatus, by rw [hhart]; exact hid, by rw [hhart]; exact hquads, ?_, fun i => (State.byte_onHartAt _ _ _).trans (hbyte i)⟩
  rw [State.hartAt_onHartAt, State.hartAt_of_hart hid hothers hne, hg]
  · simp only [Option.map_some, updIf, beq_iff_eq]
  · exact fun _ => rfl

/-! ### `halt` (R125) -/

section
variable {s : State} {h : Hart}

/-- The end of a hart without children and without a parent (R125). -/
theorem State.endHart_alone (hc : s.hart.tk.children = []) (hp : s.hart.tk.parent = none) : let t := s.endHart s.hart
    t.hart = Hart.empty s.hart.id ∧ t.others = s.others ∧ (∀ i, t.byte i = s.byte i) ∧
      ∀ p ∈ t.places, ∀ c ∈ p.claims, p.task = s.hart.tk.task → p.core = s.hart.core → c.2 ≠ s.hart.id := by
  rw [State.endHart_of_no_parent hp, hc]
  exact ⟨State.vacate_hart rfl, State.vacate_others rfl, fun i => State.byte_vacate i, fun p hpl c hcl ht hcore =>
    State.vacate_noClaims (s.leaving_noClaims s.hart) p hpl ht hcore c hcl⟩

/-- The end of a child without children: its parent has it no longer (R125). -/
theorem State.endHart_child {p : Nat} {g : Hart} (hc : s.hart.tk.children = []) (hchild : s.hart.tk.isChild = true)
    (hp : s.hart.tk.parent = some p) (hne : p ≠ s.hart.id) (hg : s.hartAt p = some g) : let t := s.endHart s.hart
    t.hart = Hart.empty s.hart.id ∧ (∀ i, t.byte i = s.byte i) ∧ t.sys.tasks = s.sys.tasks ∧ t.hartAt p = some (g.dropChild s.hart.slot) := by
  rw [State.endHart_of_parent hp, hc]
  have hid : ∀ f, (State.onHartAt (s.leaving s.hart) p f).hart.id = s.hart.id := fun f => by
    rw [State.onHartAt_of_ne f (show (s.leaving s.hart).hart.id ≠ p from Ne.symm hne)]
    rfl
  refine ⟨State.vacate_hart (hid _), fun i => (State.byte_vacate i).trans ((State.byte_onHartAt _ _ i).trans (State.byte_leaving i)),
    (State.vacate_tasks hchild).trans ?_, (State.hartAt_vacate (hid _) hne).trans ?_⟩
  · exact congrArg Sys.tasks (State.onHartAt_sys ..)
  · refine (State.hartAt_onHartAt _ p (·.dropChild s.hart.slot) fun _ => rfl).trans ?_
    show (s.hartAt p).map _ = _
    rw [hg]
    rfl

/-- The end of a hart without a parent: its joined children are freed, and its live ones go on (R125). -/
theorem State.endHart_parent (hp : s.hart.tk.parent = none) (hnd : (s.hart.tk.children.map (·.slot)).Nodup)
    (hcs : ∀ c ∈ s.hart.tk.children, c.slot ≠ s.hart.slot) : let t := s.endHart s.hart
    t.hart = Hart.empty s.hart.id ∧ (∀ i, t.byte i = s.byte i) ∧ ∀ c ∈ s.hart.tk.children,
      (c.joined.isSome = true → t.hartAt (childId s.hart c) = none) ∧
      (c.joined = none → ∀ k, s.hartAt (childId s.hart c) = some k →
        t.hartAt (childId s.hart c) = some { k with tk := { k.tk with parent := none } }) := by
  have hne : ∀ c ∈ s.hart.tk.children, (s.leaving s.hart).hart.id ≠ childId s.hart c := fun c hc => (childId_ne (hcs c hc)).symm
  obtain ⟨hh, -, -, -⟩ := State.freeChildren_frame s.hart s.hart.tk.children (s.leaving s.hart) hne
  have hid : ((s.leaving s.hart).freeChildren s.hart s.hart.tk.children).hart.id = s.hart.id := by rw [hh]; rfl
  rw [State.endHart_of_no_parent hp]
  refine ⟨State.vacate_hart hid, fun i => (State.byte_vacate i).trans ((State.byte_freeChildren _ hne i).trans (State.byte_leaving i)), fun c hc => ?_⟩
  obtain ⟨hjoined, hlive⟩ := State.hartAt_freeChildren s.hart s.hart.tk.children (s.leaving s.hart) hne hnd c hc
  have hv := State.hartAt_vacate hid (childId_ne (hcs c hc))
  exact ⟨fun hj => hv.trans (hjoined hj), fun hj k hk => hv.trans (hlive hj k hk)⟩

theorem exec_halt {t : State} (hr : s.release .dev true = .ok t) : exec .halt s = .next (t.endHart t.hart) := by
  show execHalt s = _
  simp only [execHalt, hr]
end

/-- Settles O28: the parent's role of `join`, the child's, and the ends of a hart. -/
theorem joinAndHalt : Obligations.JoinAndHalt := by
  unfold Obligations.JoinAndHalt
  refine ⟨fun s d a b => exec_join_of_no_parent, fun s d a b => exec_join_of_no_child, fun s d a b => exec_join_with_children,
    fun s d a b c ha hc => ⟨exec_join_of_live ha hc, fun w => exec_join_waits_vector ha hc, fun w hj hv h8 hne => ?collect⟩,
    fun s d a b p g ha hchild hcs hp hne hg hs => ?handOver, fun s hs hcs hp => ?alone, fun s p g hs hcs hchild hp hne hg => ?child,
    fun s hs hp hnd hcs => ?parent, fun s hv => ?waits⟩
  case collect =>
    have hh := (s.acquire_sameHarts .core false).hart
    obtain ⟨hpc, hget, hid, hslot, hbyte, hquads⟩ := (s.acquire .core false).collectChild_results c (by rw [hh]; exact (childId_ne hne).symm)
    rw [hh] at hpc hid hslot hquads
    refine ⟨_, exec_join_collects ha hc hj hv, ?_, fun r hr => ?_, fun hd => ?_, ?_, fun i => (hbyte i).trans (s.byte_acquire .core false i), ?_⟩
    · show (Hart.set _ _ _).pc + 4 = _
      rw [Hart.set_pc, hpc]
    · rw [State.get_advance, State.get_set_ne _ _ _ _ hr, hget, State.get, hh]
      rfl
    · rw [State.get_advance, State.get_set_self, if_neg hd]
    · have hkeep := State.hartAt_of_hart (s := (s.acquire .core false).collectChild c)
        (t := (((s.acquire .core false).collectChild c).set d w).advance) (Hart.set_id _ _ _) rfl (by rw [hid]; exact childId_ne hne)
      exact hkeep.trans hslot
    · intro g hg h0 hq hpq
      refine (Hart.set_quads _ _ _).trans (hquads g ?_ h0 hq hpq)
      rw [State.hartAt_of_hart (congrArg Hart.id hh) (s.acquire_sameHarts .core false).others (childId_ne hne)]
      exact hg
  case handOver =>
    obtain ⟨l, hr⟩ := release_eq_released hs
    refine ⟨(s.released l).joinChild (s.get b), ?_, (s.released l).joinChild_results (s.get b) hp hne ((State.hartAt_released l hne).trans hg)⟩
    show execJoin d a b s = _
    simp only [execJoin, ha, hchild, hcs, if_true, Bool.not_true, Bool.false_eq_true, if_false, List.isEmpty_nil, hr]
  case alone =>
    obtain ⟨l, hr⟩ := release_eq_released hs
    exact ⟨_, exec_halt hr, State.endHart_alone (s := s.released l) hcs hp⟩
  case child =>
    obtain ⟨l, hr⟩ := release_eq_released hs
    obtain ⟨hempty, hbyte, htasks, hparent⟩ := State.endHart_child (s := s.released l) hcs hchild hp hne ((State.hartAt_released l hne).trans hg)
    refine ⟨_, exec_halt hr, hempty, hbyte, htasks, hparent, fun u d a b k hk hu hua => ?_⟩
    obtain rfl : g.dropChild s.hart.slot = k := Option.some.inj (hparent.symm.trans hk)
    have hsmall : s.hart.slot < 8 := Nat.mod_lt _ (by omega)
    refine exec_join_of_no_child (fun h => ?_) fun c hc => ?_
    · rw [h] at hua
      exact absurd hua (by simp; omega)
    · rw [hu] at hc
      rw [hua]
      simpa using (List.mem_filter.mp hc).2
  case parent =>
    obtain ⟨l, hr⟩ := release_eq_released hs
    obtain ⟨hempty, hbyte, hchildren⟩ := State.endHart_parent (s := s.released l) hp hnd fun c hc => (hcs c hc).2
    exact ⟨_, exec_halt hr, hempty, hbyte, fun c hc => ⟨(hchildren c hc).1, fun hlive k hk =>
      (hchildren c hc).2 hlive k ((State.hartAt_released l (childId_ne (hcs c hc).2)).trans hk)⟩⟩
  case waits =>
    show execHalt s = _
    simp only [execHalt, State.release_waits_vector (Hart.vectorDone_of_ne_nil hv)]

end Sys2Proof.Machine
end

section
/-! PROOFS. Harts (05), part 4: `vrelease`, `vacquire`, `gbar` and `yield` (R134 to R136, R138). -/
namespace Sys2Proof.Machine

/-! ### Sorted lists -/

theorem mem_insertBy {α : Type} (before : α → α → Bool) (a x : α) : ∀ l : List α, x ∈ insertBy before a l ↔ x = a ∨ x ∈ l
  | [] => by simp [insertBy]
  | b :: r => by
    unfold insertBy
    split
    · rw [List.mem_cons, mem_insertBy before a x r, List.mem_cons]
      tauto
    · rw [List.mem_cons]

theorem mem_sortBy {α : Type} (before : α → α → Bool) (x : α) : ∀ l : List α, x ∈ sortBy before l ↔ x ∈ l
  | [] => Iff.rfl
  | a :: r => by rw [sortBy, mem_insertBy, mem_sortBy before x r, List.mem_cons]

/-! ### `vrelease` (R134) -/

theorem exec_vrelease_of_holder {s : State} (hv : s.hart.vs.vq = []) (hq : s.hart.quads.count ≠ 0) : exec .vrelease s = .next
    ((s.toReserve s.hart.tk.task s.hart.core s.hart.quads).onHart fun g =>
      { g.hold ⟨0, 0⟩ with
        mgrant := 0
        vr := { (g.hold ⟨0, 0⟩).vr with vl := 0 }
        q := Vector.ofFn fun i : Fin 8 => if i.val < 4 then [] else g.q.get i }).advance := by
  show execVrelease s = _
  simp only [execVrelease, Hart.vectorDone_of_nil hv, hq, Bool.not_true, Bool.false_eq_true, if_false]

theorem exec_vrelease_of_none {s : State} (hv : s.hart.vs.vq = []) (hq : s.hart.quads.count = 0) : exec .vrelease s = .next s.advance := by
  show execVrelease s = _
  simp only [execVrelease, Hart.vectorDone_of_nil hv, hq, Bool.not_true, Bool.false_eq_true, if_false, if_true]

/-! ### `vacquire` (R135) -/

/-- The lowest free aligned block (R135). -/
theorem blockIn_some {pool : BitVec 8} {n : Nat} {q : Quads} (hn : n ∈ [1, 2, 4, 8]) (h : blockIn pool n = some q) :
    q.count = n ∧ q.first % n = 0 ∧ q.first + n ≤ 8 := by
  have hn0 : n ≠ 0 := by rintro rfl; simp at hn
  have hn8 : n ∣ 8 := by
    simp only [List.mem_cons, List.not_mem_nil, or_false] at hn
    rcases hn with rfl | rfl | rfl | rfl <;> norm_num
  rw [blockIn, if_neg hn0] at h
  obtain ⟨j, hj, rfl⟩ := Option.map_eq_some_iff.mp h
  have hjn : j < 8 / n := List.mem_range.mp (List.mem_of_find?_eq_some hj)
  refine ⟨rfl, Nat.mul_mod_right n j, ?_⟩
  show n * j + n ≤ 8
  calc n * j + n = n * (j + 1) := by ring
    _ ≤ n * (8 / n) := Nat.mul_le_mul_left n hjn
    _ = 8 := Nat.mul_div_cancel' hn8

section
variable {s : State} {d a : Reg} {n : Nat}

theorem exec_vacquire_of_holder (hq : s.hart.quads.count ≠ 0) : exec (.vacquire d a) s = .next (s.set d (BitVec.ofNat 64 s.hart.quads.count)).advance := by
  show execVacquire d a s = _
  simp only [execVacquire, hq, ne_eq, not_false_eq_true, if_true, State.result_eq]

theorem exec_vacquire_of_bad (hq : s.hart.quads.count = 0) (hn : (s.get a).toNat ∉ [1, 2, 4, 8]) : exec (.vacquire d a) s = .next (s.set d 0).advance := by
  have hb : (!((s.get a).toNat == 1 || (s.get a).toNat == 2 || (s.get a).toNat == 4 || (s.get a).toNat == 8)) = true := by
    simpa [not_or, and_assoc] using hn
  show execVacquire d a s = _
  simp only [execVacquire, hq, hb, ne_eq, not_true_eq_false, if_false, if_true, State.result_eq]

/-- The wait of a hart for quads (R135). -/
def State.wanting (s : State) (d : Reg) (n : Nat) : State := s.waitFor (.vacquire d n s.env.cycle)

theorem exec_vacquire_of_free (hq : s.hart.quads.count = 0) (hn : n ∈ [1, 2, 4, 8]) (ha : (s.get a).toNat = n) (hw : s.hart.wait = none) :
    exec (.vacquire d a) s = .next ((s.wanting d n).tryGrant s.hart.id) := by
  have hb : (!(n == 1 || n == 2 || n == 4 || n == 8)) = false := by
    simp only [List.mem_cons, List.not_mem_nil, or_false] at hn
    rcases hn with rfl | rfl | rfl | rfl <;> rfl
  show execVacquire d a s = _
  simp only [execVacquire, hq, ha, hb, hw, ne_eq, not_true_eq_false, Bool.false_eq_true, if_false]
  rfl

/-- The wait of a hart leaves the quads that are free (R260). -/
theorem State.pool_wanting (s : State) (d : Reg) (n task core : Nat) : (s.wanting d n).pool task core = s.pool task core := by
  unfold State.pool State.hartsOn State.harts
  have hf : ∀ m : BitVec 8, (((s.wanting d n).hart :: (s.wanting d n).others).filter fun h => h.present && h.core == core).foldl
      (fun m h => m ||| h.quads.mask) m = ((s.hart :: s.others).filter fun h => h.present && h.core == core).foldl (fun m h => m ||| h.quads.mask) m := by
    intro m
    have hp : ((s.wanting d n).hart.present && (s.wanting d n).hart.core == core) = (s.hart.present && s.hart.core == core) := rfl
    rw [List.filter_cons, List.filter_cons, hp]
    split <;> rfl
  simp only [hf]
  rfl

/-- With no other waiter none stands ahead (R135). -/
theorem State.ahead_eq_nil {h : Hart} {core : Nat} (hs : ∀ g ∈ s.harts, ∀ e k c, g.wait = some (.vacquire e k c) → g.id = h.id) :
    ((s.waiters core).takeWhile fun p => p.2.id != h.id) = [] := by
  rw [List.eq_nil_iff_forall_not_mem]
  intro p hp
  have hne := List.mem_takeWhile_imp hp
  have hm := (List.takeWhile_sublist _).subset hp
  rw [State.waiters, mem_sortBy, List.mem_filterMap] at hm
  obtain ⟨g, hg, hgp⟩ := hm
  have hgh := (List.mem_filter.mp hg).1
  split at hgp
  · next e k c hw =>
    obtain rfl := Option.some.inj hgp
    exact absurd (hs g hgh e k c hw) (by simpa using hne)
  · exact absurd hgp (by simp)

/-- A hart that waits alone, nothing being reserved, can have what is free (R135). -/
theorem State.grantFor_alone (hres : (s.coreAt s.hart.core).reserved = none) (hothers : ∀ h ∈ s.others, ∀ e k c, h.wait ≠ some (.vacquire e k c)) :
    (s.wanting d n).grantFor (s.wanting d n).hart n = blockIn (s.pool s.hart.tk.task s.hart.core) n := by
  have hahead := State.ahead_eq_nil (s := s.wanting d n) (h := (s.wanting d n).hart) (core := s.hart.core) fun g hg e k c hw => by
    rcases List.mem_cons.mp hg with rfl | hg
    · rfl
    · exact absurd hw (hothers g hg e k c)
  have hres' : ((s.wanting d n).coreAt (s.wanting d n).hart.core).reserved = none := hres
  rw [← s.pool_wanting d n]
  unfold State.grantFor
  simp only [hres', Option.isSome_none, Bool.false_and, Bool.false_eq_true, if_false]
  rw [show (s.wanting d n).hart.core = s.hart.core from rfl, hahead]
  rfl

/-- A waiting hart that can have a block is granted it, and else waits on (R135). -/
theorem State.tryGrant_of_some {h : Hart} {c : Nat} {q : Quads} (hh : s.hartAt h.id = some h) (hw : h.wait = some (.vacquire d n c))
    (hq : s.grantFor h n = some q) : s.tryGrant h.id = s.grant h d q := by
  simp only [State.tryGrant, hh, hw, hq]

theorem State.tryGrant_of_none {h : Hart} {c : Nat} (hh : s.hartAt h.id = some h) (hw : h.wait = some (.vacquire d n c))
    (hq : s.grantFor h n = none) : s.tryGrant h.id = s := by
  simp only [State.tryGrant, hh, hw, hq]

/-- What a granted hart has (R135). -/
theorem State.grant_results (s : State) (d : Reg) (q : Quads) : let t := s.grant s.hart d q
    t.hart.quads = q ∧ KeepsX d s t ∧ (d ≠ 0 → t.get d = BitVec.ofNat 64 q.count) ∧ t.hart.pc = s.hart.pc + 4 ∧ t.hart.vr.pending = true := by
  rw [show s.grant s.hart d q = _ from State.onHartAt_of_eq _ rfl]
  refine ⟨Hart.set_quads _ _ _, fun r hr => (Hart.get_set_ne _ _ r _ hr).trans rfl, fun hd => (Hart.get_set_self _ _ _).trans (if_neg hd),
    ?_, ?_⟩
  · show (Hart.set _ _ _).pc + 4 = _
    rw [Hart.set_pc]
    rfl
  · show (Hart.set _ _ _).vr.pending = true
    rw [Hart.set_vr]
    rfl
end

end Sys2Proof.Machine
end

section
/-! PROOFS. Harts (05), part 5: `gbar` (R136, R261, R262), `yield` (R138), and quads and groups settled. -/
namespace Sys2Proof.Machine

/-! ### Groups (R261, R262) -/

/-- A group whose number no entry of GMEM names is none of the hart's (R26). -/
theorem inGroup_eq_false {gmem : Word} {g : Nat}
    (h : ∀ i, i < 4 → gmem.getLsbD (16 * i + 15) = true → bitsOf gmem.toNat (16 * i + 7) (16 * i) ≠ g) : inGroup gmem g = false := by
  rw [inGroup, List.any_eq_false]
  intro i hi
  have hi4 : i < 4 := List.mem_range.mp hi
  simp only [Bool.and_eq_true, beq_iff_eq, not_and]
  intro hbit hg
  have hlow : bitsOf gmem.toNat (16 * i + 7) (16 * i) = g := by
    rw [← hg, bitsOf, bitsOf, show 16 * i + 7 + 1 - 16 * i = 8 by omega, show 16 * i + 15 + 1 - 16 * i = 16 by omega,
      Nat.mod_mod_of_dvd _ (by norm_num : 256 ∣ 2 ^ 16)]
    norm_num
  refine h i hi4 ?_ hlow
  rw [bitsOf, show 16 * i + 15 + 1 - 16 * i = 16 by omega] at hbit
  rw [BitVec.getLsbD, Nat.testBit_eq_decide_div_mod_eq, decide_eq_true_eq, pow_add, ← Nat.div_div_eq_div_mul]
  omega

/-- Arriving at a task's one group (R136). -/
theorem arriveAt_groups {t : Task} {g : Group} (ht : t.groups = [g]) (i : Nat) : (arriveAt g.num i t).groups =
    [if g.members.all (fun m => (i :: g.arrived).any (· == m) || t.halted.any (· == m)) then { g with phase := g.phase + 1, arrived := [] }
     else { g with arrived := i :: g.arrived }] := by
  unfold arriveAt completeGroups updIf
  simp only [ht, List.map_cons, List.map_nil, beq_self_eq_true, if_true, List.isEmpty_cons, Bool.not_false, Bool.true_and]

/-- Every member has arrived, with this one, or halted (R262). -/
theorem members_all_iff {g : Group} {i : Nat} {halted : List Nat} :
    (g.members.all fun m => (i :: g.arrived).any (· == m) || halted.any (· == m)) = true ↔
      ∀ m ∈ g.members, m = i ∨ m ∈ g.arrived ∨ m ∈ halted := by
  simp only [List.all_eq_true, Bool.or_eq_true, List.any_cons, beq_iff_eq, List.any_eq_true, exists_eq_right, or_assoc, eq_comm (a := i)]

theorem Task.phaseOf_single {t : Task} {g : Group} (ht : t.groups = [g]) : t.phaseOf g.num = g.phase := by
  rw [Task.phaseOf, ht, List.find?_cons_of_pos (by simp)]
  rfl

theorem State.taskAt_onTask (s : State) (id : Nat) (f : Task → Task) (hf : ∀ t, (f t).id = t.id) : (s.onTask id f).taskAt id = (s.taskAt id).map f := by
  refine (find?_updIf (·.id == id) (·.id == id) f (fun t => by rw [hf]) s.sys.tasks).trans ?_
  show (s.taskAt id).map _ = _
  refine Option.map_congr fun t ht => if_pos ?_
  exact List.find?_some (p := fun x : Task => x.id == id) ht

/-! ### `gbar` (R136) -/

/-- A hart that has arrived, and its task's record of it (R136). -/
def State.arriving (s : State) (g phase : Nat) : State :=
  (s.onHart fun k => { k with tk := { k.tk with arrived := some (g, phase) } }).onTask s.hart.tk.task (arriveAt g s.hart.tk.index)

/-- A hart passes the barrier: it acquires, and has arrived nowhere (R136). -/
def State.passing (s : State) : State := (s.acquire .dev false).onHart fun k => { k with tk := { k.tk with arrived := none } }

section
variable {s : State} {d a : Reg} {t : Task} {g : Group}

/-- What passing the barrier leaves (R136). -/
theorem State.passing_result (s : State) (d : Reg) (w : Word) : let u := (s.passing.set d w).advance
    u.hart.pc = s.hart.pc + 4 ∧ KeepsX d s u ∧ (d ≠ 0 → u.get d = w) ∧ u.hart.tk.arrived = none ∧ (∀ i, u.byte i = s.byte i) ∧
    u.sys = s.sys := by
  obtain ⟨hh, -, -, -, hs, -⟩ := s.acquire_frame .dev false
  have hx : s.passing.hart = { s.hart with tk := { s.hart.tk with arrived := none } } := by
    show ({ (s.acquire .dev false).hart with tk := _ } : Hart) = _
    rw [hh]
  refine ⟨?_, fun r hr => ?_, fun hd => ?_, ?_, s.byte_acquire .dev false, hs⟩
  · show (Hart.set _ _ _).pc + 4 = _
    rw [Hart.set_pc, hx]
  · rw [State.get_advance, State.get_set_ne _ _ _ _ hr, State.get, hx]
    rfl
  · rw [State.get_advance, State.get_set_self, if_neg hd]
  · show (Hart.set _ _ _).tk.arrived = none
    rw [Hart.set_tk, hx]

theorem exec_gbar_of_no_group (hg : inGroup s.hart.tk.gmem ((s.get a).toNat % 256) = false) : exec (.gbar d a) s = .next (s.set d 1).advance := by
  show execGbar d a s = _
  simp only [execGbar, hg, Bool.not_false, if_true, State.result_eq]

variable (ht : s.taskAt s.hart.tk.task = some t) (hgs : t.groups = [g]) (hn : g.num = (s.get a).toNat % 256)
include ht hgs hn

/-- The phase that `gbar` finds (R136). -/
theorem gbar_phase : ((s.taskAt s.hart.tk.task).map (·.phaseOf ((s.get a).toNat % 256))).getD 0 = g.phase := by
  rw [ht, ← hn, Option.map_some, Task.phaseOf_single hgs, Option.getD_some]

variable (hin : inGroup s.hart.tk.gmem ((s.get a).toNat % 256) = true)
include hin

/-- A hart that has arrived waits for its phase to move on, and then passes (R136). -/
theorem exec_gbar_arrived {p : Nat} (ha : s.hart.tk.arrived = some (g.num, p)) :
    (p = g.phase → exec (.gbar d a) s = .next (s.waitFor (.gbar g.num))) ∧
    (p ≠ g.phase → exec (.gbar d a) s = .next (s.passing.set d 0).advance) := by
  have hphase := gbar_phase ht hgs hn
  constructor
  · intro hp
    show execGbar d a s = _
    rw [← hn] at hin hphase
    simp only [execGbar, hin, hphase, ha, ← hn, hp, ne_eq, not_true_eq_false, and_false, Bool.not_true, Bool.false_eq_true, if_false]
  · intro hp
    show execGbar d a s = _
    rw [← hn] at hin hphase
    simp only [execGbar, hin, hphase, ha, ← hn, hp, ne_eq, not_false_eq_true, and_self, Bool.not_true, Bool.false_eq_true, if_false, if_true,
      State.result_eq]
    rfl

/-- A settled hart arrives (R136). -/
theorem exec_gbar_arrives (ha : s.hart.tk.arrived = none) (hs : Settled s .dev false) : ∃ l,
    ((s.released l).arriving g.num g.phase).taskAt s.hart.tk.task = some (arriveAt g.num s.hart.tk.index t) ∧
    exec (.gbar d a) s = .next (if ((arriveAt g.num s.hart.tk.index t).phaseOf g.num) ≠ g.phase then
        (((s.released l).arriving g.num g.phase).passing.set d 0).advance
      else ((s.released l).arriving g.num g.phase).waitFor (.gbar g.num)) := by
  obtain ⟨l, hr⟩ := release_eq_released hs
  have hphase := gbar_phase ht hgs hn
  have htask : ((s.released l).arriving g.num g.phase).taskAt s.hart.tk.task = some (arriveAt g.num s.hart.tk.index t) := by
    refine (State.taskAt_onTask (f := arriveAt g.num s.hart.tk.index) _ _ fun _ => rfl).trans ?_
    show (s.taskAt s.hart.tk.task).map _ = _
    rw [ht]
    rfl
  refine ⟨l, htask, ?_⟩
  rw [← hn] at hin hphase
  show execGbar d a s = _
  simp only [execGbar, hin, hphase, ha, hr, ← hn, Bool.not_true, Bool.false_eq_true, if_false]
  have hmap : (((s.released l).arriving g.num g.phase).taskAt s.hart.tk.task).map (·.phaseOf g.num) =
      some ((arriveAt g.num s.hart.tk.index t).phaseOf g.num) := by rw [htask]; rfl
  have hget := congrArg (Option.getD · 0) hmap
  simp only [Option.getD_some] at hget
  rw [← hget]
  by_cases hc : ((((s.released l).arriving g.num g.phase).taskAt s.hart.tk.task).map (·.phaseOf g.num)).getD 0 ≠ g.phase
  · exact (if_pos hc).trans (congrArg Host.Outcome.next (if_pos hc).symm)
  · exact (if_neg hc).trans (congrArg Host.Outcome.next (if_neg hc).symm)

/-- The last member to arrive moves the phase on, and passes (R136, R262). -/
theorem gbar_last (ha : s.hart.tk.arrived = none) (hs : Settled s .dev false) (hall : ∀ m ∈ g.members, m = s.hart.tk.index ∨ m ∈ g.arrived ∨ m ∈ t.halted) :
    ∃ u, exec (.gbar d a) s = .next u ∧ u.hart.pc = s.hart.pc + 4 ∧ KeepsX d s u ∧ (d ≠ 0 → u.get d = 0) ∧ u.hart.tk.arrived = none ∧
      (∀ i, u.byte i = s.byte i) ∧ ∃ v, u.taskAt s.hart.tk.task = some v ∧ v.groups = [{ g with phase := g.phase + 1, arrived := [] }] := by
  obtain ⟨l, htask, hexec⟩ := exec_gbar_arrives (d := d) ht hgs hn hin ha hs
  have hgroups := arriveAt_groups hgs s.hart.tk.index
  rw [if_pos (members_all_iff.mpr hall)] at hgroups
  have hp : (arriveAt g.num s.hart.tk.index t).phaseOf g.num = g.phase + 1 := Task.phaseOf_single hgroups
  rw [hp, if_pos (by omega)] at hexec
  obtain ⟨hpc, hx, hd, harr, hbyte, hsys⟩ := ((s.released l).arriving g.num g.phase).passing_result d 0
  refine ⟨_, hexec, hpc, hx, hd, harr, hbyte, _, ?_, hgroups⟩
  rw [← htask, State.taskAt, State.taskAt, hsys]

/-- Before that it is recorded as arrived, and waits (R136). -/
theorem gbar_waits (ha : s.hart.tk.arrived = none) (hs : Settled s .dev false)
    (hmiss : ∃ m ∈ g.members, m ≠ s.hart.tk.index ∧ m ∉ g.arrived ∧ m ∉ t.halted) :
    ∃ u, exec (.gbar d a) s = .next u ∧ u.hart.pc = s.hart.pc ∧ u.hart.wait = some (.gbar g.num) ∧ (∀ r, u.get r = s.get r) ∧
      u.hart.tk.arrived = some (g.num, g.phase) ∧ (∀ i, u.byte i = s.byte i) ∧
      ∃ v, u.taskAt s.hart.tk.task = some v ∧ v.groups = [{ g with arrived := s.hart.tk.index :: g.arrived }] := by
  obtain ⟨l, htask, hexec⟩ := exec_gbar_arrives (d := d) ht hgs hn hin ha hs
  obtain ⟨m, hm, h1, h2, h3⟩ := hmiss
  have hgroups := arriveAt_groups hgs s.hart.tk.index
  rw [if_neg fun hall => by
    rcases members_all_iff.mp hall m hm with h | h | h
    exacts [h1 h, h2 h, h3 h]] at hgroups
  have hp : (arriveAt g.num s.hart.tk.index t).phaseOf g.num = g.phase :=
    Task.phaseOf_single (g := { g with arrived := s.hart.tk.index :: g.arrived }) hgroups
  rw [hp, if_neg (by simp)] at hexec
  exact ⟨_, hexec, rfl, rfl, fun _ => rfl, rfl, fun _ => rfl, _, htask, hgroups⟩
end

/-! ### `yield` (R138) -/

theorem yield_results (s : State) : ∃ t, exec .yield s = .next t ∧ Retired s t ∧ t.hart.sc.yieldLeft = 16 ∧ s.hart.id ∉ t.env.opps ∧
    ∀ i, i ∈ t.hart.sc.yielded ↔ ∃ g ∈ s.hartsOn s.hart.core, g.id = i ∧ i ≠ s.hart.id ∧ g.status = .running ∧ g.sc.ready = true := by
  refine ⟨_, rfl, ⟨rfl, fun _ => rfl, .refl s, fun _ => rfl⟩, rfl, fun h => ?_, fun i => ?_⟩
  · simpa using (List.mem_filter.mp h).2
  · refine List.mem_map.trans (exists_congr fun g => ?_)
    rw [List.mem_filter, Hart.ready, Bool.and_eq_true, Bool.and_eq_true, beq_iff_eq, bne_iff_ne]
    constructor
    · rintro ⟨⟨hg, ⟨hrun, hready⟩, hne⟩, rfl⟩
      exact ⟨hg, rfl, hne, hrun, hready⟩
    · rintro ⟨hg, rfl, hne, hrun, hready⟩
      exact ⟨⟨hg, ⟨hrun, hready⟩, hne⟩, rfl⟩

/-- Settles O29: a release of quads, a grant, a barrier, and a `yield`. -/
theorem quadsAndGroups : Obligations.QuadsAndGroups := by
  unfold Obligations.QuadsAndGroups
  refine ⟨fun s hv hq => ?vrelease, fun s => exec_vrelease_of_none, fun s hv => ?vreleaseWaits,
    fun s d a => ⟨exec_vacquire_of_holder, exec_vacquire_of_bad⟩, fun s d a n hq hn ha hrun hw hres hothers => ?vacquire,
    fun s d a h => exec_gbar_of_no_group (inGroup_eq_false h), fun s d a t g hin ha hs ht hgs hn => gbar_last ht hgs hn hin ha hs,
    fun s d a t g hin ha hs ht hgs hn => gbar_waits ht hgs hn hin ha hs, fun s d a t g p hin ha ht hgs hn => ?arrived, yield_results⟩
  case vrelease =>
    refine ⟨_, exec_vrelease_of_holder hv hq, rfl, rfl, rfl, rfl, rfl, fun i => ?_, rfl, rfl, fun _ => rfl, fun _ => rfl⟩
    exact (Vector.get_eq_getElem ..).trans (Vector.getElem_ofFn ..)
  case vreleaseWaits =>
    show execVrelease s = _
    simp only [execVrelease, Hart.vectorDone_of_ne_nil hv, Bool.not_false, if_true]
  case vacquire =>
    have hat : (s.wanting d n).hartAt s.hart.id = some (s.wanting d n).hart := State.hartAt_self _
    have hexec := exec_vacquire_of_free (d := d) hq hn ha hw
    have hgrant := State.grantFor_alone (d := d) (n := n) hres hothers
    refine ⟨fun q hfree => ?_, fun hfree => ?_⟩
    · obtain ⟨hcount, hal, hend⟩ := blockIn_some hn hfree
      obtain ⟨hquads, hx, hd, hpc, hpend⟩ := (s.wanting d n).grant_results d q
      rw [hcount] at hd
      exact ⟨_, hexec.trans (congrArg Host.Outcome.next (State.tryGrant_of_some (h := (s.wanting d n).hart) hat rfl (hgrant.trans hfree))), hquads, hcount, hal, hend,
        hx, hd, hpc, hpend⟩
    · exact hexec.trans (congrArg Host.Outcome.next (State.tryGrant_of_none (h := (s.wanting d n).hart) hat rfl (hgrant.trans hfree)))
  case arrived =>
    obtain ⟨hwait, hpass⟩ := exec_gbar_arrived (d := d) ht hgs hn hin ha
    refine ⟨hwait, fun hp => ?_⟩
    obtain ⟨hpc, hx, hd, harr, hbyte, -⟩ := s.passing_result d 0
    exact ⟨_, hpass hp, hpc, hx, hd, harr, hbyte⟩

end Sys2Proof.Machine
end

section
/-! PROOFS. Harts (05), part 6: `launch` (R137, R321 to R325). -/
namespace Sys2Proof.Machine

/-! ### Queueing (R324, R325) -/

/-- The queue of a number is read from the list as from the vector. -/
theorem Vector.getD_toList_fin {α : Type} {n : Nat} (v : Vector α n) (i : Fin n) (x : α) : v.toList.getD i.val x = v.get i := by
  rw [Vector.get_eq_getElem, List.getD_eq_getElem _ _ (by rw [Vector.length_toList]; exact i.isLt), Vector.getElem_toList]

theorem State.partAt_onPart (s : State) (id : Nat) (f : Partition → Partition) (hf : ∀ p, (f p).id = p.id) :
    (s.onPart id f).partAt id = (s.partAt id).map f := by
  refine (find?_updIf (·.id == id) (·.id == id) f (fun t => by rw [hf]) s.sys.parts).trans ?_
  show (s.partAt id).map _ = _
  exact Option.map_congr fun t ht => if_pos (List.find?_some (p := fun x : Partition => x.id == id) ht)

/-- An entry joins the end of a launch queue (R325). -/
def Partition.queued (p : Partition) (q : Nat) (e : QEntry) : Partition :=
  { p with queues := Vector.ofFn fun i : Fin 16 => if i.val = q then p.queues.get i ++ [e] else p.queues.get i }

theorem Partition.queued_get (p : Partition) (q : Nat) (e : QEntry) (i : Fin 16) :
    (p.queued q e).queues.get i = if i.val = q then p.queues.get i ++ [e] else p.queues.get i :=
  (Vector.get_eq_getElem ..).trans (Vector.getElem_ofFn ..)

section
variable {s : State} {p : Partition} {c kpa : Nat} {r d : BitVec 512} {wl dl : Loc}

/-- A launch that its descriptor or its placement forbids (R324). -/
theorem State.enqueue_illegal (hp : s.partAt p.id = some p)
    (h : descriptorOk d = false ∨ s.placeable p (effHarts r d) (effAff r d) = false) : s.enqueue p.id c r d kpa wl dl = (some 2, s) := by
  have hb : (!descriptorOk d || !s.placeable p (effHarts r d) (effAff r d)) = true := by
    rcases h with h | h
    · rw [h]; rfl
    · rw [h, Bool.not_false, Bool.or_true]
  simp only [State.enqueue, hp, hb, if_true]

/-- A legal launch without groups is taken while its queue has room (R324, R325). -/
theorem State.enqueue_legal (hp : s.partAt p.id = some p) (hd : descriptorOk d = true) (hpl : s.placeable p (effHarts r d) (effAff r d) = true)
    (hn : kNgrp d = 0) : s.enqueue p.id c r d kpa wl dl =
      if 64 ≤ (p.queues.toList.getD (4 * rClass r + rQueue r) []).length then (some 1, s)
      else (some 0, s.onPart p.id (·.queued (4 * rClass r + rQueue r)
        { record := r, desc := d, ctx := c, kpa := kpa, wloc := wl, dloc := dl, eligible := !rWait r })) := by
  simp only [State.enqueue, hp, hd, hpl, hn, State.template, membersFit, Bool.not_true, Bool.or_self, Bool.false_eq_true, if_false,
    List.all_nil, reduceCtorEq]
  rfl
end

/-! ### `launch` (R137, R322) -/

section
variable {s t u : State} {d a : Reg} {v x : Nat}

theorem exec_launch_misaligned (hr : s.release .dev true = .ok t) (ha : (s.get a).toNat % 64 ≠ 0) :
    exec (.launch d a) s = .next (t.trap .misalign (s.get a)) := by
  have hget := (State.release_keepsRegs hr).get a
  show execLaunch d a s = _
  simp only [execLaunch, hr, hget, ha, ne_eq, not_false_eq_true, if_true]

variable (hr : s.release .dev true = .ok t) (ha : (s.get a).toNat % 64 = 0) (hv : t.loadRecord (s.get a).toNat 8 = ((.val v, x), u))
include hr ha hv

theorem exec_launch_malformed (hok : recordOk (BitVec.ofNat 512 v) = false) : exec (.launch d a) s = .next (u.set d 2).advance := by
  have hget := (State.release_keepsRegs hr).get a
  show execLaunch d a s = _
  simp only [execLaunch, hr, hget, ha, hv, hok, ne_eq, not_true_eq_false, if_false, Bool.not_false, if_true, State.result_eq]

/-- A launch whose reads have passed gives the status with which the partition takes it (R322). -/
theorem exec_launch_of_status {k w l : Loc} {v2 y st : Nat} {z q : State} (hok : recordOk (BitVec.ofNat 512 v) = true)
    (hl : launchLocs (fun y acc => u.scalarLoc u.hart y 8 acc) (BitVec.ofNat 512 v) = .ok (k, w, l))
    (hd : u.loadRecord (rKdesc (BitVec.ofNat 512 v)) 8 = ((.val v2, y), z))
    (hq : z.enqueue u.hart.tk.part u.hart.tk.ctx (BitVec.ofNat 512 v) (BitVec.ofNat 512 v2) k.pa w l = (some st, q)) :
    exec (.launch d a) s = .next (q.set d (BitVec.ofNat 64 st)).advance := by
  have hget := (State.release_keepsRegs hr).get a
  show execLaunch d a s = _
  simp only [execLaunch, hr, hget, ha, hv, hok, hl, hd, hq, ne_eq, not_true_eq_false, Bool.not_true, Bool.false_eq_true, if_false, State.result_eq]
end

/-- Settles O30: the record's checks in their order, and the entry at the end of its queue. -/
theorem launchResults : Obligations.LaunchResults := by
  unfold Obligations.LaunchResults
  refine ⟨fun s d a hv => ?waits, fun s t d a => exec_launch_misaligned, fun s t u d a v x hr ha hv =>
    ⟨exec_launch_malformed hr ha hv, fun hok k w l hl v2 y z hd st q hq => exec_launch_of_status hr ha hv hok hl hd hq⟩,
    fun s p c r d kpa wl dl hp => ⟨State.enqueue_illegal hp, fun hd hpl hn q hq => ⟨fun hfull => ?full, fun hroom => ?queued⟩⟩⟩
  case waits =>
    show execLaunch d a s = _
    simp only [execLaunch, State.release_waits_vector (Hart.vectorDone_of_ne_nil hv)]
  case full =>
    rw [State.enqueue_legal hp hd hpl hn, ← hq, Vector.getD_toList_fin, if_pos hfull]
  case queued =>
    have henq := State.enqueue_legal (c := c) (kpa := kpa) (wl := wl) (dl := dl) hp hd hpl hn
    rw [← hq, Vector.getD_toList_fin, if_neg (Nat.not_le.mpr hroom)] at henq
    generalize ({ record := r, desc := d, ctx := c, kpa := kpa, wloc := wl, dloc := dl, eligible := !rWait r } : QEntry) = e at henq ⊢
    have hpart := State.partAt_onPart s p.id (·.queued q.val e) fun _ => rfl
    rw [hp] at hpart
    exact ⟨_, henq, rfl, rfl, _, hpart, (p.queued_get q e q).trans (if_pos rfl),
      fun k hk => (p.queued_get q e k).trans (if_neg fun h => hk (Fin.ext h))⟩

end Sys2Proof.Machine
end

section
/-! PROOFS. Scalar memory (05), part 8: a load can let a writeback of its line arrive, which changes memory (R294, R296); the frame of the
loads and stores refuted. -/
namespace Sys2Proof.Machine

/-- A trap leaves memory as it was (R23). -/
theorem State.byte_trap (s : State) (c : Cause) (v : Word) (e k : Nat) : (s.trap c v e).byte k = s.byte k := by
  have hpads : (s.trap c v e).sys.pads = s.sys.pads := by
    unfold State.trap takeTrap
    simp only []
    split <;> rfl
  rw [State.byte, State.trap_mem, hpads, State.byte]

/-- The page tables map address 0 to `loadPage`, for a hart of partition 0 on core 0. -/
def loadMapped : State :=
  loadTables { State.reset with
    hart := { Hart.empty 0 with status := .running }
    sys := { State.reset.sys with parts := [loadPart] } } 0

/-- A writeback on its way from core 1, of word 15 of the loaded line, which holds other bytes than memory. -/
def lateWriteback : Msg :=
  { kind := .wb, sender := 1, target := 65536 + homeSlice (lineOf loadPage), part := 0, line := lineOf loadPage, words := 0x8000
    bytes := 0, data := -1, dirty := 0x8000, poison := 0, aux := 0, aux2 := 0 }

/-- The home of the loaded line: word 0 is lost (R307), and word 15 is core 1's. -/
def lateHome : HomeLine :=
  ((HomeLine.fresh (lineOf loadPage)).setWords 0x0001 .lost).setWords 0x8000 (.core 1)

/-- The load finds its own words at the home, and a writeback for another word of the line is on its way. -/
def loadMeetsWriteback : State :=
  { loadMapped with coh := { loadMapped.coh with homes := [lateHome], split := [lineOf loadPage], net := [lateWriteback] } }

/-- The state after the fill of the line. -/
def filledOf (s : State) : State := (s.missFill s.hart { kind := .cached, key := loadPage, pa := 2 ^ 48 + loadPage } 8).getD s

theorem loadMeetsWriteback_scalarLoad :
    loadMeetsWriteback.scalarLoad 0 8 = (.fault .ownerLost, filledOf loadMeetsWriteback) := by decide +kernel

/-- The fill has the writeback applied: the home asks the owner of every word of the line, not of the loaded ones alone (R296). -/
theorem filled_byte_ne : (filledOf loadMeetsWriteback).byte (loadPage + 60) ≠ loadMeetsWriteback.byte (loadPage + 60) := by decide +kernel

/-- Refutes O21: the home of a line that a load fills asks the owners of all its words, and the writeback of another word, which was on its
way, arrives first and changes memory. -/
theorem not_loadStoreFrame : ¬ Obligations.LoadStoreFrame := by
  unfold Obligations.LoadStoreFrame
  rintro ⟨hload, -⟩
  obtain ⟨-, -, -, hfault, -⟩ := exec_load (s := loadMeetsWriteback) (i := .ld64 1 2 0) (d := 1) (a := 2) (m := 0) (n := 8) (f := BitVec.ofNat 64)
    (e := BitVec.ofNat 64) rfl (by omega) (by norm_num) fun _ _ => rfl
  have hexec := hfault _ _ loadMeetsWriteback_scalarLoad
  obtain ⟨-, -, -, -, hbyte⟩ := hload _ _ 1 2 0 (.ld64 1 2 0) (by simp) hexec
  have := hbyte (by decide +kernel) (by decide +kernel) (loadPage + 60)
  rw [State.byte_trap] at this
  exact filled_byte_ne this

end Sys2Proof.Machine
end

section
/-! PROOFS. Scheduling (11), part 1: lists in an order, and the arbiter of a core (R270). -/
namespace Sys2Proof.Machine

/-! ### Lists in an order -/

section
variable {α : Type} {before : α → α → Bool}

theorem insertBy_perm (before : α → α → Bool) (a : α) : ∀ l : List α, (insertBy before a l).Perm (a :: l)
  | [] => .refl _
  | b :: r => by
    unfold insertBy
    split
    · exact ((insertBy_perm before a r).cons b).trans (.swap a b r)
    · exact .refl _

theorem sortBy_perm (before : α → α → Bool) : ∀ l : List α, (sortBy before l).Perm l
  | [] => .refl _
  | a :: r => (insertBy_perm before a _).trans ((sortBy_perm before r).cons a)

/-- A list in an order stays so when an element is inserted. -/
theorem pairwise_insertBy (hasymm : ∀ x y, before x y = true → before y x = false)
    (htrans : ∀ x y z, before x y = false → before y z = false → before x z = false) (a : α) :
    ∀ l : List α, l.Pairwise (fun x y => before y x = false) → (insertBy before a l).Pairwise fun x y => before y x = false
  | [], _ => List.pairwise_singleton _ _
  | b :: r, h => by
    obtain ⟨hb, hr⟩ := List.pairwise_cons.mp h
    unfold insertBy
    split
    next hba =>
      refine List.pairwise_cons.mpr ⟨fun c hc => ?_, pairwise_insertBy hasymm htrans a r hr⟩
      rcases (mem_insertBy before a c r).mp hc with rfl | hc
      · exact hasymm _ _ hba
      · exact hb c hc
    next hba =>
      rw [Bool.not_eq_true] at hba
      refine List.pairwise_cons.mpr ⟨fun c hc => ?_, h⟩
      rcases List.mem_cons.mp hc with rfl | hc
      · exact hba
      · exact htrans _ _ _ (hb c hc) hba

/-- No element of a sorted list comes before one in front of it. -/
theorem pairwise_sortBy (hasymm : ∀ x y, before x y = true → before y x = false)
    (htrans : ∀ x y z, before x y = false → before y z = false → before x z = false) :
    ∀ l : List α, (sortBy before l).Pairwise fun x y => before y x = false
  | [] => .nil
  | a :: r => pairwise_insertBy hasymm htrans a _ (pairwise_sortBy hasymm htrans r)
end

/-! ### Harts by number -/

/-- With every number once, a hart is the one its number finds. -/
theorem State.hartAt_of_mem {s : State} (hnd : (s.harts.map (·.id)).Nodup) {g : Hart} (hg : g ∈ s.harts) : s.hartAt g.id = some g := by
  obtain ⟨hself, hothers⟩ := List.nodup_cons.mp hnd
  rcases List.mem_cons.mp hg with rfl | hg
  · exact s.hartAt_self
  · have hne : s.hart.id ≠ g.id := fun h => hself (List.mem_map.mpr ⟨g, hg, h.symm⟩)
    rw [State.hartAt_of_ne hne]
    cases hf : s.others.find? (·.id == g.id) with
    | none => exact absurd (List.find?_eq_none.mp hf g hg) (by simp)
    | some k =>
      have hk : k.id = g.id := by simpa using List.find?_some hf
      exact congrArg some (List.inj_on_of_nodup_map hothers (List.mem_of_find?_eq_some hf) hg hk)

/-- Changing every hart that satisfies a property, read back. -/
theorem State.hartAt_onHarts (s : State) (p : Hart → Bool) (f : Hart → Hart) (hf : ∀ g, (f g).id = g.id) (j : Nat) :
    (s.onHarts p f).hartAt j = (s.hartAt j).map fun g => if p g then f g else g := by
  have hid : ((s.onHarts p f).hart).id = s.hart.id := by
    rw [State.onHarts_hart]
    split
    · exact hf _
    · rfl
  unfold State.hartAt
  rw [hid]
  split
  · rfl
  · exact find?_updIf _ _ _ (fun g => by rw [hf]) _

/-! ### The arbiter (R270) -/

/-- The order of choice, in its three cases. -/
theorem arbBefore_iff (a b : Nat × Hart) : arbBefore a b = true ↔
    (15 ≤ a.2.sc.age ∧ 15 ≤ b.2.sc.age ∧ (b.2.sc.age < a.2.sc.age ∨ a.2.sc.age = b.2.sc.age ∧ a.2.slot < b.2.slot)) ∨
    (15 ≤ a.2.sc.age ∧ b.2.sc.age < 15) ∨
    (a.2.sc.age < 15 ∧ b.2.sc.age < 15 ∧ (a.1 < b.1 ∨ a.1 = b.1 ∧ a.2.slot < b.2.slot)) := by
  by_cases ha : 15 ≤ a.2.sc.age <;> by_cases hb : 15 ≤ b.2.sc.age <;> simp [arbBefore, ha, hb] <;> omega

theorem arbBefore_asymm (x y : Nat × Hart) (h : arbBefore x y = true) : arbBefore y x = false := by
  rw [← Bool.not_eq_true]
  rw [arbBefore_iff] at h ⊢
  omega

theorem arbBefore_trans (x y z : Nat × Hart) (hxy : arbBefore x y = false) (hyz : arbBefore y z = false) : arbBefore x z = false := by
  rw [← Bool.not_eq_true] at hxy hyz ⊢
  rw [arbBefore_iff] at hxy hyz ⊢
  omega

section
variable (s : State) (core : Nat)

/-- The harts chosen. -/
def State.arbHarts : List Hart := (s.arbChoice core).map (·.2)

/-- A chosen hart comes with its V, and is a ready one of the core. -/
theorem State.mem_arbChoice {x : Nat × Hart} (hx : x ∈ s.arbChoice core) :
    x.2 ∈ s.hartsOn core ∧ x.2.arbReady = true ∧ x.1 = raised (s.hartsOn core) x.2 := by
  have hmem := (mem_sortBy _ _ _).mp (List.mem_of_mem_take hx)
  obtain ⟨h, hh, rfl⟩ := List.mem_map.mp hmem
  exact ⟨(List.mem_filter.mp hh).1, (List.mem_filter.mp hh).2, rfl⟩

theorem State.length_arbHarts : (s.arbHarts core).length = min 2 ((s.hartsOn core).filter (·.arbReady)).length := by
  rw [State.arbHarts, List.length_map, State.arbChoice, List.length_take, (sortBy_perm _ _).length_eq, List.length_map]

/-- None is passed over by one behind it. -/
theorem State.arbHarts_first {g x : Hart} (hg : g ∈ s.arbHarts core) (hx : x ∈ s.hartsOn core) (hr : x.arbReady = true)
    (hne : x ∉ s.arbHarts core) :
    arbBefore (raised (s.hartsOn core) x, x) (raised (s.hartsOn core) g, g) = false := by
  obtain ⟨y, hy, rfl⟩ := List.mem_map.mp hg
  obtain ⟨-, -, hv⟩ := s.mem_arbChoice core hy
  have hsorted := pairwise_sortBy arbBefore_asymm arbBefore_trans
    (((s.hartsOn core).filter (·.arbReady)).map fun h => (raised (s.hartsOn core) h, h))
  rw [← List.take_append_drop 2 (sortBy _ _)] at hsorted
  have hxs : (raised (s.hartsOn core) x, x) ∈ sortBy arbBefore
      (((s.hartsOn core).filter (·.arbReady)).map fun h => (raised (s.hartsOn core) h, h)) :=
    (mem_sortBy _ _ _).mpr (List.mem_map.mpr ⟨x, List.mem_filter.mpr ⟨hx, hr⟩, rfl⟩)
  rw [← List.take_append_drop 2 (sortBy _ _)] at hxs
  rcases List.mem_append.mp hxs with hxs | hxs
  · exact absurd (List.mem_map.mpr ⟨_, hxs, rfl⟩) hne
  · rw [← hv]
    exact (List.pairwise_append.mp hsorted).2.2 y hy _ hxs

/-- A hart of the core after the cycle. -/
theorem State.hartAt_arbitrate (hnd : (s.harts.map (·.id)).Nodup) {g : Hart} (hg : g ∈ s.hartsOn core) :
    (s.arbitrate core).hartAt g.id = some (afterArb (s.hartsOn core) ((s.arbChoice core).map (·.2.id)) g) := by
  obtain ⟨hmem, hp⟩ := List.mem_filter.mp hg
  obtain ⟨hpres, hcore⟩ := Bool.and_eq_true_iff.mp hp
  have hthis : (g.core == core && g.status != .empty) = true := by rw [hcore]; exact hpres
  refine (s.hartAt_onHarts (fun h => h.core == core && h.status != .empty) (afterArb _ _) (fun _ => rfl) g.id).trans ?_
  rw [State.hartAt_of_mem hnd hmem, Option.map_some, if_pos hthis]

/-- A hart is chosen when its number is. -/
theorem State.any_arbChoice (hnd : (s.harts.map (·.id)).Nodup) {g : Hart} (hg : g ∈ s.hartsOn core) :
    ((s.arbChoice core).map (·.2.id)).any (· == g.id) = true ↔ g ∈ s.arbHarts core := by
  simp only [List.any_eq_true, List.mem_map, beq_iff_eq, State.arbHarts]
  constructor
  · rintro ⟨_, ⟨x, hx, rfl⟩, hid⟩
    obtain ⟨hxs, -, -⟩ := s.mem_arbChoice core hx
    exact ⟨x, hx, List.inj_on_of_nodup_map hnd (List.mem_filter.mp hxs).1 (List.mem_filter.mp hg).1 hid⟩
  · rintro ⟨x, hx, rfl⟩
    exact ⟨_, ⟨x, hx, rfl⟩, rfl⟩

/-- One cycle of an arbiter (R270). -/
theorem exec_issueArbitration (hnd : (s.harts.map (·.id)).Nodup) : let hs := s.hartsOn core
    ∃ (u : State) (cs : List Hart), exec (.issueArbitration core) s = .next u ∧ u.env.opps = s.env.opps ++ cs.map (·.id) ∧
      cs.length = min 2 (hs.filter (·.arbReady)).length ∧ (∀ g ∈ cs, g ∈ hs ∧ g.arbReady = true) ∧ u.mem = s.mem ∧
      (∀ g ∈ cs, ∀ x ∈ hs, x.arbReady = true → x ∉ cs → arbBefore (raised hs x, x) (raised hs g, g) = false) ∧
      ∀ g ∈ hs, ∃ k, u.hartAt g.id = some k ∧ k = { g with sc := k.sc } ∧
        (g ∈ cs → k.sc.vtime = raised hs g + 1024 / g.tk.share.toNat ∧ k.sc.age = 0) ∧ (g ∉ cs → k.sc.age = g.sc.age + 1) := by
  intro hs
  have hready : ∀ g ∈ s.arbHarts core, g ∈ hs ∧ g.arbReady = true := fun g hg => by
    obtain ⟨x, hx, rfl⟩ := List.mem_map.mp hg
    obtain ⟨hxs, hxr, -⟩ := s.mem_arbChoice core hx
    exact ⟨hxs, hxr⟩
  refine ⟨s.arbitrate core, s.arbHarts core, rfl, ?_, s.length_arbHarts core, hready, rfl,
    fun g hg x hx hr hne => s.arbHarts_first core hg hx hr hne, fun g hg => ⟨_, s.hartAt_arbitrate core hnd hg, rfl, fun hc => ?_, fun hc => ?_⟩⟩
  · rw [State.arbHarts, List.map_map]
    rfl
  · have hgot := (s.any_arbChoice core hnd hg).mpr hc
    have hr : g.ready = true := (Bool.and_eq_true_iff.mp (hready g hc).2).1
    simp only [afterArb, hgot, hr, if_true, and_true]
    rfl
  · have hgot := Bool.eq_false_iff.mpr fun h => hc ((s.any_arbChoice core hnd hg).mp h)
    simp only [afterArb, hgot, Bool.false_eq_true, if_false]
end

end Sys2Proof.Machine
end

section
/-! PROOFS. Scheduling (11, 17), part 2: the end of a `yield`, grants and reservations of quads (R135, R138), and a hart that starts or
stops (R329, R333). -/
namespace Sys2Proof.Machine

/-! ### Harts and memory of two states -/

theorem State.byte_of_mem {s t : State} (hm : t.mem = s.mem) (hs : t.sys.pads = s.sys.pads) (k : Nat) : t.byte k = s.byte k := by
  rw [State.byte, State.byte, hm, hs]

theorem State.hartAt_congr {s t : State} (hh : t.hart = s.hart) (ho : t.others = s.others) (j : Nat) : t.hartAt j = s.hartAt j := by
  rw [State.hartAt, hh, ho, State.hartAt]

/-- Changing one hart is setting it. -/
theorem hartSet_onHartAt {s t : State} {h : Nat} {g : Hart} (hg : s.hartAt h = some g) (hh : t.hart = s.hart) (ho : t.others = s.others)
    (f : Hart → Hart) (hf : ∀ k, (f k).id = k.id) : HartSet s (t.onHartAt h f) h (f g) := by
  refine ⟨?_, fun j hj => ?_⟩
  · rw [State.hartAt_onHartAt _ _ _ hf, State.hartAt_congr hh ho, hg, Option.map_some]
  · rw [State.hartAt_onHartAt_ne _ _ _ _ hf hj, State.hartAt_congr hh ho]

theorem HartSet.congr {s u v : State} {h : Nat} {g : Hart} (hu : HartSet s u h g) (hh : v.hart = u.hart) (ho : v.others = u.others) :
    HartSet s v h g := by
  obtain ⟨hset, hothers⟩ := hu
  exact ⟨(State.hartAt_congr hh ho h).trans hset, fun j hj => (State.hartAt_congr hh ho j).trans (hothers j hj)⟩

/-! ### Whose turn it is -/

section
variable (s : State) (h : Nat)

/-- Taking a turn changes which hart the state names, and nothing else. -/
theorem State.turnTo_frame : (s.turnTo h).places = s.places ∧ (s.turnTo h).cores = s.cores ∧ (s.turnTo h).mem = s.mem ∧
    (s.turnTo h).coh = s.coh ∧ (s.turnTo h).eng = s.eng ∧ (s.turnTo h).sys = s.sys ∧ (s.turnTo h).env = s.env := by
  unfold State.turnTo
  split
  · exact ⟨rfl, rfl, rfl, rfl, rfl, rfl, rfl⟩
  · split <;> exact ⟨rfl, rfl, rfl, rfl, rfl, rfl, rfl⟩

theorem State.turnTo_hart {g : Hart} (hg : s.hartAt h = some g) : (s.turnTo h).hart = g := by
  unfold State.turnTo
  by_cases hself : s.hart.id = h
  · rw [if_pos hself]
    exact Option.some.inj ((if_pos hself).symm.trans hg)
  · rw [State.hartAt_of_ne hself] at hg
    rw [if_neg hself, hg]

theorem State.hartAt_turnTo (j : Nat) : (s.turnTo h).hartAt j = s.hartAt j := by
  unfold State.turnTo
  by_cases hself : s.hart.id = h
  · rw [if_pos hself]
  rw [if_neg hself]
  cases hg : s.others.find? (·.id == h) with
  | none => rfl
  | some g =>
    have hgid : g.id = h := by simpa using List.find?_some hg
    by_cases hj : j = h
    · subst hj
      exact (if_pos hgid).trans ((State.hartAt_of_ne hself).trans hg).symm
    · refine (if_neg (by rw [hgid]; exact Ne.symm hj)).trans ?_
      by_cases hsj : s.hart.id = j
      · rw [List.find?_cons_of_pos (by simpa using hsj)]
        exact (if_pos hsj).symm
      · rw [List.find?_cons_of_neg (by simpa using hsj), State.hartAt_of_ne hsj, List.find?_filter]
        refine List.find?_congr fun k _ => ?_
        by_cases hk : k.id = j <;> simp [hk, hj]
end

/-! ### Yields and quads (R135, R138) -/

section
variable {s : State} {h : Nat} {g : Hart}

/-- Sixteen cycles after a `yield` it ends (R138). -/
theorem exec_yieldExpiry (hg : s.hartAt h = some g) :
    ∃ u, exec (.yieldExpiry h) s = .next u ∧ HartSet s u h { g with sc := { g.sc with yielded := [], yieldLeft := 0 } } :=
  ⟨_, rfl, hartSet_onHartAt hg rfl rfl (fun g => { g with sc := { g.sc with yielded := [], yieldLeft := 0 } }) fun _ => rfl⟩

/-- A hart once it has its block of quads (R135). -/
def grantedHart (d : Reg) (q : Quads) (g : Hart) : Hart :=
  ({ (g.hold q).set d (BitVec.ofNat 64 q.count) with
    sc := { g.sc with qtime := g.sc.qtime + 1024 * q.count / g.tk.share.toNat } } : Hart).goto (g.pc + 4) .other

theorem grantedHart_id (d : Reg) (q : Quads) (g : Hart) : (grantedHart d q g).id = g.id := by
  show ((g.hold q).set d _).id = g.id
  rw [Hart.set_id]
  rfl

/-- The block leaves the task's reserve, and the core holds no freed quads for the hart (R135). -/
def State.granting (s : State) (q : Quads) (h : Hart) : State :=
  (s.onPlace h.tk.task h.core fun p => { p with reserve := p.reserve &&& ~~~q.mask }).onCore h.core fun c =>
    { c with reserved := if c.reserved = some h.id then none else c.reserved }

theorem State.grant_eq (s : State) (d : Reg) (q : Quads) (h : Hart) : s.grant h d q = (s.granting q h).onHartAt h.id (grantedHart d q) := by
  unfold State.grant
  simp only []
  congr 1
  funext g
  have hsc : ((g.hold q).set d (BitVec.ofNat 64 q.count)).sc = g.sc := by rw [Hart.set_sc]; rfl
  have htk : ((g.hold q).set d (BitVec.ofNat 64 q.count)).tk = g.tk := by rw [Hart.set_tk]; rfl
  have hpc : ((g.hold q).set d (BitVec.ofNat 64 q.count)).pc = g.pc := by rw [Hart.set_pc]; rfl
  simp only [grantedHart, hsc, htk, hpc]

/-- The first of the waiters gets the block that is free (R135). -/
theorem exec_vacquireGrant {d : Reg} {n since : Nat} {r : List (Nat × Hart)} {q : Quads} (hg : s.hartAt h = some g)
    (hw : g.wait = some (.vacquire d n since)) (hfirst : s.waiters g.core = (n, g) :: r)
    (hres : (s.coreAt g.core).reserved ∈ [none, some g.id]) (hq : blockIn (s.pool g.tk.task g.core) n = some q) :
    ∃ u, exec (.vacquireGrant h) s = .next u ∧ (u.coreAt g.core).reserved = none ∧ HartSet s u h (grantedHart d q g) := by
  obtain rfl := State.hartAt_id hg
  have hres' : (s.coreAt g.core).reserved = none ∨ (s.coreAt g.core).reserved = some g.id := by simpa using hres
  have hgrant : s.grantFor g n = some q := by
    have hown : ((s.coreAt g.core).reserved.isSome && (s.coreAt g.core).reserved != some g.id) = false := by
      rcases hres' with h | h <;> rw [h] <;> simp
    simp only [State.grantFor, hown, hfirst, List.takeWhile_cons, bne_self_eq_false, Bool.false_eq_true, if_false, List.any_nil, hq]
  refine ⟨_, congrArg Host.Outcome.next ((State.tryGrant_of_some hg hw hgrant).trans (s.grant_eq d q g)), ?_,
    hartSet_onHartAt (t := s.granting q g) hg rfl rfl _ (grantedHart_id d q)⟩
  unfold State.coreAt
  rw [State.onHartAt_cores]
  refine (congrArg Core.reserved (State.coreAt_onCore _ g.core
    (fun c => { c with reserved := if c.reserved = some g.id then none else c.reserved }) fun _ => rfl)).trans ?_
  show (if (s.coreAt g.core).reserved = some g.id then none else (s.coreAt g.core).reserved) = none
  rcases hres' with h | h <;> rw [h] <;> simp

/-- Freed quads are held for a hart that has waited too long (R135). -/
theorem exec_quadReservationTimeout {core n : Nat} {r : List (Nat × Hart)} (hfirst : s.waiters core = (n, g) :: r)
    (hres : (s.coreAt core).reserved = none) :
    ∃ u, exec (.quadReservationTimeout core) s = .next u ∧ u.coreAt core = { s.coreAt core with reserved := some g.id } ∧
      u.hart = s.hart ∧ u.others = s.others := by
  refine ⟨s.onCore core fun c => { c with reserved := if c.reserved.isSome then c.reserved else some g.id }, ?_, ?_, rfl, rfl⟩
  · show execQuadReservationTimeout core s = _
    simp only [execQuadReservationTimeout, hfirst]
  · rw [State.coreAt_onCore]
    · simp only [hres, Option.isSome_none, Bool.false_eq_true, if_false]
    · exact fun _ => rfl
end

/-! ### A hart that starts (R329) -/

section
variable {s : State} {h : Nat} {g : Hart} {t : Task}

/-- After an acquire of the whole device no line of the core's L1 holds a word that is valid but not registered (R302). -/
theorem State.acquire_dev_l1 (s : State) (ro : Bool) :
    ∀ l ∈ ((s.acquire .dev ro).coreAt s.hart.core).l1, l.valid &&& ~~~l.reg = 0 :=
  fun l hl => (invalidatedOn_selfInvalidate s _ (fun _ => true) (s.acquire_l1 .dev ro rfl)).all.1 l hl

/-- A hart runs, having acquired, with its core's instruction cache empty. -/
def State.started (s : State) (h : Nat) (core : Nat) : State :=
  ((((s.turnTo h).onHart fun k => { k with status := .running }).acquire .dev true)).onCore core fun c => { c with icache := [] }

theorem exec_hartStart (hg : s.hartAt h = some g) (ht : s.taskAt g.tk.task = some t) (hs : g.status = .placed) (hp : t.phase = .running) :
    ∃ u, exec (.hartStart h) s = .next u ∧ SameBytes s u ∧
      HartSet s u h { g with status := .running } ∧ (u.coreAt g.core).icache = [] ∧ (u.coreAt g.core).ro = [] ∧
      ∀ l ∈ (u.coreAt g.core).l1, l.valid &&& ~~~l.reg = 0 := by
  have hexec : exec (.hartStart h) s = .next (s.started h g.core) := by
    show execHartStart h s = _
    simp only [execHartStart, hg, ht, hs, hp, beq_self_eq_true, Bool.and_self, if_true]
    rfl
  refine ⟨_, hexec, fun k => ?_, ?_⟩
  · obtain ⟨-, -, hm, -, -, hsys, -⟩ := s.turnTo_frame h
    exact (((s.turnTo h).onHart fun k => { k with status := .running }).byte_acquire .dev true k).trans
      (State.byte_of_mem hm (congrArg Sys.pads hsys) k)
  unfold State.started
  generalize hv : ((s.turnTo h).onHart fun k => { k with status := .running }) = v
  have hhart : v.hart = { g with status := .running } := by rw [← hv, ← s.turnTo_hart h hg]; rfl
  have hid : v.hart.id = h := by rw [hhart, ← State.hartAt_id hg]
  have hcore : v.hart.core = g.core := by rw [hhart]; rfl
  have hset : HartSet s v h { g with status := .running } := by
    refine ⟨?_, fun j hj => ?_⟩
    · rw [← hhart, ← hid]
      exact v.hartAt_self
    · have hturn : (s.turnTo h).hart.id = h := by rw [s.turnTo_hart h hg]; exact State.hartAt_id hg
      refine (State.hartAt_of_hart (s := s.turnTo h) (hid.trans hturn.symm) (by rw [← hv]; rfl) (by rw [hturn]; exact hj)).trans ?_
      exact s.hartAt_turnTo h j
  have hframe := v.acquire_sameHarts .dev true
  have hcoreAt := State.coreAt_onCore (v.acquire .dev true) g.core (fun c => { c with icache := [] }) fun _ => rfl
  refine ⟨hset.congr hframe.hart hframe.others, by rw [hcoreAt], ?_, ?_⟩
  · rw [hcoreAt, ← hcore]
    exact v.acquire_ro .dev
  · rw [hcoreAt, ← hcore]
    exact v.acquire_dev_l1 true

/-! ### A hart that stops (R333) -/

theorem State.dropRecords_frame (e : Nat) : ∀ (l : List (Nat × Loc × Nat)) (s : State),
    AtHomes s (s.dropRecords e l) ∧ (s.dropRecords e l).mem = s.mem
  | [], s => ⟨.refl s, rfl⟩
  | p :: r, s => by
    have hstep : ∀ t : State, AtHomes s t → t.mem = s.mem → AtHomes s (t.dropRecords e r) ∧ (t.dropRecords e r).mem = s.mem :=
      fun t ha hm => have ⟨h1, h2⟩ := State.dropRecords_frame e r t; ⟨ha.trans h1, h2.trans hm⟩
    unfold State.dropRecords
    rw [List.foldl_cons]
    split
    · exact hstep _ (s.onHome_atHomes _ _) rfl
    · exact hstep _ (.refl s) rfl

theorem State.dropDrain_frame (s : State) (g : Hart) : AtHomes s (s.dropDrain g) ∧ (s.dropDrain g).mem = s.mem := by
  unfold State.dropDrain
  split
  · exact State.dropRecords_frame _ _ _
  · exact ⟨.refl s, rfl⟩

theorem exec_hartStop (hg : s.hartAt h = some g) (ht : s.taskAt g.tk.task = some t) (hs : g.status = .running ∨ g.status = .placed)
    (hp : t.phase = .preempting) (hb : s.atBoundary g = true) :
    ∃ u, exec (.hartStop h) s = .next u ∧ SameBytes s u ∧ HartSet s u h g.preempted ∧ ∀ l ∈ u.coh.links, l.1 ≠ h := by
  obtain ⟨hhomes, hmem⟩ := s.dropDrain_frame g
  have hstat : (g.status == .running || g.status == .placed) = true := by simpa using hs
  refine ⟨((((s.dropDrain g).unlink h).onHartAt h (·.preempted)).onCore g.core fun c =>
    { c with reserved := if c.reserved = some h then none else c.reserved }), ?_, fun k => ?_, ?_, fun l hl => ?_⟩
  · show execHartStop h s = _
    simp only [execHartStop, hg, ht, hp, beq_self_eq_true, hstat, hb, Bool.and_self, if_true]
  · exact (State.byte_onHartAt h _ k).trans (State.byte_of_mem (s := s) hmem (congrArg Sys.pads hhomes.sys) k)
  · exact (hartSet_onHartAt (t := (s.dropDrain g).unlink h) hg hhomes.hart hhomes.others (·.preempted) fun _ => rfl).congr rfl rfl
  · rw [State.onCore_coh, State.onHartAt_coh] at hl
    simpa using (List.mem_filter.mp hl).2
end

end Sys2Proof.Machine
end

section
/-! PROOFS. Scheduling (17), part 3: the start counters (R326). -/
namespace Sys2Proof.Machine

/-! ### A read at an ordering point leaves the supervisor's state -/

theorem State.homeVal_atHomes (s : State) (key len : Nat) : AtHomes s (s.homeVal key len).2 := by
  have h := s.homeRead_atHomes key len
  unfold State.homeVal
  split <;> next heq => rw [heq] at h; exact h

theorem State.flushQueue_atHomes (s : State) (p : WqEntry → Bool) : AtHomes s (s.flushQueue p) :=
  (AtHomes.foldl (fun u (e : WqEntry) => u.applyLine e.line e.mask e.data) (fun u _ => u.applyLine_atHomes _ _ _) _ s).trans
    ⟨rfl, rfl, rfl, rfl, rfl, rfl⟩

theorem State.ctlRead_atHomes (s : State) (line : Nat) : AtHomes s (s.ctlRead line).2 := by
  unfold State.ctlRead
  split
  · exact .refl s
  · split
    · exact .refl s
    · exact s.flushQueue_atHomes _

theorem State.uncachedRead_atHomes (s : State) (key len : Nat) : AtHomes s (s.uncachedRead key len).2 := by
  unfold State.uncachedRead
  simp only []
  split
  · exact .refl s
  · exact s.ctlRead_atHomes _

theorem State.lineRead_atHomes (s : State) (loc : Loc) (len : Nat) : AtHomes s (s.lineRead loc len).2 := by
  unfold State.lineRead
  split
  · exact .refl s
  · exact .refl s
  · exact s.uncachedRead_atHomes _ _
  · exact s.homeVal_atHomes _ _

/-! ### Start counters (R326) -/

theorem State.monitorOf_monitor (s : State) (who line : Nat) :
    (s.monitor who line).monitorOf who = some { who := who, line := line, hit := false } :=
  List.find?_cons_of_pos (beq_self_eq_true who)

/-- The head of a queue, changed. -/
theorem onHead_queues {p : Partition} {q : Fin 16} {e : QEntry} {r : List QEntry} (hq : p.queues.get q = e :: r) (f : QEntry → QEntry) :
    (onHead q.val f p).queues.get q = f e :: r := by
  refine ((Vector.get_eq_getElem ..).trans (Vector.getElem_ofFn ..)).trans ?_
  show (if q.val = q.val then (match p.queues.get q with | [] => [] | e :: r => f e :: r) else _) = _
  rw [if_pos rfl, hq]

section
variable {s t : State} {part : Nat} {q : Fin 16} {p : Partition} {e : QEntry} {r : List QEntry}

/-- The head of a queue that waits for its counter. -/
theorem State.queueHead (hp : s.partAt part = some p) (hq : p.queues.get q = e :: r) :
    ((s.partAt part).bind fun p => (p.queues.toList.getD q.val []).head?) = some e := by
  rw [hp, Option.bind_some, Vector.getD_toList_fin, hq, List.head?_cons]

variable (hp : s.partAt part = some p) (hq : p.queues.get q = e :: r) (hw : rWait e.record = true)
include hp hq hw

theorem State.readCounter_of_val {v : Nat} (hr : s.lineRead e.wloc 8 = (.val v, t)) : s.readCounter part q.val =
    (t.monitor (counterMonitor part q.val) (lineOf e.wloc.key)).onPart part
      (onHead q.val fun e => { e with eligible := decide (rWval e.record ≤ v) }) := by
  unfold State.readCounter
  rw [State.queueHead hp hq]
  simp only [hw, hr, Bool.not_true, Bool.false_eq_true, if_false]

theorem State.readCounter_of_not_val {o : Rd} (hr : s.lineRead e.wloc 8 = (o, t)) (ho : ∀ v, o ≠ .val v) :
    s.readCounter part q.val = t.monitor (counterMonitor part q.val) (lineOf e.wloc.key) := by
  unfold State.readCounter
  rw [State.queueHead hp hq]
  simp only [hw, hr, Bool.not_true, Bool.false_eq_true, if_false]

/-- What a read of a start counter does (R326). -/
theorem State.readCounter_results {o : Rd} (hr : s.lineRead e.wloc 8 = (o, t)) :
    let u := s.readCounter part q.val
    u.mem = t.mem ∧ u.hart = t.hart ∧
      u.monitorOf (counterMonitor part q.val) = some { who := counterMonitor part q.val, line := lineOf e.wloc.key, hit := false } ∧
      (∀ v, o = .val v → ∃ k, u.partAt part = some k ∧ k.queues.get q = { e with eligible := decide (rWval e.record ≤ v) } :: r) ∧
      ((∀ v, o ≠ .val v) → u.sys = t.sys) := by
  by_cases ho : ∃ v, o = .val v
  · obtain ⟨v, rfl⟩ := ho
    rw [State.readCounter_of_val hp hq hw hr]
    refine ⟨rfl, rfl, State.monitorOf_monitor t _ _, fun w hv => ?_, fun h => absurd rfl (h v)⟩
    obtain rfl := Rd.val.inj hv
    have hsys : t.sys = s.sys := by
      have h := s.lineRead_atHomes e.wloc 8
      rw [hr] at h
      exact h.sys
    have hpt : (t.monitor (counterMonitor part q.val) (lineOf e.wloc.key)).partAt part = some p := by
      rw [← hp]
      unfold State.partAt
      exact congrArg (fun y : Sys => y.parts.find? (·.id == part)) hsys
    refine ⟨_, (State.partAt_onPart _ _ _ ?_).trans (congrArg (Option.map _) hpt), onHead_queues hq _⟩
    exact fun _ => rfl
  · have hne : ∀ v, o ≠ .val v := fun v hv => ho ⟨v, hv⟩
    rw [State.readCounter_of_not_val hp hq hw hr hne]
    exact ⟨rfl, rfl, State.monitorOf_monitor t _ _, fun v hv => absurd hv (hne v), fun _ => rfl⟩
end

/-- A start counter is read at the first and after each write to its line, and after the time of a poll (R326). -/
theorem exec_startCounter {s : State} {part : Nat} {q : Fin 16} {i : Instr}
    (hi : (i = .startCounterReread part q.val ∧ ∀ m, s.monitorOf (counterMonitor part q.val) = some m → m.hit = true) ∨
      i = .startCounterPollTimeout part q.val) : exec i s = .next (s.readCounter part q.val) := by
  rcases hi with ⟨rfl, hm⟩ | rfl
  · show execStartCounterReread part q.val s = _
    unfold execStartCounterReread
    cases h : s.monitorOf (counterMonitor part q.val) with
    | none => rfl
    | some m => simp only [hm m h, if_true]
  · rfl

end Sys2Proof.Machine
end

section
/-! PROOFS. Scheduling (17), part 4: a task from its queue to its cores (R258, R327, R329). -/
namespace Sys2Proof.Machine

/-! ### The candidates in turn (R327) -/

section
variable {s t : State} {p : Partition} {c : Cand} {l r : List Cand}

/-- A queue whose head is not eligible is passed over. -/
theorem State.tryCand_passed {k : Nat} (hk : ∀ x, (p.queues.toList.getD k []).head? = some x → x.eligible = false) :
    s.tryCand p (.queue k) = .passed s := by
  show (match (p.queues.toList.getD k []).head? with | none => _ | some e => _) = _
  cases he : (p.queues.toList.getD k []).head? with
  | none => rfl
  | some e => simp only [hk e he, Bool.not_false, if_true]

theorem State.tryCands_passed (hl : ∀ c ∈ l, s.tryCand p c = .passed s) (b : Bool) : s.tryCands p l b = (false, b, s) := by
  induction l with
  | nil => rfl
  | cons c r ih =>
    rw [State.tryCands, hl c List.mem_cons_self]
    exact ih fun d hd => hl d (List.mem_cons_of_mem _ hd)

theorem State.tryCands_placed (hl : ∀ c ∈ l, s.tryCand p c = .passed s) (hc : s.tryCand p c = .placed t) (b : Bool) :
    s.tryCands p (l ++ c :: r) b = (true, b, t) := by
  induction l with
  | nil => rw [List.nil_append, State.tryCands, hc]
  | cons d r ih =>
    rw [List.cons_append, State.tryCands, hl d List.mem_cons_self]
    exact ih fun x hx => hl x (List.mem_cons_of_mem _ hx)

/-- The first candidate that is not passed over is placed, in whatever class it stands. -/
theorem State.tryClasses_placed (hc : s.tryCand p c = .placed t) : ∀ (cs : List Nat) (l : List Cand),
    (∀ d ∈ l, s.tryCand p d = .passed s) → cs.flatMap p.cands = l ++ c :: r → (s.tryClasses p cs).2 = t
  | [], l, _, h => absurd h (by simp)
  | a :: cs, l, hl, h => by
    rw [List.flatMap_cons, List.append_eq_append_iff] at h
    rw [State.tryClasses]
    rcases h with ⟨m, rfl, hrest⟩ | ⟨m, hcands, hrest⟩
    · rw [State.tryCands_passed (fun d hd => hl d (List.mem_append_left _ hd))]
      exact State.tryClasses_placed hc cs m (fun d hd => hl d (List.mem_append_right _ hd)) hrest
    · cases m with
      | nil =>
        rw [List.append_nil] at hcands
        rw [hcands, State.tryCands_passed hl]
        exact State.tryClasses_placed hc cs [] (fun d hd => absurd hd List.not_mem_nil) hrest.symm
      | cons d m =>
        obtain ⟨rfl, -⟩ := List.cons.inj hrest
        rw [hcands, State.tryCands_placed hl hc]
end

/-- The head of a queue is taken from it, and its counter is watched no more (R326, R327). -/
def State.takingHead (s : State) (p : Partition) (q : Nat) : State := (s.unmonitor (counterMonitor p.id q)).onPart p.id (takeHead q)

/-- An eligible head with a place for each of its harts is placed (R327). -/
theorem State.tryCand_placed {s : State} {p : Partition} {q : Nat} {e : QEntry} {seats : List Seat}
    (hq : (p.queues.toList.getD q []).head? = some e) (he : e.eligible = true) (hplan : s.plan [] p s.sys.nextTask e = some seats)
    (hn : kNgrp e.desc = 0) : s.tryCand p (.queue q) = .placed ((s.takingHead p q).placeTask p.id e [] seats) := by
  unfold State.tryCand
  simp only [hq, he, hplan, hn, State.template, Bool.not_true, Bool.false_eq_true, if_false]
  rfl

/-! ### Harts in their slots -/

theorem State.putHart_frame (s : State) (g : Hart) : (s.putHart g).places = s.places ∧ (s.putHart g).cores = s.cores ∧
    (s.putHart g).mem = s.mem ∧ (s.putHart g).coh = s.coh ∧ (s.putHart g).eng = s.eng ∧ (s.putHart g).sys = s.sys ∧
    (s.putHart g).env = s.env := by
  unfold State.putHart
  split <;> exact ⟨rfl, rfl, rfl, rfl, rfl, rfl, rfl⟩

theorem State.hartAt_putHart (s : State) (g : Hart) : (s.putHart g).hartAt g.id = some g := by
  unfold State.putHart
  split
  · exact if_pos rfl
  next hne => exact (if_neg hne).trans (List.find?_cons_of_pos (by simp))

theorem State.hartAt_putHart_ne (s : State) (g : Hart) {j : Nat} (hj : j ≠ g.id) : (s.putHart g).hartAt j = s.hartAt j := by
  unfold State.putHart State.hartAt
  by_cases hself : s.hart.id = g.id
  · have hgj : ¬ g.id = j := Ne.symm hj
    rw [if_pos hself]
    simp only [hself, hgj, if_false]
  · rw [if_neg hself]
    by_cases hsj : s.hart.id = j
    · simp only [hsj, if_true]
    · simp only [hsj, if_false]
      rw [List.find?_cons_of_neg (by simpa using Ne.symm hj), List.find?_filter]
      refine List.find?_congr fun k _ => ?_
      by_cases hk : k.id = j <;> simp [hk, hj]

theorem State.putHarts_frame : ∀ (l : List Hart) (s : State), let t := l.foldl State.putHart s
    t.places = s.places ∧ t.cores = s.cores ∧ t.mem = s.mem ∧ t.coh = s.coh ∧ t.eng = s.eng ∧ t.sys = s.sys ∧ t.env = s.env
  | [], s => ⟨rfl, rfl, rfl, rfl, rfl, rfl, rfl⟩
  | g :: r, s => by
    obtain ⟨h1, h2, h3, h4, h5, h6, h7⟩ := State.putHarts_frame r (s.putHart g)
    obtain ⟨k1, k2, k3, k4, k5, k6, k7⟩ := s.putHart_frame g
    exact ⟨h1.trans k1, h2.trans k2, h3.trans k3, h4.trans k4, h5.trans k5, h6.trans k6, h7.trans k7⟩

theorem State.hartAt_putHarts_ne {j : Nat} : ∀ (l : List Hart) (s : State), (∀ g ∈ l, j ≠ g.id) →
    (l.foldl State.putHart s).hartAt j = s.hartAt j
  | [], _, _ => rfl
  | g :: r, s, h => by
    rw [List.foldl_cons, State.hartAt_putHarts_ne r _ fun k hk => h k (List.mem_cons_of_mem _ hk),
      s.hartAt_putHart_ne g (h g List.mem_cons_self)]

/-- Harts with numbers of their own each stand in their slot. -/
theorem State.hartAt_putHarts {g : Hart} : ∀ (l : List Hart) (s : State), (l.map (·.id)).Nodup → g ∈ l →
    (l.foldl State.putHart s).hartAt g.id = some g
  | [], _, _, hg => absurd hg List.not_mem_nil
  | k :: r, s, hnd, hg => by
    obtain ⟨hk, hr⟩ := List.nodup_cons.mp hnd
    rw [List.foldl_cons]
    rcases List.mem_cons.mp hg with rfl | hg
    · rw [State.hartAt_putHarts_ne r _ fun x hx h => hk (List.mem_map.mpr ⟨x, hx, h.symm⟩)]
      exact s.hartAt_putHart g
    · exact State.hartAt_putHarts r _ hr hg

/-! ### What gives way (R394) -/

/-- Sessions and lists of running tasks give way to none: what changes is at most the engines' state and the save slots. -/
theorem State.displace_of_running {s : State} (task : Nat) (clusters : List Nat)
    (hs : ∀ x ∈ s.eng.sessions, ∀ k, s.taskAt x.task = some k → k.phase = .running)
    (hl : ∀ x ∈ s.eng.lists, ∀ k, s.taskAt x.task = some k → k.phase = .running) :
    let r := s.displace task clusters
    r.hart = s.hart ∧ r.others = s.others ∧ r.places = s.places ∧ r.mem = s.mem ∧ r.sys.parts = s.sys.parts ∧ r.sys.tasks = s.sys.tasks ∧
      r.sys.pads = s.sys.pads ∧ r.sys.nextTask = s.sys.nextTask := by
  unfold State.displace
  extract_lets gone ss ls units u
  have hgone : ∀ cl t, (∀ k, s.taskAt t = some k → k.phase = .running) → gone cl t = false := by
    intro cl t ht
    simp only [gone]
    cases hk : s.taskAt t with
    | none => simp
    | some k => simp [ht k hk]
  have hss : ss = [] := List.filter_eq_nil_iff.mpr fun x hx => by simp [hgone _ _ (hs x hx)]
  have hls : ls = [] := List.filter_eq_nil_iff.mpr fun x hx => by simp [hgone _ _ (hl x hx)]
  have hunits : units = [] := by
    simp only [units, hss, hls]
    rfl
  have hu : u = s := by
    simp only [u, hunits]
    rfl
  show u.hart = s.hart ∧ u.others = s.others ∧ u.places = s.places ∧ u.mem = s.mem ∧ u.sys.parts = s.sys.parts ∧
    u.sys.tasks = s.sys.tasks ∧ u.sys.pads = s.sys.pads ∧ u.sys.nextTask = s.sys.nextTask
  rw [hu]
  exact ⟨rfl, rfl, rfl, rfl, rfl, rfl, rfl, rfl⟩

/-! ### A task on its cores (R258, R329) -/

theorem State.noteCtxs_frame (part ctx : Nat) (d : BitVec 512) : ∀ (l : List Nat) (s : State),
    AtHomes s (l.foldl (fun t c => t.noteCtx c part ctx d) s) ∧ (l.foldl (fun t c => t.noteCtx c part ctx d) s).mem = s.mem
  | [], s => ⟨.refl s, rfl⟩
  | c :: r, s => by
    have hstep : AtHomes s (s.noteCtx c part ctx d) ∧ (s.noteCtx c part ctx d).mem = s.mem := by
      unfold State.noteCtx
      split
      · exact ⟨.refl s, rfl⟩
      · exact ⟨s.onCore_atHomes _ _, rfl⟩
    obtain ⟨h1, h2⟩ := State.noteCtxs_frame part ctx d r (s.noteCtx c part ctx d)
    exact ⟨hstep.1.trans h1, h2.trans hstep.2⟩

theorem State.allot_congr {s t : State} (h : t.places = s.places) (p : Place) : t.allot p = s.allot p := by
  simp only [State.allot, h]

/-- The harts of a task in the seats of its plan. -/
def seatHarts (id part : Nat) (e : QEntry) (seats : List Seat) : List Hart :=
  seats.zipIdx.map fun x => placedHart id part e [] x.2 x.1

theorem placedHart_id (task part : Nat) (e : QEntry) (groups : List (Nat × List Nat)) (i : Nat) (x : Seat) :
    (placedHart task part e groups i x).id = 8 * x.core + x.slot := by
  show (Hart.set (Hart.set _ _ _) _ _).id = _
  rw [Hart.set_id, Hart.set_id]
  rfl

theorem seatHarts_ids (id part : Nat) (e : QEntry) (seats : List Seat) :
    (seatHarts id part e seats).map (·.id) = seats.map fun x => 8 * x.core + x.slot := by
  rw [seatHarts, List.map_map]
  refine (List.map_congr_left fun x _ => placedHart_id id part e [] x.2 x.1).trans ?_
  exact (List.map_map (f := Prod.fst) (g := fun x : Seat => 8 * x.core + x.slot)).symm.trans (by rw [List.zipIdx_map_fst])

/-- A queued task, as it stands once it is placed. -/
def startedTask (id part : Nat) (e : QEntry) : Task :=
  { id := id, part := part, entry := e, phase := .running, groups := [], halted := [], started := id, ending := false }

/-- Placing a task whose engines' neighbours all run (R258, R329). -/
theorem State.placeTask_results {s : State} (part : Nat) (e : QEntry) (seats : List Seat)
    (hnd : (seats.map fun x => 8 * x.core + x.slot).Nodup)
    (hs : ∀ x ∈ s.eng.sessions, ∀ k, s.taskAt x.task = some k → k.phase = .running)
    (hl : ∀ x ∈ s.eng.lists, ∀ k, s.taskAt x.task = some k → k.phase = .running) :
    let id := s.sys.nextTask
    let u := s.placeTask part e [] seats
    u.sys.nextTask = id + 1 ∧ u.sys.parts = s.sys.parts ∧ u.mem = s.mem ∧ u.sys.pads = s.sys.pads ∧
      u.sys.tasks = s.sys.tasks ++ [startedTask id part e] ∧
      u.places = s.places ++ (seats.map (·.core)).eraseDups.map (fun c => s.allot (freshPlace id e c seats)) ∧
      ∀ i x, seats[i]? = some x → u.hartAt (8 * x.core + x.slot) = some (placedHart id part e [] i x) := by
  intro id u
  let t := (seatHarts id part e seats).foldl State.putHart s
  let w := (seats.map (·.core)).eraseDups.foldl (fun t c => t.noteCtx c part e.ctx e.desc) t
  let v : State := { w with
    places := w.places ++ (seats.map (·.core)).eraseDups.map fun c => w.allot (freshPlace id e c seats)
    sys := { w.sys with tasks := w.sys.tasks ++ [startedTask id part e], nextTask := id + 1 } }
  have hu : u = v.displace id (((seats.map (·.core)).eraseDups.map clusterOf).eraseDups) := by
    show s.placeTask part e [] seats = _
    unfold State.placeTask
    simp only [v, w, t, seatHarts, List.foldl_map, List.map_nil]
    rfl
  obtain ⟨hplaces, -, hmem, -, heng, hsys, -⟩ := State.putHarts_frame (seatHarts id part e seats) s
  obtain ⟨hat, hwmem⟩ := State.noteCtxs_frame part e.ctx e.desc (seats.map (·.core)).eraseDups t
  have hwsys : w.sys = s.sys := hat.sys.trans hsys
  have hweng : w.eng = s.eng := hat.eng.trans heng
  have hwplaces : w.places = s.places := hat.places.trans hplaces
  have htask : ∀ y : Nat, (∀ k, s.taskAt y = some k → k.phase = .running) → ∀ k, v.taskAt y = some k → k.phase = .running := by
    intro y hy k hk
    have happ : v.taskAt y = (s.taskAt y).or ([startedTask id part e].find? (·.id == y)) := by
      show (w.sys.tasks ++ [startedTask id part e]).find? _ = _
      rw [hwsys, List.find?_append]
      rfl
    rw [happ] at hk
    rcases Option.or_eq_some_iff.mp hk with h | ⟨-, h⟩
    · exact hy k h
    · obtain rfl := List.mem_singleton.mp (List.mem_of_find?_eq_some h)
      rfl
  obtain ⟨dhart, dothers, dplaces, dmem, dparts, dtasks, dpads, dnext⟩ := State.displace_of_running (s := v) id (((seats.map (·.core)).eraseDups.map clusterOf).eraseDups)
    (fun x hx => htask _ (hs x (hweng ▸ hx))) (fun x hx => htask _ (hl x (hweng ▸ hx)))
  rw [hu]
  refine ⟨dnext, dparts.trans (show w.sys.parts = _ from congrArg Sys.parts hwsys), dmem.trans (hwmem.trans hmem), dpads.trans (show w.sys.pads = _ from congrArg Sys.pads hwsys),
    dtasks.trans ?_, dplaces.trans ?_, fun i x hx => ?_⟩
  · show w.sys.tasks ++ _ = _
    rw [hwsys]
  · show w.places ++ _ = _
    rw [hwplaces]
    congr 1
    exact List.map_congr_left fun c _ => State.allot_congr hwplaces _
  · refine (State.hartAt_congr (s := t) (dhart.trans hat.hart) (dothers.trans hat.others) _).trans ?_
    rw [← placedHart_id id part e [] i x]
    refine State.hartAt_putHarts _ s (by rw [seatHarts_ids]; exact hnd) ?_
    exact List.mem_map.mpr ⟨(x, i), List.mem_zipIdx_iff_getElem?.mpr hx, rfl⟩

/-- TASK_PLACEMENT (R327): the first eligible head is placed. -/
theorem exec_taskPlacement {s : State} {part : Nat} {p : Partition} {l r : List Cand} {q : Nat} {e : QEntry} {seats : List Seat}
    (hp : s.partAt part = some p) (hfatal : p.fatal = false) (hcands : [0, 1, 2, 3].flatMap p.cands = l ++ .queue q :: r)
    (hl : ∀ c ∈ l, ∃ k, c = .queue k ∧ ∀ x, (p.queues.toList.getD k []).head? = some x → x.eligible = false)
    (hq : (p.queues.toList.getD q []).head? = some e) (he : e.eligible = true) (hplan : s.plan [] p s.sys.nextTask e = some seats)
    (hn : kNgrp e.desc = 0) : exec (.taskPlacement part) s = .next ((s.takingHead p q).placeTask part e [] seats) := by
  have hid : p.id = part := by simpa using List.find?_some hp
  have hpassed : ∀ c ∈ l, s.tryCand p c = .passed s := fun c hc => by
    obtain ⟨k, rfl, hk⟩ := hl c hc
    exact State.tryCand_passed hk
  show execTaskPlacement part s = _
  simp only [execTaskPlacement, hp, hfatal, Bool.false_eq_true, if_false]
  rw [State.tryClasses_placed (State.tryCand_placed hq he hplan hn) _ l hpassed hcands, hid]

/-- What a placed hart starts with (R26, R259, R329). -/
theorem placedHart_results (task part i : Nat) (e : QEntry) (x : Seat) : let h := placedHart task part e [] i x
    h.status = .placed ∧ h.pc = BitVec.ofNat 64 (kEntry e.desc) ∧ h.tr.tvec = BitVec.ofNat 64 (kTvec e.desc) ∧ h.get 10 = rArg e.record ∧
    h.get 2 = (if kSpad e.desc = 0 then 0 else BitVec.ofNat 64 (2 ^ 63 + x.off + kSpad e.desc)) ∧ h.quads = x.quads ∧ h.tk.index = i ∧
    h.tk.count = effHarts e.record e.desc ∧ ∀ r : Reg, r ≠ 2 → r ≠ 10 → h.get r = 0 := by
  intro h
  unfold h placedHart
  simp only []
  refine ⟨?_, ?_, ?_, ?_, ?_, ?_, ?_, ?_, fun r h2 h10 => ?_⟩
  · rw [Hart.set_status, Hart.set_status]
  · rw [Hart.set_pc, Hart.set_pc]
  · rw [Hart.set_tr, Hart.set_tr]
  · rw [Hart.get_set_self, if_neg (by decide)]
  · rw [Hart.get_set_ne _ _ _ _ (by decide), Hart.get_set_self, if_neg (by decide)]
  · rw [Hart.set_quads, Hart.set_quads]
  · rw [Hart.set_tk, Hart.set_tk]
  · rw [Hart.set_tk, Hart.set_tk]
  · rw [Hart.get_set_ne _ _ _ _ h10, Hart.get_set_ne _ _ _ _ h2]
    simp [Hart.get, Hart.empty]

end Sys2Proof.Machine
end

section
/-! PROOFS. Scheduling (17), part 5: lines that no agent owns, and the bytes of a part of a save slot (R296, R334). -/
namespace Sys2Proof.Machine

/-! ### Words that a home selects -/

theorem HomeLine.getLsbD_select (hl : HomeLine) (m : BitVec 16) (p : WState → Bool) {i : Nat} (hi : i < 16) :
    (hl.select m p).getLsbD i = (m.getLsbD i && p (hl.word i)) := by
  rw [HomeLine.select, BitVec.getLsbD_ofNat, testBit_joinNat_one _ _ _ hi, decide_eq_true hi, Bool.true_and]
  cases m.getLsbD i && p (hl.word i) <;> rfl

theorem HomeLine.select_all {hl : HomeLine} {p : WState → Bool} (h : ∀ i, i < 16 → p (hl.word i) = true) :
    hl.select 0xFFFF#16 p = 0xFFFF#16 := by
  refine BitVec.eq_of_getLsbD_eq fun i hi => ?_
  have hall : ∀ i, i < 16 → (0xFFFF#16).getLsbD i = true := by decide
  rw [hl.getLsbD_select _ _ hi, h i hi, Bool.and_true]

theorem HomeLine.ne_core_of_coreOwners {hl : HomeLine} {m : BitVec 16} (h : hl.coreOwners m = []) {i : Nat} (hi : i < 16)
    (hm : m.getLsbD i = true) (n : Nat) : hl.word i ≠ .core n := by
  intro hw
  have hn : n ∈ hl.coreOwners m := by
    rw [HomeLine.coreOwners, List.mem_eraseDups, List.mem_filterMap]
    exact ⟨i, List.mem_range.mpr hi, by simp only [hm, hw, if_true]⟩
  rw [h] at hn
  exact List.not_mem_nil hn

/-! ### Lines that no agent owns -/

section
variable {s : State} {line : Nat} {m : BitVec 16}

/-- Nobody is asked for the words of a line that nobody owns. -/
theorem State.takeOwners_of_noOwners (ho : (s.homeAt line).coreOwners m = []) (hs : s.splitFull s line = false) :
    s.takeOwners line m = s := by
  have ht : takeWords line m s = s := by
    rw [takeWords, ho]
    rfl
  rw [State.takeOwners, State.withSplit, ht, hs]
  rfl

/-- The words of a line that nobody owns are unregistered. -/
theorem Unowned.word_unreg (h : Unowned s line 0xFFFF) {i : Nat} (hi : i < 16) : (s.homeAt line).word i = .unreg := by
  obtain ⟨hwaits, hlost, hcores, -, -⟩ := h
  have hall : (0xFFFF : BitVec 16).getLsbD i = true := by
    have : ∀ i, i < 16 → (0xFFFF : BitVec 16).getLsbD i = true := by decide
    exact this i hi
  have hnone : ∀ p : WState → Bool, ((s.homeAt line).select 0xFFFF p == 0#16) = true → p ((s.homeAt line).word i) = false := by
    intro p hp
    have hbit := congrArg (fun x : BitVec 16 => x.getLsbD i) (beq_iff_eq.mp hp)
    simp only [HomeLine.getLsbD_select _ _ _ hi, hall, Bool.true_and, BitVec.getLsbD_zero] at hbit
    exact hbit
  have hheld : s.lineHeld line 0xFFFF = false := (Bool.or_eq_false_iff.mp hwaits).1
  have hengine : ((s.homeAt line).select 0xFFFF WState.isEngine == 0#16) = true := by
    simp only [State.lineHeld, HomeLine.waits, Bool.or_eq_false_iff, Bool.not_eq_false'] at hheld
    exact hheld.1.1.1.1.1.2
  have hnolost : ((s.homeAt line).select 0xFFFF (· == .lost) == 0#16) = true := by
    simpa only [State.lineLost, HomeLine.anyLost, Bool.not_eq_false'] using hlost
  have he := hnone _ hengine
  have hl := hnone _ hnolost
  have hc := HomeLine.ne_core_of_coreOwners hcores hi hall
  cases hw : (s.homeAt line).word i with
  | unreg => rfl
  | core n => exact absurd hw (hc n)
  | engine e => rw [hw] at he; exact absurd he (by simp [WState.isEngine])
  | lost => rw [hw] at hl; exact absurd hl (by simp)
end

/-! ### A whole line written -/

/-- The keys and bytes of a whole line. -/
theorem maskedBytes_all (line : Nat) (d : BitVec 512) :
    maskedBytes line (-1#64) d = (upTo 64).map fun b => (64 * line + b, fld d (8 * b) 8) := by
  rw [maskedBytes, ← List.filterMap_eq_map]
  refine List.filterMap_congr fun b hb => ?_
  have hall : ∀ b, b < 64 → (-1#64).getLsbD b = true := by decide
  simp only [hall b (List.mem_range.mp hb), if_true, Function.comp_apply]

theorem State.byte_applyLine_all {s : State} (hwf : Memory.wf s.mem = true) (line : Nat) (d : BitVec 512) (j : Nat) :
    (s.applyLine line (-1#64) d).byte j = if j / 64 = line then fld d (8 * (j % 64)) 8 else s.byte j := by
  have hnd : ((maskedBytes line (-1#64) d).map (·.1)).Nodup := by
    rw [maskedBytes_all, List.map_map]
    exact List.nodup_range.map fun a b h => by simpa using h
  rw [State.applyLine, State.byte_applyBytes s _ j hwf hnd, maskedBytes_all, List.find?_map]
  split
  next hj =>
    have hfind : (upTo 64).find? ((fun b : Nat × Byte => b.1 == j) ∘ fun b => (64 * line + b, fld d (8 * b) 8)) = some (j % 64) := by
      rw [List.find?_range_eq_some]
      refine ⟨?_, List.mem_range.mpr (Nat.mod_lt _ (by omega)), fun b hb => ?_⟩
      · simp only [Function.comp_apply, beq_iff_eq]
        omega
      · simp only [Function.comp_apply, Bool.not_eq_true', beq_eq_false_iff_ne]
        omega
    rw [hfind]
    rfl
  next hj =>
    have hfind : (upTo 64).find? ((fun b : Nat × Byte => b.1 == j) ∘ fun b => (64 * line + b, fld d (8 * b) 8)) = none := by
      rw [List.find?_range_eq_none]
      intro b hb
      simp only [Function.comp_apply, Bool.not_eq_true', beq_eq_false_iff_ne]
      omega
    rw [hfind]
    rfl

/-- Byte `b` of a line of a save (R334). -/
theorem fld_saveLine (mark i b : Nat) (hb : b < 64) : fld (saveLine mark i) (8 * b) 8 = Config.saveByte (2 ^ 52 * mark + 64 * i + b) := by
  refine BitVec.eq_of_toNat_eq ?_
  have hlt := joinNat_lt 8 (fun b => (Config.saveByte (2 ^ 52 * mark + 64 * i + b)).toNat) 64
  rw [fld, BitVec.extractLsb'_toNat, saveLine, BitVec.toNat_ofNat, Nat.mod_eq_of_lt hlt, Nat.shiftRight_eq_div_pow]
  exact (elemOf_joinNat 8 _ 64 b hb).trans (Nat.mod_eq_of_lt (BitVec.isLt _))

/-! ### A part of a save slot (R334) -/

/-- One line of a part of a save slot is written at its home. -/
def State.slotLine (base mark : Nat) (t : State) (i : Nat) : State :=
  let l := lineOf (dramKey base) + i
  let u := t.takeOwners l 0xFFFF#16
  let own := (u.homeAt l).select 0xFFFF#16 (· == .unreg)
  (u.applyLine l (bytesOfWords own) (saveLine mark i)).noteWrite l

theorem State.writeSlot_eq (s : State) (base size : Nat) : s.writeSlot base size = (upTo (size / 64)).foldl (State.slotLine base s.env.free) s := rfl

/-- Writes at homes leave which words are whose: the entries of the homes, the split entries and the ranges. -/
structure SameHomes (s t : State) : Prop extends AtHomes s t where
  cores : t.cores = s.cores
  homes : t.coh.homes = s.coh.homes
  split : t.coh.split = s.coh.split

theorem SameHomes.refl (s : State) : SameHomes s s := ⟨.refl s, rfl, rfl, rfl⟩
theorem SameHomes.trans {s t u : State} (h : SameHomes s t) (k : SameHomes t u) : SameHomes s u :=
  ⟨h.toAtHomes.trans k.toAtHomes, k.cores.trans h.cores, k.homes.trans h.homes, k.split.trans h.split⟩

theorem SameHomes.homeAt {s t : State} (h : SameHomes s t) (l : Nat) : t.homeAt l = s.homeAt l := by
  rw [State.homeAt, h.homes, State.homeAt]

theorem SameHomes.splitFull {s t : State} (h : SameHomes s t) (l : Nat) : t.splitFull t l = s.splitFull s l := by
  have hpool : t.splitPool l = s.splitPool l := by rw [State.splitPool, h.split, State.splitPool]
  rw [State.splitFull, State.splitFull, hpool, h.split, h.homeAt]

theorem State.noteWrite_homes (s : State) (l : Nat) : (s.noteWrite l).coh.homes = s.coh.homes := rfl
theorem State.noteWrite_split (s : State) (l : Nat) : (s.noteWrite l).coh.split = s.coh.split := rfl

theorem State.applyLine_noteWrite_sameHomes (s : State) (l : Nat) (m : BitVec 64) (d : BitVec 512) :
    SameHomes s ((s.applyLine l m d).noteWrite l) := by
  refine ⟨(s.applyLine_atHomes l m d).trans (State.noteWrite_atHomes _ l none), ?_, ?_, ?_⟩
  · rw [State.noteWrite_cores, State.applyLine_cores]
  · rw [State.noteWrite_homes, State.applyLine_coh]
  · rw [State.noteWrite_split, State.applyLine_coh]

theorem State.byte_noteWrite (s : State) (l j : Nat) : (s.noteWrite l).byte j = s.byte j := rfl

section
variable {s t : State} {base mark i : Nat}

/-- A line that nobody owns is written whole (R334). -/
theorem State.slotLine_eq (h : SameHomes s t) (hu : Unowned s (lineOf (dramKey base) + i) 0xFFFF) :
    State.slotLine base mark t i =
      (t.applyLine (lineOf (dramKey base) + i) (-1#64) (saveLine mark i)).noteWrite (lineOf (dramKey base) + i) := by
  have hown : (t.homeAt (lineOf (dramKey base) + i)).select 0xFFFF#16 (· == .unreg) = 0xFFFF#16 :=
    HomeLine.select_all fun j hj => by rw [h.homeAt, hu.word_unreg hj]; rfl
  have hall : bytesOfWords 0xFFFF#16 = -1#64 := by decide
  obtain ⟨-, -, hcores, -, hsplit⟩ := hu
  rw [State.slotLine, State.takeOwners_of_noOwners (by rw [h.homeAt]; exact hcores) (by rw [h.splitFull]; exact hsplit), hown, hall]

theorem State.slotLine_sameHomes (h : SameHomes s t) (hu : Unowned s (lineOf (dramKey base) + i) 0xFFFF) :
    SameHomes s (State.slotLine base mark t i) := by
  rw [State.slotLine_eq h hu]
  exact h.trans (t.applyLine_noteWrite_sameHomes _ _ _)

theorem State.slotLine_wf (h : SameHomes s t) (hu : Unowned s (lineOf (dramKey base) + i) 0xFFFF) (hwf : Memory.wf t.mem = true) :
    Memory.wf (State.slotLine base mark t i).mem = true := by
  rw [State.slotLine_eq h hu, State.noteWrite_mem]
  exact t.applyLine_wf _ _ _ hwf

theorem State.byte_slotLine (h : SameHomes s t) (hu : Unowned s (lineOf (dramKey base) + i) 0xFFFF) (hwf : Memory.wf t.mem = true)
    (hbase : dramKey base % 64 = 0) (j : Nat) : (State.slotLine base mark t i).byte j =
      if dramKey base + 64 * i ≤ j ∧ j < dramKey base + 64 * (i + 1) then Config.saveByte (2 ^ 52 * mark + (j - dramKey base)) else t.byte j := by
  rw [State.slotLine_eq h hu, State.byte_noteWrite, State.byte_applyLine_all hwf]
  generalize hk : dramKey base = k at *
  have hiff : j / 64 = lineOf k + i ↔ k + 64 * i ≤ j ∧ j < k + 64 * (i + 1) := by
    unfold lineOf
    omega
  by_cases hj : j / 64 = lineOf k + i
  · rw [if_pos hj, if_pos (hiff.mp hj), fld_saveLine _ _ _ (Nat.mod_lt _ (by omega))]
    unfold lineOf at hj
    congr 1
    omega
  · rw [if_neg hj, if_neg (mt hiff.mpr hj)]
end

section
variable {s : State} {base : Nat}

/-- The first `n` lines of a part of a save slot, none of them owned (R334). -/
theorem State.slotLines_results (hwf : Memory.wf s.mem = true) (hbase : dramKey base % 64 = 0) (mark : Nat) : ∀ n : Nat,
    (∀ i, i < n → Unowned s (lineOf (dramKey base) + i) 0xFFFF) → let t := (upTo n).foldl (State.slotLine base mark) s
    SameHomes s t ∧ Memory.wf t.mem = true ∧ ∀ j, t.byte j =
      if dramKey base ≤ j ∧ j < dramKey base + 64 * n then Config.saveByte (2 ^ 52 * mark + (j - dramKey base)) else s.byte j
  | 0, _ => ⟨.refl s, hwf, fun j => (if_neg (by omega)).symm⟩
  | n + 1, hu => by
    obtain ⟨hsame, hw, hbyte⟩ := State.slotLines_results hwf hbase mark n fun i hi => hu i (by omega)
    have hlast := hu n (by omega)
    have hstep : (upTo (n + 1)).foldl (State.slotLine base mark) s =
        State.slotLine base mark ((upTo n).foldl (State.slotLine base mark) s) n := by
      rw [upTo, List.range_succ, List.foldl_append, List.foldl_cons, List.foldl_nil]
    intro t
    rw [show t = _ from hstep]
    refine ⟨State.slotLine_sameHomes hsame hlast, State.slotLine_wf hsame hlast hw, fun j => ?_⟩
    rw [State.byte_slotLine hsame hlast hw hbase, hbyte]
    generalize dramKey base = k
    split
    · rw [if_pos (by omega)]
    · by_cases hj : k ≤ j ∧ j < k + 64 * n
      · rw [if_pos hj, if_pos (by omega)]
      · rw [if_neg hj, if_neg (by omega)]

/-- A part of a save slot is written, and nothing else (R334). -/
theorem State.writeSlot_results {n : Nat} (hwf : Memory.wf s.mem = true) (hbase : dramKey base % 64 = 0) (hn : n % 64 = 0)
    (hu : ∀ l, dramKey base / 64 ≤ l → l < (dramKey base + n) / 64 → Unowned s l 0xFFFF) :
    SameHomes s (s.writeSlot base n) ∧ ∀ j, (s.writeSlot base n).byte j =
      if dramKey base ≤ j ∧ j < dramKey base + n then Config.saveByte (2 ^ 52 * s.env.free + (j - dramKey base)) else s.byte j := by
  have hlines : ∀ i, i < n / 64 → Unowned s (lineOf (dramKey base) + i) 0xFFFF := fun i hi => by
    refine hu _ ?_ ?_ <;> unfold lineOf <;> generalize dramKey base = k at * <;> omega
  obtain ⟨hsame, -, hbyte⟩ := State.slotLines_results hwf hbase s.env.free (n / 64) hlines
  rw [State.writeSlot_eq]
  have hlen : 64 * (n / 64) = n := by omega
  rw [hlen] at hbyte
  exact ⟨hsame, hbyte⟩

/-- Nothing makes the save of such a part wait (R296). -/
theorem State.slotWaits_eq_false {n : Nat} (hbase : dramKey base % 64 = 0) (hn : n % 64 = 0)
    (hu : ∀ l, dramKey base / 64 ≤ l → l < (dramKey base + n) / 64 → Unowned s l 0xFFFF) : s.slotWaits base n = false := by
  rw [State.slotWaits, List.any_eq_false]
  intro i hi
  have hlt := List.mem_range.mp hi
  obtain ⟨hw, -⟩ := hu (lineOf (dramKey base) + i) (by unfold lineOf; omega)
    (by unfold lineOf; generalize dramKey base = k at *; omega)
  rw [Bool.not_eq_true]
  exact hw
end

end Sys2Proof.Machine
end

section
/-! PROOFS. Scheduling (17), part 6: the save of a pre-empted task's part on a core (R333 to R335). -/
namespace Sys2Proof.Machine

/-! ### What a save leaves -/

/-- The harts, what tasks hold, memory and the supervisor's state stay. -/
structure SameTasks (s t : State) : Prop where
  hart : t.hart = s.hart
  others : t.others = s.others
  places : t.places = s.places
  mem : t.mem = s.mem
  sys : t.sys = s.sys

theorem SameTasks.refl (s : State) : SameTasks s s := ⟨rfl, rfl, rfl, rfl, rfl⟩
theorem SameTasks.trans {s t u : State} (h : SameTasks s t) (k : SameTasks t u) : SameTasks s u :=
  ⟨k.hart.trans h.hart, k.others.trans h.others, k.places.trans h.places, k.mem.trans h.mem, k.sys.trans h.sys⟩
theorem SameTasks.foldl {α : Type} (f : State → α → State) (hf : ∀ t a, SameTasks t (f t a)) (l : List α) (s : State) :
    SameTasks s (l.foldl f s) := by
  induction l generalizing s with
  | nil => exact .refl s
  | cons a r ih => exact (hf s a).trans (ih _)

theorem State.onHome_sameTasks (s : State) (l : Nat) (f : HomeLine → HomeLine) : SameTasks s (s.onHome l f) := ⟨rfl, rfl, rfl, rfl, rfl⟩

/-- A copy that gives up its words, and keeps its place (R301). -/
theorem State.unregisterCopy_sameTasks (s : State) (c : Copy) : SameTasks s (s.unregisterCopy c) := by
  unfold State.unregisterCopy
  exact SameTasks.foldl _ (fun _ _ => State.onHome_sameTasks _ _ _) _ s

theorem State.putCopy_sameTasks (s : State) (c : Copy) : SameTasks s (s.putCopy c) := ⟨rfl, rfl, rfl, rfl, rfl⟩

/-! ### Harts that leave their slots -/

theorem State.clearSlot_frame (s : State) (id : Nat) : (s.clearSlot id).places = s.places ∧ (s.clearSlot id).mem = s.mem ∧
    (s.clearSlot id).sys = s.sys := by
  unfold State.clearSlot
  split <;> exact ⟨rfl, rfl, rfl⟩

theorem State.clearSlot_nodup {s : State} (id : Nat) (h : (s.harts.map (·.id)).Nodup) : ((s.clearSlot id).harts.map (·.id)).Nodup := by
  unfold State.clearSlot
  split
  next he =>
    have hids : ({ s with hart := Hart.empty id } : State).harts.map (·.id) = s.harts.map (·.id) := by
      show (Hart.empty id).id :: _ = s.hart.id :: _
      rw [he]
      rfl
    rw [hids]
    exact h
  · refine h.sublist (List.Sublist.map _ ?_)
    exact List.filter_sublist.cons_cons _

/-- A hart that stands in its slot after another has left one stood there before, and is not that one. -/
theorem State.mem_clearSlot {s : State} {id : Nat} (hnd : (s.harts.map (·.id)).Nodup) {g : Hart} (hg : g ∈ (s.clearSlot id).harts)
    (hp : g.present = true) : g ∈ s.harts ∧ g.id ≠ id := by
  unfold State.clearSlot at hg
  split at hg
  next he =>
    rcases List.mem_cons.mp hg with rfl | hg
    · exact absurd hp (by simp [Hart.present, Hart.empty])
    · refine ⟨List.mem_cons_of_mem _ hg, fun h => ?_⟩
      exact (List.nodup_cons.mp hnd).1 (List.mem_map.mpr ⟨g, hg, h.trans he.symm⟩)
  next hne =>
    rcases List.mem_cons.mp hg with rfl | hg
    · exact ⟨List.mem_cons_self, hne⟩
    · obtain ⟨hmem, hid⟩ := List.mem_filter.mp hg
      exact ⟨List.mem_cons_of_mem _ hmem, by simpa using hid⟩

/-- Harts leave their slots, with their links and monitors (R139, R335). -/
def State.leaveSlots (s : State) (l : List Hart) : State := l.foldl (fun u h => (u.unlink h.id).clearSlot h.id) s

theorem State.leaveSlots_results : ∀ (l : List Hart) (s : State), (s.harts.map (·.id)).Nodup →
    (s.leaveSlots l).places = s.places ∧ (s.leaveSlots l).mem = s.mem ∧ (s.leaveSlots l).sys = s.sys ∧
      ∀ g ∈ (s.leaveSlots l).harts, g.present = true → g ∈ s.harts ∧ ∀ h ∈ l, g.id ≠ h.id
  | [], _, _ => ⟨rfl, rfl, rfl, fun _ hg _ => ⟨hg, fun _ hh => absurd hh List.not_mem_nil⟩⟩
  | h :: r, s, hnd => by
    obtain ⟨hplaces, hmem, hsys⟩ := (s.unlink h.id).clearSlot_frame h.id
    obtain ⟨kplaces, kmem, ksys, kharts⟩ := State.leaveSlots_results r _ (State.clearSlot_nodup (s := s.unlink h.id) h.id hnd)
    refine ⟨kplaces.trans hplaces, kmem.trans hmem, ksys.trans hsys, fun g hg hp => ?_⟩
    obtain ⟨hg', hne⟩ := kharts g hg hp
    obtain ⟨hs, hid⟩ := State.mem_clearSlot (s := s.unlink h.id) hnd hg' hp
    exact ⟨hs, fun k hk => (List.mem_cons.mp hk).elim (fun e => e ▸ hid) (hne k)⟩

/-! ### The save of a core (R333) -/

theorem State.find?_onSave {s : State} {task : Nat} {v : SaveSlot} (hv : s.sys.saves.find? (·.task == task) = some v)
    (f : SaveSlot → SaveSlot) (hf : ∀ w, (f w).task = w.task) : (s.onSave task f).sys.saves.find? (·.task == task) = some (f v) := by
  refine (find?_updIf (·.task == task) (·.task == task) f (fun w => by rw [hf]) s.sys.saves).trans ?_
  rw [hv, Option.map_some, if_pos (List.find?_some (p := fun w : SaveSlot => w.task == task) hv)]

theorem State.onSave_sys_congr {s t : State} (h : t.sys = s.sys) (task : Nat) (f : SaveSlot → SaveSlot) :
    (t.onSave task f).sys = (s.onSave task f).sys := by
  simp only [State.onSave, h]

/-- CORE_SAVE_BEGIN (R333). -/
theorem exec_coreSaveBegin {s : State} {task core : Nat} {t : Task} {v : SaveSlot} (ht : s.taskAt task = some t)
    (hv : s.sys.saves.find? (·.task == task) = some v) (hp : t.phase = .preempting) (he : t.ending = false) (hleft : s.anyLeft task = true)
    (hcan : s.canSave task core = true) (hnew : v.saving.any (· == core) = false) :
    ∃ u, exec (.coreSaveBegin task core) s = .next u ∧ SameBytes s u ∧ u.hart = s.hart ∧
      u.sys.saves.find? (·.task == task) = some { v with saving := core :: v.saving } := by
  refine ⟨s.onSave task fun v => if v.saving.any (· == core) then v else { v with saving := core :: v.saving }, ?_, fun _ => rfl, rfl, ?_⟩
  · show execCoreSaveBegin task core s = _
    simp only [execCoreSaveBegin, ht, hp, he, hleft, hcan, beq_self_eq_true, Bool.not_false, Bool.and_self, if_true]
  · rw [State.find?_onSave hv _ fun w => by split <;> rfl, hnew]
    rfl

/-- The save slot of a task once a core's part is in it (R335). -/
def SaveSlot.withCore (v : SaveSlot) (s : State) (core : Nat) (hs : List Hart) (p : Place) : SaveSlot :=
  { v with
    harts := v.harts ++ hs, places := v.places ++ [p], spad := v.spad ++ [(core, s.spadBytes core p.spad)]
    saving := v.saving.filter (· != core), marks := v.marks ++ [(core, s.env.free)] }

/-- The harts of a task on a core. -/
def State.taskHarts (s : State) (task core : Nat) : List Hart := (s.hartsOn core).filter (·.tk.task == task)

/-- The harts of a task on a core leave it, and its part is in the save slot (R334, R335). -/
theorem State.saveCore_results {s : State} {task core base n : Nat} {p : Place} (hnd : (s.harts.map (·.id)).Nodup)
    (hwf : Memory.wf s.mem = true) (hbase : dramKey base % 64 = 0) (hn : n % 64 = 0)
    (hu : ∀ l, dramKey base / 64 ≤ l → l < (dramKey base + n) / 64 → Unowned s l 0xFFFF) :
    let u := s.saveCore task core base n p
    (∀ j, u.byte j = if dramKey base ≤ j ∧ j < dramKey base + n then Config.saveByte (2 ^ 52 * s.env.free + (j - dramKey base)) else s.byte j) ∧
      (∀ g ∈ u.hartsOn core, g.tk.task ≠ task) ∧ u.places = s.places.filter (fun q => !(q.task == task && q.core == core)) ∧
      u.sys = (s.onSave task fun v => v.withCore s core (s.taskHarts task core) p).sys := by
  intro u
  obtain ⟨hsame, hbyte⟩ := State.writeSlot_results hwf hbase hn hu
  generalize hw : s.writeSlot base n = w at hsame hbyte
  let t := (w.renameMods fun m => if (s.taskHarts task core).any (·.id == m) then savedId task m else m).onSave task fun v =>
    v.withCore s core (s.taskHarts task core) p
  let f := (t.eng.copies.filter fun c => c.task == task && c.hart / 8 == core && c.state == .frozen).foldl
    (fun u c => (u.unregisterCopy c).putCopy { c with regs := [] }) t
  have hf : SameTasks t f := SameTasks.foldl _ (fun v c => (v.unregisterCopy_sameTasks c).trans (State.putCopy_sameTasks _ _)) _ t
  have hfh : f.harts = s.harts := by
    show f.hart :: f.others = s.hart :: s.others
    rw [hf.hart, hf.others]
    show w.hart :: w.others = _
    rw [hsame.hart, hsame.others]
  obtain ⟨lplaces, lmem, lsys, lharts⟩ := State.leaveSlots_results (s.taskHarts task core) f (by rw [hfh]; exact hnd)
  have hus : u = (f.leaveSlots (s.taskHarts task core)).leaveCore task core := by
    show s.saveCore task core base n p = _
    unfold State.saveCore
    rw [hw]
    rfl
  have hsys : u.sys = t.sys := by
    rw [hus]
    exact lsys.trans hf.sys
  have htsys : t.sys = (s.onSave task fun v => v.withCore s core (s.taskHarts task core) p).sys :=
    State.onSave_sys_congr (t := w.renameMods _) hsame.sys task _
  refine ⟨fun j => ?_, fun g hg ht => ?_, ?_, hsys.trans htsys⟩
  · rw [← hbyte j]
    have hmem : u.mem = w.mem := by
      rw [hus]
      exact lmem.trans hf.mem
    refine State.byte_of_mem hmem ?_ j
    rw [hsys, htsys, hsame.sys]
    rfl
  · rw [hus] at hg
    obtain ⟨hmem, hpc⟩ := List.mem_filter.mp hg
    obtain ⟨hpres, hcore⟩ := Bool.and_eq_true_iff.mp hpc
    obtain ⟨hgs, hne⟩ := lharts g hmem hpres
    rw [hfh] at hgs
    exact hne g (List.mem_filter.mpr ⟨List.mem_filter.mpr ⟨hgs, hpc⟩, by simpa using ht⟩) rfl
  · rw [hus]
    show (f.leaveSlots _).places.filter _ = _
    rw [lplaces, hf.places]
    show w.places.filter _ = _
    rw [hsame.places]

/-- With its last core a task is saved, and waits in the resume list of its class (R325, R336). -/
def State.allSaved (u : State) (task : Nat) (t : Task) : State :=
  (u.onTask task fun t => { t with phase := .saved }).onPart t.part fun q =>
    { q with resume := Vector.ofFn fun i : Fin 4 => if i.val = t.cls then q.resume.get i ++ [task] else q.resume.get i }

theorem exec_coreSaveComplete {s : State} {task core base n : Nat} {t : Task} {v : SaveSlot} {p : Place} (ht : s.taskAt task = some t)
    (hv : s.sys.saves.find? (·.task == task) = some v) (hp : s.placeAt task core = some p) (hs : v.saving.any (· == core) = true)
    (hpart : v.partOf core = (base, n)) (hw : s.slotWaits (s.slotBase t.part v + base) n = false) :
    let u := s.saveCore task core (s.slotBase t.part v + base) n p
    exec (.coreSaveComplete task core) s = .next (if u.places.any (·.task == task) then u else u.allSaved task t) := by
  intro u
  show execCoreSaveComplete task core s = _
  simp only [execCoreSaveComplete, ht, hv, hp, hs, hpart, hw, Bool.not_true, Bool.false_eq_true, if_false]
  split <;> rfl

section
variable {s : State} {task core : Nat} {t : Task} {v : SaveSlot} {p : Place}

/-- What does not change when the last core is saved. -/
theorem State.allSaved_frame (u : State) (b : Bool) : let x := if b then u else u.allSaved task t
    x.hart = u.hart ∧ x.others = u.others ∧ x.places = u.places ∧ x.mem = u.mem ∧ x.sys.saves = u.sys.saves ∧ x.sys.pads = u.sys.pads := by
  cases b <;> exact ⟨rfl, rfl, rfl, rfl, rfl, rfl⟩

/-- What the last core's save gives (R325, R335, R336). -/
theorem State.allSaved_results {u : State} (ht : u.taskAt task = some t) :
    (u.allSaved task t).taskAt task = some { t with phase := .saved } ∧ ∀ q, u.partAt t.part = some q →
      ∃ q', (u.allSaved task t).partAt t.part = some q' ∧
        ∀ i : Fin 4, q'.resume.get i = if i.val = t.cls then q.resume.get i ++ [task] else q.resume.get i := by
  refine ⟨?_, fun q hq => ⟨_, (State.partAt_onPart _ _ _ ?_).trans (congrArg (Option.map _) hq), fun i => ?_⟩⟩
  · refine (State.taskAt_onTask u task (fun t => { t with phase := .saved }) fun _ => rfl).trans ?_
    rw [ht]
    rfl
  · exact fun _ => rfl
  · exact (Vector.get_eq_getElem ..).trans (Vector.getElem_ofFn ..)

/-- CORE_SAVE_COMPLETE (R334, R335). -/
theorem coreSaveComplete_results (ht : s.taskAt task = some t) (hv : s.sys.saves.find? (·.task == task) = some v)
    (hnd : (s.harts.map (·.id)).Nodup) (hp : s.placeAt task core = some p) (hsaving : v.saving.any (· == core) = true)
    (hwf : Memory.wf s.mem = true) (base n : Nat) (hpart : (v.parts.find? (·.1 == core)).map (·.2) = some (base, n)) :
    let slot := dramKey (((s.partAt t.part).map (·.saveArea.1)).getD 0 + v.base + base)
    slot % 64 = 0 → n % 64 = 0 → (∀ l, slot / 64 ≤ l → l < (slot + n) / 64 → Unowned s l 0xFFFF) →
    ∃ u w, exec (.coreSaveComplete task core) s = .next u ∧
      (∀ k, k < slot ∨ slot + n ≤ k → u.byte k = s.byte k) ∧ (∀ i, i < n → u.byte (slot + i) = Config.saveByte (2 ^ 52 * s.env.free + i)) ∧
      (∀ g ∈ u.hartsOn core, g.tk.task ≠ task) ∧ u.placeAt task core = none ∧ u.sys.saves.find? (·.task == task) = some w ∧
      w.harts = v.harts ++ (s.hartsOn core).filter (·.tk.task == task) ∧ w.places = v.places ++ [p] ∧
      w.spad = v.spad ++ [(core, s.spadBytes core p.spad)] ∧ w.parts = v.parts ∧ w.marks = v.marks ++ [(core, s.env.free)] ∧
      ((∀ q ∈ s.places, q.task = task → q.core = core) → u.taskAt task = some { t with phase := .saved } ∧ ∀ q, s.partAt t.part = some q →
        ∃ q', u.partAt t.part = some q' ∧ ∀ i : Fin 4, q'.resume.get i = if i.val = t.cls then q.resume.get i ++ [task] else q.resume.get i) := by
  intro slot hslot hn hu
  have hpartOf : v.partOf core = (base, n) := by rw [SaveSlot.partOf, hpart]; rfl
  have hexec := exec_coreSaveComplete ht hv hp hsaving hpartOf (State.slotWaits_eq_false hslot hn hu)
  obtain ⟨hbyte, hharts, hplaces, hsys⟩ := State.saveCore_results (task := task) (core := core) (base := s.slotBase t.part v + base) (p := p) hnd hwf hslot hn hu
  simp only [] at hexec
  generalize s.saveCore task core (s.slotBase t.part v + base) n p = u at hexec hbyte hharts hplaces hsys
  obtain ⟨xhart, xothers, xplaces, xmem, xsaves, xpads⟩ := State.allSaved_frame (task := task) (t := t) u (u.places.any (·.task == task))
  have hsaves : u.sys.saves.find? (·.task == task) = some (v.withCore s core (s.taskHarts task core) p) := by
    rw [hsys]
    exact State.find?_onSave hv _ fun _ => rfl
  have hxbyte : ∀ j, (if u.places.any (·.task == task) then u else u.allSaved task t).byte j = u.byte j := State.byte_of_mem xmem xpads
  refine ⟨_, v.withCore s core (s.taskHarts task core) p, hexec, fun k hk => ?_, fun i hi => ?_, fun g hg => ?_, ?_, by rw [xsaves]; exact hsaves, rfl, rfl, rfl, rfl, rfl, fun hlast => ?_⟩
  · rw [hxbyte, hbyte, if_neg]
    show ¬ (slot ≤ k ∧ k < slot + n)
    omega
  · rw [hxbyte, hbyte, if_pos ⟨Nat.le_add_right _ _, Nat.add_lt_add_left hi _⟩]
    show Config.saveByte (2 ^ 52 * s.env.free + (slot + i - slot)) = _
    rw [Nat.add_sub_cancel_left]
  · refine hharts g ?_
    rw [State.hartsOn, State.harts, xhart, xothers] at hg
    exact hg
  · rw [State.placeAt, xplaces, hplaces, List.find?_eq_none]
    intro q hq
    simpa [imp_iff_not_or] using (List.mem_filter.mp hq).2
  · have hnone : u.places.any (·.task == task) = false := by
      rw [List.any_eq_false]
      intro q hq
      rw [hplaces] at hq
      obtain ⟨hmem, hne⟩ := List.mem_filter.mp hq
      intro htask
      have htask' : q.task = task := by simpa using htask
      simp [htask', hlast q hmem htask'] at hne
    have hut : u.taskAt task = some t := by
      rw [← ht, State.taskAt, hsys]
      rfl
    obtain ⟨htask, hresume⟩ := State.allSaved_results hut
    rw [hnone]
    refine ⟨htask, fun q hq => hresume q ?_⟩
    rw [← hq, State.partAt, hsys]
    rfl
end

end Sys2Proof.Machine
end

section
/-! PROOFS. Scheduling (17), part 7: the restore of a pre-empted task (R288, R336). -/
namespace Sys2Proof.Machine

/-! ### Empty caches -/

/-- A core's instruction cache and read-only ways are empty. -/
def State.coldAt (s : State) (n : Nat) : Prop := (s.coreAt n).icache = [] ∧ (s.coreAt n).ro = []

section
variable {s : State} {n : Nat}

/-- A core's caches stay empty when a core is changed so that no cache of it grows. -/
theorem State.coldAt_onCore (c : Nat) {f : Core → Core} (hid : ∀ k, (f k).id = k.id) (hi : ∀ k, k.icache = [] → (f k).icache = [])
    (hr : ∀ k, k.ro = [] → (f k).ro = []) (h : s.coldAt n) : (s.onCore c f).coldAt n := by
  obtain ⟨hicache, hro⟩ := h
  unfold State.coldAt
  by_cases hn : n = c
  · subst hn
    rw [State.coreAt_onCore _ _ _ hid]
    exact ⟨hi _ hicache, hr _ hro⟩
  · rw [State.coreAt_onCore_ne _ _ _ _ hid hn]
    exact ⟨hicache, hro⟩

theorem State.coldAt_dropRo (c : Nat) (h : s.coldAt n) : (s.dropRo c).coldAt n :=
  State.coldAt_onCore (f := fun c => { c with ro := [] }) c (fun _ => rfl) (fun _ hk => hk) (fun _ _ => rfl) h

theorem State.coldAt_selfInvalidate (c : Nat) (p : Nat → Bool) (h : s.coldAt n) : (s.selfInvalidate c p).coldAt n :=
  State.coldAt_onCore (f := fun c =>
    { c with l1 := (updIf (fun l => p l.line) (fun l => { l with valid := l.valid &&& l.reg, poison := l.poison &&& l.reg })
        c.l1).filter fun l => !(l.valid ||| l.reg ||| l.poison == 0#16) }) c (fun _ => rfl) (fun _ hk => hk) (fun _ hk => hk) h

theorem State.coldAt_acquire (sc : Scope) (ro : Bool) (h : s.coldAt n) : (s.acquire sc ro).coldAt n := by
  unfold State.acquire
  rw [State.noteSync_false_eq]
  have hself : (if wideScope sc then s.selfInvalidate s.hart.core fun _ => true else s).coldAt n := by
    split
    · exact State.coldAt_selfInvalidate _ _ h
    · exact h
  generalize (if wideScope sc then s.selfInvalidate s.hart.core fun _ => true else s) = t at hself
  cases ro with
  | false => exact hself
  | true => exact State.coldAt_dropRo t.hart.core hself
end

/-- The read-only ways and the instruction cache of a core are emptied (R288). -/
def State.chill (s : State) (c : Nat) : State := (s.dropRo c).onCore c fun k => { k with icache := [] }

theorem State.chill_sameTasks (s : State) (c : Nat) : SameTasks s (s.chill c) := ⟨rfl, rfl, rfl, rfl, rfl⟩

theorem State.coldAt_chill_self (s : State) (c : Nat) : (s.chill c).coldAt c := by
  unfold State.coldAt State.chill
  rw [State.coreAt_onCore (s.dropRo c) c (fun k => { k with icache := [] }) fun _ => rfl]
  exact ⟨rfl, s.dropRo_ro c⟩

theorem State.coldAt_chill {s : State} {n : Nat} (c : Nat) (h : s.coldAt n) : (s.chill c).coldAt n :=
  State.coldAt_onCore (f := fun k => { k with icache := [] }) c (fun _ => rfl) (fun _ _ => rfl) (fun _ hk => hk) (State.coldAt_dropRo c h)

theorem State.coldAt_chills_of {n : Nat} : ∀ (l : List Nat) (s : State), s.coldAt n → (l.foldl State.chill s).coldAt n
  | [], _, h => h
  | c :: r, s, h => State.coldAt_chills_of r (s.chill c) (State.coldAt_chill c h)

theorem State.coldAt_chills {n : Nat} : ∀ (l : List Nat) (s : State), n ∈ l → (l.foldl State.chill s).coldAt n
  | [], _, h => absurd h List.not_mem_nil
  | c :: r, s, h => by
    rw [List.foldl_cons]
    rcases List.mem_cons.mp h with rfl | h
    · exact State.coldAt_chills_of r _ (s.coldAt_chill_self n)
    · exact State.coldAt_chills r _ h

/-! ### Harts that run on (R336) -/

/-- A pre-empted hart runs on. -/
def Hart.resumed (g : Hart) : Hart := if g.status == .preempted then { g with status := .running } else g

theorem Hart.resumed_id (g : Hart) : g.resumed.id = g.id := by
  unfold Hart.resumed
  split <;> rfl

theorem Hart.resumed_resumed (g : Hart) : g.resumed.resumed = g.resumed := by
  unfold Hart.resumed
  split
  · exact if_neg (by simp)
  · rfl

theorem State.resumeHart_eq (s : State) (h : Nat) : s.resumeHart h = ((s.turnTo h).acquire .dev true).onHart Hart.resumed := rfl

/-- What a restored hart changes (R288, R336). -/
theorem State.resumeHart_frame (s : State) (h : Nat) : (s.resumeHart h).sys = s.sys ∧ (s.resumeHart h).mem = s.mem ∧
    ∀ n, s.coldAt n → (s.resumeHart h).coldAt n := by
  obtain ⟨-, hcores, hm, -, -, hsys, -⟩ := s.turnTo_frame h
  obtain ⟨-, -, -, -, asys, amem⟩ := (s.turnTo h).acquire_frame .dev true
  refine ⟨asys.trans hsys, amem.trans hm, fun n hn => State.coldAt_acquire (s := s.turnTo h) .dev true ?_⟩
  unfold State.coldAt State.coreAt at hn ⊢
  rw [hcores]
  exact hn

theorem State.hartAt_resumeHart {s : State} {h : Nat} {g : Hart} (hg : s.hartAt h = some g) (j : Nat) :
    (s.resumeHart h).hartAt j = (s.hartAt j).map fun k => if j = h then k.resumed else k := by
  have hframe := (s.turnTo h).acquire_sameHarts .dev true
  have hhart : (s.resumeHart h).hart = g.resumed := by
    rw [State.resumeHart_eq]
    show Hart.resumed ((s.turnTo h).acquire .dev true).hart = _
    rw [hframe.hart, s.turnTo_hart h hg]
  have hid : (s.resumeHart h).hart.id = h := by rw [hhart, Hart.resumed_id, State.hartAt_id hg]
  by_cases hj : j = h
  · subst hj
    refine (if_pos hid).trans ?_
    rw [hhart, hg, Option.map_some, if_pos rfl]
  · have hturn : (s.turnTo h).hart.id = h := by rw [s.turnTo_hart h hg, State.hartAt_id hg]
    have hself : (fun k : Hart => if j = h then k.resumed else k) = id := funext fun k => if_neg hj
    rw [hself, Option.map_id, id, ← s.hartAt_turnTo h j]
    exact State.hartAt_of_hart (hid.trans hturn.symm) hframe.others (by rw [hturn]; exact hj)

/-- Harts that are there run on one after the other. -/
theorem State.resumeHarts_results : ∀ (l : List Nat) (s : State), (∀ h ∈ l, ∃ g, s.hartAt h = some g) →
    let t := l.foldl State.resumeHart s
    t.sys = s.sys ∧ t.mem = s.mem ∧ (∀ n, s.coldAt n → t.coldAt n) ∧
      ∀ j, t.hartAt j = (s.hartAt j).map fun k => if j ∈ l then k.resumed else k
  | [], s, _ => ⟨rfl, rfl, fun _ h => h, fun j => by simp⟩
  | h :: r, s, hl => by
    obtain ⟨g, hg⟩ := hl h List.mem_cons_self
    obtain ⟨hsys, hmem, hcold⟩ := s.resumeHart_frame h
    have hat := State.hartAt_resumeHart hg
    have hrest : ∀ k ∈ r, ∃ g, (s.resumeHart h).hartAt k = some g := fun k hk => by
      obtain ⟨x, hx⟩ := hl k (List.mem_cons_of_mem _ hk)
      exact ⟨_, by rw [hat, hx, Option.map_some]⟩
    obtain ⟨ksys, kmem, kcold, kat⟩ := State.resumeHarts_results r (s.resumeHart h) hrest
    refine ⟨ksys.trans hsys, kmem.trans hmem, fun n hn => kcold n (hcold n hn), fun j => (kat j).trans ?_⟩
    rw [hat, Option.map_map]
    congr 1
    funext k
    by_cases hj : j = h <;> by_cases hr : j ∈ r <;> simp [hj, hr, Hart.resumed_resumed]

/-! ### RESTORE_COMPLETE (R336) -/

/-- A task runs again, the caches of its cores empty (R288). -/
def State.restored (s : State) (task : Nat) : State :=
  let u := s.onTask task fun t => { t with phase := .running }
  ((u.places.filter (·.task == task)).map (·.core)).foldl State.chill u

/-- The numbers of the harts of a task. -/
def State.hartsOf (s : State) (task : Nat) : List Nat := (s.harts.filter fun h => h.tk.task == task && h.present).map (·.id)

section
variable {s : State} {task : Nat} {t : Task}

/-- Nothing is to be registered again for a task that has no frozen copy. -/
theorem State.thaw_of_none (h : ∀ c ∈ s.eng.copies, c.task = task → c.state ≠ .frozen) : s.thaw task = some s := by
  have hnil : (s.eng.copies.filter fun c => c.task == task && c.state == .frozen) = [] :=
    List.filter_eq_nil_iff.mpr fun c hc => by simpa using h c hc
  rw [State.thaw, hnil]
  rfl

theorem exec_restoreComplete (ht : s.taskAt task = some t) (hp : t.phase = .restoring)
    (hc : ∀ c ∈ s.eng.copies, c.task = task → c.state ≠ .frozen) :
    exec (.restoreComplete task) s = .next (((s.restored task).hartsOf task).foldl State.resumeHart (s.restored task)) := by
  show execRestoreComplete task s = _
  simp only [execRestoreComplete, ht, hp, bne_self_eq_false, Bool.false_eq_true, if_false, State.thaw_of_none hc]
  rfl

theorem State.restored_results (ht : s.taskAt task = some t) : let w := s.restored task
    w.hart = s.hart ∧ w.others = s.others ∧ w.mem = s.mem ∧ w.sys.pads = s.sys.pads ∧ w.taskAt task = some { t with phase := .running } ∧
      ∀ p ∈ s.places, p.task = task → w.coldAt p.core := by
  intro w
  have hw : SameTasks (s.onTask task fun t => { t with phase := .running }) w :=
    SameTasks.foldl State.chill State.chill_sameTasks _ _
  refine ⟨hw.hart, hw.others, hw.mem, by rw [hw.sys]; rfl, ?_, fun p hp htask => State.coldAt_chills _ _ ?_⟩
  · rw [State.taskAt, hw.sys]
    refine (State.taskAt_onTask s task (fun t => { t with phase := .running }) fun _ => rfl).trans ?_
    rw [ht]
    rfl
  · exact List.mem_map.mpr ⟨p, List.mem_filter.mpr ⟨hp, by simpa using htask⟩, rfl⟩

/-- A restored task's harts run on (R336). -/
theorem restoreComplete_results (ht : s.taskAt task = some t) (hnd : (s.harts.map (·.id)).Nodup) (hp : t.phase = .restoring)
    (hc : ∀ c ∈ s.eng.copies, c.task = task → c.state ≠ .frozen) : ∃ u, exec (.restoreComplete task) s = .next u ∧ SameBytes s u ∧
      u.taskAt task = some { t with phase := .running } ∧ (∀ p ∈ s.places, p.task = task → (u.coreAt p.core).icache = [] ∧ (u.coreAt p.core).ro = []) ∧
      ∀ g ∈ s.harts, u.hartAt g.id = some (if g.tk.task = task ∧ g.status = .preempted then { g with status := .running } else g) := by
  obtain ⟨whart, wothers, wmem, wpads, wtask, wcold⟩ := State.restored_results ht
  have hexec := exec_restoreComplete ht hp hc
  generalize s.restored task = w at *
  have hharts : w.harts = s.harts := by rw [State.harts, whart, wothers, State.harts]
  have hat : ∀ g ∈ s.harts, w.hartAt g.id = some g := fun g hg => State.hartAt_of_mem (by rw [hharts]; exact hnd) (by rw [hharts]; exact hg)
  have hmem : ∀ h ∈ w.hartsOf task, ∃ g, w.hartAt h = some g := fun h hh => by
    obtain ⟨g, hg, rfl⟩ := List.mem_map.mp hh
    exact ⟨g, hat g (hharts ▸ (List.mem_filter.mp hg).1)⟩
  obtain ⟨usys, umem, ucold, uat⟩ := State.resumeHarts_results _ w hmem
  refine ⟨_, hexec, State.byte_of_mem (umem.trans wmem) ((congrArg Sys.pads usys).trans wpads), ?_, fun p hp htask => ucold _ (wcold p hp htask),
    fun g hg => ?_⟩
  · rw [State.taskAt, usys]
    exact wtask
  · rw [uat, hat g hg, Option.map_some]
    have hin : g.id ∈ w.hartsOf task ↔ g.tk.task = task ∧ g.status ≠ .empty := by
      rw [State.hartsOf, List.mem_map, hharts]
      constructor
      · rintro ⟨k, hk, hid⟩
        obtain ⟨hks, hkp⟩ := List.mem_filter.mp hk
        obtain rfl := List.inj_on_of_nodup_map hnd hks hg hid
        simpa [Hart.present] using hkp
      · intro h
        exact ⟨g, List.mem_filter.mpr ⟨hg, by simpa [Hart.present] using h⟩, rfl⟩
    congr 1
    by_cases hpre : g.status = .preempted
    · have hres : g.resumed = { g with status := .running } := if_pos (by rw [hpre]; rfl)
      by_cases htask : g.tk.task = task
      · rw [if_pos (hin.mpr ⟨htask, by rw [hpre]; exact fun h => by cases h⟩), if_pos ⟨htask, hpre⟩, hres]
      · rw [if_neg fun h => htask (hin.mp h).1, if_neg fun h => htask h.1]
    · have hres : g.resumed = g := if_neg (by simpa using hpre)
      rw [hres, ite_self, if_neg fun h => hpre h.2]
end

end Sys2Proof.Machine
end

section
/-! PROOFS. Scheduling (17), part 8: the end of a task (R328), and the arbiters, the grants and the life of a task settled. -/
namespace Sys2Proof.Machine

/-! ### Homes of two states -/

theorem State.lineHeld_congr {s t : State} (hc : t.coh = s.coh) (hp : t.sys.pending = s.sys.pending) (l : Nat) (m : BitVec 16) :
    t.lineHeld l m = s.lineHeld l m := by
  simp only [State.lineHeld, State.homeAt, State.rangeOf, State.underTest, State.inFlight, State.rowTest, hc, hp]

/-- That nobody owns a line is said by the homes, and by what is under test. -/
theorem Unowned.congr {s t : State} {l : Nat} {m : BitVec 16} (hc : t.coh = s.coh) (hp : t.sys.pending = s.sys.pending)
    (h : Unowned s l m) : Unowned t l m := by
  obtain ⟨hwaits, hlost, hcores, hranges, hsplit⟩ := h
  have hhome : t.homeAt l = s.homeAt l := by rw [State.homeAt, hc, State.homeAt]
  have hfull : t.splitFull t l = false := by
    rw [← hsplit, State.splitFull, State.splitFull, State.splitPool, State.splitPool, hc, hhome]
  have hnone : t.rangeOf l = none := by rw [State.rangeOf, hc, hranges]; rfl
  have htake : takeWords l m t = t := by
    rw [takeWords, hhome, hcores]
    rfl
  have hheld : t.lineHeld l m = false := by
    rw [State.lineHeld_congr hc hp]
    exact (Bool.or_eq_false_iff.mp hwaits).1
  refine ⟨?_, by rw [State.lineLost, hhome]; exact hlost, by rw [hhome]; exact hcores, by rw [hc]; exact hranges, hfull⟩
  simp only [State.lineWaits, hheld, State.lossWaits, hnone, State.withSplit, Option.isSome_none, Bool.false_eq_true, if_false, htake, hfull,
    Option.isNone_some, Bool.or_self]

theorem State.memNat_of_mem {s t : State} (hm : t.mem = s.mem) (hs : t.sys.pads = s.sys.pads) (k n : Nat) : t.memNat k n = s.memNat k n :=
  State.memNat_congr s t n k fun j _ _ => State.byte_of_mem hm hs j

theorem State.memNat_noteWrite (s : State) (l k n : Nat) : (s.noteWrite l).memNat k n = s.memNat k n := 
  State.memNat_of_mem (s := s) (t := s.noteWrite l) rfl rfl k n

/-- An atomic at the home of a line that nobody owns (R119). -/
theorem State.homeAtomic_of_unowned {s : State} {key w : Nat} {f : Nat → Option Nat} {v : Nat}
    (hu : Unowned s (lineOf key) (wordMask key (w / 8))) (hp : s.poisoned key (w / 8) = false) (hf : f (s.memNat key (w / 8)) = some v) :
    s.homeAtomic key w f = (.val (s.memNat key (w / 8)), (s.putNat key (w / 8) v).noteWrite (lineOf key)) := by
  obtain ⟨hwaits, hlost, hcores, hranges, hsplit⟩ := hu
  have hcollect : s.collect (lineOf key) = s := by
    have hnone : s.rangeOf (lineOf key) = none := by rw [State.rangeOf, hranges]; rfl
    rw [State.collect, hnone]
  simp only [State.homeAtomic, hwaits, hlost, hp, hcollect, State.takeOwners_of_noOwners hcores hsplit, hf, Bool.false_eq_true, if_false]

/-! ### What a task holds (R328) -/

theorem State.leaveCore_frame (s : State) (task core : Nat) : let u := s.leaveCore task core
    u.hart = s.hart ∧ u.others = s.others ∧ u.mem = s.mem ∧ u.coh = s.coh ∧ u.eng = s.eng ∧ u.sys = s.sys :=
  ⟨rfl, rfl, rfl, rfl, rfl, rfl⟩

/-- A task leaves some of its cores. -/
theorem State.leaveCores_results (task : Nat) : ∀ (l : List Place) (s : State), let u := l.foldl (fun w p => w.leaveCore task p.core) s
    u.hart = s.hart ∧ u.others = s.others ∧ u.mem = s.mem ∧ u.coh = s.coh ∧ u.eng = s.eng ∧ u.sys = s.sys ∧
      ∀ p ∈ u.places, p ∈ s.places ∧ ∀ q ∈ l, ¬ (p.task = task ∧ p.core = q.core)
  | [], _ => ⟨rfl, rfl, rfl, rfl, rfl, rfl, fun _ hp => ⟨hp, fun _ hq => absurd hq List.not_mem_nil⟩⟩
  | q :: r, s => by
    obtain ⟨h1, h2, h3, h4, h5, h6⟩ := s.leaveCore_frame task q.core
    obtain ⟨k1, k2, k3, k4, k5, k6, kplaces⟩ := State.leaveCores_results task r (s.leaveCore task q.core)
    refine ⟨k1.trans h1, k2.trans h2, k3.trans h3, k4.trans h4, k5.trans h5, k6.trans h6, fun p hp => ?_⟩
    obtain ⟨hmem, hne⟩ := kplaces p hp
    obtain ⟨hs, hq⟩ := List.mem_filter.mp hmem
    refine ⟨hs, fun x hx => (List.mem_cons.mp hx).elim (fun e => ?_) (hne x)⟩
    subst e
    simpa [imp_iff_not_or] using hq

/-- What is left when a task holds nothing (R328): no place, session, list or copy is its, and the task is gone. -/
structure TaskGone (s u : State) (task : Nat) : Prop where
  hart : u.hart = s.hart
  others : u.others = s.others
  mem : u.mem = s.mem
  coh : u.coh = s.coh
  pads : u.sys.pads = s.sys.pads
  pending : u.sys.pending = s.sys.pending
  taskAt : u.taskAt task = none
  places : ∀ p ∈ u.places, p.task ≠ task
  sessions : ∀ x ∈ u.eng.sessions, x.task ≠ task
  lists : ∀ x ∈ u.eng.lists, x.task ≠ task
  copies : ∀ x ∈ u.eng.copies, x.task ≠ task

/-- A task's sessions, lists and copies are gone. -/
def State.dropEngines (s : State) (task : Nat) : State :=
  { s with eng := { s.eng with
    sessions := s.eng.sessions.filter (·.task != task), lists := s.eng.lists.filter (·.task != task)
    copies := s.eng.copies.filter (·.task != task) } }

/-- The supervisor knows a task no more. -/
def State.forgetTask (w : State) (t : Task) : State :=
  { w with sys := { w.sys with
      tasks := w.sys.tasks.filter (·.id != t.id), saves := w.sys.saves.filter (·.task != t.id)
      parts := w.sys.parts.map fun p =>
        if p.id = t.part then { p with resume := Vector.ofFn fun i : Fin 4 => (p.resume.get i).filter (· != t.id) } else p } }

/-- Without a commutative range nothing makes the release of what a task holds wait (R328). -/
theorem State.releaseTask_results {s : State} (t : Task) (hr : s.coh.ranges = []) :
    ∃ u, s.releaseTask t = some u ∧ TaskGone s u t.id := by
  have hdrop : (s.dropRanges fun r => r.part == t.part && r.task == t.id) = some s := by
    have hself : ({ s with coh := { s.coh with ranges := [] } } : State) = s := by rw [← hr]
    simp only [State.dropRanges, hr, List.filter_nil, List.foldl_nil, Option.map_some, hself]
  refine ⟨_, (congrArg (Option.map _) hdrop).trans rfl, ?_⟩
  obtain ⟨h1, h2, h3, h4, h5, h6, hplaces⟩ := State.leaveCores_results t.id (s.places.filter (·.task == t.id)) (s.dropEngines t.id)
  show TaskGone s (State.forgetTask ((s.places.filter (·.task == t.id)).foldl (fun w p => w.leaveCore t.id p.core) (s.dropEngines t.id)) t) t.id
  generalize (s.places.filter (·.task == t.id)).foldl (fun w p => w.leaveCore t.id p.core) (s.dropEngines t.id) = w at *
  refine ⟨h1, h2, h3, h4, congrArg (·.pads) h6, congrArg (·.pending) h6, ?_, fun p hp htask => ?_, fun x hx => ?_, fun x hx => ?_, fun x hx => ?_⟩
  · rw [State.taskAt, List.find?_eq_none]
    intro x hx
    simpa using (List.mem_filter.mp hx).2
  · obtain ⟨hs, hne⟩ := hplaces p hp
    exact hne p (List.mem_filter.mpr ⟨hs, by simpa using htask⟩) ⟨htask, rfl⟩
  all_goals
    have hx' := hx
    rw [show (w.forgetTask t).eng = _ from h5] at hx'
    simpa using (List.mem_filter.mp hx').2

/-! ### TASK_END (R328) -/

/-- Who increments a task's counter: no hart, but an agent of its partition and context. -/
def counterAgent (t : Task) : Hart := { Hart.empty 0 with tk := { (Hart.empty 0).tk with part := t.part, ctx := t.entry.ctx } }

section
variable {s u : State} {task : Nat} {t : Task}

/-- Nothing keeps a running task whose harts have gone from its end. -/
theorem exec_taskEnd (ht : s.taskAt task = some t) (hp : t.phase = .running) (he : t.ending = false)
    (hharts : ∀ h ∈ s.harts, h.status ≠ .empty → h.tk.task ≠ task) (hbusy : s.taskBusy task = false)
    (hegress : rDone t.entry.record = true → rDsys t.entry.record = true → ∀ e ∈ s.coh.egress, e.task ≠ task)
    (hr : s.releaseTask t = some u) :
    (rDone t.entry.record = false → exec (.taskEnd task) s = .next u) ∧
    (rDone t.entry.record = true → (∀ b ∈ u.coh.comb, b.partialLine = false → ∀ m ∈ b.mods, m / 2 ^ 20 ≠ t.id + 1) →
      ∀ n v, u.atomicAt (counterAgent t) (if rDsys t.entry.record then .sys else .dev) t.entry.dloc 64 (fun _ => false) 1
        (fun old => some ((old + 1) % 2 ^ 64)) = (.val n, v) → exec (.taskEnd task) s = .next v) := by
  have hnone : s.harts.any (fun h => h.present && h.tk.task == task) = false := by
    rw [List.any_eq_false]
    intro h hh
    simpa [Hart.present] using hharts h hh
  have hunacked : (rDone t.entry.record && rDsys t.entry.record && !t.ending && s.coh.egress.any (·.task == task)) = false := by
    cases h1 : rDone t.entry.record with
    | false => rfl
    | true =>
      cases h2 : rDsys t.entry.record with
      | false => rfl
      | true =>
        have hany : s.coh.egress.any (·.task == task) = false := List.any_eq_false.mpr fun e hm => by simpa using hegress h1 h2 e hm
        rw [hany, Bool.and_false]
  have hwaiting : (t.phase == .saved || t.phase == .restoring ||
      (t.phase == .preempting && s.sys.saves.any fun v => v.task == task && !v.harts.isEmpty)) = false := by
    rw [hp]
    rfl
  refine ⟨fun hd => ?_, fun hd hcomb n v hv => ?_⟩ <;> show execTaskEnd task s = _
  · simp only [execTaskEnd, ht, hnone, hbusy, hwaiting, hr, he, hd, Bool.or_self, Bool.false_and, Bool.not_false, Bool.or_true,
      Bool.false_eq_true, if_false, if_true]
  · have hflush : (u.flushCopiesIn fun b => !b.partialLine && b.mods.any fun m => m / 2 ^ 20 == t.id + 1) = some u := by
      have hnil : (u.coh.comb.filter fun b => !b.partialLine && b.mods.any fun m => m / 2 ^ 20 == t.id + 1) = [] :=
        List.filter_eq_nil_iff.mpr fun b hb => by simpa using hcomb b hb
      rw [State.flushCopiesIn, hnil]
      rfl
    have hcounter : u.atomicAt { Hart.empty 0 with tk := { (Hart.empty 0).tk with part := t.part, ctx := t.entry.ctx } }
        (if rDsys t.entry.record then .sys else .dev) t.entry.dloc 64 (fun _ => false) 1
        (fun old => some ((old + 1) % 2 ^ 64)) = (.val n, v) := hv
    rw [hd, he] at hunacked
    simp only [execTaskEnd, ht, hnone, hbusy, hunacked, hwaiting, hr, he, hd, hflush, hcounter, Bool.or_self, Bool.false_and, Bool.not_true,
      Bool.false_eq_true, if_false]

/-- The increment of a task's counter (R328). -/
theorem State.atomicAt_counter (hloc : t.entry.dloc.kind = .cached) (hfab : u.fabricDown 0 (lineOf t.entry.dloc.key) = none)
    (hu : Unowned u (lineOf t.entry.dloc.key) (wordMask t.entry.dloc.key 8)) (hpois : u.poisoned t.entry.dloc.key 8 = false) :
    u.atomicAt (counterAgent t) (if rDsys t.entry.record then .sys else .dev) t.entry.dloc 64 (fun _ => false) 1
        (fun old => some ((old + 1) % 2 ^ 64)) =
      (.val (u.memNat t.entry.dloc.key 8),
        (u.putNat t.entry.dloc.key 8 ((u.memNat t.entry.dloc.key 8 + 1) % 2 ^ 64)).noteWrite (lineOf t.entry.dloc.key)) := by
  have hatomic := State.homeAtomic_of_unowned (w := 64) (f := fun old => some ((old + 1) % 2 ^ 64)) hu hpois rfl
  have hranges : u.rangeOf (lineOf t.entry.dloc.key) = none := by
    obtain ⟨-, -, -, hr, -⟩ := hu
    rw [State.rangeOf, hr]
    rfl
  have hcore : u.fabricDown (counterAgent t).core (lineOf t.entry.dloc.key) = none := by
    rw [show (counterAgent t).core = 0 from Nat.zero_div 8]
    exact hfab
  unfold State.atomicAt
  cases rDsys t.entry.record <;> simp only [hloc, hcore, hranges, Bool.false_eq_true, if_false, if_true] <;> exact hatomic

/-- At its end a task holds nothing, and its counter has risen (R328). -/
theorem taskEnd_results (ht : s.taskAt task = some t) (hp : t.phase = .running) (he : t.ending = false)
    (hharts : ∀ h ∈ s.harts, h.status ≠ .empty → h.tk.task ≠ task) (hbusy : s.taskBusy task = false) (hr : s.coh.ranges = [])
    (hcomb : ∀ b ∈ s.coh.comb, b.partialLine = false → ∀ m ∈ b.mods, m / 2 ^ 20 ≠ task + 1) :
    let line := lineOf t.entry.dloc.key
    (rDone t.entry.record = true → (rDsys t.entry.record = true → ∀ e ∈ s.coh.egress, e.task ≠ task) ∧ s.fabricDown 0 line = none ∧
      t.entry.dloc.kind = .cached ∧ Memory.wf s.mem = true ∧ Unowned s line (wordMask t.entry.dloc.key 8) ∧
      s.poisoned t.entry.dloc.key 8 = false) →
    ∃ u, exec (.taskEnd task) s = .next u ∧ u.taskAt task = none ∧ (∀ p ∈ u.places, p.task ≠ task) ∧ (∀ x ∈ u.eng.sessions, x.task ≠ task) ∧
      (∀ x ∈ u.eng.lists, x.task ≠ task) ∧ (∀ x ∈ u.eng.copies, x.task ≠ task) ∧ u.hart = s.hart ∧ u.others = s.others ∧
      if rDone t.entry.record then u.memNat t.entry.dloc.key 8 = (s.memNat t.entry.dloc.key 8 + 1) % 2 ^ 64 ∧ KeepsBytes t.entry.dloc.key 8 s u
      else SameBytes s u := by
  intro line hdone
  have hid : t.id = task := by simpa using List.find?_some ht
  obtain ⟨u, hrel, hgone⟩ := s.releaseTask_results t hr
  rw [hid] at hgone
  obtain ⟨hend, hcount⟩ := exec_taskEnd ht hp he hharts hbusy (fun h => (hdone h).1) hrel
  cases hd : rDone t.entry.record with
  | false =>
    refine ⟨u, hend hd, hgone.taskAt, hgone.places, hgone.sessions, hgone.lists, hgone.copies, hgone.hart, hgone.others, ?_⟩
    rw [if_neg (by simp)]
    exact State.byte_of_mem hgone.mem hgone.pads
  | true =>
    obtain ⟨-, hfab, hkind, hwf, hun, hpois⟩ := hdone hd
    have hfab' : u.fabricDown 0 line = none := by
      rw [← hfab]
      simp only [State.fabricDown, State.dieDown, hgone.coh]
    have hpois' : u.poisoned t.entry.dloc.key 8 = false := by
      rw [← hpois]
      simp only [State.poisoned, State.deadAt, hgone.coh]
    have hatomic := State.atomicAt_counter hkind hfab' (hun.congr hgone.coh hgone.pending) hpois'
    have hexec := hcount hd (by rw [hgone.coh, hid]; exact hcomb) _ _ hatomic
    have hwf' : Memory.wf u.mem = true := by rw [hgone.mem]; exact hwf
    refine ⟨_, hexec, hgone.taskAt, hgone.places, hgone.sessions, hgone.lists, hgone.copies, hgone.hart, hgone.others, ?_⟩
    rw [if_pos rfl, ← State.memNat_of_mem hgone.mem hgone.pads]
    generalize u.memNat t.entry.dloc.key 8 = n
    refine ⟨?_, fun k hk => ?_⟩
    · rw [State.memNat_noteWrite, State.memNat_putNat u _ _ hwf', show 256 ^ 8 = 2 ^ 64 by norm_num, Nat.mod_mod]
    · rw [State.byte_noteWrite, u.byte_putNat_ne _ _ _ k hwf' hk]
      exact State.byte_of_mem hgone.mem hgone.pads k
end

/-- Settles O54: each step of the arbiters and of a task's life by the lemma about it. -/
theorem schedulingSteps : Obligations.SchedulingSteps := by
  unfold Obligations.SchedulingSteps
  refine ⟨fun s core hnd => exec_issueArbitration s core hnd, fun s h g hg => ⟨exec_yieldExpiry hg, ?grant, ?harts⟩,
    fun s core n g r hfirst hres => exec_quadReservationTimeout hfirst hres, ?counter, ?placement,
    fun task part i e x => placedHart_results task part i e x, fun s task core t v p ht hv => ⟨?begin, ?complete⟩,
    fun s task t ht hnd => ⟨fun hp hc => restoreComplete_results ht hnd hp hc, ?ends⟩⟩
  case grant => exact fun d n since r q hw hfirst hres hq => exec_vacquireGrant hg hw hfirst hres hq
  case harts =>
    exact fun t ht => ⟨fun hs hp => exec_hartStart hg ht hs hp, fun hs hp hb => exec_hartStop hg ht hs hp hb⟩
  case counter =>
    intro s part q p e r hp hq hw who i hi o t hr
    exact ⟨_, exec_startCounter hi, State.readCounter_results hp hq hw hr⟩
  case placement =>
    intro s part p l r q e seats hp hfatal hcands hl hq he hplan hn hnd hsessions hlists id
    obtain ⟨hnext, hparts, hmem, hpads, htasks, hplaces, hharts⟩ := State.placeTask_results (s := s.takingHead p q) part e seats hnd hsessions hlists
    refine ⟨_, exec_taskPlacement hp hfatal hcands hl hq he hplan hn, hnext, ?_, State.byte_of_mem hmem hpads, htasks, hplaces, hharts⟩
    have hid : p.id = part := by simpa using List.find?_some hp
    rw [State.partAt, hparts, ← hid]
    refine (State.partAt_onPart (s.unmonitor (counterMonitor p.id q)) p.id (takeHead q) fun _ => rfl).trans ?_
    show (s.partAt p.id).map _ = _
    rw [hid, hp]
    rfl
  case begin => exact fun hp he hleft hcan hnew => exec_coreSaveBegin ht hv hp he hleft hcan hnew
  case complete =>
    exact fun hnd hp hsaving hwf base n hpart => coreSaveComplete_results ht hv hnd hp hsaving hwf base n hpart
  case ends => exact fun hp he hharts hbusy hr hcomb => taskEnd_results ht hp he hharts hbusy hr hcomb

end Sys2Proof.Machine
end

section
/-! PROOFS. Vector words (06), part 1: the fields of a word, its checks, and what taking it at once comes to (R60, R63, R72, R81, R141). -/
namespace Sys2Proof.Machine
open Laws.OwnWord (ext_lo ext_hi ext_self)

/-! ### Fields (R60) -/

/-- A field that two parts of a word make up. -/
theorem ext_append {n m l : Nat} (x : BitVec n) (y : BitVec m) (z : BitVec l) : (x ++ y ++ z).extractLsb' 0 (m + l) = y ++ z := by
  refine BitVec.eq_of_getLsbD_eq fun i hi => ?_
  have h : i - l < m ∨ i < l := by omega
  simp [BitVec.getLsbD_append, hi]
  grind

/-- The fields of a word of the vector format: major, D, A, B, K, function. -/
structure VFields (w : IWord) (m : BitVec 6) (d a b : Reg) (k : BitVec 3) (f : BitVec 6) : Prop where
  major : fld w 26 6 = m
  d : fld w 21 5 = d
  a : fld w 16 5 = a
  b : fld w 11 5 = b
  k : fld w 8 3 = k
  f : fld w 1 6 = f

section
variable (m : BitVec 6) (d a b : Reg) (k : BitVec 3) (c : BitVec 1)

theorem fields_vword (t : BitVec 1) (f : BitVec 6) : VFields (vword m d a b k t f c) m d a b k f := by
  constructor <;> simp (disch := omega) only [vword, fld, ext_lo, ext_hi, Nat.reduceSub, ext_self]

/-- The words whose bit 7 is fixed. -/
theorem fields_tail7 (r : BitVec 7) : VFields (m ++ d ++ a ++ b ++ k ++ r ++ c) m d a b k (fld r 0 6) := by
  constructor <;> simp (disch := omega) only [fld, ext_lo, ext_hi, Nat.reduceSub, ext_self]

/-- The words whose mask field is fixed. -/
theorem fields_tail10 (r : BitVec 10) : VFields (m ++ d ++ a ++ b ++ r ++ c) m d a b (fld r 7 3) (fld r 0 6) := by
  constructor <;> simp (disch := omega) only [fld, ext_lo, ext_hi, Nat.reduceSub, ext_self]

/-- The words with three registers alone. -/
theorem fields_tail11 (r : BitVec 11) : VFields (m ++ d ++ a ++ b ++ r) m d a b (fld r 8 3) (fld r 1 6) := by
  constructor <;> simp (disch := omega) only [fld, ext_lo, ext_hi, Nat.reduceSub, ext_self]

/-- The words with two registers alone. -/
theorem fields_tail16 (r : BitVec 16) : VFields (m ++ d ++ a ++ r) m d a (fld r 11 5) (fld r 8 3) (fld r 1 6) := by
  constructor <;> simp (disch := omega) only [fld, ext_lo, ext_hi, Nat.reduceSub, ext_self]

/-- The conversions with a bit S. -/
theorem fields_tail5 (t : BitVec 1) (r : BitVec 5) (s : BitVec 1) :
    VFields (m ++ d ++ a ++ b ++ k ++ t ++ r ++ s ++ c) m d a b k (r ++ s) := by
  constructor
  case f =>
    rw [fld, ext_hi _ c 1 6 (by omega)]
    exact ext_append _ r s
  all_goals simp (disch := omega) only [fld, ext_lo, ext_hi, Nat.reduceSub, ext_self]
end

theorem bitsOf_eq_fld (w : IWord) (hi lo : Nat) : bitsOf w.toNat hi lo = (fld w lo (hi + 1 - lo)).toNat := by
  simp [bitsOf, fld, BitVec.extractLsb'_toNat, Nat.shiftRight_eq_div_pow]

section
variable {w : IWord} {m : BitVec 6} {d a b : Reg} {k : BitVec 3} {f : BitVec 6} (h : VFields w m d a b k f)
include h

theorem VFields.wMaj_eq : wMaj w = m.toNat := by rw [wMaj, bitsOf_eq_fld, h.major]
theorem VFields.wD_eq : wD w = d.toNat := by rw [wD, bitsOf_eq_fld, h.d]
theorem VFields.wA_eq : wA w = a.toNat := by rw [wA, bitsOf_eq_fld, h.a]
theorem VFields.wB_eq : wB w = b.toNat := by rw [wB, bitsOf_eq_fld, h.b]
theorem VFields.wK_eq : wK w = k.toNat := by rw [wK, bitsOf_eq_fld, h.k]
theorem VFields.wFn_eq : wFn w = f.toNat := by rw [wFn, bitsOf_eq_fld, h.f]
end

/-! ### The checks before the push (R79, R81) -/

/-- What a word that passes check 3 meets. -/
theorem typeBad_eq_none {s : State} {h : Hart} {w : IWord} {xa xb : Word} (hn : typeBad s h w xa xb = none) :
    (usesFmt h w = true → fmtOk h.fmtReg = true ∧ (h.vt.cls = 5 → h.fmtHeld = true)) ∧ familyOk s h h.vt w xa xb = true := by
  unfold typeBad at hn
  split at hn
  · contradiction
  split at hn
  · contradiction
  split at hn
  · contradiction
  rename_i hfmt
  split at hn
  · rename_i hfam
    refine ⟨fun hu => ?_, hfam⟩
    simp only [hu, Bool.true_and, Bool.not_eq_true', Bool.not_eq_false, Bool.and_eq_true, Bool.or_eq_true, bne_iff_ne] at hfmt
    exact ⟨hfmt.1, fun hc => hfmt.2.resolve_left fun h => h hc⟩
  · contradiction

theorem TakesAtOnce.typed {s : State} {i : Instr} (h : TakesAtOnce s i) :
    typeBad s s.hart (encode i) (captureOps s.hart (encode i)).1 (captureOps s.hart (encode i)).2.1 = none := by
  obtain ⟨-, -, -, -, -, -, h⟩ := h
  unfold pushCheck at h
  simp only [] at h
  split at h
  · contradiction
  split at h
  · contradiction
  · assumption

/-- A word of these families names a register group at VD (R7). -/
theorem familyOk_destination {s : State} {h : Hart} {t : VT} {w : IWord} {xa xb : Word} (hok : familyOk s h t w xa xb = true)
    (hm : wMaj w ∈ [0x21, 0x22, 0x23, 0x24, 0x25, 0x28] ∨ (wMaj w = 0x2F ∧ wFn w ≤ 1)) : isBase (wD w) t.g = true := by
  unfold familyOk at hok
  simp only [List.mem_cons, List.not_mem_nil, or_false] at hm
  rcases hm with (h | h | h | h | h | h) | ⟨h, hf⟩ <;> simp only [h, Bool.and_eq_true] at hok
  · exact hok.1.1.2
  · exact hok.1.2
  · exact hok.1.2
  · exact hok.1.1.2
  · exact hok.1.2
  · split at hok <;> simp only [Bool.and_eq_true] at hok <;> tauto
  · obtain h0 | h1 : wFn w = 0 ∨ wFn w = 1 := by omega
    · simp only [h0, Bool.and_eq_true] at hok
      exact hok.1.1
    · simp only [h1, Bool.and_eq_true] at hok
      exact hok.2

/-- A word whose operands are blocked-narrow, or whose target is a slot, finds a consistent format register with the recorded container. -/
theorem blocked_ew {h : Hart} (hc : h.vt.cls = 5) (hheld : h.fmtHeld = true) : h.vt.ew ∈ [2, 4, 8] := by
  have hew : h.vt.ew = containerOf (fmtWm1 h.fmtReg + 1) := by
    unfold Hart.fmtHeld at hheld
    simp only [Bool.and_eq_true, beq_iff_eq] at hheld
    rw [hheld.2]
    exact if_pos hc
  rw [hew, containerOf]
  split
  · simp
  · split <;> simp

/-! ### Past the word (R63) -/

/-- The state past a vector word, once the scalar pipe has pushed it. -/
def State.past (s : State) (c : Convoy) : State := s.onHart fun h => h.goto (h.pc + 4) c

/-- The entry of a word that starts at element 0 and belongs to no loop body. -/
def entryAt (h : Hart) (w : IWord) : VEntry :=
  { word := w, pc := h.pc, xa := (captureOps h w).1, xb := (captureOps h w).2.1, xc := (captureOps h w).2.2 }

/-- The state that an outcome of a body leads to. -/
def VOut.state : VOut → State
  | .done t => t
  | .block _ e t => t.onHart (·.requeue e)
  | .trap e c v n t => parkTrap e e.kept c v n t

theorem VOut.state_done (t : State) : (VOut.done t).state = t := rfl
theorem VOut.state_trap (e : VEntry) (c : Cause) (v : Word) (n : Nat) (t : State) : (VOut.trap e c v n t).state = parkTrap e e.kept c v n t := rfl

/-- A word taken at once runs its body on the state past it. -/
theorem exec_atOnce {s : State} {i : Instr} {body : Body} (h : TakesAtOnce s i) (hx : exec i s = vissue (encode i) body s) :
    ∃ c, exec i s = .next (body (entryAt s.hart (encode i)) (s.past c)).state := by
  refine ⟨s.hart.convoyAfter (encode i), ?_⟩
  rw [hx, vissue_atOnce body h]
  obtain ⟨-, -, -, hrestart, hbody, -, -⟩ := h
  have he : entryOf s.hart (encode i) = entryAt s.hart (encode i) := entryOf_fresh _ _ hrestart hbody
  have hp : s.pushed (entryAt s.hart (encode i)) = s.past (s.hart.convoyAfter (encode i)) := by
    unfold State.pushed State.past Hart.keepBody
    simp only [State.onHart, hbody]
    rfl
  rw [he, hp]
  cases ho : body (entryAt s.hart (encode i)) (s.past (s.hart.convoyAfter (encode i))) with
  | done t =>
    rw [runBody_done ho]
    show Host.Outcome.next { t with hart := t.hart.replay _ } = _
    rw [Hart.replay_plain _ _ rfl]
    rfl
  | block w e t => exact runBody_block ho
  | trap e c v n t => exact runBody_trap ho

/-- An entry of a word at the hart's PC that starts at element 0, whatever queue value it keeps. -/
structure VEntry.Of (e : VEntry) (s : State) (w : IWord) : Prop where
  word : e.word = w
  pc : e.pc = s.hart.pc
  start : e.start = 0

theorem entryAt_of (s : State) (w : IWord) : (entryAt s.hart w).Of s w := ⟨rfl, rfl, rfl⟩

/-! ### Operands (R72, R141) -/

/-- A scalar operand leaves the state as it is but for the queue register it pops. -/
theorem State.operand_eq {s s0 : State} {b : Reg} {v : Word} (h : s.operand b = some (v, s0)) :
    (b.toNat < 24 → v = s.get b ∧ s0 = s) ∧
    (24 ≤ b.toNat → ∃ r, s.hart.queue (b.toNat - 24) = v :: r ∧ s0 = s.onHart (·.putQueue (b.toNat - 24) r)) := by
  unfold State.operand at h
  split at h
  · rename_i hb
    injection h with h
    exact ⟨fun _ => ⟨(congrArg Prod.fst h).symm, (congrArg Prod.snd h).symm⟩, fun h24 => absurd hb (by omega)⟩
  · rename_i hb
    refine ⟨fun h24 => absurd h24 hb, fun _ => ?_⟩
    split at h
    · contradiction
    · rename_i v' r hq
      injection h with h
      obtain ⟨rfl, rfl⟩ := Prod.mk.inj h
      exact ⟨r, hq, rfl⟩

/-- The state with other queue registers. -/
def State.withQueues (s : State) (q : Vector (List Word) 8) : State := { s with hart := { s.hart with q := q } }

/-- The state from which a word with a scalar operand goes on differs from `s` in a queue register at most. -/
theorem State.operand_queues {s s0 : State} {b : Reg} {v : Word} (h : s.operand b = some (v, s0)) :
    ∃ q, s0 = s.withQueues q := by
  obtain ⟨hx, hq⟩ := State.operand_eq h
  by_cases hb : b.toNat < 24
  · exact ⟨s.hart.q, (hx hb).2⟩
  · obtain ⟨r, -, hs⟩ := hq (by omega)
    exact ⟨_, hs⟩

/-- The x operand x[VB] that travels with a word of the vector families. -/
theorem captureOps_xb (h : Hart) {w : IWord} (hm : wMaj w < 0x30) : (captureOps h w).2.1 = h.get (BitVec.ofNat 5 (wB w)) := by
  unfold captureOps
  simp only []
  split <;> first | omega | rfl

/-- A word that its body leaves waiting stands at the head of the vector queue, alone. -/
theorem exec_waits {s : State} {i : Instr} {body : Body} {w : Wait} (h : TakesAtOnce s i) (hx : exec i s = vissue (encode i) body s)
    (hb : ∀ c, body (entryAt s.hart (encode i)) (s.past c) = .block w (entryAt s.hart (encode i)) (s.past c)) :
    ∃ u, exec i s = .next u ∧ WaitsQueued s u i := by
  obtain ⟨c, hexec⟩ := exec_atOnce h hx
  rw [hb] at hexec
  obtain ⟨-, -, hvq, -⟩ := h
  refine ⟨_, hexec, rfl, ⟨entryAt s.hart (encode i), ?_, rfl, rfl⟩, rfl, fun _ => rfl, ?_, fun _ => rfl⟩
  · show _ :: s.hart.vs.vq = _
    rw [hvq]
  · exact ⟨rfl, rfl, rfl, rfl, rfl, rfl, rfl, rfl, rfl, rfl, rfl, rfl, rfl, rfl, rfl, rfl, rfl⟩

/-- A word whose second operand is an immediate, or which has none (R146). -/
theorem exec_withY_imm {s : State} {i : Instr} {body : Body} {cont : VT → (Nat → Nat) → Body} {y : VT → Nat} {g : Bool} (h : TakesAtOnce s i)
    (hx : exec i s = vissue (encode i) body s)
    (hb : ∀ t, body (entryAt s.hart (encode i)) t = withY (entryAt s.hart (encode i)) t g (some (y t.hart.vt)) (cont t.hart.vt)) :
    ∃ c e, e.Of s (encode i) ∧ exec i s = .next (cont s.hart.vt (fun _ => y s.hart.vt) e (s.past c)).state := by
  obtain ⟨c, hexec⟩ := exec_atOnce h hx
  refine ⟨c, _, entryAt_of s _, ?_⟩
  rw [hexec, hb]
  rfl

section
variable {s : State} {i : Instr} {body : Body} {m : BitVec 6} {d a b : Reg} {k : BitVec 3} {f : BitVec 6}
variable (h : TakesAtOnce s i) (hx : exec i s = vissue (encode i) body s) (hf : VFields (encode i) m d a b k f)
include h hx hf

/-- A word with a scalar operand goes on with its value. -/
theorem exec_withS {cont : State → Word → Body} (hm : m.toNat < 0x30)
    (hb : ∀ c, body (entryAt s.hart (encode i)) (s.past c) = withS (entryAt s.hart (encode i)) (s.past c) (cont (s.past c)))
    {v : Word} {s0 : State} (ho : s.operand b = some (v, s0)) :
    ∃ c e, e.Of s (encode i) ∧ exec i s = .next (cont (s.past c) v e (s0.past c)).state := by
  obtain ⟨c, hexec⟩ := exec_atOnce h hx
  obtain ⟨hxreg, hqueue⟩ := State.operand_eq ho
  have hwB : wB (entryAt s.hart (encode i)).word = b.toNat := hf.wB_eq
  rw [hexec, hb, withS]
  simp only [hwB]
  by_cases h24 : b.toNat < 24
  · obtain ⟨rfl, rfl⟩ := hxreg h24
    have hxb : (entryAt s0.hart (encode i)).xb = s0.get b := by
      show (captureOps s0.hart (encode i)).2.1 = _
      rw [captureOps_xb _ (by rw [hf.wMaj_eq]; exact hm), hf.wB_eq, BitVec.ofNat_toNat, BitVec.setWidth_eq]
      rfl
    rw [if_pos h24, hxb]
    exact ⟨c, _, entryAt_of s0 _, rfl⟩
  · obtain ⟨r, hq, rfl⟩ := hqueue (by omega)
    have hq' : (s.past c).hart.queue (b.toNat - 24) = v :: r := hq
    rw [if_neg h24, hq']
    exact ⟨c, _, ⟨rfl, rfl, rfl⟩, rfl⟩

/-- A word whose queue operand is empty waits at the head of the vector queue. -/
theorem exec_withS_waits {cont : State → Word → Body}
    (hb : ∀ c, body (entryAt s.hart (encode i)) (s.past c) = withS (entryAt s.hart (encode i)) (s.past c) (cont (s.past c)))
    (ho : s.operand b = none) :
    ∃ u, exec i s = .next u ∧ WaitsQueued s u i := by
  refine exec_waits (w := .queueReg) h hx fun c => ?_
  have hwB : wB (entryAt s.hart (encode i)).word = b.toNat := hf.wB_eq
  unfold State.operand at ho
  by_cases h24 : b.toNat < 24
  · rw [if_pos h24] at ho
    contradiction
  · rw [if_neg h24] at ho
    have hq : (s.past c).hart.queue (b.toNat - 24) = [] := by
      show s.hart.queue (b.toNat - 24) = []
      split at ho
      · assumption
      · contradiction
    rw [hb, withS]
    simp only [hwB, if_neg h24, hq]
    rfl

/-- A word whose second operand is a register group (R146). -/
theorem exec_withY_group {cont : VT → (Nat → Nat) → Body}
    (hb : ∀ t, body (entryAt s.hart (encode i)) t = withY (entryAt s.hart (encode i)) t true none (cont t.hart.vt)) :
    ∃ c e, e.Of s (encode i) ∧ exec i s = .next (cont s.hart.vt (s.elem b) e (s.past c)).state := by
  obtain ⟨c, hexec⟩ := exec_atOnce h hx
  have hwB : wB (entryAt s.hart (encode i)).word = b.toNat := hf.wB_eq
  refine ⟨c, _, entryAt_of s _, ?_⟩
  rw [hexec, hb, withY]
  simp only [hwB, if_true]
  rfl

/-- A word whose second operand is a scalar (R72, R146). -/
theorem exec_withY_scalar {cont : VT → (Nat → Nat) → Body} (hm : m.toNat < 0x30)
    (hb : ∀ t, body (entryAt s.hart (encode i)) t = withY (entryAt s.hart (encode i)) t false none (cont t.hart.vt))
    {v : Word} {s0 : State} (ho : s.operand b = some (v, s0)) :
    ∃ c e, e.Of s (encode i) ∧ exec i s = .next (cont s.hart.vt (fun _ => v.toNat % 2 ^ s.hart.vt.ew) e (s0.past c)).state :=
  exec_withS (cont := fun t v => cont t.hart.vt fun _ => v.toNat % 2 ^ t.hart.vt.ew) h hx hf hm (fun _ => hb _) ho

/-- A word whose scalar operand is in an empty queue register waits. -/
theorem exec_withY_waits {cont : VT → (Nat → Nat) → Body}
    (hb : ∀ t, body (entryAt s.hart (encode i)) t = withY (entryAt s.hart (encode i)) t false none (cont t.hart.vt))
    (ho : s.operand b = none) : ∃ u, exec i s = .next u ∧ WaitsQueued s u i :=
  exec_withS_waits (cont := fun t v => cont t.hart.vt fun _ => v.toNat % 2 ^ t.hart.vt.ew) h hx hf (fun _ => hb _) ho
end

end Sys2Proof.Machine
end

section
/-! PROOFS. Vector words (06), part 2: a trap of the vector stream (R24), register groups read and written (R7), and the loop over elements
(R140, R143). -/
namespace Sys2Proof.Machine

/-! ### A trap of the vector stream (R24, R143) -/

/-- The state `t` inside a word of `s` that writes vector, header, mask and queue registers and records events. -/
def VectorWork (s t : State) : Prop :=
  t = { s with hart := { s.hart with
    v := t.hart.v, hdr := t.hart.hdr, k := t.hart.k, q := t.hart.q, fl := t.hart.fl
    pc := s.hart.pc + 4, wait := none, restart := none, vs := { s.hart.vs with conv := t.hart.vs.conv } } }

/-- The registers of a hart that a vector word writes are those of another state. -/
def SameVector (t u : State) : Prop :=
  u.hart.v = t.hart.v ∧ u.hart.hdr = t.hart.hdr ∧ u.hart.k = t.hart.k ∧ u.hart.q = t.hart.q ∧ u.hart.vr = t.hart.vr ∧ u.hart.fl = t.hart.fl

/-- A trap at check 6 of a handled cause that is no page fault (R24). -/
theorem parkTrap_results {s t : State} {e : VEntry} {i : Instr} {x : Cause} {j : Nat} (ht : VectorWork s t) (he : e.Of s (encode i))
    (hh : Handles s x) (hx : x.isPageFault = false) :
    TrappedAt s (parkTrap e e.kept x (e.word.setWidth 64) j t) i x j ∧ SameVector t (parkTrap e e.kept x (e.word.setWidth 64) j t) := by
  obtain ⟨hin, hun⟩ := hh
  have hgo : ((t.parking e e.kept).hart.inHandler || unhandled ((t.parking e e.kept).descOf (t.parking e e.kept).hart) x) = false := by
    rw [ht]
    show (s.hart.inHandler || unhandled (s.descOf s.hart) x) = false
    rw [hin, hun]
    rfl
  have htr : t.hart.tr = s.hart.tr := by rw [ht]
  have hpc : t.hart.pc = s.hart.pc + 4 := by rw [ht]
  rw [parkTrap_eq]
  constructor
  · refine ⟨?_, ?_, ?_, ?_, ?_, ?_, fun r => ?_, fun k => ?_⟩
    · rw [takeTrap_tr, trapRegs_tcause_some]
    · rw [takeTrap_tr, trapRegs_tpc, he.pc]
    · rw [takeTrap_tr, trapRegs_eri]
    · rw [takeTrap_tr, trapRegs_tval, he.word]
    · rw [takeTrap_tr, trapRegs_tnpc, hpc]
      rfl
    · rw [takeTrap_pc, hgo]
      exact congrArg TrapRegs.tvec htr
    · rw [takeTrap_get, ht]
      rfl
    · refine (State.byte_of_mem (takeTrap_mem ..) (by rw [takeTrap_sys _ _ _ _ _ _ (.inl hx)]) k).trans ?_
      rw [ht]
      rfl
  · have hh := takeTrap_hart x (e.word.setWidth 64) e.pc j (some t.hart.pc) (t.parking e e.kept)
    unfold SameVector
    rw [hh]
    exact ⟨rfl, rfl, rfl, rfl, rfl, rfl⟩

theorem SameVector.elem {t u : State} (h : SameVector t u) (r : Reg) (e : Nat) : u.elem r e = t.elem r e := by
  obtain ⟨hv, -, -, -, hvr, -⟩ := h
  unfold State.elem Hart.vt Hart.group Hart.vreg
  rw [hv, hvr]

theorem SameVector.kreg {t u : State} (h : SameVector t u) (n : Nat) : u.hart.kreg n = t.hart.kreg n := by
  obtain ⟨-, -, hk, -⟩ := h
  unfold Hart.kreg
  rw [hk]

theorem SameVector.fl {t u : State} (h : SameVector t u) : u.hart.fl = t.hart.fl := by
  obtain ⟨-, -, -, -, -, hfl⟩ := h
  exact hfl

/-- A change of a hart's vector, header and mask registers and of its event registers alone. -/
def WritesVector (g : Hart → Hart) : Prop := ∀ h, g h = { h with v := (g h).v, hdr := (g h).hdr, k := (g h).k, fl := (g h).fl }

/-- The hart with events recorded. -/
def Hart.recorded (h : Hart) (pc : Word) (evs : List (Nat × Ev)) : Hart := { h with fl := recordEvs evs pc h.fl }

theorem Hart.recorded_v (h : Hart) (pc : Word) (evs : List (Nat × Ev)) : (h.recorded pc evs).v = h.v := rfl
theorem Hart.recorded_hdr (h : Hart) (pc : Word) (evs : List (Nat × Ev)) : (h.recorded pc evs).hdr = h.hdr := rfl
theorem Hart.recorded_k (h : Hart) (pc : Word) (evs : List (Nat × Ev)) : (h.recorded pc evs).k = h.k := rfl
theorem Hart.recorded_group (h : Hart) (pc : Word) (evs : List (Nat × Ev)) (b n : Nat) : (h.recorded pc evs).group b n = h.group b n := rfl

theorem WritesVector.comp {f g : Hart → Hart} (hf : WritesVector f) (hg : WritesVector g) : WritesVector fun h => f (g h) := by
  intro h
  simp only []
  rw [hf (g h), hg h]

theorem WritesVector.recorded {g : Hart → Hart} (hg : WritesVector g) {pc : Word} {evs : List (Nat × Ev)} :
    WritesVector fun h => (g h).recorded pc evs := WritesVector.comp (f := fun h => h.recorded pc evs) (fun _ => rfl) hg

section
variable {s : State} {c : Convoy} {g : Hart → Hart} (hg : WritesVector g)
include hg

/-- A word that changes vector and header registers and records events, past its operands. -/
theorem vectorOnly_onHart {d : Reg} {n : Nat} (hk : (g (s.past c).hart).k = s.hart.k)
    (hother : ∀ r : Fin 32, r.val < d.toNat ∨ d.toNat + n ≤ r.val →
      (g (s.past c).hart).v.get r = s.hart.v.get r ∧ (g (s.past c).hart).hdr.get r = s.hart.hdr.get r) :
    VectorOnly s ((s.past c).onHart g) d n := by
  refine ⟨?_, hother⟩
  unfold State.onHart
  rw [hg, hk]
  rfl

/-- The same of a word that writes mask registers too, these aside. -/
theorem vectorOnly_unmasked {d : Reg} {n : Nat} (hother : ∀ r : Fin 32, r.val < d.toNat ∨ d.toNat + n ≤ r.val →
      (g (s.past c).hart).v.get r = s.hart.v.get r ∧ (g (s.past c).hart).hdr.get r = s.hart.hdr.get r) :
    VectorOnly s { (s.past c).onHart g with hart := { g (s.past c).hart with k := s.hart.k } } d n := by
  refine ⟨?_, hother⟩
  unfold State.onHart
  rw [hg]
  rfl

theorem vectorOnly_recorded {d : Reg} {n : Nat} {pc : Word} {evs : List (Nat × Ev)} (hk : (g (s.past c).hart).k = s.hart.k)
    (hother : ∀ r : Fin 32, r.val < d.toNat ∨ d.toNat + n ≤ r.val →
      (g (s.past c).hart).v.get r = s.hart.v.get r ∧ (g (s.past c).hart).hdr.get r = s.hart.hdr.get r) :
    VectorOnly s ((s.past c).onHart fun h => (g h).recorded pc evs) d n := by
  refine vectorOnly_onHart hg.recorded ?_ fun r hr => ?_
  · rw [Hart.recorded_k, hk]
  · rw [Hart.recorded_v, Hart.recorded_hdr]
    exact hother r hr

/-- The same of a word that goes on to trap. -/
theorem vectorWork_onHart {q : Vector (List Word) 8} : VectorWork s (((s.withQueues q).past c).onHart g) := by
  unfold VectorWork State.onHart
  rw [hg]
  rfl

theorem WritesVector.vt (h : Hart) : (g h).vt = h.vt := by
  have hvr : (g h).vr = h.vr := by rw [hg]
  unfold Hart.vt
  rw [hvr]

theorem elem_onHart (d : Reg) (j : Nat) : ((s.past c).onHart g).elem d j =
    elemOf ((g (s.past c).hart).group d.toNat s.hart.vt.g) s.hart.vt.ew j := by
  show elemOf ((g (s.past c).hart).group d.toNat (g (s.past c).hart).vt.g) (g (s.past c).hart).vt.ew j = _
  rw [hg.vt]
  rfl
end

theorem VEntry.Of.ofQueues {e : VEntry} {s : State} {q : Vector (List Word) 8} {w : IWord} (h : e.Of (s.withQueues q) w) : e.Of s w :=
  ⟨h.word, h.pc, h.start⟩

/-! ### Register groups (R7) -/

theorem elemOf_lt (g w e : Nat) : elemOf g w e < 2 ^ w := Nat.mod_lt _ (Nat.two_pow_pos w)

@[simp] theorem elemOf_mod (g w e : Nat) : elemOf g w e % 2 ^ w = elemOf g w e := Nat.mod_eq_of_lt (elemOf_lt g w e)

theorem State.elem_lt (s : State) (r : Reg) (e : Nat) : s.elem r e < 2 ^ s.hart.vt.ew := elemOf_lt _ _ _

theorem vtG_mem (v : Word) : vtG v ∈ [1, 2, 4, 8] := by
  have h : bitsOf v.toNat 7 6 < 4 := Nat.mod_lt _ (by decide)
  unfold vtG
  interval_cases bitsOf v.toNat 7 6 <;> decide

/-- A group whose base is a multiple of its size lies within the registers. -/
theorem base_fits {d n : Nat} (hd : d < 32) (hn : n ∈ [1, 2, 4, 8]) (hb : isBase d n = true) : d + n ≤ 32 := by
  have h0 : d % n = 0 := by simpa [isBase] using hb
  simp only [List.mem_cons, List.not_mem_nil, or_false] at hn
  rcases hn with rfl | rfl | rfl | rfl <;> omega

/-- The elements of a type fit its group. -/
theorem vlmax_fits (h : Hart) : h.vt.ew * h.vt.vlmax ≤ 512 * h.vr.quads * h.vt.g := by
  have hle : h.vt.vlmax ≤ 512 * h.vr.quads * h.vt.g / h.vt.ew := Nat.min_le_right _ _
  calc h.vt.ew * h.vt.vlmax ≤ h.vt.ew * (512 * h.vr.quads * h.vt.g / h.vt.ew) := Nat.mul_le_mul_left _ hle
    _ ≤ _ := Nat.mul_div_le _ _

/-- Elements written to a group are read back. -/
theorem elemOf_group_putGroup {h : Hart} {d n w cnt : Nat} (f : Nat → Nat) (hfit : d + n ≤ 32) (hq : h.vr.quads ≤ 8)
    (hw : w * cnt ≤ 512 * h.vr.quads * n) {i : Nat} (hi : i < cnt) :
    elemOf ((h.putGroup d n (joinNat w f cnt)).group d n) w i = f i % 2 ^ w := by
  rw [Hart.group_putGroup h d n _ hfit hq (lt_of_lt_of_le (joinNat_lt w f cnt) (Nat.pow_le_pow_right (by omega) hw)),
    elemOf_joinNat w f cnt i hi]

/-! ### Active elements (R12, R57) -/

/-- The active elements of a word with mask field `k`. -/
def State.isActive (s : State) (k : BitVec 3) (e : Nat) : Bool := s.hart.active k e

theorem State.isActive_eq (s : State) (k : BitVec 3) (e : Nat) : s.isActive k e = (decide (e < s.hart.vr.vl) && s.hart.maskBit k e) := rfl

theorem State.mem_actives (s : State) (k : BitVec 3) (e : Nat) : e ∈ s.actives k ↔ e < s.hart.vr.vl ∧ s.hart.maskBit k e = true := by
  simp [State.actives]

theorem State.mem_actives_iff (s : State) (k : BitVec 3) (e : Nat) : e ∈ s.actives k ↔ s.isActive k e = true := by
  rw [State.mem_actives, State.isActive_eq]
  simp

/-- The active elements below a bound. -/
theorem State.actives_below (s : State) (k : BitVec 3) {n : Nat} (hn : n ≤ s.hart.vr.vl) :
    (s.actives k).filter (· < n) = (List.range n).filter (s.isActive k) := by
  have hsplit : List.range s.hart.vr.vl = List.range n ++ (List.range (s.hart.vr.vl - n)).map (n + ·) := by
    rw [← List.range_add]
    congr 1
    omega
  unfold State.actives
  rw [hsplit, List.filter_append, List.filter_append, List.filter_filter, List.filter_filter]
  have hlow : ∀ e ∈ List.range n, (decide (e < n) && s.hart.maskBit k e) = s.isActive k e := by
    intro e he
    have := List.mem_range.1 he
    rw [State.isActive_eq, decide_eq_true this, decide_eq_true (by omega)]
  have hhigh : ((List.range (s.hart.vr.vl - n)).map (n + ·)).filter (fun e => decide (e < n) && s.hart.maskBit k e) = [] := by
    rw [List.filter_eq_nil_iff]
    intro e he
    obtain ⟨j, -, rfl⟩ := List.mem_map.1 he
    simp
  rw [List.filter_congr hlow, hhigh, List.append_nil]

theorem State.actives_eq (s : State) (k : BitVec 3) : s.actives k = (List.range s.hart.vr.vl).filter (s.isActive k) := by
  rw [← State.actives_below s k (Nat.le_refl _)]
  exact (List.filter_eq_self.2 fun e he => decide_eq_true ((s.mem_actives k e).1 he).1).symm

theorem State.actives_ascending (s : State) (k : BitVec 3) : (s.actives k).Pairwise (· < ·) := List.pairwise_lt_range.filter _

/-- The active elements as a word finds them by its mask field. -/
theorem activeOf_entry {s : State} {c : Convoy} {e : VEntry} {w : IWord} {m : BitVec 6} {d a b : Reg} {k : BitVec 3} {f : BitVec 6}
    (he : e.word = w) (hf : VFields w m d a b k f) : activeOf (s.past c) e = s.isActive k := by
  funext j
  rw [activeOf, he, hf.wK_eq, BitVec.ofNat_toNat, BitVec.setWidth_eq]
  rfl

/-! ### The loop over elements (R140, R143) -/

/-- The first value that a function gives along an ascending list. -/
theorem findSome_of_lowest {α : Type} {l : List Nat} (hl : l.Pairwise (· < ·)) {f : Nat → Option α} {j : Nat} {x : α} (hj : j ∈ l)
    (hf : f j = some x) (hlow : ∀ e ∈ l, e < j → f e = none) : l.findSome? f = some x := by
  obtain ⟨p, q, rfl⟩ := List.append_of_mem hj
  have hp : ∀ e ∈ p, e < j := fun e he => (List.pairwise_append.1 hl).2.2 e he j List.mem_cons_self
  rw [List.findSome?_append, List.findSome?_eq_none_iff.2 fun e he => hlow e (List.mem_append_left _ he) (hp e he), Option.none_or,
    List.findSome?_cons, hf]

/-- The events of the active elements below a bound, as a list. -/
theorem evsOf_eq (act : Nat → Bool) (ev : Nat → Ev) (n : Nat) :
    evsOf act ev 0 n = ((List.range n).filter act).map fun i => (i, ev i) := by
  unfold evsOf
  rw [Nat.sub_zero, ← List.range_eq_range']
  induction List.range n with
  | nil => rfl
  | cons i l ih =>
    cases ha : act i <;> simp [ha, ih]

theorem firstTrap_eq_none {s : State} {k : BitVec 3} {ev : Nat → Ev} (hq : Quiet s k ev) :
    firstTrap s.hart.fl.flags (s.isActive k) ev 0 s.hart.vr.vl = none := by
  unfold firstTrap
  rw [List.findSome?_eq_none_iff]
  intro e _
  split
  · rename_i ha
    rw [hq e ((s.mem_actives_iff k e).2 ha)]
    rfl
  · rfl

theorem firstTrap_eq_some {s : State} {k : BitVec 3} {ev : Nat → Ev} {j : Nat} {x : Cause} (hr : RaisesAt s k ev j x) :
    firstTrap s.hart.fl.flags (s.isActive k) ev 0 s.hart.vr.vl = some (j, x) := by
  obtain ⟨hj, htrap, hlow⟩ := hr
  have hvl := ((s.mem_actives k j).1 hj).1
  refine findSome_of_lowest (List.pairwise_lt_range' ..) (j := j) ?_ ?_ fun e _ hlt => ?_
  · rw [List.mem_range'_1]
    omega
  · rw [if_pos ((s.mem_actives_iff k j).1 hj), htrap]
    rfl
  · split
    · rename_i ha
      rw [hlow e ((s.mem_actives_iff k e).2 ha) hlt]
      rfl
    · rfl

/-- What a word whose loop over elements raises no enabled class leaves. -/
theorem elementwise_quiet {s : State} {e : VEntry} {k : BitVec 3} {ev : Nat → Ev} (put : Nat → Hart → Hart) (total : Nat)
    (he : e.start = 0) (hq : Quiet s k ev) :
    elementwise e (s.isActive k) ev s.hart.vr.vl put total s =
      .done (s.onHart fun h => (put total h).recorded e.pc ((s.actives k).map fun i => (i, ev i))) := by
  unfold elementwise
  rw [he, firstTrap_eq_none hq, evsOf_eq, State.actives_eq]
  rfl

/-- What a word whose loop over elements raises an enabled class leaves when it traps. -/
theorem elementwise_traps {s : State} {e : VEntry} {k : BitVec 3} {ev : Nat → Ev} {j : Nat} {x : Cause} (put : Nat → Hart → Hart) (total : Nat)
    (he : e.start = 0) (hr : RaisesAt s k ev j x) :
    elementwise e (s.isActive k) ev s.hart.vr.vl put total s = .trap e x (e.word.setWidth 64) j
      (s.onHart fun h => (put j h).recorded e.pc (((s.actives k).filter (· < j + 1)).map fun i => (i, ev i))) := by
  have hj := ((s.mem_actives k j).1 hr.1).1
  unfold elementwise
  rw [he, firstTrap_eq_some hr, State.actives_below s k (n := j + 1) hj, ← evsOf_eq]
  rfl

/-- An element of a destination below `stop` is what the policies make of it, and one above is as it was (R140, R143). -/
theorem elemOf_putElems {h : Hart} {d : Nat} (act : Nat → Bool) (val : Nat → Nat) (stop : Nat) (hfit : d + h.vt.g ≤ 32) (hq : h.vr.quads ≤ 8)
    {i : Nat} (hi : i < h.vt.vlmax) :
    elemOf ((putElems h.vt 0 d act val stop h).group d h.vt.g) h.vt.ew i =
      if i < stop then
        if act i then val i % 2 ^ h.vt.ew
        else if i < h.vr.vl then (if h.vt.mp then 0 else elemOf (h.group d h.vt.g) h.vt.ew i)
        else if h.vt.tp then 0 else elemOf (h.group d h.vt.g) h.vt.ew i
      else elemOf (h.group d h.vt.g) h.vt.ew i := by
  unfold putElems
  simp only []
  rw [elemOf_group_putGroup _ hfit hq (vlmax_fits h) hi]
  unfold policy
  rw [if_neg (Nat.not_lt_zero i)]
  have hvl : h.vt.vl = h.vr.vl := rfl
  rw [hvl]
  repeat' split
  all_goals simp

/-- R140 as the policies state it. -/
theorem ruled_eq (s : State) (d : Reg) (k : BitVec 3) (val : Nat → Nat) (i : Nat) : ruled s d k val i =
    if s.isActive k i then val i % 2 ^ s.hart.vt.ew
    else if i < s.hart.vr.vl then (if s.hart.vt.mp then 0 else s.elem d i) else if s.hart.vt.tp then 0 else s.elem d i := by
  unfold ruled
  rw [State.isActive_eq]
  by_cases hi : i < s.hart.vr.vl <;> simp [hi]

/-- The destination of a word that wrote its elements below `stop`. -/
theorem State.elem_putElems {s : State} {d : Reg} {k : BitVec 3} {val : Nat → Nat} {stop : Nat} (hfit : d.toNat + s.hart.vt.g ≤ 32)
    (hq : s.hart.vr.quads ≤ 8) {j : Nat} (hj : j < s.hart.vt.vlmax) :
    elemOf ((putElems s.hart.vt 0 d.toNat (s.isActive k) val stop s.hart).group d.toNat s.hart.vt.g) s.hart.vt.ew j =
      if j < stop then ruled s d k val j else s.elem d j := by
  rw [elemOf_putElems _ _ _ hfit hq hj, ruled_eq]
  rfl

section
variable {t : VT} {start d : Nat} {act : Nat → Bool} {val : Nat → Nat} {stop : Nat} {h : Hart}

theorem putElems_frame : WritesVector (putElems t start d act val stop) := by
  intro h
  unfold putElems Hart.putGroup
  rfl
theorem putElems_k : (putElems t start d act val stop h).k = h.k := by
  unfold putElems Hart.putGroup
  rfl
theorem kreg_putElems (n : Nat) : (putElems t start d act val stop h).kreg n = h.kreg n := by
  unfold Hart.kreg
  rw [putElems_k]
theorem putElems_hdr : (putElems t start d act val stop h).hdr = h.hdr := by
  unfold putElems Hart.putGroup
  rfl
theorem putElems_fl : (putElems t start d act val stop h).fl = h.fl := by
  unfold putElems Hart.putGroup
  rfl
theorem putElems_other {r : Fin 32} (hr : r.val < d ∨ d + t.g ≤ r.val) : (putElems t start d act val stop h).v.get r = h.v.get r :=
  Hart.putGroup_other _ _ _ _ r hr
end

theorem ruled_congr {s : State} {d : Reg} {k : BitVec 3} {f g : Nat → Nat} {i : Nat} (h : f i % 2 ^ s.hart.vt.ew = g i % 2 ^ s.hart.vt.ew) :
    ruled s d k f i = ruled s d k g i := by
  unfold ruled
  rw [h]

/-! ### Words that write a destination element by element (R140) -/

/-- The word records the events of `r` and writes its values, from the state `s0` that its operands leave, when no enabled class is raised. -/
def Computes (s s0 : State) (i : Instr) (d : Reg) (k : BitVec 3) (r : Nat → Nat × Ev) : Prop :=
  Quiet s k (fun e => (r e).2) → ∃ u, exec i s = .next u ∧ Writes s u d k (fun e => (r e).1) ∧ VectorOnly s0 u d s.hart.vt.g ∧
    u.hart.fl = s.notes k fun e => (r e).2

/-- The word traps at the lowest element that raises an enabled class, the elements below it written (R143). -/
def Stops (s : State) (i : Instr) (d : Reg) (k : BitVec 3) (r : Nat → Nat × Ev) : Prop :=
  ∀ j x, Handles s x → RaisesAt s k (fun e => (r e).2) j x → ∃ u, exec i s = .next u ∧ TrappedAt s u i x j ∧
    u.hart.fl = s.notesTo k (fun e => (r e).2) (j + 1) ∧
    ∀ e, e < s.hart.vt.vlmax → u.elem d e = if e < j then ruled s d k (fun e => (r e).1) e else s.elem d e

/-- Results that agree modulo 2^EW are written alike. -/
theorem Computes.congr {s s0 : State} {i : Instr} {d : Reg} {k : BitVec 3} {r r' : Nat → Nat × Ev} (h : Computes s s0 i d k r)
    (hr : ∀ e, (r e).1 % 2 ^ s.hart.vt.ew = (r' e).1 % 2 ^ s.hart.vt.ew ∧ (r e).2 = (r' e).2) : Computes s s0 i d k r' := by
  have hev : (fun e => (r e).2) = fun e => (r' e).2 := funext fun e => (hr e).2
  intro hq
  rw [← hev] at hq ⊢
  obtain ⟨u, hexec, hw, hrest⟩ := h hq
  exact ⟨u, hexec, fun e he => (hw e he).trans (ruled_congr (hr e).1), hrest⟩

theorem Stops.congr {s : State} {i : Instr} {d : Reg} {k : BitVec 3} {r r' : Nat → Nat × Ev} (h : Stops s i d k r)
    (hr : ∀ e, (r e).1 % 2 ^ s.hart.vt.ew = (r' e).1 % 2 ^ s.hart.vt.ew ∧ (r e).2 = (r' e).2) : Stops s i d k r' := by
  have hev : (fun e => (r e).2) = fun e => (r' e).2 := funext fun e => (hr e).2
  intro j x hh hraise
  rw [← hev] at hraise ⊢
  obtain ⟨u, hexec, htrap, hfl, hel⟩ := h j x hh hraise
  refine ⟨u, hexec, htrap, hfl, fun e he => (hel e he).trans ?_⟩
  rw [ruled_congr (g := fun e => (r' e).1) (hr e).1]

/-- An operation on A[e], y e and D[e], element by element. -/
def opElems (op : VT → Nat → Nat → Nat → Nat × Ev) (t : VT) (y : Nat → Nat) : Body := fun e s =>
  let a := s.hart.group (wA e.word) t.g
  let d := s.hart.group (wD e.word) t.g
  let r := fun i => op t (elemOf a t.ew i) (y i) (elemOf d t.ew i)
  vecElems e s (activeOf s e) (fun i => (r i).1) (fun i => (r i).2)

section
variable {s s0 : State} {i : Instr} {m : BitVec 6} {d a b : Reg} {k : BitVec 3} {f : BitVec 6} {op : VT → Nat → Nat → Nat → Nat × Ev}
variable {y : Nat → Nat} {e : VEntry} {c : Convoy}

/-- The values and events of an operation. -/
def opResult (op : VT → Nat → Nat → Nat → Nat × Ev) (s : State) (d a : Reg) (y : Nat → Nat) (e : Nat) : Nat × Ev :=
  op s.hart.vt (s.elem a e) (y e) (s.elem d e)

theorem opElems_eq (he : e.Of s (encode i)) (hf : VFields (encode i) m d a b k f) : opElems op s.hart.vt y e (s.past c) =
    elementwise e ((s.past c).isActive k) (fun j => (opResult op s d a y j).2) (s.past c).hart.vr.vl
      (putElems s.hart.vt 0 d.toNat ((s.past c).isActive k) (fun j => (opResult op s d a y j).1)) s.hart.vt.vlmax (s.past c) := by
  have hact : activeOf (s.past c) e = (s.past c).isActive k := activeOf_entry he.word hf
  unfold opElems vecElems
  simp only []
  rw [hact, he.word, hf.wA_eq, hf.wD_eq, he.start]
  rfl

/-- What an element-wise word does, past its operands. -/
theorem opElems_computes {q : Vector (List Word) 8} (hexec : exec i s = .next (opElems op s.hart.vt y e ((s.withQueues q).past c)).state)
    (he : e.Of (s.withQueues q) (encode i)) (hf : VFields (encode i) m d a b k f) (hfit : d.toNat + s.hart.vt.g ≤ 32)
    (hquads : s.hart.vr.quads ≤ 8) : Computes s (s.withQueues q) i d k (opResult op s d a y) := by
  intro hq
  change exec i s = .next (opElems op (s.withQueues q).hart.vt y e ((s.withQueues q).past c)).state at hexec
  have hquiet : Quiet ((s.withQueues q).past c) k (fun j => (opResult op (s.withQueues q) d a y j).2) := hq
  rw [opElems_eq (s := s.withQueues q) he hf, elementwise_quiet _ _ he.start hquiet, he.pc, VOut.state_done] at hexec
  refine ⟨_, hexec, fun j hj => ?_, ?_, ?_⟩
  · rw [elem_onHart putElems_frame.recorded, Hart.recorded_group]
    exact (State.elem_putElems (s := (s.withQueues q).past c) hfit hquads hj).trans (if_pos hj)
  · exact vectorOnly_recorded putElems_frame putElems_k fun r hr => ⟨putElems_other hr, congrArg (·.get r) putElems_hdr⟩
  · exact congrArg (recordEvs _ _) putElems_fl

/-- Where an element-wise word traps, and what it leaves. -/
theorem opElems_stops {q : Vector (List Word) 8} (hexec : exec i s = .next (opElems op s.hart.vt y e ((s.withQueues q).past c)).state)
    (he : e.Of (s.withQueues q) (encode i)) (hf : VFields (encode i) m d a b k f) (hfit : d.toNat + s.hart.vt.g ≤ 32)
    (hquads : s.hart.vr.quads ≤ 8) : Stops s i d k (opResult op s d a y) := by
  intro j x hh hr
  change exec i s = .next (opElems op (s.withQueues q).hart.vt y e ((s.withQueues q).past c)).state at hexec
  have hraise : RaisesAt ((s.withQueues q).past c) k (fun j => (opResult op (s.withQueues q) d a y j).2) j x := hr
  rw [opElems_eq (s := s.withQueues q) he hf, elementwise_traps _ _ he.start hraise, he.pc, VOut.state_trap] at hexec
  obtain ⟨htrap, hsame⟩ := parkTrap_results (j := j) (vectorWork_onHart putElems_frame.recorded) (he.ofQueues) hh (Ev.trap_not_pageFault hr.2.1)
  refine ⟨_, hexec, htrap, hsame.fl.trans (congrArg (recordEvs _ _) putElems_fl), fun l hl => ?_⟩
  rw [hsame.elem, elem_onHart putElems_frame.recorded, Hart.recorded_group]
  exact State.elem_putElems (s := (s.withQueues q).past c) hfit hquads hl

/-- An element-wise word taken at once: what it computes, and where it traps. -/
def Elementwise (s s0 : State) (i : Instr) (d : Reg) (k : BitVec 3) (r : Nat → Nat × Ev) : Prop := Computes s s0 i d k r ∧ Stops s i d k r

/-- The base of the destination's group (R7, R79). -/
theorem TakesAtOnce.destination (h : TakesAtOnce s i) (hf : VFields (encode i) m d a b k f)
    (hm : m.toNat ∈ [0x21, 0x22, 0x23, 0x24, 0x25, 0x28] ∨ (m.toNat = 0x2F ∧ f.toNat ≤ 1)) : d.toNat + s.hart.vt.g ≤ 32 := by
  have hbase := familyOk_destination (typeBad_eq_none h.typed).2 (by rw [hf.wMaj_eq, hf.wFn_eq]; exact hm)
  rw [hf.wD_eq] at hbase
  exact base_fits d.isLt (vtG_mem _) hbase

theorem TakesAtOnce.quads (h : TakesAtOnce s i) : s.hart.vr.quads ≤ 8 := by
  obtain ⟨-, -, -, -, -, hq, -⟩ := h
  exact hq

variable {body : Body} (h : TakesAtOnce s i) (hx : exec i s = vissue (encode i) body s) (hf : VFields (encode i) m d a b k f)
variable (hm : m.toNat ∈ [0x21, 0x22, 0x23, 0x24, 0x25, 0x28])
include h hx hf hm

theorem elementwise_group
    (hb : ∀ t, body (entryAt s.hart (encode i)) t = withY (entryAt s.hart (encode i)) t true none (opElems op t.hart.vt)) :
    Elementwise s s i d k (opResult op s d a (s.elem b)) := by
  obtain ⟨c, e, he, hexec⟩ := exec_withY_group h hx hf hb
  have hfit := h.destination hf (.inl hm)
  exact ⟨opElems_computes (q := s.hart.q) hexec he hf hfit h.quads, opElems_stops (q := s.hart.q) hexec he hf hfit h.quads⟩

theorem elementwise_imm {y : VT → Nat} {g : Bool}
    (hb : ∀ t, body (entryAt s.hart (encode i)) t = withY (entryAt s.hart (encode i)) t g (some (y t.hart.vt)) (opElems op t.hart.vt)) :
    Elementwise s s i d k (opResult op s d a fun _ => y s.hart.vt) := by
  obtain ⟨c, e, he, hexec⟩ := exec_withY_imm h hx hb
  have hfit := h.destination hf (.inl hm)
  exact ⟨opElems_computes (q := s.hart.q) hexec he hf hfit h.quads, opElems_stops (q := s.hart.q) hexec he hf hfit h.quads⟩

theorem elementwise_scalar
    (hb : ∀ t, body (entryAt s.hart (encode i)) t = withY (entryAt s.hart (encode i)) t false none (opElems op t.hart.vt))
    {v : Word} {s0 : State} (ho : s.operand b = some (v, s0)) :
    Elementwise s s0 i d k (opResult op s d a fun _ => v.toNat % 2 ^ s.hart.vt.ew) := by
  have hlow : m.toNat < 0x30 := by
    simp only [List.mem_cons, List.not_mem_nil, or_false] at hm
    omega
  obtain ⟨c, e, he, hexec⟩ := exec_withY_scalar h hx hf hlow hb ho
  have hfit := h.destination hf (.inl hm)
  obtain ⟨q, rfl⟩ := State.operand_queues ho
  have heq : e.Of (s.withQueues q) (encode i) := ⟨he.word, he.pc, he.start⟩
  exact ⟨opElems_computes hexec heq hf hfit h.quads, opElems_stops hexec heq hf hfit h.quads⟩

end

end Sys2Proof.Machine
end

section
/-! PROOFS. Vector words (06), part 3: integer arithmetic (R146). -/
namespace Sys2Proof.Machine

/-! ### The words of an operation (R63, R146) -/

/-- The function code of an operation. -/
def IOp.code : IOp → BitVec 6
  | .add => 0 | .sub => 1 | .rsub => 2 | .mul => 3 | .mulh => 4 | .macc => 5 | .min => 6 | .max => 7 | .and => 8 | .or => 9 | .xor => 10
  | .sll => 11 | .srl => 12 | .sra => 13 | .sadd => 16 | .ssub => 17

/-- The shifts take their immediate as unsigned. -/
def IOp.isShift : IOp → Bool
  | .sll | .srl | .sra => true
  | _ => false

section
variable (op : IOp) (d a b : Reg) (i : BitVec 5) (k : BitVec 3) (t c : Bool)

/-- The three words of an operation. -/
def vintVv : Instr := match op with
  | .add => .vaddVv d a b k t c | .sub => .vsubVv d a b k t c | .rsub => .vrsubVv d a b k t c | .mul => .vmulVv d a b k t c
  | .mulh => .vmulhVv d a b k t c | .macc => .vmaccVv d a b k t c | .min => .vminVv d a b k t c | .max => .vmaxVv d a b k t c
  | .and => .vandVv d a b k t c | .or => .vorVv d a b k t c | .xor => .vxorVv d a b k t c | .sll => .vsllVv d a b k t c
  | .srl => .vsrlVv d a b k t c | .sra => .vsraVv d a b k t c | .sadd => .vsaddVv d a b k t c | .ssub => .vssubVv d a b k t c
def vintVx : Instr := match op with
  | .add => .vaddVx d a b k t c | .sub => .vsubVx d a b k t c | .rsub => .vrsubVx d a b k t c | .mul => .vmulVx d a b k t c
  | .mulh => .vmulhVx d a b k t c | .macc => .vmaccVx d a b k t c | .min => .vminVx d a b k t c | .max => .vmaxVx d a b k t c
  | .and => .vandVx d a b k t c | .or => .vorVx d a b k t c | .xor => .vxorVx d a b k t c | .sll => .vsllVx d a b k t c
  | .srl => .vsrlVx d a b k t c | .sra => .vsraVx d a b k t c | .sadd => .vsaddVx d a b k t c | .ssub => .vssubVx d a b k t c
def vintVi : Instr := match op with
  | .add => .vaddVi d a i k t c | .sub => .vsubVi d a i k t c | .rsub => .vrsubVi d a i k t c | .mul => .vmulVi d a i k t c
  | .mulh => .vmulhVi d a i k t c | .macc => .vmaccVi d a i k t c | .min => .vminVi d a i k t c | .max => .vmaxVi d a i k t c
  | .and => .vandVi d a i k t c | .or => .vorVi d a i k t c | .xor => .vxorVi d a i k t c | .sll => .vsllVi d a i k t c
  | .srl => .vsrlVi d a i k t c | .sra => .vsraVi d a i k t c | .sadd => .vsaddVi d a i k t c | .ssub => .vssubVi d a i k t c

theorem fields_vintVv : VFields (encode (vintVv op d a b k t c)) 33#6 d a b k op.code := by
  cases op <;> exact fields_vword ..
theorem fields_vintVx : VFields (encode (vintVx op d a b k t c)) 34#6 d a b k op.code := by
  cases op <;> exact fields_vword ..
theorem fields_vintVi : VFields (encode (vintVi op d a i k t c)) 35#6 d a i k op.code := by
  cases op <;> exact fields_vword ..

theorem exec_vintVv (s : State) : exec (vintVv op d a b k t c) s = vissue (encode (vintVv op d a b k t c)) (vintBody op true none) s := by
  cases op <;> rfl
theorem exec_vintVx (s : State) : exec (vintVx op d a b k t c) s = vissue (encode (vintVx op d a b k t c)) (vintBody op false none) s := by
  cases op <;> rfl
theorem exec_vintVi (s : State) : exec (vintVi op d a i k t c) s =
    vissue (encode (vintVi op d a i k t c)) (vintBody op false (some (immY i op.isShift))) s := by
  cases op <;> rfl
end

/-- The operation of an element as the type state gives it. -/
def IOp.elem (op : IOp) (t : VT) : Nat → Nat → Nat → Nat × Ev := iop op t.isSigned t.ew

theorem vintBody_eq (op : IOp) (g : Bool) (imm : Option (VT → Nat)) (e : VEntry) (s : State) :
    vintBody op g imm e s = withY e s g (imm.map fun f => f s.hart.vt) (opElems op.elem s.hart.vt) := by
  unfold vintBody opElems IOp.elem
  rfl

section
variable {s : State} (op : IOp) {d a b : Reg} {i : BitVec 5} {k : BitVec 3} {t c : Bool}

theorem vintVv_elementwise (h : TakesAtOnce s (vintVv op d a b k t c)) :
    Elementwise s s (vintVv op d a b k t c) d k (opResult op.elem s d a (s.elem b)) :=
  elementwise_group h (exec_vintVv ..) (fields_vintVv ..) (by decide) fun _ => vintBody_eq ..

theorem vintVx_elementwise (h : TakesAtOnce s (vintVx op d a b k t c)) {v : Word} {s0 : State} (ho : s.operand b = some (v, s0)) :
    Elementwise s s0 (vintVx op d a b k t c) d k (opResult op.elem s d a fun _ => v.toNat % 2 ^ s.hart.vt.ew) :=
  elementwise_scalar h (exec_vintVx ..) (fields_vintVx ..) (by decide) (fun _ => vintBody_eq ..) ho

theorem vintVx_waits (h : TakesAtOnce s (vintVx op d a b k t c)) (ho : s.operand b = none) :
    ∃ u, exec (vintVx op d a b k t c) s = .next u ∧ WaitsQueued s u (vintVx op d a b k t c) :=
  exec_withY_waits h (exec_vintVx ..) (fields_vintVx ..) (fun _ => vintBody_eq ..) ho

theorem vintVi_elementwise (h : TakesAtOnce s (vintVi op d a i k t c)) :
    Elementwise s s (vintVi op d a i k t c) d k (opResult op.elem s d a fun _ => immY i op.isShift s.hart.vt) :=
  elementwise_imm (g := false) (y := immY i op.isShift) h (exec_vintVi ..) (fields_vintVi ..) (by decide) fun _ => vintBody_eq ..
end

/-! ### Results as the rows of R146 give them -/

/-- The value of an element in the class's reading, and the bounds of the class (R32, R33). -/
def readElem (sg : Bool) (w x : Nat) : Int := if sg then sextI x w else (x : Int)
def classLo (sg : Bool) (w : Nat) : Int := if sg then -(2 ^ (w - 1)) else 0
def classHi (sg : Bool) (w : Nat) : Int := if sg then 2 ^ (w - 1) - 1 else 2 ^ w - 1
/-- An exact result past the bounds. -/
def pastClass (sg : Bool) (w : Nat) (z : Int) : Bool := decide (z < classLo sg w) || decide (classHi sg w < z)
/-- The wrapping and the saturating result with their events (R32, R33). -/
def wrapResult (sg : Bool) (w : Nat) (z : Int) : Nat × Ev := ((z % 2 ^ w).toNat, { io := sg && pastClass sg w z })
def clampResult (sg : Bool) (w : Nat) (z : Int) : Nat × Ev :=
  (((if z < classLo sg w then classLo sg w else if classHi sg w < z then classHi sg w else z) % 2 ^ w).toNat, { sat := pastClass sg w z })

theorem readInt_eq_readElem {sg : Bool} {w x : Nat} (hx : x < 2 ^ w) : readInt sg x w = readElem sg w x := by
  unfold readInt readElem
  rw [Nat.mod_eq_of_lt hx]

theorem outside_eq_pastClass (sg : Bool) (w : Nat) (z : Int) : outside sg z w = pastClass sg w z := by
  have hle (p : Int) : decide (p - 1 < z) = decide (p ≤ z) := decide_eq_decide.2 (by omega)
  unfold outside pastClass classLo classHi
  cases sg <;> simp only [Bool.false_eq_true, if_false, if_true, hle]

theorem wrapping_eq (sg : Bool) (w : Nat) (z : Int) : wrapping sg z w = wrapResult sg w z := by
  unfold wrapping wrapResult
  cases sg with
  | false => rfl
  | true => rw [outside_eq_pastClass]; rfl

theorem saturating_eq (sg : Bool) (w : Nat) (z : Int) : (satInt sg z w, ({ sat := outside sg z w } : Ev)) = clampResult sg w z := by
  rw [outside_eq_pastClass]
  rfl

/-- The row of an operation: the exact result modulo 2^w or clamped, with its events (R146). -/
def IOp.row (op : IOp) (sg : Bool) (w x y z : Nat) : Nat × Ev :=
  let u := readElem sg w x
  let v := readElem sg w y
  match op with
  | .add => wrapResult sg w (u + v)
  | .sub => wrapResult sg w (u - v)
  | .rsub => wrapResult sg w (v - u)
  | .mul => wrapResult sg w (u * v)
  | .mulh => ((u * v / 2 ^ w % 2 ^ w).toNat, {})
  | .macc => wrapResult sg w (readElem sg w z + u * v)
  | .min => (if u ≤ v then x else y, {})
  | .max => (if u ≤ v then y else x, {})
  | .and => (x &&& y, {})
  | .or => (x ||| y, {})
  | .xor => (x ^^^ y, {})
  | .sll => (x * 2 ^ (y % w), {})
  | .srl => (x / 2 ^ (y % w), {})
  | .sra => ((sextI x w / 2 ^ (y % w) % 2 ^ w).toNat, {})
  | .sadd => clampResult sg w (u + v)
  | .ssub => clampResult sg w (u - v)

/-- An operation on elements of `w` bits gives its row's result modulo 2^w, and the row's events. -/
theorem iop_row (op : IOp) (sg : Bool) {w x y z : Nat} (hx : x < 2 ^ w) (hy : y < 2 ^ w) (hz : z < 2 ^ w) :
    (iop op sg w x y z).1 % 2 ^ w = (op.row sg w x y z).1 % 2 ^ w ∧ (iop op sg w x y z).2 = (op.row sg w x y z).2 := by
  cases op
  case sll => exact ⟨Nat.mod_mod .., rfl⟩
  all_goals
    simp only [iop, IOp.row, readInt_eq_readElem hx, readInt_eq_readElem hy, readInt_eq_readElem hz, wrapping_eq, saturating_eq, wrapInt, and_self]

/-- An immediate as an element (R62, R141). -/
theorem immY_lt (i : BitVec 5) (shift : Bool) (t : VT) : immY i shift t < 2 ^ t.ew := by
  unfold immY
  split
  · have hpos : (0 : Int) < 2 ^ t.ew := by positivity
    have hlt := Int.emod_lt_of_pos i.toInt hpos
    have hcast : ((2 ^ t.ew : Nat) : Int) = 2 ^ t.ew := by push_cast; rfl
    unfold wrapInt
    omega
  · exact Nat.mod_lt _ (Nat.two_pow_pos _)

/-- An operation of elements gives its row's results. -/
theorem Elementwise.ofRow {s s0 : State} {p : Instr} {op : IOp} {d a : Reg} {k : BitVec 3} {y : Nat → Nat}
    (h : Elementwise s s0 p d k (opResult op.elem s d a y)) (hy : ∀ e, y e < 2 ^ s.hart.vt.ew) :
    Elementwise s s0 p d k fun e => op.row s.hart.vt.isSigned s.hart.vt.ew (s.elem a e) (y e) (s.elem d e) := by
  have hr := fun e => iop_row op s.hart.vt.isSigned (s.elem_lt a e) (hy e) (s.elem_lt d e)
  exact ⟨h.1.congr hr, h.2.congr hr⟩

section
variable {s : State} (op : IOp) {d a b : Reg} {i : BitVec 5} {k : BitVec 3} {t c : Bool}

theorem vintVv_row (h : TakesAtOnce s (vintVv op d a b k t c)) : Elementwise s s (vintVv op d a b k t c) d k fun e =>
    op.row s.hart.vt.isSigned s.hart.vt.ew (s.elem a e) (s.elem b e) (s.elem d e) :=
  (vintVv_elementwise op h).ofRow fun e => s.elem_lt b e

theorem vintVx_row (h : TakesAtOnce s (vintVx op d a b k t c)) (v : Word) (s0 : State) (ho : s.operand b = some (v, s0)) :
    Elementwise s s0 (vintVx op d a b k t c) d k fun e =>
      op.row s.hart.vt.isSigned s.hart.vt.ew (s.elem a e) (v.toNat % 2 ^ s.hart.vt.ew) (s.elem d e) :=
  (vintVx_elementwise op h ho).ofRow fun _ => Nat.mod_lt _ (Nat.two_pow_pos _)

theorem vintVi_row (h : TakesAtOnce s (vintVi op d a i k t c)) : Elementwise s s (vintVi op d a i k t c) d k fun e =>
    op.row s.hart.vt.isSigned s.hart.vt.ew (s.elem a e) (immY i op.isShift s.hart.vt) (s.elem d e) :=
  (vintVi_elementwise op h).ofRow fun _ => immY_lt i _ _

/-- What the words of an operation compute: with a group, with a scalar, waiting for one, and with an immediate. -/
theorem vint_computes :
    (TakesAtOnce s (vintVv op d a b k t c) → Computes s s (vintVv op d a b k t c) d k fun e =>
      op.row s.hart.vt.isSigned s.hart.vt.ew (s.elem a e) (s.elem b e) (s.elem d e)) ∧
    (TakesAtOnce s (vintVx op d a b k t c) → ∀ v s0, s.operand b = some (v, s0) → Computes s s0 (vintVx op d a b k t c) d k fun e =>
      op.row s.hart.vt.isSigned s.hart.vt.ew (s.elem a e) (v.toNat % 2 ^ s.hart.vt.ew) (s.elem d e)) ∧
    (TakesAtOnce s (vintVx op d a b k t c) → s.operand b = none →
      ∃ u, exec (vintVx op d a b k t c) s = .next u ∧ WaitsQueued s u (vintVx op d a b k t c)) ∧
    (TakesAtOnce s (vintVi op d a i k t c) → Computes s s (vintVi op d a i k t c) d k fun e =>
      op.row s.hart.vt.isSigned s.hart.vt.ew (s.elem a e) (immY i op.isShift s.hart.vt) (s.elem d e)) :=
  ⟨fun h => (vintVv_row op h).1, fun h v s0 ho => (vintVx_row op h v s0 ho).1, vintVx_waits op, fun h => (vintVi_row op h).1⟩
end

/-- Settles O32: each row is an operation of the element loop, whose results are the row's modulo 2^EW. -/
theorem vectorIntegerResults : Obligations.VectorIntegerResults := by
  unfold Obligations.VectorIntegerResults
  intro s d a b i k t c
  simp only [List.forall_mem_cons, List.not_mem_nil, false_imp_iff, implies_true, and_true]
  exact ⟨vint_computes .add, vint_computes .sub, vint_computes .rsub, vint_computes .mul, vint_computes .mulh, vint_computes .macc,
    vint_computes .min, vint_computes .max, vint_computes .and, vint_computes .or, vint_computes .xor, vint_computes .sll,
    vint_computes .srl, vint_computes .sra, vint_computes .sadd, vint_computes .ssub⟩

end Sys2Proof.Machine
end

section
/-! PROOFS. Vector words (06), part 4: floating-point arithmetic (R148 to R150). -/
namespace Sys2Proof.Machine

/-- An operation of R148 in the element format and the rounding mode of the type state. -/
abbrev FOp := Fmt → RMode → Nat → Nat → Nat → Nat × Ev

/-- A VFP word reads the operand its fields name: a group, a scalar, or none. -/
theorem vfpBody_eq (op : FOp) (g : Bool) (e : VEntry) (s : State) : vfpBody op g e s =
    withY e s g (if bIsGroup e.word || wMaj e.word == 0x25 then none else some 0) (opElems (fun t => op t.fmt t.rm) s.hart.vt) := by
  unfold vfpBody opElems
  rfl

section
variable {w : IWord} {m : BitVec 6} {d a b : Reg} {k : BitVec 3} {f : BitVec 6} (hf : VFields w m d a b k f)
include hf

theorem vfp_hasGroup (hm : m = 36#6) (hfn : f.toNat ≠ 6 ∧ f.toNat ≠ 9 ∧ f.toNat ≠ 10) : bIsGroup w = true := by
  have hmaj : wMaj w = 0x24 := by rw [hf.wMaj_eq, hm]; rfl
  unfold bIsGroup
  rw [hmaj, hf.wFn_eq]
  simpa [and_assoc] using hfn

theorem vfp_hasNone (hm : m = 36#6) (hfn : f.toNat = 6 ∨ f.toNat = 9 ∨ f.toNat = 10) : (bIsGroup w || wMaj w == 0x25) = false := by
  have hmaj : wMaj w = 0x24 := by rw [hf.wMaj_eq, hm]; rfl
  unfold bIsGroup
  rw [hmaj, hf.wFn_eq]
  rcases hfn with h | h | h <;> simp [h]

theorem vfp_hasScalar (hm : m = 37#6) : (bIsGroup w || wMaj w == 0x25) = true := by
  have hmaj : wMaj w = 0x25 := by rw [hf.wMaj_eq, hm]; rfl
  simp [hmaj]
end

section
variable {s : State} {i : Instr} {d a b : Reg} {k : BitVec 3} {f : BitVec 6} (op : FOp) (h : TakesAtOnce s i)
include h

theorem vfp_group (hx : exec i s = vissue (encode i) (vfpBody op true) s) (hf : VFields (encode i) 36#6 d a b k f)
    (hfn : f.toNat ≠ 6 ∧ f.toNat ≠ 9 ∧ f.toNat ≠ 10) :
    Elementwise s s i d k fun e => op s.hart.vt.fmt s.hart.vt.rm (s.elem a e) (s.elem b e) (s.elem d e) := by
  refine elementwise_group (op := fun t => op t.fmt t.rm) h hx hf (by decide) fun t => ?_
  have hg : bIsGroup (entryAt s.hart (encode i)).word = true := vfp_hasGroup hf rfl hfn
  rw [vfpBody_eq, hg, Bool.true_or, if_pos rfl]

theorem vfp_scalar (hx : exec i s = vissue (encode i) (vfpBody op false) s) (hf : VFields (encode i) 37#6 d a b k f) (v : Word) (s0 : State)
    (ho : s.operand b = some (v, s0)) : Elementwise s s0 i d k fun e =>
      op s.hart.vt.fmt s.hart.vt.rm (s.elem a e) (v.toNat % 2 ^ s.hart.vt.ew) (s.elem d e) := by
  refine elementwise_scalar (op := fun t => op t.fmt t.rm) h hx hf (by decide) (fun t => ?_) ho
  have hg : (bIsGroup (entryAt s.hart (encode i)).word || wMaj (entryAt s.hart (encode i)).word == 0x25) = true := vfp_hasScalar hf rfl
  rw [vfpBody_eq, hg, if_pos rfl]

theorem vfp_waits (hx : exec i s = vissue (encode i) (vfpBody op false) s) (hf : VFields (encode i) 37#6 d a b k f) (ho : s.operand b = none) :
    ∃ u, exec i s = .next u ∧ WaitsQueued s u i := by
  refine exec_withY_waits (cont := opElems fun t => op t.fmt t.rm) h hx hf (fun t => ?_) ho
  have hg : (bIsGroup (entryAt s.hart (encode i)).word || wMaj (entryAt s.hart (encode i)).word == 0x25) = true := vfp_hasScalar hf rfl
  rw [vfpBody_eq, hg, if_pos rfl]

theorem vfp_unary (hx : exec i s = vissue (encode i) (vfpBody op false) s) (hf : VFields (encode i) 36#6 d a b k f)
    (hfn : f.toNat = 6 ∨ f.toNat = 9 ∨ f.toNat = 10) :
    Elementwise s s i d k fun e => op s.hart.vt.fmt s.hart.vt.rm (s.elem a e) 0 (s.elem d e) := by
  refine elementwise_imm (op := fun t => op t.fmt t.rm) (y := fun _ => 0) (g := false) h hx hf (by decide) fun t => ?_
  have hg : (bIsGroup (entryAt s.hart (encode i)).word || wMaj (entryAt s.hart (encode i)).word == 0x25) = false := vfp_hasNone hf rfl hfn
  rw [vfpBody_eq, hg]
  rfl
end

section
variable {s : State} {vv vx : Instr} {d a b : Reg} {k : BitVec 3} {f : BitVec 6} (op : FOp)
variable (hvv : VFields (encode vv) 36#6 d a b k f) (hvx : VFields (encode vx) 37#6 d a b k f)
variable (xvv : exec vv s = vissue (encode vv) (vfpBody op true) s) (xvx : exec vx s = vissue (encode vx) (vfpBody op false) s)
variable (hfn : f.toNat ≠ 6 ∧ f.toNat ≠ 9 ∧ f.toNat ≠ 10)
include hvv hvx xvv xvx hfn

/-- What the two words of a binary operation compute. -/
theorem vfp_computes :
    (TakesAtOnce s vv → Computes s s vv d k fun e => op s.hart.vt.fmt s.hart.vt.rm (s.elem a e) (s.elem b e) (s.elem d e)) ∧
    (TakesAtOnce s vx → ∀ v s0, s.operand b = some (v, s0) → Computes s s0 vx d k fun e =>
      op s.hart.vt.fmt s.hart.vt.rm (s.elem a e) (v.toNat % 2 ^ s.hart.vt.ew) (s.elem d e)) ∧
    (TakesAtOnce s vx → s.operand b = none → ∃ u, exec vx s = .next u ∧ WaitsQueued s u vx) :=
  ⟨fun h => (vfp_group op h xvv hvv hfn).1, fun h v s0 ho => (vfp_scalar op h xvx hvx v s0 ho).1, fun h => vfp_waits op h xvx hvx⟩

/-- Where they trap. -/
theorem vfp_stops :
    (TakesAtOnce s vv → Stops s vv d k fun e => op s.hart.vt.fmt s.hart.vt.rm (s.elem a e) (s.elem b e) (s.elem d e)) ∧
    (TakesAtOnce s vx → ∀ v s0, s.operand b = some (v, s0) → Stops s vx d k fun e =>
      op s.hart.vt.fmt s.hart.vt.rm (s.elem a e) (v.toNat % 2 ^ s.hart.vt.ew) (s.elem d e)) :=
  ⟨fun h => (vfp_group op h xvv hvv hfn).2, fun h v s0 ho => (vfp_scalar op h xvx hvx v s0 ho).2⟩
end

/-- Settles O34: each word is the element loop with its operation. -/
theorem vectorFloatResults : Obligations.VectorFloatResults := by
  unfold Obligations.VectorFloatResults
  intro s d a b k t c
  simp only [List.forall_mem_cons, List.not_mem_nil, false_imp_iff, implies_true, and_true]
  have row (op : FOp) {vv vx : Instr} {f : BitVec 6} (hvv : encode vv = vword 36#6 d a b k (bit1 t) f (bit1 c))
      (hvx : encode vx = vword 37#6 d a b k (bit1 t) f (bit1 c)) := vfp_computes (s := s) op (hvv ▸ fields_vword ..) (hvx ▸ fields_vword ..)
  have unary (op : FOp) {i : Instr} {f : BitVec 6} (hi : encode i = vword 36#6 d a 0#5 k (bit1 t) f (bit1 c)) (h : TakesAtOnce s i)
      (hx : exec i s = vissue (encode i) (vfpBody op false) s) (hfn : f.toNat = 6 ∨ f.toNat = 9 ∨ f.toNat = 10) :=
    (vfp_unary op h hx (hi ▸ fields_vword ..) hfn).1
  refine ⟨⟨?_, ?_, ?_, ?_, ?_, ?_, ?_, ?_⟩, ?_, ?_, ?_⟩
  · exact row (fun f m x y _ => fAdd f m x y) rfl rfl rfl rfl (by decide)
  · exact row (fun f m x y _ => fSub f m x y) rfl rfl rfl rfl (by decide)
  · exact row (fun f m x y _ => fMul f m x y) rfl rfl rfl rfl (by decide)
  · exact row (fun f m x y z => fFma f m x y (f.decode z)) rfl rfl rfl rfl (by decide)
  · exact row (fun f m x y z => fFma f m x y (f.decode z).negate) rfl rfl rfl rfl (by decide)
  · exact row (fun f m x y _ => fDiv f m x y) rfl rfl rfl rfl (by decide)
  · exact row (fun f _ x y _ => fMinMax f false x y) rfl rfl rfl rfl (by decide)
  · exact row (fun f _ x y _ => fMinMax f true x y) rfl rfl rfl rfl (by decide)
  · exact fun h => unary (fun f m x _ _ => fSqrt f m x) rfl h rfl (by decide)
  · exact fun h => unary (fun f _ x _ _ => (2 ^ fClass f x, {})) rfl h rfl (by decide)
  · exact fun h => unary (fun f _ x _ _ => fRcpe f x) rfl h rfl (by decide)

end Sys2Proof.Machine
end

section
/-! PROOFS. Vector words (06), part 5: mask registers written (R12), and carry through a mask register (R147). -/
namespace Sys2Proof.Machine

/-! ### A mask register written (R12) -/

theorem Hart.kreg_putK (h : Hart) (k : Nat) (x : BitVec 4096) : (h.putK k x).kreg k = x := by
  simp [Hart.kreg, Hart.putK, Vector.get_eq_getElem]

/-- Bit `e` of a mask register after its bits below `stop` are written. -/
theorem getLsbD_putMaskTo (t : VT) (k stop : Nat) (bit : Nat → Bool) (h : Hart) {e : Nat} (he : e < 4096) :
    ((putMaskTo t k 0 stop bit h).kreg k).getLsbD e =
      if e < min stop t.vl then bit e else if t.vl ≤ stop ∧ t.tp = true then false else (h.kreg k).getLsbD e := by
  have hbit (q : Nat) : (joinNat 1 (fun i => (bit i).toNat) (min stop t.vl) + q * 2 ^ min stop t.vl).testBit e =
      if e < min stop t.vl then bit e else q.testBit (e - min stop t.vl) := by
    have hlow := joinNat_lt 1 (fun i => (bit i).toNat) (min stop t.vl)
    rw [Nat.one_mul] at hlow
    rw [Nat.add_comm, Nat.mul_comm, Nat.testBit_two_pow_mul_add _ hlow]
    by_cases hlt : e < min stop t.vl
    · rw [if_pos hlt, if_pos hlt, testBit_joinNat_one _ _ _ hlt]
      cases bit e <;> rfl
    · rw [if_neg hlt, if_neg hlt]
  unfold putMaskTo
  simp only []
  rw [Hart.kreg_putK, BitVec.getLsbD_ofNat, decide_eq_true he, Bool.true_and]
  simp only [Nat.not_lt_zero, if_false]
  by_cases hp : t.vl ≤ stop ∧ t.tp = true
  · have hp' : (decide (t.vl ≤ stop) && t.tp) = true := by simpa using hp
    have := hbit 0
    rw [Nat.zero_mul] at this
    rw [if_pos hp', if_pos hp]
    refine this.trans ?_
    rw [Nat.zero_testBit]
  · have hp' : ¬ (decide (t.vl ≤ stop) && t.tp) = true := by simpa using hp
    rw [if_neg hp', if_neg hp]
    refine (hbit _).trans ?_
    by_cases hlt : e < min stop t.vl
    · rw [if_pos hlt, if_pos hlt]
    · rw [if_neg hlt, if_neg hlt, Nat.testBit_div_two_pow, Nat.sub_add_cancel (by omega)]
      rfl

section
variable {t : VT} {k start stop : Nat} {bit : Nat → Bool} {h : Hart}

theorem putMaskTo_frame : WritesVector (putMaskTo t k start stop bit) := by
  intro h
  unfold putMaskTo Hart.putK
  rfl
theorem putMaskTo_v : (putMaskTo t k start stop bit h).v = h.v := by
  unfold putMaskTo Hart.putK
  rfl
theorem putMaskTo_hdr : (putMaskTo t k start stop bit h).hdr = h.hdr := by
  unfold putMaskTo Hart.putK
  rfl
theorem putMaskTo_fl : (putMaskTo t k start stop bit h).fl = h.fl := by
  unfold putMaskTo Hart.putK
  rfl
theorem group_putMaskTo (b n : Nat) : (putMaskTo t k start stop bit h).group b n = h.group b n := by
  unfold putMaskTo Hart.putK
  rfl
theorem putMaskTo_other {r : Fin 8} (hr : r.val ≠ k % 8) : (putMaskTo t k start stop bit h).k.get r = h.k.get r := Hart.putK_other _ _ _ r hr
end

/-- Bits below VL as given, the others by the tail policy. -/
theorem maskWritten_put {s u : State} {k : Nat} {bit : Nat → Bool} {h : Hart} (hu : u.hart.k = (putMaskTo s.hart.vt k 0 4096 bit h).k)
    (hk : h.kreg k = s.hart.kreg k) : MaskWritten s u k bit := by
  intro e he
  have hkreg : u.hart.kreg k = (putMaskTo s.hart.vt k 0 4096 bit h).kreg k := by
    unfold Hart.kreg
    rw [hu]
  rw [hkreg, getLsbD_putMaskTo _ _ _ _ _ he, hk]
  have hvl : s.hart.vt.vl = s.hart.vr.vl := rfl
  rw [hvl]
  by_cases hlt : e < s.hart.vr.vl
  · rw [if_pos (by omega), if_pos hlt]
  · rw [if_neg (by omega), if_neg hlt]
    have hle : s.hart.vr.vl ≤ 4096 := by omega
    simp [hle]

/-! ### Carry through a mask register (R147) -/

/-- Every element below VL is active when K is 0 (R12). -/
theorem State.isActive_zero (s : State) : s.isActive 0 = fun e => decide (e < s.hart.vt.vl) := by
  funext e
  rw [State.isActive_eq]
  simp [Hart.maskBit]
  rfl

/-- The result and the carry of an element, past the operands. -/
def carryElems (sub : Bool) (t : VT) (y : Nat → Nat) : Body := fun e s =>
  let h := s.hart
  let a := h.group (wA e.word) t.g
  let k := h.kreg (wK e.word)
  let r := fun i => carryOp sub t.ew (elemOf a t.ew i) (y i) (k.getLsbD i).toNat
  .done (s.onHart fun g => putMaskTo t (wK e.word) e.start 4096 (fun i => (r i).2)
    (putElems t e.start (wD e.word) (fun i => decide (i < t.vl)) (fun i => (r i).1) t.vlmax g))

theorem vcarryBody_eq (sub g : Bool) (imm : Option (VT → Nat)) (e : VEntry) (s : State) :
    vcarryBody sub g imm e s = withY e s g (imm.map fun f => f s.hart.vt) (carryElems sub s.hart.vt) := by
  unfold vcarryBody carryElems
  rfl

/-- What `vadc` and `vsbc` do to the state `s0` that their operands leave (R147). -/
def Carries (s s0 u : State) (d a : Reg) (k : BitVec 3) (sub : Bool) (y : Nat → Nat) : Prop :=
  let cin := fun e => ((s.hart.kreg k.toNat).getLsbD e).toNat
  Writes s u d 0 (fun e => if sub then (((s.elem a e : Int) - y e - cin e) % 2 ^ s.hart.vt.ew).toNat else s.elem a e + y e + cin e) ∧
  MaskWritten s u k.toNat (fun e => if sub then decide (s.elem a e < y e + cin e) else decide (2 ^ s.hart.vt.ew ≤ s.elem a e + y e + cin e)) ∧
  (∀ r : Fin 8, r.val ≠ k.toNat → u.hart.k.get r = s.hart.k.get r) ∧ u.hart.fl = s.hart.fl ∧
  VectorOnly s0 { u with hart := { u.hart with k := s.hart.k } } d s.hart.vt.g

def carryResult (s : State) (a : Reg) (k : BitVec 3) (sub : Bool) (y : Nat → Nat) (j : Nat) : Nat × Bool :=
  carryOp sub s.hart.vt.ew (s.elem a j) (y j) ((s.hart.kreg k.toNat).getLsbD j).toNat

section
variable {s s0 : State} {c : Convoy} {i : Instr} {e : VEntry} {m : BitVec 6} {d a b : Reg} {k : BitVec 3} {f : BitVec 6} {sub : Bool}
variable {y : Nat → Nat}

theorem carryElems_eq (he : e.Of s (encode i)) (hf : VFields (encode i) m d a b k f) : carryElems sub s.hart.vt y e (s.past c) =
    .done ((s.past c).onHart fun h => putMaskTo s.hart.vt k.toNat 0 4096 (fun j => (carryResult s a k sub y j).2)
      (putElems s.hart.vt 0 d.toNat ((s.past c).isActive 0) (fun j => (carryResult s a k sub y j).1) s.hart.vt.vlmax h)) := by
  unfold carryElems
  simp only []
  rw [he.word, hf.wA_eq, hf.wD_eq, hf.wK_eq, he.start, State.isActive_zero]
  rfl

theorem carryElems_carries {q : Vector (List Word) 8} (he : e.Of (s.withQueues q) (encode i)) (hf : VFields (encode i) m d a b k f)
    (hfit : d.toNat + s.hart.vt.g ≤ 32) (hquads : s.hart.vr.quads ≤ 8) :
    Carries s (s.withQueues q) (carryElems sub s.hart.vt y e ((s.withQueues q).past c)).state d a k sub y := by
  have hbody := carryElems_eq (c := c) (sub := sub) (y := y) he hf
  change carryElems sub s.hart.vt y e ((s.withQueues q).past c) = _ at hbody
  rw [hbody, VOut.state_done]
  refine ⟨fun j hj => ?_, ?_, fun r hr => ?_, ?_, ?_⟩
  · rw [elem_onHart (putMaskTo_frame.comp putElems_frame), group_putMaskTo]
    refine (State.elem_putElems (s := (s.withQueues q).past c) hfit hquads hj).trans ((if_pos hj).trans ?_)
    show ruled s d 0 (fun j => (carryResult s a k sub y j).1) j = _
    refine ruled_congr ?_
    cases sub
    · exact Nat.mod_mod ..
    · rfl
  · have hbit : (fun j => (carryResult s a k sub y j).2) = fun j =>
        if sub then decide (s.elem a j < y j + ((s.hart.kreg k.toNat).getLsbD j).toNat)
        else decide (2 ^ s.hart.vt.ew ≤ s.elem a j + y j + ((s.hart.kreg k.toNat).getLsbD j).toNat) := by
      funext j
      cases sub <;> rfl
    exact hbit ▸ maskWritten_put rfl (kreg_putElems _)
  · refine (putMaskTo_other (by omega)).trans (congrArg (·.get r) putElems_k)
  · exact putMaskTo_fl.trans putElems_fl
  · exact vectorOnly_unmasked (putMaskTo_frame.comp putElems_frame) fun r hr =>
      ⟨(congrArg (·.get r) putMaskTo_v).trans (putElems_other hr), congrArg (·.get r) (putMaskTo_hdr.trans putElems_hdr)⟩
end

section
variable {s : State} {i : Instr} {d a b : Reg} {k : BitVec 3} {f : BitVec 6} {m : BitVec 6} {sub : Bool} (h : TakesAtOnce s i)
variable (hf : VFields (encode i) m d a b k f)
include h hf

theorem carry_group (hm : m = 33#6) (hx : exec i s = vissue (encode i) (vcarryBody sub true none) s) :
    ∃ u, exec i s = .next u ∧ Carries s s u d a k sub (s.elem b) := by
  obtain ⟨c, e, he, hexec⟩ := exec_withY_group h hx hf fun _ => vcarryBody_eq ..
  exact ⟨_, hexec, carryElems_carries (q := s.hart.q) he hf (h.destination hf (.inl (by rw [hm]; decide))) h.quads⟩

theorem carry_scalar (hm : m = 34#6) (hx : exec i s = vissue (encode i) (vcarryBody sub false none) s) (v : Word) (s0 : State)
    (ho : s.operand b = some (v, s0)) :
    ∃ u, exec i s = .next u ∧ Carries s s0 u d a k sub fun _ => v.toNat % 2 ^ s.hart.vt.ew := by
  obtain ⟨c, e, he, hexec⟩ := exec_withY_scalar h hx hf (by rw [hm]; decide) (fun _ => vcarryBody_eq ..) ho
  obtain ⟨q, rfl⟩ := State.operand_queues ho
  exact ⟨_, hexec, carryElems_carries ⟨he.word, he.pc, he.start⟩ hf (h.destination hf (.inl (by rw [hm]; decide))) h.quads⟩

theorem carry_waits (hx : exec i s = vissue (encode i) (vcarryBody sub false none) s) (ho : s.operand b = none) :
    ∃ u, exec i s = .next u ∧ WaitsQueued s u i :=
  exec_withY_waits h hx hf (fun _ => vcarryBody_eq ..) ho

theorem carry_imm (hm : m = 35#6) {y : VT → Nat} (hx : exec i s = vissue (encode i) (vcarryBody sub false (some y)) s) :
    ∃ u, exec i s = .next u ∧ Carries s s u d a k sub fun _ => y s.hart.vt := by
  obtain ⟨c, e, he, hexec⟩ := exec_withY_imm (y := y) h hx fun _ => vcarryBody_eq ..
  exact ⟨_, hexec, carryElems_carries (q := s.hart.q) he hf (h.destination hf (.inl (by rw [hm]; decide))) h.quads⟩
end

/-- An immediate that is no shift amount. -/
theorem immY_false (i : BitVec 5) (t : VT) : immY i false t = if t.isSigned then (i.toInt % 2 ^ t.ew).toNat else i.toNat % 2 ^ t.ew := by
  unfold immY wrapInt
  simp only [Bool.not_false, Bool.and_true]

/-- Settles O33: `vadc` and `vsbc` write each element and its carry below VL, whatever the mask. -/
theorem carryResults : Obligations.CarryResults := by
  unfold Obligations.CarryResults
  intro s d a b i k c sub
  simp only [← immY_false]
  cases sub <;>
    exact ⟨fun h => carry_group h (fields_tail7 ..) rfl rfl, fun h v s0 ho => carry_scalar h (fields_tail7 ..) rfl rfl v s0 ho,
      fun h ho => carry_waits h (fields_tail7 ..) rfl ho, fun h => carry_imm h (fields_tail7 ..) rfl (y := immY i false) rfl⟩

end Sys2Proof.Machine
end

section
/-! PROOFS. Vector words (06), part 6: compares (R151) and mask operations (R152). -/
namespace Sys2Proof.Machine

/-! ### Words that write a mask register alone -/

section
variable {s : State} {c : Convoy} {g : Hart → Hart} (hg : WritesVector g) {k : Nat}
include hg

theorem maskOnly_onHart (hv : (g (s.past c).hart).v = s.hart.v) (hhdr : (g (s.past c).hart).hdr = s.hart.hdr)
    (hother : ∀ r : Fin 8, r.val ≠ k → (g (s.past c).hart).k.get r = s.hart.k.get r) : MaskOnly s ((s.past c).onHart g) k := by
  refine ⟨?_, hother⟩
  unfold State.onHart
  rw [hg, hv, hhdr]
  rfl

theorem maskOnly_recorded {pc : Word} {evs : List (Nat × Ev)} (hv : (g (s.past c).hart).v = s.hart.v)
    (hhdr : (g (s.past c).hart).hdr = s.hart.hdr) (hother : ∀ r : Fin 8, r.val ≠ k → (g (s.past c).hart).k.get r = s.hart.k.get r) :
    MaskOnly s ((s.past c).onHart fun h => (g h).recorded pc evs) k := by
  refine maskOnly_onHart hg.recorded ?_ ?_ fun r hr => ?_
  · rw [Hart.recorded_v, hv]
  · rw [Hart.recorded_hdr, hhdr]
  · rw [Hart.recorded_k]
    exact hother r hr
end

/-! ### Compares (R151) -/

/-- The bit of an element, and the events, of a compare. -/
abbrev Relation := VT → Nat → Nat → Bool × Ev

/-- A compare, past its operands. -/
def cmpElems (rel : Relation) (t : VT) (y : Nat → Nat) : Body := fun e s =>
  let h := s.hart
  let a := h.group (wA e.word) t.g
  let kd := wD e.word
  let old := h.kreg kd
  let act := activeOf s e
  let r := fun i => rel t (elemOf a t.ew i) (y i)
  let bit := fun i => if act i then (r i).1 else !t.mp && old.getLsbD i
  elementwise e act (fun i => (r i).2) t.vl (fun stop => putMaskTo t kd e.start stop bit) 4096 s

theorem vcmpBody_eq (rel : Relation) (g : Bool) (e : VEntry) (s : State) :
    vcmpBody rel g e s = withY e s g none (cmpElems rel s.hart.vt) := by
  unfold vcmpBody cmpElems
  rfl

/-- The relation of the elements, from the state `s0` that the operands leave, when no enabled class is raised. -/
def ComputesMask (s s0 : State) (i : Instr) (d : Reg) (k : BitVec 3) (r : Nat → Bool × Ev) : Prop :=
  Quiet s k (fun e => (r e).2) → ∃ u, exec i s = .next u ∧
    MaskWritten s u d.toNat (fun e => if s.hart.maskBit k e then (r e).1 else if s.hart.vt.mp then false else (s.hart.kreg d.toNat).getLsbD e) ∧
    MaskOnly s0 u (d.toNat % 8) ∧ u.hart.fl = s.notes k fun e => (r e).2

/-- The trap of a compare at the lowest element that raises an enabled class, the bits below it written (R143). -/
def StopsMask (s : State) (i : Instr) (d : Reg) (k : BitVec 3) (r : Nat → Bool × Ev) : Prop :=
  ∀ j x, Handles s x → RaisesAt s k (fun e => (r e).2) j x → ∃ u, exec i s = .next u ∧ TrappedAt s u i x j ∧
    u.hart.fl = s.notesTo k (fun e => (r e).2) (j + 1) ∧
    ∀ e, e < 4096 → (u.hart.kreg d.toNat).getLsbD e = if e < j ∧ s.hart.maskBit k e then (r e).1
      else if e < j ∧ s.hart.vt.mp then false else (s.hart.kreg d.toNat).getLsbD e

/-- The relation of the elements of a compare, and the bits it writes. -/
def cmpResult (rel : Relation) (s : State) (a : Reg) (y : Nat → Nat) (e : Nat) : Bool × Ev := rel s.hart.vt (s.elem a e) (y e)
def cmpBit (s : State) (d : Reg) (k : BitVec 3) (r : Nat → Bool × Ev) (e : Nat) : Bool :=
  if s.isActive k e then (r e).1 else !s.hart.vt.mp && (s.hart.kreg d.toNat).getLsbD e

/-- The bit of an element below VL. -/
theorem cmpBit_below {s : State} {d : Reg} {k : BitVec 3} {r : Nat → Bool × Ev} {e : Nat} (he : e < s.hart.vr.vl) :
    cmpBit s d k r e = if s.hart.maskBit k e then (r e).1 else if s.hart.vt.mp then false else (s.hart.kreg d.toNat).getLsbD e := by
  unfold cmpBit
  rw [State.isActive_eq, decide_eq_true he, Bool.true_and]
  cases s.hart.vt.mp <;> simp

section
variable {s : State} {c : Convoy} {i : Instr} {e : VEntry} {m : BitVec 6} {d a b : Reg} {k : BitVec 3} {f : BitVec 6} {rel : Relation}
variable {y : Nat → Nat} {q : Vector (List Word) 8}

theorem cmpElems_eq (he : e.Of s (encode i)) (hf : VFields (encode i) m d a b k f) : cmpElems rel s.hart.vt y e (s.past c) =
    elementwise e ((s.past c).isActive k) (fun j => (cmpResult rel s a y j).2) (s.past c).hart.vr.vl
      (fun stop => putMaskTo s.hart.vt d.toNat 0 stop (cmpBit s d k (cmpResult rel s a y))) 4096 (s.past c) := by
  have hact : activeOf (s.past c) e = (s.past c).isActive k := activeOf_entry he.word hf
  unfold cmpElems
  simp only []
  rw [hact, he.word, hf.wA_eq, hf.wD_eq, he.start]
  rfl

theorem cmpElems_computes (hexec : exec i s = .next (cmpElems rel s.hart.vt y e ((s.withQueues q).past c)).state)
    (he : e.Of (s.withQueues q) (encode i)) (hf : VFields (encode i) m d a b k f) :
    ComputesMask s (s.withQueues q) i d k (cmpResult rel s a y) := by
  intro hq
  change exec i s = .next (cmpElems rel (s.withQueues q).hart.vt y e ((s.withQueues q).past c)).state at hexec
  have hquiet : Quiet ((s.withQueues q).past c) k (fun j => (cmpResult rel (s.withQueues q) a y j).2) := hq
  rw [cmpElems_eq he hf, elementwise_quiet _ _ he.start hquiet, he.pc, VOut.state_done] at hexec
  refine ⟨_, hexec, ?_, ?_, congrArg (recordEvs _ _) putMaskTo_fl⟩
  · have hw : MaskWritten s (((s.withQueues q).past c).onHart fun h => (putMaskTo (s.withQueues q).hart.vt d.toNat 0 4096
        (cmpBit (s.withQueues q) d k (cmpResult rel (s.withQueues q) a y)) h).recorded (s.withQueues q).hart.pc
          ((((s.withQueues q).past c).actives k).map fun j => (j, (cmpResult rel (s.withQueues q) a y j).2)))
        d.toNat (cmpBit s d k (cmpResult rel s a y)) := maskWritten_put (h := ((s.withQueues q).past c).hart) rfl rfl
    intro j hj
    rw [hw j hj]
    by_cases hlt : j < s.hart.vr.vl
    · rw [if_pos hlt, if_pos hlt, cmpBit_below hlt]
    · rw [if_neg hlt, if_neg hlt]
  · exact maskOnly_recorded putMaskTo_frame putMaskTo_v putMaskTo_hdr fun r hr => putMaskTo_other hr

theorem cmpElems_stops (hexec : exec i s = .next (cmpElems rel s.hart.vt y e ((s.withQueues q).past c)).state)
    (he : e.Of (s.withQueues q) (encode i)) (hf : VFields (encode i) m d a b k f) : StopsMask s i d k (cmpResult rel s a y) := by
  intro j x hh hr
  change exec i s = .next (cmpElems rel (s.withQueues q).hart.vt y e ((s.withQueues q).past c)).state at hexec
  have hraise : RaisesAt ((s.withQueues q).past c) k (fun j => (cmpResult rel (s.withQueues q) a y j).2) j x := hr
  rw [cmpElems_eq he hf, elementwise_traps _ _ he.start hraise, he.pc, VOut.state_trap] at hexec
  obtain ⟨htrap, hsame⟩ := parkTrap_results (j := j) (vectorWork_onHart putMaskTo_frame.recorded) he.ofQueues hh (Ev.trap_not_pageFault hr.2.1)
  refine ⟨_, hexec, htrap, hsame.fl.trans (congrArg (recordEvs _ _) putMaskTo_fl), fun l hl => ?_⟩
  rw [hsame.kreg]
  have hjl : j < s.hart.vr.vl := ((s.mem_actives k j).1 hr.1).1
  refine (getLsbD_putMaskTo s.hart.vt d.toNat j (cmpBit s d k (cmpResult rel s a y)) ((s.withQueues q).past c).hart hl).trans ?_
  have hvl : s.hart.vt.vl = s.hart.vr.vl := rfl
  rw [hvl, Nat.min_eq_left hjl.le, if_neg (c := s.hart.vr.vl ≤ j ∧ s.hart.vt.tp = true) fun hle => absurd hle.left (by omega)]
  by_cases hlt : l < j
  · rw [if_pos hlt, cmpBit_below (hlt.trans hjl)]
    simp only [hlt, true_and]
  · simp only [hlt, false_and, if_false]
    rfl
end

section
variable {s : State} {vv vx : Instr} {d a b : Reg} {k : BitVec 3} {f g : BitVec 6} {rel : Relation}
variable (hvv : VFields (encode vv) 38#6 d a b k f) (hvx : VFields (encode vx) 38#6 d a b k g)
variable (xvv : exec vv s = vissue (encode vv) (vcmpBody rel true) s) (xvx : exec vx s = vissue (encode vx) (vcmpBody rel false) s)
include hvv hvx xvv xvx

/-- What the two words of a relation compute. -/
theorem vcmp_computes :
    (TakesAtOnce s vv → ComputesMask s s vv d k (cmpResult rel s a (s.elem b))) ∧
    (TakesAtOnce s vx → ∀ v s0, s.operand b = some (v, s0) →
      ComputesMask s s0 vx d k (cmpResult rel s a fun _ => v.toNat % 2 ^ s.hart.vt.ew)) ∧
    (TakesAtOnce s vx → s.operand b = none → ∃ u, exec vx s = .next u ∧ WaitsQueued s u vx) := by
  refine ⟨fun h => ?_, fun h v s0 ho => ?_, fun h => exec_withY_waits h xvx hvx fun _ => vcmpBody_eq ..⟩
  · obtain ⟨c, e, he, hexec⟩ := exec_withY_group h xvv hvv fun _ => vcmpBody_eq ..
    exact cmpElems_computes (q := s.hart.q) hexec he hvv
  · obtain ⟨c, e, he, hexec⟩ := exec_withY_scalar h xvx hvx (by decide) (fun _ => vcmpBody_eq ..) ho
    obtain ⟨q, rfl⟩ := State.operand_queues ho
    exact cmpElems_computes hexec ⟨he.word, he.pc, he.start⟩ hvx

/-- Where they trap. -/
theorem vcmp_stops :
    (TakesAtOnce s vv → StopsMask s vv d k (cmpResult rel s a (s.elem b))) ∧
    (TakesAtOnce s vx → ∀ v s0, s.operand b = some (v, s0) → StopsMask s vx d k (cmpResult rel s a fun _ => v.toNat % 2 ^ s.hart.vt.ew)) := by
  refine ⟨fun h => ?_, fun h v s0 ho => ?_⟩
  · obtain ⟨c, e, he, hexec⟩ := exec_withY_group h xvv hvv fun _ => vcmpBody_eq ..
    exact cmpElems_stops (q := s.hart.q) hexec he hvv
  · obtain ⟨c, e, he, hexec⟩ := exec_withY_scalar h xvx hvx (by decide) (fun _ => vcmpBody_eq ..) ho
    obtain ⟨q, rfl⟩ := State.operand_queues ho
    exact cmpElems_stops hexec ⟨he.word, he.pc, he.start⟩ hvx
end

/-- An integer relation of elements, in the class's reading. -/
theorem cmpResult_icmp {s : State} {a : Reg} {y : Nat → Nat} (p : Int → Int → Bool) (hy : ∀ e, y e < 2 ^ s.hart.vt.ew) :
    cmpResult (icmp p) s a y = fun e =>
      (p (readElem s.hart.vt.isSigned s.hart.vt.ew (s.elem a e)) (readElem s.hart.vt.isSigned s.hart.vt.ew (y e)), {}) := by
  funext e
  unfold cmpResult icmp
  rw [readInt_eq_readElem (s.elem_lt a e), readInt_eq_readElem (hy e)]

/-- What the two words of an integer relation compute. -/
theorem vcmp_computes_int {s : State} {vv vx : Instr} {d a b : Reg} {k : BitVec 3} {f g : BitVec 6} (p : Int → Int → Bool)
    (hvv : VFields (encode vv) 38#6 d a b k f) (hvx : VFields (encode vx) 38#6 d a b k g)
    (xvv : exec vv s = vissue (encode vv) (vcmpBody (icmp p) true) s) (xvx : exec vx s = vissue (encode vx) (vcmpBody (icmp p) false) s) :
    let rd := readElem s.hart.vt.isSigned s.hart.vt.ew
    (TakesAtOnce s vv → ComputesMask s s vv d k fun e => (p (rd (s.elem a e)) (rd (s.elem b e)), {})) ∧
    (TakesAtOnce s vx → ∀ v s0, s.operand b = some (v, s0) →
      ComputesMask s s0 vx d k fun e => (p (rd (s.elem a e)) (rd (v.toNat % 2 ^ s.hart.vt.ew)), {})) ∧
    (TakesAtOnce s vx → s.operand b = none → ∃ u, exec vx s = .next u ∧ WaitsQueued s u vx) := by
  obtain ⟨hg, hs, hw⟩ := vcmp_computes hvv hvx xvv xvx
  refine ⟨fun h => ?_, fun h v s0 ho => ?_, hw⟩
  · rw [← cmpResult_icmp p fun e => s.elem_lt b e]
    exact hg h
  · have := hs h v s0 ho
    rwa [cmpResult_icmp p fun _ => Nat.mod_lt _ (Nat.two_pow_pos _)] at this

/-! ### Mask operations (R152) -/

/-- A mask operation: bit e from the stored bits of its sources. -/
theorem kBody_results {s : State} {i : Instr} {m : BitVec 6} {d a b : Reg} {k : BitVec 3} {f : BitVec 6}
    {op : Nat → BitVec 4096 → BitVec 4096 → Nat → Bool} (h : TakesAtOnce s i) (hx : exec i s = vissue (encode i) (kBody op) s)
    (hf : VFields (encode i) m d a b k f) : ∃ u, exec i s = .next u ∧
      MaskWritten s u d.toNat (op s.hart.vr.vl (s.hart.kreg a.toNat) (s.hart.kreg b.toNat)) ∧ MaskOnly s u (d.toNat % 8) ∧
      u.hart.fl = s.hart.fl := by
  obtain ⟨c, hexec⟩ := exec_atOnce h hx
  have hbody : kBody op (entryAt s.hart (encode i)) (s.past c) = .done ((s.past c).onHart
      (putMaskTo s.hart.vt d.toNat 0 4096 (op s.hart.vr.vl (s.hart.kreg a.toNat) (s.hart.kreg b.toNat)))) := by
    rw [← hf.wA_eq, ← hf.wB_eq, ← hf.wD_eq]
    rfl
  rw [hbody, VOut.state_done] at hexec
  exact ⟨_, hexec, maskWritten_put (h := (s.past c).hart) rfl rfl,
    maskOnly_onHart putMaskTo_frame putMaskTo_v putMaskTo_hdr fun r hr => putMaskTo_other hr, putMaskTo_fl⟩

/-! ### A value pushed to a queue register (R13, R73) -/

theorem Hart.queue_putQueue (h : Hart) (n : Nat) (l : List Word) : (h.putQueue n l).queue n = l := by
  simp [Hart.queue, Hart.putQueue, Vector.get_eq_getElem]

theorem Hart.putQueue_other (h : Hart) (n : Nat) (l : List Word) {r : Fin 8} (hr : r.val ≠ n % 8) : (h.putQueue n l).q.get r = h.q.get r := by
  simp [Hart.putQueue, Vector.get_eq_getElem, hr.symm]

theorem Hart.queueRoom_one (h : Hart) (n : Nat) : h.queueRoom n 1 = decide ((h.queue n).length < 16) :=
  decide_eq_decide.2 (by omega)

/-- A value pushed past a word, with events recorded. -/
theorem pushedOnly_recorded (s : State) (c : Convoy) (pc : Word) (evs : List (Nat × Ev)) (n : Nat) (v : Word) :
    PushedOnly s (((s.past c).recordAt pc evs).onHart (·.push n v)) n v :=
  ⟨rfl, Hart.queue_putQueue .., fun _ hr => Hart.putQueue_other _ _ _ hr⟩

theorem pushedOnly_past (s : State) (c : Convoy) (n : Nat) (v : Word) : PushedOnly s ((s.past c).onHart (·.push n v)) n v :=
  ⟨rfl, Hart.queue_putQueue .., fun _ hr => Hart.putQueue_other _ _ _ hr⟩

/-- A word that pushes one value, or waits for room. -/
theorem push_results {s : State} {i : Instr} {body : Body} {m : BitVec 6} {d a b : Reg} {k : BitVec 3} {f : BitVec 6} {v : State → Word}
    (h : TakesAtOnce s i) (hx : exec i s = vissue (encode i) body s) (hf : VFields (encode i) m d a b k f)
    (hb : ∀ c, body (entryAt s.hart (encode i)) (s.past c) = pushResult (entryAt s.hart (encode i)) (s.past c) (v s)) :
    ((s.hart.queue (d.toNat - 24)).length < 16 → ∃ u, exec i s = .next u ∧ PushedOnly s u (d.toNat - 24) (v s) ∧ u.hart.fl = s.hart.fl) ∧
    (16 ≤ (s.hart.queue (d.toNat - 24)).length → ∃ u, exec i s = .next u ∧ WaitsQueued s u i) := by
  have hd : wD (entryAt s.hart (encode i)).word = d.toNat := hf.wD_eq
  have hroom (c : Convoy) : (s.past c).hart.queueRoom (d.toNat - 24) 1 = decide ((s.hart.queue (d.toNat - 24)).length < 16) :=
    Hart.queueRoom_one ..
  constructor
  · intro hlt
    obtain ⟨c, hexec⟩ := exec_atOnce h hx
    rw [hb, pushResult, hd, hroom, decide_eq_true hlt, if_pos rfl] at hexec
    exact ⟨_, hexec, pushedOnly_past .., rfl⟩
  · intro hge
    refine exec_waits (w := .queueReg) h hx fun c => ?_
    rw [hb, pushResult, hd, hroom, decide_eq_false (by omega), if_neg (by decide)]

/-- The lowest set bit below VL. -/
theorem lowestBit_eq {x : BitVec 4096} {n vl : Nat} (hlow : ∀ e, e < n → x.getLsbD e = false) (hbit : n < vl → x.getLsbD n = true)
    (hle : n ≤ vl) : lowestBit x vl = if n < vl then some n else none := by
  unfold lowestBit upTo
  split
  · rename_i hlt
    rw [List.find?_range_eq_some]
    exact ⟨hbit hlt, List.mem_range.2 hlt, fun j hj => by simp [hlow j hj]⟩
  · rw [List.find?_eq_none]
    intro e he
    simp [hlow e (by have := List.mem_range.1 he; omega)]

/-- The bits of the shifts by one. -/
theorem kshl1_bit (x : BitVec 4096) : (fun e => if e = 0 then false else x.getLsbD (e - 1)) = fun e => decide (0 < e) && x.getLsbD (e - 1) := by
  funext e
  cases e <;> rfl
theorem kshr1_bit (x : BitVec 4096) (vl : Nat) :
    (fun e => if e + 1 < vl then x.getLsbD (e + 1) else false) = fun e => decide (e + 1 < vl) && x.getLsbD (e + 1) := by
  funext e
  split <;> simp [*]

section
variable {s : State} {d a : Reg}

theorem kpopc_results (h : TakesAtOnce s (.kpopc d a)) :
    let v := BitVec.ofNat 64 ((List.range s.hart.vr.vl).countP fun e => (s.hart.kreg a.toNat).getLsbD e)
    ((s.hart.queue (d.toNat - 24)).length < 16 →
      ∃ u, exec (.kpopc d a) s = .next u ∧ PushedOnly s u (d.toNat - 24) v ∧ u.hart.fl = s.hart.fl) ∧
    (16 ≤ (s.hart.queue (d.toNat - 24)).length → ∃ u, exec (.kpopc d a) s = .next u ∧ WaitsQueued s u (.kpopc d a)) := by
  have hf : VFields (encode (.kpopc d a)) 39#6 d a _ _ _ := fields_tail16 ..
  refine push_results h rfl hf (v := fun s => BitVec.ofNat 64 ((List.range s.hart.vr.vl).countP fun e => (s.hart.kreg a.toNat).getLsbD e))
    fun c => ?_
  rw [List.countP_eq_length_filter, ← hf.wA_eq]
  rfl

theorem kfirst_results {n : Nat} (hn : lowestBit (s.hart.kreg a.toNat) s.hart.vr.vl = if n < s.hart.vr.vl then some n else none)
    (h : TakesAtOnce s (.kfirst d a)) :
    let v := if n < s.hart.vr.vl then BitVec.ofNat 64 n else -1
    ((s.hart.queue (d.toNat - 24)).length < 16 →
      ∃ u, exec (.kfirst d a) s = .next u ∧ PushedOnly s u (d.toNat - 24) v ∧ u.hart.fl = s.hart.fl) ∧
    (16 ≤ (s.hart.queue (d.toNat - 24)).length → ∃ u, exec (.kfirst d a) s = .next u ∧ WaitsQueued s u (.kfirst d a)) := by
  have hf : VFields (encode (.kfirst d a)) 39#6 d a _ _ _ := fields_tail16 ..
  refine push_results h rfl hf (v := fun s => if n < s.hart.vr.vl then BitVec.ofNat 64 n else -1) fun c => ?_
  show pushResult _ _ (match lowestBit ((s.past c).hart.kreg (wA (encode (.kfirst d a)))) (s.past c).hart.vr.vl with
    | some i => BitVec.ofNat 64 i | none => -1) = _
  rw [hf.wA_eq]
  change pushResult _ _ (match lowestBit (s.hart.kreg a.toNat) s.hart.vr.vl with | some i => BitVec.ofNat 64 i | none => -1) = _
  rw [hn]
  by_cases hlt : n < s.hart.vr.vl
  · rw [if_pos hlt, if_pos hlt]
  · rw [if_neg hlt, if_neg hlt]
end

/-- Settles O36: compares are the element loop into a mask register; mask operations write or push what their row says. -/
theorem maskResults : Obligations.MaskResults := by
  unfold Obligations.MaskResults
  refine ⟨fun s d a b k t c => ?_, fun s d a b => ⟨?_, fun n hlow hbit hle => ?_⟩⟩
  · have ints (p : Int → Int → Bool) {vv vx : Instr} {f g : BitVec 6} (hvv : encode vv = vword 38#6 d a b k (bit1 t) f (bit1 c))
        (hvx : encode vx = vword 38#6 d a b k (bit1 t) g (bit1 c)) := vcmp_computes_int (s := s) p (hvv ▸ fields_vword ..) (hvx ▸ fields_vword ..)
    have floats (rel : Relation) {vv vx : Instr} {f g : BitVec 6} (hvv : encode vv = vword 38#6 d a b k (bit1 t) f (bit1 c))
        (hvx : encode vx = vword 38#6 d a b k (bit1 t) g (bit1 c)) :=
      vcmp_computes (s := s) (rel := rel) (hvv ▸ fields_vword ..) (hvx ▸ fields_vword ..)
    simp only [List.forall_mem_cons, List.not_mem_nil, false_imp_iff, implies_true, and_true]
    refine ⟨?_, ?_, ?_, ?_, ?_, ?_, ?_, ?_, ?_, ?_⟩
    · exact ints (fun x y => decide (x = y)) rfl rfl rfl rfl
    · exact ints (fun x y => decide (x ≠ y)) rfl rfl rfl rfl
    · exact ints (fun x y => decide (x < y)) rfl rfl rfl rfl
    · exact ints (fun x y => decide (x ≤ y)) rfl rfl rfl rfl
    · exact ints (fun x y => decide (y < x)) rfl rfl rfl rfl
    · exact ints (fun x y => decide (y ≤ x)) rfl rfl rfl rfl
    · exact floats (fun t a y => fEq t.fmt a y) rfl rfl rfl rfl
    · exact floats (fun t a y => (!(fEq t.fmt a y).1, (fEq t.fmt a y).2)) rfl rfl rfl rfl
    · exact floats (fun t a y => fLt t.fmt a y) rfl rfl rfl rfl
    · exact floats (fun t a y => fLe t.fmt a y) rfl rfl rfl rfl
  · simp only [List.forall_mem_cons, List.not_mem_nil, false_imp_iff, implies_true, and_true]
    refine ⟨fun h => ?_, fun h => ?_, fun h => ?_, fun h => ?_, fun h => ?_, fun h => ?_, fun h => ?_⟩
    · exact kBody_results (op := fun _ a b i => a.getLsbD i && b.getLsbD i) h rfl (fields_tail11 ..)
    · exact kBody_results (op := fun _ a b i => a.getLsbD i || b.getLsbD i) h rfl (fields_tail11 ..)
    · exact kBody_results (op := fun _ a b i => a.getLsbD i != b.getLsbD i) h rfl (fields_tail11 ..)
    · exact kBody_results (op := fun _ a _ i => !a.getLsbD i) h rfl (fields_tail16 ..)
    · rw [kshl1_bit]
      exact kBody_results (op := fun _ a _ i => decide (0 < i) && a.getLsbD (i - 1)) h rfl (fields_tail16 ..)
    · rw [kshr1_bit]
      exact kBody_results (op := fun vl a _ i => decide (i + 1 < vl) && a.getLsbD (i + 1)) h rfl (fields_tail16 ..)
    · exact kBody_results (op := fun _ a _ i => a.getLsbD i) h rfl (fields_tail16 ..)
  · simp only [List.forall_mem_cons, List.not_mem_nil, false_imp_iff, implies_true, and_true]
    exact ⟨kpopc_results, kfirst_results (lowestBit_eq hlow hbit hle)⟩

end Sys2Proof.Machine
end

section
/-! PROOFS. Vector words (06), part 7: block headers (R45), and destinations written without events (R153 to R156). -/
namespace Sys2Proof.Machine

/-! ### Block headers (R45) -/

/-- The fields of a number, joined. -/
theorem joinNat_elemOf (w x : Nat) : ∀ n, joinNat w (elemOf x w) n = x % 2 ^ (w * n)
  | 0 => by simp [joinNat, Nat.mod_one]
  | n + 1 => by
    rw [joinNat, joinNat_elemOf w x n, elemOf_mod, Nat.mul_succ, pow_add, Nat.mod_mul, Nat.mul_comm (2 ^ (w * n))]
    rfl

/-- The headers of a group, read back after they are written. -/
theorem Hart.headers_putHeaders (h : Hart) {d n per x : Nat} (hfit : d + n ≤ 32) (hper : 8 * per ≤ 512) (hx : x < 2 ^ (8 * per * n)) :
    (h.putHeaders d n per x).headers d n per = x := by
  unfold Hart.headers
  rw [joinNat_congr (g := elemOf x (8 * per)), joinNat_elemOf, Nat.mod_eq_of_lt hx]
  intro j hj
  have hd : (d + j) % 32 = d + j := by omega
  have hsub : d + j - d = j := by omega
  simp only [Hart.putHeaders, Vector.get_eq_getElem, Vector.getElem_ofFn, hd, hsub]
  rw [if_pos (by omega), BitVec.toNat_ofNat, Nat.mod_mod_of_dvd _ (Nat.pow_dvd_pow 2 hper), Nat.mul_comm, Nat.mul_add_mod, elemOf_mod, elemOf,
    Nat.mod_mod]

/-- The headers of a register fit its sideband. -/
theorem hdrBytes_le {n w : Nat} (hn : n ≤ 8) (hw : w ∈ [2, 4, 8]) : 8 * hdrBytes n w ≤ 512 := by
  unfold hdrBytes
  simp only [List.mem_cons, List.not_mem_nil, or_false] at hw
  rcases hw with rfl | rfl | rfl <;> omega

theorem elemOf_headers_putHeaders {h : Hart} {d n per : Nat} (f : Nat → Nat) (hfit : d + n ≤ 32) (hper : 8 * per ≤ 512) {b : Nat}
    (hb : b < n * per) : elemOf ((h.putHeaders d n per (joinNat 8 f (n * per))).headers d n per) 8 b = f b % 2 ^ 8 := by
  have hlt : joinNat 8 f (n * per) < 2 ^ (8 * per * n) := by
    rw [Nat.mul_assoc, Nat.mul_comm per]
    exact joinNat_lt ..
  rw [Hart.headers_putHeaders h hfit hper hlt, elemOf_joinNat 8 f _ b hb]

section
variable {h : Hart} {d n per x : Nat}

theorem Hart.putHeaders_v : (h.putHeaders d n per x).v = h.v := by
  unfold Hart.putHeaders
  rfl
theorem Hart.putHeaders_k : (h.putHeaders d n per x).k = h.k := by
  unfold Hart.putHeaders
  rfl
theorem Hart.putHeaders_fl : (h.putHeaders d n per x).fl = h.fl := by
  unfold Hart.putHeaders
  rfl
theorem Hart.putHeaders_vr : (h.putHeaders d n per x).vr = h.vr := by
  unfold Hart.putHeaders
  rfl
theorem Hart.putHeaders_group (b m : Nat) : (h.putHeaders d n per x).group b m = h.group b m := by
  unfold Hart.group Hart.vreg
  rw [Hart.putHeaders_v, Hart.putHeaders_vr]
theorem Hart.putHeaders_other {r : Fin 32} (hr : r.val < d ∨ d + n ≤ r.val) : (h.putHeaders d n per x).hdr.get r = h.hdr.get r := by
  simp only [Hart.putHeaders, Vector.get_eq_getElem, Vector.getElem_ofFn]
  rw [if_neg (by omega)]
end

theorem Hart.headers_congr {g h : Hart} (hh : g.hdr = h.hdr) (d n per : Nat) : g.headers d n per = h.headers d n per := by
  unfold Hart.headers
  rw [hh]

theorem hdrByte_onHart {s : State} {c : Convoy} {g : Hart → Hart} {d : Reg} {b : Nat} (hg : WritesVector g) :
    ((s.past c).onHart g).hdrByte d b = elemOf ((g (s.past c).hart).headers d.toNat s.hart.vt.g s.hart.vt.per) 8 b := by
  show elemOf ((g (s.past c).hart).headers d.toNat (g (s.past c).hart).vt.g (g (s.past c).hart).vt.per) 8 b = _
  rw [hg.vt]
  rfl

/-! ### A destination written without events -/

/-- R140 with any choice of the elements that take their value. -/
def ruledOn (s : State) (d : Reg) (act : Nat → Bool) (val : Nat → Nat) (e : Nat) : Nat :=
  if act e then val e % 2 ^ s.hart.vt.ew
  else if e < s.hart.vr.vl then (if s.hart.vt.mp then 0 else s.elem d e) else if s.hart.vt.tp then 0 else s.elem d e

/-- Values of the active elements alone count. -/
theorem ruledOn_congr {s : State} {d : Reg} {act : Nat → Bool} {f g : Nat → Nat} {e : Nat} (h : act e = true → f e = g e) :
    ruledOn s d act f e = ruledOn s d act g e := by
  unfold ruledOn
  split
  · rename_i ha
    rw [h ha]
  · rfl

/-- What a word without events leaves, from the state `s0` that its operands leave: elements as chosen, nothing else changed but headers. -/
def WritesAlone (s s0 u : State) (d : Reg) (act : Nat → Bool) (val : Nat → Nat) : Prop :=
  (VectorOnly s0 u d s.hart.vt.g ∧ u.hart.fl = s.hart.fl) ∧ ∀ e, e < s.hart.vt.vlmax → u.elem d e = ruledOn s d act val e

theorem WritesAlone.writes {s s0 u : State} {d : Reg} {k : BitVec 3} {val : Nat → Nat} (h : WritesAlone s s0 u d (s.isActive k) val) :
    Writes s u d k val :=
  fun e he => (h.2 e he).trans (ruled_eq s d k val e).symm

/-- The destination's headers go with the blocks under blocked-narrow, and stay otherwise (R45). -/
def putMoved (t : VT) (d : Nat) (act : Nat → Bool) (val : Nat → Nat) (written : Nat → Bool) (src : Nat → Nat) (h : Hart) : Hart :=
  if t.cls = 5 then putBlockHeaders t d t.g t.per written src (putElems t 0 d act val t.vlmax h) else putElems t 0 d act val t.vlmax h

section
variable {t : VT} {d : Nat} {act : Nat → Bool} {val : Nat → Nat} {written : Nat → Bool} {src : Nat → Nat} {h : Hart}

theorem putBlockHeaders_frame {cnt per : Nat} : WritesVector (putBlockHeaders t d cnt per written src) := by
  intro h
  unfold putBlockHeaders Hart.putHeaders
  rfl

theorem putMoved_frame : WritesVector (putMoved t d act val written src) := by
  unfold putMoved
  split
  · exact putBlockHeaders_frame.comp putElems_frame
  · exact putElems_frame
theorem putMoved_v : (putMoved t d act val written src h).v = (putElems t 0 d act val t.vlmax h).v := by
  unfold putMoved
  split
  · exact Hart.putHeaders_v
  · rfl
theorem putMoved_k : (putMoved t d act val written src h).k = h.k := by
  unfold putMoved
  split
  · exact Hart.putHeaders_k.trans putElems_k
  · exact putElems_k
theorem putMoved_fl : (putMoved t d act val written src h).fl = h.fl := by
  unfold putMoved
  split
  · exact Hart.putHeaders_fl.trans putElems_fl
  · exact putElems_fl
theorem putMoved_group (b n : Nat) : (putMoved t d act val written src h).group b n = (putElems t 0 d act val t.vlmax h).group b n := by
  unfold putMoved
  split
  · exact Hart.putHeaders_group ..
  · rfl
theorem putMoved_hdr (hc : t.cls ≠ 5) : (putMoved t d act val written src h).hdr = h.hdr := by
  unfold putMoved
  rw [if_neg hc]
  exact putElems_hdr
theorem putMoved_other {r : Fin 32} (hr : r.val < d ∨ d + t.g ≤ r.val) :
    (putMoved t d act val written src h).v.get r = h.v.get r ∧ (putMoved t d act val written src h).hdr.get r = h.hdr.get r := by
  refine ⟨(congrArg (·.get r) putMoved_v).trans (putElems_other hr), ?_⟩
  unfold putMoved
  split
  · exact (Hart.putHeaders_other hr).trans (congrArg (·.get r) putElems_hdr)
  · exact congrArg (·.get r) putElems_hdr

/-- The header of a block past a word that moves blocks. -/
theorem putMoved_header (hc : t.cls = 5) (hfit : d + t.g ≤ 32) (hper : 8 * t.per ≤ 512) {b : Nat} (hb : b < t.g * t.per) :
    elemOf ((putMoved t d act val written src h).headers d t.g t.per) 8 b = (if 32 * b < t.vl then
      (if written b then src b else elemOf (h.headers d t.g t.per) 8 b) else if t.tp then 0 else elemOf (h.headers d t.g t.per) 8 b) % 2 ^ 8 := by
  unfold putMoved putBlockHeaders
  rw [if_pos hc, elemOf_headers_putHeaders _ hfit hper hb, Hart.headers_congr putElems_hdr]
end

section
variable {s : State} {q : Vector (List Word) 8} {c : Convoy} {d : Reg} {act : Nat → Bool} {val : Nat → Nat}
variable {written : Nat → Bool} {src : Nat → Nat}
variable (hfit : d.toNat + s.hart.vt.g ≤ 32) (hquads : s.hart.vr.quads ≤ 8)
include hfit hquads

/-- A word that writes a destination and no header. -/
theorem writesAlone_putElems :
    let u := ((s.withQueues q).past c).onHart (putElems s.hart.vt 0 d.toNat act val s.hart.vt.vlmax)
    WritesAlone s (s.withQueues q) u d act val ∧ u.hart.hdr = s.hart.hdr := by
  refine ⟨⟨⟨?_, putElems_fl⟩, fun e he => ?_⟩, putElems_hdr⟩
  · exact vectorOnly_onHart putElems_frame putElems_k fun r hr => ⟨putElems_other hr, congrArg (·.get r) putElems_hdr⟩
  · rw [elem_onHart putElems_frame]
    exact (elemOf_putElems (h := ((s.withQueues q).past c).hart) act val _ hfit hquads he).trans (if_pos he)

/-- A word that writes a destination and moves headers with it. -/
theorem writesAlone_putMoved :
    let u := ((s.withQueues q).past c).onHart (putMoved s.hart.vt d.toNat act val written src)
    WritesAlone s (s.withQueues q) u d act val ∧ (s.hart.vt.cls ≠ 5 → u.hart.hdr = s.hart.hdr) := by
  refine ⟨⟨⟨?_, putMoved_fl⟩, fun e he => ?_⟩, putMoved_hdr⟩
  · exact vectorOnly_onHart putMoved_frame putMoved_k fun r hr => putMoved_other hr
  · rw [elem_onHart putMoved_frame, putMoved_group]
    exact (elemOf_putElems (h := ((s.withQueues q).past c).hart) act val _ hfit hquads he).trans (if_pos he)

/-- Where its headers come from. -/
theorem movesHeaders_putMoved (hc : s.hart.vt.cls = 5) (hew : s.hart.vt.ew ∈ [2, 4, 8]) {touched : Nat → Prop}
    (hw : ∀ b, written b = true ↔ touched b) (hsrc : ∀ b, src b < 2 ^ 8) :
    MovesHeaders s (((s.withQueues q).past c).onHart (putMoved s.hart.vt d.toNat act val written src)) d touched src := by
  intro b hb
  have hbyte := (hdrByte_onHart (s := s.withQueues q) (c := c) (b := b) (d := d) putMoved_frame).trans
    (putMoved_header (act := act) (val := val) (written := written) (src := src) hc hfit (hdrBytes_le hquads hew) hb)
  have hvl : s.hart.vt.vl = s.hart.vr.vl := rfl
  have hold : elemOf (((s.withQueues q).past c).hart.headers d.toNat s.hart.vt.g s.hart.vt.per) 8 b = s.hdrByte d b := rfl
  have hlt : s.hdrByte d b < 2 ^ 8 := elemOf_lt ..
  rw [hbyte, hold, hvl]
  refine ⟨fun hin => ⟨fun ht => ?_, fun ht => ?_⟩, fun hout => ?_⟩
  · rw [if_pos hin, if_pos ((hw b).2 ht), Nat.mod_eq_of_lt (hsrc b)]
  · rw [if_pos hin, if_neg fun h => ht ((hw b).1 h), Nat.mod_eq_of_lt hlt]
  · rw [if_neg (by omega)]
    split
    · rfl
    · exact Nat.mod_eq_of_lt hlt
end

/-- A block that holds a written element below VL. -/
def Touches (s : State) (k : BitVec 3) (b : Nat) : Prop :=
  ∃ e, e / 32 = b ∧ e < s.hart.vr.vl ∧ (s.hart.maskBit k e = true ∨ s.hart.vt.mp = true)

theorem blockWritten_iff (s : State) (k : BitVec 3) (b : Nat) : blockWritten s.hart.vt (s.isActive k) b = true ↔ Touches s k b := by
  have hvl : s.hart.vt.vl = s.hart.vr.vl := rfl
  unfold blockWritten Touches
  simp only [List.any_eq_true, List.mem_range', State.isActive_eq, hvl, Bool.and_eq_true, Bool.or_eq_true, decide_eq_true_eq]
  constructor
  · rintro ⟨e, ⟨i, hi, rfl⟩, hlt, h⟩
    exact ⟨_, by omega, hlt, h.imp And.right id⟩
  · rintro ⟨e, rfl, hlt, h⟩
    exact ⟨e, ⟨e % 32, by omega, by omega⟩, hlt, h.imp (And.intro hlt) id⟩

/-- A word of blocked-narrow type has a container of 2, 4 or 8 bits (R19, R79). -/
theorem TakesAtOnce.blocked {s : State} {i : Instr} {m : BitVec 6} {d a b : Reg} {k : BitVec 3} {f : BitVec 6} (h : TakesAtOnce s i)
    (hf : VFields (encode i) m d a b k f) (hm : m.toNat = 0x28 ∨ m.toNat = 0x2F) (hc : s.hart.vt.cls = 5) : s.hart.vt.ew ∈ [2, 4, 8] := by
  refine blocked_ew hc (((typeBad_eq_none h.typed).1 ?_).2 hc)
  unfold usesFmt
  rw [hf.wMaj_eq, decide_eq_true hc]
  rcases hm with hm | hm <;> rw [hm] <;> rfl

end Sys2Proof.Machine
end

section
/-! PROOFS. Vector words (06), part 8: moves and permutes (R153 to R156). -/
namespace Sys2Proof.Machine

theorem activeList_eq (s : State) (k : BitVec 3) : activeList s.hart.vt (s.isActive k) = s.actives k := (s.actives_eq k).symm

section
variable {s : State} {i : Instr} {body : Body} {m : BitVec 6} {d a b : Reg} {k : BitVec 3} {f : BitVec 6} {act : Nat → Bool} {val : Nat → Nat}
variable (h : TakesAtOnce s i) (hx : exec i s = vissue (encode i) body s) (hf : VFields (encode i) m d a b k f)
variable (hm : m.toNat = 0x28 ∨ m.toNat = 0x2F ∧ f.toNat ≤ 1)
include h hf hm

theorem TakesAtOnce.fits : d.toNat + s.hart.vt.g ≤ 32 := h.destination hf (hm.imp (by simp [·]) id)

include hx

/-- A word without a scalar operand that writes a destination and no header. -/
theorem places_of_body
    (hb : ∀ c, body (entryAt s.hart (encode i)) (s.past c) = .done ((s.past c).onHart (putElems s.hart.vt 0 d.toNat act val s.hart.vt.vlmax))) :
    ∃ u, exec i s = .next u ∧ WritesAlone s s u d act val ∧ u.hart.hdr = s.hart.hdr := by
  obtain ⟨c, hexec⟩ := exec_atOnce h hx
  rw [hb, VOut.state_done] at hexec
  exact ⟨_, hexec, writesAlone_putElems (q := s.hart.q) (h.fits hf hm) h.quads⟩

/-- A word without a scalar operand that moves blocks. -/
theorem moves_of_body {written : Nat → Bool} {touched : Nat → Prop} {src : Nat → Nat}
    (hb : ∀ c, body (entryAt s.hart (encode i)) (s.past c) = .done ((s.past c).onHart (putMoved s.hart.vt d.toNat act val written src)))
    (hw : ∀ b, written b = true ↔ touched b) (hsrc : ∀ b, src b < 2 ^ 8) :
    ∃ u, exec i s = .next u ∧ WritesAlone s s u d act val ∧ (s.hart.vt.cls ≠ 5 → u.hart.hdr = s.hart.hdr) ∧
      (s.hart.vt.cls = 5 → MovesHeaders s u d touched src) := by
  obtain ⟨c, hexec⟩ := exec_atOnce h hx
  rw [hb, VOut.state_done] at hexec
  have hfit := h.fits hf hm
  obtain ⟨hwr, hhdr⟩ := writesAlone_putMoved (q := s.hart.q) (c := c) (act := act) (val := val) (written := written) (src := src) hfit h.quads
  exact ⟨_, hexec, hwr, hhdr, fun hc =>
    movesHeaders_putMoved (q := s.hart.q) hfit h.quads hc (h.blocked hf (hm.imp id And.left) hc) hw hsrc⟩
end

theorem WritesAlone.congr {s s0 u : State} {d : Reg} {act : Nat → Bool} {f g : Nat → Nat} (h : WritesAlone s s0 u d act f)
    (hfg : ∀ e, act e = true → f e = g e) : WritesAlone s s0 u d act g :=
  ⟨h.1, fun e he => (h.2 e he).trans (ruledOn_congr (hfg e))⟩

section
variable {s : State} {d a b : Reg} {k : BitVec 3} {t c : Bool}

/-! ### Words without a scalar operand -/

theorem vmerge_results (h : TakesAtOnce s (.vmerge d a b k t c)) : ∃ u, exec (.vmerge d a b k t c) s = .next u ∧
    WritesAlone s s u d (s.isActive 0) (fun e => if s.hart.maskBit k e then s.elem b e else s.elem a e) ∧ u.hart.hdr = s.hart.hdr := by
  have hf : VFields (encode (.vmerge d a b k t c)) 40#6 d a b k 0#6 := fields_vword ..
  refine places_of_body h rfl hf (.inl rfl) fun c => ?_
  unfold vmergeBody
  simp only []
  rw [entryAt, hf.wA_eq, hf.wB_eq, hf.wD_eq, hf.wK_eq, BitVec.ofNat_toNat, BitVec.setWidth_eq, State.isActive_zero]
  refine congrArg (fun g => VOut.done { s.past c with hart := g }) ?_
  rfl

theorem vrgather_results (h : TakesAtOnce s (.vrgather d a b k t c)) : ∃ u, exec (.vrgather d a b k t c) s = .next u ∧
    WritesAlone s s u d (s.isActive k) (fun e => if s.elem b e < s.hart.vr.vl then s.elem a (s.elem b e) else 0) ∧ u.hart.hdr = s.hart.hdr := by
  have hf : VFields (encode (.vrgather d a b k t c)) 40#6 d a b k 4#6 := fields_vword ..
  refine places_of_body h rfl hf (.inl rfl) fun c => ?_
  unfold vrgatherBody
  simp only []
  rw [activeOf_entry rfl hf, entryAt, hf.wA_eq, hf.wB_eq, hf.wD_eq]
  rfl

theorem vexpand_results (h : TakesAtOnce s (.vexpand d a k t c)) : ∃ u, exec (.vexpand d a k t c) s = .next u ∧
    WritesAlone s s u d (s.isActive k) (fun e => s.elem a (((s.actives k).filter (· < e)).length)) ∧ u.hart.hdr = s.hart.hdr := by
  have hf : VFields (encode (.vexpand d a k t c)) 40#6 d a 0#5 k 6#6 := fields_vword ..
  obtain ⟨u, hexec, hw, hhdr⟩ := places_of_body (act := s.isActive k)
    (val := fun e => s.elem a (((List.range e).filter (s.isActive k)).length)) h rfl hf (.inl rfl) fun c => by
      unfold vexpandBody
      simp only []
      rw [activeOf_entry rfl hf, entryAt, hf.wA_eq, hf.wD_eq]
      rfl
  refine ⟨u, hexec, hw.congr fun e ha => ?_, hhdr⟩
  rw [s.actives_below k ((s.mem_actives k e).1 ((s.mem_actives_iff k e).2 ha)).1.le]

theorem vcompress_results (h : TakesAtOnce s (.vcompress d a k t c)) : ∃ u, exec (.vcompress d a k t c) s = .next u ∧
    WritesAlone s s u d (fun e => decide (e < (s.actives k).length)) (fun e => s.elem a ((s.actives k).getD e 0)) ∧ u.hart.hdr = s.hart.hdr := by
  have hf : VFields (encode (.vcompress d a k t c)) 40#6 d a 0#5 k 5#6 := fields_vword ..
  refine places_of_body h rfl hf (.inl rfl) fun c => ?_
  unfold vcompressBody
  simp only []
  rw [activeOf_entry rfl hf, entryAt, hf.wA_eq, hf.wD_eq, ← activeList_eq]
  rfl

theorem vmv_results (h : TakesAtOnce s (.vmv d a k c)) : ∃ u, exec (.vmv d a k c) s = .next u ∧
    WritesAlone s s u d (s.isActive k) (s.elem a) ∧ (s.hart.vt.cls ≠ 5 → u.hart.hdr = s.hart.hdr) ∧
    (s.hart.vt.cls = 5 → MovesHeaders s u d (Touches s k) (s.hdrByte a)) := by
  have hf : VFields (encode (.vmv d a k c)) 47#6 d a 0#5 k _ := fields_tail7 ..
  refine moves_of_body h rfl hf (.inr ⟨rfl, by decide⟩) (fun c => ?_) (blockWritten_iff s k) fun _ => elemOf_lt ..
  unfold vmvBody putMoved
  simp only []
  rw [activeOf_entry rfl hf, entryAt, hf.wA_eq, hf.wD_eq]
  rfl

/-- Element `e` of a permutation of blocks of 32. -/
def permutedElem (s : State) (a b : Reg) (e : Nat) : Nat :=
  let from_ := 32 * elemOf (s.hart.vreg b.toNat).toNat 8 (e / 32)
  if from_ < s.hart.vt.vlmax then s.elem a (from_ + e % 32) else 0
/-- The header at an element, 0 past the group. -/
def pickHeader (s : State) (a : Reg) (e : Nat) : Nat := if e < s.hart.vt.vlmax then s.hdrByte a (e / 32) else 0

theorem pickHeader_lt (s : State) (a : Reg) (e : Nat) : pickHeader s a e < 2 ^ 8 := by
  unfold pickHeader
  split
  · exact elemOf_lt ..
  · decide

/-- The block that a byte of the selector names, if the group has it. -/
def selectedBlock (t : VT) (sel b : Nat) : Option Nat := if 32 * elemOf sel 8 b < t.vlmax then some (elemOf sel 8 b) else none

/-- The elements and the headers of a permutation, by the block that the selector names. -/
theorem permutedElem_eq (s : State) (a b : Reg) : (fun e => match selectedBlock s.hart.vt (s.hart.vreg b.toNat).toNat (e / 32) with
    | some j => s.elem a (32 * j + e % 32)
    | none => 0) = permutedElem s a b := by
  funext e
  unfold selectedBlock permutedElem
  by_cases hin : 32 * elemOf (s.hart.vreg b.toNat).toNat 8 (e / 32) < s.hart.vt.vlmax
  · simp only [if_pos hin]
  · simp only [if_neg hin]
theorem permutedHeader_eq (s : State) (a b : Reg) : (fun blk => match selectedBlock s.hart.vt (s.hart.vreg b.toNat).toNat blk with
    | some j => s.hdrByte a j
    | none => 0) = fun blk => pickHeader s a (32 * elemOf (s.hart.vreg b.toNat).toNat 8 blk) := by
  funext blk
  unfold selectedBlock pickHeader
  by_cases hin : 32 * elemOf (s.hart.vreg b.toNat).toNat 8 blk < s.hart.vt.vlmax
  · simp only [if_pos hin, Nat.mul_div_cancel_left _ (show 0 < 32 by decide)]
  · simp only [if_neg hin]

theorem vpermblkBody_eq (e : VEntry) (s : State) (he : e.start = 0) :
    let sel := (s.hart.vreg (wB e.word)).toNat
    let src := selectedBlock s.hart.vt sel
    vpermblkBody e s = .done (s.onHart (putMoved s.hart.vt (wD e.word) (fun i => decide (i < s.hart.vt.vl))
      (fun i => match src (i / 32) with
        | some j => elemOf (s.hart.group (wA e.word) s.hart.vt.g) s.hart.vt.ew (32 * j + i % 32)
        | none => 0)
      (fun _ => true)
      fun b => match src b with
        | some j => elemOf (s.hart.headers (wA e.word) s.hart.vt.g s.hart.vt.per) 8 j
        | none => 0)) := by
  unfold vpermblkBody putMoved selectedBlock
  rw [he] <;> rfl

theorem vpermblk_results (h : TakesAtOnce s (.vpermblk d a b t c)) : ∃ u, exec (.vpermblk d a b t c) s = .next u ∧
    WritesAlone s s u d (s.isActive 0) (permutedElem s a b) ∧ (s.hart.vt.cls ≠ 5 → u.hart.hdr = s.hart.hdr) ∧
    (s.hart.vt.cls = 5 → MovesHeaders s u d (fun _ => True) fun blk => pickHeader s a (32 * elemOf (s.hart.vreg b.toNat).toNat 8 blk)) := by
  have hf : VFields (encode (.vpermblk d a b t c)) 40#6 d a b 0#3 7#6 := fields_vword ..
  refine moves_of_body (written := fun _ => true) h rfl hf (.inl rfl) (fun c => ?_) (fun _ => by simp) fun _ => pickHeader_lt ..
  rw [vpermblkBody_eq _ _ rfl]
  rw [entryAt, hf.wA_eq, hf.wB_eq, hf.wD_eq, State.isActive_zero, ← permutedElem_eq, ← permutedHeader_eq]
  rfl

end

/-! ### Words with a scalar operand -/

/-- `vbcast` past its operand. -/
def vbcastElems (v : Word) : Body := fun e s =>
  let t := s.hart.vt
  .done (s.onHart (putElems t e.start (wD e.word) (activeOf s e) (fun _ => v.toNat % 2 ^ t.ew) t.vlmax))

theorem vbcastBody_eq (e : VEntry) (s : State) : vbcastBody e s = withS e s vbcastElems := by
  unfold vbcastBody vbcastElems
  rfl

section
variable {s s0 : State} {d a b : Reg} {k : BitVec 3} {t c : Bool} {v : Word}

theorem vbcast_results (h : TakesAtOnce s (.vbcast d b k t c)) (ho : s.operand b = some (v, s0)) :
    ∃ u, exec (.vbcast d b k t c) s = .next u ∧ WritesAlone s s0 u d (s.isActive k) (fun _ => v.toNat % 2 ^ s.hart.vt.ew) ∧
      u.hart.hdr = s.hart.hdr := by
  have hf : VFields (encode (.vbcast d b k t c)) 40#6 d 0#5 b k 1#6 := fields_vword ..
  obtain ⟨x, e, he, hexec⟩ := exec_withS (cont := fun _ => vbcastElems) h rfl hf (by decide) (fun _ => vbcastBody_eq ..) ho
  obtain ⟨q, rfl⟩ := State.operand_queues ho
  have hbody : vbcastElems v e ((s.withQueues q).past x) = .done (((s.withQueues q).past x).onHart
      (putElems s.hart.vt 0 d.toNat (s.isActive k) (fun _ => v.toNat % 2 ^ s.hart.vt.ew) s.hart.vt.vlmax)) := by
    unfold vbcastElems
    simp only []
    rw [activeOf_entry he.word hf, he.word, hf.wD_eq, he.start]
    rfl
  rw [hbody, VOut.state_done] at hexec
  exact ⟨_, hexec, writesAlone_putElems (h.fits hf (.inl rfl)) h.quads⟩

/-! ### The first element of a destination (R153) -/

/-- A number whose lowest field is replaced. -/
theorem elemOf_replace_first {g w x : Nat} (hx : x < 2 ^ w) (e : Nat) : elemOf (g - g % 2 ^ w + x) w e = if e = 0 then x else elemOf g w e := by
  have hg : g - g % 2 ^ w = 2 ^ w * (g / 2 ^ w) := by
    have := Nat.div_add_mod g (2 ^ w)
    omega
  rw [hg]
  unfold elemOf
  cases e with
  | zero => simp [Nat.mod_eq_of_lt hx]
  | succ e =>
    have hpow : 2 ^ (w * (e + 1)) = 2 ^ w * 2 ^ (w * e) := by rw [← pow_add]; congr 1; ring
    rw [if_neg (by omega), hpow, ← Nat.div_div_eq_div_mul, ← Nat.div_div_eq_div_mul, Nat.mul_add_div (Nat.two_pow_pos _),
      Nat.div_eq_of_lt hx, Nat.add_zero]

theorem replace_first_lt {g w n x : Nat} (hg : g < 2 ^ n) (hw : w ≤ n) (hx : x < 2 ^ w) : g - g % 2 ^ w + x < 2 ^ n := by
  have hdm := Nat.div_add_mod g (2 ^ w)
  have hpow : 2 ^ n = 2 ^ w * 2 ^ (n - w) := by rw [← pow_add]; congr 1; omega
  have hq : g / 2 ^ w < 2 ^ (n - w) := Nat.div_lt_of_lt_mul (hpow ▸ hg)
  calc g - g % 2 ^ w + x < 2 ^ w * (g / 2 ^ w) + 2 ^ w := by omega
    _ = 2 ^ w * (g / 2 ^ w + 1) := by ring
    _ ≤ 2 ^ n := hpow ▸ Nat.mul_le_mul_left _ hq

theorem Hart.group_lt (h : Hart) (b n : Nat) : h.group b n < 2 ^ (512 * h.vr.quads * n) := joinNat_lt ..

section
variable {h : Hart} {b n x : Nat}

theorem Hart.putGroup_writes : WritesVector fun h => h.putGroup b n x := by
  intro h
  unfold Hart.putGroup
  rfl
theorem Hart.putGroup_hdr : (h.putGroup b n x).hdr = h.hdr := by
  unfold Hart.putGroup
  rfl
theorem Hart.putGroup_k : (h.putGroup b n x).k = h.k := by
  unfold Hart.putGroup
  rfl
theorem Hart.putGroup_fl : (h.putGroup b n x).fl = h.fl := by
  unfold Hart.putGroup
  rfl
end

/-- An element fits a group that holds one. -/
theorem ew_le_group {h : Hart} {e : Nat} (he : e < h.vt.vlmax) : h.vt.ew ≤ 512 * h.vr.quads * h.vt.g :=
  (Nat.le_mul_of_pos_right _ (by omega)).trans (vlmax_fits h)

/-- `vmv.s` past its operand. -/
def firstElem (v : Word) : Body := fun e s =>
  let t := s.hart.vt
  let old := s.hart.group (wD e.word) t.g
  if t.vl = 0 then .done s else .done (s.onHart (·.putGroup (wD e.word) t.g (old - old % 2 ^ t.ew + v.toNat % 2 ^ t.ew)))

theorem vmvSBody_eq (e : VEntry) (s : State) : vmvSBody e s = withS e s firstElem := by
  unfold vmvSBody firstElem
  rfl

theorem vmvS_results (h : TakesAtOnce s (.vmvS d b c)) (ho : s.operand b = some (v, s0)) :
    ∃ u, exec (.vmvS d b c) s = .next u ∧ ((VectorOnly s0 u d s.hart.vt.g ∧ u.hart.fl = s.hart.fl) ∧ u.hart.hdr = s.hart.hdr) ∧
      ∀ e, e < s.hart.vt.vlmax → u.elem d e = if e = 0 ∧ 0 < s.hart.vr.vl then v.toNat % 2 ^ s.hart.vt.ew else s.elem d e := by
  have hf : VFields (encode (.vmvS d b c)) 47#6 d 0#5 b _ _ := fields_tail10 ..
  obtain ⟨x, e, he, hexec⟩ := exec_withS (cont := fun _ => firstElem) h rfl hf (by decide) (fun _ => vmvSBody_eq ..) ho
  obtain ⟨q, rfl⟩ := State.operand_queues ho
  unfold firstElem at hexec
  simp only [] at hexec
  rw [he.word, hf.wD_eq] at hexec
  change exec (.vmvS d b c) s = .next (if s.hart.vr.vl = 0 then VOut.done ((s.withQueues q).past x) else
    .done (((s.withQueues q).past x).onHart (·.putGroup d.toNat s.hart.vt.g (s.hart.group d.toNat s.hart.vt.g -
      s.hart.group d.toNat s.hart.vt.g % 2 ^ s.hart.vt.ew + v.toNat % 2 ^ s.hart.vt.ew)))).state at hexec
  by_cases hvl : s.hart.vr.vl = 0
  · rw [if_pos hvl, VOut.state_done] at hexec
    refine ⟨_, hexec, ⟨⟨⟨rfl, fun _ _ => ⟨rfl, rfl⟩⟩, rfl⟩, rfl⟩, fun e _ => ?_⟩
    rw [if_neg (by omega)]
    rfl
  · rw [if_neg hvl, VOut.state_done] at hexec
    refine ⟨_, hexec, ⟨⟨vectorOnly_onHart Hart.putGroup_writes Hart.putGroup_k fun r hr =>
      ⟨Hart.putGroup_other _ _ _ _ r hr, congrArg (·.get r) Hart.putGroup_hdr⟩, Hart.putGroup_fl⟩, Hart.putGroup_hdr⟩, fun e hel => ?_⟩
    have hx : v.toNat % 2 ^ s.hart.vt.ew < 2 ^ s.hart.vt.ew := Nat.mod_lt _ (Nat.two_pow_pos _)
    rw [elem_onHart Hart.putGroup_writes]
    refine (congrArg (elemOf · _ e) (Hart.group_putGroup ((s.withQueues q).past x).hart _ _ _ (h.fits hf (.inr ⟨rfl, by decide⟩)) h.quads
      (replace_first_lt (Hart.group_lt s.hart d.toNat _) (ew_le_group hel) hx))).trans ((elemOf_replace_first hx e).trans ?_)
    by_cases he0 : e = 0
    · rw [if_pos he0, if_pos ⟨he0, by omega⟩]
    · rw [if_neg he0, if_neg fun h => he0 h.1]
      rfl
end

/-! ### Slides (R45, R79, R154) -/

section
variable (from_ : Nat → Nat → Option Nat) (s : State) (d a : Reg) (k : BitVec 3) (n : Nat)

/-- The elements that a slide by `n` gives, where destination element `e` comes from `from_ n e` or stays. -/
def slideElem (e : Nat) : Nat := match from_ n e with
  | some j => if j < s.hart.vt.vlmax then s.elem a j else 0
  | none => s.elem d e
/-- The header of a block. -/
def slideHeader (blk : Nat) : Nat := match from_ n (32 * blk) with
  | some j => pickHeader s a j
  | none => s.hdrByte d blk
/-- The elements that take these values: one that stays does so whatever its mask bit. -/
def slideActive (e : Nat) : Bool := if (from_ n e).isSome then s.isActive k e else decide (e < s.hart.vt.vl)
end

/-- A slide past its operand. -/
def slideElems (from_ : Nat → Nat → Option Nat) (v : Word) : Body := fun e s =>
  let t := s.hart.vt
  let n := slideBy t v
  if t.cls = 5 ∧ n % 32 ≠ 0 then .trap e .illegalType (e.word.setWidth 64) 0 s
  else
    let a := s.hart.group (wA e.word) t.g
    let old := s.hart.group (wD e.word) t.g
    let ah := s.hart.headers (wA e.word) t.g t.per
    let oh := s.hart.headers (wD e.word) t.g t.per
    let act := activeOf s e
    let val := fun i => match from_ n i with | some j => pick t a j | none => elemOf old t.ew i
    let hdr := fun b => match from_ n (32 * b) with
      | some j => if j < t.vlmax then elemOf ah 8 (j / 32) else 0
      | none => elemOf oh 8 b
    let hs := fun h : Hart => if t.cls = 5 then putBlockHeaders t (wD e.word) t.g t.per (blockWritten t act) hdr h else h
    .done (s.onHart fun h => hs (putElems t e.start (wD e.word) (fun i => if (from_ n i).isSome then act i else decide (i < t.vl)) val t.vlmax h))

theorem slideBody_eq (from_ : Nat → Nat → Option Nat) (e : VEntry) (s : State) : slideBody from_ e s = withS e s (slideElems from_) := by
  unfold slideBody slideElems
  rfl

section
variable {from_ : Nat → Nat → Option Nat} {s s0 : State} {i : Instr} {c : Convoy} {e : VEntry} {d a b : Reg} {k : BitVec 3}
variable {f : BitVec 6} {v : Word}

theorem slideElems_eq (he : e.Of s (encode i)) (hf : VFields (encode i) 40#6 d a b k f) :
    slideElems from_ v e (s.past c) =
      if s.hart.vt.cls = 5 ∧ slideBy s.hart.vt v % 32 ≠ 0 then .trap e .illegalType (e.word.setWidth 64) 0 (s.past c)
      else .done ((s.past c).onHart (putMoved s.hart.vt d.toNat (slideActive from_ s k (slideBy s.hart.vt v))
        (slideElem from_ s d a (slideBy s.hart.vt v)) (blockWritten s.hart.vt (s.isActive k)) (slideHeader from_ s d a (slideBy s.hart.vt v)))) := by
  unfold slideElems
  simp only []
  rw [activeOf_entry he.word hf, he.word, hf.wD_eq, hf.wA_eq, he.start]
  unfold slideActive slideElem slideHeader putMoved
  rfl

theorem slideHeader_lt (n blk : Nat) : slideHeader from_ s d a n blk < 2 ^ 8 := by
  unfold slideHeader
  split
  · exact pickHeader_lt ..
  · exact elemOf_lt ..

theorem slide_waits (h : TakesAtOnce s i) (hx : exec i s = vissue (encode i) (slideBody from_) s) (hf : VFields (encode i) 40#6 d a b k f)
    (ho : s.operand b = none) : ∃ u, exec i s = .next u ∧ WaitsQueued s u i :=
  exec_withS_waits (cont := fun _ => slideElems from_) h hx hf (fun _ => slideBody_eq ..) ho

/-- What a slide does: a trap when blocks would be cut, the elements and headers otherwise. -/
theorem slide_results (h : TakesAtOnce s i) (hx : exec i s = vissue (encode i) (slideBody from_) s) (hf : VFields (encode i) 40#6 d a b k f)
    (ho : s.operand b = some (v, s0)) {n : Nat} (hn : n = slideBy s.hart.vt v) :
    (s.hart.vt.cls = 5 → n % 32 ≠ 0 → Handles s .illegalType →
      ∃ u, exec i s = .next u ∧ TrappedAt s u i .illegalType 0 ∧ u.hart.v = s.hart.v) ∧
    (¬ s.hart.vt.cls = 5 ∨ n % 32 = 0 → ∃ u, exec i s = .next u ∧
      WritesAlone s s0 u d (slideActive from_ s k n) (slideElem from_ s d a n) ∧
      (s.hart.vt.cls ≠ 5 → u.hart.hdr = s.hart.hdr) ∧
      (s.hart.vt.cls = 5 → MovesHeaders s u d (Touches s k) (slideHeader from_ s d a n))) := by
  subst hn
  obtain ⟨c, e, he, hexec⟩ := exec_withS (cont := fun _ => slideElems from_) h hx hf (by decide) (fun _ => slideBody_eq ..) ho
  obtain ⟨q, rfl⟩ := State.operand_queues ho
  rw [slideElems_eq (s := s.withQueues q) ⟨he.word, he.pc, he.start⟩ hf] at hexec
  change exec i s = .next (if s.hart.vt.cls = 5 ∧ slideBy s.hart.vt v % 32 ≠ 0 then VOut.trap e .illegalType (e.word.setWidth 64) 0
    ((s.withQueues q).past c) else .done (((s.withQueues q).past c).onHart (putMoved s.hart.vt d.toNat (slideActive from_ s k (slideBy s.hart.vt v))
        (slideElem from_ s d a (slideBy s.hart.vt v)) (blockWritten s.hart.vt (s.isActive k)) (slideHeader from_ s d a (slideBy s.hart.vt v))))).state
    at hexec
  refine ⟨fun hc hn hh => ?_, fun hn => ?_⟩
  · rw [if_pos ⟨hc, hn⟩, VOut.state_trap] at hexec
    obtain ⟨htrap, hv, -⟩ := parkTrap_results (s := s) (t := (s.withQueues q).past c) (j := 0) rfl he hh rfl
    exact ⟨_, hexec, htrap, hv⟩
  · rw [if_neg (by tauto), VOut.state_done] at hexec
    have hfit := h.fits hf (.inl rfl)
    exact ⟨_, hexec, (writesAlone_putMoved hfit h.quads).1, (writesAlone_putMoved hfit h.quads).2, fun hc =>
      movesHeaders_putMoved hfit h.quads hc (h.blocked hf (.inl rfl) hc) (blockWritten_iff s k) fun blk => slideHeader_lt ..⟩

end

/-- Where the elements of the two slides come from. -/
def slideUpFrom (n e : Nat) : Option Nat := if e < n then none else some (e - n)
def slideDownFrom (n e : Nat) : Option Nat := some (e + n)

/-- The elements of a slide, where those that `stays` names keep theirs below VL. -/
def Slides (s u : State) (d : Reg) (k : BitVec 3) (stays : Nat → Prop) (val : Nat → Nat) : Prop :=
  ∀ e, e < s.hart.vt.vlmax → (stays e ∧ e < s.hart.vr.vl → u.elem d e = s.elem d e) ∧
    (¬ (stays e ∧ e < s.hart.vr.vl) → u.elem d e = ruled s d k val e)

section
variable {s s0 u : State} {d a : Reg} {k : BitVec 3} {n : Nat}

theorem WritesAlone.slidesUp (h : WritesAlone s s0 u d (slideActive slideUpFrom s k n) (slideElem slideUpFrom s d a n)) :
    Slides s u d k (fun e => e < n) fun e => if e < n then s.elem d e else if e - n < s.hart.vt.vlmax then s.elem a (e - n) else 0 := by
  have hvl : s.hart.vt.vl = s.hart.vr.vl := rfl
  intro e he
  rw [h.2 e he, ruled_eq]
  unfold ruledOn slideActive slideElem slideUpFrom
  rw [hvl]
  by_cases hn : e < n
  · simp only [hn, true_and]
    refine ⟨fun hlt => ?_, fun hge => ?_⟩
    · simp [hlt, State.elem]
    · simp [hge, State.isActive_eq]
  · simp [hn]

theorem WritesAlone.slidesDown (h : WritesAlone s s0 u d (slideActive slideDownFrom s k n) (slideElem slideDownFrom s d a n)) :
    Slides s u d k (fun _ => False) fun e => if e + n < s.hart.vt.vlmax then s.elem a (e + n) else 0 :=
  fun e he => ⟨fun hf => hf.1.elim, fun _ => (h.2 e he).trans (ruled_eq ..).symm⟩

theorem slideHeader_up : slideHeader slideUpFrom s d a n =
    fun blk => if 32 * blk < n then s.hdrByte d blk else pickHeader s a (32 * blk - n) := by
  funext blk
  unfold slideHeader slideUpFrom
  by_cases hn : 32 * blk < n
  · simp only [if_pos hn]
  · simp only [if_neg hn]
end

section
variable {s s0 : State} {d a b : Reg} {k : BitVec 3} {t c : Bool} {v : Word} {n : Nat}

theorem vslideup_results (h : TakesAtOnce s (.vslideup d a b k t c)) (ho : s.operand b = some (v, s0)) (hn : n = slideBy s.hart.vt v) :
    (s.hart.vt.cls = 5 → n % 32 ≠ 0 → Handles s .illegalType →
      ∃ u, exec (.vslideup d a b k t c) s = .next u ∧ TrappedAt s u (.vslideup d a b k t c) .illegalType 0 ∧ u.hart.v = s.hart.v) ∧
    (¬ s.hart.vt.cls = 5 ∨ n % 32 = 0 → ∃ u, exec (.vslideup d a b k t c) s = .next u ∧
      (VectorOnly s0 u d s.hart.vt.g ∧ u.hart.fl = s.hart.fl) ∧ (s.hart.vt.cls ≠ 5 → u.hart.hdr = s.hart.hdr) ∧
      (s.hart.vt.cls = 5 → MovesHeaders s u d (Touches s k) fun blk => if 32 * blk < n then s.hdrByte d blk else pickHeader s a (32 * blk - n)) ∧
      Slides s u d k (fun e => e < n) fun e => if e < n then s.elem d e else if e - n < s.hart.vt.vlmax then s.elem a (e - n) else 0) := by
  obtain ⟨htrap, hmove⟩ := slide_results (from_ := slideUpFrom) h rfl (fields_vword ..) ho hn
  refine ⟨htrap, fun hn => ?_⟩
  obtain ⟨u, hexec, hw, hhdr, hmoves⟩ := hmove hn
  rw [slideHeader_up] at hmoves
  exact ⟨u, hexec, hw.1, hhdr, hmoves, hw.slidesUp⟩

theorem vslidedn_results (h : TakesAtOnce s (.vslidedn d a b k t c)) (ho : s.operand b = some (v, s0)) (hn : n = slideBy s.hart.vt v) :
    (s.hart.vt.cls = 5 → n % 32 ≠ 0 → Handles s .illegalType →
      ∃ u, exec (.vslidedn d a b k t c) s = .next u ∧ TrappedAt s u (.vslidedn d a b k t c) .illegalType 0 ∧ u.hart.v = s.hart.v) ∧
    (¬ s.hart.vt.cls = 5 ∨ n % 32 = 0 → ∃ u, exec (.vslidedn d a b k t c) s = .next u ∧
      (VectorOnly s0 u d s.hart.vt.g ∧ u.hart.fl = s.hart.fl) ∧ (s.hart.vt.cls ≠ 5 → u.hart.hdr = s.hart.hdr) ∧
      (s.hart.vt.cls = 5 → MovesHeaders s u d (Touches s k) fun blk => pickHeader s a (32 * blk + n)) ∧
      Slides s u d k (fun _ => False) fun e => if e + n < s.hart.vt.vlmax then s.elem a (e + n) else 0) := by
  obtain ⟨htrap, hmove⟩ := slide_results (from_ := slideDownFrom) h rfl (fields_vword ..) ho hn
  refine ⟨htrap, fun hn => ?_⟩
  obtain ⟨u, hexec, hw, hhdr, hmoves⟩ := hmove hn
  exact ⟨u, hexec, hw.1, hhdr, hmoves, hw.slidesDown⟩
end

/-! ### An element pushed (R153) -/

/-- Popping the operand leaves no queue longer. -/
theorem State.operand_queue_le {s s0 : State} {b : Reg} {v : Word} (ho : s.operand b = some (v, s0)) (n : Nat) :
    (s0.hart.queue n).length ≤ (s.hart.queue n).length := by
  obtain ⟨hx, hq⟩ := State.operand_eq ho
  by_cases hb : b.toNat < 24
  · rw [(hx hb).2]
  · obtain ⟨r, hr, rfl⟩ := hq (by omega)
    by_cases hn : n % 8 = (b.toNat - 24) % 8
    · have hold : s.hart.queue n = s.hart.queue (b.toNat - 24) := by simp only [Hart.queue, hn]
      have hnew : (s.hart.putQueue (b.toNat - 24) r).queue n = (s.hart.putQueue (b.toNat - 24) r).queue (b.toNat - 24) := by
        simp only [Hart.queue, hn]
      show ((s.hart.putQueue (b.toNat - 24) r).queue n).length ≤ _
      rw [hnew, Hart.queue_putQueue, hold, hr]
      exact Nat.le_succ _
    · exact (congrArg List.length (Hart.putQueue_other s.hart _ r (r := ⟨n % 8, by omega⟩) hn)).le

/-- A push with room for it. -/
theorem pushResult_room {e : VEntry} {s : State} {v : Word} {n : Nat} (hd : wD e.word - 24 = n) (h : (s.hart.queue n).length < 16) :
    pushResult e s v = .done (s.onHart (·.push n v)) := by
  unfold pushResult
  simp only []
  rw [hd, Hart.queueRoom_one, decide_eq_true h, if_pos rfl]

section
variable {s s0 : State} {d a b : Reg} {c : Bool} {v : Word}

/-- The value of an element that `vext` pushes. -/
def extracted (s : State) (a : Reg) (j : Nat) : Word :=
  if j < s.hart.vr.vl then (if s.hart.vt.isSigned then sextW (s.elem a j) s.hart.vt.ew else BitVec.ofNat 64 (s.elem a j)) else 0

/-- `vext` past its operand. -/
def extractElem (v : Word) : Body := fun e s =>
  let t := s.hart.vt
  let i := v.toNat % 2 ^ t.ew
  pushResult e s (if i < t.vl then elemWord t (elemOf (s.hart.group (wA e.word) t.g) t.ew i) else 0)

theorem vextBody_eq (e : VEntry) (s : State) : vextBody e s =
    if (s.hart.queue (wD e.word - 24)).length < 16 then withS e s extractElem else .block .queueReg e s := by
  unfold vextBody
  rw [Hart.queueRoom_one]
  by_cases h : (s.hart.queue (wD e.word - 24)).length < 16
  · rw [decide_eq_true h, if_pos h]
    rfl
  · rw [decide_eq_false h, if_neg h]
    rfl

theorem fields_vext : VFields (encode (.vext d a b c)) 47#6 d a b 0#3 2#6 := fields_tail10 ..

/-- With room in its queue, `vext` goes on to its operand. -/
theorem vextBody_room (hroom : (s.hart.queue (d.toNat - 24)).length < 16) (x : Convoy) :
    vextBody (entryAt s.hart (encode (.vext d a b c))) (s.past x) = withS (entryAt s.hart (encode (.vext d a b c))) (s.past x) extractElem := by
  have hd : wD (entryAt s.hart (encode (.vext d a b c))).word = d.toNat := fields_vext.wD_eq
  rw [vextBody_eq, hd]
  exact if_pos hroom

theorem vext_results (h : TakesAtOnce s (.vext d a b c)) (ho : s.operand b = some (v, s0)) (hroom : (s.hart.queue (d.toNat - 24)).length < 16) :
    ∃ u, exec (.vext d a b c) s = .next u ∧ u.hart.fl = s.hart.fl ∧
      PushedOnly s0 u (d.toNat - 24) (extracted s a (v.toNat % 2 ^ s.hart.vt.ew)) := by
  obtain ⟨x, e, he, hexec⟩ := exec_withS (cont := fun _ => extractElem) h rfl fields_vext (by decide) (fun x => vextBody_room hroom x) ho
  have hroom0 := (State.operand_queue_le ho (d.toNat - 24)).trans_lt hroom
  obtain ⟨q, rfl⟩ := State.operand_queues ho
  have hd : wD e.word - 24 = d.toNat - 24 := by rw [he.word, fields_vext.wD_eq]
  unfold extractElem at hexec
  simp only [] at hexec
  rw [pushResult_room (s := (s.withQueues q).past x) hd hroom0, VOut.state_done, he.word, fields_vext.wA_eq] at hexec
  have hword (j : Nat) : elemWord s.hart.vt (s.elem a j) =
      if s.hart.vt.isSigned then sextW (s.elem a j) s.hart.vt.ew else BitVec.ofNat 64 (s.elem a j) := by
    unfold elemWord
    rw [Nat.mod_eq_of_lt (s.elem_lt a j)]
  refine ⟨_, hexec, rfl, ?_⟩
  unfold extracted
  rw [← hword]
  exact pushedOnly_past ..

theorem vext_waits_operand (h : TakesAtOnce s (.vext d a b c)) (ho : s.operand b = none) (hroom : (s.hart.queue (d.toNat - 24)).length < 16) :
    ∃ u, exec (.vext d a b c) s = .next u ∧ WaitsQueued s u (.vext d a b c) :=
  exec_withS_waits (cont := fun _ => extractElem) h rfl fields_vext (fun x => vextBody_room hroom x) ho

theorem vext_waits_room (h : TakesAtOnce s (.vext d a b c)) (hfull : 16 ≤ (s.hart.queue (d.toNat - 24)).length) :
    ∃ u, exec (.vext d a b c) s = .next u ∧ WaitsQueued s u (.vext d a b c) := by
  refine exec_waits (w := .queueReg) h rfl fun x => ?_
  have hd : wD (entryAt s.hart (encode (.vext d a b c))).word = d.toNat := fields_vext.wD_eq
  rw [vextBody_eq, hd]
  exact if_neg (by show ¬ (s.hart.queue (d.toNat - 24)).length < 16; omega)
end

/-! ### Moves between the streams by the scalar pipe (R153) -/

theorem qput_results (s : State) (d a : Reg) (hc : s.hart.quads.count ≠ 0) : exec (.qput d a) s =
    if (s.hart.queue (d.toNat - 24)).length < 16 then
      .next (s.onHart fun h => h.putQueue (d.toNat - 24) (h.queue (d.toNat - 24) ++ [s.get a])).advance
    else .next (s.waitFor .queueReg) := by
  show execQput d a s = _
  unfold execQput
  simp only []
  rw [if_neg hc, Hart.queueRoom_one]
  by_cases hroom : (s.hart.queue (d.toNat - 24)).length < 16
  · rw [decide_eq_true hroom, if_pos hroom]
    rfl
  · rw [decide_eq_false hroom, if_neg hroom]
    rfl

theorem qput_traps (s : State) (d a : Reg) (hc : s.hart.quads.count = 0) : exec (.qput d a) s = .next (s.trap .illegalType 0) := by
  show execQput d a s = _
  unfold execQput
  exact if_pos hc

theorem qget_results (s : State) (d a : Reg) : (∀ v r, s.hart.queue (a.toNat - 24) = v :: r →
      exec (.qget d a) s = .next ((s.onHart (·.putQueue (a.toNat - 24) r)).set d v).advance) ∧
    (s.hart.queue (a.toNat - 24) = [] → exec (.qget d a) s = .next (s.waitFor .queueReg)) := by
  refine ⟨fun v r hq => ?_, fun hq => ?_⟩
  · show execQget d a s = _
    unfold execQget
    simp only [hq]
    rfl
  · show execQget d a s = _
    unfold execQget
    simp only [hq]

/-- Settles O37: each word writes its destination and, where it moves blocks, their headers; the moves to queues push one value. -/
theorem moveResults : Obligations.MoveResults := by
  unfold Obligations.MoveResults
  refine ⟨fun s d a b k t c => ?_, fun s d a hc => ⟨fun hroom => ?_, fun hfull => ?_⟩, qput_traps, qget_results⟩
  · simp only [List.forall_mem_cons, List.not_mem_nil, false_imp_iff, implies_true, and_true]
    refine ⟨⟨fun h => ?_, fun h => ?_, fun h => ?_⟩, fun h => ?_, fun h => ?_, fun h => ?_,
      fun v s0 ho => ⟨fun h => ?_, vmvS_results (ho := ho), ⟨fun h => ?_, fun h => ?_⟩, fun h hroom => vext_results h ho hroom⟩,
      fun ho => ⟨⟨fun h => ?_, fun h => ?_, fun h => ?_, fun h => ?_⟩, fun h hroom => vext_waits_operand h ho hroom⟩, vext_waits_room⟩
    · obtain ⟨u, hexec, hw, hhdr⟩ := vmerge_results h
      exact ⟨u, hexec, hw.writes, hw.1, hhdr⟩
    · obtain ⟨u, hexec, hw, hhdr⟩ := vrgather_results h
      exact ⟨u, hexec, hw.writes, hw.1, hhdr⟩
    · obtain ⟨u, hexec, hw, hhdr⟩ := vexpand_results h
      exact ⟨u, hexec, hw.writes, hw.1, hhdr⟩
    · obtain ⟨u, hexec, hw, hhdr, hmoves⟩ := vmv_results h
      exact ⟨u, hexec, hw.writes, hw.1, hhdr, hmoves⟩
    · obtain ⟨u, hexec, hw, hhdr⟩ := vcompress_results h
      exact ⟨u, hexec, fun e he => by simp [hw.2 e he, ruledOn, Nat.mod_eq_of_lt (s.elem_lt a _)], hw.1, hhdr⟩
    · obtain ⟨u, hexec, hw, hhdr, hmoves⟩ := vpermblk_results h
      exact ⟨u, hexec, hw.1, hw.writes, hhdr, hmoves⟩
    · obtain ⟨u, hexec, hw, hhdr⟩ := vbcast_results h ho
      exact ⟨u, hexec, hw.writes, hw.1, hhdr⟩
    · exact vslideup_results h ho rfl
    · exact vslidedn_results h ho rfl
    · exact exec_withS_waits (cont := fun _ => vbcastElems) h rfl (fields_vword ..) (fun _ => vbcastBody_eq ..) ho
    · exact exec_withS_waits (cont := fun _ => firstElem) h rfl (fields_tail10 ..) (fun _ => vmvSBody_eq ..) ho
    · exact slide_waits h rfl (fields_vword ..) ho
    · exact slide_waits h rfl (fields_vword ..) ho
  · rw [qput_results s d a hc, if_pos hroom]
  · rw [qput_results s d a hc, if_neg (by omega)]

end Sys2Proof.Machine
end

section
/-! PROOFS. Vector words (06), part 9: reductions (R53, R54, R157, R158). -/
namespace Sys2Proof.Machine

/-! ### Events that raise nothing -/

/-- Events of no class. -/
def Silent (evs : List (Nat × Ev)) : Prop := ∀ p ∈ evs, p.2 = {}

theorem Silent.append {l m : List (Nat × Ev)} (hl : Silent l) (hm : Silent m) : Silent (l ++ m) :=
  fun p hp => (List.mem_append.1 hp).elim (hl p) (hm p)

theorem Silent.cons {p : Nat × Ev} {l : List (Nat × Ev)} (hp : p.2 = {}) (hl : Silent l) : Silent (p :: l) :=
  List.forall_mem_cons.2 ⟨hp, hl⟩

theorem Silent.nil : Silent [] := fun _ h => absurd h List.not_mem_nil

theorem Silent.recordEvs {evs : List (Nat × Ev)} (h : Silent evs) (pc : Word) (fl : FlagRegs) : recordEvs evs pc fl = fl := by
  have hclass (f : FlagRegs) (c : Fin 6) : recordClass evs pc f c = f := by
    have hnone : (evs.filter fun p => p.2.has c.val) = [] := by
      rw [List.filter_eq_nil_iff]
      intro p hp
      rw [h p hp]
      revert c
      decide
    unfold recordClass lowestOf
    rw [hnone]
    rfl
  simp only [Machine.recordEvs, List.foldl_cons, List.foldl_nil, hclass]

theorem Silent.quiet {evs : List (Nat × Ev)} (h : Silent evs) (s : State) : QuietList s evs := by
  have hfold : evs.foldl (fun y e => y.or e.2) ({} : Ev) = {} := by
    induction evs with
    | nil => rfl
    | cons p l ih =>
      rw [List.foldl_cons, h p List.mem_cons_self]
      exact ih fun x hx => h x (List.mem_cons_of_mem _ hx)
  unfold QuietList
  rw [hfold]
  rfl

/-! ### Leaves -/

/-- The values of the active elements below VL, with their places. -/
def State.leaves (s : State) (k : BitVec 3) (a : Reg) : List Leaf :=
  (List.range s.hart.vr.vl).map fun e => if s.hart.maskBit k e then some (e, s.elem a e) else none

/-- The values that are there. -/
def present (l : List Leaf) : List Nat := (l.filterMap id).map Prod.snd

@[simp] theorem present_nil : present [] = [] := rfl
@[simp] theorem present_none (l : List Leaf) : present (none :: l) = present l := rfl
@[simp] theorem present_some (i x : Nat) (l : List Leaf) : present (some (i, x) :: l) = x :: present l := rfl

theorem leavesOf_eq (s : State) (k : BitVec 3) (a : Reg) :
    leavesOf s.hart.vt (s.isActive k) (s.hart.group a.toNat s.hart.vt.g) = s.leaves k a := by
  refine List.map_congr_left fun e he => ?_
  have hlt : e < s.hart.vr.vl := List.mem_range.1 he
  rw [State.isActive_eq, decide_eq_true hlt, Bool.true_and]
  rfl

theorem present_leaves (s : State) (k : BitVec 3) (a : Reg) : present (s.leaves k a) = (s.actives k).map (s.elem a) := by
  unfold State.leaves State.actives
  induction List.range s.hart.vr.vl with
  | nil => rfl
  | cons e l ih =>
    by_cases hm : s.hart.maskBit k e = true
    · simp [hm, ih]
    · simp [hm, ih]

/-! ### Integer results (R157) -/

section
variable {w : Nat}

/-- The sum of integers, modulo 2^w, raises nothing. -/
def wrapAdd (w : Nat) : Adder := fun x y => ((x + y) % 2 ^ w, {})

/-- A level of the tree keeps the sum. -/
theorem pairUp_sum (l : List Leaf) : (present (pairUp (wrapAdd w) l).1).sum ≡ (present l).sum [MOD 2 ^ w] := by
  fun_induction pairUp (wrapAdd w) l with
  | case1 i a j b r l evs hp s ih =>
    rw [hp] at ih
    have : (a + b) % 2 ^ w + (present l).sum ≡ a + b + (present r).sum [MOD 2 ^ w] := Nat.ModEq.add (Nat.mod_modEq _ _) ih
    simpa [s, wrapAdd, Nat.add_assoc] using this
  | case2 x r l evs hp ih =>
    rw [hp] at ih
    obtain ⟨i, a⟩ := x
    simpa using ih.add_left a
  | case3 y r l evs hp ih =>
    rw [hp] at ih
    cases y with
    | none => simpa using ih
    | some x =>
      obtain ⟨i, a⟩ := x
      simpa using ih.add_left a
  | case4 x => exact Nat.ModEq.refl _
  | case5 => exact Nat.ModEq.refl _

theorem pairUp_silent (l : List Leaf) : Silent (pairUp (wrapAdd w) l).2 := by
  fun_induction pairUp (wrapAdd w) l with
  | case1 i a j b r l evs hp s ih =>
    rw [hp] at ih
    exact ih.cons rfl
  | case2 x r l evs hp ih => rwa [hp] at ih
  | case3 y r l evs hp ih => rwa [hp] at ih
  | case4 x => exact Silent.nil
  | case5 => exact Silent.nil

theorem pairUp_length (add : Adder) (l : List Leaf) : (pairUp add l).1.length = (l.length + 1) / 2 := by
  fun_induction pairUp add l with
  | case1 i a j b r l evs hp s ih =>
    rw [hp] at ih
    simp only [List.length_cons, ih]
    omega
  | case2 x r l evs hp ih =>
    rw [hp] at ih
    simp only [List.length_cons, ih]
    omega
  | case3 y r l evs hp ih =>
    rw [hp] at ih
    simp only [List.length_cons, ih]
    omega
  | case4 x => simp
  | case5 => rfl

/-- The value of a node, 0 for an empty one. -/
def Leaf.value : Leaf → Nat
  | none => 0
  | some (_, x) => x

theorem treeSum_sum : ∀ (n : Nat) (l : List Leaf), l.length ≤ 2 ^ n →
    Leaf.value (treeSum (wrapAdd w) n l).1 ≡ (present l).sum [MOD 2 ^ w] ∧ Silent (treeSum (wrapAdd w) n l).2
  | 0, [], _ => ⟨Nat.ModEq.refl _, Silent.nil⟩
  | 0, [none], _ => ⟨Nat.ModEq.refl _, Silent.nil⟩
  | 0, [some (_, x)], _ => ⟨by simp [treeSum, Leaf.value, Nat.ModEq.refl], Silent.nil⟩
  | 0, _ :: _ :: _, h => absurd h (by simp)
  | n + 1, l, h => by
    have hlen : (pairUp (wrapAdd w) l).1.length ≤ 2 ^ n := by
      rw [pairUp_length]
      rw [pow_succ] at h
      omega
    obtain ⟨hsum, hsilent⟩ := treeSum_sum n _ hlen
    exact ⟨hsum.trans (pairUp_sum l), (pairUp_silent l).append hsilent⟩

/-- The tree adds every element to the initial value. -/
theorem redTree_sum {init : Nat} {l : List Leaf} (hinit : init < 2 ^ w) (hl : l.length ≤ 4096) :
    (redTree (wrapAdd w) init l).1 = (init + (present l).sum) % 2 ^ w ∧ Silent (redTree (wrapAdd w) init l).2 := by
  obtain ⟨hsum, hsilent⟩ := treeSum_sum (w := w) 12 l hl
  unfold redTree
  rcases hroot : treeSum (wrapAdd w) 12 l with ⟨_ | ⟨i, x⟩, evs⟩
  · rw [hroot] at hsum hsilent
    refine ⟨?_, hsilent⟩
    have := hsum.add_left init
    exact (Nat.mod_eq_of_lt hinit).symm.trans this
  · rw [hroot] at hsum hsilent
    exact ⟨hsum.add_left init, hsilent.append (Silent.nil.cons rfl)⟩

/-- A reduction in index order folds its operation. -/
theorem redSeq_foldl (op : Adder) : ∀ (l : List Leaf) (acc : Nat), (redSeq op acc l).1 = (present l).foldl (fun x y => (op x y).1) acc
  | [], _ => rfl
  | none :: l, acc => redSeq_foldl op l acc
  | some (_, x) :: l, acc => redSeq_foldl op l (op acc x).1

theorem redSeq_silent {op : Adder} (hop : ∀ x y, (op x y).2 = {}) : ∀ (l : List Leaf) (acc : Nat), Silent (redSeq op acc l).2
  | [], _ => Silent.nil
  | none :: l, acc => redSeq_silent hop l acc
  | some (_, x) :: l, acc => (redSeq_silent hop l (op acc x).1).cons (hop acc x)

theorem foldl_wrapAdd : ∀ (l : List Nat) (init : Nat), init < 2 ^ w → l.foldl (fun x y => (wrapAdd w x y).1) init = (init + l.sum) % 2 ^ w
  | [], _, h => by simp [Nat.mod_eq_of_lt h]
  | x :: l, init, _ => by
    have hlt : (wrapAdd w init x).1 < 2 ^ w := Nat.mod_lt _ (Nat.two_pow_pos w)
    rw [List.foldl_cons, foldl_wrapAdd l _ hlt]
    simp [wrapAdd, Nat.add_assoc]

/-- Folds of operations that agree on values below a bound, and stay below it. -/
theorem foldl_below {n : Nat} {f g : Nat → Nat → Nat} (hfg : ∀ x y, x < n → y < n → f x y = g x y ∧ g x y < n) :
    ∀ (l : List Nat) (init : Nat), (∀ x ∈ l, x < n) → init < n → l.foldl f init = l.foldl g init ∧ l.foldl g init < n
  | [], _, _, hinit => ⟨rfl, hinit⟩
  | x :: l, init, hl, hinit => by
    obtain ⟨heq, hlt⟩ := hfg init x hinit (hl x List.mem_cons_self)
    rw [List.foldl_cons, List.foldl_cons, heq]
    exact foldl_below hfg l _ (fun y hy => hl y (List.mem_cons_of_mem _ hy)) hlt

/-- The extreme of two integers, in the class's reading. -/
def intExtreme (sg : Bool) (w : Nat) (mx : Bool) (x y : Nat) : Nat :=
  if readElem sg w x ≤ readElem sg w y then (if mx then y else x) else if mx then x else y

theorem extreme_int {t : VT} (ht : t.isFloat = false) (mx : Bool) {x y : Nat} (hx : x < 2 ^ t.ew) (hy : y < 2 ^ t.ew) :
    t.extreme mx x y = intExtreme t.isSigned t.ew mx x y ∧ intExtreme t.isSigned t.ew mx x y < 2 ^ t.ew := by
  constructor
  · unfold VT.extreme intExtreme
    rw [ht, readInt_eq_readElem hx, readInt_eq_readElem hy]
    cases mx <;> simp
  · unfold intExtreme
    repeat' split
    all_goals assumption

theorem redExtreme_foldl (t : VT) (mx : Bool) (init : Nat) (l : List Leaf) :
    (redExtreme t mx init l).1 = (present l).foldl (t.extreme mx) init := by
  unfold redExtreme present
  rw [List.foldl_map]
  split
  · rename_i h
    rw [h]
    rfl
  · rfl

theorem redExtreme_silent {t : VT} (ht : t.isFloat = false) (mx : Bool) (init : Nat) (l : List Leaf) : Silent (redExtreme t mx init l).2 := by
  have hsig (x : Nat) : t.sigEv x = {} := by
    unfold VT.sigEv
    rw [ht]
    rfl
  unfold redExtreme
  split
  · exact Silent.nil
  · refine Silent.cons (hsig init) fun p hp => ?_
    obtain ⟨p, -, rfl⟩ := List.mem_map.1 hp
    exact hsig p.2
end

/-! ### The words (R157, R158) -/

/-- What a reduction computes: its result, and the events of its steps. -/
abbrev Reduction := VT → Nat → List Leaf → Nat × List (Nat × Ev)

/-- A reduction past its operand. -/
def redElems (f : Reduction) (v : Word) : Body := fun e s =>
  let t := s.hart.vt
  let (r, evs) := f t (v.toNat % 2 ^ t.ew) (leavesOf t (activeOf s e) (s.hart.group (wA e.word) t.g))
  let u := s.recordAt e.pc evs
  match anyTrap evs u.hart.fl.flags with
  | some c => .trap e c (e.word.setWidth 64) 0 u
  | none => pushResult e u (elemWord t r)

theorem redBody_eq (f : Reduction) (e : VEntry) (s : State) : redBody f e s =
    if (s.hart.queue (wD e.word - 24)).length < 16 then withS e s (redElems f) else .block .queueReg e s := by
  unfold redBody
  rw [Hart.queueRoom_one]
  by_cases h : (s.hart.queue (wD e.word - 24)).length < 16
  · rw [decide_eq_true h, if_pos h]
    rfl
  · rw [decide_eq_false h, if_neg h]
    rfl

section
variable {s s0 : State} {c : Convoy} {i : Instr} {e : VEntry} {d a b : Reg} {k : BitVec 3} {fn : BitVec 6} {v : Word} (f : Reduction)

/-- The result of a reduction, and its events. -/
def reduced (f : Reduction) (s : State) (k : BitVec 3) (a : Reg) (v : Word) : Nat × List (Nat × Ev) :=
  f s.hart.vt (v.toNat % 2 ^ s.hart.vt.ew) (s.leaves k a)

theorem redElems_eq (he : e.Of s (encode i)) (hf : VFields (encode i) 41#6 d a b k fn) : redElems f v e (s.past c) =
    match anyTrap (reduced f s k a v).2 s.hart.fl.flags with
    | some x => .trap e x (e.word.setWidth 64) 0 ((s.past c).recordAt s.hart.pc (reduced f s k a v).2)
    | none => pushResult e ((s.past c).recordAt s.hart.pc (reduced f s k a v).2) (elemWord s.hart.vt (reduced f s k a v).1) := by
  unfold redElems
  simp only []
  have hl : leavesOf (s.past c).hart.vt (activeOf (s.past c) e) ((s.past c).hart.group (wA e.word) (s.past c).hart.vt.g) = s.leaves k a := by
    rw [activeOf_entry he.word hf, he.word, hf.wA_eq]
    exact leavesOf_eq s k a
  have hflags : anyTrap (reduced f s k a v).2 ((s.past c).recordAt s.hart.pc (reduced f s k a v).2).hart.fl.flags =
      anyTrap (reduced f s k a v).2 s.hart.fl.flags := Ev.trap_recordEvs ..
  rw [hl, he.pc, ← hflags]
  rfl

variable (h : TakesAtOnce s i) (hx : exec i s = vissue (encode i) (redBody f) s) (hf : VFields (encode i) 41#6 d a b k fn)
include h hx hf

/-- A reduction waits for room in its queue. -/
theorem red_waits (hfull : 16 ≤ (s.hart.queue (d.toNat - 24)).length) : ∃ u, exec i s = .next u ∧ WaitsQueued s u i := by
  refine exec_waits (w := .queueReg) h hx fun x => ?_
  have hd : wD (entryAt s.hart (encode i)).word = d.toNat := hf.wD_eq
  rw [redBody_eq, hd]
  exact if_neg (by show ¬ (s.hart.queue (d.toNat - 24)).length < 16; omega)

variable (ho : s.operand b = some (v, s0)) (hroom : (s.hart.queue (d.toNat - 24)).length < 16)
include ho hroom

theorem red_goesOn : ∃ c e, e.Of s (encode i) ∧ exec i s = .next (redElems f v e (s0.past c)).state := by
  refine exec_withS (cont := fun _ => redElems f) h hx hf (by decide) (fun x => ?_) ho
  have hd : wD (entryAt s.hart (encode i)).word = d.toNat := hf.wD_eq
  rw [redBody_eq, hd]
  exact if_pos hroom

/-- A reduction that raises no enabled class pushes its result. -/
theorem red_pushes (hq : QuietList s (reduced f s k a v).2) : ∃ u, exec i s = .next u ∧
    u.hart.fl = recordEvs (reduced f s k a v).2 s.hart.pc s.hart.fl ∧
    PushedOnly s0 u (d.toNat - 24) (elemWord s.hart.vt (reduced f s k a v).1) := by
  obtain ⟨c, e, he, hexec⟩ := red_goesOn f h hx hf ho hroom
  have hroom0 := (State.operand_queue_le ho (d.toNat - 24)).trans_lt hroom
  obtain ⟨q, rfl⟩ := State.operand_queues ho
  have hd : wD e.word - 24 = d.toNat - 24 := by rw [he.word, hf.wD_eq]
  have hquiet : anyTrap (reduced f (s.withQueues q) k a v).2 (s.withQueues q).hart.fl.flags = none := hq
  rw [redElems_eq (s := s.withQueues q) f ⟨he.word, he.pc, he.start⟩ hf, hquiet] at hexec
  simp only [] at hexec
  rw [pushResult_room (s := ((s.withQueues q).past c).recordAt _ _) hd hroom0, VOut.state_done] at hexec
  exact ⟨_, hexec, rfl, pushedOnly_recorded ..⟩

/-- One that raises an enabled class traps, having recorded every event and pushed nothing. -/
theorem red_traps {x : Cause} (hh : Handles s x) (ht : anyTrap (reduced f s k a v).2 s.hart.fl.flags = some x) :
    ∃ u, exec i s = .next u ∧ TrappedAt s u i x 0 ∧ u.hart.fl = recordEvs (reduced f s k a v).2 s.hart.pc s.hart.fl ∧
      u.hart.q = s0.hart.q := by
  obtain ⟨c, e, he, hexec⟩ := red_goesOn f h hx hf ho hroom
  obtain ⟨q, rfl⟩ := State.operand_queues ho
  have htrap : anyTrap (reduced f (s.withQueues q) k a v).2 (s.withQueues q).hart.fl.flags = some x := ht
  rw [redElems_eq (s := s.withQueues q) f ⟨he.word, he.pc, he.start⟩ hf, htrap] at hexec
  simp only [] at hexec
  rw [VOut.state_trap] at hexec
  obtain ⟨htrapped, -, -, -, hqs, -, hfl⟩ := parkTrap_results (s := s) (j := 0)
    (t := ((s.withQueues q).past c).recordAt s.hart.pc (reduced f s k a v).2) rfl he hh (Ev.trap_not_pageFault ht)
  exact ⟨_, hexec, htrapped, hfl, hqs⟩
end

/-- Popping the operand leaves the other queues. -/
theorem State.operand_queue_ne {s s0 : State} {b : Reg} {v : Word} (ho : s.operand b = some (v, s0)) {n : Nat}
    (hn : 24 ≤ b.toNat → (b.toNat - 24) % 8 ≠ n % 8) : s0.hart.queue n = s.hart.queue n := by
  obtain ⟨hx, hq⟩ := State.operand_eq ho
  by_cases hb : b.toNat < 24
  · rw [(hx hb).2]
  · obtain ⟨r, -, rfl⟩ := hq (by omega)
    exact Hart.putQueue_other s.hart _ r (r := ⟨n % 8, by omega⟩) (hn (by omega)).symm

/-! ### Integer reductions -/

theorem VT.isFloat_of_isInt {t : VT} (h : t.isInt = true) : t.isFloat = false := by
  have hc : t.cls ≤ 1 := of_decide_eq_true h
  unfold VT.isFloat
  simp only [Bool.and_eq_false_iff, decide_eq_false_iff_not]
  omega

theorem VT.isSigned_of_isFloat {t : VT} (h : t.isFloat = true) : t.isSigned = false := by
  unfold VT.isFloat at h
  simp only [Bool.and_eq_true, decide_eq_true_eq] at h
  exact decide_eq_false (by omega)

theorem adder_int {t : VT} (h : t.isFloat = false) : t.adder = wrapAdd t.ew := by
  funext x y
  unfold VT.adder wrapAdd
  rw [h]
  rfl

theorem adder_float {t : VT} (h : t.isFloat = true) : t.adder = fun x y => fAdd t.fmt t.rm x y := by
  funext x y
  unfold VT.adder
  rw [h]
  rfl

theorem elemWord_lt {t : VT} {x : Nat} (h : x < 2 ^ t.ew) : elemWord t x = if t.isSigned then sextW x t.ew else BitVec.ofNat 64 x := by
  unfold elemWord
  rw [Nat.mod_eq_of_lt h]

theorem elemWord_float {t : VT} (h : t.isFloat = true) (x : Nat) : elemWord t x = BitVec.ofNat 64 (x % 2 ^ t.ew) := by
  unfold elemWord
  rw [VT.isSigned_of_isFloat h]
  rfl

section
variable {s s0 : State} {i : Instr} {d a b : Reg} {k : BitVec 3} {fn : BitVec 6} {v : Word} {f : Reduction}
variable (h : TakesAtOnce s i) (hx : exec i s = vissue (encode i) (redBody f) s) (hf : VFields (encode i) 41#6 d a b k fn)
variable (ho : s.operand b = some (v, s0)) (hroom : (s.hart.queue (d.toNat - 24)).length < 16)
include h hx hf ho hroom

/-- An integer reduction pushes its result and raises nothing. -/
theorem red_int {r : Nat} (hr : r < 2 ^ s.hart.vt.ew) (hred : (reduced f s k a v).1 = r ∧ Silent (reduced f s k a v).2) :
    ∃ u, exec i s = .next u ∧ u.hart.fl = s.hart.fl ∧
      PushedOnly s0 u (d.toNat - 24) (if s.hart.vt.isSigned then sextW r s.hart.vt.ew else BitVec.ofNat 64 r) := by
  obtain ⟨heq, hsilent⟩ := hred
  obtain ⟨u, hexec, hfl, hpush⟩ := red_pushes f h hx hf ho hroom (hsilent.quiet s)
  rw [heq, elemWord_lt hr] at hpush
  exact ⟨u, hexec, hfl.trans (hsilent.recordEvs ..), hpush⟩
end

end Sys2Proof.Machine
end

section
/-! PROOFS. Vector words (06), part 10: the reductions of a class (R157, R158) and the strip soft-maximum (R161 to R163). -/
namespace Sys2Proof.Machine

/-! ### Reductions of integers (R157) -/

section
variable {s : State} {k : BitVec 3} {a : Reg} {v : Word}

theorem elems_lt : ∀ x ∈ (s.actives k).map (s.elem a), x < 2 ^ s.hart.vt.ew := by
  intro x hx
  obtain ⟨e, -, rfl⟩ := List.mem_map.1 hx
  exact s.elem_lt a e

theorem init_lt (s : State) (v : Word) : v.toNat % 2 ^ s.hart.vt.ew < 2 ^ s.hart.vt.ew := Nat.mod_lt _ (Nat.two_pow_pos _)

section
variable (hint : s.hart.vt.isInt = true)
include hint

theorem reduced_sum (hvl : s.hart.vr.vl ≤ 4096) :
    (reduced (fun t => redTree t.adder) s k a v).1 = (v.toNat % 2 ^ s.hart.vt.ew + ((s.actives k).map (s.elem a)).sum) % 2 ^ s.hart.vt.ew ∧
    Silent (reduced (fun t => redTree t.adder) s k a v).2 := by
  unfold reduced
  simp only []
  rw [adder_int (VT.isFloat_of_isInt hint), ← present_leaves]
  exact redTree_sum (init_lt s v) (by simpa [State.leaves] using hvl)

theorem reduced_osum :
    (reduced (fun t => redSeq t.adder) s k a v).1 = (v.toNat % 2 ^ s.hart.vt.ew + ((s.actives k).map (s.elem a)).sum) % 2 ^ s.hart.vt.ew ∧
    Silent (reduced (fun t => redSeq t.adder) s k a v).2 := by
  unfold reduced
  simp only []
  rw [adder_int (VT.isFloat_of_isInt hint), redSeq_foldl, present_leaves, foldl_wrapAdd _ _ (init_lt s v)]
  exact ⟨rfl, redSeq_silent (fun _ _ => rfl) _ _⟩

theorem reduced_extreme (mx : Bool) :
    let r := ((s.actives k).map (s.elem a)).foldl (intExtreme s.hart.vt.isSigned s.hart.vt.ew mx) (v.toNat % 2 ^ s.hart.vt.ew)
    r < 2 ^ s.hart.vt.ew ∧ (reduced (fun t => redExtreme t mx) s k a v).1 = r ∧ Silent (reduced (fun t => redExtreme t mx) s k a v).2 := by
  have hfl := VT.isFloat_of_isInt hint
  obtain ⟨heq, hlt⟩ := foldl_below (fun x y hx hy => extreme_int hfl mx hx hy) _ _ (elems_lt (s := s) (k := k) (a := a)) (init_lt s v)
  refine ⟨hlt, ?_, redExtreme_silent hfl mx _ _⟩
  unfold reduced
  rw [redExtreme_foldl, present_leaves, heq]
end

theorem reduced_bits {op : Nat → Nat → Nat} (hop : ∀ x y, x < 2 ^ s.hart.vt.ew → y < 2 ^ s.hart.vt.ew → op x y < 2 ^ s.hart.vt.ew) :
    let f : Reduction := fun _ => redSeq fun x y => (op x y, {})
    let r := ((s.actives k).map (s.elem a)).foldl op (v.toNat % 2 ^ s.hart.vt.ew)
    r < 2 ^ s.hart.vt.ew ∧ (reduced f s k a v).1 = r ∧ Silent (reduced f s k a v).2 := by
  obtain ⟨-, hlt⟩ := foldl_below (f := op) (fun x y hx hy => ⟨rfl, hop x y hx hy⟩) _ _ (elems_lt (s := s) (k := k) (a := a)) (init_lt s v)
  refine ⟨hlt, ?_, redSeq_silent (op := fun x y => (op x y, {})) (fun _ _ => rfl) _ _⟩
  unfold reduced
  rw [redSeq_foldl, present_leaves]
end

section
variable {s s0 : State} {d a b : Reg} {k : BitVec 3} {t c : Bool} {v : Word}
variable (ho : s.operand b = some (v, s0)) (hroom : (s.hart.queue (d.toNat - 24)).length < 16)
include ho hroom

theorem red_ints (hint : s.hart.vt.isInt = true) (hvl : s.hart.vr.vl ≤ 4096) :
    let init := v.toNat % 2 ^ s.hart.vt.ew
    let els := (s.actives k).map (s.elem a)
    let pushes := fun (i : Instr) (r : Nat) => TakesAtOnce s i → ∃ u, exec i s = .next u ∧ u.hart.fl = s.hart.fl ∧
      PushedOnly s0 u (d.toNat - 24) (if s.hart.vt.isSigned then sextW r s.hart.vt.ew else BitVec.ofNat 64 r)
    pushes (.vredSum d a b k t c) ((init + els.sum) % 2 ^ s.hart.vt.ew) ∧ pushes (.vredOsum d a b k t c) ((init + els.sum) % 2 ^ s.hart.vt.ew) ∧
    pushes (.vredMax d a b k t c) (els.foldl (intExtreme s.hart.vt.isSigned s.hart.vt.ew true) init) ∧
    pushes (.vredMin d a b k t c) (els.foldl (intExtreme s.hart.vt.isSigned s.hart.vt.ew false) init) ∧
    pushes (.vredAnd d a b k t c) (els.foldl (· &&& ·) init) ∧ pushes (.vredOr d a b k t c) (els.foldl (· ||| ·) init) := by
  have hmod (x : Nat) : x % 2 ^ s.hart.vt.ew < 2 ^ s.hart.vt.ew := Nat.mod_lt _ (Nat.two_pow_pos _)
  have hmax := reduced_extreme (s := s) (k := k) (a := a) (v := v) hint true
  have hmin := reduced_extreme (s := s) (k := k) (a := a) (v := v) hint false
  have hand := reduced_bits (s := s) (k := k) (a := a) (v := v) (op := (· &&& ·)) fun _ _ _ hy => Nat.and_lt_two_pow _ hy
  have hor := reduced_bits (s := s) (k := k) (a := a) (v := v) (op := (· ||| ·)) fun _ _ hx hy => Nat.or_lt_two_pow hx hy
  refine ⟨fun h => ?_, fun h => ?_, fun h => ?_, fun h => ?_, fun h => ?_, fun h => ?_⟩
  · exact red_int h rfl (fields_vword ..) ho hroom (hmod _) (reduced_sum hint hvl)
  · exact red_int h rfl (fields_vword ..) ho hroom (hmod _) (reduced_osum hint)
  · exact red_int h rfl (fields_vword ..) ho hroom hmax.1 hmax.2
  · exact red_int h rfl (fields_vword ..) ho hroom hmin.1 hmin.2
  · exact red_int h rfl (fields_vword ..) ho hroom hand.1 hand.2
  · exact red_int h rfl (fields_vword ..) ho hroom hor.1 hor.2
end

/-! ### Reductions of floating-point values (R157) -/

section
variable {s : State} {i : Instr} {d a b : Reg} {k : BitVec 3} {t c : Bool} {v : Word}

/-- A float reduction with its result and events. -/
def floatReductions (s : State) (d a b : Reg) (k : BitVec 3) (t c : Bool) (init : Nat) : List (Instr × Nat × List (Nat × Ev)) :=
  let add := fun x y => fAdd s.hart.vt.fmt s.hart.vt.rm x y
  [(.vredSum d a b k t c, redTree add init (s.leaves k a)), (.vredOsum d a b k t c, redSeq add init (s.leaves k a)),
    (.vredMax d a b k t c, redExtreme s.hart.vt true init (s.leaves k a)), (.vredMin d a b k t c, redExtreme s.hart.vt false init (s.leaves k a))]

/-- Each is a reduction word whose result is that of its row. -/
theorem floatReductions_body (hfl : s.hart.vt.isFloat = true) {p : Instr × Nat × List (Nat × Ev)}
    (hp : p ∈ floatReductions s d a b k t c (v.toNat % 2 ^ s.hart.vt.ew)) :
    ∃ (f : Reduction) (fn : BitVec 6), exec p.1 s = vissue (encode p.1) (redBody f) s ∧ VFields (encode p.1) 41#6 d a b k fn ∧
      reduced f s k a v = p.2 := by
  have hadd (g : Adder → Nat → List Leaf → Nat × List (Nat × Ev)) : reduced (fun t => g t.adder) s k a v =
      g (fun x y => fAdd s.hart.vt.fmt s.hart.vt.rm x y) (v.toNat % 2 ^ s.hart.vt.ew) (s.leaves k a) := by
    rw [← adder_float hfl]
    rfl
  have hext (mx : Bool) : reduced (fun t => redExtreme t mx) s k a v =
      redExtreme s.hart.vt mx (v.toNat % 2 ^ s.hart.vt.ew) (s.leaves k a) := by
    unfold reduced
    rfl
  unfold floatReductions at hp
  simp only [List.mem_cons, List.not_mem_nil, or_false] at hp
  rcases hp with rfl | rfl | rfl | rfl
  · have hf : VFields (encode (.vredSum d a b k t c)) 41#6 d a b k 0#6 := fields_vword ..
    refine ⟨fun t => redTree t.adder, 0#6, rfl, hf, ?_⟩
    dsimp only
    exact hadd redTree
  · have hf : VFields (encode (.vredOsum d a b k t c)) 41#6 d a b k 1#6 := fields_vword ..
    refine ⟨fun t => redSeq t.adder, 1#6, rfl, hf, ?_⟩
    dsimp only
    exact hadd redSeq
  · have hf : VFields (encode (.vredMax d a b k t c)) 41#6 d a b k 2#6 := fields_vword ..
    refine ⟨fun t => redExtreme t true, 2#6, rfl, hf, ?_⟩
    dsimp only
    exact hext true
  · have hf : VFields (encode (.vredMin d a b k t c)) 41#6 d a b k 3#6 := fields_vword ..
    refine ⟨fun t => redExtreme t false, 3#6, rfl, hf, ?_⟩
    dsimp only
    exact hext false

variable {s0 : State} (ho : s.operand b = some (v, s0)) (hroom : (s.hart.queue (d.toNat - 24)).length < 16) (hfl : s.hart.vt.isFloat = true)
include ho hroom hfl

theorem red_floats {p : Instr × Nat × List (Nat × Ev)} (hp : p ∈ floatReductions s d a b k t c (v.toNat % 2 ^ s.hart.vt.ew))
    (h : TakesAtOnce s p.1) (hq : QuietList s p.2.2) : ∃ u, exec p.1 s = .next u ∧ u.hart.fl = recordEvs p.2.2 s.hart.pc s.hart.fl ∧
      PushedOnly s0 u (d.toNat - 24) (BitVec.ofNat 64 (p.2.1 % 2 ^ s.hart.vt.ew)) := by
  obtain ⟨f, fn, hx, hf, hred⟩ := floatReductions_body hfl hp
  rw [← hred] at hq ⊢
  rw [← elemWord_float hfl]
  exact red_pushes f h hx hf ho hroom hq

theorem red_float_traps (hne : 24 ≤ b.toNat → (b.toNat - 24) % 8 ≠ (d.toNat - 24) % 8) {p : Instr × Nat × List (Nat × Ev)}
    (hp : p ∈ floatReductions s d a b k t c (v.toNat % 2 ^ s.hart.vt.ew)) (h : TakesAtOnce s p.1) (x : Cause) (hh : Handles s x)
    (ht : (p.2.2.foldl (fun y e => y.or e.2) ({} : Ev)).trap s.hart.fl.flags = some x) :
    ∃ u, exec p.1 s = .next u ∧ TrappedAt s u p.1 x 0 ∧ u.hart.fl = recordEvs p.2.2 s.hart.pc s.hart.fl ∧
      u.hart.queue (d.toNat - 24) = s.hart.queue (d.toNat - 24) := by
  obtain ⟨f, fn, hx, hf, hred⟩ := floatReductions_body hfl hp
  rw [← hred] at ht ⊢
  obtain ⟨u, hexec, htrap, hfl, hqs⟩ := red_traps f h hx hf ho hroom hh ht
  refine ⟨u, hexec, htrap, hfl, ?_⟩
  rw [← State.operand_queue_ne ho hne]
  unfold Hart.queue
  rw [hqs]
end

/-! ### The strip soft-maximum (R161 to R163) -/

/-- The registers that `vstrip` writes. -/
def stripRegs (b : Reg) (o : StripOut) (h : Hart) : Hart :=
  ((((h.set b (BitVec.ofNat 64 o.st.m)).set (b + 1) (refWord o.st.r)).set (b + 2) (BitVec.ofNat 64 o.st.hi)).set (b + 3)
    (BitVec.ofNat 64 o.st.lo)).set (b + 5) (BitVec.ofNat 64 o.f)

section
variable {b : Reg} {o : StripOut} {h : Hart}

theorem stripRegs_pc : (stripRegs b o h).pc = h.pc := by simp only [stripRegs, Hart.set_pc]
theorem stripRegs_fl : (stripRegs b o h).fl = h.fl := by simp only [stripRegs, Hart.set_fl]
theorem stripRegs_v : (stripRegs b o h).v = h.v := by simp only [stripRegs, Hart.set_v]
theorem stripRegs_vr : (stripRegs b o h).vr = h.vr := by simp only [stripRegs, Hart.set_vr]

theorem stripRegs_get_other {r : Reg} (h0 : r ≠ b) (h1 : r ≠ b + 1) (h2 : r ≠ b + 2) (h3 : r ≠ b + 3) (h5 : r ≠ b + 5) :
    (stripRegs b o h).get r = h.get r := by
  unfold stripRegs
  rw [Hart.get_set_ne _ _ _ _ h5, Hart.get_set_ne _ _ _ _ h3, Hart.get_set_ne _ _ _ _ h2, Hart.get_set_ne _ _ _ _ h1, Hart.get_set_ne _ _ _ _ h0]

theorem stripRegs_get (hlo : 0 < b.toNat) (hhi : b.toNat ≤ 26) : (stripRegs b o h).get b = BitVec.ofNat 64 o.st.m ∧
    (stripRegs b o h).get (b + 1) = refWord o.st.r ∧ (stripRegs b o h).get (b + 2) = BitVec.ofNat 64 o.st.hi ∧
    (stripRegs b o h).get (b + 3) = BitVec.ofNat 64 o.st.lo ∧ (stripRegs b o h).get (b + 5) = BitVec.ofNat 64 o.f := by
  have hself (g : Hart) {r : Reg} (x : Word) (hr : r ≠ 0) : (g.set r x).get r = x := by
    rw [Hart.get_set_self, if_neg hr]
  unfold stripRegs
  refine ⟨?_, ?_, ?_, ?_, ?_⟩
  · rw [Hart.get_set_ne _ _ _ _ (by bv_omega), Hart.get_set_ne _ _ _ _ (by bv_omega), Hart.get_set_ne _ _ _ _ (by bv_omega),
      Hart.get_set_ne _ _ _ _ (by bv_omega), hself _ _ (by bv_omega)]
  · rw [Hart.get_set_ne _ _ _ _ (by bv_omega), Hart.get_set_ne _ _ _ _ (by bv_omega), Hart.get_set_ne _ _ _ _ (by bv_omega), hself _ _ (by bv_omega)]
  · rw [Hart.get_set_ne _ _ _ _ (by bv_omega), Hart.get_set_ne _ _ _ _ (by bv_omega), hself _ _ (by bv_omega)]
  · rw [Hart.get_set_ne _ _ _ _ (by bv_omega), hself _ _ (by bv_omega)]
  · exact hself _ _ (by bv_omega)
end

section
variable {t : VT} {start d : Nat} {act : Nat → Bool} {val : Nat → Nat} {stop : Nat} {h : Hart}

theorem putElems_pc : (putElems t start d act val stop h).pc = h.pc := by
  unfold putElems Hart.putGroup
  rfl
theorem putElems_x : (putElems t start d act val stop h).x = h.x := by
  unfold putElems Hart.putGroup
  rfl
theorem putElems_get (r : Reg) : (putElems t start d act val stop h).get r = h.get r := by
  unfold Hart.get
  rw [putElems_x]
end

section
variable {s : State} {d a b : Reg} {k : BitVec 3}

/-- The row that `vstrip` computes. -/
abbrev State.softmaxRow (s : State) (a b : Reg) (k : BitVec 3) : StripOut :=
  let lo := fun r : Reg => (s.get r).toNat % 2 ^ 32
  stripRow (2 ^ 62) { m := lo b, r := refOf (s.get (b + 1)), hi := lo (b + 2), lo := lo (b + 3) } (lo (b + 4)) (s.leaves k a)

/-- The probability of an element, 0 for one that is not active. -/
def StripOut.elem (o : StripOut) (e : Nat) : Nat := match (o.p[e]?).join with | some (_, x) => x | none => 0

theorem exec_vstrip (hvq : s.hart.vs.vq = []) (hty : typeBad s s.hart (encode (.vstrip d a b k)) 0 0 = none)
    (hq : QuietList s (s.softmaxRow a b k).evs) : exec (.vstrip d a b k) s =
      .next ((s.recordAt s.hart.pc (s.softmaxRow a b k).evs).onHart fun h => stripRegs b (s.softmaxRow a b k)
        (putElems s.hart.vt 0 d.toNat (s.isActive k) (s.softmaxRow a b k).elem s.hart.vt.vlmax h)).advance := by
  have hdone : s.hart.vectorDone = true := by rw [Hart.vectorDone, hvq]; rfl
  have hquiet : anyTrap (s.softmaxRow a b k).evs (s.recordAt s.hart.pc (s.softmaxRow a b k).evs).hart.fl.flags = none :=
    (Ev.trap_recordEvs ..).trans hq
  have hleaves : leavesOf s.hart.vt (s.hart.active k) (s.hart.group a.toNat s.hart.vt.g) = s.leaves k a := leavesOf_eq s k a
  show execVstrip d a b k s = _
  unfold execVstrip
  simp only []
  rw [hdone, hty, hleaves]
  change (match anyTrap (s.softmaxRow a b k).evs (s.recordAt s.hart.pc (s.softmaxRow a b k).evs).hart.fl.flags with | some c => _ | none => _) = _
  rw [hquiet]
  rfl

theorem vstrip_results (hvq : s.hart.vs.vq = []) (hquads : s.hart.vr.quads ≤ 8) (hd : d.toNat % s.hart.vt.g = 0)
    (hty : typeBad s s.hart (encode (.vstrip d a b k)) 0 0 = none) (hq : QuietList s (s.softmaxRow a b k).evs) :
    let o := s.softmaxRow a b k
    ∃ u, exec (.vstrip d a b k) s = .next u ∧ u.hart.pc = s.hart.pc + 4 ∧ u.hart.fl = recordEvs o.evs s.hart.pc s.hart.fl ∧
      Writes s u d k o.elem ∧ (∀ i, u.byte i = s.byte i) ∧
      (0 < b.toNat → b.toNat ≤ 26 → u.get b = BitVec.ofNat 64 o.st.m ∧ u.get (b + 1) = refWord o.st.r ∧
        u.get (b + 2) = BitVec.ofNat 64 o.st.hi ∧ u.get (b + 3) = BitVec.ofNat 64 o.st.lo ∧ u.get (b + 5) = BitVec.ofNat 64 o.f) ∧
      ∀ r : Reg, r ≠ b → r ≠ b + 1 → r ≠ b + 2 → r ≠ b + 3 → r ≠ b + 5 → u.get r = s.get r := by
  intro o
  have hfit : d.toNat + s.hart.vt.g ≤ 32 := base_fits d.isLt (vtG_mem _) (by simp [isBase, hd])
  refine ⟨_, exec_vstrip hvq hty hq, ?_, stripRegs_fl.trans putElems_fl, fun e he => ?_, fun _ => rfl, fun hlo hhi => stripRegs_get hlo hhi,
    fun r h0 h1 h2 h3 h5 => (stripRegs_get_other h0 h1 h2 h3 h5).trans ?_⟩
  · exact congrArg (· + 4) (stripRegs_pc.trans putElems_pc)
  · have hvt (h : Hart) : (stripRegs b o h).vt = h.vt := by
      unfold Hart.vt
      rw [stripRegs_vr]
    have hgroup (h : Hart) (r n : Nat) : (stripRegs b o h).group r n = h.group r n := by
      unfold Hart.group Hart.vreg
      rw [stripRegs_v, stripRegs_vr]
    have hput : (putElems s.hart.vt 0 d.toNat (s.isActive k) o.elem s.hart.vt.vlmax (s.recordAt s.hart.pc o.evs).hart).vt = s.hart.vt :=
      putElems_frame.vt _
    show elemOf ((stripRegs b o _).group d.toNat (stripRegs b o _).vt.g) (stripRegs b o _).vt.ew e = _
    rw [hvt, hgroup, hput]
    exact (State.elem_putElems (s := s.recordAt s.hart.pc o.evs) hfit hquads he).trans (if_pos he)
  · exact putElems_get r
end

/-- Settles O38: a reduction folds its leaves and pushes the result; `vstrip` computes its row. -/
theorem reductionResults : Obligations.ReductionResults := by
  unfold Obligations.ReductionResults
  refine ⟨fun s d a b k t c v s0 ho _ hroom => ⟨fun hint hvl => ?_, fun hfl p hp h hq => ?_⟩, fun s d a b k t c hfull => ?_,
    fun s d a b k hvq hquads hd hty => ?_⟩
  · simp only [List.forall_mem_cons, List.not_mem_nil, false_imp_iff, implies_true, and_true]
    exact red_ints ho hroom hint hvl
  · exact red_floats ho hroom hfl hp h hq
  · simp only [List.forall_mem_cons, List.not_mem_nil, false_imp_iff, implies_true, and_true]
    refine ⟨fun h => ?_, fun h => ?_, fun h => ?_, fun h => ?_, fun h => ?_, fun h => ?_⟩
    all_goals exact red_waits _ h rfl (fields_vword ..) hfull
  · exact vstrip_results hvq hquads hd hty

end Sys2Proof.Machine
end

section
/-! PROOFS. Vector words (06), part 11: blocks of 32 elements (R45, R160), and the loop over blocks (R143). -/
namespace Sys2Proof.Machine

/-! ### Blocks of 32 elements -/

/-- The active elements of a block. -/
def State.activesIn (s : State) (k : BitVec 3) (b : Nat) : List Nat := (s.actives k).filter fun e => e / 32 = b

theorem State.mem_activesIn (s : State) (k : BitVec 3) (b e : Nat) : e ∈ s.activesIn k b ↔ e ∈ s.actives k ∧ e / 32 = b := by
  simp [State.activesIn]

theorem State.activesIn_ascending (s : State) (k : BitVec 3) (b : Nat) : (s.activesIn k b).Pairwise (· < ·) := (s.actives_ascending k).filter _

theorem blockActive_eq (s : State) (k : BitVec 3) (b : Nat) : blockActive s.hart.vt (s.isActive k) b = s.activesIn k b := by
  have hasc : (blockActive s.hart.vt (s.isActive k) b).Pairwise (· < ·) := (List.pairwise_lt_range' ..).filter _
  refine hasc.eq_of_mem_iff (s.activesIn_ascending k b) fun e => ?_
  have hvl : s.hart.vt.vl = s.hart.vr.vl := rfl
  rw [State.mem_activesIn, State.mem_actives_iff, blockActive, List.mem_filter, List.mem_range'_1, State.isActive_eq, hvl]
  simp only [Bool.and_eq_true, decide_eq_true_eq]
  constructor
  · rintro ⟨⟨_, _⟩, -, h⟩
    exact ⟨h, by omega⟩
  · rintro ⟨h, rfl⟩
    exact ⟨⟨by omega, by omega⟩, h.1, h⟩

/-- The active elements block by block. -/
theorem flatMap_activesIn (s : State) (k : BitVec 3) (n : Nat) : (List.range n).flatMap (s.activesIn k) = (s.actives k).filter (· < 32 * n) := by
  induction n with
  | zero => simp
  | succ n ih =>
    have hasc : ((s.actives k).filter (· < 32 * n) ++ s.activesIn k n).Pairwise (· < ·) := by
      refine List.pairwise_append.2 ⟨(s.actives_ascending k).filter _, s.activesIn_ascending k n, fun x hx y hy => ?_⟩
      have hx' : x < 32 * n := by simpa using (List.mem_filter.1 hx).2
      have hy' := ((s.mem_activesIn k n y).1 hy).2
      omega
    rw [List.range_succ, List.flatMap_append, List.flatMap_singleton, ih]
    refine hasc.eq_of_mem_iff ((s.actives_ascending k).filter _) fun e => ?_
    rw [List.mem_append, State.mem_activesIn, List.mem_filter, List.mem_filter, decide_eq_true_eq, decide_eq_true_eq, ← and_or_left]
    exact and_congr_right fun _ => by omega

/-! ### The loop over blocks (R143, R160) -/

/-- A word that works block by block: it traps at the lowest block with an enabled class, the blocks below it written. -/
def blockwise (e : VEntry) (evs : Nat → List (Nat × Ev)) (blocks : Nat) (put : Nat → Hart → Hart) (total : Nat) (s : State) : VOut :=
  match blockTrap s.hart.fl.flags evs 0 blocks with
  | some (b, c) => .trap e c (e.word.setWidth 64) (32 * b) ((s.onHart (put b)).recordAt e.pc ((List.range' 0 (b + 1)).flatMap evs))
  | none => .done ((s.onHart (put total)).recordAt e.pc ((List.range' 0 blocks).flatMap evs))

section
variable {s : State} {e : VEntry} {k : BitVec 3} {ev : Nat → Ev} {evs : Nat → List (Nat × Ev)} (put : Nat → Hart → Hart) (total : Nat)
variable (hevs : ∀ b, evs b = (s.activesIn k b).map fun i => (i, ev i))
include hevs

theorem flatMap_events (n : Nat) : (List.range' 0 n).flatMap evs = ((s.actives k).filter (· < 32 * n)).map fun i => (i, ev i) := by
  rw [← flatMap_activesIn, List.map_flatMap, ← List.range_eq_range', funext hevs]

theorem blockwise_quiet (hq : Quiet s k ev) : blockwise e evs ((s.hart.vr.vl + 31) / 32) put total s =
    .done (s.onHart fun h => (put total h).recorded e.pc ((s.actives k).map fun i => (i, ev i))) := by
  have hnone : blockTrap s.hart.fl.flags evs 0 ((s.hart.vr.vl + 31) / 32) = none := by
    unfold blockTrap
    rw [List.findSome?_eq_none_iff]
    intro b _
    rw [Option.map_eq_none_iff, hevs, List.findSome?_map, List.findSome?_eq_none_iff]
    exact fun i hi => hq i ((s.mem_activesIn k b i).1 hi).1
  have hall : (s.actives k).filter (· < 32 * ((s.hart.vr.vl + 31) / 32)) = s.actives k :=
    List.filter_eq_self.2 fun i hi => decide_eq_true (by have := ((s.mem_actives k i).1 hi).1; omega)
  unfold blockwise
  rw [hnone, flatMap_events hevs, hall]
  rfl

theorem blockwise_traps {j : Nat} {x : Cause} (hr : RaisesAt s k ev j x) : blockwise e evs ((s.hart.vr.vl + 31) / 32) put total s =
    .trap e x (e.word.setWidth 64) (32 * (j / 32)) (s.onHart fun h =>
      (put (j / 32) h).recorded e.pc (((s.actives k).filter (· < 32 * (j / 32) + 32)).map fun i => (i, ev i))) := by
  obtain ⟨hj, htrap, hlow⟩ := hr
  have hvl := ((s.mem_actives k j).1 hj).1
  have hin : (evs (j / 32)).findSome? (fun p => p.2.trap s.hart.fl.flags) = some x := by
    rw [hevs, List.findSome?_map]
    exact findSome_of_lowest (s.activesIn_ascending k _) ((s.mem_activesIn k _ j).2 ⟨hj, rfl⟩) htrap fun i hi hlt =>
      hlow i ((s.mem_activesIn k _ i).1 hi).1 hlt
  have hsome : blockTrap s.hart.fl.flags evs 0 ((s.hart.vr.vl + 31) / 32) = some (j / 32, x) := by
    unfold blockTrap
    refine findSome_of_lowest (List.pairwise_lt_range' ..) (j := j / 32) ?_ (by rw [hin]; rfl) fun b _ hlt => ?_
    · rw [List.mem_range'_1]
      omega
    · rw [Option.map_eq_none_iff, hevs, List.findSome?_map, List.findSome?_eq_none_iff]
      intro i hi
      obtain ⟨hia, hib⟩ := (s.mem_activesIn k b i).1 hi
      exact hlow i hia (by omega)
  unfold blockwise
  rw [hsome]
  simp only []
  rw [flatMap_events hevs, Nat.mul_succ]
  rfl
end

end Sys2Proof.Machine
end

section
/-! PROOFS. Vector words (06), part 12: conversions (R159, R160). -/
namespace Sys2Proof.Machine

/-! ### The registers of a conversion's destination (R71) -/

theorem containerOf_mem (w : Nat) : containerOf w ∈ [2, 4, 8] := by
  unfold containerOf
  repeat' split
  all_goals decide

/-- Blocks fill the elements of a register. -/
theorem blocks_fill {n w : Nat} (hw : w ∈ [2, 4, 8]) : 32 * hdrBytes n w = 512 * n / w := by
  unfold hdrBytes
  simp only [List.mem_cons, List.not_mem_nil, or_false] at hw
  rcases hw with rfl | rfl | rfl <;> omega

/-- A group widened or narrowed by 2 or 4 is a group. -/
theorem scaled_group {g w x : Nat} (hg : g ∈ [1, 2, 4, 8]) (hx : x = 2 * w ∨ x = 4 * w) :
    g * (x / w) ∈ [0, 1, 2, 4, 8, 16, 32] ∧ max 1 (g / (x / w)) ∈ [0, 1, 2, 4, 8, 16, 32] := by
  have hdiv : x / w = 0 ∨ x / w = 2 ∨ x / w = 4 := by
    rcases Nat.eq_zero_or_pos w with rfl | hpos
    · simp
    · rcases hx with rfl | rfl <;> simp [Nat.mul_div_cancel _ hpos]
  simp only [List.mem_cons, List.not_mem_nil, or_false] at hg
  rcases hg with rfl | rfl | rfl | rfl <;> rcases hdiv with h | h | h <;> rw [h] <;> decide

/-- The destination of a conversion lies within the registers. -/
theorem cvtOk_fits {h : Hart} {w : IWord} (hok : cvtOk h h.vt w = true) (hd : wD w < 32) :
    wD w + cvtRegs h.vt w ((targetOf (wB w)).bits h.fmtReg) ≤ 32 := by
  unfold cvtOk at hok
  simp only [Bool.and_eq_true, decide_eq_true_eq] at hok
  obtain ⟨⟨⟨⟨⟨hsizes, -⟩, hn⟩, hbase⟩, -⟩, -⟩ := hok
  have hmem : cvtRegs h.vt w ((targetOf (wB w)).bits h.fmtReg) ∈ [0, 1, 2, 4, 8, 16, 32] := by
    have hg : h.vt.g ∈ [1, 2, 4, 8] := vtG_mem _
    unfold cvtRegs
    split
    · revert hg
      generalize h.vt.g = g
      simp only [List.mem_cons, List.not_mem_nil, or_false]
      omega
    · rename_i hop
      simp only [hop, Bool.or_eq_true, beq_iff_eq] at hsizes
      exact (scaled_group hg hsizes).1
    · split at hsizes
      · contradiction
      · contradiction
      · simp only [Bool.or_eq_true, beq_iff_eq] at hsizes
        exact (scaled_group hg hsizes).2
  have h0 : wD w % cvtRegs h.vt w ((targetOf (wB w)).bits h.fmtReg) = 0 := by simpa [isBase] using hbase
  simp only [List.mem_cons, List.not_mem_nil, or_false] at hmem
  rcases hmem with h | h | h | h | h | h | h <;> rw [h] at h0 hn ⊢ <;> omega

/-! ### The destination written (R159) -/

section
variable {t : VT} {w n start d : Nat} {act : Nat → Bool} {val : Nat → Nat} {stop : Nat} {h : Hart}

theorem putConverted_frame : WritesVector (putConverted t w n start d act val stop) := by
  intro h
  unfold putConverted Hart.putGroup
  rfl
theorem putConverted_k : (putConverted t w n start d act val stop h).k = h.k := by
  unfold putConverted Hart.putGroup
  rfl
theorem putConverted_hdr : (putConverted t w n start d act val stop h).hdr = h.hdr := by
  unfold putConverted Hart.putGroup
  rfl
theorem putConverted_fl : (putConverted t w n start d act val stop h).fl = h.fl := by
  unfold putConverted Hart.putGroup
  rfl
theorem putConverted_other {r : Fin 32} (hr : r.val < d ∨ d + n ≤ r.val) : (putConverted t w n start d act val stop h).v.get r = h.v.get r :=
  Hart.putGroup_other _ _ _ _ r hr
end

/-- Element `e` of a destination of `n` registers with elements of `w` bits, below `stop` by the policies, above as it was. -/
def convertedElem (s : State) (d : Reg) (n w : Nat) (k : BitVec 3) (val : Nat → Nat) (stop e : Nat) : Nat :=
  if e < stop then
    if s.isActive k e then val e % 2 ^ w
    else if e < s.hart.vr.vl then (if s.hart.vt.mp then 0 else elemOf (s.hart.group d.toNat n) w e)
    else if s.hart.vt.tp then 0 else elemOf (s.hart.group d.toNat n) w e
  else elemOf (s.hart.group d.toNat n) w e

theorem elemOf_putConverted {s : State} {d : Reg} {n w : Nat} {k : BitVec 3} (val : Nat → Nat) (stop : Nat) (hfit : d.toNat + n ≤ 32)
    (hq : s.hart.vr.quads ≤ 8) {e : Nat} (he : e < n * (512 * s.hart.vt.n / w)) :
    elemOf ((putConverted s.hart.vt w n 0 d.toNat (s.isActive k) val stop s.hart).group d.toNat n) w e = convertedElem s d n w k val stop e := by
  have hcnt : w * (n * (512 * s.hart.vt.n / w)) ≤ 512 * s.hart.vr.quads * n := by
    calc w * (n * (512 * s.hart.vt.n / w)) = n * (w * (512 * s.hart.vt.n / w)) := by ring
      _ ≤ n * (512 * s.hart.vt.n) := Nat.mul_le_mul_left _ (Nat.mul_div_le _ _)
      _ = 512 * s.hart.vr.quads * n := Nat.mul_comm _ _
  have hvl : s.hart.vt.vl = s.hart.vr.vl := rfl
  unfold putConverted convertedElem
  simp only []
  rw [elemOf_group_putGroup _ hfit hq hcnt he]
  unfold policy
  rw [if_neg (Nat.not_lt_zero e), hvl]
  repeat' split
  all_goals simp

/-- The destination of a whole conversion. -/
theorem convertedElem_all {s : State} {d : Reg} {n w : Nat} {k : BitVec 3} {val : Nat → Nat} {stop e : Nat} (he : e < stop) :
    convertedElem s d n w k val stop e = if e < s.hart.vr.vl ∧ s.hart.maskBit k e = true then val e % 2 ^ w
      else if e < s.hart.vr.vl then (if s.hart.vt.mp then 0 else elemOf (s.hart.group d.toNat n) w e)
      else if s.hart.vt.tp then 0 else elemOf (s.hart.group d.toNat n) w e := by
  unfold convertedElem
  rw [if_pos he, State.isActive_eq]
  simp only [Bool.and_eq_true, decide_eq_true_eq]

/-- That of one which stops below VL. -/
theorem convertedElem_below {s : State} {d : Reg} {n w : Nat} {k : BitVec 3} {val : Nat → Nat} {stop e : Nat} (hstop : stop ≤ s.hart.vr.vl) :
    convertedElem s d n w k val stop e = if e < stop ∧ s.hart.maskBit k e = true then val e % 2 ^ w
      else if e < stop ∧ s.hart.vt.mp = true then 0 else elemOf (s.hart.group d.toNat n) w e := by
  unfold convertedElem
  by_cases he : e < stop
  · have hlt : e < s.hart.vr.vl := he.trans_le hstop
    simp only [he, hlt, State.isActive_eq, decide_true, Bool.true_and, true_and, if_true]
  · simp only [he, false_and, if_false]

theorem SameVector.group {t u : State} (h : SameVector t u) (r n : Nat) : u.hart.group r n = t.hart.group r n := by
  obtain ⟨hv, -, -, -, hvr, -⟩ := h
  unfold Hart.group Hart.vreg
  rw [hv, hvr]

/-! ### The words (R159) -/

/-- The word of a conversion with `n` destination registers, saturating if `sat`. -/
structure IsConversion (s : State) (i : Instr) (d a b : Reg) (k : BitVec 3) (n : Nat) (sat : Bool) : Prop where
  exec : exec i s = vissue (encode i) vcvtBody s
  fields : ∃ f, VFields (encode i) 42#6 d a b k f
  sat : (wFn (encode i) % 2 == 1) = sat
  regs : cvtRegs s.hart.vt (encode i) ((targetOf b.toNat).bits s.hart.fmtReg) = n

theorem conversions_are (s : State) (d a b : Reg) (k : BitVec 3) (t sat c : Bool) :
    let vt := s.hart.vt
    let tb := (targetOf b.toNat).bits s.hart.fmtReg
    ∀ p ∈ [(Instr.vcvt d a b k t sat c, vt.g, sat), (.vwiden d a b k t c, vt.g * (tb / vt.ew), false),
      (.vnarrow d a b k t sat c, max 1 (vt.g / (vt.ew / tb)), sat)], IsConversion s p.1 d a b k p.2.1 p.2.2 := by
  simp only [List.forall_mem_cons, List.not_mem_nil, false_imp_iff, implies_true, and_true]
  have hcvt : VFields (encode (.vcvt d a b k t sat c)) 42#6 d a b k (0#5 ++ bit1 sat) := fields_tail5 ..
  have hwiden : VFields (encode (.vwiden d a b k t c)) 42#6 d a b k 16#6 := fields_vword ..
  have hnarrow : VFields (encode (.vnarrow d a b k t sat c)) 42#6 d a b k (16#5 ++ bit1 sat) := fields_tail5 ..
  refine ⟨⟨rfl, ⟨_, hcvt⟩, ?_, ?_⟩, ⟨rfl, ⟨_, hwiden⟩, ?_, ?_⟩, ⟨rfl, ⟨_, hnarrow⟩, ?_, ?_⟩⟩
  · rw [hcvt.wFn_eq]
    cases sat <;> rfl
  · unfold cvtRegs
    rw [hcvt.wFn_eq]
    cases sat <;> rfl
  · rw [hwiden.wFn_eq]
    rfl
  · unfold cvtRegs
    rw [hwiden.wFn_eq]
    rfl
  · rw [hnarrow.wFn_eq]
    cases sat <;> rfl
  · unfold cvtRegs
    rw [hnarrow.wFn_eq]
    cases sat <;> rfl

/-- The value of a source element, with its event. -/
abbrev State.source (s : State) (a : Reg) (e : Nat) : FVal × Ev :=
  sourceValue s.hart s.hart.vt (s.hart.group a.toNat s.hart.vt.g) (s.hart.headers a.toNat s.hart.vt.g s.hart.vt.per) e

/-- An element converted, with its events. -/
abbrev State.converted (s : State) (a : Reg) (tgt : Target) (sat : Bool) (e : Nat) : Nat × Ev :=
  convertElem s.hart.vt sat tgt (s.elem a e) (s.source a e)

section
variable {s : State} {c : Convoy} {i : Instr} {e : VEntry} {d a b : Reg} {k : BitVec 3} {n : Nat} {sat : Bool}
variable (hc : IsConversion s i d a b k n sat)
include hc

theorem IsConversion.fits (h : TakesAtOnce s i) : d.toNat + n ≤ 32 := by
  obtain ⟨f, hf⟩ := hc.fields
  have hfam := (typeBad_eq_none h.typed).2
  have hok : cvtOk s.hart s.hart.vt (encode i) = true := by
    unfold familyOk at hfam
    rw [hf.wMaj_eq] at hfam
    exact hfam
  have := cvtOk_fits hok (by rw [hf.wD_eq]; exact d.isLt)
  rwa [hf.wD_eq, hf.wB_eq, hc.regs] at this

end

/-- A conversion to an integer or floating-point type. -/
def cvtElems (tgt : Target) : Body := fun e s =>
  let h := s.hart
  let t := h.vt
  let tb := tgt.bits h.fmtReg
  let n := cvtRegs t e.word tb
  let a := h.group (wA e.word) t.g
  let ah := h.headers (wA e.word) t.g t.per
  let act := activeOf s e
  let r := fun i => convertElem t (wFn e.word % 2 == 1) tgt (elemOf a t.ew i) (sourceValue h t a ah i)
  elementwise e act (fun i => (r i).2) t.vl
    (fun stop => putConverted t tb n e.start (wD e.word) act (fun i => (r i).1) stop) (n * (512 * t.n / tb)) s

theorem vcvtBody_plain {e : VEntry} {s : State} (htgt : ∀ i, targetOf (wB e.word) ≠ .slot i) :
    vcvtBody e s = cvtElems (targetOf (wB e.word)) e s := by
  unfold vcvtBody cvtElems
  dsimp only
  split
  · rename_i i heq
    exact absurd heq (htgt i)
  · rfl

theorem vcvtBody_slot {e : VEntry} {s : State} {i : Nat} (htgt : targetOf (wB e.word) = .slot i) : vcvtBody e s = slotBody i e s := by
  unfold vcvtBody
  simp only [htgt]

section
variable {s : State} {c : Convoy} {i : Instr} {e : VEntry} {d a b : Reg} {k : BitVec 3} {n : Nat} {sat : Bool}
variable (hc : IsConversion s i d a b k n sat)
include hc

theorem cvtElems_eq (he : e.Of s (encode i)) :
    let tgt := targetOf b.toNat
    let tb := tgt.bits s.hart.fmtReg
    cvtElems tgt e (s.past c) = elementwise e ((s.past c).isActive k) (fun j => (s.converted a tgt sat j).2) (s.past c).hart.vr.vl
      (putConverted s.hart.vt tb n 0 d.toNat ((s.past c).isActive k) (fun j => (s.converted a tgt sat j).1)) (n * (512 * s.hart.vt.n / tb))
      (s.past c) := by
  intro tgt tb
  obtain ⟨f, hf⟩ := hc.fields
  have hn : cvtRegs (s.past c).hart.vt e.word (tgt.bits (s.past c).hart.fmtReg) = n := by
    rw [he.word]
    exact hc.regs
  have hact : activeOf (s.past c) e = (s.past c).isActive k := activeOf_entry he.word hf
  unfold cvtElems
  simp only []
  rw [hn, hact, he.word, hf.wA_eq, hf.wD_eq, hc.sat, he.start]
  rfl

/-- A conversion taken at once runs its loop. -/
theorem cvt_exec (h : TakesAtOnce s i) (htgt : ∀ q, targetOf b.toNat ≠ .slot q) :
    ∃ c e, e.Of s (encode i) ∧ exec i s = .next (cvtElems (targetOf b.toNat) e (s.past c)).state := by
  obtain ⟨c, hexec⟩ := exec_atOnce h hc.exec
  obtain ⟨f, hf⟩ := hc.fields
  have hwB : wB (entryAt s.hart (encode i)).word = b.toNat := hf.wB_eq
  rw [vcvtBody_plain (by rw [hwB]; exact htgt), hwB] at hexec
  exact ⟨c, _, entryAt_of s _, hexec⟩

/-- What a conversion to an integer or floating-point type writes when no enabled class is raised. -/
theorem cvt_computes (h : TakesAtOnce s i) (htgt : ∀ q, targetOf b.toNat ≠ .slot q) :
    let tgt := targetOf b.toNat
    let tb := tgt.bits s.hart.fmtReg
    Quiet s k (fun e => (s.converted a tgt sat e).2) → ∃ u, exec i s = .next u ∧ VectorOnly s u d n ∧
      (∀ e, e < n * (512 * s.hart.vt.n / tb) → elemOf (u.hart.group d.toNat n) tb e =
        if e < s.hart.vr.vl ∧ s.hart.maskBit k e = true then (s.converted a tgt sat e).1 % 2 ^ tb
        else if e < s.hart.vr.vl then (if s.hart.vt.mp then 0 else elemOf (s.hart.group d.toNat n) tb e)
        else if s.hart.vt.tp then 0 else elemOf (s.hart.group d.toNat n) tb e) ∧
      u.hart.fl = s.notes k fun e => (s.converted a tgt sat e).2 := by
  intro tgt tb hq
  obtain ⟨c, e, he, hexec⟩ := cvt_exec hc h htgt
  have hquiet : Quiet (s.past c) k (fun e => (s.converted a tgt sat e).2) := hq
  rw [cvtElems_eq hc he, elementwise_quiet _ _ he.start hquiet, he.pc, VOut.state_done] at hexec
  refine ⟨_, hexec, ?_, fun j hj => ?_, congrArg (recordEvs _ _) putConverted_fl⟩
  · exact vectorOnly_recorded putConverted_frame putConverted_k fun r hr => ⟨putConverted_other hr, congrArg (·.get r) putConverted_hdr⟩
  · exact (elemOf_putConverted (s := s.past c) (k := k) _ _ (hc.fits h) h.quads hj).trans (convertedElem_all (s := s.past c) hj)

/-- Where it traps, and what it leaves. -/
theorem cvt_stops (h : TakesAtOnce s i) (htgt : ∀ q, targetOf b.toNat ≠ .slot q) {x : Cause} (hh : Handles s x) :
    let tgt := targetOf b.toNat
    let tb := tgt.bits s.hart.fmtReg
    ∀ j, RaisesAt s k (fun e => (s.converted a tgt sat e).2) j x → ∃ u, exec i s = .next u ∧ TrappedAt s u i x j ∧
      u.hart.fl = s.notesTo k (fun e => (s.converted a tgt sat e).2) (j + 1) ∧
      ∀ e, e < n * (512 * s.hart.vt.n / tb) → elemOf (u.hart.group d.toNat n) tb e =
        if e < j ∧ s.hart.maskBit k e = true then (s.converted a tgt sat e).1 % 2 ^ tb
        else if e < j ∧ s.hart.vt.mp = true then 0 else elemOf (s.hart.group d.toNat n) tb e := by
  intro tgt tb j hr
  obtain ⟨c, e, he, hexec⟩ := cvt_exec hc h htgt
  have hraise : RaisesAt (s.past c) k (fun e => (s.converted a tgt sat e).2) j x := hr
  have hj := ((s.mem_actives k j).1 hr.1).1
  rw [cvtElems_eq hc he, elementwise_traps _ _ he.start hraise, he.pc, VOut.state_trap] at hexec
  obtain ⟨htrap, hsame⟩ := parkTrap_results (j := j) (t := (s.past c).onHart _)
    (vectorWork_onHart (q := s.hart.q) (c := c) putConverted_frame.recorded) he hh (Ev.trap_not_pageFault hr.2.1)
  refine ⟨_, hexec, htrap, hsame.fl.trans (congrArg (recordEvs _ _) putConverted_fl), fun l hl => ?_⟩
  rw [hsame.group]
  exact (elemOf_putConverted (s := s.past c) (k := k) _ _ (hc.fits h) h.quads hl).trans (convertedElem_below (s := s.past c) hj.le)
end

end Sys2Proof.Machine
end

section
/-! PROOFS. Vector words (06), part 13: conversions to a slot (R47, R160). -/
namespace Sys2Proof.Machine

/-! ### Blocks written with their headers -/

/-- A destination of `n` registers whose blocks from the one of `start` to `stop - 1` are written, with their headers. -/
def putEncoded (t : VT) (tb n start d : Nat) (act : Nat → Bool) (code hdr : Nat → Nat) (stop : Nat) (g : Hart) : Hart :=
  let per := hdrBytes t.n tb
  let old := g.headers d n per
  (putConverted t tb n start d act code (32 * stop) g).putHeaders d n per (joinNat 8 (fun b =>
    if b < start / 32 ∨ stop ≤ b then elemOf old 8 b
    else if b < (t.vl + 31) / 32 then hdr b
    else if t.tp then 0 else elemOf old 8 b) (n * per))

section
variable {t : VT} {tb n start d : Nat} {act : Nat → Bool} {code hdr : Nat → Nat} {stop : Nat} {h : Hart}

theorem putEncoded_frame : WritesVector (putEncoded t tb n start d act code hdr stop) := by
  intro h
  unfold putEncoded putConverted Hart.putHeaders Hart.putGroup
  rfl
theorem putEncoded_k : (putEncoded t tb n start d act code hdr stop h).k = h.k := by
  unfold putEncoded
  exact Hart.putHeaders_k.trans putConverted_k
theorem putEncoded_fl : (putEncoded t tb n start d act code hdr stop h).fl = h.fl := by
  unfold putEncoded
  exact Hart.putHeaders_fl.trans putConverted_fl
theorem putEncoded_group (r m : Nat) :
    (putEncoded t tb n start d act code hdr stop h).group r m = (putConverted t tb n start d act code (32 * stop) h).group r m := by
  unfold putEncoded
  exact Hart.putHeaders_group ..
theorem putEncoded_other {r : Fin 32} (hr : r.val < d ∨ d + n ≤ r.val) : (putEncoded t tb n start d act code hdr stop h).v.get r = h.v.get r ∧
    (putEncoded t tb n start d act code hdr stop h).hdr.get r = h.hdr.get r := by
  unfold putEncoded
  exact ⟨(congrArg (·.get r) Hart.putHeaders_v).trans (putConverted_other hr),
    (Hart.putHeaders_other hr).trans (congrArg (·.get r) putConverted_hdr)⟩

/-- The header of a block. -/
theorem putEncoded_header (hfit : d + n ≤ 32) (hper : 8 * hdrBytes t.n tb ≤ 512) {b : Nat} (hb : b < n * hdrBytes t.n tb) :
    elemOf ((putEncoded t tb n 0 d act code hdr stop h).headers d n (hdrBytes t.n tb)) 8 b =
      if stop ≤ b then elemOf (h.headers d n (hdrBytes t.n tb)) 8 b
      else if 32 * b < t.vl then hdr b % 2 ^ 8 else if t.tp then 0 else elemOf (h.headers d n (hdrBytes t.n tb)) 8 b := by
  have hlt : elemOf (h.headers d n (hdrBytes t.n tb)) 8 b % 2 ^ 8 = elemOf (h.headers d n (hdrBytes t.n tb)) 8 b := elemOf_mod ..
  unfold putEncoded
  simp only []
  rw [elemOf_headers_putHeaders _ hfit hper hb]
  by_cases hs : stop ≤ b
  · rw [if_pos (.inr hs), if_pos hs, hlt]
  · rw [if_neg (by omega), if_neg hs]
    by_cases hv : 32 * b < t.vl
    · rw [if_pos (by omega), if_pos hv]
    · rw [if_neg (by omega), if_neg hv]
      split
      · rfl
      · exact hlt
end

theorem SameVector.headers {t u : State} (h : SameVector t u) (r n per : Nat) : u.hart.headers r n per = t.hart.headers r n per := by
  obtain ⟨-, hhdr, -⟩ := h
  exact Hart.headers_congr hhdr r n per

section
variable (s : State) (g : Hart → Hart) (pc : Word) (evs : List (Nat × Ev)) (r n : Nat)

theorem State.group_recorded : (s.onHart fun h => (g h).recorded pc evs).hart.group r n = (g s.hart).group r n := rfl
theorem State.headers_recorded (per : Nat) : (s.onHart fun h => (g h).recorded pc evs).hart.headers r n per = (g s.hart).headers r n per := rfl
end

/-! ### The encoding of a block (R47, R160) -/

/-- The exponent chosen for the active elements of a block. -/
def slotSE (s : State) (a : Reg) (k : BitVec 3) (sl : MSlot) (b : Nat) : Nat := chooseSE sl ((s.activesIn k b).map fun e => (s.source a e).1)

/-- The code of an element, with the events of the encoding. -/
def slotCode (s : State) (a : Reg) (k : BitVec 3) (sl : MSlot) (e : Nat) : Nat × Ev :=
  sl.encode s.hart.vt.rm ((s.source a e).1.scale (32 - (slotSE s a k sl (e / 32) : Int)))

/-- The events of an element: the encoding's and the source's. -/
def slotEv (s : State) (a : Reg) (k : BitVec 3) (sl : MSlot) (e : Nat) : Ev := (slotCode s a k sl e).2.or (s.source a e).2

theorem blockEvs_eq (s : State) (a : Reg) (k : BitVec 3) (sl : MSlot) (b : Nat) :
    blockEvs sl s.hart.vt.rm (s.source a) (s.activesIn k b) = (s.activesIn k b).map fun e => (e, slotEv s a k sl e) := by
  unfold blockEvs slotEv slotCode slotSE blockSE
  refine List.map_congr_left fun e he => ?_
  rw [((s.mem_activesIn k b e).1 he).2]

/-- The loop of a conversion to a slot. -/
theorem slotBody_eq (slot : Nat) (e : VEntry) (s : State) (he : e.start = 0) :
    let h := s.hart
    let t := h.vt
    let sl := slotOf h.fmtReg slot
    let tb := (Target.slot slot).bits h.fmtReg
    let n := cvtRegs t e.word tb
    let val := sourceValue h t (h.group (wA e.word) t.g) (h.headers (wA e.word) t.g t.per)
    let els := blockActive t (activeOf s e)
    let code := fun i => (sl.encode t.rm ((val i).1.scale (32 - (blockSE sl (fun j => (val j).1) (els (i / 32)) : Int)))).1
    let hdr := fun b => 64 * slot + blockSE sl (fun j => (val j).1) (els b)
    slotBody slot e s = blockwise e (fun b => blockEvs sl t.rm val (els b)) ((t.vl + 31) / 32)
      (putEncoded t tb n 0 (wD e.word) (activeOf s e) code hdr) (n * hdrBytes t.n tb + (t.vl + 31) / 32) s := by
  unfold slotBody blockwise putEncoded
  rw [he]
  rfl

section
variable {s : State} {c : Convoy} {i : Instr} {e : VEntry} {d a b : Reg} {k : BitVec 3} {n : Nat} {sat : Bool} {slot : Nat}
variable (hc : IsConversion s i d a b k n sat) (htgt : targetOf b.toNat = .slot slot)
include hc htgt

/-- The loop of a conversion to a slot, past the word. -/
theorem slotBody_past (he : e.Of s (encode i)) :
    let sl := slotOf s.hart.fmtReg slot
    let tb := (targetOf b.toNat).bits s.hart.fmtReg
    slotBody slot e (s.past c) = blockwise e (fun b => ((s.past c).activesIn k b).map fun e => (e, slotEv s a k sl e))
      (((s.past c).hart.vr.vl + 31) / 32)
      (putEncoded s.hart.vt tb n 0 d.toNat (s.isActive k) (fun e => (slotCode s a k sl e).1) fun b => 64 * slot + slotSE s a k sl b)
      (n * hdrBytes s.hart.vt.n tb + (s.hart.vr.vl + 31) / 32) (s.past c) := by
  intro sl tb
  obtain ⟨f, hf⟩ := hc.fields
  have htb : (Target.slot slot).bits s.hart.fmtReg = tb := congrArg (Target.bits s.hart.fmtReg) htgt.symm
  have hn : cvtRegs (s.past c).hart.vt e.word tb = n := by
    rw [he.word]
    exact hc.regs
  have hact : activeOf (s.past c) e = s.isActive k := activeOf_entry he.word hf
  have hels : blockActive (s.past c).hart.vt (s.isActive k) = s.activesIn k := funext (blockActive_eq s k)
  have hevs : (fun b => ((s.past c).activesIn k b).map fun e => (e, slotEv s a k sl e)) =
      fun b => blockEvs sl s.hart.vt.rm (s.source a) (s.activesIn k b) :=
    funext fun b => (blockEvs_eq s a k sl b).symm
  rw [slotBody_eq slot e (s.past c) he.start, hact, hels, he.word, hf.wA_eq, hf.wD_eq, hevs, ← hn, ← htb, he.word]
  rfl

/-- A conversion to a slot taken at once runs it. -/
theorem slot_exec (h : TakesAtOnce s i) : ∃ c e, e.Of s (encode i) ∧ exec i s = .next (slotBody slot e (s.past c)).state := by
  obtain ⟨c, hexec⟩ := exec_atOnce h hc.exec
  obtain ⟨f, hf⟩ := hc.fields
  have hwB : wB (entryAt s.hart (encode i)).word = b.toNat := hf.wB_eq
  rw [vcvtBody_slot (i := slot) (by rw [hwB]; exact htgt)] at hexec
  exact ⟨c, _, entryAt_of s _, hexec⟩

omit hc in
theorem slot_container : (targetOf b.toNat).bits s.hart.fmtReg ∈ [2, 4, 8] := by
  rw [htgt]
  exact containerOf_mem _

/-- What a conversion to a slot writes when no enabled class is raised. -/
theorem slot_computes (h : TakesAtOnce s i) :
    let sl := slotOf s.hart.fmtReg slot
    let tb := (targetOf b.toNat).bits s.hart.fmtReg
    let per := hdrBytes s.hart.vt.n tb
    Quiet s k (slotEv s a k sl) → ∃ u, exec i s = .next u ∧ VectorOnly s u d n ∧
      (∀ e, e < n * (512 * s.hart.vt.n / tb) → elemOf (u.hart.group d.toNat n) tb e =
        if e < s.hart.vr.vl ∧ s.hart.maskBit k e = true then (slotCode s a k sl e).1 % 2 ^ tb
        else if e < s.hart.vr.vl then (if s.hart.vt.mp then 0 else elemOf (s.hart.group d.toNat n) tb e)
        else if s.hart.vt.tp then 0 else elemOf (s.hart.group d.toNat n) tb e) ∧
      u.hart.fl = s.notes k (slotEv s a k sl) ∧
      ∀ blk, blk < n * per → elemOf (u.hart.headers d.toNat n per) 8 blk =
        if 32 * blk < s.hart.vr.vl then (64 * slot + slotSE s a k sl blk) % 2 ^ 8
        else if s.hart.vt.tp then 0 else elemOf (s.hart.headers d.toNat n per) 8 blk := by
  intro sl tb per hq
  obtain ⟨c, e, he, hexec⟩ := slot_exec hc htgt h
  have hquiet : Quiet (s.past c) k (slotEv s a k (slotOf s.hart.fmtReg slot)) := hq
  rw [slotBody_past hc htgt he, blockwise_quiet (s := s.past c) _ _ (fun _ => rfl) hquiet, he.pc, VOut.state_done] at hexec
  have hfit := hc.fits h
  have htb : tb ∈ [2, 4, 8] := slot_container htgt
  have hfill : 32 * per = 512 * s.hart.vt.n / tb := blocks_fill htb
  refine ⟨_, hexec, ?_, fun j hj => ?_, congrArg (recordEvs _ _) putEncoded_fl, fun blk hblk => ?_⟩
  · exact vectorOnly_recorded putEncoded_frame putEncoded_k fun r hr => putEncoded_other hr
  · have hstop : j < 32 * (n * per + (s.hart.vr.vl + 31) / 32) := by
      have : 32 * (n * per) = n * (512 * s.hart.vt.n / tb) := by rw [← hfill]; ring
      omega
    rw [State.group_recorded, putEncoded_group]
    exact (elemOf_putConverted (s := s.past c) (k := k) _ _ hfit h.quads hj).trans (convertedElem_all (s := s.past c) hstop)
  · rw [State.headers_recorded]
    refine (putEncoded_header (h := (s.past c).hart) hfit (hdrBytes_le h.quads htb) hblk).trans ?_
    exact if_neg (Nat.not_le.2 (Nat.lt_add_right _ hblk))

/-- Where it traps: at the block of the lowest raising element, the blocks below it written whole (R143, R160). -/
theorem slot_stops (h : TakesAtOnce s i) {x : Cause} (hh : Handles s x) :
    let sl := slotOf s.hart.fmtReg slot
    let tb := (targetOf b.toNat).bits s.hart.fmtReg
    let per := hdrBytes s.hart.vt.n tb
    ∀ j, RaisesAt s k (slotEv s a k sl) j x → ∃ u, exec i s = .next u ∧ TrappedAt s u i x (32 * (j / 32)) ∧
      u.hart.fl = s.notesTo k (slotEv s a k sl) (32 * (j / 32) + 32) ∧
      (∀ e, e < n * (512 * s.hart.vt.n / tb) → elemOf (u.hart.group d.toNat n) tb e =
        if e < 32 * (j / 32) ∧ s.hart.maskBit k e = true then (slotCode s a k sl e).1 % 2 ^ tb
        else if e < 32 * (j / 32) ∧ s.hart.vt.mp = true then 0 else elemOf (s.hart.group d.toNat n) tb e) ∧
      ∀ blk, blk < n * per → elemOf (u.hart.headers d.toNat n per) 8 blk =
        if blk < j / 32 then (64 * slot + slotSE s a k sl blk) % 2 ^ 8 else elemOf (s.hart.headers d.toNat n per) 8 blk := by
  intro sl tb per j hr
  obtain ⟨c, e, he, hexec⟩ := slot_exec hc htgt h
  have hraise : RaisesAt (s.past c) k (slotEv s a k (slotOf s.hart.fmtReg slot)) j x := hr
  have hj := ((s.mem_actives k j).1 hr.1).1
  rw [slotBody_past hc htgt he, blockwise_traps (s := s.past c) _ _ (fun _ => rfl) hraise, he.pc, VOut.state_trap] at hexec
  have hfit := hc.fits h
  obtain ⟨htrap, hsame⟩ := parkTrap_results (j := 32 * (j / 32)) (t := (s.past c).onHart _)
    (vectorWork_onHart (q := s.hart.q) (c := c) putEncoded_frame.recorded) he hh (Ev.trap_not_pageFault hr.2.1)
  refine ⟨_, hexec, htrap, hsame.fl.trans (congrArg (recordEvs _ _) putEncoded_fl), fun l hl => ?_, fun blk hblk => ?_⟩
  · rw [hsame.group, State.group_recorded, putEncoded_group]
    exact (elemOf_putConverted (s := s.past c) (k := k) _ _ hfit h.quads hl).trans (convertedElem_below (s := s.past c) (by
      show 32 * (j / 32) ≤ s.hart.vr.vl
      omega))
  · rw [hsame.headers, State.headers_recorded]
    refine (putEncoded_header (h := (s.past c).hart) hfit (hdrBytes_le h.quads (slot_container htgt)) hblk).trans ?_
    have hvl : s.hart.vt.vl = s.hart.vr.vl := rfl
    by_cases hb : blk < j / 32
    · rw [if_neg (by omega), if_pos hb, hvl, if_pos (by omega)]
    · rw [if_pos (by omega), if_neg hb]
      rfl
end

/-- Settles O39: the three words run one loop over elements, or over blocks for a slot. -/
theorem conversionResults : Obligations.ConversionResults := by
  unfold Obligations.ConversionResults
  intro s d a b k t sat c
  dsimp only
  intro hn p hp h
  have hc := conversions_are s d a b k t sat c p hp
  exact ⟨fun htgt => cvt_computes hc h htgt, fun slot htgt => slot_computes hc htgt h⟩

end Sys2Proof.Machine
end

section
/-! PROOFS. Vector words (06), part 14: the traps of the vector families (R143, R158, R160). -/
namespace Sys2Proof.Machine

section
variable {s : State} (op : IOp) {d a b : Reg} {i : BitVec 5} {k : BitVec 3} {t c : Bool}

/-- Where the words of an integer operation trap: with a group and with a scalar. -/
theorem vint_stops :
    (TakesAtOnce s (vintVv op d a b k t c) → Stops s (vintVv op d a b k t c) d k fun e =>
      op.row s.hart.vt.isSigned s.hart.vt.ew (s.elem a e) (s.elem b e) (s.elem d e)) ∧
    (TakesAtOnce s (vintVx op d a b k t c) → ∀ v s0, s.operand b = some (v, s0) → Stops s (vintVx op d a b k t c) d k fun e =>
      op.row s.hart.vt.isSigned s.hart.vt.ew (s.elem a e) (v.toNat % 2 ^ s.hart.vt.ew) (s.elem d e)) :=
  ⟨fun h => (vintVv_row op h).2, fun h v s0 ho => (vintVx_row op h v s0 ho).2⟩

/-- The same with an immediate that is no shift amount. -/
theorem vintVi_stops (hop : op.isShift = false) (h : TakesAtOnce s (vintVi op d a i k t c)) : Stops s (vintVi op d a i k t c) d k fun e =>
    op.row s.hart.vt.isSigned s.hart.vt.ew (s.elem a e)
      (if s.hart.vt.isSigned then (i.toInt % 2 ^ s.hart.vt.ew).toNat else i.toNat % 2 ^ s.hart.vt.ew) (s.elem d e) := by
  have hstop := (vintVi_row op h).2
  rwa [hop, immY_false] at hstop
end

/-- Settles O35: each family's loop traps at its lowest raising element, a reduction as a whole, a conversion to a slot by blocks. -/
theorem vectorTraps : Obligations.VectorTraps := by
  unfold Obligations.VectorTraps
  intro s d a b i k t sat c
  dsimp only
  refine ⟨?_, ?_, ?_, fun hfl v s0 ho hne hroom p hp h x hh ht => red_float_traps ho hroom hfl hne hp h x hh ht, fun p hp h x hh => ?_⟩
  · simp only [List.forall_mem_cons, List.not_mem_nil, false_imp_iff, implies_true, and_true]
    have row (op : FOp) {vv vx : Instr} {f : BitVec 6} (hvv : encode vv = vword 36#6 d a b k (bit1 t) f (bit1 c))
        (hvx : encode vx = vword 37#6 d a b k (bit1 t) f (bit1 c)) := vfp_stops (s := s) op (hvv ▸ fields_vword ..) (hvx ▸ fields_vword ..)
    refine ⟨?_, ?_, ?_, ?_, ?_, ?_, ?_, ?_, vint_stops .add, vint_stops .sub, vint_stops .rsub, vint_stops .mul, vint_stops .macc,
      vint_stops .sadd, vint_stops .ssub⟩
    · exact row (fun f m x y _ => fAdd f m x y) rfl rfl rfl rfl (by decide)
    · exact row (fun f m x y _ => fSub f m x y) rfl rfl rfl rfl (by decide)
    · exact row (fun f m x y _ => fMul f m x y) rfl rfl rfl rfl (by decide)
    · exact row (fun f m x y z => fFma f m x y (f.decode z)) rfl rfl rfl rfl (by decide)
    · exact row (fun f m x y z => fFma f m x y (f.decode z).negate) rfl rfl rfl rfl (by decide)
    · exact row (fun f m x y _ => fDiv f m x y) rfl rfl rfl rfl (by decide)
    · exact row (fun f _ x y _ => fMinMax f false x y) rfl rfl rfl rfl (by decide)
    · exact row (fun f _ x y _ => fMinMax f true x y) rfl rfl rfl rfl (by decide)
  · simp only [List.forall_mem_cons, List.not_mem_nil, false_imp_iff, implies_true, and_true]
    have unary (op : FOp) {i : Instr} {f : BitVec 6} (hi : encode i = vword 36#6 d a 0#5 k (bit1 t) f (bit1 c)) (h : TakesAtOnce s i)
        (hx : exec i s = vissue (encode i) (vfpBody op false) s) (hfn : f.toNat = 6 ∨ f.toNat = 9 ∨ f.toNat = 10) :=
      (vfp_unary op h hx (hi ▸ fields_vword ..) hfn).2
    refine ⟨vintVi_stops .add rfl, vintVi_stops .sub rfl, vintVi_stops .rsub rfl, vintVi_stops .mul rfl, vintVi_stops .macc rfl,
      vintVi_stops .sadd rfl, vintVi_stops .ssub rfl, ?_, ?_⟩
    · exact fun h => unary (fun f m x _ _ => fSqrt f m x) rfl h rfl (by decide)
    · exact fun h => unary (fun f _ x _ _ => fRcpe f x) rfl h rfl (by decide)
  · simp only [List.forall_mem_cons, List.not_mem_nil, false_imp_iff, implies_true, and_true]
    have floats (rel : Relation) {vv vx : Instr} {f g : BitVec 6} (hvv : encode vv = vword 38#6 d a b k (bit1 t) f (bit1 c))
        (hvx : encode vx = vword 38#6 d a b k (bit1 t) g (bit1 c)) :=
      vcmp_stops (s := s) (rel := rel) (hvv ▸ fields_vword ..) (hvx ▸ fields_vword ..)
    refine ⟨?_, ?_, ?_, ?_⟩
    · exact floats (fun t a y => fEq t.fmt a y) rfl rfl rfl rfl
    · exact floats (fun t a y => (!(fEq t.fmt a y).1, (fEq t.fmt a y).2)) rfl rfl rfl rfl
    · exact floats (fun t a y => fLt t.fmt a y) rfl rfl rfl rfl
    · exact floats (fun t a y => fLe t.fmt a y) rfl rfl rfl rfl
  · have hc := conversions_are s d a b k t sat c p hp
    exact ⟨fun htgt => cvt_stops hc h htgt hh, fun slot htgt => slot_stops hc htgt h hh⟩

end Sys2Proof.Machine
end

section
/-! PROOFS. Vector words (06), part 15: the type state (R8, R10, R17 to R19, R145). -/
namespace Sys2Proof.Machine

/-! ### The layout and VL (R8, R10) -/

section
variable (s : State) (v want : Word) (c : Nat)

/-- VL under a VTYPE whose elements have `ew` bits (R10). -/
def lengthUnder (ew : Nat) : Nat := min want.toNat (min 4096 (512 * s.hart.quads.count * 2 ^ bitsOf v.toNat 7 6 / ew))

/-- The type state that a VTYPE, a wanted length and a container give. -/
def newType : VRegs :=
  { vtype := v, vl := lengthUnder s v want (ewBits v c), cbits := c, quads := s.hart.quads.count, pending := false }

/-- With the holding of the last setting, the registers stay. -/
theorem setLength_held (hq : s.hart.vr.quads = s.hart.quads.count) : s.hart.setLength v want c = { s.hart with vr := newType s v want c } := by
  unfold Hart.setLength Hart.layout newType
  exact (if_pos hq).trans (congrArg (fun n => ({ s.hart with vr := { newType s v want c with quads := n } } : Hart)) hq)

/-- With another, every v and k register reads zero. -/
theorem setLength_changed (hq : s.hart.vr.quads ≠ s.hart.quads.count) : s.hart.setLength v want c = { s.hart with
    vr := newType s v want c, v := Vector.replicate 32 0, hdr := Vector.replicate 32 0, k := Vector.replicate 8 0 } := by
  unfold Hart.setLength Hart.layout newType
  exact if_neg hq

/-- Nothing else changes. -/
theorem setLength_frame : s.hart.setLength v want c = { s.hart with
    vr := newType s v want c, v := (s.hart.setLength v want c).v, hdr := (s.hart.setLength v want c).hdr, k := (s.hart.setLength v want c).k } := by
  by_cases hq : s.hart.vr.quads = s.hart.quads.count
  · rw [setLength_held s v want c hq]
  · rw [setLength_changed s v want c hq]
end

/-! ### The words (R145) -/

/-- What `vsetl` and `vsett` leave. -/
def SetsType (s u : State) (d : Reg) (v want : Word) (c ew : Nat) : Prop :=
  u.hart.vr = { vtype := v, vl := lengthUnder s v want ew, cbits := c, quads := s.hart.quads.count, pending := false } ∧
  (d ≠ 0 → u.get d = BitVec.ofNat 64 u.hart.vr.vl) ∧ KeepsX d s u ∧ u.hart.pc = s.hart.pc + 4 ∧ u.hart.fl = s.hart.fl ∧
  (∀ i, u.byte i = s.byte i) ∧ u.hart.q = s.hart.q ∧ u.hart.z = s.hart.z ∧
  (if s.hart.vr.quads = s.hart.quads.count then u.hart.v = s.hart.v ∧ u.hart.k = s.hart.k ∧ u.hart.hdr = s.hart.hdr
   else u.hart.v = Vector.replicate 32 0 ∧ u.hart.k = Vector.replicate 8 0)

section
variable (s : State) (d : Reg) (v want : Word) (c : Nat)

/-- A hart with a new type state, and the result of the word. -/
theorem setsType_of_hart {h : Hart} (hframe : h = { s.hart with vr := newType s v want c, v := h.v, hdr := h.hdr, k := h.k })
    (hregs : if s.hart.vr.quads = s.hart.quads.count then h.v = s.hart.v ∧ h.k = s.hart.k ∧ h.hdr = s.hart.hdr
      else h.v = Vector.replicate 32 0 ∧ h.k = Vector.replicate 8 0) :
    SetsType s (({ s with hart := h }.set d (BitVec.ofNat 64 h.vr.vl)).advance) d v want c (ewBits v c) := by
  have hpc : h.pc = s.hart.pc := by rw [hframe]
  have hfl : h.fl = s.hart.fl := by rw [hframe]
  have hq : h.q = s.hart.q := by rw [hframe]
  have hz : h.z = s.hart.z := by rw [hframe]
  have hvr : h.vr = newType s v want c := by rw [hframe]
  have hget (r : Reg) : h.get r = s.get r := by rw [hframe]; rfl
  have huvr : (({ s with hart := h }.set d (BitVec.ofNat 64 h.vr.vl)).advance).hart.vr = h.vr := Hart.set_vr ..
  refine ⟨huvr.trans hvr, fun hd => ?_, fun r hr => ?_, ?_, (Hart.set_fl ..).trans hfl, fun _ => rfl, (Hart.set_q ..).trans hq,
    (Hart.set_z ..).trans hz, ?_⟩
  · rw [huvr]
    exact (Hart.get_set_self ..).trans (if_neg hd)
  · exact (Hart.get_set_ne _ _ _ _ hr).trans (hget r)
  · exact congrArg (· + 4) ((Hart.set_pc ..).trans hpc)
  · have hv : (h.set d (BitVec.ofNat 64 h.vr.vl)).v = h.v := Hart.set_v ..
    have hk : (h.set d (BitVec.ofNat 64 h.vr.vl)).k = h.k := Hart.set_k ..
    have hh : (h.set d (BitVec.ofNat 64 h.vr.vl)).hdr = h.hdr := Hart.set_hdr ..
    rw [← hv, ← hk, ← hh] at hregs
    exact hregs

/-- The hart that a new length and VTYPE leave. -/
theorem setsType_setLength : SetsType s
    (({ s with hart := s.hart.setLength v want c }.set d (BitVec.ofNat 64 (s.hart.setLength v want c).vr.vl)).advance) d v want c (ewBits v c) := by
  refine setsType_of_hart s d v want c (setLength_frame s v want c) ?_
  by_cases hq : s.hart.vr.quads = s.hart.quads.count
  · rw [if_pos hq, setLength_held s v want c hq]
    exact ⟨rfl, rfl, rfl⟩
  · rw [if_neg hq, setLength_changed s v want c hq]
    exact ⟨rfl, rfl⟩
end

/-! ### What is accepted (R17 to R19) -/

theorem vtLegal_iff (v : Word) : vtLegal v = true ↔ ¬ (2 ^ 32 ≤ v.toNat ∨ v.toNat % 8 ≠ 0 ∨ 4 < bitsOf v.toNat 18 16 ∨
    legalPair (bitsOf v.toNat 10 8) (bitsOf v.toNat 5 3) = false) := by
  unfold vtLegal vtClass vtEw
  simp only [Bool.and_eq_true, decide_eq_true_eq, not_or, Nat.not_le, not_not, Nat.not_lt, Bool.not_eq_false, and_assoc]

theorem vsettAccepts_illegal {h : Hart} {v : Word} (hv : ¬ vtLegal v = true) : vsettAccepts h v = none := by
  unfold vsettAccepts
  simp [hv]

theorem vsettAccepts_legal {h : Hart} {v : Word} (hv : vtLegal v = true) (hc : vtClass v ≠ 5) : vsettAccepts h v = some h.vr.cbits := by
  unfold vsettAccepts
  simp [hv, hc]

section
variable {s : State} (d a b : Reg) (hvq : s.hart.vs.vq = [])
include hvq

theorem vsetl_results : ∃ u, exec (.vsetl d a) s = .next u ∧
    SetsType s u d s.hart.vr.vtype (s.get a) s.hart.vr.cbits (ewBits s.hart.vr.vtype s.hart.vr.cbits) := by
  have hdone : s.hart.vectorDone = true := by rw [Hart.vectorDone, hvq]; rfl
  refine ⟨_, ?_, setsType_setLength ..⟩
  show execVsetl d a s = _
  unfold execVsetl
  rw [hdone]
  rfl

theorem vsett_results {c : Nat} (hacc : vsettAccepts s.hart (s.get a) = some c) : ∃ u, exec (.vsett d a b) s = .next u ∧
    SetsType s u d (s.get a) (s.get b) c (ewBits (s.get a) c) := by
  have hdone : s.hart.vectorDone = true := by rw [Hart.vectorDone, hvq]; rfl
  refine ⟨_, ?_, setsType_setLength ..⟩
  show execVsett d a b s = _
  unfold execVsett
  rw [hdone, hacc]
  rfl

theorem vsett_traps (hacc : vsettAccepts s.hart (s.get a) = none) :
    exec (.vsett d a b) s = .next (s.trap .illegalType ((encode (.vsett d a b)).zeroExtend 64)) := by
  have hdone : s.hart.vectorDone = true := by rw [Hart.vectorDone, hvq]; rfl
  show execVsett d a b s = _
  unfold execVsett
  rw [hdone, hacc]
  rfl
end

/-- Settles O31: both words set the type state by `setLength`; `vsett` does so for a VTYPE that it accepts. -/
theorem typeSetting : Obligations.TypeSetting := by
  unfold Obligations.TypeSetting
  intro s d a b hvq
  refine ⟨vsetl_results d a hvq, fun hbad => ?_, fun hgood hc => ?_, fun c hacc hc => ?_⟩
  · exact vsett_traps d a b hvq (vsettAccepts_illegal fun h => (vtLegal_iff _).1 h hbad)
  · exact vsett_results d a b hvq (vsettAccepts_legal ((vtLegal_iff _).2 hgood) hc)
  · obtain ⟨u, hexec, hsets⟩ := vsett_results d a b hvq hacc
    have hew : ewBits (s.get a) c = c := if_pos hc
    rw [hew] at hsets
    exact ⟨u, hexec, hsets⟩

end Sys2Proof.Machine
end
